-- ==== Sys2Proof/Word.lean ====
section
/-! DEFINITION. The word types of the EL840 (R14, R15, Table 0.5). -/

namespace Sys2Proof

/-- A 64-bit register or memory doubleword (Table 3.7). -/
abbrev Word := BitVec 64

/-- A byte of any memory (Table 0.5). -/
abbrev Byte := BitVec 8

/-- A vector register: 2,048 bits (Table 3.7). -/
abbrev VReg := BitVec 2048

/-- A tile accumulator: 16 × 32 cells of 32 bits, cell (i, j) at bit 32 × (32 i + j) (R195). -/
abbrev Acc := BitVec 16384

/-- A field of a 32-bit instruction word that names an x register (R69). -/
abbrev XIdx := BitVec 5
/-- A field that names a v register (R69: 0–15). -/
abbrev VIdx := BitVec 4
/-- A field that names a mask register (R69: 0–7). -/
abbrev PIdx := BitVec 3
/-- A field that names an accumulator (R69: 0–3). -/
abbrev AIdx := BitVec 2

end Sys2Proof
end

