-- ==== Sys2Proof/Forms.lean ====
section
/-! DEFINITION. The kinds of operand that instructions name, and what the rows without bits concern: a row without bits has
no operand fields, so what it concerns and what the outside world supplies is a `Subject`, which a step puts into the
state before it performs the row. -/

namespace Sys2Proof

/-- Scalar access width (Table 3.2, R246). -/
inductive Width | b | h | w | d
deriving DecidableEq, Repr

/-- Floating-point lane type (Table 9.1). -/
inductive FpT | f32 | f16 | bf16
deriving DecidableEq, Repr

/-- Rounding code of an instruction (R167): `dyn` uses RM of `%fpmode`. -/
inductive Rc | dyn | rne | rtz | rup | rdn
deriving DecidableEq, Repr

/-- Integer lane width (Table 9.1). -/
inductive ElW | w32 | w16 | w8
deriving DecidableEq, Repr

/-- Floating-point compare condition (R169). -/
inductive CmpF | eq | ne | lt | le | un | ord
deriving DecidableEq, Repr

/-- Integer compare condition (Table 9.5, OP 21–26). -/
inductive CmpI | eq | ne | lt | le | ltu | leu
deriving DecidableEq, Repr

/-- Fence scope (R236). -/
inductive Scope | core | cl | die | pkg | sys
deriving DecidableEq, Repr

/-- The allocated CSRs (Table 3.8, R219, R257, R275, R319). -/
inductive Csr
  | pid | region | cls | period | deadline | budget | quantum | time | cycle
  | fpmode | fpflags | coord | pkgcfg | gstat | tstat | nistat | probe | memst | msreq
deriving DecidableEq, Repr

/-- Tile formats in the order of Table 11.3 (codes 0–10). -/
inductive TileFmt | bf16 | f16 | e4m3 | e5m2 | i8 | bs4 | bs6 | bs8 | f32 | i32 | i16
deriving DecidableEq, Repr

/-- Conversion types in the order of Table 9.8 (codes 0–8). -/
inductive CvtT | f32 | f16 | bf16 | e5m2 | e4m3 | i32 | i16 | i8 | q15
deriving DecidableEq, Repr

/-- Destinations of `vcvt.sr` (Table 9.9). -/
inductive SrT | f16 | bf16 | e5m2 | e4m3
deriving DecidableEq, Repr

/-- Types of `vpack` and `vunpk` (Table 9.7). -/
inductive PackT | i16 | u16 | i8 | u8
deriving DecidableEq, Repr

/-- Types of a reduction (Table 9.10): floating point, signed and unsigned. -/
inductive RedT | f (t : FpT) | i (w : ElW) | u (w : ElW)
deriving DecidableEq, Repr

/-- Types of `vscan` (Table 9.10). -/
inductive ScanT | f32 | i32 | i16
deriving DecidableEq, Repr

/-- Where an item of the stage manager stands (R371, R373): the thread that runs it, its POSTSEM and POSTADD, the value
its record's PC takes, its position in the thread's ring (for LOOP and IF), and whether it is in a resident list. -/
structure ItemHdr where
  thread : Nat
  postsem : BitVec 16
  postadd : BitVec 32
  pc : Word
  pos : Nat
  resident : Bool
deriving DecidableEq, Repr

/-- An answer of the monitor to a held machine-level record (R55). -/
inductive MonitorAction
  | reply (w0 w1 : Word)
  | endRegion (region : Nat)
deriving DecidableEq, Repr

/-- A packet of an Ultra Ethernet flow (R358), with the length of its message and the byte offset in it. -/
structure UetPacket where
  flow : Nat
  psn : BitVec 32
  msg : BitVec 32
  len : BitVec 32
  off : BitVec 32
  tag : BitVec 16
  key : BitVec 32
  payload : List Byte
deriving DecidableEq, Repr

/-- A request from another package (R344), or what a party there does at a channel (R287, R290): a message, a tile with its
sender's descriptor, a `recvt` with its descriptor. -/
inductive UaRequest
  | read (addr n : Nat)
  | write (addr : Nat) (bytes : List Byte)
  | deposit (table name : Nat) (msg : List Word)
  | tile (table name : Nat) (w0 w1 : Word) (bytes : List Byte)
  | takeTile (table name : Nat) (w0 w1 : Word)
deriving DecidableEq, Repr

/-- The target's answer to an aperture access (R345, R346), or to a party at a channel: the bytes of a tile, or that the
descriptors differ (R287). -/
inductive UaAnswer
  | data (v : Nat)
  | ack
  | refused
  | tile (bytes : List Byte)
  | shape
deriving DecidableEq, Repr

/-- A register that has no row of its own (R16): `%quantum` and `%probe` through the control window, KEYHOLD, and the
read-only status registers, whose writes are ignored. -/
inductive ControlReg
  | quantum (core : Nat)
  | probe (core : Nat)
  | keyhold (group : Nat)
  | causalStatus (die : Nat)
  | edgeStatus (group : Nat)
  | edgeCounter (group k : Nat)
deriving DecidableEq, Repr

/-- A grant of the monitor to a queue's region (R370): a range of global-alias or loft addresses with rights. -/
structure GrantRange where
  base : Nat
  limit : Nat
  write : Bool
deriving DecidableEq, Repr

/-- What the monitor configures when it gives a thread to a function (R368, R370, R376, R389). -/
structure Assignment where
  thread : Nat
  function : Nat
  ringBase : Nat
  ringLog : Nat
  ceil : BitVec 2
  fdepth : Nat
  plto : Nat
  corebud : Nat
  grbud : Nat
  faultep : Nat
  replyep : Nat
  segtab : Nat
  chtab : Nat
  wintab : Nat
  grants : List GrantRange
  semaphores : List (Nat × Nat)
  edgeGroups : List Nat
  hostQueues : List Nat
deriving DecidableEq, Repr

/-- What the boot meets (R379): the images with their signatures and security versions, and what trains. -/
structure BootInput where
  monImage : List Byte
  monVersion : Nat
  monKeyX : Nat
  monKeyY : Nat
  monR : Nat
  monS : Nat
  trained : BitVec 8
  fwImage : List Byte
  fwVersion : Nat
  ownKeyX : Nat
  ownKeyY : Nat
  fwR : Nat
  fwS : Nat
deriving DecidableEq, Repr

/-- Life-cycle states (R381). -/
inductive LifeCycle | manufacture | owned | debug | retired
deriving DecidableEq, Repr

/-- What a row without bits concerns: the item of a command, or the ids and inputs of an event. -/
inductive Subject
  | none
  | id (n : Nat)
  | pair (a b : Nat)
  | stream (pid : Nat) (s : BitVec 3)
  | moves (id : Nat) (ms : List (Nat × Nat))
  | item (h : ItemHdr) (a0 a1 a2 : Word)
  | monitor (m : MonitorAction)
  | train (g : Nat) (lanes : BitVec 8)
  | uet (g : Nat) (pkt : UetPacket)
  | ack (g flow : Nat) (base : BitVec 32) (map : BitVec 64)
  | resend (g flow : Nat) (psn : BitVec 32)
  | request (g : Nat) (r : UaRequest)
  | answer (id : Nat) (r : UaAnswer)
  | control (r : ControlReg) (v : Word)
  | boot (b : BootInput)
  | life (s : LifeCycle) (image : List Byte) (keyX keyY r sg : Nat)
  | attest (nonce : BitVec 256) (slot : Nat)
  | encoding (word : BitVec 32) (reason : BitVec 12)
  | fetch (addr : Word)
  | domain (pkg : BitVec 16)
  | assign (m : Assignment)
deriving DecidableEq, Repr

end Sys2Proof
end

