-- ==== Sys2Proof/Syntax.lean ====
section
/-! DEFINITION. The operations of the EL840: one constructor of `Instr` for each row of the opcode table. The first
part are the encoded instructions, the second the rows without bits: the device's events and the commands of the stage
manager, whose operands are the `Subject` of the step (Forms.lean). -/

namespace Sys2Proof

/-- The operations. Register fields keep the names of Table 3.1: `d`, `a`, `b` and the mask `m`. -/
inductive Instr
  -- major 0x01 (Table 5.2)
  | add (d a b : XIdx) | sub (d a b : XIdx) | and (d a b : XIdx) | or (d a b : XIdx) | xor (d a b : XIdx)
  | andn (d a b : XIdx) | sll (d a b : XIdx) | srl (d a b : XIdx) | sra (d a b : XIdx) | ror (d a b : XIdx)
  | slt (d a b : XIdx) | sltu (d a b : XIdx) | min (d a b : XIdx) | max (d a b : XIdx)
  | minu (d a b : XIdx) | maxu (d a b : XIdx)
  | mul (d a b : XIdx) | mulh (d a b : XIdx) | mulhu (d a b : XIdx) | mulhsu (d a b : XIdx)
  | div (d a b : XIdx) | divu (d a b : XIdx) | rem (d a b : XIdx) | remu (d a b : XIdx)
  | clz (d a : XIdx) | ctz (d a : XIdx) | popc (d a : XIdx)
  | sextB (d a : XIdx) | sextH (d a : XIdx) | sextW (d a : XIdx) | zextW (d a : XIdx)
  -- majors 0x02–0x0A (Table 5.4, R65, R108)
  | addi (d a : XIdx) (imm : BitVec 15) | andi (d a : XIdx) (imm : BitVec 15) | ori (d a : XIdx) (imm : BitVec 15)
  | xori (d a : XIdx) (imm : BitVec 15) | slti (d a : XIdx) (imm : BitVec 15) | sltiu (d a : XIdx) (imm : BitVec 15)
  | slli (d a : XIdx) (sh : BitVec 6) | srli (d a : XIdx) (sh : BitVec 6) | srai (d a : XIdx) (sh : BitVec 6)
  | lih (d : XIdx) (imm : BitVec 20) | addpc (d : XIdx) (imm : BitVec 20)
  -- loads and stores (Table 3.2)
  | ldb (d a : XIdx) (off : BitVec 12) | ldh (d a : XIdx) (off : BitVec 12) | ldw (d a : XIdx) (off : BitVec 12)
  | ldd (d a : XIdx) (off : BitVec 12) | ldbu (d a : XIdx) (off : BitVec 12) | ldhu (d a : XIdx) (off : BitVec 12)
  | ldwu (d a : XIdx) (off : BitVec 12)
  | stb (b a : XIdx) (off : BitVec 12) | sth (b a : XIdx) (off : BitVec 12) | stw (b a : XIdx) (off : BitVec 12)
  | std (b a : XIdx) (off : BitVec 12)
  -- branches and jumps (R64)
  | beq (a b : XIdx) (off : BitVec 15) | bne (a b : XIdx) (off : BitVec 15) | blt (a b : XIdx) (off : BitVec 15)
  | bge (a b : XIdx) (off : BitVec 15) | bltu (a b : XIdx) (off : BitVec 15) | bgeu (a b : XIdx) (off : BitVec 15)
  | jal (d : XIdx) (off : BitVec 20) | jalr (d a : XIdx) (imm : BitVec 15)
  -- system (Table 5.6)
  | trap (a : XIdx) (code : BitVec 10) | brk (code : BitVec 10) | ifl (a b : XIdx)
  | csrr (d : XIdx) (c : Csr) | csrw (c : Csr) (a : XIdx) | csrs (d : XIdx) (c : Csr) (a : XIdx)
  | csrc (d : XIdx) (c : Csr) (a : XIdx)
  -- compact forms (Table 3.6)
  | cAddi (d : XIdx) (imm : BitVec 6) | cLi (d : XIdx) (imm : BitVec 6) | cMv (d a : XIdx) | cAdd (d a : XIdx)
  | cSub (d a : XIdx) | cAnd (d a : XIdx) | cOr (d a : XIdx) | cXor (d a : XIdx)
  | cSlli (d : XIdx) (sh : BitVec 6) | cSrli (d : XIdx) (sh : BitVec 6)
  | cLdd (d a : BitVec 3) (off : BitVec 5) | cStd (b a : BitVec 3) (off : BitVec 5)
  | cLdw (d a : BitVec 3) (off : BitVec 5) | cStw (b a : BitVec 3) (off : BitVec 5)
  | cBeqz (a : BitVec 3) (off : BitVec 8) | cBnez (a : BitVec 3) (off : BitVec 8) | cJ (off : BitVec 11)
  -- majors 0x0D–0x0F (Tables 13.11, R255, R256)
  | ldaq (sz : Width) (d a : XIdx) | strl (sz : Width) (b a : XIdx)
  | ldf (d a : XIdx) | lde (d a : XIdx) | stf (b a : XIdx) | ste (b a : XIdx)
  | fefill (a b : XIdx) | feclr (a b : XIdx) | waitw (d a b : XIdx) | waitc (d a b : XIdx)
  | stNt (b a : XIdx) | drainNt
  | rsv (d a : XIdx) | rls (a b : XIdx)
  | amoAdd (rlx : Bool) (d a b : XIdx) | amoAnd (rlx : Bool) (d a b : XIdx) | amoOr (rlx : Bool) (d a b : XIdx)
  | amoXor (rlx : Bool) (d a b : XIdx) | amoMin (rlx : Bool) (d a b : XIdx) | amoMax (rlx : Bool) (d a b : XIdx)
  | amoMinu (rlx : Bool) (d a b : XIdx) | amoMaxu (rlx : Bool) (d a b : XIdx)
  | amoSwap (rlx : Bool) (d a b : XIdx) | amoCas (rlx : Bool) (d a b : XIdx)
  | fence (s : Scope) | cfenceI (d : XIdx) | cfenceW (a : XIdx)
  -- major 0x20 (Table 9.4)
  | vadd (t : FpT) (rc : Rc) (m : PIdx) (d a b : VIdx) | vsub (t : FpT) (rc : Rc) (m : PIdx) (d a b : VIdx)
  | vmul (t : FpT) (rc : Rc) (m : PIdx) (d a b : VIdx) | vfma (t : FpT) (rc : Rc) (m : PIdx) (d a b : VIdx)
  | vfms (t : FpT) (rc : Rc) (m : PIdx) (d a b : VIdx) | vfnma (t : FpT) (rc : Rc) (m : PIdx) (d a b : VIdx)
  | vmax (t : FpT) (m : PIdx) (d a b : VIdx) | vmin (t : FpT) (m : PIdx) (d a b : VIdx)
  | vabs (t : FpT) (m : PIdx) (d a : VIdx) | vneg (t : FpT) (m : PIdx) (d a : VIdx)
  | vcmp (t : FpT) (cc : CmpF) (m : PIdx) (d : PIdx) (a b : VIdx)
  | vsel (m : PIdx) (d a b : VIdx)
  -- major 0x21 (Table 9.5)
  | viadd (w : ElW) (m : PIdx) (d a b : VIdx) | visub (w : ElW) (m : PIdx) (d a b : VIdx)
  | vimul (w : ElW) (m : PIdx) (d a b : VIdx) | vimulhI (w : ElW) (m : PIdx) (d a b : VIdx)
  | vimulhU (w : ElW) (m : PIdx) (d a b : VIdx) | vimac (w : ElW) (m : PIdx) (d a b : VIdx)
  | vand (m : PIdx) (d a b : VIdx) | vor (m : PIdx) (d a b : VIdx) | vxor (m : PIdx) (d a b : VIdx)
  | vshl (w : ElW) (m : PIdx) (d a b : VIdx) | vshr (w : ElW) (m : PIdx) (d a b : VIdx)
  | vsar (w : ElW) (m : PIdx) (d a b : VIdx)
  | viminI (w : ElW) (m : PIdx) (d a b : VIdx) | viminU (w : ElW) (m : PIdx) (d a b : VIdx)
  | vimaxI (w : ElW) (m : PIdx) (d a b : VIdx) | vimaxU (w : ElW) (m : PIdx) (d a b : VIdx)
  | viabs (w : ElW) (m : PIdx) (d a : VIdx)
  | vsaddI (w : ElW) (m : PIdx) (d a b : VIdx) | vsaddU (w : ElW) (m : PIdx) (d a b : VIdx)
  | vssubI (w : ElW) (m : PIdx) (d a b : VIdx) | vssubU (w : ElW) (m : PIdx) (d a b : VIdx)
  | vicmp (cc : CmpI) (w : ElW) (m : PIdx) (d : PIdx) (a b : VIdx)
  -- major 0x22 (Table 9.7)
  | vcvt (dst src : CvtT) (rc : Rc) (part : BitVec 2) (m : PIdx) (d a : VIdx)
  | vmov (m : PIdx) (d a : VIdx) | vzero (m : PIdx) (d : VIdx)
  | vbcast (w : ElW) (m : PIdx) (d : VIdx) (a : XIdx)
  | vextr (w : ElW) (d : XIdx) (a : VIdx) (b : XIdx) | vins (w : ElW) (d : VIdx) (a b : XIdx)
  | vidx (w : ElW) (m : PIdx) (d : VIdx) (a : XIdx)
  | vcvtSr (dst : SrT) (part : BitVec 2) (m : PIdx) (d a b : VIdx)
  | vpack (t : PackT) (m : PIdx) (d a b : VIdx) | vunpk (t : PackT) (part : BitVec 2) (m : PIdx) (d a : VIdx)
  -- major 0x23 (Table 9.11)
  | vld (w : ElW) (m : PIdx) (d : VIdx) (a b : XIdx) | vst (w : ElW) (m : PIdx) (d : VIdx) (a b : XIdx)
  | vlds (w : ElW) (m : PIdx) (d : VIdx) (a b : XIdx) | vsts (w : ElW) (m : PIdx) (d : VIdx) (a b : XIdx)
  | vgath (w : ElW) (m : PIdx) (d : VIdx) (a : XIdx) (b : VIdx)
  | vscat (w : ElW) (m : PIdx) (d : VIdx) (a : XIdx) (b : VIdx)
  | vldb (w : ElW) (m : PIdx) (d : VIdx) (a : XIdx)
  -- major 0x24 (R179, R180)
  | vrecip (t : FpT) (m : PIdx) (d a : VIdx) | vrsqrt (t : FpT) (m : PIdx) (d a : VIdx)
  | vsqrt (t : FpT) (rc : Rc) (m : PIdx) (d a : VIdx)
  | vexp2 (t : FpT) (m : PIdx) (d a : VIdx) | vlog2 (t : FpT) (m : PIdx) (d a : VIdx)
  | vsin (t : FpT) (m : PIdx) (d a : VIdx) | vcos (t : FpT) (m : PIdx) (d a : VIdx)
  | vtanh (t : FpT) (m : PIdx) (d a : VIdx) | vsigm (t : FpT) (m : PIdx) (d a : VIdx)
  | vrand (m : PIdx) (d : VIdx) (a b : XIdx)
  -- major 0x25 (Table 9.10)
  | vredsum (t : RedT) (m : PIdx) (d a : VIdx) | vredmax (t : RedT) (m : PIdx) (d a : VIdx)
  | vredmin (t : RedT) (m : PIdx) (d a : VIdx) | vscan (t : ScanT) (m : PIdx) (d a : VIdx)
  | vshuf (w : ElW) (m : PIdx) (d a b : VIdx)
  | vrot (w : ElW) (m : PIdx) (d a : VIdx) (b : XIdx) | vslide (w : ElW) (m : PIdx) (d a : VIdx) (b : XIdx)
  | vcomp (w : ElW) (m : PIdx) (d a : VIdx) | vexpd (w : ElW) (m : PIdx) (d a : VIdx)
  | pset (d : PIdx) (a : XIdx) | pand (d a b : PIdx) | por (d a b : PIdx) | pnot (d a : PIdx)
  | pcnt (d : XIdx) (a : PIdx) | pfirst (d : XIdx) (a : PIdx)
  -- major 0x26 (Table 9.6)
  | vqmul (m : PIdx) (d a b : VIdx) | vqmac (m : PIdx) (d a b : VIdx)
  | vqrndLo (m : PIdx) (d a : VIdx) (n : BitVec 5) | vqrndHi (m : PIdx) (d a : VIdx) (n : BitVec 5)
  | vqsatI16 (m : PIdx) (d a : VIdx) (n : BitVec 5) | vqsatI32 (m : PIdx) (d a : VIdx) (n : BitVec 5)
  -- major 0x27 (Table 9.12); `s` is the number of the stream, v8 + s
  | scfg (s : BitVec 3) (k : BitVec 3) (a : XIdx) | sbase (s : BitVec 3) (a : XIdx) | sstart (s : BitVec 3)
  | sstop (s : BitVec 3) | sbr (s : BitVec 3) (off : BitVec 17) | sstat (d : XIdx) (s : BitVec 3)
  -- majors 0x28, 0x29 (Tables 11.4, 11.5)
  | tmma (f : TileFmt) (d : AIdx) (a b : XIdx) | tmmaSp (f : TileFmt) (d : AIdx) (a b : XIdx)
  | tzero (d : AIdx) | tldacc (f : TileFmt) (d : AIdx) (a : XIdx) | tst (f : TileFmt) (a : XIdx) (d : AIdx)
  | tscale (f : TileFmt) (d : AIdx) (a b : VIdx) | tadd (f : TileFmt) (d a b : AIdx) | twait
  | tdesc (f : TileFmt) (d a : XIdx) (role : BitVec 5) | tmq (a : VIdx) | tmqClr
  -- majors 0x30–0x32 (Table 17.7)
  | send (a b : XIdx) (n : BitVec 5) | recv (d a : XIdx) (n : BitVec 5) | sendt (a b : XIdx) | recvt (a b : XIdx)
  | altClr | altRx (a : XIdx) (i : BitVec 5) | altTx (a : XIdx) (i : BitVec 5) | altTm (a : XIdx) (i : BitVec 5)
  | altBar (a b : XIdx) (i : BitVec 5) | altWait (d : XIdx)
  | chst (d a b : XIdx) | chcl (a : XIdx) | chmk (d a b : XIdx) | chbind (d a b : XIdx) | chunb (d a b : XIdx)
  | spawn (d a : XIdx) | exit | yield | sleep (a : XIdx) | setcl (d a : XIdx) | dline (d a b : XIdx)
  | migr (d a : XIdx)
  | barInit (a b : XIdx) | barArr (d a : XIdx) | barWait (a b : XIdx)
  -- major 0x33 (Table 15.3)
  | msGet (a b : XIdx) | msPut (a b : XIdx) | msGath (a b : XIdx) | msScat (a b : XIdx) | msFill (a b : XIdx)
  | msCas (a b : XIdx) | msStat (d b : XIdx) (item : BitVec 5)
  -- the two instructions without effect (R117, R73)
  | nop | cNop
  -- rows without bits: processes and scheduling (01)
  | faultRecordSend | faultReply | monitorReply
  | preemptionHalt | dispatch | quantumExpiry | class0Release
  | budgetExhausted | ghostLightWindow | ghostLightAllowanceEnd
  | spillDone | fillDone | placementCommit
  | placementCompaction | placementTimeout
  | priorityLoan | migration
  -- memory (05, 13)
  | writeLands | inboundRequest | amoRelease | remoteLoadReturn
  | fenceComplete | drainNtComplete | cfenceWComplete
  | vectorCommit | vectorLoadReturn | streamReadAhead
  | streamPushLand | sstopComplete | tileGroup | tstWriteLand
  | twaitComplete | tmqPush
  -- memory servers (15)
  | msRequestAccept | msContextStart | msTranslationRefill
  | msPiece | cxlMemCompletion | msCompletion
  -- channels (17)
  | channelArrival | tileTransferDone | timerGuard | sleepExpiry
  | externalSendRead | probeSend | probeArrival
  -- causal fabric (19)
  | hearthArrival | linkResend | causalDelivery
  | columnFlitSend | columnFlitReceive | reclockEnd
  | coreDomainReset | coreDomainResetEnd | uncoreReset
  -- edge (21)
  | sceneBlockDone | sceneDrainEnd | sceneDrainTimeout | sceneUnmapDone
  | edgeLockGrant | sceneTrainDone | sceneTrainTimeout
  | sceneLinkupDone | sceneReleaseDone | dvfsStep | dvfsStepEnd
  | uetPacketArrival | uetAckSend
  | uetAckReceive
  | uetRetransmitTimeout
  | ualinkInboundRequest | apertureResponse
  | hostQueueInbound | hostQueueOutbound
  -- stage manager (23)
  | queueDoorbell
  | cmdLoad | cmdLaunch | launchComplete
  | cmdEnd | cmdWaitge | waitgeSatisfied
  | cmdSignal | cmdCopy | copyComplete
  | cmdPin | cmdUnpin
  | cmdWindow | cmdExtep
  | cmdHostep | cmdIrq
  | cmdLoop | cmdIf
  | cmdTrig | triggerWrite | triggerRun
  | cmdScene | cmdRemove
  | cmdAdmit | cmdCue
  | cmdMkey | mkeyKeyholdExpiry
  | queueRestart | lifeCycleChange
  | attestationReport | packageReset
  | thermalThrottle | thermalTrip | controlRegisterWrite
  -- encoding outcomes (R67, R60)
  | unallocatedEncoding | fetchWindow
  | edgeGroupRetrain | ualinkDomainFormed
  | monitorAssignment
deriving DecidableEq, Repr

end Sys2Proof
end

