-- ==== Sys2Proof/WellFormed.lean ====
section
/-! DEFINITION. Which instructions have an encoding: the operand limits that the field widths of `Instr` do not say. -/

namespace Sys2Proof

/-- Width in bits of a conversion type (Table 9.8). -/
def CvtT.width : CvtT → Nat
  | .f32 | .i32 => 32
  | .f16 | .bf16 | .q15 | .i16 => 16
  | .e5m2 | .e4m3 | .i8 => 8

/-- Code of a conversion type (Table 9.8). -/
def CvtT.code : CvtT → Nat
  | .f32 => 0 | .f16 => 1 | .bf16 => 2 | .e5m2 => 3 | .e4m3 => 4 | .i32 => 5 | .i16 => 6 | .i8 => 7 | .q15 => 8

/-- A reserved pair of `vcvt` (Table 9.8). -/
def cvtReserved (dst src : CvtT) : Bool :=
  dst == src || (decide (5 ≤ dst.code) && decide (5 ≤ src.code))

/-- The ratio Rt of R176. -/
def cvtRatio (dst src : CvtT) : Nat :=
  if dst.width < src.width then src.width / dst.width else dst.width / src.width

/-- Number of parts of a `vcvt.sr` destination (Table 9.9). -/
def SrT.parts : SrT → Nat
  | .f16 | .bf16 => 2
  | .e5m2 | .e4m3 => 4

/-- A field that names a descriptor pair: even, 2–30 (R197). -/
def pairOk (n : XIdx) : Bool := n.toNat % 2 == 0 && decide (2 ≤ n.toNat)

/-- A count of message words with its register run (R304). -/
def runOk (r : XIdx) (n : BitVec 5) : Bool :=
  decide (1 ≤ n.toNat) && decide (n.toNat ≤ 8) && decide (r.toNat + n.toNat ≤ 32)

/-- The operand limits of R69, R72, R73, R174–R178, Table 9.10, R187, R190, R197, R203, R274 and R304. An instruction
outside them has no encoding. Rows without bits have no limit. -/
def Instr.wf : Instr → Bool
  | .cAddi d _ | .cLi d _ | .cMv d _ | .cAdd d _ | .cSub d _ | .cAnd d _ | .cOr d _ | .cXor d _
  | .cSlli d _ | .cSrli d _ => d != 0
  | .vqsatI16 _ _ _ n => decide (1 ≤ n.toNat) && decide (n.toNat ≤ 16)
  | .vqsatI32 _ _ _ n => decide (1 ≤ n.toNat)
  | .vcvt dst src _ part _ _ _ => !cvtReserved dst src && decide (part.toNat < cvtRatio dst src)
  | .vcvtSr dst part _ _ _ _ => decide (part.toNat < dst.parts)
  | .vunpk _ part _ _ _ => decide (part.toNat < 2)
  | .vredsum (.u _) _ _ _ => false
  | .vgath w _ d _ b => w != .w8 && d != b
  | .vscat w _ _ _ _ => w != .w8
  | .scfg _ k _ => decide (k.toNat ≤ 4)
  | .tmma _ _ a b | .tmmaSp _ _ a b => pairOk a && pairOk b
  | .tldacc _ _ a | .tst _ a _ => pairOk a
  | .tdesc _ _ a role => pairOk a && decide (role.toNat ≤ 5)
  | .send _ b n => runOk b n
  | .recv d _ n => runOk d n
  | .sendt _ b => pairOk b
  | .recvt _ b => pairOk b
  | .altRx _ i | .altTx _ i | .altTm _ i => decide (i.toNat < 16)
  | .altBar _ _ i => decide (i.toNat < 16)
  | .msStat _ _ item => decide (item.toNat ≤ 4)
  | _ => true

/-- The rows of the opcode table that give an instruction bits; the others are events of the machine and commands of the
stage manager, which no encoding of a core stands for. -/
def Instr.coded : Instr → Bool
  | .faultRecordSend | .faultReply | .monitorReply | .preemptionHalt | .dispatch | .quantumExpiry
  | .class0Release | .budgetExhausted | .ghostLightWindow | .ghostLightAllowanceEnd | .spillDone | .fillDone
  | .placementCommit | .placementCompaction | .placementTimeout | .priorityLoan | .migration | .writeLands
  | .inboundRequest | .amoRelease | .remoteLoadReturn | .fenceComplete | .drainNtComplete | .cfenceWComplete
  | .vectorCommit | .vectorLoadReturn | .streamReadAhead | .streamPushLand | .sstopComplete | .tileGroup
  | .tstWriteLand | .twaitComplete | .tmqPush | .msRequestAccept | .msContextStart | .msTranslationRefill
  | .msPiece | .cxlMemCompletion | .msCompletion | .channelArrival | .tileTransferDone | .timerGuard
  | .sleepExpiry | .externalSendRead | .probeSend | .probeArrival | .hearthArrival | .linkResend
  | .causalDelivery | .columnFlitSend | .columnFlitReceive | .reclockEnd | .coreDomainReset | .coreDomainResetEnd
  | .uncoreReset | .sceneBlockDone | .sceneDrainEnd | .sceneDrainTimeout | .sceneUnmapDone | .edgeLockGrant
  | .sceneTrainDone | .sceneTrainTimeout | .sceneLinkupDone | .sceneReleaseDone | .dvfsStep | .dvfsStepEnd
  | .uetPacketArrival | .uetAckSend | .uetAckReceive | .uetRetransmitTimeout | .ualinkInboundRequest
  | .apertureResponse | .hostQueueInbound | .hostQueueOutbound | .queueDoorbell | .cmdLoad | .cmdLaunch
  | .launchComplete | .cmdEnd | .cmdWaitge | .waitgeSatisfied | .cmdSignal | .cmdCopy | .copyComplete | .cmdPin
  | .cmdUnpin | .cmdWindow | .cmdExtep | .cmdHostep | .cmdIrq | .cmdLoop | .cmdIf | .cmdTrig | .triggerWrite
  | .triggerRun | .cmdScene | .cmdRemove | .cmdAdmit | .cmdCue | .cmdMkey | .mkeyKeyholdExpiry | .queueRestart
  | .lifeCycleChange | .attestationReport | .packageReset | .thermalThrottle | .thermalTrip
  | .controlRegisterWrite | .unallocatedEncoding | .fetchWindow | .edgeGroupRetrain | .ualinkDomainFormed
  | .monitorAssignment => false
  | _ => true

end Sys2Proof
end

