-- ==== Sys2Proof/Decode.lean ====
section
/-! DEFINITION. Decoding (R60–R73 and the encoding tables of the owning chapters), total on any bytes and rejecting by
the reasons of Table 3.5; after it the encoder, written from the same tables, and the decoder for rows of the opcode
table. -/

namespace Sys2Proof

/-- DETAIL0 of an encoding ILLEGAL (Table 3.5). -/
abbrev Reason := BitVec 12

/-- Unallocated major. -/
abbrev rMajor : Reason := 0x101
/-- Unassigned function value, width code, shift kind or compact OP4. -/
abbrev rFunction : Reason := 0x102
/-- Non-zero bits in an unused or must-be-zero field. -/
abbrev rZero : Reason := 0x103
/-- Register field out of range, IMM5 out of range, reserved combination, unallocated CSR number. -/
abbrev rField : Reason := 0x104

/-! Fields (Tables 3.1 and 3.4, R62) -/

def fMaj (w : BitVec 32) : BitVec 6 := w.extractLsb' 1 6
def fD (w : BitVec 32) : BitVec 5 := w.extractLsb' 7 5
def fA (w : BitVec 32) : BitVec 5 := w.extractLsb' 12 5
def fB (w : BitVec 32) : BitVec 5 := w.extractLsb' 17 5
def fFn (w : BitVec 32) : BitVec 10 := w.extractLsb' 22 10
def fFn7 (w : BitVec 32) : BitVec 7 := w.extractLsb' 25 7
def fM (w : BitVec 32) : BitVec 3 := w.extractLsb' 22 3
def fFn5 (w : BitVec 32) : BitVec 5 := w.extractLsb' 22 5
def fImm5 (w : BitVec 32) : BitVec 5 := w.extractLsb' 27 5
def fImmI (w : BitVec 32) : BitVec 15 := w.extractLsb' 17 15
def fImmS (w : BitVec 32) : BitVec 15 := w.extractLsb' 22 10 ++ w.extractLsb' 7 5
def fImmU (w : BitVec 32) : BitVec 20 := w.extractLsb' 12 20

/-! The formats put together (Table 3.1) -/

def mkR (maj : BitVec 6) (fn : BitVec 10) (b a d : BitVec 5) : BitVec 32 := fn ++ b ++ a ++ d ++ maj ++ 1#1
def mkI (maj : BitVec 6) (imm : BitVec 15) (a d : BitVec 5) : BitVec 32 := imm ++ a ++ d ++ maj ++ 1#1
def mkS (maj : BitVec 6) (imm : BitVec 15) (b a : BitVec 5) : BitVec 32 :=
  imm.extractLsb' 5 10 ++ b ++ a ++ imm.extractLsb' 0 5 ++ maj ++ 1#1
def mkU (maj : BitVec 6) (imm : BitVec 20) (d : BitVec 5) : BitVec 32 := imm ++ d ++ maj ++ 1#1
def mkV (maj : BitVec 6) (fn7 : BitVec 7) (m : BitVec 3) (b a d : BitVec 5) : BitVec 32 :=
  fn7 ++ m ++ b ++ a ++ d ++ maj ++ 1#1
def mkX (maj : BitVec 6) (imm5 fn5 b a d : BitVec 5) : BitVec 32 := imm5 ++ fn5 ++ b ++ a ++ d ++ maj ++ 1#1

/-! Codes of suffixes -/

def FpT.code : FpT → Nat
  | .f32 => 0 | .f16 => 1 | .bf16 => 2
def FpT.ofCode : Nat → FpT
  | 0 => .f32 | 1 => .f16 | _ => .bf16
def Rc.code : Rc → Nat
  | .dyn => 0 | .rne => 1 | .rtz => 2 | .rup => 3 | .rdn => 4
def Rc.ofCode : Nat → Rc
  | 0 => .dyn | 1 => .rne | 2 => .rtz | 3 => .rup | _ => .rdn
def ElW.code : ElW → Nat
  | .w32 => 0 | .w16 => 1 | .w8 => 2
def ElW.ofCode : Nat → ElW
  | 0 => .w32 | 1 => .w16 | _ => .w8
def CmpF.code : CmpF → Nat
  | .eq => 0 | .ne => 1 | .lt => 2 | .le => 3 | .un => 4 | .ord => 5
def CmpF.ofCode : Nat → CmpF
  | 0 => .eq | 1 => .ne | 2 => .lt | 3 => .le | 4 => .un | _ => .ord
def CmpI.code : CmpI → Nat
  | .eq => 0 | .ne => 1 | .lt => 2 | .le => 3 | .ltu => 4 | .leu => 5
def CmpI.ofCode : Nat → CmpI
  | 0 => .eq | 1 => .ne | 2 => .lt | 3 => .le | 4 => .ltu | _ => .leu
def Width.code : Width → Nat
  | .b => 0 | .h => 1 | .w => 2 | .d => 3
def Width.ofCode : Nat → Width
  | 0 => .b | 1 => .h | 2 => .w | _ => .d
def Scope.code : Scope → Nat
  | .core => 0 | .cl => 1 | .die => 2 | .pkg => 3 | .sys => 4
def Scope.ofCode : Nat → Scope
  | 0 => .core | 1 => .cl | 2 => .die | 3 => .pkg | _ => .sys
def TileFmt.code : TileFmt → Nat
  | .bf16 => 0 | .f16 => 1 | .e4m3 => 2 | .e5m2 => 3 | .i8 => 4 | .bs4 => 5 | .bs6 => 6 | .bs8 => 7 | .f32 => 8
  | .i32 => 9 | .i16 => 10
def TileFmt.ofCode : Nat → TileFmt
  | 0 => .bf16 | 1 => .f16 | 2 => .e4m3 | 3 => .e5m2 | 4 => .i8 | 5 => .bs4 | 6 => .bs6 | 7 => .bs8 | 8 => .f32
  | 9 => .i32 | _ => .i16
def CvtT.ofCode : Nat → CvtT
  | 0 => .f32 | 1 => .f16 | 2 => .bf16 | 3 => .e5m2 | 4 => .e4m3 | 5 => .i32 | 6 => .i16 | 7 => .i8 | _ => .q15
def PackT.code : PackT → Nat
  | .i16 => 0 | .u16 => 1 | .i8 => 2 | .u8 => 3
def PackT.ofCode : Nat → PackT
  | 0 => .i16 | 1 => .u16 | 2 => .i8 | _ => .u8

/-- First `vcvt.sr` code of a destination (Table 9.9). -/
def SrT.base : SrT → Nat
  | .f16 => 96 | .bf16 => 98 | .e5m2 => 100 | .e4m3 => 104

/-- CSR numbers (Table 3.8, R219, R257, R275, R319). -/
def Csr.num : Csr → Nat
  | .pid => 0x000 | .region => 0x001 | .cls => 0x002 | .period => 0x003 | .deadline => 0x004 | .budget => 0x005
  | .quantum => 0x006 | .time => 0x008 | .cycle => 0x009 | .fpmode => 0x010 | .fpflags => 0x011 | .coord => 0x018
  | .pkgcfg => 0x019 | .gstat => 0x01A | .tstat => 0x080 | .nistat => 0x0C0 | .probe => 0x0C1 | .memst => 0x100
  | .msreq => 0x140

/-- The CSR of a number; every other number is unallocated or unused (R75). -/
def Csr.ofNum : Nat → Option Csr
  | 0x000 => some .pid | 0x001 => some .region | 0x002 => some .cls | 0x003 => some .period | 0x004 => some .deadline
  | 0x005 => some .budget | 0x006 => some .quantum | 0x008 => some .time | 0x009 => some .cycle
  | 0x010 => some .fpmode | 0x011 => some .fpflags | 0x018 => some .coord | 0x019 => some .pkgcfg
  | 0x01A => some .gstat | 0x080 => some .tstat | 0x0C0 => some .nistat | 0x0C1 => some .probe
  | 0x100 => some .memst | 0x140 => some .msreq | _ => none

/-! Checks, in the order of Table 3.5: function value, zero fields, then ranges -/

/-- Fields that must be zero (R68). -/
def zeros (c : Bool) (k : Except Reason Instr) : Except Reason Instr := if c then k else .error rZero
/-- Limits whose breach has reason 0x104. -/
def limit (c : Bool) (k : Except Reason Instr) : Except Reason Instr := if c then k else .error rField
/-- A field that names a v register (R69). -/
def vreg (f : BitVec 5) (k : VIdx → Except Reason Instr) : Except Reason Instr :=
  if f.toNat < 16 then k (f.setWidth 4) else .error rField
/-- A field that names a p register (R69). -/
def preg (f : BitVec 5) (k : PIdx → Except Reason Instr) : Except Reason Instr :=
  if f.toNat < 8 then k (f.setWidth 3) else .error rField
/-- A field that names an accumulator (R69). -/
def areg (f : BitVec 5) (k : AIdx → Except Reason Instr) : Except Reason Instr :=
  if f.toNat < 4 then k (f.setWidth 2) else .error rField
/-- A field that names a stream register, 8–15 (R190). -/
def sreg (f : BitVec 5) (k : BitVec 3 → Except Reason Instr) : Except Reason Instr :=
  if 8 ≤ f.toNat ∧ f.toNat < 16 then k (f.setWidth 3) else .error rField
/-- A field that names a descriptor pair (R197). -/
def pairf (f : BitVec 5) (k : Except Reason Instr) : Except Reason Instr := limit (pairOk f) k

/-- Major 0x01 (Table 5.2). -/
def dec01 (w : BitVec 32) : Except Reason Instr :=
  match (fFn w).toNat with
  | 0x000 => .ok (.add (fD w) (fA w) (fB w))
  | 0x001 => .ok (.sub (fD w) (fA w) (fB w))
  | 0x002 => .ok (.and (fD w) (fA w) (fB w))
  | 0x003 => .ok (.or (fD w) (fA w) (fB w))
  | 0x004 => .ok (.xor (fD w) (fA w) (fB w))
  | 0x005 => .ok (.andn (fD w) (fA w) (fB w))
  | 0x008 => .ok (.sll (fD w) (fA w) (fB w))
  | 0x009 => .ok (.srl (fD w) (fA w) (fB w))
  | 0x00A => .ok (.sra (fD w) (fA w) (fB w))
  | 0x00B => .ok (.ror (fD w) (fA w) (fB w))
  | 0x010 => .ok (.slt (fD w) (fA w) (fB w))
  | 0x011 => .ok (.sltu (fD w) (fA w) (fB w))
  | 0x012 => .ok (.min (fD w) (fA w) (fB w))
  | 0x013 => .ok (.max (fD w) (fA w) (fB w))
  | 0x014 => .ok (.minu (fD w) (fA w) (fB w))
  | 0x015 => .ok (.maxu (fD w) (fA w) (fB w))
  | 0x020 => .ok (.mul (fD w) (fA w) (fB w))
  | 0x021 => .ok (.mulh (fD w) (fA w) (fB w))
  | 0x022 => .ok (.mulhu (fD w) (fA w) (fB w))
  | 0x023 => .ok (.mulhsu (fD w) (fA w) (fB w))
  | 0x028 => .ok (.div (fD w) (fA w) (fB w))
  | 0x029 => .ok (.divu (fD w) (fA w) (fB w))
  | 0x02A => .ok (.rem (fD w) (fA w) (fB w))
  | 0x02B => .ok (.remu (fD w) (fA w) (fB w))
  | 0x040 => zeros (fB w == 0) (.ok (.clz (fD w) (fA w)))
  | 0x041 => zeros (fB w == 0) (.ok (.ctz (fD w) (fA w)))
  | 0x042 => zeros (fB w == 0) (.ok (.popc (fD w) (fA w)))
  | 0x048 => zeros (fB w == 0) (.ok (.sextB (fD w) (fA w)))
  | 0x049 => zeros (fB w == 0) (.ok (.sextH (fD w) (fA w)))
  | 0x04A => zeros (fB w == 0) (.ok (.sextW (fD w) (fA w)))
  | 0x04B => zeros (fB w == 0) (.ok (.zextW (fD w) (fA w)))
  | _ => .error rFunction

/-- Major 0x08 (R65). -/
def dec08 (w : BitVec 32) : Except Reason Instr :=
  let sh := (fImmI w).extractLsb' 0 6
  match ((fImmI w).extractLsb' 12 3).toNat with
  | 0 => zeros ((fImmI w).extractLsb' 6 6 == 0) (.ok (.slli (fD w) (fA w) sh))
  | 1 => zeros ((fImmI w).extractLsb' 6 6 == 0) (.ok (.srli (fD w) (fA w) sh))
  | 2 => zeros ((fImmI w).extractLsb' 6 6 == 0) (.ok (.srai (fD w) (fA w) sh))
  | _ => .error rFunction

/-- Major 0x0B (Table 3.2). -/
def dec0B (w : BitVec 32) : Except Reason Instr :=
  let off := (fImmI w).extractLsb' 0 12
  match ((fImmI w).extractLsb' 12 3).toNat with
  | 0 => .ok (.ldb (fD w) (fA w) off)
  | 1 => .ok (.ldh (fD w) (fA w) off)
  | 2 => .ok (.ldw (fD w) (fA w) off)
  | 3 => .ok (.ldd (fD w) (fA w) off)
  | 4 => .ok (.ldbu (fD w) (fA w) off)
  | 5 => .ok (.ldhu (fD w) (fA w) off)
  | 6 => .ok (.ldwu (fD w) (fA w) off)
  | _ => .error rFunction

/-- Major 0x0C (Table 3.2). -/
def dec0C (w : BitVec 32) : Except Reason Instr :=
  let off := (fImmS w).extractLsb' 0 12
  match ((fImmS w).extractLsb' 12 3).toNat with
  | 0 => .ok (.stb (fB w) (fA w) off)
  | 1 => .ok (.sth (fB w) (fA w) off)
  | 2 => .ok (.stw (fB w) (fA w) off)
  | 3 => .ok (.std (fB w) (fA w) off)
  | _ => .error rFunction

/-- The operand K of major 0x19 (R116). -/
def fK (w : BitVec 32) : BitVec 10 := fImm5 w ++ fB w

/-- A CSR number in K; an unallocated one has reason 0x104 (R75, R121). -/
def csrf (k : BitVec 10) (f : Csr → Except Reason Instr) : Except Reason Instr :=
  match Csr.ofNum k.toNat with
  | some c => f c
  | none => .error rField

/-- Major 0x19 (Table 5.6). -/
def dec19 (w : BitVec 32) : Except Reason Instr :=
  match (fFn5 w).toNat with
  | 0x01 => zeros (fD w == 0 && fA w == 0 && fK w == 0) (.ok .nop)
  | 0x02 => zeros (fD w == 0) (.ok (.trap (fA w) (fK w)))
  | 0x03 => zeros (fD w == 0 && fA w == 0) (.ok (.brk (fK w)))
  | 0x04 => zeros (fD w == 0 && fImm5 w == 0) (.ok (.ifl (fA w) (fB w)))
  | 0x05 => zeros (fA w == 0) (csrf (fK w) fun c => .ok (.csrr (fD w) c))
  | 0x06 => zeros (fD w == 0) (csrf (fK w) fun c => .ok (.csrw c (fA w)))
  | 0x07 => csrf (fK w) fun c => .ok (.csrs (fD w) c (fA w))
  | 0x08 => csrf (fK w) fun c => .ok (.csrc (fD w) c (fA w))
  | _ => .error rFunction

/-- A word of major 0x19: OP, then K split over bits 31:27 and field B. -/
def mkK (op : BitVec 5) (k : BitVec 10) (a d : BitVec 5) : BitVec 32 :=
  mkX 0x19 (k.extractLsb' 5 5) op (k.extractLsb' 0 5) a d

/-- Major 0x0D (Table 13.11). -/
def dec0D (w : BitVec 32) : Except Reason Instr :=
  match (fFn w).toNat with
  | 0x000 => zeros (fB w == 0) (.ok (.ldaq .b (fD w) (fA w)))
  | 0x001 => zeros (fB w == 0) (.ok (.ldaq .h (fD w) (fA w)))
  | 0x002 => zeros (fB w == 0) (.ok (.ldaq .w (fD w) (fA w)))
  | 0x003 => zeros (fB w == 0) (.ok (.ldaq .d (fD w) (fA w)))
  | 0x004 => zeros (fD w == 0) (.ok (.strl .b (fB w) (fA w)))
  | 0x005 => zeros (fD w == 0) (.ok (.strl .h (fB w) (fA w)))
  | 0x006 => zeros (fD w == 0) (.ok (.strl .w (fB w) (fA w)))
  | 0x007 => zeros (fD w == 0) (.ok (.strl .d (fB w) (fA w)))
  | 0x010 => zeros (fB w == 0) (.ok (.ldf (fD w) (fA w)))
  | 0x011 => zeros (fB w == 0) (.ok (.lde (fD w) (fA w)))
  | 0x012 => zeros (fD w == 0) (.ok (.stf (fB w) (fA w)))
  | 0x013 => zeros (fD w == 0) (.ok (.ste (fB w) (fA w)))
  | 0x014 => zeros (fD w == 0) (.ok (.fefill (fA w) (fB w)))
  | 0x015 => zeros (fD w == 0) (.ok (.feclr (fA w) (fB w)))
  | 0x018 => .ok (.waitw (fD w) (fA w) (fB w))
  | 0x019 => .ok (.waitc (fD w) (fA w) (fB w))
  | 0x020 => zeros (fD w == 0) (.ok (.stNt (fB w) (fA w)))
  | 0x021 => zeros (fD w == 0 && fA w == 0 && fB w == 0) (.ok .drainNt)
  | _ => .error rFunction

/-- Major 0x0E (R255): FN[9:5] zero, FN[4] = RLX, FN[3:0] = op. -/
def dec0E (w : BitVec 32) : Except Reason Instr :=
  let rlx := (fFn w).getLsbD 4
  if (fFn w).extractLsb' 5 5 != 0 then .error rFunction else
  match ((fFn w).extractLsb' 0 4).toNat with
  | 0 => zeros (fB w == 0) (limit (!rlx) (.ok (.rsv (fD w) (fA w))))
  | 1 => zeros (fD w == 0) (limit (!rlx) (.ok (.rls (fA w) (fB w))))
  | 2 => .ok (.amoAdd rlx (fD w) (fA w) (fB w))
  | 3 => .ok (.amoAnd rlx (fD w) (fA w) (fB w))
  | 4 => .ok (.amoOr rlx (fD w) (fA w) (fB w))
  | 5 => .ok (.amoXor rlx (fD w) (fA w) (fB w))
  | 6 => .ok (.amoMin rlx (fD w) (fA w) (fB w))
  | 7 => .ok (.amoMax rlx (fD w) (fA w) (fB w))
  | 8 => .ok (.amoMinu rlx (fD w) (fA w) (fB w))
  | 9 => .ok (.amoMaxu rlx (fD w) (fA w) (fB w))
  | 10 => .ok (.amoSwap rlx (fD w) (fA w) (fB w))
  | 11 => .ok (.amoCas rlx (fD w) (fA w) (fB w))
  | _ => .error rFunction

/-- Major 0x0F (R256). -/
def dec0F (w : BitVec 32) : Except Reason Instr :=
  match (fFn w).toNat with
  | 0x000 => zeros (fD w == 0 && fA w == 0 && fB w == 0) (.ok (.fence .core))
  | 0x001 => zeros (fD w == 0 && fA w == 0 && fB w == 0) (.ok (.fence .cl))
  | 0x002 => zeros (fD w == 0 && fA w == 0 && fB w == 0) (.ok (.fence .die))
  | 0x003 => zeros (fD w == 0 && fA w == 0 && fB w == 0) (.ok (.fence .pkg))
  | 0x004 => zeros (fD w == 0 && fA w == 0 && fB w == 0) (.ok (.fence .sys))
  | 0x008 => zeros (fA w == 0 && fB w == 0) (.ok (.cfenceI (fD w)))
  | 0x009 => zeros (fD w == 0 && fB w == 0) (.ok (.cfenceW (fA w)))
  | _ => .error rFunction

/-- Three v registers in D, A and B. -/
def vvv (w : BitVec 32) (k : VIdx → VIdx → VIdx → Instr) : Except Reason Instr :=
  vreg (fD w) fun d => vreg (fA w) fun a => vreg (fB w) fun b => .ok (k d a b)
/-- Two v registers in D and A, and B zero. -/
def vv0 (w : BitVec 32) (k : VIdx → VIdx → Instr) : Except Reason Instr :=
  zeros (fB w == 0) (vreg (fD w) fun d => vreg (fA w) fun a => .ok (k d a))
/-- A v register in D, an x register in A, and B zero. -/
def vx0 (w : BitVec 32) (k : VIdx → XIdx → Instr) : Except Reason Instr :=
  zeros (fB w == 0) (vreg (fD w) fun d => .ok (k d (fA w)))
/-- A v register in D, x registers in A and B. -/
def vxx (w : BitVec 32) (k : VIdx → XIdx → XIdx → Instr) : Except Reason Instr :=
  vreg (fD w) fun d => .ok (k d (fA w) (fB w))
/-- v registers in D and A, an x register in B. -/
def vvx (w : BitVec 32) (k : VIdx → VIdx → XIdx → Instr) : Except Reason Instr :=
  vreg (fD w) fun d => vreg (fA w) fun a => .ok (k d a (fB w))
/-- A p register in D, v registers in A and B. -/
def pvv (w : BitVec 32) (k : PIdx → VIdx → VIdx → Instr) : Except Reason Instr :=
  preg (fD w) fun d => vreg (fA w) fun a => vreg (fB w) fun b => .ok (k d a b)

/-- Words of format V with v registers. -/
def mkVvv (maj : BitVec 6) (fn7 : Nat) (m : BitVec 3) (b a d : VIdx) : BitVec 32 :=
  mkV maj (BitVec.ofNat 7 fn7) m (b.setWidth 5) (a.setWidth 5) (d.setWidth 5)

/-- Major 0x20 (Table 9.4): FN7 = 40 × T + S. -/
def dec20 (w : BitVec 32) : Except Reason Instr :=
  let n := (fFn7 w).toNat
  let t := FpT.ofCode (n / 40)
  let s := n % 40
  let rc := Rc.ofCode (s % 5)
  let m := fM w
  if n = 120 then vvv w (.vsel m)
  else if 120 < n then .error rFunction
  else match s / 5 with
    | 0 => vvv w (.vadd t rc m)
    | 1 => vvv w (.vsub t rc m)
    | 2 => vvv w (.vmul t rc m)
    | 3 => vvv w (.vfma t rc m)
    | 4 => vvv w (.vfms t rc m)
    | 5 => vvv w (.vfnma t rc m)
    | _ => match s with
      | 30 => vvv w (.vmax t m)
      | 31 => vvv w (.vmin t m)
      | 32 => vv0 w (.vabs t m)
      | 33 => vv0 w (.vneg t m)
      | _ => pvv w (.vcmp t (CmpF.ofCode (s - 34)) m)

/-- Major 0x21 (Table 9.5): FN7 = 4 × OP + W. -/
def dec21 (w : BitVec 32) : Except Reason Instr :=
  let n := (fFn7 w).toNat
  let el := ElW.ofCode (n % 4)
  let m := fM w
  let sized := decide (n % 4 < 3)
  let plain := n % 4 == 0
  match n / 4 with
  | 0 => limit sized (vvv w (.viadd el m))
  | 1 => limit sized (vvv w (.visub el m))
  | 2 => limit sized (vvv w (.vimul el m))
  | 3 => limit sized (vvv w (.vimulhI el m))
  | 4 => limit sized (vvv w (.vimulhU el m))
  | 5 => limit sized (vvv w (.vimac el m))
  | 6 => limit plain (vvv w (.vand m))
  | 7 => limit plain (vvv w (.vor m))
  | 8 => limit plain (vvv w (.vxor m))
  | 9 => limit sized (vvv w (.vshl el m))
  | 10 => limit sized (vvv w (.vshr el m))
  | 11 => limit sized (vvv w (.vsar el m))
  | 12 => limit sized (vvv w (.viminI el m))
  | 13 => limit sized (vvv w (.viminU el m))
  | 14 => limit sized (vvv w (.vimaxI el m))
  | 15 => limit sized (vvv w (.vimaxU el m))
  | 16 => zeros (fB w == 0) (limit sized (vv0 w (.viabs el m)))
  | 17 => limit sized (vvv w (.vsaddI el m))
  | 18 => limit sized (vvv w (.vsaddU el m))
  | 19 => limit sized (vvv w (.vssubI el m))
  | 20 => limit sized (vvv w (.vssubU el m))
  | k => if k ≤ 26 then limit sized (pvv w (.vicmp (CmpI.ofCode (k - 21)) el m)) else .error rFunction

/-- Major 0x22 (Table 9.7). -/
def dec22 (w : BitVec 32) : Except Reason Instr :=
  let n := (fFn7 w).toNat
  let m := fM w
  if n ≤ 80 then
    let dst := CvtT.ofCode (n / 9)
    let src := CvtT.ofCode (n % 9)
    let rc := (fB w).extractLsb' 2 3
    let p := (fB w).extractLsb' 0 2
    limit (!cvtReserved dst src && decide (rc.toNat ≤ 4) && decide (p.toNat < cvtRatio dst src))
      (vreg (fD w) fun d => vreg (fA w) fun a => .ok (.vcvt dst src (Rc.ofCode rc.toNat) p m d a))
  else if n = 81 then vv0 w (.vmov m)
  else if n = 82 then zeros (fA w == 0 && fB w == 0) (vreg (fD w) fun d => .ok (.vzero m d))
  else if n ≤ 85 then vx0 w (.vbcast (ElW.ofCode (n - 83)) m)
  else if n ≤ 88 then zeros (m == 0) (vreg (fA w) fun a => .ok (.vextr (ElW.ofCode (n - 86)) (fD w) a (fB w)))
  else if n ≤ 91 then zeros (m == 0) (vxx w (.vins (ElW.ofCode (n - 89))))
  else if n ≤ 94 then vx0 w (.vidx (ElW.ofCode (n - 92)) m)
  else if n = 95 then .error rFunction
  else if n ≤ 97 then vvv w (.vcvtSr .f16 (BitVec.ofNat 2 (n - 96)) m)
  else if n ≤ 99 then vvv w (.vcvtSr .bf16 (BitVec.ofNat 2 (n - 98)) m)
  else if n ≤ 103 then vvv w (.vcvtSr .e5m2 (BitVec.ofNat 2 (n - 100)) m)
  else if n ≤ 107 then vvv w (.vcvtSr .e4m3 (BitVec.ofNat 2 (n - 104)) m)
  else if n ≤ 111 then vvv w (.vpack (PackT.ofCode (n - 108)) m)
  else if n ≤ 115 then
    zeros ((fB w).extractLsb' 2 3 == 0) (limit (decide (((fB w).extractLsb' 0 2).toNat < 2))
      (vreg (fD w) fun d => vreg (fA w) fun a =>
        .ok (.vunpk (PackT.ofCode (n - 112)) ((fB w).extractLsb' 0 2) m d a)))
  else .error rFunction

/-- Major 0x23 (Table 9.11). -/
def dec23 (w : BitVec 32) : Except Reason Instr :=
  let n := (fFn7 w).toNat
  let m := fM w
  if n ≤ 2 then vxx w (.vld (ElW.ofCode n) m)
  else if n ≤ 5 then vxx w (.vst (ElW.ofCode (n - 3)) m)
  else if n ≤ 8 then vxx w (.vlds (ElW.ofCode (n - 6)) m)
  else if n ≤ 11 then vxx w (.vsts (ElW.ofCode (n - 9)) m)
  else if n ≤ 13 then
    vreg (fD w) fun d => vreg (fB w) fun b => limit (d != b) (.ok (.vgath (ElW.ofCode (n - 12)) m d (fA w) b))
  else if n ≤ 15 then
    vreg (fD w) fun d => vreg (fB w) fun b => .ok (.vscat (ElW.ofCode (n - 14)) m d (fA w) b)
  else if n ≤ 18 then vx0 w (.vldb (ElW.ofCode (n - 16)) m)
  else .error rFunction

/-- Major 0x24 (R179, R180). -/
def dec24 (w : BitVec 32) : Except Reason Instr :=
  let n := (fFn7 w).toNat
  let t := FpT.ofCode (n % 4)
  let m := fM w
  if n = 64 then vxx w (.vrand m)
  else if 36 ≤ n then .error rFunction
  else match n / 4 with
    | 0 => zeros (fB w == 0) (limit (decide (n % 4 < 3)) (vv0 w (.vrecip t m)))
    | 1 => zeros (fB w == 0) (limit (decide (n % 4 < 3)) (vv0 w (.vrsqrt t m)))
    | 2 => limit (decide (n % 4 < 3) && decide ((fB w).toNat ≤ 4))
        (vreg (fD w) fun d => vreg (fA w) fun a => .ok (.vsqrt t (Rc.ofCode (fB w).toNat) m d a))
    | 3 => zeros (fB w == 0) (limit (decide (n % 4 < 3)) (vv0 w (.vexp2 t m)))
    | 4 => zeros (fB w == 0) (limit (decide (n % 4 < 3)) (vv0 w (.vlog2 t m)))
    | 5 => zeros (fB w == 0) (limit (decide (n % 4 < 3)) (vv0 w (.vsin t m)))
    | 6 => zeros (fB w == 0) (limit (decide (n % 4 < 3)) (vv0 w (.vcos t m)))
    | 7 => zeros (fB w == 0) (limit (decide (n % 4 < 3)) (vv0 w (.vtanh t m)))
    | _ => zeros (fB w == 0) (limit (decide (n % 4 < 3)) (vv0 w (.vsigm t m)))

/-- Types of reductions by FN7 (Table 9.10): the floating-point block, then the integer block. -/
def RedT.ofCode (n : Nat) : RedT :=
  if n < 3 then .f (FpT.ofCode n) else if n < 6 then .i (ElW.ofCode (n - 3)) else .u (ElW.ofCode (n - 6))
def RedT.code : RedT → Nat
  | .f t => t.code | .i el => 3 + el.code | .u el => 6 + el.code
def ScanT.ofCode : Nat → ScanT
  | 0 => .f32 | 1 => .i32 | _ => .i16
def ScanT.code : ScanT → Nat
  | .f32 => 0 | .i32 => 1 | .i16 => 2

/-- Major 0x25 (Table 9.10). -/
def dec25 (w : BitVec 32) : Except Reason Instr :=
  let n := (fFn7 w).toNat
  let m := fM w
  if n < 3 then vv0 w (.vredsum (RedT.ofCode n) m)
  else if n < 6 then vv0 w (.vredmax (RedT.ofCode (n - 3)) m)
  else if n < 9 then vv0 w (.vredmin (RedT.ofCode (n - 6)) m)
  else if n < 12 then vv0 w (.vredsum (.i (ElW.ofCode (n - 9))) m)
  else if n < 15 then vv0 w (.vredmax (.i (ElW.ofCode (n - 12))) m)
  else if n < 18 then vv0 w (.vredmax (.u (ElW.ofCode (n - 15))) m)
  else if n < 21 then vv0 w (.vredmin (.i (ElW.ofCode (n - 18))) m)
  else if n < 24 then vv0 w (.vredmin (.u (ElW.ofCode (n - 21))) m)
  else if n < 27 then vv0 w (.vscan (ScanT.ofCode (n - 24)) m)
  else if n < 30 then vvv w (.vshuf (ElW.ofCode (n - 27)) m)
  else if n < 33 then vvx w (.vrot (ElW.ofCode (n - 30)) m)
  else if n < 36 then vvx w (.vslide (ElW.ofCode (n - 33)) m)
  else if n < 39 then vv0 w (.vcomp (ElW.ofCode (n - 36)) m)
  else if n < 42 then vv0 w (.vexpd (ElW.ofCode (n - 39)) m)
  else match n with
    | 64 => zeros (m == 0 && fB w == 0) (preg (fD w) fun d => .ok (.pset d (fA w)))
    | 65 => zeros (m == 0) (preg (fD w) fun d => preg (fA w) fun a => preg (fB w) fun b => .ok (.pand d a b))
    | 66 => zeros (m == 0) (preg (fD w) fun d => preg (fA w) fun a => preg (fB w) fun b => .ok (.por d a b))
    | 67 => zeros (m == 0 && fB w == 0) (preg (fD w) fun d => preg (fA w) fun a => .ok (.pnot d a))
    | 68 => zeros (m == 0 && fB w == 0) (preg (fA w) fun a => .ok (.pcnt (fD w) a))
    | 69 => zeros (m == 0 && fB w == 0) (preg (fA w) fun a => .ok (.pfirst (fD w) a))
    | _ => .error rFunction

/-- FN7 of `vredsum`, `vredmax` and `vredmin` (Table 9.10): code of type f, i, u. -/
def redFn (f i u : Nat) : RedT → Nat
  | .f t => f + t.code | .i el => i + el.code | .u el => u + el.code

/-- Major 0x26 (Table 9.6); the B field of FN7 2–5 holds n. -/
def dec26 (w : BitVec 32) : Except Reason Instr :=
  let m := fM w
  let n := fB w
  let vvn (k : VIdx → VIdx → BitVec 5 → Instr) : Except Reason Instr :=
    vreg (fD w) fun d => vreg (fA w) fun a => .ok (k d a n)
  match (fFn7 w).toNat with
  | 0 => vvv w (.vqmul m)
  | 1 => vvv w (.vqmac m)
  | 2 => vvn (.vqrndLo m)
  | 3 => vvn (.vqrndHi m)
  | 4 => limit (decide (1 ≤ n.toNat) && decide (n.toNat ≤ 16)) (vvn (.vqsatI16 m))
  | 5 => limit (decide (1 ≤ n.toNat)) (vvn (.vqsatI32 m))
  | _ => .error rFunction

/-- Major 0x27 (Table 9.12). -/
def dec27 (w : BitVec 32) : Except Reason Instr :=
  let hi := (fFn w).extractLsb' 3 7
  match ((fFn w).extractLsb' 0 3).toNat with
  | 0 => zeros (hi.extractLsb' 3 4 == 0 && fB w == 0)
      (limit (decide ((hi.extractLsb' 0 3).toNat ≤ 4)) (sreg (fD w) fun s => .ok (.scfg s (hi.extractLsb' 0 3) (fA w))))
  | 1 => zeros (hi == 0 && fB w == 0) (sreg (fD w) fun s => .ok (.sbase s (fA w)))
  | 2 => zeros (hi == 0 && fA w == 0 && fB w == 0) (sreg (fD w) fun s => .ok (.sstart s))
  | 3 => zeros (hi == 0 && fA w == 0 && fB w == 0) (sreg (fD w) fun s => .ok (.sstop s))
  | 4 => sreg (fB w) fun s => .ok (.sbr s (hi ++ fD w ++ fA w))
  | 5 => zeros (hi == 0 && fB w == 0) (sreg (fA w) fun s => .ok (.sstat (fD w) s))
  | _ => .error rFunction

/-- The register field of stream s: v8 + s. -/
def sField (s : BitVec 3) : BitVec 5 := 0b01#2 ++ s

/-- FMT of majors 0x28 and 0x29 (R202, R203): FN[7:4]; FN[9:8] zero. -/
def fFmt (w : BitVec 32) : Nat := ((fFn w).extractLsb' 4 4).toNat

/-- Major 0x28 (Table 11.4). -/
def dec28 (w : BitVec 32) : Except Reason Instr :=
  let f := TileFmt.ofCode (fFmt w)
  let z := (fFn w).extractLsb' 8 2 == 0
  if 11 ≤ fFmt w then .error rFunction else
  match ((fFn w).extractLsb' 0 4).toNat with
  | 0 => zeros z (areg (fD w) fun d => pairf (fA w) (pairf (fB w) (.ok (.tmma f d (fA w) (fB w)))))
  | 1 => zeros z (areg (fD w) fun d => pairf (fA w) (pairf (fB w) (.ok (.tmmaSp f d (fA w) (fB w)))))
  | 2 => zeros (z && fFmt w == 0 && fA w == 0 && fB w == 0) (areg (fD w) fun d => .ok (.tzero d))
  | 3 => zeros (z && fB w == 0) (areg (fD w) fun d => pairf (fA w) (.ok (.tldacc f d (fA w))))
  | 4 => zeros (z && fB w == 0) (areg (fD w) fun d => pairf (fA w) (.ok (.tst f (fA w) d)))
  | 5 => zeros z (areg (fD w) fun d => vreg (fA w) fun a => vreg (fB w) fun b => .ok (.tscale f d a b))
  | 6 => zeros z (areg (fD w) fun d => areg (fA w) fun a => areg (fB w) fun b => .ok (.tadd f d a b))
  | 7 => zeros (z && fFmt w == 0 && fD w == 0 && fA w == 0 && fB w == 0) (.ok .twait)
  | _ => .error rFunction

/-- Major 0x29 (Table 11.5). -/
def dec29 (w : BitVec 32) : Except Reason Instr :=
  let f := TileFmt.ofCode (fFmt w)
  let z := (fFn w).extractLsb' 8 2 == 0
  if 11 ≤ fFmt w then .error rFunction else
  match ((fFn w).extractLsb' 0 4).toNat with
  | 0 => zeros z (limit (decide ((fB w).toNat ≤ 5)) (pairf (fA w) (.ok (.tdesc f (fD w) (fA w) (fB w)))))
  | 1 => zeros (z && fFmt w == 0 && fD w == 0 && fB w == 0) (vreg (fA w) fun a => .ok (.tmq a))
  | 2 => zeros (z && fFmt w == 0 && fD w == 0 && fA w == 0 && fB w == 0) (.ok .tmqClr)
  | _ => .error rFunction

/-- FN of majors 0x28 and 0x29. -/
def tileFn (f : TileFmt) (op : BitVec 4) : BitVec 10 := 0#2 ++ BitVec.ofNat 4 f.code ++ op

/-- Major 0x30 (Table 17.7). -/
def dec30 (w : BitVec 32) : Except Reason Instr :=
  let k0 := limit (fImm5 w == 0)
  match (fFn5 w).toNat with
  | 0 => zeros (fD w == 0) (limit (runOk (fB w) (fImm5 w)) (.ok (.send (fA w) (fB w) (fImm5 w))))
  | 1 => zeros (fB w == 0) (limit (runOk (fD w) (fImm5 w)) (.ok (.recv (fD w) (fA w) (fImm5 w))))
  | 2 => zeros (fD w == 0) (k0 (pairf (fB w) (.ok (.sendt (fA w) (fB w)))))
  | 3 => zeros (fD w == 0) (k0 (pairf (fB w) (.ok (.recvt (fA w) (fB w)))))
  | 4 => zeros (fD w == 0 && fA w == 0 && fB w == 0) (k0 (.ok .altClr))
  | 5 => zeros (fD w == 0 && fB w == 0) (limit (decide ((fImm5 w).toNat < 16)) (.ok (.altRx (fA w) (fImm5 w))))
  | 6 => zeros (fD w == 0 && fB w == 0) (limit (decide ((fImm5 w).toNat < 16)) (.ok (.altTx (fA w) (fImm5 w))))
  | 7 => zeros (fD w == 0 && fB w == 0) (limit (decide ((fImm5 w).toNat < 16)) (.ok (.altTm (fA w) (fImm5 w))))
  | 8 => zeros (fD w == 0) (limit (decide ((fImm5 w).toNat < 16)) (.ok (.altBar (fA w) (fB w) (fImm5 w))))
  | 9 => zeros (fA w == 0 && fB w == 0) (k0 (.ok (.altWait (fD w))))
  | 10 => k0 (.ok (.chst (fD w) (fA w) (fB w)))
  | 11 => zeros (fD w == 0 && fB w == 0) (k0 (.ok (.chcl (fA w))))
  | 12 => k0 (.ok (.chmk (fD w) (fA w) (fB w)))
  | 13 => k0 (.ok (.chbind (fD w) (fA w) (fB w)))
  | 14 => k0 (.ok (.chunb (fD w) (fA w) (fB w)))
  | _ => .error rFunction

/-- Major 0x31 (Table 17.7). -/
def dec31 (w : BitVec 32) : Except Reason Instr :=
  let k0 := limit (fImm5 w == 0)
  match (fFn5 w).toNat with
  | 0 => zeros (fB w == 0) (k0 (.ok (.spawn (fD w) (fA w))))
  | 1 => zeros (fD w == 0 && fA w == 0 && fB w == 0) (k0 (.ok .exit))
  | 2 => zeros (fD w == 0 && fA w == 0 && fB w == 0) (k0 (.ok .yield))
  | 3 => zeros (fD w == 0 && fB w == 0) (k0 (.ok (.sleep (fA w))))
  | 4 => zeros (fB w == 0) (k0 (.ok (.setcl (fD w) (fA w))))
  | 5 => k0 (.ok (.dline (fD w) (fA w) (fB w)))
  | 6 => zeros (fB w == 0) (k0 (.ok (.migr (fD w) (fA w))))
  | _ => .error rFunction

/-- Major 0x32 (Table 17.7). -/
def dec32 (w : BitVec 32) : Except Reason Instr :=
  let k0 := limit (fImm5 w == 0)
  match (fFn5 w).toNat with
  | 0 => zeros (fD w == 0) (k0 (.ok (.barInit (fA w) (fB w))))
  | 1 => zeros (fB w == 0) (k0 (.ok (.barArr (fD w) (fA w))))
  | 2 => zeros (fD w == 0) (k0 (.ok (.barWait (fA w) (fB w))))
  | _ => .error rFunction

/-- Major 0x33 (Table 15.3). -/
def dec33 (w : BitVec 32) : Except Reason Instr :=
  let k0 := limit (fImm5 w == 0)
  match (fFn5 w).toNat with
  | 0 => zeros (fD w == 0) (k0 (.ok (.msGet (fA w) (fB w))))
  | 1 => zeros (fD w == 0) (k0 (.ok (.msPut (fA w) (fB w))))
  | 2 => zeros (fD w == 0) (k0 (.ok (.msGath (fA w) (fB w))))
  | 3 => zeros (fD w == 0) (k0 (.ok (.msScat (fA w) (fB w))))
  | 4 => zeros (fD w == 0) (k0 (.ok (.msFill (fA w) (fB w))))
  | 5 => zeros (fD w == 0) (k0 (.ok (.msCas (fA w) (fB w))))
  | 6 => zeros (fA w == 0) (limit (decide ((fImm5 w).toNat ≤ 4)) (.ok (.msStat (fD w) (fB w) (fImm5 w))))
  | _ => .error rFunction

/-- A 32-bit instruction (R61, Table 3.4). -/
def decodeWord (w : BitVec 32) : Except Reason Instr :=
  match (fMaj w).toNat with
  | 0x01 => dec01 w
  | 0x02 => .ok (.addi (fD w) (fA w) (fImmI w))
  | 0x03 => .ok (.andi (fD w) (fA w) (fImmI w))
  | 0x04 => .ok (.ori (fD w) (fA w) (fImmI w))
  | 0x05 => .ok (.xori (fD w) (fA w) (fImmI w))
  | 0x06 => .ok (.slti (fD w) (fA w) (fImmI w))
  | 0x07 => .ok (.sltiu (fD w) (fA w) (fImmI w))
  | 0x08 => dec08 w
  | 0x09 => .ok (.lih (fD w) (fImmU w))
  | 0x0A => .ok (.addpc (fD w) (fImmU w))
  | 0x0B => dec0B w
  | 0x0C => dec0C w
  | 0x0D => dec0D w
  | 0x0E => dec0E w
  | 0x0F => dec0F w
  | 0x10 => .ok (.beq (fA w) (fB w) (fImmS w))
  | 0x11 => .ok (.bne (fA w) (fB w) (fImmS w))
  | 0x12 => .ok (.blt (fA w) (fB w) (fImmS w))
  | 0x13 => .ok (.bge (fA w) (fB w) (fImmS w))
  | 0x14 => .ok (.bltu (fA w) (fB w) (fImmS w))
  | 0x15 => .ok (.bgeu (fA w) (fB w) (fImmS w))
  | 0x16 => .ok (.jal (fD w) (fImmU w))
  | 0x17 => .ok (.jalr (fD w) (fA w) (fImmI w))
  | 0x19 => dec19 w
  | 0x20 => dec20 w
  | 0x21 => dec21 w
  | 0x22 => dec22 w
  | 0x23 => dec23 w
  | 0x24 => dec24 w
  | 0x25 => dec25 w
  | 0x26 => dec26 w
  | 0x27 => dec27 w
  | 0x28 => dec28 w
  | 0x29 => dec29 w
  | 0x30 => dec30 w
  | 0x31 => dec31 w
  | 0x32 => dec32 w
  | 0x33 => dec33 w
  | _ => .error rMajor

/-! Compact halfwords (Table 3.6) -/

def hOp (h : BitVec 16) : BitVec 4 := h.extractLsb' 1 4
def hD (h : BitVec 16) : BitVec 5 := h.extractLsb' 5 5
def hA (h : BitVec 16) : BitVec 5 := h.extractLsb' 10 5
def hF (h : BitVec 16) : Bool := h.getLsbD 15
def hImm6 (h : BitVec 16) : BitVec 6 := h.extractLsb' 10 6
def hLow3 (h : BitVec 16) : BitVec 3 := h.extractLsb' 5 3
def hMid3 (h : BitVec 16) : BitVec 3 := h.extractLsb' 8 3
def hOff5 (h : BitVec 16) : BitVec 5 := h.extractLsb' 11 5
def hOff8 (h : BitVec 16) : BitVec 8 := h.extractLsb' 8 8
def hOff11 (h : BitVec 16) : BitVec 11 := h.extractLsb' 5 11

def mkH6 (op : BitVec 4) (imm : BitVec 6) (d : BitVec 5) : BitVec 16 := imm ++ d ++ op ++ 0#1
def mkHF (op : BitVec 4) (f : Bool) (a d : BitVec 5) : BitVec 16 := BitVec.ofBool f ++ a ++ d ++ op ++ 0#1
def mkHM (op : BitVec 4) (off : BitVec 5) (a d : BitVec 3) : BitVec 16 := off ++ a ++ d ++ op ++ 0#1
def mkHB (op : BitVec 4) (off : BitVec 8) (a : BitVec 3) : BitVec 16 := off ++ a ++ op ++ 0#1

/-- A compact instruction (R72, R73). -/
def decodeHalf (h : BitVec 16) : Except Reason Instr :=
  let dOk := limit (hD h != 0)
  match (hOp h).toNat with
  | 0x1 => dOk (.ok (.cAddi (hD h) (hImm6 h)))
  | 0x2 => dOk (.ok (.cLi (hD h) (hImm6 h)))
  | 0x3 => dOk (.ok (if hF h then .cAdd (hD h) (hA h) else .cMv (hD h) (hA h)))
  | 0x4 => dOk (.ok (if hF h then .cAnd (hD h) (hA h) else .cSub (hD h) (hA h)))
  | 0x5 => dOk (.ok (if hF h then .cXor (hD h) (hA h) else .cOr (hD h) (hA h)))
  | 0x6 => dOk (.ok (.cSlli (hD h) (hImm6 h)))
  | 0x7 => dOk (.ok (.cSrli (hD h) (hImm6 h)))
  | 0x8 => .ok (.cLdd (hLow3 h) (hMid3 h) (hOff5 h))
  | 0x9 => .ok (.cStd (hLow3 h) (hMid3 h) (hOff5 h))
  | 0xA => .ok (.cLdw (hLow3 h) (hMid3 h) (hOff5 h))
  | 0xB => .ok (.cStw (hLow3 h) (hMid3 h) (hOff5 h))
  | 0xC => .ok (.cBeqz (hLow3 h) (hOff8 h))
  | 0xD => .ok (.cBnez (hLow3 h) (hOff8 h))
  | 0xE => .ok (.cJ (hOff11 h))
  | 0xF => zeros (hOff11 h == 0) (.ok .cNop)
  | _ => .error rFunction

/-- What a sequence of bytes begins with: an instruction and its length, an encoding ILLEGAL with its reason and its word
(a compact halfword zero-extended, R70), or too few bytes. -/
inductive Decoded
  | instr (i : Instr) (len : Nat)
  | illegal (word : BitVec 32) (reason : Reason)
  | short
deriving DecidableEq, Repr

/-- Two little-endian halfwords make a word (R15). -/
def wordOf (h0 h1 : BitVec 16) : BitVec 32 := h1 ++ h0

/-- What a first halfword decodes to, with the second supplied where the first asks for one (R60). -/
def decodeHalves (h0 : BitVec 16) (h1 : BitVec 16) : Decoded :=
  if h0.getLsbD 0 then
    match decodeWord (wordOf h0 h1) with
    | .ok i => .instr i 4
    | .error r => .illegal (wordOf h0 h1) r
  else
    match decodeHalf h0 with
    | .ok i => .instr i 2
    | .error r => .illegal (h0.setWidth 32) r

/-- The instruction that a sequence of bytes begins with. -/
def decode : List Byte → Decoded
  | b0 :: b1 :: rest =>
    let h0 : BitVec 16 := b1 ++ b0
    if h0.getLsbD 0 then
      match rest with
      | b2 :: b3 :: _ => decodeHalves h0 (b3 ++ b2)
      | _ => .short
    else decodeHalves h0 0
  | _ => .short

/-- The code of an instruction: a compact halfword or a word. -/
inductive Code
  | half (h : BitVec 16)
  | word (w : BitVec 32)
deriving DecidableEq, Repr

/-- The code of an instruction; none for the rows without bits. -/
def encode : Instr → Option Code
  | .add d a b => some (.word (mkR 0x01 0x000 b a d))
  | .sub d a b => some (.word (mkR 0x01 0x001 b a d))
  | .and d a b => some (.word (mkR 0x01 0x002 b a d))
  | .or d a b => some (.word (mkR 0x01 0x003 b a d))
  | .xor d a b => some (.word (mkR 0x01 0x004 b a d))
  | .andn d a b => some (.word (mkR 0x01 0x005 b a d))
  | .sll d a b => some (.word (mkR 0x01 0x008 b a d))
  | .srl d a b => some (.word (mkR 0x01 0x009 b a d))
  | .sra d a b => some (.word (mkR 0x01 0x00A b a d))
  | .ror d a b => some (.word (mkR 0x01 0x00B b a d))
  | .slt d a b => some (.word (mkR 0x01 0x010 b a d))
  | .sltu d a b => some (.word (mkR 0x01 0x011 b a d))
  | .min d a b => some (.word (mkR 0x01 0x012 b a d))
  | .max d a b => some (.word (mkR 0x01 0x013 b a d))
  | .minu d a b => some (.word (mkR 0x01 0x014 b a d))
  | .maxu d a b => some (.word (mkR 0x01 0x015 b a d))
  | .mul d a b => some (.word (mkR 0x01 0x020 b a d))
  | .mulh d a b => some (.word (mkR 0x01 0x021 b a d))
  | .mulhu d a b => some (.word (mkR 0x01 0x022 b a d))
  | .mulhsu d a b => some (.word (mkR 0x01 0x023 b a d))
  | .div d a b => some (.word (mkR 0x01 0x028 b a d))
  | .divu d a b => some (.word (mkR 0x01 0x029 b a d))
  | .rem d a b => some (.word (mkR 0x01 0x02A b a d))
  | .remu d a b => some (.word (mkR 0x01 0x02B b a d))
  | .clz d a => some (.word (mkR 0x01 0x040 0 a d))
  | .ctz d a => some (.word (mkR 0x01 0x041 0 a d))
  | .popc d a => some (.word (mkR 0x01 0x042 0 a d))
  | .sextB d a => some (.word (mkR 0x01 0x048 0 a d))
  | .sextH d a => some (.word (mkR 0x01 0x049 0 a d))
  | .sextW d a => some (.word (mkR 0x01 0x04A 0 a d))
  | .zextW d a => some (.word (mkR 0x01 0x04B 0 a d))
  | .addi d a imm => some (.word (mkI 0x02 imm a d))
  | .andi d a imm => some (.word (mkI 0x03 imm a d))
  | .ori d a imm => some (.word (mkI 0x04 imm a d))
  | .xori d a imm => some (.word (mkI 0x05 imm a d))
  | .slti d a imm => some (.word (mkI 0x06 imm a d))
  | .sltiu d a imm => some (.word (mkI 0x07 imm a d))
  | .slli d a sh => some (.word (mkI 0x08 (0#3 ++ 0#6 ++ sh) a d))
  | .srli d a sh => some (.word (mkI 0x08 (1#3 ++ 0#6 ++ sh) a d))
  | .srai d a sh => some (.word (mkI 0x08 (2#3 ++ 0#6 ++ sh) a d))
  | .lih d imm => some (.word (mkU 0x09 imm d))
  | .addpc d imm => some (.word (mkU 0x0A imm d))
  | .ldb d a off => some (.word (mkI 0x0B (0#3 ++ off) a d))
  | .ldh d a off => some (.word (mkI 0x0B (1#3 ++ off) a d))
  | .ldw d a off => some (.word (mkI 0x0B (2#3 ++ off) a d))
  | .ldd d a off => some (.word (mkI 0x0B (3#3 ++ off) a d))
  | .ldbu d a off => some (.word (mkI 0x0B (4#3 ++ off) a d))
  | .ldhu d a off => some (.word (mkI 0x0B (5#3 ++ off) a d))
  | .ldwu d a off => some (.word (mkI 0x0B (6#3 ++ off) a d))
  | .stb b a off => some (.word (mkS 0x0C (0#3 ++ off) b a))
  | .sth b a off => some (.word (mkS 0x0C (1#3 ++ off) b a))
  | .stw b a off => some (.word (mkS 0x0C (2#3 ++ off) b a))
  | .std b a off => some (.word (mkS 0x0C (3#3 ++ off) b a))
  | .beq a b off => some (.word (mkS 0x10 off b a))
  | .bne a b off => some (.word (mkS 0x11 off b a))
  | .blt a b off => some (.word (mkS 0x12 off b a))
  | .bge a b off => some (.word (mkS 0x13 off b a))
  | .bltu a b off => some (.word (mkS 0x14 off b a))
  | .bgeu a b off => some (.word (mkS 0x15 off b a))
  | .jal d off => some (.word (mkU 0x16 off d))
  | .jalr d a imm => some (.word (mkI 0x17 imm a d))
  | .nop => some (.word (mkK 0x01 0 0 0))
  | .trap a code => some (.word (mkK 0x02 code a 0))
  | .brk code => some (.word (mkK 0x03 code 0 0))
  | .ifl a b => some (.word (mkX 0x19 0 0x04 b a 0))
  | .csrr d c => some (.word (mkK 0x05 (BitVec.ofNat 10 c.num) 0 d))
  | .csrw c a => some (.word (mkK 0x06 (BitVec.ofNat 10 c.num) a 0))
  | .csrs d c a => some (.word (mkK 0x07 (BitVec.ofNat 10 c.num) a d))
  | .csrc d c a => some (.word (mkK 0x08 (BitVec.ofNat 10 c.num) a d))
  | .ldaq wd d a => some (.word (mkR 0x0D (BitVec.ofNat 10 wd.code) 0 a d))
  | .strl wd b a => some (.word (mkR 0x0D (BitVec.ofNat 10 (4 + wd.code)) b a 0))
  | .ldf d a => some (.word (mkR 0x0D 0x010 0 a d))
  | .lde d a => some (.word (mkR 0x0D 0x011 0 a d))
  | .stf b a => some (.word (mkR 0x0D 0x012 b a 0))
  | .ste b a => some (.word (mkR 0x0D 0x013 b a 0))
  | .fefill a b => some (.word (mkR 0x0D 0x014 b a 0))
  | .feclr a b => some (.word (mkR 0x0D 0x015 b a 0))
  | .waitw d a b => some (.word (mkR 0x0D 0x018 b a d))
  | .waitc d a b => some (.word (mkR 0x0D 0x019 b a d))
  | .stNt b a => some (.word (mkR 0x0D 0x020 b a 0))
  | .drainNt => some (.word (mkR 0x0D 0x021 0 0 0))
  | .rsv d a => some (.word (mkR 0x0E 0 0 a d))
  | .rls a b => some (.word (mkR 0x0E 1 b a 0))
  | .amoAdd rlx d a b => some (.word (mkR 0x0E (0#5 ++ BitVec.ofBool rlx ++ 2#4) b a d))
  | .amoAnd rlx d a b => some (.word (mkR 0x0E (0#5 ++ BitVec.ofBool rlx ++ 3#4) b a d))
  | .amoOr rlx d a b => some (.word (mkR 0x0E (0#5 ++ BitVec.ofBool rlx ++ 4#4) b a d))
  | .amoXor rlx d a b => some (.word (mkR 0x0E (0#5 ++ BitVec.ofBool rlx ++ 5#4) b a d))
  | .amoMin rlx d a b => some (.word (mkR 0x0E (0#5 ++ BitVec.ofBool rlx ++ 6#4) b a d))
  | .amoMax rlx d a b => some (.word (mkR 0x0E (0#5 ++ BitVec.ofBool rlx ++ 7#4) b a d))
  | .amoMinu rlx d a b => some (.word (mkR 0x0E (0#5 ++ BitVec.ofBool rlx ++ 8#4) b a d))
  | .amoMaxu rlx d a b => some (.word (mkR 0x0E (0#5 ++ BitVec.ofBool rlx ++ 9#4) b a d))
  | .amoSwap rlx d a b => some (.word (mkR 0x0E (0#5 ++ BitVec.ofBool rlx ++ 10#4) b a d))
  | .amoCas rlx d a b => some (.word (mkR 0x0E (0#5 ++ BitVec.ofBool rlx ++ 11#4) b a d))
  | .fence s => some (.word (mkR 0x0F (BitVec.ofNat 10 s.code) 0 0 0))
  | .cfenceI d => some (.word (mkR 0x0F 0x008 0 0 d))
  | .cfenceW a => some (.word (mkR 0x0F 0x009 0 a 0))
  | .vadd t rc m d a b => some (.word (mkVvv 0x20 (40 * t.code + 0 + rc.code) m b a d))
  | .vsub t rc m d a b => some (.word (mkVvv 0x20 (40 * t.code + 5 + rc.code) m b a d))
  | .vmul t rc m d a b => some (.word (mkVvv 0x20 (40 * t.code + 10 + rc.code) m b a d))
  | .vfma t rc m d a b => some (.word (mkVvv 0x20 (40 * t.code + 15 + rc.code) m b a d))
  | .vfms t rc m d a b => some (.word (mkVvv 0x20 (40 * t.code + 20 + rc.code) m b a d))
  | .vfnma t rc m d a b => some (.word (mkVvv 0x20 (40 * t.code + 25 + rc.code) m b a d))
  | .vmax t m d a b => some (.word (mkVvv 0x20 (40 * t.code + 30) m b a d))
  | .vmin t m d a b => some (.word (mkVvv 0x20 (40 * t.code + 31) m b a d))
  | .vabs t m d a => some (.word (mkVvv 0x20 (40 * t.code + 32) m 0 a d))
  | .vneg t m d a => some (.word (mkVvv 0x20 (40 * t.code + 33) m 0 a d))
  | .vcmp t cc m d a b => some (.word (mkVvv 0x20 (40 * t.code + 34 + cc.code) m b a (d.setWidth 4)))
  | .vsel m d a b => some (.word (mkVvv 0x20 120 m b a d))
  | .viadd el m d a b => some (.word (mkVvv 0x21 (0 + el.code) m b a d))
  | .visub el m d a b => some (.word (mkVvv 0x21 (4 + el.code) m b a d))
  | .vimul el m d a b => some (.word (mkVvv 0x21 (8 + el.code) m b a d))
  | .vimulhI el m d a b => some (.word (mkVvv 0x21 (12 + el.code) m b a d))
  | .vimulhU el m d a b => some (.word (mkVvv 0x21 (16 + el.code) m b a d))
  | .vimac el m d a b => some (.word (mkVvv 0x21 (20 + el.code) m b a d))
  | .vand m d a b => some (.word (mkVvv 0x21 24 m b a d))
  | .vor m d a b => some (.word (mkVvv 0x21 28 m b a d))
  | .vxor m d a b => some (.word (mkVvv 0x21 32 m b a d))
  | .vshl el m d a b => some (.word (mkVvv 0x21 (36 + el.code) m b a d))
  | .vshr el m d a b => some (.word (mkVvv 0x21 (40 + el.code) m b a d))
  | .vsar el m d a b => some (.word (mkVvv 0x21 (44 + el.code) m b a d))
  | .viminI el m d a b => some (.word (mkVvv 0x21 (48 + el.code) m b a d))
  | .viminU el m d a b => some (.word (mkVvv 0x21 (52 + el.code) m b a d))
  | .vimaxI el m d a b => some (.word (mkVvv 0x21 (56 + el.code) m b a d))
  | .vimaxU el m d a b => some (.word (mkVvv 0x21 (60 + el.code) m b a d))
  | .viabs el m d a => some (.word (mkVvv 0x21 (64 + el.code) m 0 a d))
  | .vsaddI el m d a b => some (.word (mkVvv 0x21 (68 + el.code) m b a d))
  | .vsaddU el m d a b => some (.word (mkVvv 0x21 (72 + el.code) m b a d))
  | .vssubI el m d a b => some (.word (mkVvv 0x21 (76 + el.code) m b a d))
  | .vssubU el m d a b => some (.word (mkVvv 0x21 (80 + el.code) m b a d))
  | .vicmp cc el m d a b => some (.word (mkVvv 0x21 (4 * (21 + cc.code) + el.code) m b a (d.setWidth 4)))
  | .vcvt dst src rc part m d a =>
    some (.word (mkV 0x22 (BitVec.ofNat 7 (9 * dst.code + src.code)) m (BitVec.ofNat 3 rc.code ++ part)
      (a.setWidth 5) (d.setWidth 5)))
  | .vmov m d a => some (.word (mkVvv 0x22 81 m 0 a d))
  | .vzero m d => some (.word (mkVvv 0x22 82 m 0 0 d))
  | .vbcast el m d a => some (.word (mkV 0x22 (BitVec.ofNat 7 (83 + el.code)) m 0 a (d.setWidth 5)))
  | .vextr el d a b => some (.word (mkV 0x22 (BitVec.ofNat 7 (86 + el.code)) 0 b (a.setWidth 5) d))
  | .vins el d a b => some (.word (mkV 0x22 (BitVec.ofNat 7 (89 + el.code)) 0 b a (d.setWidth 5)))
  | .vidx el m d a => some (.word (mkV 0x22 (BitVec.ofNat 7 (92 + el.code)) m 0 a (d.setWidth 5)))
  | .vcvtSr dst part m d a b => some (.word (mkVvv 0x22 (dst.base + part.toNat) m b a d))
  | .vpack t m d a b => some (.word (mkVvv 0x22 (108 + t.code) m b a d))
  | .vunpk t part m d a =>
    some (.word (mkV 0x22 (BitVec.ofNat 7 (112 + t.code)) m (0#3 ++ part) (a.setWidth 5) (d.setWidth 5)))
  | .vld el m d a b => some (.word (mkV 0x23 (BitVec.ofNat 7 (0 + el.code)) m b a (d.setWidth 5)))
  | .vst el m d a b => some (.word (mkV 0x23 (BitVec.ofNat 7 (3 + el.code)) m b a (d.setWidth 5)))
  | .vlds el m d a b => some (.word (mkV 0x23 (BitVec.ofNat 7 (6 + el.code)) m b a (d.setWidth 5)))
  | .vsts el m d a b => some (.word (mkV 0x23 (BitVec.ofNat 7 (9 + el.code)) m b a (d.setWidth 5)))
  | .vgath el m d a b => some (.word (mkV 0x23 (BitVec.ofNat 7 (12 + el.code)) m (b.setWidth 5) a (d.setWidth 5)))
  | .vscat el m d a b => some (.word (mkV 0x23 (BitVec.ofNat 7 (14 + el.code)) m (b.setWidth 5) a (d.setWidth 5)))
  | .vldb el m d a => some (.word (mkV 0x23 (BitVec.ofNat 7 (16 + el.code)) m 0 a (d.setWidth 5)))
  | .vrecip t m d a => some (.word (mkVvv 0x24 (0 + t.code) m 0 a d))
  | .vrsqrt t m d a => some (.word (mkVvv 0x24 (4 + t.code) m 0 a d))
  | .vsqrt t rc m d a => some (.word (mkV 0x24 (BitVec.ofNat 7 (8 + t.code)) m (BitVec.ofNat 5 rc.code) (a.setWidth 5)
      (d.setWidth 5)))
  | .vexp2 t m d a => some (.word (mkVvv 0x24 (12 + t.code) m 0 a d))
  | .vlog2 t m d a => some (.word (mkVvv 0x24 (16 + t.code) m 0 a d))
  | .vsin t m d a => some (.word (mkVvv 0x24 (20 + t.code) m 0 a d))
  | .vcos t m d a => some (.word (mkVvv 0x24 (24 + t.code) m 0 a d))
  | .vtanh t m d a => some (.word (mkVvv 0x24 (28 + t.code) m 0 a d))
  | .vsigm t m d a => some (.word (mkVvv 0x24 (32 + t.code) m 0 a d))
  | .vrand m d a b => some (.word (mkV 0x24 64 m b a (d.setWidth 5)))
  | .vredsum t m d a => some (.word (mkVvv 0x25 (redFn 0 9 9 t) m 0 a d))
  | .vredmax t m d a => some (.word (mkVvv 0x25 (redFn 3 12 15 t) m 0 a d))
  | .vredmin t m d a => some (.word (mkVvv 0x25 (redFn 6 18 21 t) m 0 a d))
  | .vscan t m d a => some (.word (mkVvv 0x25 (24 + t.code) m 0 a d))
  | .vshuf el m d a b => some (.word (mkVvv 0x25 (27 + el.code) m b a d))
  | .vrot el m d a b => some (.word (mkV 0x25 (BitVec.ofNat 7 (30 + el.code)) m b (a.setWidth 5) (d.setWidth 5)))
  | .vslide el m d a b => some (.word (mkV 0x25 (BitVec.ofNat 7 (33 + el.code)) m b (a.setWidth 5) (d.setWidth 5)))
  | .vcomp el m d a => some (.word (mkVvv 0x25 (36 + el.code) m 0 a d))
  | .vexpd el m d a => some (.word (mkVvv 0x25 (39 + el.code) m 0 a d))
  | .pset d a => some (.word (mkV 0x25 64 0 0 a (d.setWidth 5)))
  | .pand d a b => some (.word (mkV 0x25 65 0 (b.setWidth 5) (a.setWidth 5) (d.setWidth 5)))
  | .por d a b => some (.word (mkV 0x25 66 0 (b.setWidth 5) (a.setWidth 5) (d.setWidth 5)))
  | .pnot d a => some (.word (mkV 0x25 67 0 0 (a.setWidth 5) (d.setWidth 5)))
  | .pcnt d a => some (.word (mkV 0x25 68 0 0 (a.setWidth 5) d))
  | .pfirst d a => some (.word (mkV 0x25 69 0 0 (a.setWidth 5) d))
  | .vqmul m d a b => some (.word (mkVvv 0x26 0 m b a d))
  | .vqmac m d a b => some (.word (mkVvv 0x26 1 m b a d))
  | .vqrndLo m d a n => some (.word (mkV 0x26 2 m n (a.setWidth 5) (d.setWidth 5)))
  | .vqrndHi m d a n => some (.word (mkV 0x26 3 m n (a.setWidth 5) (d.setWidth 5)))
  | .vqsatI16 m d a n => some (.word (mkV 0x26 4 m n (a.setWidth 5) (d.setWidth 5)))
  | .vqsatI32 m d a n => some (.word (mkV 0x26 5 m n (a.setWidth 5) (d.setWidth 5)))
  | .scfg s k a => some (.word (mkR 0x27 (0#4 ++ k ++ 0#3) 0 a (sField s)))
  | .sbase s a => some (.word (mkR 0x27 1 0 a (sField s)))
  | .sstart s => some (.word (mkR 0x27 2 0 0 (sField s)))
  | .sstop s => some (.word (mkR 0x27 3 0 0 (sField s)))
  | .sbr s off => some (.word (mkR 0x27 (off.extractLsb' 10 7 ++ 4#3) (sField s) (off.extractLsb' 0 5) (off.extractLsb' 5 5)))
  | .sstat d s => some (.word (mkR 0x27 5 0 (sField s) d))
  | .tmma f d a b => some (.word (mkR 0x28 (tileFn f 0) b a (d.setWidth 5)))
  | .tmmaSp f d a b => some (.word (mkR 0x28 (tileFn f 1) b a (d.setWidth 5)))
  | .tzero d => some (.word (mkR 0x28 2 0 0 (d.setWidth 5)))
  | .tldacc f d a => some (.word (mkR 0x28 (tileFn f 3) 0 a (d.setWidth 5)))
  | .tst f a d => some (.word (mkR 0x28 (tileFn f 4) 0 a (d.setWidth 5)))
  | .tscale f d a b => some (.word (mkR 0x28 (tileFn f 5) (b.setWidth 5) (a.setWidth 5) (d.setWidth 5)))
  | .tadd f d a b => some (.word (mkR 0x28 (tileFn f 6) (b.setWidth 5) (a.setWidth 5) (d.setWidth 5)))
  | .twait => some (.word (mkR 0x28 7 0 0 0))
  | .tdesc f d a role => some (.word (mkR 0x29 (tileFn f 0) role a d))
  | .tmq a => some (.word (mkR 0x29 1 0 (a.setWidth 5) 0))
  | .tmqClr => some (.word (mkR 0x29 2 0 0 0))
  | .send a b n => some (.word (mkX 0x30 n 0 b a 0))
  | .recv d a n => some (.word (mkX 0x30 n 1 0 a d))
  | .sendt a b => some (.word (mkX 0x30 0 2 b a 0))
  | .recvt a b => some (.word (mkX 0x30 0 3 b a 0))
  | .altClr => some (.word (mkX 0x30 0 4 0 0 0))
  | .altRx a i => some (.word (mkX 0x30 i 5 0 a 0))
  | .altTx a i => some (.word (mkX 0x30 i 6 0 a 0))
  | .altTm a i => some (.word (mkX 0x30 i 7 0 a 0))
  | .altBar a b i => some (.word (mkX 0x30 i 8 b a 0))
  | .altWait d => some (.word (mkX 0x30 0 9 0 0 d))
  | .chst d a b => some (.word (mkX 0x30 0 10 b a d))
  | .chcl a => some (.word (mkX 0x30 0 11 0 a 0))
  | .chmk d a b => some (.word (mkX 0x30 0 12 b a d))
  | .chbind d a b => some (.word (mkX 0x30 0 13 b a d))
  | .chunb d a b => some (.word (mkX 0x30 0 14 b a d))
  | .spawn d a => some (.word (mkX 0x31 0 0 0 a d))
  | .exit => some (.word (mkX 0x31 0 1 0 0 0))
  | .yield => some (.word (mkX 0x31 0 2 0 0 0))
  | .sleep a => some (.word (mkX 0x31 0 3 0 a 0))
  | .setcl d a => some (.word (mkX 0x31 0 4 0 a d))
  | .dline d a b => some (.word (mkX 0x31 0 5 b a d))
  | .migr d a => some (.word (mkX 0x31 0 6 0 a d))
  | .barInit a b => some (.word (mkX 0x32 0 0 b a 0))
  | .barArr d a => some (.word (mkX 0x32 0 1 0 a d))
  | .barWait a b => some (.word (mkX 0x32 0 2 b a 0))
  | .msGet a b => some (.word (mkX 0x33 0 0 b a 0))
  | .msPut a b => some (.word (mkX 0x33 0 1 b a 0))
  | .msGath a b => some (.word (mkX 0x33 0 2 b a 0))
  | .msScat a b => some (.word (mkX 0x33 0 3 b a 0))
  | .msFill a b => some (.word (mkX 0x33 0 4 b a 0))
  | .msCas a b => some (.word (mkX 0x33 0 5 b a 0))
  | .msStat d b item => some (.word (mkX 0x33 item 6 b 0 d))
  | .cAddi d imm => some (.half (mkH6 0x1 imm d))
  | .cLi d imm => some (.half (mkH6 0x2 imm d))
  | .cMv d a => some (.half (mkHF 0x3 false a d))
  | .cAdd d a => some (.half (mkHF 0x3 true a d))
  | .cSub d a => some (.half (mkHF 0x4 false a d))
  | .cAnd d a => some (.half (mkHF 0x4 true a d))
  | .cOr d a => some (.half (mkHF 0x5 false a d))
  | .cXor d a => some (.half (mkHF 0x5 true a d))
  | .cSlli d sh => some (.half (mkH6 0x6 sh d))
  | .cSrli d sh => some (.half (mkH6 0x7 sh d))
  | .cLdd d a off => some (.half (mkHM 0x8 off a d))
  | .cStd b a off => some (.half (mkHM 0x9 off a b))
  | .cLdw d a off => some (.half (mkHM 0xA off a d))
  | .cStw b a off => some (.half (mkHM 0xB off a b))
  | .cBeqz a off => some (.half (mkHB 0xC off a))
  | .cBnez a off => some (.half (mkHB 0xD off a))
  | .cJ off => some (.half (off ++ 0xE#4 ++ 0#1))
  | .cNop => some (.half 0x001E)
  | _ => none

/-- The bytes of a code in memory (R15). -/
def Code.bytes : Code → List Byte
  | .half h => [h.extractLsb' 0 8, h.extractLsb' 8 8]
  | .word w => [w.extractLsb' 0 8, w.extractLsb' 8 8, w.extractLsb' 16 8, w.extractLsb' 24 8]

/-- A code as DETAIL1 of an ILLEGAL shows it (R70). -/
def Code.detail : Code → Word
  | .half h => h.setWidth 64
  | .word w => w.setWidth 64

/-- Length in bytes. -/
def Code.len : Code → Nat
  | .half _ => 2
  | .word _ => 4

/-- DETAIL1 of a cause that shows the instruction: its word, or 0 for a row without bits. -/
def instrDetail (i : Instr) : Word :=
  match encode i with
  | some c => c.detail
  | none => 0

/-- The four bytes of a number, little-endian. -/
def tableBytes (n : Nat) : List Byte :=
  [BitVec.ofNat 8 n, BitVec.ofNat 8 (n / 256), BitVec.ofNat 8 (n / 65536), BitVec.ofNat 8 (n / 16777216)]

/-- The instruction of a row of the opcode table whose `nbits` bits are `w`; the bits above are zero. -/
def decodeTableWord (nbits w : Nat) : Option Instr :=
  match decode (tableBytes (w % 2 ^ nbits)) with
  | .instr i _ => some i
  | .illegal _ _ => none
  | .short => none

end Sys2Proof
end

