-- ==== Sys2Proof/Config.lean ====
section
/-! DEFINITION. What an implementation fixes, and the free values of the model (no body: nothing can evaluate them). -/

namespace Sys2Proof.Config

/-- FREE VALUE (log 8): the result that one stepping of the part gives for a special function (R148, R151):
stepping, function number of R179, FP32 operand pattern. The meaning keeps it within the bound of Table 7.7. -/
opaque specialFn : BitVec 4 → Nat → BitVec 32 → BitVec 32

/-- FREE VALUE (log 9): whether a fetch uses the core's own copy of a halfword that has since been stored to (R123).
The argument is the counter State.free. -/
opaque fetchOld : Nat → Bool

/-- FREE VALUE (log 10): the secret number of a signature that the device key puts on an attestation report (R381). The
argument is the counter State.free. -/
opaque signNonce : Nat → Nat

/-- FREE VALUE (log 12): a detail word of a record whose rule states none. The argument is the counter State.free. -/
opaque detail : Nat → BitVec 64

/-- FREE VALUE (log 15): 2 MiB units of host-managed device memory that the devices of an edge group present (R262, R343). -/
opaque farUnits : Nat → Nat

/-- FREE VALUE (log 56): the channels that the channel table at an address has room for (R311). -/
opaque tableRoom : Nat → Nat

/-- Half of a cc at 1.2 GHz is no whole number of nanoseconds: `%time` is kept in twelfths of a nanosecond (R9). -/
abbrev unitsPerNs : Nat := 12

/-- Size of a core's local memory in bytes (Table 0.2). -/
abbrev localBytes : Nat := 0x60000
/-- Size of a die's loft in bytes (Table 0.2: 64 MiB). -/
abbrev loftBytes : Nat := 0x4000000
/-- Green room of a core in units of 256 B (Table 0.2: 128 KiB). -/
abbrev greenUnits : Nat := 512
/-- Process descriptors of a core (R21). -/
abbrev descriptors : Nat := 4096
/-- Binding-table entries of a core (R281). -/
abbrev bindingEntries : Nat := 1024
/-- Admission limit of class 0 (R42): 7 × 2^29. -/
abbrev admissionLimit : Nat := 3758096384

end Sys2Proof.Config
end

