-- ==== Sys2Proof/Machine/State.lean ====
section
/-! DEFINITION. The state of the machine: the whole package as plain data (INVENTORY.md, heading State), the reasons a
step can stop, and the state after reset. -/

namespace Sys2Proof.Machine

/-- A sparse table of counts with default 0. -/
abbrev Tab := List (Nat × Nat)

/-- A memory: address and byte pairs in canonical form (addresses strictly rising, no zero byte); an unlisted address
reads as 0, the value a wipe leaves (R380). -/
abbrev Memory := List Host.Cell

/-- Fault cause codes (Table 0.7). -/
inductive Cause
  | illegal | privilege | misalign | window | chType | chClosed | chBind | tileCombo | stream | arith | brk | trap
  | budget | segment | memerr | causal | deadlock | link | spawn
deriving DecidableEq, Repr

/-- A fault record (Table 1.11). `via` is the region whose fault endpoint takes it, none for a machine-level record (R55).
-/
structure Record where
  cause : Cause
  held : Bool := false
  ended : Bool := false
  region : Nat := 0
  pid : Nat := 0
  pc : Word := 0
  addr : Word := 0
  d0 : Word := 0
  d1 : Word := 0
  time : Nat := 0
  coord : Word := 0
  via : Option Nat := none
deriving DecidableEq, Repr

/-- Privilege of a process (R37); M is the monitor's and no process has it. -/
inductive Priv | u | s
deriving DecidableEq, Repr

/-- Context class (R20). -/
inductive Cls | s | v | t
deriving DecidableEq, Repr

/-- Why a process is BLOCKED (R30). -/
inductive Reason | channel | alt | sleep | barrier | sync
deriving DecidableEq, Repr

/-- Process states (R30); a PARKED process has a wait reason or a pending fill. -/
inductive PState
  | new | ready | running | blocked (r : Reason) | parked (r : Option Reason) | faulted | exited
deriving DecidableEq, Repr

/-- Where the context is (R21): nowhere yet, in the green room (or a register bank), in the park area. -/
inductive Loc | nowhere | green | park
deriving DecidableEq, Repr

/-- How a process came to EXITED (R386). -/
inductive Ending | live | exited | replyEnd | regionEnd | neverRan | dieLost
deriving DecidableEq, Repr

/-- One element that a read stream has fetched ahead (R164, R165): its number, its bits, whether its address failed the
window check or it bears a mark, and the die or edge group that could not serve it with the second detail word. -/
structure Ahead where
  idx : Nat
  val : Nat
  window : Bool
  marked : Bool
  link : Option (Nat × Word) := none
deriving DecidableEq, Repr

/-- A stream (Table 9.3) with its read-ahead. -/
structure Stream where
  cfg0 : Word := 0
  cfg1 : Word := 0
  cfg2 : Word := 0
  cfg3 : Word := 0
  mode : Word := 0
  base : Word := 0
  pos : Nat := 0
  bound : Bool := false
  ended : Bool := false
  ahead : List Ahead := []
deriving DecidableEq, Repr

/-- A priority loan held by a borrower (R45). -/
structure Loan where
  lender : Nat
  cls : Nat
  deadline : Word
  hop : Nat
deriving DecidableEq, Repr

/-- An armed guard of the alternation set (R294, Table 17.5). Channels are named by table and name. -/
inductive Guard
  | rx (table name : Nat)
  | tx (table name : Nat)
  | tm (t : Word)
  | bar (handle : Word) (phase : BitVec 32)
deriving DecidableEq, Repr

/-- The waiting instructions on one 64-bit word (R243). -/
inductive SyncOp
  | ldf | lde | ste (v : Word) | waitw (v : Word) | waitc (v : Word)
deriving DecidableEq, Repr

/-- The operations of Table 13.10. -/
inductive AmoOp | add | and | or | xor | min | max | minu | maxu | swap | cas
deriving DecidableEq, Repr

/-- Channel instructions that can wait at the anchor (R284). -/
inductive ChanOp | send | recv | sendt | recvt
deriving DecidableEq, Repr

/-- What a channel instruction that moves no message asks for at the anchor (R283): to close, bind or unbind the end, its
status, or whether guard i on it is ready. -/
inductive ChanCtl
  | close | bind (target : Nat) | unbind | status | test (i : Nat)
deriving DecidableEq, Repr

/-- A channel instruction under way (R284, R306): what it does, on which channel, the message words or the descriptor
pair read at issue, its first destination register and count, and how far it has come; `moving` is the tile transfer that
serves it, or the packet that brings its end. -/
structure ChanWait where
  op : ChanOp
  table : Nat
  name : Nat
  handle : Word
  msg : List Word
  d : XIdx
  n : Nat
  dw0 : Word
  dw1 : Word
  arrived : Bool
  moving : Option Nat
deriving DecidableEq, Repr

/-- The fields of a request block (Table 15.2), its addresses as homes, with the address of the segment-table entry, the group
of a far segment by the core's copy of the table (R261), and `%coord` of the core at issue (R57). -/
structure MsBlock where
  entry : Nat
  seg : Nat
  conv : Nat
  rop : Nat
  rtype : Nat
  offset : Nat
  len : Nat
  count : Nat
  loc : Nat
  index : Nat
  compl : Nat
  val0 : Word
  val1 : Word
  far : Option Nat
  coord : Word
deriving DecidableEq, Repr

/-- Operations of the memory servers (Table 15.3). -/
inductive MsOp | get | put | gath | scat | fill | cas
deriving DecidableEq, Repr

/-- Elements of a vector load under way (R188): the lanes that take the value, the lane that a cause names, the address, and
the value with its mark once it has returned. -/
structure VElem where
  lanes : List Nat
  lane : Nat
  addr : Nat
  val : Option (Nat × Bool)
deriving DecidableEq, Repr

/-- What an incomplete instruction of a process waits for. `stall` waits at issue and issues again; the waits of the
next three lines keep the process RUNNING and end by an event of their own; the rest block it (R30). -/
inductive Wait
  | none | stall
  | load (d : XIdx) (n : Nat) (signed : Bool) (addr : Nat) (len : Nat) (acq : Bool)
  | anchor (ask : Nat) (d : XIdx) | altTest (d : XIdx) (left hit : List Nat)
  | vload (d : VIdx) (z : Nat) (els : List VElem) | fence (sc : Scope) | drain | cfence (q : Nat) | sstop (s : BitVec 3) | twait | tmq (a : VIdx) | pop
  | sync (addr : Nat) (op : SyncOp) (d : XIdx) | rsv (addr : Nat) (d : XIdx) | amo (addr : Nat) (d : XIdx)
  | chan (c : ChanWait) | alt | sleep (t : Word) | barrier (handle : Word) (phase : BitVec 32)
  | ms (op : MsOp) (b : MsBlock) (server : Nat) | migrating (target : Nat) (d : XIdx) (bySelf : Bool)
deriving DecidableEq, Repr

/-- What happens when a process whose wait has ended next runs (R31): registers take values and the pc advances by 4,
or a cause is raised. -/
inductive Done
  | regs (ws : List (XIdx × Word))
  | cause (c : Cause) (addr d0 d1 : Word)
deriving DecidableEq, Repr

/-- What is kept with a held fault (R59): its record and the length of the instruction, none when unknown. -/
structure FaultInfo where
  record : Record
  len : Option Nat
deriving DecidableEq, Repr

/-- Where a LAUNCH put an instance (R52, R98): book slot, role, instance, and private offsets of text and data. -/
structure Image where
  slot : Nat
  role : Nat
  inst : Nat
  text : Nat
  textLen : Nat
  data : Nat
  dataLen : Nat
deriving DecidableEq, Repr

/-- A process: its descriptor (R21) and its context (Table 1.1). -/
structure Proc where
  pid : Nat
  region : Nat
  priv : Priv
  cls : Cls
  nregs : Nat
  st : PState
  loc : Loc
  core : Nat
  x : Vector Word 32 := Vector.replicate 32 0
  pc : Word := 0
  fpmode : BitVec 9 := 0
  fpflags : BitVec 5 := 0
  v : Vector VReg 16 := Vector.replicate 16 0
  p : Vector Word 8 := Vector.replicate 8 0
  vprog : Nat := 0
  streams : Vector Stream 8 := Vector.replicate 8 {}
  acc : Vector Acc 4 := Vector.replicate 4 0
  tprog : Nat := 0
  /-- a product that has performed some of its K-groups since its latest issue: the flags that they produced (R206) -/
  tile : Option (BitVec 5) := none
  /-- the writes of the `tst` at the pc that the memory path has accepted since its latest issue (R210, R217) -/
  tdone : Nat := 0
  /-- the number of the vector store at the pc, some of whose elements the memory path has accepted (R112, R157, R189) -/
  batch : Nat := 0
  mq : List Word := []
  uncl : Nat := 0
  claim : Nat := 0
  guards : Vector (Option Guard) 16 := Vector.replicate 16 none
  base : Nat := 3
  eff : Nat := 3
  dem : Bool := false
  inh : Bool := false
  period : Nat := 0
  deadline : Word := 0xFFFFFFFFFFFFFFFF
  budget : Word := 0
  fullBudget : Nat := 0
  release : Nat := 0
  quantum : Nat := 0x1000
  key : Int := 0
  lastRun : Nat := 0
  loans : List Loan := []
  wait : Wait := .none
  done : Option Done := none
  fault : Option FaultInfo := none
  rsvs : List Nat := []
  since : Nat := 0
  /-- the core to which compaction takes the process, its packet under way (R50, R51) -/
  moving : Option Nat := none
  blockNo : Nat := 0
  probes : Nat := 0
  reported : Bool := false
  image : Option Image := none
  thread : Option Nat := none
  ran : Bool := false
  ending : Ending := .live
deriving DecidableEq, Repr

/-- Who made a write (R112): what the notification says when the write meets an error; `coord` is `%coord` of the core at
issue (R57). -/
structure Author where
  core : Nat
  pid : Nat
  region : Nat
  priv : Priv
  pc : Word
  used : Word
  coord : Word
deriving DecidableEq, Repr

/-- A write as it takes effect at its home: address (of the package map), size in bytes, value, and what becomes of the
full/empty bit of the word (R241). `whole` says that the instruction's elements cover the granule (R112); `mark` that the
word was read with an uncorrectable error (R272). -/
structure WriteEff where
  addr : Nat
  n : Nat
  val : Nat
  fe : Option Bool
  whole : Bool := false
  mark : Bool := false
  author : Option Author := none
deriving DecidableEq, Repr

/-- Where the data of a load go: slot k of the waiting instruction, or element e of read stream s. -/
inductive ReplyTo
  | slot (pid k : Nat)
  | ahead (pid : Nat) (s : BitVec 3) (e : Nat)
deriving DecidableEq, Repr

/-- A request to a reservation queue (R250): `rsv`, an `amo.*` with its operands, a `ste` whose test has succeeded (its watch
holds the value), or a one-shot write, which is the queued packet with a number. -/
inductive RsvKind
  | rsv
  | amo (op : AmoOp) (b c : Word)
  | ste
  | oneShot (id : Nat)
deriving DecidableEq, Repr

/-- What a packet or an accepted access does when it takes effect. `engine` is an engine write (R245) of the request or
transfer with a number; where it is a completion or RESULT word, it names whom the LINK notification is for when it is
discarded (R387). `chan` is a send or receive on its way to the anchor, `ctl` another channel instruction, with the answer
`told`; `chanDone` brings the end of a wait, `report` the readiness of a guard (R283, R296), `move` the descriptor, context
and image of a process (R51), `frame` a message of the device for the queue of a channel, which follows the engine writes of
its owner (R288, R292), `late` a completion word that follows them (R363), `forward` an image that a core passes on to
another of its cluster (R95). Accesses through the aperture name the package and
the address there (R345). `inWrite` and `inRead` are another package's (R344), and `uaBack`
brings their answer to the die of the group. `quit` tells the home of a word that a process has ended (R32), `faultReply` the
die of a process what its supervisor has answered (R59; the region that bounds the supervisor, none for the monitor). -/
inductive Payload
  | write (w : WriteEff)
  | engine (w : WriteEff) (report : Option Author) (owner : Nat)
  | feRange (addr n : Nat) (full : Bool)
  | load (addr n : Nat) (ret : ReplyTo)
  | loadRet (val : Nat) (marked : Bool) (ret : ReplyTo)
  | linkRet (d0 : Nat) (d1 : Word) (ret : ReplyTo)
  | sync (addr : Nat) (pid : Nat) (op : SyncOp)
  | rsv (addr : Nat) (pid : Nat) (k : RsvKind)
  | rls (addr : Nat) (pid : Nat) (v : Word)
  | wake (pid : Nat) (v : Word)
  | fail (pid : Nat) (c : Cause) (addr d0 d1 : Word)
  | chan (pid : Nat)
  | ctl (pid table name : Nat) (tx : Bool) (op : ChanCtl)
  | told (pid ask : Nat) (v : Option Word)
  | chanDone (pid : Nat) (d : Done)
  | report (pid : Nat)
  | move (pid : Nat)
  | ms (id : Nat)
  | frame (table name owner : Nat) (msg : List Word)
  | inWrite (group : Nat) (w : WriteEff)
  | inRead (group addr n : Nat)
  | uaBack (group : Nat) (a : UaAnswer)
  | quit (pid addr : Nat)
  | faultReply (top : Option Nat) (w0 w1 : Word)
  | late (w : WriteEff) (owner : Nat)
  | forward (addr : Nat) (bytes : List Byte) (via owner : Nat)
  | apRead (group pkg addr n : Nat) (ret : ReplyTo)
  | apWrite (group pkg : Nat) (w : WriteEff)
  | apEngine (group pkg : Nat) (w : WriteEff) (report : Option Author)
  | kindling
deriving DecidableEq, Repr

/-- Ordering class of an access (Table 13.7) and the write paths that order on their own (R165, R216, R247). -/
inductive AKind | ord | acq | rel | nt | push (s : BitVec 3) | tst | reply
deriving DecidableEq, Repr

/-- The way an access takes: own memory by the private alias, mesh of the die (loop-back port included, R225), die
fabric, aperture. -/
inductive Path | own | mesh | fabric | aperture
deriving DecidableEq, Repr

/-- A causal stamp (Table 19.3). -/
structure Stamp where
  src : Nat
  col : List Nat
  deltas : List (Nat × Nat × Nat)
  kindling : Bool
deriving DecidableEq, Repr

/-- An accepted access or packet that has not taken effect. `used` and `n` are the address the instruction named and the
bytes it touches (R111); `held` says that it stands in the destination's hearth, `shared` that its entry there is a shared
one (R332); `refused` when the hearth refused it; `seq` is the number of a remote write of the core (R249); `queued` says
that it has reached its home and waits as a one-shot request in a reservation queue (R250). `batch` is the number of the
vector store whose element it is, 0 for none (R157); `fixed` says that a tile instruction has read the write as standing
behind the `tst` writes before it (R215, R239). -/
structure Packet where
  id : Nat
  core : Nat
  pid : Nat
  region : Nat
  src : Nat
  dst : Nat
  pc : Word
  used : Nat
  n : Nat
  path : Path
  kind : AKind
  payload : Payload
  stamp : Option Stamp := none
  held : Bool := false
  shared : Bool := false
  queued : Bool := false
  broken : Bool := false
  refused : Option Nat := none
  seq : Nat := 0
  batch : Nat := 0
  fixed : Bool := false
deriving DecidableEq, Repr

/-- A column flit under way (Table 19.4). -/
structure Flit where
  id : Nat
  src : Nat
  dst : Nat
  own : List Nat
  echo : List Nat
deriving DecidableEq, Repr

/-- Who holds or wants a die's edge lock (R357). -/
inductive LockUser
  | scene (g : Nat)
  | dvfs (mhz : Nat)
deriving DecidableEq, Repr

/-- A die: clock and cycle count (R76), causal state (Table 19.2), reclocks counted (Table 19.5), reset domains, edge lock. -/
structure Die where
  num : Nat
  mhz : Nat := 1200
  sub : Nat := 0
  cycle : Nat := 0
  know : Tab := []
  ship : Tab := []
  ack : Tab := []
  echo : Tab := []
  flits : List (Nat × List Nat × List Nat × Nat) := []
  reclocks : Nat := 0
  coreReset : Bool := false
  uncoreReset : Bool := false
  wiped : Bool := false
  lock : Option LockUser := none
  lockQ : List (LockUser × Nat) := []
deriving DecidableEq, Repr

/-- Why a halt is requested (R47). -/
inductive Halt | urgent | quantum | ghost | manager
deriving DecidableEq, Repr

/-- The read of an ordinary load that a core has made ahead of the load (R100): the load's pc, address, size, value, mark.
-/
structure Early where
  pc : Word
  addr : Nat
  n : Nat
  val : Nat
  marked : Bool
deriving DecidableEq, Repr

/-- A core's own registers and scheduler state. `window` and `ghost` are the window of the ghost light and its class-3
count, `ghostRun` and `chosenIn` say that the ghost light chose the running process, and in which window (R44). -/
structure Core where
  id : Nat
  psize : Nat := 4
  quantum : BitVec 24 := 0x1000
  probe : BitVec 20 := 0x3E8
  window : Nat := 0
  ghost : Nat := 0
  ghostRun : Bool := false
  chosenIn : Nat := 0
  halt : Option Halt := none
  records : List Record := []
  remote : Nat := 0
  copies : List (Nat × BitVec 16) := []
  early : List Early := []
deriving DecidableEq, Repr

/-- A window (Tables 13.2, 13.3). -/
structure WinEntry where
  base : Nat
  limit : Nat
  rd : Bool
  wr : Bool
  ex : Bool
  die : Nat := 0
  clus : Nat := 0
  cfirst : Nat := 0
  clast : Nat := 0
  all : Bool := false
deriving DecidableEq, Repr

/-- A loader window (R98) of a region on a core. -/
structure LoaderWin where
  region : Nat
  core : Nat
  win : WinEntry
deriving DecidableEq, Repr

/-- A region control block (Table 1.3) with the window table installed for it, its owner function, and the channel table in
which its own FAULTEP is a name (log 14). -/
structure Region where
  num : Nat
  parent : Nat
  depth : Nat
  ovr : BitVec 8
  ceil : Nat
  fdepth : Nat
  plto : Nat
  corebud : Nat
  grbud : Nat
  faultep : Nat
  replyep : Nat
  faulttab : Nat
  segtab : Nat
  chtab : Nat
  wintab : Nat
  lost : Nat := 0
  drops : Nat := 0
  wins : List WinEntry := []
  /-- SIZE and FLAGS of the segments of its own table, as the cores on which it has processes copy them (R261) -/
  segs : List (Nat × Nat) := []
  function : Nat := 0
  ended : Bool := false
deriving DecidableEq, Repr

/-- End states (Table 17.2). -/
inductive EndState | idle | bound | inTransit | closed | error
deriving DecidableEq, Repr

/-- Who holds an end (R278, R279). -/
inductive Holder | none | device | proc (pid : Nat)
deriving DecidableEq, Repr

/-- One end of a channel; `mig` and `scn` say what keeps it IN_TRANSIT, `closing` that a `chcl` waits for the move
(R310). -/
structure End where
  st : EndState := .idle
  holder : Holder := .none
  mig : Bool := false
  scn : Bool := false
  closing : Bool := false
deriving DecidableEq, Repr

/-- Channel kinds (Table 17.1). -/
inductive ChKind | word | tile | external | host
deriving DecidableEq, Repr

/-- The ring of an inbound external or host channel (R291, R292): private base on a core, slot size, slots, the slot the
next frame takes, and the slots that hold frames or belong to the process. -/
structure Ring where
  core : Nat
  base : Nat
  size : Nat
  slots : Nat
  next : Nat
  busy : List Nat
  owned : Option Nat
deriving DecidableEq, Repr

/-- What a channel is joined to outside the package: a flow, a host queue (R291), another package (R290). -/
inductive Outside
  | none
  | flow (group flow : Nat)
  | hostq (function hq : Nat)
  | peer (group pkg : Nat)
deriving DecidableEq, Repr

/-- A channel (R278, R281): its identity is its table and name. -/
structure Channel where
  table : Nat
  name : Nat
  region : Nat
  kind : ChKind
  w : Nat
  buf : Bool
  depth : Nat
  tx : End := {}
  rx : End := {}
  queue : List (List Word) := []
  ring : Option Ring := none
  outside : Outside := .none
deriving DecidableEq, Repr

/-- A priority loan under way (R45, R46). -/
structure LoanMsg where
  id : Nat
  lender : Nat
  tgt : Nat
  cls : Nat
  deadline : Word
  hop : Nat
deriving DecidableEq, Repr

/-- A deadlock probe under way (R298). -/
structure Probe where
  id : Nat
  origin : Nat
  blockNo : Nat
  pids : List Nat
  tgt : Nat
deriving DecidableEq, Repr

/-- A tile transfer under way (R287): sender and receiver, their cores and descriptor pairs, and whether every byte has
been read. -/
structure Transfer where
  id : Nat
  tx : Nat
  rx : Nat
  src : Nat
  dst : Nat
  s0 : Word
  s1 : Word
  r0 : Word
  r1 : Word
  read : Bool := false
deriving DecidableEq, Repr

/-- A barrier object that has been in use (Table 17.6). -/
structure Barrier where
  die : Nat
  clus : Nat
  idx : Nat
  owner : Option Nat
  count : Nat
  arrived : Nat
  phase : BitVec 32
deriving DecidableEq, Repr

/-- A watch at a home (R242), with the address the instruction used; the order of arrival is the order of the list. `rem`
is the core and the number of the remote write that a `ste` is (R249); `queued` says that a `ste` whose test has succeeded
waits in the word's reservation queue (R250). -/
structure Watch where
  addr : Nat
  pid : Nat
  op : SyncOp
  used : Word
  rem : Option (Nat × Nat) := none
  queued : Bool := false
deriving DecidableEq, Repr

/-- A request in a reservation queue (R250); the first of a word's requests holds the grant when `granted`; `entry` says that
the home tracks the word's queue; `used` is the address the instruction used, and `rem` the core and the number of the
remote write that an `amo.*` makes (R249). -/
structure RsvReq where
  addr : Nat
  pid : Nat
  k : RsvKind
  granted : Bool := false
  entry : Bool := false
  used : Word := 0
  rem : Option (Nat × Nat) := none
deriving DecidableEq, Repr

/-- Stages of a memory-server request (R259); `completing`: its completion word has been sent. -/
inductive MsPhase | queued | active | completing
deriving DecidableEq, Repr

/-- Where the part of a piece that a request is at stands (R259, R271): to be made out at the front server, its index to be
read, its local bytes to be read, to be served at the stack that owns it, to be handed back to the front server. -/
inductive MsStage | route | index | read | serve | back
deriving DecidableEq, Repr

/-- A byte with whether it was read with an uncorrectable error (R112, R272). -/
abbrev MByte := Byte × Bool

/-- A memory-server request (R259, R267): the block read at issue, the front server, its progress in records or bytes (`next`)
and in the bytes of the present record (`into`), the bytes written and the status gathered (0, or a cause code). `die` is
where its work stands and `travel` says that a packet takes it on from there (R321); `idx` is the record index read, `part`
the offset, physical address and length of the part that is being served, `data` the local bytes read for it, `carry` the
address and the bytes of a local word that is not complete yet (R235). -/
structure MsReq where
  id : Nat
  pid : Nat
  core : Nat
  region : Nat
  pc : Word
  op : MsOp
  blk : MsBlock
  any : Bool
  front : Nat
  phase : MsPhase := .queued
  next : Nat := 0
  written : Nat := 0
  status : Nat := 0
  stopped : Bool := false
  notified : Bool := false
  die : Nat := 0
  travel : Bool := false
  stage : MsStage := .route
  into : Nat := 0
  idx : Option Nat := none
  part : Nat × Nat × Nat := (0, 0, 0)
  data : List MByte := []
  carry : Option (Nat × List MByte) := none
deriving DecidableEq, Repr

/-- A memory server's counters and translation cache (R263, R274): a cache entry is segment-table entry address, page
number and page-table entry. -/
structure Server where
  name : Nat
  completed : Word := 0
  misses : Word := 0
  failed : Word := 0
  cache : List (Nat × Nat × Word) := []
deriving DecidableEq, Repr

/-- One member of a placement: the process, the range it may take, its RESULT word (R313, R314), and its issuer, with `%coord`
of the issuer's core at issue (R57). -/
structure Member where
  pid : Nat
  die : Nat
  clus : Nat
  first : Nat
  last : Nat
  result : Nat
  issuer : Nat
  issuerCore : Nat
  issuerPc : Word
  issuerCoord : Word
deriving DecidableEq, Repr

/-- A placement that waits (R50): a spawn, a `.place` group or part of a LAUNCH, whose instances start behind the engine writes
of the owner `images` (R95). -/
structure Placement where
  id : Nat
  region : Nat
  group : Nat
  gcount : Nat
  members : List Member
  t0 : Nat
  compacted : Bool := false
  thread : Option Nat := none
  images : Nat := 0
deriving DecidableEq, Repr

/-- A cue-sheet entry (R363). -/
structure Cue where
  tag : BitVec 16
  mask : BitVec 16
  key : BitVec 32
  off : Nat
  compl : Nat
  persist : Bool
  region : Nat := 0
deriving DecidableEq, Repr

/-- Where an arriving message goes (R363, R365). -/
inductive MDest
  | cue (c : Cue)
  | ring (table name slot : Nat)
  | dropped
deriving DecidableEq, Repr

/-- A message in reassembly (R362); `id` is the owner of its engine writes. -/
structure Reasm where
  id : Nat
  msg : BitVec 32
  tag : BitVec 16
  len : Nat
  got : Nat
  written : Nat
  dest : MDest
  interrupted : Bool
deriving DecidableEq, Repr

/-- A packet sent and not acknowledged (R361). -/
structure Sent where
  pkt : UetPacket
  tries : Nat
  missing : Nat
  at_ : Nat
deriving DecidableEq, Repr

/-- A flow (R358); `chan` is the name of the channel that the map block rebinds through it (R372). -/
structure Flow where
  num : Nat
  remote : Word
  port : Nat
  chan : Nat := 0
  rbase : BitVec 32 := 0
  rmap : Nat := 0
  msgs : List Reasm := []
  sinceAck : Nat := 0
  ackFrom : Nat := 0
  psn : BitVec 32 := 0
  nextMsg : BitVec 32 := 0
  unacked : List Sent := []
  waiting : List UetPacket := []
  cues : List Cue := []
  failed : Bool := false
deriving DecidableEq, Repr

/-- A memory key index (R364). -/
structure Key where
  idx : Nat
  base : Nat
  len : Nat
  rw : Bool
  rr : Bool
  reuse : BitVec 8
  valid : Bool
  freedAt : Option Nat
deriving DecidableEq, Repr

/-- A scene change in progress (R350): map block, width code, the thread that waits, and when its state was entered. -/
structure Scene where
  map : Nat
  width : Nat
  thread : Option Nat
  entered : Nat
deriving DecidableEq, Repr

/-- An edge group (Tables 21.2, 21.3, R345, R358, R364). -/
structure Group where
  num : Nat
  pers : BitVec 2 := 0
  target : BitVec 2 := 0
  sc : BitVec 4 := 0
  width : Nat := 0
  split : Bool := false
  laneup : BitVec 8 := 0
  retrains : Nat := 0
  drop8 : Word := 0
  drop10 : Word := 0
  drop18 : Word := 0
  drop20 : Word := 0
  keyhold : BitVec 32 := 1000
  umap : List Word := []
  inwins : List WinEntry := []
  flows : List Flow := []
  keys : List Key := []
  scene : Option Scene := none
deriving DecidableEq, Repr

/-- A host queue (R349); `head` is the entry that the device comes to next, `tail` the one behind the last that the host has
filled. -/
structure HostQueue where
  function : Nat
  num : Nat
  base : Nat
  entries : Nat
  head : Nat
  tail : Nat := 0
deriving DecidableEq, Repr

/-- An item of a thread's queue: a slot of its ring in host memory (by count since the queue began), or an item that a
LAUNCH appended, by its loft address (R375). -/
inductive QItem
  | ring (n : Nat)
  | book (addr : Nat)
deriving DecidableEq, Repr

/-- A POSTSEM increase of an item that runs within a LAUNCH, still to be made (R374, R375): the item's loft address, its
operation, semaphore and amount. -/
structure Raise where
  pc : Word
  op : Nat
  sem : Nat
  add : Nat
deriving DecidableEq, Repr

/-- What a command in progress waits for (Table 23.2, Completes when). `met` says that a value has passed the test of a
WAITGE (R376); `failed` holds the members and the reason when a placement of a LAUNCH has failed. `owner` names the
writes of the command, `raises` what follows them within a LAUNCH, and `writes` a command whose writes alone are still to be
made. -/
inductive Pending
  | waitge (sem : Nat) (v : Word) (met : Bool)
  | launch (pids : List Nat) (placements : List Nat) (wait : Bool) (after : List (Nat × Nat)) (failed : Option (Nat × Nat))
      (owner : Nat) (raises : List Raise)
  | copy (src dst : Word) (len done owner : Nat)
  | writes (op owner : Nat)
  | scene (g : Nat)
  | removal (die : Nat)
  | admission (die : Nat)
  | mkey (g index : Nat) (base len : Nat) (rw rr : Bool)
deriving DecidableEq, Repr

/-- A command in progress. -/
structure CurItem where
  hdr : ItemHdr
  pending : Pending
deriving DecidableEq, Repr

/-- A run of a trigger's list (R378): trigger, the list and its number of items as they were when the run began, next item,
command in progress. -/
structure SubRun where
  k : Nat
  list : Nat
  count : Nat
  pos : Nat
  cur : Option CurItem
deriving DecidableEq, Repr

/-- A barrel-core thread with its queue (R368, R369). `items` are the items written so far, `head` the next one. -/
structure Thread where
  num : Nat
  function : Nat
  region : Nat
  ring : Nat
  ringLog : Nat
  tail : Nat := 0
  items : List QItem := []
  head : Nat := 0
  loops : Tab := []
  cur : Option CurItem := none
  sub : Option SubRun := none
  stopped : Bool := false
deriving DecidableEq, Repr

/-- A book slot in use (R372): the loft address and length of its book, the queue region of its first LAUNCH and the
region made of each region item. -/
structure Book where
  slot : Nat
  addr : Nat
  len : Nat
  launched : Bool := false
  under : Nat := 0
  regions : List (Nat × Nat) := []
deriving DecidableEq, Repr

/-- A trigger word (R378). -/
structure Trigger where
  k : Nat
  thread : Nat
  list : Nat
  count : Nat
  pending : Nat
deriving DecidableEq, Repr

/-- A grant (R370) of a region. -/
structure Grant where
  region : Nat
  ranges : List GrantRange
deriving DecidableEq, Repr

/-- Text or data placed by the loader on a core (R98). -/
structure Placed where
  core : Nat
  slot : Nat
  region : Nat
  role : Nat
  isText : Bool
  off : Nat
  len : Nat
  pid : Nat
deriving DecidableEq, Repr

/-- A reclock in progress (R336): the dies removed or admitted with it, and its phase, as the status register shows it
(Table 19.5): 4 isolating after a removal, 1 stopped, 2 draining, 3 zeroing. -/
structure Reclock where
  removed : List Nat
  joining : List Nat
  phase : Nat := 1
deriving DecidableEq, Repr

/-- What a removal leaves to report for a region (R335). -/
structure Affected where
  region : Nat
  die : Nat
  addr : Nat
  lost : Nat
  broken : Nat
deriving DecidableEq, Repr

/-- The part (R1, R2, Table 0.1): an EL840-P, which an EL840-M carries as well, or an EL840-P7, whose absent die is one of dies
1 to 7, fixed at manufacture. -/
inductive Part
  | full
  | graded (absent : Fin 7)
deriving DecidableEq, Repr

/-- CODE of a part (Table 0.4). -/
def Part.code : Part → BitVec 4
  | .full => 0
  | .graded _ => 1

/-- The dies that a part enables (Table 0.1): the absent one is counted from die 1 on. -/
def Part.dies : Part → BitVec 8
  | .full => 0xFF
  | .graded a => 0xFF ^^^ (2 <<< a.val)

/-- Fuses, masks and boot results (Table 0.4, R264, R379, R381). -/
structure Pkg where
  part : Part
  step : BitVec 4
  dieMask : BitVec 8
  stackMask : BitVec 16
  edgeMask : BitVec 16
  pkgNum : BitVec 16
  itab : BitVec 16
  lifeCycle : LifeCycle
  keyHash : BitVec 256
  /-- the device key, a private key on P-256 (R381) -/
  deviceKey : BitVec 256
  ownX : Nat
  ownY : Nat
  floor : Nat
  monMeas : BitVec 256
  fwMeas : BitVec 256
  secVersion : Nat
  bootError : Nat
  threadsOn : Bool
  running : Bool
deriving DecidableEq, Repr

/-- Who moves next (log 1): a core, a thread of the barrel core, an event, the passing of time, an instruction fetch
ahead of the pc (R123), a core whose path accepts only so many elements of a vector store or `tst` in this step (R189, R217),
the read of the load that stands so many instructions behind the pc, made ahead of it (R100), an
uncorrectable error in a granule of memory (R112), a halt that the stage manager asks for (R47), the host writing its
own memory, setting up a host queue or advancing its tail (R349), or the monitor setting a group's inbound windows (R344) or giving an end of a
channel to another package (R290), for which Table 23.2 has no command. -/
inductive Agenda
  | core (c : Nat)
  | thread (t : Nat)
  | event (i : Instr) (subj : Subject)
  | elapse (units : Nat)
  | halt (core : Nat)
  | prefetch (core : Nat) (addr : Nat)
  | part (core n : Nat)
  | loadAhead (core k : Nat)
  | memError (addr : Nat) (hbm : Bool)
  | hostWrite (function addr : Nat) (bytes : List Byte)
  | hostQueue (function num base entries : Nat)
  | hostTail (function num tail : Nat)
  | inbound (group : Nat) (wins : List WinEntry)
  | peer (table name group pkg : Nat) (tx : Bool)
deriving DecidableEq, Repr

/-- The machine. -/
structure State where
  /-- who moves next; with an empty agenda the default policy of Machine/Schedule.lean decides (log 1) -/
  agenda : List Agenda
  /-- what the row without bits that is being performed concerns -/
  subj : Subject
  /-- the core whose active bank `cpu` is -/
  focus : Nat
  /-- the active bank of the core `focus`: its RUNNING process, if any (R25) -/
  cpu : Option Proc
  /-- the elements of a vector store or `tst` that the memory path accepts in this step, none when it accepts all (log 36) -/
  part : Option Nat
  pkg : Pkg
  /-- `%time` in twelfths of a nanosecond (R9) -/
  time : Nat
  dies : List Die
  /-- the cores whose registers differ from their reset values -/
  cores : List Core
  /-- every other process -/
  procs : List Proc
  regions : List Region
  loaderWins : List LoaderWin
  placed : List Placed
  placements : List Placement
  /-- local memories and lofts, by global or loft address (Table 13.1) -/
  mem : Memory
  /-- the words whose full/empty bit is empty (R241) -/
  empty : List Nat
  /-- the granules that bear an uncorrectable-error mark (R112) -/
  marks : List Nat
  /-- granules with an uncorrectable error that nothing has met yet (R112) -/
  latent : List Nat
  /-- the stacks, by stack and in-stack address (R265) -/
  hbm : Memory
  hbmMarks : List Nat
  /-- host-managed device memory of the edge groups (R262, R276), and its words with an uncorrectable error -/
  far : Memory
  farMarks : List Nat
  host : Memory
  watches : List Watch
  rsvs : List RsvReq
  /-- accepted accesses and packets that have not taken effect, oldest first -/
  packets : List Packet
  flits : List Flit
  loanMsgs : List LoanMsg
  probes : List Probe
  transfers : List Transfer
  channels : List Channel
  barriers : List Barrier
  requests : List MsReq
  servers : List Server
  groups : List Group
  hostQueues : List HostQueue
  threads : List Thread
  books : List Book
  grants : List Grant
  /-- edge groups and host queues granted to functions (R370): function, group or 16 + queue -/
  edgeGrants : List (Nat × Nat)
  sems : Tab
  /-- semaphore and the function it is assigned to (R376) -/
  semOwners : List (Nat × Nat)
  triggers : List Trigger
  /-- writes to trigger words that have reached their home and are not yet counted (R378) -/
  trigWrites : List Nat
  /-- notifications that are no core's (R57) -/
  managerRecords : List Record
  mailbox : List Record
  /-- error rings: function and record (R373) -/
  errorRings : List (Nat × Record)
  /-- MSI-X messages posted: function and vector -/
  irqs : List (Nat × Nat)
  /-- packets and acknowledgements sent on flows: group and packet; group, flow, base, map -/
  framesOut : List (Nat × UetPacket)
  acksOut : List (Nat × Nat × BitVec 32 × BitVec 64)
  /-- answers given to requests of other packages (R344) -/
  uaOut : List (Nat × UaAnswer)
  reports : List (List Byte)
  reclock : Option Reclock
  affected : List Affected
  /-- what the loader uses of the loft of die 0: book slot, address, length; the next PID, region number and identifier
  (log 7) -/
  loftUsed : List (Nat × Nat × Nat)
  /-- SHA-256 of the last book loaded in each slot (Table 23.4) -/
  bookHashes : List (Nat × Nat)
  nextPid : Nat
  nextRegion : Nat
  nextId : Nat
  /-- THE MODEL'S OWN: the counter of free values (log 2) -/
  free : Nat
deriving DecidableEq, Repr

/-- Reasons the machine stops with a fault. -/
inductive Fault
  /-- Raised by every encoded instruction executed on a core that has no running process: the spec gives an instruction
  no effect without the process that issues it. No step of the machine meets it. Safe. -/
  | noProcess
deriving DecidableEq, Repr

/-- Reasons an instruction has no meaning here. -/
inductive Refusal
  /-- Raised by the arms of Dispatch.lean that have no meaning yet. Safe. -/
  | notModelled (mnemonic : String)
deriving DecidableEq, Repr

/-- The package after reset and a boot in which nothing fails (R379, R380): a full EL840-P (log 3), every memory wiped,
no process, no region, nothing queued. -/
def State.reset : State where
  agenda := []
  subj := .none
  focus := 0
  cpu := none
  part := none
  pkg := { part := .full, step := 0, dieMask := 0xFF, stackMask := 0xFFFF, edgeMask := 0xFFFF, pkgNum := 0,
           itab := 0xFFFF, lifeCycle := .owned,
           keyHash := 0xd875db7def232236aec738c6b0bb3e80142f5d0fd8f4df24fed6eef5cbb50d9f, deviceKey := 1, ownX := 0, ownY := 0, floor := 0, monMeas := 0,
           fwMeas := 0, secVersion := 0, bootError := 0, threadsOn := true, running := true }
  time := 0
  dies := [{ num := 0 }, { num := 1 }, { num := 2 }, { num := 3 }, { num := 4 }, { num := 5 }, { num := 6 },
           { num := 7 }]
  cores := []
  procs := []
  regions := []
  loaderWins := []
  placed := []
  placements := []
  mem := []
  empty := []
  marks := []
  latent := []
  hbm := []
  hbmMarks := []
  far := []
  farMarks := []
  host := []
  watches := []
  rsvs := []
  packets := []
  flits := []
  loanMsgs := []
  probes := []
  transfers := []
  channels := []
  barriers := []
  requests := []
  servers := []
  groups := [{ num := 0 }, { num := 1 }, { num := 2 }, { num := 3 }, { num := 4 }, { num := 5 }, { num := 6 },
             { num := 7 }, { num := 8 }, { num := 9 }, { num := 10 }, { num := 11 }, { num := 12 }, { num := 13 },
             { num := 14 }, { num := 15 }]
  hostQueues := []
  threads := [{ num := 0, function := 0, region := 0, ring := 0, ringLog := 4 }]
  books := []
  grants := []
  edgeGrants := []
  sems := []
  semOwners := []
  triggers := []
  trigWrites := []
  managerRecords := []
  mailbox := []
  errorRings := []
  irqs := []
  framesOut := []
  acksOut := []
  uaOut := []
  reports := []
  reclock := none
  affected := []
  loftUsed := []
  bookHashes := []
  nextPid := 1
  nextRegion := 1
  nextId := 1
  free := 0

end Sys2Proof.Machine
end

