-- ==== Sys2Proof/Machine/Memory.lean ====
section
/-! DEFINITION. Memories as sorted lists of cells: reading and writing bytes and little-endian values (R15), in the one
canonical form; sorted lists of addresses for the bits that stand beside a memory. -/

namespace Sys2Proof.Machine

/-- What an address that is not listed reads as (R380: a wipe leaves 0). -/
def Memory.default : Byte := 0

/-- One byte. -/
def Memory.get : Memory → Nat → Byte
  | [], _ => Memory.default
  | (k, b) :: r, a => if k = a then b else Memory.get r a

/-- A cell in front of cells of higher addresses; a default byte is not listed. -/
def Memory.cons (a : Nat) (b : Byte) (r : Memory) : Memory := if b = Memory.default then r else (a, b) :: r

/-- Writes one byte, keeping the canonical form. -/
def Memory.set : Memory → Nat → Byte → Memory
  | [], a, b => Memory.cons a b []
  | (k, c) :: r, a, b =>
    if a < k then Memory.cons a b ((k, c) :: r)
    else if a = k then Memory.cons a b r
    else (k, c) :: Memory.set r a b

/-- The canonical form: addresses strictly rising, no default byte. -/
def Memory.wf : Memory → Bool
  | [] => true
  | [(_, b)] => b != Memory.default
  | (k, b) :: (k', b') :: r => b != Memory.default && decide (k < k') && Memory.wf ((k', b') :: r)

/-- The n bytes at an address as a number, little-endian (R15). -/
def Memory.read (m : Memory) (a : Nat) : Nat → Nat
  | 0 => 0
  | n + 1 => (m.get a).toNat + 256 * Memory.read m (a + 1) n

/-- Writes the low n bytes of a number, little-endian (R15). -/
def Memory.write (m : Memory) (a : Nat) : Nat → Nat → Memory
  | 0, _ => m
  | n + 1, v => Memory.write (m.set a (BitVec.ofNat 8 v)) (a + 1) n (v / 256)

/-- The n bytes at an address. -/
def Memory.bytes (m : Memory) (a : Nat) : Nat → List Byte
  | 0 => []
  | n + 1 => m.get a :: Memory.bytes m (a + 1) n

/-- Writes bytes. -/
def Memory.writeBytes (m : Memory) (a : Nat) : List Byte → Memory
  | [] => m
  | b :: bs => Memory.writeBytes (m.set a b) (a + 1) bs

/-- Fills n bytes with a byte; a default byte is removed without visiting each address. -/
def Memory.clear (m : Memory) (a n : Nat) : Memory := m.filter fun c => decide (c.1 < a) || decide (a + n ≤ c.1)

/-- The cells of a range moved to another address. -/
def Memory.cells (m : Memory) (a n : Nat) : Memory := m.filter fun c => decide (a ≤ c.1) && decide (c.1 < a + n)

/-- Copies n bytes, reading all before writing any. -/
def Memory.copy (m : Memory) (src dst n : Nat) : Memory :=
  (m.cells src n).foldl (fun r c => r.set (dst + (c.1 - src)) c.2) (m.clear dst n)

/-! Sorted lists of addresses -/

/-- Adds an address. -/
def insertAddr (a : Nat) : List Nat → List Nat
  | [] => [a]
  | b :: r => if a < b then a :: b :: r else if a = b then b :: r else b :: insertAddr a r

/-- Removes an address. -/
def eraseAddr (a : Nat) (l : List Nat) : List Nat := l.filter (· != a)

/-- Sorted without repeats. -/
def addrsOk : List Nat → Bool
  | [] => true
  | [_] => true
  | a :: b :: r => decide (a < b) && addrsOk (b :: r)

/-! Tables of counts with default 0, in canonical form -/

/-- The entry of a key. -/
def Tab.get : Tab → Nat → Nat
  | [], _ => 0
  | (k, v) :: r, a => if k = a then v else Tab.get r a

/-- An entry in front; 0 is not listed. -/
def Tab.cons (a v : Nat) (r : Tab) : Tab := if v = 0 then r else (a, v) :: r

/-- Sets an entry. -/
def Tab.set : Tab → Nat → Nat → Tab
  | [], a, v => Tab.cons a v []
  | (k, c) :: r, a, v =>
    if a < k then Tab.cons a v ((k, c) :: r)
    else if a = k then Tab.cons a v r
    else (k, c) :: Tab.set r a v

end Sys2Proof.Machine
end

