-- ==== Sys2Proof/Machine/Base.lean ====
section
/-! DEFINITION. Named access to the parts of the state: registers of a process, processes, cores, dies, regions with
their inherited fields (R34), coordinates (R4, R10), time (R9). -/

namespace Sys2Proof.Machine

/-! Registers (R17, R74) -/

/-- x[r]; x0 reads as zero. -/
def Proc.getX (p : Proc) (r : XIdx) : Word := if r = 0 then 0 else p.x[r.toNat]

/-- Writes x[r]; a write to x0 is discarded. -/
def Proc.setX (p : Proc) (r : XIdx) (v : Word) : Proc :=
  if r = 0 then p else { p with x := p.x.set r.toNat v r.isLt }

/-- The register of a short field (R72). -/
def short (f : BitVec 3) : XIdx := f.setWidth 5 + 4

/-- p[r]; p0 reads as all ones. -/
def Proc.getP (p : Proc) (r : PIdx) : Word := if r = 0 then BitVec.allOnes 64 else p.p[r.toNat]

/-- Writes p[r]; a write to p0 is discarded. -/
def Proc.setP (p : Proc) (r : PIdx) (v : Word) : Proc :=
  if r = 0 then p else { p with p := p.p.set r.toNat v r.isLt }

/-- v[r] as it stands (streams are Operands.lean's). -/
def Proc.getV (p : Proc) (r : VIdx) : VReg := p.v[r.toNat]

/-- Writes v[r] as it stands. -/
def Proc.setV (p : Proc) (r : VIdx) (v : VReg) : Proc := { p with v := p.v.set r.toNat v r.isLt }

/-- a[r]. -/
def Proc.getA (p : Proc) (r : AIdx) : Acc := p.acc[r.toNat]

/-- Writes a[r]. -/
def Proc.setA (p : Proc) (r : AIdx) (v : Acc) : Proc := { p with acc := p.acc.set r.toNat v r.isLt }

/-- The next sequential pc (R60). An instruction that completes waits for nothing and leaves no progress of a vector memory
instruction or a `tst`. -/
def Proc.advance (p : Proc) (len : Nat) : Proc :=
  { p with pc := p.pc + BitVec.ofNat 64 len, wait := .none, vprog := 0, tdone := 0, batch := 0 }

/-- A jump. -/
def Proc.jump (p : Proc) (t : Word) : Proc := { p with pc := t, wait := .none, vprog := 0, tdone := 0, batch := 0 }

/-- Writes consecutive registers. -/
def Proc.setRun (p : Proc) : List (XIdx × Word) → Proc
  | [] => p
  | (r, v) :: ws => Proc.setRun (p.setX r v) ws

/-- The registers x[r], x[r + 1], … of a run of n. -/
def Proc.getRun (p : Proc) (r : XIdx) : Nat → List Word
  | 0 => []
  | n + 1 => p.getX r :: Proc.getRun p (r + 1) n

/-- A run of registers with its values. -/
def runOf (r : XIdx) : List Word → List (XIdx × Word)
  | [] => []
  | v :: vs => (r, v) :: runOf (r + 1) vs

/-! Processes -/

/-- The process with a PID, active or not. -/
def State.proc? (s : State) (pid : Nat) : Option Proc :=
  match s.cpu with
  | some p => if p.pid = pid then some p else s.procs.find? (·.pid == pid)
  | none => s.procs.find? (·.pid == pid)

/-- Puts a process back in its place; one that is nowhere is added. -/
def State.putProc (s : State) (p : Proc) : State :=
  let other (_ : Unit) : State :=
    if s.procs.any (·.pid == p.pid) then { s with procs := s.procs.map fun q => if q.pid == p.pid then p else q }
    else { s with procs := s.procs ++ [p] }
  match s.cpu with
  | some q => if q.pid = p.pid then { s with cpu := some p } else other ()
  | none => other ()

/-- Applies a change to the process with a PID, if there is one. -/
def State.modProc (s : State) (pid : Nat) (f : Proc → Proc) : State :=
  match s.proc? pid with
  | some p => s.putProc (f p)
  | none => s

/-- Every process. -/
def State.allProcs (s : State) : List Proc := s.cpu.toList ++ s.procs

/-- The running process of a core. -/
def State.runningOn (s : State) (c : Nat) : Option Proc :=
  if s.focus = c then s.cpu else s.procs.find? fun p => p.core == c && p.st == .running

/-- The active process leaves the active bank with its new state. -/
def State.leaveCpu (s : State) (p : Proc) : State := { s with cpu := none, procs := s.procs ++ [p] }

/-- A RUNNING process, on whatever core, leaves RUNNING with its new state. -/
def State.leaveRunning (s : State) (p : Proc) : State :=
  match s.cpu with
  | some q => if q.pid = p.pid then s.leaveCpu p else s.putProc p
  | none => s.putProc p

/-- Makes the bank of a core the active one: its running process moves into `cpu`, the old one back into the list. -/
def State.refocus (s : State) (c : Nat) : State :=
  if s.focus = c then s else
  let out := match s.cpu with
    | some p => s.procs ++ [p]
    | none => s.procs
  match out.find? fun p => p.core == c && p.st == .running with
  | some p => { s with focus := c, cpu := some p, procs := out.filter (·.pid != p.pid) }
  | none => { s with focus := c, cpu := none, procs := out }

/-! Cores and dies -/

/-- The registers of a core; a core that is not listed holds its reset values. -/
def State.core (s : State) (c : Nat) : Core :=
  match s.cores.find? (·.id == c) with
  | some k => k
  | none => { id := c }

/-- Inserts a core by its number. -/
def insertCore (k : Core) : List Core → List Core
  | [] => [k]
  | j :: r => if k.id < j.id then k :: j :: r else j :: insertCore k r

/-- Puts a core's registers back; a core at its reset values is not listed. -/
def State.putCore (s : State) (k : Core) : State :=
  let rest := s.cores.filter (·.id != k.id)
  { s with cores := if k = { id := k.id } then rest else insertCore k rest }

/-- Applies a change to a core's registers. -/
def State.modCore (s : State) (c : Nat) (f : Core → Core) : State := s.putCore (f (s.core c))

/-- Die of a core number (R4): bits 12:10. -/
def dieOf (core : Nat) : Nat := core / 1024
/-- Cluster of a core number: bits 9:8. -/
def clusOf (core : Nat) : Nat := core / 256 % 4
/-- Core index: bits 7:0. -/
def idxOf (core : Nat) : Nat := core % 256
/-- Core number of a die, cluster and index. -/
def coreOf (die clus idx : Nat) : Nat := die * 1024 + clus * 256 + idx

/-- Die d is present (R2, R3): the masks keep the bit of a die declared absent until the reclock ends (R13). -/
def State.diePresent (s : State) (d : Nat) : Bool :=
  s.pkg.dieMask.getLsbD d && (match s.reclock with
    | some r => !r.removed.contains d
    | none => true)

/-- A core exists: its die is present. -/
def State.corePresent (s : State) (c : Nat) : Bool := decide (c < 8192) && s.diePresent (dieOf c)

/-- A die's record. -/
def State.die (s : State) (d : Nat) : Die :=
  match s.dies.find? (·.num == d) with
  | some k => k
  | none => { num := d }

/-- Puts a die's record back. -/
def State.putDie (s : State) (k : Die) : State :=
  { s with dies := s.dies.map fun j => if j.num == k.num then k else j }

/-- Applies a change to a die's record. -/
def State.modDie (s : State) (d : Nat) (f : Die → Die) : State := s.putDie (f (s.die d))

/-- A core may run: present, threads started by the boot, not in a core-domain reset (R337, R379, R384). -/
def State.coreLive (s : State) (c : Nat) : Bool :=
  s.corePresent c && s.pkg.running && !(s.die (dieOf c)).coreReset

/-- `%coord` of a core (Table 0.3). -/
def State.coord (s : State) (c : Nat) : Word := BitVec.ofNat 64 (c + s.pkg.pkgNum.toNat * 65536)

/-- `%time` in ns (R9). The model has one time for the package: the dies' clocks, which Table 0.2 lets differ by up to 4 ns,
agree exactly (log 5, the model's choice). -/
def State.ns (s : State) : Nat := s.time / Config.unitsPerNs

/-- `%time` as a register reads it. -/
def State.timeWord (s : State) : Word := BitVec.ofNat 64 s.ns

/-- `%cycle` of a core (R76). -/
def State.cycleOf (s : State) (c : Nat) : Nat := (s.die (dieOf c)).cycle

/-! Regions (R33, R34, R389) -/

/-- A region by its number. -/
def State.region? (s : State) (n : Nat) : Option Region := s.regions.find? (·.num == n)

/-- Puts a region back. -/
def State.putRegion (s : State) (r : Region) : State :=
  { s with regions := s.regions.map fun q => if q.num == r.num then r else q }

/-- Applies a change to a region. -/
def State.modRegion (s : State) (n : Nat) (f : Region → Region) : State :=
  match s.region? n with
  | some r => s.putRegion (f r)
  | none => s

/-- A region is a root: its parent is itself (R389). -/
def Region.isRoot (r : Region) : Bool := r.parent == r.num

/-- The region whose own field is the effective value of the field with an OVR bit (bit 40 + `bit`): the nearest of the
region and its ancestors that overrides it, or the root. -/
def State.owner (s : State) (bit : Nat) : Nat → Nat → Option Region
  | 0, _ => none
  | fuel + 1, n =>
    match s.region? n with
    | none => none
    | some r => if r.ovr.getLsbD bit || r.isRoot then some r else State.owner s bit fuel r.parent

/-- Levels of the region tree (R33). -/
def levels : Nat := 8

/-- Numeric effective field, 0 where no region is. -/
def State.effField (s : State) (bit : Nat) (f : Region → Nat) (n : Nat) : Nat :=
  match s.owner bit levels n with
  | some r => f r
  | none => 0

/-- The smaller of an overriding budget and the parent's effective one (R34); for CEIL the larger number. -/
def State.effBound (s : State) (bit : Nat) (f : Region → Nat) (pick : Nat → Nat → Nat) : Nat → Nat → Nat
  | 0, _ => 0
  | fuel + 1, n =>
    match s.region? n with
    | none => 0
    | some r =>
      if r.isRoot then f r
      else
        let up := State.effBound s bit f pick fuel r.parent
        if r.ovr.getLsbD bit then pick (f r) up else up

/-- Effective CEIL. -/
def State.effCeil (s : State) (n : Nat) : Nat := s.effBound 0 (·.ceil) max levels n
/-- Effective COREBUD. -/
def State.effCorebud (s : State) (n : Nat) : Nat := s.effBound 1 (·.corebud) min levels n
/-- Effective GRBUD. -/
def State.effGrbud (s : State) (n : Nat) : Nat := s.effBound 2 (·.grbud) min levels n
/-- Effective FAULTEP, REPLYEP and FDEPTH go together (R389). -/
def State.effFaultep (s : State) (n : Nat) : Nat := s.effField 3 (·.faultep) n
def State.effReplyep (s : State) (n : Nat) : Nat := s.effField 3 (·.replyep) n
def State.effFdepth (s : State) (n : Nat) : Nat := s.effField 3 (·.fdepth) n
/-- Effective SEGTAB, CHTAB, WINTAB and PLTO. -/
def State.effSegtab (s : State) (n : Nat) : Nat := s.effField 4 (·.segtab) n
def State.effChtab (s : State) (n : Nat) : Nat := s.effField 5 (·.chtab) n
def State.effPlto (s : State) (n : Nat) : Nat := s.effField 7 (·.plto) n

/-- Window entries of the effective window table, as installed (R227, R230). -/
def State.effWins (s : State) (n : Nat) : List WinEntry :=
  match s.owner 6 levels n with
  | some r => r.wins
  | none => []

/-- A region and its ancestors, nearest first. -/
def State.ancestors (s : State) : Nat → Nat → List Nat
  | 0, _ => []
  | fuel + 1, n =>
    match s.region? n with
    | none => []
    | some r => if r.isRoot then [n] else n :: State.ancestors s fuel r.parent

/-- Region n lies in the subtree of region top. -/
def State.inSubtree (s : State) (top n : Nat) : Bool := (s.ancestors levels n).contains top

/-- The root above a region. -/
def State.rootOf (s : State) (n : Nat) : Nat := (s.ancestors levels n).getLast?.getD n

/-- The processes of a region that are placed or wait. -/
def State.regionProcs (s : State) (n : Nat) : List Proc := s.allProcs.filter (·.region == n)

/-- Green-room slot of a class in units of 256 B (Table 1.1). -/
def Cls.units : Cls → Nat
  | .s => 1 | .v => 10 | .t => 54

/-- Number of a class (R22). -/
def Cls.num : Cls → Nat
  | .s => 0 | .v => 1 | .t => 2

/-- A process that lives: neither NEW nor EXITED. -/
def Proc.placed (p : Proc) : Bool := p.st != .new && p.st != .exited

/-- Processes placed on a core. -/
def State.onCore (s : State) (c : Nat) : List Proc := s.allProcs.filter fun p => p.placed && p.core == c

/-- The core to which a process is on its way (R50, R51, R318). -/
def Proc.bound? (p : Proc) : Option Nat :=
  match p.wait with
  | .migrating t _ _ => some t
  | _ => p.moving

/-- The core of a process, and the one it is on its way to (R51). -/
def Proc.cores (p : Proc) : List Nat := p.core :: p.bound?.toList

/-- A process that takes room on a core: one placed there, or one that has been tested for it and that is on its way (R42,
R51, R318). -/
def Proc.claims (p : Proc) (c : Nat) : Bool :=
  p.placed && p.cores.contains c

/-- Processes that take room on a core. -/
def State.claimants (s : State) (c : Nat) : List Proc := s.allProcs.filter fun p => p.claims c

/-- Green-room units in use on a core. -/
def State.greenUsed (s : State) (c : Nat) : Nat :=
  ((s.onCore c).filter (·.loc == .green)).foldl (fun n p => n + p.cls.units) 0

/-- A fresh identifier for a packet, request, placement, probe or loan. -/
def State.freshId (s : State) : Nat × State := (s.nextId, { s with nextId := s.nextId + 1 })

/-- Cause codes (Table 0.7). -/
def Cause.code : Cause → Nat
  | .illegal => 0x01 | .privilege => 0x02 | .misalign => 0x03 | .window => 0x04 | .chType => 0x05 | .chClosed => 0x06
  | .chBind => 0x07 | .tileCombo => 0x08 | .stream => 0x09 | .arith => 0x0A | .brk => 0x0B | .trap => 0x0C
  | .budget => 0x0D | .segment => 0x0E | .memerr => 0x0F | .causal => 0x10 | .deadlock => 0x11 | .link => 0x12
  | .spawn => 0x13

/-- The eight words of a record (Table 1.11). -/
def Record.words (r : Record) : List Word :=
  [BitVec.ofNat 64 (r.cause.code + (if r.held then 256 else 0) + (if r.ended then 512 else 0) + r.region * 65536),
   BitVec.ofNat 64 r.pid, r.pc, r.addr, r.d0, r.d1, BitVec.ofNat 64 r.time, r.coord]

end Sys2Proof.Machine
end

