-- ==== Sys2Proof/Machine/Sched.lean ====
section
/-! DEFINITION. The scheduler of a core: the wings, effective classes and loans, choice, halt requests, waking, the passage
of time for what runs (R39–R47). -/

namespace Sys2Proof.Machine

/-- All ones: `%deadline` outside class 0 (Table 1.8). -/
abbrev noDeadline : Word := BitVec.allOnes 64

/-- QUANT of a core; values below 0x100 act as 0x100 (Table 1.9). -/
def Core.quant (k : Core) : Nat := max k.quantum.toNat 0x100

/-- Twelfths of a nanosecond in one cc of a die (R9). -/
def Die.ccUnits (d : Die) : Nat := 12000 / d.mhz

/-- A loan of class 0 keeps class 0 only on the lender's core, and while the lender is not demoted (R46). -/
def State.loanCls (s : State) (p : Proc) (l : Loan) : Nat :=
  if l.cls = 0 then
    match s.proc? l.lender with
    | some q => if q.core = p.core ∧ q.dem = false then 0 else 1
    | none => 1
  else l.cls

/-- Own class for dispatch: BASE, or the demoted class (R43). -/
def State.ownCls (s : State) (p : Proc) : Nat := if p.dem then max 1 (s.effCeil p.region) else p.base

/-- EFF and INH recomputed (R45). A demoted borrower keeps what others lend it. -/
def State.reEff (s : State) (p : Proc) : Proc :=
  let own := s.ownCls p
  let lent := p.loans.foldl (fun n l => min n (s.loanCls p l)) own
  let e := max lent (s.effCeil p.region)
  let e := if own ≤ e then own else e
  { p with eff := e, inh := decide (e < own) }

/-- The class-0 loan, from a lender on the borrower's core, with the earliest deadline; ties to the lower PID (R46). -/
def State.payer (s : State) (p : Proc) : Option Loan :=
  (p.loans.filter fun l => s.loanCls p l == 0).foldl (fun b l =>
    match b with
    | none => some l
    | some k => if l.deadline < k.deadline ∨ (l.deadline = k.deadline ∧ l.lender < k.lender) then some l else some k)
    none

/-- The deadline of a process's own class 0. -/
def Proc.ownDeadline (p : Proc) : Word := if p.base = 0 ∧ p.dem = false then p.deadline else noDeadline

/-- The loan that gives a process its deadline (R45, R46): the earliest one, where it is earlier than the process's own. -/
def State.orders (s : State) (p : Proc) : Option Loan := (s.payer p).filter fun l => decide (l.deadline < p.ownDeadline)

/-- The deadline that orders a class-0 process: its own, or the earliest lent to it (R45). -/
def State.edf (s : State) (p : Proc) : Word :=
  match s.orders p with
  | some l => l.deadline
  | none => p.ownDeadline

/-- The wings of a core: its READY processes, whose contexts are in the green room (R30). -/
def State.wings (s : State) (c : Nat) : List Proc :=
  s.allProcs.filter fun p => p.core == c && p.st == .ready && p.loc != .park

/-- Class 0 first by deadline, ties to the lower PID (R41). -/
def State.bestEdf (s : State) (ps : List Proc) : Option Proc :=
  ps.foldl (fun b p =>
    match b with
    | none => some p
    | some q => if s.edf p < s.edf q ∨ (s.edf p = s.edf q ∧ p.pid < q.pid) then some p else some q) none

/-- The head of a FIFO. -/
def headOf (ps : List Proc) : Option Proc :=
  ps.foldl (fun b p =>
    match b with
    | none => some p
    | some q => if p.key < q.key ∨ (p.key = q.key ∧ p.pid < q.pid) then some p else some q) none

/-- Key of the tail and of the head of a core's FIFOs. -/
def State.tailKey (s : State) (c : Nat) : Int := (s.onCore c).foldl (fun k p => max k (p.key + 1)) 1
def State.headKey (s : State) (c : Nat) : Int := (s.onCore c).foldl (fun k p => min k (p.key - 1)) (-1)

/-- Cycles of a window of the ghost light, and its allowance (R44). -/
def ghostWindow : Nat := 65536
def ghostAllowance : Nat := 1024

/-- Class-3 cycles counted in the current window. -/
def State.ghostCount (s : State) (c : Nat) : Nat :=
  if (s.core c).window = s.cycleOf c / ghostWindow then (s.core c).ghost else 0

/-- `%time` at which the window of the ghost light ends. -/
def State.ghostDeadline (s : State) (c : Nat) : Word :=
  let d := s.die (dieOf c)
  BitVec.ofNat 64 ((s.time + (ghostWindow - d.cycle % ghostWindow) * d.ccUnits - d.sub) / Config.unitsPerNs)

/-- The ghost light is eligible (R44). -/
def State.ghostDue (s : State) (c : Nat) : Bool :=
  (s.wings c).any (·.eff == 3) && decide (s.ghostCount c < ghostAllowance)

/-- The scheduler's choice among READY processes, and whether the ghost light made it (R39–R44). -/
def State.choice (s : State) (c : Nat) : Option (Proc × Bool) :=
  let w := s.wings c
  let cls (n : Nat) := w.filter (·.eff == n)
  let ghost := if s.ghostDue c then (headOf (cls 3)).map fun p => (p, true) else none
  match s.bestEdf (cls 0), ghost with
  | some p, some g => if s.ghostDeadline c < s.edf p then some g else some (p, false)
  | some p, none => some (p, false)
  | none, some g => some g
  | none, none =>
    match headOf (cls 1) with
    | some p => some (p, false)
    | none =>
      match headOf (cls 2) with
      | some p => some (p, false)
      | none => (headOf (cls 3)).map fun p => (p, false)

/-- The running process runs under the ghost light, which still has its window and its allowance (R44). -/
def State.underGhost (s : State) (c : Nat) : Bool :=
  (s.core c).ghostRun && (s.core c).chosenIn == s.cycleOf c / ghostWindow && decide (s.ghostCount c < ghostAllowance)

/-- What is READY calls for a halt of the running process (R47): under the ghost light only class 0 that EDF puts before it
does (R44); else a more urgent class, an earlier deadline within class 0, and the ghost light over classes 1 and 2 and over
a later deadline of class 0. -/
def State.urges (s : State) (c : Nat) (r : Proc) : Bool :=
  let w := s.wings c
  if r.eff = 0 then
    w.any (fun p => p.eff == 0 && decide (s.edf p < s.edf r)) || (s.ghostDue c && decide (s.ghostDeadline c < s.edf r))
  else if r.eff = 3 then
    w.any fun p => if s.underGhost c then p.eff == 0 && decide (s.edf p ≤ s.ghostDeadline c) else decide (p.eff < 3)
  else w.any (fun p => decide (p.eff < r.eff)) || s.ghostDue c

/-- Requests a halt of a core's running process, unless one is requested. -/
def State.askHalt (s : State) (c : Nat) (h : Halt) : State :=
  match s.runningOn c with
  | none => s
  | some _ => if (s.core c).halt.isSome then s else s.modCore c fun k => { k with halt := some h }

/-- Requests a halt where the wings hold something more urgent. -/
def State.urge (s : State) (c : Nat) : State :=
  match s.runningOn c with
  | none => s
  | some r => if s.urges c r then s.askHalt c .urgent else s

/-- A process joins the tail of its class with a fresh quantum (R40). -/
def State.toTail (s : State) (p : Proc) : Proc :=
  { p with st := .ready, key := s.tailKey p.core, quantum := (s.core p.core).quant }

/-- Loans of a lender are withdrawn, and what they gave is recomputed; where a running borrower falls behind what is READY,
a halt is asked for (R45, R47). A loan that a borrower has passed on stays with those it was passed to until its first
lender leaves BLOCKED: that R45 does not end it when the process between them leaves BLOCKED is the model's choice (log 44).
-/
def State.withdrawLoans (s : State) (pid : Nat) : State :=
  if s.allProcs.any (fun p => p.loans.any (·.lender == pid)) || s.loanMsgs.any (·.lender == pid) then
    let drop (p : Proc) : Proc :=
      if p.loans.any (·.lender == pid) then
        let q := s.reEff { p with loans := p.loans.filter (·.lender != pid) }
        if q.st = .ready ∧ q.eff ≠ p.eff then { q with key := s.tailKey q.core } else q
      else p
    let cores := ((s.allProcs.filter fun p => p.loans.any (·.lender == pid)).map (·.core)).eraseDups
    cores.foldl State.urge { s with
      cpu := s.cpu.map drop
      procs := s.procs.map drop
      loanMsgs := s.loanMsgs.filter fun m => m.lender != pid }
  else s

/-- The wait of a BLOCKED or PARKED process ends (Table 1.2): what happens when it next runs is kept; a parked one has a
fill pending. -/
def State.wake (s : State) (pid : Nat) (d : Option Done) : State :=
  match s.proc? pid with
  | none => s
  | some p =>
    match p.st with
    | .blocked _ =>
      let s := s.withdrawLoans pid
      let p := (s.proc? pid).getD p
      let s := s.putProc (s.toTail { p with wait := .none, done := d })
      s.urge p.core
    | .parked (some _) => (s.withdrawLoans pid).modProc pid fun p =>
        { p with st := .parked none, wait := .none, done := d, since := s.ns }
    | _ => s

/-- A process's wait that stays: BLOCKED with a reason, parked or not. -/
def Proc.isBlocked (p : Proc) : Bool :=
  match p.st with
  | .blocked _ => true
  | .parked (some _) => true
  | _ => false

/-- The active process blocks: it leaves RUNNING with a reason (R30). -/
def State.block (s : State) (p : Proc) (r : Reason) (w : Wait) : State :=
  s.leaveRunning { p with st := .blocked r, wait := w, since := s.ns, blockNo := p.blockNo + 1, probes := 0,
                          reported := false, lastRun := s.ns }

/-- Nanoseconds and cycles of a process that runs: budget, demoted or not, and quantum (R40, R41). `ghost` says that the
ghost light chose it. -/
def Proc.run (p : Proc) (ns cc : Nat) (ghost : Bool) : Proc :=
  let p := if p.base = 0 then { p with budget := p.budget - BitVec.ofNat 64 ns } else p
  if p.eff = 0 ∨ ghost then p else { p with quantum := p.quantum - cc }

/-- Cycles that pass on a die within `units`, and its record after them (R76). -/
def Die.pass (d : Die) (units : Nat) : Nat × Die :=
  let n := (d.sub + units) / d.ccUnits
  (n, { d with sub := (d.sub + units) % d.ccUnits, cycle := d.cycle + n })

/-- Class-3 running of `cc` cycles from a cycle count on counts towards the ghost light's allowance (R44): only the cycles that
lie in the window in which the count ends. -/
def Core.countGhost (k : Core) (cycle cc : Nat) : Core :=
  let w := (cycle + cc) / ghostWindow
  if k.window = w then { k with ghost := k.ghost + cc }
  else { k with window := w, ghost := min cc ((cycle + cc) % ghostWindow) }

/-- Charges one running process for time that passes. -/
def State.charge (s : State) (ns cc : Nat) (p : Proc) : State :=
  if p.st = .running ∧ s.coreLive p.core = true then
    let s := if p.eff = 3 then s.modCore p.core fun k => k.countGhost (s.cycleOf p.core) cc else s
    let s := s.putProc (p.run ns cc (s.core p.core).ghostRun)
    match s.orders p with
    | some l => if p.eff = 0 then s.modProc l.lender fun q => { q with budget := q.budget - BitVec.ofNat 64 ns } else s
    | none => s
  else s

/-- Time passes: `%time`, the cycles of every die, and what runs is charged. -/
def State.elapse (s : State) (units : Nat) : State :=
  let ns := (s.time + units) / Config.unitsPerNs - s.ns
  let s' := s.allProcs.foldl (fun t p => t.charge ns ((s.die (dieOf p.core)).pass units).1 p) s
  { s' with time := s.time + units
            dies := s'.dies.map fun d => if d.coreReset then d else (d.pass units).2 }

/-- Sum of R42 over the class-0 processes admitted on a core, those on their way to it included, without one PID. -/
def State.admitted (s : State) (c : Nat) (without : Nat) : Nat :=
  ((s.claimants c).filter fun p => p.base == 0 && p.pid != without).foldl
    (fun n p => n + (p.fullBudget * 2 ^ 32 + p.period - 1) / p.period) 0

/-- The admission test of R42 for a budget and a period on a core. -/
def State.admits (s : State) (c without period budget : Nat) : Bool :=
  decide (s.admitted c without + (budget * 2 ^ 32 + period - 1) / period ≤ Config.admissionLimit)

/-- Period and budget within the limits of R41. -/
def paramsOk (period budget : Nat) : Bool :=
  decide (10000 ≤ period) && decide (period < 2 ^ 32) && decide (1000 ≤ budget) && decide (budget ≤ period)

/-- Leaves class 0 (R317). -/
def Proc.leaveClass0 (p : Proc) : Proc :=
  if p.base = 0 then { p with period := 0, budget := 0, fullBudget := 0, deadline := noDeadline, dem := false } else p

/-- x[r] is preserved across switches (R23). -/
def Proc.keeps (p : Proc) (r : Nat) : Bool := decide (r < (if p.nregs = 0 then 8 else (p.nregs + 7) / 8 * 8))

/-- The bits of the pc that a slot keeps (Table 1.1): 39:1. -/
abbrev slotPc : Word := 0xFFFFFFFFFE

/-- A switch into a process: its pc is what the slot keeps of it, unpreserved x registers read as zero (R23), state outside
the class is not kept (R20), and read-ahead was discarded (R166). -/
def Proc.switchIn (p : Proc) : Proc :=
  { p with
    pc := p.pc &&& slotPc
    x := Vector.ofFn fun i => if p.keeps i.val then p.x[i] else 0
    v := match p.cls with
      | .s => Vector.replicate 16 0
      | .v => Vector.ofFn fun i => if i.val < 8 then p.v[i] else 0
      | .t => p.v
    p := match p.cls with
      | .s => Vector.replicate 8 0
      | _ => p.p
    streams := p.streams.map fun t => { t with ahead := [] } }

end Sys2Proof.Machine
end

