-- ==== Sys2Proof/Machine/ChanOps.lean ====
section
/-! DEFINITION. Channels at their anchors: matching, queues, closed ends (R283–R287), guards and their wakes (R295, R296),
barrier objects (R300), priority loans (R45). -/

namespace Sys2Proof.Machine

/-! Channels and ends -/

/-- A channel by its identity. -/
def State.chan? (s : State) (table name : Nat) : Option Channel :=
  s.channels.find? fun c => c.table == table && c.name == name

/-- Puts a channel back. -/
def State.putChan (s : State) (c : Channel) : State :=
  { s with channels := s.channels.map fun d => if d.table == c.table && d.name == c.name then c else d }

/-- Applies a change to a channel. -/
def State.modChan (s : State) (table name : Nat) (f : Channel → Channel) : State :=
  match s.chan? table name with
  | some c => s.putChan (f c)
  | none => s

/-- Kind codes (Table 17.1). -/
def ChKind.code : ChKind → Nat
  | .word => 0 | .tile => 1 | .external => 3 | .host => 4

/-- One end of a channel: the sending end when `tx`. -/
def Channel.fin (c : Channel) (tx : Bool) : End := if tx then c.tx else c.rx

/-- Replaces one end. -/
def Channel.setFin (c : Channel) (tx : Bool) (e : End) : Channel := if tx then { c with tx := e } else { c with rx := e }

/-- Handle of an end (R85). -/
def Channel.handle (c : Channel) (tx : Bool) : Nat := c.name + (if tx then 0 else 2 ^ 24) + c.kind.code * 2 ^ 25

/-- The process that holds an end. -/
def End.pid (e : End) : Option Nat :=
  match e.holder with
  | .proc p => some p
  | _ => none

/-- An end that its holder can use as a partner (Table 17.2). -/
def End.up (e : End) : Bool := e.st == .bound

/-- An end that ends waits with a cause (R286). -/
def End.down (e : End) : Bool := e.st == .closed || e.st == .error

/-- Words of the messages of a channel (Table 17.1). -/
def Channel.words (c : Channel) : Nat :=
  match c.kind with
  | .word => c.w
  | .tile => 0
  | _ => 2

/-- Frames leave or arrive through the edge or the host (R291). -/
def Channel.outer (c : Channel) : Bool := c.kind == .external || c.kind == .host

/-- The core of the holder of an end; a core that is lost or in reset is no place for an anchor (R334, R338). -/
def State.holderCore (s : State) (e : End) : Option Nat :=
  match e.pid.bind s.proc? with
  | some p => if s.diePresent (dieOf p.core) && !(s.die (dieOf p.core)).coreReset then some p.core else none
  | none => none

/-- The anchor core of a channel (R283), none when no process holds an end. -/
def State.anchor (s : State) (c : Channel) : Option Nat := (s.holderCore c.rx).orElse fun _ => s.holderCore c.tx

/-- The place of the anchor: its core, or, in the channel table of the region, 8,192 + the die of that table's loft. -/
def State.anchorPlace (s : State) (c : Channel) : Nat := (s.anchor c).getD (8192 + c.table / 2 ^ 32 % 8)

/-- Die of a place: a core, or 8,192 + die. -/
def placeDie (place : Nat) : Nat := if place < 8192 then dieOf place else place - 8192

/-- An end as a handle names it. -/
structure HandleRef where
  name : Nat
  tx : Bool
  kind : Nat
deriving DecidableEq, Repr

/-- The fields of a handle, or none when it is malformed (R280). -/
def parseHandle (h : Nat) : Option HandleRef :=
  let k := h / 2 ^ 25 % 8
  if h < 2 ^ 28 ∧ (k = 0 ∨ k = 1 ∨ k = 3 ∨ k = 4) then some ⟨h % 2 ^ 24, h / 2 ^ 24 % 2 == 0, k⟩ else none

/-- The channel whose end a process holds under a handle (R280). -/
def State.heldEnd (s : State) (pid : Nat) (r : HandleRef) : Option Channel :=
  s.channels.find? fun c => c.name == r.name && c.kind.code == r.kind && (c.fin r.tx).holder == .proc pid

/-- The channel of a name in a region's effective channel table. -/
def State.tableChan (s : State) (region : Nat) (r : HandleRef) : Option Channel :=
  let t := s.effChtab region
  if t = 0 then none else s.channels.find? fun c => c.table == t && c.name == r.name && c.kind.code == r.kind

/-- Every end that a process holds: channel and whether it is the sending end. -/
def State.endsOf (s : State) (pid : Nat) : List (Channel × Bool) :=
  s.channels.flatMap fun c =>
    (if c.tx.holder = .proc pid then [(c, true)] else []) ++ (if c.rx.holder = .proc pid then [(c, false)] else [])

/-- Binding entries in use on a core (R281). -/
def State.entriesOn (s : State) (core : Nat) : Nat :=
  (s.claimants core).foldl (fun n p => n + (s.endsOf p.pid).length) 0

/-- Bytes of buffered slots of a channel (R285). -/
def Channel.slotBytes (c : Channel) : Nat := if c.kind = .word ∧ c.buf = true then 8 * c.w * c.depth else 0

/-- The process whose core is the anchor of a channel (R283). -/
def State.anchorProc (s : State) (c : Channel) : Option Proc :=
  (if (s.holderCore c.rx).isSome then c.rx.pid else c.tx.pid).bind s.proc?

/-- Bytes of buffered slots anchored on a core, those of processes on their way to it included (R285, R318). -/
def State.slotsOn (s : State) (core : Nat) : Nat :=
  (s.channels.filter fun c => s.anchor c == some core || (s.anchorProc c).any (·.claims core)).foldl
    (fun n c => n + c.slotBytes) 0

/-- Park area in bytes (R27). -/
def Core.park (k : Core) : Nat := k.psize * 16384

/-- Bytes of parked contexts on a core, those on their way to it included. -/
def State.parkedBytes (s : State) (core : Nat) : Nat :=
  ((s.claimants core).filter (·.loc == .park)).foldl (fun n p => n + p.cls.units * 256) 0

/-- Free bytes of a core's park area. -/
def State.parkFree (s : State) (core : Nat) : Nat := (s.core core).park - s.slotsOn core - s.parkedBytes core

/-! Waiting parties -/

/-- The channel instruction that a process waits in at the anchor of a channel. -/
def Proc.chanWait (p : Proc) (c : Channel) : Option ChanWait :=
  match p.wait with
  | .chan w => if p.isBlocked && w.arrived && w.moving.isNone && w.table == c.table && w.name == c.name then some w else none
  | _ => none

/-- A process that waits at the anchor in a send (when `tx`) or a receive of a channel. -/
def State.waiter (s : State) (c : Channel) (tx : Bool) : Option (Proc × ChanWait) :=
  match (c.fin tx).pid.bind s.proc? with
  | none => none
  | some p =>
    match p.chanWait c with
    | none => none
    | some w => if tx == (w.op == .send || w.op == .sendt) then some (p, w) else none

/-- A packet that an anchor on a die sends to the core of a process (R321). -/
def Proc.notice (p : Proc) (id die : Nat) (pl : Payload) : Packet :=
  { id := id, core := 8192 + die, pid := p.pid, region := p.region, src := die, dst := dieOf p.core, pc := p.pc, used := 0,
    n := 0, path := .fabric, kind := .reply, payload := pl }

/-- The wait of a channel instruction ends at the anchor: the process learns it at once on the anchor's die, on another die
with a packet (R283, R321). -/
def State.tell (s : State) (c : Channel) (p : Proc) (w : ChanWait) (d : Done) : State :=
  let die := placeDie (s.anchorPlace c)
  if die = dieOf p.core then s.wake p.pid (some d)
  else
    let (id, s) := s.freshId
    let s := s.modProc p.pid fun q => { q with wait := .chan { w with moving := some id } }
    { s with packets := s.packets ++ [p.notice id die (.chanDone p.pid d)] }

/-- The wait of a channel instruction ends with a cause (R31, R286). -/
def State.failWait (s : State) (c : Channel) (p : Proc) (w : ChanWait) (e : Cause) (d1 : Word) : State :=
  s.tell c p w (.cause e 0 w.handle d1)

/-- The slot of an inbound ring that a message names (R292). -/
def Ring.slotOf (r : Ring) (addr : Nat) : Nat := (addr - r.base) / r.size

/-- The device takes back the slot that the process had (R292). -/
def Ring.giveBack (r : Ring) : Ring :=
  match r.owned with
  | some o => { r with owned := none, busy := r.busy.filter (· != o) }
  | none => r

/-- A receive of a frame gives its slot to the process (R292). -/
def Ring.take (r : Ring) (addr : Nat) : Ring := { r.giveBack with owned := some (r.slotOf addr) }

/-- The receiver takes a message: its instruction completes with the words. -/
def State.giveMsg (s : State) (p : Proc) (w : ChanWait) (c : Channel) (msg : List Word) : State :=
  let s := match c.ring, msg with
    | some r, a :: _ => s.modChan c.table c.name fun c => { c with ring := some (r.take a.toNat) }
    | _, _ => s
  s.tell c p w (.regs (runOf w.d msg))

/-- A waiting party has begun a tile transfer. -/
def State.startMove (s : State) (p : Proc) (w : ChanWait) (id : Nat) : State :=
  s.modProc p.pid fun q => { q with wait := .chan { w with moving := some id } }

/-- A party of a tile transfer that still waits in it completes (R287). -/
def State.endMove (s : State) (pid id : Nat) : State :=
  match s.proc? pid with
  | some p =>
    match p.wait with
    | .chan w => if w.moving = some id then s.wake pid (some (.regs [])) else s
    | _ => s
  | none => s

/-- Fields of a descriptor that the two parties of a tile transfer must agree in: FMT, COLS, ROWS (R287). -/
def tileShape (dw1 : Word) : BitVec 4 × BitVec 14 × BitVec 5 :=
  (dw1.extractLsb' 40 4, dw1.extractLsb' 24 14, dw1.extractLsb' 16 5)

/-- A message for a device-held end carries the PID of its sender behind its words (R59). -/
def Channel.tag (c : Channel) (pid : Nat) : List Word := if c.rx.holder = .device then [BitVec.ofNat 64 pid] else []

/-- One event at the anchor: the first of an end that is CLOSED, an error, a buffered send, a receive of a queued message, a
rendezvous (R284–R286). -/
def State.settleOnce (s : State) (c : Channel) : State :=
  match s.waiter c true, s.waiter c false with
  | some (p, w), some (q, v) =>
    if c.tx.st = .closed then s.failWait c p w .chClosed 0
    else if c.rx.st = .closed then s.failWait c p w .chClosed 1
    else if c.rx.st = .error ∨ c.tx.st = .error then s.failWait c p w .link 1
    else if c.queue ≠ [] then
      (s.putChan { c with queue := c.queue.tail }).giveMsg q v c (c.queue.headD [])
    else if c.outer then s
    else if c.tx.up && c.rx.up then
      if c.kind = .tile then
        if tileShape w.dw1 = tileShape v.dw1 then
          let (id, s) := s.freshId
          let s := (s.startMove p w id).startMove q v id
          { s with transfers := s.transfers ++
              [{ id := id, tx := p.pid, rx := q.pid, src := p.core, dst := q.core, s0 := w.dw0, s1 := w.dw1, r0 := v.dw0,
                 r1 := v.dw1 }] }
        else (s.failWait c p w .chType 4).failWait c q v .chType 4
      else (s.tell c p w (.regs [])).giveMsg q v c w.msg
    else s
  | some (p, w), none =>
    if c.tx.st = .closed then s.failWait c p w .chClosed 0
    else if c.rx.st = .closed then s.failWait c p w .chClosed 1
    else if c.rx.st = .error ∨ c.tx.st = .error then s.failWait c p w .link 1
    else if c.buf && !c.outer && c.tx.up && c.rx.up && decide (c.queue.length < c.depth) then
      (s.putChan { c with queue := c.queue ++ [w.msg ++ c.tag p.pid] }).tell c p w (.regs [])
    else s
  | none, some (q, v) =>
    if c.rx.st = .closed then s.failWait c q v .chClosed 0
    else if c.queue ≠ [] then (s.putChan { c with queue := c.queue.tail }).giveMsg q v c (c.queue.headD [])
    else if c.tx.st = .closed then s.failWait c q v .chClosed 1
    else if c.tx.st = .error ∨ c.rx.st = .error then s.failWait c q v .link 1
    else s
  | none, none => s

/-- Discards the messages of a channel (R286, R312); the slots of its ring are the device's again (R292). -/
def Channel.discard (c : Channel) : Channel :=
  { c with queue := [], ring := c.ring.map fun r => { r with busy := [], owned := none } }

/-- Discards the messages of a channel whose receiving end is CLOSED, or ERROR, which acts as CLOSED (R286). -/
def Channel.drop (c : Channel) : Channel := if c.rx.down then c.discard else c

/-! Guards and barriers -/

/-- A barrier object that has been in use; one that has not is free, with ARRIVED and PHASE 0. -/
def State.barrier? (s : State) (die clus idx : Nat) : Option Barrier :=
  s.barriers.find? fun b => b.die == die && b.clus == clus && b.idx == idx

/-- The object that a handle names (R300). -/
def State.barrierOf (s : State) (h : Word) : Option Barrier :=
  s.barrier? (h.toNat / 1024 % 8) (h.toNat / 256 % 4) (h.toNat % 64)

/-- PHASE of the object that a handle names. -/
def State.phaseOf (s : State) (h : Word) : BitVec 32 :=
  match s.barrierOf h with
  | some b => b.phase
  | none => 0

/-- The holder of the receiving end waits in `alt.wait` with a receive guard on the channel (Table 17.5). -/
def Proc.altOn (p : Proc) (c : Channel) : Bool :=
  p.isBlocked && p.wait == .alt && p.guards.toList.any (· == some (.rx c.table c.name))

/-- Readiness of a receive guard (Table 17.5). -/
def State.rxReady (s : State) (c : Channel) : Bool :=
  c.rx.st != .inTransit &&
    (c.queue != [] || (!c.buf && c.tx.up && (s.waiter c true).isSome) || c.tx.down || c.rx.down)

/-- Readiness of a send guard (Table 17.5). -/
def State.txReady (s : State) (c : Channel) : Bool :=
  c.tx.st != .inTransit &&
    (c.tx.down || c.rx.down ||
      (c.rx.up &&
        ((c.buf && decide (c.queue.length < c.depth)) || (s.waiter c false).isSome ||
          (match c.rx.pid.bind s.proc? with
            | some p => p.altOn c
            | none => false))))

/-- Readiness of a guard (Table 17.5). -/
def State.guardReady (s : State) : Guard → Bool
  | .rx t n => match s.chan? t n with
    | some c => s.rxReady c
    | none => false
  | .tx t n => match s.chan? t n with
    | some c => s.txReady c
    | none => false
  | .tm t => decide (t.toNat ≤ s.ns)
  | .bar h ph => s.phaseOf h != ph

/-- The lowest guard that is ready (R296). -/
def State.firstReady (s : State) (p : Proc) : Option Nat :=
  p.guards.toList.findIdx? fun g => match g with
    | some g => s.guardReady g
    | none => false

/-- A guard other than a timer. -/
def Guard.isEvent : Guard → Bool
  | .tm _ => false
  | _ => true

/-- The die at which a guard of a process is tested: that of the channel's anchor, else the process's own (R295). -/
def State.guardDie (s : State) (p : Proc) (g : Guard) : Nat :=
  let chan (t n : Nat) : Nat := match s.chan? t n with
    | some c => placeDie (s.anchorPlace c)
    | none => dieOf p.core
  match g with
  | .rx t n | .tx t n => chan t n
  | .tm _ | .bar _ _ => dieOf p.core

/-- The dies at which a channel or barrier guard of a process is ready. -/
def State.readyAt (s : State) (p : Proc) : List Nat :=
  p.guards.toList.filterMap fun g => match g with
    | some g => if g.isEvent && s.guardReady g then some (s.guardDie p g) else none
    | none => none

/-- A report that a guard of a process is ready is under way. -/
def State.reporting (s : State) (pid : Nat) : Bool := s.packets.any fun q => q.payload == .report pid

/-- A process that waits in `alt.wait` is woken by a guard that is ready on its die; the anchor of one that is ready on
another die sends a report (R296, R321). -/
def State.wakeAlt (s : State) (p : Proc) : State :=
  let dies := s.readyAt p
  if dies.contains (dieOf p.core) then s.wake p.pid none
  else match dies with
    | [] => s
    | die :: _ =>
      if s.reporting p.pid then s
      else
        let (id, s) := s.freshId
        { s with packets := s.packets ++ [p.notice id die (.report p.pid)] }

/-- Wakes the processes that wait in `alt.wait` and have a ready channel or barrier guard (R296). -/
def State.wakeAlts (s : State) : State :=
  s.procs.foldl (fun t p => if p.isBlocked && p.wait == .alt then t.wakeAlt p else t) s

/-- What happens at the anchor of a channel until nothing more can happen there: at most the two waiting parties leave.
-/
def State.settle (s : State) (table name : Nat) : State :=
  let one (s : State) : State :=
    match s.chan? table name with
    | some c => s.settleOnce c
    | none => s
  let s := s.modChan table name Channel.drop
  (one (one (one s))).wakeAlts

/-- A message enters the queue of a channel (a buffered send, a device-held sending end), and what waits takes it. -/
def State.enqueue (s : State) (table name : Nat) (msg : List Word) : State :=
  (s.modChan table name fun c => { c with queue := c.queue ++ [msg] }).settle table name

/-- The processes that wait at a barrier object go on when its phase has changed (R302). -/
def State.wakeBarrier (s : State) : State :=
  (s.procs.foldl (fun t p =>
    match p.wait with
    | .barrier h ph => if p.isBlocked && t.phaseOf h != ph then t.wake p.pid (some (.regs [])) else t
    | _ => t) s).wakeAlts

/-- An end leaves its state: a moving end that is closed is marked (R310); queued messages go with a closed receiver. -/
def State.closeEnd (s : State) (table name : Nat) (tx : Bool) : State :=
  (s.modChan table name fun c =>
    let e := c.fin tx
    match e.st with
    | .bound | .inTransit => c.setFin tx { e with st := .closed, mig := false, scn := false, closing := false }
    | _ => c).settle table name

/-- An end goes to CLOSED because its holder has ended, whatever its state (R32). -/
def State.closeOwn (s : State) (table name : Nat) (tx : Bool) : State :=
  (s.modChan table name fun c =>
    c.setFin tx { c.fin tx with st := .closed, mig := false, scn := false, closing := false }).settle table name

/-- PROBE of a core in µs; values below 100 act as 100 (Table 17.12). -/
def Core.probeDelay (k : Core) : Nat := max k.probe.toNat 100

/-- Whole multiples of PROBE that the blocking of a process has lasted (R298). -/
def State.probesDue (s : State) (p : Proc) : Nat := (s.ns - p.since) / ((s.core p.core).probeDelay * 1000)

/-- No probe is sent later for the multiples of PROBE that passed while a wait on a channel had no edge (R298). -/
def State.skipProbes (s : State) (table name : Nat) : State :=
  s.procs.foldl (fun t p =>
    match p.wait with
    | .chan w =>
      if p.isBlocked && w.table == table && w.name == name then t.putProc { p with probes := max p.probes (s.probesDue p) }
      else t
    | _ => t) s

/-- The ends of a process while it migrates (R51 step 3), and after (step 5); a `chcl` that waited takes effect (R310).
-/
def State.transitEnds (s : State) (pid : Nat) (moving : Bool) : State :=
  (s.endsOf pid).foldl (fun t e =>
    let f (c : Channel) : Channel :=
      let x := c.fin e.2
      if moving then (if x.st = .bound ∨ x.st = .inTransit then c.setFin e.2 { x with st := .inTransit, mig := true } else c)
      else if x.mig then
        c.setFin e.2 { x with mig := false, closing := false,
                              st := if x.closing then .closed else if x.scn then .inTransit else .bound }
      else c
    let t := if moving then t else t.skipProbes e.1.table e.1.name
    (t.modChan e.1.table e.1.name f).settle e.1.table e.1.name) s

/-! Priority loans -/

/-- The process at the other end of the rendezvous that a process is blocked in (R45): a loan is passed on to it. -/
def State.lendTo (s : State) (p : Proc) : Option Nat :=
  match p.wait with
  | .chan w =>
    if p.isBlocked then
      match s.chan? w.table w.name with
      | some c => if c.buf then none else (c.fin (w.op == .recv || w.op == .recvt)).pid
      | none => none
    else none
  | _ => none

/-- A loan sets out. -/
def State.sendLoan (s : State) (lender tgt cls : Nat) (deadline : Word) (hop : Nat) : State :=
  let (id, s) := s.freshId
  { s with loanMsgs := s.loanMsgs ++
      [{ id := id, lender := lender, tgt := tgt, cls := cls, deadline := deadline, hop := hop }] }

/-- Hops that a loan travels at most (R45). -/
def loanHops : Nat := 4

/-- A process lends its own class in `send` and `recv` (R45). -/
def Proc.lendsOwn (p : Proc) : Bool :=
  match p.wait with
  | .chan w => w.op == .send || w.op == .recv
  | _ => false

/-- A process that has blocked lends its own class to the holder of the other end, and passes on what it was lent. The class
and the deadline of a loan stay what they were when it set out: that a release of the lender's period does not renew them is
the model's choice (log 44). -/
def State.lend (s : State) (pid : Nat) : State :=
  match s.proc? pid with
  | none => s
  | some p =>
    match s.lendTo p with
    | none => s
    | some q =>
      let own := if p.base = 0 ∧ p.dem = false then p.deadline else noDeadline
      p.loans.foldl (fun t l => if l.hop < loanHops then t.sendLoan l.lender q (s.loanCls p l) l.deadline (l.hop + 1) else t)
        (if p.lendsOwn then s.sendLoan pid q (s.ownCls p) own 1 else s)

/-- The processes that wait on a channel lend to the holder of the other end, which has just taken it (R45). -/
def State.lendOn (s : State) (table name : Nat) : State :=
  s.procs.foldl (fun t p =>
    match p.wait with
    | .chan w => if p.isBlocked && w.arrived && w.table == table && w.name == name then t.lend p.pid else t
    | _ => t) s

end Sys2Proof.Machine
end

