-- ==== Sys2Proof/Machine/Records.lean ====
section
/-! DEFINITION. Records on their way (R53–R58, R373): endpoints, queues, machine-level records, notifications. -/

namespace Sys2Proof.Machine

/-- The fault endpoint of a region (R55): its channel, unless there is none or its receiving end is CLOSED or ERROR. -/
def State.faultChan (s : State) (region : Nat) : Option Channel :=
  let name := s.effFaultep region
  let table := s.effField 3 (·.faulttab) region
  if name = 0 ∨ table = 0 then none
  else match s.chan? table name with
    | some c => if c.rx.down then none else some c
    | none => none

/-- Records that an endpoint holds at most (R54). -/
def State.faultSlots (s : State) (region : Nat) (c : Channel) : Nat := min (s.effFdepth region) c.depth

/-- The region whose endpoint takes records about a process (R55): its own, the parent's for an S process, none for the
supervisor of a root. -/
def State.recordVia (s : State) (priv : Priv) (region : Nat) : Option Nat :=
  match priv with
  | .u => some region
  | .s => match s.region? region with
    | some r => if r.isRoot then none else some r.parent
    | none => none

/-- The host function whose queue created a region's tree. -/
def State.functionOf (s : State) (region : Nat) : Nat :=
  match s.region? (s.rootOf region) with
  | some r => r.function
  | none => 0

/-- A machine-level record is posted in the monitor's mailbox and in the error ring of its function (R55, R373). -/
def State.postMachine (s : State) (r : Record) : State :=
  { s with mailbox := s.mailbox ++ [r], errorRings := s.errorRings ++ [(s.functionOf r.region, r)] }

/-- An engine write of a request, transfer or frame, or an image of a LAUNCH, has not taken effect. -/
def State.engineBusy (s : State) (owner : Nat) : Bool :=
  s.packets.any fun q => match q.payload with
    | .engine _ _ o | .forward _ _ _ o => o == owner
    | _ => false

/-- Messages of the device that are on their way to a channel. -/
def State.framesTo (s : State) (c : Channel) : Nat :=
  (s.packets.filter fun q => match q.payload with
    | .frame t n _ _ => t == c.table && n == c.name
    | _ => false).length

/-- The device on a die puts a message into the queue of a channel: at once where the anchor is on that die, no earlier message
of the device is on its way to the channel (R278), and the engine writes that it follows have been made; else with a packet
(R288, R321). -/
def State.putFrame (s : State) (die region : Nat) (c : Channel) (owner : Nat) (msg : List Word) : State :=
  let d := placeDie (s.anchorPlace c)
  if d = die ∧ s.framesTo c = 0 ∧ (owner = 0 ∨ s.engineBusy owner = false) then s.enqueue c.table c.name msg
  else
    let (id, s) := s.freshId
    { s with packets := s.packets ++
        [{ id := id, core := 8192 + die, pid := 0, region := region, src := die, dst := d, pc := 0, used := 0, n := 0,
           path := if d = die then .mesh else .fabric, kind := .reply, payload := .frame c.table c.name owner msg }] }

/-- A record is for the endpoint that a channel is. -/
def State.isFor (s : State) (c : Channel) (r : Record) : Bool :=
  match r.via.bind s.faultChan with
  | some d => d.table == c.table && d.name == c.name
  | none => false

/-- A region's LOST count goes up (R57). -/
def State.countLost (s : State) (region : Nat) : State :=
  s.modRegion region fun r => { r with lost := min (r.lost + 1) 0xFFFF }

/-- The endpoint of a region has a free slot for a record (R54). -/
def State.slotFree (s : State) (region : Nat) (c : Channel) : Bool :=
  decide (c.queue.length + s.framesTo c < s.faultSlots region c)

/-- Notifications that a core's queue and the stage manager's queue hold (R57). -/
def coreQueue : Nat := 16
def managerQueue : Nat := 256

/-- A record sets out from a core: into the endpoint, into the core's queue behind those that wait, or lost (R55, R57). -/
def State.sendRecord (s : State) (core : Nat) (r : Record) : State :=
  match r.via with
  | none => s.postMachine r
  | some v =>
    match s.faultChan v with
    | none => s.postMachine r
    | some c =>
      if !(s.core core).records.any (s.isFor c) && s.slotFree v c then s.putFrame (dieOf core) r.region c 0 r.words
      else if r.held || decide (((s.core core).records.filter fun q => !q.held).length < coreQueue) then
        s.modCore core fun k => { k with records := k.records ++ [r] }
      else s.countLost r.region

/-- A notification that no core raised sets out from the stage manager (R57). -/
def State.sendManager (s : State) (r : Record) : State :=
  match r.via with
  | none => s.postMachine r
  | some v =>
    match s.faultChan v with
    | none => s.postMachine r
    | some c =>
      if !s.managerRecords.any (s.isFor c) && s.slotFree v c then s.putFrame 0 r.region c 0 r.words
      else if s.managerRecords.length < managerQueue then { s with managerRecords := s.managerRecords ++ [r] }
      else s.countLost r.region

/-- A notification about a process or a region that a core raises (R56, R57). -/
def State.notify (s : State) (core : Nat) (c : Cause) (region pid : Nat) (priv : Priv) (pc addr d0 d1 : Word) : State :=
  s.sendRecord core { cause := c, region := region, pid := pid, pc := pc, addr := addr, d0 := d0, d1 := d1,
                      time := s.ns, coord := s.coord core, via := s.recordVia priv region }

/-- A notification about a write or a request that an instruction made (R57): COORD is that of the issuing core at issue. -/
def State.report (s : State) (a : Author) (c : Cause) (addr d0 d1 : Word) : State :=
  s.sendRecord a.core { cause := c, region := a.region, pid := a.pid, pc := a.pc, addr := addr, d0 := d0, d1 := d1,
                        time := s.ns, coord := a.coord, via := s.recordVia a.priv a.region }

/-- A notification of the stage manager (R57): COORD 0. -/
def State.notifyManager (s : State) (c : Cause) (region pid : Nat) (addr d0 d1 : Word) : State :=
  s.sendManager { cause := c, region := region, pid := pid, addr := addr, d0 := d0, d1 := d1, time := s.ns,
                  via := some region }

/-- Privilege of a process, U when it is gone. -/
def State.privOf (s : State) (pid : Nat) : Priv :=
  match s.proc? pid with
  | some p => p.priv
  | none => .u

end Sys2Proof.Machine
end

