-- ==== Sys2Proof/Machine/Homes.lean ====
section
/-! DEFINITION. The homes of bytes (R222–R224): addresses of the package map, full/empty bits, marks, watches (R241–R243),
reservation queues (R250–R252), and a write as it takes effect there. Addresses here are global-alias or loft addresses.
-/

namespace Sys2Proof.Machine

/-! Addresses of the package map (Table 13.1) -/

/-- First global-alias address of a core's local memory. -/
def globalBase (core : Nat) : Nat :=
  0x4000000000 + dieOf core * 2 ^ 32 + clusOf core * 2 ^ 28 + idxOf core * 2 ^ 20

/-- First loft address of a die. -/
def loftBase (die : Nat) : Nat := 0x8000000000 + die * 2 ^ 32

/-- A global-alias or loft address that names a byte, dies aside (R223). -/
def mapOk (a : Nat) : Bool :=
  if a < 0x4000000000 then false
  else if a < 0x8000000000 then a / 2 ^ 35 % 8 == 0 && a / 2 ^ 30 % 4 == 0 && decide (a % 2 ^ 20 < Config.localBytes)
  else if a < 0xC000000000 then a / 2 ^ 35 % 8 == 0 && a / 2 ^ 26 % 64 == 0
  else false

/-- Die of a mapped address. -/
def homeDie (a : Nat) : Nat := a / 2 ^ 32 % 8

/-- A loft address. -/
def isLoft (a : Nat) : Bool := decide (0x8000000000 ≤ a)

/-- Core of a global-alias address. -/
def homeCore (a : Nat) : Nat := coreOf (homeDie a) (a / 2 ^ 28 % 4) (a / 2 ^ 20 % 256)

/-- A number for a home: the core, or 8,192 + die for a loft. -/
def homeOf (a : Nat) : Nat := if isLoft a then 8192 + homeDie a else homeCore a

/-- The 64-bit word, and granule, that holds a byte. -/
def wordAt (a : Nat) : Nat := a / 8 * 8

/-- A home whose memory is absent or in a core-domain reset (R334, R337, R387). -/
def State.homeGone (s : State) (a : Nat) : Bool := !s.diePresent (homeDie a) || (s.die (homeDie a)).coreReset

/-- The full/empty bit of a word (R241). -/
def State.isFull (s : State) (w : Nat) : Bool := !s.empty.contains w

/-- Sets the full/empty bit of a word. -/
def State.setFull (s : State) (w : Nat) (full : Bool) : State :=
  { s with empty := if full then eraseAddr w s.empty else insertAddr w s.empty }

/-- A granule bears a mark, or has an error that a read meets (R112). -/
def State.granuleBad (s : State) (g : Nat) : Bool := s.marks.contains g || s.latent.contains g

/-- Some byte of a range lies in a bad granule. -/
def State.marked (s : State) (a n : Nat) : Bool :=
  (s.marks ++ s.latent).any fun g => decide (g < a + n) && decide (a < g + 8)

/-! Requesters -/

/-- The register that a waiting SYNC instruction writes. -/
def Proc.syncReg (p : Proc) : XIdx :=
  match p.wait with
  | .sync _ _ d | .rsv _ d | .amo _ d => d
  | _ => 0

/-- A requester waits for an answer from a home. -/
def Proc.inSync (p : Proc) : Bool :=
  match p.wait with
  | .sync _ _ _ | .rsv _ _ | .amo _ _ => p.isBlocked
  | _ => false

/-- The wait of a SYNC instruction ends with a captured value. -/
def State.wakeSync (s : State) (pid : Nat) (v : Word) : State :=
  match s.proc? pid with
  | some p => if p.inSync then s.wake pid (some (.regs [(p.syncReg, v)])) else s
  | none => s

/-- The wait of a SYNC instruction ends with a cause. -/
def State.failSync (s : State) (pid : Nat) (c : Cause) (addr d0 d1 : Word) : State :=
  match s.proc? pid with
  | some p => if p.inSync then s.wake pid (some (.cause c addr d0 d1)) else s
  | none => s

/-- An answer that crosses to another die travels as a stamped packet (Table 19.1); within the die it is given at once. -/
def State.answer (s : State) (die pid : Nat) (pl : Payload) : State :=
  match s.proc? pid with
  | none => s
  | some p =>
    if dieOf p.core = die then
      match pl with
      | .wake _ v => s.wakeSync pid v
      | .fail _ c a d0 d1 => s.failSync pid c a d0 d1
      | _ => s
    else
      let (id, s) := s.freshId
      { s with packets := s.packets ++
          [{ id := id, core := p.core, pid := pid, region := p.region, src := die, dst := dieOf p.core, pc := p.pc,
             used := 0, n := 0, path := .fabric, kind := .reply, payload := pl }] }

/-! Watches (R242, R243) -/

/-- The test of a waiting instruction on a word's value and bit. -/
def SyncOp.test (op : SyncOp) (v : Word) (full : Bool) : Bool :=
  match op with
  | .ldf | .lde => full
  | .ste _ => !full
  | .waitw b => v != b
  | .waitc b => decide (b.toNat ≤ v.toNat)

/-- The 64-bit word at an address. -/
def State.word (s : State) (a : Nat) : Word := BitVec.ofNat 64 (s.mem.read a 8)

/-- First address of the trigger words (R378). -/
def triggerBase : Nat := 0x8003FFF800

/-- A write to an armed trigger word has reached its home (R378). -/
def State.noteTrigger (s : State) (a : Nat) : State :=
  if triggerBase ≤ a ∧ s.triggers.any (fun t => t.k == (a - triggerBase) / 8) = true then
    { s with trigWrites := s.trigWrites ++ [(a - triggerBase) / 8] }
  else s

/-- What a successful test does at the home; the value found is what the instruction captures. -/
def State.doSync (s : State) (a : Nat) (op : SyncOp) : State :=
  match op with
  | .lde => s.setFull a false
  | .ste v => { ((s.setFull a true).noteTrigger a) with mem := s.mem.write a 8 v.toNat, marks := eraseAddr a s.marks,
                                                        latent := eraseAddr a s.latent }
  | _ => s

/-- A waiting instruction that writes the word when it is served. -/
def SyncOp.writes : SyncOp → Bool
  | .ste _ => true
  | _ => false

/-- A waiting instruction that changes neither the word nor its bit. -/
def SyncOp.observes : SyncOp → Bool
  | .lde | .ste _ => false
  | _ => true

/-- DETAIL1 of a cause of a waiting instruction (R253). -/
def SyncOp.kind : SyncOp → Word
  | .lde | .ste _ => 2
  | _ => 0

/-! Reservation queues: places (R250) -/

/-- A word has a request queued. -/
def State.queued (s : State) (w : Nat) : Bool := s.rsvs.any (·.addr == w)

/-- Queued words that a home tracks (R250). -/
def rsvCap (a : Nat) : Nat := if isLoft a then 1024 else 64

/-- The words whose queues a home tracks. -/
def State.entryWords (s : State) (home : Nat) : List Nat :=
  ((s.rsvs.filter fun r => homeOf r.addr == home && r.entry).map (·.addr)).eraseDups

/-- A home has a free entry for the queue of a word. -/
def State.entryFree (s : State) (w : Nat) : Bool := decide ((s.entryWords (homeOf w)).length < rsvCap w)

/-- A request joins the queue of its word: in the word's entry, in a free one where the queue is empty, or waiting for one.
-/
def State.addRequest (s : State) (r : RsvReq) : State :=
  let entry := if s.queued r.addr then (s.entryWords (homeOf r.addr)).contains r.addr else s.entryFree r.addr
  { s with rsvs := s.rsvs ++ [{ r with entry := entry }] }

/-- The oldest request of a home that waits for an entry takes a free one, with all requests of its word. -/
def State.takeEntry (s : State) (home : Nat) : State :=
  match s.rsvs.find? fun r => homeOf r.addr == home && !r.entry with
  | none => s
  | some r =>
    if s.entryFree r.addr then
      { s with rsvs := s.rsvs.map fun q => if q.addr = r.addr then { q with entry := true } else q }
    else s

/-! Watches (R242) -/

/-- Watches that a home keeps (R242). -/
def watchCap (a : Nat) : Nat := if isLoft a then 2048 else 128

/-- The registered watches of a home: the first of those that wait, in order of arrival. -/
def State.registered (s : State) (home : Nat) : List Watch :=
  (s.watches.filter fun w => homeOf w.addr == home).take (watchCap (if 8192 ≤ home then 0x8000000000 else 0))

/-- A watch reads a marked word (R253). -/
def State.watchBad (s : State) (w : Watch) : Bool := !w.op.writes && s.granuleBad w.addr

/-- A watch can be served: its test succeeds, or what it reads is marked. -/
def State.watchReady (s : State) (w : Watch) : Bool :=
  !w.queued && (s.watchBad w || w.op.test (s.word w.addr) (s.isFull w.addr))

/-- The watch that a home serves next: `ldf`, `waitw` and `waitc` test a value and bit before the next `lde` or `ste`
changes them; these are served in order of registration (R242). -/
def State.nextWatch (s : State) (home : Nat) : Option Watch :=
  let ready := (s.registered home).filter s.watchReady
  (ready.find? (·.op.observes)).orElse fun _ => ready.head?

/-- A `ste` whose test has succeeded joins the queue of a word with requests (R250). -/
def State.joinSte (s : State) (w : Watch) : State :=
  { s with watches := s.watches.map fun x => if x = w then { x with queued := true } else x }.addRequest
    { addr := w.addr, pid := w.pid, k := .ste }

/-- A watch is served: the change at the home, and the answer to its process (R242, R253). -/
def State.serve (s : State) (w : Watch) : State :=
  let t := { s with watches := s.watches.erase w }
  if s.watchBad w then t.answer (homeDie w.addr) w.pid (.fail w.pid .memerr w.used 8 w.op.kind)
  else (t.doSync w.addr w.op).answer (homeDie w.addr) w.pid (.wake w.pid (s.word w.addr))

/-- Serves the watch of a home that is next. -/
def State.serveWatch (s : State) (home : Nat) : State :=
  match s.nextWatch home with
  | none => s
  | some w => if w.op.writes && s.queued w.addr then s.joinSte w else s.serve w

/-- Serves watches of a home until none is ready; each round serves one. -/
def State.serveWatches (s : State) (home : Nat) : State :=
  (List.range s.watches.length).foldl (fun t _ => t.serveWatch home) s

/-! Writes and reservation queues (R250–R252) -/

/-- The notification of a write that meets an error (R112): PC is that of the store and ADDR the address it used; the rule
states no detail words (log 12). R57 names this notification in neither of its lists: that it waits in the queue of 16 of the
core that stored, with that core's COORD at issue, is the model's choice (log 57). -/
def State.reportMet (s : State) (a : Option Author) : State :=
  match a with
  | none => s
  | some a =>
    { s with free := s.free + 2 }.report a .memerr a.used (Config.detail s.free) (Config.detail (s.free + 1))

/-- A write changes its bytes, the bit of its word, and marks (R112, R241); watches are tested (R242). The granule of a
partial write that meets an error not yet marked takes the mark. -/
def State.applyWrite (s : State) (w : WriteEff) : State :=
  let g := wordAt w.addr
  let clears := w.n == 8 || w.whole
  let meets := !clears && decide (0 < w.n) && s.latent.contains g && !s.marks.contains g
  let s := { s with
    mem := s.mem.write w.addr w.n w.val
    marks := if w.mark then insertAddr g s.marks else if clears then eraseAddr g s.marks
      else if meets then insertAddr g s.marks else s.marks
    latent := if clears || meets then eraseAddr g s.latent else s.latent }
  let s := match w.fe with
    | some b => s.setFull g b
    | none => s
  let s := if w.n = 0 then s else s.noteTrigger w.addr
  (if meets then s.reportMet w.author else s).serveWatches (homeOf g)

/-- AmoOp (Table 13.10). -/
def AmoOp.apply (op : AmoOp) (old b c : Word) : Word :=
  match op with
  | .add => old + b
  | .and => old &&& b
  | .or => old ||| b
  | .xor => old ^^^ b
  | .min => if b.slt old then b else old
  | .max => if old.slt b then b else old
  | .minu => if b.ult old then b else old
  | .maxu => if old.ult b then b else old
  | .swap => b
  | .cas => if old = c then b else old

/-- The address at a home that a payload concerns. -/
def payloadAddr : Payload → Nat
  | .write w | .engine w _ _ | .inWrite _ w => w.addr
  | .feRange a _ _ | .load a _ _ | .sync a _ _ | .rsv a _ _ | .rls a _ _ | .inRead _ a _ => a
  | _ => 0

/-- An answer to a request of another package (R344). -/
def State.uaAnswer (s : State) (g : Nat) (a : UaAnswer) : State := { s with uaOut := s.uaOut ++ [(g, a)] }

/-- The answer to a request of another package sets out from a die: on the die of the group it leaves at once, else a stamped
packet takes it there (R321, R344). -/
def State.answerOut (s : State) (die g : Nat) (a : UaAnswer) : State :=
  if g / 2 = die ∨ s.diePresent (g / 2) = false then s.uaAnswer g a
  else
    let (id, s) := s.freshId
    { s with packets := s.packets ++
        [{ id := id, core := 8192 + die, pid := 0, region := 0, src := die, dst := g / 2, pc := 0, used := 0, n := 0,
           path := .fabric, kind := .reply, payload := .uaBack g a }] }

/-- A queued write takes effect on its word. -/
def State.landQueued (s : State) (q : Packet) (w : Nat) : State :=
  match q.payload with
  | .write e | .engine e _ _ => s.applyWrite e
  | .feRange _ _ full => s.applyWrite { addr := w, n := 0, val := 0, fe := some full }
  | .rls _ _ v => s.applyWrite { addr := w, n := 8, val := v.toNat, fe := none }
  | .inWrite g e => (s.applyWrite e).answerOut (homeDie e.addr) g .ack
  | _ => s

/-- The packet that waits in the queue of a word. -/
def Packet.waitsAt (q : Packet) (id w : Nat) : Bool := q.queued && q.id == id && wordAt (payloadAddr q.payload) == w

/-- The word's first request, where the home tracks its queue and nothing holds the grant: a one-shot write writes and
passes the grant on; so does a `ste` that finds the word empty, and one that finds it full watches again; `rsv` wakes its
process with the value; `amo` waits for its release by the atomic unit; a marked word ends an `rsv` (R253). -/
def State.grantOne (s : State) (w : Nat) : State :=
  match s.rsvs.find? (·.addr == w) with
  | none => s
  | some r =>
    let out := { s with rsvs := s.rsvs.erase r }
    let hold := { s with rsvs := s.rsvs.map fun q => if q = r then { q with granted := true } else q }
    if r.granted || !r.entry then s
    else match r.k with
      | .oneShot id =>
        match s.packets.find? (·.waitsAt id w) with
        | some q => { out with packets := s.packets.erase q }.landQueued q w
        | none => out
      | .ste =>
        match s.watches.find? fun x => x.addr == w && x.pid == r.pid && x.queued with
        | some x =>
          if s.isFull w then
            { out with watches := s.watches.map fun y => if y = x then { y with queued := false } else y }
          else (out.serve x).serveWatches (homeOf w)
        | none => out
      | .rsv =>
        if s.granuleBad w then out.answer (homeDie w) r.pid (.fail r.pid .memerr r.used 8 2)
        else (hold.modProc r.pid fun p => { p with rsvs := p.rsvs ++ [w] }).answer (homeDie w) r.pid (.wake r.pid (s.word w))
      | .amo _ _ _ => hold

/-- Grants until the word's first request holds the grant. -/
def State.grant (s : State) (w : Nat) : State :=
  (List.range (s.rsvs.length + s.watches.length)).foldl (fun t _ => t.grantOne w) s

/-- Grants on every word of a home; the entries that come free go to the requests that have waited longest (R250). -/
def State.grantHome (s : State) (home : Nat) : State :=
  let all (s : State) : State :=
    (((s.rsvs.filter fun r => homeOf r.addr == home).map (·.addr)).eraseDups).foldl State.grant s
  (s.rsvs.filter fun r => !r.entry).foldl (fun t _ => all (t.takeEntry home)) ((all s).serveWatches home)

/-- A request arrives at its home. -/
def State.request (s : State) (r : RsvReq) : State := (s.addRequest r).grant r.addr

/-- A packet comes back before those of its order that are younger. -/
def insertPacket (q : Packet) : List Packet → List Packet
  | [] => [q]
  | p :: r => if q.id < p.id ∧ p.kind ≠ .reply then q :: p :: r else p :: insertPacket q r

/-- A write to a word with requests waits in the word's queue as a one-shot request (R250): it has not taken effect. -/
def State.waitInQueue (s : State) (q : Packet) (w : Nat) : State :=
  { s with packets := insertPacket { q with queued := true, held := false } s.packets }.request
    { addr := w, pid := q.pid, k := .oneShot q.id }

/-- A write of a packet arrives at its home: it takes effect, or waits in the queue of a word with requests (R250). -/
def State.landWrite (s : State) (q : Packet) (w : WriteEff) : State :=
  if s.homeGone w.addr then s
  else if s.queued (wordAt w.addr) then s.waitInQueue q (wordAt w.addr)
  else s.applyWrite w

/-- A process holds the reservation of a word. -/
def State.holds (s : State) (pid w : Nat) : Bool :=
  s.rsvs.any fun r => r.addr == w && r.pid == pid && r.granted && r.k == RsvKind.rsv

/-- The holder of a reservation releases it, with a new value or unchanged (R251). -/
def State.release (s : State) (pid w : Nat) (v : Option Word) : State :=
  let s := { s with rsvs := s.rsvs.filter fun r => !(r.addr == w && r.pid == pid && r.granted && r.k == RsvKind.rsv) }
  let s := s.modProc pid fun p => { p with rsvs := p.rsvs.filter (· != w) }
  let s := match v with
    | some x => s.applyWrite { addr := w, n := 8, val := x.toNat, fe := none }
    | none => s
  s.grantHome (homeOf w)

/-- `rls` at the home: a release of what is held, else a one-shot write (R251). -/
def State.rlsAt (s : State) (q : Packet) (pid w : Nat) (v : Word) : State :=
  if s.holds pid w then s.release pid w (some v)
  else s.landWrite q { addr := w, n := 8, val := v.toNat, fe := none }

/-- The atomic unit has the grant of a word for a process: it computes, releases, and the process takes the old value
(R252). A marked word raises MEMERR, and nothing is written (R253). -/
def State.amoRelease (s : State) (pid : Nat) : State :=
  match s.rsvs.find? fun r => r.pid == pid && r.granted && r.k != RsvKind.rsv with
  | none => s
  | some r =>
    let out := { s with rsvs := s.rsvs.erase r }
    match r.k with
    | .amo op b c =>
      let old := s.word r.addr
      if s.granuleBad r.addr then
        (out.grantHome (homeOf r.addr)).answer (homeDie r.addr) pid (.fail pid .memerr r.used 8 2)
      else
        let t := out.applyWrite { addr := r.addr, n := 8, val := (op.apply old b c).toNat, fe := none }
        (t.grantHome (homeOf r.addr)).answer (homeDie r.addr) pid (.wake pid old)
    | _ => s

/-- A request for a reservation arrives at its home. An `rsv` of a word that the process holds completes at once with the
current value (R251); everything else that the process asks for there waits until it releases. -/
def State.rsvAt (s : State) (r : RsvReq) : State :=
  if r.k = .rsv ∧ s.holds r.pid r.addr = true then
    if s.granuleBad r.addr then s.answer (homeDie r.addr) r.pid (.fail r.pid .memerr r.used 8 2)
    else s.answer (homeDie r.addr) r.pid (.wake r.pid (s.word r.addr))
  else s.request r

/-- A full/empty or wait instruction arrives at its home: it is tested, whether a watch is free or not, and watched when the
test fails (R242). -/
def State.syncAt (s : State) (w : Watch) : State :=
  let t := { s with watches := s.watches ++ [w] }
  if !(t.registered (homeOf w.addr)).contains w && t.watchReady w then
    (if w.op.writes && t.queued w.addr then t.joinSte w else t.serve w).serveWatches (homeOf w.addr)
  else t.serveWatches (homeOf w.addr)

/-- A request of a process on its way to a home: a watch, or an `rsv` (R32, R242). -/
def Payload.asks (pl : Payload) (pid : Nat) : Bool :=
  match pl with
  | .sync _ p _ => p == pid
  | .rsv _ p .rsv => p == pid
  | _ => false

/-- Withdraws what a process waits for at the homes of the dies that `on` names, or has asked for on the way to them (R32,
R242): its watches, its `rsv` requests that have no grant. A stamped packet goes on without effect. -/
def State.withdraw (s : State) (pid : Nat) (on : Nat → Bool) : State :=
  { s with watches := s.watches.filter fun w => !(w.pid == pid && on (homeDie w.addr))
           rsvs := s.rsvs.filter fun r =>
             !(r.pid == pid && !r.granted && (r.k == .rsv || r.k == .ste) && on (homeDie r.addr))
           packets := s.packets.map fun q =>
             if q.payload.asks pid && on q.dst then { q with payload := .kindling } else q }

/-- The homes at which a process has watches. -/
def State.watchHomes (s : State) (pid : Nat) : List Nat :=
  ((s.watches.filter (·.pid == pid)).map fun w => homeOf w.addr).eraseDups

/-- Releases the reservations of a process on the dies that `on` names, each with its word unchanged (R251). -/
def State.releaseAll (s : State) (pid : Nat) (on : Nat → Bool) : State :=
  match s.proc? pid with
  | some p => (p.rsvs.filter fun w => on (homeDie w)).foldl (fun t w => t.release pid w none) s
  | none => s

/-- A process leaves the homes of the dies that `on` names: its waits there are withdrawn, the watches that come free go to the
requests that wait for one (R242), and what it has reserved is released. -/
def State.quitHomes (s : State) (pid : Nat) (on : Nat → Bool) : State :=
  ((s.watchHomes pid).foldl State.serveWatches (s.withdraw pid on)).releaseAll pid on

/-- The word at whose home a process waits in an instruction that its end withdraws (R32). -/
def Proc.waitsOnWord (p : Proc) : List Nat :=
  match p.wait with
  | .sync h _ _ | .rsv h _ => if p.isBlocked then [h] else []
  | _ => []

/-- The words on other dies that a process waits for or has reserved. -/
def Proc.farWords (p : Proc) : List Nat := ((p.waitsOnWord ++ p.rsvs).filter fun h => homeDie h != dieOf p.core).eraseDups

/-- The end of a process reaches the home of a word on another die (R32, R321). -/
def State.quitAt (s : State) (pid w : Nat) : State :=
  let t := (s.watchHomes pid).foldl State.serveWatches (s.withdraw pid fun d => d == homeDie w)
  if t.holds pid w then t.release pid w none else t

end Sys2Proof.Machine
end

