-- ==== Sys2Proof/Machine/Fabric.lean ====
section
/-! DEFINITION. The causal die fabric (R321–R333): counters, stamps and their layout, stamping, the window, readiness, the
hearth, delivery's merge, column flits. -/

namespace Sys2Proof.Machine

/-- Counts are modulo 4,096 (R323). -/
abbrev counts : Nat := 4096

/-- Later(a, b) (R324). -/
def later (a b : Nat) : Bool :=
  let d := (a + counts - b) % counts
  decide (1 ≤ d) && decide (d ≤ 2047)

/-- LaterOf(a, b) (R324). -/
def laterOf (a b : Nat) : Nat := if later a b then a else b

/-- KNOW[k][e] of a die (Table 19.2). -/
def Die.knows (d : Die) (k e : Nat) : Nat := d.know.get (k * 8 + e)
/-- DELIV[k] of a die is KNOW[k][its own number]. -/
def Die.deliv (d : Die) (k : Nat) : Nat := d.knows k d.num
/-- Sets KNOW[k][e]. -/
def Die.setKnow (d : Die) (k e v : Nat) : Die := { d with know := d.know.set (k * 8 + e) v }
/-- SHIP[e][k][e′]. -/
def Die.shipped (d : Die) (e k e' : Nat) : Nat := d.ship.get (e * 64 + k * 8 + e')
/-- ACK[e]. -/
def Die.acked (d : Die) (e : Nat) : Nat := d.ack.get e
/-- ECHO[y][k]. -/
def Die.echoed (d : Die) (y k : Nat) : Nat := d.echo.get (y * 8 + k)

/-- The present dies. -/
def State.domain (s : State) : List Nat := (List.range 8).filter s.diePresent

/-- Pend(e) of a die (R325), in increasing e′, then k. -/
def State.pend (s : State) (d : Die) (e : Nat) : List (Nat × Nat) :=
  (s.domain.filter fun e' => e' != d.num && e' != e).flatMap fun e' =>
    (s.domain.filter fun k => k != e' && later (d.knows k e') (d.shipped e k e')).map fun k => (k, e')

/-- The window toward e is open (R325, R329). -/
def Die.windowOpen (d : Die) (e : Nat) : Bool :=
  decide ((d.knows d.num e + counts - d.acked e) % counts < 1024)

/-- Stamp(Q, deltas) of R325 without its wait. -/
def State.stampOne (s : State) (d : Die) (e : Nat) (deltas : List (Nat × Nat)) (kindling : Bool) : Stamp × Die :=
  let d := d.setKnow d.num e ((d.knows d.num e + 1) % counts)
  let col := (List.range 8).map fun k => if s.diePresent k && k != e then d.knows k e else 0
  let ds := deltas.map fun p => (p.1, p.2, d.knows p.1 p.2)
  let ship := deltas.foldl (fun t p => Tab.set t (e * 64 + p.1 * 8 + p.2) (d.knows p.1 p.2)) d.ship
  ({ src := d.num, col := col, deltas := ds, kindling := kindling }, { d with ship := ship })

/-- Fields of a width, the first lowest, as one number. -/
def packFields (w : Nat) : List Nat → Nat
  | [] => 0
  | v :: r => v % 2 ^ w + 2 ^ w * packFields w r

/-- The low n bytes of a number, the lowest first (R15). -/
def bytesLE (v : Nat) : Nat → List Byte
  | 0 => []
  | n + 1 => BitVec.ofNat 8 v :: bytesLE (v / 256) n

/-- The stamp as one number (Table 19.3). -/
def Stamp.bits (t : Stamp) : Nat :=
  packFields 3 [t.src, t.deltas.length] + (if t.kindling then 2 ^ 6 else 0) + 2 ^ 8 * packFields 12 (t.col.take 8) +
    2 ^ 104 * packFields 18 ((t.deltas.take 4).map fun d => packFields 12 [d.2.2] + 2 ^ 12 * packFields 3 [d.2.1, d.1])

/-- The 22 bytes of a stamp (R326). -/
def Stamp.bytes (t : Stamp) : List Byte := bytesLE t.bits 22

/-- The column flit as one number (Table 19.4). -/
def Flit.bits (f : Flit) : Nat :=
  packFields 3 [f.src, f.dst] + 2 ^ 8 * packFields 12 (f.own.take 8) + 2 ^ 104 * packFields 12 (f.echo.take 8)

/-- The 32 bytes of a column flit (R328). -/
def Flit.bytes (f : Flit) : List Byte := bytesLE f.bits 32

/-- A packet that takes a stamp (Table 19.1). -/
def Packet.stamped (p : Packet) : Bool := p.path == .fabric && p.kind != .nt

/-- A packet that waits for its stamp. -/
def Packet.unstamped (p : Packet) : Bool := p.stamped && p.stamp.isNone

/-- Kindling packets that carry what one stamp has no room for (R325). -/
def State.kindle (s : State) (d : Nat) (e : Nat) : State :=
  (List.range 16).foldl (fun s _ =>
    let die := s.die d
    let p := s.pend die e
    if 4 < p.length ∧ die.windowOpen e = true then
      let (st, die) := s.stampOne die e (p.take 4) true
      let (id, s) := (s.putDie die).freshId
      { s with packets := s.packets ++
          [({ id := id, core := 8192 + d, pid := 0, region := 0, src := d, dst := e, pc := 0, used := 0, n := 0,
              path := .fabric, kind := .reply, payload := .kindling, stamp := some st } : Packet)] }
    else s) s

/-- Changes one packet. -/
def State.modPacket (s : State) (id : Nat) (f : Packet → Packet) : State :=
  { s with packets := s.packets.map fun p => if p.id == id then f p else p }

/-- Removes a packet. -/
def State.dropPacket (s : State) (id : Nat) : State := { s with packets := s.packets.filter (·.id != id) }

/-- A packet by its number. -/
def State.packet? (s : State) (id : Nat) : Option Packet := s.packets.find? (·.id == id)

/-- Accesses that fences, releases and the like count (R248, R216): not `st.nt`, not pushes, not answers. -/
def Packet.counted (p : Packet) : Bool :=
  match p.kind with
  | .ord | .acq | .rel | .tst => true
  | .nt | .push _ | .reply => false

/-- Accesses that acquires and releases order (R238 rows 2 and 3): not those whose home lies in the aperture (R238, R240). -/
def Packet.ordered (p : Packet) : Bool := p.counted && p.path != .aperture

/-- A release waits for an earlier access of its process (R238 row 3): one that has not been performed, other than a write
that waits in the queue of the very word whose reservation the release ends (R250). -/
def Packet.releaseAfter (q p : Packet) : Bool :=
  q.kind == .rel && q.path != .aperture && p.pid == q.pid && p.ordered &&
    !(p.queued && wordAt (payloadAddr p.payload) == payloadAddr q.payload)

/-- The packets accepted before a packet. -/
def State.before (s : State) (q : Packet) : List Packet := s.packets.takeWhile (·.id != q.id)

/-- The sequencer stamps the packets that wait at a die, in order; a stamp that waits holds the later ones of its core
(R325, R327, R329), and a release waits for what it is ordered after (R238 row 3). A reclock stops stamping (R336). -/
def State.stampAll (s : State) (d : Nat) : State :=
  if s.reclock.isSome then s else
  ((s.packets.filter fun p => p.src == d && p.unstamped).foldl (fun (acc : State × List Nat) p =>
    let (s, held) := acc
    if p.kind != .reply && held.contains p.core then acc
    else
      let s := s.kindle d p.dst
      let die := s.die d
      let deltas := s.pend die p.dst
      if die.windowOpen p.dst && decide (deltas.length ≤ 4) && !(s.before p).any p.releaseAfter then
        let (st, die) := s.stampOne die p.dst deltas false
        ((s.putDie die).modPacket p.id fun q => { q with stamp := some st }, held)
      else (s, if p.kind = .reply then held else p.core :: held)) (s, [])).1

/-- The sequencer of every die goes on (R325). -/
def State.sequence (s : State) : State :=
  if s.packets.any (·.unstamped) then (List.range 8).foldl State.stampAll s else s

/-- A core has a cross-die access that waits for its stamp (R327). -/
def State.coreUnstamped (s : State) (core : Nat) : Bool :=
  s.packets.any fun p => p.core == core && p.unstamped && p.kind != .reply

/-- The number of a stamped packet among those of its source. -/
def Stamp.number (t : Stamp) : Nat := t.col.getD t.src 0

/-- The earliest, under R324, of counts, 0 bits aside. -/
def earliest (a : Nat) (l : List Nat) : Nat := l.foldl (fun m b => if later m b then b else m) a

/-- CONF[k] of a die (R330). -/
def State.conf (s : State) (d : Die) (k : Nat) : Nat :=
  earliest (d.deliv k) ((s.domain.filter fun x => x != d.num && x != k).map fun x => d.echoed x k)

/-- Ready(p) at its destination (R330). -/
def State.packetReady (s : State) (e : Die) (t : Stamp) : Bool :=
  (t.number + counts - e.deliv t.src) % counts == 1 &&
    (s.domain.filter fun k => k != t.src && k != e.num).all (fun k => !later (t.col.getD k 0) (e.deliv k)) &&
    decide ((e.deliv t.src + 1 + counts - s.conf e t.src) % counts ≤ 1023)

/-- The merge of a delivery (R333). -/
def Die.merge (e : Die) (t : Stamp) : Die :=
  let e := e.setKnow t.src e.num ((e.deliv t.src + 1) % counts)
  t.deltas.foldl (fun d x => d.setKnow x.1 x.2.1 (laterOf x.2.2 (d.knows x.1 x.2.1))) e

/-- Hearth entries in use at a die. -/
def State.hearth (s : State) (e : Nat) : List Packet := s.packets.filter fun p => p.dst == e && p.held

/-- Entries of the hearth (R332). -/
def hearthSize : Nat := 4096

/-- Entries reserved for each other present die (R332). -/
def reservedEntries : Nat := 64

/-- The entry that a packet finds at its destination (R332), shared or not: a shared one while one is free, else one
reserved for its source, which takes the next 64 numbers from it. -/
def State.hearthEntry (s : State) (p : Packet) (t : Stamp) : Option Bool :=
  let h := s.hearth p.dst
  let ahead := (t.number + counts - (s.die p.dst).deliv t.src) % counts
  if (h.filter (·.shared)).length < hearthSize - reservedEntries * (s.domain.filter (· != p.dst)).length then some true
  else if 1 ≤ ahead ∧ ahead ≤ 64 ∧ (h.filter fun q => q.src == p.src && !q.shared).length < reservedEntries then some false
  else none

/-- What a column flit from x to y carries (Table 19.4). -/
def Die.flitTo (x : Die) (y : Nat) : List Nat × List Nat :=
  ((List.range 8).map x.deliv, (List.range 8).map fun k => x.knows k y)

/-- A received flit (R328). -/
def Die.takeFlit (x : Die) (y : Nat) (own echo : List Nat) : Die :=
  let x := { x with ack := x.ack.set y (laterOf (own.getD x.num 0) (x.acked y)) }
  let x := (List.range 8).foldl (fun d k =>
    if k = d.num then d else d.setKnow k y (laterOf (own.getD k 0) (d.knows k y))) x
  { x with echo := (List.range 8).foldl (fun t k => t.set (y * 8 + k) (echo.getD k 0)) x.echo }

/-- All entries of Table 19.2 zero (R336 step 4). -/
def Die.zeroCausal (x : Die) : Die := { x with know := [], ship := [], ack := [], echo := [], flits := [] }

end Sys2Proof.Machine
end

