-- ==== Sys2Proof/Machine/Ops.lean ====
section
/-! DEFINITION. The named operations of an instruction: windows (R110, R227, R229), where an address leads (Table 13.1),
accepting accesses (R100, R111), taking a fault (R53–R57) and the reply that returns from it (R59), EXITED (R32), the end
of a region (R58). -/

namespace Sys2Proof.Machine

/-- The result of an instruction. -/
abbrev Out := Host.Outcome State Fault Refusal

/-! Windows -/

/-- A table entry applies to a core (Table 13.2). -/
def WinEntry.applies (w : WinEntry) (core : Nat) : Bool :=
  w.all || (w.die == dieOf core && w.clus == clusOf core && decide (w.cfirst ≤ idxOf core) && decide (idxOf core ≤ w.clast))

/-- Permissions (Table 13.3). -/
inductive Perm | rd | wr | ex | rw
deriving DecidableEq, Repr

/-- A window grants a permission. -/
def WinEntry.grants (w : WinEntry) : Perm → Bool
  | .rd => w.rd | .wr => w.wr | .ex => w.ex | .rw => w.rd && w.wr

/-- The windows of a region on a core: the loader's, then the table's that apply, at most 16 (R227). -/
def State.windows (s : State) (region core : Nat) : List WinEntry :=
  (((s.loaderWins.filter fun l => l.region == region && l.core == core).map (·.win)) ++
    (s.effWins region).filter (·.applies core)).take 16

/-- Where an address leads from a core (Table 13.1): its own memory by the private alias, a home of its die through the
mesh, a home of another die, an aperture slice, or nothing (R223). Homes are given by global-alias or loft address. -/
inductive Target
  | own (a : Nat)
  | mesh (a : Nat)
  | fabric (die a : Nat)
  | aperture (group off : Nat)
  | none
deriving DecidableEq, Repr

/-- Offset of the park area, through either alias (R27). -/
def State.parkStart (s : State) (core : Nat) : Nat := Config.localBytes - (s.core core).park

/-- A global-alias address below the park area of its core, or a loft address (R223). -/
def State.addressable (s : State) (a : Nat) : Bool :=
  mapOk a && s.diePresent (homeDie a) && (isLoft a || decide (a % 2 ^ 20 < s.parkStart (homeCore a)))

/-- The target of an address used by a core. -/
def State.target (s : State) (core a : Nat) : Target :=
  if a < Config.localBytes then
    if a < s.parkStart core then .own (globalBase core + a) else .none
  else if 0x2000000000 ≤ a ∧ a < 0x4000000000 then .aperture (a / 2 ^ 33 % 16) (a % 2 ^ 33)
  else if s.addressable a then
    if homeDie a = dieOf core then .mesh a else .fabric (homeDie a) a
  else .none

/-- An access of n bytes lies in one window that grants the permission (R229), and names bytes (R223). -/
def State.allows (s : State) (region core : Nat) (a n : Nat) (perm : Perm) : Bool :=
  decide (a < 2 ^ 40) && s.target core a != .none && s.target core (a + n - 1) != .none &&
    (s.windows region core).any fun w => decide (w.base ≤ a) && decide (a + n ≤ w.limit + 1) && w.grants perm

/-- WindowAllows of a process (R110). -/
def Proc.allowed (p : Proc) (s : State) (a : Word) (n : Nat) (perm : Perm) : Bool :=
  s.allows p.region p.core a.toNat n perm

/-- An edge group. -/
def State.group (s : State) (n : Nat) : Group :=
  match s.groups.find? (·.num == n) with
  | some g => g
  | none => { num := n }

/-- Puts an edge group back. -/
def State.putGroup (s : State) (g : Group) : State :=
  { s with groups := s.groups.map fun h => if h.num == g.num then g else h }

/-- Applies a change to an edge group. -/
def State.modGroup (s : State) (n : Nat) (f : Group → Group) : State := s.putGroup (f (s.group n))

/-- The LINK of an aperture access before it leaves (R226, R345): not up, within a scene change from the end of BLOCK on
(R351), or no entry. -/
def State.apertureFault (s : State) (n off : Nat) : Option Word :=
  let g := s.group n
  if 2 ≤ g.sc.toNat then some 1
  else if g.pers ≠ 2 then some 0
  else if !(g.umap.getD (off / 2 ^ 30) 0).getLsbD 63 then some 2
  else none

/-- What an offset of a group's aperture slice reaches: the package, and the address there (R345). -/
def Group.reaches (g : Group) (off : Nat) : Nat × Nat :=
  let e := g.umap.getD (off / 2 ^ 30) 0
  ((e.extractLsb' 32 16).toNat, (e.extractLsb' 0 10).toNat * 2 ^ 30 + off % 2 ^ 30)

/-! Taking a fault -/

/-- Where data belong that no process waits for any more: PID 0 is no process. -/
def ReplyTo.drop (r : ReplyTo) (pid : Nat) : ReplyTo :=
  match r with
  | .slot q _ => if q = pid then .slot 0 0 else r
  | .ahead q _ _ => if q = pid then .slot 0 0 else r

/-- The same for what one stream of a process has fetched. -/
def ReplyTo.dropStream (r : ReplyTo) (pid : Nat) (i : BitVec 3) : ReplyTo :=
  match r with
  | .ahead q j _ => if q = pid ∧ j = i then .slot 0 0 else r
  | _ => r

/-- A change of where data belong, in a packet. -/
def Payload.redirect (pl : Payload) (f : ReplyTo → ReplyTo) : Payload :=
  match pl with
  | .load a n r => .load a n (f r)
  | .loadRet v m r => .loadRet v m (f r)
  | .linkRet d e r => .linkRet d e (f r)
  | .apRead g k a n r => .apRead g k a n (f r)
  | x => x

/-- What a process waited to load is of no use once the load is abandoned (R47) or read-ahead is discarded (R166). -/
def State.dropLoads (s : State) (pid : Nat) : State :=
  { s with packets := s.packets.map fun q => if q.pid = pid then { q with payload := q.payload.redirect (·.drop pid) } else q }

/-- Read-ahead of one stream that is under way is of no use any more (R193). -/
def State.dropAhead (s : State) (pid : Nat) (i : BitVec 3) : State :=
  { s with packets := s.packets.map fun q =>
      if q.pid = pid then { q with payload := q.payload.redirect (·.dropStream pid i) } else q }

/-- The held record of a process (Table 1.11). -/
def State.heldRecord (s : State) (p : Proc) (c : Cause) (addr d0 d1 : Word) : Record :=
  { cause := c, held := true, region := p.region, pid := p.pid, pc := p.pc, addr := addr, d0 := d0, d1 := d1,
    time := s.ns, coord := s.coord p.core, via := s.recordVia p.priv p.region }

/-- The faulted process: nothing of its instruction takes effect but what the caller has put into `p`, a requested halt
lapses, VPROG is cleared (R18, R47, R56, R189), and the record with the instruction's length is kept (R59). It ran until now
(R28). -/
def Proc.hold (p : Proc) (r : Record) (len : Option Nat) : Proc :=
  { p with st := .faulted, wait := .none, done := none, vprog := 0, tile := none, tdone := 0, batch := 0, lastRun := r.time,
           fault := some { record := r, len := len } }

/-- TAKING A FAULT. A holding cause of the running process (R53–R57): it goes to FAULTED at its pc and its record sets out
for the fault endpoint. -/
def State.raise (s : State) (p : Proc) (c : Cause) (len : Option Nat) (addr d0 d1 : Word) : State :=
  let r := s.heldRecord p c addr d0 d1
  let s := s.leaveRunning (p.hold r len)
  let s := s.modCore p.core fun k => { k with halt := none }
  s.sendRecord p.core r

/-- The same as the result of an instruction. -/
def State.raised (s : State) (p : Proc) (c : Cause) (len : Nat) (addr d0 d1 : Word) : Out :=
  .next (s.raise p c (some len) addr d0 d1)

/-- A holding cause whose rule states no detail words: they are free values (log 12). -/
def State.raisedOpen (s : State) (p : Proc) (c : Cause) (len : Nat) : Out :=
  { s with free := s.free + 2 }.raised p c len 0 (Config.detail s.free) (Config.detail (s.free + 1))

/-- A process whose fault is answered goes on: READY at the tail of its class (R59, Table 1.2). Where its context was spilled
(R31), it is chosen once a fill has brought it back (log 45). -/
def State.resumed (s : State) (p : Proc) : State :=
  (s.putProc (s.toTail { p with fault := none, vprog := 0, batch := 0, since := s.ns })).urge p.core

/-- RETURNING FROM A FAULT by RESUME, or by SKIP over the instruction's length (R59), with x3 written when SETX. SKIP clears
TPROG and discards what a `tmma.sp` has claimed (R208, R218). -/
def State.faultReturn (s : State) (p : Proc) (skip : Option Nat) (setx : Option Word) : State :=
  let p := match skip with
    | some len => { p with pc := p.pc + BitVec.ofNat 64 len, tprog := 0, mq := p.mq.drop p.claim, claim := 0 }
    | none => p
  let p := match setx with
    | some v => p.setX 3 v
    | none => p
  s.resumed p

/-! EXITED and the end of a region -/

/-- A packet of a process. -/
def Proc.packet (p : Proc) (id : Nat) (used : Word) (n : Nat) (dst : Nat) (path : Path) (kind : AKind) (pl : Payload)
    (seq : Nat) : Packet :=
  { id := id, core := p.core, pid := p.pid, region := p.region, src := dieOf p.core, dst := dst, pc := p.pc,
    used := used.toNat, n := n, path := path, kind := kind, payload := pl, seq := seq, batch := p.batch }

/-- What the end of a process changes on another die sets out in a packet of the process (R321). -/
def State.sendEnd (s : State) (p : Proc) (die : Nat) (pl : Payload) : State :=
  let (id, s) := s.freshId
  ({ s with packets := s.packets ++ [p.packet id 0 0 die .fabric .ord pl 0] } : State).stampAll (dieOf p.core)

/-- A process leaves the homes where it waits or holds reservations: at once on its die, on another with a packet (R32, R251,
R321). -/
def State.leaveHomes (s : State) (p : Proc) : State :=
  (p.farWords.filter fun w => s.diePresent (homeDie w)).foldl (fun t w => t.sendEnd p (homeDie w) (.quit p.pid w))
    (s.quitHomes p.pid fun d => d == dieOf p.core)

/-- The ends of a process go to CLOSED (R32): at once where the anchor is on its die, on another with a packet (R283, R321). -/
def State.leaveEnds (s : State) (p : Proc) : State :=
  (s.endsOf p.pid).foldl (fun t e =>
    let die := placeDie (t.anchorPlace e.1)
    if die = dieOf p.core then t.closeOwn e.1.table e.1.name e.2
    else t.sendEnd p die (.ctl p.pid e.1.table e.1.name e.2 .close)) s

/-- A process enters EXITED (R32). -/
def State.exitProc (s : State) (pid : Nat) (how : Ending) : State :=
  match s.proc? pid with
  | none => s
  | some p =>
    if p.st = .exited then s else
    let s := s.leaveHomes p
    let s := s.withdrawLoans pid
    let s := s.dropLoads pid
    let s : State := { s with packets := s.packets.filter fun (q : Packet) => !(q.path == .mesh && q.payload == .move pid) }
    let s := if p.isBlocked then s.modProc pid fun q => { q with wait := .none } else s
    let s := s.leaveEnds p
    let p := (s.proc? pid).getD p
    s.leaveRunning { p with st := .exited, loc := .nowhere, wait := .none, done := none, fault := none, rsvs := [],
                            loans := [], ending := how, moving := none,
                            streams := p.streams.map fun t => { t with bound := false } }

/-- Processes of a region and its subtree that live. -/
def State.subtreeProcs (s : State) (region : Nat) : List Proc :=
  s.allProcs.filter fun p => p.st != .exited && s.inSubtree region p.region

/-- The record of a region's end goes to the parent's endpoint (R58). -/
def State.endedVia (s : State) (region : Nat) : Option Nat :=
  match s.region? region with
  | some r => if r.isRoot then none else s.recordVia .u r.parent
  | none => none

/-- The ends of a region's channels that processes hold are CLOSED when the region ends (Table 17.3). -/
def State.closeRegion (s : State) (gone : List Nat) : State :=
  (s.channels.filter fun c => gone.contains c.region).foldl (fun t c =>
    let one (t : State) (tx : Bool) : State := if (c.fin tx).pid.isSome then t.closeEnd c.table c.name tx else t
    one (one t true) false) s

/-- A region ends (R58): every process of its subtree goes to EXITED, the ends of its channels are closed (R282), its barrier
objects become free (R301), what waits to be placed is given up, and one record goes to the parent: from the core whose request
met the invalid page, else from the stage manager (R57). -/
def State.endRegion (s : State) (region : Nat) (core : Option Nat) (r : Record) : State :=
  let via := s.endedVia region
  let gone := (s.regions.filter fun q => s.inSubtree region q.num).map (·.num)
  let s := ((s.subtreeProcs region).foldl (fun t p => t.exitProc p.pid .regionEnd) s).closeRegion gone
  let s := { s with
    barriers := s.barriers.filter fun b => !b.owner.any gone.contains
    placements := s.placements.filter fun p => !gone.contains p.region
    regions := s.regions.map fun (q : Region) => if gone.contains q.num then { q with ended := true } else q }
  let r := { r with held := false, ended := true, region := region, time := s.ns, via := via }
  match via, core with
  | none, _ => s.postMachine r
  | some _, some k => s.sendRecord k r
  | some _, none => s.sendManager r

/-! Replies to faults (R59) -/

/-- The region of a process ends because its supervisor is ended (R58). -/
def State.endByReply (s : State) (p : Proc) : State :=
  match p.fault with
  | some f => s.endRegion p.region none { f.record with coord := 0 }
  | none => s.endRegion p.region none { cause := .spawn }

/-- What a reply of Table 1.13 does to the process it addresses; none when the reply is dropped (R59). -/
def State.answerFault (s : State) (scope : Proc → Bool) (w0 w1 : Word) : Option State :=
  match s.proc? (w0.toNat % 2 ^ 32) with
  | none => none
  | some p =>
    let setx := if w0.getLsbD 34 then some w1 else none
    let len := p.fault.bind (·.len)
    if p.st ≠ .faulted ∨ scope p = false ∨ w0.toNat / 2 ^ 35 ≠ 0 then none
    else match w0.toNat / 2 ^ 32 % 4 with
      | 0 => some (s.faultReturn p none setx)
      | 1 => len.map fun n => s.faultReturn p (some n) setx
      | 2 => some (if p.priv = .s then s.endByReply p else s.exitProc p.pid .replyEnd)
      | _ => none

/-- A reply is dropped and counted (R59). -/
def State.dropReply (s : State) (region : Nat) : State :=
  s.modRegion region fun r => { r with drops := min (r.drops + 1) 0xFFFF }

/-- A held record leaves the monitor's mailbox when it is answered. -/
def State.answered (s : State) (pid : Nat) : State :=
  { s with mailbox := s.mailbox.filter fun r => !(r.held && r.pid == pid) }

/-- A reply reaches the die of the process that it names (R59): `top` is the supervisor's region, which bounds it, none for the
monitor. A reply of the monitor that is dropped counts in DROPS of the region of the process that it names: R59 names no
region, and this is the model's choice (log 59). -/
def State.takeReply (s : State) (top : Option Nat) (w0 w1 : Word) : State :=
  let pid := w0.toNat % 2 ^ 32
  match s.answerFault (fun p => top.all fun t => s.inSubtree t p.region) w0 w1 with
  | some t => if top.isNone then t.answered pid else t
  | none => s.dropReply (top.getD (((s.proc? pid).map (·.region)).getD 0))

/-- A reply sets out from the die of its endpoint, or of the monitor: to another die in a stamped packet (R321). -/
def State.sendReply (s : State) (die : Nat) (top : Option Nat) (w0 w1 : Word) : State :=
  match s.proc? (w0.toNat % 2 ^ 32) with
  | some p =>
    if dieOf p.core = die ∨ s.diePresent (dieOf p.core) = false then s.takeReply top w0 w1
    else
      let (id, s) := s.freshId
      { s with packets := s.packets ++ [p.notice id die (.faultReply top w0 w1)] }
  | none => s.takeReply top w0 w1

/-! Accesses -/

/-- A process has accesses that have not been performed. -/
def State.pending (s : State) (pid : Nat) : Bool := s.packets.any fun p => p.pid == pid && p.counted

/-- It has accesses outside the aperture that have not been performed: those that a release orders (R238 row 3, R240). -/
def State.orderPending (s : State) (pid : Nat) : Bool := s.packets.any fun p => p.pid == pid && p.ordered

/-- A write that waits in the queue of a word whose reservation the process itself holds (R250, log 46). -/
def State.behindOwn (s : State) (pid : Nat) (q : Packet) : Bool := q.queued && s.holds pid (wordAt (payloadAddr q.payload))

/-- A release of the process waits at issue for its earlier accesses (R238 row 3), but not for a write that waits for a
reservation of the process itself (R250): that one lets the release be accepted, and orders it when it lands (log 46). -/
def State.releaseStalls (s : State) (p : Proc) : Bool :=
  s.packets.any fun q => q.pid == p.pid && q.ordered && !s.behindOwn p.pid q

/-- A request to a memory server waits at issue for the earlier accesses of the process (R238 row 8, R273), with the same
exception (log 46). -/
def State.requestStalls (s : State) (p : Proc) : Bool :=
  s.packets.any fun q => q.pid == p.pid && q.counted && !s.behindOwn p.pid q

/-- The running process waits at issue: the instruction issues again (R100). -/
def State.stall (s : State) (p : Proc) : Out := .next { s with cpu := some { p with wait := .stall } }

/-- The running process has performed its instruction. -/
def State.done (s : State) (p : Proc) : Out := .next { s with cpu := some p }

/-- Performs an instruction of the running process of the active bank. -/
def State.withProc (s : State) (k : Proc → Out) : Out :=
  match s.cpu with
  | none => .fault .noProcess
  | some p => k p

/-- An access whose home is on the own die waits while the core has an unstamped cross-die access (R327). -/
def State.heldBack (s : State) (core : Nat) (t : Target) : Bool :=
  match t with
  | .own _ | .mesh _ => s.coreUnstamped core
  | _ => false

/-- The checks of an access in order: MISALIGN, WINDOW, LINK (R109, R226, R253). The first failing one, with its two detail
words. -/
def State.check (s : State) (p : Proc) (a : Word) (n : Nat) (perm : Perm) (k : Word) : Option (Cause × Word × Word) :=
  if a.toNat % n ≠ 0 then some (.misalign, BitVec.ofNat 64 n, k)
  else if !p.allowed s a n perm then some (.window, BitVec.ofNat 64 n, k)
  else match s.target p.core a.toNat with
    | .aperture g off =>
      match s.apertureFault g off with
      | some d => some (.link, BitVec.ofNat 64 g, d)
      | none => none
    | _ => none

/-- Puts a packet of a process under way; a cross-die one is stamped when the window allows (R325). -/
def State.dispatchPacket (s : State) (p : Proc) (used : Word) (n : Nat) (t : Target) (kind : AKind)
    (pl : Nat → Payload) : State :=
  let (id, s) := s.freshId
  let seq := (s.core p.core).remote - 1
  let add (dst : Nat) (path : Path) (a : Nat) : State :=
    { s with packets := s.packets ++ [p.packet id used n dst path kind (pl a) seq] }
  match t with
  | .own a => add (dieOf p.core) .own a
  | .mesh a => add (dieOf p.core) .mesh a
  | .fabric d a => (add d .fabric a).stampAll (dieOf p.core)
  | .aperture g off =>
    let (k, a) := (s.group g).reaches off
    { s with packets := s.packets ++ [p.packet id used n (dieOf p.core) .aperture kind
        (match pl a with
          | .write w => .apWrite g k w
          | .load a n r => .apRead g k a n r
          | x => x) seq] }
  | .none => s

/-- Early reads of a core that overlap a range are given up (R111). -/
def State.dropEarly (s : State) (core a n : Nat) : State :=
  if (s.core core).early.any fun e => decide (e.addr < a + n) && decide (a < e.addr + e.n) then
    s.modCore core fun k => { k with early := k.early.filter fun e =>
      !(decide (e.addr < a + n) && decide (a < e.addr + e.n)) }
  else s

/-- A target that is not the core's own memory through the private alias (R225, R249). -/
def Target.remote : Target → Bool
  | .own _ => false
  | _ => true

/-- A home on another die. -/
def Target.crosses : Target → Bool
  | .fabric _ _ => true
  | _ => false

/-- The aperture: an access there is no acquire and no release (R238, R240). -/
def Target.inAperture : Target → Bool
  | .aperture _ _ => true
  | _ => false

/-- The author of a write (R112), with `%coord` at issue (R57). -/
def State.author (s : State) (p : Proc) (a : Word) : Author :=
  { core := p.core, pid := p.pid, region := p.region, priv := p.priv, pc := p.pc, used := a, coord := s.coord p.core }

/-- The memory path accepts a write of the process (R100); remote writes are counted (R249). -/
def State.store (s : State) (p : Proc) (a : Word) (n : Nat) (t : Target) (kind : AKind) (val : Nat)
    (fe : Option Bool) (whole : Bool) : State :=
  let s := s.dropEarly p.core a.toNat n
  let s := if t.remote then s.modCore p.core fun k => { k with remote := k.remote + 1 } else s
  s.dispatchPacket p a n t kind fun h =>
    .write { addr := h, n := n, val := val % 2 ^ (8 * n), fe := fe, whole := whole, author := some (s.author p a) }

/-- A write that an access of the same core through the same address sees before it has landed (R111): `st.nt`, pushes and the
process's own `tst` writes are ordered on their own (R165, R216, R247). -/
def Packet.forwards (q : Packet) (core pid : Nat) : Bool :=
  q.core == core && (match q.kind with
    | .ord | .acq | .rel => true
    | .tst => q.pid != pid
    | .nt | .push _ | .reply => false)

/-- The byte that a write of a packet gives the address that the instruction used, if it writes it. -/
def Packet.byteFor (q : Packet) (used : Nat) : Option Byte :=
  if q.used ≤ used ∧ used < q.used + q.n then
    match q.payload with
    | .write w => if w.n = 0 then none else some (BitVec.ofNat 8 (w.val / 2 ^ (8 * (used - q.used))))
    | .rls _ _ v => some (BitVec.ofNat 8 (v.toNat / 2 ^ (8 * (used - q.used))))
    | _ => none
  else none

/-- One byte as an access of a core sees it: the latest write of the core through the same address that has not landed, else
the home's (R111). -/
def State.seenByte (s : State) (core pid used home : Nat) : Byte :=
  s.packets.foldl (fun b q => if q.forwards core pid then (q.byteFor used).getD b else b) (s.mem.get home)

/-- n bytes as an access of a core sees them. -/
def State.seen (s : State) (core pid used home : Nat) : Nat → Nat
  | 0 => 0
  | n + 1 => (s.seenByte core pid used home).toNat + 256 * State.seen s core pid (used + 1) (home + 1) n

/-- A write that covers the whole granule and has not landed hides its mark from loads of the same core (R111, R112). -/
def State.seenMarked (s : State) (core pid used home n : Nat) : Bool :=
  s.marked home n &&
    !s.packets.any fun q => q.forwards core pid && decide (q.used / 8 = used / 8) && (match q.payload with
      | .write w => w.n == 8 || w.whole
      | .rls _ _ _ => true
      | _ => false)

/-- Sign extension of the low n bytes (R109). -/
def extend (signed : Bool) (n : Nat) (v : Nat) : Word :=
  if signed ∧ n < 8 ∧ 2 ^ (8 * n - 1) ≤ v then BitVec.ofNat 64 (v + 2 ^ 64 - 2 ^ (8 * n)) else BitVec.ofNat 64 v

/-- Early reads of a core are given up: what follows is ordered after an acquire, a fence or a receive (R238). -/
def State.clearEarly (s : State) (core : Nat) : State :=
  if (s.core core).early.isEmpty then s else s.modCore core fun k => { k with early := [] }

/-- The data of a scalar load have returned: it completes, or raises MEMERR (R109, R112). -/
def State.loadDone (s : State) (p : Proc) (d : XIdx) (n : Nat) (signed : Bool) (addr : Nat) (len : Nat)
    (acq : Bool) (val : Nat) (bad : Bool) : State :=
  if bad then s.raise p .memerr (some len) (BitVec.ofNat 64 addr) (BitVec.ofNat 64 n) 0
  else (if acq then s.clearEarly p.core else s).putProc ((p.setX d (extend signed n val)).advance len)

/-- The read made ahead for the load at a pc (R100). -/
def State.early? (s : State) (core : Nat) (pc : Word) (a n : Nat) : Option Early :=
  (s.core core).early.find? fun e => e.pc == pc && e.addr == a && e.n == n

/-- A load of the process (R109): checks; the own memory answers at once, other homes by a reply. Reads made ahead of the same
bytes are given up, so that no later load returns an older value (R239). -/
def State.load (s : State) (p : Proc) (d : XIdx) (a : Word) (n : Nat) (signed : Bool) (len : Nat) (kind : AKind) : Out :=
  match p.wait with
  | .load _ _ _ _ _ _ => .next s
  | _ =>
    match s.check p a n .rd 0 with
    | some (c, d0, d1) => s.raised p c len a d0 d1
    | none =>
      let t := s.target p.core a.toNat
      if s.heldBack p.core t then s.stall p else
      let own := if kind = .ord then s.early? p.core p.pc a.toNat n else none
      let s := s.dropEarly p.core a.toNat n
      match own with
      | some e => .next (s.loadDone p d n signed a.toNat len false e.val e.marked)
      | none =>
        match t with
        | .own h =>
          .next (s.loadDone p d n signed a.toNat len (kind == .acq) (s.seen p.core p.pid a.toNat h n)
            (s.seenMarked p.core p.pid a.toNat h n))
        | t =>
          let p := { p with wait := .load d n signed a.toNat len (kind == .acq && !t.inAperture) }
          .next ({ s with cpu := some p }.dispatchPacket p a n t kind fun h => .load h n (.slot p.pid 0))

/-- A store of the process (R109): checks, then the path accepts it. -/
def State.storeInstr (s : State) (p : Proc) (a : Word) (n : Nat) (v : Word) (len : Nat) (kind : AKind) : Out :=
  match s.check p a n .wr 1 with
  | some (c, d0, d1) => s.raised p c len a d0 d1
  | none =>
    let t := s.target p.core a.toNat
    if s.heldBack p.core t then s.stall p else
    ({ s with cpu := some p }.store p a n t kind v.toNat none false).done (p.advance len)

end Sys2Proof.Machine
end

