-- ==== Sys2Proof/Machine/Scalar.lean ====
section
/-! DEFINITION. Scalar instructions (05): register and immediate arithmetic, loads and stores, branches and jumps, system
instructions, compact forms; the two outcomes of a fetch that gives no instruction (R60, R67). -/

namespace Sys2Proof.Machine

/-! Arithmetic (R104, R105) -/

/-- Index of the least significant 1 bit, 64 when there is none. -/
def lowBit (v : Word) : Nat := ((List.range 64).find? fun i => v.getLsbD i).getD 64
/-- Number of leading zero bits. -/
def leadingZeros (v : Word) : Nat := if v = 0 then 64 else 63 - v.toNat.log2
/-- Number of 1 bits. -/
def ones (v : Word) : Nat := ((List.range 64).filter fun i => v.getLsbD i).length

/-- DivS (R105): the quotient truncates toward zero and saturates. -/
def divS (n d : Word) : Word :=
  if d = 0 then (if n = 0 then 0 else if n.msb then BitVec.intMin 64 else BitVec.intMax 64)
  else if n = BitVec.intMin 64 ∧ d = BitVec.allOnes 64 then BitVec.intMax 64
  else BitVec.ofInt 64 (n.toInt.tdiv d.toInt)
/-- RemS (R105): n − d × TDiv(n, d). -/
def remS (n d : Word) : Word := if d = 0 then 0 else BitVec.ofInt 64 (n.toInt - d.toInt * n.toInt.tdiv d.toInt)
/-- DivU (R105). -/
def divU (n d : Word) : Word :=
  if d = 0 then (if n = 0 then 0 else BitVec.allOnes 64) else BitVec.ofNat 64 (n.toNat / d.toNat)
/-- RemU (R105). -/
def remU (n d : Word) : Word := if d = 0 then 0 else BitVec.ofNat 64 (n.toNat % d.toNat)

/-- The shift amount: bits 5:0 (R104). -/
def shiftAmount (b : Word) : Nat := b.toNat % 64

/-- Rotation towards bit 0 (Table 5.2). -/
def rotateRight (a : Word) (sh : Nat) : Word := (a >>> sh) ||| (a <<< (64 - sh))

/-- 1 or 0. -/
def flag (b : Bool) : Word := if b then 1 else 0

/-! Shapes -/

/-- x[D] takes a value computed from the registers and the pc moves on (R104, R106, R108). -/
def State.alu (s : State) (d : XIdx) (len : Nat) (f : Proc → Word) : Out :=
  s.withProc fun p => s.done ((p.setX d (f p)).advance len)

/-- Register–register form. -/
def State.aluR (s : State) (d a b : XIdx) (len : Nat) (f : Word → Word → Word) : Out :=
  s.alu d len fun p => f (p.getX a) (p.getX b)

/-- Immediate form: the 15-bit immediate is sign-extended (R106). -/
def State.aluI (s : State) (d a : XIdx) (imm : BitVec 15) (f : Word → Word → Word) : Out :=
  s.alu d 4 fun p => f (p.getX a) (imm.signExtend 64)

/-- A branch (R113): to the target, or on by the instruction's length. -/
def State.branch (s : State) (len : Nat) (off : Word) (c : Proc → Bool) : Out :=
  s.withProc fun p => s.done (if c p then p.jump (p.pc + off) else p.advance len)

/-- A branch offset in halfwords. -/
def halves {n : Nat} (off : BitVec n) : Word := off.signExtend 64 * 2

/-- A load with base and offset (R109). -/
def State.ldX (s : State) (d a : XIdx) (off : Word) (n : Nat) (signed : Bool) (len : Nat) : Out :=
  s.withProc fun p => s.load p d (p.getX a + off) n signed len .ord

/-- A store with base and offset (R109). -/
def State.stX (s : State) (b a : XIdx) (off : Word) (n : Nat) (len : Nat) : Out :=
  s.withProc fun p => s.storeInstr p (p.getX a + off) n (p.getX b) len .ord

/-! Major 0x01 (Table 5.2) -/

/-- `add` (Table 5.2). -/
def execAdd (d a b : XIdx) (s : State) : Out :=
  s.aluR d a b 4 fun a b => a + b
/-- `sub` (Table 5.2). -/
def execSub (d a b : XIdx) (s : State) : Out :=
  s.aluR d a b 4 fun a b => a - b
/-- `and` (Table 5.2). -/
def execAnd (d a b : XIdx) (s : State) : Out :=
  s.aluR d a b 4 fun a b => a &&& b
/-- `or` (Table 5.2). -/
def execOr (d a b : XIdx) (s : State) : Out :=
  s.aluR d a b 4 fun a b => a ||| b
/-- `xor` (Table 5.2). -/
def execXor (d a b : XIdx) (s : State) : Out :=
  s.aluR d a b 4 fun a b => a ^^^ b
/-- `andn` (Table 5.2). -/
def execAndn (d a b : XIdx) (s : State) : Out :=
  s.aluR d a b 4 fun a b => a &&& ~~~b
/-- `sll` (Table 5.2). -/
def execSll (d a b : XIdx) (s : State) : Out :=
  s.aluR d a b 4 fun a b => a <<< shiftAmount b
/-- `srl` (Table 5.2). -/
def execSrl (d a b : XIdx) (s : State) : Out :=
  s.aluR d a b 4 fun a b => a >>> shiftAmount b
/-- `sra` (Table 5.2). -/
def execSra (d a b : XIdx) (s : State) : Out :=
  s.aluR d a b 4 fun a b => a.sshiftRight (shiftAmount b)
/-- `ror` (Table 5.2). -/
def execRor (d a b : XIdx) (s : State) : Out :=
  s.aluR d a b 4 fun a b => rotateRight a (shiftAmount b)
/-- `slt` (Table 5.2). -/
def execSlt (d a b : XIdx) (s : State) : Out :=
  s.aluR d a b 4 fun a b => flag (a.slt b)
/-- `sltu` (Table 5.2). -/
def execSltu (d a b : XIdx) (s : State) : Out :=
  s.aluR d a b 4 fun a b => flag (a.ult b)
/-- `min` (Table 5.2). -/
def execMin (d a b : XIdx) (s : State) : Out :=
  s.aluR d a b 4 fun a b => if a.slt b then a else b
/-- `max` (Table 5.2). -/
def execMax (d a b : XIdx) (s : State) : Out :=
  s.aluR d a b 4 fun a b => if a.slt b then b else a
/-- `minu` (Table 5.2). -/
def execMinu (d a b : XIdx) (s : State) : Out :=
  s.aluR d a b 4 fun a b => if a.ult b then a else b
/-- `maxu` (Table 5.2). -/
def execMaxu (d a b : XIdx) (s : State) : Out :=
  s.aluR d a b 4 fun a b => if a.ult b then b else a
/-- `mul` (Table 5.2). -/
def execMul (d a b : XIdx) (s : State) : Out :=
  s.aluR d a b 4 fun a b => a * b
/-- `mulh` (Table 5.2). -/
def execMulh (d a b : XIdx) (s : State) : Out :=
  s.aluR d a b 4 fun a b => BitVec.ofInt 64 (a.toInt * b.toInt / 2 ^ 64)
/-- `mulhu` (Table 5.2). -/
def execMulhu (d a b : XIdx) (s : State) : Out :=
  s.aluR d a b 4 fun a b => BitVec.ofNat 64 (a.toNat * b.toNat / 2 ^ 64)
/-- `mulhsu` (Table 5.2). -/
def execMulhsu (d a b : XIdx) (s : State) : Out :=
  s.aluR d a b 4 fun a b => BitVec.ofInt 64 (a.toInt * (b.toNat : Int) / 2 ^ 64)
/-- `div` (Table 5.2). -/
def execDiv (d a b : XIdx) (s : State) : Out :=
  s.aluR d a b 4 fun a b => divS a b
/-- `divu` (Table 5.2). -/
def execDivu (d a b : XIdx) (s : State) : Out :=
  s.aluR d a b 4 fun a b => divU a b
/-- `rem` (Table 5.2). -/
def execRem (d a b : XIdx) (s : State) : Out :=
  s.aluR d a b 4 fun a b => remS a b
/-- `remu` (Table 5.2). -/
def execRemu (d a b : XIdx) (s : State) : Out :=
  s.aluR d a b 4 fun a b => remU a b
/-- `clz` (Table 5.2). -/
def execClz (d a : XIdx) (s : State) : Out :=
  s.aluR d a 0 4 fun a _ => BitVec.ofNat 64 (leadingZeros a)
/-- `ctz` (Table 5.2). -/
def execCtz (d a : XIdx) (s : State) : Out :=
  s.aluR d a 0 4 fun a _ => BitVec.ofNat 64 (lowBit a)
/-- `popc` (Table 5.2). -/
def execPopc (d a : XIdx) (s : State) : Out :=
  s.aluR d a 0 4 fun a _ => BitVec.ofNat 64 (ones a)
/-- `sextB` (Table 5.2). -/
def execSextB (d a : XIdx) (s : State) : Out :=
  s.aluR d a 0 4 fun a _ => (a.extractLsb' 0 8).signExtend 64
/-- `sextH` (Table 5.2). -/
def execSextH (d a : XIdx) (s : State) : Out :=
  s.aluR d a 0 4 fun a _ => (a.extractLsb' 0 16).signExtend 64
/-- `sextW` (Table 5.2). -/
def execSextW (d a : XIdx) (s : State) : Out :=
  s.aluR d a 0 4 fun a _ => (a.extractLsb' 0 32).signExtend 64
/-- `zextW` (Table 5.2). -/
def execZextW (d a : XIdx) (s : State) : Out :=
  s.aluR d a 0 4 fun a _ => (a.extractLsb' 0 32).setWidth 64

/-! Majors 0x02–0x0A (Table 5.4, R107, R108) -/

/-- `addi` (Table 5.4). -/
def execAddi (d a : XIdx) (imm : BitVec 15) (s : State) : Out :=
  s.aluI d a imm fun a i => a + i
/-- `andi` (Table 5.4). -/
def execAndi (d a : XIdx) (imm : BitVec 15) (s : State) : Out :=
  s.aluI d a imm fun a i => a &&& i
/-- `ori` (Table 5.4). -/
def execOri (d a : XIdx) (imm : BitVec 15) (s : State) : Out :=
  s.aluI d a imm fun a i => a ||| i
/-- `xori` (Table 5.4). -/
def execXori (d a : XIdx) (imm : BitVec 15) (s : State) : Out :=
  s.aluI d a imm fun a i => a ^^^ i
/-- `slti` (Table 5.4). -/
def execSlti (d a : XIdx) (imm : BitVec 15) (s : State) : Out :=
  s.aluI d a imm fun a i => flag (a.slt i)
/-- `sltiu` (Table 5.4). -/
def execSltiu (d a : XIdx) (imm : BitVec 15) (s : State) : Out :=
  s.aluI d a imm fun a i => flag (a.ult i)
/-- `slli` (R107). -/
def execSlli (d a : XIdx) (sh : BitVec 6) (s : State) : Out :=
  s.alu d 4 fun p => p.getX a <<< sh.toNat
/-- `srli` (R107). -/
def execSrli (d a : XIdx) (sh : BitVec 6) (s : State) : Out :=
  s.alu d 4 fun p => p.getX a >>> sh.toNat
/-- `srai` (R107). -/
def execSrai (d a : XIdx) (sh : BitVec 6) (s : State) : Out :=
  s.alu d 4 fun p => (p.getX a).sshiftRight sh.toNat
/-- `lih` (R108). -/
def execLih (d : XIdx) (imm : BitVec 20) (s : State) : Out :=
  s.alu d 4 fun _ => imm.signExtend 64 * 4096
/-- `addpc` (R108): the pc is that of the instruction. -/
def execAddpc (d : XIdx) (imm : BitVec 20) (s : State) : Out :=
  s.alu d 4 fun p => p.pc + imm.signExtend 64 * 4096

/-! Loads and stores (R109) -/

/-- `ldb` (R109). -/
def execLdb (d a : XIdx) (off : BitVec 12) (s : State) : Out :=
  s.ldX d a (off.signExtend 64) 1 true 4
/-- `ldh` (R109). -/
def execLdh (d a : XIdx) (off : BitVec 12) (s : State) : Out :=
  s.ldX d a (off.signExtend 64) 2 true 4
/-- `ldw` (R109). -/
def execLdw (d a : XIdx) (off : BitVec 12) (s : State) : Out :=
  s.ldX d a (off.signExtend 64) 4 true 4
/-- `ldd` (R109). -/
def execLdd (d a : XIdx) (off : BitVec 12) (s : State) : Out :=
  s.ldX d a (off.signExtend 64) 8 true 4
/-- `ldbu` (R109). -/
def execLdbu (d a : XIdx) (off : BitVec 12) (s : State) : Out :=
  s.ldX d a (off.signExtend 64) 1 false 4
/-- `ldhu` (R109). -/
def execLdhu (d a : XIdx) (off : BitVec 12) (s : State) : Out :=
  s.ldX d a (off.signExtend 64) 2 false 4
/-- `ldwu` (R109). -/
def execLdwu (d a : XIdx) (off : BitVec 12) (s : State) : Out :=
  s.ldX d a (off.signExtend 64) 4 false 4
/-- `stb` (R109). -/
def execStb (b a : XIdx) (off : BitVec 12) (s : State) : Out :=
  s.stX b a (off.signExtend 64) 1 4
/-- `sth` (R109). -/
def execSth (b a : XIdx) (off : BitVec 12) (s : State) : Out :=
  s.stX b a (off.signExtend 64) 2 4
/-- `stw` (R109). -/
def execStw (b a : XIdx) (off : BitVec 12) (s : State) : Out :=
  s.stX b a (off.signExtend 64) 4 4
/-- `std` (R109). -/
def execStd (b a : XIdx) (off : BitVec 12) (s : State) : Out :=
  s.stX b a (off.signExtend 64) 8 4

/-! Branches and jumps (Table 5.5, R114) -/

/-- `beq` (Table 5.5). -/
def execBeq (a b : XIdx) (off : BitVec 15) (s : State) : Out :=
  s.branch 4 (halves off) fun p => p.getX a == p.getX b
/-- `bne` (Table 5.5). -/
def execBne (a b : XIdx) (off : BitVec 15) (s : State) : Out :=
  s.branch 4 (halves off) fun p => p.getX a != p.getX b
/-- `blt` (Table 5.5). -/
def execBlt (a b : XIdx) (off : BitVec 15) (s : State) : Out :=
  s.branch 4 (halves off) fun p => (p.getX a).slt (p.getX b)
/-- `bge` (Table 5.5). -/
def execBge (a b : XIdx) (off : BitVec 15) (s : State) : Out :=
  s.branch 4 (halves off) fun p => !(p.getX a).slt (p.getX b)
/-- `bltu` (Table 5.5). -/
def execBltu (a b : XIdx) (off : BitVec 15) (s : State) : Out :=
  s.branch 4 (halves off) fun p => (p.getX a).ult (p.getX b)
/-- `bgeu` (Table 5.5). -/
def execBgeu (a b : XIdx) (off : BitVec 15) (s : State) : Out :=
  s.branch 4 (halves off) fun p => !(p.getX a).ult (p.getX b)
/-- `jal` (R114). -/
def execJal (d : XIdx) (off : BitVec 20) (s : State) : Out :=
  s.withProc fun p => s.done ((p.setX d (p.pc + 4)).jump (p.pc + halves off))
/-- `jalr` (R114): x[A] is read before x[D] is written, and bit 0 of the target is discarded. -/
def execJalr (d a : XIdx) (imm : BitVec 15) (s : State) : Out :=
  s.withProc fun p => s.done ((p.setX d (p.pc + 4)).jump ((p.getX a + imm.signExtend 64) &&& ~~~1))

/-! System instructions (Table 5.6) -/

/-- `nop` (R117). -/
def execNop (s : State) : Out :=
  s.withProc fun p => s.done (p.advance 4)
/-- `trap` (R118). -/
def execTrap (a : XIdx) (code : BitVec 10) (s : State) : Out :=
  s.withProc fun p => s.raised p .trap 4 0 (code.setWidth 64) (p.getX a)
/-- `brk` (R119). -/
def execBrk (code : BitVec 10) (s : State) : Out :=
  s.withProc fun p => s.raised p .brk 4 0 (code.setWidth 64) 0

/-- Gives up the copies of halfwords that touch the bytes base to base + n − 1 (R124). -/
def Core.dropCopies (k : Core) (base n : Nat) : Core :=
  { k with copies := k.copies.filter fun c => !(decide (0 < n) && decide (c.1 < base + n) && decide (base < c.1 + 2)) }

/-- `ifl` (R124): it completes with the copies given up; a later fetch sees the stores that an ordinary load would see, those
that have not landed included (`State.fetchMem`). -/
def execIfl (a b : XIdx) (s : State) : Out :=
  s.withProc fun p =>
    let s := s.modCore p.core fun k => k.dropCopies (p.getX a).toNat (p.getX b).toNat
    s.done (p.advance 4)

/-! Control registers (R120–R122) -/

/-- A number in bits from `lo` up. -/
def field (lo n : Nat) : Nat := n * 2 ^ lo

/-- 1 or 0 in a bit. -/
def bit (lo : Nat) (b : Bool) : Nat := if b then 2 ^ lo else 0

/-- Privilege as a number (Table 1.5). -/
def Priv.num : Priv → Nat
  | .u => 0 | .s => 1

/-- `%gstat` of a core (Table 3.9). -/
def State.gstat (s : State) (c : Nat) : Nat :=
  field 32 (s.onCore c).length + field 16 ((s.onCore c).filter (·.loc == .park)).length +
    field 10 (s.core c).psize + (Config.greenUnits - s.greenUsed c)

/-- `%class` (Table 1.6). -/
def State.classReg (s : State) (p : Proc) : Nat :=
  bit 9 p.dem + bit 8 p.inh + field 4 (s.effCeil p.region) + field 2 p.base + p.eff

/-- `%nistat` of a core (Table 17.11). -/
def State.nistat (s : State) (c : Nat) : Nat := field 32 (s.parkFree c / 64) + s.entriesOn c

/-- Numbers of the remote writes of a core that have not been delivered (R249): writes under way or in a reservation queue, and
the writes that a `ste` and an `amo.*` make when they are served. -/
def State.undelivered (s : State) (core : Nat) : List Nat :=
  ((s.packets.filter fun q => q.core == core && q.path != .own && (match q.payload with
      | .write _ | .apWrite _ _ _ | .feRange _ _ _ | .rls _ _ _ | .sync _ _ (.ste _) | .rsv _ _ (.amo _ _ _) => true
      | _ => false)).map (·.seq) ++
    ((s.watches.filterMap (·.rem) ++ s.rsvs.filterMap (·.rem)).filter (·.1 == core)).map (·.2)).eraseDups

/-- Remote writes of a core that are not delivered (R257). -/
def State.remoteWaiting (s : State) (core : Nat) : Nat := (s.undelivered core).length

/-- `%memst` (Table 13.12). -/
def State.memst (s : State) (p : Proc) : Nat :=
  field 32 (min (s.packets.filter fun q => q.pid == p.pid && q.kind == .nt).length 0xFFFF) +
    field 16 (min (s.remoteWaiting p.core) 0xFFFF) + min p.rsvs.length 0xFF

/-- `%msreq` (Table 15.6). OWN is at most 64, as the table gives it, also for a process that migrated with requests under way
(log 47). -/
def State.msreq (s : State) (p : Proc) : Nat :=
  field 16 (s.requests.filter fun q => q.core == p.core).length +
    min (s.requests.filter fun q => q.pid == p.pid).length 64

/-- `%tstat` (Table 11.8). -/
def Proc.tstat (p : Proc) : Nat := field 8 p.uncl + p.mq.length

/-- `%pkgcfg` (Table 0.4). -/
def Pkg.cfg (k : Pkg) : Nat :=
  field 44 k.step.toNat + field 40 k.part.code.toNat + field 24 k.edgeMask.toNat + field 8 k.stackMask.toNat + k.dieMask.toNat

/-- Depth of a region. -/
def State.depthOf (s : State) (n : Nat) : Nat :=
  match s.region? n with
  | some r => r.depth
  | none => 0

/-- ReadCsr (R120). -/
def State.readCsr (s : State) (p : Proc) : Csr → Word
  | .pid => BitVec.ofNat 64 p.pid
  | .region => BitVec.ofNat 64 (field 19 p.priv.num + field 16 (s.depthOf p.region) + p.region)
  | .cls => BitVec.ofNat 64 (s.classReg p)
  | .period => BitVec.ofNat 64 p.period
  | .deadline => p.deadline
  | .budget => p.budget
  | .quantum => (s.core p.core).quantum.setWidth 64
  | .time => s.timeWord
  | .cycle => BitVec.ofNat 64 (s.cycleOf p.core)
  | .fpmode => p.fpmode.setWidth 64
  | .fpflags => p.fpflags.setWidth 64
  | .coord => s.coord p.core
  | .pkgcfg => BitVec.ofNat 64 s.pkg.cfg
  | .gstat => BitVec.ofNat 64 (s.gstat p.core)
  | .tstat => BitVec.ofNat 64 p.tstat
  | .nistat => BitVec.ofNat 64 (s.nistat p.core)
  | .probe => (s.core p.core).probe.setWidth 64
  | .memst => BitVec.ofNat 64 (s.memst p)
  | .msreq => BitVec.ofNat 64 (s.msreq p)

/-- The CSRs that a process may write (Table 3.8). -/
def csrWritable : Csr → Bool
  | .fpmode | .fpflags => true
  | _ => false

/-- WriteCsr (R120): RW fields take the new bits, RZ fields stay zero (Tables 7.5, 7.6). -/
def Proc.writeCsr (p : Proc) (c : Csr) (v : Word) : Proc :=
  match c with
  | .fpmode => { p with fpmode := v.setWidth 9 &&& 0x1F3 }
  | .fpflags => { p with fpflags := v.setWidth 5 }
  | _ => p

/-- `csrr` (R120). -/
def execCsrr (d : XIdx) (c : Csr) (s : State) : Out := s.alu d 4 fun p => s.readCsr p c

/-- A write form (R120, R121): PRIVILEGE where the Write column does not allow it; x[D] takes the value after it. -/
def State.csrWrite (s : State) (d : XIdx) (c : Csr) (f : Proc → Word → Word) : Out :=
  s.withProc fun p =>
    if csrWritable c then
      let q := p.writeCsr c (f p (s.readCsr p c))
      s.done ((q.setX d (s.readCsr q c)).advance 4)
    else s.raisedOpen p .privilege 4

/-- `csrw` (R120). -/
def execCsrw (c : Csr) (a : XIdx) (s : State) : Out := s.csrWrite 0 c fun p _ => p.getX a
/-- `csrs` (R120). -/
def execCsrs (d : XIdx) (c : Csr) (a : XIdx) (s : State) : Out := s.csrWrite d c fun p old => old ||| p.getX a
/-- `csrc` (R120). -/
def execCsrc (d : XIdx) (c : Csr) (a : XIdx) (s : State) : Out := s.csrWrite d c fun p old => old &&& ~~~p.getX a

/-! Compact forms (Table 3.6): the effect of the 32-bit equivalent, two bytes long -/

/-- `c.addi` (Table 3.6). -/
def execCAddi (d : XIdx) (imm : BitVec 6) (s : State) : Out :=
  s.alu d 2 fun p => p.getX d + imm.signExtend 64
/-- `c.li` (Table 3.6). -/
def execCLi (d : XIdx) (imm : BitVec 6) (s : State) : Out :=
  s.alu d 2 fun _ => imm.signExtend 64
/-- `c.mv` (Table 3.6). -/
def execCMv (d a : XIdx) (s : State) : Out :=
  s.alu d 2 fun p => p.getX a
/-- `c.add` (Table 3.6). -/
def execCAdd (d a : XIdx) (s : State) : Out :=
  s.aluR d d a 2 fun x y => x + y
/-- `c.sub` (Table 3.6). -/
def execCSub (d a : XIdx) (s : State) : Out :=
  s.aluR d d a 2 fun x y => x - y
/-- `c.and` (Table 3.6). -/
def execCAnd (d a : XIdx) (s : State) : Out :=
  s.aluR d d a 2 fun x y => x &&& y
/-- `c.or` (Table 3.6). -/
def execCOr (d a : XIdx) (s : State) : Out :=
  s.aluR d d a 2 fun x y => x ||| y
/-- `c.xor` (Table 3.6). -/
def execCXor (d a : XIdx) (s : State) : Out :=
  s.aluR d d a 2 fun x y => x ^^^ y
/-- `c.slli` (Table 3.6). -/
def execCSlli (d : XIdx) (sh : BitVec 6) (s : State) : Out :=
  s.alu d 2 fun p => p.getX d <<< sh.toNat
/-- `c.srli` (Table 3.6). -/
def execCSrli (d : XIdx) (sh : BitVec 6) (s : State) : Out :=
  s.alu d 2 fun p => p.getX d >>> sh.toNat
/-- `c.ldd` (Table 3.6). -/
def execCLdd (d a : BitVec 3) (off : BitVec 5) (s : State) : Out :=
  s.ldX (short d) (short a) (off.setWidth 64 * 8) 8 true 2
/-- `c.std` (Table 3.6). -/
def execCStd (b a : BitVec 3) (off : BitVec 5) (s : State) : Out :=
  s.stX (short b) (short a) (off.setWidth 64 * 8) 8 2
/-- `c.ldw` (Table 3.6). -/
def execCLdw (d a : BitVec 3) (off : BitVec 5) (s : State) : Out :=
  s.ldX (short d) (short a) (off.setWidth 64 * 4) 4 true 2
/-- `c.stw` (Table 3.6). -/
def execCStw (b a : BitVec 3) (off : BitVec 5) (s : State) : Out :=
  s.stX (short b) (short a) (off.setWidth 64 * 4) 4 2
/-- `c.beqz` (Table 3.6). -/
def execCBeqz (a : BitVec 3) (off : BitVec 8) (s : State) : Out :=
  s.branch 2 (halves off) fun p => p.getX (short a) == 0
/-- `c.bnez` (Table 3.6). -/
def execCBnez (a : BitVec 3) (off : BitVec 8) (s : State) : Out :=
  s.branch 2 (halves off) fun p => p.getX (short a) != 0
/-- `c.j` (Table 3.6). -/
def execCJ (off : BitVec 11) (s : State) : Out :=
  s.branch 2 (halves off) fun _ => true
/-- `c.nop` (Table 3.6). -/
def execCNop (s : State) : Out :=
  s.withProc fun p => s.done (p.advance 2)

/-! Fetches that give no instruction -/

/-- UNALLOCATED_ENCODING (R67, R70): ILLEGAL with the reason of Table 3.5 and the instruction's bits. -/
def execUnallocatedEncoding (s : State) : Out :=
  s.withProc fun p =>
    match s.subj with
    | .encoding w r => s.raised p .illegal (if w.getLsbD 0 then 4 else 2) 0 (r.setWidth 64) (w.setWidth 64)
    | _ => .next s

/-- FETCH_WINDOW (R60): WINDOW with ADDR the halfword that failed. The length is known unless it is the first (R59). -/
def execFetchWindow (s : State) : Out :=
  s.withProc fun p =>
    match s.subj with
    | .fetch a => .next (s.raise p .window (if a = p.pc then none else some 4) a 2 4)
    | _ => .next s

end Sys2Proof.Machine
end

