-- ==== Sys2Proof/Machine/Sync.lean ====
section
/-! DEFINITION. Full/empty, wait, acquire, release, non-temporal, reservation and fence instructions (13). -/

namespace Sys2Proof.Machine

/-- Bytes of a width (Table 3.2). -/
def bytesOf : Width → Nat
  | .b => 1 | .h => 2 | .w => 4 | .d => 8

/-- The process has an access of its own to an overlapping range that has not been performed (R111), other than one that
waits for a reservation of the process itself (R250). -/
def State.overlaps (s : State) (p : Proc) (a : Word) (n : Nat) : Bool :=
  s.packets.any fun q => q.core == p.core && q.counted && q.kind != .tst && decide (q.used < a.toNat + n) &&
    decide (a.toNat < q.used + q.n) && !(q.queued && s.holds p.pid (wordAt (payloadAddr q.payload)))

/-- The checks of a full/empty, wait or reservation instruction (R253): the aperture is no place for one. -/
def State.syncCheck (s : State) (p : Proc) (a : Word) (perm : Perm) (k : Word) : Option (Cause × Word × Word) :=
  match s.target p.core a.toNat with
  | .aperture _ _ => if a.toNat % 8 ≠ 0 then some (.misalign, 8, k) else some (.window, 8, 5)
  | _ => s.check p a 8 perm k

/-- `ldaq` (R246). -/
def execLdaq (sz : Width) (d a : XIdx) (s : State) : Out :=
  s.withProc fun p => s.load p d (p.getX a) (bytesOf sz) false 4 .acq

/-- `strl` (R246): a release waits for the accesses it is ordered after (R238 row 3); in the aperture it is none (R240). -/
def execStrl (sz : Width) (b a : XIdx) (s : State) : Out :=
  s.withProc fun p =>
    if (s.check p (p.getX a) (bytesOf sz) .wr 1).isNone && !(s.target p.core (p.getX a).toNat).inAperture && s.releaseStalls p
    then s.stall p
    else s.storeInstr p (p.getX a) (bytesOf sz) (p.getX b) 4 .rel

/-- The core counts one more remote write, where the target is remote (R249). -/
def State.countRemote (s : State) (core : Nat) (t : Target) : State :=
  if t.remote then s.modCore core fun k => { k with remote := k.remote + 1 } else s

/-- A full/empty or wait instruction that waits until its test succeeds (R243). In the own memory the test is made at once;
at another home it is made by the request that is sent. -/
def State.syncInstr (s : State) (d a : XIdx) (mk : Proc → SyncOp) (perm : Perm) (release : Bool) : Out :=
  s.withProc fun p =>
    let ea := p.getX a
    let op := mk p
    match s.syncCheck p ea perm op.kind with
    | some (c, d0, d1) => s.raised p c 4 ea d0 d1
    | none =>
      let t := s.target p.core ea.toNat
      if s.heldBack p.core t || s.overlaps p ea 8 || (release && s.orderPending p.pid) then s.stall p else
      match t with
      | .own h =>
        if !op.writes && s.granuleBad h then s.raised p .memerr 4 ea 8 op.kind
        else if op.test (s.word h) (s.isFull h) && !(op.writes && s.queued h) then
          let q := (p.setX d (s.word h)).advance 4
          ({ (s.doSync h op) with cpu := some q }.serveWatches (homeOf h)).done q
        else .next ((s.block p .sync (.sync h op d)).syncAt { addr := h, pid := p.pid, op := op, used := ea })
      | t =>
        let s := if op.writes then s.countRemote p.core t else s
        let s := s.dispatchPacket p ea 8 t (if release then .rel else .acq) fun h => .sync h p.pid op
        let h := match t with
          | .mesh h | .fabric _ h => h
          | _ => 0
        .next (s.block p .sync (.sync h op d))

/-- `ldf` (R243). -/
def execLdf (d a : XIdx) (s : State) : Out := s.syncInstr d a (fun _ => .ldf) .rd false
/-- `lde` (R243). -/
def execLde (d a : XIdx) (s : State) : Out := s.syncInstr d a (fun _ => .lde) .rw false
/-- `ste` (R243). -/
def execSte (b a : XIdx) (s : State) : Out := s.syncInstr 0 a (fun p => .ste (p.getX b)) .rw true
/-- `waitw` (R243). -/
def execWaitw (d a b : XIdx) (s : State) : Out := s.syncInstr d a (fun p => .waitw (p.getX b)) .rd false
/-- `waitc` (R243). -/
def execWaitc (d a b : XIdx) (s : State) : Out := s.syncInstr d a (fun p => .waitc (p.getX b)) .rd false

/-- `stf` (R243): a store that sets the word full; a release. -/
def execStf (b a : XIdx) (s : State) : Out :=
  s.withProc fun p =>
    let ea := p.getX a
    match s.syncCheck p ea .wr 1 with
    | some (c, d0, d1) => s.raised p c 4 ea d0 d1
    | none =>
      let t := s.target p.core ea.toNat
      if s.heldBack p.core t || s.releaseStalls p then s.stall p
      else ({ s with cpu := some p }.store p ea 8 t .rel (p.getX b).toNat (some true) false).done (p.advance 4)

/-- The first word of a range that a permission fails for (R244, R253). -/
def State.firstBadWord (s : State) (p : Proc) (a : Word) (n : Nat) : Option (Word × Word) :=
  ((List.range (n / 8)).map fun i => a + BitVec.ofNat 64 (8 * i)).findSome? fun w =>
    match s.syncCheck p w .wr 1 with
    | some (_, _, d1) => some (w, d1)
    | none => none

/-- `fefill` and `feclr` (R243, R244). -/
def State.feInstr (s : State) (a b : XIdx) (full : Bool) : Out :=
  s.withProc fun p =>
    let ea := p.getX a
    let n := (p.getX b).toNat
    if ea.toNat % 8 ≠ 0 ∨ n % 8 ≠ 0 then s.raised p .misalign 4 ea 8 1
    else if 65536 < n then s.raised p .window 4 ea (p.getX b) 1
    else if n = 0 then s.done (p.advance 4)
    else match s.firstBadWord p ea n with
      | some (w, d1) => s.raised p .window 4 w 8 d1
      | none =>
        let t := s.target p.core ea.toNat
        if s.heldBack p.core t then s.stall p else
        ({ s.countRemote p.core t with cpu := some p }.dispatchPacket p ea n t .ord fun h => .feRange h n full).done (p.advance 4)

/-- `fefill` (R243). -/
def execFefill (a b : XIdx) (s : State) : Out := s.feInstr a b true
/-- `feclr` (R243). -/
def execFeclr (a b : XIdx) (s : State) : Out := s.feInstr a b false

/-- `st.nt` (R247): the checks and details of `std`, outside ordering. -/
def execStNt (b a : XIdx) (s : State) : Out :=
  s.withProc fun p => s.storeInstr p (p.getX a) 8 (p.getX b) 4 .nt

/-- `st.nt` stores of a process that have not landed. -/
def State.ntPending (s : State) (pid : Nat) : Bool := s.packets.any fun q => q.pid == pid && q.kind == .nt

/-- An instruction that completes when a condition holds: at once, or by an event of its own while the process runs. -/
def State.waitFor (s : State) (p : Proc) (ok : Bool) (w : Wait) : Out :=
  if ok then (s.clearEarly p.core).done (p.advance 4) else s.done { p with wait := w }

/-- `drain.nt` (R247). -/
def execDrainNt (s : State) : Out := s.withProc fun p => s.waitFor p (!s.ntPending p.pid) .drain

/-- The home of an access lies in a scope for its core (Table 13.6). -/
def inScope (q : Packet) (sc : Scope) : Bool :=
  match q.path with
  | .own => true
  | .mesh =>
    let a := payloadAddr q.payload
    match sc with
    | .core => homeOf a == q.core
    | .cl => !isLoft a && clusOf (homeCore a) == clusOf q.core
    | _ => true
  | .fabric => sc == .pkg || sc == .sys
  | .aperture => sc == .sys

/-- Every earlier access of a process in a scope has been performed (R248). -/
def State.fenced (s : State) (pid : Nat) (sc : Scope) : Bool :=
  !s.packets.any fun q => q.pid == pid && q.counted && inScope q sc

/-- `fence` (R248). -/
def execFence (sc : Scope) (s : State) : Out := s.withProc fun p => s.waitFor p (s.fenced p.pid sc) (.fence sc)

/-- `cfence.i` (R249). -/
def execCfenceI (d : XIdx) (s : State) : Out :=
  s.alu d 4 fun p => BitVec.ofNat 64 (p.core * 2 ^ 51 + (s.core p.core).remote % 2 ^ 51)

/-- Every remote write of a core numbered below a count has been delivered (R249). -/
def State.delivered (s : State) (core q : Nat) : Bool := (s.undelivered core).all fun k => decide (q ≤ k)

/-- `cfence.w` (R249): a token of another core completes at once. -/
def execCfenceW (a : XIdx) (s : State) : Out :=
  s.withProc fun p =>
    let t := (p.getX a).toNat
    let q := min (t % 2 ^ 51) ((s.core p.core).remote % 2 ^ 51)
    if t / 2 ^ 51 ≠ p.core ∨ s.delivered p.core q = true then s.done (p.advance 4)
    else s.done { p with wait := .cfence q }

/-! Reservations (R250–R252) -/

/-- The common part of the reservation instructions: checks of R253, then what is done at the own memory or sent. `writes`
says that it makes a remote write at another home (R249). -/
def State.rsvInstr (s : State) (a : XIdx) (stalls : State → Proc → Bool) (kind : AKind) (writes : Bool)
    (own : Proc → Nat → State → Out) (far : Proc → Nat → Payload) (blocks : Nat → Option Wait) : Out :=
  s.withProc fun p =>
    let ea := p.getX a
    match s.syncCheck p ea .rw 2 with
    | some (c, d0, d1) => s.raised p c 4 ea d0 d1
    | none =>
      let t := s.target p.core ea.toNat
      if s.heldBack p.core t || s.overlaps p ea 8 || stalls s p then s.stall p else
      match t with
      | .own h => own p h s
      | t =>
        let h := match t with
          | .mesh h | .fabric _ h => h
          | _ => 0
        let s := if writes then s.countRemote p.core t else s
        let s := s.dispatchPacket p ea 8 t kind fun h => far p h
        match blocks h with
        | some w => .next (s.block p .sync w)
        | none => s.done (p.advance 4)

/-- A request of the process for a word of its own memory cannot be granted at once (R250). -/
def State.mustQueue (s : State) (h : Nat) : Bool := s.queued h || !s.entryFree h

/-- `rsv` (R251): of a word that is held or free it completes at once; else it waits. -/
def execRsv (d a : XIdx) (s : State) : Out :=
  s.rsvInstr a (fun _ _ => false) .acq false
    (fun p h s =>
      if !s.holds p.pid h && s.mustQueue h then
        .next ((s.block p .sync (.rsv h d)).rsvAt { addr := h, pid := p.pid, k := .rsv, used := p.getX a })
      else if s.granuleBad h then s.raised p .memerr 4 (p.getX a) 8 2
      else if s.holds p.pid h then s.done ((p.setX d (s.word h)).advance 4)
      else
        let r : RsvReq := { addr := h, pid := p.pid, k := .rsv, granted := true, entry := true }
        { s with rsvs := s.rsvs ++ [r] }.done (({ p with rsvs := p.rsvs ++ [h] }.setX d (s.word h)).advance 4))
    (fun p h => .rsv h p.pid .rsv) (fun h => some (.rsv h d))

/-- `rls` (R251): a release of what is held and a write to a free word are made at once; one that must wait for a queue, or
for writes of the process that wait for its own reservations, is an access that lands in its turn. -/
def execRls (a b : XIdx) (s : State) : Out :=
  s.rsvInstr a State.releaseStalls .rel true
    (fun p h s =>
      if s.orderPending p.pid || (s.queued h && !s.holds p.pid h) then
        ({ s with cpu := some p }.dispatchPacket p (p.getX a) 8 (.own h) .rel fun h => .rls h p.pid (p.getX b)).done (p.advance 4)
      else
        let s := { s with cpu := some (p.advance 4) }
        if s.holds p.pid h then .next (s.release p.pid h (some (p.getX b)))
        else .next (s.applyWrite { addr := h, n := 8, val := (p.getX b).toNat, fe := none }))
    (fun p h => .rls h p.pid (p.getX b)) (fun _ => none)

/-- `amo.*` (R252): with an empty queue in the own memory, grant, release and result are one step. -/
def State.amo (s : State) (op : AmoOp) (rlx : Bool) (d a b : XIdx) : Out :=
  s.rsvInstr a (fun s p => !rlx && s.orderPending p.pid) (if rlx then .ord else .rel) true
    (fun p h s =>
      if s.mustQueue h then
        .next ((s.block p .sync (.amo h d)).rsvAt
          { addr := h, pid := p.pid, k := .amo op (p.getX b) (p.getX d), used := p.getX a })
      else if s.granuleBad h then s.raised p .memerr 4 (p.getX a) 8 2
      else
        let old := s.word h
        let e : WriteEff := { addr := h, n := 8, val := (op.apply old (p.getX b) (p.getX d)).toNat, fe := none }
        .next ({ s with cpu := some ((p.setX d old).advance 4) }.applyWrite e))
    (fun p h => .rsv h p.pid (.amo op (p.getX b) (p.getX d))) (fun h => some (.amo h d))

/-- `amo.add` (Table 13.10). -/
def execAmoAdd (rlx : Bool) (d a b : XIdx) (s : State) : Out := s.amo .add rlx d a b
/-- `amo.and` (Table 13.10). -/
def execAmoAnd (rlx : Bool) (d a b : XIdx) (s : State) : Out := s.amo .and rlx d a b
/-- `amo.or` (Table 13.10). -/
def execAmoOr (rlx : Bool) (d a b : XIdx) (s : State) : Out := s.amo .or rlx d a b
/-- `amo.xor` (Table 13.10). -/
def execAmoXor (rlx : Bool) (d a b : XIdx) (s : State) : Out := s.amo .xor rlx d a b
/-- `amo.min` (Table 13.10). -/
def execAmoMin (rlx : Bool) (d a b : XIdx) (s : State) : Out := s.amo .min rlx d a b
/-- `amo.max` (Table 13.10). -/
def execAmoMax (rlx : Bool) (d a b : XIdx) (s : State) : Out := s.amo .max rlx d a b
/-- `amo.minu` (Table 13.10). -/
def execAmoMinu (rlx : Bool) (d a b : XIdx) (s : State) : Out := s.amo .minu rlx d a b
/-- `amo.maxu` (Table 13.10). -/
def execAmoMaxu (rlx : Bool) (d a b : XIdx) (s : State) : Out := s.amo .maxu rlx d a b
/-- `amo.swap` (Table 13.10). -/
def execAmoSwap (rlx : Bool) (d a b : XIdx) (s : State) : Out := s.amo .swap rlx d a b
/-- `amo.cas` (Table 13.10). -/
def execAmoCas (rlx : Bool) (d a b : XIdx) (s : State) : Out := s.amo .cas rlx d a b

end Sys2Proof.Machine
end

