-- ==== Sys2Proof/Machine/Anchors.lean ====
section
/-! DEFINITION. Channel instructions that move no message, as events at the anchor (R283): close, bind, unbind, status and
the test of a guard, with the answers that travel back (R321). -/

namespace Sys2Proof.Machine

/-- Parked contexts and slots of a core lie in its park area (R27, R285). -/
def State.parkOk (s : State) (c : Nat) : Bool := decide (s.slotsOn c + s.parkedBytes c ≤ (s.core c).park)

/-! Status (Table 17.8) -/

/-- Codes of end states (Table 17.2). -/
def EndState.code : EndState → Nat
  | .idle => 0 | .bound => 1 | .inTransit => 2 | .closed => 3 | .error => 4

/-- Table 17.8. -/
def State.chanStatus (s : State) (c : Channel) (tx : Bool) : Nat :=
  let e := c.fin tx
  field 32 (if e.st = .idle then 0 else e.pid.getD 0) + bit 31 c.buf + field 28 c.kind.code + field 24 c.words +
    field 16 (min c.depth 255) + field 8 (min c.queue.length 255) + bit 3 (if tx then s.txReady c else s.rxReady c) + e.st.code

/-! Bind and unbind (R312) -/

/-- The status of a `chbind` by a process (Table 17.9). -/
def State.bindStatus (s : State) (p : Proc) (c : Channel) (tx : Bool) (target : Option Proc) : Nat :=
  if (c.fin tx).st ≠ .idle then 1
  else match target with
    | none => 2
    | some q =>
      let r : HandleRef := ⟨c.name, tx, c.kind.code⟩
      let bound := s.putChan (c.setFin tx { st := .bound, holder := .proc q.pid })
      if q.st = .exited ∨ s.inSubtree c.region q.region = false ∨ s.inSubtree p.region c.region = false then 2
      else if q.placed && q.cores.any (fun k => !(s.entriesOn k + 1 ≤ Config.bindingEntries)) then 3
      else if q.placed && q.cores.any (fun k => !bound.parkOk k) then 4
      else if (s.heldEnd q.pid r).isSome then 5
      else 0

/-- An end takes its holder; a process that waits at the other end lends to it (R45). -/
def State.bindTo (s : State) (c : Channel) (tx : Bool) (target : Nat) : State :=
  let c' := c.setFin tx { st := .bound, holder := .proc target }
  ((((s.skipProbes c.table c.name).putChan c').settle c.table c.name).lendOn c.table c.name)

/-- The holder of an end waits in a channel instruction on it that has not been matched, or in a tile transfer. -/
def State.waitsOn (s : State) (c : Channel) (tx : Bool) : Option (Proc × ChanWait) :=
  match (c.fin tx).pid.bind s.proc? with
  | none => none
  | some p =>
    match p.wait with
    | .chan w =>
      if p.isBlocked && w.table == c.table && w.name == c.name && tx == (w.op == .send || w.op == .sendt) &&
          w.moving.all (fun id => s.transfers.any (·.id == id)) then some (p, w)
      else none
    | _ => none

/-- The status of a `chunb` by a process (Table 17.9). -/
def State.unbindStatus (s : State) (p : Proc) (c : Channel) (tx : Bool) : Nat :=
  let e := c.fin tx
  if e.st = .idle then 1 else if e.st = .inTransit ∨ s.inSubtree p.region c.region = false then 2 else 0

/-- An end becomes IDLE (R312). -/
def State.unbind (s : State) (c : Channel) (tx : Bool) : State :=
  let s := match s.waitsOn c tx with
    | some (q, w) => s.failWait c q w .chBind 4
    | none => s
  let c := c.setFin tx {}
  (s.putChan (if tx then c else c.discard)).settle c.table c.name

/-! Events at the anchor (R283) -/

/-- What an instruction of a process that moves no message answers at the anchor of a channel. -/
def State.ctlValue (s : State) (p : Proc) (c : Channel) (tx : Bool) (op : ChanCtl) : Nat :=
  match op with
  | .close => 0
  | .bind t => s.bindStatus p c tx (s.proc? t)
  | .unbind => s.unbindStatus p c tx
  | .status => s.chanStatus c tx
  | .test i => 2 * i + (if (if tx then s.txReady c else s.rxReady c) then 1 else 0)

/-- What it does there, when its status is 0. A close is that of the end's holder, which may have ended (R32). -/
def State.ctlEffect (s : State) (p : Proc) (c : Channel) (tx : Bool) (op : ChanCtl) (v : Nat) : State :=
  match op with
  | .close =>
    if (c.fin tx).holder ≠ .proc p.pid then s
    else if p.st = .exited then s.closeOwn c.table c.name tx else s.closeEnd c.table c.name tx
  | .bind t => if v = 0 then s.bindTo c tx t else s
  | .unbind => if v = 0 then s.unbind c tx else s
  | .status | .test _ => s

/-- Sends a packet of a process to an anchor: by the mesh on its die, stamped to another. -/
def State.sendAnchor (s : State) (p : Proc) (place id : Nat) (pl : Payload) : State :=
  let d := placeDie place
  let path : Path := if d = dieOf p.core then .mesh else .fabric
  ({ s with packets := s.packets ++ [p.packet id 0 0 d path .ord pl 0] } : State).stampAll (dieOf p.core)

/-- An event waits while a migration moves the receiving end (R51, R283); an event that names that very end finds it
IN_TRANSIT. -/
def Channel.holds (c : Channel) (tx : Bool) : Bool := tx && c.rx.mig

/-- An instruction of the running process that moves no message acts at the anchor: at once on its own core; else it waits for
the answer of the anchor (log 58). -/
def State.ask (s : State) (p : Proc) (c : Channel) (tx : Bool) (op : ChanCtl) (d : XIdx) : Out :=
  let place := s.anchorPlace c
  if c.holds tx then s.stall p
  else if place = p.core then
    let v := s.ctlValue p c tx op
    .next (({ s with cpu := some ((p.setX d (BitVec.ofNat 64 v)).advance 4) } : State).ctlEffect p c tx op v)
  else
    let (id, s) := s.freshId
    .next (({ s with cpu := some { p with wait := .anchor id d } } : State).sendAnchor p place id
      (.ctl p.pid c.table c.name tx op))

/-- A `chcl` of an end that a migration moves waits for the move (R310). -/
def State.closeLater (s : State) (c : Channel) (tx : Bool) : Out :=
  .next (s.putChan (c.setFin tx { c.fin tx with closing := true }))

/-! Alternation (R296) -/

/-- The guards of a process that are tested on another die: index, channel and whether it is the sending end. -/
def State.farGuards (s : State) (p : Proc) : List (Nat × Channel × Bool) :=
  p.guards.toList.zipIdx.filterMap fun g =>
    match g.1 with
    | some h =>
      if s.guardDie p h = dieOf p.core then none
      else match h with
        | .rx t n => (s.chan? t n).map fun c => (g.2, c, false)
        | .tx t n => (s.chan? t n).map fun c => (g.2, c, true)
        | _ => none
    | none => none

/-- The lowest guard that is ready: one tested on the process's die, or one that another die has found ready. -/
def State.readyGuard (s : State) (p : Proc) (hit : List Nat) : Option Nat :=
  p.guards.toList.zipIdx.findSome? fun g =>
    match g.1 with
    | some h =>
      if hit.contains g.2 || (s.guardDie p h == dieOf p.core && s.guardReady h) then some g.2 else none
    | none => none

/-- The evaluation of `alt.wait` when every guard has been tested: the index, or the process blocks (R296). -/
def State.altDone (s : State) (p : Proc) (d : XIdx) (hit : List Nat) : State :=
  match s.readyGuard p hit with
  | some i => (s.clearEarly p.core).putProc ((p.setX d (BitVec.ofNat 64 i)).advance 4)
  | none => (s.block p .alt .alt).wakeAlts

/-- `alt.wait` asks the anchors on other dies for the readiness of their guards (R295, R321). -/
def State.askGuards (s : State) (p : Proc) (d : XIdx) : State :=
  let far := s.farGuards p
  let ids := (List.range far.length).map (s.nextId + ·)
  let s := { s with nextId := s.nextId + far.length, cpu := some { p with wait := .altTest d ids [] } }
  (far.zip ids).foldl (fun (t : State) x =>
    t.sendAnchor p (t.anchorPlace x.1.2.1) x.2 (.ctl p.pid x.1.2.1.table x.1.2.1.name x.1.2.2 (.test x.1.1))) s

/-! Answers -/

/-- The answer of an anchor on a die reaches its process; none says that the die is in a core-domain reset (R337). -/
def State.takeTold (s : State) (die pid ask : Nat) (v : Option Word) : State :=
  match s.proc? pid with
  | none => s
  | some p =>
    if p.st ≠ .running then s
    else match p.wait, v with
      | .anchor id d, some x => if id = ask then s.putProc ((p.setX d x).advance 4) else s
      | .altTest d left hit, some x =>
        if left.contains ask then
          let left := left.filter (· != ask)
          let hit := if x.getLsbD 0 then x.toNat / 2 :: hit else hit
          if left.isEmpty then s.altDone p d hit else s.putProc { p with wait := .altTest d left hit }
        else s
      | .anchor id _, none => if id = ask then s.raise p .link (some 4) 0 (BitVec.ofNat 64 die) 1 else s
      | .altTest _ left _, none => if left.contains ask then s.raise p .link (some 4) 0 (BitVec.ofNat 64 die) 1 else s
      | _, _ => s

/-- An answer sets out from a die: within it at once, to another in a stamped packet. -/
def State.tellAsker (s : State) (die pid ask : Nat) (v : Option Word) : State :=
  match s.proc? pid with
  | none => s
  | some p =>
    if dieOf p.core = die then s.takeTold die pid ask v
    else
      let (id, s) := s.freshId
      { s with packets := s.packets ++ [p.notice id die (.told pid ask v)] }

/-- A channel instruction that moves no message waits where it has arrived: a migration moves the receiving end (R283). -/
def State.ctlHeld (s : State) (pl : Payload) : Bool :=
  match pl with
  | .ctl _ t n tx _ => (s.chan? t n).any (·.holds tx)
  | _ => false

/-- A channel instruction that moves no message reaches the die of the anchor. While the receiving end is IN_TRANSIT it waits;
an anchor that has moved to another die meanwhile is reached by a further packet (R283, R321). -/
def State.ctlArrives (s : State) (q : Packet) (table name : Nat) (tx : Bool) (op : ChanCtl) : State :=
  if (s.die q.dst).coreReset then s.tellAsker q.dst q.pid q.id none
  else match s.proc? q.pid, s.chan? table name with
    | some p, some c =>
      let die := placeDie (s.anchorPlace c)
      if c.holds tx then { s with packets := s.packets ++ [{ q with src := q.dst, path := .mesh, stamp := none, held := false }] }
      else if die ≠ q.dst ∧ s.diePresent die = true then
        ({ s with packets := s.packets ++
            [{ q with src := q.dst, dst := die, path := .fabric, stamp := none, held := false, refused := none }] } : State).stampAll q.dst
      else
      let v := s.ctlValue p c tx op
      (s.ctlEffect p c tx op v).tellAsker q.dst q.pid q.id (some (BitVec.ofNat 64 v))
    | _, _ => s.tellAsker q.dst q.pid q.id (some 2)

/-- The end of a wait reaches its process (R283, R321). -/
def State.takeEnd (s : State) (id pid : Nat) (d : Done) : State :=
  match s.proc? pid with
  | some p =>
    match p.wait with
    | .chan w => if w.moving = some id then s.wake pid (some d) else s
    | _ => s
  | none => s

/-- A send or receive that reaches a die in a core-domain reset ends with LINK (R337). -/
def State.chanRefused (s : State) (q : Packet) : State :=
  match s.proc? q.pid with
  | some p =>
    match p.wait with
    | .chan w =>
      let (id, s) := s.freshId
      let s := s.putProc { p with wait := .chan { w with moving := some id } }
      { s with packets := s.packets ++
          [p.notice id q.dst (.chanDone p.pid (.cause .link 0 (BitVec.ofNat 64 q.dst) 1))] }
    | _ => s
  | none => s

/-- A report that a guard is ready reaches its process (R296). -/
def State.takeReport (s : State) (pid : Nat) : State :=
  match s.proc? pid with
  | some p => if p.isBlocked && p.wait == .alt then s.wake pid none else s
  | none => s

/-- A packet between an anchor and a process is lost with a die (R334): what waited for it asks again. -/
def State.loseTold (s : State) (pid ask : Nat) : State :=
  s.modProc pid fun p =>
    match p.wait with
    | .anchor id _ => if id = ask then { p with wait := .stall } else p
    | .altTest _ left _ => if left.contains ask then { p with wait := .stall } else p
    | .chan w => if w.moving = some ask then { p with wait := .chan { w with moving := none } } else p
    | _ => p

end Sys2Proof.Machine
end

