-- ==== Sys2Proof/Machine/Landing.lean ====
section
/-! DEFINITION. Accepted accesses as they take effect at their homes (R111, R233), replies, and the waits that end when
accesses have been performed (R247–R249, R252). -/

namespace Sys2Proof.Machine

/-! What a row without bits concerns -/

/-- The number that a subject names. -/
def Subject.num : Subject → Nat
  | .id n => n
  | .pair a _ => a
  | .stream p _ => p
  | .moves n _ => n
  | .resend n _ _ => n
  | .answer n _ => n
  | _ => 0

/-- The second number. -/
def Subject.second : Subject → Nat
  | .pair _ b => b
  | _ => 0

/-- Performs an event on the packet that it names when a condition holds; where the packet does not exist, waits in a
reservation queue, or the condition fails, the event does not occur. -/
def State.onPacket (s : State) (ok : Packet → Bool) (f : Packet → State → State) : Out :=
  match s.packet? (Subject.num s.subj) with
  | some q => if !q.queued && ok q then .next (f q (s.dropPacket q.id)) else .next s
  | none => .next s

/-! Order of landing -/

/-- An access waits for an earlier one of its core to the same bytes (R111, R165, R216, R247). A pushed element waits for an
earlier ordinary store, since from its `sstop` on it stands behind that store (log 51). -/
def landsAfter (p q : Packet) : Bool :=
  match p.kind, q.kind with
  | .nt, _ | _, .nt | .reply, _ | _, .reply => false
  | .push _, .push _ => true
  | .push _, _ => false
  | .tst, .tst => true
  | .tst, _ => p.pid != q.pid
  | _, _ => true

/-- An access names bytes that an earlier one of the same core names. -/
def Packet.meets (p q : Packet) : Bool := decide (p.used < q.used + q.n) && decide (q.used < p.used + p.n)

/-- The bytes at their home that a write of a process changes. -/
def Packet.homeBytes (q : Packet) : Option (Nat × Nat) :=
  match q.payload with
  | .write w => some (w.addr, w.n)
  | _ => none

/-- Two elements of one vector store, or two pushed elements of one process, that write the same byte of a home, through
whatever addresses: they land in lane order, and in push order (R157, R165). -/
def Packet.sameRun (p q : Packet) : Bool :=
  p.core == q.core && p.pid == q.pid &&
    ((match p.kind, q.kind with
      | .push _, .push _ => true
      | _, _ => p.batch != 0 && p.batch == q.batch) &&
    (match p.homeBytes, q.homeBytes with
      | some (a, n), some (b, m) => decide (a < b + m) && decide (b < a + n)
      | _, _ => false))

/-- A write that a tile instruction has read as standing behind an earlier `tst` write to the same bytes lands behind it (R215,
R239). -/
def Packet.fixedBehind (p q : Packet) : Bool :=
  q.fixed && p.kind == .tst && p.core == q.core && p.pid == q.pid && p.meets q

/-- A load of data. -/
def Payload.isLoad : Payload → Bool
  | .load _ _ _ => true
  | _ => false

/-- The word of another package that an access through the aperture names: group, package, address (R346). -/
def Packet.farWord (q : Packet) : Option (Nat × Nat × Nat) :=
  match q.payload with
  | .apRead g k a _ _ => some (g, k, wordAt a)
  | .apWrite g k w | .apEngine g k w _ => some (g, k, wordAt w.addr)
  | _ => none

/-- An earlier access of the core keeps one from taking effect: to the same bytes (a load reads through a write that waits
in a reservation queue, R250), of the same vector store or streams (R157, R165), a `tst` write behind which a tile instruction
has read it (R215), to the same word of another package (R346), or, for a release, any that it is ordered after
(R238 row 3). An access of another package follows a write of another package to the same bytes (R240). -/
def Packet.blocks (p q : Packet) : Bool :=
  (p.core == q.core && p.meets q && landsAfter p q && !(p.queued && q.payload.isLoad)) ||
    p.sameRun q || p.fixedBehind q || (p.core == q.core && p.farWord.isSome && p.farWord == q.farWord) || q.releaseAfter p

/-- Every earlier access of the core that the access must follow has taken effect. -/
def State.mayLand (s : State) (q : Packet) : Bool := !(s.before q).any fun p => p.blocks q

/-! Requests that end with a cause -/

/-- The wait of a process for data ends with a cause (R226, R334, R337, R345). -/
def State.failRequest (s : State) (pid : Nat) (c : Cause) (addr d0 d1 : Word) : State :=
  match s.proc? pid with
  | none => s
  | some p =>
    match p.wait with
    | .load _ _ _ _ len _ => if p.st = .running then s.raise p c (some len) addr d0 d1 else s
    | .vload _ _ _ | .pop => if p.st = .running then (s.dropLoads pid).raise p c (some 4) addr d0 d1 else s
    | _ => s.failSync pid c addr d0 d1

/-! Effects -/

/-- The data of a load set out for the core that asked. -/
def State.reply (s : State) (q : Packet) (pl : Payload) : State :=
  let (id, s) := s.freshId
  { s with packets := s.packets ++
      [{ q with id := id, src := q.dst, dst := q.src, n := 0, kind := .reply, payload := pl,
                stamp := none, held := false, refused := none }] }

/-- The home of a request's bytes is away (R334, R337). -/
def State.requestGone (s : State) (q : Packet) : Bool :=
  match q.payload with
  | .load a _ _ | .sync a _ _ | .rsv a _ _ => s.homeGone a
  | _ => false

/-- What a load reads at its home: the home's bytes, under writes of its core to them that wait in reservation queues (R111,
R250). -/
def State.homeRead (s : State) (q : Packet) (a : Nat) : Nat → Nat
  | 0 => 0
  | n + 1 =>
    let own := s.packets.filter fun x => x.queued && decide (x.id < q.id) && x.forwards q.core q.pid
    let k := a - payloadAddr q.payload
    (own.foldl (fun b x => (x.byteFor (q.used + k)).getD b) (s.mem.get a)).toNat + 256 * State.homeRead s q (a + 1) n

/-- Sets or clears the bits of a range, word by word; a word with requests queued takes its change in turn (R243, R250). -/
def State.fillBits (s : State) (q : Packet) (a n : Nat) (full : Bool) : State :=
  (List.range (n / 8)).foldl (fun t i =>
    let w := a + 8 * i
    t.landWrite { q with used := q.used + 8 * i, n := 8, payload := .feRange w 8 full }
      { addr := w, n := 0, val := 0, fe := some full }) s

/-! Requests of memory servers, as engine writes touch them -/

/-- A request by its number. -/
def State.request? (s : State) (id : Nat) : Option MsReq := s.requests.find? (·.id == id)

/-- Puts a request back. -/
def State.putRequest (s : State) (r : MsReq) : State :=
  { s with requests := s.requests.map fun q => if q.id == r.id then r else q }

/-- A status joins a request: the highest code is reported (R272). -/
def MsReq.fail (r : MsReq) (c : Cause) (stop : Bool) : MsReq :=
  { r with status := max r.status c.code, stopped := r.stopped || stop }

/-- An engine write is discarded (R387): a completion or RESULT word is reported; a data word ends its request with LINK. -/
def State.loseEngine (s : State) (w : WriteEff) (report : Option Author) (owner : Nat) : State :=
  match report with
  | some r => s.report r .link (BitVec.ofNat 64 w.addr) (BitVec.ofNat 64 (homeDie w.addr)) 3
  | none =>
    match s.request? owner with
    | some r => s.putRequest (r.fail .link true)
    | none => s

/-- An engine write reaches its home (R245, R387). -/
def State.landEngine (s : State) (q : Packet) (w : WriteEff) (report : Option Author) (owner : Nat) : State :=
  if s.homeGone w.addr then s.loseEngine w report owner else s.landWrite q w

/-- An engine write of at most one word: the word is set full (R241, R245). -/
def engineWord (a n val : Nat) (mark : Bool := false) : WriteEff :=
  { addr := a, n := n, val := val % 2 ^ (8 * n), fe := some true, mark := mark }

/-- An engine write is made on a die for a request or transfer and its region. One to another die is a stamped packet (Table
19.1). -/
def State.engineWrite (s : State) (die : Nat) (w : WriteEff) (report : Option Author := none) (region owner : Nat := 0) :
    State :=
  let (id, s) := s.freshId
  let q : Packet := { id := id, core := 8192 + die, pid := 0, region := region, src := die, dst := die, pc := 0, used := 0,
                      n := 0, path := .mesh, kind := .reply, payload := .engine w report owner }
  if 0x2000000000 ≤ w.addr ∧ w.addr < 0x4000000000 then
    let g := w.addr / 2 ^ 33 % 16
    let (k, a) := (s.group g).reaches (w.addr % 2 ^ 33)
    if (s.apertureFault g (w.addr % 2 ^ 33)).isSome then s.loseEngine w report owner
    else { s with packets := s.packets ++
        [{ q with path := .aperture, used := w.addr, n := w.n, payload := .apEngine g k { w with addr := a, fe := none } report }] }
  else if homeDie w.addr = die ∨ s.homeGone w.addr = true then s.landEngine q w report owner
  else ({ s with packets := s.packets ++ [{ q with dst := homeDie w.addr, path := .fabric }] } : State).stampAll die

/-- The part of a run of bytes that lies in the word at its start. -/
def wordPart (a : Nat) (bs : List Byte) : List Byte := bs.take (8 - a % 8)

/-- Bytes as a little-endian number. -/
def ofBytes : List Byte → Nat
  | [] => 0
  | b :: r => b.toNat + 256 * ofBytes r

/-- A run of bytes as engine writes, word by word (R245). -/
def State.engineBytes (s : State) (die a region owner : Nat) (bs : List Byte) : Nat → State
  | 0 => s
  | fuel + 1 =>
    match bs with
    | [] => s
    | _ =>
      let k := (wordPart a bs).length
      State.engineBytes (s.engineWrite die (engineWord a k (ofBytes (wordPart a bs))) none region owner) die (a + k) region owner
        (bs.drop k) fuel

/-- A channel instruction has reached the anchor: it waits there, and lends to the party at the other end (R283, R45). -/
def State.chanArrives (s : State) (pid : Nat) : State :=
  match s.proc? pid with
  | some p =>
    match p.wait with
    | .chan w =>
      if p.isBlocked then
        ((s.putProc { p with wait := .chan { w with arrived := true } }).settle w.table w.name).lend pid
      else s
    | _ => s
  | none => s

/-- The number and core of a remote write that waits at its home (R249). -/
def Packet.remoteWrite (q : Packet) : Option (Nat × Nat) := if q.path = .own then none else some (q.core, q.seq)

/-- A message of the device for a channel whose engine writes have been made, and no earlier one for the channel is on its way
(R278, R288). -/
def State.frameReady (s : State) (q : Packet) : Bool :=
  match q.payload with
  | .frame t n o _ =>
    (o == 0 || !s.engineBusy o) && !(s.packets.any fun x => decide (x.id < q.id) && (match x.payload with
      | .frame u m _ _ => u == t && m == n
      | _ => false))
  | _ => false

/-- The effect of an access at its home, or of a reply at its core. -/
def State.perform (s : State) (q : Packet) : State :=
  if s.requestGone q then
    match q.payload with
    | .load _ _ ret => s.reply q (.linkRet q.dst 1 ret)
    | _ => s.answer q.dst q.pid (.fail q.pid .link (BitVec.ofNat 64 q.used) (BitVec.ofNat 64 q.dst) 1)
  else match q.payload with
    | .write w => s.landWrite q w
    | .engine w r o => s.landEngine q w r o
    | .feRange a n full => if s.homeGone a then s else s.fillBits q a n full
    | .load a n ret => s.reply q (.loadRet (s.homeRead q a n) (s.marked a n) ret)
    | .move pid =>
      if (s.proc? pid).all (·.st == .exited) then s
      else { s with packets := s.packets ++ [{ q with src := q.dst, path := .mesh, stamp := none, held := false }] }
    | .loadRet _ _ _ | .linkRet _ _ _ =>
      { s with packets := s.packets ++ [{ q with src := q.dst, path := .mesh, stamp := none, held := false }] }
    | .sync a pid op =>
      s.syncAt { addr := a, pid := pid, op := op, used := BitVec.ofNat 64 q.used,
                 rem := if op.writes then q.remoteWrite else none }
    | .rsv a pid k =>
      s.rsvAt { addr := a, pid := pid, k := k, used := BitVec.ofNat 64 q.used,
                rem := if k = .rsv then none else q.remoteWrite }
    | .rls a pid v => if s.homeGone a then s else s.rlsAt q pid a v
    | .wake pid v => s.wakeSync pid v
    | .fail pid c a d0 d1 => s.failRequest pid c a d0 d1
    | .chan pid => if (s.die q.dst).coreReset then s.chanRefused q else s.chanArrives pid
    | .ctl _ t n tx op => s.ctlArrives q t n tx op
    | .told pid ask v => s.takeTold q.src pid ask v
    | .chanDone pid d => s.takeEnd q.id pid d
    | .report pid => s.takeReport pid
    | .frame t n _ msg =>
      if (s.die q.dst).coreReset then s
      else if !s.frameReady q then
        { s with packets := s.packets ++ [{ q with src := q.dst, path := .mesh, stamp := none, held := false }] }
      else s.enqueue t n msg
    | .ms id =>
      match s.request? id with
      | some r => s.putRequest { r with die := q.dst, travel := false }
      | none => s
    | .inWrite g w =>
      if s.homeGone w.addr then s.answerOut q.dst g .refused
      else if s.queued (wordAt w.addr) then s.waitInQueue q (wordAt w.addr)
      else (s.applyWrite w).answerOut q.dst g .ack
    | .inRead g a n => s.answerOut q.dst g (if s.homeGone a then .refused else .data (s.mem.read a n))
    | .uaBack g a => s.uaAnswer g a
    | .quit pid a => if s.homeGone a then s else s.quitAt pid a
    | .faultReply top w0 w1 => s.takeReply top w0 w1
    | .forward _ _ _ _ =>
      { s with packets := s.packets ++ [{ q with src := q.dst, path := .mesh, stamp := none, held := false }] }
    | .late _ _ | .apRead _ _ _ _ _ | .apWrite _ _ _ | .apEngine _ _ _ _ | .kindling => s

/-- A channel instruction on its way to an anchor. -/
def Payload.toAnchor : Payload → Bool
  | .chan _ | .ctl _ _ _ _ _ => true
  | _ => false

/-- A process, a message of the device, or an image that has come by the fabric and waits on its die (R51, R95, R288). -/
def Payload.parks : Payload → Bool
  | .move _ | .frame _ _ _ _ | .late _ _ | .forward _ _ _ _ => true
  | _ => false

/-- A core has not received all its images of a LAUNCH (R95). -/
def State.imagesBusy (s : State) (core owner : Nat) : Bool :=
  s.packets.any fun q => match q.payload with
    | .engine w _ o => o == owner && homeOf w.addr == core
    | .forward a _ _ o => o == owner && homeOf a == core
    | _ => false

/-- A completion word whose engine writes have been made, or an image that the core on its way can pass on. -/
def State.lateReady (s : State) : Payload → Bool
  | .late _ o => !s.engineBusy o
  | .forward _ _ c o => !s.imagesBusy c o
  | _ => false

/-- A write or bit change that takes effect at a home. -/
def Payload.isWrite : Payload → Bool
  | .write _ | .feRange _ _ _ | .rls _ _ _ => true
  | _ => false

/-- WRITE_LANDS (R111): a write of a core to its own memory through the private alias. -/
def execWriteLands (s : State) : Out :=
  s.onPacket (fun q => q.path == .own && q.payload.isWrite && q.kind != .tst &&
    (match q.kind with | .push _ => false | _ => true) && s.mayLand q) fun q s => s.perform q

/-- INBOUND_REQUEST (R233): an access that reached its home by the mesh, or an unstamped `st.nt` from another die; a completion
word of the edge once the bytes before it have been written (R363); an image that a core passes on (R95). -/
def execInboundRequest (s : State) : Out :=
  s.onPacket (fun q => (q.path == .mesh && s.lateReady q.payload) ||
    (((q.path == .mesh && q.kind != .reply) || (q.path == .fabric && q.kind == .nt)) &&
      (match q.kind with | .push _ => false | _ => true) && !q.payload.toAnchor && s.mayLand q)) fun q s =>
    match q.payload with
    | .late w _ => s.engineWrite q.src w none q.region
    | .forward a bs _ o => s.engineBytes q.src a q.region o bs (bs.length + 1)
    | _ => s.perform q

/-- STREAM_PUSH_LAND (R165): a pushed element lands at a home of the die. -/
def execStreamPushLand (s : State) : Out :=
  s.onPacket (fun q => (match q.kind with | .push _ => true | _ => false) && (q.path == .own || q.path == .mesh) &&
    s.mayLand q) fun q s => s.perform q

/-- TST_WRITE_LAND (R216): a write of a `tst` lands in the local memory. -/
def execTstWriteLand (s : State) : Out :=
  s.onPacket (fun q => q.kind == .tst && q.path == .own && s.mayLand q) fun q s => s.perform q

/-- AMO_RELEASE (R252): the atomic unit has the grant of the process's request, computes and releases. -/
def execAmoRelease (s : State) : Out := .next (s.amoRelease (Subject.num s.subj))

/-- The elements of a vector load take a value. -/
def fillElem (els : List VElem) (k val : Nat) (bad : Bool) : List VElem :=
  els.zipIdx.map fun e => if e.2 = k then { e.1 with val := some (val, bad) } else e.1

/-- A stream has fetched an element (R165). -/
def Proc.fetched (p : Proc) (i : BitVec 3) (a : Ahead) : Proc :=
  let t := p.streams[i.toNat]
  if t.bound then { p with streams := p.streams.set i.toNat { t with ahead := t.ahead ++ [a] } i.isLt } else p

/-- The data of a load reach the waiting instruction. -/
def State.takeData (s : State) (val : Nat) (bad : Bool) : ReplyTo → State
  | .slot pid k =>
    match s.proc? pid with
    | none => s
    | some p =>
      match p.wait with
      | .load d n sg a len acq => if p.st = .running then s.loadDone p d n sg a len acq val bad else s
      | .vload d z els => if p.st = .running then s.putProc { p with wait := .vload d z (fillElem els k val bad) } else s
      | _ => s
  | .ahead pid i e => s.modProc pid fun p => p.fetched i { idx := e, val := val, window := false, marked := bad }

/-- No home could serve a load: it raises LINK (R226, R337). -/
def State.takeLink (s : State) (addr : Word) (d0 : Nat) (d1 : Word) : ReplyTo → State
  | .slot pid _ => s.failRequest pid .link addr (BitVec.ofNat 64 d0) d1
  | .ahead pid i e =>
    s.modProc pid fun p => p.fetched i { idx := e, val := 0, window := false, marked := false, link := some (d0, d1) }

/-- REMOTE_LOAD_RETURN (R234): data return to the core; a scalar load completes (R100). -/
def execRemoteLoadReturn (s : State) : Out :=
  s.onPacket (fun q => q.path == .mesh && q.kind == .reply && !q.payload.parks) fun q s =>
    match q.payload with
    | .loadRet v bad ret => s.takeData v bad ret
    | .linkRet d0 d1 ret => s.takeLink (BitVec.ofNat 64 q.used) d0 d1 ret
    | _ => s

/-! Waits that end when accesses have been performed -/

/-- The running process with a number, when its wait and the state meet a condition, goes on behind its instruction. -/
def State.release4 (s : State) (ok : Proc → Bool) : Out :=
  match s.proc? (Subject.num s.subj) with
  | some p => if p.st = .running ∧ ok p = true then .next ((s.clearEarly p.core).putProc (p.advance 4)) else .next s
  | none => .next s

/-- FENCE_COMPLETE (R248). -/
def execFenceComplete (s : State) : Out :=
  s.release4 fun p => match p.wait with
    | .fence sc => s.fenced p.pid sc
    | _ => false

/-- DRAIN_NT_COMPLETE (R247). -/
def execDrainNtComplete (s : State) : Out := s.release4 fun p => p.wait == .drain && !s.ntPending p.pid

/-- CFENCE_W_COMPLETE (R249). -/
def execCfenceWComplete (s : State) : Out :=
  s.release4 fun p => match p.wait with
    | .cfence q => s.delivered p.core q
    | _ => false

end Sys2Proof.Machine
end

