-- ==== Sys2Proof/Machine/Causal.lean ====
section
/-! DEFINITION. The events of the causal die fabric (19): arrival in the hearth, resending, delivery, column flits. -/

namespace Sys2Proof.Machine

/-- A stamped packet on its way, between present dies. -/
def State.underWay (s : State) (q : Packet) : Bool :=
  q.path == .fabric && q.stamp.isSome && !q.held && !q.queued && s.diePresent q.src && s.diePresent q.dst

/-- HEARTH_ARRIVAL (R332): the packet takes an entry, or is refused at the link. -/
def execHearthArrival (s : State) : Out :=
  match s.packet? (Subject.num s.subj) with
  | some q =>
    match q.stamp with
    | some t =>
      if s.underWay q && q.refused.isNone then
        .next (s.modPacket q.id fun x =>
          match s.hearthEntry q t with
          | some shared => { x with held := true, shared := shared }
          | none => { x with refused := some s.time })
      else .next s
    | none => .next s
  | none => .next s

/-- Cycles before a refused packet is sent again (R332). -/
def resendAfter : Nat := 64

/-- LINK_RESEND (R332): the link controller of the previous hop sends a refused packet again. -/
def execLinkResend (s : State) : Out :=
  match s.packet? (Subject.num s.subj) with
  | some q =>
    match q.refused with
    | some t =>
      if s.underWay q && decide (t + resendAfter * (s.die q.src).ccUnits ≤ s.time) then
        .next (s.modPacket q.id fun x => { x with refused := none })
      else .next s
    | none => .next s
  | none => .next s

/-- Notes something about a region that a removal affects (R335). Region 0 is none. -/
def State.affect (s : State) (region : Nat) (f : Affected → Affected) : State :=
  if region = 0 then s
  else if s.affected.any (·.region == region) then
    { s with affected := s.affected.map fun (a : Affected) => if a.region = region then f a else a }
  else
    match s.reclock.bind (·.removed.head?) with
    | some d => { s with affected := s.affected ++ [f { region := region, die := d, addr := 0, lost := 0, broken := 0 }] }
    | none => s

/-- A broken delivery is counted for its region, with the target address of the first (R334, R335). -/
def State.countBroken (s : State) (q : Packet) : State :=
  if q.broken then
    s.affect q.region fun f =>
      { f with broken := f.broken + 1, addr := if f.broken = 0 then payloadAddr q.payload else f.addr }
  else s

/-- CAUSAL_DELIVERY (R330, R333): merge, then effect. -/
def execCausalDelivery (s : State) : Out :=
  match s.packet? (Subject.num s.subj) with
  | some q =>
    match q.stamp with
    | some t =>
      if q.held && s.packetReady (s.die q.dst) t then
        let s := (s.dropPacket q.id).modDie q.dst fun e => e.merge t
        .next ((s.countBroken q).perform q)
      else .next s
    | none => .next s
  | none => .next s

/-- The least cycles between two flits to one die (R328). -/
def flitGap : Nat := 16

/-- What a die would tell another differs from the last flit it sent there (R328). -/
def Die.flitNews (x : Die) (y : Nat) : Bool :=
  match x.flits.find? (·.1 == y) with
  | none => (x.flitTo y).1.any (· != 0) || (x.flitTo y).2.any (· != 0)
  | some (_, own, echo, _) => (own, echo) != x.flitTo y

/-- A die sends a flit to another, at most one in 16 cc: its values have changed since the last, or a µs has passed (R328).
-/
def Die.flitDue (x : Die) (y now : Nat) : Bool :=
  match x.flits.find? (·.1 == y) with
  | none => true
  | some (_, _, _, at_) =>
    decide (at_ + flitGap * x.ccUnits ≤ now) && (x.flitNews y || decide (at_ + 1000 * Config.unitsPerNs ≤ now))

/-- COLUMN_FLIT_SEND (R328). -/
def execColumnFlitSend (s : State) : Out :=
  let x := Subject.num s.subj
  let y := Subject.second s.subj
  let d := s.die x
  if x ≠ y ∧ s.diePresent x = true ∧ s.diePresent y = true ∧ d.flitDue y s.time = true then
    let f := d.flitTo y
    let (id, s) := s.freshId
    let s := s.modDie x fun d => { d with flits := (d.flits.filter (·.1 != y)) ++ [(y, f.1, f.2, s.time)] }
    .next { s with flits := s.flits ++ [{ id := id, src := x, dst := y, own := f.1, echo := f.2 }] }
  else .next s

/-- COLUMN_FLIT_RECEIVE (R328): flits are processed on arrival. -/
def execColumnFlitReceive (s : State) : Out :=
  match s.flits.find? (·.id == Subject.num s.subj) with
  | none => .next s
  | some f =>
    let s := { s with flits := s.flits.filter (·.id != f.id) }
    if s.diePresent f.src && s.diePresent f.dst then .next (s.modDie f.dst fun x => x.takeFlit f.src f.own f.echo)
    else .next s

end Sys2Proof.Machine
end

