-- ==== Sys2Proof/Machine/Flags.lean ====
section
/-! DEFINITION. Number formats and arithmetic (07): decoding and rounding of the floating-point formats with the flags they
set, exact sums and products, comparison, conversion, block scales, integer helpers, the hash of `vrand`. Codes and lanes
are natural numbers below 2 to their width. -/

namespace Sys2Proof.Machine

/-! Flags (Table 7.6) -/

/-- A set of flags in the bit positions of `%fpflags`. -/
abbrev Flags := BitVec 5

/-- Invalid operation. -/
def fNV : Flags := 1
/-- Division by zero. -/
def fDZ : Flags := 2
/-- Overflow. -/
def fOF : Flags := 4
/-- Underflow. -/
def fUF : Flags := 8
/-- Inexact. -/
def fNX : Flags := 16

/-- A flag when a condition holds. -/
def fIf (c : Bool) (f : Flags) : Flags := if c then f else 0

/-! Formats (Tables 7.1, 7.2) -/

/-- Special codes of a format: infinities and NaNs in the highest field, the two NaN codes of E4M3, or none. -/
inductive Specials | ieee | e4m3 | plain
deriving DecidableEq, Repr

/-- A binary format: widths of exponent and fraction, bias, specials. -/
structure Fmt where
  ew : Nat
  mw : Nat
  bias : Nat
  sp : Specials
deriving DecidableEq, Repr

def fp32 : Fmt := ⟨8, 23, 127, .ieee⟩
def fp16 : Fmt := ⟨5, 10, 15, .ieee⟩
def bf16 : Fmt := ⟨8, 7, 127, .ieee⟩
def e5m2 : Fmt := ⟨5, 2, 15, .ieee⟩
def e4m3 : Fmt := ⟨4, 3, 7, .e4m3⟩
/-- Element of BS4. -/
def e2m1 : Fmt := ⟨2, 1, 1, .plain⟩
/-- Element of BS6. -/
def e3m2 : Fmt := ⟨3, 2, 3, .plain⟩

/-- Bits of a code. -/
def Fmt.bits (f : Fmt) : Nat := 1 + f.ew + f.mw

/-- Code of MAXF. -/
def Fmt.maxCode (f : Fmt) : Nat :=
  match f.sp with
  | .ieee => (2 ^ f.ew - 1) * 2 ^ f.mw - 1
  | .e4m3 => 2 ^ (f.ew + f.mw) - 2
  | .plain => 2 ^ (f.ew + f.mw) - 1

/-- The default NaN (Table 7.1), with sign 0. -/
def Fmt.nan (f : Fmt) : Nat :=
  match f.sp with
  | .ieee => (2 ^ f.ew - 1) * 2 ^ f.mw + 2 ^ (f.mw - 1)
  | _ => 2 ^ (f.ew + f.mw) - 1

/-- A code with its sign bit. -/
def Fmt.signed (f : Fmt) (sg : Bool) (mag : Nat) : Nat := if sg then 2 ^ (f.ew + f.mw) + mag else mag

/-- Infinity of a sign; formats without infinity have none. -/
def Fmt.inf (f : Fmt) (sg : Bool) : Nat := f.signed sg ((2 ^ f.ew - 1) * 2 ^ f.mw)

/-- What a code stands for: a NaN, an infinity, or (−1)^sg × m × 2^e. -/
inductive Fp
  | nan (quiet : Bool)
  | inf (sg : Bool)
  | fin (sg : Bool) (m : Nat) (e : Int)
deriving DecidableEq, Repr

/-- Decoding (R127, R128). -/
def Fmt.decode (f : Fmt) (code : Nat) : Fp :=
  let sg := code / 2 ^ (f.ew + f.mw) % 2 == 1
  let e := code / 2 ^ f.mw % 2 ^ f.ew
  let m := code % 2 ^ f.mw
  let finite : Fp :=
    if e = 0 then .fin sg m (1 - f.bias - f.mw) else .fin sg (2 ^ f.mw + m) ((e : Int) - f.bias - f.mw)
  match f.sp with
  | .ieee =>
    if e = 2 ^ f.ew - 1 then (if m = 0 then .inf sg else .nan (decide (2 ^ (f.mw - 1) ≤ m))) else finite
  | .e4m3 => if e = 2 ^ f.ew - 1 ∧ m = 2 ^ f.mw - 1 then .nan true else finite
  | .plain => finite

/-- A value is a zero. -/
def Fp.isZero : Fp → Bool
  | .fin _ 0 _ => true
  | _ => false

/-- A NaN. -/
def Fp.isNan : Fp → Bool
  | .nan _ => true
  | _ => false

/-- A signalling NaN. -/
def Fp.isSig : Fp → Bool
  | .nan q => !q
  | _ => false

/-! Rounding (R134) -/

/-- Rounding modes, in the code of RM (Table 7.5). -/
inductive Rm | rne | rtz | rup | rdn
deriving DecidableEq, Repr

/-- The mode of an RM field. -/
def Rm.ofCode : Nat → Rm
  | 0 => .rne | 1 => .rtz | 2 => .rup | _ => .rdn

/-- A result code with its flags. -/
abbrev Rounded := Nat × Flags

/-- Overflow(sg, fmt, mode) (R134). -/
def Fmt.overflow (f : Fmt) (sg : Bool) (m : Rm) : Nat :=
  let big := f.signed sg f.maxCode
  match f.sp with
  | .ieee =>
    match m with
    | .rne => f.inf sg
    | .rtz => big
    | .rup => if sg then big else f.inf sg
    | .rdn => if sg then f.inf sg else big
  | _ => big

/-- floor(log2(num / den)) for positive numbers. -/
def ratLog2 (num den : Nat) : Int :=
  let l : Int := (num.log2 : Int) - den.log2
  if num * 2 ^ (-l).toNat < den * 2 ^ l.toNat then l - 1 else l

/-- Weight exponent of the last kept bit of a positive value num / den × 2^ex. -/
def Fmt.weight (f : Fmt) (num den : Nat) (ex : Int) : Int := max (ratLog2 num den + ex) (1 - f.bias) - f.mw

/-- The value in units of 2^q, as a fraction. -/
def inUnits (num den : Nat) (ex q : Int) : Nat × Nat := (num * 2 ^ (ex - q).toNat, den * 2 ^ (q - ex).toNat)

/-- The result for k units of weight 2^q (q at least that of subnormals), with the flags of R134. -/
def Fmt.place (f : Fmt) (sg : Bool) (k : Nat) (q : Int) (inexact : Bool) (beyond : Nat) : Rounded :=
  let j := (q - (1 - f.bias - f.mw)).toNat
  let code := j * 2 ^ f.mw + k
  if f.maxCode < code then (beyond, fOF ||| fNX)
  else (f.signed sg code, fIf inexact fNX ||| fIf (inexact && decide (code ≠ 0) && decide (code < 2 ^ f.mw)) fUF)

/-- Round of (−1)^sg × num / den × 2^ex (R134); a zero keeps the sign. -/
def Fmt.round (f : Fmt) (m : Rm) (sg : Bool) (num den : Nat) (ex : Int) : Rounded :=
  if num = 0 then (f.signed sg 0, 0)
  else
    let q := f.weight num den ex
    let (n, d) := inUnits num den ex q
    let k := n / d
    let r := n % d
    let up : Bool :=
      match m with
      | .rne => decide (d < 2 * r) || (decide (2 * r = d) && k % 2 == 1)
      | .rtz => false
      | .rup => !sg && r != 0
      | .rdn => sg && r != 0
    f.place sg (if up then k + 1 else k) q (r != 0) (f.overflow sg m)

/-- Round of an exact signed value v × 2^ex whose zero has sign `zs`. -/
def Fmt.roundInt (f : Fmt) (m : Rm) (zs : Bool) (v ex : Int) : Rounded :=
  f.round m (if v = 0 then zs else decide (v < 0)) v.natAbs 1 ex

/-- The value of a finite number as an integer in units of 2^e. -/
def signedMant (sg : Bool) (m : Nat) : Int := if sg then -(m : Int) else m

/-- A mantissa shifted to a lower exponent. -/
def shiftTo (v e to_ : Int) : Int := v * 2 ^ (e - to_).toNat

/-! Operations (R142) -/

/-- The default NaN, with NV when a condition holds. -/
def Fmt.nanOf (f : Fmt) (nv : Bool) : Rounded := (f.nan, fIf nv fNV)

/-- The sum of two exact addends (−1)^s × m × 2^e, rounded once; the sign of an exact zero as R142 gives. -/
def Fmt.addExact (f : Fmt) (m : Rm) (s1 : Bool) (m1 : Nat) (e1 : Int) (s2 : Bool) (m2 : Nat) (e2 : Int) : Rounded :=
  let e := min e1 e2
  let v := shiftTo (signedMant s1 m1) e1 e + shiftTo (signedMant s2 m2) e2 e
  let zs := if m1 = 0 ∧ m2 = 0 ∧ s1 = s2 then s1 else decide (m = .rdn)
  f.roundInt m zs v e

/-- a + b. -/
def Fmt.add (f : Fmt) (m : Rm) (a b : Fp) : Rounded :=
  match a, b with
  | .nan _, _ | _, .nan _ => f.nanOf (a.isSig || b.isSig)
  | .inf s, .inf t => if s = t then (f.inf s, 0) else f.nanOf true
  | .inf s, _ => (f.inf s, 0)
  | _, .inf t => (f.inf t, 0)
  | .fin s1 m1 e1, .fin s2 m2 e2 => f.addExact m s1 m1 e1 s2 m2 e2

/-- The negative of a number. -/
def Fp.neg : Fp → Fp
  | .nan q => .nan q
  | .inf s => .inf (!s)
  | .fin s m e => .fin (!s) m e

/-- An exact product; none for an invalid one. -/
def Fp.mul : Fp → Fp → Option Fp
  | .nan q, _ => some (.nan q)
  | _, .nan q => some (.nan q)
  | .inf s, .inf t => some (.inf (xor s t))
  | .inf s, .fin t m _ => if m = 0 then none else some (.inf (xor s t))
  | .fin s m _, .inf t => if m = 0 then none else some (.inf (xor s t))
  | .fin s1 m1 e1, .fin s2 m2 e2 => some (.fin (xor s1 s2) (m1 * m2) (e1 + e2))

/-- A value rounded to the format. -/
def Fmt.roundFp (f : Fmt) (m : Rm) : Fp → Rounded
  | .nan q => f.nanOf (!q)
  | .inf s => (f.inf s, 0)
  | .fin s n e => f.round m s n 1 e

/-- a × b. -/
def Fmt.mul (f : Fmt) (m : Rm) (a b : Fp) : Rounded :=
  if a.isNan || b.isNan then f.nanOf (a.isSig || b.isSig)
  else match a.mul b with
    | none => f.nanOf true
    | some p => f.roundFp m p

/-- a × b + d, rounded once. An invalid product sets NV whatever d is (R142, first item). -/
def Fmt.fma (f : Fmt) (m : Rm) (a b d : Fp) : Rounded :=
  let sig := a.isSig || b.isSig || d.isSig
  if a.isNan || b.isNan then f.nanOf sig
  else match a.mul b with
    | none => f.nanOf true
    | some p => if d.isNan then f.nanOf sig else f.add m p d

/-- Comparison of two numbers, none when unordered; −0 equals +0. -/
def Fp.cmp (a b : Fp) : Option Ordering :=
  match a, b with
  | .nan _, _ | _, .nan _ => none
  | .inf s, .inf t => some (if s = t then .eq else if s then .lt else .gt)
  | .inf s, _ => some (if s then .lt else .gt)
  | _, .inf t => some (if t then .gt else .lt)
  | .fin s1 m1 e1, .fin s2 m2 e2 =>
    let e := min e1 e2
    some (compare (shiftTo (signedMant s1 m1) e1 e) (shiftTo (signedMant s2 m2) e2 e))

/-- Sign of a value. -/
def Fp.sign : Fp → Bool
  | .nan _ => false
  | .inf s => s
  | .fin s _ _ => s

/-- Maximum (`up`) or minimum of two codes (R142). -/
def Fmt.pick (f : Fmt) (up : Bool) (ca cb : Nat) : Rounded :=
  let a := f.decode ca
  let b := f.decode cb
  let nv := fIf (a.isSig || b.isSig) fNV
  if a.isNan && b.isNan then (f.nan, nv)
  else if a.isNan then (cb, nv)
  else if b.isNan then (ca, nv)
  else
    let aFirst : Bool :=
      match a.cmp b with
      | some .gt => up
      | some .lt => !up
      | _ => if up then !a.sign else a.sign
    (if aFirst then ca else cb, 0)

/-- Sign set to 0, or inverted (R168). -/
def Fmt.resign (f : Fmt) (sg : Bool → Bool) (code : Nat) : Rounded :=
  match f.decode code with
  | .nan q => f.nanOf (!q)
  | v => (f.signed (sg v.sign) (code % 2 ^ (f.ew + f.mw)), 0)

/-- A comparison condition with its flags (R169). -/
def cmpF (cc : CmpF) (a b : Fp) : Bool × Flags :=
  let quietNv := fIf (a.isSig || b.isSig) fNV
  let anyNv := fIf (a.isNan || b.isNan) fNV
  match cc with
  | .eq => (a.cmp b == some .eq, quietNv)
  | .ne => (a.cmp b != some .eq, quietNv)
  | .lt => (a.cmp b == some .lt, anyNv)
  | .le => (a.cmp b == some .lt || a.cmp b == some .eq, anyNv)
  | .un => ((a.cmp b).isNone, quietNv)
  | .ord => ((a.cmp b).isSome, quietNv)

/-! Integers (R133) -/

/-- The two's complement value of a w-bit pattern. -/
def toS (w v : Nat) : Int := if 2 ^ (w - 1) ≤ v then (v : Int) - 2 ^ w else v

/-- The w-bit pattern of an integer. -/
def wrap (w : Nat) (v : Int) : Nat := (v % 2 ^ w).toNat

/-- SatS (Table 7.4). -/
def satS (v : Int) (w : Nat) : Int := max (-(2 ^ (w - 1))) (min v (2 ^ (w - 1) - 1))

/-- SatU (Table 7.4). -/
def satU (v : Int) (w : Nat) : Int := max 0 (min v (2 ^ w - 1))

/-- ShiftRound (Table 7.4). -/
def shiftRound (v : Int) (n : Nat) : Int := if n = 0 then v else (v + 2 ^ (n - 1)) / 2 ^ n

/-- num / den × 2^ex rounded to an integer in a mode, and whether that was inexact. -/
def roundToInt (m : Rm) (sg : Bool) (num den : Nat) (ex : Int) : Int × Bool :=
  let (n, d) := inUnits num den ex 0
  let k := n / d
  let r := n % d
  let up : Bool :=
    match m with
    | .rne => decide (d < 2 * r) || (decide (2 * r = d) && k % 2 == 1)
    | .rtz => false
    | .rup => !sg && r != 0
    | .rdn => sg && r != 0
  (signedMant sg (if up then k + 1 else k), r != 0)

/-! Conversion (R136, R137, R176) -/

/-- A floating-point value, times 2^sc, to a w-bit integer (R136). -/
def toInteger (m : Rm) (w sc : Nat) : Fp → Rounded
  | .nan _ => (0, fNV)
  | .inf s => (wrap w (if s then -(2 ^ (w - 1)) else 2 ^ (w - 1) - 1), fNV)
  | .fin s n e =>
    let (v, inexact) := roundToInt m s n 1 (e + sc)
    if satS v w = v then (wrap w v, fIf inexact fNX) else (wrap w (satS v w), fNV)

/-- A floating-point value to a floating-point format (R136). -/
def Fmt.convert (f : Fmt) (m : Rm) : Fp → Rounded
  | .nan q => f.nanOf (!q)
  | .inf s => if f.sp = .ieee then (f.inf s, 0) else f.nanOf true
  | .fin s n e => f.round m s n 1 e

/-- Stochastic rounding of an FP32 value (R137). -/
def Fmt.convertSr (f : Fmt) (rnd : Nat) : Fp → Rounded
  | .nan q => f.nanOf (!q)
  | .inf s => if f.sp = .ieee then (f.inf s, 0) else f.nanOf true
  | .fin s n e =>
    if n = 0 then (f.signed s 0, 0)
    else
      let q := f.weight n 1 e
      let (a, d) := inUnits n 1 e q
      let r := a % d
      let k := (a * 65536 + rnd % 65536 * d) / (d * 65536)
      let beyond := if f.sp = .ieee then f.inf s else f.signed s f.maxCode
      let j := (q - (1 - f.bias - f.mw)).toNat
      if f.maxCode < j * 2 ^ f.mw + k then (beyond, fOF ||| fIf (r != 0) fNX) else f.place s k q (r != 0) beyond

/-- The format of a floating-point conversion type, if it is one. -/
def CvtT.fmt? : CvtT → Option Fmt
  | .f32 => some fp32 | .f16 => some fp16 | .bf16 => some bf16 | .e5m2 => some e5m2 | .e4m3 => some e4m3
  | _ => none

/-- Scale exponent of an integer type: 15 for Q15 (R133). -/
def cvtScale : CvtT → Nat
  | .q15 => 15
  | _ => 0

/-- Width of a conversion type (Table 9.8). -/
def cvtWidth : CvtT → Nat
  | .f32 | .i32 => 32
  | .f16 | .bf16 | .q15 | .i16 => 16
  | .e5m2 | .e4m3 | .i8 => 8

/-- What a lane of a conversion type stands for. -/
def cvtValue (t : CvtT) (v : Nat) : Fp :=
  match CvtT.fmt? t with
  | some f => f.decode v
  | none =>
    let n := toS (cvtWidth t) v
    .fin (decide (n < 0)) n.natAbs (-(cvtScale t : Int))

/-- Convert (R176). -/
def convertLane (dst src : CvtT) (m : Rm) (v : Nat) : Rounded :=
  match CvtT.fmt? dst with
  | some f => f.convert m (cvtValue src v)
  | none => toInteger m (cvtWidth dst) (cvtScale dst) (cvtValue src v)

/-! Block scales (R131, R132) -/

/-- Value (1 + m/2) × 2^(e − 127) of a scale code as (mantissa, exponent); none for a NaN block. -/
def scaleOf (h : Nat) : Option (Nat × Int) :=
  if h % 512 = 511 ∨ 512 ≤ h then none else some (2 + h % 2, (h / 2 : Nat) - 128)

/-- Multiplies a decoded element by a scale. -/
def Fp.scaled (v : Fp) (sc : Nat × Int) : Fp :=
  match v with
  | .fin s m e => .fin s (m * sc.1) (e + sc.2)
  | x => x

/-- The smallest scale code whose scale s has amax / s ≤ MAXF, for amax = m × 2^e > 0 (R132). -/
def blockScale (f : Fmt) (m : Nat) (e : Int) : Nat :=
  let fits (c : Nat) : Bool :=
    match f.decode f.maxCode, scaleOf c with
    | .fin _ xm xe, some (sm, se) =>
      let r := xe + se
      decide (m * 2 ^ (e - r).toNat ≤ xm * sm * 2 ^ (r - e).toNat)
    | _, _ => false
  ((List.range 511).find? fits).getD 510

/-- Encodes 32 FP32 values into a block (R132): the scale halfword, the element codes, and the flags. -/
def encodeBlock (f : Fmt) (xs : List Nat) : Nat × List Nat × Flags :=
  let vs := xs.map fp32.decode
  if vs.any (fun v => match v with | .fin _ _ _ => false | _ => true) then
    (0x01FF, xs.map fun _ => 0, fIf (vs.any fun v => match v with | .nan q => !q | .inf _ => true | _ => false) fNV)
  else
    let amax := (xs.map (· % 2 ^ 31)).foldl max 0
    let sc := match fp32.decode amax with
      | .fin _ m e => if m = 0 then 0x0FE else blockScale f m e
      | _ => 0x0FE
    let (sm, se) := (scaleOf sc).getD (2, -1)
    let els := vs.map fun v => match v with
      | .fin s m e => f.round .rne s m sm (e - se)
      | _ => (0, 0)
    (sc, els.map (·.1), fIf (els.any fun r => r.2 &&& fNX != 0) fNX)

/-! Random numbers (R150) -/

/-- H of R150. -/
def hashH (seed ctr : BitVec 32) : BitVec 32 :=
  let h := seed + ctr
  let h := h ^^^ (h >>> 16)
  let h := h * 0x2B9C4E15
  let h := h ^^^ (h >>> 15)
  let h := h * 0x6D1F3A87
  h ^^^ (h >>> 16)

end Sys2Proof.Machine
end

