-- ==== Sys2Proof/Machine/Operands.lean ====
section
/-! DEFINITION. Operands of vector and tile instructions: lanes and masks (R152, R153), context classes (R22), streams with
their pops and pushes (R160–R166), memory elements that are not all in the own memory, and the common course of a
vector instruction (R154, R156, R164, R141). -/

namespace Sys2Proof.Machine

/-! Lanes -/

/-- Lane(v, w, L) (R152). -/
def lane (v : VReg) (w l : Nat) : Nat := (v >>> (w * l)).toNat % 2 ^ w

/-- A register of lanes, lane 0 first. -/
def ofLanes (w : Nat) (ls : List Nat) : VReg :=
  BitVec.ofNat 2048 (ls.foldr (fun x acc => x % 2 ^ w + 2 ^ w * acc) 0)

/-- The lanes of a register. -/
def lanesOf (v : VReg) (w : Nat) : List Nat := (List.range (2048 / w)).map (lane v w)

/-- Gov(i, E) (R153). -/
def gov (i e : Nat) : Nat := i * 64 / e

/-- Element i of E is active under a mask value (R153). -/
def active (m : Word) (i e : Nat) : Bool := m.getLsbD (gov i e)

/-- Results of lanes: lane number with code and flags. -/
abbrev LaneRes := List (Nat × Rounded)

/-- Every active lane's result (R168). -/
def laneMap (m : Word) (w : Nat) (f : Nat → Rounded) : LaneRes :=
  ((List.range (2048 / w)).filter fun i => active m i (2048 / w)).map fun i => (i, f i)

/-- Puts lane results into a register; other lanes stay. -/
def putLanes (v : VReg) (w : Nat) (rs : LaneRes) : VReg :=
  ofLanes w ((List.range (2048 / w)).map fun i =>
    match rs.find? (·.1 == i) with
    | some r => r.2.1
    | none => lane v w i)

/-- Every flag of lane results. -/
def flagsOf (rs : LaneRes) : Flags := rs.foldl (fun f r => f ||| r.2.2) 0

/-- The granules whose lanes produced an enabled flag (R141). -/
def granules (w : Nat) (en : Flags) (rs : LaneRes) : Word :=
  rs.foldl (fun g r => if r.2.2 &&& en = 0 then g else g ||| (1 <<< (r.1 * w / 32))) 0

/-- The enable bits of `%fpmode` in the positions of the flags (Table 7.5). -/
def Proc.enables (p : Proc) : Flags := p.fpmode.extractLsb' 4 5

/-- RM of `%fpmode`. -/
def Proc.rm (p : Proc) : Rm := Rm.ofCode (p.fpmode.extractLsb' 0 2).toNat

/-- The mode of an instruction (R135). -/
def Proc.mode (p : Proc) : Rc → Rm
  | .dyn => p.rm
  | .rne => .rne | .rtz => .rtz | .rup => .rup | .rdn => .rdn

/-! Context classes (R22) -/

/-- What a vector or tile instruction names, for R22: whether it names v8–v15, an accumulator, or belongs to majors
0x27–0x29. -/
def Proc.classBad (p : Proc) (vs : List VIdx) (tileClass : Bool) : Bool :=
  match p.cls with
  | .s => true
  | .v => tileClass || vs.any (fun v => decide (8 ≤ v.toNat))
  | .t => false

/-- The class check of R22 before an instruction is performed. -/
def State.ofClass (s : State) (i : Instr) (vs : List VIdx) (tileClass : Bool) (k : Proc → Out) : Out :=
  s.withProc fun p =>
    if p.classBad vs tileClass then s.raised p .illegal 4 0 (BitVec.ofNat 64 p.cls.num) (instrDetail i) else k p

/-! Streams -/

/-- Fields of MODE and CFG (Table 9.3). -/
def Stream.width (t : Stream) : Nat := (t.mode.extractLsb' 0 2).toNat
def Stream.isWrite (t : Stream) : Bool := t.mode.getLsbD 2
def Stream.ndim (t : Stream) : Nat := (t.mode.extractLsb' 4 2).toNat + 1
def Stream.zend (t : Stream) : Bool := t.mode.getLsbD 8
def Stream.cfg (t : Stream) : Nat → Word
  | 0 => t.cfg0 | 1 => t.cfg1 | 2 => t.cfg2 | _ => t.cfg3
def Stream.count (t : Stream) (k : Nat) : Nat := ((t.cfg k).extractLsb' 0 16).toNat
def Stream.stride (t : Stream) (k : Nat) : Word := ((t.cfg k).extractLsb' 16 32).signExtend 64

/-- Bytes of an element. -/
def Stream.size (t : Stream) : Nat := 4 / 2 ^ t.width
/-- Elements of a vector. -/
def Stream.lanes (t : Stream) : Nat := 64 * 2 ^ t.width

/-- TOTAL (R161). -/
def Stream.total (t : Stream) : Nat := (List.range t.ndim).foldl (fun n k => n * t.count k) 1

/-- ElemAddr (R161). -/
def Stream.elemAddr (t : Stream) (e : Nat) : Word :=
  ((List.range t.ndim).foldl (fun (acc : Word × Nat) k =>
    (acc.1 + BitVec.ofNat 64 (acc.2 % t.count k) * t.stride k, acc.2 / t.count k)) (t.base, e)).1

/-- A stream register's state. -/
def Proc.stream (p : Proc) (i : BitVec 3) : Stream := p.streams[i.toNat]

/-- Replaces a stream's state. -/
def Proc.setStream (p : Proc) (i : BitVec 3) (t : Stream) : Proc := { p with streams := p.streams.set i.toNat t i.isLt }

/-- The stream that a v register is, when it is bound. -/
def Proc.boundAt (p : Proc) (r : VIdx) : Option (BitVec 3) :=
  if 8 ≤ r.toNat ∧ (p.stream (r.setWidth 3)).bound = true then some (r.setWidth 3) else none

/-- Number of the stream register, 8–15, as detail words give it. -/
def streamNo (i : BitVec 3) : Word := BitVec.ofNat 64 (8 + i.toNat)

/-- The lowest stream register that an instruction misuses (R163): a source must be a read stream; a destination a write
stream, and only where the instruction may push. -/
def Proc.misuse (p : Proc) (srcs dsts : List VIdx) (push : Bool) : Option (BitVec 3) :=
  let bad (i : BitVec 3) : Bool :=
    (srcs.any (fun r => p.boundAt r == some i) && (p.stream i).isWrite) ||
      (dsts.any (fun r => p.boundAt r == some i) && !((p.stream i).isWrite && push))
  ((List.range 8).map (BitVec.ofNat 3)).find? bad

/-- An operand phase: it can go on with a value, must wait, or raises a cause. -/
inductive Phase (α : Type)
  | go (a : α)
  | hold (s : State) (w : Wait)
  | stop (c : Cause) (addr d0 d1 : Word)

/-- What reading n bytes at an address comes to (R109, R110, R226). -/
inductive Read
  | val (v : Nat) (marked : Bool)
  | ask (t : Target)
  | held
  | fault (c : Cause) (d0 d1 : Word)

/-- Reads n bytes of memory for an access of the process: the own memory through its own pending writes, a home of the die
once its earlier writes to those bytes have reached it; homes of other dies and the aperture are asked. -/
def State.readAt (s : State) (p : Proc) (a : Word) (n : Nat) (k : Word) : Read :=
  match s.check p a n .rd k with
  | some (c, d0, d1) => .fault c d0 d1
  | none =>
    let t := s.target p.core a.toNat
    if s.heldBack p.core t then .held
    else match t with
      | .own h => .val (s.seen p.core p.pid a.toNat h n) (s.seenMarked p.core p.pid a.toNat h n)
      | .mesh h =>
        if s.packets.any fun q => q.core == p.core && q.counted && !q.queued && decide (q.used < a.toNat + n) &&
            decide (a.toNat < q.used + q.n) then .held
        else .val (s.seen p.core p.pid a.toNat h n) (s.seenMarked p.core p.pid a.toNat h n)
      | t => .ask t

/-- An element of a read stream as the pop finds it: fetched ahead, under way, or read now (R165). -/
def State.popElem (s : State) (p : Proc) (i : BitVec 3) (e : Nat) : Read :=
  let t := p.stream i
  match t.ahead.find? (·.idx == e) with
  | some a =>
    if a.window then .fault .window (BitVec.ofNat 64 t.size) 2
    else match a.link with
      | some (d0, d1) => .fault .link (BitVec.ofNat 64 d0) d1
      | none => .val a.val a.marked
  | none =>
    if s.packets.any fun q => match q.payload with
        | .load _ _ r | .loadRet _ _ r | .linkRet _ _ r | .apRead _ _ _ _ r => r == .ahead p.pid i e
        | _ => false
    then .held
    else s.readAt p (t.elemAddr e) t.size 2

/-- The elements that a pop delivers: position in the vector and element number (R162). -/
def Stream.nextElems (t : Stream) : List (Nat × Nat) :=
  ((List.range t.lanes).map fun j => (j, t.pos + j)).filter fun x => decide (x.2 < t.total)

/-- What the elements of a pop come to, in lane order: lane, address, and the read. -/
def State.popReads (s : State) (p : Proc) (i : BitVec 3) : List (Nat × Word × Read) :=
  (p.stream i).nextElems.map fun x => (x.1, (p.stream i).elemAddr x.2, s.popElem p i x.2)

/-- The cause of the elements of a pop (R164): WINDOW or MEMERR of the lowest such element, else LINK of the lowest. -/
def popFault (size : Nat) (rs : List (Nat × Word × Read)) : Option (Cause × Word × Word × Word) :=
  let cause (c : Cause) (x : Nat × Word × Read) : Option (Cause × Word × Word × Word) :=
    some (c, x.2.1, BitVec.ofNat 64 size, BitVec.ofNat 64 (2 + 256 * x.1))
  (rs.findSome? fun x => match x.2.2 with
    | .fault .window _ _ => cause .window x
    | .val _ true => cause .memerr x
    | _ => none).orElse fun _ => rs.findSome? fun x => match x.2.2 with
    | .fault .window _ _ => none
    | .fault c d0 d1 => some (c, x.2.1, d0, d1)
    | _ => none

/-- A read that has come to something. -/
def Read.settled : Read → Bool
  | .val _ _ | .fault _ _ _ => true
  | _ => false

/-- Requests for elements that must be asked for (R165). -/
def State.askElems (s : State) (p : Proc) (i : BitVec 3) : State :=
  let t := p.stream i
  t.nextElems.foldl (fun s x =>
    match s.popElem p i x.2 with
    | .ask g => s.dispatchPacket p (t.elemAddr x.2) t.size g .ord fun a => .load a t.size (.ahead p.pid i x.2)
    | _ => s) s

/-- Pops a stream (R162): its vector and the process after the pop. At END, with ZEND = 1, the vector is zero. -/
def State.popOne (s : State) (p : Proc) (i : BitVec 3) : Phase Proc :=
  let t := p.stream i
  let r : VIdx := 8#4 ||| i.setWidth 4
  let rs := s.popReads p i
  if t.ended then .go (p.setV r 0)
  else if rs.all fun x => x.2.2.settled then
    match popFault t.size rs with
    | some (c, a, d0, d1) => .stop c a d0 d1
    | none =>
      let ls := rs.map fun x => match x.2.2 with
        | .val v _ => v
        | _ => 0
      let pos := min (t.pos + t.lanes) t.total
      let t := { t with pos := pos, ended := decide (pos = t.total), ahead := t.ahead.filter fun a => decide (pos ≤ a.idx) }
      .go ((p.setStream i t).setV r (ofLanes (8 * t.size) ls))
  else if rs.any fun x => match x.2.2 with | .ask _ => true | _ => false then .hold (s.askElems p i) .pop
  else .hold s .pop

/-- The read streams among the sources, once each, in order of their numbers. -/
def Proc.popped (p : Proc) (srcs : List VIdx) : List (BitVec 3) :=
  ((List.range 8).map (BitVec.ofNat 3)).filter fun i => srcs.any fun r => p.boundAt r == some i

/-- A stream that is at END and gives no zero vector there (R162). -/
def Stream.atEnd (t : Stream) : Bool := t.ended && !t.zend

/-- The STREAM cause of an instruction that pops or pushes at END (R162): its first detail word and the stream. Where several
streams are at END, R164 does not say which is named: that the pops come before the push, and among them the lowest number,
and that misuse (R163) comes before both, is the model's choice (log 53). -/
def Proc.endFault (p : Proc) (srcs : List VIdx) (push : Option (BitVec 3)) : Option (Word × BitVec 3) :=
  (((p.popped srcs).find? fun i => (p.stream i).atEnd).map fun i => (6, i)).orElse fun _ =>
    (push.filter fun i => (p.stream i).atEnd).map fun i => (8, i)

/-- Pops every read stream among the sources (R163), once no stream that the instruction pops or pushes raises STREAM (R164).
-/
def State.popAll (s : State) (p : Proc) (srcs : List VIdx) (push : Option (BitVec 3)) : Phase Proc :=
  match p.endFault srcs push with
  | some (d0, i) => .stop .stream 0 d0 (streamNo i)
  | none => (p.popped srcs).foldl (fun acc i => match acc with
      | .go p => s.popOne p i
      | x => x) (.go p)

/-- The first of a list of checks, in lane order, that fails with a cause other than LINK, else the first that fails: an
instruction checks every element before its first access (R162, R188). -/
def firstFault (rs : List (Option (Cause × Word × Word × Word))) : Option (Cause × Word × Word × Word) :=
  (rs.findSome? fun r => r.filter fun e => e.1 != .link).orElse fun _ => rs.findSome? id

/-- The checks of a push before anything is written (R162, R164). -/
def State.pushCheck (s : State) (p : Proc) (i : BitVec 3) : Option (Cause × Word × Word × Word) :=
  let t := p.stream i
  if t.ended then none
  else firstFault (t.nextElems.map fun x =>
    let at_ := t.elemAddr x.2
    (s.check p at_ t.size .wr 0).map fun e => match e with
      | (.window, d0, _) => (.window, at_, d0, BitVec.ofNat 64 (3 + 256 * x.1))
      | (c, d0, d1) => (c, at_, d0, d1))

/-- The 8-byte granules that a set of elements of z bytes covers whole (R112). -/
def covered (addrs : List Nat) (z : Nat) (a : Nat) : Bool :=
  (List.range (8 / z)).all fun i => addrs.contains (a / 8 * 8 + i * z)

/-- Writes elements of z bytes, in order; `all` are the addresses of the elements that the instruction or push has written, these
included (R112). -/
def State.storeElems (s : State) (p : Proc) (kind : AKind) (z : Nat) (all : List Nat) (els : List (Word × Nat)) : State :=
  els.foldl (fun s e => s.store p e.1 z (s.target p.core e.1.toNat) kind e.2 none (covered all z e.1.toNat)) s

/-- The elements that the memory path accepts in this step, and the rest (R189, R217). -/
def State.accepted {α : Type} (s : State) (els : List α) : List α × List α :=
  match s.part with
  | some n => els.splitAt n
  | none => (els, [])

/-- Pushes a vector (R162). A push that ZEND = 1 discards at END leaves the register as it was: whether the value pushed then
counts as the last one pushed (R193) is the model's choice (log 53). -/
def State.push (s : State) (p : Proc) (i : BitVec 3) (v : VReg) : State × Proc :=
  let t := p.stream i
  let r : VIdx := 8#4 ||| i.setWidth 4
  if t.ended then (s, p)
  else
    let els := t.nextElems.map fun x => (t.elemAddr x.2, lane v (8 * t.size) x.1)
    let pos := min (t.pos + t.lanes) t.total
    (s.storeElems p (.push i) t.size (els.map fun e => e.1.toNat) els,
     (p.setStream i { t with pos := pos, ended := decide (pos = t.total) }).setV r v)

/-- An access of the list has its home on the own die while an earlier cross-die access waits for its stamp (R327). -/
def State.anyHeld (s : State) (p : Proc) (addrs : List Word) : Bool :=
  addrs.any fun a => s.heldBack p.core (s.target p.core a.toNat)

/-! The common course of a vector instruction -/

/-- What a vector instruction computes: a vector for its destination, registers, and the flags of lanes with the width
that places them in granules. -/
structure VRes where
  v : Option VReg := none
  x : Option (XIdx × Word) := none
  m : Option (PIdx × Word) := none
  w : Nat := 32
  lanes : LaneRes := []

/-- The vector registers that an instruction names: sources, destination, whether it reads the destination, and whether it
writes every lane without a mask, so that it may push (R163). -/
structure VUse where
  srcs : List VIdx
  dst : Option VIdx := none
  reads : Bool := false
  push : Bool := false

/-- The addresses that the next push of a stream writes. -/
def Proc.pushAddrs (p : Proc) (i : BitVec 3) : List Word :=
  if (p.stream i).ended then [] else (p.stream i).nextElems.map fun x => (p.stream i).elemAddr x.2

/-- A result is stored: pushed, or put into its register. -/
def State.putVec (s : State) (p : Proc) (d : Option VIdx) (v : Option VReg) : State × Proc :=
  match d, v with
  | some r, some v =>
    match p.boundAt r with
    | some i => s.push p i v
    | none => (s, p.setV r v)
  | _, _ => (s, p)

/-- A vector instruction of majors 0x20–0x26 without memory operands: class (R22), streams (R163, R164), result, ARITH
(R141), flags (R140), commit (R156). -/
def State.vec (s : State) (i : Instr) (u : VUse) (k : Proc → VRes) : Out :=
  s.ofClass i (u.srcs ++ u.dst.toList) false fun p =>
    match p.misuse u.srcs u.dst.toList (u.push && !u.reads) with
    | some t => s.raised p .stream 4 0 7 (streamNo t)
    | none =>
      match s.popAll p u.srcs (u.dst.bind p.boundAt) with
      | .stop c a d0 d1 => s.raised p c 4 a d0 d1
      | .hold s w => .next { s with cpu := some { p with wait := w } }
      | .go q =>
        let pushTo := u.dst.bind q.boundAt
        match pushTo.bind (s.pushCheck q) with
        | some (c, a, d0, d1) => s.raised p c 4 a d0 d1
        | none =>
          if pushTo.any fun t => s.anyHeld q (q.pushAddrs t) then s.stall p
          else
            let r := k q
            let fl := flagsOf r.lanes
            if fl &&& p.enables ≠ 0 then
              s.raised p .arith 4 0 (fl.setWidth 64) (granules r.w p.enables r.lanes)
            else
              let q := { q with fpflags := q.fpflags ||| fl }
              let q := match r.x with
                | some (d, v) => q.setX d v
                | none => q
              let q := match r.m with
                | some (d, v) => q.setP d v
                | none => q
              let (s, q) := s.putVec q u.dst r.v
              s.done (q.advance 4)

/-! Abandoning an instruction at a halt -/

/-- The elements of a vector load that have returned, up to the first that has not, or that bears a mark. -/
def vloadPrefix : List VElem → List VElem
  | [] => []
  | e :: r =>
    match e.val with
    | some (_, false) => e :: vloadPrefix r
    | _ => []

/-- Elements written to their lanes. -/
def putElems (v : VReg) (w : Nat) (els : List VElem) : VReg :=
  putLanes v w (els.flatMap fun e => match e.val with
    | some (x, _) => e.lanes.map fun l => (l, (x, (0 : Flags)))
    | none => [])

/-- A halt abandons an incomplete instruction (R47); a vector load keeps the lanes that are complete and VPROG (R189), a vector
store VPROG, a product its K-groups (R217). -/
def Proc.abandon (p : Proc) : Proc :=
  let p := { p with tile := none, tdone := 0 }
  match p.wait with
  | .vload d z els =>
    let done := vloadPrefix els
    let rest := els.drop done.length
    match done, rest with
    | [], _ => { p with wait := .none }
    | _, e :: _ => if 1 < e.lanes.length then { p with wait := .none } else
      { (p.setV d (putElems (p.getV d) (8 * z) done)) with wait := .none, vprog := e.lane }
    | _, [] => { p with wait := .none }
  | .migrating _ _ _ => p
  | _ => { p with wait := .none }

end Sys2Proof.Machine
end

