-- ==== Sys2Proof/Machine/Procs.lean ====
section
/-! DEFINITION. What happens to processes between their instructions (01): records and replies, halts, dispatch, quantum,
class 0, ghost light, spill and fill, loans. Each is enabled when its rule says that it occurs; else nothing changes. -/

namespace Sys2Proof.Machine

/-! Records and replies (R55, R57, R59) -/

/-- A record that waits finds its endpoint able to take it: there is a free slot, or the endpoint is gone (R55). -/
def State.canSend (s : State) (r : Record) : Bool :=
  match r.via.bind fun v => (s.faultChan v).map fun c => (v, c) with
  | none => true
  | some (v, c) => s.slotFree v c

/-- Two records are for one endpoint. -/
def State.sameEndpoint (s : State) (r q : Record) : Bool :=
  match r.via.bind s.faultChan with
  | some c => s.isFor c q
  | none => false

/-- The first of the records that wait that can be sent; one does not pass an earlier one for its endpoint (R55). -/
def State.nextRecord (s : State) : List Record → List Record → Option Record
  | _, [] => none
  | before, r :: rest =>
    if s.canSend r && !before.any (s.sameEndpoint r) then some r else State.nextRecord s (before ++ [r]) rest

/-- A record leaves its queue on a die for its endpoint, or for the stage manager when the endpoint is gone (R55). -/
def State.deliverRecord (s : State) (die : Nat) (r : Record) : State :=
  match r.via.bind s.faultChan with
  | none => s.postMachine r
  | some c => s.putFrame die r.region c 0 r.words

/-- Number that stands for the stage manager's own queue of records. -/
def managerId : Nat := 0x10000

/-- FAULT_RECORD_SEND (R57): the first waiting record of a core, or of the stage manager, that can be sent. -/
def execFaultRecordSend (s : State) : Out :=
  let n := Subject.num s.subj
  if n = managerId then
    match s.nextRecord [] s.managerRecords with
    | some r => .next ({ s with managerRecords := s.managerRecords.erase r }.deliverRecord 0 r)
    | none => .next s
  else
    match s.nextRecord [] (s.core n).records with
    | some r => .next ((s.modCore n fun k => { k with records := k.records.erase r }).deliverRecord (dieOf n) r)
    | none => .next s

/-- Region of the supervisor that sent a message on a reply endpoint: its last word is the sender's PID. -/
def State.supervisorRegion (s : State) (c : Channel) (m : List Word) : Nat :=
  match s.proc? (m.getLastD 0).toNat with
  | some p => p.region
  | none => c.region

/-- FAULT_REPLY (R59): the device takes the oldest message of a reply endpoint. -/
def execFaultReply (s : State) : Out :=
  match s.chan? (Subject.num s.subj) (Subject.second s.subj) with
  | none => .next s
  | some c =>
    match c.queue with
    | [] => .next s
    | m :: q =>
      if c.rx.holder ≠ .device ∨ c.outside ≠ .none then .next s else
      let top := s.supervisorRegion c m
      let die := placeDie (s.anchorPlace c)
      let s := (s.putChan { c with queue := q }).settle c.table c.name
      .next (s.sendReply die (some top) (m.getD 0 0) (m.getD 1 0))

/-- MONITOR_REPLY (R55): the monitor, on die 0, answers through its mailbox, any FAULTED process (R59), or ends a region. -/
def execMonitorReply (s : State) : Out :=
  match s.subj with
  | .monitor (.reply w0 w1) => .next (s.sendReply 0 none w0 w1)
  | .monitor (.endRegion r) =>
    match s.region? r with
    | some q =>
      if q.ended then .next s else
      let rec_ : Record := { cause := .spawn, d0 := Config.detail s.free, d1 := Config.detail (s.free + 1) }
      .next ({ s with free := s.free + 2 }.endRegion r none rec_)
    | none => .next s
  | _ => .next s

/-! Leaving RUNNING and dispatch (R40, R47) -/

/-- The running process of a core stops at an instruction boundary (R47): an instruction short of completion is abandoned,
the halt request and the ghost light's choice lapse. `back` says how the process becomes READY. -/
def State.stopRunning (s : State) (p : Proc) (back : State → Proc → Proc) : State :=
  let s := s.dropLoads p.pid
  let p := { p.abandon with lastRun := s.ns }
  let s := s.leaveRunning (back s p)
  s.modCore p.core fun k => { k with halt := none, ghostRun := false }

/-- A process returns to the head of its class with the rest of its quantum (R40). -/
def State.toHead (s : State) (p : Proc) : Proc := { p with st := .ready, key := s.headKey p.core }

/-- An instruction that has taken effect at an anchor and waits for the answer: a halt comes behind it (log 58). -/
def Proc.asking (p : Proc) : Bool :=
  match p.wait with
  | .anchor _ _ => true
  | _ => false

/-- PREEMPTION_HALT (R47). -/
def execPreemptionHalt (s : State) : Out :=
  let c := Subject.num s.subj
  match (s.core c).halt, s.runningOn c with
  | some h, some p =>
    .next (if p.asking then s else s.stopRunning p (if h = .quantum then State.toTail else State.toHead))
  | _, _ => .next s

/-- A process begins to run on its core. -/
def State.startRunning (s : State) (p : Proc) : State :=
  let p := { p with st := .running, ran := true }
  if s.focus = p.core then { s with cpu := some p, procs := s.procs.filter (·.pid != p.pid) } else s.putProc p

/-- The blocking instruction that a process waited in completes, or raises its cause, now that the process runs (R31). -/
def State.finishWait (s : State) (p : Proc) : State :=
  match p.done with
  | none => s
  | some (.regs ws) => s.putProc ({ p with done := none }.setRun ws |>.advance 4)
  | some (.cause c a d0 d1) => s.raise { p with done := none } c (some 4) a d0 d1

/-- DISPATCH (R39, R41, R44): the scheduler's choice runs. Read-ahead that was under way when it last ran is not taken (R166).
-/
def execDispatch (s : State) : Out :=
  let c := Subject.num s.subj
  if s.coreLive c = false ∨ (s.runningOn c).isSome = true then .next s
  else match s.choice c with
    | none => .next s
    | some (p, ghost) =>
      if p.loc ≠ .green then .next s else
      let s := s.modCore c fun k =>
        { k with halt := none, ghostRun := ghost, chosenIn := s.cycleOf c / ghostWindow, early := [] }
      let s := (s.dropLoads p.pid).startRunning p.switchIn
      match s.proc? p.pid with
      | some q => .next (s.finishWait q)
      | none => .next s

/-- QUANTUM_EXPIRY (R40). -/
def execQuantumExpiry (s : State) : Out :=
  let c := Subject.num s.subj
  match s.runningOn c with
  | none => .next s
  | some p =>
    if p.eff = 0 ∨ p.quantum ≠ 0 ∨ (s.core c).halt.isSome = true ∨ (s.core c).ghostRun = true then .next s
    else if (s.wings c).any (·.eff == p.eff) then .next (s.askHalt c .quantum)
    else .next (s.putProc { p with quantum := (s.core c).quant })

/-! Class 0 (R41, R43, R46) -/

/-- A release: budget and deadline are renewed and a demotion ends (R41). -/
def Proc.renew (p : Proc) (at_ : Nat) : Proc :=
  { p with budget := BitVec.ofNat 64 p.fullBudget, deadline := BitVec.ofNat 64 (at_ + p.period),
           release := at_ + p.period, dem := false }

/-- EFF of a process is recomputed; one whose EFF changes joins the tail of its new class (R317): a RUNNING one at its next
instruction boundary, behind those that are READY there. -/
def State.refreshEff (s : State) (pid : Nat) : State :=
  match s.proc? pid with
  | none => s
  | some p =>
    let q := s.reEff p
    if q.st = .ready ∧ q.eff ≠ p.eff then (s.putProc (s.toTail q)).urge p.core
    else
      let s := s.putProc q
      let s := if q.st = .running ∧ q.eff ≠ p.eff ∧ q.eff ≠ 0 ∧ (s.wings q.core).any (·.eff == q.eff) = true
        then s.askHalt q.core .quantum else s
      if q.st = .running ∨ q.st = .ready then s.urge p.core else s

/-- EFF of those who borrow from a process is recomputed. -/
def State.refreshBorrowers (s : State) (lender : Nat) : State :=
  (s.allProcs.filter fun p => p.loans.any (·.lender == lender)).foldl (fun t p => t.refreshEff p.pid) s

/-- CLASS0_RELEASE (R41, R43). -/
def execClass0Release (s : State) : Out :=
  match s.proc? (Subject.num s.subj) with
  | none => .next s
  | some p =>
    if p.placed = true ∧ p.base = 0 ∧ p.release ≤ s.ns then
      .next (((s.putProc (p.renew p.release)).refreshEff p.pid).refreshBorrowers p.pid)
    else .next s

/-- The BUDGET notification (R43, R56); the rule states no detail words (log 12). -/
def State.reportBudget (s : State) (core : Nat) (p : Proc) : State :=
  { s with free := s.free + 2 }.notify core .budget p.region p.pid p.priv p.pc 0 (Config.detail s.free)
    (Config.detail (s.free + 1))

/-- A budget is used up. -/
def Proc.overrun (p : Proc) : Bool := p.base == 0 && !p.dem && p.budget.sle 0

/-- BUDGET_EXHAUSTED (R43): the running class-0 process is reported, demoted, and joins the tail of the class it falls to.
The same of the lender that pays for the running process (R46): its loan falls to class 1. -/
def execBudgetExhausted (s : State) : Out :=
  match s.runningOn (Subject.num s.subj) with
  | none => .next s
  | some p =>
    if p.asking then .next s
    else if p.overrun then
      let s := s.reportBudget p.core p
      .next (s.stopRunning p fun t q => t.toTail (t.reEff { q with dem := true }))
    else match (s.orders p).bind fun l => s.proc? l.lender with
      | some q =>
        if p.eff = 0 ∧ q.overrun = true then
          let s := s.reportBudget p.core q
          let s := s.putProc (s.reEff { q with dem := true })
          .next (s.refreshBorrowers q.pid)
        else .next s
      | none => .next s

/-! Ghost light (R44) -/

/-- The ghost light's allowance is over: the process that ran under it is halted when a more urgent class is ready, else it
goes on in its own turn. -/
def State.endGhost (s : State) (c : Nat) : State :=
  match s.runningOn c with
  | none => s
  | some p =>
    if (s.core c).ghostRun = false then s
    else if (s.wings c).any fun q => decide (q.eff < p.eff) then s.askHalt c .ghost
    else s.modCore c fun k => { k with ghostRun := false }

/-- GHOST_LIGHT_WINDOW (R44): a new window begins with a count of 0. -/
def execGhostLightWindow (s : State) : Out :=
  let c := Subject.num s.subj
  let w := s.cycleOf c / ghostWindow
  let k := s.core c
  if k.window ≠ w ∨ (k.ghostRun = true ∧ k.chosenIn ≠ w ∧ k.halt.isNone = true) then
    let s := if k.window = w then s else s.modCore c fun k => { k with window := w, ghost := 0 }
    let s := if k.chosenIn = w then s else s.endGhost c
    .next (s.urge c)
  else .next s

/-- GHOST_LIGHT_ALLOWANCE_END (R44). -/
def execGhostLightAllowanceEnd (s : State) : Out :=
  let c := Subject.num s.subj
  if ghostAllowance ≤ s.ghostCount c ∧ (s.core c).halt.isNone = true then .next (s.endGhost c) else .next s

/-! Spill and fill (R27–R31) -/

/-- The record of a process's fault waits to be delivered (R57). -/
def State.recordWaits (s : State) (p : Proc) : Bool := (s.core p.core).records.any fun r => r.held && r.pid == p.pid

/-- Place of a process in the order of victims for a process of an effective class (R28, R31); none when it is no victim. -/
def State.victimRank (s : State) (eff : Nat) (p : Proc) : Option Nat :=
  if p.loc ≠ .green ∨ p.base = 0 ∨ p.eff = 0 ∨ s.recordWaits p = true then none
  else match p.st with
    | .blocked _ => some 0
    | .ready => if eff < p.eff then some (4 - p.eff) else none
    | .faulted => some 4
    | _ => none

/-- The next victim on a core (R28): by rank, then least recently run. -/
def State.victim (s : State) (c eff : Nat) : Option Proc :=
  ((s.onCore c).foldl (fun (b : Option (Nat × Proc)) p =>
    match s.victimRank eff p, b with
    | none, _ => b
    | some r, none => some (r, p)
    | some r, some (r', q) =>
      if r < r' ∨ (r = r' ∧ (p.lastRun < q.lastRun ∨ (p.lastRun = q.lastRun ∧ p.pid < q.pid))) then some (r, p) else b)
    none).map (·.2)

/-- A context moves to the park area (Table 1.2). What a BLOCKED process has lent stays lent: that its parked wait is still
BLOCKED in the sense of R45 is the model's choice (log 44). -/
def State.spill (s : State) (p : Proc) : State :=
  s.putProc { p with
    loc := .park
    since := if p.st = .ready then s.ns else p.since
    st := match p.st with
      | .ready => .parked none
      | .blocked r => .parked (some r)
      | x => x }

/-- The green room of a core has space for so many units. -/
def State.fits (s : State) (c units : Nat) : Bool := decide (s.greenUsed c + units ≤ Config.greenUnits)

/-- The park area has space for a context. -/
def State.parkFits (s : State) (c : Nat) (p : Proc) : Bool := decide (p.cls.units * 256 ≤ s.parkFree c)

/-- Spills one victim for so many units, when one is needed, one exists and the park area can take it. R28 does not say what
happens when the park area has no room for the first victim of its order: that no other is tried, and the fill waits, is the
model's choice (log 65). -/
def State.spillOne (s : State) (c eff : Nat) : Option State :=
  match s.victim c eff with
  | some v => if s.parkFits c v then some (s.spill v) else none
  | none => none

/-- Frees space by spilling victims (R28); none when too few exist. -/
def State.makeRoom (s : State) (c units eff : Nat) : Nat → Option State
  | 0 => if s.fits c units then some s else none
  | n + 1 =>
    if s.fits c units then some s
    else match s.spillOne c eff with
      | some t => State.makeRoom t c units eff n
      | none => none

/-- A process whose fill is pending: a PARKED one whose wait is over, or one that a reply has made READY while its context
was spilled (R30, R31, log 45). -/
def Proc.wantsFill (p : Proc) : Bool :=
  (p.st == .parked none || p.st == .ready) && p.loc == .park && p.bound?.isNone

/-- The fill that a core serves next: by effective class, then by age (R28). -/
def State.nextFill (s : State) (c : Nat) : Option Proc :=
  (s.onCore c).foldl (fun b p =>
    if !p.wantsFill then b
    else match b with
      | none => some p
      | some q =>
        if p.eff < q.eff ∨ (p.eff = q.eff ∧ (p.since < q.since ∨ (p.since = q.since ∧ p.pid < q.pid))) then some p else b)
    none

/-- SPILL_DONE (R27, R28): a victim makes way for the fill that is served next. -/
def execSpillDone (s : State) : Out :=
  let c := Subject.num s.subj
  match s.nextFill c with
  | none => .next s
  | some p =>
    if s.fits c p.cls.units then .next s
    else match s.spillOne c p.eff with
      | some t => .next t
      | none => .next s

/-- FILL_DONE (R27): the process becomes READY. -/
def execFillDone (s : State) : Out :=
  let c := Subject.num s.subj
  match s.nextFill c with
  | none => .next s
  | some p =>
    if s.fits c p.cls.units then .next ((s.putProc (s.toTail { p with loc := .green })).urge c) else .next s

/-! Loans (R45, R46) -/

/-- PRIORITY_LOAN (R45, R46): a class-0 loan that reaches another core arrives as class 1; a borrower that is itself blocked
passes it on. -/
def execPriorityLoan (s : State) : Out :=
  match s.loanMsgs.find? (·.id == Subject.num s.subj) with
  | none => .next s
  | some m =>
    let s := { s with loanMsgs := s.loanMsgs.filter (·.id != m.id) }
    match s.proc? m.lender, s.proc? m.tgt with
    | some l, some p =>
      if p.placed = false ∨ m.lender = m.tgt ∨ l.isBlocked = false then .next s else
      let cls := if m.cls = 0 ∧ l.core ≠ p.core then 1 else m.cls
      let loan : Loan := { lender := m.lender, cls := cls, deadline := m.deadline, hop := m.hop }
      let s := (s.putProc { p with loans := p.loans.filter (·.lender != m.lender) ++ [loan] }).refreshEff p.pid
      match s.proc? m.tgt with
      | some q =>
        match s.lendTo q with
        | some t => .next (if m.hop < loanHops then s.sendLoan m.lender t cls m.deadline (m.hop + 1) else s)
        | none => .next s
      | none => .next s
    | _, _ => .next s

end Sys2Proof.Machine
end

