-- ==== Sys2Proof/Machine/Placement.lean ====
section
/-! DEFINITION. Placing processes (R35, R42, R49, R50, R313–R315, R390) and moving them (R51, R52, R318). -/

namespace Sys2Proof.Machine

/-! Room on a core -/

/-- Cores that hold processes of a region's subtree, and the green-room units of those processes (R35). -/
def State.coresOf (s : State) (region without : Nat) : List Nat :=
  ((s.allProcs.filter fun p => p.placed && p.pid != without && s.inSubtree region p.region).flatMap Proc.cores).eraseDups
def State.unitsOf (s : State) (region without : Nat) : Nat :=
  (s.allProcs.filter fun p => p.placed && p.pid != without && s.inSubtree region p.region).foldl
    (fun n p => n + p.cls.units) 0

/-- A process on a core keeps the budgets of its region and of every ancestor (R35). -/
def State.budgetsOk (s : State) (c : Nat) (p : Proc) : Bool :=
  (s.ancestors levels p.region).all fun r =>
    decide ((c :: (s.coresOf r p.pid).filter (· != c)).length ≤ s.effCorebud r) &&
      decide (s.unitsOf r p.pid + p.cls.units ≤ s.effGrbud r)

/-- The core can take processes at all (R3, R337). -/
def State.coreTakes (s : State) (c : Nat) : Bool := s.corePresent c && !(s.die (dieOf c)).coreReset

/-- A free descriptor (R21), binding entries (R281). -/
def State.descriptorsOk (s : State) (c : Nat) : Bool := decide ((s.claimants c).length < Config.descriptors)
def State.entriesOk (s : State) (c pid : Nat) : Bool :=
  decide (s.entriesOn c + (s.endsOf pid).length ≤ Config.bindingEntries)

/-- A NEW process takes its place on a core: READY in the green room, freed by R28 where need be, or, an instance of a
LAUNCH, PARKED (Table 1.2). A class-0 process is admitted and released (R41). -/
def State.placeOn (s : State) (c : Nat) (p : Proc) : Option State :=
  if s.coreTakes c && s.descriptorsOk c && s.budgetsOk c p && s.entriesOk c p.pid &&
      (p.base != 0 || s.admits c p.pid p.period p.fullBudget) then
    let p := { p with core := c, since := s.ns }
    let p := if p.base = 0 then p.renew s.ns else p
    let p := s.reEff p
    let s := s.putProc p
    match s.makeRoom c p.cls.units p.eff (s.onCore c).length with
    | some t =>
      let t := (t.putProc (t.toTail { p with loc := .green })).urge c
      if t.parkOk c then some t else none
    | none =>
      if p.image.isSome then
        let t := s.putProc { p with st := .parked none, loc := .park }
        if t.parkOk c then some t else none
      else none
  else none

/-- The cores a member may take (R313). -/
def Member.range (m : Member) : List Nat :=
  (List.range (m.last + 1 - m.first)).map fun i => coreOf m.die m.clus (m.first + i)

/-- Places a member on the lowest core of its range that takes it (R314). -/
def State.placeMember (s : State) (m : Member) : Option State :=
  match s.proc? m.pid with
  | none => none
  | some p => m.range.findSome? fun c => s.placeOn c p

/-- Places every member or none (R50). -/
def State.placeAll (s : State) : List Member → Option State
  | [] => some s
  | m :: ms =>
    match s.placeMember m with
    | some t => State.placeAll t ms
    | none => none

/-- A member of a placement is refused: its die is in a core-domain reset (R338; that this ends the placement at once, with
the reason 2 of R390, is the model's choice, log 48), or it is refused admission (R390): on no core of its range does the
test of R42 pass with that member added. -/
def State.refuses (s : State) (m : Member) : Bool :=
  (s.die m.die).coreReset || match s.proc? m.pid with
  | some p => p.base == 0 && !m.range.any fun c => s.coreTakes c && s.admits c p.pid p.period p.fullBudget
  | none => false

/-! Outcomes of a placement -/

/-- Whom a notification about a member is for: SPAWN (R50), or the LINK of its RESULT word (R387), with COORD at issue (R57). -/
def State.memberAuthor (s : State) (m : Member) : Author :=
  match s.proc? m.issuer with
  | some p =>
    { core := m.issuerCore, pid := m.issuer, region := p.region, priv := p.priv, pc := m.issuerPc, used := 0, coord := m.issuerCoord }
  | none =>
    { core := m.issuerCore, pid := m.issuer, region := 0, priv := .u, pc := m.issuerPc, used := 0, coord := m.issuerCoord }

/-- The RESULT word of a spawn (R315): an engine write of the stage manager. -/
def State.writeResult (s : State) (m : Member) (v : Nat) : State :=
  if m.result = 0 then s
  else
    let a := s.memberAuthor m
    s.engineWrite 0 (engineWord m.result 8 v) (some a) a.region

/-- Members of a placement are removed from it when their processes have ended. -/
def State.dropPlacement (s : State) (id : Nat) : State := { s with placements := s.placements.filter (·.id != id) }

/-- The placement has committed (R315). -/
def State.commitPlacement (s : State) (pl : Placement) : State :=
  pl.members.foldl (fun t m => t.writeResult m m.pid) (s.dropPlacement pl.id)

/-- The distinct issuers of a placement. -/
def Placement.issuers (pl : Placement) : List Member :=
  pl.members.foldl (fun l m => if l.any (·.issuer == m.issuer) then l else l ++ [m]) []

/-! LAUNCH commands that wait for placements -/

/-- The commands in progress on the thread and in its trigger's list. -/
def Thread.curs (t : Thread) : List CurItem := t.cur.toList ++ (t.sub.bind (·.cur)).toList

/-- Changes what a command in progress waits for. -/
def CurItem.map (c : CurItem) (f : Pending → Pending) : CurItem := { c with pending := f c.pending }

/-- Changes what every command in progress of a thread waits for. -/
def Thread.mapPending (t : Thread) (f : Pending → Pending) : Thread :=
  { t with cur := t.cur.map (·.map f), sub := t.sub.map fun r => { r with cur := r.cur.map (·.map f) } }

/-- A placement of a LAUNCH has failed: the members not placed, and the reason. -/
def Pending.fail (p : Pending) (id n reason : Nat) : Pending :=
  match p with
  | .launch pids pls wait after none o l => if pls.contains id then .launch pids pls wait after (some (n, reason)) o l else p
  | p => p

/-- The placements of the LAUNCH that a placement belongs to; of a spawn, itself. -/
def State.together (s : State) (pl : Placement) : List Placement :=
  if pl.thread.isNone then [pl]
  else
    let ids := ((s.threads.flatMap Thread.curs).filterMap fun c => match c.pending with
      | .launch _ pls _ _ _ _ _ => if pls.contains pl.id then some pls else none
      | _ => none).flatten
    s.placements.filter fun q => q.id == pl.id || ids.contains q.id

/-- Instances of the LAUNCH that a placement belongs to which are placed and have not run: a refusal ends them too (R390). -/
def State.notRun (s : State) (pl : Placement) : List Nat :=
  ((s.threads.flatMap Thread.curs).flatMap fun c => match c.pending with
    | .launch pids pls _ _ _ _ _ => if pls.contains pl.id then pids else []
    | _ => []).filter fun n => (s.proc? n).any fun p => p.placed && !p.ran

/-- The placement has failed (R50, R315, R390): every member goes to EXITED without having run; 1 is a time-out and 2 a
refused admission, which ends a LAUNCH as a whole; instances of it that have run stay (log 30). A spawn is reported to the
region of each issuer, a LAUNCH by its command. -/
def State.failPlacement (s : State) (pl : Placement) (reason : Nat) : State :=
  let pls := if reason = 2 then s.together pl else [pl]
  let ms := pls.flatMap (·.members)
  let n := ms.length
  let early := if reason = 2 then s.notRun pl else []
  let s := pls.foldl (fun t q => t.dropPlacement q.id) s
  let s := (ms.map (·.pid) ++ early).foldl (fun t n => t.exitProc n .neverRan) s
  let s := ms.foldl (fun t m => t.writeResult m (2 ^ 63 + reason * 2 ^ 48 + n)) s
  if pl.thread.isSome then { s with threads := s.threads.map fun t => t.mapPending (·.fail pl.id n reason) }
  else pl.issuers.foldl (fun t m =>
    t.report (t.memberAuthor m) .spawn 0 (BitVec.ofNat 64 n) (BitVec.ofNat 64 reason)) s

/-- Nanoseconds of the placement time-out of a placement (Table 1.3). -/
def State.placeLimit (s : State) (pl : Placement) : Nat := s.effPlto pl.region * 1000

/-- A placement has all its members (R314). -/
def Placement.complete (pl : Placement) : Bool := decide (pl.gcount ≤ pl.members.length)

/-- One attempt to place: committed, refused, or left waiting. -/
inductive Attempt
  | placed (s : State)
  | refused
  | waits

/-- An attempt (R390): refusal is tested first, over all members of the spawn, the group or the LAUNCH. An instance of a LAUNCH
waits until every core has received its images (R95). -/
def State.attempt (s : State) (pl : Placement) : Attempt :=
  if !pl.complete then .waits
  else if (s.together pl).any (fun q => q.members.any s.refuses) then .refused
  else if pl.images != 0 && s.engineBusy pl.images then .waits
  else match s.placeAll pl.members with
    | some t => .placed t
    | none => .waits

/-- Attempts a placement that is listed. -/
def State.tryPlacement (s : State) (pl : Placement) : State :=
  match s.attempt pl with
  | .placed t => t.commitPlacement pl
  | .refused => s.failPlacement pl 2
  | .waits => s

/-- A placement by its number. -/
def State.placement? (s : State) (id : Nat) : Option Placement := s.placements.find? (·.id == id)

/-! Migration (R51, R52) -/

/-- The data block and the text of an image of a process, as they stand on a core. -/
def Image.blocks (im : Image) (p : Proc) (c : Nat) : Placed × Placed :=
  let data : Placed := { core := c, slot := im.slot, region := p.region, role := im.role, isText := false, off := im.data,
                         len := im.dataLen, pid := p.pid }
  (data, { data with isText := true, off := im.text, len := im.textLen, pid := 0 })

/-- The images on a core, and those that `migr` has tested for it and that are on their way to it (R52, R318). -/
def State.images (s : State) (c : Nat) : List Placed :=
  (s.placed.filter (·.core == c)) ++ (s.allProcs.filter fun p => p.claims c && p.core != c).flatMap fun p =>
    match p.image with
    | some im => [(im.blocks p c).1, (im.blocks p c).2]
    | none => []

/-- Images of a core that overlap a range. -/
def State.imageAt (s : State) (c off n : Nat) : Bool :=
  (s.images c).any fun b => decide (b.off < off + n) && decide (off < b.off + b.len)

/-- A range of a core is free for an image (R52). -/
def State.imageFits (s : State) (c off n : Nat) : Bool := decide (off + n ≤ s.parkStart c) && !s.imageAt c off n

/-- The text of a process's role is among blocks, at the offset that the process knows. -/
def hasText (bs : List Placed) (c : Nat) (p : Proc) (im : Image) : Bool := bs.contains (im.blocks p c).2

/-- The image of a process can move to a core (R52). -/
def State.imageMoves (s : State) (c : Nat) (p : Proc) : Bool :=
  match p.image with
  | none => true
  | some im => s.imageFits c im.data im.dataLen && (hasText (s.images c) c p im || s.imageFits c im.text im.textLen)

/-- Status 2 of R318: the core lacks what the process needs. The process leaves its present core. -/
def State.canMove (s : State) (c : Nat) (p : Proc) : Bool :=
  s.coreTakes c && s.descriptorsOk c && s.entriesOk c p.pid && s.budgetsOk c p && s.imageMoves c p &&
    (let q := { p with core := c, loc := .park }
     let t := s.putProc q
     t.parkOk c && (t.makeRoom c p.cls.units p.eff (s.onCore c).length).isSome)

/-- Admission of a process on another core (R42). -/
def State.canAdmit (s : State) (c : Nat) (p : Proc) : Bool := p.base != 0 || s.admits c p.pid p.period p.fullBudget

/-- The loader windows of a region on a core (R98): one over its text, one over its data. Where the texts, or the data blocks,
do not lie next to each other, R98 does not say how one window covers them: the window from the lowest to the highest byte,
with whatever lies between, is the model's choice (log 49). -/
def State.reloadWins (s : State) (region c : Nat) : State :=
  let cover (text : Bool) : List LoaderWin :=
    match s.placed.filter fun b => b.region == region && b.core == c && b.isText == text && b.len != 0 with
    | [] => []
    | b :: bs =>
      let lo := bs.foldl (fun n x => min n x.off) b.off
      let hi := bs.foldl (fun n x => max n (x.off + x.len)) (b.off + b.len)
      [{ region := region, core := c,
         win := { base := lo, limit := hi - 1, rd := true, wr := !text, ex := text } }]
  { s with loaderWins := (s.loaderWins.filter fun l => !(l.region == region && l.core == c)) ++ cover true ++ cover false }

/-- Copies a block of a core's local memory to the same offsets of another core, each word set full (R52, R245). A word that
reads with an error bears a mark at the destination, and every other word of the copy none (R112, log 50). -/
def State.copyBlock (s : State) (src dst off n : Nat) : State :=
  let a := globalBase src + off
  let b := globalBase dst + off
  let out (w : Nat) : Bool := decide (w + 8 ≤ b) || decide (b + n ≤ w)
  let bad := (s.marks ++ s.latent).filter fun w => decide (a < w + 8) && decide (w < a + n)
  { s with mem := s.mem.copy a b n
           empty := s.empty.filter out
           marks := bad.foldl (fun l w => insertAddr (wordAt (w + b - a)) l) (s.marks.filter out)
           latent := s.latent.filter out }

/-- An instance on a core other than a process uses the text of its image: one whose data block lies there, placed or still
to be placed. -/
def State.textUsed (s : State) (c : Nat) (im : Image) (p : Proc) : Bool :=
  s.placed.any fun b => b.core == c && !b.isText && b.slot == im.slot && b.role == im.role && b.region == p.region &&
    b.pid != p.pid && (match s.proc? b.pid with
    | some q => q.st != .exited
    | none => false)

/-- The image of a process moves with it (R52). -/
def State.moveImage (s : State) (p : Proc) (c : Nat) : State :=
  match p.image with
  | none => s
  | some im =>
    let has := hasText s.placed c p im
    let s := s.copyBlock p.core c im.data im.dataLen
    let s := if has then s else s.copyBlock p.core c im.text im.textLen
    let old := im.blocks p p.core
    let gone := if s.textUsed p.core im p then [old.1] else [old.1, old.2]
    let new := im.blocks p c
    let s := { s with placed := (s.placed.filter fun b => !gone.contains b) ++ [new.1] ++ (if has then [] else [new.2]) }
    (s.reloadWins p.region p.core).reloadWins p.region c

/-- An engine write to the memory of a core, under way or at its home (R245). -/
def Packet.engineAt (q : Packet) (c : Nat) : Bool :=
  match q.payload with
  | .engine w _ _ => homeOf w.addr == c
  | _ => false

/-- A request of a process has its local side or its completion word on a core (R267). -/
def MsReq.uses (r : MsReq) (pid c : Nat) : Bool :=
  r.pid == pid && (homeOf r.blk.loc == c || homeOf r.blk.compl == c || homeOf r.blk.index == c)

/-- Nothing that the process has under way keeps its descriptor from moving (R51, R238 row 1, R247, R249, R287): its accesses
have been performed, those that wait in reservation queues included (log 46), no tile transfer of it runs, and the engine writes
to the core that it leaves have been made there. -/
def State.settledProc (s : State) (pid : Nat) : Bool :=
  !(s.packets.any fun q => q.pid == pid) && !(s.transfers.any fun t => t.tx == pid || t.rx == pid) &&
    (match s.proc? pid with
      | some p => !(s.packets.any fun q => q.engineAt p.core) && !(s.requests.any fun r => r.uses pid p.core)
      | none => true)

/-- Steps 2 and 3 of a migration (R51): the process is spilled and its ends are in transit. -/
def State.beginMove (s : State) (p : Proc) : State := (s.putProc { p with loc := .park }).transitEnds p.pid true

/-- The rings whose frames the process receives move with its memory (R51, R292). -/
def State.moveRings (s : State) (p : Proc) (c : Nat) : State :=
  { s with channels := s.channels.map fun ch =>
      if ch.rx.holder = .proc p.pid then
        { ch with ring := ch.ring.map fun r => if r.core = p.core then { r with core := c } else r }
      else ch }

/-- Steps 4 and 5 of a migration (R51): descriptor, context, image and rings move, and the ends are usable again. What the
process has borrowed and what it has lent is worth what it is on the new core (R46). -/
def State.finishMove (s : State) (p : Proc) (c : Nat) : State :=
  let s := (s.moveImage p c).moveRings p c
  let s := s.putProc (s.reEff { p with core := c, loc := .park })
  (s.refreshBorrowers p.pid).transitEnds p.pid false

/-- The packet in which a process is on its way to another die, or has reached it (R51, R321). -/
def State.movePacket (s : State) (pid : Nat) : Option Packet := s.packets.find? fun q => q.payload == .move pid

/-- The descriptor, context and image of a process set out for another die in a stamped packet (Table 19.1). -/
def State.sendMove (s : State) (p : Proc) (c : Nat) : State :=
  let (id, s) := s.freshId
  { s with packets := s.packets ++ [{ p.notice id (dieOf p.core) (.move p.pid) with pid := 0, dst := dieOf c }] }

/-- MIGRATION (R51, R318): a process that `migr` has taken from its core arrives, PARKED with a fill pending, and `migr`
completes with status 0: what it was tested for has been kept for it (`Proc.claims`, `State.images`). A target die that is
lost or in reset meanwhile refuses it (R318, R338). A process that compaction sent to another die arrives there, or stays. -/
def execMigration (s : State) : Out :=
  match s.proc? (Subject.num s.subj) with
  | none => .next s
  | some p =>
    match p.wait with
    | .migrating c d _ =>
      let ended (k : Word) : Proc := { p with wait := .none, done := some (.regs [(d, k)]), since := s.ns }
      match s.movePacket p.pid with
      | some q =>
        if q.path ≠ .mesh then .next s
        else
          let s := s.dropPacket q.id
          if s.coreTakes c then .next (s.finishMove (ended 0) c) else .next ((s.putProc (ended 2)).transitEnds p.pid false)
      | none =>
        if p.st = .parked none ∧ s.settledProc p.pid = true then
          if !s.diePresent (dieOf c) then .next ((s.putProc (ended 3)).transitEnds p.pid false)
          else if !s.coreTakes c then .next ((s.putProc (ended 2)).transitEnds p.pid false)
          else if dieOf c = dieOf p.core then .next (s.finishMove (ended 0) c)
          else .next (s.sendMove p c)
        else .next s
    | _ =>
      match p.moving with
      | some c =>
        let stays : State := (s.putProc { p with moving := none }).transitEnds p.pid false
        match s.movePacket p.pid with
        | some q =>
          if q.path ≠ .mesh then .next s
          else if s.coreTakes c then .next ((s.dropPacket q.id).finishMove { p with moving := none } c)
          else .next { stays with packets := stays.packets.filter (·.id != q.id) }
        | none => .next stays
      | none => .next s

/-! Compaction, time-out, commit (R50) -/

/-- A process that the stage manager may move (R50): of the region, not away in a SYNC wait, a fault or another move. -/
def State.movable (s : State) (region : Nat) (p : Proc) : Bool :=
  p.region == region && s.settledProc p.pid && p.bound?.isNone && (match p.st with
    | .ready | .running | .parked none => true
    | .blocked .sync | .parked (some .sync) => false
    | .blocked _ | .parked (some _) => true
    | _ => false)

/-- The stage manager moves a process to a core (R50, R51), whole; a move that a test refuses is not made. To another die the
process travels in a stamped packet, and MIGRATION ends the move (R321). -/
def State.compactOne (s : State) (region pid c : Nat) : State :=
  match s.proc? pid with
  | none => s
  | some p =>
    if !s.movable region p || p.asking || p.core == c || !s.canMove c p || !s.canAdmit c p then s
    else
      let s := if p.st = .running then s.stopRunning p State.toHead else s
      let p := (s.proc? pid).getD p
      let s := s.spill p
      let p := (s.proc? pid).getD p
      if dieOf c = dieOf p.core then
        let s := s.beginMove p
        s.finishMove ((s.proc? pid).getD p) c
      else (s.beginMove { p with moving := some c }).sendMove p c

/-- PLACEMENT_COMPACTION (R50): from half of PLTO on, once for a placement. -/
def execPlacementCompaction (s : State) : Out :=
  match s.subj with
  | .moves id ms =>
    match s.placement? id with
    | none => .next s
    | some pl =>
      if pl.compacted = true ∨ (s.ns - pl.t0) * 2 < s.placeLimit pl then .next s
      else
        let s := { s with placements := s.placements.map fun q => if q.id = id then { q with compacted := true } else q }
        .next (ms.foldl (fun t m => t.compactOne pl.region m.1 m.2) s)
  | _ => .next s

/-- PLACEMENT_COMMIT (R50, R390): an attempt to place what waits. -/
def execPlacementCommit (s : State) : Out :=
  match s.placement? (Subject.num s.subj) with
  | some pl => .next (s.tryPlacement pl)
  | none => .next s

/-- PLACEMENT_TIMEOUT (R50): a placement that commits in the same microsecond stands. -/
def execPlacementTimeout (s : State) : Out :=
  match s.placement? (Subject.num s.subj) with
  | some pl =>
    if s.ns - pl.t0 < s.placeLimit pl then .next s
    else match s.attempt pl with
      | .placed t => .next (t.commitPlacement pl)
      | .refused => .next (s.failPlacement pl 2)
      | .waits => .next (s.failPlacement pl 1)
  | none => .next s

end Sys2Proof.Machine
end

