-- ==== Sys2Proof/Machine/Fetch.lean ====
section
/-! DEFINITION. Fetching the halfwords of an instruction (R60), with the copies a core may hold (R123), and putting an
instruction where the next step fetches it. -/

namespace Sys2Proof.Machine

/-- The halfword that a fetch address leads to, as a load of the core through that address would see it (R123); none when no
window grants execute (R60). -/
def State.fetchMem (s : State) (p : Proc) (a : Word) : Option (BitVec 16) :=
  if p.allowed s a 2 .ex then
    match s.target p.core a.toNat with
    | .own h | .mesh h | .fabric _ h => some (BitVec.ofNat 16 (s.seen p.core p.pid a.toNat h 2))
    | _ => none
  else none

/-- The core's copy of a halfword (R123). -/
def State.copy? (s : State) (core a : Nat) : Option (BitVec 16) :=
  ((s.core core).copies.find? (·.1 == a)).map (·.2)

/-- The core holds a copy of a halfword it has fetched. -/
def Core.keepCopy (k : Core) (a : Nat) (h : BitVec 16) : Core :=
  { k with copies := (k.copies.filter (·.1 != a)) ++ [(a, h)] }

/-- A fetched halfword and the state after its fetch: where the copy differs from memory, which of the two is used is not
fixed (R123), and the counter of free values moves on (log 2, 9). -/
def State.fetchHalf (s : State) (p : Proc) (a : Word) : Option (BitVec 16 × State) :=
  match s.fetchMem p a with
  | none => none
  | some h =>
    match s.copy? p.core a.toNat with
    | none => some (h, s.modCore p.core fun k => k.keepCopy a.toNat h)
    | some old =>
      if old = h then some (h, s)
      else if Config.fetchOld s.free then some (old, { s with free := s.free + 1 })
      else some (h, { s with free := s.free + 1 }.modCore p.core fun k => k.keepCopy a.toNat h)

/-- What an instruction of R100's window means to the loads behind it: a result computed from registers, a branch, a load or
a store with base and offset. -/
inductive Issue
  | alu (d : XIdx) (srcs : List XIdx)
  | branch (srcs : List XIdx)
  | load (d a : XIdx) (off : Word) (n : Nat)
  | store (b a : XIdx) (off : Word) (n : Nat)
deriving DecidableEq, Repr

/-- The instructions behind which a load may have issued (R100, R238): the arithmetic, branches and ordinary loads and stores
of the scalar chapter. What orders, waits, or belongs to another chapter lets no load go ahead of it. -/
def issueOf : Instr → Option Issue
  | .add d a b | .sub d a b | .and d a b | .or d a b | .xor d a b | .andn d a b | .sll d a b | .srl d a b | .sra d a b
  | .ror d a b | .slt d a b | .sltu d a b | .min d a b | .max d a b | .minu d a b | .maxu d a b | .mul d a b
  | .mulh d a b | .mulhu d a b | .mulhsu d a b | .div d a b | .divu d a b | .rem d a b | .remu d a b => some (.alu d [a, b])
  | .clz d a | .ctz d a | .popc d a | .sextB d a | .sextH d a | .sextW d a | .zextW d a | .cMv d a => some (.alu d [a])
  | .addi d a _ | .andi d a _ | .ori d a _ | .xori d a _ | .slti d a _ | .sltiu d a _ | .slli d a _ | .srli d a _
  | .srai d a _ => some (.alu d [a])
  | .lih d _ | .addpc d _ | .cLi d _ => some (.alu d [])
  | .cAddi d _ | .cSlli d _ | .cSrli d _ => some (.alu d [d])
  | .cAdd d a | .cSub d a | .cAnd d a | .cOr d a | .cXor d a => some (.alu d [d, a])
  | .nop | .cNop | .cJ _ => some (.branch [])
  | .beq a b _ | .bne a b _ | .blt a b _ | .bge a b _ | .bltu a b _ | .bgeu a b _ => some (.branch [a, b])
  | .cBeqz a _ | .cBnez a _ => some (.branch [short a])
  | .jal d _ => some (.alu d [])
  | .jalr d a _ => some (.alu d [a])
  | .ldb d a off | .ldbu d a off => some (.load d a (off.signExtend 64) 1)
  | .ldh d a off | .ldhu d a off => some (.load d a (off.signExtend 64) 2)
  | .ldw d a off | .ldwu d a off => some (.load d a (off.signExtend 64) 4)
  | .ldd d a off => some (.load d a (off.signExtend 64) 8)
  | .cLdd d a off => some (.load (short d) (short a) (off.setWidth 64 * 8) 8)
  | .cLdw d a off => some (.load (short d) (short a) (off.setWidth 64 * 4) 4)
  | .stb b a off => some (.store b a (off.signExtend 64) 1)
  | .sth b a off => some (.store b a (off.signExtend 64) 2)
  | .stw b a off => some (.store b a (off.signExtend 64) 4)
  | .std b a off => some (.store b a (off.signExtend 64) 8)
  | .cStd b a off => some (.store (short b) (short a) (off.setWidth 64 * 8) 8)
  | .cStw b a off => some (.store (short b) (short a) (off.setWidth 64 * 4) 4)
  | _ => none

/-- Reads made ahead behind an instruction that lets none go ahead of it are given up. -/
def State.orderLoads (s : State) (core : Nat) (i : Instr) : State := if (issueOf i).isSome then s else s.clearEarly core

/-- What a fetch at the pc comes to. -/
inductive Fetched
  | instr (i : Instr) (s : State)
  | illegal (word : BitVec 32) (reason : BitVec 12) (s : State)
  | window (addr : Word)
deriving DecidableEq, Repr

/-- Fetches and decodes the instruction at the pc of the running process (R60). -/
def State.fetch (s : State) (p : Proc) : Fetched :=
  match s.fetchHalf p p.pc with
  | none => .window p.pc
  | some (h0, s) =>
    if h0.getLsbD 0 then
      match s.fetchHalf p (p.pc + 2) with
      | none => .window (p.pc + 2)
      | some (h1, s) =>
        match decodeHalves h0 h1 with
        | .instr i _ => .instr i (s.orderLoads p.core i)
        | .illegal w r => .illegal w r s
        | .short => .window p.pc
    else
      match decodeHalves h0 0 with
      | .instr i _ => .instr i (s.orderLoads p.core i)
      | .illegal w r => .illegal w r s
      | .short => .window p.pc

/-- Fetches a halfword ahead of the pc (R123): the core keeps a copy. -/
def State.prefetch (s : State) (core a : Nat) : State :=
  match s.runningOn core with
  | none => s
  | some p =>
    match s.fetchMem p (BitVec.ofNat 64 a) with
    | none => s
    | some h => if a % 2 = 0 then s.modCore core fun k => k.keepCopy a h else s

/-- A process for an instruction that is placed where nothing runs: S privilege, context class T (withFetchWord). -/
def State.guest (s : State) : Proc :=
  { pid := s.nextPid, region := s.nextRegion, priv := .s, cls := .t, nregs := 32, st := .running, loc := .green,
    core := s.focus, base := 1, eff := 1 }

/-- A region for that process: a root with nothing of its own. -/
def State.guestRegion (s : State) : Region :=
  { num := s.nextRegion, parent := s.nextRegion, depth := 0, ovr := 0, ceil := 0, fdepth := 64, plto := 10000,
    corebud := 8192, grbud := 4194304, faultep := 0, replyep := 0, faulttab := 0, segtab := 0, chtab := 0, wintab := 0 }

/-- Address of an instruction that is placed where the pc is not usable. -/
def placePc : Word := 0x1000

/-- An address where four bytes can be placed in the own memory. -/
def State.placeable (s : State) (pc : Word) : Bool :=
  pc.toNat % 2 == 0 && decide (pc.toNat + 4 ≤ s.parkStart s.focus)

/-- Places the low four bytes of a number where the core `focus` fetches next, with a window that lets it (log 11). -/
def State.placeWord (s : State) (w : Nat) : State :=
  let fresh := s.cpu.isNone
  let p := s.cpu.getD s.guest
  let pc := if !fresh && s.placeable p.pc then p.pc else placePc
  let p := { p with pc := pc, st := PState.running, core := s.focus, wait := Wait.none, done := Option.none }
  let all : WinEntry := { base := 0, limit := s.parkStart s.focus - 1, rd := true, wr := true, ex := true }
  let win : LoaderWin := { region := p.region, core := s.focus, win := all }
  let s := s.modCore s.focus fun k => { k with copies := [], halt := none }
  { s with
    agenda := .core s.focus :: s.agenda
    cpu := some p
    mem := s.mem.write (globalBase s.focus + pc.toNat) 4 w
    loaderWins := win :: s.loaderWins
    regions := if fresh then s.regions ++ [s.guestRegion] else s.regions
    nextPid := if fresh then s.nextPid + 1 else s.nextPid
    nextRegion := if fresh then s.nextRegion + 1 else s.nextRegion
    pkg := { s.pkg with running := true } }

end Sys2Proof.Machine
end

