-- ==== Sys2Proof/Machine/SpecialFn.lean ====
section
/-! DEFINITION. The special functions of Table 7.7 (R148, R149). The value that a stepping gives is free within the bound of
the table (`Config.specialFn`, log 8); the bound is tested against a value computed in fixed point with 320 fraction
bits. Where the true value lies closer than that to the argument, to 1 or to 0, the computed one lies one unit to the
side of the true one. `vsqrt` is correctly rounded. -/

namespace Sys2Proof.Machine

/-- The functions of R179 other than `vsqrt`, with their numbers. -/
inductive SpFn | recip | rsqrt | exp2 | log2 | sin | cos | tanh | sigm
deriving DecidableEq, Repr

/-- Number of a function (R179). -/
def SpFn.num : SpFn → Nat
  | .recip => 0 | .rsqrt => 1 | .exp2 => 3 | .log2 => 4 | .sin => 5 | .cos => 6 | .tanh => 7 | .sigm => 8

/-- Bound in ulp (Table 7.7). -/
def SpFn.bound : SpFn → Nat
  | .recip | .rsqrt => 1
  | .exp2 | .log2 | .sin | .cos => 2
  | .tanh | .sigm => 3

/-! Fixed point -/

/-- Fraction bits. -/
abbrev fixBits : Nat := 320
/-- One. -/
def fixOne : Int := 2 ^ fixBits
/-- Product. -/
def fixMul (a b : Int) : Int := a * b / fixOne
/-- Quotient. -/
def fixDiv (a b : Int) : Int := a * fixOne / b

/-- m × 2^e. -/
def fixOf (m : Int) (e : Int) : Int := if 0 ≤ e + fixBits then m * 2 ^ (e + fixBits).toNat else m / 2 ^ (-(e + fixBits)).toNat

/-- atan(1/k) (alternating) or atanh(1/k), by their series; n terms. -/
def fixSeries (k : Int) (alt : Bool) (n : Nat) : Int :=
  ((List.range n).foldl (fun (acc : Int × Int) (i : Nat) =>
    let t := acc.2 / (2 * (i : Int) + 1)
    (if alt && i % 2 == 1 then acc.1 - t else acc.1 + t, acc.2 / (k * k))) (0, fixOne / k)).1

/-- π. -/
def fixPi : Int := 16 * fixSeries 5 true 80 - 4 * fixSeries 239 true 30
/-- ln 2. -/
def fixLn2 : Int := 2 * fixSeries 3 false 110

/-- e^r for |r| at most 1. -/
def fixExp (r : Int) : Int :=
  ((List.range 90).foldl (fun (acc : Int × Int) (i : Nat) => (acc.1 + acc.2, fixMul acc.2 r / ((i : Int) + 1))) (0, fixOne)).1

/-- 2^x. -/
def fixExp2 (x : Int) : Int :=
  let k := x / fixOne
  let m := fixExp (fixMul (x - k * fixOne) fixLn2)
  if 0 ≤ k then m * 2 ^ k.toNat else m / 2 ^ (-k).toNat

/-- e^x for x at most 0. -/
def fixExpNeg (x : Int) : Int := if x < -(300 * fixOne) then 0 else fixExp2 (fixDiv x fixLn2)

/-- log2 of a mantissa m in [1, 2). -/
def fixLog2Mant (m : Int) : Int :=
  let z := fixDiv (m - fixOne) (m + fixOne)
  let z2 := fixMul z z
  let s := ((List.range 110).foldl (fun (acc : Int × Int) (i : Nat) =>
    (acc.1 + acc.2 / (2 * (i : Int) + 1), fixMul acc.2 z2)) (0, z)).1
  fixDiv (2 * s) fixLn2

/-- sin r and cos r for r in (0, π/2): less than r, and less than 1. -/
def fixSin (r : Int) : Int :=
  let r2 := fixMul r r
  min (r - 1) ((List.range 50).foldl (fun (acc : Int × Int) (i : Nat) =>
    (acc.1 + acc.2, -(fixMul acc.2 r2) / ((2 * (i : Int) + 2) * (2 * (i : Int) + 3)))) (0, r)).1
def fixCos (r : Int) : Int :=
  let r2 := fixMul r r
  min (fixOne - 1) ((List.range 50).foldl (fun (acc : Int × Int) (i : Nat) =>
    (acc.1 + acc.2, -(fixMul acc.2 r2) / ((2 * (i : Int) + 1) * (2 * (i : Int) + 2)))) (0, fixOne)).1

/-- tanh x for x > 0: less than x, and less than 1. -/
def fixTanh (x : Int) : Int :=
  let t := fixExpNeg (-2 * x)
  min (min (x - 1) (fixOne - 1)) (fixDiv (fixOne - t) (fixOne + t))

/-- 1 / (1 + e^-x) for x ≠ 0: more than 0, and less than 1. -/
def fixSigm (x : Int) : Int :=
  let t := fixExpNeg (if x < 0 then x else -x)
  if x < 0 then max 1 (fixDiv t (fixOne + t)) else min (fixOne - 1) (fixDiv fixOne (fixOne + t))

/-- sin (x + k × π/2) for x ≥ 0 (R149). -/
def fixTrig (x : Int) (k : Nat) : Int :=
  let h := fixPi / 2
  let q := x / h
  let r := x - q * h
  match ((q + k) % 4).toNat with
  | 0 => fixSin r
  | 1 => fixCos r
  | 2 => -fixSin r
  | _ => -fixCos r

/-- f(m × 2^e) for a positive argument, or for `exp2` and `sigm` a signed one. -/
def SpFn.value (f : SpFn) (m : Int) (e : Int) : Int :=
  let x := fixOf m e
  match f with
  | .recip => fixOf (2 ^ (2 * fixBits) / m) (-e - 2 * fixBits)
  | .rsqrt =>
    let e' := e - e % 2
    let m' := (m * 2 ^ (e % 2).toNat).toNat
    fixOf ((2 ^ (4 * fixBits) / m').sqrt : Nat) (-(e' / 2) - 2 * fixBits)
  | .exp2 => fixExp2 x
  | .log2 =>
    let l : Int := m.toNat.log2
    (l + e) * fixOne + fixLog2Mant (fixOf m (-l))
  | .sin => fixTrig x 0
  | .cos => fixTrig x 1
  | .tanh => fixTanh x
  | .sigm => fixSigm x

/-- ulp of a value (R148). -/
def fixUlp (y : Int) : Int :=
  let l : Int := if y = 0 then -149 else max ((y.natAbs.log2 : Int) - fixBits) (-126) - 23
  fixOf 1 l

/-- An FP32 code lies within the bound of a value. -/
def withinBound (bound : Nat) (y : Int) (code : Nat) : Bool :=
  match fp32.decode code with
  | .fin s m e =>
    let u := fixUlp y
    decide ((fixOf (signedMant s m) e - y).natAbs ≤ (bound * u).natAbs)
  | _ => false

/-- The value of the stepping where it meets the bound, else the nearest (log 8). -/
def SpFn.given (f : SpFn) (step : BitVec 4) (arg : Nat) (y : Int) : Nat :=
  let c := (Config.specialFn step f.num (BitVec.ofNat 32 arg)).toNat
  if withinBound f.bound y c then c else (fp32.roundInt .rne false y (-fixBits)).1

/-- The result is exactly f(x): possible for `recip` and `rsqrt` only, the cases of the table aside. -/
def SpFn.exact (f : SpFn) (m : Nat) (e : Int) (code : Nat) : Bool :=
  match fp32.decode code with
  | .fin false n k =>
    match f with
    | .recip => decide (m * n * 2 ^ (e + k).toNat = 2 ^ (-(e + k)).toNat)
    | .rsqrt => decide (m * (n * n) * 2 ^ (e + 2 * k).toNat = 2 ^ (-(e + 2 * k)).toNat)
    | _ => false
  | _ => false

/-- x is an integer; its value. -/
def intOf (sg : Bool) (m : Nat) (e : Int) : Option Int :=
  if m = 0 then some 0
  else if 0 ≤ e then some (signedMant sg m * 2 ^ e.toNat)
  else if m % 2 ^ (-e).toNat = 0 then some (signedMant sg m / 2 ^ (-e).toNat)
  else none

/-- m × 2^e is a power of two; its exponent. -/
def powOf (m : Nat) (e : Int) : Option Int := if m = 2 ^ m.log2 then some (m.log2 + e) else none

/-- Sign put on a result. -/
def withSign (sg : Bool) (r : Rounded) : Rounded := (if sg then 2 ^ 31 + r.1 else r.1, r.2)

/-- A special function other than `vsqrt` on an FP32 code (Table 7.7). -/
def SpFn.apply (f : SpFn) (step : BitVec 4) (code : Nat) : Rounded :=
  let inf := fp32.inf false
  let neg : Rounded := fp32.nanOf true
  let mag := code % 2 ^ 31
  let near (arg m : Nat) (sg : Bool) (e : Int) : Rounded :=
    let c := f.given step arg (f.value (signedMant sg m) e)
    (c, fIf (!f.exact m e c) fNX)
  match f, fp32.decode code with
  | _, .nan q => fp32.nanOf (!q)
  | .recip, .inf s => (fp32.signed s 0, 0)
  | .recip, .fin s m e =>
    if m = 0 then (fp32.inf s, fDZ)
    else if (fp32.round .rne false 1 m (-e)).1 = inf then withSign s (inf, fOF ||| fNX)
    else withSign s (near mag m false e)
  | .rsqrt, .inf s => if s then neg else (0, 0)
  | .rsqrt, .fin s m e => if m = 0 then (fp32.inf s, fDZ) else if s then neg else near mag m false e
  | .exp2, .inf s => (if s then 0 else inf, 0)
  | .exp2, .fin s m e =>
    let x := fixOf (signedMant s m) (max e (-fixBits))
    if 128 * fixOne ≤ x then (inf, fOF ||| fNX)
    else if x < -(150 * fixOne) then (0, fUF ||| fNX)
    else match intOf s m e with
      | some k => if -149 ≤ k then ((fp32.round .rne false 1 1 k).1, 0) else near code m s e
      | none => near code m s e
  | .log2, .inf s => if s then neg else (inf, 0)
  | .log2, .fin s m e =>
    if m = 0 then (fp32.inf true, fDZ)
    else if s then neg
    else match powOf m e with
      | some k => fp32.roundInt .rne false k 0
      | none => near mag m false e
  | .sin, .inf _ => neg
  | .sin, .fin s m e =>
    if m = 0 then (code, 0) else if 2 ^ 20 * fixOne ≤ fixOf m e then neg else withSign s (near mag m false e)
  | .cos, .inf _ => neg
  | .cos, .fin _ m e =>
    if m = 0 then (0x3F800000, 0) else if 2 ^ 20 * fixOne ≤ fixOf m e then neg else near mag m false e
  | .tanh, .inf s => withSign s (0x3F800000, 0)
  | .tanh, .fin s m e => if m = 0 then withSign s (f.given step 0 0, fIf (f.given step 0 0 % 2 ^ 31 != 0) fNX)
    else withSign s (near mag m false e)
  | .sigm, .inf s => (if s then 0 else 0x3F800000, 0)
  | .sigm, .fin s m e => if m = 0 then (0x3F000000, 0) else near code m s e

/-- Square root of a code, correctly rounded (R148): two bits beyond the last kept one and a sticky bit decide. -/
def Fmt.sqrt (f : Fmt) (m : Rm) (code : Nat) : Rounded :=
  match f.decode code with
  | .nan q => f.nanOf (!q)
  | .inf s => if s then f.nanOf true else (f.inf false, 0)
  | .fin s n e =>
    if n = 0 then (code, 0)
    else if s then f.nanOf true
    else
      let e' := e - e % 2
      let n' := n * 2 ^ (e % 2).toNat * 2 ^ 128
      let r := n'.sqrt
      let sticky := if r * r = n' then 0 else 1
      f.round m false (2 * r + sticky) 1 (e' / 2 - 64 - 1)

end Sys2Proof.Machine
end

