-- ==== Sys2Proof/Machine/Vector.lean ====
section
/-! DEFINITION. Vector instructions (09): floating point, integer, Q15, move and convert, special functions, reductions,
permutes, masks, vector memory, streams. -/

namespace Sys2Proof.Machine

/-! Lane types (Table 9.1) -/

/-- Format of a floating-point lane type. -/
def fmtOf : FpT → Fmt
  | .f32 => fp32 | .f16 => fp16 | .bf16 => bf16

/-- Bits of an integer lane. -/
def bitsOf : ElW → Nat
  | .w32 => 32 | .w16 => 16 | .w8 => 8

/-- An integer result without flags. -/
def plain (v : Nat) : Rounded := (v, 0)

/-! Shapes -/

/-- A lane-by-lane instruction over v[A], v[B] and v[D] with merge mask M (R168). -/
def State.vlanes (s : State) (i : Instr) (w : Nat) (m : PIdx) (d a b : VIdx) (reads : Bool)
    (f : Proc → Nat → Nat → Nat → Nat → Rounded) : Out :=
  s.vec i { srcs := [a, b], dst := some d, reads := reads, push := m == 0 } fun p =>
    let rs := laneMap (p.getP m) w fun l => f p l (lane (p.getV a) w l) (lane (p.getV b) w l) (lane (p.getV d) w l)
    { v := some (putLanes (p.getV d) w rs), w := w, lanes := rs }

/-- A floating-point operation with a rounding code (R167, R168). -/
def State.vfp (s : State) (i : Instr) (t : FpT) (rc : Rc) (m : PIdx) (d a b : VIdx) (reads : Bool)
    (f : Fmt → Rm → Fp → Fp → Fp → Rounded) : Out :=
  s.vlanes i (fmtOf t).bits m d a b reads fun p _ x y z =>
    f (fmtOf t) (p.mode rc) ((fmtOf t).decode x) ((fmtOf t).decode y) ((fmtOf t).decode z)

/-- An integer operation (R172). -/
def State.vint (s : State) (i : Instr) (w : ElW) (m : PIdx) (d a b : VIdx) (reads : Bool)
    (f : Nat → Nat → Nat → Nat → Nat) : Out :=
  s.vlanes i (bitsOf w) m d a b reads fun _ _ x y z => plain (f (bitsOf w) x y z)

/-- An instruction whose active lanes depend on the lane number and the registers alone. -/
def State.vgen (s : State) (i : Instr) (w : Nat) (m : PIdx) (d : VIdx) (srcs : List VIdx) (push : Bool)
    (f : Proc → Nat → Rounded) : Out :=
  s.vec i { srcs := srcs, dst := some d, push := push } fun p =>
    let rs := laneMap (p.getP m) w (f p)
    { v := some (putLanes (p.getV d) w rs), w := w, lanes := rs }

/-- A compare that writes p[D] (R169): a bit is set when the condition holds in every lane of its granule. -/
def State.vcompare (s : State) (i : Instr) (w : Nat) (m d : PIdx) (a b : VIdx) (cc : Nat → Nat → Bool × Flags) : Out :=
  s.vec i { srcs := [a, b] } fun p =>
    let rs := (laneMap (p.getP m) w fun _ => (0, 0)).map fun r =>
      let c := cc (lane (p.getV a) w r.1) (lane (p.getV b) w r.1)
      (r.1, ((if c.1 then 1 else 0 : Nat), c.2))
    let g := 32 / w
    let bits := (List.range 64).filter fun j =>
      (p.getP m).getLsbD j && (List.range g).all fun k => rs.any fun r => r.1 == g * j + k && r.2.1 == 1
    { m := some (d, bits.foldl (fun acc j => acc ||| (1 <<< j)) 0), w := w, lanes := rs }

/-! Major 0x20 (Table 9.4) -/

/-- `vadd` (Table 9.4). -/
def execVadd (t : FpT) (rc : Rc) (m : PIdx) (d a b : VIdx) (s : State) : Out :=
  s.vfp (.vadd t rc m d a b) t rc m d a b false fun f r x y _ => f.add r x y
/-- `vsub` (Table 9.4). -/
def execVsub (t : FpT) (rc : Rc) (m : PIdx) (d a b : VIdx) (s : State) : Out :=
  s.vfp (.vsub t rc m d a b) t rc m d a b false fun f r x y _ => f.add r x y.neg
/-- `vmul` (Table 9.4). -/
def execVmul (t : FpT) (rc : Rc) (m : PIdx) (d a b : VIdx) (s : State) : Out :=
  s.vfp (.vmul t rc m d a b) t rc m d a b false fun f r x y _ => f.mul r x y
/-- `vfma` (Table 9.4). -/
def execVfma (t : FpT) (rc : Rc) (m : PIdx) (d a b : VIdx) (s : State) : Out :=
  s.vfp (.vfma t rc m d a b) t rc m d a b true fun f r x y z => f.fma r x y z
/-- `vfms` (Table 9.4). -/
def execVfms (t : FpT) (rc : Rc) (m : PIdx) (d a b : VIdx) (s : State) : Out :=
  s.vfp (.vfms t rc m d a b) t rc m d a b true fun f r x y z => f.fma r x y z.neg
/-- `vfnma` (Table 9.4, R168): the exact d − a × b is rounded. -/
def execVfnma (t : FpT) (rc : Rc) (m : PIdx) (d a b : VIdx) (s : State) : Out :=
  s.vfp (.vfnma t rc m d a b) t rc m d a b true fun f r x y z => f.fma r x.neg y z
/-- `vmax` (R142). -/
def execVmax (t : FpT) (m : PIdx) (d a b : VIdx) (s : State) : Out :=
  s.vlanes (.vmax t m d a b) (fmtOf t).bits m d a b false fun _ _ x y _ => (fmtOf t).pick true x y
/-- `vmin` (R142). -/
def execVmin (t : FpT) (m : PIdx) (d a b : VIdx) (s : State) : Out :=
  s.vlanes (.vmin t m d a b) (fmtOf t).bits m d a b false fun _ _ x y _ => (fmtOf t).pick false x y
/-- `vabs` (R168). -/
def execVabs (t : FpT) (m : PIdx) (d a : VIdx) (s : State) : Out :=
  s.vlanes (.vabs t m d a) (fmtOf t).bits m d a a false fun _ _ x _ _ => (fmtOf t).resign (fun _ => false) x
/-- `vneg` (R168). -/
def execVneg (t : FpT) (m : PIdx) (d a : VIdx) (s : State) : Out :=
  s.vlanes (.vneg t m d a) (fmtOf t).bits m d a a false fun _ _ x _ _ => (fmtOf t).resign not x
/-- `vcmp` (R169). -/
def execVcmp (t : FpT) (cc : CmpF) (m : PIdx) (d : PIdx) (a b : VIdx) (s : State) : Out :=
  s.vcompare (.vcmp t cc m d a b) (fmtOf t).bits m d a b fun x y => cmpF cc ((fmtOf t).decode x) ((fmtOf t).decode y)
/-- `vsel` (R170). -/
def execVsel (m : PIdx) (d a b : VIdx) (s : State) : Out :=
  s.vec (.vsel m d a b) { srcs := [a, b], dst := some d, push := m == 0 } fun p =>
    { v := some (ofLanes 32 ((List.range 64).map fun l => lane (p.getV (if (p.getP m).getLsbD l then a else b)) 32 l)) }

/-! Major 0x21 (Table 9.5) -/

/-- `viadd` (Table 9.5). -/
def execViadd (w : ElW) (m : PIdx) (d a b : VIdx) (s : State) : Out :=
  s.vint (.viadd w m d a b) w m d a b false fun w x y _ => (x + y) % 2 ^ w
/-- `visub` (Table 9.5). -/
def execVisub (w : ElW) (m : PIdx) (d a b : VIdx) (s : State) : Out :=
  s.vint (.visub w m d a b) w m d a b false fun w x y _ => wrap w ((x : Int) - y)
/-- `vimul` (Table 9.5). -/
def execVimul (w : ElW) (m : PIdx) (d a b : VIdx) (s : State) : Out :=
  s.vint (.vimul w m d a b) w m d a b false fun w x y _ => wrap w (toS w x * toS w y)
/-- `vimulh.i` (Table 9.5): div is the floor of R17. -/
def execVimulhI (w : ElW) (m : PIdx) (d a b : VIdx) (s : State) : Out :=
  s.vint (.vimulhI w m d a b) w m d a b false fun w x y _ => wrap w (toS w x * toS w y / 2 ^ w)
/-- `vimulh.u` (Table 9.5). -/
def execVimulhU (w : ElW) (m : PIdx) (d a b : VIdx) (s : State) : Out :=
  s.vint (.vimulhU w m d a b) w m d a b false fun w x y _ => x * y / 2 ^ w
/-- `vimac` (Table 9.5). -/
def execVimac (w : ElW) (m : PIdx) (d a b : VIdx) (s : State) : Out :=
  s.vint (.vimac w m d a b) w m d a b true fun w x y z => wrap w (toS w z + toS w x * toS w y)
/-- `vand` (Table 9.5). -/
def execVand (m : PIdx) (d a b : VIdx) (s : State) : Out :=
  s.vint (.vand m d a b) .w32 m d a b false fun _ x y _ => x &&& y
/-- `vor` (Table 9.5). -/
def execVor (m : PIdx) (d a b : VIdx) (s : State) : Out :=
  s.vint (.vor m d a b) .w32 m d a b false fun _ x y _ => x ||| y
/-- `vxor` (Table 9.5). -/
def execVxor (m : PIdx) (d a b : VIdx) (s : State) : Out :=
  s.vint (.vxor m d a b) .w32 m d a b false fun _ x y _ => x ^^^ y
/-- `vshl` (Table 9.5). -/
def execVshl (w : ElW) (m : PIdx) (d a b : VIdx) (s : State) : Out :=
  s.vint (.vshl w m d a b) w m d a b false fun w x y _ => if y < w then x * 2 ^ y % 2 ^ w else 0
/-- `vshr` (Table 9.5). -/
def execVshr (w : ElW) (m : PIdx) (d a b : VIdx) (s : State) : Out :=
  s.vint (.vshr w m d a b) w m d a b false fun w x y _ => if y < w then x / 2 ^ y else 0
/-- `vsar` (Table 9.5). -/
def execVsar (w : ElW) (m : PIdx) (d a b : VIdx) (s : State) : Out :=
  s.vint (.vsar w m d a b) w m d a b false fun w x y _ => wrap w (toS w x / 2 ^ min y (w - 1))
/-- `vimin.i` (Table 9.5). -/
def execViminI (w : ElW) (m : PIdx) (d a b : VIdx) (s : State) : Out :=
  s.vint (.viminI w m d a b) w m d a b false fun w x y _ => if toS w x ≤ toS w y then x else y
/-- `vimin.u` (Table 9.5). -/
def execViminU (w : ElW) (m : PIdx) (d a b : VIdx) (s : State) : Out :=
  s.vint (.viminU w m d a b) w m d a b false fun _ x y _ => min x y
/-- `vimax.i` (Table 9.5). -/
def execVimaxI (w : ElW) (m : PIdx) (d a b : VIdx) (s : State) : Out :=
  s.vint (.vimaxI w m d a b) w m d a b false fun w x y _ => if toS w y ≤ toS w x then x else y
/-- `vimax.u` (Table 9.5). -/
def execVimaxU (w : ElW) (m : PIdx) (d a b : VIdx) (s : State) : Out :=
  s.vint (.vimaxU w m d a b) w m d a b false fun _ x y _ => max x y
/-- `viabs` (Table 9.5). -/
def execViabs (w : ElW) (m : PIdx) (d a : VIdx) (s : State) : Out :=
  s.vint (.viabs w m d a) w m d a a false fun w x _ _ => (toS w x).natAbs % 2 ^ w
/-- `vsadd.i` (Table 9.5). -/
def execVsaddI (w : ElW) (m : PIdx) (d a b : VIdx) (s : State) : Out :=
  s.vint (.vsaddI w m d a b) w m d a b false fun w x y _ => wrap w (satS (toS w x + toS w y) w)
/-- `vsadd.u` (Table 9.5). -/
def execVsaddU (w : ElW) (m : PIdx) (d a b : VIdx) (s : State) : Out :=
  s.vint (.vsaddU w m d a b) w m d a b false fun w x y _ => wrap w (satU ((x : Int) + y) w)
/-- `vssub.i` (Table 9.5). -/
def execVssubI (w : ElW) (m : PIdx) (d a b : VIdx) (s : State) : Out :=
  s.vint (.vssubI w m d a b) w m d a b false fun w x y _ => wrap w (satS (toS w x - toS w y) w)
/-- `vssub.u` (Table 9.5). -/
def execVssubU (w : ElW) (m : PIdx) (d a b : VIdx) (s : State) : Out :=
  s.vint (.vssubU w m d a b) w m d a b false fun w x y _ => wrap w (satU ((x : Int) - y) w)

/-- Conditions of `vicmp` (Table 9.5). -/
def cmpI (cc : CmpI) (w x y : Nat) : Bool :=
  match cc with
  | .eq => x == y
  | .ne => x != y
  | .lt => decide (toS w x < toS w y)
  | .le => decide (toS w x ≤ toS w y)
  | .ltu => decide (x < y)
  | .leu => decide (x ≤ y)

/-- `vicmp` (R172). -/
def execVicmp (cc : CmpI) (w : ElW) (m : PIdx) (d : PIdx) (a b : VIdx) (s : State) : Out :=
  s.vcompare (.vicmp cc w m d a b) (bitsOf w) m d a b fun x y => (cmpI cc (bitsOf w) x y, 0)

/-! Major 0x26 (Table 9.6) -/

/-- `vqmul` (Table 9.6). -/
def execVqmul (m : PIdx) (d a b : VIdx) (s : State) : Out :=
  s.vint (.vqmul m d a b) .w16 m d a b false fun w x y _ => wrap w (satS (shiftRound (toS w x * toS w y) 15) w)
/-- `vqmac` (Table 9.6): the two products of a 32-bit lane, saturated once. -/
def execVqmac (m : PIdx) (d a b : VIdx) (s : State) : Out :=
  s.vlanes (.vqmac m d a b) 32 m d a b true fun p l _ _ z =>
    let q (r : VIdx) (k : Nat) : Int := toS 16 (lane (p.getV r) 16 (2 * l + k))
    plain (wrap 32 (satS (toS 32 z + q a 0 * q b 0 + q a 1 * q b 1) 32))

/-- `vqrnd` (Table 9.6): 32-bit lanes to one half of the 16-bit lanes. -/
def State.vqrnd (s : State) (i : Instr) (m : PIdx) (d a : VIdx) (n : BitVec 5) (at_ : Nat) : Out :=
  s.vec i { srcs := [a], dst := some d, reads := true } fun p =>
    let rs := (laneMap (p.getP m) 32 fun l =>
      plain (wrap 16 (satS (shiftRound (toS 32 (lane (p.getV a) 32 l)) n.toNat) 16))).map fun r => (r.1 + at_, r.2)
    { v := some (putLanes (p.getV d) 16 rs), w := 16, lanes := rs }

/-- `vqrnd.lo` (Table 9.6). -/
def execVqrndLo (m : PIdx) (d a : VIdx) (n : BitVec 5) (s : State) : Out := s.vqrnd (.vqrndLo m d a n) m d a n 0
/-- `vqrnd.hi` (Table 9.6). -/
def execVqrndHi (m : PIdx) (d a : VIdx) (n : BitVec 5) (s : State) : Out := s.vqrnd (.vqrndHi m d a n) m d a n 64
/-- `vqsat.i16` (Table 9.6). -/
def execVqsatI16 (m : PIdx) (d a : VIdx) (n : BitVec 5) (s : State) : Out :=
  s.vint (.vqsatI16 m d a n) .w16 m d a a false fun w x _ _ => wrap w (satS (toS w x) n.toNat)
/-- `vqsat.i32` (Table 9.6). -/
def execVqsatI32 (m : PIdx) (d a : VIdx) (n : BitVec 5) (s : State) : Out :=
  s.vint (.vqsatI32 m d a n) .w32 m d a a false fun w x _ _ => wrap w (satS (toS w x) n.toNat)

/-! Major 0x22 (Table 9.7) -/

/-- Results of E elements whose source and destination lanes differ (R176–R178): element, destination lane and result. -/
def State.vmove (s : State) (i : Instr) (m : PIdx) (d : VIdx) (srcs : List VIdx) (reads : Bool) (e w : Nat)
    (at_ : Nat → Nat) (f : Proc → Nat → Rounded) : Out :=
  s.vec i { srcs := srcs, dst := some d, reads := reads, push := m == 0 } fun p =>
    let rs := ((List.range e).filter fun k => active (p.getP m) k e).map fun k => (at_ k, f p k)
    { v := some (putLanes (p.getV d) w rs), w := w, lanes := rs }

/-- `vcvt` (R176). -/
def execVcvt (dst src : CvtT) (rc : Rc) (part : BitVec 2) (m : PIdx) (d a : VIdx) (s : State) : Out :=
  let wd := cvtWidth dst
  let ws := cvtWidth src
  let e := 2048 / max wd ws
  let off := part.toNat * e
  s.vmove (.vcvt dst src rc part m d a) m d [a] (decide (wd < ws)) e wd
    (fun k => if wd < ws then off + k else k)
    fun p k => convertLane dst src (p.mode rc) (lane (p.getV a) ws (if ws < wd then off + k else k))
/-- `vmov` (R178). -/
def execVmov (m : PIdx) (d a : VIdx) (s : State) : Out :=
  s.vlanes (.vmov m d a) 32 m d a a false fun _ _ x _ _ => plain x
/-- `vzero` (R178). -/
def execVzero (m : PIdx) (d : VIdx) (s : State) : Out := s.vgen (.vzero m d) 32 m d [] (m == 0) fun _ _ => plain 0
/-- `vbcast` (R178). -/
def execVbcast (w : ElW) (m : PIdx) (d : VIdx) (a : XIdx) (s : State) : Out :=
  s.vgen (.vbcast w m d a) (bitsOf w) m d [] (m == 0) fun p _ => plain ((p.getX a).toNat % 2 ^ bitsOf w)
/-- `vidx` (R178). -/
def execVidx (w : ElW) (m : PIdx) (d : VIdx) (a : XIdx) (s : State) : Out :=
  s.vgen (.vidx w m d a) (bitsOf w) m d [] (m == 0) fun p l => plain (((p.getX a).toNat + l) % 2 ^ bitsOf w)
/-- `vextr` (R178). -/
def execVextr (w : ElW) (d : XIdx) (a : VIdx) (b : XIdx) (s : State) : Out :=
  s.vec (.vextr w d a b) { srcs := [a] } fun p =>
    let n := bitsOf w
    { x := some (d, BitVec.ofNat 64 (lane (p.getV a) n ((p.getX b).toNat % (2048 / n)))) }
/-- `vins` (R178). -/
def execVins (w : ElW) (d : VIdx) (a b : XIdx) (s : State) : Out :=
  s.vec (.vins w d a b) { srcs := [], dst := some d, reads := true } fun p =>
    let n := bitsOf w
    { v := some (putLanes (p.getV d) n [((p.getX b).toNat % (2048 / n), plain ((p.getX a).toNat % 2 ^ n))]) }

/-- Format of a `vcvt.sr` destination (Table 9.9). -/
def srFmt : SrT → Fmt
  | .f16 => fp16 | .bf16 => bf16 | .e5m2 => e5m2 | .e4m3 => e4m3

/-- `vcvt.sr` (R177). -/
def execVcvtSr (dst : SrT) (part : BitVec 2) (m : PIdx) (d a b : VIdx) (s : State) : Out :=
  s.vmove (.vcvtSr dst part m d a b) m d [a, b] true 64 (srFmt dst).bits (fun k => part.toNat * 64 + k)
    fun p k => (srFmt dst).convertSr (lane (p.getV b) 32 k) (fp32.decode (lane (p.getV a) 32 k))

/-- Narrow width and signedness of `vpack` and `vunpk`. -/
def packOf : PackT → Nat × Bool
  | .i16 => (16, true) | .u16 => (16, false) | .i8 => (8, true) | .u8 => (8, false)

/-- `vpack` (R178): a wide source lane is read as signed in every form. -/
def execVpack (t : PackT) (m : PIdx) (d a b : VIdx) (s : State) : Out :=
  let w := (packOf t).1
  let n := 2048 / w
  s.vmove (.vpack t m d a b) m d [a, b] false n w (fun k => k) fun p k =>
    let v := toS (2 * w) (if k < n / 2 then lane (p.getV a) (2 * w) k else lane (p.getV b) (2 * w) (k - n / 2))
    plain (wrap w (if (packOf t).2 then satS v w else satU v w))
/-- `vunpk` (R178). -/
def execVunpk (t : PackT) (part : BitVec 2) (m : PIdx) (d a : VIdx) (s : State) : Out :=
  let w := (packOf t).1
  let n := 2048 / w
  s.vmove (.vunpk t part m d a) m d [a] false (n / 2) (2 * w) (fun k => k) fun p k =>
    let v := lane (p.getV a) w (part.toNat * (n / 2) + k)
    plain (if (packOf t).2 then wrap (2 * w) (toS w v) else v)

/-! Major 0x24 (R179, R180) -/

/-- A special function on lanes (R148, R179): 16-bit lanes are widened exactly and rounded back in RNE. -/
def State.vspecial (s : State) (i : Instr) (t : FpT) (m : PIdx) (d a : VIdx) (f : Nat → Rounded) : Out :=
  s.vlanes i (fmtOf t).bits m d a a false fun _ _ x _ _ =>
    match t with
    | .f32 => f x
    | _ =>
      let fm := fmtOf t
      let (wide, nv) := fp32.convert .rne (fm.decode x)
      let (y, fl) := f wide
      let (z, fl') := fm.convert .rne (fp32.decode y)
      (z, nv ||| fl ||| fl')

/-- `vrecip` (Table 7.7). -/
def execVrecip (t : FpT) (m : PIdx) (d a : VIdx) (s : State) : Out :=
  s.vspecial (.vrecip t m d a) t m d a (SpFn.recip.apply s.pkg.step)
/-- `vrsqrt` (Table 7.7). -/
def execVrsqrt (t : FpT) (m : PIdx) (d a : VIdx) (s : State) : Out :=
  s.vspecial (.vrsqrt t m d a) t m d a (SpFn.rsqrt.apply s.pkg.step)
/-- `vsqrt` (R148, R179): correctly rounded in the instruction's mode; a 16-bit lane is rounded to FP32 first. -/
def execVsqrt (t : FpT) (rc : Rc) (m : PIdx) (d a : VIdx) (s : State) : Out :=
  s.vspecial (.vsqrt t rc m d a) t m d a fun x =>
    fp32.sqrt (match s.cpu with | some p => p.mode rc | none => .rne) x
/-- `vexp2` (Table 7.7). -/
def execVexp2 (t : FpT) (m : PIdx) (d a : VIdx) (s : State) : Out :=
  s.vspecial (.vexp2 t m d a) t m d a (SpFn.exp2.apply s.pkg.step)
/-- `vlog2` (Table 7.7). -/
def execVlog2 (t : FpT) (m : PIdx) (d a : VIdx) (s : State) : Out :=
  s.vspecial (.vlog2 t m d a) t m d a (SpFn.log2.apply s.pkg.step)
/-- `vsin` (Table 7.7). -/
def execVsin (t : FpT) (m : PIdx) (d a : VIdx) (s : State) : Out :=
  s.vspecial (.vsin t m d a) t m d a (SpFn.sin.apply s.pkg.step)
/-- `vcos` (Table 7.7). -/
def execVcos (t : FpT) (m : PIdx) (d a : VIdx) (s : State) : Out :=
  s.vspecial (.vcos t m d a) t m d a (SpFn.cos.apply s.pkg.step)
/-- `vtanh` (Table 7.7). -/
def execVtanh (t : FpT) (m : PIdx) (d a : VIdx) (s : State) : Out :=
  s.vspecial (.vtanh t m d a) t m d a (SpFn.tanh.apply s.pkg.step)
/-- `vsigm` (Table 7.7). -/
def execVsigm (t : FpT) (m : PIdx) (d a : VIdx) (s : State) : Out :=
  s.vspecial (.vsigm t m d a) t m d a (SpFn.sigm.apply s.pkg.step)
/-- `vrand` (R180). -/
def execVrand (m : PIdx) (d : VIdx) (a b : XIdx) (s : State) : Out :=
  s.vgen (.vrand m d a b) 32 m d [] (m == 0) fun p l =>
    plain (hashH ((p.getX a).setWidth 32) ((p.getX b).setWidth 32 + BitVec.ofNat 32 l)).toNat

/-! Major 0x25 (Table 9.10) -/

/-- The tree of R147 over a list whose length is a power of two. -/
def tree (op : Nat → Nat → Rounded) : Nat → List Nat → Flags → Rounded
  | 0, ts, fl => (ts.headD 0, fl)
  | n + 1, ts, fl =>
    let h := ts.length / 2
    if h = 0 then (ts.headD 0, fl)
    else
      let rs := List.zipWith op (ts.take h) (ts.drop h)
      tree op n (rs.map (·.1)) (rs.foldl (fun f r => f ||| r.2) fl)

/-- Lane width of a reduction type. -/
def redBits : RedT → Nat
  | .f t => (fmtOf t).bits
  | .i w | .u w => bitsOf w

/-- A reduction (R147, R182): inactive lanes enter as the identity, and lane 0 of v[D] is combined last. -/
def State.vreduce (s : State) (i : Instr) (t : RedT) (m : PIdx) (d a : VIdx) (op : Proc → Nat → Nat → Rounded)
    (ident : Nat) : Out :=
  s.vec i { srcs := [a], dst := some d, reads := true } fun p =>
    let w := redBits t
    let n := 2048 / w
    let ts := (List.range n).map fun l => if active (p.getP m) l n then lane (p.getV a) w l else ident
    let (r, fl) := tree (op p) 9 ts 0
    let (v, fl') := op p r (lane (p.getV d) w 0)
    let rs : LaneRes := [(0, (v, fl ||| fl'))]
    { v := some (putLanes (p.getV d) w rs), w := w, lanes := rs }

/-- `vredsum` (R182). -/
def execVredsum (t : RedT) (m : PIdx) (d a : VIdx) (s : State) : Out :=
  match t with
  | .f f => s.vreduce (.vredsum t m d a) t m d a
      (fun p x y => (fmtOf f).add p.rm ((fmtOf f).decode x) ((fmtOf f).decode y)) ((fmtOf f).signed true 0)
  | _ => s.vreduce (.vredsum t m d a) t m d a (fun _ x y => plain ((x + y) % 2 ^ redBits t)) 0
/-- `vredmax` (R182). -/
def execVredmax (t : RedT) (m : PIdx) (d a : VIdx) (s : State) : Out :=
  match t with
  | .f f => s.vreduce (.vredmax t m d a) t m d a (fun _ x y => (fmtOf f).pick true x y) ((fmtOf f).inf true)
  | .i w => s.vreduce (.vredmax t m d a) t m d a
      (fun _ x y => plain (if toS (bitsOf w) y ≤ toS (bitsOf w) x then x else y)) (2 ^ (bitsOf w - 1))
  | .u _ => s.vreduce (.vredmax t m d a) t m d a (fun _ x y => plain (max x y)) 0
/-- `vredmin` (R182). -/
def execVredmin (t : RedT) (m : PIdx) (d a : VIdx) (s : State) : Out :=
  match t with
  | .f f => s.vreduce (.vredmin t m d a) t m d a (fun _ x y => (fmtOf f).pick false x y) ((fmtOf f).inf false)
  | .i w => s.vreduce (.vredmin t m d a) t m d a
      (fun _ x y => plain (if toS (bitsOf w) x ≤ toS (bitsOf w) y then x else y)) (2 ^ (bitsOf w - 1) - 1)
  | .u w => s.vreduce (.vredmin t m d a) t m d a (fun _ x y => plain (min x y)) (2 ^ bitsOf w - 1)

/-- The steps of `vscan` (R183): the lanes, and the flags of every step with the lane that holds its result. -/
def scanSteps (op : Nat → Nat → Rounded) : Nat → Nat → List Nat → LaneRes → List Nat × LaneRes
  | 0, _, ts, fl => (ts, fl)
  | n + 1, st, ts, fl =>
    if ts.length ≤ st then (ts, fl)
    else
      let us := List.zipWith op ts (ts.drop st)
      scanSteps op n (2 * st) (ts.take st ++ us.map (·.1)) (fl ++ us.zipIdx.map fun u => (u.2 + st, u.1))

/-- `vscan` (R183). -/
def execVscan (t : ScanT) (m : PIdx) (d a : VIdx) (s : State) : Out :=
  let w := match t with
    | .i16 => 16
    | _ => 32
  let n := 2048 / w
  s.vec (.vscan t m d a) { srcs := [a], dst := some d, push := m == 0 } fun p =>
    let ident := match t with
      | .f32 => fp32.signed true 0
      | _ => 0
    let op (x y : Nat) : Rounded := match t with
      | .f32 => fp32.add p.rm (fp32.decode x) (fp32.decode y)
      | _ => plain ((x + y) % 2 ^ w)
    let ts := (List.range n).map fun l => if active (p.getP m) l n then lane (p.getV a) w l else ident
    let (out, fl) := scanSteps op 8 1 ts []
    let rs := laneMap (p.getP m) w fun l => plain (out.getD l 0)
    { v := some (putLanes (p.getV d) w rs), w := w, lanes := fl }

/-- `vshuf` (R184). -/
def execVshuf (w : ElW) (m : PIdx) (d a b : VIdx) (s : State) : Out :=
  s.vlanes (.vshuf w m d a b) (bitsOf w) m d a b false fun p _ _ y _ =>
    plain (lane (p.getV a) (bitsOf w) (y % (2048 / bitsOf w)))
/-- `vrot` (R184): (L + x[B]) mod N. -/
def execVrot (w : ElW) (m : PIdx) (d a : VIdx) (b : XIdx) (s : State) : Out :=
  s.vgen (.vrot w m d a b) (bitsOf w) m d [a] (m == 0) fun p l =>
    plain (lane (p.getV a) (bitsOf w) ((l + (p.getX b).toNat) % (2048 / bitsOf w)))
/-- `vslide` (R184). -/
def execVslide (w : ElW) (m : PIdx) (d a : VIdx) (b : XIdx) (s : State) : Out :=
  s.vgen (.vslide w m d a b) (bitsOf w) m d [a] (m == 0) fun p l =>
    let j : Int := l + (p.getX b).toInt
    plain (if 0 ≤ j ∧ j < 2048 / bitsOf w then lane (p.getV a) (bitsOf w) j.toNat else 0)
/-- `vcomp` (R184). -/
def execVcomp (w : ElW) (m : PIdx) (d a : VIdx) (s : State) : Out :=
  s.vec (.vcomp w m d a) { srcs := [a], dst := some d, push := m == 0 } fun p =>
    let n := 2048 / bitsOf w
    { v := some (ofLanes (bitsOf w) (((List.range n).filter fun l => active (p.getP m) l n).map fun l =>
        lane (p.getV a) (bitsOf w) l)) }
/-- The lanes of `vexpd` (R184): the next source lane where the selector is 1, else 0. -/
def expand : List Bool → List Nat → List Nat
  | [], _ => []
  | true :: bs, v :: vs => v :: expand bs vs
  | true :: bs, [] => 0 :: expand bs []
  | false :: bs, vs => 0 :: expand bs vs
/-- `vexpd` (R184). -/
def execVexpd (w : ElW) (m : PIdx) (d a : VIdx) (s : State) : Out :=
  s.vec (.vexpd w m d a) { srcs := [a], dst := some d, push := m == 0 } fun p =>
    let n := 2048 / bitsOf w
    { v := some (ofLanes (bitsOf w)
        (expand ((List.range n).map fun l => active (p.getP m) l n) (lanesOf (p.getV a) (bitsOf w)))) }

/-- A mask instruction (R185). -/
def State.pmask (s : State) (i : Instr) (d : PIdx) (f : Proc → Word) : Out :=
  s.vec i { srcs := [] } fun p => { m := some (d, f p) }
/-- `pset` (R185). -/
def execPset (d : PIdx) (a : XIdx) (s : State) : Out := s.pmask (.pset d a) d fun p => p.getX a
/-- `pand` (R185). -/
def execPand (d a b : PIdx) (s : State) : Out := s.pmask (.pand d a b) d fun p => p.getP a &&& p.getP b
/-- `por` (R185). -/
def execPor (d a b : PIdx) (s : State) : Out := s.pmask (.por d a b) d fun p => p.getP a ||| p.getP b
/-- `pnot` (R185). -/
def execPnot (d a : PIdx) (s : State) : Out := s.pmask (.pnot d a) d fun p => ~~~p.getP a
/-- `pcnt` (R185). -/
def execPcnt (d : XIdx) (a : PIdx) (s : State) : Out :=
  s.vec (.pcnt d a) { srcs := [] } fun p => { x := some (d, BitVec.ofNat 64 (ones (p.getP a))) }
/-- `pfirst` (R185). -/
def execPfirst (d : XIdx) (a : PIdx) (s : State) : Out :=
  s.vec (.pfirst d a) { srcs := [] } fun p => { x := some (d, BitVec.ofNat 64 (lowBit (p.getP a))) }

/-! Major 0x23 (R186–R189) -/

/-- The first element, in lane order, whose checks fail, LINK after the others (R188). -/
def State.elemFault (s : State) (p : Proc) (els : List (Nat × Word)) (z : Nat) (perm : Perm) (k : Nat) :
    Option (Cause × Word × Word × Word) :=
  firstFault (els.map fun e => (s.check p e.2 z perm 0).map fun x => match x with
    | (.link, d0, d1) => (.link, e.2, d0, d1)
    | (c, d0, _) => (c, e.2, d0, BitVec.ofNat 64 (k + 256 * e.1)))

/-- The active lanes of an instruction from VPROG on, with their addresses (R188). -/
def Proc.elems (p : Proc) (w : ElW) (m : PIdx) (at_ : Proc → Nat → Word) : List (Nat × Word) :=
  let n := 2048 / bitsOf w
  ((List.range n).filter fun l => decide (p.vprog ≤ l) && active (p.getP m) l n).map fun l => (l, at_ p l)

/-- A vector load whose elements have all returned completes (R188). -/
def State.vloadDone (s : State) (p : Proc) (d : VIdx) (z : Nat) (els : List VElem) : State :=
  match els.find? fun e => match e.val with
      | some (_, b) => b
      | none => false with
  | some e => s.raise p .memerr (some 4) (BitVec.ofNat 64 e.addr) (BitVec.ofNat 64 z) (BitVec.ofNat 64 (256 * e.lane))
  | none => s.putProc ((p.setV d (putElems (p.getV d) (8 * z) els)).advance 4)

/-- Reads the elements of a vector load: the own memory answers at once, other homes by replies (R188). -/
def State.vload (s : State) (p : Proc) (d : VIdx) (z : Nat) (els : List (List Nat × Nat × Word)) : Out :=
  let es : List VElem := els.map fun e =>
    { lanes := e.1, lane := e.2.1, addr := e.2.2.toNat, val :=
        match s.target p.core e.2.2.toNat with
        | .own h => some (s.seen p.core p.pid e.2.2.toNat h z, s.seenMarked p.core p.pid e.2.2.toNat h z)
        | _ => none }
  if es.all (·.val.isSome) then .next (s.vloadDone p d z es)
  else
    let p := { p with wait := .vload d z es }
    .next (es.zipIdx.foldl (fun t e =>
      if e.1.val.isSome then t
      else t.dispatchPacket p (BitVec.ofNat 64 e.1.addr) z (s.target p.core e.1.addr) .ord
        fun a => .load a z (.slot p.pid e.2)) { s with cpu := some p })

/-- The course of a vector memory instruction up to its accesses: class, streams, checks of every element. -/
def State.vmem (s : State) (i : Instr) (vs : List VIdx) (w : ElW) (els : Proc → List (Nat × Word)) (perm : Perm) (k : Nat)
    (go : Proc → List (Nat × Word) → Out) : Out :=
  s.ofClass i vs false fun p =>
    match p.wait with
    | .vload _ _ _ => .next s
    | _ =>
      match ((List.range 8).map (BitVec.ofNat 3)).find? fun i => vs.any fun r => p.boundAt r == some i with
      | some t => s.raised p .stream 4 0 7 (streamNo t)
      | none =>
        let es := els p
        match s.elemFault p es (bitsOf w / 8) perm k with
        | some (c, a, d0, d1) => s.raised p c 4 a d0 d1
        | none => if s.anyHeld p (es.map (·.2)) then s.stall p else go p es

/-- A vector load with an address for each lane. -/
def State.vld (s : State) (i : Instr) (w : ElW) (m : PIdx) (d : VIdx) (vs : List VIdx) (at_ : Proc → Nat → Word) : Out :=
  s.vmem i (d :: vs) w (fun p => p.elems w m at_) .rd 0 fun p es =>
    s.vload p d (bitsOf w / 8) (es.map fun e => ([e.1], e.1, e.2))

/-- A vector store: its elements are accepted by the memory path in lane order. Where the path takes only some of them, VPROG
is the lowest lane that is left, and the instruction goes on from there, or is halted there (R189); what it has written so far
counts for the granules that it covers (R112), and its elements keep one number (R157). -/
def State.vst (s : State) (i : Instr) (w : ElW) (m : PIdx) (d : VIdx) (vs : List VIdx) (at_ : Proc → Nat → Word) : Out :=
  s.vmem i (d :: vs) w (fun p => p.elems w m at_) .wr 1 fun p es =>
    let (now, rest) := s.accepted es
    let p := if p.batch = 0 then { p with batch := s.nextId } else p
    let whole := (({ p with vprog := 0 } : Proc).elems w m at_).map fun e => e.2.toNat
    let t := s.storeElems p .ord (bitsOf w / 8) (whole.take (whole.length - rest.length))
      (now.map fun e => (e.2, lane (p.getV d) (bitsOf w) e.1))
    match rest with
    | [] => t.done (p.advance 4)
    | e :: _ => t.done { p with vprog := e.1, wait := .stall }

/-- Address forms of Table 9.11. -/
def atUnit (w : ElW) (a b : XIdx) (p : Proc) (l : Nat) : Word := p.getX a + p.getX b + BitVec.ofNat 64 (l * (bitsOf w / 8))
def atStride (a b : XIdx) (p : Proc) (l : Nat) : Word := p.getX a + BitVec.ofNat 64 l * p.getX b
def atIndex (w : ElW) (a : XIdx) (b : VIdx) (p : Proc) (l : Nat) : Word :=
  p.getX a + BitVec.ofNat 64 (lane (p.getV b) (bitsOf w) l * (bitsOf w / 8))

/-- `vld` (Table 9.11). -/
def execVld (w : ElW) (m : PIdx) (d : VIdx) (a b : XIdx) (s : State) : Out :=
  s.vld (.vld w m d a b) w m d [] (atUnit w a b)
/-- `vst` (Table 9.11). -/
def execVst (w : ElW) (m : PIdx) (d : VIdx) (a b : XIdx) (s : State) : Out :=
  s.vst (.vst w m d a b) w m d [] (atUnit w a b)
/-- `vlds` (Table 9.11). -/
def execVlds (w : ElW) (m : PIdx) (d : VIdx) (a b : XIdx) (s : State) : Out :=
  s.vld (.vlds w m d a b) w m d [] (atStride a b)
/-- `vsts` (Table 9.11). -/
def execVsts (w : ElW) (m : PIdx) (d : VIdx) (a b : XIdx) (s : State) : Out :=
  s.vst (.vsts w m d a b) w m d [] (atStride a b)
/-- `vgath` (Table 9.11). -/
def execVgath (w : ElW) (m : PIdx) (d : VIdx) (a : XIdx) (b : VIdx) (s : State) : Out :=
  s.vld (.vgath w m d a b) w m d [b] (atIndex w a b)
/-- `vscat` (Table 9.11). -/
def execVscat (w : ElW) (m : PIdx) (d : VIdx) (a : XIdx) (b : VIdx) (s : State) : Out :=
  s.vst (.vscat w m d a b) w m d [b] (atIndex w a b)
/-- `vldb` (R188): one access for every active lane, faulted with lane 0; it starts again after a halt (R189). -/
def execVldb (w : ElW) (m : PIdx) (d : VIdx) (a : XIdx) (s : State) : Out :=
  let n := 2048 / bitsOf w
  let lanes (p : Proc) : List Nat := (List.range n).filter fun l => active (p.getP m) l n
  s.vmem (.vldb w m d a) [d] w (fun p => if (lanes p).isEmpty then [] else [(0, p.getX a)]) .rd 0 fun p es =>
    match es with
    | [] => s.done (p.advance 4)
    | e :: _ => s.vload p d (bitsOf w / 8) [(lanes p, 0, e.2)]

/-- VECTOR_LOAD_RETURN (R188): every element has returned. -/
def execVectorLoadReturn (s : State) : Out :=
  match s.proc? (Subject.num s.subj) with
  | some p =>
    match p.wait with
    | .vload d z els => if p.st = .running ∧ els.all (·.val.isSome) = true then .next (s.vloadDone p d z els) else .next s
    | _ => .next s
  | none => .next s

/-- VECTOR_COMMIT (R156): the elements that a waiting instruction pops are there, so it goes on and commits. -/
def execVectorCommit (s : State) : Out :=
  match s.proc? (Subject.num s.subj) with
  | some p =>
    if p.st = .running ∧ p.wait = .pop ∧ (s.packets.any fun q => match q.payload with
        | .load _ _ (.ahead pid _ _) | .loadRet _ _ (.ahead pid _ _) | .linkRet _ _ (.ahead pid _ _)
        | .apRead _ _ _ _ (.ahead pid _ _) => pid == p.pid
        | _ => false) = false then .next (s.putProc { p with wait := .stall })
    else .next s
  | none => .next s

/-! Major 0x27 (R190–R194) -/

/-- A stream instruction of a T-class process. -/
def State.strm (s : State) (i : Instr) (k : Proc → Out) : Out := s.ofClass i [] true k

/-- `scfg` (R191). -/
def execScfg (n : BitVec 3) (k : BitVec 3) (a : XIdx) (s : State) : Out :=
  s.strm (.scfg n k a) fun p =>
    let t := p.stream n
    if t.bound then s.raised p .stream 4 0 5 (streamNo n)
    else
      let v := p.getX a
      let t := match k.toNat with
        | 0 => { t with cfg0 := v }
        | 1 => { t with cfg1 := v }
        | 2 => { t with cfg2 := v }
        | 3 => { t with cfg3 := v }
        | _ => { t with mode := v }
      s.done ((p.setStream n t).advance 4)
/-- `sbase` (R191). -/
def execSbase (n : BitVec 3) (a : XIdx) (s : State) : Out :=
  s.strm (.sbase n a) fun p =>
    let t := p.stream n
    if t.bound then s.raised p .stream 4 0 5 (streamNo n)
    else s.done ((p.setStream n { t with base := p.getX a }).advance 4)

/-- The check of R192 that fails first. -/
def Stream.startFault (t : Stream) : Option Word :=
  let dims := List.range t.ndim
  if t.bound then some 1
  else if t.mode &&& ~~~0x137 ≠ 0 || dims.any (fun k => t.cfg k >>> 48 != 0) || t.width == 3 then some 2
  else if dims.any fun k => t.count k == 0 then some 3
  else if t.base.toNat % t.size ≠ 0 || dims.any (fun k => (t.stride k).toNat % t.size != 0) then some 4
  else none

/-- `sstart` (R192). -/
def execSstart (n : BitVec 3) (s : State) : Out :=
  s.strm (.sstart n) fun p =>
    let t := p.stream n
    match t.startFault with
    | some c => s.raised p .stream 4 0 c (streamNo n)
    | none =>
      let t := { t with pos := 0, ended := decide (t.total = 0), bound := true, ahead := [] }
      s.done (((p.setStream n t).setV (8#4 ||| n.setWidth 4) 0).advance 4)

/-- Pushed elements of a stream that have not landed. -/
def State.pushPending (s : State) (pid : Nat) (n : BitVec 3) : Bool :=
  s.packets.any fun q => q.pid == pid && q.kind == .push n

/-- A stream is unbound (R193). -/
def Proc.unbind (p : Proc) (n : BitVec 3) : Proc := p.setStream n { p.stream n with bound := false, ahead := [] }

/-- `sstop` (R193). -/
def execSstop (n : BitVec 3) (s : State) : Out :=
  s.strm (.sstop n) fun p =>
    let t := p.stream n
    if !t.bound then s.done (p.advance 4)
    else if t.isWrite && s.pushPending p.pid n then s.done { p with wait := .sstop n }
    else (s.dropAhead p.pid n).done ((p.unbind n).advance 4)

/-- SSTOP_COMPLETE (R193). -/
def execSstopComplete (s : State) : Out :=
  match s.proc? (Subject.num s.subj) with
  | some p =>
    match p.wait with
    | .sstop n =>
      if p.st = .running ∧ s.pushPending p.pid n = false then .next (s.putProc ((p.unbind n).advance 4)) else .next s
    | _ => .next s
  | none => .next s

/-- `sbr` (R194). -/
def execSbr (n : BitVec 3) (off : BitVec 17) (s : State) : Out :=
  s.strm (.sbr n off) fun p =>
    let t := p.stream n
    s.done (if t.bound && !t.ended then p.jump (p.pc + halves off) else p.advance 4)

/-- StreamStatus (Table 9.13). -/
def Stream.status (t : Stream) : Word :=
  let pos := if 2 ^ 48 ≤ t.pos then 2 ^ 48 - 1 else t.pos
  BitVec.ofNat 64 (pos * 65536 + bit 7 t.zend + field 5 (t.ndim - 1) + field 3 t.width + bit 2 t.isWrite +
    bit 1 t.ended + bit 0 t.bound)

/-- `sstat` (R194). -/
def execSstat (d : XIdx) (n : BitVec 3) (s : State) : Out :=
  s.strm (.sstat d n) fun p => s.done ((p.setX d (p.stream n).status).advance 4)

/-- STREAM_READ_AHEAD (R165): the next element of a bound read stream of a running process is fetched. R165 lets each element be
read at any moment up to its pop: that elements are fetched ahead in increasing order only is the model's choice (log 69). -/
def execStreamReadAhead (s : State) : Out :=
  match s.subj with
  | .stream pid i =>
    match s.proc? pid with
    | none => .next s
    | some p =>
      let t := p.stream i
      let asked := s.packets.filterMap fun q => match q.payload with
        | .load _ _ (.ahead a b e) | .loadRet _ _ (.ahead a b e) | .linkRet _ _ (.ahead a b e)
        | .apRead _ _ _ _ (.ahead a b e) => if a = pid ∧ b = i then some (e + 1) else none
        | _ => none
      let e := ((t.ahead.map fun (a : Ahead) => a.idx + 1) ++ asked).foldl max t.pos
      if p.st = .running ∧ t.bound = true ∧ t.isWrite = false ∧ e < t.total then
        let keep (v : Nat) (w m : Bool) (l : Option (Nat × Word)) : State :=
          s.putProc (p.fetched i { idx := e, val := v, window := w, marked := m, link := l })
        match s.readAt p (t.elemAddr e) t.size 2 with
        | .val v m => .next (keep v false m none)
        | .fault .window _ _ => .next (keep 0 true false none)
        | .fault _ d0 d1 => .next (keep 0 false false (some (d0.toNat, d1)))
        | .ask g => .next (s.dispatchPacket p (t.elemAddr e) t.size g .ord fun a => .load a t.size (.ahead pid i e))
        | .held => .next s
      else .next s
  | _ => .next s

end Sys2Proof.Machine
end

