-- ==== Sys2Proof/Machine/Tile.lean ====
section
/-! DEFINITION. Tile instructions (11): descriptors and their checks, products group by group, accumulators, metadata. -/

namespace Sys2Proof.Machine

/-! Formats (Table 11.3) -/

/-- Code of a format. -/
def tileCode : TileFmt → Nat
  | .bf16 => 0 | .f16 => 1 | .e4m3 => 2 | .e5m2 => 3 | .i8 => 4 | .bs4 => 5 | .bs6 => 6 | .bs8 => 7 | .f32 => 8
  | .i32 => 9 | .i16 => 10

/-- Bits of an element by format code; reserved codes as 32. -/
def tileBits (code : Nat) : Nat := [16, 16, 8, 8, 8, 4, 6, 8, 32, 32, 16].getD code 32

/-- A block-scaled format code. -/
def blockFmt (code : Nat) : Bool := decide (5 ≤ code) && decide (code ≤ 7)

/-- Element format of a floating-point or block-scaled code. -/
def tileFp : TileFmt → Option Fmt
  | .bf16 => some bf16 | .f16 => some fp16 | .e4m3 | .bs8 => some e4m3 | .e5m2 => some e5m2 | .bs4 => some e2m1
  | .bs6 => some e3m2 | .f32 => some fp32 | _ => none

/-! Descriptors (Table 11.2) -/

/-- A descriptor's fields; `zero` says that its zero fields are zero, SBASE and SPITCH included where FMT is not
block-scaled. -/
structure Desc where
  base : Nat
  sbase : Nat
  spitch : Nat
  fmt : Nat
  cols : Nat
  rot : Nat
  rows : Nat
  pitch : Nat
  zero : Bool
deriving DecidableEq, Repr

/-- Reads a descriptor pair. -/
def descOf (dw0 dw1 : Word) : Desc :=
  let fmt := (dw1.extractLsb' 40 4).toNat
  { base := (dw0.extractLsb' 0 19).toNat
    sbase := (dw0.extractLsb' 32 19).toNat
    spitch := (dw0.extractLsb' 20 12).toNat
    fmt := fmt
    cols := (dw1.extractLsb' 24 14).toNat + 1
    rot := (dw1.extractLsb' 21 3).toNat
    rows := (dw1.extractLsb' 16 5).toNat + 1
    pitch := (dw1.extractLsb' 0 16).toNat
    zero := dw0 >>> 51 == 0 && !dw0.getLsbD 19 && dw1 >>> 44 == 0 && (dw1.extractLsb' 38 2) == 0 &&
      (blockFmt fmt || (dw0.extractLsb' 32 19 == 0 && dw0.extractLsb' 20 12 == 0)) }

/-- The descriptor in a pair of registers (R197). -/
def Proc.desc (p : Proc) (r : XIdx) : Desc := descOf (p.getX r) (p.getX (r + 1))

/-- RowByte(i, b) (R200). -/
def Desc.rowByte (d : Desc) (i b : Nat) : Nat :=
  let a := d.base + i * d.pitch + b
  if d.rot = 0 then a else a ^^^ (i * (2 * d.rot - 1) % 16 * 32)

/-- Bytes of a row, and its span (R201). -/
def Desc.rowLen (d : Desc) : Nat := (d.cols * tileBits d.fmt + 7) / 8
def Desc.span (d : Desc) : Nat := if d.rot = 0 then d.rowLen else 512 * ((d.rowLen + 511) / 512)

/-- The footprint as ranges of first byte and length (R201). -/
def Desc.footprint (d : Desc) : List (Nat × Nat) :=
  ((List.range d.rows).map fun i => (d.base + i * d.pitch, d.span)) ++
    (if blockFmt d.fmt then (List.range d.rows).map fun i => (d.sbase + i * d.spitch, d.cols / 16) else [])

/-- Roles of `tdesc` (R212), and that of a tile channel (R307). -/
inductive Role | a | aSp | b | st | ld | bSp | chan
deriving DecidableEq, Repr

/-- Formats of a role, by code (Table 11.4). -/
def Role.takes (r : Role) (c : Nat) : Bool :=
  match r with
  | .a | .b => decide (c ≤ 7)
  | .aSp | .bSp => decide (c ≤ 4)
  | .st => decide (c ≤ 8) || c == 10
  | .ld => c == 8 || c == 9
  | .chan => decide (c ≤ 10)

/-- Limits of ROWS and COLS (R204, R307). -/
def Role.limits : Role → Nat × Nat
  | .a | .aSp => (16, 16384)
  | .b | .bSp | .chan => (32, 16384)
  | .st | .ld => (16, 32)

/-- The checks of Table 11.6 that concern one descriptor: whether the check of a code fails. In 0x08, ROWS > 1 belongs to the
PITCH alone (log 52). -/
def Desc.fails (d : Desc) (r : Role) (fmt : Nat) (code : Nat) : Bool :=
  let blk := blockFmt d.fmt
  let al := if d.rot = 0 then 16 else 512
  match code with
  | 0x02 => !d.zero
  | 0x03 => d.fmt != fmt
  | 0x04 => decide (r.limits.1 < d.rows) || decide (r.limits.2 < d.cols)
  | 0x06 => (blk && (d.cols % 32 != 0 || (r == .st && d.cols != 32))) || (r == .bSp && d.cols % 16 != 0)
  | 0x07 => d.base % al != 0 || (decide (1 < d.rows) && d.pitch % al != 0) ||
      (blk && (d.sbase % 2 != 0 || d.spitch % 2 != 0))
  | 0x08 => (decide (1 < d.rows) && decide (d.pitch < d.span)) || (blk && decide (d.spitch < d.cols / 16))
  | 0x09 => d.footprint.any fun f => decide (Config.localBytes < f.1 + f.2)
  | _ => false

/-- The first failing TILE_COMBO check in the order of Table 11.6: code and operand. `spans` tells the checks that concern
both operands or the instruction. -/
def firstCombo (ops : List (Desc × Role)) (fmt : Nat) (spans : Nat → Bool) : Option (Nat × Nat) :=
  (List.range 0x0D).findSome? fun c =>
    match ops.zipIdx.find? fun o => o.1.1.fails o.1.2 fmt c with
    | some o => some (c, o.2)
    | none => if spans c then some (c, 2) else none

/-- The lowest byte from `lo` up to `hi` that no window grants, or that the park area takes (R205, R223). -/
def firstBadByte (wins : List WinEntry) (park : Nat) (perm : Perm) (hi : Nat) : Nat → Nat → Option Nat
  | 0, lo => some lo
  | fuel + 1, lo =>
    if hi < lo then none
    else if park ≤ lo then some lo
    else
      let reach := (wins.filter fun w => decide (w.base ≤ lo) && decide (lo ≤ w.limit) && w.grants perm).foldl
        (fun m w => max m (w.limit + 1)) 0
      if reach = 0 then some lo else firstBadByte wins park perm hi fuel (min reach park)

/-- The lowest byte of a footprint that may not be accessed (R205). -/
def State.footprintFault (s : State) (p : Proc) (d : Desc) (perm : Perm) : Option Nat :=
  (d.footprint.filterMap fun f =>
    firstBadByte (s.windows p.region p.core) (s.parkStart p.core) perm (f.1 + f.2 - 1) 18 f.1).min?

/-- The checks of a tile instruction with descriptors: TILE_COMBO, then WINDOW (R204, R205). -/
def State.tileChecks (s : State) (p : Proc) (ops : List (Desc × Role × Perm)) (fmt : Nat) (spans : Nat → Bool) :
    Option (Cause × Word × Word × Option Word) :=
  match firstCombo (ops.map fun o => (o.1, o.2.1)) fmt spans with
  | some (c, o) => some (.tileCombo, 0, BitVec.ofNat 64 (c + 256 * o), none)
  | none =>
    ops.zipIdx.findSome? fun o =>
      match s.footprintFault p o.1.1 o.1.2.2 with
      | some a => some (.window, BitVec.ofNat 64 a, BitVec.ofNat 64 o.2, some (if o.1.2.2 = .wr then 1 else 0))
      | none => none

/-- A tile instruction: class (R22), then what it does. -/
def State.tile (s : State) (i : Instr) (vs : List VIdx) (k : Proc → Out) : Out := s.ofClass i vs true k

/-- Raises the cause of a check; a TILE_COMBO record shows the instruction word (R204). -/
def State.tileRaise (s : State) (p : Proc) (i : Instr) (e : Cause × Word × Word × Option Word) : Out :=
  s.raised p e.1 4 e.2.1 e.2.2.1 (e.2.2.2.getD (instrDetail i))

/-! Reading memory (R215) -/

/-- The accesses that have not taken effect in the order in which the bytes of one word take their writes: those that wait in
its reservation queue, in the order of the queue (R250), then the others. -/
def State.landingOrder (s : State) : List Packet :=
  (s.rsvs.filterMap fun r => match r.k with
    | .oneShot id => s.packets.find? fun q => q.waitsAt id r.addr
    | _ => none) ++ s.packets.filter fun q => !q.queued

/-- One byte of the own memory as the tile unit sees it: the process's own stores and every `tst` write, the latest in coherence
order (R239). -/
def State.tileByte (s : State) (core a : Nat) : Byte :=
  s.landingOrder.foldl (fun b q => if q.forwards core 0 then (q.byteFor a).getD b else b) (s.mem.get (globalBase core + a))

/-- n bytes of the own memory as the tile unit sees them. -/
def State.tileRead (s : State) (core a : Nat) : Nat → Nat
  | 0 => 0
  | n + 1 => (s.tileByte core a).toNat + 256 * State.tileRead s core (a + 1) n

/-- `tst` writes of a process that have not landed. -/
def State.tstPending (s : State) (pid : Nat) : Bool := s.packets.any fun q => q.pid == pid && q.kind == .tst

/-- The bytes of rows and scales that a descriptor names (R200). -/
def Desc.bytes (d : Desc) : List Nat :=
  (List.range d.rows).flatMap fun i =>
    ((List.range d.rowLen).map (d.rowByte i)) ++
      (if blockFmt d.fmt then (List.range (d.cols / 16)).map fun b => d.sbase + i * d.spitch + b else [])

/-- A tile instruction reads the process's own stores that have not landed, and those of them that follow a `tst` write to the
same bytes then land behind it: else the read would miss a `tst` write that stands later in coherence order (R215, R239). -/
def State.fixReads (s : State) (p : Proc) (ds : List Desc) : State :=
  if s.tstPending p.pid then
    let bytes := ds.flatMap Desc.bytes
    { s with packets := s.packets.map fun q =>
        if q.pid == p.pid && q.path == .own && q.forwards p.core 0 && !q.queued &&
            bytes.any (fun b => decide (q.used ≤ b) && decide (b < q.used + q.n))
        then { q with fixed := true } else q }
  else s

/-- The marked granules among the bytes of a read. -/
def State.tileMarks (s : State) (core a n : Nat) : List Nat :=
  ((List.range ((a + n - 1) / 8 - a / 8 + 1)).map fun k => (a / 8 + k) * 8).filter fun g =>
    s.seenMarked core 0 g (globalBase core + g) 8

/-- The bytes of a row from byte b0, n of them, as a number; a rotation keeps 32-byte granules together. -/
def State.rowBytes (s : State) (core : Nat) (d : Desc) (i b0 : Nat) : Nat → Nat
  | 0 => 0
  | n + 1 => s.tileRead core (d.rowByte i b0) 1 + 256 * State.rowBytes s core d i (b0 + 1) n

/-- Element codes k0 to k0 + n − 1 of row i (R200). -/
def State.rowElems (s : State) (core : Nat) (d : Desc) (i k0 n : Nat) : List Nat :=
  let z := tileBits d.fmt
  let lo := k0 * z / 8
  let hi := ((k0 + n) * z + 7) / 8
  let v := s.rowBytes core d i lo (hi - lo)
  (List.range n).map fun t => v / 2 ^ ((k0 + t) * z - 8 * lo) % 2 ^ z

/-- Marked granules among the bytes of those elements. -/
def State.rowMarks (s : State) (core : Nat) (d : Desc) (i k0 n : Nat) : List Nat :=
  let z := tileBits d.fmt
  let lo := k0 * z / 8
  let hi := ((k0 + n) * z + 7) / 8
  (List.range (hi - lo)).flatMap fun b => s.tileMarks core (d.rowByte i (lo + b)) 1

/-- The scale halfword of the block that holds element k of row i. -/
def State.scaleAt (s : State) (core : Nat) (d : Desc) (i k : Nat) : Nat :=
  s.tileRead core (d.sbase + i * d.spitch + 2 * (k / 32)) 2

/-- A subnormal input becomes a zero of its sign (R143). -/
def Fmt.flushIn (f : Fmt) (code : Nat) : Nat :=
  if code / 2 ^ f.mw % 2 ^ f.ew = 0 then f.signed (decide (code / 2 ^ (f.ew + f.mw) % 2 = 1)) 0 else code

/-- Val of R206. -/
def tileVal (f : TileFmt) (scale code : Nat) : Fp :=
  match tileFp f with
  | none => let v := toS 8 code; .fin (decide (v < 0)) v.natAbs 0
  | some fm =>
    if blockFmt (tileCode f) then
      match scaleOf scale with
      | none => .nan true
      | some sc => (fm.decode code).scaled sc
    else fm.decode (fm.flushIn code)

/-- The values of elements k0 … of row i; all of them lie in one block (R144). -/
def State.rowVals (s : State) (core : Nat) (f : TileFmt) (d : Desc) (i k0 n : Nat) : List Fp :=
  let sc := if blockFmt d.fmt then s.scaleAt core d i k0 else 0
  (s.rowElems core d i k0 n).map (tileVal f sc)

/-! Accumulators -/

/-- Cell (i, j) (R195). -/
def cell (a : Acc) (i j : Nat) : Nat := (a >>> (32 * (32 * i + j))).toNat % 2 ^ 32

/-- An accumulator from its cells. -/
def accOf (f : Nat → Nat → Nat) : Acc :=
  BitVec.ofNat 16384 ((List.range 512).foldr (fun k acc => f (k / 32) (k % 32) % 2 ^ 32 + 2 ^ 32 * acc) 0)

/-- Results of all cells, row by row, with their flags. -/
def cellsOf (f : Nat → Nat → Rounded) : Acc × Flags :=
  let rs := (List.range 512).map fun k => f (k / 32) (k % 32)
  (BitVec.ofNat 16384 (rs.foldr (fun r acc => r.1 % 2 ^ 32 + 2 ^ 32 * acc) 0), rs.foldl (fun fl r => fl ||| r.2) 0)

/-- A subnormal FP32 result becomes a zero of its sign, with UF and NX (R144, R211). -/
def flushOut (r : Rounded) : Rounded :=
  if r.1 % 2 ^ 31 ≠ 0 ∧ r.1 / 2 ^ 23 % 256 = 0 then (fp32.signed (decide (2 ^ 31 ≤ r.1)) 0, r.2 ||| fUF ||| fNX) else r

/-- The sum of a group of finite products in the 48-bit window (R144): sign of a zero, sum in units of 2^u, NX. -/
def groupSum (ps : List (Bool × Nat × Int)) : Bool × Int × Int × Bool :=
  let nz := ps.filter fun p => p.2.1 != 0
  match nz with
  | [] => (ps.all (·.1), 0, 0, false)
  | q :: _ =>
    let top (p : Bool × Nat × Int) : Int := p.2.1.log2 + p.2.2
    let e := nz.foldl (fun m p => max m (top p)) (top q)
    let u := e - 47
    let t (p : Bool × Nat × Int) : Int × Bool :=
      let v := signedMant p.1 p.2.1
      let sh := p.2.2 - u
      if 0 ≤ sh then (v * 2 ^ sh.toNat, false)
      else (v / 2 ^ (-sh).toNat, decide (v % 2 ^ (-sh).toNat ≠ 0))
    let ts := nz.map t
    (false, ts.foldl (fun a x => a + x.1) 0, u, ts.any (·.2))

/-- GroupUpdate of a floating-point cell (R144, R145), from the factors of the group's products. -/
def groupUpdate (acc : Nat) (fs : List (Fp × Fp)) : Rounded :=
  let a := fp32.decode acc
  let ps := fs.map fun f => if f.1.isNan || f.2.isNan then some (.nan true) else f.1.mul f.2
  let infs := ps.filterMap fun p => match p with
    | some (.inf s) => some s
    | _ => none
  let mixed := infs.contains true && infs.contains false
  let accInf := match a with
    | .inf s => infs.any (· != s)
    | _ => false
  let nv := fs.any (fun f => f.1.isSig || f.2.isSig) || ps.any (·.isNone) || mixed || accInf || a.isSig
  let bad := ps.any (fun p => match p with
    | none => true
    | some q => q.isNan) || mixed || accInf || a.isNan
  if bad then fp32.nanOf nv
  else match infs with
    | s :: _ => (fp32.inf s, 0)
    | [] =>
      let (z, g, u, nx) := groupSum (ps.filterMap fun p => match p with
        | some (.fin s m e) => some (s, m, e)
        | _ => none)
      match a with
      | .fin s m e =>
        let r := fp32.addExact .rne s m e (if g = 0 then z else decide (g < 0)) g.natAbs u
        flushOut (r.1, r.2 ||| fIf nx fNX)
      | _ => (acc, fIf nx fNX)

/-- The missing products of a group are +0 (R144, R206). -/
def zeroPair : Fp × Fp := (.fin false 0 0, .fin false 0 0)

/-- Metadata of row i (R207). -/
def metaOf (ws : List Word) (i : Nat) : Nat := ((ws.getD (i / 4) 0).extractLsb' (16 * (i % 4)) 16).toNat

/-- One K-group: the new cells with their flags (R206, R207). -/
def State.group1 (s : State) (p : Proc) (f : TileFmt) (sp : Bool) (da db : Desc) (acc : Acc) (g : Nat) : Acc × Flags :=
  let c := p.core
  let k0 := 16 * g
  let kb := min 16 (db.cols - k0)
  let av := (List.range da.rows).map fun i => if sp then s.rowVals c f da i (8 * g) 8 else s.rowVals c f da i k0 kb
  let bv := (List.range db.rows).map fun j => s.rowVals c f db j k0 kb
  let zero : Fp := .fin false 0 0
  let pairs (i j : Nat) : List (Fp × Fp) :=
    if da.rows ≤ i ∨ db.rows ≤ j then []
    else if sp then
      let m := metaOf p.mq i
      (List.range 8).map fun t =>
        let k := 4 * (t / 2) + m / 2 ^ (4 * (t / 2) + 2 * (t % 2)) % 4
        ((av.getD i []).getD t zero, (bv.getD j []).getD k zero)
    else List.zip (av.getD i []) (bv.getD j [])
  cellsOf fun i j =>
    let old := cell acc i j
    if f = .i8 then
      let sum := (pairs i j).foldl (fun n q => match q.1, q.2 with
        | .fin s m _, .fin t k _ => n + signedMant s m * signedMant t k
        | _, _ => n) (0 : Int)
      (wrap 32 (satS (toS 32 old + sum) 32), 0)
    else
      let ps := pairs i j
      groupUpdate old (ps ++ List.replicate (16 - ps.length) zeroPair)

/-- The marked granules that a group reads. A group of `tmma.sp` counts every B element of its 16 K positions as read: whether
an element that no metadata selects is read, R207 does not say, and that it is read is the model's choice (log 54). -/
def State.groupMarks (s : State) (p : Proc) (sp : Bool) (da db : Desc) (g : Nat) : List Nat :=
  let c := p.core
  let kb := min 16 (db.cols - 16 * g)
  let sc (d : Desc) (i k : Nat) : List Nat :=
    if blockFmt d.fmt then s.tileMarks c (d.sbase + i * d.spitch + 2 * (k / 32)) 2 else []
  ((List.range da.rows).flatMap fun i =>
    (if sp then s.rowMarks c da i (8 * g) 8 else s.rowMarks c da i (16 * g) kb) ++ sc da i (16 * g)) ++
  ((List.range db.rows).flatMap fun j => s.rowMarks c db j (16 * g) kb ++ sc db j (16 * g))

/-- K-groups of a product. -/
def Desc.groups (db : Desc) : Nat := (db.cols + 15) / 16

/-- Performs K-groups from TPROG on, at most `n`: the process after them, or a cause with the process as it stops
(R206, R218); `fl` gathers the flags since the latest issue. A re-issued `tmma.sp` whose descriptors have changed may need more
words than its claim has left: that it takes them from the head of the queue, and UNCL stays, is the model's choice, where
R208 says nothing (log 54). -/
def State.runGroups (s : State) (f : TileFmt) (sp : Bool) (d : AIdx) (da db : Desc) :
    Nat → Flags → Proc → Proc × Option (Cause × Word × Word × Word)
  | 0, fl, p => ({ p with tile := some fl }, none)
  | n + 1, fl, p =>
    let g := p.tprog
    if db.groups ≤ g then (p, none)
    else match (s.groupMarks p sp da db g).min? with
      | some a => (p, some (.memerr, BitVec.ofNat 64 a, 8, BitVec.ofNat 64 g))
      | none =>
        let (acc, gf) := s.group1 p f sp da db (p.getA d) g
        let fl := fl ||| gf
        if gf &&& p.enables ≠ 0 then (p, some (.arith, 0, fl.setWidth 64, BitVec.ofNat 64 g))
        else
          let p := { p.setA d acc with fpflags := p.fpflags ||| gf, tprog := g + 1 }
          let p := if sp then { p with mq := p.mq.drop 4, claim := p.claim - 4 } else p
          State.runGroups s f sp d da db n fl p

/-- A product has performed its groups: it completes, and claims that are left are discarded (R206, R208). -/
def Proc.productDone (p : Proc) : Proc := { p with tprog := 0, tile := none, mq := p.mq.drop p.claim, claim := 0 }.advance 4

/-- `tmma` and `tmma.sp`, performing at most `n` K-groups (R206, R207, R217): from issue, with the checks, or on from the
groups performed since. A re-issue keeps its claim (R217); that it then skips check 0x0B, which counts the words still
unclaimed, is the model's choice (log 70). -/
def State.product (s : State) (i : Instr) (f : TileFmt) (sp : Bool) (d : AIdx) (a b : XIdx) (n : Nat) (p : Proc) : Out :=
  let da := p.desc a
  let db := p.desc b
  let again := decide (0 < p.tprog) || decide (0 < p.claim)
  let code := tileCode f
  let spans (c : Nat) : Bool :=
    match c with
    | 0x01 => if sp then decide (4 < code) else decide (7 < code)
    | 0x05 => if sp then 2 * da.cols != db.cols else da.cols != db.cols
    | 0x0A => sp && decide (16 < db.cols / 16)
    | 0x0B => sp && !again && decide (p.uncl < db.cols / 4)
    | _ => false
  let go (s : State) (fl : Flags) (p : Proc) : Out :=
    match s.runGroups f sp d da db n fl p with
    | (q, some (c, ad, d0, d1)) => s.raised q c 4 ad d0 d1
    | (q, none) => if db.groups ≤ q.tprog then s.done q.productDone else s.done { q with wait := .stall }
  match p.tile with
  | some fl => go s fl p
  | none =>
    match s.tileChecks p [(da, if sp then .aSp else .a, .rd), (db, if sp then .bSp else .b, .rd)] code spans with
    | some e => s.tileRaise p i e
    | none =>
      if s.coreUnstamped p.core then s.stall p
      else go (s.fixReads p [da, db]) 0
        (if sp && !again then { p with uncl := p.uncl - db.cols / 4, claim := db.cols / 4 } else p)

/-- The most K-groups that any product has: COLS is at most 16,384. -/
def allGroups : Nat := 1024

/-- `tmma` (R206). -/
def execTmma (f : TileFmt) (d : AIdx) (a b : XIdx) (s : State) : Out :=
  s.tile (.tmma f d a b) [] (s.product (.tmma f d a b) f false d a b allGroups)
/-- `tmma.sp` (R207). -/
def execTmmaSp (f : TileFmt) (d : AIdx) (a b : XIdx) (s : State) : Out :=
  s.tile (.tmmaSp f d a b) [] (s.product (.tmmaSp f d a b) f true d a b allGroups)

/-- TILE_GROUP (R206, R217): the product at the pc of a running process performs one K-group, between which a halt can
come. -/
def execTileGroup (s : State) : Out :=
  match s.runningOn (Subject.num s.subj) with
  | none => .next s
  | some r =>
    if r.wait ≠ .none ∧ r.wait ≠ .stall then .next s
    else
      let t := s.refocus r.core
      match t.cpu with
      | none => .next s
      | some p =>
        match t.fetch p with
        | .instr (.tmma f d a b) t =>
          t.tile (.tmma f d a b) [] (t.product (.tmma f d a b) f false d a b 1)
        | .instr (.tmmaSp f d a b) t =>
          t.tile (.tmmaSp f d a b) [] (t.product (.tmmaSp f d a b) f true d a b 1)
        | _ => .next s

/-! Moving and combining accumulators (R209–R211) -/

/-- `tzero` (R209). -/
def execTzero (d : AIdx) (s : State) : Out := s.tile (.tzero d) [] fun p => s.done ((p.setA d 0).advance 4)

/-- `tldacc` (R209). -/
def execTldacc (f : TileFmt) (d : AIdx) (a : XIdx) (s : State) : Out :=
  s.tile (.tldacc f d a) [] fun p =>
    let ds := p.desc a
    match s.tileChecks p [(ds, .ld, .rd)] (tileCode f) (fun c => c == 0x01 && !Role.ld.takes (tileCode f)) with
    | some e => s.tileRaise p (.tldacc f d a) e
    | none =>
      if s.coreUnstamped p.core then s.stall p
      else match ((List.range ds.rows).flatMap fun i => s.rowMarks p.core ds i 0 ds.cols).min? with
        | some g => s.raised p .memerr 4 (BitVec.ofNat 64 g) 8 0
        | none =>
          let s := s.fixReads p [ds]
          let rows := (List.range ds.rows).map fun i => s.rowElems p.core ds i 0 ds.cols
          s.done ((p.setA d (accOf fun i j =>
            let v := (rows.getD i []).getD j 0
            if f = .f32 then fp32.flushIn v else v)).advance 4)

/-- Conv of R210 for a format that is not block-scaled. -/
def tstConv (f : TileFmt) (c : Nat) : Rounded :=
  match f with
  | .i8 => (wrap 8 (satS (toS 32 c) 8), 0)
  | .i16 => (wrap 16 (satS (toS 32 c) 16), 0)
  | .bf16 | .f16 | .e4m3 | .e5m2 =>
    match tileFp f with
    | some fm =>
      let r := fm.convert .rne (fp32.decode c)
      if r.1 % 2 ^ (fm.ew + fm.mw) ≠ 0 ∧ r.1 / 2 ^ fm.mw % 2 ^ fm.ew = 0 then
        (fm.signed (decide (2 ^ (fm.ew + fm.mw) ≤ r.1)) 0, r.2 ||| fUF ||| fNX)
      else r
    | none => (c, 0)
  | _ => (c, 0)

/-- A write of a `tst`: address, bytes, value. -/
abbrev TstWrite := Word × Nat × Nat

/-- Puts a write before those of higher addresses. -/
def insertWrite (w : TstWrite) : List TstWrite → List TstWrite
  | [] => [w]
  | u :: r => if w.1.toNat ≤ u.1.toNat then w :: u :: r else u :: insertWrite w r

/-- The writes of a row by increasing byte address: a rotation permutes granules (R200, R210). -/
def byAddress (ws : List TstWrite) : List TstWrite := ws.foldr insertWrite []

/-- What a `tst` writes, row by row, the elements of a row by increasing byte address, and the flags (R210). R210 does not say
where the scale of a row stands among its bytes: that it is written last is the model's choice (log 71). -/
def tstWrites (f : TileFmt) (ds : Desc) (acc : Acc) : List TstWrite × Flags :=
  let z := tileBits (tileCode f)
  let rows : List (List TstWrite × Flags) := (List.range ds.rows).map fun i =>
    if blockFmt (tileCode f) then
      let (scale, els, fl) := encodeBlock ((tileFp f).getD e2m1) ((List.range 32).map fun j => cell acc i j)
      let v := els.foldr (fun e acc => e + 2 ^ z * acc) 0
      (byAddress ((List.range (4 * z)).map fun b => (BitVec.ofNat 64 (ds.rowByte i b), 1, v / 2 ^ (8 * b) % 256)) ++
        [(BitVec.ofNat 64 (ds.sbase + i * ds.spitch), 2, scale)], fl)
    else
      let els := (List.range ds.cols).map fun j => (BitVec.ofNat 64 (ds.rowByte i (j * z / 8)), tstConv f (cell acc i j))
      (byAddress (els.map fun e => (e.1, z / 8, e.2.1)), els.foldl (fun fl e => fl ||| e.2.2) 0)
  (rows.flatMap (·.1), rows.foldl (fun fl r => fl ||| r.2) 0)

/-- The memory path accepts writes of a `tst`, in order; `all` are those that it has accepted of the instruction (R112). -/
def State.storeTst (s : State) (p : Proc) (all ws : List TstWrite) : State :=
  let bytes := all.flatMap fun w => (List.range w.2.1).map fun k => w.1.toNat + k
  ws.foldl (fun s w =>
    s.store p w.1 w.2.1 (s.target p.core w.1.toNat) .tst w.2.2 none (covered bytes 1 w.1.toNat)) s

/-- `tst` (R210, R216). Where the path takes only some of its writes, it goes on behind them; a halt abandons it with those made,
and it then writes all of them again (R217). -/
def execTst (f : TileFmt) (a : XIdx) (d : AIdx) (s : State) : Out :=
  s.tile (.tst f a d) [] fun p =>
    let ds := p.desc a
    match s.tileChecks p [(ds, .st, .wr)] (tileCode f) (fun c => c == 0x01 && !Role.st.takes (tileCode f)) with
    | some e => s.tileRaise p (.tst f a d) e
    | none =>
      if s.coreUnstamped p.core then s.stall p
      else
        let (ws, fl) := tstWrites f ds (p.getA d)
        if fl &&& p.enables ≠ 0 then s.raised p .arith 4 0 (fl.setWidth 64) 0
        else
          let (now, rest) := s.accepted (ws.drop p.tdone)
          let made := p.tdone + now.length
          let t := s.storeTst p (ws.take made) now
          match rest with
          | [] => t.done ({ p with fpflags := p.fpflags ||| fl }.advance 4)
          | _ => t.done { p with wait := .stall, tdone := made }

/-- An instruction that reads its sources in full and writes every cell (R211). -/
def State.cellwise (s : State) (p q : Proc) (d : AIdx) (r : Acc × Flags) : Out :=
  if r.2 &&& p.enables ≠ 0 then s.raised p .arith 4 0 (r.2.setWidth 64) 0
  else s.done (({ q with fpflags := q.fpflags ||| r.2 }.setA d r.1).advance 4)

/-- A subnormal FP32 pattern is read as a zero of its sign (R211). -/
def readF32 (c : Nat) : Fp := fp32.decode (fp32.flushIn c)

/-- A format that the operation does not take (code 0x01). -/
def comboFmt (f : TileFmt) : Option (Cause × Word × Word × Option Word) :=
  if Role.ld.takes (tileCode f) then none else some (.tileCombo, 0, 0x201, none)

/-- `tadd` (R211). -/
def execTadd (f : TileFmt) (d a b : AIdx) (s : State) : Out :=
  s.tile (.tadd f d a b) [] fun p =>
    match comboFmt f with
    | some e => s.tileRaise p (.tadd f d a b) e
    | none =>
      s.cellwise p p d (cellsOf fun i j =>
        let x := cell (p.getA a) i j
        let y := cell (p.getA b) i j
        if f = .f32 then flushOut (fp32.add .rne (readF32 x) (readF32 y))
        else (wrap 32 (satS (toS 32 x + toS 32 y) 32), 0))

/-- The triple product of `tscale.f32`, rounded once (R211). -/
def scale3 (x y z : Fp) : Rounded :=
  let all := [x, y, z]
  let invalid := all.any (·.isSig) || (all.any (·.isZero) && all.any fun v => match v with | .inf _ => true | _ => false)
  if invalid || all.any (·.isNan) then fp32.nanOf invalid
  else match (x.mul y).bind (·.mul z) with
    | none => fp32.nanOf true
    | some p => flushOut (fp32.roundFp .rne p)

/-- `tscale` (R211); a v operand that is a bound stream is popped (R205). -/
def execTscale (f : TileFmt) (d : AIdx) (a b : VIdx) (s : State) : Out :=
  s.tile (.tscale f d a b) [a, b] fun p =>
    match comboFmt f with
    | some e => s.tileRaise p (.tscale f d a b) e
    | none =>
      match p.misuse [a, b] [] false with
      | some t => s.raised p .stream 4 0 7 (streamNo t)
      | none =>
        match s.popAll p [a, b] none with
        | .stop c ad d0 d1 => s.raised p c 4 ad d0 d1
        | .hold s w => .next { s with cpu := some { p with wait := w } }
        | .go q =>
          s.cellwise p q d (cellsOf fun i j =>
            let x := cell (q.getA d) i j
            let y := lane (q.getV a) 32 i
            let z := lane (q.getV b) 32 j
            if f = .f32 then scale3 (readF32 x) (readF32 y) (readF32 z)
            else (wrap 32 (satS (toS 32 x * toS 32 y * toS 32 z) 32), 0))

/-- `twait` (R213). -/
def execTwait (s : State) : Out :=
  s.tile .twait [] fun p =>
    if s.tstPending p.pid then s.done { p with wait := .twait } else s.done (p.advance 4)

/-- TWAIT_COMPLETE (R213). -/
def execTwaitComplete (s : State) : Out :=
  match s.proc? (Subject.num s.subj) with
  | some p =>
    if p.st = .running ∧ p.wait = .twait ∧ s.tstPending p.pid = false then .next (s.putProc (p.advance 4)) else .next s
  | none => .next s

/-! Descriptors tested (R212) and metadata (R208) -/

/-- The role that `tdesc` names. -/
def Role.ofNum : Nat → Role
  | 0 => .a | 1 => .aSp | 2 => .b | 3 => .st | 4 => .ld | _ => .bSp

/-- `tdesc` (R212). -/
def execTdesc (f : TileFmt) (d a : XIdx) (role : BitVec 5) (s : State) : Out :=
  s.tile (.tdesc f d a role) [] fun p =>
    let r := Role.ofNum role.toNat
    let ds := p.desc a
    let v : Nat :=
      match firstCombo [(ds, r)] (tileCode f) (fun c => c == 0x01 && !r.takes (tileCode f)) with
      | some (c, _) => 0x800 + c
      | none => if (s.footprintFault p ds (if r = .st then .wr else .rd)).isSome then 0x400 else 0
    s.done ((p.setX d (BitVec.ofNat 64 v)).advance 4)

/-- The push of a `tmq` that may push (R208): the process after it, or what the stream operand comes to. -/
def State.tmqPush (s : State) (p : Proc) (a : VIdx) : Out :=
  match p.misuse [a] [] false with
  | some t => s.raised p .stream 4 0 7 (streamNo t)
  | none =>
    match s.popAll p [a] none with
    | .stop c ad d0 d1 => s.raised p c 4 ad d0 d1
    | .hold s w => .next (s.putProc { p with wait := w })
    | .go q =>
      let ws := (List.range 32).map fun m => BitVec.ofNat 64 (lane (q.getV a) 64 m)
      .next (s.putProc ({ q with mq := q.mq ++ ws, uncl := q.uncl + 32 }.advance 4))

/-- `tmq` (R208). -/
def execTmq (a : VIdx) (s : State) : Out :=
  s.tile (.tmq a) [a] fun p =>
    if 32 < p.uncl then s.tileRaise p (.tmq a) (.tileCombo, 0, 0x20C, none)
    else if p.mq.length ≤ 32 then s.tmqPush p a
    else s.done { p with wait := .tmq a }

/-- TMQ_PUSH (R208, R221). -/
def execTmqPush (s : State) : Out :=
  match s.proc? (Subject.num s.subj) with
  | some p =>
    match p.wait with
    | .tmq a => if p.st = .running ∧ p.mq.length ≤ 32 then s.tmqPush p a else .next s
    | _ => .next s
  | none => .next s

/-- `tmq.clr` (R208): the unclaimed words are the most recently pushed ones. -/
def execTmqClr (s : State) : Out :=
  s.tile .tmqClr [] fun p =>
    s.done ({ p with mq := p.mq.take (p.mq.length - p.uncl), uncl := 0 }.advance 4)

end Sys2Proof.Machine
end

