-- ==== Sys2Proof/Machine/Chans.lean ====
section
/-! DEFINITION. Channels, alternation, barriers and the process instructions (17): majors 0x30–0x32 and their events. -/

namespace Sys2Proof.Machine

/-! Checks (R280, R301, R305) -/

/-- A cause of a channel or barrier instruction: ADDR 0, DETAIL0 the handle (R286, R301, R305). -/
def State.chanRaise (s : State) (p : Proc) (c : Cause) (h : Nat) (d1 : Nat) : Out :=
  s.raised p c 4 0 (BitVec.ofNat 64 h) (BitVec.ofNat 64 d1)

/-- A holding cause at an address whose rule states no detail words (log 12). -/
def State.raisedAt (s : State) (p : Proc) (c : Cause) (addr : Word) : Out :=
  { s with free := s.free + 2 }.raised p c 4 addr (Config.detail s.free) (Config.detail (s.free + 1))

/-- The handle in a register: its low 32 bits (R306). -/
def Proc.handle (p : Proc) (a : XIdx) : Nat := (p.getX a).toNat % 2 ^ 32

/-- Items 1 and 2 of R305 for an instruction that needs the process to hold the end; `want` is the end it takes. -/
def State.heldCheck (s : State) (p : Proc) (h : Nat) (want : Option Bool) : Except (Cause × Nat) (Channel × Bool) :=
  match parseHandle h with
  | none => .error (.chType, 1)
  | some r =>
    if want.isSome ∧ want ≠ some r.tx then .error (.chType, 1)
    else match s.heldEnd p.pid r with
      | some c => .ok (c, r.tx)
      | none => if (s.tableChan p.region r).isSome then .error (.chBind, 2) else .error (.chBind, 1)

/-- Item 5 of R305. -/
def ownEnd (e : End) : Option (Cause × Nat) :=
  match e.st with
  | .closed => some (.chClosed, 0)
  | .error => some (.link, 0)
  | _ => none

/-- The checks of R305 for an instruction that moves a message. -/
def State.moveCheck (s : State) (p : Proc) (h : Nat) (tx tile : Bool) (n : Nat) : Except (Cause × Nat) Channel :=
  match s.heldCheck p h (some tx) with
  | .error e => .error e
  | .ok (c, _) =>
    if (c.kind == .tile) != tile then .error (.chType, 3)
    else if !tile && n != c.words then .error (.chType, 2)
    else match ownEnd (c.fin tx) with
      | some e => .error e
      | none => .ok c

/-! Moving messages (R284–R287, R292, R293, R306, R307) -/

/-- A channel instruction that was satisfied when it reached the anchor at once: the process goes on RUNNING (R29). -/
def State.keepRunning (s : State) (p : Proc) (q : Proc) (acq : Bool) : State :=
  let r := { q with st := .running, key := p.key, quantum := p.quantum, blockNo := p.blockNo, lastRun := p.lastRun,
                    wait := Wait.none }
  let s := { s with procs := s.procs.filter (·.pid != p.pid), cpu := some r }
  let s := if acq then s.clearEarly p.core else s
  (s.finishWait r).urge p.core

/-- A channel instruction sets out for the anchor (R283): at the anchor of the own core it takes effect at once. -/
def State.toAnchor (s : State) (p : Proc) (c : Channel) (w : ChanWait) (acq : Bool) : Out :=
  let at_ := s.anchorPlace c
  if at_ = p.core then
    let t := (s.block p .channel (.chan { w with arrived := true })).settle c.table c.name
    match t.proc? p.pid with
    | some q => if q.st = .ready ∧ q.done.isSome = true then .next (t.keepRunning p q acq) else .next (t.lend p.pid)
    | none => .next t
  else
    let s := s.block p .channel (.chan w)
    let (id, s) := s.freshId
    .next (s.sendAnchor p at_ id (.chan p.pid))

/-- The wait of a channel instruction. -/
def chanWait (op : ChanOp) (c : Channel) (h : Nat) : ChanWait :=
  { op := op, table := c.table, name := c.name, handle := BitVec.ofNat 64 h, msg := [], d := 0, n := 0, dw0 := 0, dw1 := 0,
    arrived := false, moving := none }

/-- The frame of a `send` on an external or host channel (R293): none when it may be sent. -/
def State.frameFault (s : State) (p : Proc) (c : Channel) (msg : List Word) : Option (Cause × Nat) :=
  let a := msg.getD 0 0
  let n := (msg.getD 1 0).toNat
  if !c.outer then none
  else if n < 1 ∨ 16384 < n then some (.chType, 3)
  else if Config.localBytes < a.toNat + n ∨ p.allowed s a n .rd = false then some (.window, 0)
  else none

/-- `send` (R306): the accesses before it are performed before it takes effect (R238 row 7). -/
def execSend (a b : XIdx) (n : BitVec 5) (s : State) : Out :=
  s.withProc fun p =>
    let h := p.handle a
    match s.moveCheck p h true false n.toNat with
    | .error (c, d1) => s.chanRaise p c h d1
    | .ok c =>
      let msg := p.getRun b n.toNat
      match s.frameFault p c msg with
      | some (.window, _) => s.raisedAt p .window (p.getX b)
      | some (e, d1) => s.chanRaise p e h d1
      | none => if s.pending p.pid then s.stall p else s.toAnchor p c { chanWait .send c h with msg := msg } false

/-- `recv` (R306); a slot of a ring that the process had is the device's again (R292). -/
def execRecv (d a : XIdx) (n : BitVec 5) (s : State) : Out :=
  s.withProc fun p =>
    let h := p.handle a
    match s.moveCheck p h false false n.toNat with
    | .error (c, d1) => s.chanRaise p c h d1
    | .ok c =>
      let s := s.modChan c.table c.name fun c => { c with ring := c.ring.map Ring.giveBack }
      s.toAnchor p c { chanWait .recv c h with d := d, n := n.toNat } true

/-- The checks of a descriptor pair on a tile channel (R307). -/
def State.tileChanFault (s : State) (p : Proc) (b : XIdx) (perm : Perm) : Option (Cause × Word × Nat) :=
  let d := p.desc b
  if 11 ≤ d.fmt then some (.chType, 0, 0x101)
  else match firstCombo [(d, .chan)] d.fmt fun _ => false with
    | some (k, _) => some (.chType, 0, 0x100 + k)
    | none =>
      match s.footprintFault p d perm with
      | some a => some (.window, BitVec.ofNat 64 a, if perm = .wr then 1 else 0)
      | none => none

/-- `sendt` and `recvt` (R307). -/
def State.tileMove (s : State) (a b : XIdx) (op : ChanOp) : Out :=
  s.withProc fun p =>
    let h := p.handle a
    let tx := op == .sendt
    match s.moveCheck p h tx true 0 with
    | .error (c, d1) => s.chanRaise p c h d1
    | .ok c =>
      match s.tileChanFault p b (if tx then .rd else .wr) with
      | some (.window, ad, k) => s.raised p .window 4 ad 1 (BitVec.ofNat 64 k)
      | some (e, _, d1) => s.chanRaise p e h d1
      | none =>
        if tx && s.pending p.pid then s.stall p
        else s.toAnchor p c { chanWait op c h with dw0 := p.getX b, dw1 := p.getX (b + 1) } (!tx)

/-- `sendt` (R287, R307). -/
def execSendt (a b : XIdx) (s : State) : Out := s.tileMove a b .sendt
/-- `recvt` (R287, R307). -/
def execRecvt (a b : XIdx) (s : State) : Out := s.tileMove a b .recvt

/-- CHANNEL_ARRIVAL (R283): what was sent to an anchor of the die takes effect there, a message of the device behind the engine
writes that it follows (R288). -/
def execChannelArrival (s : State) : Out :=
  s.onPacket (fun q => q.path == .mesh && ((q.payload.toAnchor && !s.ctlHeld q.payload) || s.frameReady q)) fun q s =>
    s.perform q

/-- The bytes that a tile transfer copies: where each comes from and goes to (R287). -/
def tilePairs (ds dr : Desc) : List (Nat × Nat) :=
  ((List.range ds.rows).flatMap fun i => (List.range ds.rowLen).map fun b => (ds.rowByte i b, dr.rowByte i b)) ++
    (if blockFmt ds.fmt then
      (List.range ds.rows).flatMap fun i => (List.range (ds.cols / 16)).map fun b =>
        (ds.sbase + i * ds.spitch + b, dr.sbase + i * dr.spitch + b)
    else [])

/-- Bytes with their addresses, as engine writes: those that lie next to each other in one word go together (R245). -/
def gather : List (Nat × Nat) → List (Nat × List Nat)
  | [] => []
  | (a, v) :: r =>
    match gather r with
    | (b, vs) :: t => if b = a + 1 ∧ b % 8 ≠ 0 then (a, v :: vs) :: t else (a, [v]) :: (b, vs) :: t
    | [] => [(a, [v])]

/-- A tile transfer that has been read is over when every byte has landed (R287, R288). -/
def State.landTransfer (s : State) (t : Transfer) : State :=
  if s.engineBusy t.id then s
  else ({ s with transfers := s.transfers.filter (·.id != t.id) } : State).endMove t.rx t.id

/-- The port of the sending core has read every byte: `sendt` completes, and the bytes are engine writes. -/
def State.readTransfer (s : State) (t : Transfer) : State :=
  let cells := (tilePairs (descOf t.s0 t.s1) (descOf t.r0 t.r1)).map fun x => (x.2, s.tileRead t.src x.1 1)
  let region := ((s.proc? t.rx).map (·.region)).getD 0
  let s := (gather cells).foldl (fun (u : State) x =>
    u.engineWrite (dieOf t.src)
      (engineWord (globalBase t.dst + x.1) x.2.length (x.2.foldr (fun b n => b + 256 * n) 0)) none region t.id) s
  let s := { s with transfers := s.transfers.map fun (u : Transfer) => if u.id = t.id then { u with read := true } else u }
  s.endMove t.tx t.id

/-- TILE_TRANSFER_DONE (R287): every byte has been read, so that `sendt` completes; `recvt` completes when every byte has
landed. -/
def execTileTransferDone (s : State) : Out :=
  match s.transfers.find? fun t => t.id == Subject.num s.subj with
  | none => .next s
  | some t => .next ((if t.read then s else s.readTransfer t).landTransfer t)

/-! Alternation (R294–R296, R308) -/

/-- Arms a guard. -/
def Proc.arm (p : Proc) (i : BitVec 5) (g : Guard) : Proc :=
  if h : i.toNat < 16 then { p with guards := p.guards.set i.toNat (some g) h } else p

/-- `alt.clr` (R308). -/
def execAltClr (s : State) : Out :=
  s.withProc fun p => s.done ({ p with guards := Vector.replicate 16 none }.advance 4)

/-- `alt.rx` and `alt.tx` (R308). -/
def State.armEnd (s : State) (a : XIdx) (i : BitVec 5) (tx : Bool) : Out :=
  s.withProc fun p =>
    let h := p.handle a
    match s.heldCheck p h (some tx) with
    | .error (c, d1) => s.chanRaise p c h d1
    | .ok (c, _) =>
      s.done ((p.arm i (if tx then .tx c.table c.name else .rx c.table c.name)).advance 4)

/-- `alt.rx` (R308). -/
def execAltRx (a : XIdx) (i : BitVec 5) (s : State) : Out := s.armEnd a i false
/-- `alt.tx` (R308). -/
def execAltTx (a : XIdx) (i : BitVec 5) (s : State) : Out := s.armEnd a i true

/-- `alt.tm` (R308). -/
def execAltTm (a : XIdx) (i : BitVec 5) (s : State) : Out :=
  s.withProc fun p => s.done ((p.arm i (.tm (p.getX a))).advance 4)

/-- The checks of a barrier handle (R301); `init` lets a free object pass. -/
def State.barrierFault (s : State) (p : Proc) (h : Word) (init : Bool) : Option (Cause × Nat) :=
  if h &&& ~~~0x1F3F ≠ 0 then some (.chType, 1)
  else if h.toNat / 256 ≠ p.core / 256 then some (.chBind, 5)
  else match s.barrierOf h with
    | some b => if b.owner = some p.region ∨ (init = true ∧ b.owner = none) then none else some (.chBind, 3)
    | none => if init then none else some (.chBind, 3)

/-- `alt.bar` (R308). -/
def execAltBar (a b : XIdx) (i : BitVec 5) (s : State) : Out :=
  s.withProc fun p =>
    let h := p.getX a
    match s.barrierFault p h false with
    | some (c, d1) => s.chanRaise p c h.toNat d1
    | none => s.done ((p.arm i (.bar h ((p.getX b).setWidth 32))).advance 4)

/-- `alt.wait` (R296): guards whose anchors are on other dies are tested there (R295). -/
def execAltWait (d : XIdx) (s : State) : Out :=
  s.withProc fun p =>
    if p.guards.toList.all (·.isNone) then s.done ((p.setX d (BitVec.allOnes 64)).advance 4)
    else if (s.farGuards p).isEmpty then .next (s.altDone p d [])
    else .next (s.askGuards p d)

/-- TIMER_GUARD (R295, R296). -/
def execTimerGuard (s : State) : Out :=
  match s.proc? (Subject.num s.subj) with
  | some p =>
    if p.isBlocked && p.wait == .alt && p.guards.toList.any (fun g => match g with
        | some (.tm t) => decide (t.toNat ≤ s.ns)
        | _ => false)
    then .next (s.wake p.pid none) else .next s
  | none => .next s

/-! Channel instructions of supervisors, status, close (R309–R312) -/

/-- The region that x[B] names for `chst` and `chunb`; none when the process may not name it (R309). -/
def State.namedRegion (s : State) (p : Proc) (v : Word) : Option Nat :=
  let r := if v = 0 then p.region else v.toNat
  if r = p.region ∨ (p.priv = .s ∧ (s.region? r).isSome ∧ s.inSubtree p.region r = true) then some r else none

/-- Resolves a handle among the held ends, then by a look-up; an end held by the device is none to name (R279, R280). -/
def State.resolve (s : State) (p : Proc) (r : HandleRef) (look : Option Channel) : Except Nat Channel :=
  match (s.heldEnd p.pid r).orElse fun _ => look with
  | none => .error 1
  | some c => if (c.fin r.tx).holder = .device then .error 2 else .ok c

/-- `chst` (R309). -/
def execChst (d a b : XIdx) (s : State) : Out :=
  s.withProc fun p =>
    let h := p.handle a
    match s.namedRegion p (p.getX b) with
    | none => s.raisedOpen p .privilege 4
    | some reg =>
      match parseHandle h with
      | none => s.chanRaise p .chType h 1
      | some r =>
        match s.resolve p r (s.tableChan reg r) with
        | .error k => s.chanRaise p .chBind h k
        | .ok c =>
          if c.region = p.region ∨ (p.priv = .s ∧ s.inSubtree p.region c.region = true) then s.ask p c r.tx .status d
          else s.chanRaise p .chBind h 1

/-- `chcl` (R310): an end that a migration moves is closed when the move ends. -/
def execChcl (a : XIdx) (s : State) : Out :=
  s.withProc fun p =>
    let h := p.handle a
    match s.heldCheck p h none with
    | .error (c, d1) => s.chanRaise p c h d1
    | .ok (c, tx) =>
      if (c.fin tx).mig then ({ s with cpu := some (p.advance 4) } : State).closeLater c tx
      else s.ask p c tx .close 0

/-- A spec word of `chmk` within Table 17.1 and R85. -/
def specOk (v : Nat) : Bool :=
  let depth := v % 256
  let buf := v / 256 % 2 == 1
  let w := v / 512 % 16
  let kind := v / 8192
  decide (v < 65536) && ((kind == 0 && decide (1 ≤ w) && decide (w ≤ 8) && (buf == (depth != 0))) ||
    (kind == 1 && w == 0 && !buf && depth == 0))

/-- The next free name of a channel table: one past the highest in use, else the lowest that is free. -/
def State.nextName (s : State) (table : Nat) : Option Nat :=
  let used := (s.channels.filter (·.table == table)).map (·.name)
  let top := used.foldl max 0 + 1
  if top ≤ 0xFFFFFF then some top
  else (List.range (used.length + 1)).findSome? fun k => if used.contains (k + 1) then none else some (k + 1)

/-- The name that a new channel of a table takes; none where the table is 0, full, or has no free name (R311). How many
channels a table has room for is a free value (log 56). -/
def State.newName (s : State) (table : Nat) : Option Nat :=
  if table = 0 ∨ Config.tableRoom table ≤ (s.channels.filter (·.table == table)).length then none else s.nextName table

/-- `chmk` (R311). -/
def execChmk (d a b : XIdx) (s : State) : Out :=
  s.withProc fun p =>
    let reg := (p.getX b).toNat
    let v := (p.getX a).toNat
    if p.priv = .u ∨ (s.region? reg).isNone = true ∨ s.inSubtree p.region reg = false then s.raisedOpen p .privilege 4
    else if !specOk v then
      { s with free := s.free + 1 }.raised p .chType 4 0 (Config.detail s.free) 5
    else
      let t := s.effChtab reg
      match s.newName t with
      | none => s.done ((p.setX d 0).advance 4)
      | some n =>
        let c : Channel := { table := t, name := n, region := reg, kind := if v / 8192 = 0 then .word else .tile,
                             w := v / 512 % 16, buf := v / 256 % 2 == 1, depth := v % 256 }
        { s with channels := s.channels ++ [c] }.done ((p.setX d (BitVec.ofNat 64 (c.handle true))).advance 4)

/-- The ancestors of a region from itself up to a region above it, where that lies above. -/
def State.pathUp (s : State) (from_ top : Nat) : List Nat :=
  let l := s.ancestors levels from_
  if l.contains top then l.takeWhile (· != top) ++ [top] else l

/-- The channel that `chbind` finds for a target's region (R312): that of the first table that holds the name. -/
def State.bindLook (s : State) (p : Proc) (target : Option Proc) (r : HandleRef) : Option Channel :=
  ((s.pathUp ((target.map (·.region)).getD p.region) p.region).findSome? fun g => s.chan? (s.effChtab g) r.name).filter
    fun c => c.kind.code == r.kind

/-- `chbind` (R312). -/
def execChbind (d a b : XIdx) (s : State) : Out :=
  s.withProc fun p =>
    let h := p.handle a
    if p.priv = .u then s.raisedOpen p .privilege 4
    else match parseHandle h with
      | none => s.chanRaise p .chType h 1
      | some r =>
        let target := (p.getX b).toNat
        match s.resolve p r (s.bindLook p (s.proc? target) r) with
        | .error k => s.chanRaise p .chBind h k
        | .ok c => s.ask p c r.tx (.bind target) d

/-- `chunb` (R312). -/
def execChunb (d a b : XIdx) (s : State) : Out :=
  s.withProc fun p =>
    let h := p.handle a
    if p.priv = .u then s.raisedOpen p .privilege 4
    else match s.namedRegion p (p.getX b) with
      | none => s.raisedOpen p .privilege 4
      | some reg =>
        match parseHandle h with
        | none => s.chanRaise p .chType h 1
        | some r =>
          match s.resolve p r (s.tableChan reg r) with
          | .error k => s.chanRaise p .chBind h k
          | .ok c => s.ask p c r.tx .unbind d

/-! Process instructions (R313–R318) -/

/-- A field of a spawn block. -/
def fieldOf (w : Word) (lo n : Nat) : Nat := w.toNat / 2 ^ lo % 2 ^ n

/-- Every bit of a word that lies outside a field is clear. -/
def zeroBut (w : Word) (mask : Nat) : Bool := w &&& ~~~(BitVec.ofNat 64 mask) == 0

/-- A spawn's open placement group (R314). -/
def State.openGroup (s : State) (region group : Nat) : Option Placement :=
  s.placements.find? fun pl => group != 0 && pl.region == region && pl.group == group && pl.thread.isNone &&
    decide (pl.members.length < pl.gcount)

/-- Step 4 of R314. -/
def State.blockOk (s : State) (p : Proc) (w : Nat → Word) : Bool :=
  let cls := fieldOf (w 1) 3 2
  let group := fieldOf (w 3) 24 12
  let gcount := fieldOf (w 3) 36 12
  let result := (w 7).toNat
  zeroBut (w 0) (2 ^ 40 - 1) && zeroBut (w 1) 0xFFFFFF1F && (cls == 0 || w 2 == 0) &&
    zeroBut (w 3) 0xFFFFFFFFFF37 && zeroBut (w 7) (2 ^ 40 - 1) && fieldOf (w 1) 0 2 != 3 && !(w 0).getLsbD 0 &&
    decide (fieldOf (w 3) 8 8 ≤ fieldOf (w 3) 16 8) && ((group == 0) == (gcount == 0)) && result % 8 == 0 &&
    (result == 0 || p.allowed s (w 7) 8 .wr) && (cls != 0 || paramsOk (fieldOf (w 2) 0 32) (fieldOf (w 2) 32 32)) &&
    (match s.openGroup (fieldOf (w 1) 16 16) group with
      | some pl => pl.gcount == gcount
      | none => true)

/-- The address of a RESULT word that names it for every die: 0 is none. -/
def State.resultHome (s : State) (core a : Nat) : Nat :=
  if a = 0 then 0
  else match s.target core a with
    | .own h | .mesh h | .fabric _ h => h
    | _ => a

/-- The context class of a process (R20, R23). -/
def clsOf (nreg ctx : Nat) : Cls := if nreg = 0 then .s else match ctx with
  | 0 => .s | 1 => .v | _ => .t

/-- The process that a spawn block describes (R314): NEW, on no core. -/
def State.newProc (s : State) (pid region : Nat) (priv : Priv) (cls : Cls) (nreg want period budget : Nat) (pc : Word) :
    Proc :=
  let base := max want (s.effCeil region)
  { pid := pid, region := region, priv := priv, cls := cls, nregs := nreg, st := .new, loc := .nowhere, core := 8192,
    pc := pc, base := base, eff := base, period := if base = 0 then period else 0,
    fullBudget := if base = 0 then budget else 0 }

/-- The spawn itself, when every check has passed (R314). -/
def State.doSpawn (s : State) (p : Proc) (d : XIdx) (w : Nat → Word) : State :=
  let pid := s.nextPid
  let region := fieldOf (w 1) 16 16
  let group := fieldOf (w 3) 24 12
  let nreg := fieldOf (w 1) 8 8
  let q := s.newProc pid region (if (w 1).getLsbD 2 then .s else .u) (clsOf nreg (fieldOf (w 1) 0 2)) nreg (fieldOf (w 1) 3 2)
    (fieldOf (w 2) 0 32) (fieldOf (w 2) 32 32) (w 0)
  let q := ((q.setX 2 (w 4)).setX 3 (w 5)).setX 4 (w 6)
  let m : Member := { pid := pid, die := fieldOf (w 3) 0 3, clus := fieldOf (w 3) 4 2, first := fieldOf (w 3) 8 8,
                      last := fieldOf (w 3) 16 8, result := s.resultHome p.core (w 7).toNat, issuer := p.pid,
                      issuerCore := p.core, issuerPc := p.pc, issuerCoord := s.coord p.core }
  let gr := s.openGroup region group
  let s := { s with cpu := some ((p.setX d (BitVec.ofNat 64 pid)).advance 4), nextPid := pid + 1, procs := s.procs ++ [q] }
  match gr with
  | some pl =>
    let pl := { pl with members := pl.members ++ [m] }
    { s with placements := s.placements.map fun (x : Placement) => if x.id = pl.id then pl else x }.tryPlacement pl
  | none =>
    let (id, s) := s.freshId
    let pl : Placement := { id := id, region := region, group := group, gcount := if group = 0 then 1 else fieldOf (w 3) 36 12,
                            members := [m], t0 := s.ns }
    { s with placements := s.placements ++ [pl] }.tryPlacement pl

/-- `spawn` (R313, R314). -/
def execSpawn (d a : XIdx) (s : State) : Out :=
  s.withProc fun p =>
    let ea := p.getX a
    if Config.localBytes ≤ ea.toNat ∨ ea.toNat % 64 ≠ 0 then
      { s with free := s.free + 1 }.raised p .misalign 4 ea 64 (Config.detail s.free)
    else if !p.allowed s ea 64 .rd then s.raisedAt p .window ea
    else if s.heldBack p.core (.own 0) then s.stall p
    else
      let h := globalBase p.core + ea.toNat
      if s.seenMarked p.core p.pid ea.toNat h 64 then s.raisedAt p .memerr ea
      else
        let w (i : Nat) : Word := BitVec.ofNat 64 (s.seen p.core p.pid (ea.toNat + 8 * i) (h + 8 * i) 8)
        let region := fieldOf (w 1) 16 16
        let mine := if p.priv = .u then region == p.region else (s.region? region).isSome && s.inSubtree p.region region
        if ((w 1).getLsbD 2 && p.priv == .u) || !mine then s.raisedOpen p .privilege 4
        else if 32 < fieldOf (w 1) 8 8 then s.raised p .spawn 4 0 (BitVec.ofNat 64 (fieldOf (w 1) 8 8)) 1
        else if !s.blockOk p w then
          { s with free := s.free + 1 }.raised p .spawn 4 0 (Config.detail s.free) 2
        else if !s.diePresent (fieldOf (w 3) 0 3) then s.raised p .spawn 4 0 (BitVec.ofNat 64 (fieldOf (w 3) 0 3)) 3
        else .next (s.doSpawn p d w)

/-- `exit` (R316, R32). -/
def execExit (s : State) : Out := s.withProc fun p => .next (s.exitProc p.pid .exited)

/-- `yield` (R40, R316). -/
def execYield (s : State) : Out :=
  s.withProc fun p =>
    let q := p.advance 4
    if p.eff = 0 then .next ({ s with cpu := some q }.urge p.core)
    else .next (({ s with cpu := some q } : State).stopRunning q State.toTail)

/-- `sleep` (R316). -/
def execSleep (a : XIdx) (s : State) : Out :=
  s.withProc fun p =>
    if (p.getX a).toNat ≤ s.ns then s.done (p.advance 4) else .next (s.block p .sleep (.sleep (p.getX a)))

/-- SLEEP_EXPIRY (R316). -/
def execSleepExpiry (s : State) : Out :=
  match s.proc? (Subject.num s.subj) with
  | some p =>
    match p.wait with
    | .sleep t => if p.isBlocked && decide (t.toNat ≤ s.ns) then .next (s.wake p.pid (some (.regs []))) else .next s
    | _ => .next s
  | none => .next s

/-- A process whose own class has changed (R317): EFF is recomputed, and where it changes the process joins the tail of its
new class: it leaves RUNNING when another process stands before it there or in a more urgent class. -/
def State.reclass (s : State) (p : Proc) : Out :=
  let q := s.reEff p
  let s := { s with cpu := some q }
  if q.eff = p.eff then .next (s.urge p.core)
  else if s.urges p.core q || (s.wings p.core).any fun r => q.eff != 0 && r.eff == q.eff then
    .next (s.stopRunning q State.toTail)
  else s.done { q with quantum := (s.core p.core).quant, key := s.tailKey p.core }

/-- `setcl` (R317). -/
def execSetcl (d a : XIdx) (s : State) : Out :=
  s.withProc fun p =>
    let c := (p.getX a).toNat
    if 3 < c ∨ c = 0 then s.done ((p.setX d 2).advance 4)
    else
      let ceil := s.effCeil p.region
      let q := { p.leaveClass0 with base := max c ceil }
      s.reclass ((q.setX d (if c < ceil then 3 else 0)).advance 4)

/-- `dline` (R317). -/
def execDline (d a b : XIdx) (s : State) : Out :=
  s.withProc fun p =>
    let period := (p.getX a).toNat
    let budget := (p.getX b).toNat
    let ceil := s.effCeil p.region
    if !paramsOk period budget then s.done ((p.setX d 2).advance 4)
    else if ceil ≠ 0 then s.reclass (({ p.leaveClass0 with base := ceil }.setX d 3).advance 4)
    else if !s.admits p.core p.pid period budget then s.done ((p.setX d 1).advance 4)
    else s.reclass (({ p with base := 0, period := period, fullBudget := budget }.renew s.ns |>.setX d 0).advance 4)

/-- `migr` (R318): the process is halted and spilled, and its ends are in transit (R51); MIGRATION completes it. -/
def execMigr (d a : XIdx) (s : State) : Out :=
  s.withProc fun p =>
    let v := (p.getX a).toNat
    let c := v % 8192
    let status (k : Nat) : Out := s.done ((p.setX d (BitVec.ofNat 64 k)).advance 4)
    if v / 2 ^ 32 ≠ 0 ∨ v / 2 ^ 13 % 8 ≠ 0 then status 4
    else if !s.diePresent (dieOf c) then status 3
    else if c = p.core then status 0
    else if !s.canMove c p then status 2
    else if !s.canAdmit c p then status 1
    else
      let q := { p with st := .parked none, loc := .park, wait := .migrating c d true, lastRun := s.ns }
      let s := (s.dropLoads p.pid).leaveRunning q
      .next ((s.modCore p.core fun k => { k with halt := none, ghostRun := false }).transitEnds p.pid true)

/-! Barriers (R300–R303) -/

/-- Replaces the barrier object that a handle names. -/
def State.putBarrier (s : State) (h : Word) (b : Option Barrier) : State :=
  { s with barriers := (s.barriers.filter fun x => !(x.die == h.toNat / 1024 % 8 && x.clus == h.toNat / 256 % 4 &&
      x.idx == h.toNat % 64)) ++ b.toList }

/-- `bar.init` (R302). -/
def execBarInit (a b : XIdx) (s : State) : Out :=
  s.withProc fun p =>
    let h := p.getX a
    let c := (p.getX b).toNat
    match s.barrierFault p h true with
    | some (e, d1) => s.chanRaise p e h.toNat d1
    | none =>
      if 65535 < c then s.chanRaise p .chType h.toNat 6
      else if ((s.barrierOf h).map (·.arrived)).getD 0 ≠ 0 then s.chanRaise p .chBind h.toNat 6
      else
        let o : Barrier := { die := h.toNat / 1024 % 8, clus := h.toNat / 256 % 4, idx := h.toNat % 64,
                             owner := some p.region, count := c, arrived := 0, phase := 0 }
        .next (({ s with cpu := some (p.advance 4) }.putBarrier h
          (if c = 0 then (s.barrierOf h).map fun (b : Barrier) => { b with owner := none } else some o)).wakeBarrier)

/-- One more arrival (R302). -/
def Barrier.arrive (b : Barrier) : Barrier :=
  if b.arrived + 1 = b.count then { b with arrived := 0, phase := b.phase + 1 } else { b with arrived := b.arrived + 1 }

/-- `bar.arr` (R302): a release. -/
def execBarArr (d a : XIdx) (s : State) : Out :=
  s.withProc fun p =>
    let h := p.getX a
    match s.barrierFault p h false, s.barrierOf h with
    | some (e, d1), _ => s.chanRaise p e h.toNat d1
    | none, none => s.chanRaise p .chBind h.toNat 3
    | none, some b =>
      if s.orderPending p.pid then s.stall p
      else
        let s := { s with cpu := some ((p.setX d (b.phase.setWidth 64)).advance 4) }
        .next (s.putBarrier h (some b.arrive)).wakeBarrier

/-- `bar.wait` (R302): an acquire. -/
def execBarWait (a b : XIdx) (s : State) : Out :=
  s.withProc fun p =>
    let h := p.getX a
    let ph := (p.getX b).setWidth 32
    match s.barrierFault p h false with
    | some (e, d1) => s.chanRaise p e h.toNat d1
    | none =>
      if s.phaseOf h ≠ ph then (s.clearEarly p.core).done (p.advance 4)
      else .next (s.block p .barrier (.barrier h ph))

/-! Deadlock probes (R297–R299) -/

/-- The process that a wait edge leads to; none where the other end is on its way (R297, R298). -/
def State.waitEdge (s : State) (p : Proc) : Option Nat :=
  match p.wait with
  | .chan w =>
    if p.isBlocked then
      match s.chan? w.table w.name with
      | some c =>
        let e := c.fin (w.op == .recv || w.op == .recvt)
        if e.st = .inTransit then none else e.pid
      | none => none
    else none
  | _ => none

/-- A probe sets out. -/
def State.sendProbe (s : State) (origin blockNo : Nat) (pids : List Nat) (tgt : Nat) : State :=
  let (id, s) := s.freshId
  { s with probes := s.probes ++ [{ id := id, origin := origin, blockNo := blockNo, pids := pids, tgt := tgt }] }

/-- PROBE_SEND (R298): at a multiple of PROBE; one at which the wait has no edge passes without a probe. -/
def execProbeSend (s : State) : Out :=
  match s.proc? (Subject.num s.subj) with
  | none => .next s
  | some p =>
    if p.isBlocked = false ∨ s.probesDue p ≤ p.probes then .next s
    else match s.waitEdge p with
      | none => .next (s.putProc { p with probes := s.probesDue p })
      | some t => .next ((s.putProc { p with probes := p.probes + 1 }).sendProbe p.pid p.blockNo [p.pid] t)

/-- Two PIDs of a report in one detail word (R299). -/
def pidPair (pids : List Nat) (i : Nat) : Word := BitVec.ofNat 64 (pids.getD (i + 1) 0 * 2 ^ 32 + pids.getD i 0)

/-- The DEADLOCK records of a cycle (R299). They set out from the origin's core, with its COORD and its queue, and not from the
stage manager: R57 names DEADLOCK in neither place, and this is the model's choice (log 57). -/
def State.reportCycle (s : State) (p : Proc) (pids : List Nat) : State :=
  (List.range ((pids.length + 3) / 4)).foldl (fun t m =>
    t.notify p.core .deadlock p.region p.pid p.priv p.pc (BitVec.ofNat 64 (pids.length + 256 * m)) (pidPair pids (4 * m))
      (pidPair pids (4 * m + 2))) s

/-- PROBE_ARRIVAL (R298). -/
def execProbeArrival (s : State) : Out :=
  match s.probes.find? (·.id == Subject.num s.subj) with
  | none => .next s
  | some b =>
    let s := { s with probes := s.probes.filter (·.id != b.id) }
    match s.proc? b.tgt with
    | none => .next s
    | some t =>
      if t.pid = b.origin then
        if t.isBlocked = true ∧ t.blockNo = b.blockNo ∧ t.reported = false then
          .next ((s.putProc { t with reported := true }).reportCycle t b.pids)
        else .next s
      else match s.waitEdge t with
        | some u =>
          if b.origin < t.pid ∧ b.pids.length < 16 then .next (s.sendProbe b.origin b.blockNo (b.pids ++ [t.pid]) u)
          else .next s
        | none => .next s

end Sys2Proof.Machine
end

