-- ==== Sys2Proof/Machine/Servers.lean ====
section
/-! DEFINITION. Memory servers and segments (15): request instructions and their checks, acceptance, contexts, translation,
pieces, completion. -/

namespace Sys2Proof.Machine

/-! Servers (R258) and segments (R260–R266) -/

/-- Personalities of an edge group (Table 21.1). -/
abbrev persCxl : BitVec 2 := 1
abbrev persUalink : BitVec 2 := 2
abbrev persUet : BitVec 2 := 3

/-- An edge group is present: its die is, and its bit of EDGES is set (R11). -/
def State.groupPresent (s : State) (n : Nat) : Bool := s.pkg.edgeMask.getLsbD n && s.diePresent (n / 2)

/-- A stack is present. -/
def State.stackPresent (s : State) (n : Nat) : Bool := s.pkg.stackMask.getLsbD n && s.diePresent (n / 2)

/-- The name of `any`. -/
def anyServer : Nat := 0xFFFFFF

/-- A server is present (R258). -/
def State.serverPresent (s : State) (n : Nat) : Bool :=
  if n < 16 then s.stackPresent n
  else decide (n < 32) && s.groupPresent (n - 16) && (s.group (n - 16)).pers == persCxl

/-- Die of a server (R4). -/
def serverDie (n : Nat) : Nat := n % 16 / 2

/-- A server's record; one that is not listed holds its reset values. -/
def State.server (s : State) (n : Nat) : Server :=
  match s.servers.find? (·.name == n) with
  | some v => v
  | none => { name := n }

/-- Puts a server's record back. -/
def State.putServer (s : State) (v : Server) : State :=
  { s with servers := (s.servers.filter (·.name != v.name)) ++ [v] }

/-- Applies a change to a server's record. -/
def State.modServer (s : State) (n : Nat) (f : Server → Server) : State := s.putServer (f (s.server n))

/-- Contexts and input queue of a server (R258, R259). -/
def contexts (n : Nat) : Nat := if n < 16 then 64 else 32
def inputQueue : Nat := 1024
/-- Requests that a core has accepted and not completed, at most (R259). -/
def coreRequests : Nat := 64

/-- A segment-table entry (Table 15.1). -/
structure Segment where
  size : Nat
  wr : Bool
  isFar : Bool
  group : Nat
  xlat : Nat
deriving DecidableEq, Repr

/-- Address of entry k − 1 of a segment table. -/
def entryAt (table seg : Nat) : Nat := table + 8 + 32 * (seg - 1)

/-- Reads a segment-table entry. -/
def State.segment (s : State) (entry : Nat) : Segment :=
  let f := s.mem.read (entry + 8) 8
  { size := s.mem.read entry 8, wr := f % 2 == 1, isFar := f / 2 % 2 == 1, group := f / 16 % 16,
    xlat := s.mem.read (entry + 16) 8 % 2 ^ 40 }

/-- Bytes of a page and of a granule. -/
def pageBytes : Nat := 2 ^ 21
def granuleBytes : Nat := 4096

/-- The page-table entry of a page (R262). -/
def State.pageEntry (s : State) (seg : Segment) (page : Nat) : Word := BitVec.ofNat 64 (s.mem.read (seg.xlat + 8 * page) 8)

/-- A page is pinned. -/
def pinned (e : Word) : Bool := e.getLsbD 63

/-- Physical address of byte b of a page. -/
def pageAddr (seg : Segment) (e : Word) (b : Nat) : Nat :=
  (if seg.isFar then e.toNat % 2 ^ 46 else e.toNat % 2 ^ 19) * pageBytes + b

/-- The stacks of ITAB in increasing order (R264, R266). -/
def Pkg.stacks (k : Pkg) : List Nat := (List.range 16).filter fun i => k.itab.getLsbD i

/-- Entry f of ITAB (R264). -/
def Pkg.itabAt (k : Pkg) (f : Nat) : Nat := k.stacks.getD (f % k.stacks.length) 0

/-- The index of a granule in ITAB (R264). -/
def itabIndex (g : Nat) : Nat := (g ^^^ (g / 2 ^ 8) ^^^ (g / 2 ^ 16) ^^^ (g / 2 ^ 24)) % 256

/-- The stack that owns a physical address (R264). -/
def Pkg.stackOf (k : Pkg) (pa : Nat) : Nat := k.itabAt (itabIndex (pa / granuleBytes))

/-- The entries of ITAB below entry n that a stack owns (R265). -/
def Pkg.owned (k : Pkg) (stack n : Nat) : Nat := ((List.range n).filter fun i => k.itabAt i == stack).length

/-- The address of a byte in the stack that owns it (R265). -/
def Pkg.stackAddr (k : Pkg) (pa : Nat) : Nat :=
  let g := pa / granuleBytes
  let f := itabIndex g
  let st := k.itabAt f
  (g / 256 * k.owned st 256 + k.owned st f) * granuleBytes + pa % granuleBytes

/-- Where the model keeps a byte of the HBM: its stack, and the address in it. -/
def Pkg.hbmKey (k : Pkg) (pa : Nat) : Nat := k.stackOf pa * 2 ^ 40 + k.stackAddr pa

/-- Address of a far byte in the model's table of far memories: each group's own space (R262, R276). -/
def farKey (group pa : Nat) : Nat := group * 2 ^ 68 + pa

/-- The parts of a range that lie in one granule each: address and length. -/
def granuleRuns (pa : Nat) : Nat → Nat → List (Nat × Nat)
  | 0, _ => []
  | fuel + 1, n =>
    if n = 0 then []
    else
      let k := min n (granuleBytes - pa % granuleBytes)
      (pa, k) :: granuleRuns (pa + k) fuel (n - k)

/-- Bytes of a run, word by word: the address and the bytes that lie in one aligned word. -/
def wordRuns {α : Type} : Nat → Nat → List α → List (Nat × List α)
  | 0, _, _ => []
  | fuel + 1, a, bs =>
    if bs.isEmpty then [] else (a, bs.take (8 - a % 8)) :: wordRuns fuel (a / 8 * 8 + 8) (bs.drop (8 - a % 8))

/-- The marks of a memory after a write: a word that takes a byte read with an error bears a mark, one that is written whole
without any loses it (R112, R272). -/
def markRun (l : List Nat) (a : Nat) (bs : List MByte) : List Nat :=
  (wordRuns (bs.length + 1) a bs).foldl (fun l w =>
    if w.2.any (·.2) then insertAddr (wordAt w.1) l else if w.2.length = 8 then eraseAddr w.1 l else l) l

/-- Bytes with the marks of their words. -/
def withMarks (m : Memory) (marks : List Nat) (a n : Nat) : List MByte :=
  (m.bytes a n).zipIdx.map fun b => (b.1, marks.contains (wordAt (a + b.2)))

/-- Reads bytes of a segment's memory. -/
def State.segRead (s : State) (seg : Segment) (pa n : Nat) : List MByte :=
  if seg.isFar then withMarks s.far s.farMarks (farKey seg.group pa) n
  else (granuleRuns pa (n / granuleBytes + 2) n).flatMap fun x => withMarks s.hbm s.hbmMarks (s.pkg.hbmKey x.1) x.2

/-- Writes bytes within a granule of the HBM. -/
def State.hbmWrite (s : State) (pa : Nat) (bs : List MByte) : State :=
  let a := s.pkg.hbmKey pa
  { s with hbm := s.hbm.writeBytes a (bs.map (·.1)), hbmMarks := markRun s.hbmMarks a bs }

/-- Writes bytes of a segment's memory. -/
def State.segWrite (s : State) (seg : Segment) (pa : Nat) (bs : List MByte) : State :=
  if seg.isFar then
    let a := farKey seg.group pa
    { s with far := s.far.writeBytes a (bs.map (·.1)), farMarks := markRun s.farMarks a bs }
  else ((granuleRuns pa (bs.length / granuleBytes + 2) bs.length).foldl (fun (acc : State × List MByte) x =>
    (acc.1.hbmWrite x.1 (acc.2.take x.2), acc.2.drop x.2)) (s, bs)).1

/-! Conversion (R269) -/

/-- Source and destination types of a conversion code (Table 15.4). -/
def convTypes : Nat → Option (CvtT × CvtT)
  | 1 => some (.bf16, .f32) | 2 => some (.f16, .f32) | 3 => some (.e4m3, .f32) | 4 => some (.e5m2, .f32)
  | 5 => some (.f32, .bf16) | 6 => some (.f32, .f16) | 7 => some (.f32, .e4m3) | 8 => some (.f32, .e5m2)
  | 9 => some (.bf16, .e4m3) | 10 => some (.e4m3, .bf16) | _ => none

/-- Widths in bytes of source and destination elements. -/
def convWidths (c : Nat) : Nat × Nat :=
  match convTypes c with
  | some (a, b) => (cvtWidth a / 8, cvtWidth b / 8)
  | none => (1, 1)

/-- n bytes of a number, little-endian. -/
def toBytes (v : Nat) : Nat → List Byte
  | 0 => []
  | n + 1 => BitVec.ofNat 8 v :: toBytes (v / 256) n

/-- Lists of n. -/
def chunks {α : Type} (n : Nat) : Nat → List α → List (List α)
  | 0, _ => []
  | f + 1, l => if l.isEmpty then [] else l.take n :: chunks n f (l.drop n)

/-- Bytes converted element by element, in RNE; a destination byte bears the mark of its source element (R272). -/
def convBytes (c : Nat) (bs : List MByte) : List MByte :=
  match convTypes c with
  | none => bs
  | some (a, b) =>
    (chunks (cvtWidth a / 8) bs.length bs).flatMap fun e =>
      (toBytes (convertLane b a .rne (ofBytes (e.map (·.1)))).1 (cvtWidth b / 8)).map fun x => (x, e.any (·.2))

/-! The request block and the checks (R267, R270) -/

/-- Reads a request block on a core whose copy of the segment table and `%coord` are given. -/
def blockOf (w : Nat → Word) (entry : Nat) (far : Option Nat) (coord : Word) : MsBlock :=
  { entry := entry, far := far, coord := coord, seg := fieldOf (w 0) 0 16, conv := fieldOf (w 0) 16 8, rop := fieldOf (w 0) 24 2,
    rtype := fieldOf (w 0) 28 2, offset := fieldOf (w 1) 0 48, len := fieldOf (w 2) 0 32, count := fieldOf (w 2) 32 32,
    loc := (w 3).toNat, index := (w 4).toNat, compl := (w 5).toNat, val0 := w 6, val1 := w 7 }

/-- Operations that use a field (Table 15.3). -/
def MsOp.usesCount : MsOp → Bool
  | .gath | .scat => true
  | _ => false
def MsOp.usesLocal : MsOp → Bool
  | .fill => false
  | _ => true
def MsOp.writesSeg : MsOp → Bool
  | .put | .scat | .fill | .cas => true
  | _ => false

/-- Check 6: zero fields, and the conversion code (R267, R269). -/
def zeroFields (op : MsOp) (w : Nat → Word) (b : MsBlock) : Bool :=
  zeroBut (w 0) 0x33FFFFFF && (w 1).toNat / 2 ^ 48 == 0 && (w 3).toNat / 2 ^ 40 == 0 && (w 4).toNat / 2 ^ 40 == 0 &&
    (w 5).toNat / 2 ^ 40 == 0 && (op == .scat || (b.rop == 0 && b.rtype == 0)) &&
    (op.usesCount || (b.count == 0 && b.index == 0)) && (op.usesLocal || b.loc == 0) &&
    (op == .fill || op == .cas || b.val0 == 0) && (op == .cas || b.val1 == 0) &&
    (match op with
      | .get | .put | .gath => decide (b.conv ≤ 10)
      | _ => b.conv == 0)

/-- Bytes of an element of RTYPE. -/
def rtypeBytes (t : Nat) : Nat := [4, 2, 4, 8].getD t 8

/-- The local length as a fraction (R270). -/
def localLen (op : MsOp) (b : MsBlock) : Nat × Nat :=
  let (x, y) := convWidths b.conv
  match op with
  | .get => (b.len * y, x)
  | .put => (b.len * x, y)
  | .gath => (b.count * b.len * y, x)
  | .scat => (b.count * b.len, 1)
  | .fill => (0, 1)
  | .cas => (8, 1)

/-- Check 7. -/
def lengthsOk (op : MsOp) (b : MsBlock) : Bool :=
  b.len != 0 && b.len % 8 == 0 &&
    (if op.usesCount then decide (b.len ≤ 4096) && decide (1 ≤ b.count) && decide (b.count ≤ 65536)
     else decide (b.len ≤ 2 ^ 26)) &&
    (localLen op b).1 % (8 * (localLen op b).2) == 0 && (op != .cas || b.len == 8) &&
    (op != .scat || b.len % rtypeBytes b.rtype == 0)

/-- Check 8. -/
def alignedOk (b : MsBlock) : Bool := b.offset % 8 == 0 && b.loc % 8 == 0 && b.compl % 8 == 0 && b.index % 4 == 0

/-- End of the memory that a local-side address lies in: local memory or a loft; the address itself where it lies in
neither (check 14). -/
def State.memoryEnd (s : State) (core a : Nat) : Nat :=
  if a < Config.localBytes then s.parkStart core
  else if !s.addressable a then a
  else if isLoft a then loftBase (homeDie a) + Config.loftBytes
  else globalBase (homeCore a) + s.parkStart (homeCore a)

/-- The lowest byte of a range that check 14 finds at fault. -/
def State.rangeFault (s : State) (p : Proc) (a n : Nat) (perm : Perm) : Option Nat :=
  if n = 0 then none
  else
    let reach := ((s.windows p.region p.core).filter fun w => decide (w.base ≤ a) && decide (a ≤ w.limit) && w.grants perm).foldl
      (fun m w => max m (w.limit + 1)) a
    let reach := max a (min reach (s.memoryEnd p.core a))
    if a + n ≤ reach then none else some reach

/-- Check 14: address and the code of the failing part. -/
def State.localFault (s : State) (p : Proc) (op : MsOp) (b : MsBlock) : Option (Nat × Nat) :=
  let len := (localLen op b).1 / (localLen op b).2
  let perm : Perm := match op with
    | .put | .scat => .rd
    | _ => .wr
  match s.rangeFault p b.loc len perm with
  | some a => some (a, 8)
  | none =>
    match s.rangeFault p b.index (if op.usesCount then 4 * b.count else 0) .rd with
    | some a => some (a, 9)
    | none =>
      match s.rangeFault p b.compl (if b.compl = 0 then 0 else 8) .wr with
      | some a => some (a, 10)
      | none => none

/-- The address that names a local-side byte from everywhere. -/
def State.homeAddr (s : State) (core a : Nat) : Nat :=
  match s.target core a with
  | .own h | .mesh h | .fabric _ h => h
  | _ => a

/-- A failing check: cause, ADDR, and the detail words it states. -/
abbrev MsFault := Cause × Word × Option Word × Option Word

/-- The edge server of a present group that is within a scene change: a request that names it waits (R276, R351). -/
def State.sceneServer (s : State) (n : Nat) : Bool :=
  decide (16 ≤ n) && decide (n < 32) && s.groupPresent (n - 16) && (s.group (n - 16)).sc != 0

/-- Checks 2 and 3 of Table 15.5, for a request or, when not `request`, `ms.stat`: a handle is the low 32 bits of the register
(R85, R258, log 55). -/
def State.serverCheck (s : State) (h : Word) (request : Bool) : Except MsFault Nat :=
  let v := h.toNat % 2 ^ 32
  let name := v % 2 ^ 24
  if v / 2 ^ 24 ≠ 4 then .error (.chType, 0, some 1, some h)
  else if name = anyServer then
    if request then .ok name else .error (.chBind, 0, some 0xFFFFFF, none)
  else if s.serverPresent name || (request && s.sceneServer name) then .ok name
  else .error (.chBind, 0, some (BitVec.ofNat 64 name), none)

/-- The copy of SIZE and FLAGS that a core holds of the segments of a region (R261). -/
def State.segCopy (s : State) (region : Nat) : List (Nat × Nat) :=
  match s.owner 4 levels region with
  | some r => r.segs
  | none => []

/-- A segment by its number, as a core's copy gives it: SIZE, WR, and the group of a far one; none when there is none (check
9). -/
def State.copied (s : State) (region seg : Nat) : Option (Nat × Bool × Option Nat) :=
  if seg = 0 then none
  else ((s.segCopy region)[seg - 1]?).map fun e =>
    (e.1, e.2 % 2 == 1, if e.2 / 2 % 2 = 1 then some (e.2 / 16 % 16) else none)

/-- Checks 6 to 14 of Table 15.5. -/
def State.blockCheck (s : State) (p : Proc) (op : MsOp) (w : Nat → Word) (name : Nat) (b : MsBlock) : Option MsFault :=
  let off := BitVec.ofNat 64 b.offset
  let sg := BitVec.ofNat 64 b.seg
  if !zeroFields op w b then some (.chType, 0, some 2, none)
  else if !lengthsOk op b then some (.chType, 0, some 3, none)
  else if !alignedOk b then some (.chType, 0, some 4, none)
  else match s.copied p.region b.seg with
  | none => some (.window, off, some sg, some 6)
  | some (size, wr, far) =>
    if (if op.usesCount then decide (size ≤ b.offset) else decide (size < b.offset + b.len)) then
      some (.window, off, some sg, some 6)
    else if op.writesSeg ∧ wr = false then some (.window, off, some sg, some 7)
    else if name != anyServer && (match far with
        | some g => name != 16 + g
        | none => decide (16 ≤ name)) then
      some (.chBind, 0, some (BitVec.ofNat 64 name), some sg)
    else match (if name = anyServer then far.filter fun g => (s.group g).pers != persCxl && (s.group g).sc == 0 else none) with
      | some g => some (.link, 0, some (BitVec.ofNat 64 g), some sg)
      | none =>
        match s.localFault p op b with
        | some (a, k) => some (.window, BitVec.ofNat 64 a, none, some (BitVec.ofNat 64 k))
        | none => none

/-- Raises the cause of a failing check; detail words that no rule states are free values (log 12). -/
def State.msRaise (s : State) (p : Proc) (e : MsFault) : Out :=
  { s with free := s.free + 2 }.raised p e.1 4 e.2.1 (e.2.2.1.getD (Config.detail s.free))
    (e.2.2.2.getD (Config.detail (s.free + 1)))

/-! Acceptance (R259) -/

/-- The server whose input queue a request enters. -/
def entryServer (core : Nat) (b : MsBlock) (name : Nat) : Nat :=
  if name ≠ anyServer then name
  else match b.far with
    | some g => 16 + g
    | none => 2 * dieOf core

/-- The input queue of a server has room. -/
def State.queueRoom (s : State) (n : Nat) : Bool :=
  decide ((s.requests.filter fun r => r.front == n && r.phase == .queued).length < inputQueue)

/-- A request can be accepted now. -/
def State.msRoom (s : State) (core : Nat) (b : MsBlock) (name : Nat) : Bool :=
  s.queueRoom (entryServer core b name) && decide ((s.requests.filter fun r => r.core == core).length < coreRequests) &&
    !(b.far.any fun g => (s.group g).sc != 0)

/-- A request sets out for another die, as a stamped packet (Table 19.1). -/
def State.sendRequest (s : State) (r : MsReq) (die : Nat) : State :=
  let (id, s) := s.freshId
  (({ s with packets := s.packets ++
      [{ id := id, core := 8192 + r.die, pid := 0, region := r.region, src := r.die, dst := die, pc := r.pc, used := 0, n := 0,
         path := .fabric, kind := .reply, payload := .ms r.id }] } : State).putRequest { r with travel := true }).stampAll r.die

/-- The die of a request's front server. -/
def MsReq.frontDie (r : MsReq) : Nat := serverDie r.front

/-- A request whose front server is on another die sets out for it. -/
def State.toFront (s : State) (r : MsReq) : State := if r.die = r.frontDie then s else s.sendRequest r r.frontDie

/-- A request is accepted into the input queue of its server, and sets out for it. -/
def State.msAccept (s : State) (p : Proc) (op : MsOp) (b : MsBlock) (name : Nat) : State :=
  let (id, s) := s.freshId
  let r : MsReq := { id := id, pid := p.pid, core := p.core, region := p.region, pc := p.pc, op := op, blk := b,
                     any := name == anyServer && b.far.isNone, front := entryServer p.core b name, die := dieOf p.core }
  ({ s with requests := s.requests ++ [r] } : State).toFront r

/-- `ms.get`, `ms.put`, `ms.gath`, `ms.scat`, `ms.fill`, `ms.cas` (R267–R270). -/
def State.msInstr (s : State) (op : MsOp) (a b : XIdx) : Out :=
  s.withProc fun p =>
    let ea := p.getX a
    match s.serverCheck (p.getX b) true with
    | .error e => s.msRaise p e
    | .ok name =>
      if Config.localBytes ≤ ea.toNat ∨ ea.toNat % 64 ≠ 0 then s.raised p .misalign 4 ea 64 0
      else if !p.allowed s ea 64 .rd then s.raised p .window 4 ea 64 0
      else
        let h := globalBase p.core + ea.toNat
        if s.seenMarked p.core p.pid ea.toNat h 64 then s.raisedAt p .memerr ea
        else
          let w (i : Nat) : Word := BitVec.ofNat 64 (s.seen p.core p.pid (ea.toNat + 8 * i) (h + 8 * i) 8)
          let seg := fieldOf (w 0) 0 16
          let blk := blockOf w (entryAt (s.effSegtab p.region) seg) ((s.copied p.region seg).bind (·.2.2)) (s.coord p.core)
          match s.blockCheck p op w name blk with
          | some e => s.msRaise p e
          | none =>
            if s.requestStalls p || s.coreUnstamped p.core then s.stall p
            else
              let blk := { blk with loc := if op.usesLocal then s.homeAddr p.core blk.loc else 0
                                    index := if op.usesCount then s.homeAddr p.core blk.index else 0
                                    compl := if blk.compl = 0 then 0 else s.homeAddr p.core blk.compl }
              if s.msRoom p.core blk name then
                .next ({ s with cpu := some (p.advance 4) }.msAccept p op blk name)
              else .next (s.block p .channel (.ms op blk name))

/-- `ms.get` (Table 15.3). -/
def execMsGet (a b : XIdx) (s : State) : Out := s.msInstr .get a b
/-- `ms.put` (Table 15.3). -/
def execMsPut (a b : XIdx) (s : State) : Out := s.msInstr .put a b
/-- `ms.gath` (Table 15.3). -/
def execMsGath (a b : XIdx) (s : State) : Out := s.msInstr .gath a b
/-- `ms.scat` (Table 15.3). -/
def execMsScat (a b : XIdx) (s : State) : Out := s.msInstr .scat a b
/-- `ms.fill` (Table 15.3). -/
def execMsFill (a b : XIdx) (s : State) : Out := s.msInstr .fill a b
/-- `ms.cas` (Table 15.3). -/
def execMsCas (a b : XIdx) (s : State) : Out := s.msInstr .cas a b

/-- Contexts of a server that hold a request (R259). -/
def State.contextsUsed (s : State) (n : Nat) : Nat :=
  (s.requests.filter fun r => r.front == n && r.phase != .queued).length

/-- A count of a server (R274). -/
def State.serverCount (s : State) (n item : Nat) : Word :=
  match item with
  | 0 => BitVec.ofNat 64 (contexts n - s.contextsUsed n)
  | 1 => BitVec.ofNat 64 (s.requests.filter fun r => r.front == n && r.phase == .queued).length
  | 2 => (s.server n).completed
  | 3 => (s.server n).misses
  | _ => (s.server n).failed

/-- `ms.stat` (R274). -/
def execMsStat (d b : XIdx) (item : BitVec 5) (s : State) : Out :=
  s.withProc fun p =>
    match s.serverCheck (p.getX b) false with
    | .error e => s.msRaise p e
    | .ok n => s.done ((p.setX d (s.serverCount n item.toNat)).advance 4)

/-- MS_REQUEST_ACCEPT (R259, R276): the instruction of a waiting process completes, or raises LINK when the group of its far
segment has left the CXL personality. -/
def execMsRequestAccept (s : State) : Out :=
  match s.proc? (Subject.num s.subj) with
  | none => .next s
  | some p =>
    match p.wait with
    | .ms op b name =>
      if p.isBlocked = false then .next s
      else match b.far.filter fun g => (s.group g).sc == 0 && (s.group g).pers != persCxl with
      | some g =>
        .next ({ s with free := s.free + 1 }.wake p.pid (some (.cause .link 0 (BitVec.ofNat 64 g) (Config.detail s.free))))
      | none =>
        if s.msRoom p.core b name then .next ((s.msAccept p op b name).wake p.pid (some (.regs [])))
        else .next s
    | _ => .next s

/-! Translation (R263) -/

/-- Entries of a translation cache. -/
def cacheSize : Nat := 4096

/-- A translation that a server holds. -/
def State.cached (s : State) (n entry page : Nat) : Option Word :=
  ((s.server n).cache.find? fun e => e.1 == entry && e.2.1 == page).map (·.2.2)

/-- A refill: the miss is counted and a pinned page is cached. R263 does not say which entry a full cache gives up: that it is
the oldest is the model's choice (log 72). -/
def State.refill (s : State) (n entry page : Nat) (e : Word) : State :=
  s.modServer n fun v =>
    { v with misses := v.misses + 1
             cache := if pinned e then (v.cache ++ [(entry, page, e)]).drop (v.cache.length + 1 - cacheSize) else v.cache }

/-- The segment of a request, with the memory that its issuing core's copy of the table named (R261). -/
def State.reqSegment (s : State) (r : MsReq) : Segment :=
  { s.segment r.blk.entry with isFar := r.blk.far.isSome, group := r.blk.far.getD 0 }

/-- A notification about a request goes to the issuer's region, from the core that issued it with its `%coord` of then (R57,
R266, R272). -/
def State.notifyRequest (s : State) (r : MsReq) (c : Cause) (addr d0 d1 : Word) : State :=
  s.sendRecord r.core { cause := c, region := r.region, pid := r.pid, pc := r.pc, addr := addr, d0 := d0, d1 := d1,
                        time := s.ns, coord := r.blk.coord, via := s.recordVia (s.privOf r.pid) r.region }

/-- Where a request stands once what it was at is given up: at its front server, with nothing of the part. -/
def MsReq.home (r : MsReq) : MsReq := { r with die := r.frontDie, travel := false, stage := .route, data := [] }

/-- The request's front server is lost with its die: it ends with LINK, and its completion word is written, again where it was
on its way (R266, R335). -/
def State.loseFront (s : State) (r : MsReq) : State :=
  let q := { (r.fail .link true).home with carry := none, phase := if r.phase = .completing then .active else r.phase }
  let s := (s.putRequest q).affect r.region id
  { s with free := s.free + 1 }.notifyRequest r .link (BitVec.ofNat 64 r.blk.offset) (BitVec.ofNat 64 r.front) (Config.detail s.free)

/-- The LINK of a stack that is lost under a piece (R266): the stage manager's (R57). -/
def State.notifyStack (s : State) (r : MsReq) : State :=
  { s with free := s.free + 1 }.notifyManager .link r.region r.pid (BitVec.ofNat 64 r.part.2.1)
    (BitVec.ofNat 64 (s.pkg.stackOf r.part.2.1)) (Config.detail s.free)

/-- The die at which a request's part stood, or to which it was on its way, is lost: the request ends with LINK, told where it
is the stack that is lost (R266, R335, R387). -/
def State.losePart (s : State) (r : MsReq) : State :=
  let t := (s.putRequest (r.fail .link true).home).affect r.region id
  if r.stage = .serve ∧ r.blk.far.isNone = true ∧ r.stopped = false then t.notifyStack r else t

/-- A page that is not pinned ends a request with SEGMENT, and with it the region (R58, R263). -/
def State.segmentMiss (s : State) (r : MsReq) (pg : Nat) : State :=
  let s := s.putRequest (r.fail .segment true)
  match s.region? r.region with
  | some q =>
    if q.ended then s
    else s.endRegion r.region (some r.core)
      { cause := .segment, pid := r.pid, pc := r.pc, addr := BitVec.ofNat 64 (pg * pageBytes),
        d0 := BitVec.ofNat 64 r.blk.seg, d1 := BitVec.ofNat 64 r.front, coord := r.blk.coord }
  | none => s

/-- MS_CONTEXT_START (R259): the oldest request of a server's input queue takes a context. An `any` request of an HBM segment
goes on to the queue of the server that owns its first byte, when the page is pinned, and ends with SEGMENT when it is not
(R263). R259 does not say what the first byte of an `ms.gath` or `ms.scat` is: that it is the byte at OFFSET, whether a record
lies there or not, is the model's choice (log 73). -/
def execMsContextStart (s : State) : Out :=
  let n := Subject.num s.subj
  match s.requests.find? fun r => r.front == n && r.phase == .queued && !r.stopped && !r.travel with
  | none => .next s
  | some r =>
    if r.any then
      let seg := s.reqSegment r
      let page := r.blk.offset / pageBytes
      let e := (s.cached n r.blk.entry page).getD (s.pageEntry seg page)
      let s := if (s.cached n r.blk.entry page).isSome then s else s.refill n r.blk.entry page e
      let own := s.pkg.stackOf (pageAddr seg e (r.blk.offset % pageBytes))
      if !pinned e then .next (s.segmentMiss { r with any := false } page)
      else if own == n then .next (s.putRequest { r with any := false })
      else if s.queueRoom own && s.stackPresent own then
        let q := { r with any := false, front := own }
        .next (({ s with requests := (s.requests.filter (·.id != r.id)) ++ [q] } : State).toFront q)
      else if s.queueRoom own then .next ((s.putRequest ({ r with any := false }.fail .link true)).notifyStack
        { r with part := (r.blk.offset, pageAddr seg e (r.blk.offset % pageBytes), 0) })
      else .next s
    else if s.contextsUsed n < contexts n then .next (s.putRequest { r with phase := .active })
    else .next s

/-! Pieces (R271) -/

/-- Every piece of a request has been made. -/
def MsReq.allDone (r : MsReq) : Bool :=
  if r.op.usesCount then decide (r.blk.count ≤ r.next) else decide (r.blk.len ≤ r.next)

/-- Segment offset and length of what is left of the record, or of the request, that a request is at. -/
def MsReq.rest (r : MsReq) : Nat × Nat :=
  if r.op.usesCount then (r.blk.offset + r.idx.getD 0 * r.blk.len + r.into, r.blk.len - r.into)
  else (r.blk.offset + r.next, r.blk.len - r.next)

/-- The piece that comes next lies in one granule (R259): its offset and length. -/
def MsReq.pieceRange (r : MsReq) : Nat × Nat :=
  let (o, n) := r.rest
  (o, min n (granuleBytes - o % granuleBytes))

/-- The record that a request is at lies beyond its segment (R271). -/
def State.beyond (s : State) (r : MsReq) : Bool :=
  r.op.usesCount && r.into == 0 && decide ((s.reqSegment r).size < r.rest.1 + r.blk.len)

/-- The pages that a range touches. -/
def pagesOf (o n : Nat) : List Nat :=
  if n = 0 then [] else (List.range ((o + n - 1) / pageBytes - o / pageBytes + 1)).map fun k => o / pageBytes + k

/-- A request is about to make a piece out: at its front server, with the record's index where it needs one. -/
def MsReq.routes (r : MsReq) : Bool :=
  r.phase == .active && !r.travel && !r.stopped && !r.allDone && r.stage == .route && r.die == r.frontDie &&
    (!r.op.usesCount || r.idx.isSome)

/-- The page of a request's next piece, where its front server has not translated it. -/
def State.missing (s : State) (r : MsReq) : Option Nat :=
  let pg := r.pieceRange.1 / pageBytes
  if r.routes && !s.beyond r && (s.cached r.front r.blk.entry pg).isNone then some pg else none

/-- MS_TRANSLATION_REFILL (R263): the page is cached, or the request ends with SEGMENT and with it the region (R58). -/
def execMsTranslationRefill (s : State) : Out :=
  match s.request? (Subject.num s.subj) with
  | none => .next s
  | some r =>
    match s.missing r with
    | none => .next s
    | some pg =>
      let e := s.pageEntry (s.reqSegment r) pg
      let s := s.refill r.front r.blk.entry pg e
      if pinned e then .next s else .next (s.segmentMiss r pg)

/-- Physical address of a byte of the segment, by the translations of a server. -/
def State.physical (s : State) (r : MsReq) (o : Nat) : Nat :=
  pageAddr (s.reqSegment r) ((s.cached r.front r.blk.entry (o / pageBytes)).getD 0) (o % pageBytes)

/-- Bytes were read with an uncorrectable error: status and notification, once, with the segment offset of the first word
(R272); `o` is that of the first byte. -/
def State.sawError (s : State) (r : MsReq) (o : Nat) (bs : List MByte) : State × MsReq :=
  match bs.findIdx? (·.2) with
  | none => (s, r)
  | some i =>
    let q := { r.fail .memerr false with notified := true }
    if r.notified then (s, q)
    else ({ s with free := s.free + 1 }.notifyRequest r .memerr (BitVec.ofNat 64 ((o + i) / 8 * 8)) (Config.detail s.free)
      (Config.detail (s.free + 1)), q)

/-! Writing the local side (R245) -/

/-- The die from which a request writes: the one where it stands, or die 0 when that one is lost (R266). -/
def State.writeDie (s : State) (die : Nat) : Nat := if s.diePresent die then die else 0

/-- Words of the local side as engine writes; the bytes count as written. -/
def State.engineRun (s : State) (r : MsReq) (ws : List (Nat × List MByte)) : State × MsReq :=
  (ws.foldl (fun t w => t.engineWrite (s.writeDie r.die) (engineWord w.1 w.2.length (ofBytes (w.2.map (·.1))) (w.2.any (·.2))) none
      r.region r.id) s,
    { r with written := r.written + (ws.map (·.2.length)).sum })

/-- A local word that is not complete is written as it stands. -/
def State.flushCarry (s : State) (r : MsReq) : State × MsReq :=
  match r.carry with
  | some c => s.engineRun { r with carry := none } [c]
  | none => (s, r)

/-- Bytes for the local side: every word that they complete is written, and what lies in the last, incomplete one is kept
(R235). -/
def State.toLocal (s : State) (r : MsReq) (a : Nat) (bs : List MByte) : State × MsReq :=
  let joins := match r.carry with
    | some c => c.1 + c.2.length == a
    | none => false
  let (s, r) := if joins then (s, r) else s.flushCarry r
  let (a, bs) := match r.carry with
    | some c => (c.1, c.2 ++ bs)
    | none => (a, bs)
  let ws := wordRuns (bs.length + 1) a bs
  let whole (w : Nat × List MByte) : Bool := (w.1 + w.2.length) % 8 == 0
  s.engineRun { r with carry := ws.find? fun w => !whole w } (ws.filter whole)

/-! One part of a piece at its stack -/

/-- Reduce (R271): operation, element type, old and new element. -/
def reduce (rop rtype old new : Nat) : Nat :=
  match rop, rtype with
  | 0, _ => new
  | 1, 0 => (fp32.add .rne (fp32.decode old) (fp32.decode new)).1
  | 1, 1 => (bf16.add .rne (bf16.decode old) (bf16.decode new)).1
  | 1, t => (old + new) % 2 ^ (8 * rtypeBytes t)
  | k, 0 => (fp32.pick (k == 2) old new).1
  | k, 1 => (bf16.pick (k == 2) old new).1
  | k, t =>
    let w := 8 * rtypeBytes t
    let newBigger := decide (toS w old < toS w new)
    if (k == 2) == newBigger then new else old

/-- The elements of a record reduced into a part of it; an element read with an error leaves its mark (R272). -/
def reduceBytes (rop rtype : Nat) (old new : List MByte) : List MByte :=
  let z := rtypeBytes rtype
  (List.zipWith (fun (a b : List MByte) =>
    let bad := b.any (·.2) || (rop != 0 && a.any (·.2))
    (toBytes (reduce rop rtype (ofBytes (a.map (·.1))) (ofBytes (b.map (·.1)))) z).map fun x => (x, bad))
    (chunks z old.length old) (chunks z new.length new)).flatten

/-- Bytes without an error. -/
def clean (bs : List Byte) : List MByte := bs.map fun b => (b, false)

/-- The bytes of a fill pattern. -/
def fillBytes (v : Word) (n : Nat) : List MByte := clean ((List.range (n / 8)).flatMap fun _ => toBytes v.toNat 8)

/-- Local-side address of the part that a request is at (R271). -/
def MsReq.localAt (r : MsReq) : Nat :=
  let (x, y) := convWidths r.blk.conv
  match r.op with
  | .get => r.blk.loc + r.next * y / x
  | .put => r.blk.loc + r.next * x / y
  | .gath => r.blk.loc + (r.next * r.blk.len + r.into) * y / x
  | .scat => r.blk.loc + r.next * r.blk.len + r.into
  | .fill | .cas => r.blk.loc

/-- Local bytes that a part of so many segment bytes comes from. -/
def MsReq.sourceBytes (r : MsReq) (n : Nat) : Nat :=
  let (x, y) := convWidths r.blk.conv
  if r.op = .put then n * x / y else n

/-- A write of a part to its segment: the bytes count as written. -/
def State.toSegment (s : State) (r : MsReq) (seg : Segment) (bs : List MByte) : State × MsReq :=
  (s.segWrite seg r.part.2.1 bs, { r with written := r.written + bs.length })

/-- A part is served at its stack: what it does to memories, and errors that it meets (R271, R272). Whether `ms.cas` swaps when
the old word reads with an uncorrectable error, no rule says: that it does not is the model's choice (log 74). -/
def State.servePart (s : State) (r : MsReq) : State × MsReq :=
  let seg := s.reqSegment r
  let (o, pa, n) := r.part
  let old := s.segRead seg pa n
  match r.op with
  | .get | .gath =>
    let (s, r) := s.toLocal r r.localAt (convBytes r.blk.conv old)
    s.sawError r o old
  | .put =>
    let (s, q) := s.toSegment r seg (convBytes r.blk.conv r.data)
    s.sawError q o (convBytes r.blk.conv r.data)
  | .fill => s.toSegment r seg (fillBytes r.blk.val0 n)
  | .scat =>
    let new := reduceBytes r.blk.rop r.blk.rtype old r.data
    let (s, q) := s.toSegment r seg new
    s.sawError q o new
  | .cas =>
    let bad := old.any (·.2)
    let s := if ofBytes (old.map (·.1)) = r.blk.val0.toNat ∧ bad = false
      then s.segWrite seg pa (clean (toBytes r.blk.val1.toNat 8)) else s
    let (s, q) := s.toLocal r r.localAt old
    s.sawError q o old

/-! The way of a piece -/

/-- The die at which a request's next stage is performed. -/
def State.stageDie (s : State) (r : MsReq) : Nat :=
  match r.stage with
  | .route | .back => r.frontDie
  | .index => homeDie r.blk.index
  | .read => homeDie r.blk.loc
  | .serve => if r.blk.far.isSome then r.frontDie else s.pkg.stackOf r.part.2.1 / 2

/-- A piece is made out at the front server: its record's index is fetched first; a record beyond the segment is skipped
(R271); the local bytes that it needs are read before it is served. -/
def State.routePart (s : State) (r : MsReq) : MsReq :=
  let (o, n) := r.pieceRange
  if r.op.usesCount && r.idx.isNone then { r with stage := .index }
  else if s.beyond r then { r.fail .window false with next := r.next + 1, idx := none }
  else { r with part := (o, s.physical r o, n), stage := if r.op = .put ∨ r.op = .scat then .read else .serve }

/-- A part has been served: the request moves behind it. -/
def MsReq.behind (r : MsReq) : MsReq :=
  let n := r.part.2.2
  let r := { r with stage := .route, data := [] }
  if r.op.usesCount then
    if r.into + n < r.blk.len then { r with into := r.into + n }
    else { r with next := r.next + 1, into := 0, idx := none }
  else { r with next := r.next + n }

/-- One stage of a part, at the die of the request. A stage whose home is lost ends the request with LINK (R266, R387). -/
def State.pieceStage (s : State) (r : MsReq) : State × MsReq :=
  let back (q : MsReq) : MsReq := { q with stage := .back }
  match r.stage with
  | .route => (s, s.routePart r)
  | .index =>
    let a := r.blk.index + 4 * r.next
    if s.homeGone a then (s, back (r.fail .link true))
    else
      let bs := withMarks s.mem (s.marks ++ s.latent) a 4
      let i := ofBytes (bs.map (·.1))
      let (s, q) := s.sawError r (r.blk.offset + i * r.blk.len) bs
      (s, { q with idx := some i, stage := .route })
  | .read =>
    if s.homeGone r.blk.loc then (s, back (r.fail .link true))
    else (s, { r with data := withMarks s.mem (s.marks ++ s.latent) r.localAt (r.sourceBytes r.part.2.2), stage := .serve })
  | .serve =>
    if !r.blk.far.isSome && !s.stackPresent (s.pkg.stackOf r.part.2.1) then (s.notifyStack r, back (r.fail .link true))
    else if r.op.usesLocal && s.homeGone r.blk.loc then (s, back (r.fail .link true))
    else
      let (s, q) := s.servePart r
      (s, back q)
  | .back => (s, if r.stopped then r.home else r.behind)

/-- A request goes on with its part, stage by stage, until the part is over, or a packet takes it to another die. -/
def State.pieceRun (s : State) (r : MsReq) : Nat → State
  | 0 => s.putRequest r
  | fuel + 1 =>
    let d := s.stageDie r
    if d ≠ r.die then (if s.diePresent d then s.sendRequest r d else s.losePart r)
    else
      let (t, q) := s.pieceStage r
      if q.stage = .route ∧ (r.stage ≠ .index ∨ (t.missing q).isSome = true) then t.putRequest q
      else State.pieceRun t q fuel

/-- An earlier write of the request's process still waits behind a reservation of that process: the accesses of the request
follow it (R273 item 1, log 46). -/
def State.requestHeld (s : State) (r : MsReq) : Bool :=
  s.packets.any fun q => q.pid == r.pid && q.counted && q.queued && decide (q.id < r.id)

/-- A request that can go on with a piece: one that is under way, or the next, whose page is translated. -/
def State.pieceReady (s : State) (r : MsReq) : Bool :=
  r.phase == .active && !r.travel && !s.requestHeld r && (r.stage != .route || (!r.stopped && !r.allDone && (s.missing r).isNone))

/-- The next piece of a request, or the rest of the one that it is at (R271). -/
def State.servePiece (s : State) (r : MsReq) : State :=
  s.pieceRun (if r.stopped then { r with stage := .back } else r) 6

/-- MS_PIECE (R271): a piece of a request of an HBM segment. -/
def execMsPiece (s : State) : Out :=
  match s.request? (Subject.num s.subj) with
  | some r => if s.pieceReady r && r.blk.far.isNone then .next (s.servePiece r) else .next s
  | none => .next s

/-- CXL_MEM_COMPLETION (R276): a piece of a request of a far segment. -/
def execCxlMemCompletion (s : State) : Out :=
  match s.request? (Subject.num s.subj) with
  | some r => if s.pieceReady r && r.blk.far.isSome then .next (s.servePiece r) else .next s
  | none => .next s

/-! Completion (R272) -/

/-- The value of a completion word (R272). -/
def MsReq.word (r : MsReq) : Nat := if r.status = 0 then r.written else 2 ^ 63 + r.status * 2 ^ 48 + r.written

/-- Whom the LINK notification of a request's completion word is for (R387). -/
def State.requestAuthor (s : State) (r : MsReq) : Author :=
  { core := r.core, pid := r.pid, region := r.region, priv := s.privOf r.pid, pc := r.pc, used := 0, coord := r.blk.coord }

/-- A request is over: its context is free, and it is counted (R259, R274). -/
def State.finishRequest (s : State) (r : MsReq) : State :=
  { s with requests := s.requests.filter (·.id != r.id) }.modServer r.front fun v =>
    { v with completed := v.completed + 1, failed := if r.status = 0 then v.failed else v.failed + 1 }

/-- The pieces of a request are over: all made, or none started any more (R272). -/
def MsReq.over (r : MsReq) : Bool :=
  !r.travel && r.stage == .route && (r.stopped || (r.phase == .active && r.allDone))

/-- The completion word sets out, last of all writes (R272), and the request is over once it is written (R259). -/
def State.writeCompletion (s : State) (r : MsReq) : State :=
  if r.blk.compl = 0 then s.finishRequest r
  else
    let t := (s.putRequest { r with phase := .completing }).engineWrite (s.writeDie r.frontDie) (engineWord r.blk.compl 8 r.word)
      (some (s.requestAuthor r)) r.region r.id
    if t.engineBusy r.id then t else t.finishRequest r

/-- MS_COMPLETION (R272): once every write of the request has been made, the completion word is written. -/
def execMsCompletion (s : State) : Out :=
  match s.request? (Subject.num s.subj) with
  | none => .next s
  | some r =>
    if s.engineBusy r.id then .next s
    else if r.phase = .completing then .next (s.finishRequest r)
    else if !r.over then .next s
    else
      let (t, q) := s.flushCarry r
      if t.engineBusy r.id then .next (t.putRequest q) else .next (t.writeCompletion q)

end Sys2Proof.Machine
end

