-- ==== Sys2Proof/Machine/Queue.lean ====
section
/-! DEFINITION. The threads of the barrel core and what ends an item: completion with its POSTSEM increase, failure with its
record (R371, R373), semaphores (R376). -/

namespace Sys2Proof.Machine

/-- A thread by its number. -/
def State.thread? (s : State) (n : Nat) : Option Thread := s.threads.find? (·.num == n)

/-- Puts a thread back. -/
def State.putThread (s : State) (t : Thread) : State :=
  { s with threads := s.threads.map fun u => if u.num == t.num then t else u }

/-- Applies a change to a thread. -/
def State.modThread (s : State) (n : Nat) (f : Thread → Thread) : State :=
  match s.thread? n with
  | some t => s.putThread (f t)
  | none => s

/-- Function and region of a thread's queue. -/
def State.threadFn (s : State) (n : Nat) : Nat := ((s.thread? n).map (·.function)).getD 0
def State.threadRegion (s : State) (n : Nat) : Nat := ((s.thread? n).map (·.region)).getD 0

/-- A record goes to the monitor's mailbox and to the error ring of a function (R373). -/
def State.postFor (s : State) (fn : Nat) (r : Record) : State :=
  { s with mailbox := s.mailbox ++ [r], errorRings := s.errorRings ++ [(fn, r)] }

/-- The record of a command item (R373). -/
def State.itemRecord (s : State) (h : ItemHdr) (c : Cause) (d0 d1 : Nat) : Record :=
  { cause := c, region := s.threadRegion h.thread, pc := h.pc, d0 := BitVec.ofNat 64 d0, d1 := BitVec.ofNat 64 d1,
    time := s.ns }

/-- Posts the record of a command item. -/
def State.postItem (s : State) (h : ItemHdr) (c : Cause) (d0 d1 : Nat) : State :=
  s.postFor (s.threadFn h.thread) (s.itemRecord h c d0 d1)

/-! Commands in progress -/

/-- The command that a thread runs becomes one in progress. -/
def State.setCur (s : State) (h : ItemHdr) (p : Pending) : State :=
  s.modThread h.thread fun t =>
    if h.resident then { t with sub := t.sub.map fun r => { r with cur := some { hdr := h, pending := p } } }
    else { t with cur := some { hdr := h, pending := p } }

/-- Every command in progress. -/
def State.curs (s : State) : List CurItem := s.threads.flatMap Thread.curs

/-- Operation codes of the commands that can be in progress (Table 23.2). -/
def Pending.op : Pending → Nat
  | .waitge _ _ _ => 0x04 | .launch _ _ _ _ _ _ _ => 0x02 | .copy _ _ _ _ _ => 0x06 | .writes op _ => op | .scene _ => 0x0F
  | .removal _ => 0x10 | .admission _ => 0x11 | .mkey _ _ _ _ _ _ => 0x13

/-! Semaphores (R376) -/

/-- Semaphores of the package. -/
def semaphores : Nat := 4096

/-- Marks a WAITGE whose test a value passes. -/
def Pending.latch (p : Pending) (sem v : Nat) : Pending :=
  match p with
  | .waitge k w met => .waitge k w (met || (k == sem && decide (w.toNat ≤ v)))
  | p => p

/-- A semaphore takes a value, which every WAITGE tests. -/
def State.setSem (s : State) (sem v : Nat) : State :=
  { s with sems := Tab.set s.sems sem v, threads := s.threads.map fun t => t.mapPending (·.latch sem v) }

/-- Mode ADD for an item of operation `op`: a sum below 0 leaves the value, one above 2^64 − 1 becomes that; either posts a
record with cause ARITH. -/
def State.semAdd (s : State) (h : ItemHdr) (op sem : Nat) (delta : Int) : State :=
  let v : Int := s.sems.get sem + delta
  if v < 0 then s.postItem h .arith op 1
  else if 2 ^ 64 ≤ v then (s.setSem sem (2 ^ 64 - 1)).postItem h .arith op 2
  else s.setSem sem v.toNat

/-- Mode MAX. -/
def State.semMax (s : State) (sem v : Nat) : State := s.setSem sem (max (s.sems.get sem) v)

/-! Ends of items -/

/-- The item of a thread is over: the head, or the position in the trigger's list, moves behind it. -/
def Thread.advance (t : Thread) (h : ItemHdr) : Thread :=
  if h.resident then { t with sub := t.sub.map fun r => { r with pos := h.pos + 1, cur := none } }
  else { t with head := h.pos + 1, cur := none }

/-- An item completes: its effects come before its POSTSEM increase (R374). -/
def State.completeItem (s : State) (h : ItemHdr) (op : Nat) : State :=
  let s := if h.postsem = 0xFFFF then s else s.semAdd h op h.postsem.toNat h.postadd.toNat
  s.modThread h.thread fun t => t.advance h

/-- An item fails: a record, and the queue stops; the monitor restarts it at the item after it (R373). Thread 0 has no queue
(R368). -/
def State.failItem (s : State) (h : ItemHdr) (c : Cause) (d0 d1 : Nat) : State :=
  (s.postItem h c d0 d1).modThread h.thread fun t => { t.advance h with stopped := h.thread != 0 }

/-- Why a command fails: the cause, DETAIL0 where the failing rule gives it a value of its own, DETAIL1 where the rule
states one. -/
abbrev Fail := Cause × Option Nat × Option Nat

/-- A command of operation `op` fails (R373): DETAIL0 is OP unless the rule says otherwise; a DETAIL1 that no rule states is
a free value (log 12). -/
def State.failCmd (s : State) (h : ItemHdr) (op : Nat) (e : Fail) : State :=
  { s with free := s.free + 1 }.failItem h e.1 (e.2.1.getD op) (e.2.2.getD (Config.detail s.free).toNat)

/-- Completes the commands in progress that wait for something. -/
def State.completeWhere (s : State) (f : Pending → Bool) : State :=
  (s.curs.filter fun c => f c.pending).foldl (fun t c => t.completeItem c.hdr c.pending.op) s

/-- A cause as a free value picks it, where a rule posts a record and names none (log 12). -/
def Cause.free (w : Word) : Cause :=
  ([.illegal, .privilege, .misalign, .window, .chType, .chClosed, .chBind, .tileCombo, .stream, .arith, .brk, .trap,
    .budget, .segment, .memerr, .causal, .deadlock, .link, .spawn] : List Cause).getD (w.toNat % 19) .illegal

end Sys2Proof.Machine
end

