-- ==== Sys2Proof/Machine/Edge.lean ====
section
/-! DEFINITION. Edge groups (21): frames sent and received, host queues, Ultra Ethernet transport, the UALink port, scene
changes, the edge lock, clock steps. -/

namespace Sys2Proof.Machine

/-! Host memory and host queues (R349) -/

/-- Address of a host byte in the model's table of host memories: one bus address space for each function (log 6). -/
def hostKey (function addr : Nat) : Nat := function * 2 ^ 64 + addr % 2 ^ 63

/-- Reads and writes host memory. -/
def State.hostRead (s : State) (f a n : Nat) : Nat := s.host.read (hostKey f a) n
def State.hostBytes (s : State) (f a n : Nat) : List Byte := s.host.bytes (hostKey f a) n
def State.hostWrite (s : State) (f a : Nat) (bs : List Byte) : State :=
  { s with host := s.host.writeBytes (hostKey f a) bs }

/-- A host queue. -/
def State.hostQueue? (s : State) (f n : Nat) : Option HostQueue :=
  s.hostQueues.find? fun q => q.function == f && q.num == n

/-- The device goes on to the next entry of a host queue. -/
def State.nextEntry (s : State) (q : HostQueue) : State :=
  { s with hostQueues := s.hostQueues.map fun (r : HostQueue) =>
      if r.function = q.function ∧ r.num = q.num then { r with head := (r.head + 1) % r.entries } else r }

/-- Address of the entry that a host queue comes to next. -/
def HostQueue.entry (q : HostQueue) : Nat := q.base + 16 * q.head

/-- An entry: buffer address, length, tag, flags. -/
def State.entryOf (s : State) (q : HostQueue) : Nat × Nat × Nat × Nat :=
  (s.hostRead q.function q.entry 8, s.hostRead q.function (q.entry + 8) 4, s.hostRead q.function (q.entry + 12) 2,
    s.hostRead q.function (q.entry + 14) 2)

/-! Rings (R291, R292, R365) -/

/-- The next free slot of a ring. -/
def Ring.free? (r : Ring) : Option Nat :=
  ((List.range r.slots).map fun i => (r.next + i) % r.slots).find? fun k => !r.busy.contains k

/-- The device begins to fill a slot. -/
def Ring.begin (r : Ring) (k : Nat) : Ring := { r with busy := r.busy ++ [k], next := (k + 1) % r.slots }

/-- A slot that the device does not fill after all. -/
def Ring.cancel (r : Ring) (k : Nat) : Ring := { r with busy := r.busy.filter (· != k) }

/-- The two words of a frame (R292). -/
def frameWords (r : Ring) (slot len : Nat) (tag : Nat) : List Word :=
  [BitVec.ofNat 64 (r.base + slot * r.size),
   BitVec.ofNat 64 (len + tag * 2 ^ 32 + (if r.size < len then 2 ^ 63 else 0))]

/-- Package address of a byte of a slot. -/
def Ring.home (r : Ring) (slot off : Nat) : Nat := globalBase r.core + r.base + slot * r.size + off

/-! Ends through a group (R366) -/

/-- The group that a channel is bound through. -/
def Outside.group? : Outside → Option Nat
  | .flow g _ => some g
  | .peer g _ => some g
  | .none | .hostq _ _ => Option.none

/-- The device-held end of a channel: the sending end when `true`. -/
def Channel.deviceEnd (c : Channel) : Option Bool :=
  if c.tx.holder = .device then some true else if c.rx.holder = .device then some false else none

/-- Changes the device-held ends of the channels that a condition picks, and lets what waits at them go on. -/
def State.modOuter (s : State) (pick : Channel → Bool) (f : Channel → End → End) : State :=
  (s.channels.filter pick).foldl (fun t c =>
    match c.deviceEnd with
    | some tx => (t.modChan c.table c.name fun d => d.setFin tx (f d (d.fin tx))).settle c.table c.name
    | none => t) s

/-- An end whose location is lost (Table 17.3). -/
def End.lose (e : End) : End := if e.st = .bound ∨ e.st = .inTransit then { e with st := .error, mig := false, scn := false } else e

/-- Ends through a group. -/
def Channel.through (c : Channel) (g : Nat) : Bool := c.outside.group? == some g

/-- Ends of a flow. -/
def Channel.onFlow (c : Channel) (g f : Nat) : Bool := c.outside == .flow g f

/-! Records about a group (R355, R361, R373) -/

/-- The function that an edge group is granted to. -/
def State.groupFn (s : State) (g : Nat) : Nat := ((s.edgeGrants.find? (·.2 == g)).map (·.1)).getD 0

/-- The functions that own the regions concerned: those whose channels a condition picks; where no channel is, the function that
the group is granted to (log 12). -/
def State.concerned (s : State) (g : Nat) (pick : Channel → Bool) : List Nat :=
  match ((s.channels.filter pick).map fun c => s.functionOf c.region).eraseDups with
  | [] => [s.groupFn g]
  | l => l

/-- A LINK record of a group for the stage manager: in the monitor's mailbox, and in the error ring of each function whose region
is concerned (R373). -/
def State.groupRecord (s : State) (g d1 : Nat) (pick : Channel → Bool) : State :=
  let r : Record := { cause := .link, d0 := BitVec.ofNat 64 g, d1 := BitVec.ofNat 64 d1, time := s.ns }
  { s with mailbox := s.mailbox ++ [r], errorRings := s.errorRings ++ (s.concerned g pick).map fun f => (f, r) }

/-! Sending frames (R293, R361, R365) -/

/-- A flow of a group. -/
def Group.flow? (g : Group) (f : Nat) : Option Flow := g.flows.find? (·.num == f)

/-- Puts a flow back. -/
def Group.putFlow (g : Group) (f : Flow) : Group := { g with flows := g.flows.map fun h => if h.num == f.num then f else h }

/-- Payload bytes of a packet and unacknowledged packets of a flow, at most (R358, R361). -/
def packetBytes : Nat := 4096
def sendWindow : Nat := 1024

/-- The packets of a message. -/
def packetsOf (f : Flow) (tag : BitVec 16) (key : BitVec 32) (bs : List Byte) : List UetPacket :=
  (chunks packetBytes bs.length bs).zipIdx.map fun x =>
    { flow := f.num, psn := f.psn + BitVec.ofNat 32 x.2, msg := f.nextMsg, len := BitVec.ofNat 32 bs.length,
      off := BitVec.ofNat 32 (x.2 * packetBytes),
      tag := tag, key := key, payload := x.1 }

/-- Waiting packets leave while the sending window has room. -/
def State.pump (s : State) (g f : Nat) : State :=
  match (s.group g).flow? f with
  | none => s
  | some fl =>
    let out := fl.waiting.take (sendWindow - fl.unacked.length)
    let sent := out.map fun p => { pkt := p, tries := 0, missing := 0, at_ := s.ns : Sent }
    let fl := { fl with waiting := fl.waiting.drop out.length, unacked := fl.unacked ++ sent }
    { s.modGroup g (·.putFlow fl) with framesOut := s.framesOut ++ out.map fun p => (g, p) }

/-- A frame leaves as one message with the next message number of the flow (R365). No rule states the tag and the key of its
packets: they are free values (log 12). -/
def State.sendMessage (s : State) (g : Nat) (f : Flow) (bs : List Byte) : State :=
  let ps := packetsOf f ((Config.detail s.free).setWidth 16) ((Config.detail (s.free + 1)).setWidth 32) bs
  let f := { f with psn := f.psn + BitVec.ofNat 32 ps.length, nextMsg := f.nextMsg + 1, waiting := f.waiting ++ ps }
  (({ s with free := s.free + 2 } : State).modGroup g (·.putFlow f)).pump g f.num

/-- The bytes of the frame that a `send` names (R293). -/
def State.frameOf (s : State) (p : Proc) (w : ChanWait) : List Byte :=
  s.mem.bytes (globalBase p.core + (w.msg.getD 0 0).toNat) (w.msg.getD 1 0).toNat

/-- A process that waits in a `send` on an outbound channel whose ends are usable. -/
def State.sender (s : State) (c : Channel) : Option (Proc × ChanWait) :=
  if c.outer && c.tx.up && c.rx.up && c.rx.holder == .device then s.waiter c true else none

/-- The device moves a frame to the next posted buffer of a host queue (R349); nothing happens while none is posted. -/
def State.hostOut (s : State) (c : Channel) (fn hq : Nat) : State :=
  match s.sender c, s.hostQueue? fn hq with
  | some (p, w), some q =>
    let (addr, len, _, flags) := s.entryOf q
    if flags % 2 = 0 then s
    else
      let bs := s.frameOf p w
      let s := s.hostWrite fn addr (bs.take len)
      let fl := flags / 4 * 4 + (if len < bs.length then 2 else 0)
      let s := s.hostWrite fn (q.entry + 8) (toBytes (bs.length + fl * 2 ^ 48) 8)
      (s.nextEntry q).wake p.pid (some (.regs []))
  | _, _ => s

/-- EXTERNAL_SEND_READ (R293): the edge reads the frame and the `send` completes. -/
def execExternalSendRead (s : State) : Out :=
  match s.chan? (Subject.num s.subj) (Subject.second s.subj) with
  | none => .next s
  | some c =>
    match c.outside with
    | .flow g n =>
      match s.sender c, (s.group g).flow? n with
      | some (p, w), some f =>
        if (s.group g).pers = persUet ∧ (s.group g).sc = 0 ∧ f.failed = false then
          .next ((s.sendMessage g f (s.frameOf p w)).wake p.pid (some (.regs [])))
        else .next s
      | _, _ => .next s
    | .hostq fn hq => .next (s.hostOut c fn hq)
    | _ => .next s

/-- HOST_QUEUE_OUTBOUND (R349). -/
def execHostQueueOutbound (s : State) : Out :=
  let fn := Subject.num s.subj
  let hq := Subject.second s.subj
  match s.channels.find? fun c => c.outside == .hostq fn hq && (s.sender c).isSome with
  | some c => .next (s.hostOut c fn hq)
  | none => .next s

/-- HOST_QUEUE_INBOUND (R349): the next buffer that the host has put before the queue's tail, and that belongs to the device,
becomes a frame. -/
def execHostQueueInbound (s : State) : Out :=
  let fn := Subject.num s.subj
  let hq := Subject.second s.subj
  match s.channels.find? (fun c => c.outside == .hostq fn hq && c.tx.holder == .device && c.tx.up && !c.rx.down),
      s.hostQueue? fn hq with
  | some c, some q =>
    match c.ring.bind fun r => r.free?.map fun k => (r, k) with
    | none => .next s
    | some (r, k) =>
      let (addr, len, tag, flags) := s.entryOf q
      if flags % 2 = 0 ∨ q.head = q.tail then .next s
      else
        let bs := (s.hostBytes fn addr len).take r.size
        let (id, s) := s.freshId
        let s := s.modChan c.table c.name fun d => { d with ring := d.ring.map (·.begin k) }
        let s := s.engineBytes 0 (r.home k 0) c.region id bs (bs.length + 1)
        let s := s.putFrame 0 c.region c id (frameWords r k len tag)
        .next ((s.hostWrite fn (q.entry + 14) (toBytes (flags - 1) 2)).nextEntry q)
  | _, _ => .next s

/-! Receiving (R358–R365, R367) -/

/-- PSN a is later than b (R359). -/
def psnLater (a b : BitVec 32) : Bool := decide (1 ≤ (a - b).toNat) && decide ((a - b).toNat ≤ 2 ^ 31 - 1)

/-- Packets of the receive window, messages in reassembly, and entries of a cue sheet and of a key table, at most. -/
def recvWindow : Nat := 1024
def reassembly : Nat := 256
def cueEntries : Nat := 256
def keyEntries : Nat := 65536

/-- The base advances over every leading set bit (R360). -/
def Flow.slide (f : Flow) : Nat → Flow
  | 0 => f
  | n + 1 => if f.rmap % 2 = 1 then Flow.slide { f with rbase := f.rbase + 1, rmap := f.rmap / 2 } n else f

/-- A packet is accepted into the window. -/
def Flow.accept (f : Flow) (psn : BitVec 32) (now : Nat) : Flow :=
  let f := { f with rmap := f.rmap ||| 2 ^ (psn - f.rbase).toNat, sinceAck := f.sinceAck + 1,
                    ackFrom := if f.sinceAck = 0 then now else f.ackFrom }
  f.slide recvWindow

/-- A key of a group's table. -/
def Group.key? (g : Group) (k : BitVec 32) : Option Key := g.keys.find? fun e => e.idx == k.toNat % 2 ^ 24

/-- The first check of R364 that a key fails for bytes of its buffer: the number of the check. -/
def Group.keyFault (g : Group) (k : BitVec 32) (off n : Nat) : Option Nat :=
  match g.key? k with
  | none => some 1
  | some e =>
    if !e.valid then some 1
    else if e.reuse ≠ k.extractLsb' 24 8 then some 2
    else if e.len < off + n ∨ e.rw = false then some 3
    else none

/-- The check that a packet fails whose message goes to a buffer: its own key, and the key of the entry it matched (log 13). -/
def Group.packetFault (g : Group) (c : Cue) (p : UetPacket) : Option Nat :=
  (g.keyFault p.key (c.off + p.off.toNat) p.payload.length).orElse fun _ =>
    g.keyFault c.key (c.off + p.off.toNat) p.payload.length

/-- The check that a packet fails whose message goes to no buffer: an index that has been registered is held against the key, so
that a stale duplicate is one wherever its message would go (Table 22.2); an index that never was names no buffer, as with a
frame (log 13). -/
def Group.staleFault (g : Group) (p : UetPacket) : Option Nat :=
  if (g.key? p.key).isNone then none else (g.keyFault p.key 0 0).filter (· != 3)

/-- The first check of R364 that a packet fails, by where its message goes. -/
def Group.destFault (g : Group) (p : UetPacket) : Option MDest → Option Nat
  | some (.cue c) => g.packetFault c p
  | _ => g.staleFault p

/-- Counts a packet that R364 drops (Table 21.3). -/
def Group.countDrop (g : Group) (check : Nat) : Group :=
  if check = 2 then { g with drop18 := g.drop18 + 1 } else { g with drop10 := g.drop10 + 1 }

/-- Where a new message goes (R363); none when it is not begun (R365). -/
def State.destination (s : State) (g : Group) (f : Flow) (p : UetPacket) : Option MDest :=
  match f.cues.find? fun c => p.tag &&& c.mask == c.tag with
  | some c => some (.cue c)
  | none =>
    match s.channels.find? fun c => c.onFlow g.num f.num && c.tx.holder == .device && c.tx.up &&
        (c.rx.st == .bound || c.rx.st == .inTransit) with
    | none => some .dropped
    | some c =>
      match c.ring with
      | none => some .dropped
      | some r => r.free?.map fun k => .ring c.table c.name k

/-- The completion word of a message for a key's buffer (R363). -/
def Reasm.word (m : Reasm) : Nat := m.written + (if m.interrupted then 2 ^ 63 else 0)

/-- An engine write for a region that follows those of an owner (R363). -/
def State.writeAfter (s : State) (die region : Nat) (w : WriteEff) (owner : Nat) : State :=
  if s.engineBusy owner then
    let (id, s) := s.freshId
    { s with packets := s.packets ++
        [{ id := id, core := 8192 + die, pid := 0, region := region, src := die, dst := die, pc := 0, used := 0, n := 0,
           path := .mesh, kind := .reply, payload := .late w owner }] }
  else s.engineWrite die w none region

/-- A message in reassembly is over: the completion word or the frame is written behind its bytes. -/
def State.endMessage (s : State) (g : Nat) (m : Reasm) : State :=
  match m.dest with
  | .cue c => s.writeAfter (g / 2) c.region (engineWord c.compl 8 m.word) m.id
  | .ring t n k =>
    match s.chan? t n with
    | none => s
    | some c =>
      match c.ring with
      | none => s
      | some r =>
        if m.interrupted then s.modChan t n fun d => { d with ring := d.ring.map (·.cancel k) }
        else s.putFrame (g / 2) c.region c m.id (frameWords r k m.len m.tag.toNat)
  | .dropped => s

/-- The bytes of an accepted packet are written at their place (R362); how many. -/
def State.placeBytes (s : State) (g : Group) (m : Reasm) (p : UetPacket) : State × Nat :=
  match m.dest with
  | .cue c =>
    match g.key? c.key with
    | some k =>
      (s.engineBytes (g.num / 2) (k.base + c.off + p.off.toNat) c.region m.id p.payload (p.payload.length + 1), p.payload.length)
    | none => (s, 0)
  | .ring t n k =>
    match (s.chan? t n).bind fun c => c.ring.map fun r => (c.region, r) with
    | some (region, r) =>
      let bs := p.payload.take (r.size - p.off.toNat)
      (s.engineBytes (g.num / 2) (r.home k p.off.toNat) region m.id bs (bs.length + 1), bs.length)
    | none => (s, 0)
  | .dropped => (s, 0)

/-- An acknowledgement (R361): the base and the next 64 bits of the bitmap. -/
def State.sendAck (s : State) (g : Nat) (f : Flow) : State :=
  { s.modGroup g (·.putFlow { f with sinceAck := 0 }) with
    acksOut := s.acksOut ++ [(g, f.num, f.rbase, BitVec.ofNat 64 f.rmap)] }

/-- Accepted packets after which the receiver acknowledges at once (R361). -/
def ackEvery : Nat := 16

/-- The receiver acknowledges after every 16 accepted packets (R361). -/
def State.ackDue (s : State) (g n : Nat) : State :=
  match (s.group g).flow? n with
  | some f => if ackEvery ≤ f.sinceAck then s.sendAck g f else s
  | none => s

/-- A packet is accepted for a message (R360, R362). -/
def State.acceptPacket (s : State) (g : Nat) (f : Flow) (m : Reasm) (p : UetPacket) : State :=
  let (s, k) := s.placeBytes (s.group g) m p
  let m := { m with got := m.got + p.payload.length, written := m.written + k }
  let rest := f.msgs.filter (·.msg != p.msg)
  let f := { f.accept p.psn s.ns with msgs := if m.len ≤ m.got then rest else rest ++ [m] }
  let s := (s.modGroup g (·.putFlow f)).ackDue g f.num
  if m.len ≤ m.got then s.endMessage g m else s

/-- The first packet of a message is accepted: the message begins (R363, R365). -/
def State.beginMessage (s : State) (g : Nat) (f : Flow) (d : MDest) (p : UetPacket) : State :=
  let (id, s) := s.freshId
  let m : Reasm := { id := id, msg := p.msg, tag := p.tag, len := p.len.toNat, got := 0, written := 0, dest := d, interrupted := false }
  let f := match d with
    | .cue c => if c.persist then f else { f with cues := f.cues.erase c }
    | _ => f
  let s := s.modGroup g (·.putFlow f)
  let s := match d with
    | .ring t n k => s.modChan t n fun (c : Channel) => { c with ring := c.ring.map fun (r : Ring) => r.begin k }
    | .dropped => s.modGroup g fun x => { x with drop20 := x.drop20 + 1 }
    | _ => s
  s.acceptPacket g f m p

/-- A packet inside the window whose bit is clear: key checks, then the message (R363, R364, R367). -/
def State.newPacket (s : State) (g : Nat) (f : Flow) (p : UetPacket) : State :=
  let gr := s.group g
  match f.msgs.find? (·.msg == p.msg) with
  | some m =>
    match gr.destFault p (some m.dest) with
    | some k =>
      let m := if k = 3 then { m with interrupted := true } else m
      let f := { f with msgs := f.msgs.map fun (x : Reasm) => if x.msg = p.msg then m else x }
      s.putGroup ((gr.putFlow f).countDrop k)
    | none => s.acceptPacket g f m p
  | none =>
    if 2 ≤ gr.sc.toNat ∨ reassembly ≤ f.msgs.length then s
    else
      let d := s.destination gr f p
      match gr.destFault p d with
      | some k => s.putGroup (gr.countDrop k)
      | none =>
        match d with
        | some d => s.beginMessage g f d p
        | none => s

/-- UET_PACKET_ARRIVAL (R351, R360, R367): a packet of a flow of a group in the UET personality. -/
def execUetPacketArrival (s : State) : Out :=
  match s.subj with
  | .uet g p =>
    let gr := s.group g
    match gr.flow? p.flow with
    | none => .next s
    | some f =>
      if gr.pers ≠ persUet ∨ 2 < gr.sc.toNat ∨ f.failed = true ∨ packetBytes < p.payload.length ∨
          p.len.toNat < p.off.toNat + p.payload.length then .next s
      else
        let d := (p.psn - f.rbase).toNat
        if psnLater f.rbase p.psn ∨ (d < recvWindow ∧ f.rmap.testBit d = true) then .next (s.sendAck g f)
        else if recvWindow ≤ d then .next (s.putGroup { gr with drop8 := gr.drop8 + 1 })
        else .next (s.newPacket g f p)
  | _ => .next s

/-- UET_ACK_SEND (R361): at any time after an unacknowledged acceptance; the 2 µs are timing (log 5). -/
def execUetAckSend (s : State) : Out :=
  let g := Subject.num s.subj
  match (s.group g).flow? (Subject.second s.subj) with
  | some f => if f.sinceAck = 0 then .next s else .next (s.sendAck g f)
  | none => .next s

/-! Acknowledgements and retransmission (R361) -/

/-- Retransmissions of one packet after which the flow fails, and acknowledgements that show a packet missing. -/
def maxRetries : Nat := 7
def missingAcks : Nat := 3

/-- An acknowledgement covers a packet. -/
def ackedBy (base : BitVec 32) (map : BitVec 64) (psn : BitVec 32) : Bool :=
  psnLater base psn || (decide ((psn - base).toNat < 64) && map.getLsbD (psn - base).toNat)

/-- An acknowledgement shows a packet missing: a later one has arrived. -/
def showsMissing (base : BitVec 32) (map : BitVec 64) (psn : BitVec 32) : Bool :=
  !ackedBy base map psn && decide (map.toNat / 2 ^ ((psn - base).toNat + 1) ≠ 0)

/-- A flow fails: open messages are reported interrupted, its ends go to ERROR, the stage manager gets a record. -/
def State.failFlow (s : State) (g n : Nat) : State :=
  match (s.group g).flow? n with
  | none => s
  | some f =>
    let s := s.modGroup g (·.putFlow { f with failed := true, msgs := [], unacked := [], waiting := [] })
    let s := f.msgs.foldl (fun t m => t.endMessage g { m with interrupted := true }) s
    (s.modOuter (·.onFlow g n) fun _ e => e.lose).groupRecord g n (·.onFlow g n)

/-- Sends again the packets that a condition picks; a packet that has been sent again as often as may be fails the flow. -/
def State.resend (s : State) (g n : Nat) (pick : Sent → Bool) : State :=
  match (s.group g).flow? n with
  | none => s
  | some f =>
    let again := f.unacked.filter pick
    if again.any fun x => decide (maxRetries ≤ x.tries) then s.failFlow g n
    else
      let f := { f with unacked := f.unacked.map fun (x : Sent) =>
                          if pick x then { x with tries := x.tries + 1, missing := 0, at_ := s.ns } else x }
      { s.modGroup g (·.putFlow f) with framesOut := s.framesOut ++ again.map fun x => (g, x.pkt) }

/-- UET_ACK_RECEIVE (R361). -/
def execUetAckReceive (s : State) : Out :=
  match s.subj with
  | .ack g n base map =>
    match (s.group g).flow? n with
    | none => .next s
    | some f =>
      let left := f.unacked.filter fun x => !ackedBy base map x.pkt.psn
      let f := { f with unacked := left.map fun (x : Sent) =>
                          if showsMissing base map x.pkt.psn then { x with missing := x.missing + 1 } else x }
      let s := s.modGroup g (·.putFlow f)
      .next ((s.resend g n fun x => decide (missingAcks ≤ x.missing)).pump g n)
  | _ => .next s

/-- Nanoseconds without acknowledgement after which a packet is sent again. -/
def resendTime : Nat := 100000

/-- UET_RETRANSMIT_TIMEOUT (R361). -/
def execUetRetransmitTimeout (s : State) : Out :=
  match s.subj with
  | .resend g n psn => .next (s.resend g n fun x => x.pkt.psn == psn && decide (x.at_ + resendTime ≤ s.ns))
  | _ => .next s

/-! The UALink port (R339, R344–R346) -/

/-- An inbound window of a group grants an access. -/
def Group.lets (g : Group) (a n : Nat) (perm : Perm) : Bool :=
  g.inwins.any fun w => decide (w.base ≤ a) && decide (a + n ≤ w.limit + 1) && w.grants perm

/-- The size of an access of another package. -/
def accessSize (n : Nat) : Bool := n == 1 || n == 2 || n == 4 || n == 8

/-- The target serves an access: its windows grant it and its bytes exist (R344, R345). -/
def State.serves (s : State) (g : Group) (a n : Nat) (perm : Perm) : Bool :=
  accessSize n && a % n == 0 && g.lets a n perm && s.addressable a

/-- A request of another package goes to its home: on another die as a packet of the group's die (R339). -/
def State.inbound (s : State) (g a n : Nat) (pl : Payload) : State :=
  let (id, s) := s.freshId
  let die := g / 2
  ({ s with packets := s.packets ++
      [{ id := id, core := 8192 + die, pid := 0, region := 0, src := die, dst := homeDie a, pc := 0, used := a, n := n,
         path := if homeDie a = die then .mesh else .fabric, kind := .ord, payload := pl }] } : State).stampAll die

/-- A channel can take a message from another package: a buffered one has a free slot, those on their way counted; on a
rendezvous channel the receiver waits (R284, R285, R290). -/
def State.takesMessage (s : State) (c : Channel) : Bool :=
  if c.buf then c.rx.up && decide (c.queue.length + s.framesTo c < c.depth)
  else c.rx.up && c.queue.isEmpty && s.framesTo c == 0 && (s.waiter c false).isSome

/-- The bytes that a tile transfer carries, as the descriptor of one party places them (R287). -/
def tileAddrs (d : Desc) : List Nat := (tilePairs d d).map (·.1)

/-- A tile of another package meets the `recvt` that waits (R287, R290): the bytes are engine writes of the group's die, and
`recvt` completes when they have landed; the tile waits at the link while there is none. -/
def State.tileIn (s : State) (g : Nat) (c : Channel) (w0 w1 : Word) (bs : List Byte) : State :=
  match s.waiter c false with
  | none => s
  | some (p, w) =>
    if !c.rx.up then s
    else if tileShape w1 ≠ tileShape w.dw1 then (s.failWait c p w .chType 4).uaAnswer g .shape
    else
      let (id, s) := s.freshId
      let s := s.startMove p w id
      let s := (gather ((tileAddrs (descOf w.dw0 w.dw1)).zip (bs.map (·.toNat)))).foldl (fun (u : State) x =>
        u.engineWrite (g / 2)
          (engineWord (globalBase p.core + x.1) x.2.length (x.2.foldr (fun b n => b + 256 * n) 0)) none p.region id) s
      ({ s with transfers := s.transfers ++
          [{ id := id, tx := 0, rx := p.pid, src := coreOf (g / 2) 0 0, dst := p.core, s0 := w0, s1 := w1, r0 := w.dw0,
             r1 := w.dw1, read := true }] } : State).uaAnswer g .ack

/-- A `recvt` of another package meets the `sendt` that waits (R287, R290): its tile leaves, and it completes; the other
package waits while there is none. -/
def State.tileOut (s : State) (g : Nat) (c : Channel) (w1 : Word) : State :=
  match s.waiter c true with
  | none => s
  | some (p, w) =>
    if !c.tx.up then s
    else if tileShape w1 ≠ tileShape w.dw1 then (s.failWait c p w .chType 4).uaAnswer g .shape
    else
      let bs := (tileAddrs (descOf w.dw0 w.dw1)).map fun a => BitVec.ofNat 8 (s.tileRead p.core a 1)
      (s.tell c p w (.regs [])).uaAnswer g (.tile bs)

/-- UALINK_INBOUND_REQUEST (R344): checked against the inbound windows, and served or refused. A channel message waits at the
link until the channel can take it, and is stamped by the group's die when the anchor is on another (R339). -/
def execUalinkInboundRequest (s : State) : Out :=
  match s.subj with
  | .request g r =>
    let gr := s.group g
    if gr.pers ≠ persUalink ∨ 2 ≤ gr.sc.toNat then .next s
    else match r with
      | .read a n => .next (if s.serves gr a n .rd then s.inbound g a n (.inRead g a n) else s.uaAnswer g .refused)
      | .write a bs =>
        .next (if s.serves gr a bs.length .wr then
            s.inbound g a bs.length (.inWrite g { addr := a, n := bs.length, val := ofBytes bs, fe := none })
          else s.uaAnswer g .refused)
      | .deposit t n msg =>
        match s.chan? t n with
        | some c =>
          if c.through g && c.tx.holder == .device && c.tx.up && c.kind != .tile && msg.length == c.words then
            (if c.rx.down then .next (s.uaAnswer g .refused)
             else if s.takesMessage c then .next ((s.putFrame (g / 2) c.region c 0 msg).uaAnswer g .ack)
             else .next s)
          else .next (s.uaAnswer g .refused)
        | none => .next (s.uaAnswer g .refused)
      | .tile t n w0 w1 bs =>
        match s.chan? t n with
        | some c =>
          if c.through g && c.tx.holder == .device && c.tx.up && c.kind == .tile && !c.rx.down &&
              bs.length == (tileAddrs (descOf w0 w1)).length then .next (s.tileIn g c w0 w1 bs)
          else .next (s.uaAnswer g .refused)
        | none => .next (s.uaAnswer g .refused)
      | .takeTile t n _ w1 =>
        match s.chan? t n with
        | some c =>
          if c.through g && c.rx.holder == .device && c.rx.up && c.kind == .tile && !c.tx.down then .next (s.tileOut g c w1)
          else .next (s.uaAnswer g .refused)
        | none => .next (s.uaAnswer g .refused)
  | _ => .next s

/-- The LINK notification of a store that the aperture lost (R345, R352), with the storing core's COORD at issue (R57). -/
def State.apertureLost (s : State) (q : Packet) (g d1 : Nat) : State :=
  match q.payload with
  | .apWrite _ _ w =>
    match w.author with
    | some a => s.report a .link (BitVec.ofNat 64 q.used) (BitVec.ofNat 64 g) (BitVec.ofNat 64 d1)
    | none => s
  | _ => s

/-- A RESULT word that the aperture lost is reported (R387). -/
def State.resultLost (s : State) (q : Packet) (g : Nat) (r : Option Author) : State :=
  match r with
  | some a => s.report a .link (BitVec.ofNat 64 q.used) (BitVec.ofNat 64 g) 3
  | none => s

/-- The other package's answer to an aperture access. -/
def State.apertureAnswer (s : State) (q : Packet) (r : UaAnswer) : Option State :=
  match q.payload, r with
  | .apRead _ _ _ n ret, .data v => some ((s.dropPacket q.id).takeData (v % 2 ^ (8 * n)) false ret)
  | .apRead g _ _ _ ret, .refused => some ((s.dropPacket q.id).takeLink (BitVec.ofNat 64 q.used) g 3 ret)
  | .apWrite _ _ _, .ack | .apEngine _ _ _ _, .ack => some (s.dropPacket q.id)
  | .apWrite g _ _, .refused => some ((s.dropPacket q.id).apertureLost q g 3)
  | .apEngine g _ _ r, .refused => some ((s.dropPacket q.id).resultLost q g r)
  | _, _ => none

/-- The oldest message of an end to another package has been taken there (R290); none is while the end is IN_TRANSIT (R354). -/
def State.messageTaken (s : State) (c : Channel) : State :=
  match c.outside with
  | .peer g _ =>
    if c.rx.holder = .device ∧ c.rx.up = true ∧ c.kind ≠ .tile ∧ (s.group g).pers = persUalink then
      match c.queue, s.waiter c true with
      | _ :: q, _ => (s.putChan { c with queue := q }).settle c.table c.name
      | [], some (p, w) => s.tell c p w (.regs [])
      | [], none => s
    else s
  | _ => s

/-- APERTURE_RESPONSE (R346): a load returns, a store is acknowledged, or the target refuses. -/
def execApertureResponse (s : State) : Out :=
  match s.subj with
  | .answer id r =>
    match s.packet? id with
    | some q => if q.path == .aperture && s.mayLand q then .next ((s.apertureAnswer q r).getD s) else .next s
    | none => .next s
  | .pair t n =>
    match s.chan? t n with
    | some c => .next (s.messageTaken c)
    | none => .next s
  | _ => .next s

/-! Scene changes (R350–R356) -/

/-- A group enters a state of its scene change. -/
def Group.enter (g : Group) (sc : BitVec 4) (now : Nat) : Group :=
  { g with sc := sc, scene := g.scene.map fun c => { c with entered := now } }

/-- The states of Table 21.4. -/
abbrev scStable : BitVec 4 := 0
abbrev scBlock : BitVec 4 := 1
abbrev scDrain : BitVec 4 := 2
abbrev scUnmap : BitVec 4 := 3
abbrev scTrain : BitVec 4 := 4
abbrev scLinkup : BitVec 4 := 5
abbrev scRelease : BitVec 4 := 6

/-- Width codes of a personality (Table 21.1, Table 23.2). -/
def widthOk (pers : BitVec 2) (code : Nat) : Bool :=
  if pers = 0 then code == 0 else code == 8 || code == 4 || (pers == persUet && code == 0xC)

/-- A scene change may begin (R350). -/
def State.sceneOk (s : State) (g : Nat) (pers : BitVec 2) (code : Nat) : Bool :=
  s.groupPresent g && (s.group g).sc == scStable && widthOk pers code

/-- The command is accepted. -/
def State.beginScene (s : State) (g : Nat) (pers : BitVec 2) (code map : Nat) (thread : Option Nat) : State :=
  s.modGroup g fun x =>
    { x with sc := scBlock, target := pers, scene := some { map := map, width := code, thread := thread, entered := s.ns } }

/-- A group within a state of its scene change. -/
def State.inScene (s : State) (g : Nat) (sc : BitVec 4) : Option Scene :=
  if (s.group g).sc = sc then (s.group g).scene else none

/-- SCENE_BLOCK_DONE (R351, R366): the outside ends are IN_TRANSIT; DRAIN begins. -/
def execSceneBlockDone (s : State) : Out :=
  let g := Subject.num s.subj
  match s.inScene g scBlock with
  | none => .next s
  | some _ =>
    let s := s.modGroup g fun x => x.enter scDrain s.ns
    .next (s.modOuter (·.through g) fun _ e => if e.st = .bound then { e with st := .inTransit, scn := true } else e)

/-- An accepted aperture access of a group. -/
def Packet.viaGroup (q : Packet) (g : Nat) : Bool :=
  q.path == .aperture && (match q.payload with
    | .apRead h _ _ _ _ | .apWrite h _ _ | .apEngine h _ _ _ => h == g
    | _ => false)

/-- An access that another package has made through a group, and that is not answered (R344). -/
def Packet.inboundOf (q : Packet) (g : Nat) : Bool :=
  match q.payload with
  | .inRead h _ _ | .inWrite h _ | .uaBack h _ => h == g
  | _ => false

/-- Nothing that the group has accepted is open (R352): accesses in both directions, channel messages on their way to their
anchor, requests, messages of flows. -/
def State.drained (s : State) (g : Nat) : Bool :=
  let x := s.group g
  !(s.packets.any fun q => q.viaGroup g || q.inboundOf g) && !(s.requests.any (·.front == 16 + g)) &&
    (s.channels.all fun c => !c.through g || s.framesTo c == 0) &&
    x.flows.all fun f => f.msgs.isEmpty && f.unacked.isEmpty && f.waiting.isEmpty

/-- SCENE_DRAIN_END (R352). -/
def execSceneDrainEnd (s : State) : Out :=
  let g := Subject.num s.subj
  match s.inScene g scDrain with
  | some _ => if s.drained g then .next (s.modGroup g fun x => x.enter scUnmap s.ns) else .next s
  | none => .next s

/-- What is open on the group ends (R352): loads with LINK, stores with a notification. -/
def State.endAperture (s : State) (g d1 : Nat) : State :=
  (s.packets.filter (·.viaGroup g)).foldl (fun t q =>
    match q.payload with
    | .apRead _ _ _ _ ret => (t.dropPacket q.id).takeLink (BitVec.ofNat 64 q.used) g (BitVec.ofNat 64 d1) ret
    | .apEngine _ _ _ r => (t.dropPacket q.id).resultLost q g r
    | _ => (t.dropPacket q.id).apertureLost q g d1) s

/-- Messages open on a flow are reported interrupted, and its retransmission state is discarded. -/
def State.endFlow (s : State) (g : Nat) (f : Flow) : State :=
  let s := s.modGroup g (·.putFlow { f with msgs := [], unacked := [], waiting := [] })
  f.msgs.foldl (fun t m => t.endMessage g { m with interrupted := true }) s

/-- Everything open on a group ends; `d1` is the case of R345. -/
def State.endOpen (s : State) (g d1 : Nat) : State :=
  let s := s.endAperture g d1
  let s := { s with requests := s.requests.map fun (r : MsReq) => if r.front = 16 + g then r.fail .link true else r }
  (s.group g).flows.foldl (fun t f => t.endFlow g f) s

/-- Nanoseconds that DRAIN lasts at most. -/
def drainLimit : Nat := 1000000

/-- SCENE_DRAIN_TIMEOUT (R352). -/
def execSceneDrainTimeout (s : State) : Out :=
  let g := Subject.num s.subj
  match s.inScene g scDrain with
  | some c =>
    if c.entered + drainLimit ≤ s.ns then .next ((s.endOpen g 1).modGroup g fun x => x.enter scUnmap s.ns) else .next s
  | none => .next s

/-- A group without a map (R353); invalidated keys keep their REUSE (R364). -/
def Group.unmap (g : Group) (now : Nat) : Group :=
  { g with umap := [], flows := [],
           keys := g.keys.map fun k => if k.valid then { k with valid := false, freedAt := some now } else k }

/-- A group without lanes. -/
def Group.down (g : Group) : Group := { g with pers := 0, width := 0, split := false, laneup := 0 }

/-- Requests the edge lock of a die. -/
def State.askLock (s : State) (die : Nat) (u : LockUser) : State :=
  s.modDie die fun d => { d with lockQ := d.lockQ ++ [(u, s.ns)] }

/-- A die's lock is held or wanted by a user. -/
def Die.locks (d : Die) (u : LockUser) : Bool := d.lock == some u || d.lockQ.any (·.1 == u)

/-- The edge server of a group forgets what it has translated: its binding to far segments is taken down (R353, log 34). -/
def State.unbindServer (s : State) (g : Nat) : State :=
  { s with servers := s.servers.map fun (v : Server) => if v.name = 16 + g then { v with cache := [] } else v }

/-- SCENE_UNMAP_DONE (R353): the map is down; the lock is requested, but for a target of DOWN, which goes on to RELEASE
(R350). -/
def execSceneUnmapDone (s : State) : Out :=
  let g := Subject.num s.subj
  match s.inScene g scUnmap with
  | none => .next s
  | some _ =>
    if (s.die (g / 2)).locks (.scene g) then .next s
    else
      let s := (s.unbindServer g).modGroup g fun x => x.unmap s.ns
      if (s.group g).target = 0 then .next (s.modGroup g fun x => x.down.enter scRelease s.ns)
      else .next (s.askLock (g / 2) (.scene g))

/-- A lock user is a scene change. -/
def LockUser.isScene : LockUser → Bool
  | .scene _ => true
  | .dvfs _ => false

/-- The request that is served next: the oldest; of those made together a scene change first (R357). -/
def nextLock : List (LockUser × Nat) → Option (LockUser × Nat)
  | [] => none
  | x :: l => some (l.foldl (fun b y => if y.2 < b.2 ∨ (y.2 = b.2 ∧ y.1.isScene = true ∧ b.1.isScene = false) then y else b) x)

/-- EDGE_LOCK_GRANT (R357): a scene change enters TRAIN with the lock; a clock step begins. -/
def execEdgeLockGrant (s : State) : Out :=
  let n := Subject.num s.subj
  let d := s.die n
  match d.lock, nextLock d.lockQ with
  | none, some x =>
    let s := s.modDie n fun d => { d with lock := some x.1, lockQ := d.lockQ.erase x }
    match x.1 with
    | .scene g => .next (s.modGroup g fun y => y.enter scTrain s.ns)
    | .dvfs _ => .next s
  | _, _ => .next s

/-- Gives the edge lock back. -/
def State.unlock (s : State) (die : Nat) : State := s.modDie die fun d => { d with lock := none }

/-- Lanes of a width code. -/
def widthLanes (code : Nat) : BitVec 8 := if code = 4 then 0x0F else if code = 0 then 0 else 0xFF

/-- Every lane of a set has trained. -/
def covers (lanes want : BitVec 8) : Bool := lanes &&& want == want

/-- A group takes its new personality at entry to LINKUP and gives the lock back (Table 21.4, R357). -/
def State.linkup (s : State) (g : Nat) (f : Group → Group) : State :=
  (s.modGroup g fun x => (f x).enter scLinkup s.ns).unlock (g / 2)

/-- SCENE_TRAIN_DONE (R355): every requested lane has trained. -/
def execSceneTrainDone (s : State) : Out :=
  match s.subj with
  | .train g lanes =>
    match s.inScene g scTrain with
    | none => .next s
    | some c =>
      let want := widthLanes c.width
      if covers lanes want then
        .next (s.linkup g fun x =>
          { x with pers := x.target, width := if c.width = 4 then 4 else 8, split := c.width == 0xC, laneup := want })
      else .next s
  | _ => .next s

/-- Nanoseconds of the TRAIN bound (Table 21.4). -/
def trainLimit (pers : BitVec 2) : Nat := if pers = persCxl then 200000 else 80000

/-- The lanes that a group goes on with when not all have trained (R355). -/
def obtained (code : Nat) (lanes : BitVec 8) : BitVec 8 :=
  if covers lanes (widthLanes code) then widthLanes code
  else if covers lanes 0x0F && code != 4 then 0x0F
  else if covers lanes 0xF0 && code == 0xC then 0xF0
  else 0

/-- SCENE_TRAIN_TIMEOUT (R355): the widest width that the trained lanes allow, or DOWN with an empty map; a record. -/
def execSceneTrainTimeout (s : State) : Out :=
  match s.subj with
  | .train g lanes =>
    match s.inScene g scTrain with
    | none => .next s
    | some c =>
      let up := obtained c.width lanes
      if s.ns < c.entered + trainLimit (s.group g).target ∨ up = widthLanes c.width then .next s
      else if up = 0 then
        .next ((s.linkup g fun x => { x.down with target := 0, scene := x.scene.map fun c => { c with map := 0 } }).groupRecord g 0
          (·.through g))
      else
        .next ((s.linkup g fun x => { x with pers := x.target, width := 4, split := c.width == 0xC, laneup := up }).groupRecord g
          4 (·.through g))
  | _ => .next s

/-- The flows of a map block (R372). -/
def State.mapFlows (s : State) (map : Nat) (split : Bool) : List Flow :=
  (List.range (s.mem.read (map + 0x40) 8 % 65536)).map fun i =>
    let a := s.mem.read (map + 0x48 + 16 * i) 8
    let b := s.mem.read (map + 0x50 + 16 * i) 8
    { num := a % 65536, remote := BitVec.ofNat 64 (a / 65536), port := if split then b / 2 ^ 24 % 2 else 0,
      chan := b % 2 ^ 24 }

/-- The port of a flow has lanes. -/
def Group.portUp (g : Group) (f : Flow) : Bool := !g.split || covers g.laneup (if f.port = 0 then 0x0F else 0xF0)

/-- The map of the target is installed (R353). -/
def State.installMap (s : State) (g : Group) (map : Nat) : Group :=
  if map = 0 then g
  else if g.pers = persUalink then { g with umap := (List.range 8).map fun j => BitVec.ofNat 64 (s.mem.read (map + 8 * j) 8) }
  else if g.pers = persUet then
    { g with flows := (s.mapFlows map g.split).map fun f => { f with failed := !g.portUp f } }
  else g

/-- SCENE_LINKUP_DONE (R353). -/
def execSceneLinkupDone (s : State) : Out :=
  let g := Subject.num s.subj
  match s.inScene g scLinkup with
  | some c => .next (s.putGroup ((s.installMap (s.group g) c.map).enter scRelease s.ns))
  | none => .next s

/-- What a channel is joined to in the new map, when the new personality serves its end (R354). -/
def Group.rebind (g : Group) (c : Channel) : Option Outside :=
  match c.outside with
  | .flow _ _ =>
    if g.pers = persUet then (g.flows.find? fun f => f.chan == c.name && !f.failed).map fun f => .flow g.num f.num else none
  | .peer _ k =>
    if g.pers = persUalink ∧ g.umap.any (fun w => w.getLsbD 63 && (w.extractLsb' 32 16).toNat == k) = true then some c.outside
    else none
  | _ => none

/-- Every end leaves IN_TRANSIT (R354). -/
def State.releaseEnds (s : State) (g : Nat) : State :=
  let x := s.group g
  (s.channels.filter fun c => c.through g).foldl (fun t c =>
    match c.deviceEnd with
    | none => t
    | some tx =>
      let e := c.fin tx
      if !e.scn then t
      else match x.rebind c with
        | some o => (t.putChan { c.setFin tx { e with st := .bound, scn := false } with outside := o }).settle c.table c.name
        | none => (t.putChan (c.setFin tx e.lose)).settle c.table c.name) s

/-- A scene change is over: its command completes (Table 23.2). -/
def State.endScene (s : State) (g : Nat) : State :=
  (s.modGroup g fun x => { x with sc := scStable, target := x.pers, scene := none }).completeWhere (· == .scene g)

/-- SCENE_RELEASE_DONE (R354). -/
def execSceneReleaseDone (s : State) : Out :=
  let g := Subject.num s.subj
  match s.inScene g scRelease with
  | some _ => .next ((s.releaseEnds g).endScene g)
  | none => .next s

/-- A group is lost with its die or its lanes: a scene change is abandoned, PERS becomes DOWN, the ends go to ERROR (R282,
Table 21.5). -/
def State.loseGroup (s : State) (g : Nat) : State :=
  let s := (s.endOpen g 0).unbindServer g
  let s := s.modGroup g fun x => (x.unmap s.ns).down
  let s := s.modDie (g / 2) fun d =>
    { d with lock := if d.lock = some (.scene g) then none else d.lock, lockQ := d.lockQ.filter (·.1 != .scene g) }
  (s.modOuter (·.through g) fun _ e => e.lose).endScene g

/-- EDGE_GROUP_RETRAIN (R342): the lanes in use train again, or the group is lost. -/
def execEdgeGroupRetrain (s : State) : Out :=
  match s.subj with
  | .train g lanes =>
    let x := s.group g
    if x.sc ≠ scStable ∨ x.pers = 0 then .next s
    else if covers lanes x.laneup then .next (s.putGroup { x with retrains := min (x.retrains + 1) 0xFF })
    else .next (s.loseGroup g)
  | _ => .next s

/-! Clock steps (R357, R384) -/

/-- The clocks of a die in MHz (Table 23.5). -/
def clocks : List Nat := [1200, 1000, 800, 600]

/-- Requests a step of a die to another clock. At most one step of a die holds the lock or waits for it, so that a scene change
waits at most one step; one that waits takes the clock asked for last (log 16). -/
def State.askStep (s : State) (die mhz : Nat) : State :=
  let d := s.die die
  if !s.diePresent die || !clocks.contains mhz || d.mhz == mhz || d.lock.any (!·.isScene) then s
  else if d.lockQ.any (!·.1.isScene) then
    s.modDie die fun d => { d with lockQ := d.lockQ.map fun x => if x.1.isScene then x else (.dvfs mhz, x.2) }
  else s.askLock die (.dvfs mhz)

/-- DVFS_STEP (R357): with the lock held for it, the clock changes; else a step is requested. -/
def execDvfsStep (s : State) : Out :=
  let n := Subject.num s.subj
  let ask := s.askStep n (Subject.second s.subj)
  match (s.die n).lock with
  | some (.dvfs m) => .next (if (s.die n).mhz = m then ask else s.modDie n fun d => { d with mhz := m })
  | _ => .next ask

/-- DVFS_STEP_END (R357). -/
def execDvfsStepEnd (s : State) : Out :=
  let n := Subject.num s.subj
  match (s.die n).lock with
  | some (.dvfs m) => if (s.die n).mhz = m then .next (s.unlock n) else .next s
  | _ => .next s

end Sys2Proof.Machine
end

