-- ==== Sys2Proof/Machine/Domains.lean ====
section
/-! DEFINITION. Removal of a die, reclocks, reset domains (R334–R338), and the status registers that only the stage manager
reads (R340, R342). -/

namespace Sys2Proof.Machine

/-! Status registers -/

/-- The causal status register of a die (Table 19.5). -/
def State.causalStatus (s : State) (n : Nat) : Nat :=
  let d := s.die n
  let others := s.domain.filter (· != n)
  field 32 (s.hearth n).length + field 24 (others.foldl (fun m e => if d.windowOpen e then m else m + 2 ^ e) 0) +
    field 16 (s.domain.foldl (fun m e => m + 2 ^ e) 0) + field 8 (min d.reclocks 255) +
    ((s.reclock.map (·.phase)).getD 0)

/-- What the stage manager reads at an offset of a die's causal control page (R340). -/
def State.causalPage (s : State) (n off : Nat) : Nat := if off = 0 then s.causalStatus n else 0

/-- The status register of an edge group (Table 21.2). -/
def Group.status (g : Group) : Nat :=
  field 32 g.retrains + field 24 g.laneup.toNat + bit 20 g.split + field 16 g.width + field 8 g.sc.toNat +
    field 4 g.target.toNat + g.pers.toNat

/-! Waits that a loss ends -/

/-- A process waits at a home: its watch is kept there, or its request is in a reservation queue. -/
def State.waitsAtHome (s : State) (pid : Nat) : Bool :=
  s.watches.any (·.pid == pid) || s.rsvs.any fun r => r.pid == pid && (match r.k with
    | .rsv | .amo _ _ _ => !r.granted || r.k != .rsv
    | _ => false)

/-- The waits of SYNC instructions on homes of a die end with LINK: those that wait there (R338), or, when the die is removed,
those on their way to it or back as well (R334). -/
def State.failHomes (s : State) (a : Nat) (d1 : Word) (all : Bool) (mark : State → Nat → State) : State :=
  s.allProcs.foldl (fun t p =>
    if p.inSync && dieOf p.core != a && (all || s.waitsAtHome p.pid) then
      match p.wait with
      | .sync h _ _ | .rsv h _ | .amo h _ =>
        if homeDie h = a then (mark t p.region).failSync p.pid .link (BitVec.ofNat 64 h) (BitVec.ofNat 64 a) d1 else t
      | _ => t
    else t) s

/-- A write waits in the reservation queue of a home on a die. -/
def Packet.queuedAt (q : Packet) (a : Nat) : Bool := q.queued && homeDie (payloadAddr q.payload) == a

/-- A write that waited at a home which is emptied is discarded with its memory (R338): an engine write is accounted for (R387),
and another package is refused. -/
def State.loseQueued (s : State) (a : Nat) (q : Packet) : State :=
  match q.payload with
  | .engine w r o => s.loseEngine w r o
  | .inWrite g _ => s.answerOut a g .refused
  | _ => s

/-- The homes of a die keep no watch and no queue, and no write that waited in one. -/
def State.emptyHomes (s : State) (a : Nat) : State :=
  let gone := s.packets.filter (·.queuedAt a)
  let s := gone.foldl (fun t q => t.loseQueued a q) { s with packets := s.packets.filter fun q => !q.queuedAt a }
  { s with watches := s.watches.filter fun w => homeDie w.addr != a
           rsvs := s.rsvs.filter fun r => homeDie r.addr != a
           procs := s.procs.map fun (p : Proc) => { p with rsvs := p.rsvs.filter fun w => homeDie w != a }
           cpu := s.cpu.map fun (p : Proc) => { p with rsvs := p.rsvs.filter fun w => homeDie w != a } }

/-- A channel instruction that was on its way to a lost anchor waits at the anchor that there is now. -/
def State.reanchor (s : State) (p : Proc) : State :=
  match p.wait with
  | .chan w =>
    if p.isBlocked && !w.arrived && !s.packets.any (·.payload == .chan p.pid) then
      (s.putProc { p with wait := .chan { w with arrived := true } }).settle w.table w.name
    else s
  | _ => s

/-- Tile transfers with a party on a die end; the other party waits at the channel again. -/
def State.endTransfers (s : State) (a : Nat) : State :=
  let gone := s.transfers.filter fun t => dieOf t.src == a || dieOf t.dst == a
  let s := { s with transfers := s.transfers.filter fun t => !gone.contains t }
  gone.foldl (fun t x =>
    [x.tx, x.rx].foldl (fun u pid =>
      match u.proc? pid with
      | some p =>
        match p.wait with
        | .chan w => if w.moving = some x.id then u.putProc { p with wait := .chan { w with moving := none } } else u
        | _ => u
      | none => u) t) s

/-- Every channel is settled. -/
def State.settleAll (s : State) : State := s.channels.foldl (fun t c => t.settle c.table c.name) s

/-! Removal (R334, R335) -/

/-- A packet lacks a cause that the removal of a die takes away (R334 step 3). -/
def State.lacks (s : State) (a : Nat) (q : Packet) : Bool :=
  match q.stamp with
  | some t => q.dst != a && t.src != a && later (t.col.getD a 0) ((s.die q.dst).deliv a)
  | none => false

/-- A packet on the die fabric, stamped or an `st.nt`, that has not been delivered. -/
def Packet.crossing (q : Packet) : Bool := q.path == .fabric && !q.queued && (q.stamp.isSome || q.kind == .nt)

/-- A packet from or to a removed die is discarded (R334 steps 1 and 4). A completion word from it to a surviving home is written
again (R266, `State.loseFront`), and what an ended process had left at a home is released there. -/
def State.losePacket (s : State) (a : Nat) (q : Packet) : State :=
  let s := if q.crossing then s.affect q.region fun f => { f with lost := min (f.lost + 1) (2 ^ 32 - 1) } else s
  if dieOf q.core = a ∧ q.core < 8192 then s
  else match q.payload with
    | .load _ _ r | .loadRet _ _ r | .linkRet _ _ r =>
      ({ s with free := s.free + 1 }.affect q.region id).takeLink (BitVec.ofNat 64 q.used) a (Config.detail s.free) r
    | .engine w r o =>
      if r.isSome ∧ q.dst ≠ a ∧ (s.request? o).isSome = true then s else s.loseEngine w r o
    | .ms id => match s.request? id with
      | some r => s.losePart r
      | none => s
    | .ctl _ _ _ _ _ | .chanDone _ _ => s.loseTold q.pid q.id
    | .told pid ask _ => s.loseTold pid ask
    | .inWrite g _ | .inRead g _ _ | .uaBack g _ => if g / 2 = a then s else s.uaAnswer g .refused
    | .quit pid w => if q.dst = a then s else s.quitAt pid w
    | _ => s

/-- The ends of a channel that a process holds are lost. -/
def Channel.loseHeld (c : Channel) (pid : Nat) : Channel :=
  { c with tx := if c.tx.pid == some pid then c.tx.lose else c.tx, rx := if c.rx.pid == some pid then c.rx.lose else c.rx }

/-- A process on a removed die goes to EXITED; its ends go to ERROR (R334 step 5). -/
def State.loseProc (s : State) (p : Proc) : State :=
  let s := ((s.quitHomes p.pid fun _ => true).withdrawLoans p.pid).dropLoads p.pid
  let s : State := { s with packets := s.packets.filter fun (q : Packet) => q.payload != .move p.pid }
  let s := { s with channels := s.channels.map fun (c : Channel) => c.loseHeld p.pid }
  let p := (s.proc? p.pid).getD p
  s.leaveRunning { p with st := .exited, loc := .nowhere, wait := .none, done := none, fault := none, rsvs := [],
                          loans := [], ending := .dieLost, moving := none, streams := p.streams.map fun t => { t with bound := false } }

/-- A request that waits for a lost server raises LINK; one that waits for the end of a scene change ends with it (R276). -/
def State.failServerWaits (s : State) (a : Nat) : State :=
  s.allProcs.foldl (fun t p =>
    match p.wait with
    | .ms _ b name =>
      let n := entryServer p.core b name
      if p.isBlocked && b.far.isNone && serverDie n == a then
        { t with free := t.free + 1 }.wake p.pid (some (.cause .link (BitVec.ofNat 64 b.offset) (BitVec.ofNat 64 n)
          (Config.detail t.free)))
      else t
    | _ => t) s

/-- Notifications that wait on the cores of a removed die are lost (R57). -/
def State.loseRecords (s : State) (a : Nat) : State :=
  let s := (s.cores.filter fun k => dieOf k.id == a).foldl (fun t k =>
    (k.records.filter fun r => !r.held).foldl (fun u r => u.countLost r.region) t) s
  { s with cores := s.cores.filter fun k => dieOf k.id != a }

/-- The completion word of a request has reached its home, where it waits in a queue, or its home is lost with the die (R387).
-/
def State.wordArrived (s : State) (a : Nat) (r : MsReq) : Bool :=
  r.phase == .completing && (homeDie r.blk.compl == a || s.packets.any fun q => q.queued && (match q.payload with
    | .engine _ _ o => o == r.id
    | _ => false))

/-- What a removal does to the requests of memory servers (R266, R387): those whose front server is on the die and whose
completion word has not been written end with LINK, and so does the part of another that stands there. -/
def State.loseServers (s : State) (a : Nat) : State :=
  let s := (s.requests.filter fun r => r.frontDie == a && !s.wordArrived a r).foldl State.loseFront s
  (s.requests.filter fun r => r.frontDie != a && r.die == a && !r.travel).foldl State.losePart s

/-- The stage manager declares a die absent (R334). The masks change at the end of the reclock (R13). Two absent dies can cut
the array of R6, and what becomes of the traffic between the parts then the spec does not say: that it is still delivered
between all survivors is the model's choice (log 60). -/
def State.removeDie (s : State) (a : Nat) : State :=
  let there := s.allProcs.filter fun p => p.placed && dieOf p.core == a
  let s := { s with reclock := some { removed := [a], joining := [], phase := 4 }, affected := [],
                    packets := s.packets.map fun (q : Packet) => if s.lacks a q then { q with broken := true } else q }
  let s := there.foldl (fun t p => t.affect p.region id) s
  let s := s.loseServers a
  let lost (q : Packet) : Bool := (q.src == a && !q.queued) || q.dst == a
  let gone := s.packets.filter lost
  let s := { s with packets := s.packets.filter fun q => !lost q }
  let s := gone.foldl (fun t q => t.losePacket a q) s
  let s := s.failHomes a (Config.detail s.free) true fun t r => { t.affect r id with free := t.free + 1 }
  let s := there.foldl State.loseProc s
  let s := (s.emptyHomes a).endTransfers a
  let s := s.allProcs.foldl State.reanchor s
  let s := (s.loseGroup (2 * a)).loseGroup (2 * a + 1)
  let s := (s.failServerWaits a).loseRecords a
  let s := { s with barriers := s.barriers.filter fun b => b.die != a,
                    flits := s.flits.filter fun f => f.src != a && f.dst != a }
  (s.modDie a fun d => { d with lock := none, lockQ := [], wiped := false, uncoreReset := false }).settleAll

/-! Reclocks (R336) -/

/-- Every pair of present dies agrees on what has been sent and delivered (R336 step 3). -/
def State.reclockDrained (s : State) : Bool :=
  s.domain.all fun d => s.domain.all fun e => d == e || (s.die e).deliv d == (s.die d).knows d e

/-- Bits of a die in the masks of `%pkgcfg` (R13). -/
def Pkg.setDie (k : Pkg) (a : Nat) (on : Bool) : Pkg :=
  let two : BitVec 16 := BitVec.ofNat 16 (3 * 2 ^ (2 * a))
  let one : BitVec 8 := BitVec.ofNat 8 (2 ^ a)
  if on then { k with dieMask := k.dieMask ||| one, stackMask := k.stackMask ||| two, edgeMask := k.edgeMask ||| two }
  else { k with dieMask := k.dieMask &&& ~~~one, stackMask := k.stackMask &&& ~~~two, edgeMask := k.edgeMask &&& ~~~two }

/-- The stacks of a re-admitted die hold nothing (R337). -/
def State.wipeStacks (s : State) (a : Nat) : State :=
  { s with hbm := s.hbm.filter fun c => c.1 / 2 ^ 40 / 2 != a
           hbmMarks := s.hbmMarks.filter fun g => g / 2 ^ 40 / 2 != a }

/-- The CAUSAL notification of an affected region (R335). -/
def State.reportAffected (s : State) (f : Affected) : State :=
  s.notifyManager .causal f.region 0 (BitVec.ofNat 64 f.addr) (BitVec.ofNat 64 (f.die + f.lost * 2 ^ 32))
    (BitVec.ofNat 64 f.broken)

/-- The phase that follows in a reclock (R336); the drain is complete when every packet has been delivered. -/
def State.nextPhase (s : State) (r : Reclock) : Option Nat :=
  match r.phase with
  | 4 => some 1
  | 1 => some 2
  | 2 => if s.reclockDrained then some 3 else some 2
  | _ => none

/-- RECLOCK_END (R336, R13, R335): the reclock goes through its steps; at the end of the last the causal state of every present
die is zeroed, the masks change, the affected regions are told, and the command that waited completes. -/
def execReclockEnd (s : State) : Out :=
  match s.reclock with
  | none => .next s
  | some r =>
    match s.nextPhase r with
    | some k => .next { s with reclock := some { r with phase := k } }
    | none =>
      let pkg := r.joining.foldl (fun k a => k.setDie a true) (r.removed.foldl (fun k a => k.setDie a false) s.pkg)
      let s := r.joining.foldl State.wipeStacks s
      let s := { s with pkg := pkg, reclock := none, flits := [],
                        dies := s.dies.map fun (d : Die) =>
                          if pkg.dieMask.getLsbD d.num then { d.zeroCausal with reclocks := min (d.reclocks + 1) 255 } else d }
      let s := s.affected.foldl State.reportAffected { s with affected := [] }
      let s := s.completeWhere fun p => match p with
        | .removal a => r.removed.contains a
        | .admission a => r.joining.contains a
        | _ => false
      .next s

/-- A die may be re-admitted (R337, R383): absent, both domains reset and wiped. -/
def State.joinable (s : State) (a : Nat) : Bool :=
  !s.pkg.dieMask.getLsbD a && (s.die a).uncoreReset && (s.die a).wiped && !(s.die a).coreReset

/-- The reclock of re-admission starts (R337). -/
def State.admitDie (s : State) (a : Nat) : State := { s with reclock := some { removed := [], joining := [a] } }

/-! Reset domains (R337, R338) -/

/-- The cores of a die after a reset hold their reset values; notifications that wait stay (R338 step 6). -/
def State.resetCores (s : State) (a : Nat) : State :=
  let ks := s.cores.map fun (k : Core) => if dieOf k.id = a then ({ id := k.id, records := k.records } : Core) else k
  { s with cores := ks.filter fun k => k != { id := k.id } }

/-- CORE_DOMAIN_RESET (R338): the work on the die ends, and the domain enters reset. -/
def execCoreDomainReset (s : State) : Out :=
  let a := Subject.num s.subj
  if 8 ≤ a ∨ (s.die a).coreReset = true then .next s
  else
    let there := s.allProcs.filter fun p => p.placed && dieOf p.core == a
    let anchored := s.channels.filter fun c => (s.anchor c).any fun k => dieOf k == a
    let local_ (q : Packet) : Bool := q.src == a && q.dst == a && (q.path == .own || q.path == .mesh) && q.core < 8192
    let s := { s with packets := s.packets.filter fun q => !local_ q }
    let s := there.foldl (fun t p => t.exitProc p.pid .dieLost) s
    let s := (s.failHomes a 1 false fun t _ => t).emptyHomes a
    let s := anchored.foldl (fun t c => t.modChan c.table c.name Channel.discard) s
    let s := { s with requests := s.requests.map fun (r : MsReq) =>
      if r.op.usesLocal && homeDie r.blk.loc == a then r.fail .link true else r }
    let s := s.modDie a fun d => { d with coreReset := true, wiped := false }
    let s := ((s.endTransfers a).allProcs.foldl State.reanchor (s.endTransfers a)).settleAll
    let s := { s with barriers := s.barriers.filter fun b => b.die != a }
    let count (r : Nat) : Nat := (there.filter fun p => p.region == r).length
    .next ((there.map (·.region)).eraseDups.foldl (fun t r =>
      t.notifyManager .link r 0 0 (BitVec.ofNat 64 (a + min (count r) (2 ^ 32 - 1) * 2 ^ 32)) 2) s)

/-- A die's local memories, green rooms and loft hold nothing (R380). -/
def State.wipeDie (s : State) (a : Nat) : State :=
  { s with mem := s.mem.filter fun c => homeDie c.1 != a
           empty := s.empty.filter fun w => homeDie w != a
           marks := s.marks.filter fun w => homeDie w != a
           latent := s.latent.filter fun w => homeDie w != a
           placed := s.placed.filter fun b => dieOf b.core != a
           loaderWins := s.loaderWins.filter fun l => dieOf l.core != a }

/-- CORE_DOMAIN_RESET_END (R337, R380). -/
def execCoreDomainResetEnd (s : State) : Out :=
  let a := Subject.num s.subj
  if (s.die a).coreReset then
    .next (((s.emptyHomes a).wipeDie a).resetCores a |>.modDie a fun d =>
      { d with coreReset := false, wiped := true, cycle := 0, sub := 0 })
  else .next s

/-- UNCORE_RESET (R337): of a die that has been declared absent, and a reclock follows (R336). -/
def execUncoreReset (s : State) : Out :=
  let a := Subject.num s.subj
  if 8 ≤ a ∨ s.pkg.dieMask.getLsbD a = true ∨ s.reclock.isSome = true then .next s
  else
    let s := s.modDie a fun d => { d.zeroCausal with uncoreReset := true, reclocks := 0 }
    .next { s with reclock := some { removed := [], joining := [] } }

end Sys2Proof.Machine
end

