-- ==== Sys2Proof/Machine/Crypto.lean ====
section
/-! DEFINITION. SHA-256 (R89, R379) and ECDSA verification on P-256 (R379), as their public standards give them (PRESUMED:
the spec names them and states no more, log 10). -/

namespace Sys2Proof.Machine

/-! SHA-256 -/

/-- A word of the hash. -/
abbrev W32 := BitVec 32

/-- The primes among the next numbers from k on, with those found so far. -/
def primesFrom : Nat → Nat → List Nat → List Nat
  | 0, _, found => found
  | fuel + 1, k, found => primesFrom fuel (k + 1) (if found.any fun p => k % p == 0 then found else found ++ [k])

/-- The first 64 primes, of which 311 is the last. -/
def shaPrimes : List Nat := primesFrom 310 2 []

/-- The largest number of so many bits that a test lets through, bit by bit from the top. -/
def largest (test : Nat → Bool) : Nat → Nat → Nat
  | 0, r => r
  | bits + 1, r => largest test bits (if test (r + 2 ^ bits) then r + 2 ^ bits else r)

/-- The first 32 bits behind the point of the k-th root of a number below 512. -/
def rootFraction (k p : Nat) : W32 := BitVec.ofNat 32 (largest (fun r => decide (r ^ k ≤ p * 2 ^ (32 * k))) 37 0)

/-- The constants of the 64 rounds: cube roots of the first 64 primes. -/
def shaK : List W32 := shaPrimes.map (rootFraction 3)

/-- The eight words that the hash starts from: square roots of the first eight primes. -/
def shaInit : List W32 := (shaPrimes.take 8).map (rootFraction 2)

/-- The next word of the schedule from the 16 before it, oldest first. -/
def shaNext (w : List W32) : W32 :=
  let a := w.getD 14 0
  let b := w.getD 1 0
  (a.rotateRight 17 ^^^ a.rotateRight 19 ^^^ (a >>> 10)) + w.getD 9 0 +
    (b.rotateRight 7 ^^^ b.rotateRight 18 ^^^ (b >>> 3)) + w.getD 0 0

/-- One round on the eight working words. -/
def shaRound (v : List W32) (k w : W32) : List W32 :=
  let a := v.getD 0 0
  let b := v.getD 1 0
  let c := v.getD 2 0
  let e := v.getD 4 0
  let t1 := v.getD 7 0 + (e.rotateRight 6 ^^^ e.rotateRight 11 ^^^ e.rotateRight 25) +
    ((e &&& v.getD 5 0) ^^^ (~~~e &&& v.getD 6 0)) + k + w
  let t2 := (a.rotateRight 2 ^^^ a.rotateRight 13 ^^^ a.rotateRight 22) + ((a &&& b) ^^^ (a &&& c) ^^^ (b &&& c))
  [t1 + t2, a, b, c, v.getD 3 0 + t1, e, v.getD 5 0, v.getD 6 0]

/-- The rounds of a block: working words and the 16 schedule words that come next. -/
def shaRounds : List W32 → List W32 → List W32 → List W32
  | [], v, _ => v
  | k :: ks, v, w => shaRounds ks (shaRound v k (w.headD 0)) (w.tail ++ [shaNext w])

/-- A big-endian number. -/
def beNat (bs : List Byte) : Nat := bs.foldl (fun n b => n * 256 + b.toNat) 0

/-- The low n bytes of a number, big-endian. -/
def beBytes (v : Nat) : Nat → List Byte
  | 0 => []
  | n + 1 => BitVec.ofNat 8 (v / 256 ^ n) :: beBytes v n

/-- The sixteen words of a block. -/
def shaWords (bs : List Byte) : List W32 := (List.range 16).map fun i => BitVec.ofNat 32 (beNat ((bs.drop (4 * i)).take 4))

/-- One block joins the hash. -/
def shaBlock (h : List W32) (bs : List Byte) : List W32 := List.zipWith (· + ·) h (shaRounds shaK h (shaWords bs))

/-- The blocks of a padded message. -/
def shaBlocks : Nat → List W32 → List Byte → List W32
  | 0, h, _ => h
  | n + 1, h, bs => shaBlocks n (shaBlock h (bs.take 64)) (bs.drop 64)

/-- SHA-256 as a 256-bit number, big-endian. -/
def sha256 (m : List Byte) : Nat :=
  let pad := m ++ [0x80] ++ List.replicate ((119 - m.length % 64) % 64) 0 ++ beBytes (8 * m.length) 8
  (shaBlocks (pad.length / 64) shaInit pad).foldl (fun n w => n * 2 ^ 32 + w.toNat) 0

/-! ECDSA on P-256 -/

/-- The field, the group order, and the curve's constant and base point. -/
def pP : Nat := 0xFFFFFFFF00000001000000000000000000000000FFFFFFFFFFFFFFFFFFFFFFFF
def pN : Nat := 0xFFFFFFFF00000000FFFFFFFFFFFFFFFFBCE6FAADA7179E84F3B9CAC2FC632551
def pB : Nat := 0x5AC635D8AA3A93E7B3EBBD55769886BC651D06B0CC53B0F63BCE3C3E27D2604B
def pG : Nat × Nat := (0x6B17D1F2E12C4247F8BCE6E563A440F277037D812DEB33A0F4A13945D898C296,
  0x4FE342E2FE1A7F9B8EE7EB4A7C0F9E162BCE33576B315ECECBB6406837BF51F5)

/-- a ^ e modulo m, over the low bits of e. -/
def powMod (a e m : Nat) : Nat → Nat
  | 0 => 1 % m
  | n + 1 =>
    let h := powMod a (e / 2) m n
    if e % 2 = 1 then h * h % m * a % m else h * h % m

/-- The inverse modulo a prime of at most 256 bits. -/
def invMod (a m : Nat) : Nat := powMod a (m - 2) m 256

/-- A point of the curve; none is the neutral one. -/
abbrev Point := Option (Nat × Nat)

/-- Adds points. -/
def Point.add (p q : Point) : Point :=
  match p, q with
  | none, q => q
  | p, none => p
  | some (x, y), some (u, v) =>
    if x = u ∧ (y + v) % pP = 0 then none
    else
      let l := if x = u then (3 * x * x + (pP - 3)) * invMod (2 * y % pP) pP % pP
        else (v + pP - y) * invMod ((u + pP - x) % pP) pP % pP
      let z := (l * l + 2 * pP - x - u) % pP
      some (z, (l * (x + pP - z) + pP - y) % pP)

/-- k times a point, over the low bits of k. -/
def Point.mul (k : Nat) (p : Point) : Nat → Point
  | 0 => none
  | n + 1 =>
    let h := Point.mul (k / 2) p n
    let d := h.add h
    if k % 2 = 1 then d.add p else d

/-- A point of the curve given by its coordinates. -/
def onCurve (x y : Nat) : Bool :=
  decide (x < pP) && decide (y < pP) && y * y % pP == (x * x % pP * x + (pP - 3) * x + pB) % pP

/-- A signature (r, s) of a message verifies under a key. -/
def ecdsaOk (keyX keyY r sg : Nat) (m : List Byte) : Bool :=
  if r = 0 ∨ pN ≤ r ∨ sg = 0 ∨ pN ≤ sg ∨ onCurve keyX keyY = false then false
  else
    let w := invMod sg pN
    let a := Point.mul (sha256 m * w % pN) (some pG) 256
    let b := Point.mul (r * w % pN) (some (keyX, keyY)) 256
    match a.add b with
    | none => false
    | some (x, _) => x % pN == r

/-- The signature (r, s) of a message under a private key, with the secret number k. -/
def ecdsaSign (key k : Nat) (m : List Byte) : Nat × Nat :=
  let r := match Point.mul k (some pG) 256 with
    | some (x, _) => x % pN
    | none => 0
  (r, invMod k pN * (sha256 m + r * key) % pN)

end Sys2Proof.Machine
end

