-- ==== Sys2Proof/Machine/Books.lean ====
section
/-! DEFINITION. Prompt books: their layout (R89–R96) and the checks of R97. -/

namespace Sys2Proof.Machine

/-! Layout -/

/-- The n bytes at an offset of a book, little-endian (R15). -/
def bookAt (b : List Byte) (off n : Nat) : Nat := ofBytes ((b.drop off).take n)

/-- A section entry (R90) and where it stands. -/
structure Sect where
  at_ : Nat
  typ : Nat
  zero : Nat
  count : Nat
  off : Nat
  size : Nat
deriving DecidableEq, Repr

/-- Sections of a book. -/
def sectCount (b : List Byte) : Nat := bookAt b 0x0C 2

/-- Section entry k. -/
def sectAt (b : List Byte) (k : Nat) : Sect :=
  let a := 0x40 + 16 * k
  { at_ := a, typ := bookAt b a 2, zero := bookAt b (a + 2) 2, count := bookAt b (a + 4) 4, off := bookAt b (a + 8) 4,
    size := bookAt b (a + 12) 4 }

/-- The section entries. -/
def sects (b : List Byte) : List Sect := (List.range (sectCount b)).map (sectAt b)

/-- The section of a type; an empty one where the book has none (R99). -/
def sectOf (b : List Byte) (t : Nat) : Sect :=
  match (sects b).find? (·.typ == t) with
  | some x => x
  | none => { at_ := 0, typ := t, zero := 0, count := 0, off := 0, size := 0 }

/-- Item size of a section type (Table 3.13). -/
def itemSize (t : Nat) : Nat := [0, 48, 1, 1, 32, 16, 24, 32, 8, 32, 1].getD t 1

/-- Offsets of the items of a section. -/
def itemsOf (b : List Byte) (t : Nat) : List Nat :=
  (List.range (sectOf b t).count).map fun i => (sectOf b t).off + itemSize t * i

/-- A process header (Table 3.14). -/
structure BookRole where
  at_ : Nat
  name : Nat
  region : Nat
  ctx : Nat
  nreg : Nat
  priv : Nat
  prio : Nat
  entry : Nat
  textOff : Nat
  textLen : Nat
  dataOff : Nat
  dataLen : Nat
  stack : Nat
  period : Nat
  budget : Nat
deriving DecidableEq, Repr

/-- Reads a process header. -/
def roleAt (b : List Byte) (a : Nat) : BookRole :=
  { at_ := a, name := bookAt b a 4, region := bookAt b (a + 4) 2, ctx := bookAt b (a + 6) 1, nreg := bookAt b (a + 7) 1,
    priv := bookAt b (a + 8) 1, prio := bookAt b (a + 9) 1, entry := bookAt b (a + 0x0C) 4,
    textOff := bookAt b (a + 0x10) 4, textLen := bookAt b (a + 0x14) 4, dataOff := bookAt b (a + 0x18) 4,
    dataLen := bookAt b (a + 0x1C) 4, stack := bookAt b (a + 0x20) 4, period := bookAt b (a + 0x28) 4,
    budget := bookAt b (a + 0x2C) 4 }

/-- The roles. -/
def rolesOf (b : List Byte) : List BookRole := (itemsOf b 1).map (roleAt b)

/-- A region item (Table 3.15). -/
structure BookRegion where
  at_ : Nat
  name : Nat
  parent : Nat
  ovr : BitVec 8
  ceil : Nat
  fdepth : Nat
  corebud : Nat
  grbud : Nat
  plto : Nat
  faultch : Nat
  replych : Nat
deriving DecidableEq, Repr

/-- Reads a region item. -/
def regionItemAt (b : List Byte) (a : Nat) : BookRegion :=
  { at_ := a, name := bookAt b a 4, parent := bookAt b (a + 4) 2, ovr := BitVec.ofNat 8 (bookAt b (a + 6) 1),
    ceil := bookAt b (a + 7) 1, fdepth := bookAt b (a + 8) 1, corebud := bookAt b (a + 0x0A) 2,
    grbud := bookAt b (a + 0x0C) 4, plto := bookAt b (a + 0x10) 4, faultch := bookAt b (a + 0x14) 4,
    replych := bookAt b (a + 0x18) 4 }

/-- The region items. -/
def regionItems (b : List Byte) : List BookRegion := (itemsOf b 4).map (regionItemAt b)

/-- A casting item (R93). -/
structure BookCast where
  at_ : Nat
  role : Nat
  group : Nat
  count : Nat
  die : Nat
  clus : Nat
  first : Nat
  last : Nat
deriving DecidableEq, Repr

/-- Reads a casting item. -/
def castAt (b : List Byte) (a : Nat) : BookCast :=
  { at_ := a, role := bookAt b a 2, group := bookAt b (a + 2) 2, count := bookAt b (a + 4) 2, die := bookAt b (a + 6) 1,
    clus := bookAt b (a + 7) 1, first := bookAt b (a + 8) 1, last := bookAt b (a + 9) 1 }

/-- The casting table. -/
def castsOf (b : List Byte) : List BookCast := (itemsOf b 5).map (castAt b)

/-- A wiring item (R93). -/
structure BookWire where
  at_ : Nat
  label : Nat
  name : Nat
  count : Nat
  kind : Nat
  mode : Nat
  words : Nat
  depth : Nat
  region : Nat
  tx : Nat
  rx : Nat
deriving DecidableEq, Repr

/-- Reads a wiring item. -/
def wireAt (b : List Byte) (a : Nat) : BookWire :=
  { at_ := a, label := bookAt b a 4, name := bookAt b (a + 4) 4, count := bookAt b (a + 8) 2, kind := bookAt b (a + 10) 1,
    mode := bookAt b (a + 11) 1, words := bookAt b (a + 12) 1, depth := bookAt b (a + 13) 1, region := bookAt b (a + 14) 2,
    tx := bookAt b (a + 16) 2, rx := bookAt b (a + 18) 2 }

/-- The wiring section. -/
def wiresOf (b : List Byte) : List BookWire := (itemsOf b 6).map (wireAt b)

/-- A segment item (R94). -/
structure BookSeg where
  at_ : Nat
  name : Nat
  region : Nat
  flags : Nat
  size : Nat
deriving DecidableEq, Repr

/-- Reads a segment item. -/
def segItemAt (b : List Byte) (a : Nat) : BookSeg :=
  { at_ := a, name := bookAt b a 4, region := bookAt b (a + 4) 2, flags := bookAt b (a + 6) 2, size := bookAt b (a + 8) 8 }

/-- The segment items. -/
def segItems (b : List Byte) : List BookSeg := (itemsOf b 7).map (segItemAt b)

/-- A boot-tree item (R95). -/
structure BookTree where
  at_ : Nat
  die : Nat
  clus : Nat
  root : Nat
  fanout : Nat
deriving DecidableEq, Repr

/-- Reads a boot-tree item. -/
def treeAt (b : List Byte) (a : Nat) : BookTree :=
  { at_ := a, die := bookAt b a 1, clus := bookAt b (a + 1) 1, root := bookAt b (a + 2) 1, fanout := bookAt b (a + 3) 1 }

/-- The boot tree. -/
def treesOf (b : List Byte) : List BookTree := (itemsOf b 8).map (treeAt b)

/-- A command item (Table 23.1). -/
structure CmdItem where
  op : Nat
  queue : Nat
  postsem : BitVec 16
  postadd : BitVec 32
  a0 : Word
  a1 : Word
  a2 : Word
deriving DecidableEq, Repr

/-- Reads a command item. -/
def cmdAt (b : List Byte) (a : Nat) : CmdItem :=
  { op := bookAt b a 1, queue := bookAt b (a + 1) 1, postsem := BitVec.ofNat 16 (bookAt b (a + 2) 2),
    postadd := BitVec.ofNat 32 (bookAt b (a + 4) 4), a0 := BitVec.ofNat 64 (bookAt b (a + 8) 8),
    a1 := BitVec.ofNat 64 (bookAt b (a + 16) 8), a2 := BitVec.ofNat 64 (bookAt b (a + 24) 8) }

/-- The commands section: offsets and items in source order. -/
def cmdsOf (b : List Byte) : List (Nat × CmdItem) := (itemsOf b 9).map fun a => (a, cmdAt b a)

/-! Instances (R88) -/

/-- An instance of a role: its number, group, position of its line, and core. -/
structure Inst where
  role : Nat
  num : Nat
  group : Nat
  core : Nat
deriving DecidableEq, Repr

/-- The instances of the lines of a casting table, numbered from n. -/
def castInsts : Nat → List BookCast → List Inst
  | _, [] => []
  | n, c :: cs =>
    ((List.range c.count).map fun j =>
      { role := c.role, num := n + j, group := c.group, core := coreOf c.die c.clus (c.first + j % (c.last - c.first + 1)) }) ++
      castInsts (n + c.count) cs

/-- The instances of a role. -/
def instsOf (b : List Byte) (role : Nat) : List Inst := castInsts 0 ((castsOf b).filter (·.role == role))

/-- A region item and those above it, nearest first. -/
def itemPath (rs : List BookRegion) : Nat → Nat → List Nat
  | 0, _ => []
  | fuel + 1, i =>
    match rs[i]? with
    | none => []
    | some r => i :: itemPath rs fuel r.parent

/-- Region item i lies in the subtree of item top. -/
def itemUnder (rs : List BookRegion) (top i : Nat) : Bool := (itemPath rs rs.length i).contains top

/-! Checks (R97) -/

/-- A failing check: the offset of the item and the code. -/
abbrev BookFault := Nat × Nat

/-- A check that holds or fails for an item. -/
def need (at_ code : Nat) (ok : Bool) : List BookFault := if ok then [] else [(at_, code)]

/-- The book header (R89): the book lies in the bytes of the command. -/
def headerFaults (b : List Byte) : List BookFault :=
  let name := (b.drop 0x10).take 16
  let text := name.takeWhile (· != 0)
  need 0 1 (decide (64 ≤ b.length) && bookAt b 0 4 == 0x42504C45 && bookAt b 4 2 == 1) ++
    need 0 4 (bookAt b 6 2 == 0 && bookAt b 0x0E 2 == 0 && bookAt b 8 4 % 8 == 0 && decide (64 ≤ bookAt b 8 4) &&
      decide (bookAt b 8 4 ≤ b.length) && decide (text.length ≤ 15) && text.all (fun c => decide (c.toNat < 128)) &&
      (name.drop text.length).all (· == 0))

/-- The hash (R89). -/
def hashFaults (b : List Byte) : List BookFault :=
  need 0 2 (beNat ((b.drop 0x20).take 32) == sha256 (b.drop 0x40))

/-- Two ranges have a byte in common. -/
def overlaps (a n c m : Nat) : Bool := decide (a < c + m) && decide (c < a + n) && n != 0 && m != 0

/-- The section table (R90). -/
def sectFaults (b : List Byte) : List BookFault :=
  let ss := sects b
  let start := 0x40 + 16 * ss.length
  need 0x40 3 (decide (start ≤ b.length)) ++
    ss.zipIdx.flatMap fun x =>
      let e := x.1
      let before := ss.take x.2
      need e.at_ 3 (e.zero == 0 && e.off % 8 == 0 && decide (start ≤ e.off) && decide (e.off + e.size ≤ b.length) &&
        !(before.any fun f => overlaps f.off f.size e.off e.size) &&
        (decide (0x8000 ≤ e.typ) ||
          (decide (1 ≤ e.typ) && decide (e.typ ≤ 10) && !(before.any (·.typ == e.typ)) &&
            e.size == e.count * itemSize e.typ)))

/-- A name: an offset of a string of the strings section (R96). -/
def nameOk (b : List Byte) (off : Nat) : Bool := decide (off < (sectOf b 10).size) || off == 0

/-- The strings section (R96). -/
def stringFaults (b : List Byte) : List BookFault :=
  let e := sectOf b 10
  let str := (b.drop e.off).take e.size
  need e.off 6 (str.all (fun c => decide (c.toNat < 128)) && (str.isEmpty || (str.head? == some 0 && str.getLast? == some 0)))

/-- A process header (R91, R41). Which code of R97 a check on a name has is the model's choice: a NAMEOFF outside the strings
section is a String fault (log 67). -/
def roleFaults (b : List Byte) (r : BookRole) : List BookFault :=
  need r.at_ 4 (decide (r.ctx ≤ 2) && decide (r.priv ≤ 1) && decide (r.prio ≤ 3) && r.entry % 2 == 0 &&
      r.textLen % 2 == 0 && r.stack % 16 == 0 && bookAt b (r.at_ + 0x0A) 2 == 0 && bookAt b (r.at_ + 0x24) 4 == 0 &&
      (if r.prio = 0 then paramsOk r.period r.budget else r.period == 0 && r.budget == 0)) ++
    need r.at_ 5 (decide (r.region < (sectOf b 4).count) && decide (r.textOff + r.textLen ≤ (sectOf b 2).size) &&
      decide (r.dataOff + r.dataLen ≤ (sectOf b 3).size) && decide (r.entry < max r.textLen 1)) ++
    need r.at_ 6 (nameOk b r.name)

/-- A fault or reply channel of a region item (R85, R92). -/
def endpointOk (b : List Byte) (k words : Nat) : Bool :=
  k == 0xFFFFFFFF || (match (wiresOf b)[k]? with
    | some w => w.kind == 0 && w.mode == 1 && w.words == words && w.count == 1
    | none => false)

/-- A region item (R92). DESIGN CHOICE (log 63, unsafe): a COREBUD of 2^14 or more that OVR bit 1 takes fails check 4,
since RCB bits 13:0 cannot hold it; Table 3.15 gives the field no range. -/
def regionFaults (b : List Byte) (i : Nat) (r : BookRegion) : List BookFault :=
  let on (k : Nat) : Bool := r.ovr.getLsbD k
  need r.at_ 4 ((!on 0 || decide (r.ceil ≤ 3)) && (!on 3 || decide (r.fdepth ≤ 64)) &&
      (!on 1 || decide (r.corebud < 2 ^ 14)) &&
      on 4 == (segItems b).any (·.region == i) && on 5 == (wiresOf b).any (·.region == i) && !on 6 &&
      bookAt b (r.at_ + 9) 1 == 0 && bookAt b (r.at_ + 0x1C) 4 == 0) ++
    need r.at_ 5 ((r.parent == 0xFFFF || decide (r.parent < i)) &&
      (!on 3 || (endpointOk b r.faultch 8 && endpointOk b r.replych 2))) ++
    need r.at_ 6 (nameOk b r.name)

/-- A casting item (R93). -/
def castFaults (b : List Byte) (c : BookCast) : List BookFault :=
  need c.at_ 4 (decide (c.group ≤ 4095) && decide (1 ≤ c.count) && decide (c.die ≤ 7) && decide (c.clus ≤ 3) &&
      decide (c.first ≤ c.last) && bookAt b (c.at_ + 10) 6 == 0) ++
    need c.at_ 5 (decide (c.role < (sectOf b 1).count))

/-- A role that an end names: its instances are as many as the channels, its region lies in the channels' (R86). -/
def boundRoleOk (b : List Byte) (w : BookWire) (r : Nat) : Bool :=
  r == 0xFFFF || (match (rolesOf b)[r]? with
    | some x => (instsOf b r).length == w.count && itemUnder (regionItems b) w.region x.region
    | none => false)

/-- The first name that a wiring item takes: one past those of the items before it in its region (R85). -/
def wireStart (ws : List BookWire) (w : BookWire) : Nat :=
  (ws.filter (·.region == w.region)).foldl (fun n x => n + x.count) 1

/-- A wiring item (R85, R93). -/
def wireFaults (b : List Byte) (k : Nat) (w : BookWire) : List BookFault :=
  need w.at_ 4 (decide (1 ≤ w.count) && w.name == wireStart ((wiresOf b).take k) w &&
      decide (w.name + w.count - 1 ≤ 0xFFFFFF) && decide (w.mode ≤ 1) && decide (w.kind ≤ 1) &&
      (if w.kind = 0 then decide (1 ≤ w.words) && decide (w.words ≤ 8) && (w.mode == 1) == (w.depth != 0)
       else w.words == 0 && w.mode == 0 && w.depth == 0) && bookAt b (w.at_ + 20) 4 == 0) ++
    need w.at_ 5 (decide (w.region < (sectOf b 4).count) && boundRoleOk b w w.tx && boundRoleOk b w w.rx) ++
    need w.at_ 6 (nameOk b w.label)

/-- A segment item (R94). -/
def segFaults (b : List Byte) (g : BookSeg) : List BookFault :=
  need g.at_ 4 (g.flags / 256 == 0 && g.flags / 4 % 4 == 0 && (g.flags / 2 % 2 == 1 || g.flags / 16 % 16 == 0) &&
      g.size != 0 && g.size % 2 ^ 21 == 0 && bookAt b (g.at_ + 16) 8 == 0 && bookAt b (g.at_ + 24) 8 == 0) ++
    need g.at_ 5 (decide (g.region < (sectOf b 4).count)) ++ need g.at_ 6 (nameOk b g.name)

/-- Every instance of the book. -/
def allInsts (b : List Byte) : List Inst := (List.range (sectOf b 1).count).flatMap (instsOf b)

/-- A boot-tree item (R95): ROOT is a core of the cluster that receives an instance. -/
def treeFaults (b : List Byte) (t : BookTree) : List BookFault :=
  need t.at_ 4 (decide (t.die ≤ 7) && decide (t.clus ≤ 3) && (t.fanout == 1 || t.fanout == 2 || t.fanout == 4) &&
      bookAt b (t.at_ + 4) 4 == 0) ++
    need t.at_ 5 ((allInsts b).any (·.core == coreOf t.die t.clus t.root))

/-- A command item (Table 23.1). -/
def cmdFaults (x : Nat × CmdItem) : List BookFault := need x.1 4 (decide (x.2.queue ≤ 31))

/-- The failing check with the lowest offset; of several that one item fails, the one with the lowest code, which is the model's
choice (log 67). -/
def firstBookFault : List BookFault → Option BookFault
  | [] => none
  | x :: xs => some (xs.foldl (fun m y => if y.1 < m.1 then y else m) x)

/-- The faults of the items of every section. -/
def itemFaults (b : List Byte) : List BookFault :=
  (rolesOf b).flatMap (roleFaults b) ++ ((regionItems b).zipIdx.flatMap fun x => regionFaults b x.2 x.1) ++
    (castsOf b).flatMap (castFaults b) ++ ((wiresOf b).zipIdx.flatMap fun x => wireFaults b x.2 x.1) ++
    (segItems b).flatMap (segFaults b) ++ (treesOf b).flatMap (treeFaults b) ++ (cmdsOf b).flatMap cmdFaults ++
    stringFaults b

/-- The book that begins the bytes of a LOAD: LENGTH of them. -/
def bookIn (bs : List Byte) : List Byte := bs.take (bookAt bs 8 4)

/-- The check that refuses a book (R97): the header, the hash, the section table, then the first failing item. -/
def bookFault (bs : List Byte) : Option BookFault :=
  (firstBookFault (headerFaults bs)).orElse fun _ =>
    (firstBookFault (hashFaults (bookIn bs))).orElse fun _ =>
      (firstBookFault (sectFaults (bookIn bs))).orElse fun _ => firstBookFault (itemFaults (bookIn bs))

/-- A role is deferred: a `launch` item of the book names it (R385). -/
def deferred (b : List Byte) (role : Nat) : Bool :=
  (cmdsOf b).any fun x => x.2.op == 2 && x.2.a1.toNat == role

end Sys2Proof.Machine
end

