-- ==== Sys2Proof/Machine/Loader.lean ====
section
/-! DEFINITION. What the stage manager's commands do outside the processes: window tables, pinned pages, loft and local
room for books and images, regions of a book, endpoints of flows and host queues. -/

namespace Sys2Proof.Machine

/-! Stage-manager writes (R232 slot 6) -/

/-- Bytes written by the stage manager for a command (`owner`) and its region, word by word. The bit of a word stays as it is; a whole granule
loses its mark, or takes the one that the bytes were read with (R112). A write into another die than die 0 is a stamped packet
(Table 19.1). -/
def State.smBytes (s : State) (owner region a : Nat) : Nat → List MByte → State
  | 0, _ => s
  | fuel + 1, bs =>
    if bs.isEmpty then s
    else
      let w := bs.take (8 - a % 8)
      State.smBytes (s.engineWrite 0 { addr := a, n := w.length, val := ofBytes (w.map (·.1)), fe := none,
                                       mark := w.any (·.2) } none region owner) owner region (a + w.length) fuel (bs.drop w.length)

/-- One write of the stage manager of any length, for a command and its region (R335). -/
def State.smWrite (s : State) (owner region a : Nat) (bs : List MByte) : State := s.smBytes owner region a (bs.length + 1) bs

/-- An image for a core (R95): the stage manager writes it into the first core of a cluster; the one of another core goes there
by way of the core `via` that passes it on. -/
def State.imageWrite (s : State) (owner region : Nat) (via : Option Nat) (a : Nat) (bs : List Byte) : State :=
  match via with
  | none => s.smWrite owner region a (bs.map fun b => (b, false))
  | some c =>
    let (id, s) := s.freshId
    ({ s with packets := s.packets ++
        [{ id := id, core := 8192, pid := 0, region := region, src := 0, dst := dieOf c, pc := 0, used := 0, n := 0,
           path := if dieOf c = 0 then .mesh else .fabric, kind := .reply, payload := .forward a bs c owner }] } : State).stampAll 0

/-- Bytes without an error. -/
def goodBytes (bs : List Byte) : List MByte := bs.map fun b => (b, false)

/-! Window tables (R227, R228, R230) -/

/-- Row of Table 13.1 of an address. -/
def rowOf (a : Nat) : Nat :=
  if a < 0x60000 then 0 else if a < 0x2000000000 then 1 else if a < 0x4000000000 then 2 else if a < 0x8000000000 then 3
  else if a < 0xC000000000 then 4 else 5

/-- An entry as a table's four words give it (Table 13.2). -/
def winOf (w0 w1 w2 : Nat) : WinEntry :=
  { base := w0 % 2 ^ 40, limit := w1 % 2 ^ 40, rd := w2 % 2 == 1, wr := w2 / 2 % 2 == 1, ex := w2 / 4 % 2 == 1,
    die := w2 / 256 % 8, clus := w2 / 4096 % 4, cfirst := w2 / 65536 % 256, clast := w2 / 2 ^ 24 % 256,
    all := w2 / 2 ^ 32 % 2 == 1 }

/-- The lowest park area among the cores that an entry applies to (R27, R388). -/
def State.parkFloor (s : State) (w : WinEntry) : Nat :=
  (s.cores.filter fun k => w.applies k.id).foldl (fun n k => min n (s.parkStart k.id)) 0x50000

/-- R228 lets an entry through. -/
def State.winOk (s : State) (w0 w1 w2 w3 : Nat) : Bool :=
  let w := winOf w0 w1 w2
  let r := rowOf w.base
  decide (w0 < 2 ^ 40) && decide (w1 < 2 ^ 40) && zeroBut (BitVec.ofNat 64 w2) 0x1FFFF3707 && w3 == 0 &&
    decide (w.base ≤ w.limit) && rowOf w.limit == r && (w.all || decide (w.cfirst ≤ w.clast)) &&
    (match r with
      | 0 => decide (w.limit < s.parkFloor w)
      | 2 => !w.ex
      | 3 | 4 => s.addressable w.base && s.addressable w.limit && homeOf w.base == homeOf w.limit
      | _ => false)

/-- The words of an entry of a table. -/
def State.winWords (s : State) (table i : Nat) : Nat × Nat × Nat × Nat :=
  let a := table + 8 + 32 * i
  (s.mem.read a 8, s.mem.read (a + 8) 8, s.mem.read (a + 16) 8, s.mem.read (a + 24) 8)

/-- Number of entries of a table in a loft; a table that runs out of its loft has none that can be read. -/
def State.winCount (s : State) (table : Nat) : Option Nat :=
  let n := s.mem.read table 8
  if table % 2 ^ 26 + 8 + 32 * n ≤ Config.loftBytes then some n else none

/-- The words of the entries of a window table, or why it cannot be read. An address of 0 names an empty table (R389). -/
def State.tableWords (s : State) (table : Nat) : Except Fail (List (Nat × Nat × Nat × Nat)) :=
  if table = 0 then .ok []
  else if !isLoft table || !s.addressable table then .error (.window, none, none)
  else match s.winCount table with
    | none => .error (.window, none, none)
    | some n => .ok ((List.range n).map (s.winWords table))

/-- The entries that a table's words give. -/
def windowsOf (ws : List (Nat × Nat × Nat × Nat)) : List WinEntry := ws.map fun w => winOf w.1 w.2.1 w.2.2.1

/-- The entries of a window table, or why it is refused (R228). -/
def State.readWindows (s : State) (table : Nat) : Except Fail (List WinEntry) :=
  match s.tableWords table with
  | .error e => .error e
  | .ok ws =>
    match ws.findIdx? fun w => !s.winOk w.1 w.2.1 w.2.2.1 w.2.2.2 with
    | some i => .error (.spawn, some i, some 0x10000)
    | none => .ok (windowsOf ws)

/-- A WINDOW command (R230, R372): the region's own table is installed in its subtree. -/
def State.setWindows (s : State) (region table : Nat) : Except Fail State :=
  match s.readWindows table with
  | .error e => .error e
  | .ok ws => .ok (s.modRegion region fun r => { r with wintab := table, ovr := r.ovr ||| 0x40, wins := ws })

/-! Pinning (R262–R264) -/

/-- Physical pages of the HBM (R264): the stacks with the most entries of ITAB hold as many bands as 48 GiB give. -/
def Pkg.hbmPages (k : Pkg) : Nat :=
  let n := k.stacks.length
  if n = 0 then 0 else 12582912 / ((256 + n - 1) / n) / 2

/-- The entries of a segment table (R261); an address of 0 names an empty table (R389). -/
def State.segCount (s : State) (table : Nat) : Nat := if table = 0 then 0 else min (s.mem.read table 8) 4095

/-- SIZE and FLAGS of the entries of a segment table, as the cores copy them (R261). -/
def State.tableCopy (s : State) (table : Nat) : List (Nat × Nat) :=
  (List.range (s.segCount table)).map fun k =>
    (s.mem.read (entryAt table (k + 1)) 8, s.mem.read (entryAt table (k + 1) + 8) 8)

/-! Tables of a root (R228, R261, R389) -/

/-- The window table that a LAUNCH installs for a region (R228): the root's, when no region below it has one of its own; a region
below takes its table from a WINDOW (log 18). -/
def State.rootWindows (s : State) (region : Nat) : Except Fail State :=
  match s.owner 6 levels region with
  | none => .ok s
  | some r =>
    if !r.isRoot then .ok s
    else match s.readWindows r.wintab with
      | .error e => .error e
      | .ok ws => .ok (s.modRegion r.num fun r => { r with wins := ws })

/-- The copy of a root's segment table that the cores take with the regions placed on them (R261). -/
def State.rootSegments (s : State) (region : Nat) : State :=
  match s.owner 4 levels region with
  | none => s
  | some r => if r.isRoot then s.modRegion r.num fun q => { q with segs := s.tableCopy r.segtab } else s

/-- The tables of a root that several regions inherit. -/
def State.rootTables (s : State) : List Nat → Except Fail State
  | [] => .ok s
  | n :: ns =>
    match (s.rootSegments n).rootWindows n with
    | .error e => .error e
    | .ok t => State.rootTables t ns

/-! Pages in use (R262) -/

/-- The segment tables of the regions that live, each once, with their entries. -/
def State.segEntries (s : State) : List Nat :=
  (((s.regions.filter fun r => !r.ended).map (·.segtab)).eraseDups).flatMap fun t =>
    (List.range (s.segCount t)).map fun k => entryAt t (k + 1)

/-- Pages of a segment. -/
def Segment.pages (g : Segment) : Nat := g.size / pageBytes

/-- The page-table entry of a page as it will be once the writes of commands that are on their way have been made. -/
def State.soonEntry (s : State) (g : Segment) (page : Nat) : Word :=
  match (s.packets.filterMap fun q => match q.payload with
    | .engine w _ _ => if w.addr = g.xlat + 8 * page ∧ w.n = 8 then some w.val else none
    | _ => none).getLast? with
  | some v => BitVec.ofNat 64 v
  | none => s.pageEntry g page

/-- Physical pages that are pinned, those of commands whose writes are on their way among them. -/
def State.usedPages (s : State) : List Nat :=
  s.segEntries.flatMap fun e =>
    let g := s.segment e
    if g.isFar then []
    else ((List.range g.pages).flatMap fun k => [s.pageEntry g k, s.soonEntry g k]).filterMap fun w =>
      if pinned w then some (w.toNat % 2 ^ 19) else none

/-- The lowest n free pages, from page k on; none when there are too few. -/
def freePages (used : List Nat) (k : Nat) : Nat → Nat → Option (List Nat)
  | _, 0 => some []
  | 0, _ + 1 => none
  | fuel + 1, n + 1 =>
    if used.contains k then freePages used (k + 1) fuel (n + 1)
    else (freePages used (k + 1) fuel n).map (k :: ·)

/-- Every server forgets the translations of a segment (R263). -/
def State.dropCache (s : State) (entry : Nat) : State :=
  { s with servers := s.servers.map fun (v : Server) => { v with cache := v.cache.filter (·.1 != entry) } }

/-- No server keeps a translation that its page table does not hold any more: before a command that has changed V bits
completes (R263). -/
def State.dropStale (s : State) : State :=
  { s with servers := s.servers.map fun (v : Server) =>
      { v with cache := v.cache.filter fun e => e.2.2 == s.pageEntry (s.segment e.1) e.2.1 } }

/-- Page-table entries are written. -/
def State.putPages (s : State) (owner region : Nat) (g : Segment) : List (Nat × Nat) → State
  | [] => s
  | (page, v) :: ps =>
    State.putPages (s.smWrite owner region (g.xlat + 8 * page) (goodBytes (toBytes v 8))) owner region g ps

/-- The entry of a segment that a command names, or the failure of R262; the tables of an absent die's loft fail (R383). -/
def State.namedSegment (s : State) (region seg : Nat) : Except Fail Nat :=
  let t := s.effSegtab region
  if t ≠ 0 ∧ s.addressable t = false then .error (.window, none, none)
  else if seg = 0 ∨ s.segCount t < seg then .error (.window, some seg, some 6)
  else
    let x := (s.segment (entryAt t seg)).xlat
    if isLoft x && !s.addressable x then .error (.window, none, none) else .ok (entryAt t seg)

/-- A PIN (R94, R262). A page that another command is pinning takes the entry that this one writes. -/
def State.pin (s : State) (owner region seg base : Nat) : Except Fail State :=
  match s.namedSegment region seg with
  | .error e => .error e
  | .ok e =>
    let g := s.segment e
    if g.isFar then
      if (s.group g.group).pers ≠ persCxl then .error (.spawn, none, some 7)
      else if min (Config.farUnits g.group) (2 ^ 23) < base + g.pages then .error (.spawn, none, some 8)
      else .ok ((s.putPages owner region g ((List.range g.pages).map fun k => (k, 2 ^ 63 + base + k))).dropCache e)
    else if base ≠ 0 then .error (.illegal, none, some 4)
    else
      let want := (List.range g.pages).filter fun k => !pinned (s.soonEntry g k)
      let again := (List.range g.pages).filter fun k => pinned (s.soonEntry g k) && !pinned (s.pageEntry g k)
      match freePages s.usedPages 0 s.pkg.hbmPages want.length with
      | none => .error (.spawn, none, none)
      | some ps => .ok ((s.putPages owner region g ((want.zip ps).map (fun x => (x.1, 2 ^ 63 + x.2)) ++
          again.map fun k => (k, (s.soonEntry g k).toNat))).dropCache e)

/-- An UNPIN (R263). -/
def State.unpin (s : State) (owner region seg : Nat) : Except Fail State :=
  match s.namedSegment region seg with
  | .error e => .error e
  | .ok e =>
    let g := s.segment e
    let ps := (List.range g.pages).map fun k => (k, (s.soonEntry g k).toNat % 2 ^ 63)
    .ok ((s.putPages owner region g ps).dropCache e)

/-! Room in the loft of die 0 (log 7) -/

/-- Bytes of the loft of die 0 that the stage manager keeps for books and their tables. -/
def loaderBase : Nat := 0x8002000000
def loaderEnd : Nat := triggerBase

/-- A number rounded up to a multiple. -/
def roundUp (m n : Nat) : Nat := (n + m - 1) / m * m

/-- First fit of n bytes among blocks in use. -/
def firstFit (used : List (Nat × Nat)) (start end_ n : Nat) : Option Nat :=
  ((start :: used.map fun b => roundUp 64 (b.1 + b.2)).filter fun a =>
    decide (start ≤ a) && decide (a + n ≤ end_) && !(used.any fun b => overlaps b.1 b.2 a (max n 1))).foldl
    (fun m a => match m with
      | some b => some (min a b)
      | none => some a) none

/-- Takes n bytes of the loft for a book slot. -/
def State.takeLoft (s : State) (slot n : Nat) : Option (Nat × State) :=
  (firstFit (s.loftUsed.map (·.2)) loaderBase loaderEnd (max n 1)).map fun a =>
    (a, { s with loftUsed := s.loftUsed ++ [(slot, a, max n 1)] })

/-! Books in slots (R372) -/

/-- Book slots. -/
def bookSlots : Nat := 64

/-- The book in a slot. -/
def State.book? (s : State) (slot : Nat) : Option Book := s.books.find? (·.slot == slot)

/-- Puts a book back. -/
def State.putBook (s : State) (b : Book) : State :=
  { s with books := s.books.map fun (c : Book) => if c.slot = b.slot then b else c }

/-- Bytes of a book in the loft. -/
def State.bookBytes (s : State) (b : Book) : List Byte := s.mem.bytes b.addr b.len

/-- The book that an item was appended from (R375): its record's PC lies in the book's copy. -/
def State.bookAtPc (s : State) (pc : Word) : Option Book :=
  s.books.find? fun b => decide (b.addr ≤ pc.toNat) && decide (pc.toNat < b.addr + b.len)

/-- The region that an operand names: in an item of a book, the region made of the region item (R375). -/
def State.regionOperand (s : State) (pc : Word) (n : Nat) : Nat :=
  match s.bookAtPc pc with
  | none => n
  | some b => ((b.regions.find? (·.1 == n)).map (·.2)).getD 0

/-! Regions of a book (R92, R33, R389) -/

/-- The channel table of a region made of an item: name of a wiring item's channel, and that table. -/
def wireEnd (b : List Byte) (k : Nat) : Option BookWire := if k = 0xFFFFFFFF then none else (wiresOf b)[k]?

/-- The segments of a region item, in order. -/
def itemSegs (b : List Byte) (i : Nat) : List BookSeg := (segItems b).filter (·.region == i)

/-- Segment table of a region with its page tables (R261): entries whose page tables follow each other from `xlat` on. -/
def segTable (segs : List BookSeg) (xlat : Nat) : List Byte :=
  let rec go : List BookSeg → Nat → List Byte
    | [], _ => []
    | g :: gs, x => toBytes g.size 8 ++ toBytes g.flags 8 ++ toBytes x 8 ++ toBytes 0 8 ++ go gs (x + 8 * (g.size / pageBytes))
  toBytes segs.length 8 ++ go segs xlat

/-- Bytes of the page tables of segments. -/
def pageTableBytes (segs : List BookSeg) : Nat := segs.foldl (fun n g => n + 8 * (g.size / pageBytes)) 0

/-- The loader builds a region's segment table in the loft of die 0; no server keeps a translation of what stood there (R263). -/
def State.makeSegTable (s : State) (owner slot region : Nat) (segs : List BookSeg) : Except Fail (Nat × State) :=
  let head := roundUp 64 (8 + 32 * segs.length)
  let n := head + pageTableBytes segs
  match s.takeLoft slot n with
  | none => .error (.spawn, none, none)
  | some (a, s) =>
    let s := (s.smWrite owner region a (goodBytes (segTable segs (a + head)))).smWrite owner region (a + head)
      (List.replicate (pageTableBytes segs) (0, false))
    .ok (a, (List.range segs.length).foldl (fun t k => t.dropCache (entryAt a (k + 1))) s)

/-- The loader makes room for a region's channel table in the loft; its contents are the model's `channels`. -/
def State.makeChanTable (s : State) (slot n : Nat) : Except Fail (Nat × State) :=
  match s.takeLoft slot (8 + 32 * n) with
  | none => .error (.spawn, none, none)
  | some (a, s) => .ok (a, s)

/-- The channels of a wiring item (R85). -/
def wireChans (w : BookWire) (table region : Nat) : List Channel :=
  (List.range w.count).map fun i =>
    { table := table, name := w.name + i, region := region, kind := if w.kind = 0 then .word else .tile, w := w.words,
      buf := w.mode == 1, depth := w.depth }

/-- An end of an endpoint channel is the device's (R279). -/
def Channel.giveDevice (c : Channel) (tx : Bool) : Channel := c.setFin tx { st := .bound, holder := .device }

/-- A region of a book (R92): the fields that its item does not give in FAULT are the parent's effective ones. -/
def State.bookRegion (s : State) (b : List Byte) (r : BookRegion) (num parent depth fn : Nat) (segtab chtab : Nat)
    (segs : List (Nat × Nat)) (tabOf : Nat → Nat) : Region :=
  let f := wireEnd b r.faultch
  let p := wireEnd b r.replych
  { num := num, parent := parent, depth := depth, ovr := r.ovr, ceil := r.ceil, fdepth :=
      if r.fdepth = 0 then s.effFdepth parent else r.fdepth,
    plto := r.plto, corebud := r.corebud, grbud := r.grbud,
    faultep := match f with
      | some w => w.name
      | none => s.effFaultep parent,
    replyep := match p with
      | some w => w.name
      | none => s.effReplyep parent,
    faulttab := match f with
      | some w => tabOf w.region
      | none => s.effField 3 (·.faulttab) parent,
    segtab := segtab, chtab := chtab, wintab := 0, segs := segs, function := fn }

/-- One region item is made into a region, with its own tables and channels. -/
def State.makeRegion (s : State) (owner : Nat) (b : List Byte) (slot under i : Nat) (r : BookRegion) (done : List (Nat × Nat)) :
    Except Fail (State × List (Nat × Nat)) :=
  let parent := if r.parent = 0xFFFF then under else ((done.find? (·.1 == r.parent)).map (·.2)).getD under
  let depth := ((s.region? parent).map (·.depth)).getD 0 + 1
  let num := s.nextRegion
  if levels ≤ depth ∨ 0xFFFF < num then .error (.spawn, none, none)
  else
    match (if r.ovr.getLsbD 4 then s.makeSegTable owner slot num (itemSegs b i) else .ok (0, s)) with
    | .error e => .error e
    | .ok (segtab, s) =>
      let ws := (wiresOf b).filter (·.region == i)
      let chans := ws.foldl (fun n w => n + w.count) 0
      match (if r.ovr.getLsbD 5 then s.makeChanTable slot chans else .ok (0, s)) with
      | .error e => .error e
      | .ok (chtab, s) =>
        let done := done ++ [(i, num)]
        let q := s.bookRegion b r num parent depth (s.functionOf under) segtab chtab
            ((itemSegs b i).map fun g => (g.size, g.flags)) fun w =>
          if w = i then chtab
          else match (done.find? (·.1 == w)).bind fun x => s.region? x.2 with
            | some t => t.chtab
            | none => 0
        .ok ({ s with nextRegion := num + 1, regions := s.regions ++ [q],
                      channels := s.channels ++ ws.flatMap fun w => wireChans w chtab num }, done)

/-- The regions of a book are made under a region, in the order of their items. -/
def State.makeRegions (s : State) (owner : Nat) (b : List Byte) (slot under : Nat) :
    List (BookRegion × Nat) → List (Nat × Nat) → Except Fail (State × List (Nat × Nat))
  | [], done => .ok (s, done)
  | (r, i) :: rs, done =>
    match s.makeRegion owner b slot under i r done with
    | .error e => .error e
    | .ok (s, done) => State.makeRegions s owner b slot under rs done

/-- The endpoint channels of the new regions have their device-held ends (R54, R279). -/
def State.holdEndpoints (s : State) (b : List Byte) (regions : List (Nat × Nat)) : State :=
  let tabOf (i : Nat) : Nat := ((((regions.find? (·.1 == i)).bind fun x => s.region? x.2)).map (·.chtab)).getD 0
  (regionItems b).foldl (fun t r =>
    if !r.ovr.getLsbD 3 then t
    else
      let t := match wireEnd b r.faultch with
        | some w => t.modChan (tabOf w.region) w.name (·.giveDevice true)
        | none => t
      match wireEnd b r.replych with
      | some w => t.modChan (tabOf w.region) w.name (·.giveDevice false)
      | none => t) s

/-! Endpoints of flows and host queues (R291, R320, R372) -/

/-- An end for a flow or a host queue, from its operands. -/
structure EndSpec where
  host : Bool
  name : Nat
  region : Nat
  role : Nat
  ring : Nat
  size : Nat
  slots : Nat
  first : Nat
  second : Nat
  tx : Bool
deriving DecidableEq, Repr

/-- The operands of EXTEP and HOSTEP (Table 23.2). -/
def endSpecOf (host : Bool) (a0 a1 a2 : Word) : EndSpec :=
  { host := host, name := fieldOf a0 0 24, region := fieldOf a0 32 16, role := fieldOf a0 48 16, ring := fieldOf a1 0 32,
    size := fieldOf a1 32 16, slots := fieldOf a1 48 16, first := if host then fieldOf a2 0 8 else fieldOf a2 0 4,
    second := fieldOf a2 16 (if host then 8 else 16), tx := a2.getLsbD 63 }

/-- The bits of the operands that no field uses are zero: the code of the first operand that breaks this (R372). -/
def endSpecFault (host : Bool) (a0 a2 : Word) : Option Nat :=
  if fieldOf a0 24 8 ≠ 0 then some 1
  else if zeroBut a2 (if host then 0x8000000000FF00FF else 0x80000000FFFF000F) = false then some 3
  else none

/-- Names that the `.channel` lines of a region item take. -/
def topName (b : List Byte) (i : Nat) : Nat :=
  ((wiresOf b).filter (·.region == i)).foldl (fun n w => max n (w.name + w.count - 1)) 0

/-- The first operand at fault of an end in region item `i` (region `num`), for a process with its data block (R320). -/
def State.endFault (s : State) (b : List Byte) (e : EndSpec) (i : Option Nat) (num : Nat) (p : Option (Proc × Image)) :
    Option Nat :=
  let table := s.effChtab num
  let data := ((rolesOf b)[e.role]?.map (·.dataLen)).getD 0
  if e.name = 0 ∨ (i.any fun k => decide (e.name ≤ topName b k)) = true ∨
      s.channels.any (fun c => c.table == table && c.name == e.name) = true then some 1
  else if i.isNone = true ∨ table = 0 then some 2
  else if (instsOf b e.role).length ≠ 1 ∨ p.isNone = true then some 3
  else if (if e.tx then e.ring != 0 else e.ring % 64 != 0 || decide (data < e.ring)) then some 4
  else if (if e.tx then e.size != 0 else e.size == 0 || e.size % 64 != 0 || decide (16384 < e.size)) then some 5
  else if (if e.tx then e.slots != 0 else e.slots == 0 || decide (data < e.ring + e.size * e.slots)) then some 6
  else if (if e.host then decide (64 < e.first) else (s.group e.first).pers != persUet) then some 7
  else if (if e.host then (s.hostQueue? e.first e.second).isNone else ((s.group e.first).flow? e.second).isNone) then some 8
  else none

/-- The channel of such an end: the process end and the device's are bound. -/
def endChannel (e : EndSpec) (table num : Nat) (p : Proc) (im : Image) : Channel :=
  let mine : End := { st := .bound, holder := .proc p.pid }
  let dev : End := { st := .bound, holder := .device }
  { table := table, name := e.name, region := num, kind := if e.host then .host else .external, w := 2, buf := true,
    depth := max 1 e.slots, tx := if e.tx then mine else dev, rx := if e.tx then dev else mine,
    ring := if e.tx then none
      else some { core := p.core, base := im.data + e.ring, size := e.size, slots := e.slots, next := 0, busy := [], owned := none },
    outside := if e.host then .hostq e.first e.second else .flow e.first e.second }

/-- No process holds two ends with one handle (R280). -/
def State.clashes (s : State) (pid : Nat) : Bool :=
  let hs := (s.endsOf pid).map fun e => e.1.handle e.2
  hs.eraseDups.length != hs.length

/-- Creates and binds such an end, or fails with the position of the first operand at fault; the end may not clash with one that
the process holds (R280). -/
def State.makeEnd (s : State) (b : List Byte) (e : EndSpec) (i : Option Nat) (num : Nat) (p : Option (Proc × Image)) :
    Except Fail State :=
  match s.endFault b e i num p, p with
  | some k, _ => .error (.spawn, some k, some 0x30000)
  | none, none => .error (.spawn, some 3, some 0x30000)
  | none, some (q, im) =>
    let t := { s with channels := s.channels ++ [endChannel e (s.effChtab num) num q im] }
    if t.clashes q.pid then .error (.spawn, none, none) else .ok t

/-- The instance that such a command of a queue names: the process of a role of a book in a slot. -/
def State.instanceOf (s : State) (slot role : Nat) : Option (Proc × Image) :=
  (s.allProcs.filterMap fun p => match p.image with
    | some im => if im.slot = slot ∧ im.role = role ∧ p.st ≠ .exited then some (p, im) else none
    | none => none).getLast?

/-- A core that lacks binding entries (R281): SPAWN names it and the entries lacking. -/
def State.entriesFault (s : State) (need : Nat → Nat) (cores : List Nat) : Option Fail :=
  (cores.find? fun c => decide (Config.bindingEntries < need c)).map fun c =>
    (.spawn, some (s.coord c).toNat, some (0x20000 + (need c - Config.bindingEntries)))

/-- The end of a command that a queue runs: the book is the one whose regions contain the region. A core without a free entry
refuses it as R281 has a LAUNCH refused (log 61). -/
def State.queueEnd (s : State) (e : EndSpec) (num : Nat) : Except Fail State :=
  match s.books.find? fun k => k.regions.any (·.2 == num) with
  | none => .error (.spawn, some 2, some 0x30000)
  | some k =>
    match s.makeEnd (s.bookBytes k) e ((k.regions.find? (·.2 == num)).map (·.1)) num (s.instanceOf k.slot e.role) with
    | .error x => .error x
    | .ok t =>
      match t.entriesFault t.entriesOn ((t.allProcs.filter (·.placed)).map (·.core)).eraseDups with
      | some x => .error x
      | none => .ok t

end Sys2Proof.Machine
end

