-- ==== Sys2Proof/Machine/Launch.lean ====
section
/-! DEFINITION. LAUNCH, its completion, and END (R98, R320, R372, R375, R385, R386, R388). -/

namespace Sys2Proof.Machine

/-! What a queue may name (R370) -/

/-- A thread may name the regions that its grant covers: its queue's region and the subtree (log 17); thread 0 is the monitor's.
-/
def State.mayName (s : State) (t region : Nat) : Bool := t == 0 || s.inSubtree (s.threadRegion t) region

/-- A thread may name a semaphore (R376). -/
def State.maySem (s : State) (t sem : Nat) : Bool := t == 0 || s.semOwners.contains (sem, s.threadFn t)

/-- An edge group or a host queue is granted to a thread's function. -/
def State.mayEdge (s : State) (t g : Nat) : Bool := t == 0 || s.edgeGrants.contains (s.threadFn t, g)

/-- A range of memory lies in one range of the grant of a thread's region, with the right. -/
def State.mayReach (s : State) (t a n : Nat) (wr : Bool) : Bool :=
  t == 0 || (s.grants.filter fun g => g.region == s.threadRegion t).any fun g =>
    g.ranges.any fun r => decide (r.base ≤ a) && decide (a + n ≤ r.limit + 1) && (r.write || !wr)

/-- A thread may read a window table: its count, and then its entries. -/
def State.mayTable (s : State) (t table : Nat) : Bool :=
  s.mayReach t table 8 false && (!s.addressable table || (match s.winCount table with
    | some n => s.mayReach t table (8 + 32 * n) false
    | none => true))

/-- The POSTSEM of an item is none, or one that its thread may name. -/
def State.postsemOk (s : State) (t : Nat) (ps : BitVec 16) : Bool :=
  ps == 0xFFFF || (decide (ps.toNat < semaphores) && s.maySem t ps.toNat)

/-! Instances -/

/-- An instance that a LAUNCH creates, with its process. -/
structure NewInst where
  inst : Inst
  pid : Nat
  region : Nat
deriving DecidableEq, Repr

/-- Numbers for the processes of instances. -/
def numberInsts (b : List Byte) (regions : List (Nat × Nat)) : Nat → List Inst → List NewInst
  | _, [] => []
  | pid, i :: is =>
    let item := ((rolesOf b)[i.role]?.map (·.region)).getD 0
    { inst := i, pid := pid, region := ((regions.find? (·.1 == item)).map (·.2)).getD 0 } ::
      numberInsts b regions (pid + 1) is

/-- The process of an instance: NEW, meant for its core (R98). -/
def State.instProc (s : State) (n : NewInst) (r : BookRole) (thread : Nat) : Proc :=
  { s.newProc n.pid n.region (if r.priv = 1 then .s else .u) (clsOf r.nreg r.ctx) r.nreg r.prio r.period r.budget 0 with
    core := n.inst.core, thread := some thread }

/-- The processes of a LAUNCH come to be. -/
def State.addInsts (s : State) (roles : List BookRole) (thread : Nat) (ns : List NewInst) : State :=
  { s with
    nextPid := s.nextPid + ns.length
    procs := s.procs ++ ns.filterMap fun n => (roles[n.inst.role]?).map fun r => s.instProc n r thread }

/-- Binds an end that is IDLE to a process (R86, Table 17.3). -/
def Channel.bindTo (c : Channel) (tx : Bool) (pid : Nat) : Channel :=
  if (c.fin tx).st = .idle then c.setFin tx { st := .bound, holder := .proc pid } else c

/-- The wired ends of an instance (R86, R93). -/
def State.bindInst (s : State) (b : List Byte) (regions : List (Nat × Nat)) (n : NewInst) : State :=
  (wiresOf b).foldl (fun t w =>
    let table := ((((regions.find? (·.1 == w.region)).bind fun x => t.region? x.2)).map (·.chtab)).getD 0
    let t := if w.tx = n.inst.role then t.modChan table (w.name + n.inst.num) (·.bindTo true n.pid) else t
    if w.rx = n.inst.role then t.modChan table (w.name + n.inst.num) (·.bindTo false n.pid) else t) s

/-! Park areas and images (R98, R388) -/

/-- A core holds no process, no parked context and no slots (R388); an instance that is still to be placed there counts. -/
def State.coreEmpty (s : State) (c : Nat) : Bool :=
  (s.claimants c).isEmpty && s.slotsOn c == 0 && !(s.allProcs.any fun p => p.st == .new && p.core == c)

/-- Park areas of the cores of a LAUNCH: set where a core was empty before, else large enough (R285, R388). -/
def State.setParks (s before : State) : List Nat → Except Fail State
  | [] => .ok s
  | c :: cs =>
    if before.coreEmpty c then
      let size := max 0x10000 (roundUp 0x4000 (s.slotsOn c + 0x8000))
      if 0x40000 < size then .error (.spawn, none, some (size - 0x40000))
      else State.setParks (s.modCore c fun k => { k with psize := size / 0x4000 }) before cs
    else
      let need := s.slotsOn c + s.parkedBytes c
      if (s.core c).park < need then .error (.spawn, none, some (need - (s.core c).park)) else State.setParks s before cs

/-- First fit for an image on a core, on a 64 B boundary; the limit is tested afterwards. -/
def State.imageRoom (s : State) (c n : Nat) : Nat :=
  (firstFit (((s.images c).filter (·.len != 0)).map fun (b : Placed) => (b.off, b.len)) 0 (2 ^ 40) (max n 1)).getD 0

/-- The text of a role on a core, if it stands there. -/
def State.textOn (s : State) (c slot role : Nat) : Option Placed :=
  s.placed.find? fun (b : Placed) => b.core == c && b.slot == slot && b.role == role && b.isText

/-- Places the text of a role on a core, unless it stands there. -/
def State.placeText (s : State) (owner : Nat) (via : Option Nat) (b : List Byte) (slot : Nat) (n : NewInst) (r : BookRole) : State :=
  if (s.textOn n.inst.core slot n.inst.role).isSome then s
  else
    let off : Nat := s.imageRoom n.inst.core r.textLen
    let s : State := s.imageWrite owner n.region via (globalBase n.inst.core + off)
      ((b.drop ((sectOf b 2).off + r.textOff)).take r.textLen)
    { s with placed := s.placed ++
        [{ core := n.inst.core, slot := slot, region := n.region, role := n.inst.role, isText := true, off := off,
           len := r.textLen, pid := 0 }] }

/-- Bytes of a data block (R98). -/
def BookRole.block (r : BookRole) : Nat := roundUp 16 r.dataLen + r.stack

/-- The process of an instance takes its image, entry and registers (R98). -/
def Proc.imaged (p : Proc) (im : Image) (r : BookRole) (num count : Nat) : Proc :=
  ((((({ p with image := some im, pc := BitVec.ofNat 64 (im.text + r.entry) } : Proc).setX 2
    (BitVec.ofNat 64 (im.data + im.dataLen))).setX 3 (BitVec.ofNat 64 num)).setX 4 (BitVec.ofNat 64 count)).setX 5
    (BitVec.ofNat 64 im.data))

/-- Places the data block of an instance. -/
def State.placeData (s : State) (owner : Nat) (via : Option Nat) (b : List Byte) (slot : Nat) (n : NewInst) (r : BookRole) : State :=
  let c := n.inst.core
  let off := s.imageRoom c r.block
  let data := (b.drop ((sectOf b 3).off + r.dataOff)).take r.dataLen
  let s : State := s.imageWrite owner n.region via (globalBase c + off) (data ++ List.replicate (r.block - data.length) 0)
  let s : State := { s with placed := s.placed ++
      [{ core := c, slot := slot, region := n.region, role := n.inst.role, isText := false, off := off, len := r.block,
         pid := n.pid }] }
  let text := ((s.textOn c slot n.inst.role).map (·.off)).getD 0
  let im : Image := { slot := slot, role := n.inst.role, inst := n.inst.num, text := text, textLen := r.textLen, data := off,
                      dataLen := r.block }
  s.modProc n.pid fun p => p.imaged im r n.inst.num (instsOf b n.inst.role).length

/-- The images of the instances of one region on one core: the texts, then the data blocks. -/
def State.placeRegion (s : State) (owner : Nat) (via : Option Nat) (b : List Byte) (slot : Nat) (roles : List BookRole)
    (ns : List NewInst) : State :=
  let s := ns.foldl (fun t n => match roles[n.inst.role]? with
    | some r => t.placeText owner via b slot n r
    | none => t) s
  ns.foldl (fun t n => match roles[n.inst.role]? with
    | some r => t.placeData owner via b slot n r
    | none => t) s

/-- The images of a core, region by region; they must end below the park area. -/
def State.placeCore (s : State) (owner : Nat) (b : List Byte) (slot : Nat) (roles : List BookRole) (ns : List NewInst)
    (via : Option Nat) (c : Nat) : Except Fail State :=
  let mine := ns.filter (·.inst.core == c)
  let s := ((mine.map (·.region)).eraseDups).foldl (fun t g =>
    (t.placeRegion owner via b slot roles (mine.filter (·.region == g))).reloadWins g c) s
  let end_ := ((s.images c).filter (·.len != 0)).foldl (fun m (x : Placed) => max m (x.off + x.len)) 0
  if s.parkStart c < end_ then .error (.spawn, some (s.coord c).toNat, some (end_ - s.parkStart c)) else .ok s

/-! Boot trees (R95) -/

/-- The cores of a cluster that receive an instance, in increasing order, rotated so that ROOT comes first; the lowest one where
the book has no item for the cluster. R95 does not say what two items for one cluster mean: that the first counts is the
model's choice (log 68). -/
def bootList (b : List Byte) (cores : List Nat) (die clus : Nat) : List Nat :=
  let l := (cores.filter fun c => dieOf c == die && clusOf c == clus).mergeSort
  match (treesOf b).find? fun t => t.die == die && t.clus == clus with
  | none => l
  | some t => l.dropWhile (· != coreOf die clus t.root) ++ l.takeWhile (· != coreOf die clus t.root)

/-- FANOUT of a cluster. -/
def bootFanout (b : List Byte) (die clus : Nat) : Nat :=
  match (treesOf b).find? fun t => t.die == die && t.clus == clus with
  | none => 2
  | some t => t.fanout

/-- The positions to which the core at position k forwards the images. -/
def forwards (fan k : Nat) : List Nat := (List.range fan).map (k * fan + 1 + ·)

/-- The core that forwards its images to the core at position k of a list: none for the first. -/
def forwarder (l : List Nat) (fan k : Nat) : Option Nat := if k = 0 then none else l[(k - 1) / fan]?

/-- The cores of a list receive their images: those at the positions given, then those to which each of them forwards. -/
def State.loadTree (s : State) (place : State → Option Nat → Nat → Except Fail State) (l : List Nat) (fan : Nat) :
    Nat → List Nat → Except Fail State
  | 0, _ | _, [] => .ok s
  | fuel + 1, k :: ks =>
    match l[k]? with
    | none => State.loadTree s place l fan fuel ks
    | some c =>
      match place s (forwarder l fan k) c with
      | .error e => .error e
      | .ok t => State.loadTree t place l fan fuel (ks ++ forwards fan k)

/-- Loading into a cluster: the stage manager writes the images into the first core of the list, which forwards them. -/
def State.loadCluster (s : State) (b : List Byte) (place : State → Option Nat → Nat → Except Fail State) (cores : List Nat) (die clus : Nat) :
    Except Fail State :=
  let l := bootList b cores die clus
  s.loadTree place l (bootFanout b die clus) (5 * l.length + 1) [0]

/-- The images of all cores, cluster by cluster. -/
def State.placeCores (s : State) (owner : Nat) (b : List Byte) (slot : Nat) (roles : List BookRole) (ns : List NewInst)
    (cores : List Nat) : List (Nat × Nat) → Except Fail State
  | [] => .ok s
  | (die, clus) :: cs =>
    match s.loadCluster b (fun t via c => t.placeCore owner b slot roles ns via c) cores die clus with
    | .error e => .error e
    | .ok t => State.placeCores t owner b slot roles ns cores cs

/-! Checks on the new state (R227, R280, R281) -/

/-- Windows that apply to a region on a core. -/
def State.winNumber (s : State) (region c : Nat) : Nat :=
  (s.loaderWins.filter fun l => l.region == region && l.core == c).length + ((s.effWins region).filter (·.applies c)).length

/-- The regions and cores that a LAUNCH concerns: those of its instances, and of the processes that regions of its book have
already. -/
def State.launchPlaces (s : State) (regions : List (Nat × Nat)) (ns : List NewInst) : List (Nat × Nat) :=
  (ns.map (fun n => (n.region, n.inst.core)) ++
    (s.allProcs.filter fun p => p.placed && regions.any (·.2 == p.region)).map fun p => (p.region, p.core)).eraseDups

/-- Cores that stand for all of the package in R227: the number of windows of a region without images there is largest at the
first core of some entry of its table. -/
def State.tablePlaces (s : State) (region : Nat) : List (Nat × Nat) :=
  ((s.effWins region).filterMap fun w =>
    let c := if w.all then 0 else coreOf w.die w.clus w.cfirst
    if s.diePresent (dieOf c) && decide (w.all ∨ w.cfirst ≤ w.clast ∧ w.cfirst < 256) then some (region, c) else none).eraseDups

/-- The first region with more than 16 windows on a core (R227), be it one that takes an instance or any other. -/
def State.windowsFault (s : State) (places : List (Nat × Nat)) : Option Fail :=
  ((places ++ ((places.map (·.1)).eraseDups.flatMap s.tablePlaces)).find? fun x => decide (16 < s.winNumber x.1 x.2)).map fun x =>
    (.spawn, some (s.coord x.2).toNat, some (s.winNumber x.1 x.2))

/-- Binding entries that a core needs with the new instances. -/
def State.entriesNeeded (s : State) (ns : List NewInst) (c : Nat) : Nat :=
  (ns.filter (·.inst.core == c)).foldl (fun k n => k + (s.endsOf n.pid).length) (s.entriesOn c)

/-- Two ends of one process with equal handles (R280). -/
def State.clashFault (s : State) (ns : List NewInst) : Option Fail :=
  if ns.any fun n => s.clashes n.pid then some (.spawn, none, none) else none

/-- The checks of a LAUNCH on the state that it makes: window tables, then windows, binding entries and handles. -/
def State.launchChecks (s : State) (regions : List (Nat × Nat)) (ns : List NewInst) (cores : List Nat) : Except Fail State :=
  match s.rootTables ((ns.map (·.region)).eraseDups) with
  | .error e => .error e
  | .ok t =>
    match (t.windowsFault (t.launchPlaces regions ns)).orElse fun _ =>
        (t.entriesFault (t.entriesNeeded ns) cores).orElse fun _ => t.clashFault ns with
    | some e => .error e
    | none => .ok t

/-! Commands that run within a LAUNCH (R375) -/

/-- PIN, WINDOW and EXTEP run within the LAUNCH. -/
def atLaunch (op : Nat) : Bool := op == 0x07 || op == 0x09 || op == 0x0A

/-- The effect of one such item. -/
def State.bookCommand (s : State) (owner : Nat) (b : List Byte) (t : Nat) (regions : List (Nat × Nat)) (ns : List NewInst) (i : CmdItem) :
    Except Fail State :=
  let region (k : Nat) : Nat := ((regions.find? (·.1 == k)).map (·.2)).getD 0
  if i.op = 0x07 then
    if (s.region? (region i.a0.toNat)).isNone then .error (.privilege, none, none)
    else s.pin owner (region i.a0.toNat) i.a1.toNat i.a2.toNat
  else if i.op = 0x09 then
    if rowOf i.a1.toNat ≠ 4 then .error (.illegal, none, some 2)
    else if i.a2 ≠ 0 then .error (.illegal, none, some 4)
    else if (s.region? (region i.a0.toNat)).isNone ∨ s.mayTable t i.a1.toNat = false then .error (.privilege, none, none)
    else s.setWindows (region i.a0.toNat) i.a1.toNat
  else
    let e := endSpecOf false i.a0 i.a1 i.a2
    match endSpecFault false i.a0 i.a2 with
    | some k => .error (.illegal, none, some k)
    | none =>
      if !s.mayEdge t e.first then .error (.privilege, none, none)
      else
        let p := (ns.find? (·.inst.role == e.role)).bind fun n => (s.proc? n.pid).bind fun p => p.image.map fun im => (p, im)
        s.makeEnd b e (if e.region < (regionItems b).length then some e.region else none) (region e.region) p

/-- The POSTSEM increases of items that run within a LAUNCH. -/
def State.raiseAll (s : State) (h : ItemHdr) (l : List Raise) : State :=
  l.foldl (fun t r => t.semAdd { h with pc := r.pc } r.op r.sem r.add) s

/-- The items in source order; each is followed by its POSTSEM increase, at once, or, where writes of the LAUNCH are on their
way, behind those (R374): the increases that are still to be made. -/
def State.bookCommands (s : State) (owner : Nat) (b : List Byte) (h : ItemHdr) (addr : Nat) (regions : List (Nat × Nat)) (ns : List NewInst) :
    List (Nat × CmdItem) → List Raise → Except Fail (State × List Raise)
  | [], late => .ok (s, late)
  | (off, i) :: is, late =>
    if !s.postsemOk h.thread i.postsem then .error (.privilege, none, none)
    else match s.bookCommand owner b h.thread regions ns i with
      | .error e => .error e
      | .ok t =>
        let r : List Raise := if i.postsem = 0xFFFF then []
          else [{ pc := BitVec.ofNat 64 (addr + off), op := i.op, sem := i.postsem.toNat, add := i.postadd.toNat }]
        if late.isEmpty && !t.engineBusy owner then State.bookCommands (t.raiseAll h r) owner b h addr regions ns is []
        else State.bookCommands t owner b h addr regions ns is (late ++ r)

/-! Placements (R88, R50) -/

/-- The groups of instances that are placed together: a group number other than 0, or one instance. -/
def placeGroups : List NewInst → List (List NewInst)
  | [] => []
  | n :: ns =>
    let rest := placeGroups ns
    if n.inst.group = 0 then [n] :: rest
    else
      let mine := rest.filter fun g => g.any (·.inst.group == n.inst.group)
      (n :: mine.flatten) :: rest.filter fun g => !(g.any (·.inst.group == n.inst.group))

/-- The member of a placement that an instance is: its range is one core (R390). -/
def NewInst.member (n : NewInst) : Member :=
  { pid := n.pid, die := dieOf n.inst.core, clus := clusOf n.inst.core, first := idxOf n.inst.core, last := idxOf n.inst.core,
    result := 0, issuer := 0, issuerCore := 0, issuerPc := 0, issuerCoord := 0 }

/-- Adds the placements of a LAUNCH, which come after the writes of its images; their numbers. R50 does not say which region's
PLTO, and which region's processes to compact, hold for a group whose members are of several regions: that they are the first
instance's is the model's choice (log 66). -/
def State.addPlacements (s : State) (owner thread : Nat) : List (List NewInst) → List Nat → State × List Nat
  | [], ids => (s, ids)
  | g :: gs, ids =>
    let (id, s) := s.freshId
    let pl : Placement := { id := id, region := (g.head?.map (·.region)).getD 0, group := 0, gcount := g.length,
                            members := g.map (·.member), t0 := s.ns, thread := some thread, images := owner }
    State.addPlacements { s with placements := s.placements ++ [pl] } owner thread gs (ids ++ [id])

/-! LAUNCH -/

/-- The roles that a LAUNCH places (R385). -/
def launchRoles (b : List Byte) (role : Nat) : List Nat :=
  if role = 0xFFFF then (List.range (rolesOf b).length).filter fun r => !deferred b r else [role]

/-- The checks that need nothing of the new state: absent dies (R3) and register counts (R23). -/
def State.launchFault (s : State) (b : List Byte) (roles : List Nat) : Option Fail :=
  match (castsOf b).find? fun c => roles.contains c.role && !s.diePresent c.die with
  | some c => some (.spawn, some c.die, none)
  | none => ((roles.filterMap fun r => (rolesOf b)[r]?).find? fun r => decide (32 < r.nreg)).map fun r =>
      (.spawn, some r.nreg, none)

/-- Every queue that the book names belongs to the launching queue's function (R375). -/
def State.queuesOk (s : State) (b : List Byte) (t : Nat) : Bool :=
  (cmdsOf b).all fun x => atLaunch x.2.op || x.2.queue == 0 ||
    ((s.thread? x.2.queue).any fun q => q.function == s.threadFn t)

/-- The regions of a book: made at its first LAUNCH, with their endpoints, and used again afterwards (R372). -/
def State.bookRegions (s : State) (owner : Nat) (k : Book) (b : List Byte) (under : Nat) :
    Except Fail (State × List (Nat × Nat)) :=
  if k.regions.isEmpty then
    match s.makeRegions owner b k.slot under ((regionItems b).zipIdx) [] with
    | .error e => .error e
    | .ok (t, regions) => .ok (t.holdEndpoints b regions, regions)
  else .ok (s, k.regions)

/-- The instances of a LAUNCH come to be, wired, with park areas and images (R86, R98, R388). -/
def State.makeInsts (s before : State) (owner : Nat) (h : ItemHdr) (k : Book) (b : List Byte) (regions : List (Nat × Nat))
    (ns : List NewInst) (cores : List Nat) : Except Fail State :=
  let t := s.addInsts (rolesOf b) h.thread ns
  let t := ns.foldl (fun u n => u.bindInst b regions n) t
  match t.setParks before cores with
  | .error e => .error e
  | .ok t => t.placeCores owner b k.slot (rolesOf b) ns cores ((cores.map fun c => (dieOf c, clusOf c)).eraseDups)

/-- Everything that a LAUNCH makes before it places: regions, processes, wiring, park areas, images, and the effects of the
items that run within it; the number of its writes, and the increases that follow them. -/
def State.prepare (s : State) (h : ItemHdr) (k : Book) (b : List Byte) (role : Nat) :
    Except Fail (State × List NewInst × Nat × List Raise) :=
  let roles := launchRoles b role
  let whole := role == 0xFFFF && !k.launched
  if whole && !s.queuesOk b h.thread then .error (.privilege, none, none)
  else match s.launchFault b roles with
    | some e => .error e
    | none =>
      let (owner, u) := s.freshId
      let under := if k.regions.isEmpty then s.threadRegion h.thread else k.under
      match u.bookRegions owner k b under with
      | .error e => .error e
      | .ok (t, regions) =>
        let ns := numberInsts b regions t.nextPid (roles.flatMap (instsOf b))
        let cores := (ns.map (·.inst.core)).eraseDups
        match t.makeInsts s owner h k b regions ns cores with
        | .error e => .error e
        | .ok t =>
          let t := t.putBook { k with regions := regions, under := under, launched := k.launched || role == 0xFFFF }
          match t.bookCommands owner b h k.addr regions ns (if whole then (cmdsOf b).filter fun x => atLaunch x.2.op else []) []
          with
          | .error e => .error e
          | .ok (t, raises) =>
            match t.launchChecks regions ns cores with
            | .error e => .error e
            | .ok t => .ok (t, ns, owner, raises)

/-- The items that the completion of a LAUNCH appends: queue and loft address (R375). -/
def laterItems (b : List Byte) (addr t : Nat) : List (Nat × Nat) :=
  ((cmdsOf b).filter fun x => !atLaunch x.2.op).map fun x => (if x.2.queue = 0 then t else x.2.queue, addr + x.1)

/-- Attempts the placements of a LAUNCH, in order. -/
def State.tryAll (s : State) (ids : List Nat) : State :=
  ids.foldl (fun t id => match t.placement? id with
    | some pl => t.tryPlacement pl
    | none => t) s

/-- A LAUNCH of a role of a book, or of all that are not deferred. -/
def State.launch (s : State) (h : ItemHdr) (k : Book) (role : Nat) (wait : Bool) : State :=
  let b := s.bookBytes k
  match s.prepare h k b role with
  | .error e => s.failCmd h 0x02 e
  | .ok (t, ns, owner, raises) =>
    let (t, ids) := t.addPlacements owner h.thread (placeGroups ns) []
    let after := if role = 0xFFFF ∧ k.launched = false then laterItems b k.addr h.thread else []
    (t.setCur h (.launch (ns.map (·.pid)) ids wait after none owner raises)).tryAll ids

/-- The book that a LAUNCH names: in a slot, or its own (R372). -/
def State.launchBook (s : State) (h : ItemHdr) (slot : Nat) : Option Book :=
  if slot = 0xFF then s.bookAtPc h.pc else s.book? slot

/-! Completion (R385, R386) -/

/-- An instance entered EXITED in one of the ways of R386: the last is, without having executed. -/
def Proc.broken (p : Proc) : Bool :=
  p.st == .exited && (p.ending == .replyEnd || p.ending == .regionEnd || p.ending == .neverRan || !p.ran)

/-- The first such instance. -/
def State.firstBroken (s : State) (pids : List Nat) : Option Nat := pids.find? fun n => (s.proc? n).any Proc.broken

/-- Every instance is EXITED. -/
def State.allExited (s : State) (pids : List Nat) : Bool := pids.all fun n => (s.proc? n).any (·.st == .exited)

/-- Accesses of instances that have not been performed, requests of memory servers among them: each comes before the completion
of a LAUNCH with WAIT (R374). -/
def State.accessesOf (s : State) (pids : List Nat) : Bool :=
  s.packets.any (fun q => pids.contains q.pid && q.kind != .reply) || s.requests.any fun r => pids.contains r.pid

/-- The increases that followed the writes of a LAUNCH have been made. -/
def Pending.raised : Pending → Pending
  | .launch pids ids wait after failed owner _ => .launch pids ids wait after failed owner []
  | p => p

/-- Items are appended to queues (R375). -/
def State.appendItems (s : State) (l : List (Nat × Nat)) : State :=
  l.foldl (fun t x => t.modThread x.1 fun q => { q with items := q.items ++ [.book x.2] }) s

/-- The command that a thread runs and that has not completed: in a trigger's list while one runs, else in its queue. -/
def State.curOf (s : State) (t : Nat) : Option CurItem :=
  (s.thread? t).bind fun q => match q.sub with
    | some r => r.cur
    | none => q.cur

/-- A failed placement ends the LAUNCH with DETAIL0 = the members not placed (R50, R390) and DETAIL1 = the reason; a time-out of a
LAUNCH with WAIT has the first instance that has not executed there (R386). -/
def State.launchFailure (s : State) (pids : List Nat) (wait : Bool) (n reason : Nat) : Fail :=
  (.spawn, some n, some (if wait && reason == 1 then (s.firstBroken pids).getD reason else reason))

/-- LAUNCH_COMPLETE (R372, R374, R375, R386): of the thread that the subject names. Increases that followed its writes are made
first. -/
def execLaunchComplete (s : State) : Out :=
  match s.curOf (Subject.num s.subj) with
  | none => .next s
  | some c =>
    match c.pending with
    | .launch pids ids wait after failed owner raises =>
      match failed with
      | some (n, reason) => .next (s.failCmd c.hdr 0x02 (s.launchFailure pids wait n reason))
      | none =>
        if s.engineBusy owner then .next s
        else if raises ≠ [] then
          .next (({ s with threads := s.threads.map fun t =>
            if t.num = c.hdr.thread then t.mapPending Pending.raised else t } : State).dropStale.raiseAll c.hdr raises)
        else
        match (if wait then s.firstBroken pids else none) with
        | some pid => .next (s.failCmd c.hdr 0x02 (.spawn, none, some pid))
        | none =>
          if (s.placements.any fun pl => ids.contains pl.id) = true ∨
              (wait = true ∧ (s.allExited pids = false ∨ s.accessesOf pids = true)) then .next s
          else .next ((s.dropStale.appendItems after).completeItem c.hdr 0x02)
    | _ => .next s

/-! END (R58, R372) -/

/-- A region of a book whose parent is not of the book. -/
def State.topRegions (s : State) (k : Book) : List Nat :=
  (k.regions.map (·.2)).filter fun n => match s.region? n with
    | some r => !r.ended && !(k.regions.any (·.2 == r.parent))
    | none => false

/-- Addresses that lie in what the loader holds for a slot. -/
def State.inSlot (s : State) (slot a : Nat) : Bool :=
  s.loftUsed.any fun u => u.1 == slot && decide (u.2.1 ≤ a) && decide (a < u.2.1 + u.2.2)

/-- What the slot of a book holds is free. -/
def State.freeSlot (s : State) (k : Book) : State :=
  let gone := k.regions.map (·.2)
  { s with
    books := s.books.filter (·.slot != k.slot)
    placed := s.placed.filter (·.slot != k.slot)
    loaderWins := s.loaderWins.filter fun l => !gone.contains l.region
    channels := s.channels.filter fun c => !s.inSlot k.slot c.table
    servers := s.servers.map fun (v : Server) => { v with cache := v.cache.filter fun e => !s.inSlot k.slot e.1 }
    loftUsed := s.loftUsed.filter (·.1 != k.slot) }

/-- The effect of END on a book: its regions end, its slot is free. -/
def State.endBook (s : State) (k : Book) : State :=
  ((s.topRegions k).foldl (fun t n =>
    t.endRegion n none { cause := .spawn, d0 := 3, d1 := BitVec.ofNat 64 k.slot }) s).freeSlot k

end Sys2Proof.Machine
end

