-- ==== Sys2Proof/Machine/Stage.lean ====
section
/-! DEFINITION. The stage manager's commands (23): what an item may do, its operands, and its effect; semaphores, triggers,
queues; boot, life cycle, attestation, power. -/

namespace Sys2Proof.Machine

/-! Running an item (R369, R371–R373) -/

/-- A thread can begin an item of its queue, or of the trigger's list that runs (R368, R378, R379). -/
def State.canBegin (s : State) (t : Thread) (resident : Bool) : Bool :=
  !t.stopped && s.pkg.running && (t.num == 0 || s.pkg.threadsOn) &&
    (match t.sub with
      | some r => resident && r.cur.isNone
      | none => !resident && t.cur.isNone)

/-- Runs the item of a command: nothing happens while its thread cannot begin it; an item whose POSTSEM its queue may not
name fails. -/
def State.withItem (s : State) (op : Nat) (k : ItemHdr → Word → Word → Word → Out) : Out :=
  match s.subj with
  | .item h a0 a1 a2 =>
    match s.thread? h.thread with
    | none => .next s
    | some t =>
      if !s.canBegin t h.resident then .next s
      else if !s.postsemOk h.thread h.postsem then .next (s.failCmd h op (.privilege, none, none))
      else k h a0 a1 a2
  | _ => .next s

/-- An item fails with ILLEGAL and the DETAIL1 of R372. -/
def State.illegal (s : State) (h : ItemHdr) (op k : Nat) : Out := .next (s.failCmd h op (.illegal, none, some k))

/-- An item fails with PRIVILEGE (R370); the rule states no DETAIL1. -/
def State.denied (s : State) (h : ItemHdr) (op : Nat) : Out := .next (s.failCmd h op (.privilege, none, none))

/-- An item that completes at once, or fails. -/
def State.ending (s : State) (h : ItemHdr) (op : Nat) : Except Fail State → Out
  | .ok t => .next (t.completeItem h op)
  | .error e => .next (s.failCmd h op e)

/-- An item whose effect is writes of its own: it completes when they have been made, or fails. -/
def State.endingWrites (s : State) (h : ItemHdr) (op : Nat) (f : State → Nat → Except Fail State) : Out :=
  let (owner, u) := s.freshId
  match f u owner with
  | .ok t => .next (if t.engineBusy owner then t.setCur h (.writes op owner) else t.completeItem h op)
  | .error e => .next (s.failCmd h op e)

/-- Items that R378 forbids in a resident list. -/
def State.notResident (s : State) (h : ItemHdr) (op : Nat) (k : Out) : Out :=
  if h.resident then .next (s.failCmd h op (.illegal, none, none)) else k

/-- A length of R372. -/
def lengthOk (n : Word) : Bool := n.toNat % 8 == 0 && decide (8 ≤ n.toNat) && decide (n.toNat ≤ 0xFFFFFFF8)

/-! Addresses (R370, R372, R383) -/

/-- What an address operand names. -/
inductive Place
  | host (function addr : Nat)
  | seg (g : Segment) (off : Nat)
  | mem (a : Nat)
deriving DecidableEq, Repr

/-- The parts of a range of a segment that lie in one page each: physical address and length. -/
def State.pageParts (s : State) (g : Segment) (o n : Nat) : List (Nat × Nat) :=
  (pagesOf o n).map fun k =>
    let lo := max o (k * pageBytes)
    (pageAddr g (s.pageEntry g k) (lo % pageBytes), min (o + n) ((k + 1) * pageBytes) - lo)

/-- A range of a segment of the queue's region; the memory of an absent die fails with WINDOW (R383). -/
def State.segPlace (s : State) (t seg off n : Nat) (wr : Bool) : Except Fail Place :=
  match s.namedSegment (s.threadRegion t) seg with
  | .error e => .error e
  | .ok e =>
    let g := s.segment e
    if g.size < off + n then .error (.window, some seg, some 6)
    else if wr && !g.wr then .error (.window, some seg, some 7)
    else if g.isFar && !s.diePresent (g.group / 2) then .error (.window, none, none)
    else if (pagesOf off n).any fun k => !pinned (s.pageEntry g k) then .error (.segment, none, none)
    else if !g.isFar && (s.pageParts g off n).any fun x =>
        (granuleRuns x.1 (x.2 / granuleBytes + 2) x.2).any fun y => !s.stackPresent (s.pkg.stackOf y.1) then
      .error (.window, none, none)
    else if g.isFar && ((s.group g.group).pers != persCxl || (s.group g.group).sc != 0) then .error (.link, none, none)
    else .ok (.seg g off)

/-- A range of local memory or of a loft: operand k of its item. -/
def State.memPlace (s : State) (t a n : Nat) (wr : Bool) (k : Nat) : Except Fail Nat :=
  if rowOf a ≠ 3 ∧ rowOf a ≠ 4 ∨ 2 ^ 40 ≤ a then .error (.illegal, none, some k)
  else if !s.mayReach t a n wr then .error (.privilege, none, none)
  else if s.addressable a && s.addressable (a + n - 1) && homeOf a == homeOf (a + n - 1) then .ok a
  else .error (.window, none, none)

/-- The range that an address operand names. -/
def State.place (s : State) (t : Nat) (a : Word) (n : Nat) (wr : Bool) (k : Nat) : Except Fail Place :=
  if a.getLsbD 63 then .ok (.host (s.threadFn t) (a.toNat % 2 ^ 63))
  else if a.getLsbD 62 then s.segPlace t (fieldOf a 48 12) (fieldOf a 0 48) n wr
  else match s.memPlace t a.toNat n wr k with
    | .ok m => .ok (.mem m)
    | .error e => .error e

/-- Bytes of a place, from an offset (log 64 for a home on another die). -/
def State.readPlace (s : State) (p : Place) (i n : Nat) : List MByte :=
  match p with
  | .host f a => goodBytes (s.hostBytes f (a + i) n)
  | .mem a => withMarks s.mem (s.marks ++ s.latent) (a + i) n
  | .seg g o => (s.pageParts g (o + i) n).flatMap fun x => s.segRead g x.1 x.2

/-- Writes the bytes of a place's parts. -/
def State.writeParts (s : State) (g : Segment) : List (Nat × Nat) → List MByte → State
  | [], _ => s
  | (pa, n) :: ps, bs => State.writeParts (s.segWrite g pa (bs.take n)) g ps (bs.drop n)

/-- Writes bytes to a place, for a command. -/
def State.writePlace (s : State) (owner region : Nat) (p : Place) (i : Nat) (bs : List MByte) : State :=
  match p with
  | .host f a => s.hostWrite f (a + i) (bs.map (·.1))
  | .mem a => s.smWrite owner region (a + i) bs
  | .seg g o => s.writeParts g (s.pageParts g (o + i) bs.length) bs

/-! Books: LOAD and END (R89–R97, R372) -/

/-- A book that has passed its checks is kept in a slot. -/
def State.keepBook (s : State) (owner region slot : Nat) (b : List Byte) : Except Fail State :=
  match s.takeLoft slot b.length with
  | none => .error (.spawn, none, none)
  | some (a, s) =>
    let s := s.smWrite owner region a (goodBytes b)
    .ok { s with books := s.books ++ [{ slot := slot, addr := a, len := b.length }]
                 bookHashes := (s.bookHashes.filter (·.1 != slot)) ++ [(slot, beNat ((b.drop 0x20).take 32))] }

/-- LOAD (R97, R372). -/
def execCmdLoad (s : State) : Out :=
  s.withItem 0x01 fun h a0 a1 a2 =>
    s.notResident h 0x01 <|
      if !lengthOk a1 then s.illegal h 0x01 2
      else if bookSlots ≤ a2.toNat then s.illegal h 0x01 3
      else if (s.book? a2.toNat).isSome then s.illegal h 0x01 6
      else match s.place h.thread a0 a1.toNat false 1 with
        | .error e => .next (s.failCmd h 0x01 e)
        | .ok p =>
          let bs := (s.readPlace p 0 a1.toNat).map (·.1)
          match bookFault bs with
          | some f => .next (s.failCmd h 0x01 (.spawn, some f.1, some f.2))
          | none => s.endingWrites h 0x01 fun t owner => t.keepBook owner (t.threadRegion h.thread) a2.toNat (bookIn bs)

/-- LAUNCH (R98, R372, R375, R385). -/
def execCmdLaunch (s : State) : Out :=
  s.withItem 0x02 fun h a0 a1 a2 =>
    if bookSlots ≤ a0.toNat ∧ a0.toNat ≠ 0xFF then s.illegal h 0x02 1
    else if 1 < a2.toNat then s.illegal h 0x02 3
    else match s.launchBook h a0.toNat with
      | none => s.illegal h 0x02 5
      | some k =>
        if a1.toNat ≠ 0xFFFF ∧ (rolesOf (s.bookBytes k)).length ≤ a1.toNat then s.illegal h 0x02 2
        else .next (s.launch h k a1.toNat (a2 == 1))

/-- END (R58, R372). -/
def execCmdEnd (s : State) : Out :=
  s.withItem 0x03 fun h a0 a1 a2 =>
    s.notResident h 0x03 <|
      if bookSlots ≤ a0.toNat ∧ a0.toNat ≠ 0xFF then s.illegal h 0x03 1
      else if a1 ≠ 0 ∨ a2 ≠ 0 then s.illegal h 0x03 4
      else match s.book? a0.toNat with
        | none => s.illegal h 0x03 5
        | some k => s.ending h 0x03 (.ok (s.endBook k))

/-! Semaphores (R376) -/

/-- A semaphore that operand 0 names, for a command. -/
def State.withSem (s : State) (h : ItemHdr) (op : Nat) (a0 : Word) (k : Out) : Out :=
  if semaphores ≤ a0.toNat then s.illegal h op 1
  else if !s.maySem h.thread a0.toNat then s.denied h op
  else k

/-- WAITGE (R376): it completes, or waits. -/
def execCmdWaitge (s : State) : Out :=
  s.withItem 0x04 fun h a0 a1 a2 =>
    s.withSem h 0x04 a0 <|
      if a2 ≠ 0 then s.illegal h 0x04 4
      else if a1.toNat ≤ s.sems.get a0.toNat then .next (s.completeItem h 0x04)
      else .next (s.setCur h (.waitge a0.toNat a1 false))

/-- WAITGE_SATISFIED (R376): some value since its issue has passed the test. -/
def execWaitgeSatisfied (s : State) : Out :=
  match s.curOf (Subject.num s.subj) with
  | some c =>
    match c.pending with
    | .waitge k v met =>
      if met = true ∨ v.toNat ≤ s.sems.get k then .next (s.completeItem c.hdr 0x04) else .next s
    | _ => .next s
  | none => .next s

/-- SIGNAL (R376). -/
def execCmdSignal (s : State) : Out :=
  s.withItem 0x05 fun h a0 a1 a2 =>
    s.withSem h 0x05 a0 <|
      if 1 < a2.toNat then s.illegal h 0x05 3
      else
        let t := if a2 = 0 then s.semAdd h 0x05 a0.toNat a1.toInt else s.semMax a0.toNat a1.toNat
        .next (t.completeItem h 0x05)

/-! COPY (R372, R374, R383) -/

/-- COPY: its operands are checked, and it is in progress. -/
def execCmdCopy (s : State) : Out :=
  s.withItem 0x06 fun h a0 a1 a2 =>
    if !lengthOk a2 then s.illegal h 0x06 3
    else match s.place h.thread a0 a2.toNat false 1, s.place h.thread a1 a2.toNat true 2 with
      | .error e, _ => .next (s.failCmd h 0x06 e)
      | _, .error e => .next (s.failCmd h 0x06 e)
      | .ok _, .ok _ =>
        let (owner, t) := s.freshId
        .next (t.setCur h (.copy a0 a1 a2.toNat 0 owner))

/-- The 64-bit pieces of a COPY from one offset on. -/
def State.copyWords (s : State) (owner region : Nat) (src dst : Place) : Nat → Nat → State
  | _, 0 => s
  | i, n + 1 => State.copyWords (s.writePlace owner region dst i (s.readPlace src i 8)) owner region src dst (i + 8) n

/-- COPY_COMPLETE (R374): bytes are written at the destination, as many as the second number of the subject says, or all; the
COPY completes when every byte has landed. A die that is lost meanwhile fails it (R383). -/
def execCopyComplete (s : State) : Out :=
  match s.curOf (Subject.num s.subj) with
  | some c =>
    match c.pending with
    | .copy src dst len done owner =>
      let t := c.hdr.thread
      match s.place t src len false 1, s.place t dst len true 2 with
      | .error e, _ => .next (s.failCmd c.hdr 0x06 e)
      | _, .error e => .next (s.failCmd c.hdr 0x06 e)
      | .ok a, .ok b =>
        let left := len - done
        let n := if Subject.second s.subj = 0 then left else min left (Subject.second s.subj / 8 * 8)
        let u := s.copyWords owner (s.threadRegion t) a b done (n / 8)
        if n = left ∧ u.engineBusy owner = false then .next (u.completeItem c.hdr 0x06)
        else .next (u.setCur c.hdr (.copy src dst len (done + n) owner))
    | _ => .next s
  | none => .next s

/-! Regions: PIN, UNPIN, WINDOW, EXTEP, HOSTEP -/

/-- A region that an operand names, for a command: one of the thread's grant. -/
def State.withRegion (s : State) (h : ItemHdr) (op : Nat) (a : Nat) (k : Nat → Out) : Out :=
  let r := s.regionOperand h.pc a
  if (s.region? r).isNone ∨ s.mayName h.thread r = false then s.denied h op else k r

/-- PIN (R94, R262, R372). -/
def execCmdPin (s : State) : Out :=
  s.withItem 0x07 fun h a0 a1 a2 =>
    s.withRegion h 0x07 a0.toNat fun r =>
      s.endingWrites h 0x07 fun t owner => t.pin owner r a1.toNat a2.toNat

/-- UNPIN (R262, R263, R372). -/
def execCmdUnpin (s : State) : Out :=
  s.withItem 0x08 fun h a0 a1 a2 =>
    if a2 ≠ 0 then s.illegal h 0x08 4
    else s.withRegion h 0x08 a0.toNat fun r =>
      s.endingWrites h 0x08 fun t owner => t.unpin owner r a1.toNat

/-- WINDOW (R228, R230, R372). -/
def execCmdWindow (s : State) : Out :=
  s.withItem 0x09 fun h a0 a1 a2 =>
    if rowOf a1.toNat ≠ 4 then s.illegal h 0x09 2
    else if a2 ≠ 0 then s.illegal h 0x09 4
    else s.withRegion h 0x09 a0.toNat fun r =>
      if !s.mayTable h.thread a1.toNat then s.denied h 0x09 else s.ending h 0x09 (s.setWindows r a1.toNat)

/-- EXTEP (R320, R372). -/
def execCmdExtep (s : State) : Out :=
  s.withItem 0x0A fun h a0 a1 a2 =>
    let e := endSpecOf false a0 a1 a2
    match endSpecFault false a0 a2 with
    | some k => s.illegal h 0x0A k
    | none =>
      if !s.mayEdge h.thread e.first then s.denied h 0x0A
      else s.withRegion h 0x0A e.region fun r => s.ending h 0x0A (s.queueEnd e r)

/-- HOSTEP (R291, R372). -/
def execCmdHostep (s : State) : Out :=
  s.withItem 0x14 fun h a0 a1 a2 =>
    let e := endSpecOf true a0 a1 a2
    match endSpecFault true a0 a2 with
    | some k => s.illegal h 0x14 k
    | none =>
      if h.thread ≠ 0 ∧ (e.first ≠ s.threadFn h.thread ∨ s.mayEdge h.thread (16 + e.second) = false) then s.denied h 0x14
      else s.withRegion h 0x14 e.region fun r => s.ending h 0x14 (s.queueEnd e r)

/-- IRQ (R372): the message is posted to the queue's function. -/
def execCmdIrq (s : State) : Out :=
  s.withItem 0x0B fun h a0 a1 a2 =>
    if 2047 < a0.toNat then s.illegal h 0x0B 1
    else if a1 ≠ 0 ∨ a2 ≠ 0 then s.illegal h 0x0B 4
    else s.ending h 0x0B (.ok { s with irqs := s.irqs ++ [(s.threadFn h.thread, a0.toNat)] })

/-! LOOP and IF (R377) -/

/-- A slot of a ring still holds the item. -/
def Thread.holds (t : Thread) : QItem → Bool
  | .ring n => decide (t.tail ≤ n + 2 ^ t.ringLog)
  | .book _ => true

/-- A position among the written items of a queue, or of the list that a trigger runs. -/
def Thread.written (t : Thread) (h : ItemHdr) (pos : Int) : Bool :=
  decide (0 ≤ pos) &&
    (if h.resident then
      (match t.sub with
        | some r => decide (pos < r.count)
        | none => false)
    else (t.items[pos.toNat]?).any t.holds)

/-- Moves the head. -/
def Thread.moveHead (t : Thread) (h : ItemHdr) (pos : Nat) : Thread :=
  if h.resident then { t with sub := t.sub.map fun r => { r with pos := pos } } else { t with head := pos }

/-- An item moves the head to its own position + delta, and completes. -/
def State.jumpItem (s : State) (h : ItemHdr) (op : Nat) (delta : Int) (k : State → State) : Out :=
  match s.thread? h.thread with
  | none => .next s
  | some t =>
    let pos : Int := h.pos + delta
    if !t.written h pos then s.illegal h op 8
    else .next (((k s).completeItem h op).modThread h.thread fun u => u.moveHead h pos.toNat)

/-- Name of the counter of a LOOP: its position in its queue or in its trigger's list. -/
def State.loopKey (s : State) (h : ItemHdr) : Nat :=
  if h.resident then (((s.thread? h.thread).bind (·.sub)).map fun r => (r.k + 1) * 2 ^ 32).getD 0 + h.pos else h.pos

/-- LOOP (R377). -/
def execCmdLoop (s : State) : Out :=
  s.withItem 0x0C fun h a0 a1 a2 =>
    if 0 < a0.toInt then s.illegal h 0x0C 1
    else if a1 = 0 ∨ 2 ^ 32 ≤ a1.toNat then s.illegal h 0x0C 2
    else if a2 ≠ 0 then s.illegal h 0x0C 4
    else
      let key := s.loopKey h
      let n := ((s.thread? h.thread).map fun t => t.loops.get key).getD 0
      let count (v : Nat) (u : State) : State := u.modThread h.thread fun t => { t with loops := t.loops.set key v }
      if n < a1.toNat then s.jumpItem h 0x0C a0.toInt (count (n + 1))
      else .next ((count 0 s).completeItem h 0x0C)

/-- IF (R377). -/
def execCmdIf (s : State) : Out :=
  s.withItem 0x0D fun h a0 a1 a2 =>
    s.withSem h 0x0D a0 <|
      if a1.toNat ≤ s.sems.get a0.toNat then s.jumpItem h 0x0D a2.toInt id else .next (s.completeItem h 0x0D)

/-! Triggers (R378) -/

/-- Trigger words. -/
def triggerWords : Nat := 64

/-- TRIG (R372, R378, R383). -/
def execCmdTrig (s : State) : Out :=
  s.withItem 0x0E fun h a0 a1 a2 =>
    s.notResident h 0x0E <|
      let rest := s.triggers.filter (·.k != a0.toNat)
      if triggerWords ≤ a0.toNat then s.illegal h 0x0E 1
      else if 256 < a2.toNat then s.illegal h 0x0E 3
      else if rowOf a1.toNat ≠ 4 then s.illegal h 0x0E 2
      else if a2 = 0 then
        s.ending h 0x0E (if s.addressable a1.toNat then .ok { s with triggers := rest } else .error (.window, none, none))
      else match s.memPlace h.thread a1.toNat (32 * a2.toNat) false 2 with
        | .error e => .next (s.failCmd h 0x0E e)
        | .ok l =>
          s.ending h 0x0E (.ok { s with triggers := rest ++
            [{ k := a0.toNat, thread := h.thread, list := l, count := a2.toNat, pending := 0 }] })

/-- The count of a trigger changes. -/
def State.setPending (s : State) (k n : Nat) : State :=
  { s with triggers := s.triggers.map fun (g : Trigger) => if g.k = k then { g with pending := n } else g }

/-- TRIGGER_WRITE (R378): the oldest write of a word that has reached its home is counted. The record of a write that is not
counted has no cause in the rule: it is a free value (log 12). -/
def execTriggerWrite (s : State) : Out :=
  let k := Subject.num s.subj
  if !s.trigWrites.contains k then .next s
  else
    let s := { s with trigWrites := s.trigWrites.erase k }
    match s.triggers.find? (·.k == k) with
    | none => .next s
    | some g =>
      if g.pending < 255 then .next (s.setPending k (g.pending + 1))
      else
        .next ({ s with free := s.free + 3 }.postFor (s.threadFn g.thread)
          { cause := Cause.free (Config.detail s.free), region := s.threadRegion g.thread, d0 := Config.detail (s.free + 1),
            d1 := Config.detail (s.free + 2), time := s.ns })

/-- A thread may begin a run: between two commands, or while it is blocked in WAITGE. -/
def Thread.idle (t : Thread) : Bool :=
  t.sub.isNone && (match t.cur with
    | none => true
    | some c => match c.pending with
      | .waitge _ _ _ => true
      | _ => false)

/-- A run of a trigger begins on its thread: none of it is under way (R378). -/
def State.beginRun (s : State) (t : Thread) (g : Trigger) : State :=
  if g.thread ≠ t.num ∨ g.pending = 0 ∨ t.idle = false ∨ s.threads.any (fun u => u.sub.any (·.k == g.k)) = true then s
  else s.putThread { t with sub := some { k := g.k, list := g.list, count := g.count, pos := 0, cur := none } }

/-- A run ends behind the last item of the list that it began with, and its write counts no more; a trigger that has been armed
anew on another thread keeps its own count (R378). -/
def State.endRun (s : State) (t : Thread) (r : SubRun) : State :=
  if r.cur.isSome = true ∨ r.pos < r.count then s
  else
    let s := s.putThread { t with sub := none }
    match s.triggers.find? (·.k == r.k) with
    | some g => if g.thread = t.num then s.setPending g.k (g.pending - 1) else s
    | none => s

/-- TRIGGER_RUN (R378): a run of a trigger's list begins, or ends after its last item. -/
def execTriggerRun (s : State) : Out :=
  let k := Subject.second s.subj
  match s.thread? (Subject.num s.subj) with
  | none => .next s
  | some t =>
    if t.stopped then .next s
    else match t.sub with
      | some r => if r.k = k then .next (s.endRun t r) else .next s
      | none =>
        match s.triggers.find? (·.k == k) with
        | some g => .next (s.beginRun t g)
        | none => .next s

/-! Scene changes, removal, re-admission (R350, R370, R383) -/

/-- Only thread 0 may run the command. -/
def State.thread0 (s : State) (h : ItemHdr) (op : Nat) (k : Out) : Out :=
  s.notResident h op (if h.thread ≠ 0 then s.denied h op else k)

/-- SCENE (R350, R370, R372). A refusal of R350 names no cause: it is a free value (log 12), but for a width outside
Table 21.1, which breaks the operand's limits. -/
def execCmdScene (s : State) : Out :=
  s.withItem 0x0F fun h a0 a1 a2 =>
    s.thread0 h 0x0F <|
      let g := fieldOf a0 0 4
      let pers := (a0.setWidth 64).extractLsb' 8 2
      let code := fieldOf a0 16 4
      if zeroBut a0 0xF030F = false ∨ widthOk pers code = false then s.illegal h 0x0F 1
      else if a1 ≠ 0 ∧ rowOf a1.toNat ≠ 4 then s.illegal h 0x0F 2
      else if a2 ≠ 0 then s.illegal h 0x0F 4
      else if !s.sceneOk g pers code then
        .next ({ s with free := s.free + 1 }.failCmd h 0x0F (Cause.free (Config.detail s.free), none, none))
      else .next ((s.beginScene g pers code a1.toNat (some h.thread)).setCur h (.scene g))

/-- A graded part (Table 0.4). -/
def Pkg.graded (k : Pkg) : Bool := k.part != .full

/-- REMOVE (R334, R370, R383); it waits while a reclock runs. -/
def execCmdRemove (s : State) : Out :=
  s.withItem 0x10 fun h a0 a1 a2 =>
    s.thread0 h 0x10 <|
      let d := a0.toNat
      if 7 < d then s.illegal h 0x10 1
      else if a1 ≠ 0 ∨ a2 ≠ 0 then s.illegal h 0x10 4
      else if s.reclock.isSome then .next s
      else if d = 0 ∨ s.pkg.graded = true ∨ s.pkg.dieMask.getLsbD d = false then
        .next (s.failCmd h 0x10 (.illegal, some d, some 7))
      else .next ((s.removeDie d).setCur h (.removal d))

/-- ADMIT (R337, R370, R383); it waits while a reclock runs. -/
def execCmdAdmit (s : State) : Out :=
  s.withItem 0x11 fun h a0 a1 a2 =>
    s.thread0 h 0x11 <|
      let d := a0.toNat
      if 7 < d then s.illegal h 0x11 1
      else if a1 ≠ 0 ∨ a2 ≠ 0 then s.illegal h 0x11 4
      else if s.reclock.isSome then .next s
      else if s.pkg.graded = true ∨ s.joinable d = false then .next (s.failCmd h 0x11 (.illegal, some d, some 7))
      else .next ((s.admitDie d).setCur h (.admission d))

/-! Cue sheets and keys (R363, R364, R372) -/

/-- CUE (R363, R370, R372). -/
def execCmdCue (s : State) : Out :=
  s.withItem 0x12 fun h a0 a1 a2 =>
    let g := fieldOf a0 0 4
    let put (f : Flow) (l : List Cue) : Out := s.ending h 0x12 (.ok (s.modGroup g (·.putFlow { f with cues := l })))
    if fieldOf a0 4 12 ≠ 0 then s.illegal h 0x12 1
    else if !s.mayEdge h.thread g then s.denied h 0x12
    else match (if (s.group g).pers = persUet then (s.group g).flow? (fieldOf a0 16 16) else none) with
      | none => .next (s.failCmd h 0x12 (.link, none, some 4))
      | some f =>
        if a2.getLsbD 63 then put f []
        else if zeroBut a2 0x400000FFFFFFFFFF = false ∨ fieldOf a2 0 40 % 8 ≠ 0 then s.illegal h 0x12 3
        else match s.memPlace h.thread (fieldOf a2 0 40) 8 true 3 with
          | .error e => .next (s.failCmd h 0x12 e)
          | .ok compl =>
            if cueEntries ≤ f.cues.length then .next (s.failCmd h 0x12 (.chBind, none, some 3))
            else
              put f (f.cues ++ [{ tag := a0.extractLsb' 32 16, mask := a0.extractLsb' 48 16, key := a1.extractLsb' 0 32,
                                  off := fieldOf a1 32 32, compl := compl, persist := a2.getLsbD 62,
                                  region := s.threadRegion h.thread }])

/-- An index of a key table; one that was never registered has REUSE 0. -/
def Group.keyOf (g : Group) (i : Nat) : Key :=
  match g.keys.find? (·.idx == i) with
  | some k => k
  | none => { idx := i, base := 0, len := 0, rw := false, rr := false, reuse := 0, valid := false, freedAt := none }

/-- Puts an index back. -/
def Group.putKey (g : Group) (k : Key) : Group := { g with keys := (g.keys.filter (·.idx != k.idx)) ++ [k] }

/-- KEYHOLD of a group has passed since an index was invalidated (R364). -/
def State.holdOver (s : State) (g : Group) (k : Key) : Bool :=
  match k.freedAt with
  | some t => decide (t + g.keyhold.toNat * 1000 ≤ s.ns)
  | none => true

/-- An index is registered: its REUSE goes up. -/
def State.register (s : State) (g i base len : Nat) (rw rr : Bool) : State :=
  s.modGroup g fun x =>
    x.putKey { idx := i, base := base, len := len, rw := rw, rr := rr, reuse := (x.keyOf i).reuse + 1, valid := true,
               freedAt := none }

/-- MKEY register (R364, R372). -/
def State.mkeyRegister (s : State) (h : ItemHdr) (g i : Nat) (a1 a2 : Word) : Out :=
  let base := a1.toNat
  let len := fieldOf a2 0 32
  let k := (s.group g).keyOf i
  if 2 ^ 40 ≤ base then s.illegal h 0x13 2
  else if zeroBut a2 0x3FFFFFFFF = false ∨ lengthOk (BitVec.ofNat 64 len) = false then s.illegal h 0x13 3
  else if rowOf base ≠ 3 ∧ rowOf base ≠ 4 then .next (s.failCmd h 0x13 (.window, none, none))
  else match s.memPlace h.thread base len (a2.getLsbD 32) 2 with
    | .error e => .next (s.failCmd h 0x13 e)
    | .ok _ =>
      if k.valid then .next (s.failCmd h 0x13 (.chBind, none, some 1))
      else if s.holdOver (s.group g) k then
        s.ending h 0x13 (.ok (s.register g i base len (a2.getLsbD 32) (a2.getLsbD 33)))
      else .next (s.setCur h (.mkey g i base len (a2.getLsbD 32) (a2.getLsbD 33)))

/-- MKEY (R364, R370, R372). -/
def execCmdMkey (s : State) : Out :=
  s.withItem 0x13 fun h a0 a1 a2 =>
    let g := fieldOf a0 0 4
    let i := fieldOf a0 16 24
    let op := fieldOf a0 62 2
    if fieldOf a0 4 12 ≠ 0 ∨ fieldOf a0 40 22 ≠ 0 ∨ 1 < op then s.illegal h 0x13 1
    else if !s.mayEdge h.thread g then s.denied h 0x13
    else if (s.group g).pers ≠ persUet then .next (s.failCmd h 0x13 (.link, none, some 4))
    else if keyEntries ≤ i then .next (s.failCmd h 0x13 (.window, none, none))
    else if op = 0 then s.mkeyRegister h g i a1 a2
    else if a1 ≠ 0 ∨ a2 ≠ 0 then s.illegal h 0x13 4
    else
      let k := (s.group g).keyOf i
      s.ending h 0x13 (.ok (if k.valid then s.modGroup g fun x => x.putKey { k with valid := false, freedAt := some s.ns } else s))

/-- MKEY_KEYHOLD_EXPIRY (R364): an MKEY that waits registers its index; by then the group may have left UET. -/
def execMkeyKeyholdExpiry (s : State) : Out :=
  match s.curOf (Subject.num s.subj) with
  | some c =>
    match c.pending with
    | .mkey g i base len rw rr =>
      if (s.group g).pers ≠ persUet then .next (s.failCmd c.hdr 0x13 (.link, none, some 4))
      else if ((s.group g).keyOf i).valid then .next (s.failCmd c.hdr 0x13 (.chBind, none, some 1))
      else if s.holdOver (s.group g) ((s.group g).keyOf i) then
        .next ((s.register g i base len rw rr).completeItem c.hdr 0x13)
      else .next s
    | _ => .next s
  | none => .next s

/-! Queues (R369, R373) -/

/-- Items of a ring that the thread has not run. -/
def Thread.waiting (t : Thread) : Nat :=
  ((t.items.drop t.head).filter fun i => match i with
    | .ring _ => true
    | .book _ => false).length

/-- QUEUE_DOORBELL (R369): the host has written so many items more to a thread's ring. -/
def execQueueDoorbell (s : State) : Out :=
  let n := Subject.second s.subj
  match s.thread? (Subject.num s.subj) with
  | some t =>
    if t.num = 0 ∨ 2 ^ t.ringLog < t.waiting + n then .next s
    else
      .next (s.putThread { t with tail := t.tail + n
                                  items := t.items ++ (List.range n).map fun i => QItem.ring (t.tail + i) })
  | none => .next s

/-- QUEUE_RESTART (R373): the monitor restarts a queue at the item after the failing one. -/
def execQueueRestart (s : State) : Out :=
  match s.thread? (Subject.num s.subj) with
  | some t => if t.stopped then .next (s.putThread { t with stopped := false }) else .next s
  | none => .next s

/-! Fetching an item (R369, R375, R378) -/

/-- The row that performs an operation code (Table 23.2). -/
def opInstr : Nat → Option Instr
  | 0x01 => some .cmdLoad | 0x02 => some .cmdLaunch | 0x03 => some .cmdEnd | 0x04 => some .cmdWaitge
  | 0x05 => some .cmdSignal | 0x06 => some .cmdCopy | 0x07 => some .cmdPin | 0x08 => some .cmdUnpin
  | 0x09 => some .cmdWindow | 0x0A => some .cmdExtep | 0x0B => some .cmdIrq | 0x0C => some .cmdLoop
  | 0x0D => some .cmdIf | 0x0E => some .cmdTrig | 0x0F => some .cmdScene | 0x10 => some .cmdRemove
  | 0x11 => some .cmdAdmit | 0x12 => some .cmdCue | 0x13 => some .cmdMkey | 0x14 => some .cmdHostep
  | _ => none

/-- Bytes of an item, with its header and whether it may name a queue. -/
structure FetchedItem where
  hdr : ItemHdr
  item : CmdItem
  ring : Bool
deriving DecidableEq, Repr

/-- An item from its 32 bytes. -/
def fetchedOf (thread : Nat) (bs : List Byte) (pc pos : Nat) (resident ring : Bool) : FetchedItem :=
  let i := cmdAt bs 0
  { hdr := { thread := thread, postsem := i.postsem, postadd := i.postadd, pc := BitVec.ofNat 64 pc, pos := pos,
             resident := resident }, item := i, ring := ring }

/-- The item that a thread runs next. -/
def State.nextItem (s : State) (t : Thread) : Option FetchedItem :=
  match t.sub with
  | some r =>
    if r.cur.isNone ∧ r.pos < r.count then
      let a := r.list + 32 * r.pos
      some (fetchedOf t.num (s.mem.bytes a 32) a r.pos true true)
    else none
  | none =>
    if t.cur.isSome then none
    else match t.items[t.head]? with
      | some (.ring n) =>
        let a := t.ring + 32 * (n % 2 ^ t.ringLog)
        some (fetchedOf t.num (s.hostBytes t.function a 32) (2 ^ 63 + a % 2 ^ 63) t.head false true)
      | some (.book a) => some (fetchedOf t.num (s.mem.bytes a 32) a t.head false false)
      | none => none

/-- What an item that a thread has fetched does: the row that performs it with its subject, or its failure (R371, R372). -/
def State.itemAction (s : State) (f : FetchedItem) : Except State (Instr × Subject) :=
  match opInstr f.item.op with
  | none => .error (s.failCmd f.hdr f.item.op (.illegal, none, some 0))
  | some i =>
    if f.ring && f.item.queue != 0 then .error (s.failCmd f.hdr f.item.op (.illegal, none, some 4))
    else .ok (i, .item f.hdr f.item.a0 f.item.a1 f.item.a2)

/-! Monitor (R368, R370, R376, R389) -/

/-- MONITOR_ASSIGNMENT: a thread is given to a function, with a root region and its grant. -/
def execMonitorAssignment (s : State) : Out :=
  match s.subj with
  | .assign m =>
    if m.thread = 0 ∨ 31 < m.thread ∨ m.ringLog < 4 ∨ 16 < m.ringLog ∨ 64 < m.function ∨ 0xFFFF < s.nextRegion then .next s
    else
      let num := s.nextRegion
      let r : Region := { num := num, parent := num, depth := 0, ovr := 0, ceil := m.ceil.toNat, fdepth := m.fdepth,
                          plto := m.plto, corebud := m.corebud, grbud := m.grbud, faultep := m.faultep,
                          replyep := m.replyep, faulttab := m.chtab, segtab := m.segtab, chtab := m.chtab,
                          wintab := m.wintab, segs := s.tableCopy m.segtab, function := m.function }
      let t : Thread := { num := m.thread, function := m.function, region := num, ring := m.ringBase, ringLog := m.ringLog }
      let sems := m.semaphores.flatMap fun x => (List.range (min x.2 (semaphores - 1) + 1 - x.1)).map (x.1 + ·)
      .next { s with
        nextRegion := num + 1
        regions := s.regions ++ [r]
        threads := (s.threads.filter (·.num != m.thread)) ++ [t]
        grants := s.grants ++ [{ region := num, ranges := m.grants }]
        semOwners := (s.semOwners.filter fun x => !sems.contains x.1) ++ sems.map fun k => (k, m.function)
        edgeGrants := s.edgeGrants ++ (m.edgeGroups.filter (· < 16)).map (fun g => (m.function, g)) ++
          m.hostQueues.map fun q => (m.function, 16 + q) }
  | _ => .next s

/-- CONTROL_REGISTER_WRITE (R16, R38, R342): registers that only the stage manager writes; the status registers ignore it.
-/
def execControlRegisterWrite (s : State) : Out :=
  match s.subj with
  | .control (.quantum c) v => .next (s.modCore c fun k => { k with quantum := v.setWidth 24 })
  | .control (.probe c) v => .next (s.modCore c fun k => { k with probe := v.setWidth 20 })
  | .control (.keyhold g) v => .next (s.modGroup g fun x => { x with keyhold := v.setWidth 32 })
  | _ => .next s

/-- UALINK_DOMAIN_FORMED (R10). -/
def execUalinkDomainFormed (s : State) : Out :=
  match s.subj with
  | .domain n => .next { s with pkg := { s.pkg with pkgNum := n } }
  | _ => .next s

/-! Boot, wipe, life cycle, attestation (R379–R382) -/

/-- Bytes of a key as it is hashed: x then y, big-endian (log 10). -/
def keyBytes (x y : Nat) : List Byte := beBytes x 32 ++ beBytes y 32

/-- A mask of two stacks or groups for each die of a mask (R12). -/
def pairs (m : BitVec 8) : BitVec 16 :=
  BitVec.ofNat 16 ((List.range 8).foldl (fun n d => if m.getLsbD d then n + 3 * 4 ^ d else n) 0)

/-- The monitor image may run (R379 step 2): the key hash and the floor are fuses. -/
def Pkg.monitorOk (k : Pkg) (b : BootInput) : Bool :=
  sha256 (keyBytes b.monKeyX b.monKeyY) == k.keyHash.toNat && decide (k.floor ≤ b.monVersion) &&
    ecdsaOk b.monKeyX b.monKeyY b.monR b.monS b.monImage

/-- The queue firmware may run (R379 step 4). -/
def Pkg.firmwareOk (k : Pkg) (b : BootInput) : Bool :=
  decide (k.floor ≤ b.fwVersion) && ecdsaOk b.ownKeyX b.ownKeyY b.fwR b.fwS b.fwImage

/-- The dies that a boot brings up (R16): the fused ones, less those that fail to train. -/
def Pkg.bootDies (k : Pkg) (b : BootInput) : BitVec 8 := k.part.dies &&& b.trained

/-- What a boot makes of the fuses (R16, R379): the part, the stepping, the key hash, the floor and the life cycle stay. -/
def Pkg.boot (k : Pkg) (b : BootInput) (error : Nat) : Pkg :=
  let dies := k.bootDies b
  let up := k.monitorOk b && dies.getLsbD 0
  { k with
    dieMask := dies, stackMask := pairs dies, edgeMask := pairs dies, itab := pairs dies, pkgNum := 0, ownX := b.ownKeyX,
    ownY := b.ownKeyY, monMeas := BitVec.ofNat 256 (if k.monitorOk b then sha256 b.monImage else 0),
    fwMeas := BitVec.ofNat 256 (if up && k.firmwareOk b then sha256 b.fwImage else 0), secVersion := b.monVersion,
    bootError := if up then 0 else error, threadsOn := up && k.firmwareOk b, running := up }

/-- PACKAGE_RESET (R379, R380, R382): reset, wipe, and the steps of Table 23.3. What stands outside the package keeps its
state: host and far memory, and what has left the package. -/
def execPackageReset (s : State) : Out :=
  match s.subj with
  | .boot b =>
    .next { State.reset with
      agenda := s.agenda, subj := s.subj, pkg := s.pkg.boot b (Config.detail s.free).toNat, far := s.far,
      farMarks := s.farMarks, host := s.host, errorRings := s.errorRings, irqs := s.irqs, framesOut := s.framesOut,
      acksOut := s.acksOut, uaOut := s.uaOut, reports := s.reports, free := s.free + 1 }
  | _ => .next s

/-- A wipe (R380): memories at zero, bits full, no mark, reservation, watch, context or binding entry, and nothing that stood
in the lofts. -/
def State.wipe (s : State) : State :=
  { s with
    cpu := none, procs := [], cores := [], regions := [], loaderWins := [], placed := [], placements := [], mem := [],
    empty := [], marks := [], latent := [], hbm := [], hbmMarks := [], watches := [], rsvs := [], packets := [],
    loanMsgs := [], probes := [], transfers := [], channels := [], barriers := [], requests := [], servers := [],
    books := [], triggers := [], trigWrites := [], loftUsed := [], managerRecords := [] }

/-- Codes of the life-cycle states, in the order of R381 (log 4). -/
def lifeCode : LifeCycle → Nat
  | .manufacture => 0 | .owned => 1 | .debug => 2 | .retired => 3

/-- The bytes of the command that changes the life cycle to a state: no rule gives them; that they are the one byte of its code
is the model's choice (log 4). -/
def lifeCommand (l : LifeCycle) : List Byte := [BitVec.ofNat 8 (lifeCode l)]

/-- LIFE_CYCLE_CHANGE (R380, R381): a command to a state, signed by the owner key, changes to that state, and the package is
wiped. -/
def execLifeCycleChange (s : State) : Out :=
  match s.subj with
  | .life l image keyX keyY r sg =>
    if image = lifeCommand l ∧ keyX = s.pkg.ownX ∧ keyY = s.pkg.ownY ∧ ecdsaOk keyX keyY r sg image = true then
      .next { s.wipe with pkg := { s.pkg with lifeCycle := l } }
    else .next s
  | _ => .next s

/-- The signed part of an attestation report (Table 23.4). -/
def State.reportBody (s : State) (nonce : BitVec 256) (slot : Nat) : List Byte :=
  beBytes nonce.toNat 32 ++ beBytes s.pkg.monMeas.toNat 32 ++ beBytes s.pkg.fwMeas.toNat 32 ++
    beBytes (((s.bookHashes.find? (·.1 == slot)).map (·.2)).getD 0) 32 ++
    toBytes (lifeCode s.pkg.lifeCycle + s.pkg.cfg * 2 ^ 16) 8 ++ toBytes s.pkg.secVersion 8

/-- The secret number of the next signature: a free value from 1 to n − 1 (log 10). -/
def State.nonce (s : State) : Nat := 1 + Config.signNonce s.free % (pN - 1)

/-- The signature r then s, big-endian, that the device key puts on bytes (Table 23.4). -/
def State.signature (s : State) (body : List Byte) : List Byte :=
  let (r, sg) := ecdsaSign s.pkg.deviceKey.toNat s.nonce body
  beBytes r 32 ++ beBytes sg 32

/-- ATTESTATION_REPORT (R381): signed by the device key (log 10). -/
def execAttestationReport (s : State) : Out :=
  match s.subj with
  | .attest nonce slot =>
    let body := s.reportBody nonce slot
    .next { s with reports := s.reports ++ [body ++ s.signature body], free := s.free + 1 }
  | _ => .next s

/-! Power (R384) -/

/-- The next lower clock (Table 23.5). -/
def lowerClock (mhz : Nat) : Nat :=
  if mhz = 1200 then 1000 else if mhz = 1000 then 800 else 600

/-- THERMAL_THROTTLE (R384): the die asks for a step to a lower clock. -/
def execThermalThrottle (s : State) : Out :=
  let d := Subject.num s.subj
  .next (s.askStep d (lowerClock (s.die d).mhz))

/-- Every running process is halted. -/
def State.haltAll (s : State) : State :=
  (s.allProcs.filter (·.st == .running)).foldl (fun t p => t.stopRunning p State.toHead) s

/-- THERMAL_TRIP (R384): the package halts every core, and the monitor posts a record; no rule states its DETAIL1. -/
def execThermalTrip (s : State) : Out :=
  let t := s.haltAll
  .next ({ t with free := t.free + 1, pkg := { t.pkg with running := false } }.postMachine
    { cause := .memerr, d0 := BitVec.ofNat 64 (Subject.num s.subj), d1 := Config.detail t.free, time := t.ns })

/-! What comes from outside (log 1) -/

/-- The stage manager asks for a halt of a core's running process (R47). -/
def State.managerHalt (s : State) (c : Nat) : State :=
  if (s.runningOn c).isSome then s.askHalt c .manager else s

/-- An uncorrectable error arises in a granule of memory (R112). -/
def State.memError (s : State) (a : Nat) (hbm : Bool) : State :=
  let g := wordAt a
  if hbm then { s with hbmMarks := insertAddr (wordAt (s.pkg.hbmKey a)) s.hbmMarks }
  else if mapOk a then { s with latent := insertAddr g s.latent } else s

/-- The host sets up a queue of a function (R349). -/
def State.setHostQueue (s : State) (f n base entries : Nat) : State :=
  if 255 < n ∨ base % 64 ≠ 0 ∨ ¬((List.range 13).map (fun k => 2 ^ (k + 4))).contains entries = true then s
  else
    { s with hostQueues := (s.hostQueues.filter fun q => !(q.function == f && q.num == n)) ++
        [{ function := f, num := n, base := base, entries := entries, head := 0 }] }

/-- The host advances the tail of a queue (R349, log 61): the entry behind the last that it has filled. -/
def State.hostTail (s : State) (f n tail : Nat) : State :=
  { s with hostQueues := s.hostQueues.map fun q =>
      if q.function == f && q.num == n && decide (tail < q.entries) then { q with tail := tail }
      else q }

/-- The inbound windows of a group (R344). -/
def State.setInbound (s : State) (g : Nat) (ws : List WinEntry) : State := s.modGroup g fun x => { x with inwins := ws }

/-- An idle end of a channel goes to another package (R290). -/
def State.joinPeer (s : State) (t n g pkg : Nat) (tx : Bool) : State :=
  s.modChan t n fun c =>
    if (c.fin tx).st = .idle ∧ c.outside = .none then { c.giveDevice tx with outside := .peer g pkg } else c

end Sys2Proof.Machine
end

