-- ==== Sys2Proof/Machine/Dispatch.lean ====
section
/-! DEFINITION. What each instruction does: one arm for each constructor of `Instr`, each one call of its meaning. -/

namespace Sys2Proof.Machine

def exec (i : Instr) (s : State) : Host.Outcome State Fault Refusal :=
  match i with
  | .add d a b => Sys2Proof.Machine.execAdd d a b s
  | .sub d a b => Sys2Proof.Machine.execSub d a b s
  | .and d a b => Sys2Proof.Machine.execAnd d a b s
  | .or d a b => Sys2Proof.Machine.execOr d a b s
  | .xor d a b => Sys2Proof.Machine.execXor d a b s
  | .andn d a b => Sys2Proof.Machine.execAndn d a b s
  | .sll d a b => Sys2Proof.Machine.execSll d a b s
  | .srl d a b => Sys2Proof.Machine.execSrl d a b s
  | .sra d a b => Sys2Proof.Machine.execSra d a b s
  | .ror d a b => Sys2Proof.Machine.execRor d a b s
  | .slt d a b => Sys2Proof.Machine.execSlt d a b s
  | .sltu d a b => Sys2Proof.Machine.execSltu d a b s
  | .min d a b => Sys2Proof.Machine.execMin d a b s
  | .max d a b => Sys2Proof.Machine.execMax d a b s
  | .minu d a b => Sys2Proof.Machine.execMinu d a b s
  | .maxu d a b => Sys2Proof.Machine.execMaxu d a b s
  | .mul d a b => Sys2Proof.Machine.execMul d a b s
  | .mulh d a b => Sys2Proof.Machine.execMulh d a b s
  | .mulhu d a b => Sys2Proof.Machine.execMulhu d a b s
  | .mulhsu d a b => Sys2Proof.Machine.execMulhsu d a b s
  | .div d a b => Sys2Proof.Machine.execDiv d a b s
  | .divu d a b => Sys2Proof.Machine.execDivu d a b s
  | .rem d a b => Sys2Proof.Machine.execRem d a b s
  | .remu d a b => Sys2Proof.Machine.execRemu d a b s
  | .clz d a => Sys2Proof.Machine.execClz d a s
  | .ctz d a => Sys2Proof.Machine.execCtz d a s
  | .popc d a => Sys2Proof.Machine.execPopc d a s
  | .sextB d a => Sys2Proof.Machine.execSextB d a s
  | .sextH d a => Sys2Proof.Machine.execSextH d a s
  | .sextW d a => Sys2Proof.Machine.execSextW d a s
  | .zextW d a => Sys2Proof.Machine.execZextW d a s
  | .addi d a imm => Sys2Proof.Machine.execAddi d a imm s
  | .andi d a imm => Sys2Proof.Machine.execAndi d a imm s
  | .ori d a imm => Sys2Proof.Machine.execOri d a imm s
  | .xori d a imm => Sys2Proof.Machine.execXori d a imm s
  | .slti d a imm => Sys2Proof.Machine.execSlti d a imm s
  | .sltiu d a imm => Sys2Proof.Machine.execSltiu d a imm s
  | .slli d a sh => Sys2Proof.Machine.execSlli d a sh s
  | .srli d a sh => Sys2Proof.Machine.execSrli d a sh s
  | .srai d a sh => Sys2Proof.Machine.execSrai d a sh s
  | .lih d imm => Sys2Proof.Machine.execLih d imm s
  | .addpc d imm => Sys2Proof.Machine.execAddpc d imm s
  | .ldb d a off => Sys2Proof.Machine.execLdb d a off s
  | .ldh d a off => Sys2Proof.Machine.execLdh d a off s
  | .ldw d a off => Sys2Proof.Machine.execLdw d a off s
  | .ldd d a off => Sys2Proof.Machine.execLdd d a off s
  | .ldbu d a off => Sys2Proof.Machine.execLdbu d a off s
  | .ldhu d a off => Sys2Proof.Machine.execLdhu d a off s
  | .ldwu d a off => Sys2Proof.Machine.execLdwu d a off s
  | .stb b a off => Sys2Proof.Machine.execStb b a off s
  | .sth b a off => Sys2Proof.Machine.execSth b a off s
  | .stw b a off => Sys2Proof.Machine.execStw b a off s
  | .std b a off => Sys2Proof.Machine.execStd b a off s
  | .beq a b off => Sys2Proof.Machine.execBeq a b off s
  | .bne a b off => Sys2Proof.Machine.execBne a b off s
  | .blt a b off => Sys2Proof.Machine.execBlt a b off s
  | .bge a b off => Sys2Proof.Machine.execBge a b off s
  | .bltu a b off => Sys2Proof.Machine.execBltu a b off s
  | .bgeu a b off => Sys2Proof.Machine.execBgeu a b off s
  | .jal d off => Sys2Proof.Machine.execJal d off s
  | .jalr d a imm => Sys2Proof.Machine.execJalr d a imm s
  | .trap a code => Sys2Proof.Machine.execTrap a code s
  | .brk code => Sys2Proof.Machine.execBrk code s
  | .ifl a b => Sys2Proof.Machine.execIfl a b s
  | .csrr d c => Sys2Proof.Machine.execCsrr d c s
  | .csrw c a => Sys2Proof.Machine.execCsrw c a s
  | .csrs d c a => Sys2Proof.Machine.execCsrs d c a s
  | .csrc d c a => Sys2Proof.Machine.execCsrc d c a s
  | .cAddi d imm => Sys2Proof.Machine.execCAddi d imm s
  | .cLi d imm => Sys2Proof.Machine.execCLi d imm s
  | .cMv d a => Sys2Proof.Machine.execCMv d a s
  | .cAdd d a => Sys2Proof.Machine.execCAdd d a s
  | .cSub d a => Sys2Proof.Machine.execCSub d a s
  | .cAnd d a => Sys2Proof.Machine.execCAnd d a s
  | .cOr d a => Sys2Proof.Machine.execCOr d a s
  | .cXor d a => Sys2Proof.Machine.execCXor d a s
  | .cSlli d sh => Sys2Proof.Machine.execCSlli d sh s
  | .cSrli d sh => Sys2Proof.Machine.execCSrli d sh s
  | .cLdd d a off => Sys2Proof.Machine.execCLdd d a off s
  | .cStd b a off => Sys2Proof.Machine.execCStd b a off s
  | .cLdw d a off => Sys2Proof.Machine.execCLdw d a off s
  | .cStw b a off => Sys2Proof.Machine.execCStw b a off s
  | .cBeqz a off => Sys2Proof.Machine.execCBeqz a off s
  | .cBnez a off => Sys2Proof.Machine.execCBnez a off s
  | .cJ off => Sys2Proof.Machine.execCJ off s
  | .ldaq sz d a => Sys2Proof.Machine.execLdaq sz d a s
  | .strl sz b a => Sys2Proof.Machine.execStrl sz b a s
  | .ldf d a => Sys2Proof.Machine.execLdf d a s
  | .lde d a => Sys2Proof.Machine.execLde d a s
  | .stf b a => Sys2Proof.Machine.execStf b a s
  | .ste b a => Sys2Proof.Machine.execSte b a s
  | .fefill a b => Sys2Proof.Machine.execFefill a b s
  | .feclr a b => Sys2Proof.Machine.execFeclr a b s
  | .waitw d a b => Sys2Proof.Machine.execWaitw d a b s
  | .waitc d a b => Sys2Proof.Machine.execWaitc d a b s
  | .stNt b a => Sys2Proof.Machine.execStNt b a s
  | .drainNt => Sys2Proof.Machine.execDrainNt s
  | .rsv d a => Sys2Proof.Machine.execRsv d a s
  | .rls a b => Sys2Proof.Machine.execRls a b s
  | .amoAdd rlx d a b => Sys2Proof.Machine.execAmoAdd rlx d a b s
  | .amoAnd rlx d a b => Sys2Proof.Machine.execAmoAnd rlx d a b s
  | .amoOr rlx d a b => Sys2Proof.Machine.execAmoOr rlx d a b s
  | .amoXor rlx d a b => Sys2Proof.Machine.execAmoXor rlx d a b s
  | .amoMin rlx d a b => Sys2Proof.Machine.execAmoMin rlx d a b s
  | .amoMax rlx d a b => Sys2Proof.Machine.execAmoMax rlx d a b s
  | .amoMinu rlx d a b => Sys2Proof.Machine.execAmoMinu rlx d a b s
  | .amoMaxu rlx d a b => Sys2Proof.Machine.execAmoMaxu rlx d a b s
  | .amoSwap rlx d a b => Sys2Proof.Machine.execAmoSwap rlx d a b s
  | .amoCas rlx d a b => Sys2Proof.Machine.execAmoCas rlx d a b s
  | .fence sn => Sys2Proof.Machine.execFence sn s
  | .cfenceI d => Sys2Proof.Machine.execCfenceI d s
  | .cfenceW a => Sys2Proof.Machine.execCfenceW a s
  | .vadd t rc m d a b => Sys2Proof.Machine.execVadd t rc m d a b s
  | .vsub t rc m d a b => Sys2Proof.Machine.execVsub t rc m d a b s
  | .vmul t rc m d a b => Sys2Proof.Machine.execVmul t rc m d a b s
  | .vfma t rc m d a b => Sys2Proof.Machine.execVfma t rc m d a b s
  | .vfms t rc m d a b => Sys2Proof.Machine.execVfms t rc m d a b s
  | .vfnma t rc m d a b => Sys2Proof.Machine.execVfnma t rc m d a b s
  | .vmax t m d a b => Sys2Proof.Machine.execVmax t m d a b s
  | .vmin t m d a b => Sys2Proof.Machine.execVmin t m d a b s
  | .vabs t m d a => Sys2Proof.Machine.execVabs t m d a s
  | .vneg t m d a => Sys2Proof.Machine.execVneg t m d a s
  | .vcmp t cc m d a b => Sys2Proof.Machine.execVcmp t cc m d a b s
  | .vsel m d a b => Sys2Proof.Machine.execVsel m d a b s
  | .viadd w m d a b => Sys2Proof.Machine.execViadd w m d a b s
  | .visub w m d a b => Sys2Proof.Machine.execVisub w m d a b s
  | .vimul w m d a b => Sys2Proof.Machine.execVimul w m d a b s
  | .vimulhI w m d a b => Sys2Proof.Machine.execVimulhI w m d a b s
  | .vimulhU w m d a b => Sys2Proof.Machine.execVimulhU w m d a b s
  | .vimac w m d a b => Sys2Proof.Machine.execVimac w m d a b s
  | .vand m d a b => Sys2Proof.Machine.execVand m d a b s
  | .vor m d a b => Sys2Proof.Machine.execVor m d a b s
  | .vxor m d a b => Sys2Proof.Machine.execVxor m d a b s
  | .vshl w m d a b => Sys2Proof.Machine.execVshl w m d a b s
  | .vshr w m d a b => Sys2Proof.Machine.execVshr w m d a b s
  | .vsar w m d a b => Sys2Proof.Machine.execVsar w m d a b s
  | .viminI w m d a b => Sys2Proof.Machine.execViminI w m d a b s
  | .viminU w m d a b => Sys2Proof.Machine.execViminU w m d a b s
  | .vimaxI w m d a b => Sys2Proof.Machine.execVimaxI w m d a b s
  | .vimaxU w m d a b => Sys2Proof.Machine.execVimaxU w m d a b s
  | .viabs w m d a => Sys2Proof.Machine.execViabs w m d a s
  | .vsaddI w m d a b => Sys2Proof.Machine.execVsaddI w m d a b s
  | .vsaddU w m d a b => Sys2Proof.Machine.execVsaddU w m d a b s
  | .vssubI w m d a b => Sys2Proof.Machine.execVssubI w m d a b s
  | .vssubU w m d a b => Sys2Proof.Machine.execVssubU w m d a b s
  | .vicmp cc w m d a b => Sys2Proof.Machine.execVicmp cc w m d a b s
  | .vcvt dst src rc part m d a => Sys2Proof.Machine.execVcvt dst src rc part m d a s
  | .vmov m d a => Sys2Proof.Machine.execVmov m d a s
  | .vzero m d => Sys2Proof.Machine.execVzero m d s
  | .vbcast w m d a => Sys2Proof.Machine.execVbcast w m d a s
  | .vextr w d a b => Sys2Proof.Machine.execVextr w d a b s
  | .vins w d a b => Sys2Proof.Machine.execVins w d a b s
  | .vidx w m d a => Sys2Proof.Machine.execVidx w m d a s
  | .vcvtSr dst part m d a b => Sys2Proof.Machine.execVcvtSr dst part m d a b s
  | .vpack t m d a b => Sys2Proof.Machine.execVpack t m d a b s
  | .vunpk t part m d a => Sys2Proof.Machine.execVunpk t part m d a s
  | .vld w m d a b => Sys2Proof.Machine.execVld w m d a b s
  | .vst w m d a b => Sys2Proof.Machine.execVst w m d a b s
  | .vlds w m d a b => Sys2Proof.Machine.execVlds w m d a b s
  | .vsts w m d a b => Sys2Proof.Machine.execVsts w m d a b s
  | .vgath w m d a b => Sys2Proof.Machine.execVgath w m d a b s
  | .vscat w m d a b => Sys2Proof.Machine.execVscat w m d a b s
  | .vldb w m d a => Sys2Proof.Machine.execVldb w m d a s
  | .vrecip t m d a => Sys2Proof.Machine.execVrecip t m d a s
  | .vrsqrt t m d a => Sys2Proof.Machine.execVrsqrt t m d a s
  | .vsqrt t rc m d a => Sys2Proof.Machine.execVsqrt t rc m d a s
  | .vexp2 t m d a => Sys2Proof.Machine.execVexp2 t m d a s
  | .vlog2 t m d a => Sys2Proof.Machine.execVlog2 t m d a s
  | .vsin t m d a => Sys2Proof.Machine.execVsin t m d a s
  | .vcos t m d a => Sys2Proof.Machine.execVcos t m d a s
  | .vtanh t m d a => Sys2Proof.Machine.execVtanh t m d a s
  | .vsigm t m d a => Sys2Proof.Machine.execVsigm t m d a s
  | .vrand m d a b => Sys2Proof.Machine.execVrand m d a b s
  | .vredsum t m d a => Sys2Proof.Machine.execVredsum t m d a s
  | .vredmax t m d a => Sys2Proof.Machine.execVredmax t m d a s
  | .vredmin t m d a => Sys2Proof.Machine.execVredmin t m d a s
  | .vscan t m d a => Sys2Proof.Machine.execVscan t m d a s
  | .vshuf w m d a b => Sys2Proof.Machine.execVshuf w m d a b s
  | .vrot w m d a b => Sys2Proof.Machine.execVrot w m d a b s
  | .vslide w m d a b => Sys2Proof.Machine.execVslide w m d a b s
  | .vcomp w m d a => Sys2Proof.Machine.execVcomp w m d a s
  | .vexpd w m d a => Sys2Proof.Machine.execVexpd w m d a s
  | .pset d a => Sys2Proof.Machine.execPset d a s
  | .pand d a b => Sys2Proof.Machine.execPand d a b s
  | .por d a b => Sys2Proof.Machine.execPor d a b s
  | .pnot d a => Sys2Proof.Machine.execPnot d a s
  | .pcnt d a => Sys2Proof.Machine.execPcnt d a s
  | .pfirst d a => Sys2Proof.Machine.execPfirst d a s
  | .vqmul m d a b => Sys2Proof.Machine.execVqmul m d a b s
  | .vqmac m d a b => Sys2Proof.Machine.execVqmac m d a b s
  | .vqrndLo m d a n => Sys2Proof.Machine.execVqrndLo m d a n s
  | .vqrndHi m d a n => Sys2Proof.Machine.execVqrndHi m d a n s
  | .vqsatI16 m d a n => Sys2Proof.Machine.execVqsatI16 m d a n s
  | .vqsatI32 m d a n => Sys2Proof.Machine.execVqsatI32 m d a n s
  | .scfg sn k a => Sys2Proof.Machine.execScfg sn k a s
  | .sbase sn a => Sys2Proof.Machine.execSbase sn a s
  | .sstart sn => Sys2Proof.Machine.execSstart sn s
  | .sstop sn => Sys2Proof.Machine.execSstop sn s
  | .sbr sn off => Sys2Proof.Machine.execSbr sn off s
  | .sstat d sn => Sys2Proof.Machine.execSstat d sn s
  | .tmma f d a b => Sys2Proof.Machine.execTmma f d a b s
  | .tmmaSp f d a b => Sys2Proof.Machine.execTmmaSp f d a b s
  | .tzero d => Sys2Proof.Machine.execTzero d s
  | .tldacc f d a => Sys2Proof.Machine.execTldacc f d a s
  | .tst f a d => Sys2Proof.Machine.execTst f a d s
  | .tscale f d a b => Sys2Proof.Machine.execTscale f d a b s
  | .tadd f d a b => Sys2Proof.Machine.execTadd f d a b s
  | .twait => Sys2Proof.Machine.execTwait s
  | .tdesc f d a role => Sys2Proof.Machine.execTdesc f d a role s
  | .tmq a => Sys2Proof.Machine.execTmq a s
  | .tmqClr => Sys2Proof.Machine.execTmqClr s
  | .send a b n => Sys2Proof.Machine.execSend a b n s
  | .recv d a n => Sys2Proof.Machine.execRecv d a n s
  | .sendt a b => Sys2Proof.Machine.execSendt a b s
  | .recvt a b => Sys2Proof.Machine.execRecvt a b s
  | .altClr => Sys2Proof.Machine.execAltClr s
  | .altRx a k => Sys2Proof.Machine.execAltRx a k s
  | .altTx a k => Sys2Proof.Machine.execAltTx a k s
  | .altTm a k => Sys2Proof.Machine.execAltTm a k s
  | .altBar a b k => Sys2Proof.Machine.execAltBar a b k s
  | .altWait d => Sys2Proof.Machine.execAltWait d s
  | .chst d a b => Sys2Proof.Machine.execChst d a b s
  | .chcl a => Sys2Proof.Machine.execChcl a s
  | .chmk d a b => Sys2Proof.Machine.execChmk d a b s
  | .chbind d a b => Sys2Proof.Machine.execChbind d a b s
  | .chunb d a b => Sys2Proof.Machine.execChunb d a b s
  | .spawn d a => Sys2Proof.Machine.execSpawn d a s
  | .exit => Sys2Proof.Machine.execExit s
  | .yield => Sys2Proof.Machine.execYield s
  | .sleep a => Sys2Proof.Machine.execSleep a s
  | .setcl d a => Sys2Proof.Machine.execSetcl d a s
  | .dline d a b => Sys2Proof.Machine.execDline d a b s
  | .migr d a => Sys2Proof.Machine.execMigr d a s
  | .barInit a b => Sys2Proof.Machine.execBarInit a b s
  | .barArr d a => Sys2Proof.Machine.execBarArr d a s
  | .barWait a b => Sys2Proof.Machine.execBarWait a b s
  | .msGet a b => Sys2Proof.Machine.execMsGet a b s
  | .msPut a b => Sys2Proof.Machine.execMsPut a b s
  | .msGath a b => Sys2Proof.Machine.execMsGath a b s
  | .msScat a b => Sys2Proof.Machine.execMsScat a b s
  | .msFill a b => Sys2Proof.Machine.execMsFill a b s
  | .msCas a b => Sys2Proof.Machine.execMsCas a b s
  | .msStat d b item => Sys2Proof.Machine.execMsStat d b item s
  | .nop => Sys2Proof.Machine.execNop s
  | .cNop => Sys2Proof.Machine.execCNop s
  | .faultRecordSend => Sys2Proof.Machine.execFaultRecordSend s
  | .faultReply => Sys2Proof.Machine.execFaultReply s
  | .monitorReply => Sys2Proof.Machine.execMonitorReply s
  | .preemptionHalt => Sys2Proof.Machine.execPreemptionHalt s
  | .dispatch => Sys2Proof.Machine.execDispatch s
  | .quantumExpiry => Sys2Proof.Machine.execQuantumExpiry s
  | .class0Release => Sys2Proof.Machine.execClass0Release s
  | .budgetExhausted => Sys2Proof.Machine.execBudgetExhausted s
  | .ghostLightWindow => Sys2Proof.Machine.execGhostLightWindow s
  | .ghostLightAllowanceEnd => Sys2Proof.Machine.execGhostLightAllowanceEnd s
  | .spillDone => Sys2Proof.Machine.execSpillDone s
  | .fillDone => Sys2Proof.Machine.execFillDone s
  | .placementCommit => Sys2Proof.Machine.execPlacementCommit s
  | .placementCompaction => Sys2Proof.Machine.execPlacementCompaction s
  | .placementTimeout => Sys2Proof.Machine.execPlacementTimeout s
  | .priorityLoan => Sys2Proof.Machine.execPriorityLoan s
  | .migration => Sys2Proof.Machine.execMigration s
  | .writeLands => Sys2Proof.Machine.execWriteLands s
  | .inboundRequest => Sys2Proof.Machine.execInboundRequest s
  | .amoRelease => Sys2Proof.Machine.execAmoRelease s
  | .remoteLoadReturn => Sys2Proof.Machine.execRemoteLoadReturn s
  | .fenceComplete => Sys2Proof.Machine.execFenceComplete s
  | .drainNtComplete => Sys2Proof.Machine.execDrainNtComplete s
  | .cfenceWComplete => Sys2Proof.Machine.execCfenceWComplete s
  | .vectorCommit => Sys2Proof.Machine.execVectorCommit s
  | .vectorLoadReturn => Sys2Proof.Machine.execVectorLoadReturn s
  | .streamReadAhead => Sys2Proof.Machine.execStreamReadAhead s
  | .streamPushLand => Sys2Proof.Machine.execStreamPushLand s
  | .sstopComplete => Sys2Proof.Machine.execSstopComplete s
  | .tileGroup => Sys2Proof.Machine.execTileGroup s
  | .tstWriteLand => Sys2Proof.Machine.execTstWriteLand s
  | .twaitComplete => Sys2Proof.Machine.execTwaitComplete s
  | .tmqPush => Sys2Proof.Machine.execTmqPush s
  | .msRequestAccept => Sys2Proof.Machine.execMsRequestAccept s
  | .msContextStart => Sys2Proof.Machine.execMsContextStart s
  | .msTranslationRefill => Sys2Proof.Machine.execMsTranslationRefill s
  | .msPiece => Sys2Proof.Machine.execMsPiece s
  | .cxlMemCompletion => Sys2Proof.Machine.execCxlMemCompletion s
  | .msCompletion => Sys2Proof.Machine.execMsCompletion s
  | .channelArrival => Sys2Proof.Machine.execChannelArrival s
  | .tileTransferDone => Sys2Proof.Machine.execTileTransferDone s
  | .timerGuard => Sys2Proof.Machine.execTimerGuard s
  | .sleepExpiry => Sys2Proof.Machine.execSleepExpiry s
  | .externalSendRead => Sys2Proof.Machine.execExternalSendRead s
  | .probeSend => Sys2Proof.Machine.execProbeSend s
  | .probeArrival => Sys2Proof.Machine.execProbeArrival s
  | .hearthArrival => Sys2Proof.Machine.execHearthArrival s
  | .linkResend => Sys2Proof.Machine.execLinkResend s
  | .causalDelivery => Sys2Proof.Machine.execCausalDelivery s
  | .columnFlitSend => Sys2Proof.Machine.execColumnFlitSend s
  | .columnFlitReceive => Sys2Proof.Machine.execColumnFlitReceive s
  | .reclockEnd => Sys2Proof.Machine.execReclockEnd s
  | .coreDomainReset => Sys2Proof.Machine.execCoreDomainReset s
  | .coreDomainResetEnd => Sys2Proof.Machine.execCoreDomainResetEnd s
  | .uncoreReset => Sys2Proof.Machine.execUncoreReset s
  | .sceneBlockDone => Sys2Proof.Machine.execSceneBlockDone s
  | .sceneDrainEnd => Sys2Proof.Machine.execSceneDrainEnd s
  | .sceneDrainTimeout => Sys2Proof.Machine.execSceneDrainTimeout s
  | .sceneUnmapDone => Sys2Proof.Machine.execSceneUnmapDone s
  | .edgeLockGrant => Sys2Proof.Machine.execEdgeLockGrant s
  | .sceneTrainDone => Sys2Proof.Machine.execSceneTrainDone s
  | .sceneTrainTimeout => Sys2Proof.Machine.execSceneTrainTimeout s
  | .sceneLinkupDone => Sys2Proof.Machine.execSceneLinkupDone s
  | .sceneReleaseDone => Sys2Proof.Machine.execSceneReleaseDone s
  | .dvfsStep => Sys2Proof.Machine.execDvfsStep s
  | .dvfsStepEnd => Sys2Proof.Machine.execDvfsStepEnd s
  | .uetPacketArrival => Sys2Proof.Machine.execUetPacketArrival s
  | .uetAckSend => Sys2Proof.Machine.execUetAckSend s
  | .uetAckReceive => Sys2Proof.Machine.execUetAckReceive s
  | .uetRetransmitTimeout => Sys2Proof.Machine.execUetRetransmitTimeout s
  | .ualinkInboundRequest => Sys2Proof.Machine.execUalinkInboundRequest s
  | .apertureResponse => Sys2Proof.Machine.execApertureResponse s
  | .hostQueueInbound => Sys2Proof.Machine.execHostQueueInbound s
  | .hostQueueOutbound => Sys2Proof.Machine.execHostQueueOutbound s
  | .queueDoorbell => Sys2Proof.Machine.execQueueDoorbell s
  | .cmdLoad => Sys2Proof.Machine.execCmdLoad s
  | .cmdLaunch => Sys2Proof.Machine.execCmdLaunch s
  | .launchComplete => Sys2Proof.Machine.execLaunchComplete s
  | .cmdEnd => Sys2Proof.Machine.execCmdEnd s
  | .cmdWaitge => Sys2Proof.Machine.execCmdWaitge s
  | .waitgeSatisfied => Sys2Proof.Machine.execWaitgeSatisfied s
  | .cmdSignal => Sys2Proof.Machine.execCmdSignal s
  | .cmdCopy => Sys2Proof.Machine.execCmdCopy s
  | .copyComplete => Sys2Proof.Machine.execCopyComplete s
  | .cmdPin => Sys2Proof.Machine.execCmdPin s
  | .cmdUnpin => Sys2Proof.Machine.execCmdUnpin s
  | .cmdWindow => Sys2Proof.Machine.execCmdWindow s
  | .cmdExtep => Sys2Proof.Machine.execCmdExtep s
  | .cmdHostep => Sys2Proof.Machine.execCmdHostep s
  | .cmdIrq => Sys2Proof.Machine.execCmdIrq s
  | .cmdLoop => Sys2Proof.Machine.execCmdLoop s
  | .cmdIf => Sys2Proof.Machine.execCmdIf s
  | .cmdTrig => Sys2Proof.Machine.execCmdTrig s
  | .triggerWrite => Sys2Proof.Machine.execTriggerWrite s
  | .triggerRun => Sys2Proof.Machine.execTriggerRun s
  | .cmdScene => Sys2Proof.Machine.execCmdScene s
  | .cmdRemove => Sys2Proof.Machine.execCmdRemove s
  | .cmdAdmit => Sys2Proof.Machine.execCmdAdmit s
  | .cmdCue => Sys2Proof.Machine.execCmdCue s
  | .cmdMkey => Sys2Proof.Machine.execCmdMkey s
  | .mkeyKeyholdExpiry => Sys2Proof.Machine.execMkeyKeyholdExpiry s
  | .queueRestart => Sys2Proof.Machine.execQueueRestart s
  | .lifeCycleChange => Sys2Proof.Machine.execLifeCycleChange s
  | .attestationReport => Sys2Proof.Machine.execAttestationReport s
  | .packageReset => Sys2Proof.Machine.execPackageReset s
  | .thermalThrottle => Sys2Proof.Machine.execThermalThrottle s
  | .thermalTrip => Sys2Proof.Machine.execThermalTrip s
  | .controlRegisterWrite => Sys2Proof.Machine.execControlRegisterWrite s
  | .unallocatedEncoding => Sys2Proof.Machine.execUnallocatedEncoding s
  | .fetchWindow => Sys2Proof.Machine.execFetchWindow s
  | .edgeGroupRetrain => Sys2Proof.Machine.execEdgeGroupRetrain s
  | .ualinkDomainFormed => Sys2Proof.Machine.execUalinkDomainFormed s
  | .monitorAssignment => Sys2Proof.Machine.execMonitorAssignment s

end Sys2Proof.Machine
end

