-- ==== Sys2Proof/Machine/Schedule.lean ====
section
/-! DEFINITION. Who moves when the agenda is empty, and what a thread of the barrel core does when it moves (log 1). -/

namespace Sys2Proof.Machine

/-! Threads -/

/-- The command of a thread whose writes alone were still to be made, when they have been. -/
def State.written? (s : State) (t : Thread) : Option CurItem :=
  (match t.sub with
    | some r => r.cur
    | none => t.cur).filter fun c => match c.pending with
      | .writes _ owner => !s.engineBusy owner
      | _ => false

/-- A thread moves: it runs the next item of its queue, or of the list of a trigger; a run that is over ends, and so does a
command whose writes have been made. -/
def State.stepThread (s : State) (n : Nat) : Out :=
  match s.thread? n with
  | none => .next s
  | some t =>
    if !s.canBegin t t.sub.isSome then
      match s.written? t with
      | some c => .next (s.dropStale.completeItem c.hdr c.pending.op)
      | none => .next s
    else match s.nextItem t with
      | some f =>
        match s.itemAction f with
        | .ok (i, subj) => exec i { s with subj := subj }
        | .error u => .next u
      | none =>
        match t.sub with
        | some r => exec .triggerRun { s with subj := .pair n r.k }
        | none => .next s

/-- A thread has something to do. -/
def State.threadReady (s : State) (t : Thread) : Bool :=
  (s.canBegin t t.sub.isSome && ((s.nextItem t).isSome || t.sub.isSome)) || (s.written? t).isSome

/-! What the device does by itself -/

/-- The event in which a packet takes part next; none for one that waits in a reservation queue (R250). -/
def Packet.event (q : Packet) : Option Instr :=
  if q.queued then none
  else match q.path with
  | .own =>
    match q.kind with
    | .tst => some .tstWriteLand
    | .push _ => some .streamPushLand
    | _ => some .writeLands
  | .mesh =>
    match q.kind, q.payload with
    | .reply, .move _ => none
    | .reply, .late _ _ | .reply, .forward _ _ _ _ => some .inboundRequest
    | .reply, .frame _ _ _ _ => some .channelArrival
    | .reply, _ => some .remoteLoadReturn
    | .push _, _ => some .streamPushLand
    | _, .chan _ | _, .ctl _ _ _ _ _ => some .channelArrival
    | _, _ => some .inboundRequest
  | .fabric =>
    if q.kind = .nt then some .inboundRequest
    else if q.held then some .causalDelivery
    else if q.refused.isSome then some .linkResend else some .hearthArrival
  | .aperture => none

/-- Events that concern a process. -/
def procEvents : List Instr :=
  [.amoRelease, .fenceComplete, .drainNtComplete, .cfenceWComplete, .vectorLoadReturn, .vectorCommit, .sstopComplete,
   .tileGroup, .twaitComplete, .tmqPush, .migration, .sleepExpiry, .timerGuard, .msRequestAccept, .class0Release, .probeSend]

/-- Events that concern a core. -/
def coreEvents : List Instr :=
  [.faultRecordSend, .budgetExhausted, .ghostLightWindow, .ghostLightAllowanceEnd, .quantumExpiry, .preemptionHalt, .fillDone,
   .spillDone, .dispatch]

/-- Events that concern an edge group. -/
def groupEvents : List Instr :=
  [.sceneBlockDone, .sceneDrainEnd, .sceneDrainTimeout, .sceneUnmapDone, .sceneLinkupDone, .sceneReleaseDone]

/-- Cores that hold processes or records. -/
def State.busyCores (s : State) : List Nat :=
  ((s.allProcs.filter (·.placed)).map (·.core) ++ s.cores.map (·.id)).eraseDups

/-- What may happen by itself, in the order in which it is tried: packets, then messages of the device, processes, cores,
placements, servers, edge groups, commands. -/
def State.mayHappen (s : State) : List (Instr × Subject) :=
  (s.packets.filterMap fun q => q.event.map fun i => (i, Subject.id q.id)) ++
    s.dies.flatMap (fun x => (s.dies.filter fun y => x.num != y.num && x.flitNews y.num).map fun y =>
      (Instr.columnFlitSend, Subject.pair x.num y.num)) ++
    s.flits.map (fun f => (Instr.columnFlitReceive, Subject.id f.id)) ++
    s.loanMsgs.map (fun m => (Instr.priorityLoan, Subject.id m.id)) ++
    s.probes.map (fun b => (Instr.probeArrival, Subject.id b.id)) ++
    s.transfers.map (fun t => (Instr.tileTransferDone, Subject.id t.id)) ++
    (s.channels.filter (·.outer)).map (fun c => (Instr.externalSendRead, Subject.pair c.table c.name)) ++
    (s.channels.filter fun c => c.rx.holder == .device).map (fun c => (Instr.faultReply, Subject.pair c.table c.name)) ++
    (s.allProcs.filter (·.placed)).flatMap (fun p => procEvents.map fun i => (i, Subject.id p.pid)) ++
    ((s.rsvs.filter fun r => r.granted && (s.proc? r.pid).all (·.st == .exited)).map (·.pid)).eraseDups.map
      (fun n => (Instr.amoRelease, Subject.id n)) ++
    s.busyCores.flatMap (fun c => coreEvents.map fun i => (i, Subject.id c)) ++
    [(Instr.faultRecordSend, Subject.id managerId), (.reclockEnd, .none)] ++
    s.placements.flatMap (fun pl => [(Instr.placementCommit, Subject.id pl.id), (.placementTimeout, .id pl.id)]) ++
    (s.requests.map (·.front)).eraseDups.map (fun n => (Instr.msContextStart, Subject.id n)) ++
    s.requests.flatMap (fun r => [.msTranslationRefill, .msPiece, .cxlMemCompletion, .msCompletion].map fun (i : Instr) => (i, Subject.id r.id)) ++
    s.groups.flatMap (fun g => (g.flows.filter (·.sinceAck != 0)).map fun f => (Instr.uetAckSend, Subject.pair g.num f.num)) ++
    s.groups.flatMap (fun g => g.flows.flatMap fun f => f.unacked.map fun u =>
      (Instr.uetRetransmitTimeout, Subject.resend g.num f.num u.pkt.psn)) ++
    (s.groups.filter (·.scene.isSome)).flatMap (fun g => groupEvents.map fun i => (i, Subject.id g.num)) ++
    (s.dies.filter fun d => !d.lockQ.isEmpty).map (fun d => (Instr.edgeLockGrant, Subject.id d.num)) ++
    s.trigWrites.map (fun k => (Instr.triggerWrite, Subject.id k)) ++
    s.triggers.map (fun g => (Instr.triggerRun, Subject.pair g.thread g.k)) ++
    s.threads.flatMap (fun t => [.waitgeSatisfied, .launchComplete, .copyComplete, .mkeyKeyholdExpiry].map fun (i : Instr) => (i, Subject.id t.num))

/-- An event changes the machine. -/
def State.changes (s : State) (x : Instr × Subject) : Bool :=
  match exec x.1 { s with subj := x.2 } with
  | .next t => t != { s with subj := x.2 }
  | _ => false

/-- The running cores, those behind the core `focus` first. -/
def State.runners (s : State) : List Nat :=
  let cs := ((s.allProcs.filter (·.st == .running)).map (·.core)).mergeSort
  cs.filter (fun c => decide (s.focus < c)) ++ cs.filter fun c => decide (c ≤ s.focus)

/-! Loads made ahead (R100) -/

/-- The core of the state reads now for the load at the pc of its process, behind loads and stores of the ranges `touched`: its
checks pass, it stands behind no access to the same bytes (R111) and no cross-die access that waits for its stamp (R327), and
its home answers at once. -/
def State.earlyRead (s : State) (p : Proc) (touched : List (Nat × Nat)) (a : Word) (n : Nat) : Option Early :=
  let t := s.target p.core a.toNat
  let entry (v : Nat) (m : Bool) : Option Early := some { pc := p.pc, addr := a.toNat, n := n, val := v, marked := m }
  if (s.check p a n .rd 0).isSome || s.heldBack p.core t || touched.any (fun r => Sys2Proof.Machine.overlaps r.1 r.2 a.toNat n) then none
  else match t with
    | .own h => entry (s.seen p.core p.pid a.toNat h n) (s.seenMarked p.core p.pid a.toNat h n)
    | .mesh h =>
      if s.homeGone h || s.packets.any (fun q => q.core == p.core && Sys2Proof.Machine.overlaps q.used q.n a.toNat n) then none
      else entry (s.mem.read h n) (s.marked h n)
    | _ => none

/-- The load that stands k instructions behind the pc, walked to on a scratch copy of the state: an instruction waits at issue
for a register of an incomplete one (`unknown`), so what needs such a register ends the walk; a load leaves its register
unknown, arithmetic and branches are performed. -/
def State.walkAhead (s : State) : Nat → List XIdx → List (Nat × Nat) → Option Early
  | k, unknown, touched =>
    match s.cpu with
    | none => none
    | some p =>
      match s.fetch p with
      | .instr i u =>
        let known (l : List XIdx) : Bool := l.all fun r => !unknown.contains r
        let len := ((encode i).map Code.len).getD 4
        let pass (p : Proc) (l : List XIdx) (m : List (Nat × Nat)) : Option Early :=
          match k with
          | 0 => none
          | k + 1 => State.walkAhead { u with cpu := some (p.advance len) } k l m
        match issueOf i with
        | some (.load d a off n) =>
          let addr := p.getX a + off
          if !known [a] then none
          else if k = 0 then u.earlyRead p touched addr n
          else if (u.check p addr n .rd 0).isSome || (u.target p.core addr.toNat).crosses then none
          else pass p (if d = 0 then unknown else d :: unknown) ((addr.toNat, n) :: touched)
        | some (.store b a off n) =>
          let addr := p.getX a + off
          if known [b, a] && (u.check p addr n .wr 1).isNone && !(u.target p.core addr.toNat).crosses then pass p unknown ((addr.toNat, n) :: touched) else none
        | some (.alu d srcs) =>
          if !known srcs then none
          else match k, exec i u with
            | k + 1, .next v => State.walkAhead v k (unknown.filter (· != d)) touched
            | _, _ => none
        | some (.branch srcs) =>
          if !known srcs then none
          else match k, exec i u with
            | k + 1, .next v => State.walkAhead v k unknown touched
            | _, _ => none
        | none => none
      | _ => none

/-- A core reads ahead for the load that stands k instructions behind the pc, at most four (R100). -/
def State.loadAhead (s : State) (core k : Nat) : State :=
  if k = 0 ∨ 4 < k then s
  else match (s.refocus core).walkAhead k [] [] with
    | some e =>
      if (s.core core).early.any (fun x => x.pc == e.pc) then s
      else s.modCore core fun c => { c with early := c.early ++ [e] }
    | none => s

/-! The default policy -/

/-- The default policy (log 1): the first event that would change something, else a thread that has an item, else the next
running core, else a cc of the nominal clock passes. -/
def State.policy (s : State) : Agenda :=
  match s.mayHappen.find? s.changes with
  | some x => .event x.1 x.2
  | none =>
    match s.threads.find? s.threadReady with
    | some t => .thread t.num
    | none =>
      match s.runners with
      | c :: _ => .core c
      | [] => .elapse 10

end Sys2Proof.Machine
end

