-- ==== Sys2Proof/Machine/Step.lean ====
section
/-! DEFINITION. One step of the machine: the next entry of the agenda, or what the default policy chooses, is performed; then
the sequencers stamp what waits (R325). -/

namespace Sys2Proof.Machine

/-- One cc of a core's die in the units of `%time`. -/
def State.ccOf (s : State) (core : Nat) : Nat := (s.die (dieOf core)).ccUnits

/-- The sequencers go on, and time passes after what a step has performed. -/
def passing (units : Nat) : Host.Outcome State Fault Refusal → Host.Outcome State Fault Refusal
  | .next s => .next (s.sequence.elapse units)
  | .fault f => .fault f
  | .refused r => .refused r

/-- The running process of the active bank fetches and performs one instruction, or waits on (R60, R67, R100). -/
def stepProc (s : State) (p : Proc) : Host.Outcome State Fault Refusal :=
  if p.wait = .none ∨ p.wait = .stall then
    match s.fetch p with
    | .instr i t => exec i t
    | .illegal w r t => exec .unallocatedEncoding { t with subj := .encoding w r }
    | .window a => exec .fetchWindow { s with subj := .fetch a }
  else .next s

/-- A core moves: its process runs for one cc; a core without one lets the cc pass. -/
def stepCore (s : State) (c : Nat) : Host.Outcome State Fault Refusal :=
  let s := s.refocus c
  match s.cpu with
  | none => .next (s.elapse (s.ccOf c))
  | some p => if s.coreLive c then passing (s.ccOf c) (stepProc s p) else .next (s.elapse (s.ccOf c))

/-- A step after which the memory path accepts all elements again (R189, R217). -/
def settled : Host.Outcome State Fault Refusal → Host.Outcome State Fault Refusal
  | .next s => .next { s with part := none }
  | .fault f => .fault f
  | .refused r => .refused r

/-- Performs one entry of the agenda. -/
def act (a : Agenda) (s : State) : Host.Outcome State Fault Refusal :=
  match a with
  | .core c => stepCore s c
  | .thread t => passing 0 (s.stepThread t)
  | .event i subj => passing 0 (exec i { s with subj := subj })
  | .elapse u => .next (s.elapse u)
  | .halt c => .next (s.managerHalt c)
  | .prefetch c a => .next (s.prefetch c a)
  | .part c n => settled (stepCore { s with part := some n } c)
  | .loadAhead c k => .next (s.loadAhead c k)
  | .memError a hbm => .next (s.memError a hbm)
  | .hostWrite f a bs => .next (s.hostWrite f a bs)
  | .hostQueue f n base entries => .next (s.setHostQueue f n base entries)
  | .hostTail f n tail => .next (s.hostTail f n tail)
  | .inbound g ws => .next (s.setInbound g ws)
  | .peer t n g pkg tx => .next (s.joinPeer t n g pkg tx)

/-- One step. -/
def step (s : State) : Host.Outcome State Fault Refusal :=
  match s.agenda with
  | a :: rest => act a { s with agenda := rest }
  | [] => act s.policy s

/-- `s` with the instruction of `nbits` bits `w` where `step` fetches next. -/
def State.withFetchWord (s : State) (nbits w : Nat) : State := s.placeWord (w % 2 ^ nbits)

end Sys2Proof.Machine
end

