-- ==== Sys2Proof/Safety.lean ====
section
/-! DEFINITION. The terms in which claims are stated: canonical memories, runs of many steps, what it means that an
instruction completes, and the plain conditions under which accesses and vector instructions do. -/

namespace Sys2Proof

/-- Every memory of the machine is in its canonical form. -/
def MemoriesOk (s : Machine.State) : Prop :=
  s.mem.wf = true ∧ s.hbm.wf = true ∧ s.far.wf = true ∧ s.host.wf = true

/-- A state that n steps lead to from another. -/
inductive Reaches : Nat → Machine.State → Machine.State → Prop
  | refl (s : Machine.State) : Reaches 0 s s
  | step {n : Nat} {s t u : Machine.State} : Machine.step s = .next t → Reaches n t u → Reaches (n + 1) s u

/-- The instruction completes and changes nothing but the running process, which it leaves as `q`. -/
def Completes (i : Instr) (s : Machine.State) (q : Machine.Proc) : Prop :=
  Machine.exec i s = .next { s with cpu := some q }

/-- Behind an instruction of `len` bytes: the pc moves on, nothing is waited for, no vector or tile instruction is in progress. -/
def behind (p : Machine.Proc) (len : Nat) : Machine.Proc :=
  { p with pc := p.pc + BitVec.ofNat 64 len, wait := .none, vprog := 0, tdone := 0, batch := 0 }

/-- At the target of a jump. -/
def atTarget (p : Machine.Proc) (t : Word) : Machine.Proc := { p with pc := t, wait := .none, vprog := 0, tdone := 0, batch := 0 }

/-- The process issues its instruction: it is the running process of the active bank and nothing of the instruction is
under way. -/
def Issues (s : Machine.State) (p : Machine.Proc) : Prop :=
  s.cpu = some p ∧ (p.wait = .none ∨ p.wait = .stall)

/-- Nothing of a core is under way: no access on its way, no load made early (R100). -/
def Quiet (s : Machine.State) (core : Nat) : Prop :=
  (∀ q ∈ s.packets, q.core ≠ core) ∧ (s.core core).early = []

/-- An aligned access of n bytes at `ea` through the private alias, inside a window of the process that grants it. -/
def OwnAccess (s : Machine.State) (p : Machine.Proc) (ea : Word) (n : Nat) (perm : Machine.Perm) : Prop :=
  ea.toNat % n = 0 ∧ p.allowed s ea n perm = true ∧ ea.toNat < s.parkStart p.core

/-- Where a private address of the process lies in the package map. -/
def homeAt (p : Machine.Proc) (ea : Word) : Nat := Machine.globalBase p.core + ea.toNat

/-- A process that has blocked: BLOCKED with a reason, its wait kept, its blocking counted (R30). -/
def blockedAs (s : Machine.State) (p : Machine.Proc) (r : Machine.Reason) (w : Machine.Wait) : Machine.Proc :=
  { p with st := .blocked r, wait := w, since := s.ns, blockNo := p.blockNo + 1, probes := 0, reported := false,
           lastRun := s.ns }

/-- The one process of the machine, not running, without priority loans: what happens to it is no matter of others. -/
def Alone (s : Machine.State) (p : Machine.Proc) : Prop :=
  s.cpu = none ∧ s.procs = [p] ∧ p.loans = [] ∧ s.loanMsgs = []

/-- The process has been woken: READY, its wait over, `d` what happens when it next runs (R31). -/
def Woken (p : Machine.Proc) (d : Option Machine.Done) (q : Machine.Proc) : Prop :=
  q = { p with st := .ready, wait := .none, done := d, key := q.key, quantum := q.quantum }

/-- No process has a loan of the process's class, and none is under way (R45). -/
def LendsNone (s : Machine.State) (pid : Nat) : Prop :=
  (∀ q ∈ s.allProcs, ∀ l ∈ q.loans, l.lender ≠ pid) ∧ ∀ m ∈ s.loanMsgs, m.lender ≠ pid

/-- The running process and a channel that is anchored at its core: nothing of its own under way, its die there. -/
def OnChannel (s : Machine.State) (p : Machine.Proc) (c : Machine.Channel) : Prop :=
  s.cpu = some p ∧ p.st = .running ∧ p.done = none ∧ LendsNone s p.pid ∧ s.focus = p.core ∧
    (∀ q ∈ s.procs, q.pid ≠ p.pid) ∧ s.chan? c.table c.name = some c ∧ s.anchorPlace c = p.core ∧
    s.coreTakes p.core = true ∧ (s.core p.core).early = [] ∧ (∀ q ∈ s.packets, q.pid ≠ p.pid) ∧
    c.name < 2 ^ 24 ∧ c.ring = none

/-- The process waits in a channel instruction on the channel. -/
def waitsThere (c : Machine.Channel) (q : Machine.Proc) : Bool :=
  match q.wait with
  | .chan w => w.table == c.table && w.name == c.name
  | _ => false

/-- No process but those named waits at the channel, and none in an alternation: what happens on it is no matter of theirs. -/
def Uninvolved (s : Machine.State) (c : Machine.Channel) (pids : List Nat) : Prop :=
  ∀ q ∈ s.procs, q.wait ≠ .alt ∧ (q.pid ∈ pids ∨ waitsThere c q = false)

/-- A process waits at the anchor of the channel in an instruction that has not begun to move a message. -/
def WaitsAt (s : Machine.State) (r : Machine.Proc) (c : Machine.Channel) (w : Machine.ChanWait) (op : Machine.ChanOp) :
    Prop :=
  s.proc? r.pid = some r ∧ r.isBlocked = true ∧ r.wait = .chan w ∧ w.op = op ∧ w.arrived = true ∧ w.moving = none ∧
    w.table = c.table ∧ w.name = c.name ∧ LendsNone s r.pid

/-- The wait of a process ends: BLOCKED becomes READY, and a PARKED process stays parked, with nothing left to wait for
(Table 1.2). -/
def Resumes (s : Machine.State) (p : Machine.Proc) (d : Option Machine.Done) (q : Machine.Proc) : Prop :=
  match p.st with
  | .parked _ => q = { p with st := .parked none, wait := .none, done := d, since := s.ns }
  | _ => Woken p d q

/-- An end of the channel that a process holds and can use. -/
def boundTo (pid : Nat) : Machine.End := { st := .bound, holder := .proc pid }

/-- The process holds the end of the channel under the handle in x[A], and no other of that name, kind and direction. -/
def Holding (s : Machine.State) (p : Machine.Proc) (c : Machine.Channel) (tx : Bool) (a : XIdx) : Prop :=
  p.getX a = BitVec.ofNat 64 (c.handle tx) ∧ c.fin tx = boundTo p.pid ∧
    s.heldEnd p.pid ⟨c.name, tx, c.kind.code⟩ = some c

/-- The process goes on behind an instruction that never left it waiting, but that was counted as an attempt to wait. -/
def WentOn (p q : Machine.Proc) : Prop :=
  q = { behind p 4 with since := q.since, probes := q.probes, reported := q.reported }

/-- The class of the process has the vector registers named, and none of them is a bound stream (R22, R160). -/
def Plain (p : Machine.Proc) (vs : List VIdx) : Prop :=
  p.cls ≠ .s ∧ (p.cls = .v → ∀ r ∈ vs, r.toNat < 8) ∧ ∀ r ∈ vs, p.boundAt r = none

/-- The flags of the elements that a mask leaves active among n. -/
def elementFlags (mask : Word) (n : Nat) (f : Nat → Machine.Flags) : Machine.Flags :=
  ((List.range n).filter fun k => Machine.active mask k n).foldl (fun a k => a ||| f k) 0

/-- The instruction completes: v[D] takes the lanes g, `%fpflags` the flags, the pc moves on, nothing else changes. -/
def WritesVec (i : Instr) (s : Machine.State) (p : Machine.Proc) (d : VIdx) (w : Nat) (g : Nat → Nat)
    (fl : Machine.Flags) : Prop :=
  ∃ v, Completes i s (behind ({ p with fpflags := p.fpflags ||| fl }.setV d v) 4) ∧
    ∀ l, l < 2048 / w → Machine.lane v w l = g l % 2 ^ w

/-- A lane that the mask leaves active takes its result, another keeps its value (R153). -/
def merged (p : Machine.Proc) (m : PIdx) (d : VIdx) (w : Nat) (f : Nat → Nat) (l : Nat) : Nat :=
  if Machine.active (p.getP m) l (2048 / w) = true then f l else Machine.lane (p.getV d) w l

/-- ARITH is raised, with the flags and the granules where an enabled one arose, and nothing is written (R141). -/
def RaisesArith (i : Instr) (s : Machine.State) (p : Machine.Proc) (fl : Machine.Flags) : Prop :=
  ∃ g, Machine.exec i s = .next (s.raise p .arith (some 4) 0 (fl.setWidth 64) g)

/-- A lane operation: it completes with merged lanes and the flags of the active ones, unless one of them is enabled. -/
def LaneOp (i : Instr) (s : Machine.State) (p : Machine.Proc) (m : PIdx) (d : VIdx) (w : Nat)
    (f : Nat → Machine.Rounded) : Prop :=
  let fl := elementFlags (p.getP m) (2048 / w) fun l => (f l).2
  if fl &&& p.enables = 0 then WritesVec i s p d w (merged p m d w fun l => (f l).1) fl else RaisesArith i s p fl

/-- Nothing at the homes asks for more than the bytes of a write: no requests queued, watches, armed triggers or errors,
and every memory in its canonical form. -/
def Calm (s : Machine.State) : Prop :=
  s.rsvs = [] ∧ s.watches = [] ∧ s.triggers = [] ∧ s.marks = [] ∧ s.latent = [] ∧ s.hbmMarks = [] ∧ s.farMarks = [] ∧ MemoriesOk s

/-- Bytes of memory whose home is on die 0, which is there, while nothing is under way: what the stage manager writes there
lands at once. -/
def NearDie0 (s : Machine.State) (a n : Nat) : Prop :=
  s.packets = [] ∧ 0x4000000000 ≤ a ∧ ∀ x, a ≤ x → x < a + n → Machine.homeDie x = 0 ∧ s.homeGone x = false

/-- The one thread of the barrel core begins an item that names no POSTSEM. -/
def Begins (s : Machine.State) (t : Machine.Thread) (h : ItemHdr) : Prop :=
  s.threads = [t] ∧ h.thread = t.num ∧ s.canBegin t h.resident = true ∧ h.postsem = 0xFFFF

/-- The thread with the head of its queue, or the position in the trigger's list that it runs, at an item. -/
def headAt (t : Machine.Thread) (h : ItemHdr) (n : Nat) : Machine.Thread :=
  if h.resident then { t with sub := t.sub.map fun r => { r with pos := n, cur := none } }
  else { t with head := n, cur := none }

/-- The thread with the item's command in progress. -/
def busyWith (t : Machine.Thread) (h : ItemHdr) (p : Machine.Pending) : Machine.Thread :=
  if h.resident then { t with sub := t.sub.map fun r => { r with cur := some { hdr := h, pending := p } } }
  else { t with cur := some { hdr := h, pending := p } }

/-- The item completes: `u` is the state with its effect, and the thread goes on behind the item. -/
def ItemCompletes (i : Instr) (s u : Machine.State) (t : Machine.Thread) (h : ItemHdr) : Prop :=
  Machine.exec i s = .next { u with threads := [headAt t h (h.pos + 1)] }

/-- The item's command is in progress. -/
def ItemWaits (i : Instr) (s u : Machine.State) (t : Machine.Thread) (h : ItemHdr) (p : Machine.Pending) : Prop :=
  Machine.exec i s = .next { u with threads := [busyWith t h p] }

/-- The item fails with a record: the thread's queue stops behind it, and nothing else happens (R373). -/
def ItemFails (i : Instr) (s : Machine.State) (t : Machine.Thread) (h : ItemHdr) (c : Machine.Cause) : Prop :=
  ∃ (u : Machine.State) (r : Machine.Record), Machine.exec i s = .next u ∧
    u = { s with free := s.free + 1, mailbox := s.mailbox ++ [r], errorRings := u.errorRings
                 threads := [{ headAt t h (h.pos + 1) with stopped := h.thread != 0 }] } ∧
    r.cause = c ∧ r.pc = h.pc ∧ r.region = t.region

/-- No uncorrectable error in the granules of n bytes of memory (R112). -/
def Sound (s : Machine.State) (a n : Nat) : Prop := ∀ g ∈ s.marks ++ s.latent, g + 8 ≤ a ∨ a + n ≤ g

end Sys2Proof
end

