-- ==== Sys2Proof/Certificates/Slice0/Obligations.lean ====
section
/-! DEFINITION. The statements for the provers. -/

open Sys2Proof Sys2Proof.Machine

/-- Every instruction of the opcode table but the rows without bits, with every operand at every value that its
encoding admits, has a code; the rows without bits have none. The bytes of a code decode to the instruction, with the
code's length. No field of an encoding is dropped or moved. -/
def Obligations.DecodeOfEncode : Prop :=
  ∀ i : Instr, i.wf = true →
    (i.coded = true → ∃ c, encode i = some c) ∧ (i.coded = false → encode i = none) ∧
    (∀ c, encode i = some c → decode c.bytes = .instr i c.len ∧ c.bytes.length = c.len) ∧
    (∀ c bs, encode i = some c → decode (c.bytes ++ bs) = .instr i c.len)

/-- Whatever bytes decode to an instruction, the instruction is within its operand limits and has a code, its length
is the length of that code, and its code is the bytes that were decoded: no two codes mean the same instruction, and
no bit of a code is ignored. -/
def Obligations.EncodeOfDecode : Prop :=
  ∀ (bs : List Byte) (i : Instr) (n : Nat), decode bs = .instr i n →
    i.wf = true ∧ ∃ c, encode i = some c ∧ c.len = n ∧ c.bytes = bs.take n

/-- The words of Example 5.3 and one word each of majors 0x20, 0x28, 0x30 and 0x33, put together by hand from their
tables, decode to the instructions that they stand for. -/
def Obligations.SampleWords : Prop :=
  decodeWord 0x08AD5A03 = .ok (.mulhu 20 21 22) ∧ decodeWord 0x02AD5A03 = .ok (.sra 20 21 22) ∧
  decodeWord 0x10015A03 = .ok (.clz 20 21) ∧ decodeWord 0x12808403 = .ok (.sextW 8 8) ∧
  decodeWord 0x1FEA2F99 = .ok (.stb 21 2 0xFFF) ∧ decodeWord 0x00001A15 = .ok (.addpc 20 1) ∧
  decodeWord 0x0000102F = .ok (.jalr 0 1 0) ∧ decodeWord 0x01500A33 = .ok (.csrr 20 .time) ∧
  decodeWord 0x01A15033 = .ok (.csrw .fpmode 21) ∧ decodeWord 0x08943033 = .ok (.trap 3 0x2A) ∧
  decodeWord 0x00C00033 = .ok (.brk 0) ∧ decodeWord 0x012B4033 = .ok (.ifl 20 21) ∧
  decodeWord 0x00400033 = .ok .nop ∧ decodeHalf 0x16B0 = .ok (.cLdd 5 6 2) ∧ decodeHalf 0x001E = .ok .cNop ∧
  decodeWord (0b0101001#7 ++ 3#3 ++ 2#5 ++ 1#5 ++ 4#5 ++ 0x20#6 ++ 1#1) = .ok (.vadd .f16 .rne 3 4 1 2) ∧
  decodeWord (0#2 ++ 4#4 ++ 0#4 ++ 6#5 ++ 4#5 ++ 2#5 ++ 0x28#6 ++ 1#1) = .ok (.tmma .i8 2 4 6) ∧
  decodeWord (3#5 ++ 0#5 ++ 10#5 ++ 9#5 ++ 0#5 ++ 0x30#6 ++ 1#1) = .ok (.send 9 10 3) ∧
  decodeWord (2#5 ++ 6#5 ++ 7#5 ++ 0#5 ++ 8#5 ++ 0x33#6 ++ 1#1) = .ok (.msStat 8 7 2)

/-- A step whose agenda says that a core moves, when the running process of that core issues, performs exactly the
instruction that its fetch at the pc gives, in the state after the fetch; then the sequencers stamp what waits (R325)
and one cc of the core's die passes. The fetch gives the instruction of the one or two halfwords at the pc when
windows grant execute, and leaves every part of the state but the core's own registers and the counter of free values
(log 9). That the agenda says which agent moves (log 1) and that a step of a core passes one cc (log 5) are the
model's choices. -/
def Obligations.StepRunsDecoded : Prop :=
  ∀ (s : State) (p : Proc) (rest : List Agenda), s.agenda = .core s.focus :: rest → s.coreLive s.focus = true →
    Issues s p →
    (∀ i t, { s with agenda := rest }.fetch p = .instr i t →
      step s = passing (s.ccOf s.focus) (exec i t) ∧
      t = { s with agenda := rest, cores := t.cores, free := t.free }) ∧
    (∀ h0 h1 i n, s.fetchMem p p.pc = some h0 → s.copy? p.core p.pc.toNat = none →
      s.fetchMem p (p.pc + 2) = some h1 → s.copy? p.core (p.pc + 2).toNat = none →
      decodeHalves h0 h1 = .instr i n → ∃ t, { s with agenda := rest }.fetch p = .instr i t)

/-- Where the halfwords at the pc are no instruction, a step of the core raises ILLEGAL with the reason of Table 3.5
and the instruction's bits; where a halfword cannot be fetched, it raises WINDOW with ADDR that halfword, DETAIL0 2
and DETAIL1 4. The two outcomes are rows of the opcode table: each of them takes the holding fault for the running
process. That the agenda says which agent moves (log 1) and that the step passes one cc (log 5) are the model's
choices. -/
def Obligations.FetchFaults : Prop :=
  ∀ (s : State) (p : Proc), s.cpu = some p →
    (∀ w r, exec .unallocatedEncoding { s with subj := .encoding w r } =
      .next ({ s with subj := .encoding w r }.raise p .illegal (some (if w.getLsbD 0 then 4 else 2)) 0 (r.setWidth 64)
        (w.setWidth 64))) ∧
    (∀ a, exec .fetchWindow { s with subj := .fetch a } =
      .next ({ s with subj := .fetch a }.raise p .window (if a = p.pc then none else some 4) a 2 4)) ∧
    (∀ rest, s.agenda = .core s.focus :: rest → s.coreLive s.focus = true → (p.wait = .none ∨ p.wait = .stall) →
      (∀ w r t, { s with agenda := rest }.fetch p = .illegal w r t →
        step s = passing (s.ccOf s.focus) (exec .unallocatedEncoding { t with subj := .encoding w r })) ∧
      (∀ a, { s with agenda := rest }.fetch p = .window a →
        step s = passing (s.ccOf s.focus) (exec .fetchWindow { s with agenda := rest, subj := .fetch a })))

/-- A holding cause of the running process: the process leaves RUNNING for FAULTED with every register as it was and
its pc that of the instruction, vector and tile progress are cleared, its last running time is that of the record, and
the record is kept with the fault. The record holds the cause, HELD, the region, PID, pc, address, detail words, time
and coordinate of Table 1.11. Nothing else changes but a requested halt of the core, until the record sets out: where
there is no endpoint for it, it is in the monitor's mailbox and in its function's error ring; where the endpoint has
no free slot, it waits at the core. `trap` raises TRAP with ADDR 0, DETAIL0 its code and DETAIL1 x[A], `brk` BREAK
with ADDR 0, DETAIL0 its code and DETAIL1 0, for every operand: that entry is their whole effect. -/
def Obligations.FaultTaken : Prop :=
  (∀ (s : State) (p : Proc) (c : Cause) (len : Option Nat) (addr d0 d1 : Word), s.cpu = some p →
     ∃ (t : State) (r : Record), s.raise p c len addr d0 d1 = t.sendRecord p.core r ∧
       r = { cause := c, held := true, region := p.region, pid := p.pid, pc := p.pc, addr := addr, d0 := d0, d1 := d1,
             time := s.ns, coord := s.coord p.core, via := s.recordVia p.priv p.region } ∧
       t = { s with cpu := none, cores := t.cores
                    procs := s.procs ++ [{ p with st := .faulted, wait := .none, done := none, vprog := 0, tile := none
                                                  tdone := 0, batch := 0, lastRun := s.ns
                                                  fault := some { record := r, len := len } }] } ∧
       (t.core p.core).halt = none ∧ (t.core p.core).records = (s.core p.core).records ∧
       (∀ k, k ≠ p.core → t.core k = s.core k) ∧
       (r.via = none → t.sendRecord p.core r = { t with mailbox := t.mailbox ++ [r],
                                                        errorRings := t.errorRings ++ [(t.functionOf r.region, r)] }) ∧
       (∀ v ch, r.via = some v → t.faultChan v = some ch → t.faultSlots v ch ≤ ch.queue.length →
         (t.sendRecord p.core r) = { t with cores := (t.sendRecord p.core r).cores } ∧
         ((t.sendRecord p.core r).core p.core).records = (t.core p.core).records ++ [r])) ∧
  (∀ (s : State) (p : Proc) (a : XIdx) (code : BitVec 10), s.cpu = some p →
     exec (.trap a code) s = .next (s.raise p .trap (some 4) 0 (code.setWidth 64) (p.getX a)) ∧
     exec (.brk code) s = .next (s.raise p .brk (some 4) 0 (code.setWidth 64) 0))

/-- Reading x0 gives zero and reading p0 gives all ones, whatever was written; a write to either leaves the process as
it was; a write to another register is read back and leaves every other register. -/
def Obligations.HardWiredRegisters : Prop :=
  ∀ (p : Proc) (v : Word),
    p.getX 0 = 0 ∧ p.setX 0 v = p ∧ p.getP 0 = BitVec.allOnes 64 ∧ p.setP 0 v = p ∧
    (∀ r : XIdx, r ≠ 0 → (p.setX r v).getX r = v) ∧ (∀ r q : XIdx, q ≠ r → (p.setX r v).getX q = p.getX q) ∧
    (∀ r : PIdx, r ≠ 0 → (p.setP r v).getP r = v) ∧ (∀ r q : PIdx, q ≠ r → (p.setP r v).getP q = p.getP q)

/-- After reset and a boot in which nothing fails, no process or region exists, nothing is under way, every byte of
every memory reads as 0 and the memories are canonical, every word is full, and every core's registers are at the
values of its map (PSIZE 4, QUANT 0x1000, PROBE 0x3E8). The model's choices: the package is a full EL840-P (log 3),
`%time` and `%cycle` begin at 0 (log 5), and far memory reads as 0 (log 6). -/
def Obligations.ResetState : Prop :=
  State.reset.cpu = none ∧ State.reset.procs = [] ∧ State.reset.regions = [] ∧ State.reset.packets = [] ∧
  State.reset.channels = [] ∧ State.reset.requests = [] ∧ State.reset.rsvs = [] ∧ State.reset.watches = [] ∧
  State.reset.time = 0 ∧ MemoriesOk State.reset ∧
  (∀ a, State.reset.mem.get a = 0 ∧ State.reset.hbm.get a = 0 ∧ State.reset.far.get a = 0) ∧
  (∀ w, State.reset.isFull w = true) ∧
  (∀ c, (State.reset.core c).psize = 4 ∧ (State.reset.core c).quantum = 0x1000 ∧ (State.reset.core c).probe = 0x3E8) ∧
  (∀ d, d < 8 → State.reset.diePresent d = true ∧ (State.reset.die d).mhz = 1200 ∧ (State.reset.die d).cycle = 0)

/-- Local memories and lofts, HBM, far and host memory: whenever a step of the machine, whatever moves, leads from a
state whose memories are lists of bytes at strictly rising addresses without a byte of value 0 to another state, its
memories are such lists too, so that equal memories are equal data. The reset state's are (ResetState). The form is
the model's: a byte that is not listed reads 0 (log 21 for local memory and HBM, log 6 for far and host memory). -/
def Obligations.MemoriesStayCanonical : Prop :=
  ∀ s t : State, MemoriesOk s → step s = .next t → MemoriesOk t

/-- Each instruction of Table 5.2 completes for every value of its operands: x[D] takes Trunc(res, 64), with res
computed on unbounded integers from the signed and unsigned values of x[A] and x[B] and the shift amount x[B] mod 64,
the pc moves on by 4, and no other register, flag, memory byte or part of the machine changes. Signed division
truncates toward zero and clamps the quotient to the signed range; a divisor of zero gives the extreme value of the
dividend's sign, or 0 for 0, and the remainder 0. A write to x0 is discarded. -/
def Obligations.RegisterArithmetic : Prop :=
  ∀ (s : State) (p : Proc) (d a b : XIdx), s.cpu = some p →
    let x := p.getX a
    let y := p.getX b
    let sh := y.toNat % 64
    let n := x.toInt
    let e := y.toInt
    let q : Int := if (n < 0) = (e < 0) then n.natAbs / e.natAbs else -(n.natAbs / e.natAbs)
    let res (v : Word) : Proc := behind (p.setX d v) 4
    Completes (.add d a b) s (res (BitVec.ofNat 64 (x.toNat + y.toNat))) ∧
    Completes (.sub d a b) s (res (BitVec.ofInt 64 ((x.toNat : Int) - y.toNat))) ∧
    Completes (.and d a b) s (res (x &&& y)) ∧
    Completes (.or d a b) s (res (x ||| y)) ∧
    Completes (.xor d a b) s (res (x ^^^ y)) ∧
    Completes (.andn d a b) s (res (x &&& ~~~y)) ∧
    Completes (.sll d a b) s (res (BitVec.ofNat 64 (x.toNat * 2 ^ sh))) ∧
    Completes (.srl d a b) s (res (BitVec.ofNat 64 (x.toNat / 2 ^ sh))) ∧
    Completes (.sra d a b) s (res (BitVec.ofInt 64 (x.toInt / 2 ^ sh))) ∧
    Completes (.ror d a b) s (res (BitVec.ofNat 64 (x.toNat / 2 ^ sh) ||| BitVec.ofNat 64 (x.toNat * 2 ^ (64 - sh)))) ∧
    Completes (.slt d a b) s (res (if x.toInt < y.toInt then 1 else 0)) ∧
    Completes (.sltu d a b) s (res (if x.toNat < y.toNat then 1 else 0)) ∧
    Completes (.min d a b) s (res (BitVec.ofInt 64 (min x.toInt y.toInt))) ∧
    Completes (.max d a b) s (res (BitVec.ofInt 64 (max x.toInt y.toInt))) ∧
    Completes (.minu d a b) s (res (BitVec.ofNat 64 (min x.toNat y.toNat))) ∧
    Completes (.maxu d a b) s (res (BitVec.ofNat 64 (max x.toNat y.toNat))) ∧
    Completes (.mul d a b) s (res (BitVec.ofInt 64 (x.toInt * y.toInt))) ∧
    Completes (.mulh d a b) s (res (BitVec.ofInt 64 (x.toInt * y.toInt / 2 ^ 64))) ∧
    Completes (.mulhu d a b) s (res (BitVec.ofNat 64 (x.toNat * y.toNat / 2 ^ 64))) ∧
    Completes (.mulhsu d a b) s (res (BitVec.ofInt 64 (x.toInt * y.toNat / 2 ^ 64))) ∧
    Completes (.div d a b) s (res (BitVec.ofInt 64
      (if e = 0 then (if 0 < n then 2 ^ 63 - 1 else if n < 0 then -(2 ^ 63) else 0)
       else max (-(2 ^ 63)) (min q (2 ^ 63 - 1))))) ∧
    Completes (.divu d a b) s (res (BitVec.ofNat 64
      (if y.toNat = 0 then (if x.toNat = 0 then 0 else 2 ^ 64 - 1) else x.toNat / y.toNat))) ∧
    Completes (.rem d a b) s (res (BitVec.ofInt 64 (if e = 0 then 0 else n - e * q))) ∧
    Completes (.remu d a b) s (res (BitVec.ofNat 64 (if y.toNat = 0 then 0 else x.toNat % y.toNat))) ∧
    (∃ n, Completes (.clz d a) s (res (BitVec.ofNat 64 n)) ∧
      (if x = 0 then n = 64 else n < 64 ∧ x.getLsbD (63 - n) = true ∧ ∀ j, 63 - n < j → x.getLsbD j = false)) ∧
    (∃ n, Completes (.ctz d a) s (res (BitVec.ofNat 64 n)) ∧
      (if x = 0 then n = 64 else n < 64 ∧ x.getLsbD n = true ∧ ∀ j, j < n → x.getLsbD j = false)) ∧
    Completes (.popc d a) s (res (BitVec.ofNat 64 ((List.range 64).countP fun i => x.getLsbD i))) ∧
    Completes (.sextB d a) s (res (BitVec.ofInt 64 (BitVec.ofNat 8 x.toNat).toInt)) ∧
    Completes (.sextH d a) s (res (BitVec.ofInt 64 (BitVec.ofNat 16 x.toNat).toInt)) ∧
    Completes (.sextW d a) s (res (BitVec.ofInt 64 (BitVec.ofNat 32 x.toNat).toInt)) ∧
    Completes (.zextW d a) s (res (BitVec.ofNat 64 (x.toNat % 2 ^ 32)))

/-- The immediate forms complete for every operand and immediate, with the 15-bit immediate sign-extended also in the
logical forms and in `sltiu`; the constant shifts act as the register shifts by their amount; `lih` and `addpc` add
the sign-extended 20-bit immediate times 4,096 to 0 and to the pc of the instruction. Nothing but x[D] and the pc
changes. -/
def Obligations.ImmediateForms : Prop :=
  ∀ (s : State) (p : Proc) (d a : XIdx) (imm : BitVec 15) (sh : BitVec 6) (u : BitVec 20), s.cpu = some p →
    let x := p.getX a
    let i : Word := BitVec.ofInt 64 imm.toInt
    let res (v : Word) : Proc := behind (p.setX d v) 4
    Completes (.addi d a imm) s (res (BitVec.ofInt 64 (x.toNat + imm.toInt))) ∧
    Completes (.andi d a imm) s (res (x &&& i)) ∧
    Completes (.ori d a imm) s (res (x ||| i)) ∧
    Completes (.xori d a imm) s (res (x ^^^ i)) ∧
    Completes (.slti d a imm) s (res (if x.toInt < imm.toInt then 1 else 0)) ∧
    Completes (.sltiu d a imm) s (res (if x.toNat < i.toNat then 1 else 0)) ∧
    Completes (.slli d a sh) s (res (BitVec.ofNat 64 (x.toNat * 2 ^ sh.toNat))) ∧
    Completes (.srli d a sh) s (res (BitVec.ofNat 64 (x.toNat / 2 ^ sh.toNat))) ∧
    Completes (.srai d a sh) s (res (BitVec.ofInt 64 (x.toInt / 2 ^ sh.toNat))) ∧
    Completes (.lih d u) s (res (BitVec.ofInt 64 (u.toInt * 4096))) ∧
    Completes (.addpc d u) s (res (BitVec.ofInt 64 (p.pc.toNat + u.toInt * 4096)))

/-- A branch whose condition of Table 5.5 holds puts the pc at pc + 2 × offset, else at pc + 4; `jal` and `jalr` write
pc + 4 to x[D] and go to the target, which `jalr` computes from x[A] as it was before the link is written, with bit 0
cleared; `c.j` writes no link; `nop` advances the pc by 4, and the words of the no-operations are those of R117.
Nothing else changes. -/
def Obligations.BranchesAndJumps : Prop :=
  ∀ (s : State) (p : Proc) (d a b : XIdx) (off imm : BitVec 15) (u : BitVec 20)
    (o11 : BitVec 11), s.cpu = some p →
    let x := p.getX a
    let y := p.getX b
    let branch (c : Prop) [Decidable c] : Proc :=
      if c then atTarget p (BitVec.ofInt 64 (p.pc.toNat + off.toInt * 2)) else behind p 4
    Completes (.beq a b off) s (branch (x = y)) ∧
    Completes (.bne a b off) s (branch (x ≠ y)) ∧
    Completes (.blt a b off) s (branch (x.toInt < y.toInt)) ∧
    Completes (.bge a b off) s (branch (y.toInt ≤ x.toInt)) ∧
    Completes (.bltu a b off) s (branch (x.toNat < y.toNat)) ∧
    Completes (.bgeu a b off) s (branch (y.toNat ≤ x.toNat)) ∧
    Completes (.jal d u) s (atTarget (p.setX d (p.pc + 4)) (BitVec.ofInt 64 (p.pc.toNat + u.toInt * 2))) ∧
    Completes (.jalr d a imm) s
      (atTarget (p.setX d (p.pc + 4)) (BitVec.ofInt 64 (x.toNat + imm.toInt) &&& ~~~1)) ∧
    Completes (.cJ o11) s (atTarget p (BitVec.ofInt 64 (p.pc.toNat + o11.toInt * 2))) ∧
    Completes .nop s (behind p 4) ∧ decodeWord 0x00400033 = .ok .nop ∧ decodeHalf 0x001E = .ok .cNop

/-- Each compact form of Table 3.6 without memory operand completes for every operand: arithmetic on x[D] and x[A] or
the 6-bit immediate, sign-extended, or shift amount; branches on one of x4 to x11 against zero; the jump without link;
the no-operation. The pc moves on by 2, or to pc + 2 × offset. -/
def Obligations.CompactForms : Prop :=
  ∀ (s : State) (p : Proc) (d a : XIdx) (imm : BitVec 6) (c : BitVec 3) (o8 : BitVec 8) (o11 : BitVec 11),
    s.cpu = some p →
    let x := p.getX d
    let y := p.getX a
    let z := p.getX (BitVec.ofNat 5 (c.toNat + 4))
    let res (v : Word) : Proc := behind (p.setX d v) 2
    Completes (.cAddi d imm) s (res (BitVec.ofInt 64 (x.toNat + imm.toInt))) ∧
    Completes (.cLi d imm) s (res (BitVec.ofInt 64 imm.toInt)) ∧
    Completes (.cMv d a) s (res y) ∧
    Completes (.cAdd d a) s (res (BitVec.ofNat 64 (x.toNat + y.toNat))) ∧
    Completes (.cSub d a) s (res (BitVec.ofInt 64 ((x.toNat : Int) - y.toNat))) ∧
    Completes (.cAnd d a) s (res (x &&& y)) ∧
    Completes (.cOr d a) s (res (x ||| y)) ∧
    Completes (.cXor d a) s (res (x ^^^ y)) ∧
    Completes (.cSlli d imm) s (res (BitVec.ofNat 64 (x.toNat * 2 ^ imm.toNat))) ∧
    Completes (.cSrli d imm) s (res (BitVec.ofNat 64 (x.toNat / 2 ^ imm.toNat))) ∧
    Completes (.cBeqz c o8) s
      (if z = 0 then atTarget p (BitVec.ofInt 64 (p.pc.toNat + o8.toInt * 2)) else behind p 2) ∧
    Completes (.cBnez c o8) s
      (if z ≠ 0 then atTarget p (BitVec.ofInt 64 (p.pc.toNat + o8.toInt * 2)) else behind p 2) ∧
    Completes (.cJ o11) s (atTarget p (BitVec.ofInt 64 (p.pc.toNat + o11.toInt * 2))) ∧
    Completes .cNop s (behind p 2)

/-- A load whose address is aligned, lies in a window that grants read and is below the park area of the own memory,
through the private alias, while nothing of the core is under way and no error lies in the granules read, completes at
once: x[D] takes the little-endian bytes at the core's place in the package map, sign-extended, or zero-extended for
`ldbu`, `ldhu`, `ldwu` and `ldaq`; the pc moves on; every byte of memory and everything else is unchanged. -/
def Obligations.OwnLoadsComplete : Prop :=
  ∀ (s : State) (p : Proc) (d a : XIdx) (off : BitVec 12) (sz : Width) (c e : BitVec 3) (o5 : BitVec 5),
    Issues s p → Quiet s p.core →
    let ea : Word := BitVec.ofInt 64 ((p.getX a).toNat + off.toInt)
    let mem (ea : Word) (n : Nat) : Nat := s.mem.read (homeAt p ea) n
    let ok (ea : Word) (n : Nat) : Prop := OwnAccess s p ea n .rd ∧ Sound s (homeAt p ea) n
    let res (v : Word) : Proc := behind (p.setX d v) 4
    (ok ea 1 → Completes (.ldb d a off) s (res (BitVec.ofInt 64 (BitVec.ofNat 8 (mem ea 1)).toInt))) ∧
    (ok ea 2 → Completes (.ldh d a off) s (res (BitVec.ofInt 64 (BitVec.ofNat 16 (mem ea 2)).toInt))) ∧
    (ok ea 4 → Completes (.ldw d a off) s (res (BitVec.ofInt 64 (BitVec.ofNat 32 (mem ea 4)).toInt))) ∧
    (ok ea 8 → Completes (.ldd d a off) s (res (BitVec.ofNat 64 (mem ea 8)))) ∧
    (ok ea 1 → Completes (.ldbu d a off) s (res (BitVec.ofNat 64 (mem ea 1)))) ∧
    (ok ea 2 → Completes (.ldhu d a off) s (res (BitVec.ofNat 64 (mem ea 2)))) ∧
    (ok ea 4 → Completes (.ldwu d a off) s (res (BitVec.ofNat 64 (mem ea 4)))) ∧
    (ok (p.getX a) (bytesOf sz) → Completes (.ldaq sz d a) s (res (BitVec.ofNat 64 (mem (p.getX a) (bytesOf sz))))) ∧
    (let d' : XIdx := BitVec.ofNat 5 (c.toNat + 4)
     let base := p.getX (BitVec.ofNat 5 (e.toNat + 4))
     (ok (base + BitVec.ofNat 64 (8 * o5.toNat)) 8 → Completes (.cLdd c e o5) s
       (behind (p.setX d' (BitVec.ofNat 64 (mem (base + BitVec.ofNat 64 (8 * o5.toNat)) 8))) 2)) ∧
     (ok (base + BitVec.ofNat 64 (4 * o5.toNat)) 4 → Completes (.cLdw c e o5) s
       (behind (p.setX d' (BitVec.ofInt 64 (BitVec.ofNat 32 (mem (base + BitVec.ofNat 64 (4 * o5.toNat)) 4)).toInt)) 2)))

/-- A store whose address is aligned, lies in a window that grants write and is below the park area of the own memory,
through the private alias, while nothing of the core is under way, completes when the path accepts it: the pc moves on
and one write sets out whose address is the core's place of x[A] + offset in the package map, whose size is the width
of the form and whose value is the low bytes of x[B]; `stf` also sets the word's bit full when it lands. No byte of
memory, no register and nothing else changes. A `ldd` of the process at the address of a `std` accepted just before
gives the value stored, whether or not the write has landed. -/
def Obligations.OwnStoresAccepted : Prop :=
  (∀ (s : State) (p : Proc) (b a : XIdx) (off : BitVec 12) (sz : Width) (c e : BitVec 3) (o5 : BitVec 5),
    Issues s p → Quiet s p.core → (∀ q ∈ s.packets, q.pid ≠ p.pid) →
    let ea : Word := BitVec.ofInt 64 ((p.getX a).toNat + off.toInt)
    let v := (p.getX b).toNat
    let accepted (i : Instr) (ea : Word) (n v : Nat) (kind : AKind) (fe : Option Bool) (len : Nat) : Prop :=
      OwnAccess s p ea n .wr → ∃ q : Packet,
        exec i s = .next { s with cpu := some (behind p len), nextId := s.nextId + 1, packets := s.packets ++ [q] } ∧
        q.core = p.core ∧ q.pid = p.pid ∧ q.path = .own ∧ q.kind = kind ∧ q.used = ea.toNat ∧ q.n = n ∧
        q.payload = .write { addr := homeAt p ea, n := n, val := v % 2 ^ (8 * n), fe := fe,
                              author := some (s.author p ea) }
    accepted (.stb b a off) ea 1 v .ord none 4 ∧
    accepted (.sth b a off) ea 2 v .ord none 4 ∧
    accepted (.stw b a off) ea 4 v .ord none 4 ∧
    accepted (.std b a off) ea 8 v .ord none 4 ∧
    accepted (.strl sz b a) (p.getX a) (bytesOf sz) v .rel none 4 ∧
    accepted (.stNt b a) (p.getX a) 8 v .nt none 4 ∧
    accepted (.stf b a) (p.getX a) 8 v .rel (some true) 4 ∧
    (let w := (p.getX (BitVec.ofNat 5 (c.toNat + 4))).toNat
     let base := p.getX (BitVec.ofNat 5 (e.toNat + 4))
     accepted (.cStd c e o5) (base + BitVec.ofNat 64 (8 * o5.toNat)) 8 w .ord none 2 ∧
     accepted (.cStw c e o5) (base + BitVec.ofNat 64 (4 * o5.toNat)) 4 w .ord none 2)) ∧
  (∀ (s : State) (p : Proc) (b a d e : XIdx) (off off' : BitVec 12),
    Issues s p → Quiet s p.core → s.latent = [] → s.marks = [] →
    let ea : Word := p.getX a + off.signExtend 64
    OwnAccess s p ea 8 .wr → p.allowed s ea 8 .rd = true →
    p.getX e + off'.signExtend 64 = ea →
    ∃ t, exec (.std b a off) s = .next t ∧
      exec (.ldd d e off') t = .next { t with cpu := some (behind ((behind p 4).setX d (p.getX b)) 4) })

/-- With memory in its canonical form, an accepted write that may land, at a home that is there, on a word without
queued requests, watches or armed trigger and a granule without a latent error, takes effect: each byte of the memory
in the range of the write takes its byte of the value, little-endian, every other byte of memory reads as before, the
write is no longer under way and the process is unchanged. A write that carries a full/empty bit, as that of `stf`
does (OwnStoresAccepted), gives it to its word; every other full/empty bit is as it was. This holds for writes of the
core's own memory (WRITE_LANDS), of homes reached by the mesh (INBOUND_REQUEST), pushes of streams (STREAM_PUSH_LAND)
and writes of `tst` (TST_WRITE_LAND). -/
def Obligations.WritesLand : Prop :=
  ∀ (s : State) (q : Packet) (w : WriteEff), s.packet? q.id = some q → q.payload = .write w → q.queued = false →
    s.mayLand q = true →
    s.mem.wf = true → s.homeGone w.addr = false → s.queued (wordAt w.addr) = false → s.watches = [] →
      s.triggers = [] → s.latent = [] →
    let lands (i : Instr) : Prop := ∃ t, exec i { s with subj := .id q.id } = .next t ∧
      (∀ k, k < w.n → t.mem.get (w.addr + k) = BitVec.ofNat 8 (w.val / 256 ^ k)) ∧
      (∀ b, b < w.addr ∨ w.addr + w.n ≤ b → t.mem.get b = s.mem.get b) ∧
      (∀ g, t.isFull g = if g = wordAt w.addr then w.fe.getD (s.isFull g) else s.isFull g) ∧
      t.packets = s.packets.filter (·.id != q.id) ∧ t.cpu = s.cpu ∧ t.procs = s.procs ∧ t.rsvs = s.rsvs
    (q.path = .own → q.kind = .ord ∨ q.kind = .rel ∨ q.kind = .nt → lands .writeLands) ∧
    (q.path = .mesh → q.kind = .ord ∨ q.kind = .rel ∨ q.kind = .nt → lands .inboundRequest) ∧
    (∀ i, q.kind = .push i → q.path = .own ∨ q.path = .mesh → lands .streamPushLand) ∧
    (q.kind = .tst → q.path = .own → lands .tstWriteLand)

/-- The checks of R109, R246 and R253 in their order. A misaligned address raises MISALIGN, an aligned one that no
window of the process grants raises WINDOW, each with ADDR the address, DETAIL0 the width, and DETAIL1 0 for a read, 1
for a write and 2 for `lde`, `ste`, `rsv`, `rls` and `amo.*`; the process is FAULTED at its pc with x[D] as it was
(FaultTaken). The full/empty, wait and reservation instructions raise WINDOW with DETAIL1 5 for an aligned address in
the aperture. `fefill` and `feclr` check the base and the length, then the length's limit (DETAIL0 the length), then
each word in order. A read of the own memory that meets an error raises MEMERR, with nothing of the process and the
core under way: of a load in any granule of its bytes, of a full/empty, wait or reservation instruction in its word.
An access that passes them all completes (OwnLoadsComplete, OwnStoresAccepted and the statements of full/empty and
reservations). -/
def Obligations.AccessChecks : Prop :=
  ∀ (s : State) (p : Proc) (d a b : XIdx) (off : BitVec 12) (sz : Width) (c e : BitVec 3) (o5 : BitVec 5) (rlx : Bool),
    Issues s p →
    let ea : Word := p.getX a + off.signExtend 64
    let x : Word := p.getX a
    let base : Word := p.getX (BitVec.ofNat 5 (e.toNat + 4))
    let faults (i : Instr) (c : Cause) (len : Nat) (ea d0 d1 : Word) : Prop :=
      exec i s = .next (s.raise p c (some len) ea d0 d1)
    let checks (i : Instr) (len : Nat) (ea : Word) (n : Nat) (perm : Perm) (k : Word) : Prop :=
      (ea.toNat % n ≠ 0 → faults i .misalign len ea (BitVec.ofNat 64 n) k) ∧
      (ea.toNat % n = 0 → p.allowed s ea n perm = false → faults i .window len ea (BitVec.ofNat 64 n) k)
    let inAperture (w : Word) : Prop := 0x2000000000 ≤ w.toNat ∧ w.toNat < 0x4000000000
    let atHome (i : Instr) (perm : Perm) (k : Word) : Prop :=
      (x.toNat % 8 ≠ 0 → faults i .misalign 4 x 8 k) ∧
      (x.toNat % 8 = 0 → inAperture x → faults i .window 4 x 8 5) ∧
      (x.toNat % 8 = 0 → ¬ inAperture x → p.allowed s x 8 perm = false → faults i .window 4 x 8 k)
    let range (i : Instr) : Prop :=
      let n := (p.getX b).toNat
      let word (k : Nat) : Word := x + BitVec.ofNat 64 (8 * k)
      let bad (w : Word) : Prop := inAperture w ∨ p.allowed s w 8 .wr = false
      (x.toNat % 8 ≠ 0 ∨ n % 8 ≠ 0 → faults i .misalign 4 x 8 1) ∧
      (x.toNat % 8 = 0 → n % 8 = 0 → 65536 < n → faults i .window 4 x (p.getX b) 1) ∧
      (∀ k, x.toNat % 8 = 0 → n % 8 = 0 → n ≤ 65536 → k < n / 8 → (∀ j, j < k → ¬ bad (word j)) →
        (inAperture (word k) → faults i .window 4 (word k) 8 5) ∧
        (¬ inAperture (word k) → p.allowed s (word k) 8 .wr = false → faults i .window 4 (word k) 8 1))
    let meets (ea : Word) (n : Nat) (perm : Perm) : Prop :=
      Quiet s p.core ∧ (∀ q ∈ s.packets, q.pid ≠ p.pid) ∧ OwnAccess s p ea n perm ∧
      ∃ g ∈ s.marks ++ s.latent, g < homeAt p ea + n ∧ homeAt p ea < g + 8
    let meetsWord (perm : Perm) : Prop :=
      Quiet s p.core ∧ (∀ q ∈ s.packets, q.pid ≠ p.pid) ∧ OwnAccess s p x 8 perm ∧ homeAt p x ∈ s.marks ++ s.latent
    let loads (i : Instr) (len : Nat) (ea : Word) (n : Nat) : Prop :=
      checks i len ea n .rd 0 ∧ (meets ea n .rd → faults i .memerr len ea (BitVec.ofNat 64 n) 0)
    let amos (i : Instr) : Prop := atHome i .rw 2 ∧
      (meetsWord .rw → s.queued (homeAt p x) = false → s.entryFree (homeAt p x) = true → faults i .memerr 4 x 8 2)
    (loads (.ldb d a off) 4 ea 1 ∧ loads (.ldbu d a off) 4 ea 1 ∧ loads (.ldh d a off) 4 ea 2 ∧
     loads (.ldhu d a off) 4 ea 2 ∧ loads (.ldw d a off) 4 ea 4 ∧ loads (.ldwu d a off) 4 ea 4 ∧
     loads (.ldd d a off) 4 ea 8 ∧ loads (.ldaq sz d a) 4 x (bytesOf sz) ∧
     loads (.cLdd c e o5) 2 (base + BitVec.ofNat 64 (8 * o5.toNat)) 8 ∧
     loads (.cLdw c e o5) 2 (base + BitVec.ofNat 64 (4 * o5.toNat)) 4) ∧
    (checks (.stb b a off) 4 ea 1 .wr 1 ∧ checks (.sth b a off) 4 ea 2 .wr 1 ∧ checks (.stw b a off) 4 ea 4 .wr 1 ∧
     checks (.std b a off) 4 ea 8 .wr 1 ∧ checks (.strl sz b a) 4 x (bytesOf sz) .wr 1 ∧
       checks (.stNt b a) 4 x 8 .wr 1 ∧
     checks (.cStd c e o5) 2 (base + BitVec.ofNat 64 (8 * o5.toNat)) 8 .wr 1 ∧
     checks (.cStw c e o5) 2 (base + BitVec.ofNat 64 (4 * o5.toNat)) 4 .wr 1) ∧
    (atHome (.stf b a) .wr 1 ∧ atHome (.ste b a) .rw 2 ∧ atHome (.rls a b) .rw 2 ∧
     (∀ i k perm, (i, k, perm) ∈ [(Instr.ldf d a, (0 : Word), Perm.rd), (.lde d a, 2, .rw), (.waitw d a b, 0, .rd),
         (.waitc d a b, 0, .rd)] → atHome i perm k ∧ (meetsWord perm → faults i .memerr 4 x 8 k)) ∧
     amos (.rsv d a) ∧ amos (.amoAdd rlx d a b) ∧ amos (.amoAnd rlx d a b) ∧ amos (.amoOr rlx d a b) ∧
     amos (.amoXor rlx d a b) ∧ amos (.amoMin rlx d a b) ∧ amos (.amoMax rlx d a b) ∧ amos (.amoMinu rlx d a b) ∧
     amos (.amoMaxu rlx d a b) ∧ amos (.amoSwap rlx d a b) ∧ amos (.amoCas rlx d a b)) ∧
    range (.fefill a b) ∧ range (.feclr a b)

/-- `ifl` completes, whatever x[A] and x[B] are and whatever is under way: afterwards the core holds no copy of a
halfword that touches the bytes x[A] to x[A] + x[B] − 1, counted on unbounded integers, and every other copy and every
other core's copies are as they were; the pc moves on by 4, and memory, windows and other registers are unchanged. -/
def Obligations.IflDropsCopies : Prop :=
  ∀ (s : State) (p : Proc) (a b : XIdx), s.cpu = some p →
    ∃ t, exec (.ifl a b) s = .next t ∧ t = { s with cpu := some (behind p 4), cores := t.cores } ∧
      (∀ c, c ≠ p.core → t.core c = s.core c) ∧
      (∀ x, x ∈ (t.core p.core).copies ↔ x ∈ (s.core p.core).copies ∧
        ¬ (0 < (p.getX b).toNat ∧ x.1 < (p.getX a).toNat + (p.getX b).toNat ∧ (p.getX a).toNat < x.1 + 2)) ∧
      (t.core p.core).early = (s.core p.core).early ∧ (t.core p.core).records = (s.core p.core).records

/-- `csrr` completes for every allocated CSR: x[D] takes its value, each field in its bits as the CSR's table gives
it. `csrw`, `csrs` and `csrc` of `%fpmode` and `%fpflags` complete: the register takes x[A], or its old value with the
bits of x[A] set or cleared, in its RW bits (`%fpmode` 1:0 and 8:4, `%fpflags` 4:0), and x[D] takes the value after
the update; nothing else changes. For every other CSR each write form, whatever x[A] is, raises PRIVILEGE for the
running process at its pc with ADDR 0 (FaultTaken says what that leaves) and writes no register; the rule states no
detail words for the record: they are free values (log 12), and this statement says nothing of them. That OWN of
`%msreq` stops at 64 is the model's choice (log 47). -/
def Obligations.CsrEffects : Prop :=
  ∀ (s : State) (p : Proc) (d a : XIdx), s.cpu = some p →
    let x := p.getX a
    let k := s.core p.core
    let here := s.onCore p.core
    let mode (v : Word) : Proc := { p with fpmode := v.setWidth 9 &&& 0x1F3 }
    let flags (v : Word) : Proc := { p with fpflags := v.setWidth 5 }
    let bits (b : Bool) (n : Nat) : Nat := if b then 2 ^ n else 0
    let value : Csr → Word
      | .pid => BitVec.ofNat 64 p.pid
      | .region => BitVec.ofNat 64 ((if p.priv = .s then 2 ^ 19 else 0) + s.depthOf p.region * 2 ^ 16 + p.region)
      | .cls => BitVec.ofNat 64 (bits p.dem 9 + bits p.inh 8 + s.effCeil p.region * 16 + p.base * 4 + p.eff)
      | .period => BitVec.ofNat 64 p.period
      | .deadline => p.deadline
      | .budget => p.budget
      | .quantum => k.quantum.setWidth 64
      | .time => BitVec.ofNat 64 (s.time / 12)
      | .cycle => BitVec.ofNat 64 (s.die (p.core / 1024)).cycle
      | .fpmode => p.fpmode.setWidth 64
      | .fpflags => p.fpflags.setWidth 64
      | .coord => BitVec.ofNat 64 (p.core + s.pkg.pkgNum.toNat * 2 ^ 16)
      | .pkgcfg => BitVec.ofNat 64 (s.pkg.step.toNat * 2 ^ 44 + s.pkg.part.code.toNat * 2 ^ 40 +
          s.pkg.edgeMask.toNat * 2 ^ 24 + s.pkg.stackMask.toNat * 2 ^ 8 + s.pkg.dieMask.toNat)
      | .gstat => BitVec.ofNat 64 (here.length * 2 ^ 32 + (here.filter (·.loc == .park)).length * 2 ^ 16 +
          k.psize * 2 ^ 10 + (Config.greenUnits - s.greenUsed p.core))
      | .tstat => BitVec.ofNat 64 (p.uncl * 2 ^ 8 + p.mq.length)
      | .nistat => BitVec.ofNat 64 (s.parkFree p.core / 64 * 2 ^ 32 + s.entriesOn p.core)
      | .probe => k.probe.setWidth 64
      | .memst => BitVec.ofNat 64 (min (s.packets.countP fun q => q.pid == p.pid && q.kind == .nt) 0xFFFF * 2 ^ 32 +
          min (s.remoteWaiting p.core) 0xFFFF * 2 ^ 16 + min p.rsvs.length 0xFF)
      | .msreq => BitVec.ofNat 64 (s.requests.countP (·.core == p.core) * 2 ^ 16 +
          min (s.requests.countP (·.pid == p.pid)) 64)
    (∀ c, Completes (.csrr d c) s (behind (p.setX d (value c)) 4)) ∧
    Completes (.csrw .fpmode a) s (behind (mode x) 4) ∧
    Completes (.csrw .fpflags a) s (behind (flags x) 4) ∧
    Completes (.csrs d .fpmode a) s
      (behind ((mode (p.fpmode.setWidth 64 ||| x)).setX d ((mode (p.fpmode.setWidth 64 ||| x)).fpmode.setWidth 64)) 4) ∧
    Completes (.csrs d .fpflags a) s
      (behind ((flags (p.fpflags.setWidth 64 ||| x)).setX d ((flags (p.fpflags.setWidth 64 ||| x)).fpflags.setWidth 64)) 4) ∧
    Completes (.csrc d .fpmode a) s
      (behind ((mode (p.fpmode.setWidth 64 &&& ~~~x)).setX d ((mode (p.fpmode.setWidth 64 &&& ~~~x)).fpmode.setWidth 64)) 4) ∧
    Completes (.csrc d .fpflags a) s
      (behind ((flags (p.fpflags.setWidth 64 &&& ~~~x)).setX d ((flags (p.fpflags.setWidth 64 &&& ~~~x)).fpflags.setWidth 64))
        4) ∧
    (∀ c, c ≠ .fpmode → c ≠ .fpflags → ∀ i, i = Instr.csrw c a ∨ i = Instr.csrs d c a ∨ i = Instr.csrc d c a →
      ∃ d0 d1, exec i s = .next ({ s with free := s.free + 2 }.raise p .privilege (some 4) 0 d0 d1))

/-- In the own memory, through the private alias, aligned, inside a window that grants the permission, with nothing of
the core under way and no watch or error there: `ldf` completes on a full word, `waitw` on one that differs from x[B],
`waitc` on one that is not below x[B] unsigned, and each gives x[D] the word and changes nothing else; `lde` also
empties the bit of that word and of no other; `ste` on an empty word, with nothing queued there and no access of the
process before it, writes x[B] to the word and sets it full, and every other byte, bit and register is as it was. -/
def Obligations.FullEmptyComplete : Prop :=
  ∀ (s : State) (p : Proc) (d a b : XIdx), Issues s p → Quiet s p.core → s.watches = [] →
    let ea := p.getX a
    let h := homeAt p ea
    let v := s.word h
    (OwnAccess s p ea 8 .rd → Sound s h 8 →
      (s.isFull h = true → Completes (.ldf d a) s (behind (p.setX d v) 4)) ∧
      (v ≠ p.getX b → Completes (.waitw d a b) s (behind (p.setX d v) 4)) ∧
      ((p.getX b).toNat ≤ v.toNat → Completes (.waitc d a b) s (behind (p.setX d v) 4))) ∧
    (OwnAccess s p ea 8 .rw → Sound s h 8 → s.isFull h = true →
      ∃ e, exec (.lde d a) s = .next { s with cpu := some (behind (p.setX d v) 4), empty := e } ∧
        ∀ w, w ∈ e ↔ w = h ∨ w ∈ s.empty) ∧
    (OwnAccess s p ea 8 .rw → Sound s h 8 → s.isFull h = false → s.queued h = false → s.triggers = [] →
      (∀ q ∈ s.packets, q.pid ≠ p.pid) → s.mem.wf = true →
      ∃ m e, exec (.ste b a) s = .next { s with cpu := some (behind p 4), mem := m, empty := e } ∧
        m.read h 8 = (p.getX b).toNat ∧ (∀ x, x < h ∨ h + 8 ≤ x → m.get x = s.mem.get x) ∧
        ∀ w, w ∈ e ↔ w ≠ h ∧ w ∈ s.empty)

/-- Under the same conditions, when the test fails, the process leaves RUNNING for BLOCKED with reason SYNC at its pc,
with every register as it was, one watch with its test stands at the word's home, and nothing else changes. -/
def Obligations.FullEmptyWaits : Prop :=
  ∀ (s : State) (p : Proc) (d a b : XIdx), Issues s p → Quiet s p.core → s.watches = [] →
    let ea := p.getX a
    let h := homeAt p ea
    let v := s.word h
    let waits (i : Instr) (op : SyncOp) (d : XIdx) : Prop :=
      exec i s = .next { s with cpu := none, procs := s.procs ++ [blockedAs s p .sync (.sync h op d)],
                                watches := [{ addr := h, pid := p.pid, op := op, used := ea }] }
    (OwnAccess s p ea 8 .rd → Sound s h 8 →
      (s.isFull h = false → waits (.ldf d a) .ldf d) ∧
      (v = p.getX b → waits (.waitw d a b) (.waitw (p.getX b)) d) ∧
      (v.toNat < (p.getX b).toNat → waits (.waitc d a b) (.waitc (p.getX b)) d)) ∧
    (OwnAccess s p ea 8 .rw → Sound s h 8 →
      (s.isFull h = false → waits (.lde d a) .lde d) ∧
      (s.isFull h = true → s.queued h = false → (∀ q ∈ s.packets, q.pid ≠ p.pid) →
        waits (.ste b a) (.ste (p.getX b)) 0))

/-- A store of a doubleword lands where one process waits: for `ldf`, when the store sets the word full, and for
`waitw`, when it makes it differ, the watch is gone and the process is READY, its register to take the value stored
when it next runs; memory holds that value. -/
def Obligations.WatchServed : Prop :=
  ∀ (s : State) (p : Proc) (h : Nat) (op : SyncOp) (d : XIdx) (v used : Word) (full : Bool), Alone s p →
    p.st = .blocked .sync → p.wait = .sync h op d → s.watches = [{ addr := h, pid := p.pid, op := op, used := used }] →
    s.rsvs = [] → s.triggers = [] → h % 8 = 0 → homeDie h = dieOf p.core → s.mem.wf = true →
    (op = .ldf ∧ full = true ∨ ∃ b, op = .waitw b ∧ b ≠ v) →
    let t := s.applyWrite { addr := h, n := 8, val := v.toNat, fe := if full then some true else none }
    t.watches = [] ∧ t.word h = v ∧ ∃ q, t.procs = [q] ∧ Woken p (some (.regs [(d, v)])) q

/-- For a byte count that is a multiple of 8 and at most 65,536, an aligned address and every word of the range inside
a window that grants write, both complete: x[B] = 0 changes nothing; else one change of the bits of exactly that range
sets out for the own memory, and no register, byte or bit changes until it lands. Counts that are no multiple of 8 and
misaligned addresses raise MISALIGN; greater counts raise WINDOW. When the change lands at a home that is there, with
no requests queued and no watches, every word of its range is full or empty as it says; every other word's bit and
every byte of memory is as it was. -/
def Obligations.FillAndClear : Prop :=
  (∀ (s : State) (p : Proc) (a b : XIdx) (full : Bool), Issues s p → Quiet s p.core →
    let i : Instr := if full then .fefill a b else .feclr a b
    let ea := p.getX a
    let n := (p.getX b).toNat
    (ea.toNat % 8 ≠ 0 ∨ n % 8 ≠ 0 → exec i s = .next (s.raise p .misalign (some 4) ea 8 1)) ∧
    (ea.toNat % 8 = 0 → n % 8 = 0 → 65536 < n → exec i s = .next (s.raise p .window (some 4) ea (p.getX b) 1)) ∧
    (ea.toNat % 8 = 0 → n = 0 → Completes i s (behind p 4)) ∧
    (ea.toNat % 8 = 0 → n % 8 = 0 → 0 < n → n ≤ 65536 →
      (∀ k, k < n / 8 → OwnAccess s p (ea + BitVec.ofNat 64 (8 * k)) 8 .wr) →
      ∃ q : Packet, exec i s = .next { s with cpu := some (behind p 4), nextId := s.nextId + 1,
                                              packets := s.packets ++ [q] } ∧
        q.core = p.core ∧ q.pid = p.pid ∧ q.path = .own ∧ q.kind = .ord ∧ q.used = ea.toNat ∧ q.n = n ∧
        q.payload = .feRange (homeAt p ea) n full)) ∧
  (∀ (s : State) (q : Packet) (a n : Nat) (full : Bool), s.packet? q.id = some q → q.payload = .feRange a n full →
    q.queued = false → q.path = .own → q.kind = .ord → s.mayLand q = true → a % 8 = 0 → n % 8 = 0 →
      (∀ x, s.homeGone x = false) →
    s.rsvs = [] → s.watches = [] →
    ∃ t, exec .writeLands { s with subj := .id q.id } = .next t ∧ t.mem = s.mem ∧ t.cpu = s.cpu ∧ t.procs = s.procs ∧
      t.packets = s.packets.filter (·.id != q.id) ∧
      ∀ w, w % 8 = 0 → t.isFull w = if a ≤ w ∧ w < a + n then full else s.isFull w)

/-- `fence` of any scope and `drain.nt` complete at once when no access of the process is under way, and nothing
changes but the pc; `cfence.i` gives x[D] the core number times 2^51 plus the remote writes counted so far modulo
2^51; `cfence.w` completes at once for a token of another core and for one whose writes have all been delivered. Else
the process waits RUNNING. FENCE_COMPLETE, DRAIN_NT_COMPLETE and CFENCE_W_COMPLETE, for the running process that waits
in that instruction, with no access of the process and no early load of its core under way: it goes on behind the
instruction, and nothing else changes. -/
def Obligations.FencesComplete : Prop :=
  (∀ (s : State) (p : Proc) (sc : Scope) (d a : XIdx), s.cpu = some p →
    let tok := (p.getX a).toNat
    let upTo := min (tok % 2 ^ 51) ((s.core p.core).remote % 2 ^ 51)
    ((∀ q ∈ s.packets, q.pid ≠ p.pid) → (s.core p.core).early = [] →
      Completes (.fence sc) s (behind p 4) ∧ Completes .drainNt s (behind p 4)) ∧
    Completes (.cfenceI d) s
      (behind (p.setX d (BitVec.ofNat 64 (p.core * 2 ^ 51 + (s.core p.core).remote % 2 ^ 51))) 4) ∧
    (tok / 2 ^ 51 ≠ p.core → Completes (.cfenceW a) s (behind p 4)) ∧
    ((∀ q ∈ s.packets, q.core = p.core → q.path ≠ .own → upTo ≤ q.seq) →
      (∀ x ∈ s.watches, ∀ n, x.rem = some (p.core, n) → upTo ≤ n) →
      (∀ x ∈ s.rsvs, ∀ n, x.rem = some (p.core, n) → upTo ≤ n) → Completes (.cfenceW a) s (behind p 4)) ∧
    (∀ q ∈ s.packets, q.pid = p.pid → q.kind = .ord → q.path = .own →
      Completes (.fence sc) s { p with wait := .fence sc }) ∧
    (∀ q ∈ s.packets, q.pid = p.pid → q.kind = .nt → Completes .drainNt s { p with wait := .drain }) ∧
    (∀ q ∈ s.packets, ∀ w, q.core = p.core → q.path = .mesh → q.payload = .write w → q.seq < upTo →
      tok / 2 ^ 51 = p.core → Completes (.cfenceW a) s { p with wait := .cfence upTo })) ∧
  (∀ (s : State) (p : Proc) (w : Wait), s.cpu = some { p with wait := w } → p.st = .running → s.subj = .id p.pid →
    Quiet s p.core → (∀ q ∈ s.packets, q.pid ≠ p.pid) →
    (∀ sc, w = .fence sc → Completes .fenceComplete s (behind p 4)) ∧
    (w = .drain → Completes .drainNtComplete s (behind p 4)) ∧
    (∀ n, w = .cfence n → (∀ x ∈ s.watches, x.rem = none) → (∀ x ∈ s.rsvs, x.rem = none) →
      Completes .cfenceWComplete s (behind p 4)))

/-- In the own memory, with nothing of the core or the process under way and no request at that home: `rsv` is granted
at once, gives x[D] the word, and the process holds the reservation; a `rls` of the holder writes x[B] to the word and
the reservation is gone; a `rls` of a word not reserved is a plain write. No other byte or register changes. -/
def Obligations.Reservations : Prop :=
  ∀ (s : State) (p : Proc) (d a b : XIdx), Issues s p → Quiet s p.core → (∀ q ∈ s.packets, q.pid ≠ p.pid) →
    s.watches = [] → s.triggers = [] → s.mem.wf = true →
    let ea := p.getX a
    let h := homeAt p ea
    let r : RsvReq := { addr := h, pid := p.pid, k := .rsv, granted := true, entry := true }
    OwnAccess s p ea 8 .rw → Sound s h 8 → s.homeGone h = false →
    ((∀ q ∈ s.rsvs, homeOf q.addr ≠ homeOf h) →
      exec (.rsv d a) s = .next { s with cpu := some (behind ({ p with rsvs := p.rsvs ++ [h] }.setX d (s.word h)) 4),
                                         rsvs := s.rsvs ++ [r] }) ∧
    (s.rsvs = [r] ∨ s.rsvs = [] →
      ∃ t, exec (.rls a b) s = .next t ∧ t.rsvs = [] ∧ t.word h = p.getX b ∧
        (∀ x, x < h ∨ h + 8 ≤ x → t.mem.get x = s.mem.get x) ∧ t.procs = s.procs ∧
        ∃ q, t.cpu = some q ∧ q = { behind p 4 with rsvs := q.rsvs } ∧ (s.rsvs = [r] → h ∉ q.rsvs))

/-- In the own memory, with nothing of the core or the process under way and no request at that home, every `amo.*`,
in both orderings, completes in one step: the word takes the result of its operation on the old word, x[B] and, for
`amo.cas`, the old x[D] as the value compared; x[D] takes the old word; no other byte, bit or register changes. That
x[D] is written in the same step, without the process leaving RUNNING, is the model's choice (log 25). -/
def Obligations.Atomics : Prop :=
  ∀ (s : State) (p : Proc) (rlx : Bool) (d a b : XIdx), Issues s p → Quiet s p.core →
    (∀ q ∈ s.packets, q.pid ≠ p.pid) → s.watches = [] → s.triggers = [] → s.mem.wf = true →
    let ea := p.getX a
    let h := homeAt p ea
    let old := s.word h
    let x := p.getX b
    OwnAccess s p ea 8 .rw → Sound s h 8 → (∀ q ∈ s.rsvs, homeOf q.addr ≠ homeOf h) →
    let amo (i : Instr) (new : Word) : Prop := ∃ m,
      exec i s = .next { s with cpu := some (behind (p.setX d old) 4), mem := m } ∧
      m.read h 8 = new.toNat ∧ ∀ k, k < h ∨ h + 8 ≤ k → m.get k = s.mem.get k
    amo (.amoAdd rlx d a b) (BitVec.ofNat 64 (old.toNat + x.toNat)) ∧
    amo (.amoAnd rlx d a b) (old &&& x) ∧
    amo (.amoOr rlx d a b) (old ||| x) ∧
    amo (.amoXor rlx d a b) (old ^^^ x) ∧
    amo (.amoMin rlx d a b) (if x.toInt < old.toInt then x else old) ∧
    amo (.amoMax rlx d a b) (if old.toInt < x.toInt then x else old) ∧
    amo (.amoMinu rlx d a b) (if x.toNat < old.toNat then x else old) ∧
    amo (.amoMaxu rlx d a b) (if old.toNat < x.toNat then x else old) ∧
    amo (.amoSwap rlx d a b) x ∧
    amo (.amoCas rlx d a b) (if old = p.getX d then x else old)

/-- AMO_RELEASE, for the one process that waits with its `amo.*` granted at the head of the queue: the word takes the
result and the process is READY, its register to take the old word. REMOTE_LOAD_RETURN: the data that reach a running
process that waits in a load give x[D] their value, extended as the load says, and the pc moves on by the load's
length. -/
def Obligations.Releases : Prop :=
  (∀ (s : State) (p : Proc) (h : Nat) (op : AmoOp) (b c : Word) (d : XIdx), Alone s p → p.st = .blocked .sync →
    p.wait = .amo h d → Sound s h 8 → s.rsvs = [{ addr := h, pid := p.pid, k := .amo op b c, granted := true }] →
      s.watches = [] →
    s.triggers = [] → homeDie h = dieOf p.core → s.mem.wf = true → s.subj = .id p.pid →
    ∃ t q, exec .amoRelease s = .next t ∧ t.rsvs = [] ∧ t.procs = [q] ∧ Woken p (some (.regs [(d, s.word h)])) q ∧
      t.word h = op.apply (s.word h) b c ∧ ∀ x, x < h ∨ h + 8 ≤ x → t.mem.get x = s.mem.get x) ∧
  (∀ (s : State) (p : Proc) (k : Packet) (d : XIdx) (n a len v : Nat) (sg acq : Bool), s.cpu = some p →
    p.st = .running → p.wait = .load d n sg a len acq → (s.core p.core).early = [] → s.packet? k.id = some k →
    k.queued = false → k.path = .mesh → k.kind = .reply → k.payload = .loadRet v false (.slot p.pid 0) →
      v < 2 ^ (8 * n) → n ≤ 8 → 0 < n →
    exec .remoteLoadReturn { s with subj := .id k.id } =
      .next { s with subj := .id k.id, packets := s.packets.filter (·.id != k.id),
                     cpu := some (behind (p.setX d (if sg = true ∧ 2 ^ (8 * n - 1) ≤ v then
                       BitVec.ofInt 64 (v - (2 : Int) ^ (8 * n)) else BitVec.ofNat 64 v)) len) })

/-- `vadd`, `vsub`, `vmul`, `vfma`, `vfms`, `vfnma`, `vmax`, `vmin`, `vabs` and `vneg`, for every lane type, rounding
code and mask, on registers that the class has and that are no bound streams: each active lane of v[D] takes the
result of Table 9.4, rounded once in the mode of the instruction, inactive lanes keep their values, `%fpflags` gains
the flags of the active lanes, and nothing else changes; where an enabled flag arises, ARITH is raised instead and no
register changes. -/
def Obligations.VectorFloat : Prop :=
  ∀ (s : State) (p : Proc) (t : FpT) (rc : Rc) (m : PIdx) (d a b : VIdx), s.cpu = some p → Plain p [d, a, b] →
    let f := fmtOf t
    let w := f.bits
    let r := p.mode rc
    let x (l : Nat) := f.decode (lane (p.getV a) w l)
    let y (l : Nat) := f.decode (lane (p.getV b) w l)
    let z (l : Nat) := f.decode (lane (p.getV d) w l)
    let op (i : Instr) (g : Nat → Rounded) : Prop := LaneOp i s p m d w g
    op (.vadd t rc m d a b) (fun l => f.add r (x l) (y l)) ∧
    op (.vsub t rc m d a b) (fun l => f.add r (x l) (y l).neg) ∧
    op (.vmul t rc m d a b) (fun l => f.mul r (x l) (y l)) ∧
    op (.vfma t rc m d a b) (fun l => f.fma r (x l) (y l) (z l)) ∧
    op (.vfms t rc m d a b) (fun l => f.fma r (x l) (y l) (z l).neg) ∧
    op (.vfnma t rc m d a b) (fun l => f.fma r (x l).neg (y l) (z l)) ∧
    op (.vmax t m d a b) (fun l => f.pick true (lane (p.getV a) w l) (lane (p.getV b) w l)) ∧
    op (.vmin t m d a b) (fun l => f.pick false (lane (p.getV a) w l) (lane (p.getV b) w l)) ∧
    op (.vabs t m d a) (fun l => match x l with
      | .nan q => (f.nan, if q then 0 else 1)
      | _ => (lane (p.getV a) w l % 2 ^ (w - 1), 0)) ∧
    op (.vneg t m d a) (fun l => match x l with
      | .nan q => (f.nan, if q then 0 else 1)
      | _ => ((lane (p.getV a) w l + 2 ^ (w - 1)) % 2 ^ w, 0))

/-- In every format and mode a number that the format represents rounds to its own code without flags. Any other value
is rounded as R134 says: with 2^q the weight of its last kept bit, the nearest multiple of 2^q, the even one of two,
in RNE; in RTZ, and in RUP and RDN toward zero, the multiple at or below the magnitude; in RUP and RDN away from zero
the one at or above it; so each is less than one unit away. NX is set exactly where that is not the value, UF where it
is also a subnormal; a result above MAXF gives OF and NX with infinity or MAXF as the mode says. NaN operands give the
default NaN, with NV for a signalling one; infinity minus infinity and zero times infinity give the default NaN with
NV; maximum and minimum prefer the number to the NaN. That zero times infinity sets NV beside a quiet NaN addend is
the model's reading (log 41). -/
def Obligations.FloatRules : Prop :=
  (∀ (f : Fmt) (m : Rm) (c : Nat), f ∈ [fp32, fp16, bf16, e5m2, e4m3, e2m1, e3m2] → c < 2 ^ f.bits →
    match f.decode c with
    | .fin sg k e => f.round m sg k 1 e = (c, 0) ∧ f.convert m (.fin sg k e) = (c, 0)
    | .inf _ => f.convert m (f.decode c) = (c, 0)
    | .nan q => f.convert m (f.decode c) = (f.nan, if q then 0 else fNV)) ∧
  (∀ (f : Fmt) (m : Rm) (sg : Bool) (num den k km : Nat) (ex q em : Int),
    f ∈ [fp32, fp16, bf16, e5m2, e4m3, e2m1, e3m2] → 0 < num → 0 < den →
    let v : ℚ := (num : ℚ) / den * 2 ^ ex
    let unit : ℚ := 2 ^ q
    let y : ℚ := k * unit
    let least : Int := 1 - (f.bias : Int) - f.mw
    let away : Bool := (m == .rup && !sg) || (m == .rdn && sg)
    v < 2 ^ (q + f.mw + 1) → (q = least ∨ least < q ∧ 2 ^ (q + f.mw) ≤ v) →
    (if m = .rne then |v - y| ≤ unit / 2 ∧ (|v - y| = unit / 2 → k % 2 = 0)
     else if away = true then v ≤ y ∧ y < v + unit else y ≤ v ∧ v < y + unit) →
    f.decode f.maxCode = .fin false km em →
    if (km : ℚ) * 2 ^ em < y then
      f.round m sg num den ex =
        (if f.sp = .ieee ∧ (m = .rne ∨ away = true) then f.inf sg else f.signed sg f.maxCode, fOF ||| fNX)
    else
      ∃ k' e', f.decode (f.round m sg num den ex).1 = .fin sg k' e' ∧ (k' : ℚ) * 2 ^ e' = y ∧
        (f.round m sg num den ex).2 = if y = v then 0 else if 0 < y ∧
          y < 2 ^ (1 - (f.bias : Int)) then fNX ||| fUF else fNX) ∧
  (∀ (f : Fmt) (m : Rm) (q q' sg : Bool) (e : Int) (x : Fp),
    f.add m (.nan q) x = (f.nan, fIf (!q || x.isSig) fNV) ∧ f.add m (.inf sg) (.inf (!sg)) = (f.nan, fNV) ∧
    f.mul m (.nan q) x = (f.nan, fIf (!q || x.isSig) fNV) ∧ f.mul m (.inf sg) (.fin q 0 e) = (f.nan, fNV) ∧
    f.fma m (.inf sg) (.fin q 0 e) x = (f.nan, fNV) ∧
    f.fma m (.nan q) (.nan q') x = (f.nan, fIf (!q || !q' || x.isSig) fNV)) ∧
  (∀ (f : Fmt) (up q : Bool) (a b : Nat), f.decode a = .nan q → (f.decode b).isNan = false →
    f.pick up a b = (b, if q then 0 else fNV) ∧ f.pick up b a = (b, if q then 0 else fNV))

/-- Each lane-by-lane instruction of Tables 9.5 and 9.6, for every lane width and mask, on registers that the class
has and that are no bound streams, completes: active lanes of v[D] take the result, computed on unbounded integers
from the signed or unsigned values of the lanes and reduced modulo 2^w or saturated, inactive lanes keep their values,
no flag is raised, and nothing else changes. -/
def Obligations.VectorInteger : Prop :=
  ∀ (s : State) (p : Proc) (e : ElW) (m : PIdx) (d a b : VIdx) (n : BitVec 5), s.cpu = some p → Plain p [d, a, b] →
    n.toNat ≠ 0 →
    let w := bitsOf e
    let sg (w v : Nat) : Int := if v < 2 ^ (w - 1) then v else (v : Int) - 2 ^ w
    let clamp (w : Nat) (v : Int) : Int := max (-(2 ^ (w - 1))) (min v (2 ^ (w - 1) - 1))
    let op (i : Instr) (w : Nat) (g : Nat → Nat → Nat → Int) : Prop := WritesVec i s p d w
      (merged p m d w fun l => (g (lane (p.getV a) w l) (lane (p.getV b) w l) (lane (p.getV d) w l) % 2 ^ w).toNat) 0
    op (.viadd e m d a b) w (fun x y _ => x + y) ∧
    op (.visub e m d a b) w (fun x y _ => (x : Int) - y) ∧
    op (.vimul e m d a b) w (fun x y _ => x * y) ∧
    op (.vimulhI e m d a b) w (fun x y _ => sg w x * sg w y / 2 ^ w) ∧
    op (.vimulhU e m d a b) w (fun x y _ => x * y / 2 ^ w) ∧
    op (.vimac e m d a b) w (fun x y z => z + x * y) ∧
    op (.vand m d a b) 32 (fun x y _ => (x &&& y : Nat)) ∧
    op (.vor m d a b) 32 (fun x y _ => (x ||| y : Nat)) ∧
    op (.vxor m d a b) 32 (fun x y _ => (x ^^^ y : Nat)) ∧
    op (.vshl e m d a b) w (fun x y _ => if y < w then x * 2 ^ y else 0) ∧
    op (.vshr e m d a b) w (fun x y _ => if y < w then x / 2 ^ y else 0) ∧
    op (.vsar e m d a b) w (fun x y _ => sg w x / 2 ^ min y (w - 1)) ∧
    op (.viminI e m d a b) w (fun x y _ => min (sg w x) (sg w y)) ∧
    op (.viminU e m d a b) w (fun x y _ => min x y) ∧
    op (.vimaxI e m d a b) w (fun x y _ => max (sg w x) (sg w y)) ∧
    op (.vimaxU e m d a b) w (fun x y _ => max x y) ∧
    op (.viabs e m d a) w (fun x _ _ => if x < 2 ^ (w - 1) then x else 2 ^ w - x) ∧
    op (.vsaddI e m d a b) w (fun x y _ => clamp w (sg w x + sg w y)) ∧
    op (.vsaddU e m d a b) w (fun x y _ => min (x + y) (2 ^ w - 1)) ∧
    op (.vssubI e m d a b) w (fun x y _ => clamp w (sg w x - sg w y)) ∧
    op (.vssubU e m d a b) w (fun x y _ => max 0 ((x : Int) - y)) ∧
    op (.vqmul m d a b) 16 (fun x y _ => clamp 16 ((sg 16 x * sg 16 y + 2 ^ 14) / 2 ^ 15)) ∧
    op (.vqsatI16 m d a n) 16 (fun x _ _ => clamp n.toNat (sg 16 x)) ∧
    op (.vqsatI32 m d a n) 32 (fun x _ _ => clamp n.toNat (sg 32 x)) ∧
    (let h (r : VIdx) (l : Nat) : Int := sg 16 (lane (p.getV r) 16 l)
     WritesVec (.vqmac m d a b) s p d 32 (merged p m d 32 fun l =>
       (clamp 32 (sg 32 (lane (p.getV d) 32 l) + h a (2 * l) * h b (2 * l) + h a (2 * l + 1) * h b (2 * l + 1)) %
         2 ^ 32).toNat) 0) ∧
    (let half (i : Instr) (base : Nat) : Prop := WritesVec i s p d 16 (fun l =>
       if base ≤ l ∧ l < base + 64 ∧ active (p.getP m) (l - base) 64 = true then
         (clamp 16 ((sg 32 (lane (p.getV a) 32 (l - base)) + 2 ^ (n.toNat - 1)) / 2 ^ n.toNat) % 2 ^ 16).toNat
       else lane (p.getV d) 16 l) 0
     half (.vqrndLo m d a n) 0 ∧ half (.vqrndHi m d a n) 64)

/-- `vcmp` and `vicmp` write to p[D] a bit for each granule of 32 bits: 1 where the mask's bit is 1 and the condition
holds in every lane of the granule, else 0; `vcmp` gains the flags of the active lanes, or raises ARITH. `vsel` takes
each 32-bit lane from v[A] where the mask's bit is 1, else from v[B]. `pset`, `pand`, `por` and `pnot` write their
word to p[D], where p0 discards it; `pcnt` counts the ones and `pfirst` gives the number of the lowest, 64 when there
is none. Nothing else changes. -/
def Obligations.ComparesAndMasks : Prop :=
  ∀ (s : State) (p : Proc) (t : FpT) (cf : CmpF) (ci : CmpI) (e : ElW) (m d g h : PIdx) (x : XIdx) (r a b : VIdx),
    s.cpu = some p → Plain p [r, a, b] →
    let bits (i : Instr) (w : Nat) (fl : Flags) (c : Nat → Bool) : Prop := ∃ v,
      Completes i s (behind ({ p with fpflags := p.fpflags ||| fl }.setP d v) 4) ∧ ∀ j, j < 64 → v.getLsbD j =
        ((p.getP m).getLsbD j && (List.range (32 / w)).all fun k => c (32 / w * j + k))
    (let f := fmtOf t
     let c (l : Nat) := cmpF cf (f.decode (lane (p.getV a) f.bits l)) (f.decode (lane (p.getV b) f.bits l))
     let fl := elementFlags (p.getP m) (2048 / f.bits) fun l => (c l).2
     if fl &&& p.enables = 0 then bits (.vcmp t cf m d a b) f.bits fl (fun l => (c l).1)
     else RaisesArith (.vcmp t cf m d a b) s p fl) ∧
    (let w := bitsOf e
     let u (v : VIdx) (l : Nat) : Nat := lane (p.getV v) w l
     let sg (v : VIdx) (l : Nat) : Int := if u v l < 2 ^ (w - 1) then u v l else (u v l : Int) - 2 ^ w
     bits (.vicmp ci e m d a b) w 0 fun l => match ci with
       | .eq => u a l == u b l
       | .ne => u a l != u b l
       | .lt => decide (sg a l < sg b l)
       | .le => decide (sg a l ≤ sg b l)
       | .ltu => decide (u a l < u b l)
       | .leu => decide (u a l ≤ u b l)) ∧
    WritesVec (.vsel m r a b) s p r 32 (fun l => lane (p.getV (if (p.getP m).getLsbD l = true then a else b)) 32 l) 0 ∧
    Completes (.pset d x) s (behind (p.setP d (p.getX x)) 4) ∧
    Completes (.pand d g h) s (behind (p.setP d (p.getP g &&& p.getP h)) 4) ∧
    Completes (.por d g h) s (behind (p.setP d (p.getP g ||| p.getP h)) 4) ∧
    Completes (.pnot d g) s (behind (p.setP d (~~~p.getP g)) 4) ∧
    Completes (.pcnt x g) s
      (behind (p.setX x (BitVec.ofNat 64 ((List.range 64).countP fun j => (p.getP g).getLsbD j))) 4) ∧
    ∃ n, Completes (.pfirst x g) s (behind (p.setX x (BitVec.ofNat 64 n)) 4) ∧ n ≤ 64 ∧
      (n < 64 → (p.getP g).getLsbD n = true) ∧ ∀ j, j < n → (p.getP g).getLsbD j = false

/-- `vcvt` between any two types of Table 9.8, `vcvt.sr`, `vpack` and `vunpk`: with E elements, the number of lanes of
the wider type, PART chooses the part of the narrower register that is read or written; each active element is
converted in the instruction's mode, lanes outside the part and of inactive elements keep their values, `%fpflags`
gains the elements' flags, unless one of them is enabled and ARITH is raised. Packing saturates signed source lanes;
unpacking extends them. -/
def Obligations.VectorConversions : Prop :=
  ∀ (s : State) (p : Proc) (dst src : CvtT) (rc : Rc) (sr : SrT) (pk : PackT) (part : BitVec 2) (m : PIdx)
    (d a b : VIdx), s.cpu = some p → Plain p [d, a, b] →
    (∀ ci, ci = Instr.vcvt dst src rc part m d a → ci.wf = true →
      let wd := cvtWidth dst
      let ws := cvtWidth src
      let n := 2048 / max wd ws
      let r (k : Nat) : Rounded :=
        convertLane dst src (p.mode rc) (lane (p.getV a) ws (if ws < wd then part.toNat * n + k else k))
      let off := if wd < ws then part.toNat * n else 0
      let fl := elementFlags (p.getP m) n fun k => (r k).2
      if fl &&& p.enables = 0 then WritesVec ci s p d wd (fun l =>
        if off ≤ l ∧ l < off + n ∧ active (p.getP m) (l - off) n = true then (r (l - off)).1 else lane (p.getV d) wd l) fl
      else RaisesArith ci s p fl) ∧
    (∀ ci, ci = Instr.vcvtSr sr part m d a b → ci.wf = true →
      let f := srFmt sr
      let r (k : Nat) : Rounded := f.convertSr (lane (p.getV b) 32 k) (fp32.decode (lane (p.getV a) 32 k))
      let off := part.toNat * 64
      let fl := elementFlags (p.getP m) 64 fun k => (r k).2
      if fl &&& p.enables = 0 then WritesVec ci s p d f.bits (fun l =>
        if off ≤ l ∧ l < off + 64 ∧ active (p.getP m) (l - off) 64 = true then (r (l - off)).1
        else lane (p.getV d) f.bits l) fl
      else RaisesArith ci s p fl) ∧
    (let w := (packOf pk).1
     let n := 2048 / w
     let sg (w v : Nat) : Int := if v < 2 ^ (w - 1) then v else (v : Int) - 2 ^ w
     WritesVec (.vpack pk m d a b) s p d w (merged p m d w fun l =>
       let v := sg (2 * w) (lane (p.getV (if l < n / 2 then a else b)) (2 * w) (l % (n / 2)))
       ((if (packOf pk).2 = true then max (-(2 ^ (w - 1))) (min v (2 ^ (w - 1) - 1)) else max 0 (min v (2 ^ w - 1))) %
         2 ^ w).toNat) 0 ∧
     (part.toNat < 2 → WritesVec (.vunpk pk part m d a) s p d (2 * w) (merged p m d (2 * w) fun l =>
       let v := lane (p.getV a) w (part.toNat * (n / 2) + l)
       if (packOf pk).2 = true then (sg w v % 2 ^ (2 * w)).toNat else v) 0))

/-- `vmov`, `vzero`, `vbcast`, `vidx` and `vrand` give every active lane its value and leave the others; `vins` writes
one lane, chosen by x[B] modulo the number of lanes, and `vextr` gives x[D] one, zero-extended; nothing else changes.
-/
def Obligations.VectorMoves : Prop :=
  ∀ (s : State) (p : Proc) (e : ElW) (m : PIdx) (d a : VIdx) (x y : XIdx), s.cpu = some p → Plain p [d, a] →
    let w := bitsOf e
    let n := 2048 / w
    let h0 (l : Nat) : BitVec 32 := (p.getX x).setWidth 32 + ((p.getX y).setWidth 32 + BitVec.ofNat 32 l)
    let h1 (l : Nat) := (h0 l ^^^ (h0 l >>> 16)) * 0x2B9C4E15
    let h2 (l : Nat) := (h1 l ^^^ (h1 l >>> 15)) * 0x6D1F3A87
    WritesVec (.vmov m d a) s p d 32 (merged p m d 32 fun l => lane (p.getV a) 32 l) 0 ∧
    WritesVec (.vzero m d) s p d 32 (merged p m d 32 fun _ => 0) 0 ∧
    WritesVec (.vbcast e m d x) s p d w (merged p m d w fun _ => (p.getX x).toNat) 0 ∧
    WritesVec (.vidx e m d x) s p d w (merged p m d w fun l => (p.getX x).toNat + l) 0 ∧
    WritesVec (.vrand m d x y) s p d 32 (merged p m d 32 fun l => (h2 l ^^^ (h2 l >>> 16)).toNat) 0 ∧
    WritesVec (.vins e d x y) s p d w
      (fun l => if l = (p.getX y).toNat % n then (p.getX x).toNat else lane (p.getV d) w l) 0 ∧
    Completes (.vextr e x a y) s
      (behind (p.setX x (BitVec.ofNat 64 (lane (p.getV a) w ((p.getX y).toNat % n)))) 4)

/-- The eight functions of Table 7.7 and `vsqrt`, for every lane type and mask: active lanes take the value of the
function (16-bit lanes widened to FP32 and rounded back in RNE), `%fpflags` gains their flags or ARITH is raised,
nothing else changes. NaN arguments give the default NaN; the reciprocal and the reciprocal root of a zero give an
infinity of its sign with DZ, the logarithm of a zero minus infinity with DZ; roots and logarithms of negative numbers
the default NaN with NV. Where the table leaves a bound, the value is the stepping's, a free value within it (log 8),
and this statement says nothing of it. -/
def Obligations.SpecialFunctions : Prop :=
  (∀ (s : State) (p : Proc) (t : FpT) (rc : Rc) (m : PIdx) (d a : VIdx), s.cpu = some p → Plain p [d, a] →
    let f := fmtOf t
    let op (i : Instr) (g : Nat → Rounded) : Prop := LaneOp i s p m d f.bits fun l =>
      let x := lane (p.getV a) f.bits l
      if t = .f32 then g x
      else
        let wide := fp32.convert .rne (f.decode x)
        let y := g wide.1
        let z := f.convert .rne (fp32.decode y.1)
        (z.1, wide.2 ||| y.2 ||| z.2)
    op (.vrecip t m d a) (SpFn.recip.apply s.pkg.step) ∧ op (.vrsqrt t m d a) (SpFn.rsqrt.apply s.pkg.step) ∧
    op (.vexp2 t m d a) (SpFn.exp2.apply s.pkg.step) ∧ op (.vlog2 t m d a) (SpFn.log2.apply s.pkg.step) ∧
    op (.vsin t m d a) (SpFn.sin.apply s.pkg.step) ∧ op (.vcos t m d a) (SpFn.cos.apply s.pkg.step) ∧
    op (.vtanh t m d a) (SpFn.tanh.apply s.pkg.step) ∧ op (.vsigm t m d a) (SpFn.sigm.apply s.pkg.step) ∧
    op (.vsqrt t rc m d a) (fp32.sqrt (p.mode rc))) ∧
  (∀ (g : SpFn) (step : BitVec 4) (c : Nat) (q : Bool), fp32.decode c = .nan q →
    g.apply step c = (fp32.nan, if q then 0 else fNV)) ∧
  (∀ (step : BitVec 4) (sg : Bool) (e : Int) (c k : Nat),
    (fp32.decode c = .fin sg 0 e → SpFn.recip.apply step c = (fp32.inf sg, fDZ) ∧
      SpFn.rsqrt.apply step c = (fp32.inf sg, fDZ) ∧ SpFn.log2.apply step c = (fp32.inf true, fDZ)) ∧
    (fp32.decode c = .fin true (k + 1) e → SpFn.rsqrt.apply step c = (fp32.nan, fNV) ∧
      SpFn.log2.apply step c = (fp32.nan, fNV) ∧ ∀ rm, fp32.sqrt rm c = (fp32.nan, fNV)))

/-- The integer reductions complete: lane 0 of v[D] takes the sum modulo 2^w, or the greatest or smallest value,
signed or unsigned, of the active lanes of v[A] and lane 0 of v[D]; the other lanes stay. The floating-point forms
combine in the tree of R147, with the identity for inactive lanes, and lane 0 of v[D] last, in the mode of `%fpmode`.
The integer scan gives each active lane the sum of the active lanes up to it. Nothing else changes but the flags, or
ARITH is raised. -/
def Obligations.Reductions : Prop :=
  ∀ (s : State) (p : Proc) (t : FpT) (e : ElW) (m : PIdx) (d a : VIdx), s.cpu = some p → Plain p [d, a] →
    let ls (w : Nat) : List Nat :=
      ((List.range (2048 / w)).filter fun l => active (p.getP m) l (2048 / w)).map fun l => lane (p.getV a) w l
    let w := bitsOf e
    let all := lane (p.getV d) w 0 :: ls w
    let sg (v : Nat) : Int := if v < 2 ^ (w - 1) then v else (v : Int) - 2 ^ w
    let first (i : Instr) (w r : Nat) (fl : Flags) : Prop :=
      WritesVec i s p d w (fun l => if l = 0 then r else lane (p.getV d) w l) fl
    first (.vredsum (.i e) m d a) w (all.sum % 2 ^ w) 0 ∧
    (∃ r, first (.vredmax (.i e) m d a) w r 0 ∧ r ∈ all ∧ ∀ v ∈ all, sg v ≤ sg r) ∧
    (∃ r, first (.vredmin (.i e) m d a) w r 0 ∧ r ∈ all ∧ ∀ v ∈ all, sg r ≤ sg v) ∧
    (∃ r, first (.vredmax (.u e) m d a) w r 0 ∧ r ∈ all ∧ ∀ v ∈ all, v ≤ r) ∧
    (∃ r, first (.vredmin (.u e) m d a) w r 0 ∧ r ∈ all ∧ ∀ v ∈ all, r ≤ v) ∧
    (let f := fmtOf t
     let fold (i : Instr) (op : Nat → Nat → Rounded) (ident : Nat) : Prop :=
       let r := tree op 9 ((List.range (2048 / f.bits)).map fun l =>
         if active (p.getP m) l (2048 / f.bits) = true then lane (p.getV a) f.bits l else ident) 0
       let v := op r.1 (lane (p.getV d) f.bits 0)
       if (r.2 ||| v.2) &&& p.enables = 0 then first i f.bits v.1 (r.2 ||| v.2) else RaisesArith i s p (r.2 ||| v.2)
     fold (.vredsum (.f t) m d a) (fun x y => f.add p.rm (f.decode x) (f.decode y)) (2 ^ (f.bits - 1)) ∧
     fold (.vredmax (.f t) m d a) (f.pick true) (f.inf true) ∧
     fold (.vredmin (.f t) m d a) (f.pick false) (f.inf false)) ∧
    (let scan (k : ScanT) (w : Nat) : Prop := WritesVec (.vscan k m d a) s p d w (merged p m d w fun l =>
       (((List.range (l + 1)).filter fun j => active (p.getP m) j (2048 / w)).map fun j =>
         lane (p.getV a) w j).sum) 0
     scan .i32 32 ∧ scan .i16 16)

/-- `vshuf` takes lane v[B] modulo N of v[A], `vrot` lane (L + x[B]) mod N, `vslide` lane L + x[B] signed, or 0
outside the register, each in active lanes; `vcomp` packs the active lanes of v[A] to the low end and zeroes the rest;
`vexpd` spreads the low lanes of v[A] over the active lanes and zeroes the rest; the FP32 scan combines in the steps
of R183. Nothing else changes. -/
def Obligations.Permutes : Prop :=
  ∀ (s : State) (p : Proc) (e : ElW) (m : PIdx) (d a b : VIdx) (x : XIdx), s.cpu = some p → Plain p [d, a, b] →
    let w := bitsOf e
    let n := 2048 / w
    let v (l : Nat) : Nat := lane (p.getV a) w l
    let on (l : Nat) : Bool := active (p.getP m) l n
    WritesVec (.vshuf e m d a b) s p d w (merged p m d w fun l => v (lane (p.getV b) w l % n)) 0 ∧
    WritesVec (.vrot e m d a x) s p d w (merged p m d w fun l => v ((l + (p.getX x).toNat) % n)) 0 ∧
    WritesVec (.vslide e m d a x) s p d w (merged p m d w fun l =>
      let j : Int := l + (p.getX x).toInt
      if 0 ≤ j ∧ j < n then v j.toNat else 0) 0 ∧
    WritesVec (.vcomp e m d a) s p d w (fun l => (((List.range n).filter on).map v).getD l 0) 0 ∧
    WritesVec (.vexpd e m d a) s p d w (fun l => if on l = true then v ((List.range l).countP on) else 0) 0 ∧
    (let ts := (List.range 64).map fun l => if active (p.getP m) l 64 = true then lane (p.getV a) 32 l else 2 ^ 31
     let r := scanSteps (fun x y => fp32.add p.rm (fp32.decode x) (fp32.decode y)) 8 1 ts []
     let fl := r.2.foldl (fun f c => f ||| c.2.2) 0
     if fl &&& p.enables = 0 then WritesVec (.vscan .f32 m d a) s p d 32 (merged p m d 32 fun l => r.1.getD l 0) fl
     else RaisesArith (.vscan .f32 m d a) s p fl)

/-- With nothing of the core under way, every active lane's address aligned, inside a window that grants the access,
below the park area and, for loads, without error: unit-stride, strided and indexed loads complete, each active lane
taking the bytes at its address and the others keeping their values; the broadcast load gives one element to every
active lane. The stores complete when the path has accepted, in lane order, one write for each active lane, of its own
address, width and value, and no byte of memory changes until they land; where the path takes only the first of them,
VPROG is the lowest lane left and the store is not complete, and the writes keep one number for the instruction.
VECTOR_LOAD_RETURN completes a load whose elements have returned. -/
def Obligations.VectorMemory : Prop :=
  ∀ (s : State) (p : Proc) (e : ElW) (m : PIdx) (d b : VIdx) (x y : XIdx), s.cpu = some p → p.vprog = 0 →
    Plain p [d, b] →
    let w := bitsOf e
    let z := w / 8
    let n := 2048 / w
    let ls := (List.range n).filter fun l => active (p.getP m) l n
    let unit (l : Nat) : Word := p.getX x + p.getX y + BitVec.ofNat 64 (l * z)
    let stride (l : Nat) : Word := p.getX x + BitVec.ofNat 64 (l * (p.getX y).toNat)
    let index (l : Nat) : Word := p.getX x + BitVec.ofNat 64 (lane (p.getV b) w l * z)
    let load (i : Instr) (at_ : Nat → Word) : Prop :=
      (∀ l ∈ ls, OwnAccess s p (at_ l) z .rd ∧ Sound s (homeAt p (at_ l)) z) → ∃ v,
        Completes i s (behind (p.setV d v) 4) ∧ ∀ l, l < n → lane v w l =
          if active (p.getP m) l n = true then s.mem.read (homeAt p (at_ l)) z else lane (p.getV d) w l
    let now := match s.part with
      | some k => ls.take k
      | none => ls
    let store (i : Instr) (at_ : Nat → Word) : Prop := (∀ l ∈ ls, OwnAccess s p (at_ l) z .wr) →
      ∃ (ps : List Packet) (whole : Nat → Bool),
        exec i s = .next { s with nextId := s.nextId + now.length, packets := s.packets ++ ps
                                  cpu := some (if now.length = ls.length then behind p 4 else
                                    { p with vprog := ls.getD now.length 0, wait := .stall
                                             batch := if p.batch = 0 then s.nextId else p.batch }) } ∧
        ps.map (fun q => (q.core, q.pid, q.path, q.kind, q.used, q.n, q.payload)) = now.map fun l =>
          (p.core, p.pid, .own, .ord, (at_ l).toNat, z,
            .write { addr := homeAt p (at_ l), n := z, val := lane (p.getV d) w l, fe := none, whole := whole l,
                     author := some (s.author p (at_ l)) })
    (Issues s p → Quiet s p.core →
      load (.vld e m d x y) unit ∧ load (.vlds e m d x y) stride ∧ load (.vgath e m d x b) index ∧
      load (.vldb e m d x) (fun _ => p.getX x) ∧
      store (.vst e m d x y) unit ∧ store (.vsts e m d x y) stride ∧ store (.vscat e m d x b) index) ∧
    (∀ els : List VElem, p.wait = .vload d z els → p.st = .running → s.subj = .id p.pid →
      (∀ c ∈ els, ∃ v, c.val = some (v, false)) → ∃ v,
        Completes .vectorLoadReturn s (behind (p.setV d v) 4) ∧ ∀ l, l < n → lane v w l =
          match els.find? fun c => c.lanes.contains l with
          | some c => (c.val.getD (0, false)).1 % 2 ^ w
          | none => lane (p.getV d) w l)

/-- For a T-class process: `scfg` and `sbase` write the configuration of a stream that is not bound and raise STREAM 5
on one that is; `sstart` raises the first of its checks 1 to 4 that fails, else binds the stream at position 0, ended
when it has no element, and clears its vector register; `sstop` unbinds a stream whose pushes have all landed, where
elements still on their way to it reach no stream any more, and waits RUNNING for its pushes else; `sbr` branches
while the stream is bound and not ended; `sstat` gives its status. Nothing else changes. SSTOP_COMPLETE and
VECTOR_COMMIT end their waits; STREAM_READ_AHEAD fetches the next element. -/
def Obligations.Streams : Prop :=
  ∀ (s : State) (p : Proc) (n k : BitVec 3) (a d : XIdx) (off : BitVec 17), s.cpu = some p → p.cls = .t →
    let t := p.streams[n.toNat]
    let put (u : Stream) : Proc := behind { p with streams := p.streams.set n.toNat u n.isLt } 4
    let x := p.getX a
    let no : Word := BitVec.ofNat 64 (8 + n.toNat)
    (t.bound = false → k.toNat < 5 → Completes (.scfg n k a) s (put
      (if k = 0 then { t with cfg0 := x } else if k = 1 then { t with cfg1 := x } else if k = 2 then { t with cfg2 := x }
       else if k = 3 then { t with cfg3 := x } else { t with mode := x }))) ∧
    (t.bound = false → Completes (.sbase n a) s (put { t with base := x })) ∧
    (t.bound = true → exec (.scfg n k a) s = .next (s.raise p .stream (some 4) 0 5 no) ∧
      exec (.sbase n a) s = .next (s.raise p .stream (some 4) 0 5 no)) ∧
    (∀ c, t.startFault = some c → exec (.sstart n) s = .next (s.raise p .stream (some 4) 0 c no)) ∧
    (t.startFault = none → Completes (.sstart n) s (behind ({ p with
      streams := p.streams.set n.toNat { t with pos := 0, ended := decide (t.total = 0), bound := true, ahead := [] }
        n.isLt }.setV (BitVec.ofNat 4 (8 + n.toNat)) 0) 4)) ∧
    (t.bound = false → Completes (.sstop n) s (behind p 4)) ∧
    (t.bound = true → (∀ q ∈ s.packets, q.pid = p.pid → q.kind ≠ .push n) → exec (.sstop n) s = .next
      { s.dropAhead p.pid n with cpu := some (put { t with bound := false, ahead := [] }) }) ∧
    ((∀ q ∈ s.packets, q.pid ≠ p.pid) → s.dropAhead p.pid n = s) ∧
    (∀ q ∈ (s.dropAhead p.pid n).packets, ∀ a l k, q.pid = p.pid → q.payload ≠ .load a l (.ahead p.pid n k) ∧
      ∀ v b, q.payload ≠ .loadRet v b (.ahead p.pid n k)) ∧
    (t.bound = true → t.isWrite = true → (∃ q ∈ s.packets, q.pid = p.pid ∧ q.kind = .push n) →
      Completes (.sstop n) s { p with wait := .sstop n }) ∧
    (p.wait = .sstop n → p.st = .running → s.subj = .id p.pid → (∀ q ∈ s.packets, q.kind ≠ .push n) →
      Completes .sstopComplete s (put { t with bound := false, ahead := [] })) ∧
    Completes (.sbr n off) s (if t.bound = true ∧ t.ended = false then
      atTarget p (BitVec.ofInt 64 (p.pc.toNat + off.toInt * 2)) else behind p 4) ∧
    (t.pos < 2 ^ 48 → Completes (.sstat d n) s (behind (p.setX d (BitVec.ofNat 64 (t.pos * 65536 +
      (if t.zend = true then 128 else 0) + (t.ndim - 1) * 32 + t.width * 8 + (if t.isWrite = true then 4 else 0) +
      (if t.ended = true then 2 else 0) + (if t.bound = true then 1 else 0)))) 4)) ∧
    (p.wait = .pop → p.st = .running → s.subj = .id p.pid → s.packets = [] →
      Completes .vectorCommit s { p with wait := .stall }) ∧
    (p.st = .running → t.bound = true → t.isWrite = false → t.pos < t.total → t.ahead = [] → s.packets = [] →
      OwnAccess s p (t.elemAddr t.pos) t.size .rd → Sound s (homeAt p (t.elemAddr t.pos)) t.size →
      let got : Ahead :=
        { idx := t.pos, val := s.mem.read (homeAt p (t.elemAddr t.pos)) t.size, window := false, marked := false }
      exec .streamReadAhead { s with subj := .stream p.pid n } = .next { s with
        subj := .stream p.pid n
        cpu := some { p with streams := p.streams.set n.toNat { t with ahead := [got] } n.isLt } })

/-- For `vmov` from a bound read stream into any register that is no bound stream, with an element left, its elements
in the own memory, readable and sound, nothing of the core under way and nothing read ahead: v[D] takes the elements
at the addresses of R161 in lane order, zero beyond the last, and the stream moves on by one vector or to its end,
where it is ended. For `vmov` to a bound write stream, one write for each lane with an element left sets out for its
address, in lane order, and the stream moves on alike. At the end, a pop gives zero and a push is discarded where ZEND
is 1; else STREAM is raised, with 6 for a pop and 8 for a push. Element widths are the three that `sstart` admits
(R191, Streams). -/
def Obligations.StreamOperands : Prop :=
  ∀ (s : State) (p : Proc) (n : BitVec 3) (r : VIdx), s.cpu = some p → p.cls = .t → Quiet s p.core → s.packets = [] →
    let t := p.streams[n.toNat]
    let v : VIdx := BitVec.ofNat 4 (8 + n.toNat)
    let count := min t.lanes (t.total - t.pos)
    let next : Stream := { t with pos := t.pos + count, ended := decide (t.pos + count = t.total) }
    let no : Word := BitVec.ofNat 64 (8 + n.toNat)
    t.bound = true → t.width < 3 → p.boundAt r = none →
    (t.ended = false → t.pos < t.total → t.ahead = [] →
      (t.isWrite = false →
        (∀ k, k < count → OwnAccess s p (t.elemAddr (t.pos + k)) t.size .rd ∧
          Sound s (homeAt p (t.elemAddr (t.pos + k))) t.size) →
        ∃ u w, Completes (.vmov 0 r v) s
            (behind (({ p with streams := p.streams.set n.toNat next n.isLt }.setV v u).setV r w) 4) ∧ u = w ∧
          ∀ k, k < t.lanes → lane w (8 * t.size) k =
            if k < count then s.mem.read (homeAt p (t.elemAddr (t.pos + k))) t.size else 0) ∧
      (t.isWrite = true → (∀ k, k < count → OwnAccess s p (t.elemAddr (t.pos + k)) t.size .wr) →
        ∃ (ps : List Packet) (whole : Nat → Bool),
          exec (.vmov 0 v r) s = .next { s with
            cpu := some (behind ({ p with streams := p.streams.set n.toNat next n.isLt }.setV v (p.getV r)) 4)
            nextId := s.nextId + count, packets := ps } ∧
          ps.map (fun q => (q.core, q.pid, q.path, q.kind, q.used, q.n, q.payload)) = (List.range count).map fun k =>
            (p.core, p.pid, .own, .push n, (t.elemAddr (t.pos + k)).toNat, t.size,
              .write { addr := homeAt p (t.elemAddr (t.pos + k)), n := t.size, val := lane (p.getV r) (8 * t.size) k,
                       fe := none, whole := whole k, author := some (s.author p (t.elemAddr (t.pos + k))) }))) ∧
    (t.ended = true →
      (t.isWrite = false → t.zend = true → Completes (.vmov 0 r v) s (behind ((p.setV v 0).setV r 0) 4)) ∧
      (t.isWrite = true → t.zend = true → Completes (.vmov 0 v r) s (behind p 4)) ∧
      (t.isWrite = false → t.zend = false → exec (.vmov 0 r v) s = .next (s.raise p .stream (some 4) 0 6 no)) ∧
      (t.isWrite = true → t.zend = false → exec (.vmov 0 v r) s = .next (s.raise p .stream (some 4) 0 8 no)))

/-- For a T-class process whose descriptors pass every check, with nothing of the core under way and no error in
memory, `tmma` and `tmma.sp` complete: a[D] has taken the update of each K-group of 16 in order, `tmma.sp` has claimed
and used its metadata words, `%fpflags` has gained the groups' flags (the group update of R206 is State.group1), and
nothing else changes but the pc. For I8 no flag arises and the cell (i, j) of the rows of both operands is the old
cell plus each group's sum of products of the signed bytes, saturated to 32 bits after each group, where `tmma.sp`
takes for its t-th byte of a group the byte of B that the metadata of row i selects in its quarter; other cells stay.
TILE_GROUP performs one group of the product at the pc, dense or sparse, and the flags of its groups are kept until it
ends. -/
def Obligations.TileProducts : Prop :=
  ∀ (s : State) (p : Proc) (f : TileFmt) (d : AIdx) (a b : XIdx), s.cpu = some p → p.cls = .t → s.marks = [] →
    s.latent = [] → p.enables = 0 →
    let da := p.desc a
    let db := p.desc b
    let n := db.groups
    let code := tileCode f
    let byte (e : Desc) (i k : Nat) : Int := (s.mem.get (globalBase p.core + e.rowByte i k)).toInt
    let clamp (v : Int) : Int := max (-(2 ^ 31)) (min v (2 ^ 31 - 1))
    let start (i j : Nat) : Int := (BitVec.ofNat 32 (cell (p.getA d) i j)).toInt
    let cells (acc : Acc) (sum : Nat → Nat → Nat → Int) : Prop := ∀ i j, i < 16 → j < 32 → cell acc i j =
      if i < da.rows ∧ j < db.rows then
        (((List.range n).foldl (fun c g => clamp (c + sum i j g)) (start i j)) % 2 ^ 32).toNat
      else cell (p.getA d) i j
    let dense := s.tileChecks p [(da, .a, .rd), (db, .b, .rd)] code
      (fun c => (c == 1 && decide (7 < code)) || (c == 5 && da.cols != db.cols)) = none
    let sparse := s.tileChecks p [(da, .aSp, .rd), (db, .bSp, .rd)] code
      (fun c => (c == 1 && decide (4 < code)) || (c == 5 && 2 * da.cols != db.cols) ||
        (c == 10 && decide (16 < db.cols / 16)) || (c == 11 && decide (p.uncl < db.cols / 4))) = none
    let group (sp : Bool) (acc : Acc) (g : Nat) : Acc × Flags :=
      s.group1 { p with mq := if sp then p.mq.drop (4 * g) else p.mq } f sp da db acc g
    let all (sp : Bool) : Acc × Flags := (List.range n).foldl (fun c g =>
      ((group sp c.1 g).1, c.2 ||| (group sp c.1 g).2)) (p.getA d, 0)
    let fresh := Quiet s p.core ∧ p.tile = none ∧ p.tprog = 0 ∧ p.claim = 0
    (fresh → dense → Completes (.tmma f d a b) s
      (behind { p.setA d (all false).1 with fpflags := p.fpflags ||| (all false).2 } 4)) ∧
    (fresh → dense → f = .i8 → (all false).2 = 0 ∧ cells (all false).1 fun i j g =>
      ((List.range (min 16 (db.cols - 16 * g))).map fun k => byte da i (16 * g + k) * byte db j (16 * g + k)).sum) ∧
    (fresh → sparse → Completes (.tmmaSp f d a b) s (behind { p.setA d (all true).1 with
      fpflags := p.fpflags ||| (all true).2, mq := p.mq.drop (4 * n), uncl := p.uncl - db.cols / 4 } 4)) ∧
    (fresh → sparse → f = .i8 → (all true).2 = 0 ∧ cells (all true).1 fun i j g =>
      let m := (p.mq.getD (4 * g + i / 4) 0).toNat / 2 ^ (16 * (i % 4))
      ((List.range 8).map fun t => byte da i (8 * g + t) *
        byte db j (16 * g + 4 * (t / 2) + m / 2 ^ (4 * (t / 2) + 2 * (t % 2)) % 4)).sum) ∧
    (Quiet s p.core → s.focus = p.core → (p.wait = .none ∨ p.wait = .stall) → s.subj = .id p.core → p.tprog + 1 < n →
      let r (sp : Bool) := s.group1 p f sp da db (p.getA d) p.tprog
      let gone (sp : Bool) (q : Proc) : Proc := { q.setA d (r sp).1 with
        fpflags := p.fpflags ||| (r sp).2, tprog := p.tprog + 1, wait := .stall,
          tile := some (p.tile.getD 0 ||| (r sp).2) }
      ((p.tile = none → dense) → s.fetch p = .instr (.tmma f d a b) s → Completes .tileGroup s (gone false p)) ∧
      ((p.tile = none → p.tprog = 0 ∧ p.claim = 0 ∧ sparse) → s.fetch p = .instr (.tmmaSp f d a b) s →
        Completes .tileGroup s (gone true { p with
          mq := p.mq.drop 4
          uncl := if p.tile = none then p.uncl - db.cols / 4 else p.uncl
          claim := (if p.tile = none then db.cols / 4 else p.claim) - 4 })))

/-- For a T-class process with no flag enabled: `tzero` clears a[D]; `tadd.i32` and `tscale.i32` saturate the sum and
the triple product of signed cells, `tadd.f32` and `tscale.f32` round once and flush subnormal results; other formats
raise TILE_COMBO 0x201. `tldacc`, when its checks pass, gives cell (i, j) the 32-bit element j of row i, FP32
subnormals as zeros, and 0 outside the descriptor. `tst` sends out its converted elements and scales, row by row, from
the first that the path has not taken, and completes when it has taken all. `twait` completes when no `tst` write of
the process is under way, else it waits for TWAIT_COMPLETE. `tdesc` gives 0, 0x400 for a footprint that may not be
accessed, or 0x800 plus the first failing check. `tmq` pushes the 32 words of v[A] when at most 32 are held, else it
waits for TMQ_PUSH; `tmq.clr` drops the unclaimed words. Nothing else changes. -/
def Obligations.TileAccumulators : Prop :=
  ∀ (s : State) (p : Proc) (f : TileFmt) (d a b : AIdx) (x y : XIdx) (u v : VIdx) (role : BitVec 5), s.cpu = some p →
    p.cls = .t → p.enables = 0 →
    let sg (c : Nat) : Int := (BitVec.ofNat 32 c).toInt
    let clamp (v : Int) : Nat := (max (-(2 ^ 31)) (min v (2 ^ 31 - 1)) % 2 ^ 32).toNat
    let writes (i : Instr) (g : Nat → Nat → Nat) (fl : Flags) : Prop := ∃ acc,
      Completes i s (behind ({ p with fpflags := p.fpflags ||| fl }.setA d acc) 4) ∧
      ∀ i j, i < 16 → j < 32 → cell acc i j = g i j % 2 ^ 32
    let ca (i j : Nat) : Nat := cell (p.getA a) i j
    let cb (i j : Nat) : Nat := cell (p.getA b) i j
    let cd (i j : Nat) : Nat := cell (p.getA d) i j
    let lu (l : Nat) : Nat := lane (p.getV u) 32 l
    let lv (l : Nat) : Nat := lane (p.getV v) 32 l
    let ds := p.desc y
    let combo (r : Role) (c : Nat) : Bool := c == 1 && !r.takes (tileCode f)
    Completes (.tzero d) s (behind (p.setA d 0) 4) ∧
    writes (.tadd .i32 d a b) (fun i j => clamp (sg (ca i j) + sg (cb i j))) 0 ∧
    (∃ fl, writes (.tadd .f32 d a b) (fun i j => (flushOut (fp32.add .rne (readF32 (ca i j)) (readF32 (cb i j)))).1) fl) ∧
    (Plain p [u, v] → writes (.tscale .i32 d u v) (fun i j => clamp (sg (cd i j) * sg (lu i) * sg (lv j))) 0 ∧
      ∃ fl, writes (.tscale .f32 d u v)
        (fun i j => (scale3 (readF32 (cd i j)) (readF32 (lu i)) (readF32 (lv j))).1) fl) ∧
    (f ≠ .i32 → f ≠ .f32 → ∀ i, i = Instr.tadd f d a b ∨ i = Instr.tscale f d u v →
      exec i s = .next (s.raise p .tileCombo (some 4) 0 0x201 (instrDetail i))) ∧
    (Quiet s p.core → s.marks = [] → s.latent = [] → s.tileChecks p [(ds, .ld, .rd)] (tileCode f) (combo .ld) = none →
      writes (.tldacc f d y) (fun i j =>
        let b (k : Nat) : Nat := (s.mem.get (globalBase p.core + ds.rowByte i (4 * j + k))).toNat
        let c := b 0 + 256 * b 1 + 65536 * b 2 + 16777216 * b 3
        if ds.rows ≤ i ∨ ds.cols ≤ j then 0
        else if f = .f32 ∧ c % 2 ^ 31 < 2 ^ 23 then c / 2 ^ 31 * 2 ^ 31 else c) 0) ∧
    (let w := tstWrites f ds (p.getA d)
     let left := w.1.drop p.tdone
     let els := match s.part with
       | some k => left.take k
       | none => left
     Quiet s p.core → s.tileChecks p [(ds, .st, .wr)] (tileCode f) (combo .st) = none →
     (∀ e ∈ w.1, e.1.toNat < s.parkStart p.core) → ∃ (ps : List Packet) (whole : Nat → Bool),
       exec (.tst f y d) s = .next { s with
         cpu := some (if els.length = left.length then behind { p with fpflags := p.fpflags ||| w.2 } 4 else
           { p with wait := .stall, tdone := p.tdone + els.length })
         nextId := s.nextId + els.length, packets := s.packets ++ ps } ∧
       ps.map (fun q => (q.core, q.pid, q.path, q.kind, q.used, q.n, q.payload)) = els.zipIdx.map fun e =>
         (p.core, p.pid, .own, .tst, e.1.1.toNat, e.1.2.1,
           .write { addr := homeAt p e.1.1, n := e.1.2.1, val := e.1.2.2 % 2 ^ (8 * e.1.2.1), fe := none,
                    whole := whole e.2, author := some (s.author p e.1.1) })) ∧
    ((∀ q ∈ s.packets, q.pid ≠ p.pid) → Completes .twait s (behind p 4)) ∧
    ((∃ q ∈ s.packets, q.pid = p.pid ∧ q.kind = .tst) → Completes .twait s { p with wait := .twait }) ∧
    (p.wait = .twait → p.st = .running → s.subj = .id p.pid → (∀ q ∈ s.packets, q.pid ≠ p.pid) →
      Completes .twaitComplete s (behind p 4)) ∧
    (let r := Role.ofNum role.toNat
     Completes (.tdesc f x y role) s (behind (p.setX x (match firstCombo [(ds, r)] (tileCode f) (combo r) with
       | some c => BitVec.ofNat 64 (0x800 + c.1)
       | none => if s.footprintFault p ds (if r = .st then .wr else .rd) = none then 0 else 0x400)) 4)) ∧
    (let pushed := behind { p with
       mq := p.mq ++ (List.range 32).map fun k => BitVec.ofNat 64 (lane (p.getV u) 64 k), uncl := p.uncl + 32 } 4
     Plain p [u] →
     (p.uncl ≤ 32 → p.mq.length ≤ 32 → Completes (.tmq u) s pushed) ∧
     (p.uncl ≤ 32 → 32 < p.mq.length → Completes (.tmq u) s { p with wait := .tmq u }) ∧
     (32 < p.uncl → exec (.tmq u) s = .next (s.raise p .tileCombo (some 4) 0 0x20C (instrDetail (.tmq u)))) ∧
     (p.wait = .tmq u → p.st = .running → s.subj = .id p.pid → p.mq.length ≤ 32 → Completes .tmqPush s pushed)) ∧
    Completes .tmqClr s (behind { p with mq := p.mq.take (p.mq.length - p.uncl), uncl := 0 } 4)

/-- On a word channel anchored at the own core whose ends are bound, among any other channels and processes, of which
none but the partner waits at the channel or in an alternation: `send` of a message of W words to a buffered channel
with a free slot puts it at the tail of the queue (with the PID of the sender behind it where a device receives) and
the process goes on RUNNING; `recv` from a queue takes the message at its head into x[D] and the registers after it; a
`send` that finds the receiver waiting in `recv`, and a `recv` that finds the sender waiting in `send`, complete both
at once, the partner READY, or PARKED without a wait, with what the rendezvous gives its registers and the channel as
it was; without a partner or a message, they block the process with reason CHANNEL. Nothing else changes but a halt
that a woken or waiting process may call for. -/
def Obligations.WordChannels : Prop :=
  ∀ (s : State) (p r : Proc) (c : Channel) (w : ChanWait) (a b d : XIdx) (n : BitVec 5) (m : List Word)
    (rest : List (List Word)), OnChannel s p c → c.kind = .word → n.toNat = c.w →
    let msg := p.getRun b n.toNat
    let as_ (k : Channel) : List Channel := (s.putChan k).channels
    let takes (q : Proc) (l : List Word) : Prop := WentOn { p with x := q.x } q ∧
      ∀ i : XIdx, q.getX i = if i ≠ 0 ∧ d.toNat ≤ i.toNat ∧ i.toNat < d.toNat + n.toNat then
        l.getD (i.toNat - d.toNat) 0 else p.getX i
    let blocks (i : Instr) (op : ChanOp) (l : List Word) : Prop := ∃ t v, exec i s = .next t ∧ t.cpu = none ∧
      v.op = op ∧
      v.msg = l ∧ t.procs = s.procs ++ [blockedAs s p .channel (.chan v)] ∧ t.channels = as_ c ∧ t.mem = s.mem
    let partner (op : ChanOp) : Prop := WaitsAt s r c w op ∧ r.pid ≠ p.pid ∧ dieOf r.core = dieOf p.core ∧
      Uninvolved s c [r.pid] ∧ c.buf = false ∧ c.queue = []
    let both (i : Instr) (q : Proc) (l : List (XIdx × Word)) : Prop := ∃ t r', exec i s = .next t ∧
      Resumes s r (some (.regs l)) r' ∧
      t = { s with cpu := some q, procs := s.procs.map fun k => if k.pid = r.pid then r' else k, cores := t.cores
                   channels := as_ c }
    (Holding s p c true a → c.rx.st = .bound → Uninvolved s c [] →
      (c.buf = true → c.queue.length < c.depth → ∃ q, WentOn p q ∧
        exec (.send a b n) s = .next (({ s with cpu := some q, channels := as_ { c with queue := c.queue ++
          [if c.rx.holder = .device then msg ++ [BitVec.ofNat 64 p.pid] else msg] } } : State).urge p.core)) ∧
      (c.buf = false → c.queue = [] → blocks (.send a b n) .send msg)) ∧
    (Holding s p c false a → d.toNat + n.toNat ≤ 32 → Uninvolved s c [] →
      (c.queue = m :: rest → m.length = n.toNat → ∃ q, takes q m ∧
        exec (.recv d a n) s = .next (({ s with cpu := some q, channels := as_ { c with queue := rest } } : State).urge
          p.core)) ∧
      (c.queue = [] → c.tx.st = .bound → blocks (.recv d a n) .recv [])) ∧
    (Holding s p c true a → c.rx = boundTo r.pid → partner .recv → ∃ q, WentOn p q ∧
      both (.send a b n) q (runOf w.d msg)) ∧
    (Holding s p c false a → c.tx = boundTo r.pid → d.toNat + n.toNat ≤ 32 → w.msg.length = n.toNat → partner .send →
      ∃ q, takes q w.msg ∧ both (.recv d a n) q [])

/-- For `send`, `recv`, `sendt` and `recvt` alike: a malformed handle or one of the wrong end raises CH_TYPE 1; an end
that the process does not hold raises CH_BIND, 2 when its channel table has it and 1 when not; a channel of the other
kind raises CH_TYPE 3; a message of another length raises CH_TYPE 2; an own end that is CLOSED raises CH_CLOSED 0, one
in ERROR LINK 0. DETAIL0 is the handle, and no end, message or register changes. -/
def Obligations.ChannelChecks : Prop :=
  ∀ (s : State) (p : Proc) (a b d : XIdx) (n : BitVec 5) (c : Channel), s.cpu = some p →
    let h := (p.getX a).toNat % 2 ^ 32
    let cause (i : Instr) (e : Cause) (k : Word) : Prop :=
      exec i s = .next (s.raise p e (some 4) 0 (BitVec.ofNat 64 h) k)
    let bad (i : Instr) (tx tile : Bool) : Prop :=
      (h / 2 ^ 25 ∉ [0, 1, 3, 4] ∨ (h / 2 ^ 24 % 2 = 0) ≠ (tx = true) → cause i .chType 1) ∧
      (h / 2 ^ 25 ∈ [0, 1, 3, 4] → ((h / 2 ^ 24 % 2 = 0) = (tx = true)) →
        let r : HandleRef := ⟨h % 2 ^ 24, tx, h / 2 ^ 25⟩
        (s.heldEnd p.pid r = none → s.tableChan p.region r = none → cause i .chBind 1) ∧
        (∀ k, s.heldEnd p.pid r = none → s.tableChan p.region r = some k → cause i .chBind 2) ∧
        (s.heldEnd p.pid r = some c →
          ((c.kind = .tile) ≠ (tile = true) → cause i .chType 3) ∧
          ((c.kind = .tile) = (tile = true) → (tile = true ∨ n.toNat = c.words) →
            ((c.fin tx).st = .closed → cause i .chClosed 0) ∧ ((c.fin tx).st = .error → cause i .link 0)) ∧
          (c.kind ≠ .tile → tile = false → n.toNat ≠ c.words → cause i .chType 2)))
    bad (.send a b n) true false ∧ bad (.recv d a n) false false ∧ bad (.sendt a b) true true ∧
      bad (.recvt a b) false true

/-- On a tile channel anchored at the own core, among any other channels and processes, of which none but the partner
waits there or in an alternation: `sendt` that finds the receiver waiting in `recvt`, and `recvt` that finds the
sender, with descriptors that pass their checks, begin one transfer from the sender's pair to the receiver's where
both descriptors have one shape, and the process waits BLOCKED; where FMT, COLS or ROWS differ, both instructions end
with CH_TYPE 4, at once here and when it next runs for the partner. Without a partner the process blocks.
TILE_TRANSFER_DONE, on one die: every byte of the receiver's rows, at different addresses, has the value that the
sender's byte had, every other byte is as it was, and both processes resume behind their instructions, the others as
they were. -/
def Obligations.TileChannels : Prop :=
  (∀ (s : State) (p r : Proc) (c : Channel) (w : ChanWait) (a b : XIdx) (tx : Bool), OnChannel s p c → c.kind = .tile →
    Holding s p c tx a → c.queue = [] → c.buf = false → s.tileChanFault p b (if tx then .rd else .wr) = none →
    let dw0 := p.getX b
    let dw1 := p.getX (b + 1)
    let i : Instr := if tx then .sendt a b else .recvt a b
    ((c.fin (!tx)).st = .bound → Uninvolved s c [] → ∃ t v, exec i s = .next t ∧ t.cpu = none ∧ t.mem = s.mem ∧
      t.procs = s.procs ++ [blockedAs s p .channel (.chan v)] ∧ v.dw0 = dw0 ∧ v.dw1 = dw1 ∧ v.moving = none ∧
      t.channels = (s.putChan c).channels ∧ t.transfers = s.transfers) ∧
    (c.fin (!tx) = boundTo r.pid → WaitsAt s r c w (if tx then .recvt else .sendt) → r.pid ≠ p.pid →
      dieOf r.core = dieOf p.core → Uninvolved s c [r.pid] →
      (tileShape dw1 = tileShape w.dw1 →
        ∃ t v, exec i s = .next t ∧ t.cpu = none ∧ t.mem = s.mem ∧ t.channels = (s.putChan c).channels ∧
          t.procs = (s.procs.map fun k =>
            if k.pid = r.pid then { r with wait := .chan { w with moving := some s.nextId } } else k) ++
            [blockedAs s p .channel (.chan v)] ∧
          v.moving = some s.nextId ∧ t.transfers = s.transfers ++ [if tx then
            { id := s.nextId, tx := p.pid, rx := r.pid, src := p.core, dst := r.core, s0 := dw0, s1 := dw1, r0 := w.dw0,
              r1 := w.dw1 }
          else
            { id := s.nextId, tx := r.pid, rx := p.pid, src := r.core, dst := p.core, s0 := w.dw0, s1 := w.dw1,
              r0 := dw0,
              r1 := dw1 }]) ∧
      (tileShape dw1 ≠ tileShape w.dw1 → ∃ (u : State) (q r' : Proc),
        exec i s = .next ((u.raise q .chType (some 4) 0 (BitVec.ofNat 64 (c.handle tx)) 4).urge p.core) ∧
        q = { p with wait := .none, since := q.since, probes := q.probes, reported := q.reported } ∧
        Resumes s r (some (.cause .chType 0 w.handle 4)) r' ∧
        u = { s with cpu := some q, procs := s.procs.map fun k => if k.pid = r.pid then r' else k, cores := u.cores
                     channels := (s.putChan c).channels }))) ∧
  (∀ (s : State) (p r : Proc) (u : Transfer) (w v : ChanWait), s.proc? p.pid = some p → s.proc? r.pid = some r →
    p.wait = .chan w → w.moving = some u.id → r.wait = .chan v → v.moving = some u.id → p.pid ≠ r.pid →
    LendsNone s p.pid → LendsNone s r.pid → p.isBlocked = true → r.isBlocked = true → u.tx = p.pid →
    u.rx = r.pid → s.transfers.find? (fun x => x.id == u.id) = some u → u.read = false → u.dst < 8192 →
    dieOf u.src = dieOf u.dst → s.packets = [] → s.rsvs = [] →
    s.watches = [] → s.triggers = [] → s.mem.wf = true → s.subj = .id u.id →
    let pairs := tilePairs (descOf u.s0 u.s1) (descOf u.r0 u.r1)
    (pairs.map (·.2)).Nodup → (∀ x ∈ pairs, x.2 < 2 ^ 20) → (∀ a, s.homeGone a = false) →
    ∃ t p' r', exec .tileTransferDone s = .next t ∧ t.transfers = s.transfers.filter (·.id != u.id) ∧
      t.proc? p.pid = some p' ∧ t.proc? r.pid = some r' ∧ (∀ n, n ≠ p.pid → n ≠ r.pid → t.proc? n = s.proc? n) ∧
      Resumes s p (some (.regs [])) p' ∧ Resumes s r (some (.regs [])) r' ∧
      (∀ x ∈ pairs, t.mem.get (globalBase u.dst + x.2) = s.mem.get (globalBase u.src + x.1)) ∧
      ∀ a, (∀ x ∈ pairs, a ≠ globalBase u.dst + x.2) → t.mem.get a = s.mem.get a)

/-- `alt.clr` disarms every guard; `alt.rx` and `alt.tx` of an end that the process holds, `alt.tm`, and `alt.bar` of
a handle that passes its checks arm the guard of their number and no other. `alt.wait` gives all ones when none is
armed, else the number of the lowest that is ready; when only timers are armed and none is due, it blocks the process
with reason ALT; guards whose anchors are on other dies are asked for there, and the process waits RUNNING for the
answers (that it does so RUNNING is the model's choice, log 58). TIMER_GUARD makes the process READY once a timer is
due; it then issues `alt.wait` again. Nothing else changes. -/
def Obligations.Alternation : Prop :=
  ∀ (s : State) (p : Proc) (a b d : XIdx) (k : BitVec 5) (hk : k.toNat < 16),
    let arm (g : Guard) : Proc := behind { p with guards := p.guards.set k.toNat (some g) hk } 4
    let h := (p.getX a).toNat % 2 ^ 32
    (s.cpu = some p →
      Completes .altClr s (behind { p with guards := Vector.replicate 16 none } 4) ∧
      Completes (.altTm a k) s (arm (.tm (p.getX a))) ∧
      (∀ c, s.heldCheck p h (some false) = .ok (c, false) → Completes (.altRx a k) s (arm (.rx c.table c.name))) ∧
      (∀ c, s.heldCheck p h (some true) = .ok (c, true) → Completes (.altTx a k) s (arm (.tx c.table c.name))) ∧
      (s.barrierFault p (p.getX a) false = none →
        Completes (.altBar a b k) s (arm (.bar (p.getX a) ((p.getX b).setWidth 32)))) ∧
      ((∀ g ∈ p.guards.toList, g = none) → Completes (.altWait d) s (behind (p.setX d (BitVec.allOnes 64)) 4)) ∧
      (s.farGuards p ≠ [] → ∃ t ids, exec (.altWait d) s = .next t ∧ ids.length = (s.farGuards p).length ∧
        t.cpu = some { p with wait := .altTest d ids [] }) ∧
      ((s.core p.core).early = [] → s.farGuards p = [] →
        (∃ g, p.guards[k.toNat] = some g ∧ s.guardReady g = true) →
        (∀ j : Fin 16, j.val < k.toNat → ∀ g, p.guards[j.val] = some g → s.guardReady g = false) →
        Completes (.altWait d) s (behind (p.setX d (k.setWidth 64)) 4)) ∧
      (s.procs = [] → (∃ g ∈ p.guards.toList, g ≠ none) →
        (∀ g ∈ p.guards.toList, ∀ x, g = some x → ∃ t, x = .tm t ∧ s.ns < t.toNat) →
        exec (.altWait d) s = .next { s with cpu := none, procs := [blockedAs s p .alt .alt] })) ∧
    (∀ t : Word, Alone s p → p.st = .blocked .alt → p.wait = .alt → p.guards[k.toNat] = some (.tm t) → t.toNat ≤ s.ns →
      s.subj = .id p.pid → ∃ q, exec .timerGuard s = .next { s with procs := [q] } ∧ Woken p none q)

/-- `chst` of an end that the process holds gives the word of Table 17.8. `chcl` leaves that end CLOSED, the other end
as it was, and, when it is the receiving end, discards the messages; these act at the anchor, at once where it is the
own core, else on an answer that the process waits for, RUNNING (the model's choice, log 58); one that names the
sending end waits while a migration moves the receiving one. For a supervisor: `chmk` with a spec word that is in
order makes a channel with both ends IDLE under the next free name of the region's table (one past the highest, the
model's choice, log 26) and gives its sending handle, or 0 where there is no table or it has no room (a free value,
log 56); `chbind` of an IDLE end to a process that is NEW, when the tests of Table 17.9 pass, binds it and gives 0;
`chunb` of a BOUND end leaves it IDLE and gives 0; of an IDLE one it gives 1. Nothing else changes. -/
def Obligations.ChannelAdmin : Prop :=
  ∀ (s : State) (p : Proc) (c : Channel) (a b d : XIdx) (tx : Bool), s.cpu = some p → s.channels = [c] →
    let h := (p.getX a).toNat % 2 ^ 32
    let code (e : EndState) : Nat := match e with
      | .idle => 0 | .bound => 1 | .inTransit => 2 | .closed => 3 | .error => 4
    let done (v : Word) : Proc := behind (p.setX d v) 4
    let here : Prop := s.anchorPlace c = p.core
    (c.fin tx = boundTo p.pid → c.name < 2 ^ 24 → h = c.handle tx → c.region = p.region → p.getX b = 0 → here →
      (tx && c.rx.mig) = false → Completes (.chst d a b) s (done (BitVec.ofNat 64 (p.pid * 2 ^ 32 + (if c.buf = true then 2 ^ 31 else 0) +
        c.kind.code * 2 ^ 28 + c.words * 2 ^ 24 + min c.depth 255 * 2 ^ 16 + min c.queue.length 255 * 2 ^ 8 +
        (if (if tx then s.txReady c else s.rxReady c) = true then 8 else 0) + code (c.fin tx).st)))) ∧
    (c.fin tx = boundTo p.pid → c.name < 2 ^ 24 → h = c.handle tx → c.region = p.region → p.getX b = 0 → ¬here →
      c.rx.mig = false → ∃ t, exec (.chst d a b) s = .next t ∧ t.cpu = some { p with wait := .anchor s.nextId d }) ∧
    (c.fin tx = boundTo p.pid → c.name < 2 ^ 24 → h = c.handle tx → c.region = p.region → p.getX b = 0 → tx = true →
      c.rx.mig = true → exec (.chst d a b) s = .next { s with cpu := some { p with wait := .stall } }) ∧
    (c.fin tx = boundTo p.pid → c.name < 2 ^ 24 → h = c.handle tx → s.procs = [] → here → c.rx.mig = false → ∃ c',
      exec (.chcl a) s = .next { s with cpu := some (behind p 4), channels := [c'] } ∧ (c'.fin tx).st = .closed ∧
      c'.fin (!tx) = c.fin (!tx) ∧
      ((c.fin (!tx)).st ≠ .closed → (c.fin (!tx)).st ≠ .error → c'.queue = if tx then c.queue else [])) ∧
    (∀ t, p.priv = .s → (s.region? (p.getX b).toNat).isSome = true → s.inSubtree p.region (p.getX b).toNat = true →
      specOk (p.getX a).toNat = true → t = s.effChtab (p.getX b).toNat →
      (t = 0 → Completes (.chmk d a b) s (done 0)) ∧
      (t ≠ 0 → c.table = t → c.name < 0xFFFFFF → ∃ c', exec (.chmk d a b) s = .next (
        if Config.tableRoom t ≤ 1 then { s with cpu := some (done 0) }
        else { s with cpu := some (done (BitVec.ofNat 64 (c'.handle true))), channels := [c, c'] }) ∧
        c' = { table := t, name := c.name + 1, region := (p.getX b).toNat,
               kind := if (p.getX a).toNat / 8192 = 0 then .word else .tile, w := (p.getX a).toNat / 512 % 16,
               buf := (p.getX a).toNat / 256 % 2 == 1, depth := (p.getX a).toNat % 256 })) ∧
    (∀ q r, p.priv = .s → s.procs = [q] → q.pid = (p.getX b).toNat → q.pid ≠ p.pid → q.st = .new → q.wait = .none →
      parseHandle h = some r → s.resolve p r (s.bindLook p (some q) r) = .ok c → s.bindStatus p c r.tx (some q) = 0 →
      here → (r.tx && c.rx.mig) = false → (r.tx = true → c.rx.st ≠ .closed ∧ c.rx.st ≠ .error) →
      exec (.chbind d a b) s = .next { s with cpu := some (done 0), channels := [c.setFin r.tx (boundTo q.pid)] }) ∧
    (∀ r, p.priv = .s → p.getX b = 0 → s.procs = [] → here → parseHandle h = some r → (r.tx && c.rx.mig) = false →
      s.resolve p r (s.tableChan p.region r) = .ok c → s.inSubtree p.region c.region = true →
      ((c.fin r.tx).st = .idle → Completes (.chunb d a b) s (done 1)) ∧
      ((c.fin r.tx).st = .bound → (c.rx.st ≠ .closed ∧ c.rx.st ≠ .error) ∨ r.tx = false →
        exec (.chunb d a b) s = .next { s with cpu := some (done 0), channels :=
          [if r.tx = true then c.setFin true {} else { c.setFin false {} with
            queue := [], ring := c.ring.map fun g => { g with busy := [], owned := none } }] }))

/-- With no other process (a process alone in its class goes on with a fresh quantum by log 28, and PIDs are numbered
in order by log 7, both the model's choices): `exit` leaves the process EXITED, its context gone; `yield` goes on for
class 0, else joins the tail of its class, READY behind the instruction; `sleep` goes on when the time has come, else
blocks with reason SLEEP, and SLEEP_EXPIRY makes it READY; `setcl` sets BASE to the class asked for, or to CEIL with
status 3, and gives 2 for other values; `dline` gives 2 for parameters out of range, 1 when admission fails, 3 where
CEIL keeps it out of class 0, else sets period, budget and deadline and gives 0, and where EFF changes the process
joins the tail of its class; `migr` gives 4 for a malformed target, 3 for an absent die, 0 for its own core, else
takes the process from its core, its context in the park area; `spawn` with a block in order and no open group gives
x[D] the next PID, makes the process NEW with PC and x2 to x4 from the block, and makes one attempt to place it. -/
def Obligations.ProcessInstructions : Prop :=
  ∀ (s : State) (p : Proc) (a b d : XIdx), s.cpu = some p → s.focus = p.core → p.st = .running → s.procs = [] →
    s.channels = [] → s.packets = [] → s.watches = [] → s.rsvs = [] → p.rsvs = [] → p.loans = [] → s.loanMsgs = [] →
    (s.core p.core).halt = none →
    let x := (p.getX a).toNat
    let y := (p.getX b).toNat
    let ceil := s.effCeil p.region
    let gives (q : Proc) (v : Word) : Proc := behind (q.setX d v) 4
    let joins (q : Proc) : Proc :=
      if q.eff = p.eff then q else { q with quantum := (s.core p.core).quant, key := s.tailKey p.core }
    exec .exit s = .next { s with cpu := none, procs := [{ p with
      st := .exited, loc := .nowhere, wait := .none, done := none, fault := none, rsvs := [], loans := []
      moving := none, ending := .exited, streams := p.streams.map fun t => { t with bound := false } }] } ∧
    (p.eff = 0 → Completes .yield s (behind p 4)) ∧
    (p.eff ≠ 0 → ∃ t q, exec .yield s = .next t ∧ t = { s with cpu := none, procs := [q], cores := t.cores } ∧
      q = { behind p 4 with st := .ready, key := q.key, quantum := (s.core p.core).quant, lastRun := s.ns, tile := none }) ∧
    (x ≤ s.ns → Completes (.sleep a) s (behind p 4)) ∧
    (s.ns < x → exec (.sleep a) s =
      .next { s with cpu := none, procs := [blockedAs s p .sleep (.sleep (p.getX a))] }) ∧
    (x = 0 ∨ 3 < x → Completes (.setcl d a) s (gives p 2)) ∧
    (1 ≤ x → x ≤ 3 → p.base ≠ 0 → p.dem = false → Completes (.setcl d a) s
      (joins (gives { p with base := max x ceil, eff := max x ceil, inh := false } (if x < ceil then 3 else 0)))) ∧
    (¬(10000 ≤ x ∧ x < 2 ^ 32 ∧ 1000 ≤ y ∧ y ≤ x) → Completes (.dline d a b) s (gives p 2)) ∧
    (10000 ≤ x → x < 2 ^ 32 → 1000 ≤ y → y ≤ x →
      (ceil ≠ 0 → p.base ≠ 0 → p.dem = false → Completes (.dline d a b) s
        (joins (gives { p with base := ceil, eff := ceil, inh := false } 3))) ∧
      (ceil = 0 → s.admits p.core p.pid x y = false → Completes (.dline d a b) s (gives p 1)) ∧
      (ceil = 0 → s.admits p.core p.pid x y = true → Completes (.dline d a b) s (joins (gives { p with
        base := 0, eff := 0, inh := false, dem := false, period := x, fullBudget := y, budget := BitVec.ofNat 64 y
        deadline := BitVec.ofNat 64 (s.ns + x), release := s.ns + x } 0)))) ∧
    (2 ^ 32 ≤ x ∨ x / 2 ^ 13 % 8 ≠ 0 → Completes (.migr d a) s (gives p 4)) ∧
    (x < 2 ^ 32 → x / 2 ^ 13 % 8 = 0 →
      (s.diePresent (x % 8192 / 1024) = false → Completes (.migr d a) s (gives p 3)) ∧
      (s.diePresent (x % 8192 / 1024) = true → x % 8192 = p.core → Completes (.migr d a) s (gives p 0)) ∧
      (s.diePresent (x % 8192 / 1024) = true → x % 8192 ≠ p.core → s.canMove (x % 8192) p = true →
        s.canAdmit (x % 8192) p = true → ∃ t, exec (.migr d a) s = .next t ∧ t = { s with
          cpu := none, cores := t.cores
          procs := [{ p with st := .parked none, loc := .park, wait := .migrating (x % 8192) d true,
                             lastRun := s.ns }] })) ∧
    (let w (i : Nat) : Word := BitVec.ofNat 64 (s.mem.read (homeAt p (p.getX a) + 8 * i) 8)
     let cls := if fieldOf (w 1) 8 8 = 0 then Cls.s else if fieldOf (w 1) 0 2 = 0 then .s else if fieldOf (w 1) 0 2 = 1 then .v else .t
     let base := max (fieldOf (w 1) 3 2) (s.effCeil (fieldOf (w 1) 16 16))
     x < Config.localBytes → x % 64 = 0 → p.allowed s (p.getX a) 64 .rd = true → s.marks = [] → s.latent = [] →
     ((w 1).getLsbD 2 = true → p.priv = .s) → fieldOf (w 1) 16 16 = p.region → (s.region? p.region).isSome = true →
     s.inSubtree p.region p.region = true → fieldOf (w 1) 8 8 ≤ 32 → s.blockOk p w = true →
     s.diePresent (fieldOf (w 3) 0 3) = true → s.placements = [] → ∃ (q : Proc) (pl : Placement) (m : Member),
       exec (.spawn d a) s = .next (({ s with
         cpu := some (gives p (BitVec.ofNat 64 s.nextPid)), nextPid := s.nextPid + 1, nextId := s.nextId + 1
         procs := [q], placements := [pl] } : State).tryPlacement pl) ∧
       q.pid = s.nextPid ∧ q.st = .new ∧ q.region = p.region ∧ q.pc = w 0 ∧ q.cls = cls ∧ q.base = base ∧
       q.getX 2 = w 4 ∧ q.getX 3 = w 5 ∧ q.getX 4 = w 6 ∧ pl.members = [m] ∧ m.pid = s.nextPid ∧
       m.die = fieldOf (w 3) 0 3 ∧ m.clus = fieldOf (w 3) 4 2 ∧ m.first = fieldOf (w 3) 8 8 ∧
       m.last = fieldOf (w 3) 16 8)

/-- For a handle that passes its checks, among any other processes, none of which waits in an alternation: `bar.init`
of an object without arrivals sets COUNT, with ARRIVED and PHASE 0, or frees it, its PHASE kept, for a COUNT of 0;
`bar.arr`, with no access of the process under way, gives x[D] the PHASE as it was and counts the arrival, and the
last of COUNT arrivals sets ARRIVED to 0 and PHASE to the next; every process that waits for another phase than the
new one goes on, READY or PARKED without a wait, and the others stay as they were; `bar.wait` goes on when PHASE
differs from x[B] and else blocks with reason BARRIER. Other objects and all else stay. -/
def Obligations.Barriers : Prop :=
  ∀ (s : State) (p : Proc) (a b d : XIdx) (o : Barrier), s.cpu = some p → s.focus = p.core →
    let h := p.getX a
    let obj (x : Word) : Nat × Nat × Nat := (x.toNat / 1024 % 8, x.toNat / 256 % 4, x.toNat % 64)
    let key (t : State) (x : Word) := t.barrier? (obj x).1 (obj x).2.1 (obj x).2.2
    let others (t : State) : Prop := ∀ x : Word, obj x ≠ obj h → key t x = key s x
    /- Every process that waits at the object waits for a phase that is not ph. -/
    let goOn (t : State) (ph : BitVec 32) : Prop := ∀ n, n ≠ p.pid → match s.proc? n with
      | none => t.proc? n = none
      | some r => ∃ r', t.proc? n = some r' ∧ (match r.wait with
        | .barrier x old => if r.isBlocked = true ∧ obj x = obj h ∧ old ≠ ph then Resumes s r (some (.regs [])) r' else
          r' = r
        | _ => r' = r)
    let settled : Prop := (∀ r ∈ s.procs, r.pid ≠ p.pid ∧ r.loans = [] ∧ r.wait ≠ .alt ∧
      ∀ x old, r.wait = .barrier x old → obj x ≠ obj h → ∃ k, key s x = some k ∧ k.phase = old) ∧
      (s.procs.map (·.pid)).Nodup ∧ p.loans = [] ∧ s.loanMsgs = []
    (settled → s.barrierFault p h true = none → (p.getX b).toNat ≤ 65535 →
      (key s h = none ∨ key s h = some o ∧ o.arrived = 0) → ∃ t, exec (.barInit a b) s = .next t ∧
        t = { s with cpu := some (behind p 4), barriers := t.barriers, procs := t.procs, cores := t.cores } ∧ others t ∧
        ((p.getX b).toNat = 0 → key t h = (key s h).map fun k => { k with owner := none }) ∧
        ((p.getX b).toNat ≠ 0 → goOn t 0 ∧ ∃ n, key t h = some n ∧
          n.count = (p.getX b).toNat ∧ n.arrived = 0 ∧ n.phase = 0 ∧ n.owner = some p.region)) ∧
    (settled → s.barrierFault p h false = none → key s h = some o → (∀ q ∈ s.packets, q.pid ≠ p.pid) →
      let n : Barrier := if o.arrived + 1 = o.count then { o with arrived := 0, phase := o.phase + 1 }
        else { o with arrived := o.arrived + 1 }
      ∃ t, exec (.barArr d a) s = .next t ∧ key t h = some n ∧ others t ∧ goOn t n.phase ∧
        t = { s with cpu := some (behind (p.setX d (o.phase.setWidth 64)) 4), barriers := t.barriers, procs := t.procs
                     cores := t.cores }) ∧
    (s.barrierFault p h false = none → key s h = some o → (s.core p.core).early = [] →
      (o.phase ≠ (p.getX b).setWidth 32 → Completes (.barWait a b) s (behind p 4)) ∧
      (o.phase = (p.getX b).setWidth 32 → exec (.barWait a b) s = .next { s with
        cpu := none, procs := s.procs ++ [blockedAs s p .barrier (.barrier h o.phase)] }))

/-- For the one process of the machine: CHANNEL_ARRIVAL of its `recv` at an anchor with a queued message gives it the
message, and it is READY; SLEEP_EXPIRY makes a process READY whose time has come; PROBE_SEND sends a probe along its
wait edge once it has waited long enough; PROBE_ARRIVAL at the process that sent it, still blocked in the same wait
and not reported, reports the cycle, and at another blocked process of a greater PID it goes on along that one's edge.
-/
def Obligations.WaitEvents : Prop :=
  (∀ (s : State) (p : Proc) (c : Channel) (w : ChanWait) (k : Packet) (m : List Word) (rest : List (List Word)),
    Alone s p → p.st = .blocked .channel → p.wait = .chan w → w.op = .recv → w.moving = none → w.table = c.table →
    w.name = c.name → s.channels = [c] → c.kind = .word → c.ring = none → c.rx = boundTo p.pid → c.buf = true →
    c.tx.holder ≠ .proc p.pid → c.queue = m :: rest → s.packet? k.id = some k → k.path = .mesh →
    k.queued = false → (s.die k.dst).coreReset = false → s.coreTakes p.core = true → k.payload = .chan p.pid →
      ∃ t q, exec .channelArrival { s with subj := .id k.id } = .next t ∧ t.procs = [q] ∧
      Woken p (some (.regs (runOf w.d m))) q ∧ t.channels = [{ c with queue := rest }] ∧
      t.packets = s.packets.filter (·.id != k.id)) ∧
  (∀ (s : State) (p : Proc) (t : Word), Alone s p → p.st = .blocked .sleep → p.wait = .sleep t → t.toNat ≤ s.ns →
    s.subj = .id p.pid →
    ∃ q, exec .sleepExpiry s = .next { s with procs := [q] } ∧ Woken p (some (.regs [])) q) ∧
  (∀ (s : State) (p : Proc) (to_ : Nat), Alone s p → p.st = .blocked .channel → s.waitEdge p = some to_ →
    (p.probes + 1) * max (s.core p.core).probe.toNat 100 * 1000 ≤ s.ns - p.since →
    exec .probeSend { s with subj := .id p.pid } = .next { s with
      subj := .id p.pid, procs := [{ p with probes := p.probes + 1 }], nextId := s.nextId + 1
      probes := s.probes ++ [{ id := s.nextId, origin := p.pid, blockNo := p.blockNo, pids := [p.pid], tgt := to_ }] }) ∧
  (∀ (s : State) (p : Proc) (b : Probe), Alone s p → p.st = .blocked .channel → s.probes = [b] → b.tgt = p.pid →
    s.subj = .id b.id →
    (b.origin = p.pid → b.blockNo = p.blockNo → p.reported = false →
      exec .probeArrival s = .next (({ s with procs := [{ p with reported := true }], probes := [] } : State).reportCycle
        p b.pids)) ∧
    (∀ u, b.origin < p.pid → b.pids.length < 16 → s.waitEdge p = some u →
      exec .probeArrival s = .next { s with nextId := s.nextId + 1, probes :=
        [{ id := s.nextId, origin := b.origin, blockNo := b.blockNo, pids := b.pids ++ [p.pid], tgt := u }] }))

/-- Each `ms.*` request instruction, with its request block in the own memory and every check of Table 15.5 passed,
completes when its server has room: one request with the fields of the block joins the end of the requests, queued, on
its way to its server where that is on another die, and the process goes on; without room it blocks with reason
CHANNEL, and MS_REQUEST_ACCEPT completes it when there is room. Checks 2 to 5, in their order: a handle that is no
server's raises CH_TYPE 1, an absent server CH_BIND, a block at no multiple of 64 or outside the own memory MISALIGN,
one that no window grants WINDOW. `ms.stat` gives x[D] the count of its item: free contexts, queued requests, requests
completed, translation misses, requests failed. Nothing else changes. That a handle is read from bits 31:0 of its
register only is the model's choice (log 55), and so is that a request is a release, made while no access of the
process is under way (log 24). -/
def Obligations.ServerRequests : Prop :=
  (∀ (s : State) (p : Proc) (a b d : XIdx) (op : MsOp) (name : Nat), Issues s p → Quiet s p.core →
    (∀ q ∈ s.packets, q.pid ≠ p.pid) →
    let i : Instr := match op with
      | .get => .msGet a b | .put => .msPut a b | .gath => .msGath a b | .scat => .msScat a b | .fill => .msFill a b
      | .cas => .msCas a b
    let ea := p.getX a
    let h := p.getX b
    let w (k : Nat) : Word := BitVec.ofNat 64 (s.mem.read (homeAt p ea + 8 * k) 8)
    let sg := (w 0).toNat % 2 ^ 16
    let blk := blockOf w (entryAt (s.effSegtab p.region) sg) ((s.copied p.region sg).bind (·.2.2)) (s.coord p.core)
    let counted := op = .gath ∨ op = .scat
    let v := h.toNat % 2 ^ 32
    (v / 2 ^ 24 ≠ 4 → exec i s = .next ({ s with free := s.free + 2 }.raise p .chType (some 4) 0 1 h)) ∧
    (v / 2 ^ 24 = 4 → v % 2 ^ 24 ≠ 0xFFFFFF → s.serverPresent (v % 2 ^ 24) = false →
      s.sceneServer (v % 2 ^ 24) = false →
      ∃ d1, exec i s = .next ({ s with free := s.free + 2 }.raise p .chBind (some 4) 0
        (BitVec.ofNat 64 (v % 2 ^ 24)) d1)) ∧
    (s.serverCheck h true = .ok name → Config.localBytes ≤ ea.toNat ∨ ea.toNat % 64 ≠ 0 →
      exec i s = .next (s.raise p .misalign (some 4) ea 64 0)) ∧
    (s.serverCheck h true = .ok name → ea.toNat < Config.localBytes → ea.toNat % 64 = 0 →
      (p.allowed s ea 64 .rd = false → exec i s = .next (s.raise p .window (some 4) ea 64 0)) ∧
      (p.allowed s ea 64 .rd = true → s.marks = [] → s.latent = [] → s.blockCheck p op w name blk = none →
        ∃ sent : MsBlock, sent = { blk with loc := sent.loc, index := sent.index, compl := sent.compl } ∧
          sent.loc = (if op = .fill then 0 else s.homeAddr p.core ((w 3).toNat)) ∧
          (counted → sent.index = s.homeAddr p.core ((w 4).toNat)) ∧ (¬counted → sent.index = 0) ∧
          sent.compl = (if w 5 = 0 then 0 else s.homeAddr p.core ((w 5).toNat)) ∧
          sent.seg = (w 0).toNat % 2 ^ 16 ∧ sent.offset = (w 1).toNat % 2 ^ 48 ∧ sent.len = (w 2).toNat % 2 ^ 32 ∧
          sent.count = (w 2).toNat / 2 ^ 32 ∧ sent.val0 = w 6 ∧ sent.val1 = w 7 ∧
          (s.msRoom p.core blk name = true → ∃ (r : MsReq) (t : State), exec i s = .next t ∧ t.mem = s.mem ∧
            t.procs = s.procs ∧ t.cpu = some (behind p 4) ∧ r ∈ t.requests ∧ r.op = op ∧ r.blk = sent ∧ r.pid = p.pid ∧
            r.core = p.core ∧ r.phase = .queued ∧ r.next = 0 ∧ r.status = 0 ∧ r.front = entryServer p.core blk name ∧
            (r.travel = true ↔ dieOf p.core ≠ serverDie r.front) ∧ (r.travel = false →
              t = { s with cpu := some (behind p 4), nextId := s.nextId + 1, requests := s.requests ++ [r] })) ∧
          (s.msRoom p.core blk name = false → exec i s = .next { s with
            cpu := none, procs := s.procs ++ [blockedAs s p .channel (.ms op sent name)] }))) ∧
    (s.serverCheck h false = .ok name →
      let stat (item : BitVec 5) (v : Word) : Prop := Completes (.msStat d b item) s (behind (p.setX d v) 4)
      let at_ (queued : Bool) : Nat := (s.requests.filter fun r => r.front == name && (r.phase == .queued) == queued).length
      stat 0 (BitVec.ofNat 64 ((if name < 16 then 64 else 32) - at_ false)) ∧ stat 1 (BitVec.ofNat 64 (at_ true)) ∧
      stat 2 (s.server name).completed ∧ stat 3 (s.server name).misses ∧ stat 4 (s.server name).failed)) ∧
  (∀ (s : State) (p : Proc) (op : MsOp) (b : MsBlock) (name : Nat), Alone s p → p.st = .blocked .channel →
    p.wait = .ms op b name → (∀ g, b.far = some g → (s.group g).pers = persCxl) → s.msRoom p.core b name = true →
    dieOf p.core = serverDie (entryServer p.core b name) → s.subj = .id p.pid →
    ∃ q r, exec .msRequestAccept s = .next { s with
        procs := [q], nextId := s.nextId + 1, requests := s.requests ++ [r] } ∧
      Woken p (some (.regs [])) q ∧ r.op = op ∧ r.blk = b ∧ r.pid = p.pid ∧ r.phase = .queued)

/-- MS_CONTEXT_START: the oldest queued request of a server with a free context becomes active; one named `any` whose
page is translated goes to the queue of the server that owns its first byte. MS_TRANSLATION_REFILL: the page-table
entry of the missing page, if pinned, is cached and a miss counted. MS_PIECE, for a request of a far segment
CXL_MEM_COMPLETION: where server, stack and local side are of one die the next piece, to the end of its 4,096-byte
granule, is made without conversion: `ms.get` copies the bytes of the segment to the local side and sets its words
full, `ms.put` the bytes of the local side to the segment, `ms.fill` writes the pattern; no other byte changes.
MS_COMPLETION: a request whose pieces are over ends, the server counts it, and its completion word takes the bytes
written, or 2^63 + status × 2^48 + bytes written, and is full. -/
def Obligations.ServerWork : Prop :=
  ∀ (s : State) (r : MsReq), s.request? r.id = some r →
    let put (q : MsReq) : List MsReq := s.requests.map fun x => if x.id = r.id then q else x
    let seg := s.reqSegment r
    (∀ n, (s.requests.find? fun q => q.front == n && q.phase == .queued && !q.stopped && !q.travel) = some r →
      (r.any = false → (s.requests.filter fun q => q.front == n && q.phase != .queued).length < contexts n →
        exec .msContextStart { s with subj := .id n } =
          .next { s with subj := .id n, requests := put { r with phase := .active } }) ∧
      (∀ e, r.any = true → s.cached n r.blk.entry (r.blk.offset / 2 ^ 21) = some e → pinned e = true →
        let own := s.pkg.stackOf (pageAddr seg e (r.blk.offset % 2 ^ 21))
        (own = n → exec .msContextStart { s with subj := .id n } =
          .next { s with subj := .id n, requests := put { r with any := false } }) ∧
        (own ≠ n → (s.requests.filter fun q => q.front == own && q.phase == .queued).length < 1024 →
          s.stackPresent own = true → r.travel = false →
            ∃ t q, exec .msContextStart { s with subj := .id n } = .next t ∧
          q ∈ t.requests ∧ q = { r with any := false, front := own, travel := decide (r.die ≠ serverDie own) } ∧
          (q.travel = false → t = { s with subj := .id n, requests := s.requests.filter (·.id != r.id) ++ [q] })))) ∧
    (∀ pg, s.missing r = some pg → s.subj = .id r.id →
      let e : Word := BitVec.ofNat 64 (s.mem.read (seg.xlat + 8 * pg) 8)
      e.getLsbD 63 = true → ∃ t, exec .msTranslationRefill s = .next t ∧ t = { s with servers := t.servers } ∧
        t.cached r.front r.blk.entry pg = some e ∧ (t.server r.front).misses = (s.server r.front).misses + 1) ∧
    (Calm s → s.pieceReady r = true → r.stage = .route → r.die = serverDie r.front → s.subj = .id r.id →
      r.blk.conv = 0 →
      r.blk.len % 8 = 0 → r.blk.offset % 8 = 0 → r.next % 8 = 0 → r.blk.loc % 8 = 0 →
      let i : Instr := if seg.isFar = true then .cxlMemCompletion else .msPiece
      let o := r.blk.offset + r.next
      let n := min (r.blk.len - r.next) (4096 - o % 4096)
      let pa := s.physical r o
      let loc := r.blk.loc + r.next
      let key := if seg.isFar = true then farKey seg.group pa else s.pkg.hbmKey pa
      let get (t : State) (a : Nat) : Byte := if seg.isFar = true then t.far.get a else t.hbm.get a
      let after := put { r with next := r.next + n, written := r.written + n, part := (o, pa, n), data := [] }
      let toSegment (f : Nat → Byte) : Prop := ∃ t, exec i s = .next t ∧
        t = { s with hbm := t.hbm, far := t.far, requests := after } ∧
        (if seg.isFar = true then t.hbm = s.hbm else t.far = s.far) ∧
        (∀ k, k < n → get t (key + k) = f k) ∧ ∀ x, x < key ∨ key + n ≤ x → get t x = get s x
      (seg.isFar = true ∨ s.stackPresent (s.pkg.stackOf pa) = true ∧ s.pkg.stackOf pa / 2 = r.die) →
      (r.op = .fill → toSegment fun k => BitVec.ofNat 8 (r.blk.val0.toNat / 256 ^ (k % 8))) ∧
      (r.op = .put → s.homeGone r.blk.loc = false → homeDie r.blk.loc = r.die →
        toSegment fun k => s.mem.get (loc + k)) ∧
      (r.op = .get → r.carry = none → s.homeGone r.blk.loc = false →
          (∀ k, k < n → 0x4000000000 ≤ loc + k ∧ s.homeGone (loc + k) = false ∧ homeDie (loc + k) = r.die) →
        ∃ t, exec i s = .next t ∧
          t = { s with mem := t.mem, empty := t.empty, nextId := s.nextId + n / 8, requests := after } ∧
          (∀ k, k < n → t.mem.get (loc + k) = get s (key + k)) ∧
          (∀ x, x < loc ∨ loc + n ≤ x → t.mem.get x = s.mem.get x) ∧
          ∀ w, w % 8 = 0 → t.isFull w = if loc ≤ w ∧ w < loc + n then true else s.isFull w)) ∧
    (Calm s → r.over = true → r.phase ≠ .completing → r.carry = none → s.engineBusy r.id = false →
      s.diePresent (serverDie r.front) = true → s.subj = .id r.id →
      let c := r.blk.compl
      let value := if r.status = 0 then r.written else 2 ^ 63 + r.status * 2 ^ 48 + r.written
      (c = 0 ∨ 0x4000000000 ≤ c ∧ c % 8 = 0 ∧ homeDie c = serverDie r.front ∧ s.homeGone c = false) →
      ∃ t, exec .msCompletion s = .next t ∧
        t = { s with requests := s.requests.filter (·.id != r.id), servers := t.servers, mem := t.mem, empty := t.empty
                     nextId := t.nextId } ∧
        (t.server r.front).completed = (s.server r.front).completed + 1 ∧
        (t.server r.front).failed = (s.server r.front).failed + (if r.status = 0 then 0 else 1) ∧
        (c = 0 → t.mem = s.mem ∧ t.empty = s.empty) ∧
        (c ≠ 0 → t.word c = BitVec.ofNat 64 value ∧ t.isFull c = true ∧
          ∀ x, x < c ∨ c + 8 ≤ x → t.mem.get x = s.mem.get x))

/-- On a core without other processes than named: DISPATCH runs the READY process, its preserved registers as they
were and the others zero, its pc the bits that a slot keeps, with what its ended wait left for its registers; of two,
it runs the one of the more urgent class. PREEMPTION_HALT puts the running process back READY. QUANTUM_EXPIRY renews
the quantum, or asks for a halt where another of the class is ready. CLASS0_RELEASE renews budget and deadline;
BUDGET_EXHAUSTED reports and demotes the running process. GHOST_LIGHT_WINDOW starts a count of 0,
GHOST_LIGHT_ALLOWANCE_END ends the ghost light's turn, with a halt where a more urgent process is ready. SPILL_DONE
parks the victim, FILL_DONE makes the process READY in the green room. Nothing else changes. -/
def Obligations.SchedulerEvents : Prop :=
  (∀ (s : State) (p r : Proc), s.cpu = none → s.focus = p.core → s.coreLive p.core = true → p.st = .ready →
    p.loc = .green → p.eff ≤ 3 → p.loans = [] → s.subj = .id p.core →
    (s.procs = [p] → ∃ t, exec .dispatch s = .next t ∧ (t.core p.core).halt = none ∧
      let q : Proc := { p.switchIn with st := .running, ran := true }
      (∀ x : XIdx, q.getX x = if p.keeps x.toNat = true then p.getX x else 0) ∧ q.pc = p.pc &&& 0xFFFFFFFFFE ∧
        q.fpflags = p.fpflags ∧
      let u : State := s.dropLoads p.pid
      (p.done = none → t = { u with cpu := some q, procs := [], cores := t.cores }) ∧
      (∀ ws, p.done = some (.regs ws) → t = { u with
        cpu := some (behind ({ q with done := none }.setRun ws) 4), procs := [], cores := t.cores })) ∧
    (s.procs = [p, r] ∨ s.procs = [r, p] → r.st = .ready → r.core = p.core → r.pid ≠ p.pid → r.loans = [] →
      p.eff < r.eff → r.eff < 3 → p.done = none → ∃ t q, exec .dispatch s = .next t ∧ t.cpu = some q ∧ q.pid = p.pid ∧
        t.procs = [r])) ∧
  (∀ (s : State) (p r : Proc), s.cpu = some p → s.focus = p.core → p.st = .running → p.wait = .none → p.loans = [] →
    s.loanMsgs = [] → (∀ q ∈ s.packets, q.pid ≠ p.pid) → s.subj = .id p.core → r.core = p.core → r.st = .ready →
    r.loc = .green →
    let k := s.core p.core
    (∀ h, k.halt = some h → s.procs = [] → ∃ t q, exec .preemptionHalt s = .next t ∧
      t = { s with cpu := none, procs := [q], cores := t.cores } ∧ (t.core p.core).halt = none ∧
      q = { p with st := .ready, key := q.key, quantum := if h = .quantum then k.quant else p.quantum, lastRun := s.ns
                   tile := none, tdone := 0 }) ∧
    (p.eff ≠ 0 → p.quantum = 0 → k.halt = none → k.ghostRun = false →
      (s.procs = [] → Completes .quantumExpiry s { p with quantum := k.quant }) ∧
      (s.procs = [r] → r.eff = p.eff → ∃ t, exec .quantumExpiry s = .next t ∧ t = { s with cores := t.cores } ∧
        (t.core p.core).halt = some .quantum)) ∧
    (p.base = 0 → p.dem = false → p.budget.toInt ≤ 0 → s.procs = [] →
      (s.recordVia p.priv p.region).bind s.faultChan = none → ∃ t q n, exec .budgetExhausted s = .next t ∧
      t = { s with cpu := none, procs := [q], cores := t.cores, free := s.free + 2, mailbox := s.mailbox ++ [n]
                   errorRings := t.errorRings } ∧
      n.cause = .budget ∧ n.held = false ∧ n.pid = p.pid ∧ n.region = p.region ∧ n.pc = p.pc ∧
      q = { p with st := .ready, dem := true, eff := max 1 (s.effCeil p.region), inh := false, key := q.key
                   quantum := k.quant, lastRun := s.ns, tile := none, tdone := 0 }) ∧
    (1024 ≤ s.ghostCount p.core → k.halt = none → k.ghostRun = true → ∃ t, exec .ghostLightAllowanceEnd s = .next t ∧
      t = { s with cores := t.cores } ∧ (s.procs = [] → (t.core p.core).ghostRun = false ∧
        (t.core p.core).halt = none) ∧
      (s.procs = [r] → r.eff < p.eff → (t.core p.core).halt = some .ghost))) ∧
  (∀ (s : State) (p : Proc), Alone s p → s.subj = .id p.pid → p.placed = true → p.base = 0 → p.release ≤ s.ns →
    ∃ q, exec .class0Release s = .next { s with procs := [q] } ∧
      q = { p with budget := BitVec.ofNat 64 p.fullBudget, deadline := BitVec.ofNat 64 (p.release + p.period)
                   release := p.release + p.period, dem := false, eff := 0, inh := false, key := q.key
                   quantum := q.quantum }) ∧
  (∀ (s : State) (c : Nat), s.runningOn c = none → s.subj = .id c → (s.core c).window ≠ s.cycleOf c / 65536 →
    ∃ t, exec .ghostLightWindow s = .next t ∧ t = { s with cores := t.cores } ∧ (t.core c).ghost = 0 ∧
      (t.core c).window = s.cycleOf c / 65536 ∧ ∀ d, d ≠ c → t.core d = s.core d) ∧
  (∀ (s : State) (p v : Proc) (c : Nat), s.nextFill c = some p → s.fits c p.cls.units = false →
    s.victim c p.eff = some v → s.parkFits c v = true → s.subj = .id c →
    (∀ r, v.st = .blocked r → exec .spillDone s = .next (s.putProc { v with loc := .park, st := .parked (some r) })) ∧
    (v.st = .ready → exec .spillDone s = .next (s.putProc { v with loc := .park, since := s.ns, st := .parked none })) ∧
    (v.st = .faulted → exec .spillDone s = .next (s.putProc { v with loc := .park }))) ∧
  (∀ (s : State) (p : Proc), Alone s p → p.st = .parked none → p.loc = .park → p.wait = .none → s.subj = .id p.core →
    ∃ q, exec .fillDone s = .next { s with procs := [q] } ∧
      q = { p with st := .ready, loc := .green, key := q.key, quantum := (s.core p.core).quant })

/-- FAULT_RECORD_SEND: the first record of a core's queue leaves it for its endpoint, where it is the last message,
with a packet to the die of its anchor where that is another or an earlier message is still on its way, or for the
mailbox where there is no endpoint. FAULT_REPLY: the device takes the oldest message of a reply endpoint, which the
PID of its sender follows, and a packet takes it to the die of the process that it names; there, for a FAULTED process
of the supervisor's subtree it makes the return of R59, RESUME or SKIP with x3 written when SETX, or ends a U process;
a reply to no such process counts in DROPS. MONITOR_REPLY answers any FAULTED process, whose record leaves the
mailbox, and ends a region. The return itself, here of a process whose context is in the park area: the fault is over,
the process READY, its context still to be filled (log 45); RESUME leaves the pc, SKIP moves it by the length that was
kept with the fault, SETX writes x3, and no other register changes. -/
def Obligations.FaultMessages : Prop :=
  (∀ (s : State) (n : Nat) (r : Record) (rest : List Record), n < 8192 → s.cpu = none → s.procs = [] →
    (s.core n).records = r :: rest → s.subj = .id n →
    (r.via = none → ∃ t, exec .faultRecordSend s = .next t ∧ (t.core n).records = rest ∧
      t = { s with cores := t.cores, mailbox := s.mailbox ++ [r], errorRings := t.errorRings }) ∧
    (∀ v c, r.via = some v → s.faultChan v = some c → s.channels = [c] → s.slotFree v c = true →
      ∃ t, exec .faultRecordSend s = .next t ∧ (t.core n).records = rest ∧
        (c.table / 2 ^ 32 % 8 = dieOf n → s.framesTo c = 0 →
          t = { s with cores := t.cores, channels := [{ c with queue := c.queue ++ [r.words] }] }) ∧
        (c.table / 2 ^ 32 % 8 ≠ dieOf n ∨ s.framesTo c ≠ 0 → t.channels = [c] ∧
          ∃ k ∈ t.packets, k.payload = .frame c.table c.name 0 r.words ∧ k.dst = c.table / 2 ^ 32 % 8))) ∧
  (∀ (s : State) (p : Proc) (c : Channel) (w0 w1 w2 : Word) (rest : List (List Word)), Alone s p → p.wait = .none →
    s.channels = [c] → c.queue = [w0, w1, w2] :: rest → c.rx.holder = .device → c.rx.st = .bound → c.outside = .none →
    s.subj = .pair c.table c.name →
    let t : State := { s with channels := [{ c with queue := rest }] }
    let setx := if w0.getLsbD 34 = true then some w1 else none
    let top := s.supervisorRegion c [w0, w1, w2]
    let act := w0.toNat / 2 ^ 32 % 4
    let die := placeDie (s.anchorPlace c)
    (w0.toNat % 2 ^ 32 = p.pid → dieOf p.core ≠ die → s.diePresent (dieOf p.core) = true → ∃ k,
      exec .faultReply s = .next { t with packets := s.packets ++ [k], nextId := s.nextId + 1 } ∧
      k.payload = .faultReply (some top) w0 w1 ∧ k.src = die ∧ k.dst = dieOf p.core ∧ k.path = .fabric) ∧
    (w0.toNat % 2 ^ 32 = p.pid → p.st = .faulted → s.inSubtree top p.region = true → w0.toNat / 2 ^ 35 = 0 →
      dieOf p.core = die →
      (act = 0 → exec .faultReply s = .next (t.faultReturn p none setx)) ∧
      (∀ n, act = 1 → p.fault.bind (·.len) = some n → exec .faultReply s = .next (t.faultReturn p (some n) setx)) ∧
      (act = 2 → p.priv = .u → p.rsvs = [] → ∃ u q, exec .faultReply s = .next u ∧ u.procs = [q] ∧ q.pid = p.pid ∧
        q.st = .exited ∧ q.ending = .replyEnd)) ∧
    (w0.toNat % 2 ^ 32 ≠ p.pid ∨ dieOf p.core = die ∧ (p.st ≠ .faulted ∨ s.inSubtree top p.region = false) →
      exec .faultReply s = .next (t.dropReply top))) ∧
  (∀ (s : State) (p : Proc) (w0 w1 : Word), Alone s p → s.subj = .monitor (.reply w0 w1) → p.st = .faulted →
    dieOf p.core = 0 → w0.toNat % 2 ^ 32 = p.pid → w0.toNat / 2 ^ 35 = 0 → w0.toNat / 2 ^ 32 % 4 = 0 →
      ∃ t, exec .monitorReply s = .next t ∧
      t = { s.faultReturn p none (if w0.getLsbD 34 = true then some w1 else none) with mailbox := t.mailbox } ∧
      t.mailbox = s.mailbox.filter fun r => !(r.held && r.pid == p.pid)) ∧
  (∀ (s : State) (n : Nat) (r : Region), s.subj = .monitor (.endRegion n) → s.region? n = some r → r.ended = false →
    s.cpu = none → s.procs = [] → ∃ t u, exec .monitorReply s = .next t ∧ t.region? n = some u ∧ u.ended = true) ∧
  (∀ (s : State) (p : Proc) (skip : Option Nat) (setx : Option Word), s.cpu = none → s.procs = [p] → p.loc = .park →
    ∃ q, (s.faultReturn p skip setx).procs = [q] ∧ q.st = .ready ∧ q.loc = .park ∧ q.fault = none ∧ q.pid = p.pid ∧
      q.pc = p.pc + BitVec.ofNat 64 (skip.getD 0) ∧
      (∀ r : XIdx, q.getX r = if r = 3 ∧ setx.isSome = true then setx.getD 0 else p.getX r) ∧
      q.v = p.v ∧ q.p = p.p ∧ q.acc = p.acc ∧ q.fpflags = p.fpflags ∧ q.fpmode = p.fpmode ∧
      (s.faultReturn p skip setx).mem = s.mem)

/-- PLACEMENT_COMMIT of a spawn's one member whose core can take it: the process is READY there, in the green room,
and the RESULT word takes its PID. PLACEMENT_TIMEOUT, when it can still not be placed: the process is EXITED without
having run and RESULT takes 2^63 + 2^48 + 1. PLACEMENT_COMPACTION moves a READY process of the region to the core
given, where its fill is pending, or sends it there with a packet where that core is on another die. PRIORITY_LOAN
gives the borrower the class of the loan, not above its ceiling. MIGRATION: the process that `migr` took from its core
stands on the target core, its fill pending and `migr` to complete with 0, once a packet has brought it where that
core is on another die, or with 3 on its own core when the target's die is absent. Nothing else changes. -/
def Obligations.PlacementEvents : Prop :=
  (∀ (s : State) (p : Proc) (pl : Placement) (m : Member), Alone s p → s.channels = [] → s.placements = [pl] →
    pl.members = [m] → pl.gcount ≤ 1 → pl.thread = none → m.pid = p.pid → m.first = m.last → p.st = .new → p.base ≠ 0 →
    p.rsvs = [] → s.packets = [] → Calm s → s.subj = .id pl.id → (s.die m.die).coreReset = false →
    (m.result = 0 ∨ 0x4000000000 ≤ m.result ∧ m.result % 8 = 0 ∧ homeDie m.result = 0 ∧ s.homeGone m.result = false) →
    let c := coreOf m.die m.clus m.first
    let wrote (t : State) (v : Nat) : Prop := (m.result = 0 → t.mem = s.mem ∧ t.empty = s.empty) ∧
      (m.result ≠ 0 → t.word m.result = BitVec.ofNat 64 v ∧ t.isFull m.result = true ∧
        ∀ x, x < m.result ∨ m.result + 8 ≤ x → t.mem.get x = s.mem.get x)
    (s.coreTakes c = true → s.budgetsOk c p = true → ∃ t q, exec .placementCommit s = .next t ∧ wrote t p.pid ∧
      t = { s with procs := [q], placements := [], mem := t.mem, empty := t.empty, nextId := t.nextId } ∧
      q = { p with st := .ready, loc := .green, core := c, since := s.ns, eff := q.eff, inh := q.inh, key := q.key
                   quantum := (s.core c).quant }) ∧
    (s.coreTakes c = false → s.placeLimit pl ≤ s.ns - pl.t0 → ∃ t q, exec .placementTimeout s = .next t ∧
      wrote t (2 ^ 63 + 2 ^ 48 + 1) ∧ t.procs = [q] ∧ t.placements = [] ∧ q.pid = p.pid ∧ q.st = .exited ∧
      q.ending = .neverRan)) ∧
  (∀ (s : State) (p : Proc) (pl : Placement) (c : Nat), Alone s p → s.channels = [] → s.packets = [] →
    s.transfers = [] → s.requests = [] → s.placements = [pl] → pl.compacted = false →
      s.placeLimit pl ≤ (s.ns - pl.t0) * 2 →
    s.subj = .moves pl.id [(p.pid, c)] → p.st = .ready → p.wait = .none → p.region = pl.region → p.image = none →
    p.core ≠ c → p.moving = none →
    let u : State := { s with placements := [{ pl with compacted := true }] }
    u.canMove c p = true → u.canAdmit c p = true →
      (dieOf c = dieOf p.core → exec .placementCompaction s = .next { u with procs :=
        [{ p with st := .parked none, loc := .park, core := c, since := s.ns, eff := s.ownCls p, inh := false }] }) ∧
      (dieOf c ≠ dieOf p.core → ∃ k, exec .placementCompaction s = .next { u with
          packets := [k], nextId := s.nextId + 1
          procs := [{ p with st := .parked none, loc := .park, since := s.ns, moving := some c }] } ∧
        k.payload = .move p.pid ∧ k.dst = dieOf c)) ∧
  (∀ (s : State) (l p : Proc) (m : LoanMsg), s.cpu = none → s.procs = [l, p] → l.pid ≠ p.pid → l.loans = [] →
    p.loans = [] → s.loanMsgs = [m] → m.lender = l.pid → m.tgt = p.pid → l.isBlocked = true → p.st = .ready →
    p.wait = .none → m.cls ≠ 0 → s.subj = .id m.id →
    let own := s.ownCls p
    let e := max (min own m.cls) (s.effCeil p.region)
    ∃ q, exec .priorityLoan s = .next { s with procs := [l, q], loanMsgs := [] } ∧
      q = { p with loans := [{ lender := l.pid, cls := m.cls, deadline := m.deadline, hop := m.hop }]
                   eff := if own ≤ e then own else e, inh := decide (e < own), key := q.key, quantum := q.quantum }) ∧
  (∀ (s : State) (p : Proc) (c : Nat) (d : XIdx) (self : Bool), Alone s p → s.channels = [] → s.transfers = [] →
    s.requests = [] → p.image = none → p.st = .parked none → p.wait = .migrating c d self → s.subj = .id p.pid →
    let q (k : Word) : Proc := { p with wait := .none, done := some (.regs [(d, k)]), since := s.ns }
    let there : State := { s with packets := [], procs := [{ q 0 with
      core := c, loc := .park, eff := s.ownCls p, inh := false }] }
    (s.packets = [] → s.coreTakes c = true → dieOf c = dieOf p.core → exec .migration s = .next there) ∧
    (s.packets = [] → s.coreTakes c = true → dieOf c ≠ dieOf p.core → ∃ k, exec .migration s =
      .next { s with packets := [k], nextId := s.nextId + 1 } ∧ k.payload = .move p.pid ∧ k.dst = dieOf c) ∧
    (∀ k, s.packets = [k] → k.payload = .move p.pid → k.path = .mesh → s.coreTakes c = true →
      exec .migration s = .next there) ∧
    (s.packets = [] → s.diePresent (dieOf c) = false → exec .migration s = .next { s with procs := [q 3] }))

/-- HEARTH_ARRIVAL gives a stamped packet an entry, or refuses it where there is none; LINK_RESEND sends it again 64
of its die's cycles later. CAUSAL_DELIVERY of a ready write: the destination's state merges the stamp, the count of
packets delivered from its source goes up by one modulo 4,096, and the bytes are written. COLUMN_FLIT_SEND sends what
a die has delivered and knows; COLUMN_FLIT_RECEIVE takes it, the acknowledged count moving only to a later one.
RECLOCK_END goes through isolating, stopped and draining, where it stays until every pair of dies agrees, to zeroing,
and at its end the masks lose the removed die and every present die's causal state is zero. CORE_DOMAIN_RESET ends the
process on the die, with a LINK notification; CORE_DOMAIN_RESET_END clears its local memories and loft and its core
registers; UNCORE_RESET of an absent die starts a reclock. That the cycle count is 0 after a core-domain reset and
that the column flits are gone at the end of a reclock are the model's choices (log 35). -/
def Obligations.FabricEvents : Prop :=
  (∀ (s : State) (q : Packet) (st : Stamp) (w : WriteEff), s.packet? q.id = some q → q.stamp = some st →
    s.subj = .id q.id →
    let change (r : Packet) : State := { s with packets := s.packets.map fun x => if x.id = q.id then r else x }
    let unique := ∀ x ∈ s.packets, x.id = q.id → x = q
    (unique → s.underWay q = true → q.refused = none → exec .hearthArrival s = .next (change (
      match s.hearthEntry q st with
      | some b => { q with held := true, shared := b }
      | none => { q with refused := some s.time }))) ∧
    (∀ t, unique → s.underWay q = true → q.refused = some t → t + 64 * (s.die q.src).ccUnits ≤ s.time →
      exec .linkResend s = .next (change { q with refused := none })) ∧
    (q.held = true → s.packetReady (s.die q.dst) st = true → q.payload = .write w → q.broken = false → Calm s →
      s.homeGone w.addr = false → ∃ t, exec .causalDelivery s = .next t ∧
        t.packets = s.packets.filter (·.id != q.id) ∧
        t.dies = s.dies.map (fun e => if e.num = (s.die q.dst).num then (s.die q.dst).merge st else e) ∧
        (∀ k, k < w.n → t.mem.get (w.addr + k) = BitVec.ofNat 8 (w.val / 256 ^ k)) ∧
        ∀ b, b < w.addr ∨ w.addr + w.n ≤ b → t.mem.get b = s.mem.get b)) ∧
  (∀ (e : Die) (st : Stamp), addrsOk (e.know.map (·.1)) = true → st.deltas = [] →
    (e.merge st).deliv st.src = (e.deliv st.src + 1) % 4096) ∧
  (∀ (s : State) (x y : Nat), x ≠ y → s.diePresent x = true → s.diePresent y = true →
    (s.die x).flitDue y s.time = true →
    s.subj = .pair x y →
    let own := (List.range 8).map (s.die x).deliv
    let f : Flit := { id := s.nextId, src := x, dst := y, own := own
                      echo := (List.range 8).map fun k => (s.die x).knows k y }
    ∃ t, exec .columnFlitSend s = .next t ∧
      t = { s with dies := t.dies, nextId := s.nextId + 1, flits := s.flits ++ [f] }) ∧
  (∀ (s : State) (f : Flit), s.flits = [f] → s.diePresent f.src = true → s.diePresent f.dst = true → s.subj = .id f.id →
    let e := (s.die f.dst).takeFlit f.src f.own f.echo
    let old := (s.die f.dst).acked f.src
    let new := f.own.getD (s.die f.dst).num 0
    exec .columnFlitReceive s = .next ({ s with flits := [] }.putDie e) ∧
    (addrsOk ((s.die f.dst).ack.map (·.1)) = true →
      e.acked f.src = if 1 ≤ (new + 4096 - old) % 4096 ∧ (new + 4096 - old) % 4096 ≤ 2047 then new else old)) ∧
  (∀ (s : State) (r : Reclock), s.reclock = some r →
    let goes (k : Nat) : Prop := exec .reclockEnd s = .next { s with reclock := some { r with phase := k } }
    (r.phase = 4 → goes 1) ∧ (r.phase = 1 → goes 2) ∧
      (r.phase = 2 → (s.reclockDrained = true → goes 3) ∧ (s.reclockDrained = false → goes 2))) ∧
  (∀ (s : State) (a : Nat), a < 8 → s.reclock = some { removed := [a], joining := [], phase := 3 } →
    s.affected = [] → s.threads = [] → ∃ t, exec .reclockEnd s = .next t ∧
      t = { s with pkg := t.pkg, reclock := none, flits := [], dies := t.dies } ∧ t.pkg.dieMask.getLsbD a = false ∧
      (∀ b, b < 8 → b ≠ a → t.pkg.dieMask.getLsbD b = s.pkg.dieMask.getLsbD b) ∧
      ∀ d ∈ t.dies, t.pkg.dieMask.getLsbD d.num = true → d.know = [] ∧ d.ship = [] ∧ d.ack = [] ∧ d.echo = []) ∧
  (∀ (s : State) (p : Proc) (a : Nat), Alone s p → a < 8 → dieOf p.core = a → p.placed = true → p.rsvs = [] →
    s.channels = [] → s.packets = [] → s.requests = [] → s.transfers = [] → (s.die a).coreReset = false →
    (∃ d ∈ s.dies, d.num = a) → s.subj = .id a → ∃ t q n, exec .coreDomainReset s = .next t ∧ t.procs = [q] ∧
      q.pid = p.pid ∧ q.st = .exited ∧ q.ending = .dieLost ∧ (t.die a).coreReset = true ∧ t.mem = s.mem ∧
      t.mailbox = s.mailbox ++ [n] ∧ n.cause = .link ∧ n.region = p.region) ∧
  (∀ (s : State) (a : Nat), (s.die a).coreReset = true → s.subj = .id a → ∃ t, exec .coreDomainResetEnd s = .next t ∧
    (∀ x, t.mem.get x = if homeDie x = a then 0 else s.mem.get x) ∧ (t.die a).coreReset = false ∧
    (t.die a).cycle = 0 ∧ (∀ w, t.isFull w = if homeDie w = a then true else s.isFull w) ∧
    ∀ c, dieOf c = a → (t.core c).psize = 4 ∧ (t.core c).quantum = 0x1000 ∧ (t.core c).probe = 0x3E8) ∧
  (∀ (s : State) (a : Nat), a < 8 → s.pkg.dieMask.getLsbD a = false → s.reclock = none → s.subj = .id a →
    exec .uncoreReset s = .next { s.putDie { s.die a with
        know := [], ship := [], ack := [], echo := [], flits := [], uncoreReset := true, reclocks := 0 } with
      reclock := some { removed := [], joining := [] } })

/-- Each event of a scene change, in its state: the end of BLOCK sends the outside ends IN_TRANSIT and begins DRAIN;
DRAIN ends when nothing is open, or at its limit with the requests open on the group failed; UNMAP takes map, flows
and valid keys away and asks for the edge lock, or goes on to RELEASE for a target of DOWN; the grant begins TRAIN;
trained lanes, or at the limit the widest width they allow, begin LINKUP with the target's personality, and the lock
is free; LINKUP installs the map and begins RELEASE, which ends the change. EDGE_GROUP_RETRAIN counts a retrain. A
clock step asks for the lock, changes the clock when it has it, and gives it back; a second step asked for while one
waits gives the waiting one its clock. UALINK_DOMAIN_FORMED sets the package number. Nothing else changes. What UNMAP
takes away and which retrain is counted are log 34, a step between any two listed clocks and the one step at a time
log 16, the model's choices both. -/
def Obligations.SceneChanges : Prop :=
  ∀ (s : State) (g : Nat) (c : Scene),
    let x := s.group g
    let entered : Option Scene := some { c with entered := s.ns }
    let now (i : Instr) (y : Group) : Prop := exec i s = .next (s.putGroup y)
    (x.scene = some c → s.subj = .id g →
      (x.sc = 1 → s.channels = [] → now .sceneBlockDone { x with sc := 2, scene := entered }) ∧
      (∀ k n, x.sc = 1 → s.channels = [k] → k.outside = .flow g n → k.rx.holder = .device → k.tx.holder ≠ .device →
        k.rx.st = .bound → s.cpu = none → s.procs = [] → exec .sceneBlockDone s = .next { s.putGroup { x with
          sc := 2, scene := entered } with channels := [{ k with rx := { k.rx with st := .inTransit, scn := true } }] }) ∧
      (x.sc = 2 → s.drained g = true → now .sceneDrainEnd { x with sc := 3, scene := entered }) ∧
      (x.sc = 2 → c.entered + 1000000 ≤ s.ns → s.packets = [] → x.flows = [] → exec .sceneDrainTimeout s = .next {
        s.putGroup { x with sc := 3, scene := entered } with
          requests := s.requests.map fun r => if r.front = 16 + g then r.fail .link true else r }) ∧
      (x.sc = 3 → (s.die (g / 2)).locks (.scene g) = false →
        let keys := x.keys.map fun k => if k.valid = true then { k with valid := false, freedAt := some s.ns } else k
        let y : Group := { x with umap := [], flows := [], keys := keys }
        let w : State := { s with servers := s.servers.map fun (v : Server) =>
          if v.name = 16 + g then { v with cache := [] } else v }
        (x.target = 0 → exec .sceneUnmapDone s = .next (w.putGroup { y with
          pers := 0, width := 0, split := false, laneup := 0, sc := 6, scene := entered })) ∧
        (x.target ≠ 0 → exec .sceneUnmapDone s = .next ((w.putGroup y).putDie
          { s.die (g / 2) with lockQ := (s.die (g / 2)).lockQ ++ [(.scene g, s.ns)] }))) ∧
      (x.sc = 5 → c.map = 0 → now .sceneLinkupDone { x with sc := 6, scene := entered }) ∧
      (x.sc = 5 → c.map ≠ 0 → x.pers = 2 → now .sceneLinkupDone { x with
        umap := (List.range 8).map fun j => BitVec.ofNat 64 (s.mem.read (c.map + 8 * j) 8), sc := 6,
          scene := entered }) ∧
      (x.sc = 6 → s.channels = [] → s.threads = [] →
        now .sceneReleaseDone { x with sc := 0, target := x.pers, scene := none })) ∧
    (∀ lanes : BitVec 8, s.subj = .train g lanes →
      let free := { s.die (g / 2) with lock := none }
      (x.scene = some c → x.sc = 4 → covers lanes (widthLanes c.width) = true →
        exec .sceneTrainDone s = .next ((s.putGroup { x with
          pers := x.target, width := if c.width = 4 then 4 else 8, split := c.width == 12, laneup := widthLanes c.width,
          sc := 5, scene := entered }).putDie free)) ∧
      (x.scene = some c → x.sc = 4 → c.entered + (if x.target = 1 then 200000 else 80000) ≤ s.ns → c.width = 8 →
        (covers lanes 0xFF = false → covers lanes 0x0F = true → ∃ t n, exec .sceneTrainTimeout s = .next t ∧
          t = { (s.putGroup { x with pers := x.target, width := 4, split := false, laneup := 0x0F, sc := 5,
                                     scene := entered }).putDie free with
                mailbox := s.mailbox ++ [n], errorRings := t.errorRings } ∧
          n.cause = .link ∧ n.d0 = BitVec.ofNat 64 g ∧ n.d1 = 4) ∧
        (covers lanes 0x0F = false → ∃ t n, exec .sceneTrainTimeout s = .next t ∧
          t = { (s.putGroup { x with pers := 0, width := 0, split := false, laneup := 0, target := 0, sc := 5,
                                     scene := some { c with entered := s.ns, map := 0 } }).putDie free with
                mailbox := s.mailbox ++ [n], errorRings := t.errorRings } ∧
          n.cause = .link ∧ n.d0 = BitVec.ofNat 64 g ∧ n.d1 = 0)) ∧
      (x.sc = 0 → x.pers ≠ 0 → covers lanes x.laneup = true →
        now .edgeGroupRetrain { x with retrains := min (x.retrains + 1) 255 })) ∧
    (∀ (n mhz m : Nat) (u : LockUser), let d := s.die n
      (s.subj = .id n → d.lock = none → d.lockQ = [(u, m)] →
        let t := s.putDie { d with lock := some u, lockQ := [] }
        (u = .scene g → x.scene = some c → exec .edgeLockGrant s =
          .next (t.putGroup { x with sc := 4, scene := entered })) ∧
        (u = .dvfs mhz → exec .edgeLockGrant s = .next t)) ∧
      (s.subj = .pair n mhz → s.diePresent n = true → mhz ∈ [1200, 1000, 800, 600] → d.mhz ≠ mhz →
        (∀ l, d.lock = some l → l.isScene = true) →
        ((∀ l ∈ d.lockQ, l.1.isScene = true) →
          exec .dvfsStep s = .next (s.putDie { d with lockQ := d.lockQ ++ [(.dvfs mhz, s.ns)] })) ∧
        (∀ k at_, d.lockQ = [(.scene g, m), (.dvfs k, at_)] →
          exec .dvfsStep s = .next (s.putDie { d with lockQ := [(.scene g, m), (.dvfs mhz, at_)] }))) ∧
      (s.subj = .id n ∨ s.subj = .pair n mhz → d.lock = some (.dvfs m) →
        (d.mhz ≠ m → exec .dvfsStep s = .next (s.putDie { d with mhz := m })) ∧
        (d.mhz = m → exec .dvfsStepEnd s = .next (s.putDie { d with lock := none })))) ∧
    (∀ k, s.subj = .domain k → exec .ualinkDomainFormed s = .next { s with pkg := { s.pkg with pkgNum := k } })

/-- UET_PACKET_ARRIVAL: a packet before the window is acknowledged again, one beyond it is dropped and counted, and
the one packet of a new message that matches a cue and passes the key checks puts its bytes at their place in the
buffer, the bytes written into the completion word, and moves the window on. UET_ACK_SEND sends base and bitmap;
UET_ACK_RECEIVE takes away what is acknowledged; UET_RETRANSMIT_TIMEOUT sends a packet again, or fails the flow after
seven times. UALINK_INBOUND_REQUEST sends a request that an inbound window grants to its home and refuses another;
APERTURE_RESPONSE gives a waiting load its data. HOST_QUEUE_OUTBOUND and EXTERNAL_SEND_READ take the frame of a
waiting `send` to the posted buffer, or as a message to the flow (tag and key of its packet are free values, log 12);
HOST_QUEUE_INBOUND makes a buffer posted before the tail a frame. What makes a queue entry available is log 61, both
keys of a matched packet log 13, a duplicate's acknowledgement at once log 32, the model's choices. -/
def Obligations.EdgeTraffic : Prop :=
  (∀ (s : State) (g : Nat) (f : Flow) (p : UetPacket) (c : Cue) (e : Key),
    let x := s.group g
    x.flow? p.flow = some f → s.subj = .uet g p → x.pers = 3 → x.sc.toNat < 2 → f.failed = false →
    p.payload.length ≤ 4096 → p.off.toNat + p.payload.length ≤ p.len.toNat →
    let d := (p.psn - f.rbase).toNat
    let a := e.base + c.off
    let n := p.payload.length
    (2 ^ 31 < d → exec .uetPacketArrival s = .next { s.putGroup (x.putFlow { f with sinceAck := 0 }) with
      acksOut := s.acksOut ++ [(g, f.num, f.rbase, BitVec.ofNat 64 f.rmap)] }) ∧
    (1024 ≤ d → d ≤ 2 ^ 31 → exec .uetPacketArrival s = .next (s.putGroup { x with drop8 := x.drop8 + 1 })) ∧
    (d = 0 → f.rmap = 0 → f.msgs = [] → p.off = 0 → p.len.toNat = n → f.cues = [c] → p.tag &&& c.mask = c.tag →
      x.key? c.key = some e → x.key? p.key = some e → e.valid = true → e.rw = true → c.off + n ≤ e.len →
      p.key.toNat / 2 ^ 24 = e.reuse.toNat → c.key.toNat / 2 ^ 24 = e.reuse.toNat → Calm s → s.packets = [] →
      (∀ b, (a ≤ b ∧ b < a + n) ∨ b = c.compl → 0x4000000000 ≤ b ∧ homeDie b = g / 2 ∧ s.homeGone b = false) →
      c.compl % 8 = 0 → c.compl + 8 ≤ a ∨ a + n ≤ c.compl →
      ∃ t h, exec .uetPacketArrival s = .next t ∧ (∀ k, k < n → t.mem.get (a + k) = p.payload.getD k 0) ∧
        t.word c.compl = BitVec.ofNat 64 n ∧ t.isFull c.compl = true ∧
        (∀ b, (b < a ∨ a + n ≤ b) → (b < c.compl ∨ c.compl + 8 ≤ b) → t.mem.get b = s.mem.get b) ∧
        (t.group g).flow? p.flow = some h ∧ h.rbase = f.rbase + 1 ∧ h.rmap = 0 ∧ h.msgs = [] ∧
        h.cues = if c.persist = true then [c] else [])) ∧
  (∀ (s : State) (g n : Nat) (f : Flow) (u : Sent) (base psn : BitVec 32) (map : BitVec 64),
    let x := s.group g
    x.flow? n = some f →
    (s.subj = .pair g n → f.sinceAck ≠ 0 → exec .uetAckSend s = .next {
      s.putGroup (x.putFlow { f with sinceAck := 0 }) with
        acksOut := s.acksOut ++ [(g, f.num, f.rbase, BitVec.ofNat 64 f.rmap)] }) ∧
    (s.subj = .ack g n base map → f.unacked = [u] → f.waiting = [] → ackedBy base map u.pkt.psn = true →
      ∃ t, exec .uetAckReceive s = .next t ∧ t = { s with groups := t.groups } ∧
        (t.group g).flow? n = some { f with unacked := [] }) ∧
    (s.subj = .resend g n psn → f.unacked = [u] → u.pkt.psn = psn → u.at_ + 100000 ≤ s.ns →
      (u.tries < 7 → exec .uetRetransmitTimeout s = .next {
        s.putGroup (x.putFlow { f with unacked := [{ u with tries := u.tries + 1, missing := 0, at_ := s.ns }] }) with
          framesOut := s.framesOut ++ [(g, u.pkt)] }) ∧
      (7 ≤ u.tries → f.msgs = [] → s.channels = [] → ∃ t r, exec .uetRetransmitTimeout s = .next t ∧
        t = { s.putGroup (x.putFlow { f with failed := true, msgs := [], unacked := [], waiting := [] }) with
              mailbox := s.mailbox ++ [r], errorRings := t.errorRings } ∧ r.cause = .link ∧
                r.d0 = BitVec.ofNat 64 g))) ∧
  (∀ (s : State) (g a : Nat) (bs : List Byte), s.subj = .request g (.write a bs) → (s.group g).pers = 2 →
    (s.group g).sc.toNat < 2 →
    (s.serves (s.group g) a bs.length .wr = true → homeDie a = g / 2 → s.packets = [] → ∃ q : Packet,
      exec .ualinkInboundRequest s = .next { s with nextId := s.nextId + 1, packets := [q] } ∧ q.path = .mesh ∧
      q.kind = .ord ∧ q.payload = .inWrite g { addr := a, n := bs.length, val := ofBytes bs, fe := none }) ∧
    (s.serves (s.group g) a bs.length .wr = false →
      exec .ualinkInboundRequest s = .next { s with uaOut := s.uaOut ++ [(g, .refused)] })) ∧
  (∀ (s : State) (p : Proc) (q : Packet) (g k off a len n v : Nat) (d : XIdx) (acq : Bool), s.cpu = some p →
    p.st = .running → p.wait = .load d n false a len acq → (s.core p.core).early = [] → s.packet? q.id = some q →
    q.path = .aperture → s.mayLand q = true → q.payload = .apRead g k off n (.slot p.pid 0) → v < 2 ^ (8 * n) → n ≤ 8 →
    s.subj = .answer q.id (.data v) → exec .apertureResponse s = .next { s with
      packets := s.packets.filter (·.id != q.id), cpu := some (behind (p.setX d (BitVec.ofNat 64 v)) len) }) ∧
  (∀ (s : State) (p : Proc) (c : Channel) (w : ChanWait) (g m fn hq : Nat) (h : HostQueue) (f : Flow), Alone s p →
    s.channels = [c] → s.sender c = some (p, w) → p.st = .blocked .channel → MemoriesOk s →
    let n := (w.msg.getD 1 0).toNat
    let src := globalBase p.core + (w.msg.getD 0 0).toNat
    (c.outside = .hostq fn hq → s.hostQueue? fn hq = some h → h.entry + 16 < 2 ^ 63 →
      let addr := s.hostRead fn h.entry 8
      let flags := s.hostRead fn (h.entry + 14) 2
      h.function = fn → flags % 2 = 1 → n ≤ s.hostRead fn (h.entry + 8) 4 → addr + n < 2 ^ 63 →
      addr + n ≤ h.entry ∨ h.entry + 16 ≤ addr →
      ∀ i, (i = Instr.hostQueueOutbound ∧ s.subj = .pair fn hq ∨ i = .externalSendRead ∧
        s.subj = .pair c.table c.name) →
        ∃ t q, exec i s = .next t ∧ t = { s with host := t.host, hostQueues := t.hostQueues, procs := [q] } ∧
          Woken p (some (.regs [])) q ∧ (∀ k, k < n → t.host.get (hostKey fn addr + k) = s.mem.get (src + k)) ∧
          t.hostRead fn (h.entry + 8) 4 = n ∧ t.hostRead fn (h.entry + 14) 2 = flags / 4 * 4) ∧
    (c.outside = .flow g m → s.subj = .pair c.table c.name → (s.group g).flow? m = some f → (s.group g).pers = 3 →
      (s.group g).sc = 0 → f.failed = false → f.unacked = [] → f.waiting = [] → 0 < n → n ≤ 4096 →
      ∃ t q pkt, exec .externalSendRead s = .next t ∧ t.framesOut = s.framesOut ++ [(g, pkt)] ∧ t.procs = [q] ∧
        Woken p (some (.regs [])) q ∧ pkt.flow = m ∧ pkt.psn = f.psn ∧ pkt.msg = f.nextMsg ∧ pkt.len.toNat = n ∧
        pkt.off = 0 ∧ pkt.payload = s.mem.bytes src n)) ∧
  (∀ (s : State) (c : Channel) (fn hq k : Nat) (h : HostQueue) (r : Ring), Calm s → s.cpu = none → s.procs = [] →
    s.packets = [] → s.channels = [c] → c.outside = .hostq fn hq → c.tx.holder = .device → c.tx.st = .bound →
    c.rx.st = .bound → s.hostQueue? fn hq = some h → h.head ≠ h.tail → c.table / 2 ^ 32 % 8 = 0 → c.ring = some r →
      r.free? = some k → dieOf r.core = 0 →
    s.subj = .pair fn hq →
    let addr := s.hostRead fn h.entry 8
    let len := s.hostRead fn (h.entry + 8) 4
    s.hostRead fn (h.entry + 14) 2 % 2 = 1 → len ≤ r.size →
    (∀ b, r.home k 0 ≤ b → b < r.home k 0 + len → 0x4000000000 ≤ b ∧ homeDie b = 0 ∧ s.homeGone b = false) →
    ∃ t, exec .hostQueueInbound s = .next t ∧
      t.channels = [{ c with ring := some (r.begin k), queue := c.queue ++ [[BitVec.ofNat 64 (r.base + k * r.size),
        BitVec.ofNat 64 (len + s.hostRead fn (h.entry + 12) 2 * 2 ^ 32)]] }] ∧
      (∀ j, j < len → t.mem.get (r.home k 0 + j) = s.host.get (hostKey fn addr + j)) ∧
      (∀ b, b < r.home k 0 ∨ r.home k 0 + len ≤ b → t.mem.get b = s.mem.get b))

/-- An item whose operands are in order, of a queue or of a trigger's list: WAITGE completes when the semaphore has
the value and else waits; SIGNAL adds to the semaphore or raises it; COPY is in progress; IRQ posts its vector; LOOP
moves back while its counter is below the limit and then clears it; IF jumps when the semaphore has the value; TRIG
sets a trigger word up or takes it away; of thread 0, SCENE begins BLOCK, REMOVE declares the die absent and starts a
reclock, ADMIT starts one. A completed item moves the head on, and its POSTSEM increase follows its effect. TRIG,
SCENE, REMOVE and ADMIT fail with ILLEGAL in a resident list, the latter three with PRIVILEGE on another thread: a
record, and the queue stops. Nothing else changes. -/
def Obligations.QueueCommands : Prop :=
  ∀ (s : State) (t : Thread) (h : ItemHdr) (a0 a1 a2 : Word), s.subj = .item h a0 a1 a2 →
    let k := a0.toNat
    let x := s.sems.get k
    let sem := k < 4096 ∧ s.maySem h.thread k = true
    let back := (h.pos + a0.toInt).toNat
    (Begins s t h →
      (sem → a2 = 0 → a1.toNat ≤ x → ItemCompletes .cmdWaitge s s t h) ∧
      (sem → a2 = 0 → x < a1.toNat → ItemWaits .cmdWaitge s s t h (.waitge k a1 false)) ∧
      (∀ v : Nat, sem → addrsOk (s.sems.map (·.1)) = true →
        (a2 = 0 ∧ (v : Int) = x + a1.toInt ∧ v < 2 ^ 64 ∨ a2 = 1 ∧ v = max x a1.toNat) →
        ∃ u, exec .cmdSignal s = .next u ∧ u = { s with sems := u.sems, threads := u.threads } ∧ u.sems.get k = v ∧
          (∀ j, j ≠ k → u.sems.get j = s.sems.get j) ∧
          u.threads = [headAt (t.mapPending (·.latch k v)) h (h.pos + 1)]) ∧
      (∀ a b, a2.toNat % 8 = 0 → 8 ≤ a2.toNat → a2.toNat ≤ 0xFFFFFFF8 → s.place h.thread a0 a2.toNat false 1 = .ok a →
        s.place h.thread a1 a2.toNat true 2 = .ok b → ItemWaits .cmdCopy s { s with nextId := s.nextId + 1 } t h
          (.copy a0 a1 a2.toNat 0 s.nextId)) ∧
      (k ≤ 2047 → a1 = 0 → a2 = 0 → ItemCompletes .cmdIrq s { s with irqs := s.irqs ++ [(t.function, k)] } t h) ∧
      (let key := s.loopKey h
       let n := t.loops.get key
       a0.toInt ≤ 0 → a1 ≠ 0 → a1.toNat < 2 ^ 32 → a2 = 0 →
        (n < a1.toNat → t.written h (h.pos + a0.toInt) = true → exec .cmdLoop s = .next { s with
          threads := [headAt { t with loops := t.loops.set key (n + 1) } h back] }) ∧
        (a1.toNat ≤ n → ItemCompletes .cmdLoop s s { t with loops := t.loops.set key 0 } h)) ∧
      (sem → a1.toNat ≤ x → t.written h (h.pos + a2.toInt) = true → exec .cmdIf s = .next { s with
        threads := [headAt t h (h.pos + a2.toInt).toNat] }) ∧
      (sem → x < a1.toNat → ItemCompletes .cmdIf s s t h) ∧
      (h.resident = false → k < 64 → rowOf a1.toNat = 4 →
        (a2 = 0 → s.addressable a1.toNat = true →
          ItemCompletes .cmdTrig s { s with triggers := s.triggers.filter (·.k != k) } t h) ∧
        (∀ l, a2 ≠ 0 → a2.toNat ≤ 256 → s.memPlace h.thread a1.toNat (32 * a2.toNat) false 2 = .ok l →
          ItemCompletes .cmdTrig s { s with triggers := s.triggers.filter (·.k != k) ++
            [{ k := k, thread := h.thread, list := l, count := a2.toNat, pending := 0 }] } t h)) ∧
      (∀ i ∈ [Instr.cmdTrig, .cmdScene, .cmdRemove, .cmdAdmit], h.resident = true → ItemFails i s t h .illegal) ∧
      (∀ i ∈ [Instr.cmdScene, .cmdRemove, .cmdAdmit], h.resident = false → h.thread ≠ 0 →
        ItemFails i s t h .privilege) ∧
      (h.resident = false → t.num = 0 →
        (let g := k % 16
         let pers : BitVec 2 := BitVec.ofNat 2 (k / 256)
         zeroBut a0 0xF030F = true → widthOk pers (k / 65536 % 16) = true → a1 = 0 ∨ rowOf a1.toNat = 4 → a2 = 0 →
          s.sceneOk g pers (k / 65536 % 16) = true → ItemWaits .cmdScene s (s.putGroup { s.group g with
            sc := 1, target := pers, scene := some {
              map := a1.toNat, width := k / 65536 % 16, thread := some 0, entered := s.ns } }) t h (.scene g)) ∧
        (k ≤ 7 → a1 = 0 → a2 = 0 → s.reclock = none → s.pkg.graded = false →
          (k ≠ 0 → s.pkg.dieMask.getLsbD k = true → s.cpu = none → s.procs = [] → s.channels = [] → s.packets = [] →
            s.requests = [] → s.cores = [] → s.transfers = [] → (∀ g ∈ s.groups, g.flows = []) →
            ∃ u, exec .cmdRemove s = .next u ∧ u.threads = [busyWith t h (.removal k)] ∧ u.diePresent k = false ∧
              u.reclock = some { removed := [k], joining := [], phase := 4 } ∧ (∀ g ∈ u.groups, g.num / 2 = k →
                g.pers = 0) ∧
              u.mem = s.mem) ∧
          (s.joinable k = true → ItemWaits .cmdAdmit s { s with reclock := some { removed := [], joining := [k] } } t h
            (.admission k))))) ∧
    (Begins s t { h with postsem := 0xFFFF } → h.postsem.toNat < 4096 → s.maySem h.thread h.postsem.toNat = true →
      addrsOk (s.sems.map (·.1)) = true → s.sems.get h.postsem.toNat + h.postadd.toNat < 2 ^ 64 → k ≤ 2047 → a1 = 0 →
      a2 = 0 → ∃ u, exec .cmdIrq s = .next u ∧ u.irqs = s.irqs ++ [(t.function, k)] ∧
        u.sems.get h.postsem.toNat = s.sems.get h.postsem.toNat + h.postadd.toNat)

/-- Items whose operands are in order and permitted complete. LOAD: a book that passes its checks stands in the lowest
free range of the loft, in its slot. LAUNCH of one instance of a role of a book that has its region: image, park area,
and a NEW process with its pc and x2 to x5; its placement is then attempted; whatever a LAUNCH's preparation makes is
placed so, and one that fails fails the item. END frees the slot. PIN of a far segment numbers its pages from the
operand, or fails where the module has too few, of a page in HBM takes the lowest free one; UNPIN clears V. WINDOW
installs the entries of its table. EXTEP and HOSTEP add a bound channel whose other end is the device's. CUE clears a
flow's sheet or adds an entry. MKEY registers an index, its REUSE one up, waits while KEYHOLD runs, or invalidates it.
Nothing else changes. The lowest free range, the first that fits an image, and the order of PIDs are the model's
choices (log 7), and so is that the pages of a far module number its capacity (log 15). -/
def Obligations.LoaderCommands : Prop :=
  ∀ (s : State) (t : Thread) (h : ItemHdr) (a0 a1 a2 : Word), s.subj = .item h a0 a1 a2 → Begins s t h → Calm s →
    let k := a0.toNat
    let reg := s.regionOperand h.pc k
    let region (n : Nat) : Prop := (s.region? n).isSome = true ∧ s.mayName h.thread n = true
    -- LOAD
    (∀ pl a, h.resident = false → lengthOk a1 = true → a2.toNat < 64 → s.book? a2.toNat = none →
      s.place h.thread a0 a1.toNat false 1 = .ok pl →
      let bs := (s.readPlace pl 0 a1.toNat).map (·.1)
      let b := bookIn bs
      bookFault bs = none → firstFit (s.loftUsed.map (·.2)) loaderBase loaderEnd (max b.length 1) = some a →
      NearDie0 s a b.length → ∃ u, ItemCompletes .cmdLoad s u t h ∧
        u = { s with mem := u.mem, nextId := u.nextId, bookHashes := u.bookHashes
                     books := s.books ++ [{ slot := a2.toNat, addr := a, len := b.length }]
                     loftUsed := s.loftUsed ++ [(a2.toNat, a, max b.length 1)] } ∧
        u.bookHashes.find? (·.1 == a2.toNat) = some (a2.toNat, beNat ((b.drop 0x20).take 32)) ∧
        (∀ (i : Nat) (v : Byte), b[i]? = some v → u.mem.get (a + i) = v) ∧
        ∀ x, x < a ∨ a + b.length ≤ x → u.mem.get x = s.mem.get x) ∧
    -- LAUNCH
    (∀ b, k < 64 ∨ k = 0xFF → a2.toNat ≤ 1 → s.launchBook h k = some b →
      a1.toNat = 0xFFFF ∨ a1.toNat < (rolesOf (s.bookBytes b)).length →
      (∀ e, s.prepare h b (s.bookBytes b) a1.toNat = .error e → exec .cmdLaunch s = .next (s.failCmd h 2 e)) ∧
      (∀ u ns owner raises, s.prepare h b (s.bookBytes b) a1.toNat = .ok (u, ns, owner, raises) →
        let v := u.addPlacements owner h.thread (placeGroups ns) []
        ∃ after, exec .cmdLaunch s =
          .next ((v.1.setCur h (.launch (ns.map (·.pid)) v.2 (a2 == 1) after none owner raises)).tryAll v.2))) ∧
    (∀ (b : Book) (r : BookRole) (i : Inst) (g : Nat), k < 64 ∨ k = 0xFF → a2.toNat ≤ 1 → s.launchBook h k = some b →
      let bs := s.bookBytes b
      let c := i.core
      let base := globalBase c
      let data := roundUp 64 r.textLen
      a1.toNat ≠ 0xFFFF → (rolesOf bs)[a1.toNat]? = some r → r.nreg ≤ 32 → b.regions = [(r.region, g)] →
      instsOf bs a1.toNat = [i] → (∀ x ∈ castsOf bs, x.role = a1.toNat → s.diePresent x.die = true) →
      i.role = a1.toNat → c < 1024 → wiresOf bs = [] → r.block + data ≤ 0x50000 →
      s.cpu = none → s.procs = [] → s.channels = [] → s.placed = [] → s.placements = [] →
      (∀ n ∈ [4, 6], ∀ q, s.owner n levels g = some q → q.isRoot = false) → (s.effWins g).length ≤ 14 →
      (∀ x ∈ s.loaderWins, x.region ≠ g) →
      NearDie0 s base 0x60000 →
      ∃ (v : State) (id o : Nat) (after : List (Nat × Nat)) (p : Proc), exec .cmdLaunch s =
          .next ((v.setCur h (.launch [s.nextPid] [id] (a2 == 1) after none o [])).tryAll [id]) ∧
        v.cpu = none ∧ v.procs = [p] ∧ v.channels = [] ∧ v.threads = [t] ∧ (v.core c).psize = 4 ∧
        (∃ x, v.placements = [x] ∧ x.id = id ∧ x.region = g ∧ x.members.map (·.pid) = [s.nextPid] ∧ x.t0 = s.ns) ∧
        p.pid = s.nextPid ∧ p.st = .new ∧ p.region = g ∧ p.core = c ∧ p.nregs = r.nreg ∧
        p.pc = BitVec.ofNat 64 r.entry ∧ p.getX 2 = BitVec.ofNat 64 (data + r.block) ∧
          p.getX 3 = BitVec.ofNat 64 i.num ∧
        p.getX 4 = 1 ∧ p.getX 5 = BitVec.ofNat 64 data ∧
        (∀ (n : Nat) (x : Byte), ((bs.drop ((sectOf bs 2).off + r.textOff)).take r.textLen)[n]? = some x →
          v.mem.get (base + n) = x) ∧
        (∀ (n : Nat) (x : Byte), n < r.block → ((bs.drop ((sectOf bs 3).off + r.dataOff)).take r.dataLen)[n]? = some x →
          v.mem.get (base + data + n) = x)) ∧
    (∀ (p : Proc) (im : Image) (r : BookRole) (num count : Nat), let q := p.imaged im r num count
      q.pc = BitVec.ofNat 64 (im.text + r.entry) ∧ q.getX 2 = BitVec.ofNat 64 (im.data + im.dataLen) ∧
      q.getX 3 = BitVec.ofNat 64 num ∧ q.getX 4 = BitVec.ofNat 64 count ∧ q.getX 5 = BitVec.ofNat 64 im.data) ∧
    -- END
    (∀ b, h.resident = false → k < 64 → a1 = 0 → a2 = 0 → s.book? k = some b →
      (∃ u, exec .cmdEnd s = .next u ∧ u.book? k = none ∧ ∀ x ∈ u.loftUsed, x.1 ≠ k) ∧
      (b.regions = [] → ItemCompletes .cmdEnd s (s.freeSlot b) t h)) ∧
    -- PIN, UNPIN
    (∀ e, region reg → s.namedSegment reg a1.toNat = .ok e →
      let g := s.segment e
      let writes (i : Instr) (want : Nat → Nat) : Prop := ∃ u, ItemCompletes i s u t h ∧
        u = { s with mem := u.mem, nextId := u.nextId
                     servers := s.servers.map fun v => { v with cache := v.cache.filter (·.1 != e) } } ∧
        (∀ n, n < g.pages → u.pageEntry g n = BitVec.ofNat 64 (want n)) ∧
        ∀ x, x < g.xlat ∨ g.xlat + 8 * g.pages ≤ x → u.mem.get x = s.mem.get x
      g.xlat % 8 = 0 → NearDie0 s g.xlat (8 * g.pages) →
      (g.isFar = true → (s.group g.group).pers = 1 →
        if a2.toNat + g.pages ≤ min (Config.farUnits g.group) (2 ^ 23) then writes .cmdPin fun n => 2 ^ 63 + a2.toNat + n
        else exec .cmdPin s = .next (s.failCmd h 7 (.spawn, none, some 8))) ∧
      (∀ n, g.isFar = false → a2 = 0 → g.pages = 1 → pinned (s.pageEntry g 0) = false → n < s.pkg.hbmPages →
        n ∉ s.usedPages → (∀ m, m < n → m ∈ s.usedPages) → writes .cmdPin fun _ => 2 ^ 63 + n) ∧
      (a2 = 0 → writes .cmdUnpin fun n => (s.pageEntry g n).toNat % 2 ^ 63)) ∧
    -- WINDOW
    (∀ n, region reg → rowOf a1.toNat = 4 → a2 = 0 → s.mayReach h.thread a1.toNat 8 false = true →
      s.mayReach h.thread a1.toNat (8 + 32 * n) false = true → s.addressable a1.toNat = true →
        s.winCount a1.toNat = some n →
      (∀ i, i < n → let w := s.winWords a1.toNat i; s.winOk w.1 w.2.1 w.2.2.1 w.2.2.2 = true) →
      ItemCompletes .cmdWindow s (s.modRegion reg fun q => { q with
        wintab := a1.toNat, ovr := q.ovr ||| 0x40
        wins := (List.range n).map fun i => let w := s.winWords a1.toNat i; winOf w.1 w.2.1 w.2.2.1 }) t h) ∧
    -- EXTEP, HOSTEP
    (∀ (host tx : Bool) (b : Book) (i : Nat) (q : Proc) (im : Image) (r : BookRole),
      let bs := s.bookBytes b
      let rg := s.regionOperand h.pc (k / 2 ^ 32 % 2 ^ 16)
      let role := k / 2 ^ 48
      let ring := a1.toNat % 2 ^ 32
      let size := a1.toNat / 2 ^ 32 % 2 ^ 16
      let slots := a1.toNat / 2 ^ 48
      let n := k % 2 ^ 24
      let table := s.effChtab rg
      let mine : End := boundTo q.pid
      let dev : End := { st := .bound, holder := .device }
      let c : Channel :=
        { table := table, name := n, region := rg, kind := if host then .host else .external, w := 2, buf := true
          depth := max 1 slots, tx := if tx then mine else dev, rx := if tx then dev else mine
          ring := if tx then none else some { core := q.core, base := im.data + ring, size := size, slots := slots
                                              next := 0, busy := [], owned := none }
          outside := if host then .hostq (a2.toNat % 256) (a2.toNat / 2 ^ 16 % 256)
                     else .flow (a2.toNat % 16) (a2.toNat / 2 ^ 16 % 2 ^ 16) }
      let u : State := { s with channels := s.channels ++ [c] }
      region rg → a2.getLsbD 63 = tx → k / 2 ^ 24 % 256 = 0 →
      (if host then zeroBut a2 0x8000000000FF00FF = true ∧ a2.toNat % 256 ≤ 64 ∧
          (h.thread = 0 ∨ a2.toNat % 256 = t.function ∧ s.mayEdge h.thread (16 + a2.toNat / 2 ^ 16 % 256) = true) ∧
          (s.hostQueue? (a2.toNat % 256) (a2.toNat / 2 ^ 16 % 256)).isSome = true
        else zeroBut a2 0x80000000FFFF000F = true ∧ s.mayEdge h.thread (a2.toNat % 16) = true ∧
          (s.group (a2.toNat % 16)).pers = 3 ∧
          ((s.group (a2.toNat % 16)).flow? (a2.toNat / 2 ^ 16 % 2 ^ 16)).isSome = true) →
      s.books.find? (·.regions.any (·.2 == rg)) = some b → b.regions.find? (·.2 == rg) = some (i, rg) →
      topName bs i < n → (∀ x ∈ s.channels, x.table = table → x.name ≠ n) → table ≠ 0 →
      (rolesOf bs)[role]? = some r → (instsOf bs role).length = 1 → s.instanceOf b.slot role = some (q, im) →
      (if tx then ring = 0 ∧ size = 0 ∧ slots = 0
        else ring % 64 = 0 ∧ size % 64 = 0 ∧ size ≠ 0 ∧ size ≤ 16384 ∧ slots ≠ 0 ∧ ring + size * slots ≤ r.dataLen) →
      ((u.endsOf q.pid).map fun x => x.1.handle x.2).Nodup →
      (∀ x ∈ s.allProcs, x.placed = true → u.entriesOn x.core ≤ Config.bindingEntries) →
      ItemCompletes (if host then .cmdHostep else .cmdExtep) s u t h) ∧
    -- CUE
    (∀ (f : Flow) (compl : Nat), let g := k % 16
      let cues (l : List Cue) : Prop :=
        ItemCompletes .cmdCue s (s.putGroup ((s.group g).putFlow { f with cues := l })) t h
      k / 16 % 2 ^ 12 = 0 → s.mayEdge h.thread g = true → (s.group g).pers = 3 →
      (s.group g).flow? (k / 2 ^ 16 % 2 ^ 16) = some f →
      (a2.getLsbD 63 = true → cues []) ∧
      (a2.getLsbD 63 = false → zeroBut a2 0x400000FFFFFFFFFF = true → a2.toNat % 8 = 0 → f.cues.length < 256 →
        s.memPlace h.thread (a2.toNat % 2 ^ 40) 8 true 3 = .ok compl →
        cues (f.cues ++ [{ tag := BitVec.ofNat 16 (k / 2 ^ 32), mask := BitVec.ofNat 16 (k / 2 ^ 48)
                           key := BitVec.ofNat 32 a1.toNat, off := a1.toNat / 2 ^ 32, compl := compl
                           persist := a2.getLsbD 62, region := s.threadRegion h.thread }]))) ∧
    -- MKEY
    (let g := k % 16
     let i := k / 2 ^ 16 % 2 ^ 24
     let x := s.group g
     let key := x.keyOf i
     let len := a2.toNat % 2 ^ 32
     k / 16 % 2 ^ 12 = 0 → k / 2 ^ 40 % 2 ^ 22 = 0 → s.mayEdge h.thread g = true → x.pers = 3 → i < 65536 →
      (∀ l, k / 2 ^ 62 = 0 → a1.toNat < 2 ^ 40 → rowOf a1.toNat = 3 ∨ rowOf a1.toNat = 4 →
        zeroBut a2 0x3FFFFFFFF = true → len % 8 = 0 → 8 ≤ len → len ≤ 0xFFFFFFF8 →
        s.memPlace h.thread a1.toNat len (a2.getLsbD 32) 2 = .ok l → key.valid = false →
        (s.holdOver x key = true → ItemCompletes .cmdMkey s (s.putGroup (x.putKey {
          idx := i, base := a1.toNat, len := len, rw := a2.getLsbD 32, rr := a2.getLsbD 33, reuse := key.reuse + 1
          valid := true, freedAt := none })) t h) ∧
        (s.holdOver x key = false → ItemWaits .cmdMkey s s t h
          (.mkey g i a1.toNat len (a2.getLsbD 32) (a2.getLsbD 33)))) ∧
      (k / 2 ^ 62 = 1 → a1 = 0 → a2 = 0 → key.valid = true → ItemCompletes .cmdMkey s
        (s.putGroup (x.putKey { key with valid := false, freedAt := some s.ns })) t h))

/-- QUEUE_DOORBELL adds items to a thread's queue, QUEUE_RESTART lets a stopped one go on. The commands in progress
complete: LAUNCH when its placements are made and, when it waits, its instances have exited with their accesses
performed, its later items appended, the increases that follow its writes made first; WAITGE when its test has passed;
COPY with its bytes written; MKEY when KEYHOLD is over. TRIGGER_WRITE counts a write, TRIGGER_RUN begins a run and
ends it, one fewer pending. A reset with images whose checks pass starts the package empty, far and host memory as
they were (that host memory and the far modules keep their bytes is the model's choice, logs 40 and 4); a change of
the life cycle by a command to the new state that the owner key has signed wipes it, any other changes nothing (the
bytes of that command are log 4); a report has the fields of Table 23.4 in order, the book's hash, the life cycle,
%pkgcfg and the device key's signature among them. Throttling asks for the next clock; a trip halts the running
process and posts a record for the die. The stage manager writes QUANT, PROBE and KEYHOLD; an assignment makes a
thread with a root region of its own. -/
def Obligations.StageEvents : Prop :=
  (∀ (s : State) (t : Thread) (h : ItemHdr) (n : Nat), s.threads = [t] → h.thread = t.num → t.sub.isSome = h.resident →
    h.postsem = 0xFFFF → s.subj = .id t.num →
    let doing (p : Pending) (f : State → Prop) : Prop := f { s with threads := [busyWith t h p] }
    (t.num ≠ 0 → t.waiting + n ≤ 2 ^ t.ringLog → exec .queueDoorbell { s with subj := .pair t.num n } = .next { s with
      subj := .pair t.num n, threads := [{ t with
        tail := t.tail + n, items := t.items ++ (List.range n).map fun i => QItem.ring (t.tail + i) }] }) ∧
    (t.stopped = true → exec .queueRestart s = .next { s with threads := [{ t with stopped := false }] }) ∧
    (∀ k v met, met = true ∨ v.toNat ≤ s.sems.get k →
      doing (.waitge k v met) fun w => ItemCompletes .waitgeSatisfied w w t h) ∧
    (∀ pids ids wait after owner, s.placements = [] → (∀ x ∈ after, x.1 = t.num) → s.engineBusy owner = false →
      (wait = true → ∀ m ∈ pids, (∃ p, s.proc? m = some p ∧ p.st = .exited ∧ p.ending = .exited ∧ p.ran = true) ∧
        (∀ q ∈ s.packets, q.pid = m → q.kind = .reply) ∧ ∀ r ∈ s.requests, r.pid ≠ m) →
      doing (.launch pids ids wait after none owner []) fun w => ItemCompletes .launchComplete w w.dropStale
        { t with items := t.items ++ after.map fun x => QItem.book x.2 } h) ∧
    (∀ pids ids wait after owner r, s.engineBusy owner = false → addrsOk (s.sems.map (·.1)) = true →
      s.sems.get r.sem + r.add < 2 ^ 64 →
      doing (.launch pids ids wait after none owner [r]) fun w => ∃ u, exec .launchComplete w = .next u ∧
        u.sems.get r.sem = s.sems.get r.sem + r.add ∧ (∀ j, j ≠ r.sem → u.sems.get j = s.sems.get j) ∧
        u.threads = [busyWith ((t.mapPending Pending.raised).mapPending (·.latch r.sem (s.sems.get r.sem + r.add))) h
          (.launch pids ids wait after none owner [])]) ∧
    (∀ pids ids wait after m reason owner raises,
      doing (.launch pids ids wait after (some (m, reason)) owner raises) fun w =>
      ItemFails .launchComplete w t h .spawn) ∧
    (∀ src dst len owner a b, len % 8 = 0 → Calm s → a + len ≤ b ∨ b + len ≤ a → NearDie0 s b len →
      doing (.copy src dst len 0 owner) fun w => w.place h.thread src len false 1 = .ok (.mem a) →
        w.place h.thread dst len true 2 = .ok (.mem b) → ∃ m n, exec .copyComplete w = .next { w with
          mem := m, nextId := n, threads := [headAt t h (h.pos + 1)] } ∧
          (∀ k, k < len → m.get (b + k) = s.mem.get (a + k)) ∧ ∀ x, x < b ∨ b + len ≤ x → m.get x = s.mem.get x) ∧
    (∀ g i base len rw rr, (s.group g).pers = 3 → ((s.group g).keyOf i).valid = false →
      s.holdOver (s.group g) ((s.group g).keyOf i) = true →
      doing (.mkey g i base len rw rr) fun w => ItemCompletes .mkeyKeyholdExpiry w (w.putGroup ((s.group g).putKey {
        idx := i, base := base, len := len, rw := rw, rr := rr, reuse := ((s.group g).keyOf i).reuse + 1, valid := true,
        freedAt := none })) t h) ∧
    (∀ g : Trigger, s.triggers = [g] →
      (s.trigWrites = [g.k] → g.pending < 255 → exec .triggerWrite { s with subj := .id g.k } = .next { s with
        subj := .id g.k, trigWrites := [], triggers := [{ g with pending := g.pending + 1 }] }) ∧
      (t.stopped = false → g.thread = t.num → t.sub = none → t.idle = true → g.pending ≠ 0 →
        exec .triggerRun { s with subj := .pair t.num g.k } = .next { s with
          subj := .pair t.num g.k, threads := [{ t with sub := some {
            k := g.k, list := g.list, count := g.count, pos := 0, cur := none } }] }) ∧
      (∀ pos l n, t.stopped = false → g.thread = t.num →
        t.sub = some { k := g.k, list := l, count := n, pos := pos, cur := none } → n ≤ pos →
          exec .triggerRun { s with subj := .pair t.num g.k } = .next { s with
          subj := .pair t.num g.k, threads := [{ t with sub := none }]
          triggers := [{ g with pending := g.pending - 1 }] }))) ∧
  (∀ (s : State) (b : BootInput), s.subj = .boot b → ∃ u, exec .packageReset s = .next u ∧ u.mem = [] ∧ u.hbm = [] ∧
    u.cpu = none ∧ u.procs = [] ∧ u.regions = [] ∧ u.channels = [] ∧ u.time = 0 ∧ u.host = s.host ∧
    u.far = s.far ∧ u.farMarks = s.farMarks ∧ u.pkg.part = s.pkg.part ∧ u.pkg.keyHash = s.pkg.keyHash ∧
    u.pkg.dieMask = s.pkg.part.dies &&& b.trained ∧ (u.pkg.running = true ↔
      s.pkg.monitorOk b = true ∧ (s.pkg.part.dies &&& b.trained).getLsbD 0 = true)) ∧
  (∀ (s : State) (l : LifeCycle) (image : List Byte) (x y r sg : Nat), s.subj = .life l image x y r sg →
    (image = lifeCommand l → x = s.pkg.ownX → y = s.pkg.ownY → ecdsaOk x y r sg image = true →
      ∃ u, exec .lifeCycleChange s = .next u ∧
      u.pkg = { s.pkg with lifeCycle := l } ∧ u.mem = [] ∧ u.hbm = [] ∧ u.cpu = none ∧ u.procs = [] ∧ u.empty = [] ∧
      u.far = s.far ∧ u.host = s.host) ∧
    (image ≠ lifeCommand l ∨ x ≠ s.pkg.ownX ∨ y ≠ s.pkg.ownY ∨ ecdsaOk x y r sg image = false →
      exec .lifeCycleChange s = .next s)) ∧
  (∀ (s : State) (nonce : BitVec 256) (slot : Nat), s.subj = .attest nonce slot →
    let book := ((s.bookHashes.find? (·.1 == slot)).map (·.2)).getD 0
    ∃ rep r sg, exec .attestationReport s = .next { s with reports := s.reports ++ [rep], free := s.free + 1 } ∧
      rep.length = 208 ∧ rep.take 32 = beBytes nonce.toNat 32 ∧
        (rep.drop 0x20).take 32 = beBytes s.pkg.monMeas.toNat 32 ∧
      (rep.drop 0x40).take 32 = beBytes s.pkg.fwMeas.toNat 32 ∧ (rep.drop 0x60).take 32 = beBytes book 32 ∧
      (rep.drop 0x80).take 8 = toBytes (lifeCode s.pkg.lifeCycle + s.pkg.cfg * 2 ^ 16) 8 ∧
      (rep.drop 0x88).take 8 = toBytes s.pkg.secVersion 8 ∧
      (r, sg) = ecdsaSign s.pkg.deviceKey.toNat s.nonce (rep.take 0x90) ∧
        rep.drop 0x90 = beBytes r 32 ++ beBytes sg 32) ∧
  (∀ (s : State) (n : Nat), s.subj = .id n → s.diePresent n = true → (s.die n).mhz = 1200 →
    (∀ l, (s.die n).lock = some l → l.isScene = true) → (∀ l ∈ (s.die n).lockQ, l.1.isScene = true) →
      exec .thermalThrottle s =
      .next (s.putDie { s.die n with lockQ := (s.die n).lockQ ++ [(.dvfs 1000, s.ns)] })) ∧
  (∀ (s : State) (p : Proc) (n : Nat), s.subj = .id n → s.cpu = some p → s.procs = [] → p.st = .running →
    p.wait = .none → (∀ q ∈ s.packets, q.pid ≠ p.pid) → ∃ u q r, exec .thermalTrip s = .next u ∧
      u.pkg = { s.pkg with running := false } ∧ u.cpu = none ∧ u.procs = [q] ∧
      q = { p with st := .ready, key := q.key, lastRun := s.ns, tile := none, tdone := 0 } ∧
        u.mailbox = s.mailbox ++ [r] ∧ r.cause = .memerr ∧
      r.d0 = BitVec.ofNat 64 n) ∧
  (∀ (s : State) (n : Nat) (v : Word),
    (s.subj = .control (.quantum n) v → ∃ u, exec .controlRegisterWrite s = .next u ∧ u = { s with cores := u.cores } ∧
      (u.core n).quantum = v.setWidth 24 ∧ (u.core n).probe = (s.core n).probe ∧ ∀ c, c ≠ n → u.core c = s.core c) ∧
    (s.subj = .control (.probe n) v → ∃ u, exec .controlRegisterWrite s = .next u ∧ u = { s with cores := u.cores } ∧
      (u.core n).probe = v.setWidth 20 ∧ (u.core n).quantum = (s.core n).quantum ∧ ∀ c, c ≠ n → u.core c = s.core c) ∧
    (s.subj = .control (.keyhold n) v → exec .controlRegisterWrite s =
      .next (s.putGroup { s.group n with keyhold := v.setWidth 32 }))) ∧
  (∀ (s : State) (m : Assignment), s.subj = .assign m → 1 ≤ m.thread → m.thread ≤ 31 → 4 ≤ m.ringLog → m.ringLog ≤ 16 →
    m.function ≤ 64 → s.nextRegion ≤ 0xFFFF → ∃ u r t, exec .monitorAssignment s = .next u ∧
      u.nextRegion = s.nextRegion + 1 ∧ u.regions = s.regions ++ [r] ∧ r.num = s.nextRegion ∧ r.parent = r.num ∧
      r.function = m.function ∧ r.ceil = m.ceil.toNat ∧ r.chtab = m.chtab ∧ r.segtab = m.segtab ∧
        r.segs = s.tableCopy m.segtab ∧ r.wintab = m.wintab ∧
      u.threads = s.threads.filter (·.num != m.thread) ++ [t] ∧ t.num = m.thread ∧ t.region = r.num ∧
      t.function = m.function ∧ t.ring = m.ringBase ∧ t.ringLog = m.ringLog ∧ t.items = [] ∧ t.stopped = false ∧
      u.procs = s.procs ∧ u.mem = s.mem)
end

