-- ==== Sys2Proof/Laws/Memory.lean ====
section
/-! SUPPORT. Laws of memories: every operation keeps the canonical form; what a byte reads as after a write. -/

namespace Sys2Proof.Machine

/-- Every cell lies behind an address. -/
def Memory.above (m : Memory) (a : Nat) : Prop := ∀ c ∈ m, a < c.1

theorem Memory.wf_tail {c : Host.Cell} {m : Memory} (h : Memory.wf (c :: m) = true) : Memory.wf m = true := by
  cases m with
  | nil => rfl
  | cons d r => simp [Memory.wf] at h; exact h.2

theorem Memory.wf_head {c : Host.Cell} {m : Memory} (h : Memory.wf (c :: m) = true) : c.2 ≠ Memory.default := by
  cases m with
  | nil => simpa [Memory.wf] using h
  | cons d r => simp [Memory.wf] at h; exact h.1.1

theorem Memory.wf_above {c : Host.Cell} {m : Memory} (h : Memory.wf (c :: m) = true) : Memory.above m c.1 := by
  induction m generalizing c with
  | nil => intro d hd; cases hd
  | cons e r ih =>
    have hlt : c.1 < e.1 := by simp [Memory.wf] at h; exact h.1.2
    intro d hd
    cases hd with
    | head => exact hlt
    | tail _ hd => exact Nat.lt_trans hlt (ih (Memory.wf_tail h) d hd)

theorem Memory.wf_cons {c : Host.Cell} {m : Memory} (hb : c.2 ≠ Memory.default) (ha : Memory.above m c.1)
    (h : Memory.wf m = true) : Memory.wf (c :: m) = true := by
  cases m with
  | nil => simpa [Memory.wf] using hb
  | cons d r => simp [Memory.wf, hb, h, ha d (List.mem_cons_self ..)]

theorem Memory.cons_wf {a : Nat} {b : Byte} {m : Memory} (ha : Memory.above m a) (h : Memory.wf m = true) :
    Memory.wf (Memory.cons a b m) = true := by
  unfold Memory.cons
  split
  · exact h
  · exact Memory.wf_cons (by assumption) ha h

theorem Memory.set_above {m : Memory} {a x : Nat} {b : Byte} (hx : x < a) (h : Memory.above m x) :
    Memory.above (m.set a b) x := by
  induction m with
  | nil =>
    intro c hc
    simp only [Memory.set, Memory.cons] at hc
    split at hc
    · cases hc
    · simp at hc; subst hc; exact hx
  | cons d r ih =>
    have hr : Memory.above r x := fun c hc => h c (List.mem_cons_of_mem _ hc)
    intro c hc
    simp only [Memory.set, Memory.cons] at hc
    split at hc
    · split at hc
      · exact h c hc
      · rcases List.mem_cons.1 hc with rfl | hc
        · exact hx
        · exact h c hc
    · split at hc
      · split at hc
        · exact hr c hc
        · rcases List.mem_cons.1 hc with rfl | hc
          · exact hx
          · exact hr c hc
      · rcases List.mem_cons.1 hc with rfl | hc
        · exact h _ (List.mem_cons_self ..)
        · exact ih hr c hc

/-- A byte write keeps the canonical form. -/
theorem Memory.set_wf {m : Memory} (a : Nat) (b : Byte) (h : Memory.wf m = true) : Memory.wf (m.set a b) = true := by
  induction m with
  | nil => exact Memory.cons_wf (fun c hc => by cases hc) rfl
  | cons d r ih =>
    have hr := Memory.wf_tail h
    have hab := Memory.wf_above h
    simp only [Memory.set]
    split
    · rename_i hlt
      refine Memory.cons_wf (fun c hc => ?_) h
      rcases List.mem_cons.1 hc with rfl | hc
      · exact hlt
      · exact Nat.lt_trans hlt (hab c hc)
    · split
      · rename_i he
        exact Memory.cons_wf (he ▸ hab) hr
      · exact Memory.wf_cons (Memory.wf_head h) (Memory.set_above (by omega) hab) (ih hr)

/-- A write of a number keeps the canonical form. -/
theorem Memory.write_wf {m : Memory} (a n v : Nat) (h : Memory.wf m = true) : Memory.wf (m.write a n v) = true := by
  induction n generalizing m a v with
  | zero => exact h
  | succ n ih => exact ih _ _ (Memory.set_wf _ _ h)

/-- A write of bytes keeps the canonical form. -/
theorem Memory.writeBytes_wf {m : Memory} (a : Nat) (bs : List Byte) (h : Memory.wf m = true) :
    Memory.wf (m.writeBytes a bs) = true := by
  induction bs generalizing m a with
  | nil => exact h
  | cons b bs ih => exact ih _ (Memory.set_wf _ _ h)

/-- Leaving out cells keeps the canonical form. -/
theorem Memory.filter_wf {m : Memory} (f : Host.Cell → Bool) (h : Memory.wf m = true) : Memory.wf (m.filter f) = true := by
  induction m with
  | nil => rfl
  | cons c r ih =>
    simp only [List.filter]
    split
    · exact Memory.wf_cons (Memory.wf_head h) (fun d hd => Memory.wf_above h d (List.mem_filter.1 hd).1)
        (ih (Memory.wf_tail h))
    · exact ih (Memory.wf_tail h)

/-- Clearing a range keeps the canonical form. -/
theorem Memory.clear_wf {m : Memory} (a n : Nat) (h : Memory.wf m = true) : Memory.wf (m.clear a n) = true :=
  Memory.filter_wf _ h

/-- A copy keeps the canonical form. -/
theorem Memory.copy_wf {m : Memory} (src dst n : Nat) (h : Memory.wf m = true) : Memory.wf (m.copy src dst n) = true := by
  unfold Memory.copy
  generalize m.cells src n = cs
  have h2 := Memory.clear_wf dst n h
  generalize m.clear dst n = r at h2
  induction cs generalizing r with
  | nil => exact h2
  | cons c cs ih => exact ih _ (Memory.set_wf _ _ h2)

/-! Reading after writing -/

theorem Memory.get_above {m : Memory} {a : Nat} (h : Memory.above m a) : m.get a = Memory.default := by
  induction m with
  | nil => rfl
  | cons c r ih =>
    have : c.1 ≠ a := fun e => Nat.lt_irrefl _ (e ▸ h c (List.mem_cons_self ..))
    simp [Memory.get, this, ih fun d hd => h d (List.mem_cons_of_mem _ hd)]

theorem Memory.get_cons {m : Memory} {a : Nat} (b : Byte) (x : Nat) (h : Memory.above m a) :
    (Memory.cons a b m).get x = if a = x then b else m.get x := by
  unfold Memory.cons
  split
  · split
    · rename_i hb he; subst he; rw [Memory.get_above h, hb]
    · rfl
  · rfl

/-- A byte reads as what was written last. -/
theorem Memory.get_set {m : Memory} (a : Nat) (b : Byte) (x : Nat) (h : Memory.wf m = true) :
    (m.set a b).get x = if a = x then b else m.get x := by
  induction m with
  | nil => exact Memory.get_cons b x fun c hc => by cases hc
  | cons d r ih =>
    have hab := Memory.wf_above h
    simp only [Memory.set]
    split
    · rename_i hlt
      refine Memory.get_cons b x fun c hc => ?_
      rcases List.mem_cons.1 hc with rfl | hc
      · exact hlt
      · exact Nat.lt_trans hlt (hab c hc)
    · split
      · rename_i he
        rw [Memory.get_cons b x (he ▸ hab)]
        simp only [Memory.get]
        by_cases hx : a = x
        · simp [hx]
        · rw [if_neg hx, if_neg hx, if_neg (by omega)]
      · simp only [Memory.get, ih (Memory.wf_tail h)]
        by_cases hd : d.1 = x
        · rw [if_pos hd, if_neg (by omega), if_pos hd]
        · rw [if_neg hd, if_neg hd]

theorem Memory.get_set_self {m : Memory} (a : Nat) (b : Byte) (h : Memory.wf m = true) : (m.set a b).get a = b := by
  simp [Memory.get_set a b a h]

theorem Memory.get_set_other {m : Memory} {a x : Nat} (b : Byte) (hx : a ≠ x) (h : Memory.wf m = true) :
    (m.set a b).get x = m.get x := by
  simp [Memory.get_set a b x h, hx]

/-- Bytes outside a write keep their values. -/
theorem Memory.get_write_other {m : Memory} {a n v x : Nat} (hx : x < a ∨ a + n ≤ x) (h : Memory.wf m = true) :
    (m.write a n v).get x = m.get x := by
  induction n generalizing m a v with
  | zero => rfl
  | succ n ih =>
    simp only [Memory.write]
    rw [ih (by omega) (Memory.set_wf _ _ h), Memory.get_set_other _ (by omega) h]

/-- A byte of a write, counted from its address. -/
theorem Memory.get_write {m : Memory} (a n v i : Nat) (hi : i < n) (h : Memory.wf m = true) :
    (m.write a n v).get (a + i) = BitVec.ofNat 8 (v / 256 ^ i) := by
  induction n generalizing m a v i with
  | zero => omega
  | succ n ih =>
    simp only [Memory.write]
    cases i with
    | zero =>
      rw [Memory.get_write_other (by omega) (Memory.set_wf _ _ h)]
      simp [Memory.get_set_self _ _ h]
    | succ i =>
      have := ih (a + 1) (v / 256) i (by omega) (Memory.set_wf a (BitVec.ofNat 8 v) h)
      rw [show a + (i + 1) = a + 1 + i by omega, this, Nat.div_div_eq_div_mul, Nat.pow_succ', Nat.mul_comm]

/-- A read of a range depends on its bytes alone. -/
theorem Memory.read_congr {m k : Memory} {a n : Nat} (h : ∀ i, i < n → m.get (a + i) = k.get (a + i)) :
    m.read a n = k.read a n := by
  induction n generalizing a with
  | zero => rfl
  | succ n ih =>
    simp only [Memory.read]
    rw [show m.get a = k.get a by simpa using h 0 (by omega)]
    rw [ih fun i hi => by simpa [Nat.add_assoc, Nat.add_comm 1 i] using h (i + 1) (by omega)]

/-- A read of what was written gives the value (R15). -/
theorem Memory.read_write {m : Memory} (a n v : Nat) (h : Memory.wf m = true) :
    (m.write a n v).read a n = v % 256 ^ n := by
  induction n generalizing m a v with
  | zero => simp [Memory.read, Nat.mod_one]
  | succ n ih =>
    simp only [Memory.write, Memory.read]
    rw [ih (a + 1) (v / 256) (Memory.set_wf a _ h), Memory.get_write_other (by omega) (Memory.set_wf _ _ h),
      Memory.get_set_self _ _ h]
    rw [BitVec.toNat_ofNat, show 2 ^ 8 = 256 from rfl, Nat.pow_succ', Nat.mod_mul]

theorem Memory.read_lt (m : Memory) (a n : Nat) : m.read a n < 256 ^ n := by
  induction n generalizing a with
  | zero => simp [Memory.read]
  | succ n ih =>
    simp only [Memory.read, Nat.pow_succ]
    have h1 := (m.get a).isLt
    have h2 := ih (a + 1)
    omega

end Sys2Proof.Machine
end

