-- ==== Sys2Proof/Laws/State.lean ====
section
/-! SUPPORT. Laws of the state: what each named update leaves as it was, field by field, and what it reads back. -/

namespace Sys2Proof.Machine

/-- leaveCpu leaves every other field as it was. -/
@[simp] theorem State.leaveCpu_frame (s : State) (p : Proc) :
    (s.leaveCpu p).agenda = s.agenda ∧ (s.leaveCpu p).subj = s.subj ∧ (s.leaveCpu p).focus = s.focus ∧
    (s.leaveCpu p).part = s.part ∧ (s.leaveCpu p).pkg = s.pkg ∧ (s.leaveCpu p).time = s.time ∧
    (s.leaveCpu p).dies = s.dies ∧ (s.leaveCpu p).cores = s.cores ∧ (s.leaveCpu p).regions = s.regions ∧
    (s.leaveCpu p).loaderWins = s.loaderWins ∧ (s.leaveCpu p).placed = s.placed ∧
    (s.leaveCpu p).placements = s.placements ∧ (s.leaveCpu p).mem = s.mem ∧ (s.leaveCpu p).empty = s.empty ∧
    (s.leaveCpu p).marks = s.marks ∧ (s.leaveCpu p).latent = s.latent ∧ (s.leaveCpu p).hbm = s.hbm ∧
    (s.leaveCpu p).hbmMarks = s.hbmMarks ∧ (s.leaveCpu p).far = s.far ∧ (s.leaveCpu p).farMarks = s.farMarks ∧
    (s.leaveCpu p).host = s.host ∧ (s.leaveCpu p).watches = s.watches ∧ (s.leaveCpu p).rsvs = s.rsvs ∧
    (s.leaveCpu p).packets = s.packets ∧ (s.leaveCpu p).flits = s.flits ∧ (s.leaveCpu p).loanMsgs = s.loanMsgs ∧
    (s.leaveCpu p).probes = s.probes ∧ (s.leaveCpu p).transfers = s.transfers ∧ (s.leaveCpu p).channels = s.channels ∧
    (s.leaveCpu p).barriers = s.barriers ∧ (s.leaveCpu p).requests = s.requests ∧ (s.leaveCpu p).servers = s.servers ∧
    (s.leaveCpu p).groups = s.groups ∧ (s.leaveCpu p).hostQueues = s.hostQueues ∧ (s.leaveCpu p).threads = s.threads ∧
    (s.leaveCpu p).books = s.books ∧ (s.leaveCpu p).grants = s.grants ∧ (s.leaveCpu p).edgeGrants = s.edgeGrants ∧
    (s.leaveCpu p).sems = s.sems ∧ (s.leaveCpu p).semOwners = s.semOwners ∧ (s.leaveCpu p).triggers = s.triggers ∧
    (s.leaveCpu p).trigWrites = s.trigWrites ∧ (s.leaveCpu p).managerRecords = s.managerRecords ∧
    (s.leaveCpu p).mailbox = s.mailbox ∧ (s.leaveCpu p).errorRings = s.errorRings ∧ (s.leaveCpu p).irqs = s.irqs ∧
    (s.leaveCpu p).framesOut = s.framesOut ∧ (s.leaveCpu p).acksOut = s.acksOut ∧ (s.leaveCpu p).uaOut = s.uaOut ∧
    (s.leaveCpu p).reports = s.reports ∧ (s.leaveCpu p).reclock = s.reclock ∧ (s.leaveCpu p).affected = s.affected ∧
    (s.leaveCpu p).loftUsed = s.loftUsed ∧ (s.leaveCpu p).bookHashes = s.bookHashes ∧
    (s.leaveCpu p).nextPid = s.nextPid ∧ (s.leaveCpu p).nextRegion = s.nextRegion ∧ (s.leaveCpu p).nextId = s.nextId ∧
    (s.leaveCpu p).free = s.free := by
  refine ⟨?_, ?_, ?_, ?_, ?_, ?_, ?_, ?_, ?_, ?_, ?_, ?_, ?_, ?_, ?_, ?_, ?_, ?_, ?_, ?_, ?_, ?_, ?_, ?_, ?_, ?_, ?_, ?_, ?_, ?_, ?_, ?_, ?_, ?_, ?_, ?_, ?_, ?_, ?_, ?_, ?_, ?_, ?_, ?_, ?_, ?_, ?_, ?_, ?_, ?_, ?_, ?_, ?_, ?_, ?_, ?_, ?_, ?_⟩ <;> rfl

theorem State.putProc_shape (s : State) (p : Proc) : ∃ v0 v1, s.putProc p = { s with cpu := v0, procs := v1 } := by
  unfold State.putProc
  dsimp only
  split
  · split
    · exact ⟨some p, s.procs, rfl⟩
    · split <;> exact ⟨_, _, rfl⟩
  · split <;> exact ⟨_, _, rfl⟩

/-- putProc leaves every other field as it was. -/
@[simp] theorem State.putProc_frame (s : State) (p : Proc) :
    (s.putProc p).agenda = s.agenda ∧ (s.putProc p).subj = s.subj ∧ (s.putProc p).focus = s.focus ∧
    (s.putProc p).part = s.part ∧ (s.putProc p).pkg = s.pkg ∧ (s.putProc p).time = s.time ∧
    (s.putProc p).dies = s.dies ∧ (s.putProc p).cores = s.cores ∧ (s.putProc p).regions = s.regions ∧
    (s.putProc p).loaderWins = s.loaderWins ∧ (s.putProc p).placed = s.placed ∧
    (s.putProc p).placements = s.placements ∧ (s.putProc p).mem = s.mem ∧ (s.putProc p).empty = s.empty ∧
    (s.putProc p).marks = s.marks ∧ (s.putProc p).latent = s.latent ∧ (s.putProc p).hbm = s.hbm ∧
    (s.putProc p).hbmMarks = s.hbmMarks ∧ (s.putProc p).far = s.far ∧ (s.putProc p).farMarks = s.farMarks ∧
    (s.putProc p).host = s.host ∧ (s.putProc p).watches = s.watches ∧ (s.putProc p).rsvs = s.rsvs ∧
    (s.putProc p).packets = s.packets ∧ (s.putProc p).flits = s.flits ∧ (s.putProc p).loanMsgs = s.loanMsgs ∧
    (s.putProc p).probes = s.probes ∧ (s.putProc p).transfers = s.transfers ∧ (s.putProc p).channels = s.channels ∧
    (s.putProc p).barriers = s.barriers ∧ (s.putProc p).requests = s.requests ∧ (s.putProc p).servers = s.servers ∧
    (s.putProc p).groups = s.groups ∧ (s.putProc p).hostQueues = s.hostQueues ∧ (s.putProc p).threads = s.threads ∧
    (s.putProc p).books = s.books ∧ (s.putProc p).grants = s.grants ∧ (s.putProc p).edgeGrants = s.edgeGrants ∧
    (s.putProc p).sems = s.sems ∧ (s.putProc p).semOwners = s.semOwners ∧ (s.putProc p).triggers = s.triggers ∧
    (s.putProc p).trigWrites = s.trigWrites ∧ (s.putProc p).managerRecords = s.managerRecords ∧
    (s.putProc p).mailbox = s.mailbox ∧ (s.putProc p).errorRings = s.errorRings ∧ (s.putProc p).irqs = s.irqs ∧
    (s.putProc p).framesOut = s.framesOut ∧ (s.putProc p).acksOut = s.acksOut ∧ (s.putProc p).uaOut = s.uaOut ∧
    (s.putProc p).reports = s.reports ∧ (s.putProc p).reclock = s.reclock ∧ (s.putProc p).affected = s.affected ∧
    (s.putProc p).loftUsed = s.loftUsed ∧ (s.putProc p).bookHashes = s.bookHashes ∧
    (s.putProc p).nextPid = s.nextPid ∧ (s.putProc p).nextRegion = s.nextRegion ∧ (s.putProc p).nextId = s.nextId ∧
    (s.putProc p).free = s.free := by
  obtain ⟨v0, v1, h⟩ := State.putProc_shape s p
  rw [h]
  refine ⟨?_, ?_, ?_, ?_, ?_, ?_, ?_, ?_, ?_, ?_, ?_, ?_, ?_, ?_, ?_, ?_, ?_, ?_, ?_, ?_, ?_, ?_, ?_, ?_, ?_, ?_, ?_, ?_, ?_, ?_, ?_, ?_, ?_, ?_, ?_, ?_, ?_, ?_, ?_, ?_, ?_, ?_, ?_, ?_, ?_, ?_, ?_, ?_, ?_, ?_, ?_, ?_, ?_, ?_, ?_, ?_, ?_, ?_⟩ <;> rfl

theorem State.modProc_shape (s : State) (pid : Nat) (f : Proc → Proc) : ∃ v0 v1, s.modProc pid f = { s with cpu := v0, procs := v1 } := by
  unfold State.modProc
  split
  · exact State.putProc_shape s _
  · exact ⟨s.cpu, s.procs, rfl⟩

/-- modProc leaves every other field as it was. -/
@[simp] theorem State.modProc_frame (s : State) (pid : Nat) (f : Proc → Proc) :
    (s.modProc pid f).agenda = s.agenda ∧ (s.modProc pid f).subj = s.subj ∧ (s.modProc pid f).focus = s.focus ∧
    (s.modProc pid f).part = s.part ∧ (s.modProc pid f).pkg = s.pkg ∧ (s.modProc pid f).time = s.time ∧
    (s.modProc pid f).dies = s.dies ∧ (s.modProc pid f).cores = s.cores ∧ (s.modProc pid f).regions = s.regions ∧
    (s.modProc pid f).loaderWins = s.loaderWins ∧ (s.modProc pid f).placed = s.placed ∧
    (s.modProc pid f).placements = s.placements ∧ (s.modProc pid f).mem = s.mem ∧ (s.modProc pid f).empty = s.empty ∧
    (s.modProc pid f).marks = s.marks ∧ (s.modProc pid f).latent = s.latent ∧ (s.modProc pid f).hbm = s.hbm ∧
    (s.modProc pid f).hbmMarks = s.hbmMarks ∧ (s.modProc pid f).far = s.far ∧
    (s.modProc pid f).farMarks = s.farMarks ∧ (s.modProc pid f).host = s.host ∧
    (s.modProc pid f).watches = s.watches ∧ (s.modProc pid f).rsvs = s.rsvs ∧ (s.modProc pid f).packets = s.packets ∧
    (s.modProc pid f).flits = s.flits ∧ (s.modProc pid f).loanMsgs = s.loanMsgs ∧
    (s.modProc pid f).probes = s.probes ∧ (s.modProc pid f).transfers = s.transfers ∧
    (s.modProc pid f).channels = s.channels ∧ (s.modProc pid f).barriers = s.barriers ∧
    (s.modProc pid f).requests = s.requests ∧ (s.modProc pid f).servers = s.servers ∧
    (s.modProc pid f).groups = s.groups ∧ (s.modProc pid f).hostQueues = s.hostQueues ∧
    (s.modProc pid f).threads = s.threads ∧ (s.modProc pid f).books = s.books ∧ (s.modProc pid f).grants = s.grants ∧
    (s.modProc pid f).edgeGrants = s.edgeGrants ∧ (s.modProc pid f).sems = s.sems ∧
    (s.modProc pid f).semOwners = s.semOwners ∧ (s.modProc pid f).triggers = s.triggers ∧
    (s.modProc pid f).trigWrites = s.trigWrites ∧ (s.modProc pid f).managerRecords = s.managerRecords ∧
    (s.modProc pid f).mailbox = s.mailbox ∧ (s.modProc pid f).errorRings = s.errorRings ∧
    (s.modProc pid f).irqs = s.irqs ∧ (s.modProc pid f).framesOut = s.framesOut ∧
    (s.modProc pid f).acksOut = s.acksOut ∧ (s.modProc pid f).uaOut = s.uaOut ∧
    (s.modProc pid f).reports = s.reports ∧ (s.modProc pid f).reclock = s.reclock ∧
    (s.modProc pid f).affected = s.affected ∧ (s.modProc pid f).loftUsed = s.loftUsed ∧
    (s.modProc pid f).bookHashes = s.bookHashes ∧ (s.modProc pid f).nextPid = s.nextPid ∧
    (s.modProc pid f).nextRegion = s.nextRegion ∧ (s.modProc pid f).nextId = s.nextId ∧
    (s.modProc pid f).free = s.free := by
  obtain ⟨v0, v1, h⟩ := State.modProc_shape s pid f
  rw [h]
  refine ⟨?_, ?_, ?_, ?_, ?_, ?_, ?_, ?_, ?_, ?_, ?_, ?_, ?_, ?_, ?_, ?_, ?_, ?_, ?_, ?_, ?_, ?_, ?_, ?_, ?_, ?_, ?_, ?_, ?_, ?_, ?_, ?_, ?_, ?_, ?_, ?_, ?_, ?_, ?_, ?_, ?_, ?_, ?_, ?_, ?_, ?_, ?_, ?_, ?_, ?_, ?_, ?_, ?_, ?_, ?_, ?_, ?_, ?_⟩ <;> rfl

theorem State.leaveRunning_shape (s : State) (p : Proc) : ∃ v0 v1, s.leaveRunning p = { s with cpu := v0, procs := v1 } := by
  unfold State.leaveRunning
  split
  · split
    · exact ⟨none, s.procs ++ [p], rfl⟩
    · exact State.putProc_shape s p
  · exact State.putProc_shape s p

/-- leaveRunning leaves every other field as it was. -/
@[simp] theorem State.leaveRunning_frame (s : State) (p : Proc) :
    (s.leaveRunning p).agenda = s.agenda ∧ (s.leaveRunning p).subj = s.subj ∧ (s.leaveRunning p).focus = s.focus ∧
    (s.leaveRunning p).part = s.part ∧ (s.leaveRunning p).pkg = s.pkg ∧ (s.leaveRunning p).time = s.time ∧
    (s.leaveRunning p).dies = s.dies ∧ (s.leaveRunning p).cores = s.cores ∧ (s.leaveRunning p).regions = s.regions ∧
    (s.leaveRunning p).loaderWins = s.loaderWins ∧ (s.leaveRunning p).placed = s.placed ∧
    (s.leaveRunning p).placements = s.placements ∧ (s.leaveRunning p).mem = s.mem ∧
    (s.leaveRunning p).empty = s.empty ∧ (s.leaveRunning p).marks = s.marks ∧ (s.leaveRunning p).latent = s.latent ∧
    (s.leaveRunning p).hbm = s.hbm ∧ (s.leaveRunning p).hbmMarks = s.hbmMarks ∧ (s.leaveRunning p).far = s.far ∧
    (s.leaveRunning p).farMarks = s.farMarks ∧ (s.leaveRunning p).host = s.host ∧
    (s.leaveRunning p).watches = s.watches ∧ (s.leaveRunning p).rsvs = s.rsvs ∧
    (s.leaveRunning p).packets = s.packets ∧ (s.leaveRunning p).flits = s.flits ∧
    (s.leaveRunning p).loanMsgs = s.loanMsgs ∧ (s.leaveRunning p).probes = s.probes ∧
    (s.leaveRunning p).transfers = s.transfers ∧ (s.leaveRunning p).channels = s.channels ∧
    (s.leaveRunning p).barriers = s.barriers ∧ (s.leaveRunning p).requests = s.requests ∧
    (s.leaveRunning p).servers = s.servers ∧ (s.leaveRunning p).groups = s.groups ∧
    (s.leaveRunning p).hostQueues = s.hostQueues ∧ (s.leaveRunning p).threads = s.threads ∧
    (s.leaveRunning p).books = s.books ∧ (s.leaveRunning p).grants = s.grants ∧
    (s.leaveRunning p).edgeGrants = s.edgeGrants ∧ (s.leaveRunning p).sems = s.sems ∧
    (s.leaveRunning p).semOwners = s.semOwners ∧ (s.leaveRunning p).triggers = s.triggers ∧
    (s.leaveRunning p).trigWrites = s.trigWrites ∧ (s.leaveRunning p).managerRecords = s.managerRecords ∧
    (s.leaveRunning p).mailbox = s.mailbox ∧ (s.leaveRunning p).errorRings = s.errorRings ∧
    (s.leaveRunning p).irqs = s.irqs ∧ (s.leaveRunning p).framesOut = s.framesOut ∧
    (s.leaveRunning p).acksOut = s.acksOut ∧ (s.leaveRunning p).uaOut = s.uaOut ∧
    (s.leaveRunning p).reports = s.reports ∧ (s.leaveRunning p).reclock = s.reclock ∧
    (s.leaveRunning p).affected = s.affected ∧ (s.leaveRunning p).loftUsed = s.loftUsed ∧
    (s.leaveRunning p).bookHashes = s.bookHashes ∧ (s.leaveRunning p).nextPid = s.nextPid ∧
    (s.leaveRunning p).nextRegion = s.nextRegion ∧ (s.leaveRunning p).nextId = s.nextId ∧
    (s.leaveRunning p).free = s.free := by
  obtain ⟨v0, v1, h⟩ := State.leaveRunning_shape s p
  rw [h]
  refine ⟨?_, ?_, ?_, ?_, ?_, ?_, ?_, ?_, ?_, ?_, ?_, ?_, ?_, ?_, ?_, ?_, ?_, ?_, ?_, ?_, ?_, ?_, ?_, ?_, ?_, ?_, ?_, ?_, ?_, ?_, ?_, ?_, ?_, ?_, ?_, ?_, ?_, ?_, ?_, ?_, ?_, ?_, ?_, ?_, ?_, ?_, ?_, ?_, ?_, ?_, ?_, ?_, ?_, ?_, ?_, ?_, ?_, ?_⟩ <;> rfl

theorem State.refocus_shape (s : State) (c : Nat) : ∃ v0 v1 v2, s.refocus c = { s with focus := v0, cpu := v1, procs := v2 } := by
  unfold State.refocus
  split
  · exact ⟨s.focus, s.cpu, s.procs, rfl⟩
  · dsimp only
    split <;> exact ⟨_, _, _, rfl⟩

/-- refocus leaves every other field as it was. -/
@[simp] theorem State.refocus_frame (s : State) (c : Nat) :
    (s.refocus c).agenda = s.agenda ∧ (s.refocus c).subj = s.subj ∧ (s.refocus c).part = s.part ∧
    (s.refocus c).pkg = s.pkg ∧ (s.refocus c).time = s.time ∧ (s.refocus c).dies = s.dies ∧
    (s.refocus c).cores = s.cores ∧ (s.refocus c).regions = s.regions ∧ (s.refocus c).loaderWins = s.loaderWins ∧
    (s.refocus c).placed = s.placed ∧ (s.refocus c).placements = s.placements ∧ (s.refocus c).mem = s.mem ∧
    (s.refocus c).empty = s.empty ∧ (s.refocus c).marks = s.marks ∧ (s.refocus c).latent = s.latent ∧
    (s.refocus c).hbm = s.hbm ∧ (s.refocus c).hbmMarks = s.hbmMarks ∧ (s.refocus c).far = s.far ∧
    (s.refocus c).farMarks = s.farMarks ∧ (s.refocus c).host = s.host ∧ (s.refocus c).watches = s.watches ∧
    (s.refocus c).rsvs = s.rsvs ∧ (s.refocus c).packets = s.packets ∧ (s.refocus c).flits = s.flits ∧
    (s.refocus c).loanMsgs = s.loanMsgs ∧ (s.refocus c).probes = s.probes ∧ (s.refocus c).transfers = s.transfers ∧
    (s.refocus c).channels = s.channels ∧ (s.refocus c).barriers = s.barriers ∧ (s.refocus c).requests = s.requests ∧
    (s.refocus c).servers = s.servers ∧ (s.refocus c).groups = s.groups ∧ (s.refocus c).hostQueues = s.hostQueues ∧
    (s.refocus c).threads = s.threads ∧ (s.refocus c).books = s.books ∧ (s.refocus c).grants = s.grants ∧
    (s.refocus c).edgeGrants = s.edgeGrants ∧ (s.refocus c).sems = s.sems ∧ (s.refocus c).semOwners = s.semOwners ∧
    (s.refocus c).triggers = s.triggers ∧ (s.refocus c).trigWrites = s.trigWrites ∧
    (s.refocus c).managerRecords = s.managerRecords ∧ (s.refocus c).mailbox = s.mailbox ∧
    (s.refocus c).errorRings = s.errorRings ∧ (s.refocus c).irqs = s.irqs ∧ (s.refocus c).framesOut = s.framesOut ∧
    (s.refocus c).acksOut = s.acksOut ∧ (s.refocus c).uaOut = s.uaOut ∧ (s.refocus c).reports = s.reports ∧
    (s.refocus c).reclock = s.reclock ∧ (s.refocus c).affected = s.affected ∧ (s.refocus c).loftUsed = s.loftUsed ∧
    (s.refocus c).bookHashes = s.bookHashes ∧ (s.refocus c).nextPid = s.nextPid ∧
    (s.refocus c).nextRegion = s.nextRegion ∧ (s.refocus c).nextId = s.nextId ∧ (s.refocus c).free = s.free := by
  obtain ⟨v0, v1, v2, h⟩ := State.refocus_shape s c
  rw [h]
  refine ⟨?_, ?_, ?_, ?_, ?_, ?_, ?_, ?_, ?_, ?_, ?_, ?_, ?_, ?_, ?_, ?_, ?_, ?_, ?_, ?_, ?_, ?_, ?_, ?_, ?_, ?_, ?_, ?_, ?_, ?_, ?_, ?_, ?_, ?_, ?_, ?_, ?_, ?_, ?_, ?_, ?_, ?_, ?_, ?_, ?_, ?_, ?_, ?_, ?_, ?_, ?_, ?_, ?_, ?_, ?_, ?_, ?_⟩ <;> rfl

/-- putCore leaves every other field as it was. -/
@[simp] theorem State.putCore_frame (s : State) (k : Core) :
    (s.putCore k).agenda = s.agenda ∧ (s.putCore k).subj = s.subj ∧ (s.putCore k).focus = s.focus ∧
    (s.putCore k).cpu = s.cpu ∧ (s.putCore k).part = s.part ∧ (s.putCore k).pkg = s.pkg ∧
    (s.putCore k).time = s.time ∧ (s.putCore k).dies = s.dies ∧ (s.putCore k).procs = s.procs ∧
    (s.putCore k).regions = s.regions ∧ (s.putCore k).loaderWins = s.loaderWins ∧ (s.putCore k).placed = s.placed ∧
    (s.putCore k).placements = s.placements ∧ (s.putCore k).mem = s.mem ∧ (s.putCore k).empty = s.empty ∧
    (s.putCore k).marks = s.marks ∧ (s.putCore k).latent = s.latent ∧ (s.putCore k).hbm = s.hbm ∧
    (s.putCore k).hbmMarks = s.hbmMarks ∧ (s.putCore k).far = s.far ∧ (s.putCore k).farMarks = s.farMarks ∧
    (s.putCore k).host = s.host ∧ (s.putCore k).watches = s.watches ∧ (s.putCore k).rsvs = s.rsvs ∧
    (s.putCore k).packets = s.packets ∧ (s.putCore k).flits = s.flits ∧ (s.putCore k).loanMsgs = s.loanMsgs ∧
    (s.putCore k).probes = s.probes ∧ (s.putCore k).transfers = s.transfers ∧ (s.putCore k).channels = s.channels ∧
    (s.putCore k).barriers = s.barriers ∧ (s.putCore k).requests = s.requests ∧ (s.putCore k).servers = s.servers ∧
    (s.putCore k).groups = s.groups ∧ (s.putCore k).hostQueues = s.hostQueues ∧ (s.putCore k).threads = s.threads ∧
    (s.putCore k).books = s.books ∧ (s.putCore k).grants = s.grants ∧ (s.putCore k).edgeGrants = s.edgeGrants ∧
    (s.putCore k).sems = s.sems ∧ (s.putCore k).semOwners = s.semOwners ∧ (s.putCore k).triggers = s.triggers ∧
    (s.putCore k).trigWrites = s.trigWrites ∧ (s.putCore k).managerRecords = s.managerRecords ∧
    (s.putCore k).mailbox = s.mailbox ∧ (s.putCore k).errorRings = s.errorRings ∧ (s.putCore k).irqs = s.irqs ∧
    (s.putCore k).framesOut = s.framesOut ∧ (s.putCore k).acksOut = s.acksOut ∧ (s.putCore k).uaOut = s.uaOut ∧
    (s.putCore k).reports = s.reports ∧ (s.putCore k).reclock = s.reclock ∧ (s.putCore k).affected = s.affected ∧
    (s.putCore k).loftUsed = s.loftUsed ∧ (s.putCore k).bookHashes = s.bookHashes ∧
    (s.putCore k).nextPid = s.nextPid ∧ (s.putCore k).nextRegion = s.nextRegion ∧ (s.putCore k).nextId = s.nextId ∧
    (s.putCore k).free = s.free := by
  refine ⟨?_, ?_, ?_, ?_, ?_, ?_, ?_, ?_, ?_, ?_, ?_, ?_, ?_, ?_, ?_, ?_, ?_, ?_, ?_, ?_, ?_, ?_, ?_, ?_, ?_, ?_, ?_, ?_, ?_, ?_, ?_, ?_, ?_, ?_, ?_, ?_, ?_, ?_, ?_, ?_, ?_, ?_, ?_, ?_, ?_, ?_, ?_, ?_, ?_, ?_, ?_, ?_, ?_, ?_, ?_, ?_, ?_, ?_, ?_⟩ <;> rfl

/-- modCore leaves every other field as it was. -/
@[simp] theorem State.modCore_frame (s : State) (c : Nat) (f : Core → Core) :
    (s.modCore c f).agenda = s.agenda ∧ (s.modCore c f).subj = s.subj ∧ (s.modCore c f).focus = s.focus ∧
    (s.modCore c f).cpu = s.cpu ∧ (s.modCore c f).part = s.part ∧ (s.modCore c f).pkg = s.pkg ∧
    (s.modCore c f).time = s.time ∧ (s.modCore c f).dies = s.dies ∧ (s.modCore c f).procs = s.procs ∧
    (s.modCore c f).regions = s.regions ∧ (s.modCore c f).loaderWins = s.loaderWins ∧
    (s.modCore c f).placed = s.placed ∧ (s.modCore c f).placements = s.placements ∧ (s.modCore c f).mem = s.mem ∧
    (s.modCore c f).empty = s.empty ∧ (s.modCore c f).marks = s.marks ∧ (s.modCore c f).latent = s.latent ∧
    (s.modCore c f).hbm = s.hbm ∧ (s.modCore c f).hbmMarks = s.hbmMarks ∧ (s.modCore c f).far = s.far ∧
    (s.modCore c f).farMarks = s.farMarks ∧ (s.modCore c f).host = s.host ∧ (s.modCore c f).watches = s.watches ∧
    (s.modCore c f).rsvs = s.rsvs ∧ (s.modCore c f).packets = s.packets ∧ (s.modCore c f).flits = s.flits ∧
    (s.modCore c f).loanMsgs = s.loanMsgs ∧ (s.modCore c f).probes = s.probes ∧
    (s.modCore c f).transfers = s.transfers ∧ (s.modCore c f).channels = s.channels ∧
    (s.modCore c f).barriers = s.barriers ∧ (s.modCore c f).requests = s.requests ∧
    (s.modCore c f).servers = s.servers ∧ (s.modCore c f).groups = s.groups ∧
    (s.modCore c f).hostQueues = s.hostQueues ∧ (s.modCore c f).threads = s.threads ∧
    (s.modCore c f).books = s.books ∧ (s.modCore c f).grants = s.grants ∧ (s.modCore c f).edgeGrants = s.edgeGrants ∧
    (s.modCore c f).sems = s.sems ∧ (s.modCore c f).semOwners = s.semOwners ∧ (s.modCore c f).triggers = s.triggers ∧
    (s.modCore c f).trigWrites = s.trigWrites ∧ (s.modCore c f).managerRecords = s.managerRecords ∧
    (s.modCore c f).mailbox = s.mailbox ∧ (s.modCore c f).errorRings = s.errorRings ∧ (s.modCore c f).irqs = s.irqs ∧
    (s.modCore c f).framesOut = s.framesOut ∧ (s.modCore c f).acksOut = s.acksOut ∧ (s.modCore c f).uaOut = s.uaOut ∧
    (s.modCore c f).reports = s.reports ∧ (s.modCore c f).reclock = s.reclock ∧
    (s.modCore c f).affected = s.affected ∧ (s.modCore c f).loftUsed = s.loftUsed ∧
    (s.modCore c f).bookHashes = s.bookHashes ∧ (s.modCore c f).nextPid = s.nextPid ∧
    (s.modCore c f).nextRegion = s.nextRegion ∧ (s.modCore c f).nextId = s.nextId ∧
    (s.modCore c f).free = s.free := by
  refine ⟨?_, ?_, ?_, ?_, ?_, ?_, ?_, ?_, ?_, ?_, ?_, ?_, ?_, ?_, ?_, ?_, ?_, ?_, ?_, ?_, ?_, ?_, ?_, ?_, ?_, ?_, ?_, ?_, ?_, ?_, ?_, ?_, ?_, ?_, ?_, ?_, ?_, ?_, ?_, ?_, ?_, ?_, ?_, ?_, ?_, ?_, ?_, ?_, ?_, ?_, ?_, ?_, ?_, ?_, ?_, ?_, ?_, ?_, ?_⟩ <;> rfl

/-- putDie leaves every other field as it was. -/
@[simp] theorem State.putDie_frame (s : State) (k : Die) :
    (s.putDie k).agenda = s.agenda ∧ (s.putDie k).subj = s.subj ∧ (s.putDie k).focus = s.focus ∧
    (s.putDie k).cpu = s.cpu ∧ (s.putDie k).part = s.part ∧ (s.putDie k).pkg = s.pkg ∧ (s.putDie k).time = s.time ∧
    (s.putDie k).cores = s.cores ∧ (s.putDie k).procs = s.procs ∧ (s.putDie k).regions = s.regions ∧
    (s.putDie k).loaderWins = s.loaderWins ∧ (s.putDie k).placed = s.placed ∧ (s.putDie k).placements = s.placements ∧
    (s.putDie k).mem = s.mem ∧ (s.putDie k).empty = s.empty ∧ (s.putDie k).marks = s.marks ∧
    (s.putDie k).latent = s.latent ∧ (s.putDie k).hbm = s.hbm ∧ (s.putDie k).hbmMarks = s.hbmMarks ∧
    (s.putDie k).far = s.far ∧ (s.putDie k).farMarks = s.farMarks ∧ (s.putDie k).host = s.host ∧
    (s.putDie k).watches = s.watches ∧ (s.putDie k).rsvs = s.rsvs ∧ (s.putDie k).packets = s.packets ∧
    (s.putDie k).flits = s.flits ∧ (s.putDie k).loanMsgs = s.loanMsgs ∧ (s.putDie k).probes = s.probes ∧
    (s.putDie k).transfers = s.transfers ∧ (s.putDie k).channels = s.channels ∧ (s.putDie k).barriers = s.barriers ∧
    (s.putDie k).requests = s.requests ∧ (s.putDie k).servers = s.servers ∧ (s.putDie k).groups = s.groups ∧
    (s.putDie k).hostQueues = s.hostQueues ∧ (s.putDie k).threads = s.threads ∧ (s.putDie k).books = s.books ∧
    (s.putDie k).grants = s.grants ∧ (s.putDie k).edgeGrants = s.edgeGrants ∧ (s.putDie k).sems = s.sems ∧
    (s.putDie k).semOwners = s.semOwners ∧ (s.putDie k).triggers = s.triggers ∧
    (s.putDie k).trigWrites = s.trigWrites ∧ (s.putDie k).managerRecords = s.managerRecords ∧
    (s.putDie k).mailbox = s.mailbox ∧ (s.putDie k).errorRings = s.errorRings ∧ (s.putDie k).irqs = s.irqs ∧
    (s.putDie k).framesOut = s.framesOut ∧ (s.putDie k).acksOut = s.acksOut ∧ (s.putDie k).uaOut = s.uaOut ∧
    (s.putDie k).reports = s.reports ∧ (s.putDie k).reclock = s.reclock ∧ (s.putDie k).affected = s.affected ∧
    (s.putDie k).loftUsed = s.loftUsed ∧ (s.putDie k).bookHashes = s.bookHashes ∧ (s.putDie k).nextPid = s.nextPid ∧
    (s.putDie k).nextRegion = s.nextRegion ∧ (s.putDie k).nextId = s.nextId ∧ (s.putDie k).free = s.free := by
  refine ⟨?_, ?_, ?_, ?_, ?_, ?_, ?_, ?_, ?_, ?_, ?_, ?_, ?_, ?_, ?_, ?_, ?_, ?_, ?_, ?_, ?_, ?_, ?_, ?_, ?_, ?_, ?_, ?_, ?_, ?_, ?_, ?_, ?_, ?_, ?_, ?_, ?_, ?_, ?_, ?_, ?_, ?_, ?_, ?_, ?_, ?_, ?_, ?_, ?_, ?_, ?_, ?_, ?_, ?_, ?_, ?_, ?_, ?_, ?_⟩ <;> rfl

/-- modDie leaves every other field as it was. -/
@[simp] theorem State.modDie_frame (s : State) (d : Nat) (f : Die → Die) :
    (s.modDie d f).agenda = s.agenda ∧ (s.modDie d f).subj = s.subj ∧ (s.modDie d f).focus = s.focus ∧
    (s.modDie d f).cpu = s.cpu ∧ (s.modDie d f).part = s.part ∧ (s.modDie d f).pkg = s.pkg ∧
    (s.modDie d f).time = s.time ∧ (s.modDie d f).cores = s.cores ∧ (s.modDie d f).procs = s.procs ∧
    (s.modDie d f).regions = s.regions ∧ (s.modDie d f).loaderWins = s.loaderWins ∧ (s.modDie d f).placed = s.placed ∧
    (s.modDie d f).placements = s.placements ∧ (s.modDie d f).mem = s.mem ∧ (s.modDie d f).empty = s.empty ∧
    (s.modDie d f).marks = s.marks ∧ (s.modDie d f).latent = s.latent ∧ (s.modDie d f).hbm = s.hbm ∧
    (s.modDie d f).hbmMarks = s.hbmMarks ∧ (s.modDie d f).far = s.far ∧ (s.modDie d f).farMarks = s.farMarks ∧
    (s.modDie d f).host = s.host ∧ (s.modDie d f).watches = s.watches ∧ (s.modDie d f).rsvs = s.rsvs ∧
    (s.modDie d f).packets = s.packets ∧ (s.modDie d f).flits = s.flits ∧ (s.modDie d f).loanMsgs = s.loanMsgs ∧
    (s.modDie d f).probes = s.probes ∧ (s.modDie d f).transfers = s.transfers ∧ (s.modDie d f).channels = s.channels ∧
    (s.modDie d f).barriers = s.barriers ∧ (s.modDie d f).requests = s.requests ∧ (s.modDie d f).servers = s.servers ∧
    (s.modDie d f).groups = s.groups ∧ (s.modDie d f).hostQueues = s.hostQueues ∧ (s.modDie d f).threads = s.threads ∧
    (s.modDie d f).books = s.books ∧ (s.modDie d f).grants = s.grants ∧ (s.modDie d f).edgeGrants = s.edgeGrants ∧
    (s.modDie d f).sems = s.sems ∧ (s.modDie d f).semOwners = s.semOwners ∧ (s.modDie d f).triggers = s.triggers ∧
    (s.modDie d f).trigWrites = s.trigWrites ∧ (s.modDie d f).managerRecords = s.managerRecords ∧
    (s.modDie d f).mailbox = s.mailbox ∧ (s.modDie d f).errorRings = s.errorRings ∧ (s.modDie d f).irqs = s.irqs ∧
    (s.modDie d f).framesOut = s.framesOut ∧ (s.modDie d f).acksOut = s.acksOut ∧ (s.modDie d f).uaOut = s.uaOut ∧
    (s.modDie d f).reports = s.reports ∧ (s.modDie d f).reclock = s.reclock ∧ (s.modDie d f).affected = s.affected ∧
    (s.modDie d f).loftUsed = s.loftUsed ∧ (s.modDie d f).bookHashes = s.bookHashes ∧
    (s.modDie d f).nextPid = s.nextPid ∧ (s.modDie d f).nextRegion = s.nextRegion ∧ (s.modDie d f).nextId = s.nextId ∧
    (s.modDie d f).free = s.free := by
  refine ⟨?_, ?_, ?_, ?_, ?_, ?_, ?_, ?_, ?_, ?_, ?_, ?_, ?_, ?_, ?_, ?_, ?_, ?_, ?_, ?_, ?_, ?_, ?_, ?_, ?_, ?_, ?_, ?_, ?_, ?_, ?_, ?_, ?_, ?_, ?_, ?_, ?_, ?_, ?_, ?_, ?_, ?_, ?_, ?_, ?_, ?_, ?_, ?_, ?_, ?_, ?_, ?_, ?_, ?_, ?_, ?_, ?_, ?_, ?_⟩ <;> rfl

/-- putRegion leaves every other field as it was. -/
@[simp] theorem State.putRegion_frame (s : State) (r : Region) :
    (s.putRegion r).agenda = s.agenda ∧ (s.putRegion r).subj = s.subj ∧ (s.putRegion r).focus = s.focus ∧
    (s.putRegion r).cpu = s.cpu ∧ (s.putRegion r).part = s.part ∧ (s.putRegion r).pkg = s.pkg ∧
    (s.putRegion r).time = s.time ∧ (s.putRegion r).dies = s.dies ∧ (s.putRegion r).cores = s.cores ∧
    (s.putRegion r).procs = s.procs ∧ (s.putRegion r).loaderWins = s.loaderWins ∧ (s.putRegion r).placed = s.placed ∧
    (s.putRegion r).placements = s.placements ∧ (s.putRegion r).mem = s.mem ∧ (s.putRegion r).empty = s.empty ∧
    (s.putRegion r).marks = s.marks ∧ (s.putRegion r).latent = s.latent ∧ (s.putRegion r).hbm = s.hbm ∧
    (s.putRegion r).hbmMarks = s.hbmMarks ∧ (s.putRegion r).far = s.far ∧ (s.putRegion r).farMarks = s.farMarks ∧
    (s.putRegion r).host = s.host ∧ (s.putRegion r).watches = s.watches ∧ (s.putRegion r).rsvs = s.rsvs ∧
    (s.putRegion r).packets = s.packets ∧ (s.putRegion r).flits = s.flits ∧ (s.putRegion r).loanMsgs = s.loanMsgs ∧
    (s.putRegion r).probes = s.probes ∧ (s.putRegion r).transfers = s.transfers ∧
    (s.putRegion r).channels = s.channels ∧ (s.putRegion r).barriers = s.barriers ∧
    (s.putRegion r).requests = s.requests ∧ (s.putRegion r).servers = s.servers ∧ (s.putRegion r).groups = s.groups ∧
    (s.putRegion r).hostQueues = s.hostQueues ∧ (s.putRegion r).threads = s.threads ∧
    (s.putRegion r).books = s.books ∧ (s.putRegion r).grants = s.grants ∧ (s.putRegion r).edgeGrants = s.edgeGrants ∧
    (s.putRegion r).sems = s.sems ∧ (s.putRegion r).semOwners = s.semOwners ∧ (s.putRegion r).triggers = s.triggers ∧
    (s.putRegion r).trigWrites = s.trigWrites ∧ (s.putRegion r).managerRecords = s.managerRecords ∧
    (s.putRegion r).mailbox = s.mailbox ∧ (s.putRegion r).errorRings = s.errorRings ∧ (s.putRegion r).irqs = s.irqs ∧
    (s.putRegion r).framesOut = s.framesOut ∧ (s.putRegion r).acksOut = s.acksOut ∧ (s.putRegion r).uaOut = s.uaOut ∧
    (s.putRegion r).reports = s.reports ∧ (s.putRegion r).reclock = s.reclock ∧
    (s.putRegion r).affected = s.affected ∧ (s.putRegion r).loftUsed = s.loftUsed ∧
    (s.putRegion r).bookHashes = s.bookHashes ∧ (s.putRegion r).nextPid = s.nextPid ∧
    (s.putRegion r).nextRegion = s.nextRegion ∧ (s.putRegion r).nextId = s.nextId ∧
    (s.putRegion r).free = s.free := by
  refine ⟨?_, ?_, ?_, ?_, ?_, ?_, ?_, ?_, ?_, ?_, ?_, ?_, ?_, ?_, ?_, ?_, ?_, ?_, ?_, ?_, ?_, ?_, ?_, ?_, ?_, ?_, ?_, ?_, ?_, ?_, ?_, ?_, ?_, ?_, ?_, ?_, ?_, ?_, ?_, ?_, ?_, ?_, ?_, ?_, ?_, ?_, ?_, ?_, ?_, ?_, ?_, ?_, ?_, ?_, ?_, ?_, ?_, ?_, ?_⟩ <;> rfl

theorem State.modRegion_shape (s : State) (n : Nat) (f : Region → Region) : ∃ v0, s.modRegion n f = { s with regions := v0 } := by
  unfold State.modRegion
  split
  · exact ⟨_, rfl⟩
  · exact ⟨s.regions, rfl⟩

/-- modRegion leaves every other field as it was. -/
@[simp] theorem State.modRegion_frame (s : State) (n : Nat) (f : Region → Region) :
    (s.modRegion n f).agenda = s.agenda ∧ (s.modRegion n f).subj = s.subj ∧ (s.modRegion n f).focus = s.focus ∧
    (s.modRegion n f).cpu = s.cpu ∧ (s.modRegion n f).part = s.part ∧ (s.modRegion n f).pkg = s.pkg ∧
    (s.modRegion n f).time = s.time ∧ (s.modRegion n f).dies = s.dies ∧ (s.modRegion n f).cores = s.cores ∧
    (s.modRegion n f).procs = s.procs ∧ (s.modRegion n f).loaderWins = s.loaderWins ∧
    (s.modRegion n f).placed = s.placed ∧ (s.modRegion n f).placements = s.placements ∧
    (s.modRegion n f).mem = s.mem ∧ (s.modRegion n f).empty = s.empty ∧ (s.modRegion n f).marks = s.marks ∧
    (s.modRegion n f).latent = s.latent ∧ (s.modRegion n f).hbm = s.hbm ∧ (s.modRegion n f).hbmMarks = s.hbmMarks ∧
    (s.modRegion n f).far = s.far ∧ (s.modRegion n f).farMarks = s.farMarks ∧ (s.modRegion n f).host = s.host ∧
    (s.modRegion n f).watches = s.watches ∧ (s.modRegion n f).rsvs = s.rsvs ∧ (s.modRegion n f).packets = s.packets ∧
    (s.modRegion n f).flits = s.flits ∧ (s.modRegion n f).loanMsgs = s.loanMsgs ∧
    (s.modRegion n f).probes = s.probes ∧ (s.modRegion n f).transfers = s.transfers ∧
    (s.modRegion n f).channels = s.channels ∧ (s.modRegion n f).barriers = s.barriers ∧
    (s.modRegion n f).requests = s.requests ∧ (s.modRegion n f).servers = s.servers ∧
    (s.modRegion n f).groups = s.groups ∧ (s.modRegion n f).hostQueues = s.hostQueues ∧
    (s.modRegion n f).threads = s.threads ∧ (s.modRegion n f).books = s.books ∧ (s.modRegion n f).grants = s.grants ∧
    (s.modRegion n f).edgeGrants = s.edgeGrants ∧ (s.modRegion n f).sems = s.sems ∧
    (s.modRegion n f).semOwners = s.semOwners ∧ (s.modRegion n f).triggers = s.triggers ∧
    (s.modRegion n f).trigWrites = s.trigWrites ∧ (s.modRegion n f).managerRecords = s.managerRecords ∧
    (s.modRegion n f).mailbox = s.mailbox ∧ (s.modRegion n f).errorRings = s.errorRings ∧
    (s.modRegion n f).irqs = s.irqs ∧ (s.modRegion n f).framesOut = s.framesOut ∧
    (s.modRegion n f).acksOut = s.acksOut ∧ (s.modRegion n f).uaOut = s.uaOut ∧
    (s.modRegion n f).reports = s.reports ∧ (s.modRegion n f).reclock = s.reclock ∧
    (s.modRegion n f).affected = s.affected ∧ (s.modRegion n f).loftUsed = s.loftUsed ∧
    (s.modRegion n f).bookHashes = s.bookHashes ∧ (s.modRegion n f).nextPid = s.nextPid ∧
    (s.modRegion n f).nextRegion = s.nextRegion ∧ (s.modRegion n f).nextId = s.nextId ∧
    (s.modRegion n f).free = s.free := by
  obtain ⟨v0, h⟩ := State.modRegion_shape s n f
  rw [h]
  refine ⟨?_, ?_, ?_, ?_, ?_, ?_, ?_, ?_, ?_, ?_, ?_, ?_, ?_, ?_, ?_, ?_, ?_, ?_, ?_, ?_, ?_, ?_, ?_, ?_, ?_, ?_, ?_, ?_, ?_, ?_, ?_, ?_, ?_, ?_, ?_, ?_, ?_, ?_, ?_, ?_, ?_, ?_, ?_, ?_, ?_, ?_, ?_, ?_, ?_, ?_, ?_, ?_, ?_, ?_, ?_, ?_, ?_, ?_, ?_⟩ <;> rfl

/-- putGroup leaves every other field as it was. -/
@[simp] theorem State.putGroup_frame (s : State) (g : Group) :
    (s.putGroup g).agenda = s.agenda ∧ (s.putGroup g).subj = s.subj ∧ (s.putGroup g).focus = s.focus ∧
    (s.putGroup g).cpu = s.cpu ∧ (s.putGroup g).part = s.part ∧ (s.putGroup g).pkg = s.pkg ∧
    (s.putGroup g).time = s.time ∧ (s.putGroup g).dies = s.dies ∧ (s.putGroup g).cores = s.cores ∧
    (s.putGroup g).procs = s.procs ∧ (s.putGroup g).regions = s.regions ∧ (s.putGroup g).loaderWins = s.loaderWins ∧
    (s.putGroup g).placed = s.placed ∧ (s.putGroup g).placements = s.placements ∧ (s.putGroup g).mem = s.mem ∧
    (s.putGroup g).empty = s.empty ∧ (s.putGroup g).marks = s.marks ∧ (s.putGroup g).latent = s.latent ∧
    (s.putGroup g).hbm = s.hbm ∧ (s.putGroup g).hbmMarks = s.hbmMarks ∧ (s.putGroup g).far = s.far ∧
    (s.putGroup g).farMarks = s.farMarks ∧ (s.putGroup g).host = s.host ∧ (s.putGroup g).watches = s.watches ∧
    (s.putGroup g).rsvs = s.rsvs ∧ (s.putGroup g).packets = s.packets ∧ (s.putGroup g).flits = s.flits ∧
    (s.putGroup g).loanMsgs = s.loanMsgs ∧ (s.putGroup g).probes = s.probes ∧ (s.putGroup g).transfers = s.transfers ∧
    (s.putGroup g).channels = s.channels ∧ (s.putGroup g).barriers = s.barriers ∧
    (s.putGroup g).requests = s.requests ∧ (s.putGroup g).servers = s.servers ∧
    (s.putGroup g).hostQueues = s.hostQueues ∧ (s.putGroup g).threads = s.threads ∧ (s.putGroup g).books = s.books ∧
    (s.putGroup g).grants = s.grants ∧ (s.putGroup g).edgeGrants = s.edgeGrants ∧ (s.putGroup g).sems = s.sems ∧
    (s.putGroup g).semOwners = s.semOwners ∧ (s.putGroup g).triggers = s.triggers ∧
    (s.putGroup g).trigWrites = s.trigWrites ∧ (s.putGroup g).managerRecords = s.managerRecords ∧
    (s.putGroup g).mailbox = s.mailbox ∧ (s.putGroup g).errorRings = s.errorRings ∧ (s.putGroup g).irqs = s.irqs ∧
    (s.putGroup g).framesOut = s.framesOut ∧ (s.putGroup g).acksOut = s.acksOut ∧ (s.putGroup g).uaOut = s.uaOut ∧
    (s.putGroup g).reports = s.reports ∧ (s.putGroup g).reclock = s.reclock ∧ (s.putGroup g).affected = s.affected ∧
    (s.putGroup g).loftUsed = s.loftUsed ∧ (s.putGroup g).bookHashes = s.bookHashes ∧
    (s.putGroup g).nextPid = s.nextPid ∧ (s.putGroup g).nextRegion = s.nextRegion ∧ (s.putGroup g).nextId = s.nextId ∧
    (s.putGroup g).free = s.free := by
  refine ⟨?_, ?_, ?_, ?_, ?_, ?_, ?_, ?_, ?_, ?_, ?_, ?_, ?_, ?_, ?_, ?_, ?_, ?_, ?_, ?_, ?_, ?_, ?_, ?_, ?_, ?_, ?_, ?_, ?_, ?_, ?_, ?_, ?_, ?_, ?_, ?_, ?_, ?_, ?_, ?_, ?_, ?_, ?_, ?_, ?_, ?_, ?_, ?_, ?_, ?_, ?_, ?_, ?_, ?_, ?_, ?_, ?_, ?_, ?_⟩ <;> rfl

/-- modGroup leaves every other field as it was. -/
@[simp] theorem State.modGroup_frame (s : State) (n : Nat) (f : Group → Group) :
    (s.modGroup n f).agenda = s.agenda ∧ (s.modGroup n f).subj = s.subj ∧ (s.modGroup n f).focus = s.focus ∧
    (s.modGroup n f).cpu = s.cpu ∧ (s.modGroup n f).part = s.part ∧ (s.modGroup n f).pkg = s.pkg ∧
    (s.modGroup n f).time = s.time ∧ (s.modGroup n f).dies = s.dies ∧ (s.modGroup n f).cores = s.cores ∧
    (s.modGroup n f).procs = s.procs ∧ (s.modGroup n f).regions = s.regions ∧
    (s.modGroup n f).loaderWins = s.loaderWins ∧ (s.modGroup n f).placed = s.placed ∧
    (s.modGroup n f).placements = s.placements ∧ (s.modGroup n f).mem = s.mem ∧ (s.modGroup n f).empty = s.empty ∧
    (s.modGroup n f).marks = s.marks ∧ (s.modGroup n f).latent = s.latent ∧ (s.modGroup n f).hbm = s.hbm ∧
    (s.modGroup n f).hbmMarks = s.hbmMarks ∧ (s.modGroup n f).far = s.far ∧ (s.modGroup n f).farMarks = s.farMarks ∧
    (s.modGroup n f).host = s.host ∧ (s.modGroup n f).watches = s.watches ∧ (s.modGroup n f).rsvs = s.rsvs ∧
    (s.modGroup n f).packets = s.packets ∧ (s.modGroup n f).flits = s.flits ∧ (s.modGroup n f).loanMsgs = s.loanMsgs ∧
    (s.modGroup n f).probes = s.probes ∧ (s.modGroup n f).transfers = s.transfers ∧
    (s.modGroup n f).channels = s.channels ∧ (s.modGroup n f).barriers = s.barriers ∧
    (s.modGroup n f).requests = s.requests ∧ (s.modGroup n f).servers = s.servers ∧
    (s.modGroup n f).hostQueues = s.hostQueues ∧ (s.modGroup n f).threads = s.threads ∧
    (s.modGroup n f).books = s.books ∧ (s.modGroup n f).grants = s.grants ∧
    (s.modGroup n f).edgeGrants = s.edgeGrants ∧ (s.modGroup n f).sems = s.sems ∧
    (s.modGroup n f).semOwners = s.semOwners ∧ (s.modGroup n f).triggers = s.triggers ∧
    (s.modGroup n f).trigWrites = s.trigWrites ∧ (s.modGroup n f).managerRecords = s.managerRecords ∧
    (s.modGroup n f).mailbox = s.mailbox ∧ (s.modGroup n f).errorRings = s.errorRings ∧
    (s.modGroup n f).irqs = s.irqs ∧ (s.modGroup n f).framesOut = s.framesOut ∧ (s.modGroup n f).acksOut = s.acksOut ∧
    (s.modGroup n f).uaOut = s.uaOut ∧ (s.modGroup n f).reports = s.reports ∧ (s.modGroup n f).reclock = s.reclock ∧
    (s.modGroup n f).affected = s.affected ∧ (s.modGroup n f).loftUsed = s.loftUsed ∧
    (s.modGroup n f).bookHashes = s.bookHashes ∧ (s.modGroup n f).nextPid = s.nextPid ∧
    (s.modGroup n f).nextRegion = s.nextRegion ∧ (s.modGroup n f).nextId = s.nextId ∧
    (s.modGroup n f).free = s.free := by
  refine ⟨?_, ?_, ?_, ?_, ?_, ?_, ?_, ?_, ?_, ?_, ?_, ?_, ?_, ?_, ?_, ?_, ?_, ?_, ?_, ?_, ?_, ?_, ?_, ?_, ?_, ?_, ?_, ?_, ?_, ?_, ?_, ?_, ?_, ?_, ?_, ?_, ?_, ?_, ?_, ?_, ?_, ?_, ?_, ?_, ?_, ?_, ?_, ?_, ?_, ?_, ?_, ?_, ?_, ?_, ?_, ?_, ?_, ?_, ?_⟩ <;> rfl

/-- putChan leaves every other field as it was. -/
@[simp] theorem State.putChan_frame (s : State) (c : Channel) :
    (s.putChan c).agenda = s.agenda ∧ (s.putChan c).subj = s.subj ∧ (s.putChan c).focus = s.focus ∧
    (s.putChan c).cpu = s.cpu ∧ (s.putChan c).part = s.part ∧ (s.putChan c).pkg = s.pkg ∧
    (s.putChan c).time = s.time ∧ (s.putChan c).dies = s.dies ∧ (s.putChan c).cores = s.cores ∧
    (s.putChan c).procs = s.procs ∧ (s.putChan c).regions = s.regions ∧ (s.putChan c).loaderWins = s.loaderWins ∧
    (s.putChan c).placed = s.placed ∧ (s.putChan c).placements = s.placements ∧ (s.putChan c).mem = s.mem ∧
    (s.putChan c).empty = s.empty ∧ (s.putChan c).marks = s.marks ∧ (s.putChan c).latent = s.latent ∧
    (s.putChan c).hbm = s.hbm ∧ (s.putChan c).hbmMarks = s.hbmMarks ∧ (s.putChan c).far = s.far ∧
    (s.putChan c).farMarks = s.farMarks ∧ (s.putChan c).host = s.host ∧ (s.putChan c).watches = s.watches ∧
    (s.putChan c).rsvs = s.rsvs ∧ (s.putChan c).packets = s.packets ∧ (s.putChan c).flits = s.flits ∧
    (s.putChan c).loanMsgs = s.loanMsgs ∧ (s.putChan c).probes = s.probes ∧ (s.putChan c).transfers = s.transfers ∧
    (s.putChan c).barriers = s.barriers ∧ (s.putChan c).requests = s.requests ∧ (s.putChan c).servers = s.servers ∧
    (s.putChan c).groups = s.groups ∧ (s.putChan c).hostQueues = s.hostQueues ∧ (s.putChan c).threads = s.threads ∧
    (s.putChan c).books = s.books ∧ (s.putChan c).grants = s.grants ∧ (s.putChan c).edgeGrants = s.edgeGrants ∧
    (s.putChan c).sems = s.sems ∧ (s.putChan c).semOwners = s.semOwners ∧ (s.putChan c).triggers = s.triggers ∧
    (s.putChan c).trigWrites = s.trigWrites ∧ (s.putChan c).managerRecords = s.managerRecords ∧
    (s.putChan c).mailbox = s.mailbox ∧ (s.putChan c).errorRings = s.errorRings ∧ (s.putChan c).irqs = s.irqs ∧
    (s.putChan c).framesOut = s.framesOut ∧ (s.putChan c).acksOut = s.acksOut ∧ (s.putChan c).uaOut = s.uaOut ∧
    (s.putChan c).reports = s.reports ∧ (s.putChan c).reclock = s.reclock ∧ (s.putChan c).affected = s.affected ∧
    (s.putChan c).loftUsed = s.loftUsed ∧ (s.putChan c).bookHashes = s.bookHashes ∧
    (s.putChan c).nextPid = s.nextPid ∧ (s.putChan c).nextRegion = s.nextRegion ∧ (s.putChan c).nextId = s.nextId ∧
    (s.putChan c).free = s.free := by
  refine ⟨?_, ?_, ?_, ?_, ?_, ?_, ?_, ?_, ?_, ?_, ?_, ?_, ?_, ?_, ?_, ?_, ?_, ?_, ?_, ?_, ?_, ?_, ?_, ?_, ?_, ?_, ?_, ?_, ?_, ?_, ?_, ?_, ?_, ?_, ?_, ?_, ?_, ?_, ?_, ?_, ?_, ?_, ?_, ?_, ?_, ?_, ?_, ?_, ?_, ?_, ?_, ?_, ?_, ?_, ?_, ?_, ?_, ?_, ?_⟩ <;> rfl

theorem State.modChan_shape (s : State) (t n : Nat) (f : Channel → Channel) : ∃ v0, s.modChan t n f = { s with channels := v0 } := by
  unfold State.modChan
  split
  · exact ⟨_, rfl⟩
  · exact ⟨s.channels, rfl⟩

/-- modChan leaves every other field as it was. -/
@[simp] theorem State.modChan_frame (s : State) (t n : Nat) (f : Channel → Channel) :
    (s.modChan t n f).agenda = s.agenda ∧ (s.modChan t n f).subj = s.subj ∧ (s.modChan t n f).focus = s.focus ∧
    (s.modChan t n f).cpu = s.cpu ∧ (s.modChan t n f).part = s.part ∧ (s.modChan t n f).pkg = s.pkg ∧
    (s.modChan t n f).time = s.time ∧ (s.modChan t n f).dies = s.dies ∧ (s.modChan t n f).cores = s.cores ∧
    (s.modChan t n f).procs = s.procs ∧ (s.modChan t n f).regions = s.regions ∧
    (s.modChan t n f).loaderWins = s.loaderWins ∧ (s.modChan t n f).placed = s.placed ∧
    (s.modChan t n f).placements = s.placements ∧ (s.modChan t n f).mem = s.mem ∧ (s.modChan t n f).empty = s.empty ∧
    (s.modChan t n f).marks = s.marks ∧ (s.modChan t n f).latent = s.latent ∧ (s.modChan t n f).hbm = s.hbm ∧
    (s.modChan t n f).hbmMarks = s.hbmMarks ∧ (s.modChan t n f).far = s.far ∧
    (s.modChan t n f).farMarks = s.farMarks ∧ (s.modChan t n f).host = s.host ∧
    (s.modChan t n f).watches = s.watches ∧ (s.modChan t n f).rsvs = s.rsvs ∧ (s.modChan t n f).packets = s.packets ∧
    (s.modChan t n f).flits = s.flits ∧ (s.modChan t n f).loanMsgs = s.loanMsgs ∧
    (s.modChan t n f).probes = s.probes ∧ (s.modChan t n f).transfers = s.transfers ∧
    (s.modChan t n f).barriers = s.barriers ∧ (s.modChan t n f).requests = s.requests ∧
    (s.modChan t n f).servers = s.servers ∧ (s.modChan t n f).groups = s.groups ∧
    (s.modChan t n f).hostQueues = s.hostQueues ∧ (s.modChan t n f).threads = s.threads ∧
    (s.modChan t n f).books = s.books ∧ (s.modChan t n f).grants = s.grants ∧
    (s.modChan t n f).edgeGrants = s.edgeGrants ∧ (s.modChan t n f).sems = s.sems ∧
    (s.modChan t n f).semOwners = s.semOwners ∧ (s.modChan t n f).triggers = s.triggers ∧
    (s.modChan t n f).trigWrites = s.trigWrites ∧ (s.modChan t n f).managerRecords = s.managerRecords ∧
    (s.modChan t n f).mailbox = s.mailbox ∧ (s.modChan t n f).errorRings = s.errorRings ∧
    (s.modChan t n f).irqs = s.irqs ∧ (s.modChan t n f).framesOut = s.framesOut ∧
    (s.modChan t n f).acksOut = s.acksOut ∧ (s.modChan t n f).uaOut = s.uaOut ∧
    (s.modChan t n f).reports = s.reports ∧ (s.modChan t n f).reclock = s.reclock ∧
    (s.modChan t n f).affected = s.affected ∧ (s.modChan t n f).loftUsed = s.loftUsed ∧
    (s.modChan t n f).bookHashes = s.bookHashes ∧ (s.modChan t n f).nextPid = s.nextPid ∧
    (s.modChan t n f).nextRegion = s.nextRegion ∧ (s.modChan t n f).nextId = s.nextId ∧
    (s.modChan t n f).free = s.free := by
  obtain ⟨v0, h⟩ := State.modChan_shape s t n f
  rw [h]
  refine ⟨?_, ?_, ?_, ?_, ?_, ?_, ?_, ?_, ?_, ?_, ?_, ?_, ?_, ?_, ?_, ?_, ?_, ?_, ?_, ?_, ?_, ?_, ?_, ?_, ?_, ?_, ?_, ?_, ?_, ?_, ?_, ?_, ?_, ?_, ?_, ?_, ?_, ?_, ?_, ?_, ?_, ?_, ?_, ?_, ?_, ?_, ?_, ?_, ?_, ?_, ?_, ?_, ?_, ?_, ?_, ?_, ?_, ?_, ?_⟩ <;> rfl

/-- putThread leaves every other field as it was. -/
@[simp] theorem State.putThread_frame (s : State) (t : Thread) :
    (s.putThread t).agenda = s.agenda ∧ (s.putThread t).subj = s.subj ∧ (s.putThread t).focus = s.focus ∧
    (s.putThread t).cpu = s.cpu ∧ (s.putThread t).part = s.part ∧ (s.putThread t).pkg = s.pkg ∧
    (s.putThread t).time = s.time ∧ (s.putThread t).dies = s.dies ∧ (s.putThread t).cores = s.cores ∧
    (s.putThread t).procs = s.procs ∧ (s.putThread t).regions = s.regions ∧
    (s.putThread t).loaderWins = s.loaderWins ∧ (s.putThread t).placed = s.placed ∧
    (s.putThread t).placements = s.placements ∧ (s.putThread t).mem = s.mem ∧ (s.putThread t).empty = s.empty ∧
    (s.putThread t).marks = s.marks ∧ (s.putThread t).latent = s.latent ∧ (s.putThread t).hbm = s.hbm ∧
    (s.putThread t).hbmMarks = s.hbmMarks ∧ (s.putThread t).far = s.far ∧ (s.putThread t).farMarks = s.farMarks ∧
    (s.putThread t).host = s.host ∧ (s.putThread t).watches = s.watches ∧ (s.putThread t).rsvs = s.rsvs ∧
    (s.putThread t).packets = s.packets ∧ (s.putThread t).flits = s.flits ∧ (s.putThread t).loanMsgs = s.loanMsgs ∧
    (s.putThread t).probes = s.probes ∧ (s.putThread t).transfers = s.transfers ∧
    (s.putThread t).channels = s.channels ∧ (s.putThread t).barriers = s.barriers ∧
    (s.putThread t).requests = s.requests ∧ (s.putThread t).servers = s.servers ∧ (s.putThread t).groups = s.groups ∧
    (s.putThread t).hostQueues = s.hostQueues ∧ (s.putThread t).books = s.books ∧ (s.putThread t).grants = s.grants ∧
    (s.putThread t).edgeGrants = s.edgeGrants ∧ (s.putThread t).sems = s.sems ∧
    (s.putThread t).semOwners = s.semOwners ∧ (s.putThread t).triggers = s.triggers ∧
    (s.putThread t).trigWrites = s.trigWrites ∧ (s.putThread t).managerRecords = s.managerRecords ∧
    (s.putThread t).mailbox = s.mailbox ∧ (s.putThread t).errorRings = s.errorRings ∧ (s.putThread t).irqs = s.irqs ∧
    (s.putThread t).framesOut = s.framesOut ∧ (s.putThread t).acksOut = s.acksOut ∧ (s.putThread t).uaOut = s.uaOut ∧
    (s.putThread t).reports = s.reports ∧ (s.putThread t).reclock = s.reclock ∧
    (s.putThread t).affected = s.affected ∧ (s.putThread t).loftUsed = s.loftUsed ∧
    (s.putThread t).bookHashes = s.bookHashes ∧ (s.putThread t).nextPid = s.nextPid ∧
    (s.putThread t).nextRegion = s.nextRegion ∧ (s.putThread t).nextId = s.nextId ∧
    (s.putThread t).free = s.free := by
  refine ⟨?_, ?_, ?_, ?_, ?_, ?_, ?_, ?_, ?_, ?_, ?_, ?_, ?_, ?_, ?_, ?_, ?_, ?_, ?_, ?_, ?_, ?_, ?_, ?_, ?_, ?_, ?_, ?_, ?_, ?_, ?_, ?_, ?_, ?_, ?_, ?_, ?_, ?_, ?_, ?_, ?_, ?_, ?_, ?_, ?_, ?_, ?_, ?_, ?_, ?_, ?_, ?_, ?_, ?_, ?_, ?_, ?_, ?_, ?_⟩ <;> rfl

theorem State.modThread_shape (s : State) (n : Nat) (f : Thread → Thread) : ∃ v0, s.modThread n f = { s with threads := v0 } := by
  unfold State.modThread
  split
  · exact ⟨_, rfl⟩
  · exact ⟨s.threads, rfl⟩

/-- modThread leaves every other field as it was. -/
@[simp] theorem State.modThread_frame (s : State) (n : Nat) (f : Thread → Thread) :
    (s.modThread n f).agenda = s.agenda ∧ (s.modThread n f).subj = s.subj ∧ (s.modThread n f).focus = s.focus ∧
    (s.modThread n f).cpu = s.cpu ∧ (s.modThread n f).part = s.part ∧ (s.modThread n f).pkg = s.pkg ∧
    (s.modThread n f).time = s.time ∧ (s.modThread n f).dies = s.dies ∧ (s.modThread n f).cores = s.cores ∧
    (s.modThread n f).procs = s.procs ∧ (s.modThread n f).regions = s.regions ∧
    (s.modThread n f).loaderWins = s.loaderWins ∧ (s.modThread n f).placed = s.placed ∧
    (s.modThread n f).placements = s.placements ∧ (s.modThread n f).mem = s.mem ∧ (s.modThread n f).empty = s.empty ∧
    (s.modThread n f).marks = s.marks ∧ (s.modThread n f).latent = s.latent ∧ (s.modThread n f).hbm = s.hbm ∧
    (s.modThread n f).hbmMarks = s.hbmMarks ∧ (s.modThread n f).far = s.far ∧
    (s.modThread n f).farMarks = s.farMarks ∧ (s.modThread n f).host = s.host ∧
    (s.modThread n f).watches = s.watches ∧ (s.modThread n f).rsvs = s.rsvs ∧ (s.modThread n f).packets = s.packets ∧
    (s.modThread n f).flits = s.flits ∧ (s.modThread n f).loanMsgs = s.loanMsgs ∧
    (s.modThread n f).probes = s.probes ∧ (s.modThread n f).transfers = s.transfers ∧
    (s.modThread n f).channels = s.channels ∧ (s.modThread n f).barriers = s.barriers ∧
    (s.modThread n f).requests = s.requests ∧ (s.modThread n f).servers = s.servers ∧
    (s.modThread n f).groups = s.groups ∧ (s.modThread n f).hostQueues = s.hostQueues ∧
    (s.modThread n f).books = s.books ∧ (s.modThread n f).grants = s.grants ∧
    (s.modThread n f).edgeGrants = s.edgeGrants ∧ (s.modThread n f).sems = s.sems ∧
    (s.modThread n f).semOwners = s.semOwners ∧ (s.modThread n f).triggers = s.triggers ∧
    (s.modThread n f).trigWrites = s.trigWrites ∧ (s.modThread n f).managerRecords = s.managerRecords ∧
    (s.modThread n f).mailbox = s.mailbox ∧ (s.modThread n f).errorRings = s.errorRings ∧
    (s.modThread n f).irqs = s.irqs ∧ (s.modThread n f).framesOut = s.framesOut ∧
    (s.modThread n f).acksOut = s.acksOut ∧ (s.modThread n f).uaOut = s.uaOut ∧
    (s.modThread n f).reports = s.reports ∧ (s.modThread n f).reclock = s.reclock ∧
    (s.modThread n f).affected = s.affected ∧ (s.modThread n f).loftUsed = s.loftUsed ∧
    (s.modThread n f).bookHashes = s.bookHashes ∧ (s.modThread n f).nextPid = s.nextPid ∧
    (s.modThread n f).nextRegion = s.nextRegion ∧ (s.modThread n f).nextId = s.nextId ∧
    (s.modThread n f).free = s.free := by
  obtain ⟨v0, h⟩ := State.modThread_shape s n f
  rw [h]
  refine ⟨?_, ?_, ?_, ?_, ?_, ?_, ?_, ?_, ?_, ?_, ?_, ?_, ?_, ?_, ?_, ?_, ?_, ?_, ?_, ?_, ?_, ?_, ?_, ?_, ?_, ?_, ?_, ?_, ?_, ?_, ?_, ?_, ?_, ?_, ?_, ?_, ?_, ?_, ?_, ?_, ?_, ?_, ?_, ?_, ?_, ?_, ?_, ?_, ?_, ?_, ?_, ?_, ?_, ?_, ?_, ?_, ?_, ?_, ?_⟩ <;> rfl

/-- putServer leaves every other field as it was. -/
@[simp] theorem State.putServer_frame (s : State) (v : Server) :
    (s.putServer v).agenda = s.agenda ∧ (s.putServer v).subj = s.subj ∧ (s.putServer v).focus = s.focus ∧
    (s.putServer v).cpu = s.cpu ∧ (s.putServer v).part = s.part ∧ (s.putServer v).pkg = s.pkg ∧
    (s.putServer v).time = s.time ∧ (s.putServer v).dies = s.dies ∧ (s.putServer v).cores = s.cores ∧
    (s.putServer v).procs = s.procs ∧ (s.putServer v).regions = s.regions ∧
    (s.putServer v).loaderWins = s.loaderWins ∧ (s.putServer v).placed = s.placed ∧
    (s.putServer v).placements = s.placements ∧ (s.putServer v).mem = s.mem ∧ (s.putServer v).empty = s.empty ∧
    (s.putServer v).marks = s.marks ∧ (s.putServer v).latent = s.latent ∧ (s.putServer v).hbm = s.hbm ∧
    (s.putServer v).hbmMarks = s.hbmMarks ∧ (s.putServer v).far = s.far ∧ (s.putServer v).farMarks = s.farMarks ∧
    (s.putServer v).host = s.host ∧ (s.putServer v).watches = s.watches ∧ (s.putServer v).rsvs = s.rsvs ∧
    (s.putServer v).packets = s.packets ∧ (s.putServer v).flits = s.flits ∧ (s.putServer v).loanMsgs = s.loanMsgs ∧
    (s.putServer v).probes = s.probes ∧ (s.putServer v).transfers = s.transfers ∧
    (s.putServer v).channels = s.channels ∧ (s.putServer v).barriers = s.barriers ∧
    (s.putServer v).requests = s.requests ∧ (s.putServer v).groups = s.groups ∧
    (s.putServer v).hostQueues = s.hostQueues ∧ (s.putServer v).threads = s.threads ∧
    (s.putServer v).books = s.books ∧ (s.putServer v).grants = s.grants ∧ (s.putServer v).edgeGrants = s.edgeGrants ∧
    (s.putServer v).sems = s.sems ∧ (s.putServer v).semOwners = s.semOwners ∧ (s.putServer v).triggers = s.triggers ∧
    (s.putServer v).trigWrites = s.trigWrites ∧ (s.putServer v).managerRecords = s.managerRecords ∧
    (s.putServer v).mailbox = s.mailbox ∧ (s.putServer v).errorRings = s.errorRings ∧ (s.putServer v).irqs = s.irqs ∧
    (s.putServer v).framesOut = s.framesOut ∧ (s.putServer v).acksOut = s.acksOut ∧ (s.putServer v).uaOut = s.uaOut ∧
    (s.putServer v).reports = s.reports ∧ (s.putServer v).reclock = s.reclock ∧
    (s.putServer v).affected = s.affected ∧ (s.putServer v).loftUsed = s.loftUsed ∧
    (s.putServer v).bookHashes = s.bookHashes ∧ (s.putServer v).nextPid = s.nextPid ∧
    (s.putServer v).nextRegion = s.nextRegion ∧ (s.putServer v).nextId = s.nextId ∧
    (s.putServer v).free = s.free := by
  refine ⟨?_, ?_, ?_, ?_, ?_, ?_, ?_, ?_, ?_, ?_, ?_, ?_, ?_, ?_, ?_, ?_, ?_, ?_, ?_, ?_, ?_, ?_, ?_, ?_, ?_, ?_, ?_, ?_, ?_, ?_, ?_, ?_, ?_, ?_, ?_, ?_, ?_, ?_, ?_, ?_, ?_, ?_, ?_, ?_, ?_, ?_, ?_, ?_, ?_, ?_, ?_, ?_, ?_, ?_, ?_, ?_, ?_, ?_, ?_⟩ <;> rfl

/-- modServer leaves every other field as it was. -/
@[simp] theorem State.modServer_frame (s : State) (n : Nat) (f : Server → Server) :
    (s.modServer n f).agenda = s.agenda ∧ (s.modServer n f).subj = s.subj ∧ (s.modServer n f).focus = s.focus ∧
    (s.modServer n f).cpu = s.cpu ∧ (s.modServer n f).part = s.part ∧ (s.modServer n f).pkg = s.pkg ∧
    (s.modServer n f).time = s.time ∧ (s.modServer n f).dies = s.dies ∧ (s.modServer n f).cores = s.cores ∧
    (s.modServer n f).procs = s.procs ∧ (s.modServer n f).regions = s.regions ∧
    (s.modServer n f).loaderWins = s.loaderWins ∧ (s.modServer n f).placed = s.placed ∧
    (s.modServer n f).placements = s.placements ∧ (s.modServer n f).mem = s.mem ∧ (s.modServer n f).empty = s.empty ∧
    (s.modServer n f).marks = s.marks ∧ (s.modServer n f).latent = s.latent ∧ (s.modServer n f).hbm = s.hbm ∧
    (s.modServer n f).hbmMarks = s.hbmMarks ∧ (s.modServer n f).far = s.far ∧
    (s.modServer n f).farMarks = s.farMarks ∧ (s.modServer n f).host = s.host ∧
    (s.modServer n f).watches = s.watches ∧ (s.modServer n f).rsvs = s.rsvs ∧ (s.modServer n f).packets = s.packets ∧
    (s.modServer n f).flits = s.flits ∧ (s.modServer n f).loanMsgs = s.loanMsgs ∧
    (s.modServer n f).probes = s.probes ∧ (s.modServer n f).transfers = s.transfers ∧
    (s.modServer n f).channels = s.channels ∧ (s.modServer n f).barriers = s.barriers ∧
    (s.modServer n f).requests = s.requests ∧ (s.modServer n f).groups = s.groups ∧
    (s.modServer n f).hostQueues = s.hostQueues ∧ (s.modServer n f).threads = s.threads ∧
    (s.modServer n f).books = s.books ∧ (s.modServer n f).grants = s.grants ∧
    (s.modServer n f).edgeGrants = s.edgeGrants ∧ (s.modServer n f).sems = s.sems ∧
    (s.modServer n f).semOwners = s.semOwners ∧ (s.modServer n f).triggers = s.triggers ∧
    (s.modServer n f).trigWrites = s.trigWrites ∧ (s.modServer n f).managerRecords = s.managerRecords ∧
    (s.modServer n f).mailbox = s.mailbox ∧ (s.modServer n f).errorRings = s.errorRings ∧
    (s.modServer n f).irqs = s.irqs ∧ (s.modServer n f).framesOut = s.framesOut ∧
    (s.modServer n f).acksOut = s.acksOut ∧ (s.modServer n f).uaOut = s.uaOut ∧
    (s.modServer n f).reports = s.reports ∧ (s.modServer n f).reclock = s.reclock ∧
    (s.modServer n f).affected = s.affected ∧ (s.modServer n f).loftUsed = s.loftUsed ∧
    (s.modServer n f).bookHashes = s.bookHashes ∧ (s.modServer n f).nextPid = s.nextPid ∧
    (s.modServer n f).nextRegion = s.nextRegion ∧ (s.modServer n f).nextId = s.nextId ∧
    (s.modServer n f).free = s.free := by
  refine ⟨?_, ?_, ?_, ?_, ?_, ?_, ?_, ?_, ?_, ?_, ?_, ?_, ?_, ?_, ?_, ?_, ?_, ?_, ?_, ?_, ?_, ?_, ?_, ?_, ?_, ?_, ?_, ?_, ?_, ?_, ?_, ?_, ?_, ?_, ?_, ?_, ?_, ?_, ?_, ?_, ?_, ?_, ?_, ?_, ?_, ?_, ?_, ?_, ?_, ?_, ?_, ?_, ?_, ?_, ?_, ?_, ?_, ?_, ?_⟩ <;> rfl

/-- freshId leaves every other field as it was. -/
@[simp] theorem State.freshId_frame (s : State)  :
    (s.freshId.2).agenda = s.agenda ∧ (s.freshId.2).subj = s.subj ∧ (s.freshId.2).focus = s.focus ∧
    (s.freshId.2).cpu = s.cpu ∧ (s.freshId.2).part = s.part ∧ (s.freshId.2).pkg = s.pkg ∧
    (s.freshId.2).time = s.time ∧ (s.freshId.2).dies = s.dies ∧ (s.freshId.2).cores = s.cores ∧
    (s.freshId.2).procs = s.procs ∧ (s.freshId.2).regions = s.regions ∧ (s.freshId.2).loaderWins = s.loaderWins ∧
    (s.freshId.2).placed = s.placed ∧ (s.freshId.2).placements = s.placements ∧ (s.freshId.2).mem = s.mem ∧
    (s.freshId.2).empty = s.empty ∧ (s.freshId.2).marks = s.marks ∧ (s.freshId.2).latent = s.latent ∧
    (s.freshId.2).hbm = s.hbm ∧ (s.freshId.2).hbmMarks = s.hbmMarks ∧ (s.freshId.2).far = s.far ∧
    (s.freshId.2).farMarks = s.farMarks ∧ (s.freshId.2).host = s.host ∧ (s.freshId.2).watches = s.watches ∧
    (s.freshId.2).rsvs = s.rsvs ∧ (s.freshId.2).packets = s.packets ∧ (s.freshId.2).flits = s.flits ∧
    (s.freshId.2).loanMsgs = s.loanMsgs ∧ (s.freshId.2).probes = s.probes ∧ (s.freshId.2).transfers = s.transfers ∧
    (s.freshId.2).channels = s.channels ∧ (s.freshId.2).barriers = s.barriers ∧ (s.freshId.2).requests = s.requests ∧
    (s.freshId.2).servers = s.servers ∧ (s.freshId.2).groups = s.groups ∧ (s.freshId.2).hostQueues = s.hostQueues ∧
    (s.freshId.2).threads = s.threads ∧ (s.freshId.2).books = s.books ∧ (s.freshId.2).grants = s.grants ∧
    (s.freshId.2).edgeGrants = s.edgeGrants ∧ (s.freshId.2).sems = s.sems ∧ (s.freshId.2).semOwners = s.semOwners ∧
    (s.freshId.2).triggers = s.triggers ∧ (s.freshId.2).trigWrites = s.trigWrites ∧
    (s.freshId.2).managerRecords = s.managerRecords ∧ (s.freshId.2).mailbox = s.mailbox ∧
    (s.freshId.2).errorRings = s.errorRings ∧ (s.freshId.2).irqs = s.irqs ∧ (s.freshId.2).framesOut = s.framesOut ∧
    (s.freshId.2).acksOut = s.acksOut ∧ (s.freshId.2).uaOut = s.uaOut ∧ (s.freshId.2).reports = s.reports ∧
    (s.freshId.2).reclock = s.reclock ∧ (s.freshId.2).affected = s.affected ∧ (s.freshId.2).loftUsed = s.loftUsed ∧
    (s.freshId.2).bookHashes = s.bookHashes ∧ (s.freshId.2).nextPid = s.nextPid ∧
    (s.freshId.2).nextRegion = s.nextRegion ∧ (s.freshId.2).free = s.free := by
  refine ⟨?_, ?_, ?_, ?_, ?_, ?_, ?_, ?_, ?_, ?_, ?_, ?_, ?_, ?_, ?_, ?_, ?_, ?_, ?_, ?_, ?_, ?_, ?_, ?_, ?_, ?_, ?_, ?_, ?_, ?_, ?_, ?_, ?_, ?_, ?_, ?_, ?_, ?_, ?_, ?_, ?_, ?_, ?_, ?_, ?_, ?_, ?_, ?_, ?_, ?_, ?_, ?_, ?_, ?_, ?_, ?_, ?_, ?_, ?_⟩ <;> rfl

/-- setFull leaves every other field as it was. -/
@[simp] theorem State.setFull_frame (s : State) (w : Nat) (full : Bool) :
    (s.setFull w full).agenda = s.agenda ∧ (s.setFull w full).subj = s.subj ∧ (s.setFull w full).focus = s.focus ∧
    (s.setFull w full).cpu = s.cpu ∧ (s.setFull w full).part = s.part ∧ (s.setFull w full).pkg = s.pkg ∧
    (s.setFull w full).time = s.time ∧ (s.setFull w full).dies = s.dies ∧ (s.setFull w full).cores = s.cores ∧
    (s.setFull w full).procs = s.procs ∧ (s.setFull w full).regions = s.regions ∧
    (s.setFull w full).loaderWins = s.loaderWins ∧ (s.setFull w full).placed = s.placed ∧
    (s.setFull w full).placements = s.placements ∧ (s.setFull w full).mem = s.mem ∧
    (s.setFull w full).marks = s.marks ∧ (s.setFull w full).latent = s.latent ∧ (s.setFull w full).hbm = s.hbm ∧
    (s.setFull w full).hbmMarks = s.hbmMarks ∧ (s.setFull w full).far = s.far ∧
    (s.setFull w full).farMarks = s.farMarks ∧ (s.setFull w full).host = s.host ∧
    (s.setFull w full).watches = s.watches ∧ (s.setFull w full).rsvs = s.rsvs ∧
    (s.setFull w full).packets = s.packets ∧ (s.setFull w full).flits = s.flits ∧
    (s.setFull w full).loanMsgs = s.loanMsgs ∧ (s.setFull w full).probes = s.probes ∧
    (s.setFull w full).transfers = s.transfers ∧ (s.setFull w full).channels = s.channels ∧
    (s.setFull w full).barriers = s.barriers ∧ (s.setFull w full).requests = s.requests ∧
    (s.setFull w full).servers = s.servers ∧ (s.setFull w full).groups = s.groups ∧
    (s.setFull w full).hostQueues = s.hostQueues ∧ (s.setFull w full).threads = s.threads ∧
    (s.setFull w full).books = s.books ∧ (s.setFull w full).grants = s.grants ∧
    (s.setFull w full).edgeGrants = s.edgeGrants ∧ (s.setFull w full).sems = s.sems ∧
    (s.setFull w full).semOwners = s.semOwners ∧ (s.setFull w full).triggers = s.triggers ∧
    (s.setFull w full).trigWrites = s.trigWrites ∧ (s.setFull w full).managerRecords = s.managerRecords ∧
    (s.setFull w full).mailbox = s.mailbox ∧ (s.setFull w full).errorRings = s.errorRings ∧
    (s.setFull w full).irqs = s.irqs ∧ (s.setFull w full).framesOut = s.framesOut ∧
    (s.setFull w full).acksOut = s.acksOut ∧ (s.setFull w full).uaOut = s.uaOut ∧
    (s.setFull w full).reports = s.reports ∧ (s.setFull w full).reclock = s.reclock ∧
    (s.setFull w full).affected = s.affected ∧ (s.setFull w full).loftUsed = s.loftUsed ∧
    (s.setFull w full).bookHashes = s.bookHashes ∧ (s.setFull w full).nextPid = s.nextPid ∧
    (s.setFull w full).nextRegion = s.nextRegion ∧ (s.setFull w full).nextId = s.nextId ∧
    (s.setFull w full).free = s.free := by
  refine ⟨?_, ?_, ?_, ?_, ?_, ?_, ?_, ?_, ?_, ?_, ?_, ?_, ?_, ?_, ?_, ?_, ?_, ?_, ?_, ?_, ?_, ?_, ?_, ?_, ?_, ?_, ?_, ?_, ?_, ?_, ?_, ?_, ?_, ?_, ?_, ?_, ?_, ?_, ?_, ?_, ?_, ?_, ?_, ?_, ?_, ?_, ?_, ?_, ?_, ?_, ?_, ?_, ?_, ?_, ?_, ?_, ?_, ?_, ?_⟩ <;> rfl

/-- modPacket leaves every other field as it was. -/
@[simp] theorem State.modPacket_frame (s : State) (id : Nat) (f : Packet → Packet) :
    (s.modPacket id f).agenda = s.agenda ∧ (s.modPacket id f).subj = s.subj ∧ (s.modPacket id f).focus = s.focus ∧
    (s.modPacket id f).cpu = s.cpu ∧ (s.modPacket id f).part = s.part ∧ (s.modPacket id f).pkg = s.pkg ∧
    (s.modPacket id f).time = s.time ∧ (s.modPacket id f).dies = s.dies ∧ (s.modPacket id f).cores = s.cores ∧
    (s.modPacket id f).procs = s.procs ∧ (s.modPacket id f).regions = s.regions ∧
    (s.modPacket id f).loaderWins = s.loaderWins ∧ (s.modPacket id f).placed = s.placed ∧
    (s.modPacket id f).placements = s.placements ∧ (s.modPacket id f).mem = s.mem ∧
    (s.modPacket id f).empty = s.empty ∧ (s.modPacket id f).marks = s.marks ∧ (s.modPacket id f).latent = s.latent ∧
    (s.modPacket id f).hbm = s.hbm ∧ (s.modPacket id f).hbmMarks = s.hbmMarks ∧ (s.modPacket id f).far = s.far ∧
    (s.modPacket id f).farMarks = s.farMarks ∧ (s.modPacket id f).host = s.host ∧
    (s.modPacket id f).watches = s.watches ∧ (s.modPacket id f).rsvs = s.rsvs ∧ (s.modPacket id f).flits = s.flits ∧
    (s.modPacket id f).loanMsgs = s.loanMsgs ∧ (s.modPacket id f).probes = s.probes ∧
    (s.modPacket id f).transfers = s.transfers ∧ (s.modPacket id f).channels = s.channels ∧
    (s.modPacket id f).barriers = s.barriers ∧ (s.modPacket id f).requests = s.requests ∧
    (s.modPacket id f).servers = s.servers ∧ (s.modPacket id f).groups = s.groups ∧
    (s.modPacket id f).hostQueues = s.hostQueues ∧ (s.modPacket id f).threads = s.threads ∧
    (s.modPacket id f).books = s.books ∧ (s.modPacket id f).grants = s.grants ∧
    (s.modPacket id f).edgeGrants = s.edgeGrants ∧ (s.modPacket id f).sems = s.sems ∧
    (s.modPacket id f).semOwners = s.semOwners ∧ (s.modPacket id f).triggers = s.triggers ∧
    (s.modPacket id f).trigWrites = s.trigWrites ∧ (s.modPacket id f).managerRecords = s.managerRecords ∧
    (s.modPacket id f).mailbox = s.mailbox ∧ (s.modPacket id f).errorRings = s.errorRings ∧
    (s.modPacket id f).irqs = s.irqs ∧ (s.modPacket id f).framesOut = s.framesOut ∧
    (s.modPacket id f).acksOut = s.acksOut ∧ (s.modPacket id f).uaOut = s.uaOut ∧
    (s.modPacket id f).reports = s.reports ∧ (s.modPacket id f).reclock = s.reclock ∧
    (s.modPacket id f).affected = s.affected ∧ (s.modPacket id f).loftUsed = s.loftUsed ∧
    (s.modPacket id f).bookHashes = s.bookHashes ∧ (s.modPacket id f).nextPid = s.nextPid ∧
    (s.modPacket id f).nextRegion = s.nextRegion ∧ (s.modPacket id f).nextId = s.nextId ∧
    (s.modPacket id f).free = s.free := by
  refine ⟨?_, ?_, ?_, ?_, ?_, ?_, ?_, ?_, ?_, ?_, ?_, ?_, ?_, ?_, ?_, ?_, ?_, ?_, ?_, ?_, ?_, ?_, ?_, ?_, ?_, ?_, ?_, ?_, ?_, ?_, ?_, ?_, ?_, ?_, ?_, ?_, ?_, ?_, ?_, ?_, ?_, ?_, ?_, ?_, ?_, ?_, ?_, ?_, ?_, ?_, ?_, ?_, ?_, ?_, ?_, ?_, ?_, ?_, ?_⟩ <;> rfl

/-- dropPacket leaves every other field as it was. -/
@[simp] theorem State.dropPacket_frame (s : State) (id : Nat) :
    (s.dropPacket id).agenda = s.agenda ∧ (s.dropPacket id).subj = s.subj ∧ (s.dropPacket id).focus = s.focus ∧
    (s.dropPacket id).cpu = s.cpu ∧ (s.dropPacket id).part = s.part ∧ (s.dropPacket id).pkg = s.pkg ∧
    (s.dropPacket id).time = s.time ∧ (s.dropPacket id).dies = s.dies ∧ (s.dropPacket id).cores = s.cores ∧
    (s.dropPacket id).procs = s.procs ∧ (s.dropPacket id).regions = s.regions ∧
    (s.dropPacket id).loaderWins = s.loaderWins ∧ (s.dropPacket id).placed = s.placed ∧
    (s.dropPacket id).placements = s.placements ∧ (s.dropPacket id).mem = s.mem ∧ (s.dropPacket id).empty = s.empty ∧
    (s.dropPacket id).marks = s.marks ∧ (s.dropPacket id).latent = s.latent ∧ (s.dropPacket id).hbm = s.hbm ∧
    (s.dropPacket id).hbmMarks = s.hbmMarks ∧ (s.dropPacket id).far = s.far ∧
    (s.dropPacket id).farMarks = s.farMarks ∧ (s.dropPacket id).host = s.host ∧
    (s.dropPacket id).watches = s.watches ∧ (s.dropPacket id).rsvs = s.rsvs ∧ (s.dropPacket id).flits = s.flits ∧
    (s.dropPacket id).loanMsgs = s.loanMsgs ∧ (s.dropPacket id).probes = s.probes ∧
    (s.dropPacket id).transfers = s.transfers ∧ (s.dropPacket id).channels = s.channels ∧
    (s.dropPacket id).barriers = s.barriers ∧ (s.dropPacket id).requests = s.requests ∧
    (s.dropPacket id).servers = s.servers ∧ (s.dropPacket id).groups = s.groups ∧
    (s.dropPacket id).hostQueues = s.hostQueues ∧ (s.dropPacket id).threads = s.threads ∧
    (s.dropPacket id).books = s.books ∧ (s.dropPacket id).grants = s.grants ∧
    (s.dropPacket id).edgeGrants = s.edgeGrants ∧ (s.dropPacket id).sems = s.sems ∧
    (s.dropPacket id).semOwners = s.semOwners ∧ (s.dropPacket id).triggers = s.triggers ∧
    (s.dropPacket id).trigWrites = s.trigWrites ∧ (s.dropPacket id).managerRecords = s.managerRecords ∧
    (s.dropPacket id).mailbox = s.mailbox ∧ (s.dropPacket id).errorRings = s.errorRings ∧
    (s.dropPacket id).irqs = s.irqs ∧ (s.dropPacket id).framesOut = s.framesOut ∧
    (s.dropPacket id).acksOut = s.acksOut ∧ (s.dropPacket id).uaOut = s.uaOut ∧
    (s.dropPacket id).reports = s.reports ∧ (s.dropPacket id).reclock = s.reclock ∧
    (s.dropPacket id).affected = s.affected ∧ (s.dropPacket id).loftUsed = s.loftUsed ∧
    (s.dropPacket id).bookHashes = s.bookHashes ∧ (s.dropPacket id).nextPid = s.nextPid ∧
    (s.dropPacket id).nextRegion = s.nextRegion ∧ (s.dropPacket id).nextId = s.nextId ∧
    (s.dropPacket id).free = s.free := by
  refine ⟨?_, ?_, ?_, ?_, ?_, ?_, ?_, ?_, ?_, ?_, ?_, ?_, ?_, ?_, ?_, ?_, ?_, ?_, ?_, ?_, ?_, ?_, ?_, ?_, ?_, ?_, ?_, ?_, ?_, ?_, ?_, ?_, ?_, ?_, ?_, ?_, ?_, ?_, ?_, ?_, ?_, ?_, ?_, ?_, ?_, ?_, ?_, ?_, ?_, ?_, ?_, ?_, ?_, ?_, ?_, ?_, ?_, ?_, ?_⟩ <;> rfl

/-- dropLoads leaves every other field as it was. -/
@[simp] theorem State.dropLoads_frame (s : State) (pid : Nat) :
    (s.dropLoads pid).agenda = s.agenda ∧ (s.dropLoads pid).subj = s.subj ∧ (s.dropLoads pid).focus = s.focus ∧
    (s.dropLoads pid).cpu = s.cpu ∧ (s.dropLoads pid).part = s.part ∧ (s.dropLoads pid).pkg = s.pkg ∧
    (s.dropLoads pid).time = s.time ∧ (s.dropLoads pid).dies = s.dies ∧ (s.dropLoads pid).cores = s.cores ∧
    (s.dropLoads pid).procs = s.procs ∧ (s.dropLoads pid).regions = s.regions ∧
    (s.dropLoads pid).loaderWins = s.loaderWins ∧ (s.dropLoads pid).placed = s.placed ∧
    (s.dropLoads pid).placements = s.placements ∧ (s.dropLoads pid).mem = s.mem ∧ (s.dropLoads pid).empty = s.empty ∧
    (s.dropLoads pid).marks = s.marks ∧ (s.dropLoads pid).latent = s.latent ∧ (s.dropLoads pid).hbm = s.hbm ∧
    (s.dropLoads pid).hbmMarks = s.hbmMarks ∧ (s.dropLoads pid).far = s.far ∧
    (s.dropLoads pid).farMarks = s.farMarks ∧ (s.dropLoads pid).host = s.host ∧
    (s.dropLoads pid).watches = s.watches ∧ (s.dropLoads pid).rsvs = s.rsvs ∧ (s.dropLoads pid).flits = s.flits ∧
    (s.dropLoads pid).loanMsgs = s.loanMsgs ∧ (s.dropLoads pid).probes = s.probes ∧
    (s.dropLoads pid).transfers = s.transfers ∧ (s.dropLoads pid).channels = s.channels ∧
    (s.dropLoads pid).barriers = s.barriers ∧ (s.dropLoads pid).requests = s.requests ∧
    (s.dropLoads pid).servers = s.servers ∧ (s.dropLoads pid).groups = s.groups ∧
    (s.dropLoads pid).hostQueues = s.hostQueues ∧ (s.dropLoads pid).threads = s.threads ∧
    (s.dropLoads pid).books = s.books ∧ (s.dropLoads pid).grants = s.grants ∧
    (s.dropLoads pid).edgeGrants = s.edgeGrants ∧ (s.dropLoads pid).sems = s.sems ∧
    (s.dropLoads pid).semOwners = s.semOwners ∧ (s.dropLoads pid).triggers = s.triggers ∧
    (s.dropLoads pid).trigWrites = s.trigWrites ∧ (s.dropLoads pid).managerRecords = s.managerRecords ∧
    (s.dropLoads pid).mailbox = s.mailbox ∧ (s.dropLoads pid).errorRings = s.errorRings ∧
    (s.dropLoads pid).irqs = s.irqs ∧ (s.dropLoads pid).framesOut = s.framesOut ∧
    (s.dropLoads pid).acksOut = s.acksOut ∧ (s.dropLoads pid).uaOut = s.uaOut ∧
    (s.dropLoads pid).reports = s.reports ∧ (s.dropLoads pid).reclock = s.reclock ∧
    (s.dropLoads pid).affected = s.affected ∧ (s.dropLoads pid).loftUsed = s.loftUsed ∧
    (s.dropLoads pid).bookHashes = s.bookHashes ∧ (s.dropLoads pid).nextPid = s.nextPid ∧
    (s.dropLoads pid).nextRegion = s.nextRegion ∧ (s.dropLoads pid).nextId = s.nextId ∧
    (s.dropLoads pid).free = s.free := by
  refine ⟨?_, ?_, ?_, ?_, ?_, ?_, ?_, ?_, ?_, ?_, ?_, ?_, ?_, ?_, ?_, ?_, ?_, ?_, ?_, ?_, ?_, ?_, ?_, ?_, ?_, ?_, ?_, ?_, ?_, ?_, ?_, ?_, ?_, ?_, ?_, ?_, ?_, ?_, ?_, ?_, ?_, ?_, ?_, ?_, ?_, ?_, ?_, ?_, ?_, ?_, ?_, ?_, ?_, ?_, ?_, ?_, ?_, ?_, ?_⟩ <;> rfl

/-- postMachine leaves every other field as it was. -/
@[simp] theorem State.postMachine_frame (s : State) (r : Record) :
    (s.postMachine r).agenda = s.agenda ∧ (s.postMachine r).subj = s.subj ∧ (s.postMachine r).focus = s.focus ∧
    (s.postMachine r).cpu = s.cpu ∧ (s.postMachine r).part = s.part ∧ (s.postMachine r).pkg = s.pkg ∧
    (s.postMachine r).time = s.time ∧ (s.postMachine r).dies = s.dies ∧ (s.postMachine r).cores = s.cores ∧
    (s.postMachine r).procs = s.procs ∧ (s.postMachine r).regions = s.regions ∧
    (s.postMachine r).loaderWins = s.loaderWins ∧ (s.postMachine r).placed = s.placed ∧
    (s.postMachine r).placements = s.placements ∧ (s.postMachine r).mem = s.mem ∧ (s.postMachine r).empty = s.empty ∧
    (s.postMachine r).marks = s.marks ∧ (s.postMachine r).latent = s.latent ∧ (s.postMachine r).hbm = s.hbm ∧
    (s.postMachine r).hbmMarks = s.hbmMarks ∧ (s.postMachine r).far = s.far ∧
    (s.postMachine r).farMarks = s.farMarks ∧ (s.postMachine r).host = s.host ∧
    (s.postMachine r).watches = s.watches ∧ (s.postMachine r).rsvs = s.rsvs ∧ (s.postMachine r).packets = s.packets ∧
    (s.postMachine r).flits = s.flits ∧ (s.postMachine r).loanMsgs = s.loanMsgs ∧
    (s.postMachine r).probes = s.probes ∧ (s.postMachine r).transfers = s.transfers ∧
    (s.postMachine r).channels = s.channels ∧ (s.postMachine r).barriers = s.barriers ∧
    (s.postMachine r).requests = s.requests ∧ (s.postMachine r).servers = s.servers ∧
    (s.postMachine r).groups = s.groups ∧ (s.postMachine r).hostQueues = s.hostQueues ∧
    (s.postMachine r).threads = s.threads ∧ (s.postMachine r).books = s.books ∧ (s.postMachine r).grants = s.grants ∧
    (s.postMachine r).edgeGrants = s.edgeGrants ∧ (s.postMachine r).sems = s.sems ∧
    (s.postMachine r).semOwners = s.semOwners ∧ (s.postMachine r).triggers = s.triggers ∧
    (s.postMachine r).trigWrites = s.trigWrites ∧ (s.postMachine r).managerRecords = s.managerRecords ∧
    (s.postMachine r).irqs = s.irqs ∧ (s.postMachine r).framesOut = s.framesOut ∧
    (s.postMachine r).acksOut = s.acksOut ∧ (s.postMachine r).uaOut = s.uaOut ∧
    (s.postMachine r).reports = s.reports ∧ (s.postMachine r).reclock = s.reclock ∧
    (s.postMachine r).affected = s.affected ∧ (s.postMachine r).loftUsed = s.loftUsed ∧
    (s.postMachine r).bookHashes = s.bookHashes ∧ (s.postMachine r).nextPid = s.nextPid ∧
    (s.postMachine r).nextRegion = s.nextRegion ∧ (s.postMachine r).nextId = s.nextId ∧
    (s.postMachine r).free = s.free := by
  refine ⟨?_, ?_, ?_, ?_, ?_, ?_, ?_, ?_, ?_, ?_, ?_, ?_, ?_, ?_, ?_, ?_, ?_, ?_, ?_, ?_, ?_, ?_, ?_, ?_, ?_, ?_, ?_, ?_, ?_, ?_, ?_, ?_, ?_, ?_, ?_, ?_, ?_, ?_, ?_, ?_, ?_, ?_, ?_, ?_, ?_, ?_, ?_, ?_, ?_, ?_, ?_, ?_, ?_, ?_, ?_, ?_, ?_, ?_⟩ <;> rfl

/-- postFor leaves every other field as it was. -/
@[simp] theorem State.postFor_frame (s : State) (fn : Nat) (r : Record) :
    (s.postFor fn r).agenda = s.agenda ∧ (s.postFor fn r).subj = s.subj ∧ (s.postFor fn r).focus = s.focus ∧
    (s.postFor fn r).cpu = s.cpu ∧ (s.postFor fn r).part = s.part ∧ (s.postFor fn r).pkg = s.pkg ∧
    (s.postFor fn r).time = s.time ∧ (s.postFor fn r).dies = s.dies ∧ (s.postFor fn r).cores = s.cores ∧
    (s.postFor fn r).procs = s.procs ∧ (s.postFor fn r).regions = s.regions ∧
    (s.postFor fn r).loaderWins = s.loaderWins ∧ (s.postFor fn r).placed = s.placed ∧
    (s.postFor fn r).placements = s.placements ∧ (s.postFor fn r).mem = s.mem ∧ (s.postFor fn r).empty = s.empty ∧
    (s.postFor fn r).marks = s.marks ∧ (s.postFor fn r).latent = s.latent ∧ (s.postFor fn r).hbm = s.hbm ∧
    (s.postFor fn r).hbmMarks = s.hbmMarks ∧ (s.postFor fn r).far = s.far ∧ (s.postFor fn r).farMarks = s.farMarks ∧
    (s.postFor fn r).host = s.host ∧ (s.postFor fn r).watches = s.watches ∧ (s.postFor fn r).rsvs = s.rsvs ∧
    (s.postFor fn r).packets = s.packets ∧ (s.postFor fn r).flits = s.flits ∧ (s.postFor fn r).loanMsgs = s.loanMsgs ∧
    (s.postFor fn r).probes = s.probes ∧ (s.postFor fn r).transfers = s.transfers ∧
    (s.postFor fn r).channels = s.channels ∧ (s.postFor fn r).barriers = s.barriers ∧
    (s.postFor fn r).requests = s.requests ∧ (s.postFor fn r).servers = s.servers ∧
    (s.postFor fn r).groups = s.groups ∧ (s.postFor fn r).hostQueues = s.hostQueues ∧
    (s.postFor fn r).threads = s.threads ∧ (s.postFor fn r).books = s.books ∧ (s.postFor fn r).grants = s.grants ∧
    (s.postFor fn r).edgeGrants = s.edgeGrants ∧ (s.postFor fn r).sems = s.sems ∧
    (s.postFor fn r).semOwners = s.semOwners ∧ (s.postFor fn r).triggers = s.triggers ∧
    (s.postFor fn r).trigWrites = s.trigWrites ∧ (s.postFor fn r).managerRecords = s.managerRecords ∧
    (s.postFor fn r).irqs = s.irqs ∧ (s.postFor fn r).framesOut = s.framesOut ∧ (s.postFor fn r).acksOut = s.acksOut ∧
    (s.postFor fn r).uaOut = s.uaOut ∧ (s.postFor fn r).reports = s.reports ∧ (s.postFor fn r).reclock = s.reclock ∧
    (s.postFor fn r).affected = s.affected ∧ (s.postFor fn r).loftUsed = s.loftUsed ∧
    (s.postFor fn r).bookHashes = s.bookHashes ∧ (s.postFor fn r).nextPid = s.nextPid ∧
    (s.postFor fn r).nextRegion = s.nextRegion ∧ (s.postFor fn r).nextId = s.nextId ∧
    (s.postFor fn r).free = s.free := by
  refine ⟨?_, ?_, ?_, ?_, ?_, ?_, ?_, ?_, ?_, ?_, ?_, ?_, ?_, ?_, ?_, ?_, ?_, ?_, ?_, ?_, ?_, ?_, ?_, ?_, ?_, ?_, ?_, ?_, ?_, ?_, ?_, ?_, ?_, ?_, ?_, ?_, ?_, ?_, ?_, ?_, ?_, ?_, ?_, ?_, ?_, ?_, ?_, ?_, ?_, ?_, ?_, ?_, ?_, ?_, ?_, ?_, ?_, ?_⟩ <;> rfl

/-- withdraw leaves every other field as it was. -/
@[simp] theorem State.withdraw_frame (s : State) (pid : Nat) (on : Nat → Bool) :
    (s.withdraw pid on).agenda = s.agenda ∧ (s.withdraw pid on).subj = s.subj ∧ (s.withdraw pid on).focus = s.focus ∧
    (s.withdraw pid on).cpu = s.cpu ∧ (s.withdraw pid on).part = s.part ∧ (s.withdraw pid on).pkg = s.pkg ∧
    (s.withdraw pid on).time = s.time ∧ (s.withdraw pid on).dies = s.dies ∧ (s.withdraw pid on).cores = s.cores ∧
    (s.withdraw pid on).procs = s.procs ∧ (s.withdraw pid on).regions = s.regions ∧
    (s.withdraw pid on).loaderWins = s.loaderWins ∧ (s.withdraw pid on).placed = s.placed ∧
    (s.withdraw pid on).placements = s.placements ∧ (s.withdraw pid on).mem = s.mem ∧ (s.withdraw pid on).empty = s.empty ∧
    (s.withdraw pid on).marks = s.marks ∧ (s.withdraw pid on).latent = s.latent ∧ (s.withdraw pid on).hbm = s.hbm ∧
    (s.withdraw pid on).hbmMarks = s.hbmMarks ∧ (s.withdraw pid on).far = s.far ∧ (s.withdraw pid on).farMarks = s.farMarks ∧
    (s.withdraw pid on).host = s.host ∧ (s.withdraw pid on).flits = s.flits ∧ (s.withdraw pid on).loanMsgs = s.loanMsgs ∧
    (s.withdraw pid on).probes = s.probes ∧ (s.withdraw pid on).transfers = s.transfers ∧
    (s.withdraw pid on).channels = s.channels ∧ (s.withdraw pid on).barriers = s.barriers ∧
    (s.withdraw pid on).requests = s.requests ∧ (s.withdraw pid on).servers = s.servers ∧
    (s.withdraw pid on).groups = s.groups ∧ (s.withdraw pid on).hostQueues = s.hostQueues ∧
    (s.withdraw pid on).threads = s.threads ∧ (s.withdraw pid on).books = s.books ∧ (s.withdraw pid on).grants = s.grants ∧
    (s.withdraw pid on).edgeGrants = s.edgeGrants ∧ (s.withdraw pid on).sems = s.sems ∧
    (s.withdraw pid on).semOwners = s.semOwners ∧ (s.withdraw pid on).triggers = s.triggers ∧
    (s.withdraw pid on).trigWrites = s.trigWrites ∧ (s.withdraw pid on).managerRecords = s.managerRecords ∧
    (s.withdraw pid on).mailbox = s.mailbox ∧ (s.withdraw pid on).errorRings = s.errorRings ∧
    (s.withdraw pid on).irqs = s.irqs ∧ (s.withdraw pid on).framesOut = s.framesOut ∧ (s.withdraw pid on).acksOut = s.acksOut ∧
    (s.withdraw pid on).uaOut = s.uaOut ∧ (s.withdraw pid on).reports = s.reports ∧ (s.withdraw pid on).reclock = s.reclock ∧
    (s.withdraw pid on).affected = s.affected ∧ (s.withdraw pid on).loftUsed = s.loftUsed ∧
    (s.withdraw pid on).bookHashes = s.bookHashes ∧ (s.withdraw pid on).nextPid = s.nextPid ∧
    (s.withdraw pid on).nextRegion = s.nextRegion ∧ (s.withdraw pid on).nextId = s.nextId ∧
    (s.withdraw pid on).free = s.free := by
  refine ⟨?_, ?_, ?_, ?_, ?_, ?_, ?_, ?_, ?_, ?_, ?_, ?_, ?_, ?_, ?_, ?_, ?_, ?_, ?_, ?_, ?_, ?_, ?_, ?_, ?_, ?_, ?_, ?_, ?_, ?_, ?_, ?_, ?_, ?_, ?_, ?_, ?_, ?_, ?_, ?_, ?_, ?_, ?_, ?_, ?_, ?_, ?_, ?_, ?_, ?_, ?_, ?_, ?_, ?_, ?_, ?_, ?_⟩ <;> rfl

/-- dropPlacement leaves every other field as it was. -/
@[simp] theorem State.dropPlacement_frame (s : State) (id : Nat) :
    (s.dropPlacement id).agenda = s.agenda ∧ (s.dropPlacement id).subj = s.subj ∧
    (s.dropPlacement id).focus = s.focus ∧ (s.dropPlacement id).cpu = s.cpu ∧ (s.dropPlacement id).part = s.part ∧
    (s.dropPlacement id).pkg = s.pkg ∧ (s.dropPlacement id).time = s.time ∧ (s.dropPlacement id).dies = s.dies ∧
    (s.dropPlacement id).cores = s.cores ∧ (s.dropPlacement id).procs = s.procs ∧
    (s.dropPlacement id).regions = s.regions ∧ (s.dropPlacement id).loaderWins = s.loaderWins ∧
    (s.dropPlacement id).placed = s.placed ∧ (s.dropPlacement id).mem = s.mem ∧ (s.dropPlacement id).empty = s.empty ∧
    (s.dropPlacement id).marks = s.marks ∧ (s.dropPlacement id).latent = s.latent ∧ (s.dropPlacement id).hbm = s.hbm ∧
    (s.dropPlacement id).hbmMarks = s.hbmMarks ∧ (s.dropPlacement id).far = s.far ∧
    (s.dropPlacement id).farMarks = s.farMarks ∧ (s.dropPlacement id).host = s.host ∧
    (s.dropPlacement id).watches = s.watches ∧ (s.dropPlacement id).rsvs = s.rsvs ∧
    (s.dropPlacement id).packets = s.packets ∧ (s.dropPlacement id).flits = s.flits ∧
    (s.dropPlacement id).loanMsgs = s.loanMsgs ∧ (s.dropPlacement id).probes = s.probes ∧
    (s.dropPlacement id).transfers = s.transfers ∧ (s.dropPlacement id).channels = s.channels ∧
    (s.dropPlacement id).barriers = s.barriers ∧ (s.dropPlacement id).requests = s.requests ∧
    (s.dropPlacement id).servers = s.servers ∧ (s.dropPlacement id).groups = s.groups ∧
    (s.dropPlacement id).hostQueues = s.hostQueues ∧ (s.dropPlacement id).threads = s.threads ∧
    (s.dropPlacement id).books = s.books ∧ (s.dropPlacement id).grants = s.grants ∧
    (s.dropPlacement id).edgeGrants = s.edgeGrants ∧ (s.dropPlacement id).sems = s.sems ∧
    (s.dropPlacement id).semOwners = s.semOwners ∧ (s.dropPlacement id).triggers = s.triggers ∧
    (s.dropPlacement id).trigWrites = s.trigWrites ∧ (s.dropPlacement id).managerRecords = s.managerRecords ∧
    (s.dropPlacement id).mailbox = s.mailbox ∧ (s.dropPlacement id).errorRings = s.errorRings ∧
    (s.dropPlacement id).irqs = s.irqs ∧ (s.dropPlacement id).framesOut = s.framesOut ∧
    (s.dropPlacement id).acksOut = s.acksOut ∧ (s.dropPlacement id).uaOut = s.uaOut ∧
    (s.dropPlacement id).reports = s.reports ∧ (s.dropPlacement id).reclock = s.reclock ∧
    (s.dropPlacement id).affected = s.affected ∧ (s.dropPlacement id).loftUsed = s.loftUsed ∧
    (s.dropPlacement id).bookHashes = s.bookHashes ∧ (s.dropPlacement id).nextPid = s.nextPid ∧
    (s.dropPlacement id).nextRegion = s.nextRegion ∧ (s.dropPlacement id).nextId = s.nextId ∧
    (s.dropPlacement id).free = s.free := by
  refine ⟨?_, ?_, ?_, ?_, ?_, ?_, ?_, ?_, ?_, ?_, ?_, ?_, ?_, ?_, ?_, ?_, ?_, ?_, ?_, ?_, ?_, ?_, ?_, ?_, ?_, ?_, ?_, ?_, ?_, ?_, ?_, ?_, ?_, ?_, ?_, ?_, ?_, ?_, ?_, ?_, ?_, ?_, ?_, ?_, ?_, ?_, ?_, ?_, ?_, ?_, ?_, ?_, ?_, ?_, ?_, ?_, ?_, ?_, ?_⟩ <;> rfl

theorem State.clearEarly_shape (s : State) (c : Nat) : ∃ v0, s.clearEarly c = { s with cores := v0 } := by
  unfold State.clearEarly
  split
  · exact ⟨s.cores, rfl⟩
  · exact ⟨_, rfl⟩

/-- clearEarly leaves every other field as it was. -/
@[simp] theorem State.clearEarly_frame (s : State) (c : Nat) :
    (s.clearEarly c).agenda = s.agenda ∧ (s.clearEarly c).subj = s.subj ∧ (s.clearEarly c).focus = s.focus ∧
    (s.clearEarly c).cpu = s.cpu ∧ (s.clearEarly c).part = s.part ∧ (s.clearEarly c).pkg = s.pkg ∧
    (s.clearEarly c).time = s.time ∧ (s.clearEarly c).dies = s.dies ∧ (s.clearEarly c).procs = s.procs ∧
    (s.clearEarly c).regions = s.regions ∧ (s.clearEarly c).loaderWins = s.loaderWins ∧
    (s.clearEarly c).placed = s.placed ∧ (s.clearEarly c).placements = s.placements ∧ (s.clearEarly c).mem = s.mem ∧
    (s.clearEarly c).empty = s.empty ∧ (s.clearEarly c).marks = s.marks ∧ (s.clearEarly c).latent = s.latent ∧
    (s.clearEarly c).hbm = s.hbm ∧ (s.clearEarly c).hbmMarks = s.hbmMarks ∧ (s.clearEarly c).far = s.far ∧
    (s.clearEarly c).farMarks = s.farMarks ∧ (s.clearEarly c).host = s.host ∧ (s.clearEarly c).watches = s.watches ∧
    (s.clearEarly c).rsvs = s.rsvs ∧ (s.clearEarly c).packets = s.packets ∧ (s.clearEarly c).flits = s.flits ∧
    (s.clearEarly c).loanMsgs = s.loanMsgs ∧ (s.clearEarly c).probes = s.probes ∧
    (s.clearEarly c).transfers = s.transfers ∧ (s.clearEarly c).channels = s.channels ∧
    (s.clearEarly c).barriers = s.barriers ∧ (s.clearEarly c).requests = s.requests ∧
    (s.clearEarly c).servers = s.servers ∧ (s.clearEarly c).groups = s.groups ∧
    (s.clearEarly c).hostQueues = s.hostQueues ∧ (s.clearEarly c).threads = s.threads ∧
    (s.clearEarly c).books = s.books ∧ (s.clearEarly c).grants = s.grants ∧
    (s.clearEarly c).edgeGrants = s.edgeGrants ∧ (s.clearEarly c).sems = s.sems ∧
    (s.clearEarly c).semOwners = s.semOwners ∧ (s.clearEarly c).triggers = s.triggers ∧
    (s.clearEarly c).trigWrites = s.trigWrites ∧ (s.clearEarly c).managerRecords = s.managerRecords ∧
    (s.clearEarly c).mailbox = s.mailbox ∧ (s.clearEarly c).errorRings = s.errorRings ∧
    (s.clearEarly c).irqs = s.irqs ∧ (s.clearEarly c).framesOut = s.framesOut ∧ (s.clearEarly c).acksOut = s.acksOut ∧
    (s.clearEarly c).uaOut = s.uaOut ∧ (s.clearEarly c).reports = s.reports ∧ (s.clearEarly c).reclock = s.reclock ∧
    (s.clearEarly c).affected = s.affected ∧ (s.clearEarly c).loftUsed = s.loftUsed ∧
    (s.clearEarly c).bookHashes = s.bookHashes ∧ (s.clearEarly c).nextPid = s.nextPid ∧
    (s.clearEarly c).nextRegion = s.nextRegion ∧ (s.clearEarly c).nextId = s.nextId ∧
    (s.clearEarly c).free = s.free := by
  obtain ⟨v0, h⟩ := State.clearEarly_shape s c
  rw [h]
  refine ⟨?_, ?_, ?_, ?_, ?_, ?_, ?_, ?_, ?_, ?_, ?_, ?_, ?_, ?_, ?_, ?_, ?_, ?_, ?_, ?_, ?_, ?_, ?_, ?_, ?_, ?_, ?_, ?_, ?_, ?_, ?_, ?_, ?_, ?_, ?_, ?_, ?_, ?_, ?_, ?_, ?_, ?_, ?_, ?_, ?_, ?_, ?_, ?_, ?_, ?_, ?_, ?_, ?_, ?_, ?_, ?_, ?_, ?_, ?_⟩ <;> rfl

theorem State.dropEarly_shape (s : State) (c a n : Nat) : ∃ v0, s.dropEarly c a n = { s with cores := v0 } := by
  unfold State.dropEarly
  split
  · exact ⟨_, rfl⟩
  · exact ⟨s.cores, rfl⟩

/-- dropEarly leaves every other field as it was. -/
@[simp] theorem State.dropEarly_frame (s : State) (c a n : Nat) :
    (s.dropEarly c a n).agenda = s.agenda ∧ (s.dropEarly c a n).subj = s.subj ∧ (s.dropEarly c a n).focus = s.focus ∧
    (s.dropEarly c a n).cpu = s.cpu ∧ (s.dropEarly c a n).part = s.part ∧ (s.dropEarly c a n).pkg = s.pkg ∧
    (s.dropEarly c a n).time = s.time ∧ (s.dropEarly c a n).dies = s.dies ∧ (s.dropEarly c a n).procs = s.procs ∧
    (s.dropEarly c a n).regions = s.regions ∧ (s.dropEarly c a n).loaderWins = s.loaderWins ∧
    (s.dropEarly c a n).placed = s.placed ∧ (s.dropEarly c a n).placements = s.placements ∧
    (s.dropEarly c a n).mem = s.mem ∧ (s.dropEarly c a n).empty = s.empty ∧ (s.dropEarly c a n).marks = s.marks ∧
    (s.dropEarly c a n).latent = s.latent ∧ (s.dropEarly c a n).hbm = s.hbm ∧
    (s.dropEarly c a n).hbmMarks = s.hbmMarks ∧ (s.dropEarly c a n).far = s.far ∧
    (s.dropEarly c a n).farMarks = s.farMarks ∧ (s.dropEarly c a n).host = s.host ∧
    (s.dropEarly c a n).watches = s.watches ∧ (s.dropEarly c a n).rsvs = s.rsvs ∧
    (s.dropEarly c a n).packets = s.packets ∧ (s.dropEarly c a n).flits = s.flits ∧
    (s.dropEarly c a n).loanMsgs = s.loanMsgs ∧ (s.dropEarly c a n).probes = s.probes ∧
    (s.dropEarly c a n).transfers = s.transfers ∧ (s.dropEarly c a n).channels = s.channels ∧
    (s.dropEarly c a n).barriers = s.barriers ∧ (s.dropEarly c a n).requests = s.requests ∧
    (s.dropEarly c a n).servers = s.servers ∧ (s.dropEarly c a n).groups = s.groups ∧
    (s.dropEarly c a n).hostQueues = s.hostQueues ∧ (s.dropEarly c a n).threads = s.threads ∧
    (s.dropEarly c a n).books = s.books ∧ (s.dropEarly c a n).grants = s.grants ∧
    (s.dropEarly c a n).edgeGrants = s.edgeGrants ∧ (s.dropEarly c a n).sems = s.sems ∧
    (s.dropEarly c a n).semOwners = s.semOwners ∧ (s.dropEarly c a n).triggers = s.triggers ∧
    (s.dropEarly c a n).trigWrites = s.trigWrites ∧ (s.dropEarly c a n).managerRecords = s.managerRecords ∧
    (s.dropEarly c a n).mailbox = s.mailbox ∧ (s.dropEarly c a n).errorRings = s.errorRings ∧
    (s.dropEarly c a n).irqs = s.irqs ∧ (s.dropEarly c a n).framesOut = s.framesOut ∧
    (s.dropEarly c a n).acksOut = s.acksOut ∧ (s.dropEarly c a n).uaOut = s.uaOut ∧
    (s.dropEarly c a n).reports = s.reports ∧ (s.dropEarly c a n).reclock = s.reclock ∧
    (s.dropEarly c a n).affected = s.affected ∧ (s.dropEarly c a n).loftUsed = s.loftUsed ∧
    (s.dropEarly c a n).bookHashes = s.bookHashes ∧ (s.dropEarly c a n).nextPid = s.nextPid ∧
    (s.dropEarly c a n).nextRegion = s.nextRegion ∧ (s.dropEarly c a n).nextId = s.nextId ∧
    (s.dropEarly c a n).free = s.free := by
  obtain ⟨v0, h⟩ := State.dropEarly_shape s c a n
  rw [h]
  refine ⟨?_, ?_, ?_, ?_, ?_, ?_, ?_, ?_, ?_, ?_, ?_, ?_, ?_, ?_, ?_, ?_, ?_, ?_, ?_, ?_, ?_, ?_, ?_, ?_, ?_, ?_, ?_, ?_, ?_, ?_, ?_, ?_, ?_, ?_, ?_, ?_, ?_, ?_, ?_, ?_, ?_, ?_, ?_, ?_, ?_, ?_, ?_, ?_, ?_, ?_, ?_, ?_, ?_, ?_, ?_, ?_, ?_, ?_, ?_⟩ <;> rfl

theorem State.noteTrigger_shape (s : State) (a : Nat) : ∃ v0, s.noteTrigger a = { s with trigWrites := v0 } := by
  unfold State.noteTrigger
  split
  · exact ⟨_, rfl⟩
  · exact ⟨s.trigWrites, rfl⟩

/-- noteTrigger leaves every other field as it was. -/
@[simp] theorem State.noteTrigger_frame (s : State) (a : Nat) :
    (s.noteTrigger a).agenda = s.agenda ∧ (s.noteTrigger a).subj = s.subj ∧ (s.noteTrigger a).focus = s.focus ∧
    (s.noteTrigger a).cpu = s.cpu ∧ (s.noteTrigger a).part = s.part ∧ (s.noteTrigger a).pkg = s.pkg ∧
    (s.noteTrigger a).time = s.time ∧ (s.noteTrigger a).dies = s.dies ∧ (s.noteTrigger a).cores = s.cores ∧
    (s.noteTrigger a).procs = s.procs ∧ (s.noteTrigger a).regions = s.regions ∧
    (s.noteTrigger a).loaderWins = s.loaderWins ∧ (s.noteTrigger a).placed = s.placed ∧
    (s.noteTrigger a).placements = s.placements ∧ (s.noteTrigger a).mem = s.mem ∧ (s.noteTrigger a).empty = s.empty ∧
    (s.noteTrigger a).marks = s.marks ∧ (s.noteTrigger a).latent = s.latent ∧ (s.noteTrigger a).hbm = s.hbm ∧
    (s.noteTrigger a).hbmMarks = s.hbmMarks ∧ (s.noteTrigger a).far = s.far ∧
    (s.noteTrigger a).farMarks = s.farMarks ∧ (s.noteTrigger a).host = s.host ∧
    (s.noteTrigger a).watches = s.watches ∧ (s.noteTrigger a).rsvs = s.rsvs ∧ (s.noteTrigger a).packets = s.packets ∧
    (s.noteTrigger a).flits = s.flits ∧ (s.noteTrigger a).loanMsgs = s.loanMsgs ∧
    (s.noteTrigger a).probes = s.probes ∧ (s.noteTrigger a).transfers = s.transfers ∧
    (s.noteTrigger a).channels = s.channels ∧ (s.noteTrigger a).barriers = s.barriers ∧
    (s.noteTrigger a).requests = s.requests ∧ (s.noteTrigger a).servers = s.servers ∧
    (s.noteTrigger a).groups = s.groups ∧ (s.noteTrigger a).hostQueues = s.hostQueues ∧
    (s.noteTrigger a).threads = s.threads ∧ (s.noteTrigger a).books = s.books ∧ (s.noteTrigger a).grants = s.grants ∧
    (s.noteTrigger a).edgeGrants = s.edgeGrants ∧ (s.noteTrigger a).sems = s.sems ∧
    (s.noteTrigger a).semOwners = s.semOwners ∧ (s.noteTrigger a).triggers = s.triggers ∧
    (s.noteTrigger a).managerRecords = s.managerRecords ∧ (s.noteTrigger a).mailbox = s.mailbox ∧
    (s.noteTrigger a).errorRings = s.errorRings ∧ (s.noteTrigger a).irqs = s.irqs ∧
    (s.noteTrigger a).framesOut = s.framesOut ∧ (s.noteTrigger a).acksOut = s.acksOut ∧
    (s.noteTrigger a).uaOut = s.uaOut ∧ (s.noteTrigger a).reports = s.reports ∧
    (s.noteTrigger a).reclock = s.reclock ∧ (s.noteTrigger a).affected = s.affected ∧
    (s.noteTrigger a).loftUsed = s.loftUsed ∧ (s.noteTrigger a).bookHashes = s.bookHashes ∧
    (s.noteTrigger a).nextPid = s.nextPid ∧ (s.noteTrigger a).nextRegion = s.nextRegion ∧
    (s.noteTrigger a).nextId = s.nextId ∧ (s.noteTrigger a).free = s.free := by
  obtain ⟨v0, h⟩ := State.noteTrigger_shape s a
  rw [h]
  refine ⟨?_, ?_, ?_, ?_, ?_, ?_, ?_, ?_, ?_, ?_, ?_, ?_, ?_, ?_, ?_, ?_, ?_, ?_, ?_, ?_, ?_, ?_, ?_, ?_, ?_, ?_, ?_, ?_, ?_, ?_, ?_, ?_, ?_, ?_, ?_, ?_, ?_, ?_, ?_, ?_, ?_, ?_, ?_, ?_, ?_, ?_, ?_, ?_, ?_, ?_, ?_, ?_, ?_, ?_, ?_, ?_, ?_, ?_, ?_⟩ <;> rfl

/-! Registers (R17, R74) -/

/-- x0 reads as zero. -/
@[simp] theorem Proc.getX_zero (p : Proc) : p.getX 0 = 0 := rfl

/-- A write to x0 is discarded. -/
@[simp] theorem Proc.setX_zero (p : Proc) (v : Word) : p.setX 0 v = p := rfl

/-- A register reads as what was written last. -/
theorem Proc.getX_setX (p : Proc) (r : XIdx) (v : Word) (q : XIdx) :
    (p.setX r v).getX q = if q = 0 then 0 else if q = r then v else p.getX q := by
  unfold Proc.getX Proc.setX
  by_cases hq : q = 0
  · simp [hq]
  · by_cases hr : r = 0
    · subst hr; simp only [if_neg hq, ↓reduceIte]
    · simp only [hq, hr, if_false]
      by_cases he : q = r
      · subst he; simp
      · have : r.toNat ≠ q.toNat := fun e => he (BitVec.eq_of_toNat_eq e.symm)
        simp [he, this]

/-- p0 reads as all ones. -/
@[simp] theorem Proc.getP_zero (p : Proc) : p.getP 0 = BitVec.allOnes 64 := rfl

/-- A mask register reads as what was written last. -/
theorem Proc.getP_setP (p : Proc) (r : PIdx) (v : Word) (q : PIdx) :
    (p.setP r v).getP q = if q = 0 then BitVec.allOnes 64 else if q = r then v else p.getP q := by
  unfold Proc.getP Proc.setP
  by_cases hq : q = 0
  · simp [hq]
  · by_cases hr : r = 0
    · subst hr; simp only [if_neg hq, ↓reduceIte]
    · simp only [hq, hr, if_false]
      by_cases he : q = r
      · subst he; simp
      · have : r.toNat ≠ q.toNat := fun e => he (BitVec.eq_of_toNat_eq e.symm)
        simp [he, this]

/-- A vector register reads as what was written last. -/
theorem Proc.getV_setV (p : Proc) (r : VIdx) (v : VReg) (q : VIdx) :
    (p.setV r v).getV q = if q = r then v else p.getV q := by
  unfold Proc.getV Proc.setV
  by_cases he : q = r
  · subst he; simp
  · have : r.toNat ≠ q.toNat := fun e => he (BitVec.eq_of_toNat_eq e.symm)
    simp [he, this]

/-- An accumulator reads as what was written last. -/
theorem Proc.getA_setA (p : Proc) (r : AIdx) (v : Acc) (q : AIdx) :
    (p.setA r v).getA q = if q = r then v else p.getA q := by
  unfold Proc.getA Proc.setA
  by_cases he : q = r
  · subst he; simp
  · have : r.toNat ≠ q.toNat := fun e => he (BitVec.eq_of_toNat_eq e.symm)
    simp [he, this]

theorem Proc.setX_shape (p : Proc) (r : XIdx) (v : Word) : ∃ x, p.setX r v = { p with x := x } := by
  unfold Proc.setX
  split
  · exact ⟨p.x, rfl⟩
  · exact ⟨_, rfl⟩

/-- A write of an x register leaves the rest of the process as it was. -/
@[simp] theorem Proc.setX_frame (p : Proc) (r : XIdx) (v : Word) :
    (p.setX r v).pid = p.pid ∧ (p.setX r v).pc = p.pc ∧ (p.setX r v).core = p.core ∧ (p.setX r v).st = p.st ∧
    (p.setX r v).region = p.region ∧ (p.setX r v).priv = p.priv ∧ (p.setX r v).wait = p.wait ∧
    (p.setX r v).v = p.v ∧ (p.setX r v).p = p.p ∧ (p.setX r v).acc = p.acc ∧ (p.setX r v).fpmode = p.fpmode ∧
    (p.setX r v).fpflags = p.fpflags ∧ (p.setX r v).streams = p.streams ∧ (p.setX r v).cls = p.cls := by
  obtain ⟨x, h⟩ := Proc.setX_shape p r v
  rw [h]
  refine ⟨?_, ?_, ?_, ?_, ?_, ?_, ?_, ?_, ?_, ?_, ?_, ?_, ?_, ?_⟩ <;> rfl

/-- The pc moves on and nothing else that a program sees. -/
@[simp] theorem Proc.advance_frame (p : Proc) (n : Nat) :
    (p.advance n).pc = p.pc + BitVec.ofNat 64 n ∧ (p.advance n).wait = .none ∧ (p.advance n).x = p.x ∧
    (p.advance n).pid = p.pid ∧ (p.advance n).core = p.core ∧ (p.advance n).st = p.st ∧ (p.advance n).v = p.v ∧
    (p.advance n).p = p.p ∧ (p.advance n).acc = p.acc ∧ (p.advance n).fpmode = p.fpmode ∧
    (p.advance n).fpflags = p.fpflags ∧ (p.advance n).streams = p.streams := by
  refine ⟨?_, ?_, ?_, ?_, ?_, ?_, ?_, ?_, ?_, ?_, ?_, ?_⟩ <;> rfl

@[simp] theorem Proc.getX_advance (p : Proc) (n : Nat) (r : XIdx) : (p.advance n).getX r = p.getX r := rfl

/-! The active bank -/

/-- The active process keeps its place. -/
theorem State.putProc_active {s : State} {p q : Proc} (h : s.cpu = some p) (hp : q.pid = p.pid) :
    s.putProc q = { s with cpu := some q } := by
  simp [State.putProc, h, hp]

theorem State.leaveRunning_active {s : State} {p q : Proc} (h : s.cpu = some p) (hp : q.pid = p.pid) :
    s.leaveRunning q = { s with cpu := none, procs := s.procs ++ [q] } := by
  simp [State.leaveRunning, h, hp, State.leaveCpu]

/-- The active process is found under its number. -/
theorem State.proc?_active {s : State} {p : Proc} (h : s.cpu = some p) : s.proc? p.pid = some p := by
  simp [State.proc?, h]

/-- With a process in the active bank, an instruction is performed on it. -/
theorem State.withProc_active {s : State} {p : Proc} (h : s.cpu = some p) (k : Proc → Out) : s.withProc k = k p := by
  simp [State.withProc, h]

end Sys2Proof.Machine
end

