-- ==== Sys2Proof/Laws/Scalar.lean ====
section
/-! SUPPORT. What the shared operations of the scalar instructions do: register forms, branches, loads and stores of the own
memory, taking a fault. -/

namespace Sys2Proof

open Machine

theorem advance_eq_behind (p : Proc) (len : Nat) : p.advance len = behind p len := rfl

theorem jump_eq_atTarget (p : Proc) (t : Word) : p.jump t = atTarget p t := rfl

theorem withProc_some {s : State} {p : Proc} (h : s.cpu = some p) (k : Proc → Out) : s.withProc k = k p := by
  simp only [State.withProc, h]

theorem done_completes {i : Instr} {s : State} {q : Proc} (h : exec i s = s.done q) : Completes i s q := h

/-- A register form writes x[D] and moves on. -/
theorem alu_completes {i : Instr} {s : State} {p : Proc} {d : XIdx} {len : Nat} {f : Proc → Word} {v : Word}
    (h : s.cpu = some p) (he : exec i s = s.alu d len f) (hv : f p = v) : Completes i s (behind (p.setX d v) len) := by
  subst hv
  unfold Completes
  rw [he, State.alu, withProc_some h]
  rfl

/-- A branch goes to its target or on. -/
theorem branch_completes {i : Instr} {s : State} {p : Proc} {len : Nat} {off t : Word} {c : Proc → Bool} {P : Prop}
    [Decidable P] (h : s.cpu = some p) (he : exec i s = s.branch len off c) (hc : c p = decide P) (ht : p.pc + off = t) :
    Completes i s (if P then atTarget p t else behind p len) := by
  subst ht
  unfold Completes
  rw [he, State.branch, withProc_some h, hc]
  by_cases hp : P
  · simp only [hp, decide_true, if_true]; rfl
  · simp only [hp, decide_false, if_false]; rfl

end Sys2Proof
end

