-- ==== Sys2Proof/Laws/Access.lean ====
section
/-! SUPPORT. Accesses to the own memory through the private alias: their target and checks, what a load of a quiet core gives
and what a store sends out. -/

namespace Sys2Proof

open Machine

/-- Below the park area a private address leads to the core's own memory. -/
theorem target_own {s : State} {core a : Nat} (h : a < s.parkStart core) : s.target core a = .own (globalBase core + a) := by
  have h1 : a < Config.localBytes := lt_of_lt_of_le h (Nat.sub_le _ _)
  simp only [State.target, h1, h, if_true]

/-- An access that is aligned and allowed passes every check. -/
theorem check_own {s : State} {p : Proc} {ea : Word} {n : Nat} {perm : Perm} (k : Word) (h : OwnAccess s p ea n perm) :
    s.check p ea n perm k = none := by
  simp only [State.check, h.1, h.2.1, target_own h.2.2, ne_eq, not_true_eq_false, if_false, Bool.not_true,
    Bool.false_eq_true]

/-- A quiet core has no unstamped access. -/
theorem coreUnstamped_quiet {s : State} {core : Nat} (h : ∀ q ∈ s.packets, q.core ≠ core) : s.coreUnstamped core = false := by
  simp only [State.coreUnstamped, List.any_eq_false]
  intro q hq
  simp [h q hq]

theorem heldBack_quiet {s : State} {core : Nat} (t : Target) (h : ∀ q ∈ s.packets, q.core ≠ core) :
    s.heldBack core t = false := by
  cases t <;> simp [State.heldBack, coreUnstamped_quiet h]

/-- Without writes of the core under way a load sees memory. -/
theorem seenByte_quiet {s : State} {core : Nat} (pid used home : Nat) (h : ∀ q ∈ s.packets, q.core ≠ core) :
    s.seenByte core pid used home = s.mem.get home := by
  have aux : ∀ (l : List Packet) (b : Byte), (∀ q ∈ l, q.core ≠ core) →
      l.foldl (fun b q => if q.forwards core pid then (q.byteFor used).getD b else b) b = b := by
    intro l
    induction l with
    | nil => intro b _; rfl
    | cons q l ih =>
      intro b hl
      have hq : q.forwards core pid = false := by simp [Packet.forwards, hl q (by simp)]
      simp only [List.foldl_cons, hq, Bool.false_eq_true, if_false]
      exact ih b fun r hr => hl r (by simp [hr])
  exact aux s.packets _ h

theorem seen_quiet {s : State} {core : Nat} (pid : Nat) (h : ∀ q ∈ s.packets, q.core ≠ core) (n used home : Nat) :
    s.seen core pid used home n = s.mem.read home n := by
  induction n generalizing used home with
  | zero => rfl
  | succ n ih => simp only [State.seen, Memory.read, seenByte_quiet pid used home h, ih]

/-- Sound granules bear no mark. -/
theorem marked_sound {s : State} {a n : Nat} (h : Sound s a n) : s.marked a n = false := by
  simp only [State.marked, List.any_eq_false]
  intro g hg
  have := h g hg
  simp only [Bool.and_eq_true, decide_eq_true_eq]
  omega

/-- A process of the active bank is put back into it. -/
theorem putProc_cpu {s : State} {p q : Proc} (h : s.cpu = some p) (hq : q.pid = p.pid) :
    s.putProc q = { s with cpu := some q } := by
  simp only [State.putProc, h, hq, if_true]

@[simp] theorem behind_pid (p : Proc) (len : Nat) : (behind p len).pid = p.pid := rfl

theorem clearEarly_quiet {s : State} {core : Nat} (h : (s.core core).early = []) : s.clearEarly core = s := by
  simp [State.clearEarly, h]

theorem dropEarly_quiet {s : State} {core : Nat} (h : (s.core core).early = []) (a n : Nat) : s.dropEarly core a n = s := by
  simp [State.dropEarly, h]

/-- A load of the own memory on a quiet core completes with the bytes of memory (R109). -/
theorem load_own {s : State} {p : Proc} {ea : Word} {n : Nat} (d : XIdx) (signed : Bool) (len : Nat) (kind : AKind)
    (hi : Issues s p) (hq : Quiet s p.core) (h : OwnAccess s p ea n .rd) (hs : Sound s (homeAt p ea) n) :
    s.load p d ea n signed len kind =
      .next { s with cpu := some (behind (p.setX d (extend signed n (s.mem.read (homeAt p ea) n))) len) } := by
  have he : s.early? p.core p.pc ea.toNat n = none := by simp [State.early?, hq.2]
  have hm : s.seenMarked p.core p.pid ea.toNat (globalBase p.core + ea.toNat) n = false := by
    simp only [State.seenMarked, show s.marked (globalBase p.core + ea.toNat) n = false from marked_sound hs, Bool.false_and]
  have hx : ∀ v, ((p.setX d v).advance len).pid = p.pid := fun v => by simp only [Proc.setX]; split <;> rfl
  have hp : ∀ v, s.putProc ((p.setX d v).advance len) = { s with cpu := some (behind (p.setX d v) len) } :=
    fun v => putProc_cpu hi.1 (hx v)
  unfold State.load
  rcases hi.2 with hw | hw <;>
    simp only [hw, check_own 0 h, target_own h.2.2, heldBack_quiet _ hq.1, he, ite_self, Bool.false_eq_true, if_false,
      State.loadDone, dropEarly_quiet hq.2, hm, clearEarly_quiet hq.2, hp, seen_quiet _ hq.1, homeAt]

/-- A store to the own memory on a quiet core sets out as one write (R100, R109). -/
theorem storeInstr_own {s : State} {p : Proc} {ea : Word} {n : Nat} (v : Word) (len : Nat) (kind : AKind)
    (hq : Quiet s p.core) (h : OwnAccess s p ea n .wr) :
    s.storeInstr p ea n v len kind =
      .next { s with
        cpu := some (behind p len), nextId := s.nextId + 1
        packets := s.packets ++ [p.packet s.nextId ea n (dieOf p.core) .own kind
          (.write { addr := homeAt p ea, n := n, val := v.toNat % 2 ^ (8 * n), fe := none,
                    author := some (s.author p ea) }) ((s.core p.core).remote - 1)] } := by
  have he : ({ s with cpu := some p } : State).dropEarly p.core ea.toNat n = { s with cpu := some p } :=
    dropEarly_quiet (s := { s with cpu := some p }) hq.2 _ _
  simp only [State.storeInstr, check_own 1 h, target_own h.2.2, heldBack_quiet _ hq.1, Bool.false_eq_true, if_false,
    State.store, he, Target.remote, State.dispatchPacket, State.freshId, State.done]
  rfl

end Sys2Proof
end

