-- ==== Sys2Proof/Laws/Encoding.lean ====
section
/-! SUPPORT. Laws of encodings: the fields of a word that a format has put together, and the bytes of a code. -/

namespace Sys2Proof

set_option linter.unusedSimpArgs false

/-- A part of an append that lies in its low operand. -/
theorem extract_append_low {n m : Nat} (x : BitVec n) (y : BitVec m) (s l : Nat) (h : s + l ≤ m) :
    (x ++ y).extractLsb' s l = y.extractLsb' s l := by
  apply BitVec.eq_of_getLsbD_eq
  intro i hi
  simp only [BitVec.getLsbD_extractLsb', BitVec.getLsbD_append]
  have : s + i < m := by omega
  simp [this]

/-- A part of an append that lies in its high operand. -/
theorem extract_append_high {n m : Nat} (x : BitVec n) (y : BitVec m) (s l : Nat) (h : m ≤ s) :
    (x ++ y).extractLsb' s l = x.extractLsb' (s - m) l := by
  apply BitVec.eq_of_getLsbD_eq
  intro i hi
  simp only [BitVec.getLsbD_extractLsb', BitVec.getLsbD_append]
  have h1 : ¬ s + i < m := by omega
  have h2 : s + i - m = s - m + i := by omega
  simp [h1, h2]

/-- The whole of a vector. -/
theorem extract_all {n : Nat} (x : BitVec n) : x.extractLsb' 0 n = x := by
  apply BitVec.eq_of_getLsbD_eq
  intro i hi
  simp [hi]

/-- Two parts that lie next to each other. -/
theorem extract_join {n : Nat} (x : BitVec n) (s l k : Nat) :
    x.extractLsb' (s + l) k ++ x.extractLsb' s l = x.extractLsb' s (k + l) := by
  apply BitVec.eq_of_getLsbD_eq
  intro i hi
  simp only [BitVec.getLsbD_append, BitVec.getLsbD_extractLsb']
  by_cases h : i < l
  · have : i < k + l := by omega
    simp [h, this]
  · have h2 : i - l < k := by omega
    have h3 : s + l + (i - l) = s + i := by omega
    simp [h, h2, h3, hi]

/-- A word's bytes decode to what the word decodes to. -/
theorem decode_word {w : BitVec 32} {i : Instr} (hb : w.getLsbD 0 = true) (h : decodeWord w = .ok i) :
    decode (Code.word w).bytes = .instr i 4 := by
  have h0 : w.extractLsb' 8 8 ++ w.extractLsb' 0 8 = w.extractLsb' 0 16 := extract_join w 0 8 8
  have h1 : w.extractLsb' 24 8 ++ w.extractLsb' 16 8 = w.extractLsb' 16 16 := extract_join w 16 8 8
  have h2 : w.extractLsb' 16 16 ++ w.extractLsb' 0 16 = w.extractLsb' 0 32 := extract_join w 0 16 16
  simp only [Code.bytes, decode, h0, h1, BitVec.getLsbD_extractLsb', hb, Nat.zero_add, decide_true, Bool.true_and,
    if_true, decodeHalves, wordOf, h2, extract_all, h, show (0 < 16) = True by decide]

/-- A halfword's bytes decode to what the halfword decodes to. -/
theorem decode_half {w : BitVec 16} {i : Instr} (hb : w.getLsbD 0 = false) (h : decodeHalf w = .ok i) :
    decode (Code.half w).bytes = .instr i 2 := by
  have h0 : w.extractLsb' 8 8 ++ w.extractLsb' 0 8 = w.extractLsb' 0 16 := extract_join w 0 8 8
  have h1 : (w.extractLsb' 0 16).getLsbD 0 = false := by rw [extract_all]; exact hb
  simp only [Code.bytes, decode, h0, h1, hb, decodeHalves, extract_all, h, Bool.false_eq_true, if_false]

section
variable (maj : BitVec 6) (fn : BitVec 10) (fn7 : BitVec 7) (m : BitVec 3) (i5 fn5 b a d : BitVec 5)
variable (imm : BitVec 15) (u : BitVec 20)

theorem mkR_odd : (mkR maj fn b a d).getLsbD 0 = true := by
  unfold mkR; rw [BitVec.getLsbD_append]; rfl
@[simp] theorem fMaj_mkR : fMaj (mkR maj fn b a d) = maj := by
  simp (disch := decide) only [fMaj, mkR, extract_append_low, extract_append_high, extract_all, Nat.reduceSub]
@[simp] theorem fD_mkR : fD (mkR maj fn b a d) = d := by
  simp (disch := decide) only [fD, mkR, extract_append_low, extract_append_high, extract_all, Nat.reduceSub]
@[simp] theorem fA_mkR : fA (mkR maj fn b a d) = a := by
  simp (disch := decide) only [fA, mkR, extract_append_low, extract_append_high, extract_all, Nat.reduceSub]
@[simp] theorem fB_mkR : fB (mkR maj fn b a d) = b := by
  simp (disch := decide) only [fB, mkR, extract_append_low, extract_append_high, extract_all, Nat.reduceSub]
@[simp] theorem fFn_mkR : fFn (mkR maj fn b a d) = fn := by
  simp (disch := decide) only [fFn, mkR, extract_append_low, extract_append_high, extract_all, Nat.reduceSub]
@[simp] theorem fM_mkR : fM (mkR maj fn b a d) = fn.extractLsb' 0 3 := by
  simp (disch := decide) only [fM, mkR, extract_append_low, extract_append_high, extract_all, Nat.reduceSub]
@[simp] theorem fFn5_mkR : fFn5 (mkR maj fn b a d) = fn.extractLsb' 0 5 := by
  simp (disch := decide) only [fFn5, mkR, extract_append_low, extract_append_high, extract_all, Nat.reduceSub]
@[simp] theorem fImm5_mkR : fImm5 (mkR maj fn b a d) = fn.extractLsb' 5 5 := by
  simp (disch := decide) only [fImm5, mkR, extract_append_low, extract_append_high, extract_all, Nat.reduceSub]
@[simp] theorem fFn7_mkR : fFn7 (mkR maj fn b a d) = fn.extractLsb' 3 7 := by
  simp (disch := decide) only [fFn7, mkR, extract_append_low, extract_append_high, extract_all, Nat.reduceSub]
theorem mkI_odd : (mkI maj imm a d).getLsbD 0 = true := by
  unfold mkI; rw [BitVec.getLsbD_append]; rfl
@[simp] theorem fMaj_mkI : fMaj (mkI maj imm a d) = maj := by
  simp (disch := decide) only [fMaj, mkI, extract_append_low, extract_append_high, extract_all, Nat.reduceSub]
@[simp] theorem fD_mkI : fD (mkI maj imm a d) = d := by
  simp (disch := decide) only [fD, mkI, extract_append_low, extract_append_high, extract_all, Nat.reduceSub]
@[simp] theorem fA_mkI : fA (mkI maj imm a d) = a := by
  simp (disch := decide) only [fA, mkI, extract_append_low, extract_append_high, extract_all, Nat.reduceSub]
@[simp] theorem fImmI_mkI : fImmI (mkI maj imm a d) = imm := by
  simp (disch := decide) only [fImmI, mkI, extract_append_low, extract_append_high, extract_all, Nat.reduceSub]
theorem mkS_odd : (mkS maj imm b a).getLsbD 0 = true := by
  unfold mkS; rw [BitVec.getLsbD_append]; rfl
@[simp] theorem fMaj_mkS : fMaj (mkS maj imm b a) = maj := by
  simp (disch := decide) only [fMaj, mkS, extract_append_low, extract_append_high, extract_all, Nat.reduceSub]
@[simp] theorem fA_mkS : fA (mkS maj imm b a) = a := by
  simp (disch := decide) only [fA, mkS, extract_append_low, extract_append_high, extract_all, Nat.reduceSub]
@[simp] theorem fB_mkS : fB (mkS maj imm b a) = b := by
  simp (disch := decide) only [fB, mkS, extract_append_low, extract_append_high, extract_all, Nat.reduceSub]
@[simp] theorem fImmS_mkS : fImmS (mkS maj imm b a) = imm := by
  simp (disch := decide) only [fImmS, mkS, extract_append_low, extract_append_high, extract_all, Nat.reduceSub, extract_join _ 0 5 10]
theorem mkU_odd : (mkU maj u d).getLsbD 0 = true := by
  unfold mkU; rw [BitVec.getLsbD_append]; rfl
@[simp] theorem fMaj_mkU : fMaj (mkU maj u d) = maj := by
  simp (disch := decide) only [fMaj, mkU, extract_append_low, extract_append_high, extract_all, Nat.reduceSub]
@[simp] theorem fD_mkU : fD (mkU maj u d) = d := by
  simp (disch := decide) only [fD, mkU, extract_append_low, extract_append_high, extract_all, Nat.reduceSub]
@[simp] theorem fImmU_mkU : fImmU (mkU maj u d) = u := by
  simp (disch := decide) only [fImmU, mkU, extract_append_low, extract_append_high, extract_all, Nat.reduceSub]
theorem mkV_odd : (mkV maj fn7 m b a d).getLsbD 0 = true := by
  unfold mkV; rw [BitVec.getLsbD_append]; rfl
@[simp] theorem fMaj_mkV : fMaj (mkV maj fn7 m b a d) = maj := by
  simp (disch := decide) only [fMaj, mkV, extract_append_low, extract_append_high, extract_all, Nat.reduceSub]
@[simp] theorem fD_mkV : fD (mkV maj fn7 m b a d) = d := by
  simp (disch := decide) only [fD, mkV, extract_append_low, extract_append_high, extract_all, Nat.reduceSub]
@[simp] theorem fA_mkV : fA (mkV maj fn7 m b a d) = a := by
  simp (disch := decide) only [fA, mkV, extract_append_low, extract_append_high, extract_all, Nat.reduceSub]
@[simp] theorem fB_mkV : fB (mkV maj fn7 m b a d) = b := by
  simp (disch := decide) only [fB, mkV, extract_append_low, extract_append_high, extract_all, Nat.reduceSub]
@[simp] theorem fM_mkV : fM (mkV maj fn7 m b a d) = m := by
  simp (disch := decide) only [fM, mkV, extract_append_low, extract_append_high, extract_all, Nat.reduceSub]
@[simp] theorem fFn7_mkV : fFn7 (mkV maj fn7 m b a d) = fn7 := by
  simp (disch := decide) only [fFn7, mkV, extract_append_low, extract_append_high, extract_all, Nat.reduceSub]
theorem mkX_odd : (mkX maj i5 fn5 b a d).getLsbD 0 = true := by
  unfold mkX; rw [BitVec.getLsbD_append]; rfl
@[simp] theorem fMaj_mkX : fMaj (mkX maj i5 fn5 b a d) = maj := by
  simp (disch := decide) only [fMaj, mkX, extract_append_low, extract_append_high, extract_all, Nat.reduceSub]
@[simp] theorem fD_mkX : fD (mkX maj i5 fn5 b a d) = d := by
  simp (disch := decide) only [fD, mkX, extract_append_low, extract_append_high, extract_all, Nat.reduceSub]
@[simp] theorem fA_mkX : fA (mkX maj i5 fn5 b a d) = a := by
  simp (disch := decide) only [fA, mkX, extract_append_low, extract_append_high, extract_all, Nat.reduceSub]
@[simp] theorem fB_mkX : fB (mkX maj i5 fn5 b a d) = b := by
  simp (disch := decide) only [fB, mkX, extract_append_low, extract_append_high, extract_all, Nat.reduceSub]
@[simp] theorem fFn5_mkX : fFn5 (mkX maj i5 fn5 b a d) = fn5 := by
  simp (disch := decide) only [fFn5, mkX, extract_append_low, extract_append_high, extract_all, Nat.reduceSub]
@[simp] theorem fImm5_mkX : fImm5 (mkX maj i5 fn5 b a d) = i5 := by
  simp (disch := decide) only [fImm5, mkX, extract_append_low, extract_append_high, extract_all, Nat.reduceSub]
end

theorem mkH6_even (op : BitVec 4) (i : BitVec 6) (d : BitVec 5) : (mkH6 op i d).getLsbD 0 = false := by
  unfold mkH6; rw [BitVec.getLsbD_append]; rfl
@[simp] theorem hOp_mkH6 (op : BitVec 4) (i : BitVec 6) (d : BitVec 5) : hOp (mkH6 op i d) = op := by
  simp (disch := decide) only [hOp, mkH6, extract_append_low, extract_append_high, extract_all, Nat.reduceSub]
@[simp] theorem hD_mkH6 (op : BitVec 4) (i : BitVec 6) (d : BitVec 5) : hD (mkH6 op i d) = d := by
  simp (disch := decide) only [hD, mkH6, extract_append_low, extract_append_high, extract_all, Nat.reduceSub]
@[simp] theorem hImm6_mkH6 (op : BitVec 4) (i : BitVec 6) (d : BitVec 5) : hImm6 (mkH6 op i d) = i := by
  simp (disch := decide) only [hImm6, mkH6, extract_append_low, extract_append_high, extract_all, Nat.reduceSub]
theorem mkHF_even (op : BitVec 4) (f : Bool) (a d : BitVec 5) : (mkHF op f a d).getLsbD 0 = false := by
  unfold mkHF; rw [BitVec.getLsbD_append]; rfl
@[simp] theorem hOp_mkHF (op : BitVec 4) (f : Bool) (a d : BitVec 5) : hOp (mkHF op f a d) = op := by
  simp (disch := decide) only [hOp, mkHF, extract_append_low, extract_append_high, extract_all, Nat.reduceSub]
@[simp] theorem hD_mkHF (op : BitVec 4) (f : Bool) (a d : BitVec 5) : hD (mkHF op f a d) = d := by
  simp (disch := decide) only [hD, mkHF, extract_append_low, extract_append_high, extract_all, Nat.reduceSub]
@[simp] theorem hA_mkHF (op : BitVec 4) (f : Bool) (a d : BitVec 5) : hA (mkHF op f a d) = a := by
  simp (disch := decide) only [hA, mkHF, extract_append_low, extract_append_high, extract_all, Nat.reduceSub]
theorem mkHM_even (op : BitVec 4) (o : BitVec 5) (a d : BitVec 3) : (mkHM op o a d).getLsbD 0 = false := by
  unfold mkHM; rw [BitVec.getLsbD_append]; rfl
@[simp] theorem hOp_mkHM (op : BitVec 4) (o : BitVec 5) (a d : BitVec 3) : hOp (mkHM op o a d) = op := by
  simp (disch := decide) only [hOp, mkHM, extract_append_low, extract_append_high, extract_all, Nat.reduceSub]
@[simp] theorem hLow3_mkHM (op : BitVec 4) (o : BitVec 5) (a d : BitVec 3) : hLow3 (mkHM op o a d) = d := by
  simp (disch := decide) only [hLow3, mkHM, extract_append_low, extract_append_high, extract_all, Nat.reduceSub]
@[simp] theorem hMid3_mkHM (op : BitVec 4) (o : BitVec 5) (a d : BitVec 3) : hMid3 (mkHM op o a d) = a := by
  simp (disch := decide) only [hMid3, mkHM, extract_append_low, extract_append_high, extract_all, Nat.reduceSub]
@[simp] theorem hOff5_mkHM (op : BitVec 4) (o : BitVec 5) (a d : BitVec 3) : hOff5 (mkHM op o a d) = o := by
  simp (disch := decide) only [hOff5, mkHM, extract_append_low, extract_append_high, extract_all, Nat.reduceSub]
theorem mkHB_even (op : BitVec 4) (o : BitVec 8) (a : BitVec 3) : (mkHB op o a).getLsbD 0 = false := by
  unfold mkHB; rw [BitVec.getLsbD_append]; rfl
@[simp] theorem hOp_mkHB (op : BitVec 4) (o : BitVec 8) (a : BitVec 3) : hOp (mkHB op o a) = op := by
  simp (disch := decide) only [hOp, mkHB, extract_append_low, extract_append_high, extract_all, Nat.reduceSub]
@[simp] theorem hLow3_mkHB (op : BitVec 4) (o : BitVec 8) (a : BitVec 3) : hLow3 (mkHB op o a) = a := by
  simp (disch := decide) only [hLow3, mkHB, extract_append_low, extract_append_high, extract_all, Nat.reduceSub]
@[simp] theorem hOff8_mkHB (op : BitVec 4) (o : BitVec 8) (a : BitVec 3) : hOff8 (mkHB op o a) = o := by
  simp (disch := decide) only [hOff8, mkHB, extract_append_low, extract_append_high, extract_all, Nat.reduceSub]
@[simp] theorem hF_mkHF (op : BitVec 4) (f : Bool) (a d : BitVec 5) : hF (mkHF op f a d) = f := by
  unfold hF mkHF; simp only [BitVec.getLsbD_append]; cases f <;> rfl

/-! A word's major selects its decoder -/

theorem word01 {w : BitVec 32} (h : fMaj w = 0x01) : decodeWord w = dec01 w := by
  unfold decodeWord; rw [h]; rfl
theorem word08 {w : BitVec 32} (h : fMaj w = 0x08) : decodeWord w = dec08 w := by
  unfold decodeWord; rw [h]; rfl
theorem word0B {w : BitVec 32} (h : fMaj w = 0x0B) : decodeWord w = dec0B w := by
  unfold decodeWord; rw [h]; rfl
theorem word0C {w : BitVec 32} (h : fMaj w = 0x0C) : decodeWord w = dec0C w := by
  unfold decodeWord; rw [h]; rfl
theorem word19 {w : BitVec 32} (h : fMaj w = 0x19) : decodeWord w = dec19 w := by
  unfold decodeWord; rw [h]; rfl
theorem word0D {w : BitVec 32} (h : fMaj w = 0x0D) : decodeWord w = dec0D w := by
  unfold decodeWord; rw [h]; rfl
theorem word0E {w : BitVec 32} (h : fMaj w = 0x0E) : decodeWord w = dec0E w := by
  unfold decodeWord; rw [h]; rfl
theorem word0F {w : BitVec 32} (h : fMaj w = 0x0F) : decodeWord w = dec0F w := by
  unfold decodeWord; rw [h]; rfl
theorem word20 {w : BitVec 32} (h : fMaj w = 0x20) : decodeWord w = dec20 w := by
  unfold decodeWord; rw [h]; rfl
theorem word21 {w : BitVec 32} (h : fMaj w = 0x21) : decodeWord w = dec21 w := by
  unfold decodeWord; rw [h]; rfl
theorem word22 {w : BitVec 32} (h : fMaj w = 0x22) : decodeWord w = dec22 w := by
  unfold decodeWord; rw [h]; rfl
theorem word23 {w : BitVec 32} (h : fMaj w = 0x23) : decodeWord w = dec23 w := by
  unfold decodeWord; rw [h]; rfl
theorem word24 {w : BitVec 32} (h : fMaj w = 0x24) : decodeWord w = dec24 w := by
  unfold decodeWord; rw [h]; rfl
theorem word25 {w : BitVec 32} (h : fMaj w = 0x25) : decodeWord w = dec25 w := by
  unfold decodeWord; rw [h]; rfl
theorem word26 {w : BitVec 32} (h : fMaj w = 0x26) : decodeWord w = dec26 w := by
  unfold decodeWord; rw [h]; rfl
theorem word27 {w : BitVec 32} (h : fMaj w = 0x27) : decodeWord w = dec27 w := by
  unfold decodeWord; rw [h]; rfl
theorem word28 {w : BitVec 32} (h : fMaj w = 0x28) : decodeWord w = dec28 w := by
  unfold decodeWord; rw [h]; rfl
theorem word29 {w : BitVec 32} (h : fMaj w = 0x29) : decodeWord w = dec29 w := by
  unfold decodeWord; rw [h]; rfl
theorem word30 {w : BitVec 32} (h : fMaj w = 0x30) : decodeWord w = dec30 w := by
  unfold decodeWord; rw [h]; rfl
theorem word31 {w : BitVec 32} (h : fMaj w = 0x31) : decodeWord w = dec31 w := by
  unfold decodeWord; rw [h]; rfl
theorem word32 {w : BitVec 32} (h : fMaj w = 0x32) : decodeWord w = dec32 w := by
  unfold decodeWord; rw [h]; rfl
theorem word33 {w : BitVec 32} (h : fMaj w = 0x33) : decodeWord w = dec33 w := by
  unfold decodeWord; rw [h]; rfl

/-! Register fields -/

@[simp] theorem vreg_setWidth (x : VIdx) (k : VIdx → Except Reason Instr) : vreg (x.setWidth 5) k = k x := by
  have h : (x.setWidth 5).toNat < 16 := by have := x.isLt; simp; omega
  simp only [vreg, h, if_true]
  congr 1
  apply BitVec.eq_of_toNat_eq; simp

@[simp] theorem preg_setWidth (x : PIdx) (k : PIdx → Except Reason Instr) : preg (x.setWidth 5) k = k x := by
  have h : (x.setWidth 5).toNat < 8 := by have := x.isLt; simp; omega
  simp only [preg, h, if_true]
  congr 1
  apply BitVec.eq_of_toNat_eq; simp

@[simp] theorem areg_setWidth (x : AIdx) (k : AIdx → Except Reason Instr) : areg (x.setWidth 5) k = k x := by
  have h : (x.setWidth 5).toNat < 4 := by have := x.isLt; simp; omega
  simp only [areg, h, if_true]
  congr 1
  apply BitVec.eq_of_toNat_eq; simp

@[simp] theorem sreg_sField (x : BitVec 3) (k : BitVec 3 → Except Reason Instr) : sreg (sField x) k = k x := by
  revert x k; intro x k
  have h : 8 ≤ (sField x).toNat ∧ (sField x).toNat < 16 ∧ (sField x).setWidth 3 = x := by revert x; decide
  simp only [sreg, h.1, h.2.1, h.2.2, and_self, if_true]

@[simp] theorem setWidth_preg (x : PIdx) : (BitVec.setWidth 4 x).setWidth 5 = x.setWidth 5 := by revert x; decide

end Sys2Proof
end

