-- ==== Sys2Proof/Laws/Memories.lean ====
section
/-! SUPPORT. The operations of the machine that write a memory keep all four memories in their canonical form. -/

namespace Sys2Proof

open Machine

/-- Only the memories of a state bear on their form. -/
theorem MemoriesOk.congr {s t : State} (h : MemoriesOk s) (hm : t.mem = s.mem) (hb : t.hbm = s.hbm) (hf : t.far = s.far)
    (hh : t.host = s.host) : MemoriesOk t := by
  simpa only [MemoriesOk, hm, hb, hf, hh] using h

theorem setFull_memories {s : State} (a : Nat) (b : Bool) (h : MemoriesOk s) : MemoriesOk (s.setFull a b) := by
  refine h.congr ?_ ?_ ?_ ?_ <;> · unfold State.setFull; try split
                                   all_goals rfl

theorem noteTrigger_memories {s : State} (a : Nat) (h : MemoriesOk s) : MemoriesOk (s.noteTrigger a) := by
  unfold State.noteTrigger
  split
  · exact h.congr rfl rfl rfl rfl
  · exact h

theorem hostWrite_memories {s : State} (f a : Nat) (bs : List Byte) (h : MemoriesOk s) : MemoriesOk (s.hostWrite f a bs) :=
  ⟨h.1, h.2.1, h.2.2.1, Memory.writeBytes_wf _ bs h.2.2.2⟩

theorem foldl_keeps {α β : Type} (P : β → Prop) {f : β → α → β} (l : List α) {s : β} (h : P s)
    (hf : ∀ t a, P t → P (f t a)) : P (l.foldl f s) := by
  induction l generalizing s with
  | nil => exact h
  | cons a l ih => exact ih (hf s a h)

theorem hbmWrite_memories {s : State} (pa : Nat) (bs : List MByte) (h : MemoriesOk s) : MemoriesOk (s.hbmWrite pa bs) :=
  ⟨h.1, Memory.writeBytes_wf _ _ h.2.1, h.2.2⟩

theorem segWrite_memories {s : State} (seg : Segment) (pa : Nat) (bs : List MByte) (h : MemoriesOk s) :
    MemoriesOk (s.segWrite seg pa bs) := by
  unfold State.segWrite
  split
  · exact ⟨h.1, h.2.1, Memory.writeBytes_wf _ _ h.2.2.1, h.2.2.2⟩
  · exact foldl_keeps (fun a : State × List MByte => MemoriesOk a.1) _ h fun a x k => hbmWrite_memories _ _ k

theorem copyBlock_memories {s : State} (src dst off n : Nat) (h : MemoriesOk s) : MemoriesOk (s.copyBlock src dst off n) :=
  ⟨Memory.copy_wf _ _ n h.1, h.2⟩

theorem wipeStacks_memories {s : State} (a : Nat) (h : MemoriesOk s) : MemoriesOk (s.wipeStacks a) :=
  ⟨h.1, Memory.filter_wf _ h.2.1, h.2.2⟩

theorem wipeDie_memories {s : State} (a : Nat) (h : MemoriesOk s) : MemoriesOk (s.wipeDie a) :=
  ⟨Memory.filter_wf _ h.1, h.2⟩

theorem wipe_memories {s : State} (h : MemoriesOk s) : MemoriesOk s.wipe := ⟨rfl, rfl, h.2.2⟩

theorem doSync_memories {s : State} (a : Nat) (op : SyncOp) (h : MemoriesOk s) : MemoriesOk (s.doSync a op) := by
  cases op with
  | ste v =>
    have k := noteTrigger_memories a (setFull_memories a true h)
    exact ⟨Memory.write_wf a 8 _ h.1, k.2⟩
  | lde => exact setFull_memories a false h
  | _ => exact h

namespace Machine

theorem foldl_memories {α : Type} {f : State → α → State} (l : List α) {s : State} (h : MemoriesOk s)
    (hf : ∀ t a, MemoriesOk t → MemoriesOk (f t a)) : MemoriesOk (l.foldl f s) := by
  induction l generalizing s with
  | nil => exact h
  | cons a l ih => exact ih (hf s a h)

theorem MemoriesOk.up {s : State} {agenda_ : List Agenda} {subj_ : Subject} {focus_ : Nat} {cpu_ : Option Proc} {part_ : Option Nat}
    {pkg_ : Pkg} {time_ : Nat} {dies_ : List Die} {cores_ : List Core} {procs_ : List Proc} {regions_ : List Region}
    {loaderWins_ : List LoaderWin} {placed_ : List Placed} {placements_ : List Placement} {empty_ : List Nat}
    {marks_ : List Nat} {latent_ : List Nat} {hbmMarks_ : List Nat} {farMarks_ : List Nat} {watches_ : List Watch}
    {rsvs_ : List RsvReq} {packets_ : List Packet} {flits_ : List Flit} {loanMsgs_ : List LoanMsg}
    {probes_ : List Probe} {transfers_ : List Transfer} {channels_ : List Channel} {barriers_ : List Barrier}
    {requests_ : List MsReq} {servers_ : List Server} {groups_ : List Group} {hostQueues_ : List HostQueue}
    {threads_ : List Thread} {books_ : List Book} {grants_ : List Grant} {edgeGrants_ : List (Nat × Nat)}
    {sems_ : Tab} {semOwners_ : List (Nat × Nat)} {triggers_ : List Trigger} {trigWrites_ : List Nat}
    {managerRecords_ : List Record} {mailbox_ : List Record} {errorRings_ : List (Nat × Record)}
    {irqs_ : List (Nat × Nat)} {framesOut_ : List (Nat × UetPacket)}
    {acksOut_ : List (Nat × Nat × BitVec 32 × BitVec 64)} {uaOut_ : List (Nat × UaAnswer)}
    {reports_ : List (List Byte)} {reclock_ : Option Reclock} {affected_ : List Affected}
    {loftUsed_ : List (Nat × Nat × Nat)} {bookHashes_ : List (Nat × Nat)} {nextPid_ : Nat} {nextRegion_ : Nat}
    {nextId_ : Nat} {free_ : Nat}
    (h : MemoriesOk s) :
    MemoriesOk (State.mk agenda_ subj_ focus_ cpu_ part_ pkg_ time_ dies_ cores_ procs_ regions_ loaderWins_ placed_ placements_ s.mem
      empty_ marks_ latent_ s.hbm hbmMarks_ s.far farMarks_ s.host watches_ rsvs_ packets_ flits_ loanMsgs_
      probes_ transfers_ channels_ barriers_ requests_ servers_ groups_ hostQueues_ threads_ books_ grants_
      edgeGrants_ sems_ semOwners_ triggers_ trigWrites_ managerRecords_ mailbox_ errorRings_ irqs_ framesOut_
      acksOut_ uaOut_ reports_ reclock_ affected_ loftUsed_ bookHashes_ nextPid_ nextRegion_ nextId_ free_) := h

/-- Where an outcome is a next state, its memories are in their canonical form. -/
@[irreducible] def OutOk (o : Out) : Prop := ∀ t, o = .next t → MemoriesOk t

theorem OutOk.next {t : State} (ok : MemoriesOk t) : OutOk (.next t) := by
  unfold OutOk
  rintro _ ⟨⟩
  exact ok

theorem OutOk.fault (f : Fault) : OutOk (.fault f) := by
  unfold OutOk
  rintro _ ⟨⟩

theorem OutOk.refused (f : Refusal) : OutOk (.refused f) := by
  unfold OutOk
  rintro _ ⟨⟩

end Machine

end Sys2Proof
end

