-- ==== Sys2Proof/Laws/MemoriesCore.lean ====
section
/-! SUPPORT. The operations of cores, homes, fabric, processes and placement keep the memories in their canonical form. -/

set_option Elab.async false

namespace Sys2Proof.Machine

theorem putProc_memories {s : State} (p : Proc) (okm : MemoriesOk s) : MemoriesOk (s.putProc p) := by
  unfold State.putProc
  repeat' first
    | with_reducible assumption | intro _ | with_reducible apply foldl_memories | split
    | with_reducible apply MemoriesOk.up

theorem modProc_memories {s : State} (pid : Nat) (f : Proc → Proc) (okm : MemoriesOk s) : MemoriesOk (s.modProc pid f)
    := by
  unfold State.modProc
  repeat' first
    | with_reducible assumption | intro _ | with_reducible apply putProc_memories
    | with_reducible apply foldl_memories | split

theorem leaveCpu_memories {s : State} (p : Proc) (okm : MemoriesOk s) : MemoriesOk (s.leaveCpu p) := by
  unfold State.leaveCpu
  repeat' first
    | with_reducible assumption | intro _ | with_reducible apply foldl_memories | split
    | with_reducible apply MemoriesOk.up

theorem leaveRunning_memories {s : State} (p : Proc) (okm : MemoriesOk s) : MemoriesOk (s.leaveRunning p) := by
  unfold State.leaveRunning
  repeat' first
    | with_reducible assumption | intro _ | with_reducible apply putProc_memories
    | with_reducible apply leaveCpu_memories | with_reducible apply foldl_memories | split

theorem refocus_memories {s : State} (c : Nat) (okm : MemoriesOk s) : MemoriesOk (s.refocus c) := by
  unfold State.refocus
  repeat' first
    | with_reducible assumption | intro _ | with_reducible apply foldl_memories | split
    | with_reducible apply MemoriesOk.up

theorem putCore_memories {s : State} (k : Core) (okm : MemoriesOk s) : MemoriesOk (s.putCore k) := by
  unfold State.putCore
  repeat' first
    | with_reducible assumption | intro _ | with_reducible apply foldl_memories | split
    | with_reducible apply MemoriesOk.up

theorem modCore_memories {s : State} (c : Nat) (f : Core → Core) (okm : MemoriesOk s) : MemoriesOk (s.modCore c f) := by
  unfold State.modCore
  repeat' first | with_reducible assumption | intro _ | with_reducible apply putCore_memories

theorem putDie_memories {s : State} (k : Die) (okm : MemoriesOk s) : MemoriesOk (s.putDie k) := by
  unfold State.putDie
  repeat' first
    | with_reducible assumption | intro _ | with_reducible apply foldl_memories | split
    | with_reducible apply MemoriesOk.up

theorem modDie_memories {s : State} (d : Nat) (f : Die → Die) (okm : MemoriesOk s) : MemoriesOk (s.modDie d f) := by
  unfold State.modDie
  repeat' first | with_reducible assumption | intro _ | with_reducible apply putDie_memories

theorem putRegion_memories {s : State} (r : Region) (okm : MemoriesOk s) : MemoriesOk (s.putRegion r) := by
  unfold State.putRegion
  repeat' first
    | with_reducible assumption | intro _ | with_reducible apply foldl_memories | split
    | with_reducible apply MemoriesOk.up

theorem modRegion_memories {s : State} (n : Nat) (f : Region → Region) (okm : MemoriesOk s) : MemoriesOk (s.modRegion n
    f) := by
  unfold State.modRegion
  repeat' first
    | with_reducible assumption | intro _ | with_reducible apply putRegion_memories
    | with_reducible apply foldl_memories | split

theorem askHalt_memories {s : State} (c : Nat) (h : Halt) (okm : MemoriesOk s) : MemoriesOk (s.askHalt c h) := by
  unfold State.askHalt
  repeat' first
    | with_reducible assumption | intro _ | with_reducible apply modCore_memories
    | with_reducible apply foldl_memories | split

theorem urge_memories {s : State} (c : Nat) (okm : MemoriesOk s) : MemoriesOk (s.urge c) := by
  unfold State.urge
  repeat' first
    | with_reducible assumption | intro _ | with_reducible apply askHalt_memories
    | with_reducible apply foldl_memories | split

theorem withdrawLoans_memories {s : State} (pid : Nat) (okm : MemoriesOk s) : MemoriesOk (s.withdrawLoans pid) := by
  unfold State.withdrawLoans
  repeat' first
    | with_reducible assumption | intro _ | with_reducible apply urge_memories | with_reducible apply foldl_memories
    | split | with_reducible apply MemoriesOk.up

theorem wake_memories {s : State} (pid : Nat) (d : Option Done) (okm : MemoriesOk s) : MemoriesOk (s.wake pid d) := by
  unfold State.wake
  repeat' first
    | with_reducible assumption | intro _ | with_reducible apply putProc_memories
    | with_reducible apply modProc_memories | with_reducible apply urge_memories
    | with_reducible apply withdrawLoans_memories | with_reducible apply foldl_memories | split

theorem block_memories {s : State} (p : Proc) (r : Reason) (w : Wait) (okm : MemoriesOk s) : MemoriesOk (s.block p r w)
    := by
  unfold State.block
  repeat' first | with_reducible assumption | intro _ | with_reducible apply leaveRunning_memories

theorem charge_memories {s : State} (ns cc : Nat) (p : Proc) (okm : MemoriesOk s) : MemoriesOk (s.charge ns cc p) := by
  unfold State.charge
  repeat' first
    | with_reducible assumption | intro _ | with_reducible apply putProc_memories
    | with_reducible apply modProc_memories | with_reducible apply modCore_memories
    | with_reducible apply foldl_memories | split | with_reducible apply MemoriesOk.up

theorem elapse_memories {s : State} (units : Nat) (okm : MemoriesOk s) : MemoriesOk (s.elapse units) := by
  unfold State.elapse
  repeat' first
    | with_reducible assumption | intro _ | with_reducible apply charge_memories | with_reducible apply foldl_memories
    | split | with_reducible apply MemoriesOk.up

theorem putChan_memories {s : State} (c : Channel) (okm : MemoriesOk s) : MemoriesOk (s.putChan c) := by
  unfold State.putChan
  repeat' first
    | with_reducible assumption | intro _ | with_reducible apply foldl_memories | split
    | with_reducible apply MemoriesOk.up

theorem modChan_memories {s : State} (table name : Nat) (f : Channel → Channel) (okm : MemoriesOk s) : MemoriesOk
    (s.modChan table name f) := by
  unfold State.modChan
  repeat' first
    | with_reducible assumption | intro _ | with_reducible apply putChan_memories
    | with_reducible apply foldl_memories | split

theorem tell_memories {s : State} (c : Channel) (p : Proc) (w : ChanWait) (d : Done) (okm : MemoriesOk s) : MemoriesOk
    (s.tell c p w d) := by
  unfold State.tell
  dsimp -zeta only [State.freshId]
  repeat' first
    | with_reducible assumption | intro _ | with_reducible apply modProc_memories | with_reducible apply wake_memories
    | with_reducible apply foldl_memories | split | with_reducible apply MemoriesOk.up

theorem failWait_memories {s : State} (c : Channel) (p : Proc) (w : ChanWait) (e : Cause) (d1 : Word) (okm : MemoriesOk
    s) : MemoriesOk (s.failWait c p w e d1) := by
  unfold State.failWait
  repeat' first | with_reducible assumption | intro _ | with_reducible apply tell_memories

theorem giveMsg_memories {s : State} (p : Proc) (w : ChanWait) (c : Channel) (msg : List Word) (okm : MemoriesOk s) :
    MemoriesOk (s.giveMsg p w c msg) := by
  unfold State.giveMsg
  repeat' first
    | with_reducible assumption | intro _ | with_reducible apply modChan_memories | with_reducible apply tell_memories
    | with_reducible apply foldl_memories | split

theorem startMove_memories {s : State} (p : Proc) (w : ChanWait) (id : Nat) (okm : MemoriesOk s) : MemoriesOk
    (s.startMove p w id) := by
  unfold State.startMove
  repeat' first | with_reducible assumption | intro _ | with_reducible apply modProc_memories

theorem endMove_memories {s : State} (pid id : Nat) (okm : MemoriesOk s) : MemoriesOk (s.endMove pid id) := by
  unfold State.endMove
  repeat' first
    | with_reducible assumption | intro _ | with_reducible apply wake_memories | with_reducible apply foldl_memories
    | split

theorem settleOnce_memories {s : State} (c : Channel) (okm : MemoriesOk s) : MemoriesOk (s.settleOnce c) := by
  unfold State.settleOnce
  dsimp -zeta only [State.freshId]
  repeat' first
    | with_reducible assumption | intro _ | with_reducible apply putChan_memories | with_reducible apply tell_memories
    | with_reducible apply failWait_memories | with_reducible apply giveMsg_memories
    | with_reducible apply startMove_memories | with_reducible apply foldl_memories | split
    | with_reducible apply MemoriesOk.up

theorem wakeAlt_memories {s : State} (p : Proc) (okm : MemoriesOk s) : MemoriesOk (s.wakeAlt p) := by
  unfold State.wakeAlt
  dsimp -zeta only [State.freshId]
  repeat' first
    | with_reducible assumption | intro _ | with_reducible apply wake_memories | with_reducible apply foldl_memories
    | split | with_reducible apply MemoriesOk.up

theorem wakeAlts_memories {s : State} (okm : MemoriesOk s) : MemoriesOk (s.wakeAlts) := by
  unfold State.wakeAlts
  repeat' first
    | with_reducible assumption | intro _ | with_reducible apply wakeAlt_memories
    | with_reducible apply foldl_memories | split

theorem settle_memories {s : State} (table name : Nat) (okm : MemoriesOk s) : MemoriesOk (s.settle table name) := by
  unfold State.settle
  repeat' first
    | with_reducible assumption | intro _ | with_reducible apply modChan_memories
    | with_reducible apply settleOnce_memories | with_reducible apply wakeAlts_memories
    | with_reducible apply foldl_memories | split | with_reducible apply MemoriesOk.up

theorem enqueue_memories {s : State} (table name : Nat) (msg : List Word) (okm : MemoriesOk s) : MemoriesOk (s.enqueue
    table name msg) := by
  unfold State.enqueue
  repeat' first
    | with_reducible assumption | intro _ | with_reducible apply modChan_memories
    | with_reducible apply settle_memories

theorem wakeBarrier_memories {s : State} (okm : MemoriesOk s) : MemoriesOk (s.wakeBarrier) := by
  unfold State.wakeBarrier
  repeat' first
    | with_reducible assumption | intro _ | with_reducible apply wake_memories
    | with_reducible apply wakeAlts_memories | with_reducible apply foldl_memories | split

theorem closeEnd_memories {s : State} (table name : Nat) (tx : Bool) (okm : MemoriesOk s) : MemoriesOk (s.closeEnd table
    name tx) := by
  unfold State.closeEnd
  repeat' first
    | with_reducible assumption | intro _ | with_reducible apply modChan_memories
    | with_reducible apply settle_memories

theorem closeOwn_memories {s : State} (table name : Nat) (tx : Bool) (okm : MemoriesOk s) : MemoriesOk (s.closeOwn table
    name tx) := by
  unfold State.closeOwn
  repeat' first
    | with_reducible assumption | intro _ | with_reducible apply modChan_memories
    | with_reducible apply settle_memories

theorem skipProbes_memories {s : State} (table name : Nat) (okm : MemoriesOk s) : MemoriesOk (s.skipProbes table name)
    := by
  unfold State.skipProbes
  repeat' first
    | with_reducible assumption | intro _ | with_reducible apply putProc_memories
    | with_reducible apply foldl_memories | split

theorem transitEnds_memories {s : State} (pid : Nat) (moving : Bool) (okm : MemoriesOk s) : MemoriesOk (s.transitEnds
    pid moving) := by
  unfold State.transitEnds
  repeat' first
    | with_reducible assumption | intro _ | with_reducible apply modChan_memories
    | with_reducible apply settle_memories | with_reducible apply skipProbes_memories
    | with_reducible apply foldl_memories | split

theorem sendLoan_memories {s : State} (lender tgt cls : Nat) (deadline : Word) (hop : Nat) (okm : MemoriesOk s) :
    MemoriesOk (s.sendLoan lender tgt cls deadline hop) := by
  unfold State.sendLoan
  dsimp -zeta only [State.freshId]
  repeat' first
    | with_reducible assumption | intro _ | with_reducible apply foldl_memories | split
    | with_reducible apply MemoriesOk.up

theorem lend_memories {s : State} (pid : Nat) (okm : MemoriesOk s) : MemoriesOk (s.lend pid) := by
  unfold State.lend
  repeat' first
    | with_reducible assumption | intro _ | with_reducible apply sendLoan_memories
    | with_reducible apply foldl_memories | split

theorem lendOn_memories {s : State} (table name : Nat) (okm : MemoriesOk s) : MemoriesOk (s.lendOn table name) := by
  unfold State.lendOn
  repeat' first
    | with_reducible assumption | intro _ | with_reducible apply lend_memories | with_reducible apply foldl_memories
    | split

theorem postMachine_memories {s : State} (r : Record) (okm : MemoriesOk s) : MemoriesOk (s.postMachine r) := by
  unfold State.postMachine
  repeat' first
    | with_reducible assumption | intro _ | with_reducible apply foldl_memories | split
    | with_reducible apply MemoriesOk.up

theorem putFrame_memories {s : State} (die region : Nat) (c : Channel) (owner : Nat) (msg : List Word) (okm : MemoriesOk
    s) : MemoriesOk (s.putFrame die region c owner msg) := by
  unfold State.putFrame
  dsimp -zeta only [State.freshId]
  repeat' first
    | with_reducible assumption | intro _ | with_reducible apply enqueue_memories
    | with_reducible apply foldl_memories | split | with_reducible apply MemoriesOk.up

theorem countLost_memories {s : State} (region : Nat) (okm : MemoriesOk s) : MemoriesOk (s.countLost region) := by
  unfold State.countLost
  repeat' first | with_reducible assumption | intro _ | with_reducible apply modRegion_memories

theorem sendRecord_memories {s : State} (core : Nat) (r : Record) (okm : MemoriesOk s) : MemoriesOk (s.sendRecord core
    r) := by
  unfold State.sendRecord
  repeat' first
    | with_reducible assumption | intro _ | with_reducible apply modCore_memories
    | with_reducible apply postMachine_memories | with_reducible apply putFrame_memories
    | with_reducible apply countLost_memories | with_reducible apply foldl_memories | split

theorem sendManager_memories {s : State} (r : Record) (okm : MemoriesOk s) : MemoriesOk (s.sendManager r) := by
  unfold State.sendManager
  repeat' first
    | with_reducible assumption | intro _ | with_reducible apply postMachine_memories
    | with_reducible apply putFrame_memories | with_reducible apply countLost_memories
    | with_reducible apply foldl_memories | split | with_reducible apply MemoriesOk.up

theorem notify_memories {s : State} (core : Nat) (c : Cause) (region pid : Nat) (priv : Priv) (pc addr d0 d1 : Word)
    (okm : MemoriesOk s) : MemoriesOk (s.notify core c region pid priv pc addr d0 d1) := by
  unfold State.notify
  repeat' first | with_reducible assumption | intro _ | with_reducible apply sendRecord_memories

theorem report_memories {s : State} (a : Author) (c : Cause) (addr d0 d1 : Word) (okm : MemoriesOk s) : MemoriesOk
    (s.report a c addr d0 d1) := by
  unfold State.report
  repeat' first | with_reducible assumption | intro _ | with_reducible apply sendRecord_memories

theorem notifyManager_memories {s : State} (c : Cause) (region pid : Nat) (addr d0 d1 : Word) (okm : MemoriesOk s) :
    MemoriesOk (s.notifyManager c region pid addr d0 d1) := by
  unfold State.notifyManager
  repeat' first | with_reducible assumption | intro _ | with_reducible apply sendManager_memories

theorem wakeSync_memories {s : State} (pid : Nat) (v : Word) (okm : MemoriesOk s) : MemoriesOk (s.wakeSync pid v) := by
  unfold State.wakeSync
  repeat' first
    | with_reducible assumption | intro _ | with_reducible apply wake_memories | with_reducible apply foldl_memories
    | split

theorem failSync_memories {s : State} (pid : Nat) (c : Cause) (addr d0 d1 : Word) (okm : MemoriesOk s) : MemoriesOk
    (s.failSync pid c addr d0 d1) := by
  unfold State.failSync
  repeat' first
    | with_reducible assumption | intro _ | with_reducible apply wake_memories | with_reducible apply foldl_memories
    | split

theorem answer_memories {s : State} (die pid : Nat) (pl : Payload) (okm : MemoriesOk s) : MemoriesOk (s.answer die pid
    pl) := by
  unfold State.answer
  dsimp -zeta only [State.freshId]
  repeat' first
    | with_reducible assumption | intro _ | with_reducible apply wake_memories
    | with_reducible apply wakeSync_memories | with_reducible apply failSync_memories
    | with_reducible apply foldl_memories | split | with_reducible apply MemoriesOk.up

theorem addRequest_memories {s : State} (r : RsvReq) (okm : MemoriesOk s) : MemoriesOk (s.addRequest r) := by
  unfold State.addRequest
  repeat' first
    | with_reducible assumption | intro _ | with_reducible apply foldl_memories | split
    | with_reducible apply MemoriesOk.up

theorem takeEntry_memories {s : State} (home : Nat) (okm : MemoriesOk s) : MemoriesOk (s.takeEntry home) := by
  unfold State.takeEntry
  repeat' first
    | with_reducible assumption | intro _ | with_reducible apply foldl_memories | split
    | with_reducible apply MemoriesOk.up

theorem joinSte_memories {s : State} (w : Watch) (okm : MemoriesOk s) : MemoriesOk (s.joinSte w) := by
  unfold State.joinSte
  repeat' first
    | with_reducible assumption | intro _ | with_reducible apply addRequest_memories
    | with_reducible apply foldl_memories | split | with_reducible apply MemoriesOk.up

theorem serve_memories {s : State} (w : Watch) (okm : MemoriesOk s) : MemoriesOk (s.serve w) := by
  unfold State.serve
  repeat' first
    | with_reducible assumption | intro _ | with_reducible apply doSync_memories | with_reducible apply wake_memories
    | with_reducible apply answer_memories | with_reducible apply foldl_memories | split
    | with_reducible apply MemoriesOk.up

theorem serveWatch_memories {s : State} (home : Nat) (okm : MemoriesOk s) : MemoriesOk (s.serveWatch home) := by
  unfold State.serveWatch
  repeat' first
    | with_reducible assumption | intro _ | with_reducible apply joinSte_memories
    | with_reducible apply serve_memories | with_reducible apply foldl_memories | split

theorem serveWatches_memories {s : State} (home : Nat) (okm : MemoriesOk s) : MemoriesOk (s.serveWatches home) := by
  unfold State.serveWatches
  repeat' first
    | with_reducible assumption | intro _ | with_reducible apply serveWatch_memories
    | with_reducible apply foldl_memories

theorem reportMet_memories {s : State} (a : Option Author) (okm : MemoriesOk s) : MemoriesOk (s.reportMet a) := by
  unfold State.reportMet
  repeat' first
    | with_reducible assumption | intro _ | with_reducible apply report_memories | with_reducible apply foldl_memories
    | split | with_reducible apply MemoriesOk.up

theorem applyWrite_memories {s : State} (w : WriteEff) (ok : MemoriesOk s) : MemoriesOk (s.applyWrite w) := by
  have written (l k : List Nat) : MemoriesOk { s with mem := s.mem.write w.addr w.n w.val, marks := l, latent := k } :=
    ⟨Memory.write_wf _ _ _ ok.1, ok.2⟩
  unfold State.applyWrite
  extract_lets g clears meets t u v
  have ht : MemoriesOk t := written _ _
  have hu : MemoriesOk u := by
    change MemoriesOk (match w.fe with
      | some b => t.setFull g b
      | none => t)
    split
    · exact setFull_memories _ _ ht
    · exact ht
  have hv : MemoriesOk v := by
    change MemoriesOk (if w.n = 0 then u else u.noteTrigger w.addr)
    split
    · exact hu
    · exact noteTrigger_memories _ hu
  apply serveWatches_memories
  split
  · exact reportMet_memories _ hv
  · exact hv

theorem uaAnswer_memories {s : State} (g : Nat) (a : UaAnswer) (okm : MemoriesOk s) : MemoriesOk (s.uaAnswer g a) := by
  unfold State.uaAnswer
  repeat' first
    | with_reducible assumption | intro _ | with_reducible apply foldl_memories | split
    | with_reducible apply MemoriesOk.up

theorem answerOut_memories {s : State} (die g : Nat) (a : UaAnswer) (okm : MemoriesOk s) : MemoriesOk (s.answerOut die g
    a) := by
  unfold State.answerOut
  dsimp -zeta only [State.freshId]
  repeat' first
    | with_reducible assumption | intro _ | with_reducible apply uaAnswer_memories
    | with_reducible apply foldl_memories | split | with_reducible apply MemoriesOk.up

theorem landQueued_memories {s : State} (q : Packet) (w : Nat) (okm : MemoriesOk s) : MemoriesOk (s.landQueued q w) :=
    by
  unfold State.landQueued
  repeat' first
    | with_reducible assumption | intro _ | with_reducible apply applyWrite_memories
    | with_reducible apply answerOut_memories | with_reducible apply foldl_memories | split

theorem grantOne_memories {s : State} (w : Nat) (okm : MemoriesOk s) : MemoriesOk (s.grantOne w) := by
  unfold State.grantOne
  repeat' first
    | with_reducible assumption | intro _ | with_reducible apply modProc_memories | with_reducible apply wake_memories
    | with_reducible apply answer_memories | with_reducible apply serve_memories
    | with_reducible apply serveWatches_memories | with_reducible apply landQueued_memories
    | with_reducible apply foldl_memories | split | with_reducible apply MemoriesOk.up

theorem grant_memories {s : State} (w : Nat) (okm : MemoriesOk s) : MemoriesOk (s.grant w) := by
  unfold State.grant
  repeat' first
    | with_reducible assumption | intro _ | with_reducible apply grantOne_memories
    | with_reducible apply foldl_memories

theorem grantHome_memories {s : State} (home : Nat) (okm : MemoriesOk s) : MemoriesOk (s.grantHome home) := by
  unfold State.grantHome
  repeat' first
    | with_reducible assumption | intro _ | with_reducible apply takeEntry_memories
    | with_reducible apply serveWatches_memories | with_reducible apply grant_memories
    | with_reducible apply foldl_memories

theorem request_memories {s : State} (r : RsvReq) (okm : MemoriesOk s) : MemoriesOk (s.request r) := by
  unfold State.request
  repeat' first
    | with_reducible assumption | intro _ | with_reducible apply addRequest_memories
    | with_reducible apply grant_memories

theorem waitInQueue_memories {s : State} (q : Packet) (w : Nat) (okm : MemoriesOk s) : MemoriesOk (s.waitInQueue q w) :=
    by
  unfold State.waitInQueue
  repeat' first
    | with_reducible assumption | intro _ | with_reducible apply request_memories
    | with_reducible apply foldl_memories | split | with_reducible apply MemoriesOk.up

theorem landWrite_memories {s : State} (q : Packet) (w : WriteEff) (okm : MemoriesOk s) : MemoriesOk (s.landWrite q w)
    := by
  unfold State.landWrite
  repeat' first
    | with_reducible assumption | intro _ | with_reducible apply applyWrite_memories
    | with_reducible apply waitInQueue_memories | with_reducible apply foldl_memories | split

theorem release_memories {s : State} (pid w : Nat) (v : Option Word) (okm : MemoriesOk s) : MemoriesOk (s.release pid w
    v) := by
  unfold State.release
  repeat' first
    | with_reducible assumption | intro _ | with_reducible apply modProc_memories
    | with_reducible apply applyWrite_memories | with_reducible apply grantHome_memories
    | with_reducible apply foldl_memories | split | with_reducible apply MemoriesOk.up

theorem rlsAt_memories {s : State} (q : Packet) (pid w : Nat) (v : Word) (okm : MemoriesOk s) : MemoriesOk (s.rlsAt q
    pid w v) := by
  unfold State.rlsAt
  repeat' first
    | with_reducible assumption | intro _ | with_reducible apply landWrite_memories
    | with_reducible apply release_memories | with_reducible apply foldl_memories | split

theorem amoRelease_memories {s : State} (pid : Nat) (okm : MemoriesOk s) : MemoriesOk (s.amoRelease pid) := by
  unfold State.amoRelease
  repeat' first
    | with_reducible assumption | intro _ | with_reducible apply wake_memories | with_reducible apply answer_memories
    | with_reducible apply applyWrite_memories | with_reducible apply grantHome_memories
    | with_reducible apply foldl_memories | split | with_reducible apply MemoriesOk.up

theorem rsvAt_memories {s : State} (r : RsvReq) (okm : MemoriesOk s) : MemoriesOk (s.rsvAt r) := by
  unfold State.rsvAt
  repeat' first
    | with_reducible assumption | intro _ | with_reducible apply wake_memories | with_reducible apply answer_memories
    | with_reducible apply request_memories | with_reducible apply foldl_memories | split

theorem syncAt_memories {s : State} (w : Watch) (okm : MemoriesOk s) : MemoriesOk (s.syncAt w) := by
  unfold State.syncAt
  repeat' first
    | with_reducible assumption | intro _ | with_reducible apply joinSte_memories
    | with_reducible apply serve_memories | with_reducible apply serveWatches_memories
    | with_reducible apply foldl_memories | split | with_reducible apply MemoriesOk.up

theorem withdraw_memories {s : State} (pid : Nat) (on : Nat → Bool) (okm : MemoriesOk s) : MemoriesOk (s.withdraw pid
    on) := by
  unfold State.withdraw
  repeat' first
    | with_reducible assumption | intro _ | with_reducible apply foldl_memories | split
    | with_reducible apply MemoriesOk.up

theorem releaseAll_memories {s : State} (pid : Nat) (on : Nat → Bool) (okm : MemoriesOk s) : MemoriesOk (s.releaseAll
    pid on) := by
  unfold State.releaseAll
  repeat' first
    | with_reducible assumption | intro _ | with_reducible apply release_memories
    | with_reducible apply foldl_memories | split

theorem quitHomes_memories {s : State} (pid : Nat) (on : Nat → Bool) (okm : MemoriesOk s) : MemoriesOk (s.quitHomes pid
    on) := by
  unfold State.quitHomes
  repeat' first
    | with_reducible assumption | intro _ | with_reducible apply serveWatches_memories
    | with_reducible apply withdraw_memories | with_reducible apply releaseAll_memories
    | with_reducible apply foldl_memories

theorem quitAt_memories {s : State} (pid w : Nat) (okm : MemoriesOk s) : MemoriesOk (s.quitAt pid w) := by
  unfold State.quitAt
  repeat' first
    | with_reducible assumption | intro _ | with_reducible apply serveWatches_memories
    | with_reducible apply release_memories | with_reducible apply withdraw_memories
    | with_reducible apply foldl_memories | split | with_reducible apply MemoriesOk.up

theorem kindle_memories {s : State} (d : Nat) (e : Nat) (okm : MemoriesOk s) : MemoriesOk (s.kindle d e) := by
  unfold State.kindle
  dsimp -zeta only [State.freshId]
  repeat' first
    | with_reducible assumption | intro _ | with_reducible apply putDie_memories | with_reducible apply foldl_memories
    | split | with_reducible apply MemoriesOk.up

theorem modPacket_memories {s : State} (id : Nat) (f : Packet → Packet) (okm : MemoriesOk s) : MemoriesOk (s.modPacket
    id f) := by
  unfold State.modPacket
  repeat' first
    | with_reducible assumption | intro _ | with_reducible apply foldl_memories | split
    | with_reducible apply MemoriesOk.up

theorem dropPacket_memories {s : State} (id : Nat) (okm : MemoriesOk s) : MemoriesOk (s.dropPacket id) := by
  unfold State.dropPacket
  repeat' first
    | with_reducible assumption | intro _ | with_reducible apply foldl_memories | split
    | with_reducible apply MemoriesOk.up

theorem stampAll_memories {s : State} (d : Nat) (ok : MemoriesOk s) : MemoriesOk (s.stampAll d) := by
  unfold State.stampAll
  split
  · exact ok
  · refine foldl_keeps (fun a : State × List Nat => MemoriesOk a.1) _ ok fun a p h => ?_
    dsimp only
    split
    · exact h
    · split
      · exact modPacket_memories _ _ (putDie_memories _ (kindle_memories _ _ h))
      · exact kindle_memories _ _ h

theorem sequence_memories {s : State} (okm : MemoriesOk s) : MemoriesOk (s.sequence) := by
  unfold State.sequence
  repeat' first
    | with_reducible assumption | intro _ | with_reducible apply stampAll_memories
    | with_reducible apply foldl_memories | split

theorem putGroup_memories {s : State} (g : Group) (okm : MemoriesOk s) : MemoriesOk (s.putGroup g) := by
  unfold State.putGroup
  repeat' first
    | with_reducible assumption | intro _ | with_reducible apply foldl_memories | split
    | with_reducible apply MemoriesOk.up

theorem modGroup_memories {s : State} (n : Nat) (f : Group → Group) (okm : MemoriesOk s) : MemoriesOk (s.modGroup n f)
    := by
  unfold State.modGroup
  repeat' first | with_reducible assumption | intro _ | with_reducible apply putGroup_memories

theorem dropLoads_memories {s : State} (pid : Nat) (okm : MemoriesOk s) : MemoriesOk (s.dropLoads pid) := by
  unfold State.dropLoads
  repeat' first
    | with_reducible assumption | intro _ | with_reducible apply foldl_memories | split
    | with_reducible apply MemoriesOk.up

theorem dropAhead_memories {s : State} (pid : Nat) (i : BitVec 3) (okm : MemoriesOk s) : MemoriesOk (s.dropAhead pid i)
    := by
  unfold State.dropAhead
  repeat' first
    | with_reducible assumption | intro _ | with_reducible apply foldl_memories | split
    | with_reducible apply MemoriesOk.up

theorem raise_memories {s : State} (p : Proc) (c : Cause) (len : Option Nat) (addr d0 d1 : Word) (okm : MemoriesOk s) :
    MemoriesOk (s.raise p c len addr d0 d1) := by
  unfold State.raise
  repeat' first
    | with_reducible assumption | intro _ | with_reducible apply leaveRunning_memories
    | with_reducible apply modCore_memories | with_reducible apply sendRecord_memories

theorem raised_keeps {s : State} (p : Proc) (c : Cause) (len : Nat) (addr d0 d1 : Word) (okm : MemoriesOk s) : OutOk
    (s.raised p c len addr d0 d1) := by
  unfold State.raised
  repeat' first
    | with_reducible assumption | intro _ | with_reducible apply raise_memories | with_reducible apply OutOk.next

theorem raisedOpen_keeps {s : State} (p : Proc) (c : Cause) (len : Nat) (okm : MemoriesOk s) : OutOk (s.raisedOpen p c
    len) := by
  unfold State.raisedOpen
  repeat' first
    | with_reducible assumption | intro _ | with_reducible apply raised_keeps | with_reducible apply OutOk.next
    | with_reducible apply OutOk.fault | with_reducible apply OutOk.refused | with_reducible apply foldl_memories
    | split | with_reducible apply MemoriesOk.up

theorem resumed_memories {s : State} (p : Proc) (okm : MemoriesOk s) : MemoriesOk (s.resumed p) := by
  unfold State.resumed
  repeat' first
    | with_reducible assumption | intro _ | with_reducible apply putProc_memories | with_reducible apply urge_memories

theorem faultReturn_memories {s : State} (p : Proc) (skip : Option Nat) (setx : Option Word) (okm : MemoriesOk s) :
    MemoriesOk (s.faultReturn p skip setx) := by
  unfold State.faultReturn
  repeat' first | with_reducible assumption | intro _ | with_reducible apply resumed_memories

theorem sendEnd_memories {s : State} (p : Proc) (die : Nat) (pl : Payload) (okm : MemoriesOk s) : MemoriesOk (s.sendEnd
    p die pl) := by
  unfold State.sendEnd
  dsimp -zeta only [State.freshId]
  repeat' first
    | with_reducible assumption | intro _ | with_reducible apply stampAll_memories
    | with_reducible apply foldl_memories | split | with_reducible apply MemoriesOk.up

theorem leaveHomes_memories {s : State} (p : Proc) (okm : MemoriesOk s) : MemoriesOk (s.leaveHomes p) := by
  unfold State.leaveHomes
  repeat' first
    | with_reducible assumption | intro _ | with_reducible apply quitHomes_memories
    | with_reducible apply sendEnd_memories | with_reducible apply foldl_memories

theorem leaveEnds_memories {s : State} (p : Proc) (okm : MemoriesOk s) : MemoriesOk (s.leaveEnds p) := by
  unfold State.leaveEnds
  repeat' first
    | with_reducible assumption | intro _ | with_reducible apply closeOwn_memories
    | with_reducible apply sendEnd_memories | with_reducible apply foldl_memories | split
    | with_reducible apply MemoriesOk.up

theorem exitProc_memories {s : State} (pid : Nat) (how : Ending) (okm : MemoriesOk s) : MemoriesOk (s.exitProc pid how)
    := by
  unfold State.exitProc
  repeat' first
    | with_reducible assumption | intro _ | with_reducible apply modProc_memories
    | with_reducible apply leaveRunning_memories | with_reducible apply withdrawLoans_memories
    | with_reducible apply dropLoads_memories | with_reducible apply leaveHomes_memories
    | with_reducible apply leaveEnds_memories | with_reducible apply foldl_memories | split
    | with_reducible apply MemoriesOk.up

theorem closeRegion_memories {s : State} (gone : List Nat) (okm : MemoriesOk s) : MemoriesOk (s.closeRegion gone) := by
  unfold State.closeRegion
  repeat' first
    | with_reducible assumption | intro _ | with_reducible apply closeEnd_memories
    | with_reducible apply foldl_memories | split | with_reducible apply MemoriesOk.up

theorem endRegion_memories {s : State} (region : Nat) (core : Option Nat) (r : Record) (okm : MemoriesOk s) : MemoriesOk
    (s.endRegion region core r) := by
  unfold State.endRegion
  repeat' first
    | with_reducible assumption | intro _ | with_reducible apply postMachine_memories
    | with_reducible apply sendRecord_memories | with_reducible apply sendManager_memories
    | with_reducible apply exitProc_memories | with_reducible apply closeRegion_memories
    | with_reducible apply foldl_memories | split | with_reducible apply MemoriesOk.up

theorem endByReply_memories {s : State} (p : Proc) (okm : MemoriesOk s) : MemoriesOk (s.endByReply p) := by
  unfold State.endByReply
  repeat' first
    | with_reducible assumption | intro _ | with_reducible apply endRegion_memories
    | with_reducible apply foldl_memories | split

theorem answerFault_memories {s t : State} {scope : Proc → Bool} {w0 w1 : Word} (ok : MemoriesOk s)
    (e : s.answerFault scope w0 w1 = some t) : MemoriesOk t := by
  unfold State.answerFault at e
  split at e
  · cases e
  · dsimp only at e
    split at e
    · cases e
    · split at e
      · cases e
        exact faultReturn_memories _ _ _ ok
      · obtain ⟨_, _, k⟩ := Option.map_eq_some_iff.1 e
        cases k
        exact faultReturn_memories _ _ _ ok
      · cases e
        split
        · exact endByReply_memories _ ok
        · exact exitProc_memories _ _ ok
      · cases e

theorem dropReply_memories {s : State} (region : Nat) (okm : MemoriesOk s) : MemoriesOk (s.dropReply region) := by
  unfold State.dropReply
  repeat' first | with_reducible assumption | intro _ | with_reducible apply modRegion_memories

theorem answered_memories {s : State} (pid : Nat) (okm : MemoriesOk s) : MemoriesOk (s.answered pid) := by
  unfold State.answered
  repeat' first
    | with_reducible assumption | intro _ | with_reducible apply foldl_memories | split
    | with_reducible apply MemoriesOk.up

theorem takeReply_memories {s : State} (top : Option Nat) (w0 w1 : Word) (ok : MemoriesOk s) :
    MemoriesOk (s.takeReply top w0 w1) := by
  unfold State.takeReply
  dsimp only
  split
  · have h := answerFault_memories ok (by assumption)
    split
    · exact answered_memories _ h
    · exact h
  · exact dropReply_memories _ ok

theorem sendReply_memories {s : State} (die : Nat) (top : Option Nat) (w0 w1 : Word) (ok : MemoriesOk s) :
    MemoriesOk (s.sendReply die top w0 w1) := by
  unfold State.sendReply
  split
  · split
    · exact takeReply_memories _ _ _ ok
    · exact MemoriesOk.up ok
  · exact takeReply_memories _ _ _ ok

theorem stall_keeps {s : State} (p : Proc) (okm : MemoriesOk s) : OutOk (s.stall p) := by
  unfold State.stall
  repeat' first
    | with_reducible assumption | intro _ | with_reducible apply OutOk.next | with_reducible apply OutOk.fault
    | with_reducible apply OutOk.refused | with_reducible apply foldl_memories | split
    | with_reducible apply MemoriesOk.up

theorem done_keeps {s : State} (p : Proc) (okm : MemoriesOk s) : OutOk (s.done p) := by
  unfold State.done
  repeat' first
    | with_reducible assumption | intro _ | with_reducible apply OutOk.next | with_reducible apply OutOk.fault
    | with_reducible apply OutOk.refused | with_reducible apply foldl_memories | split
    | with_reducible apply MemoriesOk.up

theorem withProc_keeps {s : State} (k : Proc → Out) (hk : ∀ (x0 : Proc), OutOk (k x0)) (okm : MemoriesOk s) : OutOk
    (s.withProc k) := by
  unfold State.withProc
  repeat' first
    | with_reducible assumption | intro _ | with_reducible apply hk | with_reducible apply OutOk.next
    | with_reducible apply OutOk.fault | with_reducible apply OutOk.refused | with_reducible apply foldl_memories
    | split

theorem dispatchPacket_memories {s : State} (p : Proc) (used : Word) (n : Nat) (t : Target) (kind : AKind) (pl : Nat →
    Payload) (okm : MemoriesOk s) : MemoriesOk (s.dispatchPacket p used n t kind pl) := by
  unfold State.dispatchPacket
  dsimp -zeta only [State.freshId]
  repeat' first
    | with_reducible assumption | intro _ | with_reducible apply stampAll_memories
    | with_reducible apply foldl_memories | split | with_reducible apply MemoriesOk.up

theorem dropEarly_memories {s : State} (core a n : Nat) (okm : MemoriesOk s) : MemoriesOk (s.dropEarly core a n) := by
  unfold State.dropEarly
  repeat' first
    | with_reducible assumption | intro _ | with_reducible apply modCore_memories
    | with_reducible apply foldl_memories | split

theorem store_memories {s : State} (p : Proc) (a : Word) (n : Nat) (t : Target) (kind : AKind) (val : Nat) (fe : Option
    Bool) (whole : Bool) (okm : MemoriesOk s) : MemoriesOk (s.store p a n t kind val fe whole) := by
  unfold State.store
  repeat' first
    | with_reducible assumption | intro _ | with_reducible apply modCore_memories
    | with_reducible apply dispatchPacket_memories | with_reducible apply dropEarly_memories
    | with_reducible apply foldl_memories | split

theorem clearEarly_memories {s : State} (core : Nat) (okm : MemoriesOk s) : MemoriesOk (s.clearEarly core) := by
  unfold State.clearEarly
  repeat' first
    | with_reducible assumption | intro _ | with_reducible apply modCore_memories
    | with_reducible apply foldl_memories | split

theorem loadDone_memories {s : State} (p : Proc) (d : XIdx) (n : Nat) (signed : Bool) (addr : Nat) (len : Nat) (acq :
    Bool) (val : Nat) (bad : Bool) (okm : MemoriesOk s) : MemoriesOk (s.loadDone p d n signed addr len acq val bad) :=
    by
  unfold State.loadDone
  repeat' first
    | with_reducible assumption | intro _ | with_reducible apply putProc_memories
    | with_reducible apply raise_memories | with_reducible apply clearEarly_memories
    | with_reducible apply foldl_memories | split

theorem load_keeps {s : State} (p : Proc) (d : XIdx) (a : Word) (n : Nat) (signed : Bool) (len : Nat) (kind : AKind)
    (okm : MemoriesOk s) : OutOk (s.load p d a n signed len kind) := by
  unfold State.load
  repeat' first
    | with_reducible assumption | intro _ | with_reducible apply raised_keeps | with_reducible apply stall_keeps
    | with_reducible apply dispatchPacket_memories | with_reducible apply dropEarly_memories
    | with_reducible apply loadDone_memories | with_reducible apply OutOk.next | with_reducible apply OutOk.fault
    | with_reducible apply OutOk.refused | with_reducible apply foldl_memories | split
    | with_reducible apply MemoriesOk.up | dsimp only

theorem storeInstr_keeps {s : State} (p : Proc) (a : Word) (n : Nat) (v : Word) (len : Nat) (kind : AKind) (okm :
    MemoriesOk s) : OutOk (s.storeInstr p a n v len kind) := by
  unfold State.storeInstr
  repeat' first
    | with_reducible assumption | intro _ | with_reducible apply raised_keeps | with_reducible apply stall_keeps
    | with_reducible apply done_keeps | with_reducible apply store_memories | with_reducible apply OutOk.next
    | with_reducible apply OutOk.fault | with_reducible apply OutOk.refused | with_reducible apply foldl_memories
    | split | with_reducible apply MemoriesOk.up | dsimp only

theorem alu_keeps {s : State} (d : XIdx) (len : Nat) (f : Proc → Word) (okm : MemoriesOk s) : OutOk (s.alu d len f) :=
    by
  unfold State.alu
  repeat' first
    | with_reducible assumption | intro _ | with_reducible apply done_keeps | with_reducible apply withProc_keeps

theorem aluR_keeps {s : State} (d a b : XIdx) (len : Nat) (f : Word → Word → Word) (okm : MemoriesOk s) : OutOk (s.aluR
    d a b len f) := by
  unfold State.aluR
  repeat' first | with_reducible assumption | intro _ | with_reducible apply alu_keeps

theorem aluI_keeps {s : State} (d a : XIdx) (imm : BitVec 15) (f : Word → Word → Word) (okm : MemoriesOk s) : OutOk
    (s.aluI d a imm f) := by
  unfold State.aluI
  repeat' first | with_reducible assumption | intro _ | with_reducible apply alu_keeps

theorem branch_keeps {s : State} (len : Nat) (off : Word) (c : Proc → Bool) (okm : MemoriesOk s) : OutOk (s.branch len
    off c) := by
  unfold State.branch
  repeat' first
    | with_reducible assumption | intro _ | with_reducible apply done_keeps | with_reducible apply withProc_keeps

theorem ldX_keeps {s : State} (d a : XIdx) (off : Word) (n : Nat) (signed : Bool) (len : Nat) (okm : MemoriesOk s) :
    OutOk (s.ldX d a off n signed len) := by
  unfold State.ldX
  repeat' first
    | with_reducible assumption | intro _ | with_reducible apply withProc_keeps | with_reducible apply load_keeps

theorem stX_keeps {s : State} (b a : XIdx) (off : Word) (n : Nat) (len : Nat) (okm : MemoriesOk s) : OutOk (s.stX b a
    off n len) := by
  unfold State.stX
  repeat' first
    | with_reducible assumption | intro _ | with_reducible apply withProc_keeps
    | with_reducible apply storeInstr_keeps

theorem csrWrite_keeps {s : State} (d : XIdx) (c : Csr) (f : Proc → Word → Word) (okm : MemoriesOk s) : OutOk
    (s.csrWrite d c f) := by
  unfold State.csrWrite
  repeat' first
    | with_reducible assumption | intro _ | with_reducible apply raisedOpen_keeps | with_reducible apply done_keeps
    | with_reducible apply withProc_keeps | with_reducible apply OutOk.next | with_reducible apply OutOk.fault
    | with_reducible apply OutOk.refused | with_reducible apply foldl_memories | split

theorem countRemote_memories {s : State} (core : Nat) (t : Target) (okm : MemoriesOk s) : MemoriesOk (s.countRemote core
    t) := by
  unfold State.countRemote
  repeat' first
    | with_reducible assumption | intro _ | with_reducible apply modCore_memories
    | with_reducible apply foldl_memories | split

theorem syncInstr_keeps {s : State} (d a : XIdx) (mk : Proc → SyncOp) (perm : Perm) (release : Bool) (okm : MemoriesOk
    s) : OutOk (s.syncInstr d a mk perm release) := by
  unfold State.syncInstr
  repeat' first
    | with_reducible assumption | intro _ | with_reducible apply doSync_memories | with_reducible apply block_memories
    | with_reducible apply serveWatches_memories | with_reducible apply release_memories
    | with_reducible apply syncAt_memories | with_reducible apply raised_keeps | with_reducible apply stall_keeps
    | with_reducible apply done_keeps | with_reducible apply withProc_keeps
    | with_reducible apply dispatchPacket_memories | with_reducible apply countRemote_memories
    | with_reducible apply OutOk.next | with_reducible apply OutOk.fault | with_reducible apply OutOk.refused
    | with_reducible apply foldl_memories | split | with_reducible apply MemoriesOk.up | dsimp only

theorem feInstr_keeps {s : State} (a b : XIdx) (full : Bool) (okm : MemoriesOk s) : OutOk (s.feInstr a b full) := by
  unfold State.feInstr
  repeat' first
    | with_reducible assumption | intro _ | with_reducible apply raised_keeps | with_reducible apply stall_keeps
    | with_reducible apply done_keeps | with_reducible apply withProc_keeps
    | with_reducible apply dispatchPacket_memories | with_reducible apply countRemote_memories
    | with_reducible apply OutOk.next | with_reducible apply OutOk.fault | with_reducible apply OutOk.refused
    | with_reducible apply foldl_memories | split | with_reducible apply MemoriesOk.up | dsimp only

theorem waitFor_keeps {s : State} (p : Proc) (ok : Bool) (w : Wait) (okm : MemoriesOk s) : OutOk (s.waitFor p ok w) :=
    by
  unfold State.waitFor
  repeat' first
    | with_reducible assumption | intro _ | with_reducible apply done_keeps | with_reducible apply clearEarly_memories
    | with_reducible apply OutOk.next | with_reducible apply OutOk.fault | with_reducible apply OutOk.refused
    | with_reducible apply foldl_memories | split

theorem rsvInstr_keeps {s : State} (a : XIdx) (stalls : State → Proc → Bool) (kind : AKind) (writes : Bool) (own : Proc
    → Nat → State → Out) (far : Proc → Nat → Payload) (blocks : Nat → Option Wait) (hown : ∀ (x0 : Proc) (x1 : Nat) (x2
    : State), MemoriesOk x2 → OutOk (own x0 x1 x2)) (okm : MemoriesOk s) : OutOk (s.rsvInstr a stalls kind writes own
    far blocks) := by
  unfold State.rsvInstr
  repeat' first
    | with_reducible assumption | intro _ | with_reducible apply block_memories | with_reducible apply raised_keeps
    | with_reducible apply stall_keeps | with_reducible apply done_keeps | with_reducible apply withProc_keeps
    | with_reducible apply dispatchPacket_memories | with_reducible apply countRemote_memories
    | with_reducible apply hown | with_reducible apply OutOk.next | with_reducible apply OutOk.fault
    | with_reducible apply OutOk.refused | with_reducible apply foldl_memories | split
    | with_reducible apply MemoriesOk.up | dsimp only

theorem amo_keeps {s : State} (op : AmoOp) (rlx : Bool) (d a b : XIdx) (okm : MemoriesOk s) : OutOk (s.amo op rlx d a b)
    := by
  unfold State.amo
  repeat' first
    | with_reducible assumption | intro _ | with_reducible apply block_memories
    | with_reducible apply applyWrite_memories | with_reducible apply rsvAt_memories
    | with_reducible apply raised_keeps | with_reducible apply rsvInstr_keeps | with_reducible apply OutOk.next
    | with_reducible apply OutOk.fault | with_reducible apply OutOk.refused | with_reducible apply foldl_memories
    | split | with_reducible apply MemoriesOk.up

theorem bindTo_memories {s : State} (c : Channel) (tx : Bool) (target : Nat) (okm : MemoriesOk s) : MemoriesOk (s.bindTo
    c tx target) := by
  unfold State.bindTo
  repeat' first
    | with_reducible assumption | intro _ | with_reducible apply putChan_memories
    | with_reducible apply settle_memories | with_reducible apply skipProbes_memories
    | with_reducible apply lendOn_memories

theorem unbind_memories {s : State} (c : Channel) (tx : Bool) (okm : MemoriesOk s) : MemoriesOk (s.unbind c tx) := by
  unfold State.unbind
  repeat' first
    | with_reducible assumption | intro _ | with_reducible apply putChan_memories
    | with_reducible apply failWait_memories | with_reducible apply settle_memories
    | with_reducible apply foldl_memories | split

theorem ctlEffect_memories {s : State} (p : Proc) (c : Channel) (tx : Bool) (op : ChanCtl) (v : Nat) (okm : MemoriesOk
    s) : MemoriesOk (s.ctlEffect p c tx op v) := by
  unfold State.ctlEffect
  repeat' first
    | with_reducible assumption | intro _ | with_reducible apply closeEnd_memories
    | with_reducible apply closeOwn_memories | with_reducible apply bindTo_memories
    | with_reducible apply unbind_memories | with_reducible apply foldl_memories | split

theorem sendAnchor_memories {s : State} (p : Proc) (place id : Nat) (pl : Payload) (okm : MemoriesOk s) : MemoriesOk
    (s.sendAnchor p place id pl) := by
  unfold State.sendAnchor
  repeat' first
    | with_reducible assumption | intro _ | with_reducible apply stampAll_memories
    | with_reducible apply foldl_memories | split | with_reducible apply MemoriesOk.up

theorem ask_keeps {s : State} (p : Proc) (c : Channel) (tx : Bool) (op : ChanCtl) (d : XIdx) (okm : MemoriesOk s) :
    OutOk (s.ask p c tx op d) := by
  unfold State.ask
  dsimp -zeta only [State.freshId]
  repeat' first
    | with_reducible assumption | intro _ | with_reducible apply stall_keeps | with_reducible apply ctlEffect_memories
    | with_reducible apply sendAnchor_memories | with_reducible apply OutOk.next | with_reducible apply OutOk.fault
    | with_reducible apply OutOk.refused | with_reducible apply foldl_memories | split
    | with_reducible apply MemoriesOk.up | dsimp only

theorem closeLater_keeps {s : State} (c : Channel) (tx : Bool) (okm : MemoriesOk s) : OutOk (s.closeLater c tx) := by
  unfold State.closeLater
  repeat' first
    | with_reducible assumption | intro _ | with_reducible apply putChan_memories | with_reducible apply OutOk.next

theorem altDone_memories {s : State} (p : Proc) (d : XIdx) (hit : List Nat) (okm : MemoriesOk s) : MemoriesOk (s.altDone
    p d hit) := by
  unfold State.altDone
  repeat' first
    | with_reducible assumption | intro _ | with_reducible apply putProc_memories
    | with_reducible apply block_memories | with_reducible apply wakeAlts_memories
    | with_reducible apply clearEarly_memories | with_reducible apply foldl_memories | split

theorem askGuards_memories {s : State} (p : Proc) (d : XIdx) (okm : MemoriesOk s) : MemoriesOk (s.askGuards p d) := by
  unfold State.askGuards
  repeat' first
    | with_reducible assumption | intro _ | with_reducible apply sendAnchor_memories
    | with_reducible apply foldl_memories | split | with_reducible apply MemoriesOk.up

theorem takeTold_memories {s : State} (die pid ask : Nat) (v : Option Word) (okm : MemoriesOk s) : MemoriesOk
    (s.takeTold die pid ask v) := by
  unfold State.takeTold
  repeat' first
    | with_reducible assumption | intro _ | with_reducible apply putProc_memories
    | with_reducible apply raise_memories | with_reducible apply ask_keeps | with_reducible apply altDone_memories
    | with_reducible apply foldl_memories | split | with_reducible apply MemoriesOk.up

theorem tellAsker_memories {s : State} (die pid ask : Nat) (v : Option Word) (okm : MemoriesOk s) : MemoriesOk
    (s.tellAsker die pid ask v) := by
  unfold State.tellAsker
  dsimp -zeta only [State.freshId]
  repeat' first
    | with_reducible assumption | intro _ | with_reducible apply ask_keeps | with_reducible apply takeTold_memories
    | with_reducible apply foldl_memories | split | with_reducible apply MemoriesOk.up

theorem ctlArrives_memories {s : State} (q : Packet) (table name : Nat) (tx : Bool) (op : ChanCtl) (okm : MemoriesOk s)
    : MemoriesOk (s.ctlArrives q table name tx op) := by
  unfold State.ctlArrives
  repeat' first
    | with_reducible assumption | intro _ | with_reducible apply stampAll_memories
    | with_reducible apply ctlEffect_memories | with_reducible apply tellAsker_memories
    | with_reducible apply foldl_memories | split | with_reducible apply MemoriesOk.up

theorem takeEnd_memories {s : State} (id pid : Nat) (d : Done) (okm : MemoriesOk s) : MemoriesOk (s.takeEnd id pid d) :=
    by
  unfold State.takeEnd
  repeat' first
    | with_reducible assumption | intro _ | with_reducible apply wake_memories | with_reducible apply foldl_memories
    | split

theorem chanRefused_memories {s : State} (q : Packet) (okm : MemoriesOk s) : MemoriesOk (s.chanRefused q) := by
  unfold State.chanRefused
  dsimp -zeta only [State.freshId]
  repeat' first
    | with_reducible assumption | intro _ | with_reducible apply putProc_memories
    | with_reducible apply foldl_memories | split | with_reducible apply MemoriesOk.up

theorem takeReport_memories {s : State} (pid : Nat) (okm : MemoriesOk s) : MemoriesOk (s.takeReport pid) := by
  unfold State.takeReport
  repeat' first
    | with_reducible assumption | intro _ | with_reducible apply wake_memories | with_reducible apply foldl_memories
    | split

theorem loseTold_memories {s : State} (pid ask : Nat) (okm : MemoriesOk s) : MemoriesOk (s.loseTold pid ask) := by
  unfold State.loseTold
  repeat' first | with_reducible assumption | intro _ | with_reducible apply modProc_memories

theorem onPacket_keeps {s : State} (ok : Packet → Bool) (f : Packet → State → State) (hf : ∀ (x0 : Packet) (x1 : State),
    MemoriesOk x1 → MemoriesOk (f x0 x1)) (okm : MemoriesOk s) : OutOk (s.onPacket ok f) := by
  unfold State.onPacket
  repeat' first
    | with_reducible assumption | intro _ | with_reducible apply dropPacket_memories | with_reducible apply hf
    | with_reducible apply OutOk.next | with_reducible apply OutOk.fault | with_reducible apply OutOk.refused
    | with_reducible apply foldl_memories | split

theorem failRequest_memories {s : State} (pid : Nat) (c : Cause) (addr d0 d1 : Word) (okm : MemoriesOk s) : MemoriesOk
    (s.failRequest pid c addr d0 d1) := by
  unfold State.failRequest
  repeat' first
    | with_reducible assumption | intro _ | with_reducible apply failSync_memories
    | with_reducible apply dropLoads_memories | with_reducible apply raise_memories | with_reducible apply load_keeps
    | with_reducible apply foldl_memories | split

theorem reply_memories {s : State} (q : Packet) (pl : Payload) (okm : MemoriesOk s) : MemoriesOk (s.reply q pl) := by
  unfold State.reply
  dsimp -zeta only [State.freshId]
  repeat' first
    | with_reducible assumption | intro _ | with_reducible apply foldl_memories | split
    | with_reducible apply MemoriesOk.up

theorem fillBits_memories {s : State} (q : Packet) (a n : Nat) (full : Bool) (okm : MemoriesOk s) : MemoriesOk
    (s.fillBits q a n full) := by
  unfold State.fillBits
  repeat' first
    | with_reducible assumption | intro _ | with_reducible apply landWrite_memories
    | with_reducible apply foldl_memories

theorem putRequest_memories {s : State} (r : MsReq) (okm : MemoriesOk s) : MemoriesOk (s.putRequest r) := by
  unfold State.putRequest
  repeat' first
    | with_reducible assumption | intro _ | with_reducible apply foldl_memories | split
    | with_reducible apply MemoriesOk.up

theorem loseEngine_memories {s : State} (w : WriteEff) (report : Option Author) (owner : Nat) (okm : MemoriesOk s) :
    MemoriesOk (s.loseEngine w report owner) := by
  unfold State.loseEngine
  repeat' first
    | with_reducible assumption | intro _ | with_reducible apply report_memories
    | with_reducible apply request_memories | with_reducible apply putRequest_memories
    | with_reducible apply foldl_memories | split

theorem landEngine_memories {s : State} (q : Packet) (w : WriteEff) (report : Option Author) (owner : Nat) (okm :
    MemoriesOk s) : MemoriesOk (s.landEngine q w report owner) := by
  unfold State.landEngine
  repeat' first
    | with_reducible assumption | intro _ | with_reducible apply landWrite_memories
    | with_reducible apply loseEngine_memories | with_reducible apply foldl_memories | split

theorem engineWrite_memories {s : State} (die : Nat) (w : WriteEff) (report : Option Author) (region owner : Nat) (okm :
    MemoriesOk s) : MemoriesOk (s.engineWrite die w report region owner) := by
  unfold State.engineWrite
  dsimp -zeta only [State.freshId]
  repeat' first
    | with_reducible assumption | intro _ | with_reducible apply stampAll_memories
    | with_reducible apply reply_memories | with_reducible apply loseEngine_memories
    | with_reducible apply landEngine_memories | with_reducible apply foldl_memories | split
    | with_reducible apply MemoriesOk.up

theorem engineBytes_memories {s : State} (die a region owner : Nat) (bs : List Byte) (fuel : Nat) (ok : MemoriesOk s) :
    MemoriesOk (s.engineBytes die a region owner bs fuel) := by
  induction fuel generalizing s a bs with
  | zero => exact ok
  | succ fuel ih =>
    unfold State.engineBytes
    split
    · exact ok
    · exact ih _ _ (engineWrite_memories _ _ _ _ _ ok)

theorem chanArrives_memories {s : State} (pid : Nat) (okm : MemoriesOk s) : MemoriesOk (s.chanArrives pid) := by
  unfold State.chanArrives
  repeat' first
    | with_reducible assumption | intro _ | with_reducible apply putProc_memories
    | with_reducible apply settle_memories | with_reducible apply lend_memories | with_reducible apply foldl_memories
    | split

theorem perform_memories {s : State} (q : Packet) (okm : MemoriesOk s) : MemoriesOk (s.perform q) := by
  unfold State.perform
  repeat' first
    | with_reducible assumption | intro _ | with_reducible apply wake_memories | with_reducible apply enqueue_memories
    | with_reducible apply report_memories | with_reducible apply wakeSync_memories
    | with_reducible apply answer_memories | with_reducible apply applyWrite_memories
    | with_reducible apply uaAnswer_memories | with_reducible apply answerOut_memories
    | with_reducible apply request_memories | with_reducible apply waitInQueue_memories
    | with_reducible apply landWrite_memories | with_reducible apply rlsAt_memories
    | with_reducible apply rsvAt_memories | with_reducible apply syncAt_memories
    | with_reducible apply quitAt_memories | with_reducible apply takeReply_memories | with_reducible apply load_keeps
    | with_reducible apply ask_keeps | with_reducible apply takeTold_memories
    | with_reducible apply ctlArrives_memories | with_reducible apply takeEnd_memories
    | with_reducible apply chanRefused_memories | with_reducible apply takeReport_memories
    | with_reducible apply failRequest_memories | with_reducible apply reply_memories
    | with_reducible apply fillBits_memories | with_reducible apply putRequest_memories
    | with_reducible apply landEngine_memories | with_reducible apply chanArrives_memories
    | with_reducible apply foldl_memories | split | with_reducible apply MemoriesOk.up

theorem takeData_memories {s : State} (val : Nat) (bad : Bool) (r : ReplyTo) (ok : MemoriesOk s) :
    MemoriesOk (s.takeData val bad r) := by
  unfold State.takeData
  repeat' first
    | assumption | with_reducible apply modProc_memories | with_reducible apply putProc_memories
    | with_reducible apply loadDone_memories | split

theorem takeLink_memories {s : State} (addr : Word) (d0 : Nat) (d1 : Word) (r : ReplyTo) (ok : MemoriesOk s) :
    MemoriesOk (s.takeLink addr d0 d1 r) := by
  unfold State.takeLink
  repeat' first
    | assumption | with_reducible apply modProc_memories | with_reducible apply failRequest_memories | split

theorem release4_keeps {s : State} (ok : Proc → Bool) (okm : MemoriesOk s) : OutOk (s.release4 ok) := by
  unfold State.release4
  repeat' first
    | with_reducible assumption | intro _ | with_reducible apply putProc_memories
    | with_reducible apply clearEarly_memories | with_reducible apply OutOk.next | with_reducible apply OutOk.fault
    | with_reducible apply OutOk.refused | with_reducible apply foldl_memories | split

theorem ofClass_keeps {s : State} (i : Instr) (vs : List VIdx) (tileClass : Bool) (k : Proc → Out) (hk : ∀ (x0 : Proc),
    OutOk (k x0)) (okm : MemoriesOk s) : OutOk (s.ofClass i vs tileClass k) := by
  unfold State.ofClass
  repeat' first
    | with_reducible assumption | intro _ | with_reducible apply raised_keeps | with_reducible apply withProc_keeps
    | with_reducible apply hk | with_reducible apply OutOk.next | with_reducible apply OutOk.fault
    | with_reducible apply OutOk.refused | with_reducible apply foldl_memories | split

theorem askElems_memories {s : State} (p : Proc) (i : BitVec 3) (okm : MemoriesOk s) : MemoriesOk (s.askElems p i) := by
  unfold State.askElems
  repeat' first
    | with_reducible assumption | intro _ | with_reducible apply dispatchPacket_memories
    | with_reducible apply load_keeps | with_reducible apply ask_keeps | with_reducible apply foldl_memories | split

theorem popOne_memories {s t : State} {p : Proc} {i : BitVec 3} {w : Wait} (ok : MemoriesOk s) (e : s.popOne p i = .hold
    t w) :
    MemoriesOk t := by
  unfold State.popOne at e
  dsimp only at e
  repeat' split at e
  all_goals cases e
  · exact askElems_memories _ _ ok
  · exact ok

theorem popAll_memories {s t : State} {p : Proc} {srcs : List VIdx} {push : Option (BitVec 3)} {w : Wait} (ok :
    MemoriesOk s)
    (e : s.popAll p srcs push = .hold t w) : MemoriesOk t := by
  unfold State.popAll at e
  split at e
  · cases e
  · have h := foldl_keeps (fun a : Phase Proc => ∀ t w, a = .hold t w → MemoriesOk t)
      (f := fun acc i => match acc with
        | .go p => s.popOne p i
        | x => x) (p.popped srcs) (s := .go p) (by rintro _ _ ⟨⟩) (by
        intro a i h t w k
        cases a with
        | go p => exact popOne_memories ok k
        | hold u v => exact h t w k
        | stop => cases k)
    exact h t w e

theorem storeElems_memories {s : State} (p : Proc) (kind : AKind) (z : Nat) (all : List Nat) (els : List (Word × Nat))
    (okm : MemoriesOk s) : MemoriesOk (s.storeElems p kind z all els) := by
  unfold State.storeElems
  repeat' first
    | with_reducible assumption | intro _ | with_reducible apply store_memories | with_reducible apply foldl_memories

theorem push_memories {s : State} (p : Proc) (i : BitVec 3) (v : VReg) (ok : MemoriesOk s) :
    MemoriesOk (s.push p i v).1 := by
  unfold State.push
  dsimp only
  split
  · exact ok
  · exact storeElems_memories _ _ _ _ _ ok

theorem putVec_memories {s : State} (p : Proc) (d : Option VIdx) (v : Option VReg) (ok : MemoriesOk s) :
    MemoriesOk (s.putVec p d v).1 := by
  unfold State.putVec
  split
  · split
    · exact push_memories _ _ _ ok
    · exact ok
  · exact ok

theorem vec_keeps {s : State} (i : Instr) (u : VUse) (k : Proc → VRes) (okm : MemoriesOk s) : OutOk (s.vec i u k) := by
  unfold State.vec
  refine ofClass_keeps _ _ _ _ (fun p => ?_) okm
  split
  · exact raised_keeps _ _ _ _ _ _ okm
  · split
    · exact raised_keeps _ _ _ _ _ _ okm
    · exact OutOk.next (MemoriesOk.up (popAll_memories okm (by assumption)))
    · dsimp only
      split
      · exact raised_keeps _ _ _ _ _ _ okm
      · split
        · exact stall_keeps _ okm
        · split
          · exact raised_keeps _ _ _ _ _ _ okm
          · exact done_keeps _ (putVec_memories _ _ _ okm)

theorem deliverRecord_memories {s : State} (die : Nat) (r : Record) (okm : MemoriesOk s) : MemoriesOk (s.deliverRecord
    die r) := by
  unfold State.deliverRecord
  repeat' first
    | with_reducible assumption | intro _ | with_reducible apply postMachine_memories
    | with_reducible apply putFrame_memories | with_reducible apply foldl_memories | split

theorem stopRunning_memories {s : State} (p : Proc) (back : State → Proc → Proc) (okm : MemoriesOk s) : MemoriesOk
    (s.stopRunning p back) := by
  unfold State.stopRunning
  repeat' first
    | with_reducible assumption | intro _ | with_reducible apply leaveRunning_memories
    | with_reducible apply modCore_memories | with_reducible apply dropLoads_memories

theorem startRunning_memories {s : State} (p : Proc) (okm : MemoriesOk s) : MemoriesOk (s.startRunning p) := by
  unfold State.startRunning
  repeat' first
    | with_reducible assumption | intro _ | with_reducible apply putProc_memories
    | with_reducible apply foldl_memories | split | with_reducible apply MemoriesOk.up

theorem finishWait_memories {s : State} (p : Proc) (okm : MemoriesOk s) : MemoriesOk (s.finishWait p) := by
  unfold State.finishWait
  repeat' first
    | with_reducible assumption | intro _ | with_reducible apply putProc_memories
    | with_reducible apply raise_memories | with_reducible apply done_keeps | with_reducible apply foldl_memories
    | split

theorem refreshEff_memories {s : State} (pid : Nat) (okm : MemoriesOk s) : MemoriesOk (s.refreshEff pid) := by
  unfold State.refreshEff
  repeat' first
    | with_reducible assumption | intro _ | with_reducible apply putProc_memories
    | with_reducible apply askHalt_memories | with_reducible apply urge_memories | with_reducible apply foldl_memories
    | split | with_reducible apply MemoriesOk.up

theorem refreshBorrowers_memories {s : State} (lender : Nat) (okm : MemoriesOk s) : MemoriesOk (s.refreshBorrowers
    lender) := by
  unfold State.refreshBorrowers
  repeat' first
    | with_reducible assumption | intro _ | with_reducible apply refreshEff_memories
    | with_reducible apply foldl_memories

theorem reportBudget_memories {s : State} (core : Nat) (p : Proc) (okm : MemoriesOk s) : MemoriesOk (s.reportBudget core
    p) := by
  unfold State.reportBudget
  repeat' first
    | with_reducible assumption | intro _ | with_reducible apply notify_memories | with_reducible apply foldl_memories
    | split | with_reducible apply MemoriesOk.up

theorem endGhost_memories {s : State} (c : Nat) (okm : MemoriesOk s) : MemoriesOk (s.endGhost c) := by
  unfold State.endGhost
  repeat' first
    | with_reducible assumption | intro _ | with_reducible apply modCore_memories
    | with_reducible apply askHalt_memories | with_reducible apply foldl_memories | split

theorem spill_memories {s : State} (p : Proc) (okm : MemoriesOk s) : MemoriesOk (s.spill p) := by
  unfold State.spill
  repeat' first | with_reducible assumption | intro _ | with_reducible apply putProc_memories

theorem spillOne_memories {s t : State} {c eff : Nat} (ok : MemoriesOk s) (e : s.spillOne c eff = some t) : MemoriesOk t
    := by
  unfold State.spillOne at e
  split at e
  · split at e
    · cases e; exact spill_memories _ ok
    · cases e
  · cases e

theorem makeRoom_memories {s t : State} {c units eff n : Nat} (ok : MemoriesOk s)
    (e : s.makeRoom c units eff n = some t) : MemoriesOk t := by
  induction n generalizing s with
  | zero =>
    unfold State.makeRoom at e
    split at e <;> cases e
    exact ok
  | succ n ih =>
    unfold State.makeRoom at e
    split at e
    · cases e; exact ok
    · split at e
      · exact ih (spillOne_memories ok (by assumption)) e
      · cases e

theorem some_memories {c : Bool} {s t : State} (ok : MemoriesOk s) (e : (if c = true then some s else none) = some t) :
    MemoriesOk t := by
  split at e <;> cases e
  exact ok

theorem placeOn_memories {s t : State} {c : Nat} {p : Proc} (ok : MemoriesOk s) (e : s.placeOn c p = some t) :
    MemoriesOk t := by
  unfold State.placeOn at e
  split at e
  · extract_lets q r u v at e
    clear_value q
    have h : MemoriesOk v := putProc_memories _ ok
    split at e
    · exact some_memories (urge_memories _ (putProc_memories _ (makeRoom_memories h (by assumption)))) e
    · split at e
      · exact some_memories (putProc_memories _ h) e
      · cases e
  · cases e

theorem placeMember_memories {s t : State} {m : Member} (ok : MemoriesOk s) (e : s.placeMember m = some t) : MemoriesOk
    t := by
  unfold State.placeMember at e
  split at e
  · cases e
  · obtain ⟨c, _, k⟩ := List.exists_of_findSome?_eq_some e
    exact placeOn_memories ok k

theorem placeAll_memories {s t : State} {ms : List Member} (ok : MemoriesOk s) (e : s.placeAll ms = some t) : MemoriesOk
    t := by
  induction ms generalizing s with
  | nil => cases e; exact ok
  | cons m ms ih =>
    unfold State.placeAll at e
    split at e
    · exact ih (placeMember_memories ok (by assumption)) e
    · cases e

theorem writeResult_memories {s : State} (m : Member) (v : Nat) (okm : MemoriesOk s) : MemoriesOk (s.writeResult m v) :=
    by
  unfold State.writeResult
  repeat' first
    | with_reducible assumption | intro _ | with_reducible apply engineWrite_memories
    | with_reducible apply foldl_memories | split

theorem dropPlacement_memories {s : State} (id : Nat) (okm : MemoriesOk s) : MemoriesOk (s.dropPlacement id) := by
  unfold State.dropPlacement
  repeat' first
    | with_reducible assumption | intro _ | with_reducible apply foldl_memories | split
    | with_reducible apply MemoriesOk.up

theorem commitPlacement_memories {s : State} (pl : Placement) (okm : MemoriesOk s) : MemoriesOk (s.commitPlacement pl)
    := by
  unfold State.commitPlacement
  repeat' first
    | with_reducible assumption | intro _ | with_reducible apply writeResult_memories
    | with_reducible apply dropPlacement_memories | with_reducible apply foldl_memories

theorem failPlacement_memories {s : State} (pl : Placement) (reason : Nat) (okm : MemoriesOk s) : MemoriesOk
    (s.failPlacement pl reason) := by
  unfold State.failPlacement
  repeat' first
    | with_reducible assumption | intro _ | with_reducible apply report_memories
    | with_reducible apply exitProc_memories | with_reducible apply writeResult_memories
    | with_reducible apply dropPlacement_memories | with_reducible apply foldl_memories | split
    | with_reducible apply MemoriesOk.up

theorem attempt_memories {s t : State} {pl : Placement} (ok : MemoriesOk s) (e : s.attempt pl = .placed t) : MemoriesOk
    t := by
  unfold State.attempt at e
  split at e
  · cases e
  · split at e
    · cases e
    · split at e
      · cases e
      · split at e
        · cases e; exact placeAll_memories ok (by assumption)
        · cases e

theorem tryPlacement_memories {s : State} (pl : Placement) (ok : MemoriesOk s) : MemoriesOk (s.tryPlacement pl) := by
  unfold State.tryPlacement
  split
  · exact commitPlacement_memories _ (attempt_memories ok (by assumption))
  · exact failPlacement_memories _ _ ok
  · exact ok

theorem reloadWins_memories {s : State} (region c : Nat) (okm : MemoriesOk s) : MemoriesOk (s.reloadWins region c) := by
  unfold State.reloadWins
  repeat' first
    | with_reducible assumption | intro _ | with_reducible apply foldl_memories | split
    | with_reducible apply MemoriesOk.up

theorem moveImage_memories {s : State} (p : Proc) (c : Nat) (okm : MemoriesOk s) : MemoriesOk (s.moveImage p c) := by
  unfold State.moveImage
  repeat' first
    | with_reducible assumption | intro _ | with_reducible apply copyBlock_memories
    | with_reducible apply reloadWins_memories | with_reducible apply foldl_memories | split
    | with_reducible apply MemoriesOk.up

theorem beginMove_memories {s : State} (p : Proc) (okm : MemoriesOk s) : MemoriesOk (s.beginMove p) := by
  unfold State.beginMove
  repeat' first
    | with_reducible assumption | intro _ | with_reducible apply putProc_memories
    | with_reducible apply transitEnds_memories

theorem moveRings_memories {s : State} (p : Proc) (c : Nat) (okm : MemoriesOk s) : MemoriesOk (s.moveRings p c) := by
  unfold State.moveRings
  repeat' first
    | with_reducible assumption | intro _ | with_reducible apply foldl_memories | split
    | with_reducible apply MemoriesOk.up

theorem finishMove_memories {s : State} (p : Proc) (c : Nat) (okm : MemoriesOk s) : MemoriesOk (s.finishMove p c) := by
  unfold State.finishMove
  repeat' first
    | with_reducible assumption | intro _ | with_reducible apply putProc_memories
    | with_reducible apply transitEnds_memories | with_reducible apply refreshBorrowers_memories
    | with_reducible apply moveImage_memories | with_reducible apply moveRings_memories

theorem sendMove_memories {s : State} (p : Proc) (c : Nat) (okm : MemoriesOk s) : MemoriesOk (s.sendMove p c) := by
  unfold State.sendMove
  dsimp -zeta only [State.freshId]
  repeat' first
    | with_reducible assumption | intro _ | with_reducible apply foldl_memories | split
    | with_reducible apply MemoriesOk.up

theorem compactOne_memories {s : State} (region pid c : Nat) (okm : MemoriesOk s) : MemoriesOk (s.compactOne region pid
    c) := by
  unfold State.compactOne
  repeat' first
    | with_reducible assumption | intro _ | with_reducible apply stopRunning_memories
    | with_reducible apply spill_memories | with_reducible apply beginMove_memories
    | with_reducible apply finishMove_memories | with_reducible apply sendMove_memories
    | with_reducible apply foldl_memories | split | with_reducible apply MemoriesOk.up

theorem vlanes_keeps {s : State} (i : Instr) (w : Nat) (m : PIdx) (d a b : VIdx) (reads : Bool) (f : Proc → Nat → Nat →
    Nat → Nat → Rounded) (okm : MemoriesOk s) : OutOk (s.vlanes i w m d a b reads f) := by
  unfold State.vlanes
  repeat' first | with_reducible assumption | intro _ | with_reducible apply vec_keeps

theorem vfp_keeps {s : State} (i : Instr) (t : FpT) (rc : Rc) (m : PIdx) (d a b : VIdx) (reads : Bool) (f : Fmt → Rm →
    Fp → Fp → Fp → Rounded) (okm : MemoriesOk s) : OutOk (s.vfp i t rc m d a b reads f) := by
  unfold State.vfp
  repeat' first | with_reducible assumption | intro _ | with_reducible apply vlanes_keeps

theorem vint_keeps {s : State} (i : Instr) (w : ElW) (m : PIdx) (d a b : VIdx) (reads : Bool) (f : Nat → Nat → Nat → Nat
    → Nat) (okm : MemoriesOk s) : OutOk (s.vint i w m d a b reads f) := by
  unfold State.vint
  repeat' first | with_reducible assumption | intro _ | with_reducible apply vlanes_keeps

theorem vgen_keeps {s : State} (i : Instr) (w : Nat) (m : PIdx) (d : VIdx) (srcs : List VIdx) (push : Bool) (f : Proc →
    Nat → Rounded) (okm : MemoriesOk s) : OutOk (s.vgen i w m d srcs push f) := by
  unfold State.vgen
  repeat' first | with_reducible assumption | intro _ | with_reducible apply vec_keeps

theorem vcompare_keeps {s : State} (i : Instr) (w : Nat) (m d : PIdx) (a b : VIdx) (cc : Nat → Nat → Bool × Flags) (okm
    : MemoriesOk s) : OutOk (s.vcompare i w m d a b cc) := by
  unfold State.vcompare
  repeat' first | with_reducible assumption | intro _ | with_reducible apply vec_keeps

theorem vqrnd_keeps {s : State} (i : Instr) (m : PIdx) (d a : VIdx) (n : BitVec 5) (at_ : Nat) (okm : MemoriesOk s) :
    OutOk (s.vqrnd i m d a n at_) := by
  unfold State.vqrnd
  repeat' first | with_reducible assumption | intro _ | with_reducible apply vec_keeps

theorem vmove_keeps {s : State} (i : Instr) (m : PIdx) (d : VIdx) (srcs : List VIdx) (reads : Bool) (e w : Nat) (at_ :
    Nat → Nat) (f : Proc → Nat → Rounded) (okm : MemoriesOk s) : OutOk (s.vmove i m d srcs reads e w at_ f) := by
  unfold State.vmove
  repeat' first | with_reducible assumption | intro _ | with_reducible apply vec_keeps

theorem vspecial_keeps {s : State} (i : Instr) (t : FpT) (m : PIdx) (d a : VIdx) (f : Nat → Rounded) (okm : MemoriesOk
    s) : OutOk (s.vspecial i t m d a f) := by
  unfold State.vspecial
  dsimp -zeta only [State.freshId]
  repeat' first | with_reducible assumption | intro _ | with_reducible apply vlanes_keeps

theorem vreduce_keeps {s : State} (i : Instr) (t : RedT) (m : PIdx) (d a : VIdx) (op : Proc → Nat → Nat → Rounded)
    (ident : Nat) (okm : MemoriesOk s) : OutOk (s.vreduce i t m d a op ident) := by
  unfold State.vreduce
  dsimp -zeta only [State.freshId]
  repeat' first | with_reducible assumption | intro _ | with_reducible apply vec_keeps

theorem pmask_keeps {s : State} (i : Instr) (d : PIdx) (f : Proc → Word) (okm : MemoriesOk s) : OutOk (s.pmask i d f) :=
    by
  unfold State.pmask
  repeat' first | with_reducible assumption | intro _ | with_reducible apply vec_keeps

theorem vloadDone_memories {s : State} (p : Proc) (d : VIdx) (z : Nat) (els : List VElem) (okm : MemoriesOk s) :
    MemoriesOk (s.vloadDone p d z els) := by
  unfold State.vloadDone
  repeat' first
    | with_reducible assumption | intro _ | with_reducible apply putProc_memories
    | with_reducible apply raise_memories | with_reducible apply foldl_memories | split

theorem vload_keeps {s : State} (p : Proc) (d : VIdx) (z : Nat) (els : List (List Nat × Nat × Word)) (okm : MemoriesOk
    s) : OutOk (s.vload p d z els) := by
  unfold State.vload
  repeat' first
    | with_reducible assumption | intro _ | with_reducible apply dispatchPacket_memories
    | with_reducible apply load_keeps | with_reducible apply vloadDone_memories | with_reducible apply OutOk.next
    | with_reducible apply OutOk.fault | with_reducible apply OutOk.refused | with_reducible apply foldl_memories
    | split | with_reducible apply MemoriesOk.up | dsimp only

theorem vmem_keeps {s : State} (i : Instr) (vs : List VIdx) (w : ElW) (els : Proc → List (Nat × Word)) (perm : Perm) (k
    : Nat)
    (go : Proc → List (Nat × Word) → Out) (hgo : ∀ p l, OutOk (go p l)) (okm : MemoriesOk s) :
    OutOk (s.vmem i vs w els perm k go) := by
  unfold State.vmem
  repeat' first
    | with_reducible assumption | intro _ | with_reducible apply ofClass_keeps | with_reducible apply raised_keeps
    | with_reducible apply stall_keeps | with_reducible apply OutOk.next | with_reducible apply hgo | split
    | dsimp only

theorem vld_keeps {s : State} (i : Instr) (w : ElW) (m : PIdx) (d : VIdx) (vs : List VIdx) (at_ : Proc → Nat → Word)
    (okm : MemoriesOk s) : OutOk (s.vld i w m d vs at_) := by
  unfold State.vld
  repeat' first
    | with_reducible assumption | intro _ | with_reducible apply vload_keeps | with_reducible apply vmem_keeps

theorem vst_keeps {s : State} (i : Instr) (w : ElW) (m : PIdx) (d : VIdx) (vs : List VIdx) (at_ : Proc → Nat → Word)
    (okm : MemoriesOk s) : OutOk (s.vst i w m d vs at_) := by
  unfold State.vst
  dsimp -zeta only [State.freshId]
  repeat' first
    | with_reducible assumption | intro _ | with_reducible apply stall_keeps | with_reducible apply done_keeps
    | with_reducible apply storeElems_memories | with_reducible apply vmem_keeps | with_reducible apply OutOk.next
    | with_reducible apply OutOk.fault | with_reducible apply OutOk.refused | with_reducible apply foldl_memories
    | split

theorem strm_keeps {s : State} (i : Instr) (k : Proc → Out) (hk : ∀ (x0 : Proc), OutOk (k x0)) (okm : MemoriesOk s) :
    OutOk (s.strm i k) := by
  unfold State.strm
  repeat' first | with_reducible assumption | intro _ | with_reducible apply ofClass_keeps

theorem fetchHalf_memories {s t : State} {p : Proc} {a : Word} {h : BitVec 16} (ok : MemoriesOk s)
    (e : s.fetchHalf p a = some (h, t)) : MemoriesOk t := by
  unfold State.fetchHalf at e
  split at e
  · cases e
  · split at e
    · cases e
      exact modCore_memories _ _ ok
    · split at e
      · cases e
        exact ok
      · split at e <;> cases e
        · exact MemoriesOk.up ok
        · exact modCore_memories _ _ (MemoriesOk.up ok)

theorem orderLoads_memories {s : State} (core : Nat) (i : Instr) (okm : MemoriesOk s) : MemoriesOk (s.orderLoads core i)
    := by
  unfold State.orderLoads
  repeat' first
    | with_reducible assumption | intro _ | with_reducible apply clearEarly_memories
    | with_reducible apply foldl_memories | split

theorem prefetch_memories {s : State} (core a : Nat) (okm : MemoriesOk s) : MemoriesOk (s.prefetch core a) := by
  unfold State.prefetch
  repeat' first
    | with_reducible assumption | intro _ | with_reducible apply modCore_memories
    | with_reducible apply foldl_memories | split

theorem placeWord_memories {s : State} (w : Nat) (ok : MemoriesOk s) : MemoriesOk (s.placeWord w) := by
  have h := modCore_memories s.focus (fun k => { k with copies := [], halt := none }) ok
  exact ⟨Memory.write_wf _ _ _ h.1, h.2⟩

theorem tile_keeps {s : State} (i : Instr) (vs : List VIdx) (k : Proc → Out) (hk : ∀ (x0 : Proc), OutOk (k x0)) (okm :
    MemoriesOk s) : OutOk (s.tile i vs k) := by
  unfold State.tile
  repeat' first | with_reducible assumption | intro _ | with_reducible apply ofClass_keeps

theorem tileRaise_keeps {s : State} (p : Proc) (i : Instr) (e : Cause × Word × Word × Option Word) (okm : MemoriesOk s)
    : OutOk (s.tileRaise p i e) := by
  unfold State.tileRaise
  repeat' first | with_reducible assumption | intro _ | with_reducible apply raised_keeps

theorem fixReads_memories {s : State} (p : Proc) (ds : List Desc) (okm : MemoriesOk s) : MemoriesOk (s.fixReads p ds) :=
    by
  unfold State.fixReads
  repeat' first
    | with_reducible assumption | intro _ | with_reducible apply foldl_memories | split
    | with_reducible apply MemoriesOk.up

theorem product_keeps {s : State} (i : Instr) (f : TileFmt) (sp : Bool) (d : AIdx) (a b : XIdx) (n : Nat) (p : Proc)
    (okm : MemoriesOk s) : OutOk (s.product i f sp d a b n p) := by
  unfold State.product
  repeat' first
    | with_reducible assumption | intro _ | with_reducible apply raised_keeps | with_reducible apply stall_keeps
    | with_reducible apply done_keeps | with_reducible apply tile_keeps | with_reducible apply tileRaise_keeps
    | with_reducible apply fixReads_memories | with_reducible apply OutOk.next | with_reducible apply OutOk.fault
    | with_reducible apply OutOk.refused | with_reducible apply foldl_memories | split
    | with_reducible apply MemoriesOk.up | dsimp only

theorem storeTst_memories {s : State} (p : Proc) (all ws : List TstWrite) (okm : MemoriesOk s) : MemoriesOk (s.storeTst
    p all ws) := by
  unfold State.storeTst
  repeat' first
    | with_reducible assumption | intro _ | with_reducible apply store_memories | with_reducible apply foldl_memories

theorem cellwise_keeps {s : State} (p q : Proc) (d : AIdx) (r : Acc × Flags) (okm : MemoriesOk s) : OutOk (s.cellwise p
    q d r) := by
  unfold State.cellwise
  repeat' first
    | with_reducible assumption | intro _ | with_reducible apply raised_keeps | with_reducible apply done_keeps
    | with_reducible apply OutOk.next | with_reducible apply OutOk.fault | with_reducible apply OutOk.refused
    | with_reducible apply foldl_memories | split

theorem tmqPush_keeps {s : State} (p : Proc) (a : VIdx) (okm : MemoriesOk s) : OutOk (s.tmqPush p a) := by
  unfold State.tmqPush
  split
  · exact raised_keeps _ _ _ _ _ _ okm
  · split
    · exact raised_keeps _ _ _ _ _ _ okm
    · exact OutOk.next (putProc_memories _ (popAll_memories okm (by assumption)))
    · exact OutOk.next (putProc_memories _ okm)

end Sys2Proof.Machine
end

