-- ==== Sys2Proof/Laws/MemoriesPackage.lean ====
section
/-! SUPPORT. The operations of channels, causal fabric, memory servers, edge, domains, loader and stage manager keep the
memories in their canonical form. -/

set_option Elab.async false

namespace Sys2Proof.Machine

theorem chanRaise_keeps {s : State} (p : Proc) (c : Cause) (h : Nat) (d1 : Nat) (okm : MemoriesOk s) : OutOk
    (s.chanRaise p c h d1) := by
  unfold State.chanRaise
  repeat' first | with_reducible assumption | intro _ | with_reducible apply raised_keeps

theorem raisedAt_keeps {s : State} (p : Proc) (c : Cause) (addr : Word) (okm : MemoriesOk s) : OutOk (s.raisedAt p c
    addr) := by
  unfold State.raisedAt
  repeat' first
    | with_reducible assumption | intro _ | with_reducible apply raised_keeps | with_reducible apply OutOk.next
    | with_reducible apply OutOk.fault | with_reducible apply OutOk.refused | with_reducible apply foldl_memories
    | split | with_reducible apply MemoriesOk.up

theorem keepRunning_memories {s : State} (p : Proc) (q : Proc) (acq : Bool) (okm : MemoriesOk s) : MemoriesOk
    (s.keepRunning p q acq) := by
  unfold State.keepRunning
  repeat' first
    | with_reducible assumption | intro _ | with_reducible apply urge_memories
    | with_reducible apply clearEarly_memories | with_reducible apply finishWait_memories
    | with_reducible apply foldl_memories | split | with_reducible apply MemoriesOk.up

theorem toAnchor_keeps {s : State} (p : Proc) (c : Channel) (w : ChanWait) (acq : Bool) (okm : MemoriesOk s) : OutOk
    (s.toAnchor p c w acq) := by
  unfold State.toAnchor
  dsimp -zeta only [State.freshId]
  repeat' first
    | with_reducible assumption | intro _ | with_reducible apply block_memories | with_reducible apply settle_memories
    | with_reducible apply lend_memories | with_reducible apply done_keeps | with_reducible apply sendAnchor_memories
    | with_reducible apply keepRunning_memories | with_reducible apply OutOk.next | with_reducible apply OutOk.fault
    | with_reducible apply OutOk.refused | with_reducible apply foldl_memories | split
    | with_reducible apply MemoriesOk.up | dsimp only

theorem tileMove_keeps {s : State} (a b : XIdx) (op : ChanOp) (okm : MemoriesOk s) : OutOk (s.tileMove a b op) := by
  unfold State.tileMove
  repeat' first
    | with_reducible assumption | intro _ | with_reducible apply raised_keeps | with_reducible apply stall_keeps
    | with_reducible apply withProc_keeps | with_reducible apply chanRaise_keeps | with_reducible apply toAnchor_keeps
    | with_reducible apply OutOk.next | with_reducible apply OutOk.fault | with_reducible apply OutOk.refused
    | with_reducible apply foldl_memories | split | with_reducible apply MemoriesOk.up | dsimp only

theorem landTransfer_memories {s : State} (t : Transfer) (okm : MemoriesOk s) : MemoriesOk (s.landTransfer t) := by
  unfold State.landTransfer
  repeat' first
    | with_reducible assumption | intro _ | with_reducible apply endMove_memories
    | with_reducible apply foldl_memories | split | with_reducible apply MemoriesOk.up

theorem readTransfer_memories {s : State} (t : Transfer) (okm : MemoriesOk s) : MemoriesOk (s.readTransfer t) := by
  unfold State.readTransfer
  repeat' first
    | with_reducible assumption | intro _ | with_reducible apply endMove_memories
    | with_reducible apply engineWrite_memories | with_reducible apply foldl_memories | split
    | with_reducible apply MemoriesOk.up

theorem armEnd_keeps {s : State} (a : XIdx) (i : BitVec 5) (tx : Bool) (okm : MemoriesOk s) : OutOk (s.armEnd a i tx) :=
    by
  unfold State.armEnd
  repeat' first
    | with_reducible assumption | intro _ | with_reducible apply done_keeps | with_reducible apply withProc_keeps
    | with_reducible apply chanRaise_keeps | with_reducible apply OutOk.next | with_reducible apply OutOk.fault
    | with_reducible apply OutOk.refused | with_reducible apply foldl_memories | split
    | with_reducible apply MemoriesOk.up | dsimp only

theorem doSpawn_memories {s : State} (p : Proc) (d : XIdx) (w : Nat → Word) (okm : MemoriesOk s) : MemoriesOk (s.doSpawn
    p d w) := by
  unfold State.doSpawn
  dsimp -zeta only [State.freshId]
  repeat' first
    | with_reducible assumption | intro _ | with_reducible apply tryPlacement_memories
    | with_reducible apply foldl_memories | split | with_reducible apply MemoriesOk.up

theorem reclass_keeps {s : State} (p : Proc) (okm : MemoriesOk s) : OutOk (s.reclass p) := by
  unfold State.reclass
  repeat' first
    | with_reducible assumption | intro _ | with_reducible apply urge_memories | with_reducible apply done_keeps
    | with_reducible apply stopRunning_memories | with_reducible apply OutOk.next | with_reducible apply OutOk.fault
    | with_reducible apply OutOk.refused | with_reducible apply foldl_memories | split
    | with_reducible apply MemoriesOk.up | dsimp only

theorem putBarrier_memories {s : State} (h : Word) (b : Option Barrier) (okm : MemoriesOk s) : MemoriesOk (s.putBarrier
    h b) := by
  unfold State.putBarrier
  repeat' first
    | with_reducible assumption | intro _ | with_reducible apply foldl_memories | split
    | with_reducible apply MemoriesOk.up

theorem sendProbe_memories {s : State} (origin blockNo : Nat) (pids : List Nat) (tgt : Nat) (okm : MemoriesOk s) :
    MemoriesOk (s.sendProbe origin blockNo pids tgt) := by
  unfold State.sendProbe
  dsimp -zeta only [State.freshId]
  repeat' first
    | with_reducible assumption | intro _ | with_reducible apply foldl_memories | split
    | with_reducible apply MemoriesOk.up

theorem reportCycle_memories {s : State} (p : Proc) (pids : List Nat) (okm : MemoriesOk s) : MemoriesOk (s.reportCycle p
    pids) := by
  unfold State.reportCycle
  repeat' first
    | with_reducible assumption | intro _ | with_reducible apply notify_memories | with_reducible apply foldl_memories

theorem affect_memories {s : State} (region : Nat) (f : Affected → Affected) (okm : MemoriesOk s) : MemoriesOk (s.affect
    region f) := by
  unfold State.affect
  repeat' first
    | with_reducible assumption | intro _ | with_reducible apply foldl_memories | split
    | with_reducible apply MemoriesOk.up

theorem countBroken_memories {s : State} (q : Packet) (okm : MemoriesOk s) : MemoriesOk (s.countBroken q) := by
  unfold State.countBroken
  repeat' first
    | with_reducible assumption | intro _ | with_reducible apply affect_memories | with_reducible apply foldl_memories
    | split

theorem putServer_memories {s : State} (v : Server) (okm : MemoriesOk s) : MemoriesOk (s.putServer v) := by
  unfold State.putServer
  repeat' first
    | with_reducible assumption | intro _ | with_reducible apply foldl_memories | split
    | with_reducible apply MemoriesOk.up

theorem modServer_memories {s : State} (n : Nat) (f : Server → Server) (okm : MemoriesOk s) : MemoriesOk (s.modServer n
    f) := by
  unfold State.modServer
  repeat' first | with_reducible assumption | intro _ | with_reducible apply putServer_memories

theorem msRaise_keeps {s : State} (p : Proc) (e : MsFault) (okm : MemoriesOk s) : OutOk (s.msRaise p e) := by
  unfold State.msRaise
  repeat' first
    | with_reducible assumption | intro _ | with_reducible apply raised_keeps | with_reducible apply OutOk.next
    | with_reducible apply OutOk.fault | with_reducible apply OutOk.refused | with_reducible apply foldl_memories
    | split | with_reducible apply MemoriesOk.up

theorem sendRequest_memories {s : State} (r : MsReq) (die : Nat) (okm : MemoriesOk s) : MemoriesOk (s.sendRequest r die)
    := by
  unfold State.sendRequest
  dsimp -zeta only [State.freshId]
  repeat' first
    | with_reducible assumption | intro _ | with_reducible apply stampAll_memories
    | with_reducible apply reply_memories | with_reducible apply putRequest_memories
    | with_reducible apply foldl_memories | split | with_reducible apply MemoriesOk.up

theorem toFront_memories {s : State} (r : MsReq) (okm : MemoriesOk s) : MemoriesOk (s.toFront r) := by
  unfold State.toFront
  repeat' first
    | with_reducible assumption | intro _ | with_reducible apply sendRequest_memories
    | with_reducible apply foldl_memories | split

theorem msAccept_memories {s : State} (p : Proc) (op : MsOp) (b : MsBlock) (name : Nat) (okm : MemoriesOk s) :
    MemoriesOk (s.msAccept p op b name) := by
  unfold State.msAccept
  dsimp -zeta only [State.freshId]
  repeat' first
    | with_reducible assumption | intro _ | with_reducible apply toFront_memories
    | with_reducible apply foldl_memories | split | with_reducible apply MemoriesOk.up

theorem msInstr_keeps {s : State} (op : MsOp) (a b : XIdx) (okm : MemoriesOk s) : OutOk (s.msInstr op a b) := by
  unfold State.msInstr
  repeat' first
    | with_reducible assumption | intro _ | with_reducible apply block_memories | with_reducible apply raised_keeps
    | with_reducible apply stall_keeps | with_reducible apply withProc_keeps | with_reducible apply raisedAt_keeps
    | with_reducible apply msRaise_keeps | with_reducible apply msAccept_memories | with_reducible apply OutOk.next
    | with_reducible apply OutOk.fault | with_reducible apply OutOk.refused | with_reducible apply foldl_memories
    | split | with_reducible apply MemoriesOk.up | dsimp only

theorem refill_memories {s : State} (n entry page : Nat) (e : Word) (okm : MemoriesOk s) : MemoriesOk (s.refill n entry
    page e) := by
  unfold State.refill
  repeat' first | with_reducible assumption | intro _ | with_reducible apply modServer_memories

theorem notifyRequest_memories {s : State} (r : MsReq) (c : Cause) (addr d0 d1 : Word) (okm : MemoriesOk s) : MemoriesOk
    (s.notifyRequest r c addr d0 d1) := by
  unfold State.notifyRequest
  repeat' first | with_reducible assumption | intro _ | with_reducible apply sendRecord_memories

theorem loseFront_memories {s : State} (r : MsReq) (okm : MemoriesOk s) : MemoriesOk (s.loseFront r) := by
  unfold State.loseFront
  repeat' first
    | with_reducible assumption | intro _ | with_reducible apply putRequest_memories
    | with_reducible apply affect_memories | with_reducible apply notifyRequest_memories
    | with_reducible apply foldl_memories | split | with_reducible apply MemoriesOk.up

theorem notifyStack_memories {s : State} (r : MsReq) (okm : MemoriesOk s) : MemoriesOk (s.notifyStack r) := by
  unfold State.notifyStack
  repeat' first
    | with_reducible assumption | intro _ | with_reducible apply notifyManager_memories
    | with_reducible apply foldl_memories | split | with_reducible apply MemoriesOk.up

theorem losePart_memories {s : State} (r : MsReq) (okm : MemoriesOk s) : MemoriesOk (s.losePart r) := by
  unfold State.losePart
  repeat' first
    | with_reducible assumption | intro _ | with_reducible apply serve_memories
    | with_reducible apply putRequest_memories | with_reducible apply affect_memories
    | with_reducible apply notifyStack_memories | with_reducible apply foldl_memories | split

theorem segmentMiss_memories {s : State} (r : MsReq) (pg : Nat) (okm : MemoriesOk s) : MemoriesOk (s.segmentMiss r pg)
    := by
  unfold State.segmentMiss
  repeat' first
    | with_reducible assumption | intro _ | with_reducible apply endRegion_memories
    | with_reducible apply putRequest_memories | with_reducible apply foldl_memories | split
    | with_reducible apply MemoriesOk.up

theorem sawError_memories {s : State} (r : MsReq) (o : Nat) (bs : List MByte) (okm : MemoriesOk s) : MemoriesOk
    (s.sawError r o bs).1 := by
  unfold State.sawError
  repeat' first
    | with_reducible assumption | intro _ | with_reducible apply notifyRequest_memories
    | with_reducible apply foldl_memories | split | with_reducible apply MemoriesOk.up

theorem engineRun_memories {s : State} (r : MsReq) (ws : List (Nat × List MByte)) (okm : MemoriesOk s) : MemoriesOk
    (s.engineRun r ws).1 := by
  unfold State.engineRun
  dsimp -zeta only [State.freshId]
  repeat' first
    | with_reducible assumption | intro _ | with_reducible apply engineWrite_memories
    | with_reducible apply foldl_memories

theorem flushCarry_memories {s : State} (r : MsReq) (okm : MemoriesOk s) : MemoriesOk (s.flushCarry r).1 := by
  unfold State.flushCarry
  repeat' first
    | with_reducible assumption | intro _ | with_reducible apply engineRun_memories
    | with_reducible apply foldl_memories | split

theorem toLocal_memories {s : State} (r : MsReq) (a : Nat) (bs : List MByte) (okm : MemoriesOk s) : MemoriesOk
    (s.toLocal r a bs).1 := by
  unfold State.toLocal
  dsimp -zeta only [State.freshId]
  repeat' first
    | with_reducible assumption | intro _ | with_reducible apply engineRun_memories
    | with_reducible apply flushCarry_memories | with_reducible apply foldl_memories | split

theorem toSegment_memories {s : State} (r : MsReq) (seg : Segment) (bs : List MByte) (okm : MemoriesOk s) : MemoriesOk
    (s.toSegment r seg bs).1 := by
  unfold State.toSegment
  dsimp -zeta only [State.freshId]
  repeat' first | with_reducible assumption | intro _ | with_reducible apply segWrite_memories

theorem servePart_memories {s : State} (r : MsReq) (okm : MemoriesOk s) : MemoriesOk (s.servePart r).1 := by
  unfold State.servePart
  dsimp -zeta only [State.freshId]
  repeat' first
    | with_reducible assumption | intro _ | with_reducible apply segWrite_memories
    | with_reducible apply sawError_memories | with_reducible apply toLocal_memories
    | with_reducible apply toSegment_memories | with_reducible apply foldl_memories | split

theorem pieceStage_memories {s : State} (r : MsReq) (ok : MemoriesOk s) : MemoriesOk (s.pieceStage r).1 := by
  unfold State.pieceStage
  extract_lets back
  clear_value back
  split
  · exact ok
  · dsimp only
    split
    · exact ok
    · exact sawError_memories _ _ _ ok
  · split <;> exact ok
  · split
    · exact notifyStack_memories _ ok
    · split
      · exact ok
      · exact servePart_memories _ ok
  · exact ok

theorem pieceRun_memories {s : State} (r : MsReq) (n : Nat) (ok : MemoriesOk s) : MemoriesOk (s.pieceRun r n) := by
  induction n generalizing s r with
  | zero => exact putRequest_memories _ ok
  | succ n ih =>
    unfold State.pieceRun
    dsimp only
    split
    · split
      · exact sendRequest_memories _ _ ok
      · exact losePart_memories _ ok
    · split
      · exact putRequest_memories _ (pieceStage_memories _ ok)
      · exact ih _ (pieceStage_memories _ ok)

theorem servePiece_memories {s : State} (r : MsReq) (ok : MemoriesOk s) : MemoriesOk (s.servePiece r) :=
  pieceRun_memories _ _ ok

theorem finishRequest_memories {s : State} (r : MsReq) (okm : MemoriesOk s) : MemoriesOk (s.finishRequest r) := by
  unfold State.finishRequest
  repeat' first
    | with_reducible assumption | intro _ | with_reducible apply modServer_memories
    | with_reducible apply foldl_memories | split | with_reducible apply MemoriesOk.up

theorem writeCompletion_memories {s : State} (r : MsReq) (okm : MemoriesOk s) : MemoriesOk (s.writeCompletion r) := by
  unfold State.writeCompletion
  repeat' first
    | with_reducible assumption | intro _ | with_reducible apply putRequest_memories
    | with_reducible apply engineWrite_memories | with_reducible apply finishRequest_memories
    | with_reducible apply foldl_memories | split | with_reducible apply MemoriesOk.up

theorem putThread_memories {s : State} (t : Thread) (okm : MemoriesOk s) : MemoriesOk (s.putThread t) := by
  unfold State.putThread
  repeat' first
    | with_reducible assumption | intro _ | with_reducible apply foldl_memories | split
    | with_reducible apply MemoriesOk.up

theorem modThread_memories {s : State} (n : Nat) (f : Thread → Thread) (okm : MemoriesOk s) : MemoriesOk (s.modThread n
    f) := by
  unfold State.modThread
  repeat' first
    | with_reducible assumption | intro _ | with_reducible apply putThread_memories
    | with_reducible apply foldl_memories | split

theorem postFor_memories {s : State} (fn : Nat) (r : Record) (okm : MemoriesOk s) : MemoriesOk (s.postFor fn r) := by
  unfold State.postFor
  repeat' first
    | with_reducible assumption | intro _ | with_reducible apply foldl_memories | split
    | with_reducible apply MemoriesOk.up

theorem postItem_memories {s : State} (h : ItemHdr) (c : Cause) (d0 d1 : Nat) (okm : MemoriesOk s) : MemoriesOk
    (s.postItem h c d0 d1) := by
  unfold State.postItem
  repeat' first | with_reducible assumption | intro _ | with_reducible apply postFor_memories

theorem setCur_memories {s : State} (h : ItemHdr) (p : Pending) (okm : MemoriesOk s) : MemoriesOk (s.setCur h p) := by
  unfold State.setCur
  repeat' first | with_reducible assumption | intro _ | with_reducible apply modThread_memories

theorem setSem_memories {s : State} (sem v : Nat) (okm : MemoriesOk s) : MemoriesOk (s.setSem sem v) := by
  unfold State.setSem
  repeat' first
    | with_reducible assumption | intro _ | with_reducible apply foldl_memories | split
    | with_reducible apply MemoriesOk.up

theorem semAdd_memories {s : State} (h : ItemHdr) (op sem : Nat) (delta : Int) (okm : MemoriesOk s) : MemoriesOk
    (s.semAdd h op sem delta) := by
  unfold State.semAdd
  repeat' first
    | with_reducible assumption | intro _ | with_reducible apply postItem_memories
    | with_reducible apply setSem_memories | with_reducible apply foldl_memories | split
    | with_reducible apply MemoriesOk.up

theorem semMax_memories {s : State} (sem v : Nat) (okm : MemoriesOk s) : MemoriesOk (s.semMax sem v) := by
  unfold State.semMax
  repeat' first | with_reducible assumption | intro _ | with_reducible apply setSem_memories

theorem completeItem_memories {s : State} (h : ItemHdr) (op : Nat) (okm : MemoriesOk s) : MemoriesOk (s.completeItem h
    op) := by
  unfold State.completeItem
  repeat' first
    | with_reducible assumption | intro _ | with_reducible apply modThread_memories
    | with_reducible apply semAdd_memories | with_reducible apply foldl_memories | split

theorem failItem_memories {s : State} (h : ItemHdr) (c : Cause) (d0 d1 : Nat) (okm : MemoriesOk s) : MemoriesOk
    (s.failItem h c d0 d1) := by
  unfold State.failItem
  repeat' first
    | with_reducible assumption | intro _ | with_reducible apply modThread_memories
    | with_reducible apply postItem_memories

theorem failCmd_memories {s : State} (h : ItemHdr) (op : Nat) (e : Fail) (okm : MemoriesOk s) : MemoriesOk (s.failCmd h
    op e) := by
  unfold State.failCmd
  repeat' first
    | with_reducible assumption | intro _ | with_reducible apply failItem_memories
    | with_reducible apply foldl_memories | split | with_reducible apply MemoriesOk.up

theorem completeWhere_memories {s : State} (f : Pending → Bool) (okm : MemoriesOk s) : MemoriesOk (s.completeWhere f) :=
    by
  unfold State.completeWhere
  repeat' first
    | with_reducible assumption | intro _ | with_reducible apply completeItem_memories
    | with_reducible apply foldl_memories

theorem nextEntry_memories {s : State} (q : HostQueue) (okm : MemoriesOk s) : MemoriesOk (s.nextEntry q) := by
  unfold State.nextEntry
  repeat' first
    | with_reducible assumption | intro _ | with_reducible apply foldl_memories | split
    | with_reducible apply MemoriesOk.up

theorem modOuter_memories {s : State} (pick : Channel → Bool) (f : Channel → End → End) (okm : MemoriesOk s) :
    MemoriesOk (s.modOuter pick f) := by
  unfold State.modOuter
  repeat' first
    | with_reducible assumption | intro _ | with_reducible apply modChan_memories
    | with_reducible apply settle_memories | with_reducible apply foldl_memories | split

theorem groupRecord_memories {s : State} (g d1 : Nat) (pick : Channel → Bool) (okm : MemoriesOk s) : MemoriesOk
    (s.groupRecord g d1 pick) := by
  unfold State.groupRecord
  repeat' first
    | with_reducible assumption | intro _ | with_reducible apply foldl_memories | split
    | with_reducible apply MemoriesOk.up

theorem pump_memories {s : State} (g f : Nat) (okm : MemoriesOk s) : MemoriesOk (s.pump g f) := by
  unfold State.pump
  repeat' first
    | with_reducible assumption | intro _ | with_reducible apply modGroup_memories
    | with_reducible apply foldl_memories | split | with_reducible apply MemoriesOk.up

theorem sendMessage_memories {s : State} (g : Nat) (f : Flow) (bs : List Byte) (okm : MemoriesOk s) : MemoriesOk
    (s.sendMessage g f bs) := by
  unfold State.sendMessage
  repeat' first
    | with_reducible assumption | intro _ | with_reducible apply modGroup_memories
    | with_reducible apply pump_memories | with_reducible apply foldl_memories | split
    | with_reducible apply MemoriesOk.up

theorem hostOut_memories {s : State} (c : Channel) (fn hq : Nat) (okm : MemoriesOk s) : MemoriesOk (s.hostOut c fn hq)
    := by
  unfold State.hostOut
  dsimp -zeta only [State.freshId]
  repeat' first
    | with_reducible assumption | intro _ | with_reducible apply hostWrite_memories
    | with_reducible apply wake_memories | with_reducible apply nextEntry_memories
    | with_reducible apply foldl_memories | split

theorem writeAfter_memories {s : State} (die region : Nat) (w : WriteEff) (owner : Nat) (okm : MemoriesOk s) :
    MemoriesOk (s.writeAfter die region w owner) := by
  unfold State.writeAfter
  dsimp -zeta only [State.freshId]
  repeat' first
    | with_reducible assumption | intro _ | with_reducible apply reply_memories
    | with_reducible apply engineWrite_memories | with_reducible apply foldl_memories | split
    | with_reducible apply MemoriesOk.up

theorem endMessage_memories {s : State} (g : Nat) (m : Reasm) (okm : MemoriesOk s) : MemoriesOk (s.endMessage g m) := by
  unfold State.endMessage
  repeat' first
    | with_reducible assumption | intro _ | with_reducible apply modChan_memories
    | with_reducible apply putFrame_memories | with_reducible apply writeAfter_memories
    | with_reducible apply foldl_memories | split

theorem placeBytes_memories {s : State} (g : Group) (m : Reasm) (p : UetPacket) (ok : MemoriesOk s) :
    MemoriesOk (s.placeBytes g m p).1 := by
  unfold State.placeBytes
  split
  · split
    · exact engineBytes_memories _ _ _ _ _ _ ok
    · exact ok
  · split
    · exact engineBytes_memories _ _ _ _ _ _ ok
    · exact ok
  · exact ok

theorem sendAck_memories {s : State} (g : Nat) (f : Flow) (okm : MemoriesOk s) : MemoriesOk (s.sendAck g f) := by
  unfold State.sendAck
  repeat' first
    | with_reducible assumption | intro _ | with_reducible apply modGroup_memories
    | with_reducible apply foldl_memories | split | with_reducible apply MemoriesOk.up

theorem ackDue_memories {s : State} (g n : Nat) (okm : MemoriesOk s) : MemoriesOk (s.ackDue g n) := by
  unfold State.ackDue
  repeat' first | with_reducible assumption | with_reducible apply sendAck_memories | split

theorem acceptPacket_memories {s : State} (g : Nat) (f : Flow) (m : Reasm) (p : UetPacket) (ok : MemoriesOk s) :
    MemoriesOk (s.acceptPacket g f m p) := by
  unfold State.acceptPacket
  dsimp only
  split
  · exact endMessage_memories _ _ (ackDue_memories _ _ (modGroup_memories _ _ (placeBytes_memories _ _ _ ok)))
  · exact ackDue_memories _ _ (modGroup_memories _ _ (placeBytes_memories _ _ _ ok))

theorem beginMessage_memories {s : State} (g : Nat) (f : Flow) (d : MDest) (p : UetPacket) (ok : MemoriesOk s) :
    MemoriesOk (s.beginMessage g f d p) := by
  unfold State.beginMessage
  dsimp -zeta only [State.freshId]
  extract_lets m f t u
  have h : MemoriesOk t := modGroup_memories _ _ (MemoriesOk.up ok)
  apply acceptPacket_memories
  change MemoriesOk (match d with
    | .ring t' n k => t.modChan t' n fun (c : Channel) => { c with ring := c.ring.map fun (r : Ring) => r.begin k }
    | .dropped => t.modGroup g fun x => { x with drop20 := x.drop20 + 1 }
    | _ => t)
  split
  · exact modChan_memories _ _ _ h
  · exact modGroup_memories _ _ h
  · exact h

theorem newPacket_memories {s : State} (g : Nat) (f : Flow) (p : UetPacket) (ok : MemoriesOk s) :
    MemoriesOk (s.newPacket g f p) := by
  unfold State.newPacket
  extract_lets gr fault
  clear_value gr fault
  repeat' first
    | with_reducible assumption | with_reducible apply putGroup_memories | with_reducible apply acceptPacket_memories
    | with_reducible apply beginMessage_memories | split

theorem failFlow_memories {s : State} (g n : Nat) (okm : MemoriesOk s) : MemoriesOk (s.failFlow g n) := by
  unfold State.failFlow
  repeat' first
    | with_reducible assumption | intro _ | with_reducible apply modGroup_memories
    | with_reducible apply modOuter_memories | with_reducible apply groupRecord_memories
    | with_reducible apply endMessage_memories | with_reducible apply foldl_memories | split

theorem resend_memories {s : State} (g n : Nat) (pick : Sent → Bool) (okm : MemoriesOk s) : MemoriesOk (s.resend g n
    pick) := by
  unfold State.resend
  repeat' first
    | with_reducible assumption | intro _ | with_reducible apply modGroup_memories
    | with_reducible apply failFlow_memories | with_reducible apply foldl_memories | split
    | with_reducible apply MemoriesOk.up

theorem inbound_memories {s : State} (g a n : Nat) (pl : Payload) (okm : MemoriesOk s) : MemoriesOk (s.inbound g a n pl)
    := by
  unfold State.inbound
  dsimp -zeta only [State.freshId]
  repeat' first
    | with_reducible assumption | intro _ | with_reducible apply stampAll_memories
    | with_reducible apply foldl_memories | split | with_reducible apply MemoriesOk.up

theorem tileIn_memories {s : State} (g : Nat) (c : Channel) (w0 w1 : Word) (bs : List Byte) (okm : MemoriesOk s) :
    MemoriesOk (s.tileIn g c w0 w1 bs) := by
  unfold State.tileIn
  dsimp -zeta only [State.freshId]
  repeat' first
    | with_reducible assumption | intro _ | with_reducible apply failWait_memories
    | with_reducible apply startMove_memories | with_reducible apply uaAnswer_memories
    | with_reducible apply engineWrite_memories | with_reducible apply foldl_memories | split
    | with_reducible apply MemoriesOk.up

theorem tileOut_memories {s : State} (g : Nat) (c : Channel) (w1 : Word) (okm : MemoriesOk s) : MemoriesOk (s.tileOut g
    c w1) := by
  unfold State.tileOut
  repeat' first
    | with_reducible assumption | intro _ | with_reducible apply tell_memories
    | with_reducible apply failWait_memories | with_reducible apply uaAnswer_memories
    | with_reducible apply tile_keeps | with_reducible apply foldl_memories | split

theorem apertureLost_memories {s : State} (q : Packet) (g d1 : Nat) (okm : MemoriesOk s) : MemoriesOk (s.apertureLost q
    g d1) := by
  unfold State.apertureLost
  repeat' first
    | with_reducible assumption | intro _ | with_reducible apply report_memories | with_reducible apply foldl_memories
    | split

theorem resultLost_memories {s : State} (q : Packet) (g : Nat) (r : Option Author) (okm : MemoriesOk s) : MemoriesOk
    (s.resultLost q g r) := by
  unfold State.resultLost
  repeat' first
    | with_reducible assumption | intro _ | with_reducible apply report_memories | with_reducible apply foldl_memories
    | split

theorem apertureAnswer_memories {s t : State} {q : Packet} {r : UaAnswer} (ok : MemoriesOk s)
    (e : s.apertureAnswer q r = some t) : MemoriesOk t := by
  unfold State.apertureAnswer at e
  split at e <;> cases e
  · exact takeData_memories _ _ _ (dropPacket_memories _ ok)
  · exact takeLink_memories _ _ _ _ (dropPacket_memories _ ok)
  · exact dropPacket_memories _ ok
  · exact dropPacket_memories _ ok
  · exact apertureLost_memories _ _ _ (dropPacket_memories _ ok)
  · exact resultLost_memories _ _ _ (dropPacket_memories _ ok)

theorem messageTaken_memories {s : State} (c : Channel) (okm : MemoriesOk s) : MemoriesOk (s.messageTaken c) := by
  unfold State.messageTaken
  repeat' first
    | with_reducible assumption | intro _ | with_reducible apply putChan_memories | with_reducible apply tell_memories
    | with_reducible apply settle_memories | with_reducible apply tile_keeps | with_reducible apply foldl_memories
    | split

theorem beginScene_memories {s : State} (g : Nat) (pers : BitVec 2) (code map : Nat) (thread : Option Nat) (okm :
    MemoriesOk s) : MemoriesOk (s.beginScene g pers code map thread) := by
  unfold State.beginScene
  repeat' first | with_reducible assumption | intro _ | with_reducible apply modGroup_memories

theorem endAperture_memories {s : State} (g d1 : Nat) (ok : MemoriesOk s) : MemoriesOk (s.endAperture g d1) := by
  unfold State.endAperture
  refine foldl_memories _ ok fun t q h => ?_
  split
  · exact takeLink_memories _ _ _ _ (dropPacket_memories _ h)
  · exact resultLost_memories _ _ _ (dropPacket_memories _ h)
  · exact apertureLost_memories _ _ _ (dropPacket_memories _ h)

theorem endFlow_memories {s : State} (g : Nat) (f : Flow) (okm : MemoriesOk s) : MemoriesOk (s.endFlow g f) := by
  unfold State.endFlow
  repeat' first
    | with_reducible assumption | intro _ | with_reducible apply modGroup_memories
    | with_reducible apply endMessage_memories | with_reducible apply foldl_memories

theorem endOpen_memories {s : State} (g d1 : Nat) (ok : MemoriesOk s) : MemoriesOk (s.endOpen g d1) := by
  unfold State.endOpen
  extract_lets t u
  have h : MemoriesOk t := endAperture_memories _ _ ok
  have k : MemoriesOk u := h
  exact foldl_memories _ k fun t f => endFlow_memories _ _

theorem askLock_memories {s : State} (die : Nat) (u : LockUser) (okm : MemoriesOk s) : MemoriesOk (s.askLock die u) :=
    by
  unfold State.askLock
  repeat' first | with_reducible assumption | intro _ | with_reducible apply modDie_memories

theorem unbindServer_memories {s : State} (g : Nat) (okm : MemoriesOk s) : MemoriesOk (s.unbindServer g) := by
  unfold State.unbindServer
  repeat' first
    | with_reducible assumption | intro _ | with_reducible apply foldl_memories | split
    | with_reducible apply MemoriesOk.up

theorem unlock_memories {s : State} (die : Nat) (okm : MemoriesOk s) : MemoriesOk (s.unlock die) := by
  unfold State.unlock
  repeat' first | with_reducible assumption | intro _ | with_reducible apply modDie_memories

theorem linkup_memories {s : State} (g : Nat) (f : Group → Group) (okm : MemoriesOk s) : MemoriesOk (s.linkup g f) := by
  unfold State.linkup
  repeat' first
    | with_reducible assumption | intro _ | with_reducible apply modGroup_memories
    | with_reducible apply unlock_memories

theorem releaseEnds_memories {s : State} (g : Nat) (okm : MemoriesOk s) : MemoriesOk (s.releaseEnds g) := by
  unfold State.releaseEnds
  repeat' first
    | with_reducible assumption | intro _ | with_reducible apply putChan_memories
    | with_reducible apply settle_memories | with_reducible apply foldl_memories | split
    | with_reducible apply MemoriesOk.up

theorem endScene_memories {s : State} (g : Nat) (okm : MemoriesOk s) : MemoriesOk (s.endScene g) := by
  unfold State.endScene
  repeat' first
    | with_reducible assumption | intro _ | with_reducible apply modGroup_memories
    | with_reducible apply completeWhere_memories

theorem loseGroup_memories {s : State} (g : Nat) (ok : MemoriesOk s) : MemoriesOk (s.loseGroup g) := by
  unfold State.loseGroup
  extract_lets t u v
  have h : MemoriesOk t := MemoriesOk.up (endOpen_memories _ _ ok)
  have k : MemoriesOk v := modDie_memories _ _ (modGroup_memories _ _ h)
  exact endScene_memories _ (modOuter_memories _ _ k)

theorem askStep_memories {s : State} (die mhz : Nat) (okm : MemoriesOk s) : MemoriesOk (s.askStep die mhz) := by
  unfold State.askStep
  repeat' first
    | with_reducible assumption | intro _ | with_reducible apply modDie_memories
    | with_reducible apply askLock_memories | with_reducible apply foldl_memories | split
    | with_reducible apply MemoriesOk.up

theorem failHomes_memories {s : State} (a : Nat) (d1 : Word) (all : Bool) (mark : State → Nat → State) (hmark : ∀ (x0 :
    State) (x1 : Nat), MemoriesOk x0 → MemoriesOk (mark x0 x1)) (okm : MemoriesOk s) : MemoriesOk (s.failHomes a d1 all
    mark) := by
  unfold State.failHomes
  repeat' first
    | with_reducible assumption | intro _ | with_reducible apply failSync_memories | with_reducible apply amo_keeps
    | with_reducible apply hmark | with_reducible apply foldl_memories | split

theorem loseQueued_memories {s : State} (a : Nat) (q : Packet) (okm : MemoriesOk s) : MemoriesOk (s.loseQueued a q) :=
    by
  unfold State.loseQueued
  repeat' first
    | with_reducible assumption | intro _ | with_reducible apply answerOut_memories
    | with_reducible apply loseEngine_memories | with_reducible apply foldl_memories | split

theorem emptyHomes_memories {s : State} (a : Nat) (okm : MemoriesOk s) : MemoriesOk (s.emptyHomes a) := by
  unfold State.emptyHomes
  repeat' first
    | with_reducible assumption | intro _ | with_reducible apply loseQueued_memories
    | with_reducible apply foldl_memories | split | with_reducible apply MemoriesOk.up

theorem reanchor_memories {s : State} (p : Proc) (okm : MemoriesOk s) : MemoriesOk (s.reanchor p) := by
  unfold State.reanchor
  repeat' first
    | with_reducible assumption | intro _ | with_reducible apply putProc_memories
    | with_reducible apply settle_memories | with_reducible apply foldl_memories | split

theorem endTransfers_memories {s : State} (a : Nat) (okm : MemoriesOk s) : MemoriesOk (s.endTransfers a) := by
  unfold State.endTransfers
  repeat' first
    | with_reducible assumption | intro _ | with_reducible apply putProc_memories
    | with_reducible apply foldl_memories | split | with_reducible apply MemoriesOk.up

theorem settleAll_memories {s : State} (okm : MemoriesOk s) : MemoriesOk (s.settleAll) := by
  unfold State.settleAll
  repeat' first
    | with_reducible assumption | intro _ | with_reducible apply settle_memories | with_reducible apply foldl_memories

theorem losePacket_memories {s : State} (a : Nat) (q : Packet) (ok : MemoriesOk s) : MemoriesOk (s.losePacket a q) := by
  unfold State.losePacket
  extract_lets t
  have h : MemoriesOk t := by
    change MemoriesOk (if q.crossing = true then s.affect q.region _ else s)
    split
    · exact affect_memories _ _ ok
    · exact ok
  clear_value t
  have link (x : Word) (y : Nat) (z : Word) (r : ReplyTo) :
      MemoriesOk (({ t with free := t.free + 1 }.affect q.region id).takeLink x y z r) :=
    takeLink_memories _ _ _ _ (affect_memories _ _ (MemoriesOk.up h))
  repeat' first
    | exact h | exact link _ _ _ _ | with_reducible apply loseEngine_memories | with_reducible apply losePart_memories
    | with_reducible apply loseTold_memories | with_reducible apply uaAnswer_memories
    | with_reducible apply quitAt_memories | split

theorem loseProc_memories {s : State} (p : Proc) (okm : MemoriesOk s) : MemoriesOk (s.loseProc p) := by
  unfold State.loseProc
  repeat' first
    | with_reducible assumption | intro _ | with_reducible apply leaveRunning_memories
    | with_reducible apply withdrawLoans_memories | with_reducible apply quitHomes_memories
    | with_reducible apply dropLoads_memories | with_reducible apply done_keeps | with_reducible apply foldl_memories
    | split | with_reducible apply MemoriesOk.up

theorem failServerWaits_memories {s : State} (a : Nat) (okm : MemoriesOk s) : MemoriesOk (s.failServerWaits a) := by
  unfold State.failServerWaits
  repeat' first
    | with_reducible assumption | intro _ | with_reducible apply wake_memories | with_reducible apply foldl_memories
    | split | with_reducible apply MemoriesOk.up

theorem loseRecords_memories {s : State} (a : Nat) (okm : MemoriesOk s) : MemoriesOk (s.loseRecords a) := by
  unfold State.loseRecords
  repeat' first
    | with_reducible assumption | intro _ | with_reducible apply countLost_memories
    | with_reducible apply foldl_memories | split | with_reducible apply MemoriesOk.up

theorem loseServers_memories {s : State} (a : Nat) (okm : MemoriesOk s) : MemoriesOk (s.loseServers a) := by
  unfold State.loseServers
  repeat' first
    | with_reducible assumption | intro _ | with_reducible apply loseFront_memories
    | with_reducible apply losePart_memories | with_reducible apply foldl_memories

theorem removeDie_memories {s : State} (a : Nat) (ok : MemoriesOk s) : MemoriesOk (s.removeDie a) := by
  unfold State.removeDie
  extract_lets there t1 t2 t3 lost gone t4 t5 t6 t7 t8 t9 t10 t11 t12
  have h1 : MemoriesOk t1 := MemoriesOk.up ok
  have h2 : MemoriesOk t2 := foldl_memories _ h1 fun t p h => affect_memories _ _ h
  have h3 : MemoriesOk t3 := loseServers_memories _ h2
  have h4 : MemoriesOk t4 := MemoriesOk.up h3
  have h5 : MemoriesOk t5 := foldl_memories _ h4 fun t q h => losePacket_memories _ _ h
  have h6 : MemoriesOk t6 := failHomes_memories _ _ _ _ (fun t r h => affect_memories r id h) h5
  have h7 : MemoriesOk t7 := foldl_memories _ h6 fun t q h => loseProc_memories _ h
  have h8 : MemoriesOk t8 := endTransfers_memories _ (emptyHomes_memories _ h7)
  have h9 : MemoriesOk t9 := foldl_memories _ h8 fun t q h => reanchor_memories _ h
  have h10 : MemoriesOk t10 := loseGroup_memories _ (loseGroup_memories _ h9)
  have h11 : MemoriesOk t11 := loseRecords_memories _ (failServerWaits_memories _ h10)
  have h12 : MemoriesOk t12 := MemoriesOk.up h11
  exact settleAll_memories (modDie_memories _ _ h12)

theorem reportAffected_memories {s : State} (f : Affected) (okm : MemoriesOk s) : MemoriesOk (s.reportAffected f) := by
  unfold State.reportAffected
  repeat' first | with_reducible assumption | intro _ | with_reducible apply notifyManager_memories

theorem admitDie_memories {s : State} (a : Nat) (okm : MemoriesOk s) : MemoriesOk (s.admitDie a) := by
  unfold State.admitDie
  repeat' first
    | with_reducible assumption | intro _ | with_reducible apply foldl_memories | split
    | with_reducible apply MemoriesOk.up

theorem resetCores_memories {s : State} (a : Nat) (okm : MemoriesOk s) : MemoriesOk (s.resetCores a) := by
  unfold State.resetCores
  repeat' first
    | with_reducible assumption | intro _ | with_reducible apply foldl_memories | split
    | with_reducible apply MemoriesOk.up

theorem smBytes_memories {s : State} (owner region a fuel : Nat) (bs : List MByte) (ok : MemoriesOk s) :
    MemoriesOk (s.smBytes owner region a fuel bs) := by
  induction fuel generalizing s a bs with
  | zero => exact ok
  | succ fuel ih =>
    unfold State.smBytes
    split
    · exact ok
    · exact ih _ _ (engineWrite_memories _ _ _ _ _ ok)

theorem smWrite_memories {s : State} (owner region a : Nat) (bs : List MByte) (ok : MemoriesOk s) :
    MemoriesOk (s.smWrite owner region a bs) :=
  smBytes_memories _ _ _ _ _ ok

theorem imageWrite_memories {s : State} (owner region : Nat) (via : Option Nat) (a : Nat) (bs : List Byte)
    (ok : MemoriesOk s) : MemoriesOk (s.imageWrite owner region via a bs) := by
  unfold State.imageWrite
  split
  · exact smWrite_memories _ _ _ _ ok
  · exact stampAll_memories _ (MemoriesOk.up ok)

theorem setWindows_memories {s t : State} {r n : Nat} (ok : MemoriesOk s) (e : s.setWindows r n = .ok t) : MemoriesOk t
    := by
  unfold State.setWindows at e
  split at e <;> cases e
  exact modRegion_memories _ _ ok

theorem rootWindows_memories {s t : State} {n : Nat} (ok : MemoriesOk s) (e : s.rootWindows n = .ok t) : MemoriesOk t :=
    by
  unfold State.rootWindows at e
  split at e
  · cases e; exact ok
  · split at e
    · cases e; exact ok
    · split at e <;> cases e
      exact modRegion_memories _ _ ok

theorem rootSegments_memories {s : State} (region : Nat) (okm : MemoriesOk s) : MemoriesOk (s.rootSegments region) := by
  unfold State.rootSegments
  repeat' first
    | with_reducible assumption | intro _ | with_reducible apply modRegion_memories
    | with_reducible apply foldl_memories | split

theorem rootTables_memories {s t : State} {ns : List Nat} (ok : MemoriesOk s) (e : s.rootTables ns = .ok t) : MemoriesOk
    t := by
  induction ns generalizing s with
  | nil => cases e; exact ok
  | cons n ns ih =>
    unfold State.rootTables at e
    split at e
    · cases e
    · exact ih (rootWindows_memories (rootSegments_memories _ ok) (by assumption)) e

theorem dropCache_memories {s : State} (entry : Nat) (okm : MemoriesOk s) : MemoriesOk (s.dropCache entry) := by
  unfold State.dropCache
  repeat' first
    | with_reducible assumption | intro _ | with_reducible apply foldl_memories | split
    | with_reducible apply MemoriesOk.up

theorem dropStale_memories {s : State} (okm : MemoriesOk s) : MemoriesOk (s.dropStale) := by
  unfold State.dropStale
  repeat' first
    | with_reducible assumption | intro _ | with_reducible apply foldl_memories | split
    | with_reducible apply MemoriesOk.up

theorem putPages_memories {s : State} (owner region : Nat) (g : Segment) (l : List (Nat × Nat)) (ok : MemoriesOk s) :
    MemoriesOk (s.putPages owner region g l) := by
  induction l generalizing s with
  | nil => exact ok
  | cons x l ih => unfold State.putPages; exact ih (smWrite_memories _ _ _ _ ok)

theorem pin_memories {s t : State} {owner r seg n : Nat} (ok : MemoriesOk s) (e : s.pin owner r seg n = .ok t) :
    MemoriesOk t := by
  unfold State.pin at e
  split at e
  · cases e
  · dsimp only at e
    split at e
    · split at e
      · cases e
      · split at e <;> cases e
        exact dropCache_memories _ (putPages_memories _ _ _ _ ok)
    · split at e
      · cases e
      · split at e <;> cases e
        exact dropCache_memories _ (putPages_memories _ _ _ _ ok)

theorem unpin_memories {s t : State} {owner r seg : Nat} (ok : MemoriesOk s) (e : s.unpin owner r seg = .ok t) :
    MemoriesOk t := by
  unfold State.unpin at e
  split at e <;> cases e
  exact dropCache_memories _ (putPages_memories _ _ _ _ ok)

theorem takeLoft_memories {s t : State} {slot n a : Nat} (ok : MemoriesOk s) (e : s.takeLoft slot n = some (a, t)) :
    MemoriesOk t := by
  obtain ⟨_, _, k⟩ := Option.map_eq_some_iff.1 e
  cases k
  exact ok

theorem putBook_memories {s : State} (b : Book) (okm : MemoriesOk s) : MemoriesOk (s.putBook b) := by
  unfold State.putBook
  repeat' first
    | with_reducible assumption | intro _ | with_reducible apply foldl_memories | split
    | with_reducible apply MemoriesOk.up

theorem makeSegTable_memories {s t : State} {owner slot r a : Nat} {l : List BookSeg} (ok : MemoriesOk s)
    (e : s.makeSegTable owner slot r l = .ok (a, t)) : MemoriesOk t := by
  unfold State.makeSegTable at e
  dsimp only at e
  split at e <;> cases e
  exact foldl_memories _ (smWrite_memories _ _ _ _ (smWrite_memories _ _ _ _ (takeLoft_memories ok (by assumption))))
    fun t k h => dropCache_memories _ h

theorem makeChanTable_memories {s t : State} {slot n a : Nat} (ok : MemoriesOk s) (e : s.makeChanTable slot n = .ok (a,
    t)) :
    MemoriesOk t := by
  unfold State.makeChanTable at e
  split at e <;> cases e
  exact takeLoft_memories ok (by assumption)

theorem ifTable_memories {b : Bool} {f : Except Fail (Nat × State)} {s t : State} {a : Nat} (ok : MemoriesOk s)
    (hf : ∀ x, f = .ok x → MemoriesOk x.2) (e : (if b = true then f else .ok (0, s)) = .ok (a, t)) : MemoriesOk t := by
  split at e
  · exact hf _ e
  · cases e; exact ok

theorem makeRegion_memories {s t : State} {owner slot under i : Nat} {b : List Byte} {r : BookRegion} {l k : List (Nat ×
    Nat)}
    (ok : MemoriesOk s) (e : s.makeRegion owner b slot under i r l = .ok (t, k)) : MemoriesOk t := by
  unfold State.makeRegion at e
  extract_lets parent depth num at e
  split at e
  · cases e
  · split at e
    · cases e
    · next h =>
      have hs := ifTable_memories ok (fun _ => makeSegTable_memories ok) h
      clear_value parent depth num
      split at e
      · cases e
      · next hk =>
        have hc := ifTable_memories hs (fun _ => makeChanTable_memories hs) hk
        obtain ⟨rfl, -⟩ := Prod.mk.inj (Except.ok.inj e)
        exact MemoriesOk.up hc

theorem makeRegions_memories {s t : State} {owner slot under : Nat} {b : List Byte} {rs : List (BookRegion × Nat)}
{l k : List (Nat × Nat)} (ok : MemoriesOk s) (e : s.makeRegions owner b slot under rs l = .ok (t, k)) : MemoriesOk t :=
    by
  induction rs generalizing s l with
  | nil => unfold State.makeRegions at e; cases e; exact ok
  | cons r rs ih =>
    unfold State.makeRegions at e
    split at e
    · cases e
    · exact ih (makeRegion_memories ok (by assumption)) e

theorem holdEndpoints_memories {s : State} (b : List Byte) (regions : List (Nat × Nat)) (okm : MemoriesOk s) :
    MemoriesOk (s.holdEndpoints b regions) := by
  unfold State.holdEndpoints
  repeat' first
    | with_reducible assumption | intro _ | with_reducible apply modChan_memories
    | with_reducible apply foldl_memories | split

theorem makeEnd_memories {s t : State} {b : List Byte} {x : EndSpec} {i : Option Nat} {n : Nat} {p : Option (Proc ×
    Image)}
    (ok : MemoriesOk s) (e : s.makeEnd b x i n p = .ok t) : MemoriesOk t := by
  unfold State.makeEnd at e
  split at e
  · cases e
  · cases e
  · dsimp only at e
    split at e <;> cases e
    exact MemoriesOk.up ok

theorem queueEnd_memories {s t : State} {x : EndSpec} {n : Nat} (ok : MemoriesOk s) (e : s.queueEnd x n = .ok t) :
    MemoriesOk t := by
  unfold State.queueEnd at e
  split at e
  · cases e
  · split at e
    · cases e
    · split at e <;> cases e
      exact makeEnd_memories ok (by assumption)

theorem addInsts_memories {s : State} (roles : List BookRole) (thread : Nat) (ns : List NewInst) (okm : MemoriesOk s) :
    MemoriesOk (s.addInsts roles thread ns) := by
  unfold State.addInsts
  repeat' first
    | with_reducible assumption | intro _ | with_reducible apply foldl_memories | split
    | with_reducible apply MemoriesOk.up

theorem bindInst_memories {s : State} (b : List Byte) (regions : List (Nat × Nat)) (n : NewInst) (okm : MemoriesOk s) :
    MemoriesOk (s.bindInst b regions n) := by
  unfold State.bindInst
  repeat' first
    | with_reducible assumption | intro _ | with_reducible apply modChan_memories
    | with_reducible apply bindTo_memories | with_reducible apply foldl_memories | split

theorem setParks_memories {s t u : State} {cs : List Nat} (ok : MemoriesOk s) (e : s.setParks u cs = .ok t) : MemoriesOk
    t := by
  induction cs generalizing s with
  | nil => unfold State.setParks at e; cases e; exact ok
  | cons c cs ih =>
    unfold State.setParks at e
    dsimp only at e
    split at e <;> split at e
    · cases e
    · exact ih (modCore_memories _ _ ok) e
    · cases e
    · exact ih ok e

theorem placeText_memories {s : State} (owner : Nat) (via : Option Nat) (b : List Byte) (slot : Nat) (n : NewInst) (r :
    BookRole) (okm : MemoriesOk s) : MemoriesOk (s.placeText owner via b slot n r) := by
  unfold State.placeText
  repeat' first
    | with_reducible assumption | intro _ | with_reducible apply imageWrite_memories
    | with_reducible apply foldl_memories | split | with_reducible apply MemoriesOk.up

theorem placeData_memories {s : State} (owner : Nat) (via : Option Nat) (b : List Byte) (slot : Nat) (n : NewInst) (r :
    BookRole) (okm : MemoriesOk s) : MemoriesOk (s.placeData owner via b slot n r) := by
  unfold State.placeData
  repeat' first
    | with_reducible assumption | intro _ | with_reducible apply modProc_memories
    | with_reducible apply block_memories | with_reducible apply imageWrite_memories
    | with_reducible apply foldl_memories | split | with_reducible apply MemoriesOk.up

theorem placeRegion_memories {s : State} (owner : Nat) (via : Option Nat) (b : List Byte) (slot : Nat)
    (roles : List BookRole) (ns : List NewInst) (ok : MemoriesOk s) :
    MemoriesOk (s.placeRegion owner via b slot roles ns) := by
  unfold State.placeRegion
  refine foldl_memories _ (foldl_memories _ ok fun t n h => ?_) fun t n h => ?_
  · split
    · exact placeText_memories _ _ _ _ _ _ h
    · exact h
  · split
    · exact placeData_memories _ _ _ _ _ _ h
    · exact h

theorem placeCore_memories {s t : State} {owner slot c : Nat} {b : List Byte} {rs : List BookRole} {ns : List NewInst}
    {via : Option Nat} (ok : MemoriesOk s) (e : s.placeCore owner b slot rs ns via c = .ok t) : MemoriesOk t := by
  unfold State.placeCore at e
  dsimp only at e
  split at e <;> cases e
  exact foldl_memories _ ok fun t g h => reloadWins_memories _ _ (placeRegion_memories _ _ _ _ _ _ h)

theorem loadTree_memories {s t : State} {place : State → Option Nat → Nat → Except Fail State} {l : List Nat}
    {fan n : Nat} {ks : List Nat} (hp : ∀ s t v c, MemoriesOk s → place s v c = .ok t → MemoriesOk t)
    (ok : MemoriesOk s) (e : s.loadTree place l fan n ks = .ok t) : MemoriesOk t := by
  induction n generalizing s ks with
  | zero => unfold State.loadTree at e; cases e; exact ok
  | succ n ih =>
    cases ks with
    | nil => unfold State.loadTree at e; cases e; exact ok
    | cons k ks =>
      unfold State.loadTree at e
      split at e
      · exact ih ok e
      · split at e
        · cases e
        · exact ih (hp _ _ _ _ ok (by assumption)) e

theorem loadCluster_memories {s t : State} {place : State → Option Nat → Nat → Except Fail State} {b : List Byte}
    {cores : List Nat} {d k : Nat} (hp : ∀ s t v c, MemoriesOk s → place s v c = .ok t → MemoriesOk t)
    (ok : MemoriesOk s) (e : s.loadCluster b place cores d k = .ok t) : MemoriesOk t :=
  loadTree_memories hp ok e

theorem placeCores_memories {s t : State} {owner slot : Nat} {b : List Byte} {rs : List BookRole} {ns : List NewInst}
    {cores : List Nat} {cs : List (Nat × Nat)} (ok : MemoriesOk s)
    (e : s.placeCores owner b slot rs ns cores cs = .ok t) : MemoriesOk t := by
  induction cs generalizing s with
  | nil => unfold State.placeCores at e; cases e; exact ok
  | cons c cs ih =>
    unfold State.placeCores at e
    split at e
    · cases e
    · exact ih (loadCluster_memories (fun _ _ _ _ => placeCore_memories) ok (by assumption)) e

theorem launchChecks_memories {s t : State} {l : List (Nat × Nat)} {ns : List NewInst} {cores : List Nat} (ok :
    MemoriesOk s)
    (e : s.launchChecks l ns cores = .ok t) : MemoriesOk t := by
  unfold State.launchChecks at e
  split at e
  · cases e
  · split at e <;> cases e
    exact rootTables_memories ok (by assumption)

theorem bookCommand_memories {s t : State} {owner th : Nat} {b : List Byte} {l : List (Nat × Nat)} {ns : List NewInst}
    {i : CmdItem} (ok : MemoriesOk s) (e : s.bookCommand owner b th l ns i = .ok t) : MemoriesOk t := by
  unfold State.bookCommand at e
  dsimp only at e
  repeat' split at e
  all_goals first
    | exact pin_memories ok e
    | exact setWindows_memories ok e
    | exact makeEnd_memories ok e
    | cases e

theorem raiseAll_memories {s : State} (h : ItemHdr) (l : List Raise) (okm : MemoriesOk s) : MemoriesOk (s.raiseAll h l)
    := by
  unfold State.raiseAll
  repeat' first
    | with_reducible assumption | intro _ | with_reducible apply semAdd_memories | with_reducible apply foldl_memories

theorem bookCommands_memories {s t : State} {owner a : Nat} {b : List Byte} {h : ItemHdr} {l : List (Nat × Nat)}
    {ns : List NewInst} {is : List (Nat × CmdItem)} {late rs : List Raise} (ok : MemoriesOk s)
    (e : s.bookCommands owner b h a l ns is late = .ok (t, rs)) : MemoriesOk t := by
  induction is generalizing s late with
  | nil => unfold State.bookCommands at e; cases e; exact ok
  | cons i is ih =>
    unfold State.bookCommands at e
    split at e
    · cases e
    · split at e
      · cases e
      · dsimp only at e
        split at e
        · exact ih (raiseAll_memories _ _ (bookCommand_memories ok (by assumption))) e
        · exact ih (bookCommand_memories ok (by assumption)) e

theorem addPlacements_memories {s : State} (owner th : Nat) (gs : List (List NewInst)) (ids : List Nat) (ok : MemoriesOk
    s) :
    MemoriesOk (s.addPlacements owner th gs ids).1 := by
  induction gs generalizing s ids with
  | nil => unfold State.addPlacements; exact ok
  | cons g gs ih => unfold State.addPlacements; exact ih _ (MemoriesOk.up ok)

theorem bookRegions_memories {s t : State} {owner under : Nat} {k : Book} {b : List Byte} {l : List (Nat × Nat)} (ok :
    MemoriesOk s)
    (e : s.bookRegions owner k b under = .ok (t, l)) : MemoriesOk t := by
  unfold State.bookRegions at e
  split at e
  · split at e <;> cases e
    exact holdEndpoints_memories _ _ (makeRegions_memories ok (by assumption))
  · cases e; exact ok

theorem makeInsts_memories {s t u : State} {owner : Nat} {h : ItemHdr} {k : Book} {b : List Byte} {l : List (Nat × Nat)}
    {ns : List NewInst} {cores : List Nat} (ok : MemoriesOk s) (e : s.makeInsts u owner h k b l ns cores = .ok t) :
    MemoriesOk t := by
  unfold State.makeInsts at e
  dsimp only at e
  split at e
  · cases e
  · exact placeCores_memories (setParks_memories (foldl_memories _ (addInsts_memories _ _ _ ok) fun t n =>
      bindInst_memories _ _ _) (by assumption)) e

theorem prepare_memories {s t : State} {h : ItemHdr} {k : Book} {b : List Byte} {role : Nat}
    {x : List NewInst × Nat × List Raise} (ok : MemoriesOk s) (e : s.prepare h k b role = .ok (t, x)) :
    MemoriesOk t := by
  unfold State.prepare at e
  dsimp only [State.freshId] at e
  split at e
  · cases e
  · split at e
    · cases e
    · split at e
      · cases e
      · next _ hr =>
        have h1 := bookRegions_memories (MemoriesOk.up ok) hr
        split at e
        · cases e
        · next _ hm =>
          split at e
          · cases e
          · next _ hb =>
            have h3 := bookCommands_memories (putBook_memories _ (makeInsts_memories h1 hm)) hb
            split at e <;> cases e
            exact launchChecks_memories h3 (by assumption)

theorem tryAll_memories {s : State} (ids : List Nat) (okm : MemoriesOk s) : MemoriesOk (s.tryAll ids) := by
  unfold State.tryAll
  repeat' first
    | with_reducible assumption | intro _ | with_reducible apply tryPlacement_memories
    | with_reducible apply foldl_memories | split

theorem launch_memories {s : State} (h : ItemHdr) (k : Book) (role : Nat) (wait : Bool) (ok : MemoriesOk s) :
    MemoriesOk (s.launch h k role wait) := by
  unfold State.launch
  dsimp only
  split
  · exact failCmd_memories _ _ _ ok
  · exact tryAll_memories _ (setCur_memories _ _ (addPlacements_memories _ _ _ _ (prepare_memories ok (by assumption))))

theorem appendItems_memories {s : State} (l : List (Nat × Nat)) (okm : MemoriesOk s) : MemoriesOk (s.appendItems l) :=
    by
  unfold State.appendItems
  repeat' first
    | with_reducible assumption | intro _ | with_reducible apply modThread_memories
    | with_reducible apply foldl_memories

theorem freeSlot_memories {s : State} (k : Book) (okm : MemoriesOk s) : MemoriesOk (s.freeSlot k) := by
  unfold State.freeSlot
  repeat' first
    | with_reducible assumption | intro _ | with_reducible apply foldl_memories | split
    | with_reducible apply MemoriesOk.up

theorem endBook_memories {s : State} (k : Book) (okm : MemoriesOk s) : MemoriesOk (s.endBook k) := by
  unfold State.endBook
  repeat' first
    | with_reducible assumption | intro _ | with_reducible apply endRegion_memories
    | with_reducible apply freeSlot_memories | with_reducible apply foldl_memories

theorem withItem_keeps {s : State} (op : Nat) (k : ItemHdr → Word → Word → Word → Out) (hk : ∀ (x0 : ItemHdr) (x1 :
    Word) (x2 : Word) (x3 : Word), OutOk (k x0 x1 x2 x3)) (okm : MemoriesOk s) : OutOk (s.withItem op k) := by
  unfold State.withItem
  repeat' first
    | with_reducible assumption | intro _ | with_reducible apply failCmd_memories | with_reducible apply hk
    | with_reducible apply OutOk.next | with_reducible apply OutOk.fault | with_reducible apply OutOk.refused
    | with_reducible apply foldl_memories | split

theorem illegal_keeps {s : State} (h : ItemHdr) (op k : Nat) (okm : MemoriesOk s) : OutOk (s.illegal h op k) := by
  unfold State.illegal
  repeat' first
    | with_reducible assumption | intro _ | with_reducible apply failCmd_memories | with_reducible apply OutOk.next

theorem denied_keeps {s : State} (h : ItemHdr) (op : Nat) (okm : MemoriesOk s) : OutOk (s.denied h op) := by
  unfold State.denied
  repeat' first
    | with_reducible assumption | intro _ | with_reducible apply failCmd_memories | with_reducible apply OutOk.next

theorem ending_keeps {s : State} (h : ItemHdr) (op : Nat) (r : Except Fail State) (hr : ∀ t, r = .ok t → MemoriesOk t)
    (okm : MemoriesOk s) : OutOk (s.ending h op r) := by
  unfold State.ending
  split
  · exact OutOk.next (completeItem_memories _ _ (hr _ rfl))
  · exact OutOk.next (failCmd_memories _ _ _ okm)

theorem endingWrites_keeps {s : State} (h : ItemHdr) (op : Nat) (f : State → Nat → Except Fail State)
(hf : ∀ t u n, MemoriesOk t → f t n = .ok u → MemoriesOk u) (okm : MemoriesOk s) : OutOk (s.endingWrites h op f) := by
  unfold State.endingWrites
  dsimp only [State.freshId]
  split
  · next e =>
    have k := hf _ _ _ (MemoriesOk.up okm) e
    split
    · exact OutOk.next (setCur_memories _ _ k)
    · exact OutOk.next (completeItem_memories _ _ k)
  · exact OutOk.next (failCmd_memories _ _ _ okm)

theorem notResident_keeps {s : State} (h : ItemHdr) (op : Nat) (k : Out) (hk : OutOk k) (okm : MemoriesOk s) : OutOk
    (s.notResident h op k) := by
  unfold State.notResident
  repeat' first
    | with_reducible assumption | intro _ | with_reducible apply failCmd_memories | with_reducible apply illegal_keeps
    | with_reducible apply OutOk.next | with_reducible apply OutOk.fault | with_reducible apply OutOk.refused
    | with_reducible apply foldl_memories | split

theorem writeParts_memories {s : State} (g : Segment) (l : List (Nat × Nat)) (bs : List MByte) (ok : MemoriesOk s) :
    MemoriesOk (s.writeParts g l bs) := by
  induction l generalizing s bs with
  | nil => unfold State.writeParts; exact ok
  | cons x l ih => unfold State.writeParts; exact ih _ (segWrite_memories _ _ _ ok)

theorem writePlace_memories {s : State} (owner region : Nat) (p : Place) (i : Nat) (bs : List MByte)
    (ok : MemoriesOk s) : MemoriesOk (s.writePlace owner region p i bs) := by
  unfold State.writePlace
  split
  · exact hostWrite_memories _ _ _ ok
  · exact smWrite_memories _ _ _ _ ok
  · exact writeParts_memories _ _ _ ok

theorem keepBook_memories {s t : State} {owner region slot : Nat} {b : List Byte} (ok : MemoriesOk s)
    (e : s.keepBook owner region slot b = .ok t) : MemoriesOk t := by
  unfold State.keepBook at e
  split at e <;> cases e
  exact MemoriesOk.up (smWrite_memories _ _ _ _ (takeLoft_memories ok (by assumption)))

theorem withSem_keeps {s : State} (h : ItemHdr) (op : Nat) (a0 : Word) (k : Out) (hk : OutOk k) (okm : MemoriesOk s) :
    OutOk (s.withSem h op a0 k) := by
  unfold State.withSem
  repeat' first
    | with_reducible assumption | intro _ | with_reducible apply illegal_keeps | with_reducible apply denied_keeps
    | with_reducible apply OutOk.next | with_reducible apply OutOk.fault | with_reducible apply OutOk.refused
    | with_reducible apply foldl_memories | split

theorem copyWords_memories {s : State} (owner region : Nat) (src dst : Place) (i n : Nat) (ok : MemoriesOk s) :
    MemoriesOk (s.copyWords owner region src dst i n) := by
  induction n generalizing s i with
  | zero => exact ok
  | succ n ih => unfold State.copyWords; exact ih _ (writePlace_memories _ _ _ _ _ ok)

theorem withRegion_keeps {s : State} (h : ItemHdr) (op : Nat) (a : Nat) (k : Nat → Out) (hk : ∀ (x0 : Nat), OutOk (k
    x0)) (okm : MemoriesOk s) : OutOk (s.withRegion h op a k) := by
  unfold State.withRegion
  repeat' first
    | with_reducible assumption | intro _ | with_reducible apply denied_keeps | with_reducible apply hk
    | with_reducible apply OutOk.next | with_reducible apply OutOk.fault | with_reducible apply OutOk.refused
    | with_reducible apply foldl_memories | split | with_reducible apply MemoriesOk.up | dsimp only

theorem jumpItem_keeps {s : State} (h : ItemHdr) (op : Nat) (delta : Int) (k : State → State) (hk : ∀ (x0 : State),
    MemoriesOk x0 → MemoriesOk (k x0)) (okm : MemoriesOk s) : OutOk (s.jumpItem h op delta k) := by
  unfold State.jumpItem
  repeat' first
    | with_reducible assumption | intro _ | with_reducible apply modThread_memories
    | with_reducible apply completeItem_memories | with_reducible apply illegal_keeps | with_reducible apply hk
    | with_reducible apply OutOk.next | with_reducible apply OutOk.fault | with_reducible apply OutOk.refused
    | with_reducible apply foldl_memories | split | with_reducible apply MemoriesOk.up | dsimp only

theorem setPending_memories {s : State} (k n : Nat) (okm : MemoriesOk s) : MemoriesOk (s.setPending k n) := by
  unfold State.setPending
  repeat' first
    | with_reducible assumption | intro _ | with_reducible apply foldl_memories | split
    | with_reducible apply MemoriesOk.up

theorem beginRun_memories {s : State} (t : Thread) (g : Trigger) (okm : MemoriesOk s) : MemoriesOk (s.beginRun t g) :=
    by
  unfold State.beginRun
  repeat' first
    | with_reducible assumption | intro _ | with_reducible apply putThread_memories
    | with_reducible apply foldl_memories | split

theorem endRun_memories {s : State} (t : Thread) (r : SubRun) (okm : MemoriesOk s) : MemoriesOk (s.endRun t r) := by
  unfold State.endRun
  repeat' first
    | with_reducible assumption | intro _ | with_reducible apply putThread_memories
    | with_reducible apply setPending_memories | with_reducible apply foldl_memories | split
    | with_reducible apply MemoriesOk.up

theorem thread0_keeps {s : State} (h : ItemHdr) (op : Nat) (k : Out) (hk : OutOk k) (okm : MemoriesOk s) : OutOk
    (s.thread0 h op k) := by
  unfold State.thread0
  repeat' first
    | with_reducible assumption | intro _ | with_reducible apply denied_keeps | with_reducible apply notResident_keeps
    | with_reducible apply OutOk.next | with_reducible apply OutOk.fault | with_reducible apply OutOk.refused
    | with_reducible apply foldl_memories | split

theorem register_memories {s : State} (g i base len : Nat) (rw rr : Bool) (okm : MemoriesOk s) : MemoriesOk (s.register
    g i base len rw rr) := by
  unfold State.register
  repeat' first | with_reducible assumption | intro _ | with_reducible apply modGroup_memories

theorem mkeyRegister_keeps {s : State} (h : ItemHdr) (g i : Nat) (a1 a2 : Word) (okm : MemoriesOk s) :
    OutOk (s.mkeyRegister h g i a1 a2) := by
  have fails (e : Fail) : OutOk (.next (s.failCmd h 0x13 e)) := OutOk.next (failCmd_memories _ _ _ okm)
  have wrong (k : Nat) : OutOk (s.illegal h 0x13 k) := illegal_keeps _ _ _ okm
  unfold State.mkeyRegister
  dsimp only
  split
  · exact wrong _
  · split
    · exact wrong _
    · split
      · exact fails _
      · split
        · exact fails _
        · split
          · exact fails _
          · split
            · refine ending_keeps _ _ _ (fun t e => ?_) okm
              cases e
              exact register_memories _ _ _ _ _ _ okm
            · exact OutOk.next (setCur_memories _ _ okm)

theorem itemAction_memories {s t : State} {f : FetchedItem} (ok : MemoriesOk s) (e : s.itemAction f = .error t) :
    MemoriesOk t := by
  unfold State.itemAction at e
  split at e
  · cases e
    exact failCmd_memories _ _ _ ok
  · split at e <;> cases e
    exact failCmd_memories _ _ _ ok

theorem haltAll_memories {s : State} (okm : MemoriesOk s) : MemoriesOk (s.haltAll) := by
  unfold State.haltAll
  repeat' first
    | with_reducible assumption | intro _ | with_reducible apply stopRunning_memories
    | with_reducible apply foldl_memories

theorem managerHalt_memories {s : State} (c : Nat) (okm : MemoriesOk s) : MemoriesOk (s.managerHalt c) := by
  unfold State.managerHalt
  repeat' first
    | with_reducible assumption | intro _ | with_reducible apply askHalt_memories
    | with_reducible apply foldl_memories | split

theorem memError_memories {s : State} (a : Nat) (hbm : Bool) (okm : MemoriesOk s) : MemoriesOk (s.memError a hbm) := by
  unfold State.memError
  repeat' first
    | with_reducible assumption | intro _ | with_reducible apply foldl_memories | split
    | with_reducible apply MemoriesOk.up

theorem setHostQueue_memories {s : State} (f n base entries : Nat) (okm : MemoriesOk s) : MemoriesOk (s.setHostQueue f n
    base entries) := by
  unfold State.setHostQueue
  repeat' first
    | with_reducible assumption | intro _ | with_reducible apply foldl_memories | split
    | with_reducible apply MemoriesOk.up

theorem hostTail_memories {s : State} (f n tail : Nat) (okm : MemoriesOk s) : MemoriesOk (s.hostTail f n tail) := by
  unfold State.hostTail
  repeat' first
    | with_reducible assumption | intro _ | with_reducible apply foldl_memories | split
    | with_reducible apply MemoriesOk.up

theorem setInbound_memories {s : State} (g : Nat) (ws : List WinEntry) (okm : MemoriesOk s) : MemoriesOk (s.setInbound g
    ws) := by
  unfold State.setInbound
  repeat' first | with_reducible assumption | intro _ | with_reducible apply modGroup_memories

theorem joinPeer_memories {s : State} (t n g pkg : Nat) (tx : Bool) (okm : MemoriesOk s) : MemoriesOk (s.joinPeer t n g
    pkg tx) := by
  unfold State.joinPeer
  repeat' first | with_reducible assumption | intro _ | with_reducible apply modChan_memories

end Sys2Proof.Machine
end

