-- ==== Sys2Proof/Laws/PerInstr.lean ====
section
/-! SUPPORT. The family RoundTrip of statements made per instruction: decoding the code of a well-formed instruction
  gives
it back. A row without bits has no code. -/

namespace Sys2Proof.Laws.RoundTrip

set_option linter.unusedSimpArgs false
set_option Elab.async false

/-- The bytes of the code of a well-formed instruction decode to it, with their number as its length. -/
def Statement (i : Instr) : Prop := i.wf = true → ∀ c, encode i = some c → decode c.bytes = .instr i c.len

theorem of_word {i : Instr} {w : BitVec 32} (he : encode i = some (.word w)) (hb : w.getLsbD 0 = true)
    (h : i.wf = true → decodeWord w = .ok i) : Statement i := by
  intro hw c hc
  rw [he] at hc
  cases hc
  exact decode_word hb (h hw)

theorem of_half {i : Instr} {w : BitVec 16} (he : encode i = some (.half w)) (hb : w.getLsbD 0 = false)
    (h : i.wf = true → decodeHalf w = .ok i) : Statement i := by
  intro hw c hc
  rw [he] at hc
  cases hc
  exact decode_half hb (h hw)

theorem of_none {i : Instr} (he : encode i = none) : Statement i := by
  intro _ c hc
  rw [he] at hc
  cases hc

theorem dec25_of {n : Nat} (h : n < 24) (m : PIdx) (d a : VIdx) :
    decodeWord (mkVvv 0x25 n m 0 a d) = (if n < 3 then .ok (.vredsum (RedT.ofCode n) m d a)
      else if n < 6 then .ok (.vredmax (RedT.ofCode (n - 3)) m d a)
      else if n < 9 then .ok (.vredmin (RedT.ofCode (n - 6)) m d a)
      else if n < 12 then .ok (.vredsum (.i (ElW.ofCode (n - 9))) m d a)
      else if n < 15 then .ok (.vredmax (.i (ElW.ofCode (n - 12))) m d a)
      else if n < 18 then .ok (.vredmax (.u (ElW.ofCode (n - 15))) m d a)
      else if n < 21 then .ok (.vredmin (.i (ElW.ofCode (n - 18))) m d a)
      else .ok (.vredmin (.u (ElW.ofCode (n - 21))) m d a)) := by
  have hn : (BitVec.ofNat 7 n).toNat = n := by simp only [BitVec.toNat_ofNat]; omega
  refine (word25 (fMaj_mkV ..)).trans ?_
  simp only [dec25, mkVvv, fFn7_mkV, hn, fM_mkV, vv0, fB_mkV,
    fD_mkV, fA_mkV, vreg_setWidth, zeros, h, if_true]
  rfl

theorem add (d a b : XIdx) : Statement (.add d a b) :=
  of_word rfl (mkR_odd ..) fun hw => by
    refine (word01 (fMaj_mkR ..)).trans ?_
    simp_all [dec01, zeros, limit, vvv, vv0, vx0, vxx, vvx, pvv, pairf, tileFn, fFmt, Instr.wf]

theorem sub (d a b : XIdx) : Statement (.sub d a b) :=
  of_word rfl (mkR_odd ..) fun hw => by
    refine (word01 (fMaj_mkR ..)).trans ?_
    simp_all [dec01, zeros, limit, vvv, vv0, vx0, vxx, vvx, pvv, pairf, tileFn, fFmt, Instr.wf]

theorem and (d a b : XIdx) : Statement (.and d a b) :=
  of_word rfl (mkR_odd ..) fun hw => by
    refine (word01 (fMaj_mkR ..)).trans ?_
    simp_all [dec01, zeros, limit, vvv, vv0, vx0, vxx, vvx, pvv, pairf, tileFn, fFmt, Instr.wf]

theorem or (d a b : XIdx) : Statement (.or d a b) :=
  of_word rfl (mkR_odd ..) fun hw => by
    refine (word01 (fMaj_mkR ..)).trans ?_
    simp_all [dec01, zeros, limit, vvv, vv0, vx0, vxx, vvx, pvv, pairf, tileFn, fFmt, Instr.wf]

theorem xor (d a b : XIdx) : Statement (.xor d a b) :=
  of_word rfl (mkR_odd ..) fun hw => by
    refine (word01 (fMaj_mkR ..)).trans ?_
    simp_all [dec01, zeros, limit, vvv, vv0, vx0, vxx, vvx, pvv, pairf, tileFn, fFmt, Instr.wf]

theorem andn (d a b : XIdx) : Statement (.andn d a b) :=
  of_word rfl (mkR_odd ..) fun hw => by
    refine (word01 (fMaj_mkR ..)).trans ?_
    simp_all [dec01, zeros, limit, vvv, vv0, vx0, vxx, vvx, pvv, pairf, tileFn, fFmt, Instr.wf]

theorem sll (d a b : XIdx) : Statement (.sll d a b) :=
  of_word rfl (mkR_odd ..) fun hw => by
    refine (word01 (fMaj_mkR ..)).trans ?_
    simp_all [dec01, zeros, limit, vvv, vv0, vx0, vxx, vvx, pvv, pairf, tileFn, fFmt, Instr.wf]

theorem srl (d a b : XIdx) : Statement (.srl d a b) :=
  of_word rfl (mkR_odd ..) fun hw => by
    refine (word01 (fMaj_mkR ..)).trans ?_
    simp_all [dec01, zeros, limit, vvv, vv0, vx0, vxx, vvx, pvv, pairf, tileFn, fFmt, Instr.wf]

theorem sra (d a b : XIdx) : Statement (.sra d a b) :=
  of_word rfl (mkR_odd ..) fun hw => by
    refine (word01 (fMaj_mkR ..)).trans ?_
    simp_all [dec01, zeros, limit, vvv, vv0, vx0, vxx, vvx, pvv, pairf, tileFn, fFmt, Instr.wf]

theorem ror (d a b : XIdx) : Statement (.ror d a b) :=
  of_word rfl (mkR_odd ..) fun hw => by
    refine (word01 (fMaj_mkR ..)).trans ?_
    simp_all [dec01, zeros, limit, vvv, vv0, vx0, vxx, vvx, pvv, pairf, tileFn, fFmt, Instr.wf]

theorem slt (d a b : XIdx) : Statement (.slt d a b) :=
  of_word rfl (mkR_odd ..) fun hw => by
    refine (word01 (fMaj_mkR ..)).trans ?_
    simp_all [dec01, zeros, limit, vvv, vv0, vx0, vxx, vvx, pvv, pairf, tileFn, fFmt, Instr.wf]

theorem sltu (d a b : XIdx) : Statement (.sltu d a b) :=
  of_word rfl (mkR_odd ..) fun hw => by
    refine (word01 (fMaj_mkR ..)).trans ?_
    simp_all [dec01, zeros, limit, vvv, vv0, vx0, vxx, vvx, pvv, pairf, tileFn, fFmt, Instr.wf]

theorem min (d a b : XIdx) : Statement (.min d a b) :=
  of_word rfl (mkR_odd ..) fun hw => by
    refine (word01 (fMaj_mkR ..)).trans ?_
    simp_all [dec01, zeros, limit, vvv, vv0, vx0, vxx, vvx, pvv, pairf, tileFn, fFmt, Instr.wf]

theorem max (d a b : XIdx) : Statement (.max d a b) :=
  of_word rfl (mkR_odd ..) fun hw => by
    refine (word01 (fMaj_mkR ..)).trans ?_
    simp_all [dec01, zeros, limit, vvv, vv0, vx0, vxx, vvx, pvv, pairf, tileFn, fFmt, Instr.wf]

theorem minu (d a b : XIdx) : Statement (.minu d a b) :=
  of_word rfl (mkR_odd ..) fun hw => by
    refine (word01 (fMaj_mkR ..)).trans ?_
    simp_all [dec01, zeros, limit, vvv, vv0, vx0, vxx, vvx, pvv, pairf, tileFn, fFmt, Instr.wf]

theorem maxu (d a b : XIdx) : Statement (.maxu d a b) :=
  of_word rfl (mkR_odd ..) fun hw => by
    refine (word01 (fMaj_mkR ..)).trans ?_
    simp_all [dec01, zeros, limit, vvv, vv0, vx0, vxx, vvx, pvv, pairf, tileFn, fFmt, Instr.wf]

theorem mul (d a b : XIdx) : Statement (.mul d a b) :=
  of_word rfl (mkR_odd ..) fun hw => by
    refine (word01 (fMaj_mkR ..)).trans ?_
    simp_all [dec01, zeros, limit, vvv, vv0, vx0, vxx, vvx, pvv, pairf, tileFn, fFmt, Instr.wf]

theorem mulh (d a b : XIdx) : Statement (.mulh d a b) :=
  of_word rfl (mkR_odd ..) fun hw => by
    refine (word01 (fMaj_mkR ..)).trans ?_
    simp_all [dec01, zeros, limit, vvv, vv0, vx0, vxx, vvx, pvv, pairf, tileFn, fFmt, Instr.wf]

theorem mulhu (d a b : XIdx) : Statement (.mulhu d a b) :=
  of_word rfl (mkR_odd ..) fun hw => by
    refine (word01 (fMaj_mkR ..)).trans ?_
    simp_all [dec01, zeros, limit, vvv, vv0, vx0, vxx, vvx, pvv, pairf, tileFn, fFmt, Instr.wf]

theorem mulhsu (d a b : XIdx) : Statement (.mulhsu d a b) :=
  of_word rfl (mkR_odd ..) fun hw => by
    refine (word01 (fMaj_mkR ..)).trans ?_
    simp_all [dec01, zeros, limit, vvv, vv0, vx0, vxx, vvx, pvv, pairf, tileFn, fFmt, Instr.wf]

theorem div (d a b : XIdx) : Statement (.div d a b) :=
  of_word rfl (mkR_odd ..) fun hw => by
    refine (word01 (fMaj_mkR ..)).trans ?_
    simp_all [dec01, zeros, limit, vvv, vv0, vx0, vxx, vvx, pvv, pairf, tileFn, fFmt, Instr.wf]

theorem divu (d a b : XIdx) : Statement (.divu d a b) :=
  of_word rfl (mkR_odd ..) fun hw => by
    refine (word01 (fMaj_mkR ..)).trans ?_
    simp_all [dec01, zeros, limit, vvv, vv0, vx0, vxx, vvx, pvv, pairf, tileFn, fFmt, Instr.wf]

theorem rem (d a b : XIdx) : Statement (.rem d a b) :=
  of_word rfl (mkR_odd ..) fun hw => by
    refine (word01 (fMaj_mkR ..)).trans ?_
    simp_all [dec01, zeros, limit, vvv, vv0, vx0, vxx, vvx, pvv, pairf, tileFn, fFmt, Instr.wf]

theorem remu (d a b : XIdx) : Statement (.remu d a b) :=
  of_word rfl (mkR_odd ..) fun hw => by
    refine (word01 (fMaj_mkR ..)).trans ?_
    simp_all [dec01, zeros, limit, vvv, vv0, vx0, vxx, vvx, pvv, pairf, tileFn, fFmt, Instr.wf]

theorem clz (d a : XIdx) : Statement (.clz d a) :=
  of_word rfl (mkR_odd ..) fun hw => by
    refine (word01 (fMaj_mkR ..)).trans ?_
    simp_all [dec01, zeros, limit, vvv, vv0, vx0, vxx, vvx, pvv, pairf, tileFn, fFmt, Instr.wf]

theorem ctz (d a : XIdx) : Statement (.ctz d a) :=
  of_word rfl (mkR_odd ..) fun hw => by
    refine (word01 (fMaj_mkR ..)).trans ?_
    simp_all [dec01, zeros, limit, vvv, vv0, vx0, vxx, vvx, pvv, pairf, tileFn, fFmt, Instr.wf]

theorem popc (d a : XIdx) : Statement (.popc d a) :=
  of_word rfl (mkR_odd ..) fun hw => by
    refine (word01 (fMaj_mkR ..)).trans ?_
    simp_all [dec01, zeros, limit, vvv, vv0, vx0, vxx, vvx, pvv, pairf, tileFn, fFmt, Instr.wf]

theorem sextB (d a : XIdx) : Statement (.sextB d a) :=
  of_word rfl (mkR_odd ..) fun hw => by
    refine (word01 (fMaj_mkR ..)).trans ?_
    simp_all [dec01, zeros, limit, vvv, vv0, vx0, vxx, vvx, pvv, pairf, tileFn, fFmt, Instr.wf]

theorem sextH (d a : XIdx) : Statement (.sextH d a) :=
  of_word rfl (mkR_odd ..) fun hw => by
    refine (word01 (fMaj_mkR ..)).trans ?_
    simp_all [dec01, zeros, limit, vvv, vv0, vx0, vxx, vvx, pvv, pairf, tileFn, fFmt, Instr.wf]

theorem sextW (d a : XIdx) : Statement (.sextW d a) :=
  of_word rfl (mkR_odd ..) fun hw => by
    refine (word01 (fMaj_mkR ..)).trans ?_
    simp_all [dec01, zeros, limit, vvv, vv0, vx0, vxx, vvx, pvv, pairf, tileFn, fFmt, Instr.wf]

theorem zextW (d a : XIdx) : Statement (.zextW d a) :=
  of_word rfl (mkR_odd ..) fun hw => by
    refine (word01 (fMaj_mkR ..)).trans ?_
    simp_all [dec01, zeros, limit, vvv, vv0, vx0, vxx, vvx, pvv, pairf, tileFn, fFmt, Instr.wf]

theorem addi (d a : XIdx) (imm : BitVec 15) : Statement (.addi d a imm) :=
  of_word rfl (mkI_odd ..) fun hw => by
    simp_all [decodeWord, zeros, limit, vvv, vv0, vx0, vxx, vvx, pvv, pairf, tileFn, fFmt, Instr.wf]

theorem andi (d a : XIdx) (imm : BitVec 15) : Statement (.andi d a imm) :=
  of_word rfl (mkI_odd ..) fun hw => by
    simp_all [decodeWord, zeros, limit, vvv, vv0, vx0, vxx, vvx, pvv, pairf, tileFn, fFmt, Instr.wf]

theorem ori (d a : XIdx) (imm : BitVec 15) : Statement (.ori d a imm) :=
  of_word rfl (mkI_odd ..) fun hw => by
    simp_all [decodeWord, zeros, limit, vvv, vv0, vx0, vxx, vvx, pvv, pairf, tileFn, fFmt, Instr.wf]

theorem xori (d a : XIdx) (imm : BitVec 15) : Statement (.xori d a imm) :=
  of_word rfl (mkI_odd ..) fun hw => by
    simp_all [decodeWord, zeros, limit, vvv, vv0, vx0, vxx, vvx, pvv, pairf, tileFn, fFmt, Instr.wf]

theorem slti (d a : XIdx) (imm : BitVec 15) : Statement (.slti d a imm) :=
  of_word rfl (mkI_odd ..) fun hw => by
    simp_all [decodeWord, zeros, limit, vvv, vv0, vx0, vxx, vvx, pvv, pairf, tileFn, fFmt, Instr.wf]

theorem sltiu (d a : XIdx) (imm : BitVec 15) : Statement (.sltiu d a imm) :=
  of_word rfl (mkI_odd ..) fun hw => by
    simp_all [decodeWord, zeros, limit, vvv, vv0, vx0, vxx, vvx, pvv, pairf, tileFn, fFmt, Instr.wf]

theorem slli (d a : XIdx) (sh : BitVec 6) : Statement (.slli d a sh) :=
  of_word rfl (mkI_odd ..) fun hw => by
    refine (word08 (fMaj_mkI ..)).trans ?_
    simp (disch := decide) only [fMaj_mkI, dec08, fImmI_mkI, fD_mkI, fA_mkI, fB_mkS, extract_append_high,
      extract_append_low, extract_all, Nat.reduceSub]
    rfl

theorem srli (d a : XIdx) (sh : BitVec 6) : Statement (.srli d a sh) :=
  of_word rfl (mkI_odd ..) fun hw => by
    refine (word08 (fMaj_mkI ..)).trans ?_
    simp (disch := decide) only [fMaj_mkI, dec08, fImmI_mkI, fD_mkI, fA_mkI, fB_mkS, extract_append_high,
      extract_append_low, extract_all, Nat.reduceSub]
    rfl

theorem srai (d a : XIdx) (sh : BitVec 6) : Statement (.srai d a sh) :=
  of_word rfl (mkI_odd ..) fun hw => by
    refine (word08 (fMaj_mkI ..)).trans ?_
    simp (disch := decide) only [fMaj_mkI, dec08, fImmI_mkI, fD_mkI, fA_mkI, fB_mkS, extract_append_high,
      extract_append_low, extract_all, Nat.reduceSub]
    rfl

theorem lih (d : XIdx) (imm : BitVec 20) : Statement (.lih d imm) :=
  of_word rfl (mkU_odd ..) fun hw => by
    simp_all [decodeWord, zeros, limit, vvv, vv0, vx0, vxx, vvx, pvv, pairf, tileFn, fFmt, Instr.wf]

theorem addpc (d : XIdx) (imm : BitVec 20) : Statement (.addpc d imm) :=
  of_word rfl (mkU_odd ..) fun hw => by
    simp_all [decodeWord, zeros, limit, vvv, vv0, vx0, vxx, vvx, pvv, pairf, tileFn, fFmt, Instr.wf]

theorem ldb (d a : XIdx) (off : BitVec 12) : Statement (.ldb d a off) :=
  of_word rfl (mkI_odd ..) fun hw => by
    refine (word0B (fMaj_mkI ..)).trans ?_
    simp (disch := decide) only [fMaj_mkI, dec0B, fImmI_mkI, fD_mkI, fA_mkI, fB_mkS, extract_append_high,
      extract_append_low, extract_all, Nat.reduceSub]
    rfl

theorem ldh (d a : XIdx) (off : BitVec 12) : Statement (.ldh d a off) :=
  of_word rfl (mkI_odd ..) fun hw => by
    refine (word0B (fMaj_mkI ..)).trans ?_
    simp (disch := decide) only [fMaj_mkI, dec0B, fImmI_mkI, fD_mkI, fA_mkI, fB_mkS, extract_append_high,
      extract_append_low, extract_all, Nat.reduceSub]
    rfl

theorem ldw (d a : XIdx) (off : BitVec 12) : Statement (.ldw d a off) :=
  of_word rfl (mkI_odd ..) fun hw => by
    refine (word0B (fMaj_mkI ..)).trans ?_
    simp (disch := decide) only [fMaj_mkI, dec0B, fImmI_mkI, fD_mkI, fA_mkI, fB_mkS, extract_append_high,
      extract_append_low, extract_all, Nat.reduceSub]
    rfl

theorem ldd (d a : XIdx) (off : BitVec 12) : Statement (.ldd d a off) :=
  of_word rfl (mkI_odd ..) fun hw => by
    refine (word0B (fMaj_mkI ..)).trans ?_
    simp (disch := decide) only [fMaj_mkI, dec0B, fImmI_mkI, fD_mkI, fA_mkI, fB_mkS, extract_append_high,
      extract_append_low, extract_all, Nat.reduceSub]
    rfl

theorem ldbu (d a : XIdx) (off : BitVec 12) : Statement (.ldbu d a off) :=
  of_word rfl (mkI_odd ..) fun hw => by
    refine (word0B (fMaj_mkI ..)).trans ?_
    simp (disch := decide) only [fMaj_mkI, dec0B, fImmI_mkI, fD_mkI, fA_mkI, fB_mkS, extract_append_high,
      extract_append_low, extract_all, Nat.reduceSub]
    rfl

theorem ldhu (d a : XIdx) (off : BitVec 12) : Statement (.ldhu d a off) :=
  of_word rfl (mkI_odd ..) fun hw => by
    refine (word0B (fMaj_mkI ..)).trans ?_
    simp (disch := decide) only [fMaj_mkI, dec0B, fImmI_mkI, fD_mkI, fA_mkI, fB_mkS, extract_append_high,
      extract_append_low, extract_all, Nat.reduceSub]
    rfl

theorem ldwu (d a : XIdx) (off : BitVec 12) : Statement (.ldwu d a off) :=
  of_word rfl (mkI_odd ..) fun hw => by
    refine (word0B (fMaj_mkI ..)).trans ?_
    simp (disch := decide) only [fMaj_mkI, dec0B, fImmI_mkI, fD_mkI, fA_mkI, fB_mkS, extract_append_high,
      extract_append_low, extract_all, Nat.reduceSub]
    rfl

theorem stb (b a : XIdx) (off : BitVec 12) : Statement (.stb b a off) :=
  of_word rfl (mkS_odd ..) fun hw => by
    refine (word0C (fMaj_mkS ..)).trans ?_
    simp (disch := decide) only [fMaj_mkS, dec0C, fImmS_mkS, fD_mkI, fA_mkS, fB_mkS, extract_append_high,
      extract_append_low, extract_all, Nat.reduceSub]
    rfl

theorem sth (b a : XIdx) (off : BitVec 12) : Statement (.sth b a off) :=
  of_word rfl (mkS_odd ..) fun hw => by
    refine (word0C (fMaj_mkS ..)).trans ?_
    simp (disch := decide) only [fMaj_mkS, dec0C, fImmS_mkS, fD_mkI, fA_mkS, fB_mkS, extract_append_high,
      extract_append_low, extract_all, Nat.reduceSub]
    rfl

theorem stw (b a : XIdx) (off : BitVec 12) : Statement (.stw b a off) :=
  of_word rfl (mkS_odd ..) fun hw => by
    refine (word0C (fMaj_mkS ..)).trans ?_
    simp (disch := decide) only [fMaj_mkS, dec0C, fImmS_mkS, fD_mkI, fA_mkS, fB_mkS, extract_append_high,
      extract_append_low, extract_all, Nat.reduceSub]
    rfl

theorem std (b a : XIdx) (off : BitVec 12) : Statement (.std b a off) :=
  of_word rfl (mkS_odd ..) fun hw => by
    refine (word0C (fMaj_mkS ..)).trans ?_
    simp (disch := decide) only [fMaj_mkS, dec0C, fImmS_mkS, fD_mkI, fA_mkS, fB_mkS, extract_append_high,
      extract_append_low, extract_all, Nat.reduceSub]
    rfl

theorem beq (a b : XIdx) (off : BitVec 15) : Statement (.beq a b off) :=
  of_word rfl (mkS_odd ..) fun hw => by
    simp_all [decodeWord, zeros, limit, vvv, vv0, vx0, vxx, vvx, pvv, pairf, tileFn, fFmt, Instr.wf]

theorem bne (a b : XIdx) (off : BitVec 15) : Statement (.bne a b off) :=
  of_word rfl (mkS_odd ..) fun hw => by
    simp_all [decodeWord, zeros, limit, vvv, vv0, vx0, vxx, vvx, pvv, pairf, tileFn, fFmt, Instr.wf]

theorem blt (a b : XIdx) (off : BitVec 15) : Statement (.blt a b off) :=
  of_word rfl (mkS_odd ..) fun hw => by
    simp_all [decodeWord, zeros, limit, vvv, vv0, vx0, vxx, vvx, pvv, pairf, tileFn, fFmt, Instr.wf]

theorem bge (a b : XIdx) (off : BitVec 15) : Statement (.bge a b off) :=
  of_word rfl (mkS_odd ..) fun hw => by
    simp_all [decodeWord, zeros, limit, vvv, vv0, vx0, vxx, vvx, pvv, pairf, tileFn, fFmt, Instr.wf]

theorem bltu (a b : XIdx) (off : BitVec 15) : Statement (.bltu a b off) :=
  of_word rfl (mkS_odd ..) fun hw => by
    simp_all [decodeWord, zeros, limit, vvv, vv0, vx0, vxx, vvx, pvv, pairf, tileFn, fFmt, Instr.wf]

theorem bgeu (a b : XIdx) (off : BitVec 15) : Statement (.bgeu a b off) :=
  of_word rfl (mkS_odd ..) fun hw => by
    simp_all [decodeWord, zeros, limit, vvv, vv0, vx0, vxx, vvx, pvv, pairf, tileFn, fFmt, Instr.wf]

theorem jal (d : XIdx) (off : BitVec 20) : Statement (.jal d off) :=
  of_word rfl (mkU_odd ..) fun hw => by
    simp_all [decodeWord, zeros, limit, vvv, vv0, vx0, vxx, vvx, pvv, pairf, tileFn, fFmt, Instr.wf]

theorem jalr (d a : XIdx) (imm : BitVec 15) : Statement (.jalr d a imm) :=
  of_word rfl (mkI_odd ..) fun hw => by
    simp_all [decodeWord, zeros, limit, vvv, vv0, vx0, vxx, vvx, pvv, pairf, tileFn, fFmt, Instr.wf]

theorem trap (a : XIdx) (code : BitVec 10) : Statement (.trap a code) :=
  of_word rfl (mkX_odd ..) fun hw => by
    refine (word19 (fMaj_mkX ..)).trans ?_
    simp (disch := decide) [dec19, zeros, mkK, fK, extract_join _ 0 5 5, extract_all]

theorem brk (code : BitVec 10) : Statement (.brk code) :=
  of_word rfl (mkX_odd ..) fun hw => by
    refine (word19 (fMaj_mkX ..)).trans ?_
    simp (disch := decide) [dec19, zeros, mkK, fK, extract_join _ 0 5 5, extract_all]

theorem ifl (a b : XIdx) : Statement (.ifl a b) :=
  of_word rfl (mkX_odd ..) fun hw => by
    refine (word19 (fMaj_mkX ..)).trans ?_
    simp_all [dec19, zeros, limit, vvv, vv0, vx0, vxx, vvx, pvv, pairf, tileFn, fFmt, Instr.wf]

theorem csrr (d : XIdx) (c : Csr) : Statement (.csrr d c) :=
  of_word rfl (mkX_odd ..) fun hw => by
    refine (word19 (fMaj_mkX ..)).trans ?_
    have h : Csr.ofNum (BitVec.ofNat 10 c.num).toNat = some c := by cases c <;> rfl
    simp (disch := decide) [dec19, zeros, mkK, fK, extract_join _ 0 5 5, extract_all, csrf, h,
      -BitVec.toNat_ofNat]

theorem csrw (c : Csr) (a : XIdx) : Statement (.csrw c a) :=
  of_word rfl (mkX_odd ..) fun hw => by
    refine (word19 (fMaj_mkX ..)).trans ?_
    have h : Csr.ofNum (BitVec.ofNat 10 c.num).toNat = some c := by cases c <;> rfl
    simp (disch := decide) [dec19, zeros, mkK, fK, extract_join _ 0 5 5, extract_all, csrf, h,
      -BitVec.toNat_ofNat]

theorem csrs (d : XIdx) (c : Csr) (a : XIdx) : Statement (.csrs d c a) :=
  of_word rfl (mkX_odd ..) fun hw => by
    refine (word19 (fMaj_mkX ..)).trans ?_
    have h : Csr.ofNum (BitVec.ofNat 10 c.num).toNat = some c := by cases c <;> rfl
    simp (disch := decide) [dec19, zeros, mkK, fK, extract_join _ 0 5 5, extract_all, csrf, h,
      -BitVec.toNat_ofNat]

theorem csrc (d : XIdx) (c : Csr) (a : XIdx) : Statement (.csrc d c a) :=
  of_word rfl (mkX_odd ..) fun hw => by
    refine (word19 (fMaj_mkX ..)).trans ?_
    have h : Csr.ofNum (BitVec.ofNat 10 c.num).toNat = some c := by cases c <;> rfl
    simp (disch := decide) [dec19, zeros, mkK, fK, extract_join _ 0 5 5, extract_all, csrf, h,
      -BitVec.toNat_ofNat]

theorem cAddi (d : XIdx) (imm : BitVec 6) : Statement (.cAddi d imm) :=
  of_half rfl (mkH6_even ..) fun hw => by
    simp_all [decodeHalf, zeros, limit, Instr.wf]

theorem cLi (d : XIdx) (imm : BitVec 6) : Statement (.cLi d imm) :=
  of_half rfl (mkH6_even ..) fun hw => by
    simp_all [decodeHalf, zeros, limit, Instr.wf]

theorem cMv (d a : XIdx) : Statement (.cMv d a) :=
  of_half rfl (mkHF_even ..) fun hw => by
    simp_all [decodeHalf, zeros, limit, Instr.wf]

theorem cAdd (d a : XIdx) : Statement (.cAdd d a) :=
  of_half rfl (mkHF_even ..) fun hw => by
    simp_all [decodeHalf, zeros, limit, Instr.wf]

theorem cSub (d a : XIdx) : Statement (.cSub d a) :=
  of_half rfl (mkHF_even ..) fun hw => by
    simp_all [decodeHalf, zeros, limit, Instr.wf]

theorem cAnd (d a : XIdx) : Statement (.cAnd d a) :=
  of_half rfl (mkHF_even ..) fun hw => by
    simp_all [decodeHalf, zeros, limit, Instr.wf]

theorem cOr (d a : XIdx) : Statement (.cOr d a) :=
  of_half rfl (mkHF_even ..) fun hw => by
    simp_all [decodeHalf, zeros, limit, Instr.wf]

theorem cXor (d a : XIdx) : Statement (.cXor d a) :=
  of_half rfl (mkHF_even ..) fun hw => by
    simp_all [decodeHalf, zeros, limit, Instr.wf]

theorem cSlli (d : XIdx) (sh : BitVec 6) : Statement (.cSlli d sh) :=
  of_half rfl (mkH6_even ..) fun hw => by
    simp_all [decodeHalf, zeros, limit, Instr.wf]

theorem cSrli (d : XIdx) (sh : BitVec 6) : Statement (.cSrli d sh) :=
  of_half rfl (mkH6_even ..) fun hw => by
    simp_all [decodeHalf, zeros, limit, Instr.wf]

theorem cLdd (d : BitVec 3) (a : BitVec 3) (off : BitVec 5) : Statement (.cLdd d a off) :=
  of_half rfl (mkHM_even ..) fun hw => by
    simp_all [decodeHalf, zeros, limit, Instr.wf]

theorem cStd (b : BitVec 3) (a : BitVec 3) (off : BitVec 5) : Statement (.cStd b a off) :=
  of_half rfl (mkHM_even ..) fun hw => by
    simp_all [decodeHalf, zeros, limit, Instr.wf]

theorem cLdw (d : BitVec 3) (a : BitVec 3) (off : BitVec 5) : Statement (.cLdw d a off) :=
  of_half rfl (mkHM_even ..) fun hw => by
    simp_all [decodeHalf, zeros, limit, Instr.wf]

theorem cStw (b : BitVec 3) (a : BitVec 3) (off : BitVec 5) : Statement (.cStw b a off) :=
  of_half rfl (mkHM_even ..) fun hw => by
    simp_all [decodeHalf, zeros, limit, Instr.wf]

theorem cBeqz (a : BitVec 3) (off : BitVec 8) : Statement (.cBeqz a off) :=
  of_half rfl (mkHB_even ..) fun hw => by
    simp_all [decodeHalf, zeros, limit, Instr.wf]

theorem cBnez (a : BitVec 3) (off : BitVec 8) : Statement (.cBnez a off) :=
  of_half rfl (mkHB_even ..) fun hw => by
    simp_all [decodeHalf, zeros, limit, Instr.wf]

theorem cJ (off : BitVec 11) : Statement (.cJ off) := by
  refine of_half (w := off ++ 0xE#4 ++ 0#1) rfl (by rw [BitVec.getLsbD_append]; rfl) fun _ => ?_
  have h1 : hOp (off ++ 0xE#4 ++ 0#1) = 0xE#4 := by
    simp (disch := decide) only [hOp, extract_append_low, extract_append_high, extract_all, Nat.reduceSub]
  have h2 : hOff11 (off ++ 0xE#4 ++ 0#1) = off := by
    simp (disch := decide) only [hOff11, extract_append_low, extract_append_high, extract_all, Nat.reduceSub]
  simp only [decodeHalf, h1, h2]
  rfl

theorem ldaq (sz : Width) (d a : XIdx) : Statement (.ldaq sz d a) :=
  of_word rfl (mkR_odd ..) fun hw => by
    refine (word0D (fMaj_mkR ..)).trans ?_
    cases sz <;> simp_all [Width.code, Width.ofCode, dec0D, zeros, limit, vvv, vv0, vx0, vxx, vvx, pvv, pairf,
      tileFn, fFmt, Instr.wf]

theorem strl (sz : Width) (b a : XIdx) : Statement (.strl sz b a) :=
  of_word rfl (mkR_odd ..) fun hw => by
    refine (word0D (fMaj_mkR ..)).trans ?_
    cases sz <;> simp_all [Width.code, Width.ofCode, dec0D, zeros, limit, vvv, vv0, vx0, vxx, vvx, pvv, pairf,
      tileFn, fFmt, Instr.wf]

theorem ldf (d a : XIdx) : Statement (.ldf d a) :=
  of_word rfl (mkR_odd ..) fun hw => by
    refine (word0D (fMaj_mkR ..)).trans ?_
    simp_all [dec0D, zeros, limit, vvv, vv0, vx0, vxx, vvx, pvv, pairf, tileFn, fFmt, Instr.wf]

theorem lde (d a : XIdx) : Statement (.lde d a) :=
  of_word rfl (mkR_odd ..) fun hw => by
    refine (word0D (fMaj_mkR ..)).trans ?_
    simp_all [dec0D, zeros, limit, vvv, vv0, vx0, vxx, vvx, pvv, pairf, tileFn, fFmt, Instr.wf]

theorem stf (b a : XIdx) : Statement (.stf b a) :=
  of_word rfl (mkR_odd ..) fun hw => by
    refine (word0D (fMaj_mkR ..)).trans ?_
    simp_all [dec0D, zeros, limit, vvv, vv0, vx0, vxx, vvx, pvv, pairf, tileFn, fFmt, Instr.wf]

theorem ste (b a : XIdx) : Statement (.ste b a) :=
  of_word rfl (mkR_odd ..) fun hw => by
    refine (word0D (fMaj_mkR ..)).trans ?_
    simp_all [dec0D, zeros, limit, vvv, vv0, vx0, vxx, vvx, pvv, pairf, tileFn, fFmt, Instr.wf]

theorem fefill (a b : XIdx) : Statement (.fefill a b) :=
  of_word rfl (mkR_odd ..) fun hw => by
    refine (word0D (fMaj_mkR ..)).trans ?_
    simp_all [dec0D, zeros, limit, vvv, vv0, vx0, vxx, vvx, pvv, pairf, tileFn, fFmt, Instr.wf]

theorem feclr (a b : XIdx) : Statement (.feclr a b) :=
  of_word rfl (mkR_odd ..) fun hw => by
    refine (word0D (fMaj_mkR ..)).trans ?_
    simp_all [dec0D, zeros, limit, vvv, vv0, vx0, vxx, vvx, pvv, pairf, tileFn, fFmt, Instr.wf]

theorem waitw (d a b : XIdx) : Statement (.waitw d a b) :=
  of_word rfl (mkR_odd ..) fun hw => by
    refine (word0D (fMaj_mkR ..)).trans ?_
    simp_all [dec0D, zeros, limit, vvv, vv0, vx0, vxx, vvx, pvv, pairf, tileFn, fFmt, Instr.wf]

theorem waitc (d a b : XIdx) : Statement (.waitc d a b) :=
  of_word rfl (mkR_odd ..) fun hw => by
    refine (word0D (fMaj_mkR ..)).trans ?_
    simp_all [dec0D, zeros, limit, vvv, vv0, vx0, vxx, vvx, pvv, pairf, tileFn, fFmt, Instr.wf]

theorem stNt (b a : XIdx) : Statement (.stNt b a) :=
  of_word rfl (mkR_odd ..) fun hw => by
    refine (word0D (fMaj_mkR ..)).trans ?_
    simp_all [dec0D, zeros, limit, vvv, vv0, vx0, vxx, vvx, pvv, pairf, tileFn, fFmt, Instr.wf]

theorem drainNt : Statement (.drainNt) :=
  of_word rfl (mkR_odd ..) fun hw => by
    refine (word0D (fMaj_mkR ..)).trans ?_
    simp_all [dec0D, zeros, limit, vvv, vv0, vx0, vxx, vvx, pvv, pairf, tileFn, fFmt, Instr.wf]

theorem rsv (d a : XIdx) : Statement (.rsv d a) :=
  of_word rfl (mkR_odd ..) fun hw => by
    refine (word0E (fMaj_mkR ..)).trans ?_
    simp_all [dec0E, zeros, limit, vvv, vv0, vx0, vxx, vvx, pvv, pairf, tileFn, fFmt, Instr.wf]

theorem rls (a b : XIdx) : Statement (.rls a b) :=
  of_word rfl (mkR_odd ..) fun hw => by
    refine (word0E (fMaj_mkR ..)).trans ?_
    simp_all [dec0E, zeros, limit, vvv, vv0, vx0, vxx, vvx, pvv, pairf, tileFn, fFmt, Instr.wf]

theorem amoAdd (rlx : Bool) (d a b : XIdx) : Statement (.amoAdd rlx d a b) :=
  of_word rfl (mkR_odd ..) fun hw => by
    refine (word0E (fMaj_mkR ..)).trans ?_
    cases rlx <;> simp_all [dec0E, zeros, limit, vvv, vv0, vx0, vxx, vvx, pvv, pairf, tileFn, fFmt, Instr.wf]

theorem amoAnd (rlx : Bool) (d a b : XIdx) : Statement (.amoAnd rlx d a b) :=
  of_word rfl (mkR_odd ..) fun hw => by
    refine (word0E (fMaj_mkR ..)).trans ?_
    cases rlx <;> simp_all [dec0E, zeros, limit, vvv, vv0, vx0, vxx, vvx, pvv, pairf, tileFn, fFmt, Instr.wf]

theorem amoOr (rlx : Bool) (d a b : XIdx) : Statement (.amoOr rlx d a b) :=
  of_word rfl (mkR_odd ..) fun hw => by
    refine (word0E (fMaj_mkR ..)).trans ?_
    cases rlx <;> simp_all [dec0E, zeros, limit, vvv, vv0, vx0, vxx, vvx, pvv, pairf, tileFn, fFmt, Instr.wf]

theorem amoXor (rlx : Bool) (d a b : XIdx) : Statement (.amoXor rlx d a b) :=
  of_word rfl (mkR_odd ..) fun hw => by
    refine (word0E (fMaj_mkR ..)).trans ?_
    cases rlx <;> simp_all [dec0E, zeros, limit, vvv, vv0, vx0, vxx, vvx, pvv, pairf, tileFn, fFmt, Instr.wf]

theorem amoMin (rlx : Bool) (d a b : XIdx) : Statement (.amoMin rlx d a b) :=
  of_word rfl (mkR_odd ..) fun hw => by
    refine (word0E (fMaj_mkR ..)).trans ?_
    cases rlx <;> simp_all [dec0E, zeros, limit, vvv, vv0, vx0, vxx, vvx, pvv, pairf, tileFn, fFmt, Instr.wf]

theorem amoMax (rlx : Bool) (d a b : XIdx) : Statement (.amoMax rlx d a b) :=
  of_word rfl (mkR_odd ..) fun hw => by
    refine (word0E (fMaj_mkR ..)).trans ?_
    cases rlx <;> simp_all [dec0E, zeros, limit, vvv, vv0, vx0, vxx, vvx, pvv, pairf, tileFn, fFmt, Instr.wf]

theorem amoMinu (rlx : Bool) (d a b : XIdx) : Statement (.amoMinu rlx d a b) :=
  of_word rfl (mkR_odd ..) fun hw => by
    refine (word0E (fMaj_mkR ..)).trans ?_
    cases rlx <;> simp_all [dec0E, zeros, limit, vvv, vv0, vx0, vxx, vvx, pvv, pairf, tileFn, fFmt, Instr.wf]

theorem amoMaxu (rlx : Bool) (d a b : XIdx) : Statement (.amoMaxu rlx d a b) :=
  of_word rfl (mkR_odd ..) fun hw => by
    refine (word0E (fMaj_mkR ..)).trans ?_
    cases rlx <;> simp_all [dec0E, zeros, limit, vvv, vv0, vx0, vxx, vvx, pvv, pairf, tileFn, fFmt, Instr.wf]

theorem amoSwap (rlx : Bool) (d a b : XIdx) : Statement (.amoSwap rlx d a b) :=
  of_word rfl (mkR_odd ..) fun hw => by
    refine (word0E (fMaj_mkR ..)).trans ?_
    cases rlx <;> simp_all [dec0E, zeros, limit, vvv, vv0, vx0, vxx, vvx, pvv, pairf, tileFn, fFmt, Instr.wf]

theorem amoCas (rlx : Bool) (d a b : XIdx) : Statement (.amoCas rlx d a b) :=
  of_word rfl (mkR_odd ..) fun hw => by
    refine (word0E (fMaj_mkR ..)).trans ?_
    cases rlx <;> simp_all [dec0E, zeros, limit, vvv, vv0, vx0, vxx, vvx, pvv, pairf, tileFn, fFmt, Instr.wf]

theorem fence (sn : Scope) : Statement (.fence sn) :=
  of_word rfl (mkR_odd ..) fun hw => by
    refine (word0F (fMaj_mkR ..)).trans ?_
    cases sn <;> simp_all [Scope.code, Scope.ofCode, dec0F, zeros, limit, vvv, vv0, vx0, vxx, vvx, pvv, pairf,
      tileFn, fFmt, Instr.wf]

theorem cfenceI (d : XIdx) : Statement (.cfenceI d) :=
  of_word rfl (mkR_odd ..) fun hw => by
    refine (word0F (fMaj_mkR ..)).trans ?_
    simp_all [dec0F, zeros, limit, vvv, vv0, vx0, vxx, vvx, pvv, pairf, tileFn, fFmt, Instr.wf]

theorem cfenceW (a : XIdx) : Statement (.cfenceW a) :=
  of_word rfl (mkR_odd ..) fun hw => by
    refine (word0F (fMaj_mkR ..)).trans ?_
    simp_all [dec0F, zeros, limit, vvv, vv0, vx0, vxx, vvx, pvv, pairf, tileFn, fFmt, Instr.wf]

theorem vadd (t : FpT) (rc : Rc) (m : PIdx) (d a b : VIdx) : Statement (.vadd t rc m d a b) :=
  of_word rfl (mkV_odd ..) fun hw => by
    refine (word20 (fMaj_mkV ..)).trans ?_
    cases t <;> cases rc <;>
      simp_all [FpT.code, FpT.ofCode, Rc.code, Rc.ofCode, dec20, mkVvv, zeros, limit, vvv, vv0, vx0, vxx, vvx, pvv,
        pairf, tileFn, fFmt, Instr.wf]

theorem vsub (t : FpT) (rc : Rc) (m : PIdx) (d a b : VIdx) : Statement (.vsub t rc m d a b) :=
  of_word rfl (mkV_odd ..) fun hw => by
    refine (word20 (fMaj_mkV ..)).trans ?_
    cases t <;> cases rc <;>
      simp_all [FpT.code, FpT.ofCode, Rc.code, Rc.ofCode, dec20, mkVvv, zeros, limit, vvv, vv0, vx0, vxx, vvx, pvv,
        pairf, tileFn, fFmt, Instr.wf]

theorem vmul (t : FpT) (rc : Rc) (m : PIdx) (d a b : VIdx) : Statement (.vmul t rc m d a b) :=
  of_word rfl (mkV_odd ..) fun hw => by
    refine (word20 (fMaj_mkV ..)).trans ?_
    cases t <;> cases rc <;>
      simp_all [FpT.code, FpT.ofCode, Rc.code, Rc.ofCode, dec20, mkVvv, zeros, limit, vvv, vv0, vx0, vxx, vvx, pvv,
        pairf, tileFn, fFmt, Instr.wf]

theorem vfma (t : FpT) (rc : Rc) (m : PIdx) (d a b : VIdx) : Statement (.vfma t rc m d a b) :=
  of_word rfl (mkV_odd ..) fun hw => by
    refine (word20 (fMaj_mkV ..)).trans ?_
    cases t <;> cases rc <;>
      simp_all [FpT.code, FpT.ofCode, Rc.code, Rc.ofCode, dec20, mkVvv, zeros, limit, vvv, vv0, vx0, vxx, vvx, pvv,
        pairf, tileFn, fFmt, Instr.wf]

theorem vfms (t : FpT) (rc : Rc) (m : PIdx) (d a b : VIdx) : Statement (.vfms t rc m d a b) :=
  of_word rfl (mkV_odd ..) fun hw => by
    refine (word20 (fMaj_mkV ..)).trans ?_
    cases t <;> cases rc <;>
      simp_all [FpT.code, FpT.ofCode, Rc.code, Rc.ofCode, dec20, mkVvv, zeros, limit, vvv, vv0, vx0, vxx, vvx, pvv,
        pairf, tileFn, fFmt, Instr.wf]

theorem vfnma (t : FpT) (rc : Rc) (m : PIdx) (d a b : VIdx) : Statement (.vfnma t rc m d a b) :=
  of_word rfl (mkV_odd ..) fun hw => by
    refine (word20 (fMaj_mkV ..)).trans ?_
    cases t <;> cases rc <;>
      simp_all [FpT.code, FpT.ofCode, Rc.code, Rc.ofCode, dec20, mkVvv, zeros, limit, vvv, vv0, vx0, vxx, vvx, pvv,
        pairf, tileFn, fFmt, Instr.wf]

theorem vmax (t : FpT) (m : PIdx) (d a b : VIdx) : Statement (.vmax t m d a b) :=
  of_word rfl (mkV_odd ..) fun hw => by
    refine (word20 (fMaj_mkV ..)).trans ?_
    cases t <;>
      simp_all [FpT.code, FpT.ofCode, dec20, mkVvv, zeros, limit, vvv, vv0, vx0, vxx, vvx, pvv, pairf, tileFn, fFmt,
        Instr.wf]

theorem vmin (t : FpT) (m : PIdx) (d a b : VIdx) : Statement (.vmin t m d a b) :=
  of_word rfl (mkV_odd ..) fun hw => by
    refine (word20 (fMaj_mkV ..)).trans ?_
    cases t <;>
      simp_all [FpT.code, FpT.ofCode, dec20, mkVvv, zeros, limit, vvv, vv0, vx0, vxx, vvx, pvv, pairf, tileFn, fFmt,
        Instr.wf]

theorem vabs (t : FpT) (m : PIdx) (d a : VIdx) : Statement (.vabs t m d a) :=
  of_word rfl (mkV_odd ..) fun hw => by
    refine (word20 (fMaj_mkV ..)).trans ?_
    cases t <;>
      simp_all [FpT.code, FpT.ofCode, dec20, mkVvv, zeros, limit, vvv, vv0, vx0, vxx, vvx, pvv, pairf, tileFn, fFmt,
        Instr.wf]

theorem vneg (t : FpT) (m : PIdx) (d a : VIdx) : Statement (.vneg t m d a) :=
  of_word rfl (mkV_odd ..) fun hw => by
    refine (word20 (fMaj_mkV ..)).trans ?_
    cases t <;>
      simp_all [FpT.code, FpT.ofCode, dec20, mkVvv, zeros, limit, vvv, vv0, vx0, vxx, vvx, pvv, pairf, tileFn, fFmt,
        Instr.wf]

theorem vcmp (t : FpT) (cc : CmpF) (m d : PIdx) (a b : VIdx) : Statement (.vcmp t cc m d a b) :=
  of_word rfl (mkV_odd ..) fun hw => by
    refine (word20 (fMaj_mkV ..)).trans ?_
    cases t <;> cases cc <;>
      simp_all [FpT.code, FpT.ofCode, CmpF.code, CmpF.ofCode, dec20, mkVvv, zeros, limit, vvv, vv0, vx0, vxx, vvx,
        pvv, pairf, tileFn, fFmt, Instr.wf]

theorem vsel (m : PIdx) (d a b : VIdx) : Statement (.vsel m d a b) :=
  of_word rfl (mkV_odd ..) fun hw => by
    refine (word20 (fMaj_mkV ..)).trans ?_
    simp_all [dec20, mkVvv, zeros, limit, vvv, vv0, vx0, vxx, vvx, pvv, pairf, tileFn, fFmt, Instr.wf]

theorem viadd (w : ElW) (m : PIdx) (d a b : VIdx) : Statement (.viadd w m d a b) :=
  of_word rfl (mkV_odd ..) fun hw => by
    refine (word21 (fMaj_mkV ..)).trans ?_
    cases w <;>
      simp_all [ElW.code, ElW.ofCode, dec21, mkVvv, zeros, limit, vvv, vv0, vx0, vxx, vvx, pvv, pairf, tileFn, fFmt,
        Instr.wf]

theorem visub (w : ElW) (m : PIdx) (d a b : VIdx) : Statement (.visub w m d a b) :=
  of_word rfl (mkV_odd ..) fun hw => by
    refine (word21 (fMaj_mkV ..)).trans ?_
    cases w <;>
      simp_all [ElW.code, ElW.ofCode, dec21, mkVvv, zeros, limit, vvv, vv0, vx0, vxx, vvx, pvv, pairf, tileFn, fFmt,
        Instr.wf]

theorem vimul (w : ElW) (m : PIdx) (d a b : VIdx) : Statement (.vimul w m d a b) :=
  of_word rfl (mkV_odd ..) fun hw => by
    refine (word21 (fMaj_mkV ..)).trans ?_
    cases w <;>
      simp_all [ElW.code, ElW.ofCode, dec21, mkVvv, zeros, limit, vvv, vv0, vx0, vxx, vvx, pvv, pairf, tileFn, fFmt,
        Instr.wf]

theorem vimulhI (w : ElW) (m : PIdx) (d a b : VIdx) : Statement (.vimulhI w m d a b) :=
  of_word rfl (mkV_odd ..) fun hw => by
    refine (word21 (fMaj_mkV ..)).trans ?_
    cases w <;>
      simp_all [ElW.code, ElW.ofCode, dec21, mkVvv, zeros, limit, vvv, vv0, vx0, vxx, vvx, pvv, pairf, tileFn, fFmt,
        Instr.wf]

theorem vimulhU (w : ElW) (m : PIdx) (d a b : VIdx) : Statement (.vimulhU w m d a b) :=
  of_word rfl (mkV_odd ..) fun hw => by
    refine (word21 (fMaj_mkV ..)).trans ?_
    cases w <;>
      simp_all [ElW.code, ElW.ofCode, dec21, mkVvv, zeros, limit, vvv, vv0, vx0, vxx, vvx, pvv, pairf, tileFn, fFmt,
        Instr.wf]

theorem vimac (w : ElW) (m : PIdx) (d a b : VIdx) : Statement (.vimac w m d a b) :=
  of_word rfl (mkV_odd ..) fun hw => by
    refine (word21 (fMaj_mkV ..)).trans ?_
    cases w <;>
      simp_all [ElW.code, ElW.ofCode, dec21, mkVvv, zeros, limit, vvv, vv0, vx0, vxx, vvx, pvv, pairf, tileFn, fFmt,
        Instr.wf]

theorem vand (m : PIdx) (d a b : VIdx) : Statement (.vand m d a b) :=
  of_word rfl (mkV_odd ..) fun hw => by
    refine (word21 (fMaj_mkV ..)).trans ?_
    simp_all [dec21, mkVvv, zeros, limit, vvv, vv0, vx0, vxx, vvx, pvv, pairf, tileFn, fFmt, Instr.wf]

theorem vor (m : PIdx) (d a b : VIdx) : Statement (.vor m d a b) :=
  of_word rfl (mkV_odd ..) fun hw => by
    refine (word21 (fMaj_mkV ..)).trans ?_
    simp_all [dec21, mkVvv, zeros, limit, vvv, vv0, vx0, vxx, vvx, pvv, pairf, tileFn, fFmt, Instr.wf]

theorem vxor (m : PIdx) (d a b : VIdx) : Statement (.vxor m d a b) :=
  of_word rfl (mkV_odd ..) fun hw => by
    refine (word21 (fMaj_mkV ..)).trans ?_
    simp_all [dec21, mkVvv, zeros, limit, vvv, vv0, vx0, vxx, vvx, pvv, pairf, tileFn, fFmt, Instr.wf]

theorem vshl (w : ElW) (m : PIdx) (d a b : VIdx) : Statement (.vshl w m d a b) :=
  of_word rfl (mkV_odd ..) fun hw => by
    refine (word21 (fMaj_mkV ..)).trans ?_
    cases w <;>
      simp_all [ElW.code, ElW.ofCode, dec21, mkVvv, zeros, limit, vvv, vv0, vx0, vxx, vvx, pvv, pairf, tileFn, fFmt,
        Instr.wf]

theorem vshr (w : ElW) (m : PIdx) (d a b : VIdx) : Statement (.vshr w m d a b) :=
  of_word rfl (mkV_odd ..) fun hw => by
    refine (word21 (fMaj_mkV ..)).trans ?_
    cases w <;>
      simp_all [ElW.code, ElW.ofCode, dec21, mkVvv, zeros, limit, vvv, vv0, vx0, vxx, vvx, pvv, pairf, tileFn, fFmt,
        Instr.wf]

theorem vsar (w : ElW) (m : PIdx) (d a b : VIdx) : Statement (.vsar w m d a b) :=
  of_word rfl (mkV_odd ..) fun hw => by
    refine (word21 (fMaj_mkV ..)).trans ?_
    cases w <;>
      simp_all [ElW.code, ElW.ofCode, dec21, mkVvv, zeros, limit, vvv, vv0, vx0, vxx, vvx, pvv, pairf, tileFn, fFmt,
        Instr.wf]

theorem viminI (w : ElW) (m : PIdx) (d a b : VIdx) : Statement (.viminI w m d a b) :=
  of_word rfl (mkV_odd ..) fun hw => by
    refine (word21 (fMaj_mkV ..)).trans ?_
    cases w <;>
      simp_all [ElW.code, ElW.ofCode, dec21, mkVvv, zeros, limit, vvv, vv0, vx0, vxx, vvx, pvv, pairf, tileFn, fFmt,
        Instr.wf]

theorem viminU (w : ElW) (m : PIdx) (d a b : VIdx) : Statement (.viminU w m d a b) :=
  of_word rfl (mkV_odd ..) fun hw => by
    refine (word21 (fMaj_mkV ..)).trans ?_
    cases w <;>
      simp_all [ElW.code, ElW.ofCode, dec21, mkVvv, zeros, limit, vvv, vv0, vx0, vxx, vvx, pvv, pairf, tileFn, fFmt,
        Instr.wf]

theorem vimaxI (w : ElW) (m : PIdx) (d a b : VIdx) : Statement (.vimaxI w m d a b) :=
  of_word rfl (mkV_odd ..) fun hw => by
    refine (word21 (fMaj_mkV ..)).trans ?_
    cases w <;>
      simp_all [ElW.code, ElW.ofCode, dec21, mkVvv, zeros, limit, vvv, vv0, vx0, vxx, vvx, pvv, pairf, tileFn, fFmt,
        Instr.wf]

theorem vimaxU (w : ElW) (m : PIdx) (d a b : VIdx) : Statement (.vimaxU w m d a b) :=
  of_word rfl (mkV_odd ..) fun hw => by
    refine (word21 (fMaj_mkV ..)).trans ?_
    cases w <;>
      simp_all [ElW.code, ElW.ofCode, dec21, mkVvv, zeros, limit, vvv, vv0, vx0, vxx, vvx, pvv, pairf, tileFn, fFmt,
        Instr.wf]

theorem viabs (w : ElW) (m : PIdx) (d a : VIdx) : Statement (.viabs w m d a) :=
  of_word rfl (mkV_odd ..) fun hw => by
    refine (word21 (fMaj_mkV ..)).trans ?_
    cases w <;>
      simp_all [ElW.code, ElW.ofCode, dec21, mkVvv, zeros, limit, vvv, vv0, vx0, vxx, vvx, pvv, pairf, tileFn, fFmt,
        Instr.wf]

theorem vsaddI (w : ElW) (m : PIdx) (d a b : VIdx) : Statement (.vsaddI w m d a b) :=
  of_word rfl (mkV_odd ..) fun hw => by
    refine (word21 (fMaj_mkV ..)).trans ?_
    cases w <;>
      simp_all [ElW.code, ElW.ofCode, dec21, mkVvv, zeros, limit, vvv, vv0, vx0, vxx, vvx, pvv, pairf, tileFn, fFmt,
        Instr.wf]

theorem vsaddU (w : ElW) (m : PIdx) (d a b : VIdx) : Statement (.vsaddU w m d a b) :=
  of_word rfl (mkV_odd ..) fun hw => by
    refine (word21 (fMaj_mkV ..)).trans ?_
    cases w <;>
      simp_all [ElW.code, ElW.ofCode, dec21, mkVvv, zeros, limit, vvv, vv0, vx0, vxx, vvx, pvv, pairf, tileFn, fFmt,
        Instr.wf]

theorem vssubI (w : ElW) (m : PIdx) (d a b : VIdx) : Statement (.vssubI w m d a b) :=
  of_word rfl (mkV_odd ..) fun hw => by
    refine (word21 (fMaj_mkV ..)).trans ?_
    cases w <;>
      simp_all [ElW.code, ElW.ofCode, dec21, mkVvv, zeros, limit, vvv, vv0, vx0, vxx, vvx, pvv, pairf, tileFn, fFmt,
        Instr.wf]

theorem vssubU (w : ElW) (m : PIdx) (d a b : VIdx) : Statement (.vssubU w m d a b) :=
  of_word rfl (mkV_odd ..) fun hw => by
    refine (word21 (fMaj_mkV ..)).trans ?_
    cases w <;>
      simp_all [ElW.code, ElW.ofCode, dec21, mkVvv, zeros, limit, vvv, vv0, vx0, vxx, vvx, pvv, pairf, tileFn, fFmt,
        Instr.wf]

theorem vicmp (cc : CmpI) (w : ElW) (m d : PIdx) (a b : VIdx) : Statement (.vicmp cc w m d a b) :=
  of_word rfl (mkV_odd ..) fun hw => by
    refine (word21 (fMaj_mkV ..)).trans ?_
    cases cc <;> cases w <;>
      simp_all [CmpI.code, CmpI.ofCode, ElW.code, ElW.ofCode, dec21, mkVvv, zeros, limit, vvv, vv0, vx0, vxx, vvx,
        pvv, pairf, tileFn, fFmt, Instr.wf]

theorem vcvt (dst src : CvtT) (rc : Rc) (part : BitVec 2) (m : PIdx) (d a : VIdx) :
    Statement (.vcvt dst src rc part m d a) := by
  refine of_word rfl (mkV_odd ..) fun hw => ?_
  have hd : dst.code < 9 := by cases dst <;> decide
  have hs : src.code < 9 := by cases src <;> decide
  have hn : (BitVec.ofNat 7 (9 * dst.code + src.code)).toNat = 9 * dst.code + src.code := by
    simp only [BitVec.toNat_ofNat]; omega
  have h1 : (9 * dst.code + src.code) / 9 = dst.code := by omega
  have h2 : (9 * dst.code + src.code) % 9 = src.code := by omega
  have h3 : CvtT.ofCode dst.code = dst := by cases dst <;> rfl
  have h4 : CvtT.ofCode src.code = src := by cases src <;> rfl
  have h5 : (BitVec.ofNat 3 rc.code ++ part).extractLsb' 2 3 = BitVec.ofNat 3 rc.code := by
    simp (disch := decide) only [extract_append_high, extract_all, Nat.reduceSub]
  have h6 : (BitVec.ofNat 3 rc.code ++ part).extractLsb' 0 2 = part := by
    simp (disch := decide) only [extract_append_low, extract_all]
  have h7 : (BitVec.ofNat 3 rc.code).toNat = rc.code := by cases rc <;> rfl
  have h8 : Rc.ofCode rc.code = rc ∧ rc.code ≤ 4 := by cases rc <;> exact ⟨rfl, by decide⟩
  have h9 : 9 * dst.code + src.code ≤ 80 := by omega
  simp only [Instr.wf, Bool.and_eq_true] at hw
  refine (word22 (fMaj_mkV ..)).trans ?_
  simp only [dec22, fFn7_mkV, hn, h9, if_true, h1, h2, h3, h4,
    fB_mkV, h5, h6, h7, h8.1, h8.2, limit, hw.1, hw.2, fD_mkV, fA_mkV, vreg_setWidth, fM_mkV, decide_true,
      Bool.and_self]

theorem vmov (m : PIdx) (d a : VIdx) : Statement (.vmov m d a) :=
  of_word rfl (mkV_odd ..) fun hw => by
    refine (word22 (fMaj_mkV ..)).trans ?_
    simp_all [dec22, mkVvv, zeros, limit, vvv, vv0, vx0, vxx, vvx, pvv, pairf, tileFn, fFmt, Instr.wf]

theorem vzero (m : PIdx) (d : VIdx) : Statement (.vzero m d) :=
  of_word rfl (mkV_odd ..) fun hw => by
    refine (word22 (fMaj_mkV ..)).trans ?_
    simp_all [dec22, mkVvv, zeros, limit, vvv, vv0, vx0, vxx, vvx, pvv, pairf, tileFn, fFmt, Instr.wf]

theorem vbcast (w : ElW) (m : PIdx) (d : VIdx) (a : XIdx) : Statement (.vbcast w m d a) :=
  of_word rfl (mkV_odd ..) fun hw => by
    refine (word22 (fMaj_mkV ..)).trans ?_
    cases w <;> simp_all [ElW.code, ElW.ofCode, dec22, zeros, limit, vvv, vv0, vx0, vxx, vvx, pvv, pairf, tileFn,
      fFmt, Instr.wf]

theorem vextr (w : ElW) (d : XIdx) (a : VIdx) (b : XIdx) : Statement (.vextr w d a b) :=
  of_word rfl (mkV_odd ..) fun hw => by
    refine (word22 (fMaj_mkV ..)).trans ?_
    cases w <;> simp_all [ElW.code, ElW.ofCode, dec22, zeros, limit, vvv, vv0, vx0, vxx, vvx, pvv, pairf, tileFn,
      fFmt, Instr.wf]

theorem vins (w : ElW) (d : VIdx) (a b : XIdx) : Statement (.vins w d a b) :=
  of_word rfl (mkV_odd ..) fun hw => by
    refine (word22 (fMaj_mkV ..)).trans ?_
    cases w <;> simp_all [ElW.code, ElW.ofCode, dec22, zeros, limit, vvv, vv0, vx0, vxx, vvx, pvv, pairf, tileFn,
      fFmt, Instr.wf]

theorem vidx (w : ElW) (m : PIdx) (d : VIdx) (a : XIdx) : Statement (.vidx w m d a) :=
  of_word rfl (mkV_odd ..) fun hw => by
    refine (word22 (fMaj_mkV ..)).trans ?_
    cases w <;> simp_all [ElW.code, ElW.ofCode, dec22, zeros, limit, vvv, vv0, vx0, vxx, vvx, pvv, pairf, tileFn,
      fFmt, Instr.wf]

theorem vcvtSr (dst : SrT) (part : BitVec 2) (m : PIdx) (d a b : VIdx) :
    Statement (.vcvtSr dst part m d a b) := by
  refine of_word rfl (mkV_odd ..) fun hw => ?_
  simp only [Instr.wf, decide_eq_true_eq] at hw
  have hp := part.isLt
  have hq (k : Nat) : BitVec.ofNat 2 (k + part.toNat - k) = part := by
    rw [Nat.add_sub_cancel_left, BitVec.ofNat_toNat, BitVec.setWidth_eq]
  have hn : (BitVec.ofNat 7 (dst.base + part.toNat)).toNat = dst.base + part.toNat := by
    simp only [BitVec.toNat_ofNat]; cases dst <;> simp only [SrT.base] <;> omega
  refine (word22 (fMaj_mkV ..)).trans ?_
  simp only [dec22, fFn7_mkV, hn, fM_mkV, vvv, fD_mkV, fA_mkV, fB_mkV, vreg_setWidth]
  cases dst
  case f16 =>
    change part.toNat < 2 at hw
    generalize hg : SrT.f16.base + part.toNat = n
    change 96 + part.toNat = n at hg
    rw [show BitVec.ofNat 2 (n - 96) = part by rw [← hg]; exact hq 96]
    simp only [show ¬ n ≤ 80 by omega, show n ≠ 81 by omega, show n ≠ 82 by omega, show ¬ n ≤ 85 by omega, show ¬ n
      ≤ 88 by omega,
      show ¬ n ≤ 91 by omega, show ¬ n ≤ 94 by omega, show n ≠ 95 by omega, show n ≤ 97 by omega, if_true, if_false]
  case bf16 =>
    change part.toNat < 2 at hw
    generalize hg : SrT.bf16.base + part.toNat = n
    change 98 + part.toNat = n at hg
    rw [show BitVec.ofNat 2 (n - 98) = part by rw [← hg]; exact hq 98]
    simp only [show ¬ n ≤ 80 by omega, show n ≠ 81 by omega, show n ≠ 82 by omega, show ¬ n ≤ 85 by omega, show ¬ n
      ≤ 88 by omega,
      show ¬ n ≤ 91 by omega, show ¬ n ≤ 94 by omega, show n ≠ 95 by omega, show ¬ n ≤ 97 by omega, show n ≤ 99 by
        omega,
      if_true, if_false]
  case e5m2 =>
    generalize hg : SrT.e5m2.base + part.toNat = n
    change 100 + part.toNat = n at hg
    rw [show BitVec.ofNat 2 (n - 100) = part by rw [← hg]; exact hq 100]
    simp only [show ¬ n ≤ 80 by omega, show n ≠ 81 by omega, show n ≠ 82 by omega, show ¬ n ≤ 85 by omega, show ¬ n
      ≤ 88 by omega,
      show ¬ n ≤ 91 by omega, show ¬ n ≤ 94 by omega, show n ≠ 95 by omega, show ¬ n ≤ 97 by omega, show ¬ n ≤ 99 by
        omega,
      show n ≤ 103 by omega, if_true, if_false]
  case e4m3 =>
    generalize hg : SrT.e4m3.base + part.toNat = n
    change 104 + part.toNat = n at hg
    rw [show BitVec.ofNat 2 (n - 104) = part by rw [← hg]; exact hq 104]
    simp only [show ¬ n ≤ 80 by omega, show n ≠ 81 by omega, show n ≠ 82 by omega, show ¬ n ≤ 85 by omega, show ¬ n
      ≤ 88 by omega,
      show ¬ n ≤ 91 by omega, show ¬ n ≤ 94 by omega, show n ≠ 95 by omega, show ¬ n ≤ 97 by omega, show ¬ n ≤ 99 by
        omega,
      show ¬ n ≤ 103 by omega, show n ≤ 107 by omega, if_true, if_false]

theorem vpack (t : PackT) (m : PIdx) (d a b : VIdx) : Statement (.vpack t m d a b) :=
  of_word rfl (mkV_odd ..) fun hw => by
    refine (word22 (fMaj_mkV ..)).trans ?_
    cases t <;> simp_all [PackT.code, PackT.ofCode, dec22, mkVvv, zeros, limit, vvv, vv0, vx0, vxx, vvx, pvv, pairf,
      tileFn, fFmt, Instr.wf]

theorem vunpk (t : PackT) (part : BitVec 2) (m : PIdx) (d a : VIdx) :
    Statement (.vunpk t part m d a) := by
  refine of_word rfl (mkV_odd ..) fun hw => ?_
  have h5 : (0#3 ++ part).extractLsb' 2 3 = 0#3 := by
    simp (disch := decide) only [extract_append_high, extract_all, Nat.reduceSub]
  have h6 : (0#3 ++ part).extractLsb' 0 2 = part := by
    simp (disch := decide) only [extract_append_low, extract_all]
  simp only [Instr.wf] at hw
  refine (word22 (fMaj_mkV ..)).trans ?_
  simp only [dec22, fFn7_mkV, fM_mkV, fD_mkV, fA_mkV,
    fB_mkV, vreg_setWidth, h5, h6, limit, hw, if_true]
  cases t <;> simp [PackT.code, PackT.ofCode, zeros]

theorem vld (w : ElW) (m : PIdx) (d : VIdx) (a b : XIdx) : Statement (.vld w m d a b) :=
  of_word rfl (mkV_odd ..) fun hw => by
    refine (word23 (fMaj_mkV ..)).trans ?_
    cases w <;>
      simp_all [ElW.code, ElW.ofCode, dec23, zeros, limit, vvv, vv0, vx0, vxx, vvx, pvv, pairf, tileFn, fFmt,
        Instr.wf]

theorem vst (w : ElW) (m : PIdx) (d : VIdx) (a b : XIdx) : Statement (.vst w m d a b) :=
  of_word rfl (mkV_odd ..) fun hw => by
    refine (word23 (fMaj_mkV ..)).trans ?_
    cases w <;>
      simp_all [ElW.code, ElW.ofCode, dec23, zeros, limit, vvv, vv0, vx0, vxx, vvx, pvv, pairf, tileFn, fFmt,
        Instr.wf]

theorem vlds (w : ElW) (m : PIdx) (d : VIdx) (a b : XIdx) : Statement (.vlds w m d a b) :=
  of_word rfl (mkV_odd ..) fun hw => by
    refine (word23 (fMaj_mkV ..)).trans ?_
    cases w <;>
      simp_all [ElW.code, ElW.ofCode, dec23, zeros, limit, vvv, vv0, vx0, vxx, vvx, pvv, pairf, tileFn, fFmt,
        Instr.wf]

theorem vsts (w : ElW) (m : PIdx) (d : VIdx) (a b : XIdx) : Statement (.vsts w m d a b) :=
  of_word rfl (mkV_odd ..) fun hw => by
    refine (word23 (fMaj_mkV ..)).trans ?_
    cases w <;>
      simp_all [ElW.code, ElW.ofCode, dec23, zeros, limit, vvv, vv0, vx0, vxx, vvx, pvv, pairf, tileFn, fFmt,
        Instr.wf]

theorem vgath (w : ElW) (m : PIdx) (d : VIdx) (a : XIdx) (b : VIdx) : Statement (.vgath w m d a b) :=
  of_word rfl (mkV_odd ..) fun hw => by
    refine (word23 (fMaj_mkV ..)).trans ?_
    cases w <;>
      simp_all [ElW.code, ElW.ofCode, dec23, zeros, limit, vvv, vv0, vx0, vxx, vvx, pvv, pairf, tileFn, fFmt,
        Instr.wf]

theorem vscat (w : ElW) (m : PIdx) (d : VIdx) (a : XIdx) (b : VIdx) : Statement (.vscat w m d a b) :=
  of_word rfl (mkV_odd ..) fun hw => by
    refine (word23 (fMaj_mkV ..)).trans ?_
    cases w <;>
      simp_all [ElW.code, ElW.ofCode, dec23, zeros, limit, vvv, vv0, vx0, vxx, vvx, pvv, pairf, tileFn, fFmt,
        Instr.wf]

theorem vldb (w : ElW) (m : PIdx) (d : VIdx) (a : XIdx) : Statement (.vldb w m d a) :=
  of_word rfl (mkV_odd ..) fun hw => by
    refine (word23 (fMaj_mkV ..)).trans ?_
    cases w <;>
      simp_all [ElW.code, ElW.ofCode, dec23, zeros, limit, vvv, vv0, vx0, vxx, vvx, pvv, pairf, tileFn, fFmt,
        Instr.wf]

theorem vrecip (t : FpT) (m : PIdx) (d a : VIdx) : Statement (.vrecip t m d a) :=
  of_word rfl (mkV_odd ..) fun hw => by
    refine (word24 (fMaj_mkV ..)).trans ?_
    cases t <;>
      simp_all [FpT.code, FpT.ofCode, dec24, mkVvv, zeros, limit, vvv, vv0, vx0, vxx, vvx, pvv, pairf, tileFn, fFmt,
        Instr.wf]

theorem vrsqrt (t : FpT) (m : PIdx) (d a : VIdx) : Statement (.vrsqrt t m d a) :=
  of_word rfl (mkV_odd ..) fun hw => by
    refine (word24 (fMaj_mkV ..)).trans ?_
    cases t <;>
      simp_all [FpT.code, FpT.ofCode, dec24, mkVvv, zeros, limit, vvv, vv0, vx0, vxx, vvx, pvv, pairf, tileFn, fFmt,
        Instr.wf]

theorem vsqrt (t : FpT) (rc : Rc) (m : PIdx) (d a : VIdx) : Statement (.vsqrt t rc m d a) := by
  refine of_word rfl (mkV_odd ..) fun _ => ?_
  refine (word24 (fMaj_mkV ..)).trans ?_
  simp only [dec24, fFn7_mkV, fM_mkV, fD_mkV, fA_mkV,
    fB_mkV, vreg_setWidth]
  cases t <;> cases rc <;> rfl

theorem vexp2 (t : FpT) (m : PIdx) (d a : VIdx) : Statement (.vexp2 t m d a) :=
  of_word rfl (mkV_odd ..) fun hw => by
    refine (word24 (fMaj_mkV ..)).trans ?_
    cases t <;>
      simp_all [FpT.code, FpT.ofCode, dec24, mkVvv, zeros, limit, vvv, vv0, vx0, vxx, vvx, pvv, pairf, tileFn, fFmt,
        Instr.wf]

theorem vlog2 (t : FpT) (m : PIdx) (d a : VIdx) : Statement (.vlog2 t m d a) :=
  of_word rfl (mkV_odd ..) fun hw => by
    refine (word24 (fMaj_mkV ..)).trans ?_
    cases t <;>
      simp_all [FpT.code, FpT.ofCode, dec24, mkVvv, zeros, limit, vvv, vv0, vx0, vxx, vvx, pvv, pairf, tileFn, fFmt,
        Instr.wf]

theorem vsin (t : FpT) (m : PIdx) (d a : VIdx) : Statement (.vsin t m d a) :=
  of_word rfl (mkV_odd ..) fun hw => by
    refine (word24 (fMaj_mkV ..)).trans ?_
    cases t <;>
      simp_all [FpT.code, FpT.ofCode, dec24, mkVvv, zeros, limit, vvv, vv0, vx0, vxx, vvx, pvv, pairf, tileFn, fFmt,
        Instr.wf]

theorem vcos (t : FpT) (m : PIdx) (d a : VIdx) : Statement (.vcos t m d a) :=
  of_word rfl (mkV_odd ..) fun hw => by
    refine (word24 (fMaj_mkV ..)).trans ?_
    cases t <;>
      simp_all [FpT.code, FpT.ofCode, dec24, mkVvv, zeros, limit, vvv, vv0, vx0, vxx, vvx, pvv, pairf, tileFn, fFmt,
        Instr.wf]

theorem vtanh (t : FpT) (m : PIdx) (d a : VIdx) : Statement (.vtanh t m d a) :=
  of_word rfl (mkV_odd ..) fun hw => by
    refine (word24 (fMaj_mkV ..)).trans ?_
    cases t <;>
      simp_all [FpT.code, FpT.ofCode, dec24, mkVvv, zeros, limit, vvv, vv0, vx0, vxx, vvx, pvv, pairf, tileFn, fFmt,
        Instr.wf]

theorem vsigm (t : FpT) (m : PIdx) (d a : VIdx) : Statement (.vsigm t m d a) :=
  of_word rfl (mkV_odd ..) fun hw => by
    refine (word24 (fMaj_mkV ..)).trans ?_
    cases t <;>
      simp_all [FpT.code, FpT.ofCode, dec24, mkVvv, zeros, limit, vvv, vv0, vx0, vxx, vvx, pvv, pairf, tileFn, fFmt,
        Instr.wf]

theorem vrand (m : PIdx) (d : VIdx) (a b : XIdx) : Statement (.vrand m d a b) :=
  of_word rfl (mkV_odd ..) fun hw => by
    refine (word24 (fMaj_mkV ..)).trans ?_
    simp_all [dec24, zeros, limit, vvv, vv0, vx0, vxx, vvx, pvv, pairf, tileFn, fFmt, Instr.wf]

theorem vredsum (t : RedT) (m : PIdx) (d a : VIdx) : Statement (.vredsum t m d a) := by
  refine of_word rfl (mkV_odd ..) fun hw => (dec25_of ?_ ..).trans ?_ <;> rcases t with t | t | t <;> cases t <;>
    first | decide | rfl | cases hw

theorem vredmax (t : RedT) (m : PIdx) (d a : VIdx) : Statement (.vredmax t m d a) := by
  refine of_word rfl (mkV_odd ..) fun _ => (dec25_of ?_ ..).trans ?_ <;> rcases t with t | t | t <;> cases t <;>
    first | decide | rfl

theorem vredmin (t : RedT) (m : PIdx) (d a : VIdx) : Statement (.vredmin t m d a) := by
  refine of_word rfl (mkV_odd ..) fun _ => (dec25_of ?_ ..).trans ?_ <;> rcases t with t | t | t <;> cases t <;>
    first | decide | rfl

theorem vscan (t : ScanT) (m : PIdx) (d a : VIdx) : Statement (.vscan t m d a) :=
  of_word rfl (mkV_odd ..) fun hw => by
    refine (word25 (fMaj_mkV ..)).trans ?_
    cases t <;>
      simp_all [ScanT.code, ScanT.ofCode, dec25, mkVvv, zeros, limit, vvv, vv0, vx0, vxx, vvx, pvv, pairf, tileFn,
        fFmt, Instr.wf]

theorem vshuf (w : ElW) (m : PIdx) (d a b : VIdx) : Statement (.vshuf w m d a b) :=
  of_word rfl (mkV_odd ..) fun hw => by
    refine (word25 (fMaj_mkV ..)).trans ?_
    cases w <;>
      simp_all [ElW.code, ElW.ofCode, dec25, mkVvv, zeros, limit, vvv, vv0, vx0, vxx, vvx, pvv, pairf, tileFn, fFmt,
        Instr.wf]

theorem vrot (w : ElW) (m : PIdx) (d a : VIdx) (b : XIdx) : Statement (.vrot w m d a b) :=
  of_word rfl (mkV_odd ..) fun hw => by
    refine (word25 (fMaj_mkV ..)).trans ?_
    cases w <;>
      simp_all [ElW.code, ElW.ofCode, dec25, zeros, limit, vvv, vv0, vx0, vxx, vvx, pvv, pairf, tileFn, fFmt,
        Instr.wf]

theorem vslide (w : ElW) (m : PIdx) (d a : VIdx) (b : XIdx) : Statement (.vslide w m d a b) :=
  of_word rfl (mkV_odd ..) fun hw => by
    refine (word25 (fMaj_mkV ..)).trans ?_
    cases w <;>
      simp_all [ElW.code, ElW.ofCode, dec25, zeros, limit, vvv, vv0, vx0, vxx, vvx, pvv, pairf, tileFn, fFmt,
        Instr.wf]

theorem vcomp (w : ElW) (m : PIdx) (d a : VIdx) : Statement (.vcomp w m d a) :=
  of_word rfl (mkV_odd ..) fun hw => by
    refine (word25 (fMaj_mkV ..)).trans ?_
    cases w <;>
      simp_all [ElW.code, ElW.ofCode, dec25, mkVvv, zeros, limit, vvv, vv0, vx0, vxx, vvx, pvv, pairf, tileFn, fFmt,
        Instr.wf]

theorem vexpd (w : ElW) (m : PIdx) (d a : VIdx) : Statement (.vexpd w m d a) :=
  of_word rfl (mkV_odd ..) fun hw => by
    refine (word25 (fMaj_mkV ..)).trans ?_
    cases w <;>
      simp_all [ElW.code, ElW.ofCode, dec25, mkVvv, zeros, limit, vvv, vv0, vx0, vxx, vvx, pvv, pairf, tileFn, fFmt,
        Instr.wf]

theorem pset (d : PIdx) (a : XIdx) : Statement (.pset d a) :=
  of_word rfl (mkV_odd ..) fun hw => by
    refine (word25 (fMaj_mkV ..)).trans ?_
    simp_all [dec25, zeros, limit, vvv, vv0, vx0, vxx, vvx, pvv, pairf, tileFn, fFmt, Instr.wf]

theorem pand (d a b : PIdx) : Statement (.pand d a b) :=
  of_word rfl (mkV_odd ..) fun hw => by
    refine (word25 (fMaj_mkV ..)).trans ?_
    simp_all [dec25, zeros, limit, vvv, vv0, vx0, vxx, vvx, pvv, pairf, tileFn, fFmt, Instr.wf]

theorem por (d a b : PIdx) : Statement (.por d a b) :=
  of_word rfl (mkV_odd ..) fun hw => by
    refine (word25 (fMaj_mkV ..)).trans ?_
    simp_all [dec25, zeros, limit, vvv, vv0, vx0, vxx, vvx, pvv, pairf, tileFn, fFmt, Instr.wf]

theorem pnot (d a : PIdx) : Statement (.pnot d a) :=
  of_word rfl (mkV_odd ..) fun hw => by
    refine (word25 (fMaj_mkV ..)).trans ?_
    simp_all [dec25, zeros, limit, vvv, vv0, vx0, vxx, vvx, pvv, pairf, tileFn, fFmt, Instr.wf]

theorem pcnt (d : XIdx) (a : PIdx) : Statement (.pcnt d a) :=
  of_word rfl (mkV_odd ..) fun hw => by
    refine (word25 (fMaj_mkV ..)).trans ?_
    simp_all [dec25, zeros, limit, vvv, vv0, vx0, vxx, vvx, pvv, pairf, tileFn, fFmt, Instr.wf]

theorem pfirst (d : XIdx) (a : PIdx) : Statement (.pfirst d a) :=
  of_word rfl (mkV_odd ..) fun hw => by
    refine (word25 (fMaj_mkV ..)).trans ?_
    simp_all [dec25, zeros, limit, vvv, vv0, vx0, vxx, vvx, pvv, pairf, tileFn, fFmt, Instr.wf]

theorem vqmul (m : PIdx) (d a b : VIdx) : Statement (.vqmul m d a b) :=
  of_word rfl (mkV_odd ..) fun hw => by
    refine (word26 (fMaj_mkV ..)).trans ?_
    simp_all [dec26, mkVvv, zeros, limit, vvv, vv0, vx0, vxx, vvx, pvv, pairf, tileFn, fFmt, Instr.wf]

theorem vqmac (m : PIdx) (d a b : VIdx) : Statement (.vqmac m d a b) :=
  of_word rfl (mkV_odd ..) fun hw => by
    refine (word26 (fMaj_mkV ..)).trans ?_
    simp_all [dec26, mkVvv, zeros, limit, vvv, vv0, vx0, vxx, vvx, pvv, pairf, tileFn, fFmt, Instr.wf]

theorem vqrndLo (m : PIdx) (d a : VIdx) (n : BitVec 5) : Statement (.vqrndLo m d a n) :=
  of_word rfl (mkV_odd ..) fun hw => by
    refine (word26 (fMaj_mkV ..)).trans ?_
    simp_all [dec26, zeros, limit, vvv, vv0, vx0, vxx, vvx, pvv, pairf, tileFn, fFmt, Instr.wf]

theorem vqrndHi (m : PIdx) (d a : VIdx) (n : BitVec 5) : Statement (.vqrndHi m d a n) :=
  of_word rfl (mkV_odd ..) fun hw => by
    refine (word26 (fMaj_mkV ..)).trans ?_
    simp_all [dec26, zeros, limit, vvv, vv0, vx0, vxx, vvx, pvv, pairf, tileFn, fFmt, Instr.wf]

theorem vqsatI16 (m : PIdx) (d a : VIdx) (n : BitVec 5) : Statement (.vqsatI16 m d a n) :=
  of_word rfl (mkV_odd ..) fun hw => by
    refine (word26 (fMaj_mkV ..)).trans ?_
    simp_all [dec26, zeros, limit, vvv, vv0, vx0, vxx, vvx, pvv, pairf, tileFn, fFmt, Instr.wf]

theorem vqsatI32 (m : PIdx) (d a : VIdx) (n : BitVec 5) : Statement (.vqsatI32 m d a n) :=
  of_word rfl (mkV_odd ..) fun hw => by
    refine (word26 (fMaj_mkV ..)).trans ?_
    simp_all [dec26, zeros, limit, vvv, vv0, vx0, vxx, vvx, pvv, pairf, tileFn, fFmt, Instr.wf]

theorem scfg (sn : BitVec 3) (k : BitVec 3) (a : XIdx) : Statement (.scfg sn k a) := by
  refine of_word rfl (mkR_odd ..) fun hw => ?_
  simp only [Instr.wf] at hw
  have h1 : (0#4 ++ k ++ 0#3).extractLsb' 3 7 = 0#4 ++ k := by
    rw [extract_append_high _ _ _ _ (by decide), extract_all]
  have h2 : (0#4 ++ k).extractLsb' 3 4 = 0#4 := by rw [extract_append_high _ _ _ _ (by decide), extract_all]
  have h3 : (0#4 ++ k).extractLsb' 0 3 = k := by rw [extract_append_low _ _ _ _ (by decide), extract_all]
  have h4 : (0#4 ++ k ++ 0#3).extractLsb' 0 3 = 0#3 := by rw [extract_append_low _ _ _ _ (by decide), extract_all]
  refine (word27 (fMaj_mkR ..)).trans ?_
  simp only [dec27, fFn_mkR, h1, h2, h3, h4, fD_mkR, fA_mkR,
    fB_mkR, sreg_sField, zeros, limit, hw, if_true, show (0#3).toNat = 0 from rfl, beq_self_eq_true, Bool.and_self]
  rfl

theorem sbase (sn : BitVec 3) (a : XIdx) : Statement (.sbase sn a) :=
  of_word rfl (mkR_odd ..) fun hw => by
    refine (word27 (fMaj_mkR ..)).trans ?_
    simp_all [dec27, zeros, limit, vvv, vv0, vx0, vxx, vvx, pvv, pairf, tileFn, fFmt, Instr.wf]

theorem sstart (sn : BitVec 3) : Statement (.sstart sn) :=
  of_word rfl (mkR_odd ..) fun hw => by
    refine (word27 (fMaj_mkR ..)).trans ?_
    simp_all [dec27, zeros, limit, vvv, vv0, vx0, vxx, vvx, pvv, pairf, tileFn, fFmt, Instr.wf]

theorem sstop (sn : BitVec 3) : Statement (.sstop sn) :=
  of_word rfl (mkR_odd ..) fun hw => by
    refine (word27 (fMaj_mkR ..)).trans ?_
    simp_all [dec27, zeros, limit, vvv, vv0, vx0, vxx, vvx, pvv, pairf, tileFn, fFmt, Instr.wf]

theorem sbr (sn : BitVec 3) (off : BitVec 17) : Statement (.sbr sn off) := by
  refine of_word rfl (mkR_odd ..) fun hw => ?_
  have h1 : (off.extractLsb' 10 7 ++ 4#3).extractLsb' 3 7 = off.extractLsb' 10 7 := by
    rw [extract_append_high _ _ _ _ (by decide), extract_all]
  have h4 : (off.extractLsb' 10 7 ++ 4#3).extractLsb' 0 3 = 4#3 := by
    rw [extract_append_low _ _ _ _ (by decide), extract_all]
  have h5 : off.extractLsb' 10 7 ++ off.extractLsb' 5 5 ++ off.extractLsb' 0 5 = off := by
    rw [extract_join off 5 5 7, extract_join off 0 5 12, extract_all]
  refine (word27 (fMaj_mkR ..)).trans ?_
  simp only [dec27, fFn_mkR, h1, h4, fD_mkR, fA_mkR,
    fB_mkR, sreg_sField, show (4#3).toNat = 4 from rfl, h5]

theorem sstat (d : XIdx) (sn : BitVec 3) : Statement (.sstat d sn) :=
  of_word rfl (mkR_odd ..) fun hw => by
    refine (word27 (fMaj_mkR ..)).trans ?_
    simp_all [dec27, zeros, limit, vvv, vv0, vx0, vxx, vvx, pvv, pairf, tileFn, fFmt, Instr.wf]

theorem tmma (f : TileFmt) (d : AIdx) (a b : XIdx) : Statement (.tmma f d a b) :=
  of_word rfl (mkR_odd ..) fun hw => by
    refine (word28 (fMaj_mkR ..)).trans ?_
    cases f <;> simp_all [TileFmt.code, TileFmt.ofCode, dec28, zeros, limit, vvv, vv0, vx0, vxx, vvx, pvv, pairf,
      tileFn, fFmt, Instr.wf]

theorem tmmaSp (f : TileFmt) (d : AIdx) (a b : XIdx) : Statement (.tmmaSp f d a b) :=
  of_word rfl (mkR_odd ..) fun hw => by
    refine (word28 (fMaj_mkR ..)).trans ?_
    cases f <;> simp_all [TileFmt.code, TileFmt.ofCode, dec28, zeros, limit, vvv, vv0, vx0, vxx, vvx, pvv, pairf,
      tileFn, fFmt, Instr.wf]

theorem tzero (d : AIdx) : Statement (.tzero d) :=
  of_word rfl (mkR_odd ..) fun hw => by
    refine (word28 (fMaj_mkR ..)).trans ?_
    simp_all [dec28, zeros, limit, vvv, vv0, vx0, vxx, vvx, pvv, pairf, tileFn, fFmt, Instr.wf]

theorem tldacc (f : TileFmt) (d : AIdx) (a : XIdx) : Statement (.tldacc f d a) :=
  of_word rfl (mkR_odd ..) fun hw => by
    refine (word28 (fMaj_mkR ..)).trans ?_
    cases f <;> simp_all [TileFmt.code, TileFmt.ofCode, dec28, zeros, limit, vvv, vv0, vx0, vxx, vvx, pvv, pairf,
      tileFn, fFmt, Instr.wf]

theorem tst (f : TileFmt) (a : XIdx) (d : AIdx) : Statement (.tst f a d) :=
  of_word rfl (mkR_odd ..) fun hw => by
    refine (word28 (fMaj_mkR ..)).trans ?_
    cases f <;> simp_all [TileFmt.code, TileFmt.ofCode, dec28, zeros, limit, vvv, vv0, vx0, vxx, vvx, pvv, pairf,
      tileFn, fFmt, Instr.wf]

theorem tscale (f : TileFmt) (d : AIdx) (a b : VIdx) : Statement (.tscale f d a b) :=
  of_word rfl (mkR_odd ..) fun hw => by
    refine (word28 (fMaj_mkR ..)).trans ?_
    cases f <;> simp_all [TileFmt.code, TileFmt.ofCode, dec28, zeros, limit, vvv, vv0, vx0, vxx, vvx, pvv, pairf,
      tileFn, fFmt, Instr.wf]

theorem tadd (f : TileFmt) (d a b : AIdx) : Statement (.tadd f d a b) :=
  of_word rfl (mkR_odd ..) fun hw => by
    refine (word28 (fMaj_mkR ..)).trans ?_
    cases f <;> simp_all [TileFmt.code, TileFmt.ofCode, dec28, zeros, limit, vvv, vv0, vx0, vxx, vvx, pvv, pairf,
      tileFn, fFmt, Instr.wf]

theorem twait : Statement (.twait) :=
  of_word rfl (mkR_odd ..) fun hw => by
    refine (word28 (fMaj_mkR ..)).trans ?_
    simp_all [dec28, zeros, limit, vvv, vv0, vx0, vxx, vvx, pvv, pairf, tileFn, fFmt, Instr.wf]

theorem tdesc (f : TileFmt) (d a : XIdx) (role : BitVec 5) : Statement (.tdesc f d a role) :=
  of_word rfl (mkR_odd ..) fun hw => by
    refine (word29 (fMaj_mkR ..)).trans ?_
    cases f <;> simp_all [TileFmt.code, TileFmt.ofCode, dec29, zeros, limit, vvv, vv0, vx0, vxx, vvx, pvv, pairf,
      tileFn, fFmt, Instr.wf]

theorem tmq (a : VIdx) : Statement (.tmq a) :=
  of_word rfl (mkR_odd ..) fun hw => by
    refine (word29 (fMaj_mkR ..)).trans ?_
    simp_all [dec29, zeros, limit, vvv, vv0, vx0, vxx, vvx, pvv, pairf, tileFn, fFmt, Instr.wf]

theorem tmqClr : Statement (.tmqClr) :=
  of_word rfl (mkR_odd ..) fun hw => by
    refine (word29 (fMaj_mkR ..)).trans ?_
    simp_all [dec29, zeros, limit, vvv, vv0, vx0, vxx, vvx, pvv, pairf, tileFn, fFmt, Instr.wf]

theorem send (a b : XIdx) (n : BitVec 5) : Statement (.send a b n) :=
  of_word rfl (mkX_odd ..) fun hw => by
    refine (word30 (fMaj_mkX ..)).trans ?_
    simp_all [dec30, zeros, limit, vvv, vv0, vx0, vxx, vvx, pvv, pairf, tileFn, fFmt, Instr.wf]

theorem recv (d a : XIdx) (n : BitVec 5) : Statement (.recv d a n) :=
  of_word rfl (mkX_odd ..) fun hw => by
    refine (word30 (fMaj_mkX ..)).trans ?_
    simp_all [dec30, zeros, limit, vvv, vv0, vx0, vxx, vvx, pvv, pairf, tileFn, fFmt, Instr.wf]

theorem sendt (a b : XIdx) : Statement (.sendt a b) :=
  of_word rfl (mkX_odd ..) fun hw => by
    refine (word30 (fMaj_mkX ..)).trans ?_
    simp_all [dec30, zeros, limit, vvv, vv0, vx0, vxx, vvx, pvv, pairf, tileFn, fFmt, Instr.wf]

theorem recvt (a b : XIdx) : Statement (.recvt a b) :=
  of_word rfl (mkX_odd ..) fun hw => by
    refine (word30 (fMaj_mkX ..)).trans ?_
    simp_all [dec30, zeros, limit, vvv, vv0, vx0, vxx, vvx, pvv, pairf, tileFn, fFmt, Instr.wf]

theorem altClr : Statement (.altClr) :=
  of_word rfl (mkX_odd ..) fun hw => by
    refine (word30 (fMaj_mkX ..)).trans ?_
    simp_all [dec30, zeros, limit, vvv, vv0, vx0, vxx, vvx, pvv, pairf, tileFn, fFmt, Instr.wf]

theorem altRx (a : XIdx) (k : BitVec 5) : Statement (.altRx a k) :=
  of_word rfl (mkX_odd ..) fun hw => by
    refine (word30 (fMaj_mkX ..)).trans ?_
    simp_all [dec30, zeros, limit, vvv, vv0, vx0, vxx, vvx, pvv, pairf, tileFn, fFmt, Instr.wf]

theorem altTx (a : XIdx) (k : BitVec 5) : Statement (.altTx a k) :=
  of_word rfl (mkX_odd ..) fun hw => by
    refine (word30 (fMaj_mkX ..)).trans ?_
    simp_all [dec30, zeros, limit, vvv, vv0, vx0, vxx, vvx, pvv, pairf, tileFn, fFmt, Instr.wf]

theorem altTm (a : XIdx) (k : BitVec 5) : Statement (.altTm a k) :=
  of_word rfl (mkX_odd ..) fun hw => by
    refine (word30 (fMaj_mkX ..)).trans ?_
    simp_all [dec30, zeros, limit, vvv, vv0, vx0, vxx, vvx, pvv, pairf, tileFn, fFmt, Instr.wf]

theorem altBar (a b : XIdx) (k : BitVec 5) : Statement (.altBar a b k) :=
  of_word rfl (mkX_odd ..) fun hw => by
    refine (word30 (fMaj_mkX ..)).trans ?_
    simp_all [dec30, zeros, limit, vvv, vv0, vx0, vxx, vvx, pvv, pairf, tileFn, fFmt, Instr.wf]

theorem altWait (d : XIdx) : Statement (.altWait d) :=
  of_word rfl (mkX_odd ..) fun hw => by
    refine (word30 (fMaj_mkX ..)).trans ?_
    simp_all [dec30, zeros, limit, vvv, vv0, vx0, vxx, vvx, pvv, pairf, tileFn, fFmt, Instr.wf]

theorem chst (d a b : XIdx) : Statement (.chst d a b) :=
  of_word rfl (mkX_odd ..) fun hw => by
    refine (word30 (fMaj_mkX ..)).trans ?_
    simp_all [dec30, zeros, limit, vvv, vv0, vx0, vxx, vvx, pvv, pairf, tileFn, fFmt, Instr.wf]

theorem chcl (a : XIdx) : Statement (.chcl a) :=
  of_word rfl (mkX_odd ..) fun hw => by
    refine (word30 (fMaj_mkX ..)).trans ?_
    simp_all [dec30, zeros, limit, vvv, vv0, vx0, vxx, vvx, pvv, pairf, tileFn, fFmt, Instr.wf]

theorem chmk (d a b : XIdx) : Statement (.chmk d a b) :=
  of_word rfl (mkX_odd ..) fun hw => by
    refine (word30 (fMaj_mkX ..)).trans ?_
    simp_all [dec30, zeros, limit, vvv, vv0, vx0, vxx, vvx, pvv, pairf, tileFn, fFmt, Instr.wf]

theorem chbind (d a b : XIdx) : Statement (.chbind d a b) :=
  of_word rfl (mkX_odd ..) fun hw => by
    refine (word30 (fMaj_mkX ..)).trans ?_
    simp_all [dec30, zeros, limit, vvv, vv0, vx0, vxx, vvx, pvv, pairf, tileFn, fFmt, Instr.wf]

theorem chunb (d a b : XIdx) : Statement (.chunb d a b) :=
  of_word rfl (mkX_odd ..) fun hw => by
    refine (word30 (fMaj_mkX ..)).trans ?_
    simp_all [dec30, zeros, limit, vvv, vv0, vx0, vxx, vvx, pvv, pairf, tileFn, fFmt, Instr.wf]

theorem spawn (d a : XIdx) : Statement (.spawn d a) :=
  of_word rfl (mkX_odd ..) fun hw => by
    refine (word31 (fMaj_mkX ..)).trans ?_
    simp_all [dec31, zeros, limit, vvv, vv0, vx0, vxx, vvx, pvv, pairf, tileFn, fFmt, Instr.wf]

theorem exit : Statement (.exit) :=
  of_word rfl (mkX_odd ..) fun hw => by
    refine (word31 (fMaj_mkX ..)).trans ?_
    simp_all [dec31, zeros, limit, vvv, vv0, vx0, vxx, vvx, pvv, pairf, tileFn, fFmt, Instr.wf]

theorem yield : Statement (.yield) :=
  of_word rfl (mkX_odd ..) fun hw => by
    refine (word31 (fMaj_mkX ..)).trans ?_
    simp_all [dec31, zeros, limit, vvv, vv0, vx0, vxx, vvx, pvv, pairf, tileFn, fFmt, Instr.wf]

theorem sleep (a : XIdx) : Statement (.sleep a) :=
  of_word rfl (mkX_odd ..) fun hw => by
    refine (word31 (fMaj_mkX ..)).trans ?_
    simp_all [dec31, zeros, limit, vvv, vv0, vx0, vxx, vvx, pvv, pairf, tileFn, fFmt, Instr.wf]

theorem setcl (d a : XIdx) : Statement (.setcl d a) :=
  of_word rfl (mkX_odd ..) fun hw => by
    refine (word31 (fMaj_mkX ..)).trans ?_
    simp_all [dec31, zeros, limit, vvv, vv0, vx0, vxx, vvx, pvv, pairf, tileFn, fFmt, Instr.wf]

theorem dline (d a b : XIdx) : Statement (.dline d a b) :=
  of_word rfl (mkX_odd ..) fun hw => by
    refine (word31 (fMaj_mkX ..)).trans ?_
    simp_all [dec31, zeros, limit, vvv, vv0, vx0, vxx, vvx, pvv, pairf, tileFn, fFmt, Instr.wf]

theorem migr (d a : XIdx) : Statement (.migr d a) :=
  of_word rfl (mkX_odd ..) fun hw => by
    refine (word31 (fMaj_mkX ..)).trans ?_
    simp_all [dec31, zeros, limit, vvv, vv0, vx0, vxx, vvx, pvv, pairf, tileFn, fFmt, Instr.wf]

theorem barInit (a b : XIdx) : Statement (.barInit a b) :=
  of_word rfl (mkX_odd ..) fun hw => by
    refine (word32 (fMaj_mkX ..)).trans ?_
    simp_all [dec32, zeros, limit, vvv, vv0, vx0, vxx, vvx, pvv, pairf, tileFn, fFmt, Instr.wf]

theorem barArr (d a : XIdx) : Statement (.barArr d a) :=
  of_word rfl (mkX_odd ..) fun hw => by
    refine (word32 (fMaj_mkX ..)).trans ?_
    simp_all [dec32, zeros, limit, vvv, vv0, vx0, vxx, vvx, pvv, pairf, tileFn, fFmt, Instr.wf]

theorem barWait (a b : XIdx) : Statement (.barWait a b) :=
  of_word rfl (mkX_odd ..) fun hw => by
    refine (word32 (fMaj_mkX ..)).trans ?_
    simp_all [dec32, zeros, limit, vvv, vv0, vx0, vxx, vvx, pvv, pairf, tileFn, fFmt, Instr.wf]

theorem msGet (a b : XIdx) : Statement (.msGet a b) :=
  of_word rfl (mkX_odd ..) fun hw => by
    refine (word33 (fMaj_mkX ..)).trans ?_
    simp_all [dec33, zeros, limit, vvv, vv0, vx0, vxx, vvx, pvv, pairf, tileFn, fFmt, Instr.wf]

theorem msPut (a b : XIdx) : Statement (.msPut a b) :=
  of_word rfl (mkX_odd ..) fun hw => by
    refine (word33 (fMaj_mkX ..)).trans ?_
    simp_all [dec33, zeros, limit, vvv, vv0, vx0, vxx, vvx, pvv, pairf, tileFn, fFmt, Instr.wf]

theorem msGath (a b : XIdx) : Statement (.msGath a b) :=
  of_word rfl (mkX_odd ..) fun hw => by
    refine (word33 (fMaj_mkX ..)).trans ?_
    simp_all [dec33, zeros, limit, vvv, vv0, vx0, vxx, vvx, pvv, pairf, tileFn, fFmt, Instr.wf]

theorem msScat (a b : XIdx) : Statement (.msScat a b) :=
  of_word rfl (mkX_odd ..) fun hw => by
    refine (word33 (fMaj_mkX ..)).trans ?_
    simp_all [dec33, zeros, limit, vvv, vv0, vx0, vxx, vvx, pvv, pairf, tileFn, fFmt, Instr.wf]

theorem msFill (a b : XIdx) : Statement (.msFill a b) :=
  of_word rfl (mkX_odd ..) fun hw => by
    refine (word33 (fMaj_mkX ..)).trans ?_
    simp_all [dec33, zeros, limit, vvv, vv0, vx0, vxx, vvx, pvv, pairf, tileFn, fFmt, Instr.wf]

theorem msCas (a b : XIdx) : Statement (.msCas a b) :=
  of_word rfl (mkX_odd ..) fun hw => by
    refine (word33 (fMaj_mkX ..)).trans ?_
    simp_all [dec33, zeros, limit, vvv, vv0, vx0, vxx, vvx, pvv, pairf, tileFn, fFmt, Instr.wf]

theorem msStat (d b : XIdx) (item : BitVec 5) : Statement (.msStat d b item) :=
  of_word rfl (mkX_odd ..) fun hw => by
    refine (word33 (fMaj_mkX ..)).trans ?_
    simp_all [dec33, zeros, limit, vvv, vv0, vx0, vxx, vvx, pvv, pairf, tileFn, fFmt, Instr.wf]

theorem nop : Statement (.nop) :=
  of_word rfl (mkX_odd ..) fun hw => by
    refine (word19 (fMaj_mkX ..)).trans ?_
    simp_all [dec19, mkK, fK, csrf, zeros, limit, vvv, vv0, vx0, vxx, vvx, pvv, pairf, tileFn, fFmt, Instr.wf]

theorem cNop : Statement (.cNop) :=
  of_half rfl (by decide) fun _ => rfl

theorem faultRecordSend : Statement (.faultRecordSend) := of_none rfl

theorem faultReply : Statement (.faultReply) := of_none rfl

theorem monitorReply : Statement (.monitorReply) := of_none rfl

theorem preemptionHalt : Statement (.preemptionHalt) := of_none rfl

theorem dispatch : Statement (.dispatch) := of_none rfl

theorem quantumExpiry : Statement (.quantumExpiry) := of_none rfl

theorem class0Release : Statement (.class0Release) := of_none rfl

theorem budgetExhausted : Statement (.budgetExhausted) := of_none rfl

theorem ghostLightWindow : Statement (.ghostLightWindow) := of_none rfl

theorem ghostLightAllowanceEnd : Statement (.ghostLightAllowanceEnd) := of_none rfl

theorem spillDone : Statement (.spillDone) := of_none rfl

theorem fillDone : Statement (.fillDone) := of_none rfl

theorem placementCommit : Statement (.placementCommit) := of_none rfl

theorem placementCompaction : Statement (.placementCompaction) := of_none rfl

theorem placementTimeout : Statement (.placementTimeout) := of_none rfl

theorem priorityLoan : Statement (.priorityLoan) := of_none rfl

theorem migration : Statement (.migration) := of_none rfl

theorem writeLands : Statement (.writeLands) := of_none rfl

theorem inboundRequest : Statement (.inboundRequest) := of_none rfl

theorem amoRelease : Statement (.amoRelease) := of_none rfl

theorem remoteLoadReturn : Statement (.remoteLoadReturn) := of_none rfl

theorem fenceComplete : Statement (.fenceComplete) := of_none rfl

theorem drainNtComplete : Statement (.drainNtComplete) := of_none rfl

theorem cfenceWComplete : Statement (.cfenceWComplete) := of_none rfl

theorem vectorCommit : Statement (.vectorCommit) := of_none rfl

theorem vectorLoadReturn : Statement (.vectorLoadReturn) := of_none rfl

theorem streamReadAhead : Statement (.streamReadAhead) := of_none rfl

theorem streamPushLand : Statement (.streamPushLand) := of_none rfl

theorem sstopComplete : Statement (.sstopComplete) := of_none rfl

theorem tileGroup : Statement (.tileGroup) := of_none rfl

theorem tstWriteLand : Statement (.tstWriteLand) := of_none rfl

theorem twaitComplete : Statement (.twaitComplete) := of_none rfl

theorem tmqPush : Statement (.tmqPush) := of_none rfl

theorem msRequestAccept : Statement (.msRequestAccept) := of_none rfl

theorem msContextStart : Statement (.msContextStart) := of_none rfl

theorem msTranslationRefill : Statement (.msTranslationRefill) := of_none rfl

theorem msPiece : Statement (.msPiece) := of_none rfl

theorem cxlMemCompletion : Statement (.cxlMemCompletion) := of_none rfl

theorem msCompletion : Statement (.msCompletion) := of_none rfl

theorem channelArrival : Statement (.channelArrival) := of_none rfl

theorem tileTransferDone : Statement (.tileTransferDone) := of_none rfl

theorem timerGuard : Statement (.timerGuard) := of_none rfl

theorem sleepExpiry : Statement (.sleepExpiry) := of_none rfl

theorem externalSendRead : Statement (.externalSendRead) := of_none rfl

theorem probeSend : Statement (.probeSend) := of_none rfl

theorem probeArrival : Statement (.probeArrival) := of_none rfl

theorem hearthArrival : Statement (.hearthArrival) := of_none rfl

theorem linkResend : Statement (.linkResend) := of_none rfl

theorem causalDelivery : Statement (.causalDelivery) := of_none rfl

theorem columnFlitSend : Statement (.columnFlitSend) := of_none rfl

theorem columnFlitReceive : Statement (.columnFlitReceive) := of_none rfl

theorem reclockEnd : Statement (.reclockEnd) := of_none rfl

theorem coreDomainReset : Statement (.coreDomainReset) := of_none rfl

theorem coreDomainResetEnd : Statement (.coreDomainResetEnd) := of_none rfl

theorem uncoreReset : Statement (.uncoreReset) := of_none rfl

theorem sceneBlockDone : Statement (.sceneBlockDone) := of_none rfl

theorem sceneDrainEnd : Statement (.sceneDrainEnd) := of_none rfl

theorem sceneDrainTimeout : Statement (.sceneDrainTimeout) := of_none rfl

theorem sceneUnmapDone : Statement (.sceneUnmapDone) := of_none rfl

theorem edgeLockGrant : Statement (.edgeLockGrant) := of_none rfl

theorem sceneTrainDone : Statement (.sceneTrainDone) := of_none rfl

theorem sceneTrainTimeout : Statement (.sceneTrainTimeout) := of_none rfl

theorem sceneLinkupDone : Statement (.sceneLinkupDone) := of_none rfl

theorem sceneReleaseDone : Statement (.sceneReleaseDone) := of_none rfl

theorem dvfsStep : Statement (.dvfsStep) := of_none rfl

theorem dvfsStepEnd : Statement (.dvfsStepEnd) := of_none rfl

theorem uetPacketArrival : Statement (.uetPacketArrival) := of_none rfl

theorem uetAckSend : Statement (.uetAckSend) := of_none rfl

theorem uetAckReceive : Statement (.uetAckReceive) := of_none rfl

theorem uetRetransmitTimeout : Statement (.uetRetransmitTimeout) := of_none rfl

theorem ualinkInboundRequest : Statement (.ualinkInboundRequest) := of_none rfl

theorem apertureResponse : Statement (.apertureResponse) := of_none rfl

theorem hostQueueInbound : Statement (.hostQueueInbound) := of_none rfl

theorem hostQueueOutbound : Statement (.hostQueueOutbound) := of_none rfl

theorem queueDoorbell : Statement (.queueDoorbell) := of_none rfl

theorem cmdLoad : Statement (.cmdLoad) := of_none rfl

theorem cmdLaunch : Statement (.cmdLaunch) := of_none rfl

theorem launchComplete : Statement (.launchComplete) := of_none rfl

theorem cmdEnd : Statement (.cmdEnd) := of_none rfl

theorem cmdWaitge : Statement (.cmdWaitge) := of_none rfl

theorem waitgeSatisfied : Statement (.waitgeSatisfied) := of_none rfl

theorem cmdSignal : Statement (.cmdSignal) := of_none rfl

theorem cmdCopy : Statement (.cmdCopy) := of_none rfl

theorem copyComplete : Statement (.copyComplete) := of_none rfl

theorem cmdPin : Statement (.cmdPin) := of_none rfl

theorem cmdUnpin : Statement (.cmdUnpin) := of_none rfl

theorem cmdWindow : Statement (.cmdWindow) := of_none rfl

theorem cmdExtep : Statement (.cmdExtep) := of_none rfl

theorem cmdHostep : Statement (.cmdHostep) := of_none rfl

theorem cmdIrq : Statement (.cmdIrq) := of_none rfl

theorem cmdLoop : Statement (.cmdLoop) := of_none rfl

theorem cmdIf : Statement (.cmdIf) := of_none rfl

theorem cmdTrig : Statement (.cmdTrig) := of_none rfl

theorem triggerWrite : Statement (.triggerWrite) := of_none rfl

theorem triggerRun : Statement (.triggerRun) := of_none rfl

theorem cmdScene : Statement (.cmdScene) := of_none rfl

theorem cmdRemove : Statement (.cmdRemove) := of_none rfl

theorem cmdAdmit : Statement (.cmdAdmit) := of_none rfl

theorem cmdCue : Statement (.cmdCue) := of_none rfl

theorem cmdMkey : Statement (.cmdMkey) := of_none rfl

theorem mkeyKeyholdExpiry : Statement (.mkeyKeyholdExpiry) := of_none rfl

theorem queueRestart : Statement (.queueRestart) := of_none rfl

theorem lifeCycleChange : Statement (.lifeCycleChange) := of_none rfl

theorem attestationReport : Statement (.attestationReport) := of_none rfl

theorem packageReset : Statement (.packageReset) := of_none rfl

theorem thermalThrottle : Statement (.thermalThrottle) := of_none rfl

theorem thermalTrip : Statement (.thermalTrip) := of_none rfl

theorem controlRegisterWrite : Statement (.controlRegisterWrite) := of_none rfl

theorem unallocatedEncoding : Statement (.unallocatedEncoding) := of_none rfl

theorem fetchWindow : Statement (.fetchWindow) := of_none rfl

theorem edgeGroupRetrain : Statement (.edgeGroupRetrain) := of_none rfl

theorem ualinkDomainFormed : Statement (.ualinkDomainFormed) := of_none rfl

theorem monitorAssignment : Statement (.monitorAssignment) := of_none rfl

end Sys2Proof.Laws.RoundTrip
end

