-- ==== Sys2Proof/Tests/Slice0.lean ====
section
/-! SUPPORT. Tests: ill-formed terms that the well-formedness check refuses, words put together by hand from the
encoding tables of the spec, single steps against hand-computed results, and for each statement with hypotheses a
state that meets them. -/

set_option Elab.async false

namespace Sys2Proof.Tests

open Sys2Proof Sys2Proof.Machine

/-! Every check of well-formedness refuses a term -/

theorem test_wf_compact : ∀ i ∈ [Instr.cAddi 0 1, .cLi 0 1, .cMv 0 1, .cAdd 0 1, .cSub 0 1, .cAnd 0 1, .cOr 0 1,
    .cXor 0 1, .cSlli 0 1, .cSrli 0 1], i.wf = false := by decide

theorem test_wf_vector : ∀ i ∈ [Instr.vqsatI16 0 1 2 0, .vqsatI16 0 1 2 17, .vqsatI32 0 1 2 0,
    .vcvt .f32 .f32 .dyn 0 0 1 2, .vcvt .i16 .q15 .dyn 0 0 1 2, .vcvt .f32 .f16 .dyn 2 0 1 2, .vcvtSr .f16 2 0 1 2 3,
    .vunpk .i16 2 0 1 2, .vredsum (.u .w32) 0 1 2, .vgath .w8 0 1 2 3, .vgath .w32 0 1 2 1, .vscat .w8 0 1 2 3],
    i.wf = false := by decide

theorem test_wf_stream_tile : ∀ i ∈ [Instr.scfg 0 5 1, .tmma .i8 0 3 4, .tmma .i8 0 4 0, .tmmaSp .i8 0 4 5,
    .tldacc .f32 0 1, .tst .f32 1 0, .tdesc .i8 1 3 0, .tdesc .i8 1 4 6], i.wf = false := by decide

theorem test_wf_channel : ∀ i ∈ [Instr.send 1 2 0, .send 1 2 9, .send 1 25 8, .recv 25 1 8, .recv 2 1 0, .sendt 1 3,
    .recvt 1 0, .altRx 1 16, .altTx 1 16, .altTm 1 16, .altBar 1 2 16, .msStat 1 2 5], i.wf = false := by decide

theorem test_wf_accepts : ∀ i ∈ [Instr.cAddi 1 0, .vqsatI16 0 1 2 16, .vqsatI32 0 1 2 31, .vcvt .f32 .e4m3 .dyn 3 0 1 2,
    .vcvtSr .e5m2 3 0 1 2 3, .vunpk .u8 1 0 1 2, .vredmax (.u .w8) 0 1 2, .vgath .w16 0 1 2 3, .scfg 7 4 1,
    .tmma .bs8 3 2 30, .tdesc .i8 1 30 5, .send 1 24 8, .recv 31 1 1, .altBar 1 2 15, .msStat 1 2 4],
    i.wf = true := by decide

/-! Words put together from the formats of R61 to R72 and the tables of codes: the sum of the fields at their places -/

/-- Formats R, I, U, S and B, V and X: the fields at bits 31:22, 21:17, 16:12, 11:7, the major at 6:1 and a 1. -/
def wR (maj fn b a d : Nat) : BitVec 32 := BitVec.ofNat 32 (fn * 2 ^ 22 + b * 2 ^ 17 + a * 2 ^ 12 + d * 2 ^ 7 + maj * 2 + 1)
def wI (maj imm a d : Nat) : BitVec 32 := BitVec.ofNat 32 (imm * 2 ^ 17 + a * 2 ^ 12 + d * 2 ^ 7 + maj * 2 + 1)
def wU (maj imm d : Nat) : BitVec 32 := BitVec.ofNat 32 (imm * 2 ^ 12 + d * 2 ^ 7 + maj * 2 + 1)
def wV (maj fn7 m b a d : Nat) : BitVec 32 := wR maj (fn7 * 8 + m) b a d
def wX (maj imm5 fn5 b a d : Nat) : BitVec 32 := wR maj (imm5 * 32 + fn5) b a d

/-- What the decoder reads. -/
def word (w : BitVec 32) : Option Instr := (decodeWord w).toOption
def half (h : BitVec 16) : Option Instr := (decodeHalf h).toOption

/-- Each word decodes to its instruction. -/
abbrev Words (l : List (BitVec 32 × Instr)) : Prop := ∀ x ∈ l, word x.1 = some x.2

theorem test_words_01 : Words [(wR 1 0 3 2 1, .add 1 2 3), (wR 1 1 3 2 1, .sub 1 2 3), (wR 1 2 3 2 1, .and 1 2 3),
    (wR 1 3 3 2 1, .or 1 2 3), (wR 1 4 3 2 1, .xor 1 2 3), (wR 1 5 3 2 1, .andn 1 2 3), (wR 1 8 3 2 1, .sll 1 2 3),
    (wR 1 9 3 2 1, .srl 1 2 3), (wR 1 10 3 2 1, .sra 1 2 3), (wR 1 11 3 2 1, .ror 1 2 3), (wR 1 16 3 2 1, .slt 1 2 3),
    (wR 1 17 3 2 1, .sltu 1 2 3), (wR 1 18 3 2 1, .min 1 2 3), (wR 1 19 3 2 1, .max 1 2 3),
    (wR 1 20 3 2 1, .minu 1 2 3), (wR 1 21 3 2 1, .maxu 1 2 3), (wR 1 32 3 2 1, .mul 1 2 3),
    (wR 1 33 3 2 1, .mulh 1 2 3), (wR 1 34 3 2 1, .mulhu 1 2 3), (wR 1 35 3 2 1, .mulhsu 1 2 3),
    (wR 1 40 3 2 1, .div 1 2 3), (wR 1 41 3 2 1, .divu 1 2 3), (wR 1 42 3 2 1, .rem 1 2 3),
    (wR 1 43 3 2 1, .remu 1 2 3), (wR 1 64 0 2 1, .clz 1 2), (wR 1 65 0 2 1, .ctz 1 2), (wR 1 66 0 2 1, .popc 1 2),
    (wR 1 72 0 2 1, .sextB 1 2), (wR 1 73 0 2 1, .sextH 1 2), (wR 1 74 0 2 1, .sextW 1 2),
    (wR 1 75 0 2 1, .zextW 1 2)] := by decide +kernel

theorem test_words_immediate : Words [(0xFFFF4A05, .addi 20 20 0x7FFF), (wI 3 5 2 1, .andi 1 2 5), (wI 4 5 2 1, .ori 1 2 5),
    (wI 5 5 2 1, .xori 1 2 5), (wI 6 5 2 1, .slti 1 2 5), (wI 7 5 2 1, .sltiu 1 2 5), (wI 8 63 2 1, .slli 1 2 63),
    (wI 8 (64 * 64 + 9) 2 1, .srli 1 2 9), (wI 8 (128 * 64 + 9) 2 1, .srai 1 2 9), (wU 9 0x80001 1, .lih 1 0x80001),
    (wU 10 7 1, .addpc 1 7)] := by decide +kernel

theorem test_words_memory : Words [(wI 11 0x801 2 1, .ldb 1 2 0x801), (wI 11 (0x1000 + 3) 2 1, .ldh 1 2 3),
    (0x40102A97, .ldw 21 2 8), (wI 11 (3 * 0x1000 + 3) 2 1, .ldd 1 2 3), (wI 11 (4 * 0x1000 + 3) 2 1, .ldbu 1 2 3),
    (wI 11 (5 * 0x1000 + 3) 2 1, .ldhu 1 2 3), (wI 11 (6 * 0x1000 + 3) 2 1, .ldwu 1 2 3), (wR 12 3 1 2 5, .stb 1 2 0x65),
    (wR 12 (128 + 3) 1 2 5, .sth 1 2 0x65), (wR 12 (256 + 3) 1 2 5, .stw 1 2 0x65), (wR 12 (384 + 3) 1 2 5, .std 1 2 0x65)] := by
  decide +kernel

theorem test_words_control : Words [(wR 16 3 2 1 4, .beq 1 2 0x64), (0xFFC14F23, .bne 20 0 0x7FFE), (wR 18 3 2 1 4, .blt 1 2 0x64),
    (wR 19 3 2 1 4, .bge 1 2 0x64), (wR 20 3 2 1 4, .bltu 1 2 0x64), (wR 21 3 2 1 4, .bgeu 1 2 0x64),
    (wU 22 0xFFFFE 1, .jal 1 0xFFFFE), (wI 23 0x4001 2 1, .jalr 1 2 0x4001), (wR 25 1 0 0 0, .nop),
    (wX 25 1 2 3 4 0, .trap 4 0x23), (wX 25 1 3 3 0 0, .brk 0x23), (wR 25 4 2 1 0, .ifl 1 2),
    (wX 25 0 5 0x11 0 1, .csrr 1 .fpflags), (wX 25 0 6 0x10 2 0, .csrw .fpmode 2), (wX 25 6 7 1 2 1, .csrs 1 .probe 2),
    (wX 25 4 8 0 2 1, .csrc 1 .tstat 2)] := by decide +kernel

theorem test_words_sync : Words [(wR 13 3 0 2 1, .ldaq .d 1 2), (wR 13 (4 + 1) 1 2 0, .strl .h 1 2), (wR 13 16 0 2 1, .ldf 1 2),
    (wR 13 17 0 2 1, .lde 1 2), (wR 13 18 1 2 0, .stf 1 2), (wR 13 19 1 2 0, .ste 1 2), (wR 13 20 1 2 0, .fefill 2 1),
    (wR 13 21 1 2 0, .feclr 2 1), (wR 13 24 3 2 1, .waitw 1 2 3), (wR 13 25 3 2 1, .waitc 1 2 3),
    (wR 13 32 1 2 0, .stNt 1 2), (wR 13 33 0 0 0, .drainNt), (wR 14 0 0 2 1, .rsv 1 2), (wR 14 1 3 2 0, .rls 2 3),
    (wR 14 2 3 2 1, .amoAdd false 1 2 3), (wR 14 (16 + 3) 3 2 1, .amoAnd true 1 2 3), (wR 14 4 3 2 1, .amoOr false 1 2 3),
    (wR 14 5 3 2 1, .amoXor false 1 2 3), (wR 14 6 3 2 1, .amoMin false 1 2 3), (wR 14 7 3 2 1, .amoMax false 1 2 3),
    (wR 14 8 3 2 1, .amoMinu false 1 2 3), (wR 14 9 3 2 1, .amoMaxu false 1 2 3), (wR 14 10 3 2 1, .amoSwap false 1 2 3),
    (wR 14 11 3 2 1, .amoCas false 1 2 3), (wR 15 3 0 0 0, .fence .pkg), (wR 15 8 0 0 1, .cfenceI 1),
    (wR 15 9 0 2 0, .cfenceW 2)] := by decide +kernel

theorem test_words_20 : Words [(0x1E0620C1, .vfma .f32 .dyn 0 1 2 3), (0xA48C5241, .vadd .bf16 .rtz 2 4 5 6),
    (wV 32 (40 + 6) 1 3 2 1, .vsub .f16 .rne 1 1 2 3), (wV 32 13 1 3 2 1, .vmul .f32 .rup 1 1 2 3),
    (wV 32 24 1 3 2 1, .vfms .f32 .rdn 1 1 2 3), (wV 32 25 1 3 2 1, .vfnma .f32 .dyn 1 1 2 3),
    (wV 32 70 1 3 2 1, .vmax .f16 1 1 2 3), (wV 32 111 1 3 2 1, .vmin .bf16 1 1 2 3), (wV 32 32 1 0 2 1, .vabs .f32 1 1 2),
    (wV 32 33 1 0 2 1, .vneg .f32 1 1 2), (wV 32 (40 + 39) 1 3 2 4, .vcmp .f16 .ord 1 4 2 3),
    (wV 32 120 1 3 2 1, .vsel 1 1 2 3)] := by decide +kernel

theorem test_words_21 : Words [(wV 33 0 1 3 2 4, .viadd .w32 1 4 2 3), (wV 33 5 1 3 2 4, .visub .w16 1 4 2 3),
    (wV 33 10 1 3 2 4, .vimul .w8 1 4 2 3), (wV 33 12 1 3 2 4, .vimulhI .w32 1 4 2 3), (wV 33 16 1 3 2 4, .vimulhU .w32 1 4 2 3),
    (wV 33 20 1 3 2 4, .vimac .w32 1 4 2 3), (wV 33 24 1 3 2 4, .vand 1 4 2 3), (wV 33 28 1 3 2 4, .vor 1 4 2 3),
    (wV 33 32 1 3 2 4, .vxor 1 4 2 3), (wV 33 36 1 3 2 4, .vshl .w32 1 4 2 3), (wV 33 40 1 3 2 4, .vshr .w32 1 4 2 3),
    (wV 33 44 1 3 2 4, .vsar .w32 1 4 2 3), (wV 33 48 1 3 2 4, .viminI .w32 1 4 2 3), (wV 33 52 1 3 2 4, .viminU .w32 1 4 2 3),
    (wV 33 56 1 3 2 4, .vimaxI .w32 1 4 2 3), (wV 33 60 1 3 2 4, .vimaxU .w32 1 4 2 3), (wV 33 64 1 0 2 4, .viabs .w32 1 4 2),
    (wV 33 68 1 3 2 4, .vsaddI .w32 1 4 2 3), (wV 33 72 1 3 2 4, .vsaddU .w32 1 4 2 3), (wV 33 76 1 3 2 4, .vssubI .w32 1 4 2 3),
    (wV 33 80 1 3 2 4, .vssubU .w32 1 4 2 3), (0xBA0A41C3, .vicmp .lt .w16 0 3 4 5),
    (wV 33 104 1 3 2 4, .vicmp .leu .w32 1 4 2 3)] := by decide +kernel

theorem test_words_22 : Words [(0x240213C5, .vcvt .bf16 .f32 .dyn 1 0 7 1), (wV 34 (9 * 8 + 1) 1 (4 * 2) 2 4, .vcvt .q15 .f16 .rtz 0 1 4 2),
    (wV 34 81 1 0 2 4, .vmov 1 4 2), (wV 34 82 1 0 0 4, .vzero 1 4), (wV 34 84 1 0 20 4, .vbcast .w16 1 4 20),
    (wV 34 86 0 20 2 21, .vextr .w32 21 2 20), (wV 34 91 0 20 21 4, .vins .w8 4 21 20), (wV 34 92 1 0 20 4, .vidx .w32 1 4 20),
    (wV 34 97 1 3 2 4, .vcvtSr .f16 1 1 4 2 3), (wV 34 102 1 3 2 4, .vcvtSr .e5m2 2 1 4 2 3),
    (wV 34 109 1 3 2 4, .vpack .u16 1 4 2 3), (wV 34 114 1 1 2 4, .vunpk .i8 1 1 4 2)] := by decide +kernel

theorem test_words_23 : Words [(0x00014147, .vld .w32 0 2 20 0), (wV 35 4 1 21 20 4, .vst .w16 1 4 20 21),
    (wV 35 8 1 21 20 4, .vlds .w8 1 4 20 21), (wV 35 9 1 21 20 4, .vsts .w32 1 4 20 21), (wV 35 13 1 3 20 4, .vgath .w16 1 4 20 3),
    (wV 35 14 1 3 20 4, .vscat .w32 1 4 20 3), (wV 35 18 1 0 20 4, .vldb .w8 1 4 20)] := by decide +kernel

theorem test_words_24 : Words [(wV 36 0 1 0 2 4, .vrecip .f32 1 4 2), (wV 36 5 1 0 2 4, .vrsqrt .f16 1 4 2),
    (wV 36 10 1 3 2 4, .vsqrt .bf16 .rup 1 4 2), (wV 36 12 1 0 2 4, .vexp2 .f32 1 4 2), (wV 36 16 1 0 2 4, .vlog2 .f32 1 4 2),
    (wV 36 20 1 0 2 4, .vsin .f32 1 4 2), (wV 36 24 1 0 2 4, .vcos .f32 1 4 2), (wV 36 28 1 0 2 4, .vtanh .f32 1 4 2),
    (wV 36 32 1 0 2 4, .vsigm .f32 1 4 2), (0x802B41C9, .vrand 0 3 20 21)] := by decide +kernel

theorem test_words_25 : Words [(wV 37 1 1 0 2 4, .vredsum (.f .f16) 1 4 2), (wV 37 11 1 0 2 4, .vredsum (.i .w8) 1 4 2),
    (wV 37 16 1 0 2 4, .vredmax (.u .w16) 1 4 2), (wV 37 18 1 0 2 4, .vredmin (.i .w32) 1 4 2), (wV 37 24 1 0 2 4, .vscan .f32 1 4 2),
    (wV 37 26 1 0 2 4, .vscan .i16 1 4 2), (wV 37 29 1 3 2 4, .vshuf .w8 1 4 2 3), (wV 37 30 1 20 2 4, .vrot .w32 1 4 2 20),
    (wV 37 34 1 20 2 4, .vslide .w16 1 4 2 20), (wV 37 36 1 0 2 4, .vcomp .w32 1 4 2), (wV 37 41 1 0 2 4, .vexpd .w8 1 4 2),
    (wV 37 64 0 0 20 4, .pset 4 20), (wV 37 65 0 3 2 4, .pand 4 2 3), (wV 37 66 0 3 2 4, .por 4 2 3), (wV 37 67 0 0 2 4, .pnot 4 2),
    (wV 37 68 0 0 2 20, .pcnt 20 2), (wV 37 69 0 0 2 20, .pfirst 20 2)] := by decide +kernel

theorem test_words_26_27 : Words [(wV 38 0 1 3 2 4, .vqmul 1 4 2 3), (wV 38 1 1 3 2 4, .vqmac 1 4 2 3), (wV 38 2 1 31 2 4, .vqrndLo 1 4 2 31),
    (wV 38 3 1 31 2 4, .vqrndHi 1 4 2 31), (wV 38 4 1 16 2 4, .vqsatI16 1 4 2 16), (wV 38 5 1 31 2 4, .vqsatI32 1 4 2 31),
    (wR 39 (4 * 8 + 0) 0 20 9, .scfg 1 4 20), (wR 39 1 0 20 9, .sbase 1 20), (0x0080044F, .sstart 0), (wR 39 3 0 0 15, .sstop 7),
    (0xFF11AFCF, .sbr 0 0x1FFFA), (wR 39 5 0 9 20, .sstat 20 1)] := by decide +kernel

theorem test_words_28_29 : Words [(wR 40 (16 * 7) 4 2 1, .tmma .bs8 1 2 4), (wR 40 (16 * 4 + 1) 4 2 1, .tmmaSp .i8 1 2 4),
    (wR 40 2 0 0 3, .tzero 3), (wR 40 (16 * 9 + 3) 0 2 1, .tldacc .i32 1 2), (wR 40 (16 * 8 + 4) 0 2 1, .tst .f32 2 1),
    (wR 40 (16 * 8 + 5) 4 2 1, .tscale .f32 1 2 4), (wR 40 (16 * 9 + 6) 3 2 1, .tadd .i32 1 2 3), (wR 40 7 0 0 0, .twait),
    (wR 41 (16 * 10) 5 2 20, .tdesc .i16 20 2 5), (wR 41 1 0 2 0, .tmq 2), (wR 41 2 0 0 0, .tmqClr)] := by decide +kernel

theorem test_words_30_33 : Words [(wX 48 8 0 24 10 0, .send 10 24 8), (wX 48 1 1 0 10 31, .recv 31 10 1), (wR 48 2 4 10 0, .sendt 10 4),
    (wR 48 3 4 10 0, .recvt 10 4), (wR 48 4 0 0 0, .altClr), (wX 48 15 5 0 10 0, .altRx 10 15), (wX 48 15 6 0 10 0, .altTx 10 15),
    (wX 48 15 7 0 10 0, .altTm 10 15), (wX 48 15 8 11 10 0, .altBar 10 11 15), (wR 48 9 0 0 1, .altWait 1), (wR 48 10 3 2 1, .chst 1 2 3),
    (wR 48 11 0 2 0, .chcl 2), (wR 48 12 3 2 1, .chmk 1 2 3), (wR 48 13 3 2 1, .chbind 1 2 3), (wR 48 14 3 2 1, .chunb 1 2 3),
    (wR 49 0 0 2 1, .spawn 1 2), (wR 49 1 0 0 0, .exit), (wR 49 2 0 0 0, .yield), (wR 49 3 0 2 0, .sleep 2), (wR 49 4 0 2 1, .setcl 1 2),
    (wR 49 5 3 2 1, .dline 1 2 3), (wR 49 6 0 2 1, .migr 1 2), (wR 50 0 3 2 0, .barInit 2 3), (wR 50 1 0 2 1, .barArr 1 2),
    (wR 50 2 3 2 0, .barWait 2 3), (wR 51 0 3 2 0, .msGet 2 3), (wR 51 1 3 2 0, .msPut 2 3), (wR 51 2 3 2 0, .msGath 2 3),
    (wR 51 3 3 2 0, .msScat 2 3), (wR 51 4 3 2 0, .msFill 2 3), (wR 51 5 3 2 0, .msCas 2 3), (wX 51 4 6 3 0 1, .msStat 1 3 4)] := by
  decide +kernel

/-- Compact halfwords: the operand fields at 15:5, OP4 at 4:1, and a 0 (R72, Table 3.6). -/
def hC (op x : Nat) : BitVec 16 := BitVec.ofNat 16 (x * 32 + op * 2)

theorem test_halves : ∀ x ∈ [(0xFE82, Instr.cAddi 20 0x3F), (hC 2 (33 * 32 + 5), .cLi 5 33), (hC 3 (6 * 32 + 5), .cMv 5 6),
    (hC 3 (1024 + 6 * 32 + 5), .cAdd 5 6), (hC 4 (6 * 32 + 5), .cSub 5 6), (hC 4 (1024 + 6 * 32 + 5), .cAnd 5 6),
    (hC 5 (6 * 32 + 5), .cOr 5 6), (hC 5 (1024 + 6 * 32 + 5), .cXor 5 6), (hC 6 (63 * 32 + 5), .cSlli 5 63),
    (hC 7 (63 * 32 + 5), .cSrli 5 63), (hC 8 (31 * 64 + 2 * 8 + 5), .cLdd 5 2 31), (hC 9 (31 * 64 + 2 * 8 + 5), .cStd 5 2 31),
    (hC 10 (31 * 64 + 2 * 8 + 5), .cLdw 5 2 31), (hC 11 (31 * 64 + 2 * 8 + 5), .cStw 5 2 31), (hC 12 (0x81 * 8 + 5), .cBeqz 5 0x81),
    (hC 13 (0x81 * 8 + 5), .cBnez 5 0x81), (hC 14 0x401, .cJ 0x401), (hC 15 0, .cNop)], half x.1 = some x.2 := by decide +kernel

/-- Reserved codes are no instructions: OP4 0, d = 0 in `c.addi`, function value 6 of major 0x01, a B field of `clz`, the
reserved pair i16 from q15, W 3, a v field of 16, an odd pair, CSR 0x007. -/
theorem test_reserved : ([hC 0 5, hC 1 32].all fun h => (half h).isNone) = true ∧ ([wR 1 6 3 2 1, wR 1 64 1 2 1,
    wV 34 (9 * 6 + 8) 0 0 2 1, wV 33 3 0 3 2 1, wV 32 0 0 3 2 16, wR 40 0 4 3 1, wX 25 0 5 7 0 1].all
      fun w => (word w).isNone) = true := by decide +kernel

/-! A process, a region with windows on the whole local memory of its core, and a state in which that process runs -/

/-- A supervisor process of class T on core 3 with 1000 + r in x[r]. -/
def tp : Proc :=
  { pid := 5, region := 1, priv := .s, cls := .t, nregs := 32, st := .running, loc := .green, core := 3, pc := 0x100,
    base := 1, eff := 1, x := Vector.ofFn fun i => BitVec.ofNat 64 (1000 + i.val) }

/-- A root region. -/
def treg : Region :=
  { num := 1, parent := 1, depth := 0, ovr := 0, ceil := 0, fdepth := 4, plto := 1000, corebud := 8192, grbud := 4194304,
    faultep := 0, replyep := 0, faulttab := 0, segtab := 0x8000001000, chtab := 77, wintab := 0 }

/-- A window of the loader. -/
def twin (ex : Bool) : LoaderWin := { region := 1, core := 3, win := { base := 0, limit := 0x5FFFF, rd := !ex, wr := !ex, ex := ex } }

/-- The machine 1 ms after reset with that region, data window and process. -/
def ts (p : Proc) : State :=
  { State.reset with cpu := some p, focus := p.core, regions := [treg], loaderWins := [twin false], time := 12000000,
                     nextId := 40 }

/-- The same with the process off the core. -/
def ta (p : Proc) : State := { ts p with cpu := none, procs := [p] }

theorem wit_DecodeOfEncode : (Instr.add 1 2 3).wf = true ∧ (Instr.add 1 2 3).coded = true ∧
    (encode (.add 1 2 3)).isSome = true ∧ Instr.timerGuard.coded = false := by decide +kernel

theorem wit_EncodeOfDecode : decode [0x05, 0x4A, 0xFF, 0xFF, 0] = .instr (.addi 20 20 0x7FFF) 4 ∧
    decode [0x82, 0xFE] = .instr (.cAddi 20 0x3F) 2 := ⟨rfl, rfl⟩

/-- A state that fetches an `addi` at its pc, with the core's step next. -/
def tf : State :=
  { ts tp with agenda := [.core 3], loaderWins := [twin true], mem := Memory.write [] (globalBase 3 + 0x100) 4 0xFFFF4A05 }

theorem wit_StepRunsDecoded : tf.agenda = .core tf.focus :: [] ∧ tf.coreLive tf.focus = true ∧ Issues tf tp ∧
    (match { tf with agenda := [] }.fetch tp with | .instr i _ => i == .addi 20 20 0x7FFF | _ => false) = true ∧
    tf.fetchMem tp tp.pc = some 0x4A05 ∧ tf.copy? tp.core tp.pc.toNat = none ∧
    tf.fetchMem tp (tp.pc + 2) = some 0xFFFF ∧ tf.copy? tp.core (tp.pc + 2).toNat = none ∧
    decodeHalves 0x4A05 0xFFFF = .instr (.addi 20 20 0x7FFF) 4 := by unfold Issues; decide +kernel

theorem wit_FetchFaults : tf.cpu = some tp ∧
    (match { tf with agenda := [], mem := [] }.fetch tp with | .illegal _ _ _ => true | _ => false) = true ∧
    (match { tf with agenda := [], loaderWins := [] }.fetch tp with | .window _ => true | _ => false) = true := by
  decide +kernel

/-- A region with an endpoint of one slot, and its full channel. -/
def tch : Channel :=
  { table := 77, name := 6, region := 1, kind := .word, w := 8, buf := true, depth := 1, tx := boundTo 5, rx := boundTo 99 }

theorem wit_FaultTaken : let s := { ts { tp with priv := .u } with
      regions := [{ treg with faultep := 6, faulttab := 77 }], channels := [{ tch with queue := [[]] }] }
    s.cpu = some { tp with priv := .u } ∧ s.recordVia .u 1 = some 1 ∧ s.recordVia .s 1 = none ∧
    s.faultChan 1 = some { tch with queue := [[]] } ∧ s.faultSlots 1 { tch with queue := [[]] } ≤ 1 := by decide +kernel

theorem wit_MemoriesStayCanonical : MemoriesOk tf ∧ (match step tf with | .next _ => true | _ => false) = true := by
  unfold MemoriesOk; decide +kernel

theorem wit_ScalarForms : (ts tp).cpu = some tp := rfl

/-- Register 4 holds an address, register 5 another. -/
def at4 (a : Word) : Proc := tp.setX 4 a

theorem wit_OwnLoadsComplete : ∀ n ∈ [1, 2, 4, 8], let p := at4 (BitVec.ofNat 64 (0x50000 - n))
    let s := ts p
    Issues s p ∧ Quiet s p.core ∧ OwnAccess s p (p.getX 4) n .rd ∧ Sound s (homeAt p (p.getX 4)) n := by
  unfold Issues Quiet OwnAccess Sound; decide +kernel

theorem wit_OwnStoresAccepted : ∀ n ∈ [1, 2, 4, 8], let p := at4 (BitVec.ofNat 64 (0x50000 - n))
    let s := ts p
    Issues s p ∧ Quiet s p.core ∧ (∀ q ∈ s.packets, q.pid ≠ p.pid) ∧ OwnAccess s p (p.getX 4) n .wr ∧
    p.allowed s (p.getX 4) n .rd = true ∧ s.latent = [] ∧ s.marks = [] := by
  unfold Issues Quiet OwnAccess; decide +kernel

/-- A write under way. -/
def tw (a n v : Nat) (path : Path) (kind : AKind) : Packet :=
  { id := 7, core := 3, pid := 5, region := 1, src := 3, dst := 3, pc := 0, used := 0, n := n, path := path, kind := kind,
    payload := .write { addr := a, n := n, val := v, fe := none } }

theorem wit_WritesLand : ∀ q ∈ [tw (globalBase 3) 8 1 .own .ord, tw (globalBase 3 + 5) 1 1 .mesh .nt,
      tw (globalBase 3 + 8) 4 1 .own (.push 7), tw (globalBase 3 + 8) 4 1 .own .tst, tw 0x8000000000 8 1 .own .rel],
    let s := { ts tp with packets := [q] }
    s.packet? q.id = some q ∧ q.queued = false ∧ s.mayLand q = true ∧ s.mem.wf = true ∧ s.watches = [] ∧
      s.triggers = [] ∧ s.latent = [] ∧
    (match q.payload with | .write w => !s.homeGone w.addr && !s.queued (wordAt w.addr) | _ => false) = true := by
  decide +kernel

theorem wit_AccessChecks : let p := at4 0x1001
    let q := at4 0x1000
    let s := ts q
    Issues (ts p) p ∧ (p.getX 4 + (0 : BitVec 12).signExtend 64).toNat % 8 ≠ 0 ∧ Issues s q ∧ (q.getX 4).toNat % 8 = 0 ∧
    q.allowed { s with loaderWins := [] } (q.getX 4) 8 .wr = false ∧
      q.allowed { s with loaderWins := [] } (q.getX 4) 8 .rw = false ∧
    Quiet s 3 ∧ (∀ k ∈ s.packets, k.pid ≠ q.pid) ∧ OwnAccess s q (q.getX 4) 8 .rd ∧ OwnAccess s q (q.getX 4) 8 .rw ∧
    homeAt q (q.getX 4) ∈ { s with marks := [globalBase 3 + 0x1000] }.marks ∧ s.queued (homeAt q (q.getX 4)) = false ∧
    s.entryFree (homeAt q (q.getX 4)) = true := by
  unfold Issues Quiet OwnAccess; decide +kernel

/-- The first and the last word of the aperture. -/
theorem wit_AccessChecks_aperture : (0x2000000000 : Word).toNat % 8 = 0 ∧ 0x2000000000 ≤ (0x2000000000 : Word).toNat ∧
    (0x3FFFFFFFF8 : Word).toNat % 8 = 0 ∧ (0x3FFFFFFFF8 : Word).toNat < 0x4000000000 := by simp

/-- A range whose second word lies beyond the window, and one that is too long. -/
theorem wit_AccessChecks_range : (let p := (at4 0x4FFF8).setX 5 16
     let s := { ts p with loaderWins := [{ twin false with win := { (twin false).win with limit := 0x4FFFF } }] }
     Issues s p ∧ (p.getX 4).toNat % 8 = 0 ∧ (p.getX 5).toNat % 8 = 0 ∧ (p.getX 5).toNat ≤ 65536 ∧
       1 < (p.getX 5).toNat / 8 ∧
     p.allowed s (p.getX 4) 8 .wr = true ∧ p.allowed s (p.getX 4 + BitVec.ofNat 64 (8 * 1)) 8 .wr = false) ∧
    65536 < (tp.setX 5 65544 |>.getX 5).toNat := by unfold Issues; decide +kernel

theorem wit_IflDropsCopies : (ts tp).cpu = some tp ∧ ∀ q ∈ (ts tp).packets, q.core ≠ tp.core := by decide +kernel

theorem wit_CsrEffects : (ts tp).cpu = some tp ∧ Csr.time ≠ .fpmode ∧ Csr.time ≠ .fpflags := by decide +kernel

/-- A word in the own memory. -/
def th : Nat := globalBase 3 + 0x1000

theorem wit_FullEmptyComplete : let p := (at4 0x1000).setX 5 7
    let s := { ts p with mem := Memory.write [] th 8 9 }
    let e := { s with empty := [th] }
    Issues s p ∧ Quiet s 3 ∧ s.watches = [] ∧ OwnAccess s p (p.getX 4) 8 .rd ∧ OwnAccess s p (p.getX 4) 8 .rw ∧
    Sound s (homeAt p (p.getX 4)) 8 ∧ s.isFull th = true ∧ s.word th ≠ p.getX 5 ∧ (p.getX 5).toNat ≤ (s.word th).toNat ∧
    e.isFull th = false ∧ e.queued th = false ∧ e.triggers = [] ∧ (∀ q ∈ e.packets, q.pid ≠ p.pid) ∧ e.mem.wf = true ∧
    OwnAccess e p (p.getX 4) 8 .rw := by
  unfold Issues Quiet OwnAccess Sound; decide +kernel

theorem wit_FullEmptyWaits : let p := (at4 0x1000).setX 5 9
    let s := { ts p with mem := Memory.write [] th 8 9 }
    let e := { s with empty := [th], mem := [] }
    Issues s p ∧ Quiet s 3 ∧ s.watches = [] ∧ OwnAccess s p (p.getX 4) 8 .rd ∧ OwnAccess s p (p.getX 4) 8 .rw ∧
    Sound s (homeAt p (p.getX 4)) 8 ∧ s.isFull th = true ∧ s.queued th = false ∧ s.word th = p.getX 5 ∧
    e.isFull th = false ∧ (e.word th).toNat < (p.getX 5).toNat ∧ (∀ q ∈ s.packets, q.pid ≠ p.pid) := by
  unfold Issues Quiet OwnAccess Sound; decide +kernel

theorem wit_WatchServed : ∀ op ∈ [SyncOp.ldf, .waitw 8], let p := { tp with st := .blocked .sync, wait := .sync th op 6 }
    let s := { ta p with watches := [{ addr := th, pid := 5, op := op, used := 0x1000 }] }
    Alone s p ∧ s.rsvs = [] ∧ s.triggers = [] ∧ th % 8 = 0 ∧ homeDie th = dieOf p.core ∧ s.mem.wf = true ∧
    (8 : Word) ≠ 9 := by
  unfold Alone; decide +kernel

theorem wit_FillAndClear : let p := (at4 0x1000).setX 5 0x10000
    let s := ts p
    Issues s p ∧ Quiet s 3 ∧ (p.getX 4).toNat % 8 = 0 ∧ (p.getX 5).toNat % 8 = 0 ∧ 0 < (p.getX 5).toNat ∧
    (p.getX 5).toNat ≤ 65536 ∧
    ((List.range (0x10000 / 8)).all fun k => decide ((p.getX 4 + BitVec.ofNat 64 (8 * k)).toNat % 8 = 0) &&
      p.allowed s (p.getX 4 + BitVec.ofNat 64 (8 * k)) 8 .wr &&
      decide ((p.getX 4 + BitVec.ofNat 64 (8 * k)).toNat < s.parkStart 3)) = true ∧
    (at4 0x1004).getX 4 % 8 ≠ 0 ∧ 65536 < ((at4 0x1000).setX 5 65544).getX 5 ∧ (tp.setX 5 0).getX 5 = 0 := by
  unfold Issues Quiet; decide +kernel

theorem wit_FillAndClear_lands : let q : Packet := { tw 0 8 0 .own .ord with payload := .feRange th 16 true }
    let s := { ts tp with packets := [q], empty := [th, th + 8, th + 16] }
    s.packet? q.id = some q ∧ q.queued = false ∧ s.mayLand q = true ∧ th % 8 = 0 ∧ (∀ x, s.homeGone x = false) ∧
      s.rsvs = [] ∧
    s.watches = [] := by
  refine ⟨by decide +kernel, rfl, by decide +kernel, by decide +kernel, fun x => ?_, rfl, rfl⟩
  have h : ∀ d, d < 8 → (!(ts tp).diePresent d || ((ts tp).die d).coreReset) = false := by decide +kernel
  exact h _ (Nat.mod_lt _ (by decide))

theorem wit_FencesComplete : let q := tw th 8 1 .own .ord
    let n := tw th 8 1 .own .nt
    let r := { tw (globalBase 9) 8 1 .mesh .ord with seq := 2 }
    let p := at4 (3 * 2 ^ 51 + 3)
    let s := (ts p).modCore 3 fun k => { k with remote := 3 }
    s.cpu = some p ∧ (∀ q ∈ s.packets, q.pid ≠ p.pid) ∧ (s.core 3).early = [] ∧ (tp.getX 4).toNat / 2 ^ 51 ≠ 3 ∧
    (p.getX 4).toNat / 2 ^ 51 = 3 ∧ q.pid = p.pid ∧ q.kind = .ord ∧ q.path = .own ∧ n.kind = .nt ∧ r.core = 3 ∧
    r.path = .mesh ∧ s.watches = [] ∧ s.rsvs = [] ∧
      r.seq < min ((p.getX 4).toNat % 2 ^ 51) ((s.core 3).remote % 2 ^ 51) := by decide +kernel

theorem wit_FencesComplete_end : ∀ w ∈ [Wait.fence .sys, .drain, .cfence 3], let p := { tp with wait := w }
    let s := { ts p with subj := .id 5 }
    s.cpu = some { tp with wait := w } ∧ tp.st = .running ∧ s.subj = .id tp.pid ∧ Quiet s 3 ∧ s.watches = [] ∧
      s.rsvs = [] ∧
    ∀ q ∈ s.packets, q.pid ≠ tp.pid := by unfold Quiet; decide +kernel

theorem wit_Reservations : let p := at4 0x1000
    let s := ts p
    Issues s p ∧ Quiet s 3 ∧ (∀ q ∈ s.packets, q.pid ≠ p.pid) ∧ s.watches = [] ∧ s.triggers = [] ∧ s.mem.wf = true ∧
    OwnAccess s p (p.getX 4) 8 .rw ∧ Sound s (homeAt p (p.getX 4)) 8 ∧ s.homeGone (homeAt p (p.getX 4)) = false ∧
    ∀ q ∈ s.rsvs, homeOf q.addr ≠ homeOf (homeAt p (p.getX 4)) := by
  unfold Issues Quiet OwnAccess Sound; decide +kernel

theorem wit_Releases : let p := { tp with st := .blocked .sync, wait := .amo th 6 }
    let s := { ta p with rsvs := [{ addr := th, pid := 5, k := .amo .add 1 0, granted := true }], subj := .id 5 }
    Alone s p ∧ Sound s th 8 ∧ s.watches = [] ∧ s.triggers = [] ∧ homeDie th = dieOf p.core ∧ s.mem.wf = true ∧
    s.subj = .id p.pid := by
  unfold Alone Sound; decide +kernel

theorem wit_Releases_load : let p := { tp with wait := .load 6 8 true 0x1000 4 false }
    let k : Packet := { tw 0 8 0 .mesh .reply with payload := .loadRet (2 ^ 64 - 1) false (.slot 5 0) }
    let s := { ts p with packets := [k] }
    s.cpu = some p ∧ p.st = .running ∧ (s.core 3).early = [] ∧ s.packet? k.id = some k ∧
      k.queued = false := by decide +kernel

theorem wit_VectorForms : (ts tp).cpu = some tp ∧ Plain tp [15, 0, 3] ∧
    Plain { tp with cls := .v } [7, 0, 3] ∧ (31 : BitVec 5).toNat ≠ 0 := by unfold Plain; decide +kernel

theorem wit_FloatRules : fp32.decode 0x7FC00000 = .nan true ∧ (fp32.decode 0x3F800000).isNan = false ∧
    fp16 ∈ [fp32, fp16, bf16, e5m2, e4m3, e2m1, e3m2] ∧ 0xFFFF < 2 ^ fp16.bits ∧ fp16.bias = 15 ∧ fp16.mw = 10 ∧
    fp16.decode fp16.maxCode = .fin false 2047 5 := by decide +kernel

/-- One third in FP16 lies between 1365 and 1366 units of 2 ^ -12; 3 halves of the smallest unit lie half-way between two. -/
theorem wit_FloatRules_near : ((1 : ℚ) / 3 * 2 ^ (0 : ℤ) < 2 ^ ((-12 : ℤ) + 10 + 1)) ∧
  ((2 : ℚ) ^ ((-12 : ℤ) + 10) ≤ 1 / 3 * 2 ^ (0 : ℤ)) ∧
    |(1 : ℚ) / 3 * 2 ^ (0 : ℤ) - (1365 : ℕ) * 2 ^ (-12 : ℤ)| ≤ 2 ^ (-12 : ℤ) / 2 ∧
    ((1 : ℚ) / 3 * 2 ^ (0 : ℤ) ≤ (1366 : ℕ) * 2 ^ (-12 : ℤ)) ∧
      ((1366 : ℕ) * 2 ^ (-12 : ℤ) < (1 : ℚ) / 3 * 2 ^ (0 : ℤ) + 2 ^ (-12 : ℤ)) ∧
    |(3 : ℚ) / 1 * 2 ^ (-25 : ℤ) - (2 : ℕ) * 2 ^ (-24 : ℤ)| = 2 ^ (-24 : ℤ) / 2 := by norm_num [abs_le]

theorem wit_VectorConversions : (Instr.vcvt .f32 .e4m3 .dyn 3 0 1 2).wf = true ∧
    (Instr.vcvt .q15 .bf16 .rdn 0 0 1 2).wf = true ∧ (Instr.vcvtSr .e5m2 3 0 1 2 3).wf = true ∧
      (1 : BitVec 2).toNat < 2 := by
  decide

theorem wit_SpecialFunctions : fp32.decode 0x7F800001 = .nan false ∧ fp32.decode 0x80000000 = .fin true 0 (-149) ∧
    fp32.decode 0x80000001 = .fin true (0 + 1) (-149) ∧ fp32.decode 0xFF7FFFFF = .fin true (0xFFFFFE + 1) 104 := by
  decide +kernel

/-- Whether a lane's access is the process's own. -/
def laneOk (s : State) (p : Proc) (a : Word) (n : Nat) (perm : Perm) : Bool :=
  decide (a.toNat % n = 0) && p.allowed s a n perm && decide (a.toNat < s.parkStart p.core)

theorem wit_VectorMemory : let p := (tp.setX 4 (0x50000 - 256)).setX 5 0
    let s := ts p
    s.cpu = some p ∧ s.part = none ∧ p.vprog = 0 ∧ Plain p [2, 3] ∧ Issues s p ∧ Quiet s 3 ∧ s.marks = [] ∧
      s.latent = [] ∧
    ((List.range 64).all fun l => laneOk s p (p.getX 4 + p.getX 5 + BitVec.ofNat 64 (l * 4)) 4 .rd &&
      laneOk s p (p.getX 4 + BitVec.ofNat 64 (l * (p.getX 5).toNat)) 4 .wr &&
      laneOk s p (p.getX 4 + BitVec.ofNat 64 (lane (p.getV 3) 32 l * 4)) 4 .rd) = true := by
  unfold Plain Issues Quiet; decide +kernel

theorem wit_VectorMemory_return : let p := { tp with wait := .vload 2 4 [{ lanes := [0], lane := 0, addr := th, val := some (7, false) }] }
    let s := { ts p with subj := .id 5 }
    s.cpu = some p ∧ p.vprog = 0 ∧ Plain p [2, 3] ∧ p.st = .running ∧
      s.subj = .id p.pid := by unfold Plain; decide +kernel

/-- A stream of 3 rows of one vector of `w`-bit elements at 0x1000, of which one vector has passed when it is bound. -/
def tstream (w : Nat) (wr bound : Bool) : Stream :=
  { cfg0 := BitVec.ofNat 64 (64 * 2 ^ w + 4 / 2 ^ w * 65536), cfg1 := BitVec.ofNat 64 (3 + 256 * 65536), base := 0x1000
    mode := BitVec.ofNat 64 (w + (if wr then 4 else 0) + 16), bound := bound, pos := if bound then 64 * 2 ^ w else 0 }

/-- The process with that stream as v15. -/
def tsp (t : Stream) : Proc := { tp with streams := tp.streams.set 7 t }

theorem wit_Streams : let t := tstream 0 false false
    let b := tstream 0 false true
    let w := tstream 2 true true
    let q : Packet := tw th 1 0 .own (.push 7)
    (ts (tsp t)).cpu = some (tsp t) ∧ (tsp t).cls = .t ∧ t.bound = false ∧ (4 : BitVec 3).toNat < 5 ∧ b.bound = true ∧
    { t with mode := 3 }.startFault = some 2 ∧ t.startFault = none ∧ w.isWrite = true ∧ q.pid = tp.pid ∧
      q.kind = .push 7 ∧
    (∀ x ∈ { ts (tsp b) with packets := [{ q with pid := 9 }] }.packets, x.pid ≠ tp.pid) ∧
    b.pos < 2 ^ 48 ∧ b.isWrite = false ∧ b.pos < b.total ∧ b.ahead = [] ∧ (ts (tsp b)).packets = [] ∧
    laneOk (ts (tsp b)) (tsp b) (b.elemAddr b.pos) b.size .rd = true ∧
      (ts (tsp b)).marks ++ (ts (tsp b)).latent = [] := by
  decide +kernel

theorem wit_Streams_waits : ∀ w ∈ [Wait.sstop 7, .pop], let p := { tsp (tstream 0 true true) with wait := w }
    let s := { ts p with subj := .id 5 }
    s.cpu = some p ∧ p.cls = .t ∧ p.st = .running ∧ s.subj = .id p.pid ∧ s.packets = [] := by decide +kernel

/-- A row of 256 bytes has whole vectors; one of 100 bytes ends in a part of one. -/
theorem wit_StreamOperands : ∀ wr ∈ [false, true], ∀ w ∈ [0, 1, 2], ∀ pos ∈ [0, 64],
    let t : Stream := { tstream w wr true with cfg0 := BitVec.ofNat 64 (100 + 4 / 2 ^ w * 65536), pos := pos }
    let p := tsp t
    let s := ts p
    s.cpu = some p ∧ p.cls = .t ∧ Quiet s 3 ∧ s.packets = [] ∧ t.bound = true ∧ t.ended = false ∧
    t.pos < t.total ∧ t.width < 3 ∧ t.ahead = [] ∧ p.boundAt 14 = none ∧ t.isWrite = wr ∧
    ((List.range (min t.lanes (t.total - t.pos))).all fun k =>
      laneOk s p (t.elemAddr (t.pos + k)) t.size (if wr then .wr else .rd)) = true ∧
    s.marks ++ s.latent = [] := by unfold Quiet; decide +kernel

theorem wit_StreamOperands_end : ∀ wr ∈ [false, true], ∀ z ∈ [false, true],
    let b := tstream 0 wr true
    let t : Stream := { b with ended := true, mode := if z then b.mode ||| 0x100 else b.mode }
    let p := tsp t
    (ts p).cpu = some p ∧ p.cls = .t ∧ Quiet (ts p) 3 ∧ t.bound = true ∧ t.width < 3 ∧ t.ended = true ∧ t.zend = z ∧
    t.isWrite = wr ∧ p.boundAt 3 = none := by unfold Quiet; decide +kernel

/-- The process with a descriptor in x4 and x5 and another in x6 and x7 (Table 11.2): base, format, columns, rows. -/
def tdp (fmt ca cb ra rb : Nat) : Proc :=
  let dw1 (c r : Nat) : Word := BitVec.ofNat 64 (64 + (r - 1) * 2 ^ 16 + (c - 1) * 2 ^ 24 + fmt * 2 ^ 40)
  (((tp.setX 4 0x1000).setX 5 (dw1 ca ra)).setX 6 0x2000).setX 7 (dw1 cb rb)

theorem wit_TileProducts : let p := tdp 4 20 20 16 32
    let s := ts p
    s.cpu = some p ∧ p.cls = .t ∧ s.marks = [] ∧ s.latent = [] ∧ p.enables = 0 ∧ Quiet s 3 ∧ p.tile = none ∧
      p.tprog = 0 ∧ p.claim = 0 ∧
    s.tileChecks p [(p.desc 4, .a, .rd), (p.desc 6, .b, .rd)] (tileCode .i8)
      (fun c => (c == 1 && decide (7 < tileCode .i8)) || (c == 5 && (p.desc 4).cols != (p.desc 6).cols)) = none := by
  unfold Quiet; decide +kernel

theorem wit_TileProducts_sparse : let p := { tdp 4 16 32 16 32 with mq := List.replicate 8 0, uncl := 8 }
    let s := ts p
    let db := p.desc 6
    s.cpu = some p ∧ p.cls = .t ∧ p.enables = 0 ∧ Quiet s 3 ∧ p.tile = none ∧ p.tprog = 0 ∧ p.claim = 0 ∧
    s.tileChecks p [(p.desc 4, .aSp, .rd), (db, .bSp, .rd)] (tileCode .i8) (fun c =>
      (c == 1 && decide (4 < tileCode .i8)) || (c == 5 && 2 * (p.desc 4).cols != db.cols) ||
      (c == 10 && decide (16 < db.cols / 16)) || (c == 11 && decide (p.uncl < db.cols / 4))) = none := by
  unfold Quiet; decide +kernel

/-- TILE_GROUP: the core holds copies of the two halfwords of the product at the pc, so that the fetch changes nothing. -/
theorem wit_TileProducts_group : let p := tdp 4 20 20 16 32
    let s := { (ts p).modCore 3 fun k => { k with copies := [(0x100, 0x4051), (0x102, 0x100C)] } with
      subj := .id 3, loaderWins := [twin false, twin true], mem := Memory.write [] (globalBase 3 + 0x100) 4 0x100C4051 }
    (match s.fetch p with | .instr i t => i == .tmma .i8 0 4 6 && t == s | _ => false) = true ∧ s.focus = p.core ∧
    p.wait = .none ∧ s.subj = .id p.core ∧ p.tprog + 1 < (p.desc 6).groups ∧ p.tile = none := by decide +kernel

theorem wit_TileAccumulators : let p := tdp 8 16 16 16 16
    let s := ts p
    let combo (r : Role) (c : Nat) : Bool := c == 1 && !r.takes 8
    s.cpu = some p ∧ p.cls = .t ∧ p.enables = 0 ∧ Plain p [3, 4] ∧ TileFmt.i8 ≠ .i32 ∧ TileFmt.i8 ≠ .f32 ∧ Quiet s 3 ∧
    s.marks = [] ∧ s.latent = [] ∧ s.tileChecks p [(p.desc 6, .ld, .rd)] 8 (combo .ld) = none ∧
    s.tileChecks p [(p.desc 6, .st, .wr)] 8 (combo .st) = none ∧ (∀ q ∈ s.packets, q.pid ≠ p.pid) ∧ p.uncl ≤ 32 ∧
    p.mq.length ≤ 32 := by unfold Plain Quiet; decide +kernel

theorem wit_TileAccumulators_store : let p := { tdp 8 1 2 1 2 with tdone := 1 }
    let w := tstWrites .f32 (p.desc 6) (p.getA 0)
    w.1.all (fun e => decide (e.1.toNat < (ts p).parkStart 3)) = true ∧ w.1.length = 4 ∧ (w.1.drop p.tdone).length = 3 ∧
    { ts p with part := some 2 }.part = some 2 ∧ (ts p).part = none := by decide +kernel

theorem wit_TileAccumulators_waits : let q := tw th 4 0 .own .tst
    let p := { tp with wait := .twait }
    let m := { tp with wait := .tmq 3, mq := List.replicate 33 0, uncl := 32 }
    q ∈ { ts tp with packets := [q] }.packets ∧ q.pid = tp.pid ∧ q.kind = .tst ∧
      { ts p with subj := .id 5 }.cpu = some p ∧
    p.st = .running ∧ 32 < m.mq.length ∧ m.uncl ≤ 32 ∧ 32 < { m with uncl := 33 }.uncl ∧
    { m with mq := List.replicate 32 0 }.mq.length ≤ 32 := by decide +kernel

/-- A buffered word channel of 3 slots and 2 words from process 5 to process 99. -/
def tc : Channel :=
  { table := 77, name := 6, region := 1, kind := .word, w := 2, buf := true, depth := 3, tx := boundTo 5, rx := boundTo 99 }

/-- The process with a handle of that channel in x4. -/
def thd (tx : Bool) : Proc := tp.setX 4 (BitVec.ofNat 64 (tc.handle tx))

/-- A wait at a channel, and a process blocked there. -/
def tcw (op : ChanOp) (dw0 dw1 : Word) : ChanWait :=
  { op := op, table := 77, name := 6, handle := 0, msg := [], d := 12, n := 2, dw0 := dw0, dw1 := dw1, arrived := true
    moving := none }
def tr (w : Wait) : Proc := { tp with pid := 9, st := .blocked .channel, key := 4, base := 2, eff := 2, wait := w }

/-- Another channel, and a process that waits there. -/
def tc2 : Channel := { tc with name := 7, buf := false, depth := 0, tx := boundTo 98, rx := boundTo 44 }
def tr2 : Proc := { tr (.chan { tcw .recv 0 0 with name := 7 }) with pid := 44 }

theorem wit_WordChannels : ∀ tx ∈ [true, false], ∀ full ∈ [true, false], let p := thd tx
    let c := if tx then { tc with buf := full, depth := if full then 3 else 0 } else
      { tc with tx := boundTo 99, rx := boundTo 5, queue := if full then [[7, 8]] else [] }
    let s := { ts p with channels := [tc2, c], procs := [tr2] }
    OnChannel s p c ∧ c.kind = .word ∧ (2 : BitVec 5).toNat = c.w ∧ Holding s p c tx 4 ∧ Uninvolved s c [] ∧
    c.rx.st = .bound ∧ c.tx.st = .bound ∧ (tx = true → c.buf = full ∧ (full = true → c.queue.length < c.depth)) ∧
    (30 : XIdx).toNat + (2 : BitVec 5).toNat ≤ 32 ∧ (∀ m ∈ c.queue, m.length = 2) := by
  unfold OnChannel Holding LendsNone Uninvolved; decide +kernel

theorem wit_WordChannels_rendezvous : ∀ tx ∈ [true, false], let p := thd tx
    let w := { tcw (if tx then .recv else .send) 0 0 with msg := if tx then [] else [7, 8] }
    let r := tr (.chan w)
    let c := { tc with buf := false, depth := 0, tx := boundTo (if tx then 5 else 9), rx := boundTo (if tx then 9 else 5) }
    let s := { ts p with channels := [tc2, c], procs := [tr2, r] }
    OnChannel s p c ∧ c.kind = .word ∧ Holding s p c tx 4 ∧ c.fin (!tx) = boundTo r.pid ∧
    WaitsAt s r c w (if tx then .recv else .send) ∧ r.pid ≠ p.pid ∧ dieOf r.core = dieOf p.core ∧
      Uninvolved s c [r.pid] ∧
    c.buf = false ∧ c.queue = [] ∧ (tx = false → w.msg.length = (2 : BitVec 5).toNat) := by
  unfold OnChannel Holding LendsNone Uninvolved WaitsAt LendsNone; decide +kernel

theorem wit_ChannelChecks : let bad := tp.setX 4 (BitVec.ofNat 64 (2 * 2 ^ 25 + 6))
    let s := ts (thd true)
    (ts bad).cpu = some bad ∧ (bad.getX 4).toNat % 2 ^ 32 / 2 ^ 25 ∉ [0, 1, 3, 4] ∧
    s.heldEnd 5 ⟨6, true, 0⟩ = none ∧ s.tableChan 1 ⟨6, true, 0⟩ = none ∧
    { s with channels := [tc] }.heldEnd 6 ⟨6, true, 0⟩ = none ∧
    { s with channels := [tc] }.tableChan 1 ⟨6, true, 0⟩ = some tc ∧
      { s with channels := [tc] }.heldEnd 5 ⟨6, true, 0⟩ = some tc ∧
    tc.words = 2 ∧ tc.kind ≠ .tile ∧ (tc.setFin true { boundTo 5 with st := .closed }).tx.st = .closed ∧
    (tc.setFin true { boundTo 5 with st := .error }).tx.st = .error := by decide +kernel

/-- Both parties of a tile channel, with descriptors of 2 rows and of `rows`. -/
def tdw (rows : Nat) : Word := BitVec.ofNat 64 (64 + (rows - 1) * 2 ^ 16 + 63 * 2 ^ 24 + 4 * 2 ^ 40)
def ttc (tx : Bool) : Channel :=
  { tc with kind := .tile, w := 0, buf := false, depth := 0, tx := boundTo (if tx then 5 else 9), rx := boundTo (if tx then 9 else 5) }
def ttp (tx : Bool) : Proc := ((tp.setX 4 (BitVec.ofNat 64 ((ttc tx).handle tx))).setX 10 0x1000).setX 11 (tdw 2)
def ttw (tx : Bool) (rows : Nat) : ChanWait := tcw (if tx then .recvt else .sendt) 0x2000 (tdw rows)
def tts (tx : Bool) (l : List Proc) : State := { ts (ttp tx) with channels := [tc2, ttc tx], procs := tr2 :: l }

theorem wit_TileChannels : ∀ tx ∈ [true, false], ∀ rows ∈ [2, 3], let s := tts tx [tr (.chan (ttw tx rows))]
    OnChannel s (ttp tx) (ttc tx) ∧ Holding s (ttp tx) (ttc tx) tx 4 ∧
    s.tileChanFault (ttp tx) 10 (if tx then .rd else .wr) = none ∧
    (tileShape ((ttp tx).getX 11) = tileShape (ttw tx rows).dw1 ↔ rows = 2) := by
  unfold OnChannel Holding LendsNone; decide +kernel

theorem wit_TileChannels_partner : ∀ tx ∈ [true, false], ∀ rows ∈ [2, 3], let c := ttc tx
    let r := tr (.chan (ttw tx rows))
    let s := tts tx [r]
    c.kind = .tile ∧ c.queue = [] ∧ c.buf = false ∧ c.fin (!tx) = boundTo r.pid ∧
    WaitsAt s r c (ttw tx rows) (if tx then .recvt else .sendt) ∧ Uninvolved s c [r.pid] ∧ r.pid ≠ (ttp tx).pid ∧
    dieOf r.core = dieOf (ttp tx).core := by
  unfold Uninvolved WaitsAt LendsNone; decide +kernel

theorem wit_TileChannels_alone : ∀ tx ∈ [true, false], let s := tts tx []
    OnChannel s (ttp tx) (ttc tx) ∧ Holding s (ttp tx) (ttc tx) tx 4 ∧ Uninvolved s (ttc tx) [] ∧
    s.tileChanFault (ttp tx) 10 (if tx then .rd else .wr) = none ∧ ((ttc tx).fin (!tx)).st = .bound := by
  unfold OnChannel Holding LendsNone Uninvolved; decide +kernel

theorem wit_TileChannels_done : let dw1 : Word := BitVec.ofNat 64 (64 + 1 * 2 ^ 16 + 63 * 2 ^ 24 + 4 * 2 ^ 40)
    let p := { tr (.chan { tcw .sendt 0x1000 dw1 with moving := some 8 }) with pid := 5 }
    let r := tr (.chan { tcw .recvt 0x2000 dw1 with moving := some 8 })
    let u : Transfer := { id := 8, tx := 5, rx := 9, src := 3, dst := 3, s0 := 0x1000, s1 := dw1, r0 := 0x2000, r1 := dw1 }
    let s := { ts { tp with pid := 2 } with procs := [tr2, p, r], transfers := [{ u with id := 6 }, u], subj := .id 8 }
    let pairs := tilePairs (descOf u.s0 u.s1) (descOf u.r0 u.r1)
    s.proc? 5 = some p ∧ s.proc? 9 = some r ∧ LendsNone s 5 ∧ LendsNone s 9 ∧ p.isBlocked = true ∧
    s.transfers.find? (fun x => x.id == u.id) = some u ∧ u.read = false ∧ dieOf u.src = dieOf u.dst ∧ s.packets = [] ∧
    s.rsvs = [] ∧ s.watches = [] ∧ s.triggers = [] ∧ s.mem.wf = true ∧ s.subj = .id u.id ∧ (pairs.map (·.2)).Nodup ∧
    pairs.length = 128 ∧ ∀ x ∈ pairs, x.2 < 2 ^ 20 := by unfold LendsNone; decide +kernel

theorem wit_TileChannels_homes : ∀ x, (ts { tp with pid := 2 }).homeGone x = false := by
  have h : ∀ d, d < 8 → (!(ts { tp with pid := 2 }).diePresent d || ((ts { tp with pid := 2 }).die d).coreReset) = false := by
    decide +kernel
  exact fun x => h _ (Nat.mod_lt _ (by decide))

theorem wit_Alternation : let s := { ts tp with channels := [{ tc with rx := boundTo 5 }], barriers :=
      [{ die := 0, clus := 0, idx := 4, owner := some 1, count := 3, arrived := 1, phase := 0 }] }
    let c := { tc with rx := boundTo 5 }
    let due : Proc := { tp with guards := tp.guards.set 15 (some (.tm 5)) }
    let later : Proc := { tp with guards := tp.guards.set 15 (some (.tm (BitVec.allOnes 64))) }
    s.cpu = some tp ∧ (15 : BitVec 5).toNat < 16 ∧ s.heldCheck tp (c.handle false) (some false) = .ok (c, false) ∧
    s.heldCheck tp (c.handle true) (some true) = .ok (c, true) ∧ s.barrierFault (tp.setX 4 4) 4 false = none ∧
    (∀ g ∈ tp.guards.toList, g = none) ∧ (s.core 3).early = [] ∧ s.farGuards due = [] ∧
    { s with procs := [{ tp with pid := 99, core := 1024 }], channels := [tc] }.farGuards
      { tp with guards := tp.guards.set 15 (some (.tx 77 6)) } ≠ [] ∧ s.guardReady (.tm 5) = true ∧
    due.guards[15] = some (.tm 5) ∧ (∀ j : Fin 15, due.guards[j.val] = none) ∧
    (∀ g ∈ later.guards.toList, g = none ∨ g = some (.tm (BitVec.allOnes 64))) ∧ s.ns < (BitVec.allOnes 64).toNat ∧
    s.procs = [] := by decide +kernel

theorem wit_Alternation_timer : let p := { tp with guards := tp.guards.set 15 (some (.tm 5)), st := .blocked .alt, wait := .alt }
    let s := { ta p with subj := .id 5 }
    Alone s p ∧ p.st = .blocked .alt ∧ p.wait = .alt ∧ p.guards[15] = some (.tm 5) ∧ (5 : Word).toNat ≤ s.ns ∧
    s.subj = .id p.pid := by unfold Alone; decide +kernel

theorem wit_ChannelAdmin : ∀ tx ∈ [true, false], ∀ mig ∈ [true, false],
    let c := (if tx then { tc with rx := { tc.rx with mig := mig } } else tc).setFin tx (boundTo 5)
    let p := (tp.setX 4 (BitVec.ofNat 64 (c.handle tx))).setX 5 0
    let s := { ts p with channels := [c] }
    s.cpu = some p ∧ s.channels = [c] ∧ c.fin tx = boundTo p.pid ∧ c.name < 2 ^ 24 ∧
      (p.getX 4).toNat % 2 ^ 32 = c.handle tx ∧
    c.region = p.region ∧ p.getX 5 = 0 ∧ s.procs = [] ∧ p.priv = .s ∧ s.anchorPlace c = p.core ∧
    (tx = true → c.rx.mig = mig) ∧ (mig = false → c.rx.mig = false) ∧
    (let u := { s with channels := [tc], procs := [{ tp with pid := 99, core := 7 }] }; u.anchorPlace tc ≠ p.core) ∧
    parseHandle ((p.getX 4).toNat % 2 ^ 32) = some ⟨6, tx, 0⟩ ∧
      s.resolve p ⟨6, tx, 0⟩ (s.tableChan 1 ⟨6, tx, 0⟩) = .ok c ∧
    s.inSubtree 1 1 = true ∧ (c.fin tx).st = .bound ∧ c.rx.st ≠ .closed ∧ c.rx.st ≠ .error := by decide +kernel

theorem wit_ChannelAdmin_make : ∀ spec ∈ [1 * 512, 8 * 512 + 256 + 255, 8192], let p := (tp.setX 4 (BitVec.ofNat 64 spec)).setX 5 1
    let s := { ts p with channels := [tc] }
    p.priv = .s ∧ (s.region? (p.getX 5).toNat).isSome = true ∧ s.inSubtree p.region (p.getX 5).toNat = true ∧
    specOk (p.getX 4).toNat = true ∧ s.effChtab (p.getX 5).toNat = 77 ∧ tc.table = 77 ∧ tc.name < 0xFFFFFF ∧
    { s with regions := [{ treg with chtab := 0 }] }.effChtab 1 = 0 := by decide +kernel

theorem wit_ChannelAdmin_bind : ∀ tx ∈ [true, false], let c := (tc.setFin (!tx) (boundTo 5)).setFin tx {}
    let q := { tp with pid := 9, st := .new }
    let p := (tp.setX 4 (BitVec.ofNat 64 (c.handle tx))).setX 5 9
    let s := { ts p with channels := [c], procs := [q] }
    let r : HandleRef := ⟨6, tx, 0⟩
    p.priv = .s ∧ q.pid = (p.getX 5).toNat ∧ q.pid ≠ p.pid ∧ q.wait = .none ∧ q.st = .new ∧ s.anchorPlace c = p.core ∧
    parseHandle ((p.getX 4).toNat % 2 ^ 32) = some r ∧ s.resolve p r (s.bindLook p (some q) r) = .ok c ∧
    s.bindStatus p c tx (some q) = 0 ∧ (tx = true → c.rx.st ≠ .closed ∧ c.rx.st ≠ .error) ∧
      (c.fin tx).st = .idle := by decide +kernel

theorem wit_ProcessInstructions : ∀ e ∈ [0, 1, 3], let p := { tp with eff := e, base := e }
    let s := ts p
    s.cpu = some p ∧ s.focus = p.core ∧ p.st = .running ∧ s.procs = [] ∧ s.channels = [] ∧ s.packets = [] ∧
    s.watches = [] ∧ s.rsvs = [] ∧ p.rsvs = [] ∧ p.loans = [] ∧ s.loanMsgs = [] ∧ (s.core p.core).halt = none ∧
    p.dem = false ∧ s.admits 3 5 10000 1000 = true ∧ s.admits 3 5 10000 10000 = false ∧ s.effCeil 1 = 0 ∧
    { s with regions := [{ treg with ceil := 2 }] }.effCeil 1 = 2 ∧ s.diePresent 7 = true ∧
    { s with pkg := { s.pkg with dieMask := 0x7F } }.diePresent 7 = false ∧
    s.canMove (7 * 1024 + 1023) p = true ∧ s.canAdmit (7 * 1024 + 1023) p = true ∧ s.ns = 1000000 := by decide +kernel

/-- A process of class V, base class 1, in region 1, for cores 5 to 9 of cluster 1 of die 2. -/
theorem wit_ProcessInstructions_spawn : let h := globalBase 3 + 0x4000
    let p := tp.setX 4 0x4000
    let m := Memory.write (Memory.write [] h 8 0x1234) (h + 8) 8 (0x10000 + 16 * 256 + 8 + 1)
    let s := { ts p with mem := Memory.write m (h + 24) 8 (2 + 16 + 5 * 256 + 9 * 65536) }
    let w (i : Nat) : Word := BitVec.ofNat 64 (s.mem.read (homeAt p (p.getX 4) + 8 * i) 8)
    (p.getX 4).toNat < Config.localBytes ∧ (p.getX 4).toNat % 64 = 0 ∧ p.allowed s (p.getX 4) 64 .rd = true ∧
    s.marks = [] ∧ s.latent = [] ∧ p.priv = .s ∧ fieldOf (w 1) 16 16 = p.region ∧ (s.region? 1).isSome = true ∧
    s.inSubtree 1 1 = true ∧ fieldOf (w 1) 8 8 ≤ 32 ∧ s.blockOk p w = true ∧ s.diePresent (fieldOf (w 3) 0 3) = true ∧
    s.placements = [] := by decide +kernel

theorem wit_Barriers : let o : Barrier := { die := 0, clus := 0, idx := 4, owner := some 1, count := 3, arrived := 2, phase := 0xFFFFFFFF }
    let k : Barrier := { die := 0, clus := 0, idx := 5, owner := some 1, count := 3, arrived := 2, phase := 7 }
    let p := (tp.setX 4 4).setX 5 65535
    let r := { tr (.barrier 4 o.phase) with st := .blocked .barrier }
    let other := { r with pid := 44, wait := .barrier 5 7, st := .parked (some .barrier) }
    let s := { ts p with barriers := [k, o], procs := [r, other] }
    s.cpu = some p ∧ s.focus = p.core ∧ { s with barriers := [k] }.barrierFault p (p.getX 4) true = none ∧
    (p.getX 5).toNat ≤ 65535 ∧ { s with barriers := [k] }.barrier? 0 0 4 = none ∧
      s.barrierFault p (p.getX 4) false = none ∧
    s.barrier? 0 0 4 = some o ∧ (∀ q ∈ s.packets, q.pid ≠ p.pid) ∧ (s.procs.map (·.pid)).Nodup ∧ p.loans = [] ∧
    s.loanMsgs = [] ∧ (∀ r ∈ s.procs, r.pid ≠ p.pid ∧ r.loans = [] ∧ r.wait ≠ .alt) ∧ o.arrived + 1 = o.count ∧
    (s.core 3).early = [] ∧ o.phase ≠ (p.getX 5).setWidth 32 ∧ o.phase = (0xFFFFFFFF : Word).setWidth 32 ∧
    other.wait = .barrier 5 7 ∧ ((5 : Word).toNat / 1024 % 8, (5 : Word).toNat / 256 % 4, (5 : Word).toNat % 64) = (0, 0, 5) ∧
    s.barrier? 0 0 5 = some k ∧ k.phase = 7 := by decide +kernel

/-- A packet that announces a wait at an anchor. -/
def tpk (pl : Payload) : Packet := { tw 0 0 0 .mesh .ord with payload := pl }

theorem wit_WaitEvents : let p := { tr (.chan { tcw .recv 0 0 with arrived := false }) with pid := 5 }
    let c := { tc with tx := boundTo 99, rx := boundTo 5, queue := [[7, 8], [9, 9]] }
    let s := { ta p with channels := [c], packets := [tpk (.chan 5)] }
    Alone s p ∧ c.kind = .word ∧ c.ring = none ∧ c.rx = boundTo p.pid ∧ c.buf = true ∧ c.tx.holder ≠ .proc p.pid ∧
    s.packet? 7 = some (tpk (.chan 5)) ∧ (tpk (.chan 5)).queued = false ∧
    (s.die (tpk (.chan 5)).dst).coreReset = false ∧ s.coreTakes p.core = true := by unfold Alone; decide +kernel

theorem wit_WaitEvents_sleep : let p := { tp with st := .blocked .sleep, wait := .sleep 1000 }
    let s := { ta p with subj := .id 5 }
    Alone s p ∧ (1000 : Word).toNat ≤ s.ns ∧ s.subj = .id p.pid := by unfold Alone; decide +kernel

theorem wit_WaitEvents_probe : let p := { tr (.chan (tcw .recv 0 0)) with pid := 5 }
    let c := { tc with tx := boundTo 99, rx := boundTo 5 }
    let b : Probe := { id := 3, origin := 5, blockNo := 0, pids := [5, 99], tgt := 5 }
    let s := { ta p with channels := [c], probes := [b], subj := .id 3, time := 12000000000 }
    Alone s p ∧ s.waitEdge p = some 99 ∧ (p.probes + 1) * max (s.core p.core).probe.toNat 100 * 1000 ≤ s.ns - p.since ∧
    b.tgt = p.pid ∧ b.origin = p.pid ∧ b.blockNo = p.blockNo ∧ p.reported = false ∧
      { b with origin := 2 }.origin < p.pid ∧
    b.pids.length < 16 := by unfold Alone; decide +kernel

/-- Memory with a segment table of two segments of 4 MiB at 0x8000001000 (the first in HBM with pages 8 and 9, the second
far, of group 0, with pages 3 and 4, all pinned) and a request block at 0x400 of core 3: segment 1, offset 4,088, 64 bytes,
local side 0x2000, completion word 0x3000. -/
def tsm : Memory :=
  [(0x8000001000, 2), (0x8000001008, 2 ^ 22), (0x8000001010, 1), (0x8000001018, 0x8000010000), (0x8000001028, 2 ^ 22),
   (0x8000001030, 3), (0x8000001038, 0x8000020000), (0x8000010000, 2 ^ 63 + 8), (0x8000010008, 2 ^ 63 + 9),
   (0x8000020000, 2 ^ 63 + 3), (0x8000020008, 2 ^ 63 + 4), (globalBase 3 + 0x400, 1), (globalBase 3 + 0x408, 4088),
   (globalBase 3 + 0x410, 64), (globalBase 3 + 0x418, 0x2000), (globalBase 3 + 0x428, 0x3000)].foldl
    (fun m x => Memory.write m x.1 8 x.2) []

/-- Group 0 runs as CXL. -/
def tcxl (s : State) : State := { s with groups := s.groups.map fun g => if g.num = 0 then { g with pers := 1 } else g }

/-- The process names the block in x4 and the handle of any server in x5. -/
def tms : Proc := (tp.setX 4 0x400).setX 5 (BitVec.ofNat 64 (4 * 2 ^ 24 + 0xFFFFFF))
def tss : State :=
  { tcxl (ts tms) with mem := tsm, regions := [{ treg with segs := [(2 ^ 22, 1), (2 ^ 22, 3)] }] }

theorem wit_ServerRequests : ∀ op ∈ [MsOp.get, .put], let ea := tms.getX 4
    let w (k : Nat) : Word := BitVec.ofNat 64 (tss.mem.read (homeAt tms ea + 8 * k) 8)
    let blk := blockOf w (entryAt (tss.effSegtab 1) 1) ((tss.copied 1 1).bind (·.2.2)) (tss.coord 3)
    (w 0).toNat % 2 ^ 16 = 1 ∧ (dieOf 3 = serverDie (entryServer 3 blk anyServer)) ∧
    Issues tss tms ∧ Quiet tss 3 ∧ (∀ q ∈ tss.packets, q.pid ≠ tms.pid) ∧ ea.toNat < Config.localBytes ∧
      ea.toNat % 64 = 0 ∧
    tms.allowed tss ea 64 .rd = true ∧ tss.marks = [] ∧ tss.latent = [] ∧ tss.blockCheck tms op w anyServer blk = none ∧
    tss.msRoom 3 blk anyServer = true ∧
      (match tss.serverCheck (tms.getX 5) true with | .ok n => n == anyServer | _ => false) = true := by
  unfold Issues Quiet; decide +kernel

theorem wit_ServerRequests_faults : let h : Word := BitVec.ofNat 64 (4 * 2 ^ 24 + 15)
    let s := { tss with pkg := { tss.pkg with stackMask := 0x7FFF }, loaderWins := [] }
    (1 : Word).toNat % 2 ^ 32 / 2 ^ 24 ≠ 4 ∧ h.toNat % 2 ^ 32 / 2 ^ 24 = 4 ∧ h.toNat % 2 ^ 24 ≠ 0xFFFFFF ∧
      s.serverPresent 15 = false ∧ s.sceneServer 15 = false ∧
    (0x420 : Word).toNat % 64 ≠ 0 ∧ Config.localBytes ≤ (BitVec.ofNat 64 Config.localBytes).toNat ∧
    tms.allowed s (tms.getX 4) 64 .rd = false ∧
    (match tss.serverCheck h false with | .ok n => n == 15 | _ => false) = true := by decide +kernel

/-- A request of that block, with its front the server of its segment. -/
def tblk (far : Bool) : MsBlock :=
  { entry := if far then 0x8000001028 else 0x8000001008, seg := if far then 2 else 1, conv := 0, rop := 0, rtype := 0
    offset := 4088, len := 64, count := 0, loc := globalBase 3 + 0x2000, index := 0, compl := globalBase 3 + 0x3000
    val0 := 0x0102030405060708, val1 := 0, far := if far then some 0 else none, coord := 3 }
def treq (far : Bool) (op : MsOp) (next : Nat) : MsReq :=
  { id := 1, pid := 5, core := 3, region := 1, pc := 0, op := op, blk := tblk far, any := false, front := if far then 16 else 0
    phase := .active, next := next, written := next }

theorem wit_ServerRequests_accept : let b := tblk false
    let p := { tp with st := .blocked .channel, wait := .ms .get b 0 }
    let s := { ta p with mem := tsm, subj := .id 5 }
    let room : State := { s with requests := List.replicate 64 { treq false .get 0 with phase := .queued } }
    Alone s p ∧ b.far = none ∧ dieOf p.core = serverDie (entryServer p.core b 0) ∧ s.msRoom p.core b 0 = true ∧
      s.subj = .id p.pid ∧
    room.msRoom p.core b 0 = false := by unfold Alone; decide +kernel

/-- The request in a machine whose server has its page translated. -/
def twork (far : Bool) (op : MsOp) (next : Nat) : State :=
  let r := treq far op next
  let s := { tcxl (ts tp) with cpu := none, requests := [r], subj := .id 1, mem := tsm }
  s.refill r.front r.blk.entry 0 (s.pageEntry (s.reqSegment r) 0)

theorem wit_ServerWork : ∀ far ∈ [false, true], ∀ op ∈ [MsOp.fill, .put, .get], ∀ next ∈ [0, 8], let r := treq far op next
    let s := twork far op next
    let seg := s.reqSegment r
    let pa := s.physical r (r.blk.offset + r.next)
    s.request? r.id = some r ∧ Calm s ∧ s.pieceReady r = true ∧ r.stage = .route ∧ r.die = serverDie r.front ∧
      r.carry = none ∧ s.subj = .id r.id ∧ r.blk.conv = 0 ∧ r.blk.len % 8 = 0 ∧
    r.blk.offset % 8 = 0 ∧ r.next % 8 = 0 ∧ r.blk.loc % 8 = 0 ∧ seg.isFar = far ∧
    (far = true ∨ s.stackPresent (s.pkg.stackOf pa) = true ∧ s.pkg.stackOf pa / 2 = r.die) ∧
      s.homeGone r.blk.loc = false ∧
    homeDie r.blk.loc = r.die ∧
    ((List.range 64).all fun k => decide (0x4000000000 ≤ r.blk.loc + k) && !s.homeGone (r.blk.loc + k) &&
      decide (homeDie (r.blk.loc + k) = r.die)) = true := by unfold Calm MemoriesOk; decide +kernel

theorem wit_ServerWork_start : let r := { treq false .get 0 with phase := .queued }
    let a := { r with any := true, front := 3 }
    let s := { twork false .get 0 with requests := [r] }
    let u := ({ s with requests := [a] }).refill 3 a.blk.entry 0 (2 ^ 63 + 7)
    (s.requests.find? fun q => q.front == 0 && q.phase == .queued && !q.stopped && !q.travel) = some r ∧
    (s.requests.filter fun q => q.front == 0 && q.phase != .queued).length < contexts 0 ∧
    u.cached 3 a.blk.entry (a.blk.offset / 2 ^ 21) = some (2 ^ 63 + 7) ∧ pinned (2 ^ 63 + 7) = true ∧
    s.pkg.stackOf (pageAddr (s.reqSegment a) (2 ^ 63 + 7) (a.blk.offset % 2 ^ 21)) ≠ 3 := by decide +kernel

theorem wit_ServerWork_refill : ∀ far ∈ [false, true], let r := treq far .get 0
    let s := { tcxl (ts tp) with requests := [r], subj := .id 1, mem := tsm }
    let e : Word := BitVec.ofNat 64 (s.mem.read (s.reqSegment r).xlat 8)
    s.missing r = some 0 ∧ r.allDone = false ∧ r.stopped = false ∧ e.getLsbD 63 = true := by decide +kernel

theorem wit_ServerWork_completion : ∀ status ∈ [0, 15], let r := { treq false .get 64 with status := status }
    let s := { twork false .get 64 with requests := [r] }
    s.request? r.id = some r ∧ Calm s ∧ r.over = true ∧ r.phase ≠ .completing ∧ r.carry = none ∧
      s.engineBusy r.id = false ∧
    s.diePresent (serverDie r.front) = true ∧ 0x4000000000 ≤ r.blk.compl ∧ r.blk.compl % 8 = 0 ∧
    homeDie r.blk.compl = serverDie r.front ∧
      s.homeGone r.blk.compl = false := by unfold Calm MemoriesOk; decide +kernel

theorem wit_SchedulerEvents_dispatch : ∀ e ∈ [0, 1, 2], let p := { tp with st := .ready, base := e, eff := e }
    let r := { tp with pid := 9, st := .ready, base := 3, eff := e + 1, key := 3 }
    let s := { ta p with subj := .id 3 }
    s.cpu = none ∧ s.focus = p.core ∧ s.coreLive p.core = true ∧ p.loc = .green ∧ p.eff ≤ 3 ∧ p.loans = [] ∧
    s.subj = .id p.core ∧ s.procs = [p] ∧ p.done = none ∧ { p with done := some (.regs []) }.done = some (.regs []) ∧
    r.core = p.core ∧ r.pid ≠ p.pid ∧ r.loans = [] ∧ p.eff < r.eff := by decide +kernel

theorem wit_SchedulerEvents_running : let p := { tp with quantum := 0 }
    let z := { tp with base := 0, eff := 0, budget := BitVec.ofInt 64 (-5) }
    let r := { tp with pid := 9, st := .ready, key := 3 }
    let s := { ts p with subj := .id 3 }
    let h := s.modCore 3 fun k => { k with halt := some .quantum }
    let g := s.modCore 3 fun k => { k with ghost := 1024, ghostRun := true }
    s.cpu = some p ∧ s.focus = p.core ∧ p.st = .running ∧ p.wait = .none ∧ s.loanMsgs = [] ∧
    (∀ q ∈ s.packets, q.pid ≠ p.pid) ∧ s.subj = .id p.core ∧ r.core = p.core ∧ (h.core 3).halt = some .quantum ∧
    s.procs = [] ∧ p.eff ≠ 0 ∧ (s.core 3).halt = none ∧ (s.core 3).ghostRun = false ∧ r.eff = p.eff ∧ z.dem = false ∧
    z.budget.toInt ≤ 0 ∧ (s.recordVia p.priv p.region).bind s.faultChan = none ∧ 1024 ≤ g.ghostCount 3 ∧
    (g.core 3).halt = none ∧ (g.core 3).ghostRun = true ∧ r.eff < { p with eff := 3 }.eff := by decide +kernel

theorem wit_SchedulerEvents_timers : let p := { tp with base := 0, eff := 1, dem := true, st := .ready, period := 10000, fullBudget := 1000, release := 500 }
    let s := { ta p with subj := .id 5 }
    let w := ({ s with subj := .id 3 }).modCore 3 fun k => { k with window := 7, ghost := 9 }
    Alone s p ∧ s.subj = .id p.pid ∧ p.placed = true ∧ p.base = 0 ∧ p.release ≤ s.ns ∧ w.runningOn 3 = none ∧
    (w.core 3).window ≠ w.cycleOf 3 / 65536 := by unfold Alone; decide +kernel

/-- Nine processes of class T in the green room of core 3, and one that waits for a fill. -/
def tfull (st : PState) : State :=
  { ts tp with cpu := none, subj := .id 3, procs := { tp with st := .parked none, loc := .park } ::
      (List.range 9).map fun i => { tp with pid := 20 + i, st := st, eff := 2, base := 2, lastRun := 50 - i } }

theorem wit_SchedulerEvents_spill : ∀ st ∈ [PState.blocked .sleep, .ready, .faulted], let s := tfull st
    (match s.nextFill 3, s.victim 3 1 with
      | some p, some v => p.pid == 5 && !s.fits 3 p.cls.units && p.eff == 1 && s.parkFits 3 v && v.st == st
      | _, _ => false) = true ∧ s.subj = .id 3 := by decide +kernel

theorem wit_SchedulerEvents_fill : let p := { tp with st := .parked none, loc := .park }
    let s := { ta p with subj := .id 3 }
    Alone s p ∧ p.wait = .none ∧ s.subj = .id p.core := by unfold Alone; decide +kernel

/-- A record of process 5, and a reply endpoint that the device reads. -/
def trec (via : Option Nat) : Record := { cause := .trap, region := 1, pid := 5, via := via, held := true }
def trep (w0 : Word) : Channel :=
  { table := 77, name := 6, region := 1, kind := .word, w := 2, buf := true, depth := 8, tx := boundTo 88
    rx := { st := .bound, holder := .device }, queue := [[w0, 77, 88], [1, 1, 88]] }

theorem wit_FaultMessages_send : let c : Channel := { tch with depth := 8, tx := { st := .bound, holder := .device }, rx := boundTo 88 }
    let s := { ts tp with cpu := none, subj := .id 3, regions := [{ treg with faultep := 6, faulttab := 77 }], channels := [c] }
    let a := s.modCore 3 fun k => { k with records := [trec none] }
    let b := s.modCore 3 fun k => { k with records := [trec (some 1)] }
    3 < 8192 ∧ a.cpu = none ∧ a.procs = [] ∧ (a.core 3).records = [trec none] ∧ a.subj = .id 3 ∧
    (b.core 3).records = [trec (some 1)] ∧ b.faultChan 1 = some c ∧ b.channels = [c] ∧ b.slotFree 1 c = true ∧
      c.table / 2 ^ 32 % 8 = dieOf 3 ∧
    b.framesTo c = 0 ∧ { c with table := 2 ^ 32 + 77 }.table / 2 ^ 32 % 8 ≠ dieOf 3 := by
  decide +kernel

theorem wit_FaultMessages_reply : ∀ act ∈ [0, 1, 2], ∀ bit ∈ [0, 2 ^ 34], let w0 : Word := BitVec.ofNat 64 (5 + act * 2 ^ 32 + bit)
    let p := { tp with st := .faulted, priv := .u, fault := some { record := trec none, len := some 4 } }
    let c := trep w0
    let s := { ta p with channels := [c], subj := .pair 77 6, regions := [{ treg with replyep := 6, faulttab := 77 }] }
    Alone s p ∧ p.wait = .none ∧ s.channels = [c] ∧ c.rx.holder = .device ∧ c.rx.st = .bound ∧ c.outside = .none ∧
    s.subj = .pair c.table c.name ∧ w0.toNat % 2 ^ 32 = p.pid ∧
      s.inSubtree (s.supervisorRegion c [w0, 77, 88]) p.region = true ∧
    w0.toNat / 2 ^ 35 = 0 ∧ w0.toNat / 2 ^ 32 % 4 = act ∧ p.fault.bind (·.len) = some 4 ∧ p.priv = .u ∧ p.rsvs = [] ∧
    w0.toNat % 2 ^ 32 ≠ 4 ∧ dieOf p.core = placeDie (s.anchorPlace c) ∧
    dieOf 7000 ≠ placeDie (s.anchorPlace c) ∧ s.diePresent (dieOf 7000) = true := by unfold Alone; decide +kernel

theorem wit_FaultMessages_monitor : let p := { tp with st := .faulted, fault := some { record := trec none, len := some 4 } }
    let s := { ta p with subj := .monitor (.reply 5 77), mailbox := [trec none] }
    let e := { ts tp with cpu := none, subj := .monitor (.endRegion 1) }
    Alone s p ∧ dieOf p.core = 0 ∧ (5 : Word).toNat % 2 ^ 32 = p.pid ∧ (5 : Word).toNat / 2 ^ 35 = 0 ∧
      (5 : Word).toNat / 2 ^ 32 % 4 = 0 ∧
    e.region? 1 = some treg ∧ treg.ended = false ∧ e.cpu = none ∧ e.procs = [] ∧
      { p with loc := .park }.loc = .park := by
  unfold Alone; decide +kernel

/-- A placement of one member. -/
def tpl (result die : Nat) : Placement :=
  { id := 12, region := 1, group := 0, gcount := 1, t0 := 0
    members := [{ pid := 5, die := die, clus := 0, first := 3, last := 3, result := result, issuer := 77, issuerCore := 8, issuerPc := 0x44, issuerCoord := 0 }] }

theorem wit_PlacementEvents : ∀ result ∈ [0, globalBase 3 + 0x3000], let p := { tp with st := .new, loc := .nowhere }
    let s := { ta p with placements := [tpl result 0], subj := .id 12, time := 120000000 }
    let gone := { s with pkg := { s.pkg with dieMask := 0xFD } }
    Alone s p ∧ s.channels = [] ∧ (tpl result 0).gcount ≤ 1 ∧ (tpl result 0).thread = none ∧ p.base ≠ 0 ∧ p.rsvs = [] ∧
    s.packets = [] ∧ Calm s ∧ s.subj = .id 12 ∧ (s.die 0).coreReset = false ∧ (s.die 1).coreReset = false ∧
    (result = 0 ∨ 0x4000000000 ≤ result ∧ result % 8 = 0 ∧ homeDie result = 0 ∧ s.homeGone result = false) ∧
    s.coreTakes (coreOf 0 0 3) = true ∧ s.budgetsOk (coreOf 0 0 3) p = true ∧ gone.coreTakes (coreOf 1 0 3) = false ∧
    gone.placeLimit (tpl result 1) ≤ gone.ns - 0 := by unfold Alone Calm MemoriesOk; decide +kernel

theorem wit_PlacementEvents_compaction : ∀ c ∈ [7, 7000], let p := { tp with st := .ready }
    let pl := tpl 0 0
    let s := { ta p with placements := [pl], subj := .moves 12 [(5, c)], time := 120000000 }
    let u := { s with placements := [{ pl with compacted := true }] }
    Alone s p ∧ pl.compacted = false ∧ s.placeLimit pl ≤ (s.ns - pl.t0) * 2 ∧ p.wait = .none ∧ p.region = pl.region ∧
    s.channels = [] ∧ s.packets = [] ∧ s.transfers = [] ∧ s.requests = [] ∧ p.image = none ∧ p.core ≠ c ∧
      p.moving = none ∧
    u.canMove c p = true ∧ u.canAdmit c p = true ∧ (dieOf c = dieOf p.core ↔ c = 7) := by unfold Alone; decide +kernel

theorem wit_PlacementEvents_loan : let l := { tp with pid := 8, st := .blocked .channel }
    let p := { tp with st := .ready, base := 3, eff := 3 }
    let m : LoanMsg := { id := 2, lender := 8, tgt := 5, cls := 1, deadline := 9, hop := 1 }
    let s := { ts tp with cpu := none, procs := [l, p], loanMsgs := [m], subj := .id 2 }
    s.cpu = none ∧ l.pid ≠ p.pid ∧ l.loans = [] ∧ p.loans = [] ∧ m.lender = l.pid ∧ m.tgt = p.pid ∧ l.isBlocked = true ∧
    p.wait = .none ∧ m.cls ≠ 0 ∧ s.subj = .id m.id := by decide +kernel

theorem wit_PlacementEvents_migration : ∀ c ∈ [7, 8000], let p := { tp with st := .parked none, loc := .park, wait := .migrating c 6 true }
    let s := { ta p with subj := .id 5, pkg := { State.reset.pkg with dieMask := 0x7F } }
    Alone s p ∧ s.channels = [] ∧ s.packets = [] ∧ s.transfers = [] ∧ s.requests = [] ∧ p.image = none ∧
      s.subj = .id p.pid ∧
    (s.coreTakes c = true ∨ s.diePresent (dieOf c) = false) ∧ s.coreTakes 7 = true ∧
      s.diePresent (dieOf 8000) = false := by
  unfold Alone; decide +kernel

/-- A stamped write on its way from die 0 to die 1, at the latter's Hearth or not. -/
def tst1 : Stamp := { src := 0, col := [1, 1, 0, 0, 0, 0, 0, 0], deltas := [], kindling := false }
def tfab (held : Bool) (refused : Option Nat) : Packet :=
  { tw (globalBase 1024 + 0x103) 3 0x112233 .fabric .ord with
    src := 0, dst := 1, stamp := some tst1, held := held, refused := refused }

theorem wit_FabricEvents_packet : let a := { ts tp with packets := [tfab false none], subj := .id 7 }
    let b := { ts tp with packets := [tfab false (some 11999360)], subj := .id 7 }
    let c := { ts tp with packets := [tfab true none], subj := .id 7 }
    a.packet? 7 = some (tfab false none) ∧ a.subj = .id 7 ∧ a.underWay (tfab false none) = true ∧
    (∀ x ∈ a.packets, x.id = 7 → x = tfab false none) ∧ b.underWay (tfab false (some 5)) = true ∧
    11999360 + 64 * (b.die 0).ccUnits ≤ b.time ∧ (tfab true none).held = true ∧ c.packetReady (c.die 1) tst1 = true ∧
    (tfab true none).broken = false ∧ Calm c ∧ c.homeGone (globalBase 1024 + 0x103) = false := by
  unfold Calm MemoriesOk; decide +kernel

theorem wit_FabricEvents_flits : let d : Die := { num := 2, know := [(2, 4095), (17, 4)] }
    let s := ({ ts tp with subj := .pair 2 3 }).modDie 2 fun _ => d
    let f : Flit := { id := 9, src := 2, dst := 3, own := [0, 0, 0, 5, 0, 0, 0, 0], echo := [1, 2, 3, 4, 5, 6, 7, 8] }
    let r := { ts tp with flits := [f], subj := .id 9 }
    addrsOk (d.know.map (·.1)) = true ∧ tst1.deltas = [] ∧ s.diePresent 2 = true ∧ s.diePresent 3 = true ∧
    (s.die 2).flitDue 3 s.time = true ∧ s.subj = .pair 2 3 ∧ r.flits = [f] ∧ r.subj = .id f.id ∧
    addrsOk ((r.die 3).ack.map (·.1)) = true := by decide +kernel

theorem wit_FabricEvents_dies : let k (n : Nat) : State := { ts tp with reclock := some { removed := [4], joining := [], phase := n }, threads := [] }
    let c := k 2
    let w := (k 2).modDie 2 fun d => { d with know := [(2, 4095), (17, 4)] }
    let p := { tp with st := .ready }
    let r := { ta p with subj := .id 0 }
    let e := r.modDie 0 fun d => { d with coreReset := true }
    let u := { ts tp with subj := .id 4, pkg := { State.reset.pkg with dieMask := 0xEF } }
    c.reclockDrained = true ∧ w.reclockDrained = false ∧ w.reclock = c.reclock ∧ (k 3).affected = [] ∧
      (k 3).threads = [] ∧ Alone r p ∧ dieOf p.core = 0 ∧ p.placed = true ∧ p.rsvs = [] ∧
    r.channels = [] ∧ r.requests = [] ∧ r.transfers = [] ∧ (r.die 0).coreReset = false ∧ (∃ d ∈ r.dies, d.num = 0) ∧
    (e.die 0).coreReset = true ∧ u.pkg.dieMask.getLsbD 4 = false ∧ u.reclock = none := by unfold Alone; decide +kernel

/-- A state in which group 5 is in a phase of a scene change to a target. -/
def tsc (map width : Nat) : Scene := { map := map, width := width, thread := some 0, entered := 3 }
def tscene (sc : BitVec 4) (target : BitVec 2) (c : Scene) : State :=
  { ts tp with subj := .id 5, cpu := none, groups := State.reset.groups.map fun x => if x.num = 5 then { x with
      sc := sc, target := target, scene := some c } else x }

theorem wit_SceneChanges : let c := tsc 0 8
    let k : Channel := { tc with kind := .external, tx := boundTo 7, rx := { st := .bound, holder := .device }, outside := .flow 5 3 }
    (tscene 1 2 c).group 5 = { num := 5, sc := 1, target := 2, scene := some c } ∧ (tscene 1 2 c).subj = .id 5 ∧
    (tscene 1 2 c).channels = [] ∧ k.rx.holder = .device ∧ k.tx.holder ≠ .device ∧ k.rx.st = .bound ∧
    (tscene 2 2 c).drained 5 = true ∧ c.entered + 1000000 ≤ { tscene 2 2 c with time := 12000036 }.ns ∧
    (tscene 2 2 c).packets = [] ∧ ((tscene 2 2 c).group 5).flows = [] ∧
      ((tscene 3 2 c).die 2).locks (.scene 5) = false ∧
    ((tscene 3 0 c).group 5).target = 0 ∧ (tsc 0 8).map = 0 ∧ (tsc 0x8000000100 8).map ≠ 0 ∧
    { tscene 6 2 c with threads := [] }.threads = [] ∧ (tscene 6 2 c).cpu = none ∧ (tscene 6 2 c).procs = [] := by
  decide +kernel

theorem wit_SceneChanges_train : let c := tsc 0 8
    let s := { tscene 4 3 c with time := 1200000 }
    (s.group 5).scene = some c ∧ (s.group 5).sc = 4 ∧ covers 0xFF (widthLanes 8) = true ∧
    c.entered + (if (s.group 5).target = 1 then 200000 else 80000) ≤ s.ns ∧ covers 0x1F 0xFF = false ∧
      covers 0x1F 0x0F = true ∧
    covers 0xF7 0x0F = false ∧ { s.group 5 with sc := 0, pers := 2, laneup := 0x0F }.pers ≠ 0 := by decide +kernel

theorem wit_SceneChanges_lock : let q (u : LockUser) : State := (tscene 3 2 (tsc 0 8)).modDie 2 fun d => { d with lockQ := [(u, 9)] }
    let h := (tscene 3 2 (tsc 0 8)).modDie 2 fun d => { d with lock := some (.dvfs 800) }
    let two := (tscene 3 2 (tsc 0 8)).modDie 2 fun d => { d with lockQ := [(.scene 5, 9), (.dvfs 600, 4)] }
    ((q (.scene 5)).die 2).lock = none ∧ ((q (.scene 5)).die 2).lockQ = [(.scene 5, 9)] ∧
      ((q (.dvfs 800)).die 2).lockQ = [(.dvfs 800, 9)] ∧
    (q (.scene 5)).diePresent 2 = true ∧ 800 ∈ [1200, 1000, 800, 600] ∧ ((q (.scene 5)).die 2).mhz ≠ 800 ∧
    (∀ l, ((q (.scene 5)).die 2).lock = some l → l.isScene = true) ∧
      (∀ l ∈ ((q (.scene 5)).die 2).lockQ, l.1.isScene = true) ∧
    (two.die 2).lock = none ∧ (two.die 2).lockQ = [(.scene 5, 9), (.dvfs 600, 4)] ∧
      (h.die 2).lock = some (.dvfs 800) ∧ (h.die 2).mhz ≠ 800 := by
  decide +kernel

/-- A group of personality UET with a flow, a cue and a key, and a packet for them. -/
def tkey : Key := { idx := 4, base := globalBase 3 + 0x1001, len := 100, rw := true, rr := false, reuse := 2, valid := true, freedAt := none }
def tcue : Cue := { tag := 3, mask := 0xFFFF, key := 0x2000004, off := 5, compl := globalBase 3 + 0x2000, persist := false }
def tflow : Flow := { num := 6, remote := 0, port := 0, rbase := 0xFFFFFFFF, cues := [tcue] }
def tuet (psn : BitVec 32) : UetPacket :=
  { flow := 6, psn := psn, msg := 1, len := 21, off := 0, tag := 3, key := 0x2000004, payload := List.replicate 21 7 }
def tgrp (f : Group → Group) : State := { ts tp with groups := State.reset.groups.map fun x => if x.num = 0 then f x else x }

theorem wit_EdgeTraffic_packet : let p := tuet 0xFFFFFFFF
    let s := { tgrp fun x => { x with pers := 3, flows := [tflow], keys := [tkey] } with subj := .uet 0 p }
    let x := s.group 0
    x.flow? 6 = some tflow ∧ x.pers = 3 ∧ x.sc.toNat < 2 ∧ tflow.failed = false ∧ p.payload.length ≤ 4096 ∧
    p.off.toNat + p.payload.length ≤ p.len.toNat ∧ p.off = 0 ∧ (p.psn - tflow.rbase).toNat = 0 ∧ tflow.rmap = 0 ∧
      tflow.msgs = [] ∧
    p.len.toNat = p.payload.length ∧ x.key? tcue.key = x.key? p.key ∧ tcue.key.toNat / 2 ^ 24 = tkey.reuse.toNat ∧
      p.tag &&& tcue.mask = tcue.tag ∧ x.key? tcue.key = some tkey ∧ x.key? p.key = some tkey ∧
    tcue.off + 21 ≤ tkey.len ∧ p.key.toNat / 2 ^ 24 = tkey.reuse.toNat ∧ Calm s ∧ s.packets = [] ∧ tcue.compl % 8 = 0 ∧
    tkey.base + tcue.off + 21 ≤ tcue.compl ∧ homeDie tcue.compl = 0 ∧ s.homeGone tcue.compl = false ∧
    ((List.range 21).all fun k => homeDie (tkey.base + tcue.off + k) == 0 && !s.homeGone (tkey.base + tcue.off + k) &&
      decide (0x4000000000 ≤ tkey.base + tcue.off + k)) = true ∧
    2 ^ 31 < ((tuet 0x7FFFFFFE).psn - 0xFFFFFFFC).toNat ∧ ((tuet 1023).psn - tflow.rbase).toNat = 1024 ∧
    ((tuet 0x7FFFFFFF).psn - tflow.rbase).toNat = 2 ^ 31 := by unfold Calm MemoriesOk; decide +kernel

theorem wit_EdgeTraffic_acks : let u : Sent := { pkt := tuet 0xFFFFFFFF, tries := 6, missing := 0, at_ := 0 }
    let f := { tflow with sinceAck := 3, unacked := [u], rmap := 5 }
    let s := tgrp fun x => { x with pers := 3, flows := [f] }
    (s.group 0).flow? 6 = some f ∧ f.sinceAck ≠ 0 ∧ f.waiting = [] ∧ ackedBy 0xFFFFFFFF 1 u.pkt.psn = true ∧
    u.at_ + 100000 ≤ s.ns ∧ u.tries < 7 ∧ 7 ≤ { u with tries := 7 }.tries ∧ f.msgs = [] ∧
      s.channels = [] := by decide +kernel

theorem wit_EdgeTraffic_request : let a := globalBase 3 + 0x100
    let s := tgrp fun x => { x with pers := 2, inwins := [{ base := a, limit := a + 3, rd := true, wr := true, ex := false }] }
    (s.group 0).pers = 2 ∧ (s.group 0).sc.toNat < 2 ∧ s.serves (s.group 0) a 4 .wr = true ∧ homeDie a = 0 / 2 ∧
      s.packets = [] ∧
    s.serves (s.group 0) (a + 1) 4 .wr = false := by decide +kernel

theorem wit_EdgeTraffic_answer : let p := { tp with wait := .load 6 4 false 0x2000000000 4 false }
    let q : Packet := { tw 0 4 0 .aperture .ord with payload := .apRead 0 0 0 4 (.slot 5 0) }
    let s := { ts p with packets := [q], subj := .answer 7 (.data 0xFFFFFFFF) }
    s.cpu = some p ∧ (s.core 3).early = [] ∧ s.packet? q.id = some q ∧ s.mayLand q = true ∧
      0xFFFFFFFF < 2 ^ (8 * 4) := by
  decide +kernel

/-- A host queue at its last entry, whose descriptor there posts a buffer of 30 bytes at 0x5001. -/
def thq : HostQueue := { function := 2, num := 3, base := 0x1000, entries := 16, head := 15, tail := 0 }
def thost : Memory :=
  Memory.write (Memory.write (Memory.write [] (hostKey 2 thq.entry) 8 0x5001) (hostKey 2 (thq.entry + 8)) 4 30)
    (hostKey 2 (thq.entry + 12)) 4 (0x77 + 0x8005 * 65536)

theorem wit_EdgeTraffic_send : ∀ o ∈ [Outside.hostq 2 3, .flow 0 6],
    let c : Channel := { tc with kind := .host, depth := 1, rx := { st := .bound, holder := .device }, outside := o }
    let w : ChanWait := { tcw .send 0 0 with msg := [0x203, 30] }
    let p := { tp with st := .blocked .channel, wait := .chan w }
    let s := { tgrp fun x => { x with pers := 3, flows := [{ tflow with cues := [] }] } with
      cpu := none, procs := [p], channels := [c], hostQueues := [thq], host := thost }
    Alone s p ∧ s.channels = [c] ∧ s.sender c = some (p, w) ∧ MemoriesOk s ∧ (w.msg.getD 1 0).toNat = 30 ∧
    s.hostQueue? 2 3 = some thq ∧ thq.entry + 16 < 2 ^ 63 ∧ s.hostRead 2 (thq.entry + 14) 2 % 2 = 1 ∧
    30 ≤ s.hostRead 2 (thq.entry + 8) 4 ∧ thq.entry + 16 ≤ s.hostRead 2 thq.entry 8 ∧
    (s.group 0).flow? 6 = some { tflow with cues := [] } ∧ (s.group 0).pers = 3 ∧ (s.group 0).sc = 0 := by
  unfold Alone MemoriesOk; decide +kernel

theorem wit_EdgeTraffic_receive : let r : Ring := { core := 3, base := 0x400, size := 64, slots := 2, next := 1, busy := [], owned := none }
    let c : Channel := { tc with kind := .host, depth := 2, tx := { st := .bound, holder := .device }, rx := boundTo 5
                                 outside := .hostq 2 3, ring := some r }
    let s := { ts tp with cpu := none, channels := [c], hostQueues := [thq], host := thost, subj := .pair 2 3 }
    Calm s ∧ s.cpu = none ∧ s.procs = [] ∧ s.hostQueue? 2 3 = some thq ∧ thq.head ≠ thq.tail ∧
      c.table / 2 ^ 32 % 8 = 0 ∧ s.packets = [] ∧ r.free? = some 1 ∧ dieOf r.core = 0 ∧
    s.hostRead 2 (thq.entry + 14) 2 % 2 = 1 ∧ s.hostRead 2 (thq.entry + 8) 4 ≤ r.size ∧
    ((List.range 30).all fun k => decide (0x4000000000 ≤ r.home 1 0 + k) && homeDie (r.home 1 0 + k) == 0 &&
      !s.homeGone (r.home 1 0 + k)) = true := by unfold Calm MemoriesOk; decide +kernel

/-- A thread with four items in its queue, at the third, and a header of the item at position 2 of its queue or of a
trigger's list. -/
def tth (num : Nat) (resident : Bool) : Thread :=
  let idle : CurItem := { hdr := { thread := num, postsem := 0xFFFF, postadd := 0, pc := 0, pos := 2, resident := false }, pending := .waitge 4 12 false }
  let run : Option SubRun := if resident then some { k := 9, list := 0x8001000000, count := 9, pos := 2, cur := none } else none
  { num := num, function := 2, region := 1, ring := 0, ringLog := 4, items := [.book 1, .book 2, .book 3, .book 4], head := 2
    loops := [(2, 1)], cur := if resident then some idle else none, sub := run }
def thdr (num : Nat) (resident : Bool) : ItemHdr :=
  { thread := num, postsem := 0xFFFF, postadd := 0, pc := 0x44, pos := 2, resident := resident }

/-- A machine whose one thread has semaphores 4 and 5, edge groups, and all of memory granted, at an item with operands. -/
def tq (num : Nat) (resident : Bool) (a0 a1 a2 : Word) : State :=
  { ts tp with cpu := none, regions := [{ treg with function := 2 }], threads := [tth num resident], triggers := [{ k := 9, thread := num, list := 0x8000040000, count := 3, pending := 1 }]
               sems := [(4, 10)], semOwners := [(4, 2), (5, 2)], edgeGrants := [(2, 0), (2, 16 + 3)]
               grants := [{ region := 1, ranges := [{ base := 0, limit := 2 ^ 40, write := true }] }]
               subj := .item (thdr num resident) a0 a1 a2, nextRegion := 2 }

theorem wit_QueueCommands : ∀ num ∈ [0, 3], ∀ resident ∈ [false, true], let t := tth num resident
    let h := thdr num resident
    let s := tq num resident 4 10 0
    s.subj = .item h 4 10 0 ∧ Begins s t h ∧ (4 : Word).toNat < 4096 ∧ s.maySem h.thread 4 = true ∧
    (10 : Word).toNat ≤ s.sems.get 4 ∧ s.sems.get 4 < (11 : Word).toNat ∧ addrsOk (s.sems.map (·.1)) = true ∧
    t.loops.get (s.loopKey h) < (5 : Word).toNat ∧ t.written h (h.pos + (BitVec.ofInt 64 (-2)).toInt) = true ∧
    (BitVec.ofInt 64 (-2)).toInt ≤ 0 ∧ t.written h (h.pos + (BitVec.ofInt 64 (-1)).toInt) = true ∧
    (2047 : Word).toNat ≤ 2047 ∧ (s.sems.get 4 : Int) + (BitVec.ofInt 64 (-10)).toInt = 0 := by
  unfold Begins; decide +kernel

theorem wit_QueueCommands_copy : let s := tq 3 false (BitVec.ofNat 64 (globalBase 3 + 0x100)) (BitVec.ofNat 64 (globalBase 3 + 0x204)) 0xFFFFFFF8
    (match s.place 3 (BitVec.ofNat 64 (globalBase 3 + 0x100)) 16 false 1, s.place 3 (BitVec.ofNat 64 (globalBase 3 + 0x204)) 16 true 2 with
      | .ok _, .ok _ => true | _, _ => false) = true ∧ (0xFFFFFFF8 : Word).toNat % 8 = 0 ∧
        (0xFFFFFFF8 : Word).toNat ≤ 0xFFFFFFF8 := by
  decide +kernel

theorem wit_QueueCommands_trigger : let s := tq 3 false 63 0x8000050000 256
    (63 : Word).toNat < 64 ∧ rowOf (0x8000050000 : Word).toNat = 4 ∧ (256 : Word).toNat ≤ 256 ∧
    s.addressable 0x8000050000 = true ∧
    (match s.memPlace 3 0x8000050000 (32 * 256) false 2 with | .ok _ => true | _ => false) = true ∧
      (thdr 3 false).thread ≠ 0 := by
  decide +kernel

theorem wit_QueueCommands_scene : let a0 : Word := BitVec.ofNat 64 (5 + 2 * 256 + 4 * 65536)
    let s := tq 0 false a0 0x8000050000 0
    let out : State := ({ tq 0 false 7 0 0 with pkg := { State.reset.pkg with dieMask := 0x7F } }).modDie 7 fun d =>
      { d with uncoreReset := true, wiped := true }
    (tth 0 false).num = 0 ∧ zeroBut a0 0xF030F = true ∧ widthOk 2 4 = true ∧ s.sceneOk 5 2 4 = true ∧
    s.reclock = none ∧ s.pkg.graded = false ∧ s.pkg.dieMask.getLsbD 7 = true ∧ s.cpu = none ∧ s.procs = [] ∧
      s.channels = [] ∧
    s.packets = [] ∧ s.requests = [] ∧ s.cores = [] ∧ s.transfers = [] ∧ (∀ g ∈ s.groups, g.flows = []) ∧
    out.joinable 7 = true := by decide +kernel

theorem wit_QueueCommands_postsem : let h := { thdr 3 false with postsem := 5, postadd := 3 }
    let s := { tq 3 false 1 0 0 with subj := .item h 1 0 0 }
    Begins s (tth 3 false) { h with postsem := 0xFFFF } ∧ h.postsem.toNat < 4096 ∧
      s.maySem h.thread h.postsem.toNat = true ∧
    addrsOk (s.sems.map (·.1)) = true ∧
      s.sems.get h.postsem.toNat + h.postadd.toNat < 2 ^ 64 := by unfold Begins; decide +kernel

/-- The prompt book of Example 4.1 (288 bytes): one role of one instance on core 3. -/
def tbook : List Byte :=
  [0xad329c664b22f9f9f7bdc354931a416c000000000000000000000000796e697400000006000001200000000142504c45,
   0x00000008000000d0000000080000000200000030000000a00000000100000001cbf422d3e084b872eaba6589aacb2656,
   0x0000000800000108000000010000000800000010000000f8000000010000000500000020000000d80000000100000004,
   0x00000000000000000000000800000000000000000000030009000000000000050000000a000001100000000a0000000a,
   0xffffffff0000000000000000000000000000ffff00000001001cff9afd02150400000000000000000000000000000040,
   0x000000000000006e69707300706f740000000000020300000000000000000303000000010000000000000000ffffffff].flatMap
    fun w => toBytes w 48

/-- A machine with that book's bytes at 0x8000040000, and one with the book in slot 6. -/
def tload : State :=
  { tq 3 false 0x8000040000 288 6 with triggers := [], mem := tbook.zipIdx.filterMap fun x => if x.1 = 0 then none else some (0x8000040000 + x.2, x.1) }

theorem wit_LoaderCommands_load : let s := tload
    let h := thdr 3 false
    Begins s (tth 3 false) h ∧ Calm s ∧ h.resident = false ∧ lengthOk 288 = true ∧ s.book? 6 = none ∧
    (match s.place 3 0x8000040000 288 false 1 with
      | .ok pl => (s.readPlace pl 0 288).map (·.1) == tbook && bookFault tbook == none | .error _ => false) = true ∧
    bookIn tbook = tbook ∧ s.packets = [] ∧
    (match firstFit (s.loftUsed.map (·.2)) loaderBase loaderEnd 288 with
      | some a => decide (0x4000000000 ≤ a) && (List.range 288).all fun k => homeDie (a + k) == 0 && !s.homeGone (a + k)
      | none => false) = true := by
  unfold Begins Calm MemoriesOk; decide +kernel

/-- The book loaded, and a LAUNCH of all its roles. -/
def tlaunch (dies : BitVec 8) : State :=
  match tload.keepBook 1 0 6 tbook with
  | .ok u => { u with subj := .item (thdr 3 false) 6 0xFFFF 0, triggers := [], pkg := { u.pkg with dieMask := dies } }
  | .error _ => tload

theorem wit_LoaderCommands_launch : let h := thdr 3 false
    Begins (tlaunch 0xFF) (tth 3 false) h ∧ Calm (tlaunch 0xFF) ∧ Calm (tlaunch 0xFE) ∧
    (match (tlaunch 0xFF).launchBook h 6 with
      | some b => (tlaunch 0xFF).bookBytes b == tbook &&
        (match (tlaunch 0xFF).prepare h b tbook 0xFFFF with | .ok x => x.2.1.length == 1 | .error _ => false) &&
        (match (tlaunch 0xFE).prepare h b tbook 0xFFFF with | .ok _ => false | .error _ => true)
      | none => false) = true := by unfold Begins Calm MemoriesOk; decide +kernel

/-- The book has its region, which has tables of its own, and one role is launched on core 3 with nothing there. -/
def tlone : State :=
  { tlaunch 0xFF with
    subj := .item (thdr 3 false) 6 0 1
    regions := [{ treg with function := 2 }, { treg with num := 2, parent := 1, depth := 1, ovr := 0x50 }]
    books := (tlaunch 0xFF).books.map fun b => { b with regions := [(0, 2)] } }

theorem wit_LoaderCommands_one : let s := tlone
    Begins s (tth 3 false) (thdr 3 false) ∧ Calm s ∧
      (s.launchBook (thdr 3 false) 6).any (fun b => s.bookBytes b == tbook) = true ∧
    ((rolesOf tbook)[0]?).any (fun r => r.region == 0 && decide (r.nreg ≤ 32) && decide (r.block + roundUp 64 r.textLen ≤ 0x50000)) = true ∧
    ((instsOf tbook 0).map fun i => (i.core, i.role)) = [(3, 0)] ∧ (∀ x ∈ castsOf tbook, s.diePresent x.die = true) ∧
    wiresOf tbook = [] ∧ s.cpu = none ∧ s.procs = [] ∧ s.channels = [] ∧ s.placed = [] ∧ s.placements = [] ∧
    (∀ n ∈ [4, 6], (s.owner n levels 2).any (fun q => !q.isRoot) = true) ∧ (s.effWins 2).length ≤ 14 ∧ s.packets = [] ∧
    (∀ x ∈ s.loaderWins, x.region ≠ 2) := by
  unfold Begins Calm MemoriesOk; decide +kernel

/-- Its core's local memory is all on die 0. -/
theorem wit_LoaderCommands_near : tlone.packets = [] ∧ ∀ x, globalBase 3 ≤ x → x < globalBase 3 + 0x60000 →
    homeDie x = 0 ∧ tlone.homeGone x = false := by
  refine ⟨by decide +kernel, fun x h g => ?_⟩
  have e : homeDie x = 0 := by unfold homeDie; rw [show globalBase 3 = 0x4000300000 by decide] at h g; omega
  exact ⟨e, by simp [State.homeGone, e]; decide +kernel⟩

theorem wit_LoaderCommands_end : let s := { tlaunch 0xFF with subj := .item (thdr 3 false) 6 0 0 }
    s.subj = .item (thdr 3 false) 6 0 0 ∧ Begins s (tth 3 false) (thdr 3 false) ∧ (thdr 3 false).resident = false ∧
    (6 : Word).toNat < 64 ∧ (s.book? 6).any (·.regions.isEmpty) = true ∧ (tlone.book? 6).isSome = true ∧ Calm s := by
  unfold Begins Calm MemoriesOk; decide +kernel

/-- The edge groups at reset, but for group 0. -/
def tg0 (f : Group → Group) : List Group := State.reset.groups.map fun y => if y.num = 0 then f y else y

/-- Items of thread 0 about region 1 with the segment table above, and a window table at 0x8000030000. -/
def tpin (a0 a1 a2 : Word) : State :=
  { tcxl (tq 0 false a0 a1 a2) with
    mem := Memory.write (Memory.write tsm 0x8000030000 8 1) 0x8000030010 8 0x1000, triggers := [] }

theorem wit_LoaderCommands_pin : let s := tpin 1 1 0
    Begins s (tth 0 false) (thdr 0 false) ∧ Calm s ∧ s.regionOperand 0x44 1 = 1 ∧ (s.region? 1).isSome = true ∧
    s.mayName 0 1 = true ∧
    (match s.namedSegment 1 1 with
      | .ok e => (s.segment e).xlat == 0x8000010000 && !(s.segment e).isFar && (s.segment e).pages == 2 | _ => false) = true ∧
    s.packets = [] ∧ (∀ k ∈ List.range 16, homeDie (0x8000010000 + k) = 0 ∧ s.homeGone (0x8000010000 + k) = false) ∧
    rowOf 0x8000030000 = 4 ∧ s.mayReach 0 0x8000030000 8 false = true ∧
    s.mayReach 0 0x8000030000 (8 + 32 * 1) false = true ∧ s.addressable 0x8000030000 = true ∧
    s.winCount 0x8000030000 = some 1 ∧ s.winWords 0x8000030000 0 = (0, 0x1000, 0, 0) ∧ s.winOk 0 0x1000 0 0 = true := by
  unfold Begins Calm MemoriesOk; decide +kernel

/-- A far segment of one page, and a segment of one page of HBM that is not pinned, the lowest page being in use. -/
theorem wit_LoaderCommands_far : let s := { tpin 1 2 0 with mem := Memory.write tsm 0x8000001028 8 (2 ^ 21) }
    let free := Memory.write (Memory.write tsm 0x8000001008 8 (2 ^ 21)) 0x8000010000 8 0
    let u := { tpin 1 1 0 with mem := free }
    let near (a : Nat) : Prop := ∀ k ∈ List.range 8, homeDie (a + k) = 0 ∧ s.homeGone (a + k) = false
    (match s.namedSegment 1 2 with
      | .ok e => (s.segment e).isFar && (s.group (s.segment e).group).pers == 1 && (s.segment e).pages == 1 &&
        (s.segment e).xlat == 0x8000020000
      | _ => false) = true ∧ near 0x8000020000 ∧ near 0x8000010000 ∧ s.packets = [] ∧
    (match u.namedSegment 1 1 with
      | .ok e => !(u.segment e).isFar && (u.segment e).pages == 1 && !pinned (u.pageEntry (u.segment e) 0) &&
        (u.segment e).xlat == 0x8000010000
      | _ => false) = true ∧ 0 < u.pkg.hbmPages ∧ 0 ∉ u.usedPages := by decide +kernel

/-- After the LAUNCH of the book: its region, its process with an image, a flow and a host queue; an EXTEP or HOSTEP item. -/
def tends (a0 a1 a2 : Word) : State :=
  match (tlaunch 0xFF).launchBook (thdr 3 false) 6 with
  | some b => match (tlaunch 0xFF).prepare (thdr 3 false) b tbook 0xFFFF with
    | .ok x => { x.1 with groups := tg0 fun y => { y with pers := 3, flows := [tflow] }, hostQueues := [thq]
                          subj := .item (thdr 3 false) a0 a1 a2 }
    | .error _ => tload
  | none => tload

/-- The same with 0x100 bytes of data in the book's role. -/
def tendsData (a0 a1 a2 : Word) : State := let s := tends a0 a1 a2
  { s with mem := Memory.write s.mem ((s.books.map (·.addr)).headD 0 + 160 + 0x1C) 4 0x100 }

theorem wit_LoaderCommands_ends : ∀ host ∈ [false, true], ∀ tx ∈ [false, true],
    let bit : Nat := if tx then 2 ^ 63 else 0
    let a0 : Word := BitVec.ofNat 64 (9 + 2 * 2 ^ 32)
    let a1 : Word := if tx then 0 else BitVec.ofNat 64 (64 + 64 * 2 ^ 32 + 3 * 2 ^ 48)
    let a2 : Word := BitVec.ofNat 64 (bit + if host then 2 + 3 * 2 ^ 16 else 6 * 2 ^ 16)
    let s := tendsData a0 a1 a2
    let h := thdr 3 false
    let c : Channel := { table := 77, name := 9, region := 2, kind := if host then .host else .external, w := 2, buf := true
                         depth := if tx then 1 else 3, tx := if tx then boundTo 1 else { st := .bound, holder := .device }
                         rx := if tx then { st := .bound, holder := .device } else boundTo 1 }
    Begins s (tth 3 false) h ∧ Calm s ∧ s.regionOperand h.pc 2 = 2 ∧ (s.region? 2).isSome = true ∧
      s.mayName 3 2 = true ∧
    a2.getLsbD 63 = tx ∧ (if host then zeroBut a2 0x8000000000FF00FF = true ∧ (tth 3 false).function = 2 ∧
      s.mayEdge 3 (16 + 3) = true ∧ (s.hostQueue? 2 3).isSome = true
      else zeroBut a2 0x80000000FFFF000F = true ∧ s.mayEdge 3 0 = true ∧ (s.group 0).pers = 3 ∧
        ((s.group 0).flow? 6).isSome = true) ∧
    (s.books.find? (·.regions.any (·.2 == 2))).any (fun b => b.regions.find? (·.2 == 2) == some (0, 2) &&
      decide (topName (s.bookBytes b) 0 < 9) && (s.instanceOf b.slot 0).any (fun x => x.1.pid == 1) &&
      (instsOf (s.bookBytes b) 0).length == 1 && ((rolesOf (s.bookBytes b))[0]?).any (·.dataLen == 0x100)) = true ∧
    s.effChtab 2 = 77 ∧ s.channels = [] ∧
    (({ s with channels := [c] } : State).endsOf 1).map (fun x => x.1.handle x.2) = [c.handle tx] ∧
    (∀ x ∈ s.allProcs, ({ s with channels := [c] } : State).entriesOn x.core ≤ Config.bindingEntries) := by
  unfold Begins Calm MemoriesOk; decide +kernel

theorem wit_LoaderCommands_cue : let a0 : Word := BitVec.ofNat 64 (6 * 2 ^ 16 + 3 * 2 ^ 32 + 0xFF * 2 ^ 48)
    let a2 : Word := BitVec.ofNat 64 (globalBase 3 + 0x200 + 2 ^ 62)
    let s := { tpin a0 0x2000004 a2 with groups := tg0 fun y => { y with pers := 3, flows := [tflow] } }
    a0.toNat / 16 % 2 ^ 12 = 0 ∧ s.mayEdge 0 0 = true ∧ (s.group 0).pers = 3 ∧
    (s.group 0).flow? (a0.toNat / 2 ^ 16 % 2 ^ 16) = some tflow ∧ a2.getLsbD 63 = false ∧
      zeroBut a2 0x400000FFFFFFFFFF = true ∧
    a2.toNat % 8 = 0 ∧ tflow.cues.length < 256 ∧
    (match s.memPlace 0 (a2.toNat % 2 ^ 40) 8 true 3 with | .ok _ => true | _ => false) = true ∧
    (BitVec.ofNat 64 (2 ^ 63)).getLsbD 63 = true := by decide +kernel

theorem wit_LoaderCommands_mkey : let a0 : Word := BitVec.ofNat 64 (9 * 2 ^ 16)
    let a1 : Word := BitVec.ofNat 64 (globalBase 3)
    let a2 : Word := BitVec.ofNat 64 (64 + 2 ^ 32)
    let s := { tpin a0 a1 a2 with groups := tg0 fun y => { y with pers := 3 } }
    let old : Key := { idx := 9, base := 0, len := 64, rw := true, rr := false, reuse := 255, valid := false, freedAt := some s.ns }
    let x := s.group 0
    a0.toNat / 16 % 2 ^ 12 = 0 ∧ a0.toNat / 2 ^ 40 % 2 ^ 22 = 0 ∧ s.mayEdge 0 0 = true ∧ x.pers = 3 ∧
      a0.toNat / 2 ^ 62 = 0 ∧
    a1.toNat < 2 ^ 40 ∧ rowOf a1.toNat = 3 ∧ zeroBut a2 0x3FFFFFFFF = true ∧ a2.toNat % 2 ^ 32 % 8 = 0 ∧
    (match s.memPlace 0 a1.toNat 64 true 2 with | .ok _ => true | _ => false) = true ∧ (x.keyOf 9).valid = false ∧
    s.holdOver x (x.keyOf 9) = true ∧ ({ x with keys := [old] }.keyOf 9).valid = false ∧
    s.holdOver { x with keys := [old] } old = false ∧
      ({ x with keys := [{ old with valid := true }] }.keyOf 9).valid = true ∧
    (BitVec.ofNat 64 (9 * 2 ^ 16 + 2 ^ 62)).toNat / 2 ^ 62 = 1 := by decide +kernel

theorem wit_StageEvents_queue : ∀ num ∈ [0, 3], ∀ resident ∈ [false, true], let t := tth num resident
    let h := thdr num resident
    let s := { tq num resident 0 0 0 with subj := .id num }
    s.threads = [t] ∧ h.thread = t.num ∧ t.sub.isSome = h.resident ∧ h.postsem = 0xFFFF ∧ s.subj = .id t.num ∧
    t.waiting + 14 ≤ 2 ^ t.ringLog ∧ { t with stopped := true }.stopped = true ∧ (10 : Word).toNat ≤ s.sems.get 4 ∧
    s.placements = [] := by decide +kernel

theorem wit_StageEvents_work : let t := tth 3 false
    let h := thdr 3 false
    let done := { tp with st := .exited, ending := .exited, ran := true }
    let s := { tq 3 false 0 0 0 with subj := .id 3, procs := [done], triggers := [] }
    let src : Word := BitVec.ofNat 64 (globalBase 3 + 0x100)
    let dst : Word := BitVec.ofNat 64 (globalBase 3 + 0x204)
    let w := { s with threads := [busyWith t h (.copy src dst 16 0 0)] }
    s.proc? 5 = some done ∧ done.ran = true ∧ Calm s ∧ s.packets = [] ∧ s.requests = [] ∧ s.placements = [] ∧
    s.engineBusy 40 = false ∧ addrsOk (s.sems.map (·.1)) = true ∧ s.sems.get 4 + 5 < 2 ^ 64 ∧
    (∀ k ∈ List.range 16, homeDie (globalBase 3 + 0x204 + k) = 0 ∧ s.homeGone (globalBase 3 + 0x204 + k) = false) ∧
      w.place 3 src 16 false 1 = .ok (.mem (globalBase 3 + 0x100)) ∧
    w.place 3 dst 16 true 2 = .ok (.mem (globalBase 3 + 0x204)) ∧
      (s.group 0).keyOf 9 = { (s.group 0).keyOf 9 with valid := false } ∧
    s.holdOver { s.group 0 with pers := 3 } ((s.group 0).keyOf 9) = true := by unfold Calm MemoriesOk; decide +kernel

theorem wit_StageEvents_trigger : let g : Trigger := { k := 9, thread := 3, list := 0x8000040000, count := 3, pending := 1 }
    let s := { tq 3 false 0 0 0 with trigWrites := [9] }
    let t : Thread := { tth 3 false with items := [] , head := 0 }
    s.triggers = [g] ∧ s.trigWrites = [g.k] ∧ g.pending < 255 ∧ t.stopped = false ∧ g.thread = t.num ∧ t.sub = none ∧
    t.idle = true ∧ g.pending ≠ 0 ∧
    { t with sub := some { k := 9, list := 5, count := 3, pos := 3, cur := none } }.sub =
      some { k := g.k, list := 5, count := 3, pos := 3, cur := none } := by decide +kernel

theorem wit_StageEvents_package : let s := { ts tp with subj := .id 3 }
    s.subj = .id 3 ∧ s.diePresent 3 = true ∧ (s.die 3).mhz = 1200 ∧ (∀ l, (s.die 3).lock = some l →
      l.isScene = true) ∧ (∀ l ∈ (s.die 3).lockQ, l.1.isScene = true) ∧ s.cpu = some tp ∧
    s.procs = [] ∧ tp.st = .running ∧ tp.wait = .none ∧ (∀ q ∈ s.packets, q.pid ≠ tp.pid) ∧
    { s with subj := .control (.quantum 3) 5 }.subj = .control (.quantum 3) 5 ∧
    { s with subj := .attest 77 3 }.subj = .attest 77 3 := by decide +kernel

/-- A life-cycle change signed by the owner's key: the image, the command to the state of code 0, is one byte of 0, r and s are its hash modulo the group order,
R is the point of that x coordinate, and the key is R - G, so that the verification computes G + Q = R. -/
theorem wit_StageEvents_life : let e := 0x6e340b9cffb37a989ca544e6bb780a2c78901d3fb33738768511a30617afa01d
    ecdsaOk 0x82ac2eec7a72ac40bc4bbd8b885530620755e3ac4e15d121c491ab4e9257f108
      0x2158d1a997b199ebfdcb727bb977b8be8f9f27f7e5c7c60c61fbbea43f0e7de9 e e [0] = true ∧
        lifeCommand .manufacture = [0] ∧
    lifeCommand .owned ≠ [0] ∧
    ecdsaOk pG.1 pG.2 0 1 [0] = false := by decide +kernel

theorem wit_StageEvents_assign : let m : Assignment := { thread := 31, function := 2, ringBase := 64, ringLog := 4, ceil := 1
                                                         fdepth := 4, plto := 100, corebud := 5, grbud := 6, faultep := 0
                                                         replyep := 0, segtab := 0, chtab := 9, wintab := 0, grants := []
                                                         semaphores := [(1, 3)], edgeGroups := [], hostQueues := [] }
    let s := { ts tp with subj := .assign m }
    s.subj = .assign m ∧ 1 ≤ m.thread ∧ m.thread ≤ 31 ∧ 4 ≤ m.ringLog ∧ m.ringLog ≤ 16 ∧ m.function ≤ 64 ∧
    s.nextRegion ≤ 0xFFFF := by decide +kernel

/-! Single steps against results computed by hand from the rules -/

/-- What a function of the running process gives after one instruction. -/
def after {α : Type} (i : Instr) (s : State) (f : Proc → α) : Option α :=
  match exec i s with
  | .next t => t.cpu.map f
  | _ => none

/-- x1 after an instruction on x2 and x3. -/
def x1 (i : Instr) (a b : Word) : Option Word := after i (ts ((tp.setX 2 a).setX 3 b)) (·.getX 1)

theorem test_arithmetic : x1 (.add 1 2 3) 0xFFFFFFFFFFFFFFFF 2 = some 1 ∧
  x1 (.sub 1 2 3) 0 1 = some 0xFFFFFFFFFFFFFFFF ∧
    x1 (.sra 1 2 3) 0x8000000000000000 67 = some 0xF000000000000000 ∧ x1 (.ror 1 2 3) 1 1 = some 0x8000000000000000 ∧
    x1 (.slt 1 2 3) 0xFFFFFFFFFFFFFFFF 0 = some 1 ∧ x1 (.sltu 1 2 3) 0xFFFFFFFFFFFFFFFF 0 = some 0 ∧
    x1 (.mulhsu 1 2 3) 0xFFFFFFFFFFFFFFFF 0xFFFFFFFFFFFFFFFF = some 0xFFFFFFFFFFFFFFFF ∧
    x1 (.mulh 1 2 3) 0x8000000000000000 0x8000000000000000 = some 0x4000000000000000 := by decide +kernel

/-- R105: division truncates, the quotient −2^63 / −1 clamps to 2^63 − 1, a divisor of zero gives the extreme value. -/
theorem test_division : x1 (.div 1 2 3) (BitVec.ofInt 64 (-7)) 2 = some (BitVec.ofInt 64 (-3)) ∧
    x1 (.rem 1 2 3) (BitVec.ofInt 64 (-7)) 2 = some (BitVec.ofInt 64 (-1)) ∧
    x1 (.div 1 2 3) 0x8000000000000000 0xFFFFFFFFFFFFFFFF = some 0x7FFFFFFFFFFFFFFF ∧
    x1 (.div 1 2 3) 5 0 = some 0x7FFFFFFFFFFFFFFF ∧ x1 (.divu 1 2 3) 5 0 = some 0xFFFFFFFFFFFFFFFF ∧
    x1 (.divu 1 2 3) 0 0 = some 0 ∧ x1 (.rem 1 2 3) 5 0 = some 0 := by decide +kernel

theorem test_bits : x1 (.clz 1 2) 0 0 = some 64 ∧ x1 (.clz 1 2) 0x00F0 0 = some 56 ∧ x1 (.ctz 1 2) 0x00F0 0 = some 4 ∧
    x1 (.popc 1 2) 0xF00F 0 = some 8 ∧ x1 (.sextH 1 2) 0x18000 0 = some 0xFFFFFFFFFFFF8000 ∧
    x1 (.zextW 1 2) 0xFFFFFFFF80000000 0 = some 0x80000000 := by decide +kernel

theorem test_immediates : x1 (.addi 1 2 0x7FFF) 5 0 = some 4 ∧ x1 (.sltiu 1 2 0x7FFF) 5 0 = some 1 ∧
    x1 (.andi 1 2 0x4000) 0xFFFFFFFFFFFFFFFF 0 = some 0xFFFFFFFFFFFFC000 ∧
      x1 (.srai 1 2 63) 0x8000000000000000 0 = some 0xFFFFFFFFFFFFFFFF ∧
    x1 (.lih 1 0x80000) 0 0 = some 0xFFFFFFFF80000000 ∧ x1 (.addpc 1 1) 0 0 = some 0x1100 ∧
      x1 (.addi 0 2 1) 0 9 = some 1001 := by
  decide +kernel

theorem test_jumps : after (.jalr 2 2 1) (ts (tp.setX 2 0x204)) (fun p => (p.pc, p.getX 2)) = some (0x204, 0x104) ∧
    after (.jal 1 0xFFFFE) (ts tp) (fun p => (p.pc, p.getX 1)) = some (0xFC, 0x104) ∧
    after (.blt 2 3 0x7FFF) (ts ((tp.setX 2 0xFFFFFFFFFFFFFFFF).setX 3 0)) (·.pc) = some 0xFE ∧
    after (.bltu 2 3 0x7FFF) (ts ((tp.setX 2 0xFFFFFFFFFFFFFFFF).setX 3 0)) (·.pc) = some 0x104 ∧
    after (.cBeqz 0 0x80) (ts (tp.setX 4 0)) (·.pc) = some 0 := by decide +kernel

/-- Loads of the bytes 80 FF 00 01 at 0x1000, little-endian. -/
def tl (i : Instr) : Option Word := after i { ts (tp.setX 2 0x1000) with mem := Memory.write [] th 4 0x0100FF80 } (·.getX 1)

theorem test_loads : tl (.ldb 1 2 0) = some 0xFFFFFFFFFFFFFF80 ∧ tl (.ldbu 1 2 1) = some 0xFF ∧
  tl (.ldh 1 2 0) = some 0xFFFFFFFFFFFFFF80 ∧
    tl (.ldhu 1 2 0) = some 0xFF80 ∧ tl (.ldw 1 2 0) = some 0x0100FF80 ∧
      tl (.ldd 1 2 0xFF8) = some 0 := by decide +kernel

/-- Single precision, 1.0 in every lane of v1 and 2^−24 in every lane of v2: the sum rounds to 1.0 and is inexact, upward it is
the next number (R134); lane 63 is beyond the mask p1. -/
theorem test_vadd : let p := ((tp.setV 1 (ofLanes 32 (List.replicate 64 0x3F800000))).setV 2 (ofLanes 32 (List.replicate 64 0x33800000))).setP 1 0x7FFFFFFFFFFFFFFF
    after (.vadd .f32 .rne 1 3 1 2) (ts p) (fun q => (lane (q.getV 3) 32 0, lane (q.getV 3) 32 63, q.fpflags)) = some (0x3F800000, 0, 0x10) ∧
    after (.vadd .f32 .rup 0 3 1 2) (ts p) (fun q => lane (q.getV 3) 32 63) = some 0x3F800001 := by decide +kernel

theorem test_vector_integer : let p := (tp.setV 1 (ofLanes 8 (List.replicate 256 0x80))).setV 2 (ofLanes 8 (List.replicate 256 0xFF))
    after (.vsaddI .w8 0 3 1 2) (ts p) (fun q => lane (q.getV 3) 8 255) = some 0x80 ∧
    after (.vsaddU .w8 0 3 1 2) (ts p) (fun q => lane (q.getV 3) 8 0) = some 0xFF ∧
    after (.viadd .w8 0 3 1 2) (ts p) (fun q => lane (q.getV 3) 8 7) = some 0x7F ∧
    after (.viabs .w8 0 3 1) (ts p) (fun q => lane (q.getV 3) 8 7) = some 0x80 := by decide +kernel

/-- `trap` leaves the process FAULTED at its pc, and the record of a root's supervisor in the mailbox. -/
theorem test_trap : (match exec (.trap 4 0x155) (ts tp) with
    | .next t => t.cpu.isNone && t.procs.map (fun q => (q.st, q.pc)) == [(.faulted, 0x100)] &&
        t.mailbox.map (fun r => (r.cause, r.d0, r.d1, r.pc)) == [(.trap, 0x155, 1004, 0x100)]
    | _ => false) = true := by decide +kernel

theorem test_misaligned : (match exec (.ldd 1 2 0) (ts (tp.setX 2 0x1001)) with
    | .next t => t.mailbox.map (fun r => (r.cause, r.addr, r.d0, r.d1)) == [(.misalign, 0x1001, 8, 0)]
    | _ => false) = true := by decide +kernel

/-- A decoded first instruction runs from reset: the loader's placement of an `addi x20, x20, -1`. -/
theorem test_first_step : (match step (State.reset.withFetchWord 32 0xFFFF4A05) with
    | .next t => t.cpu.any fun p => p.getX 20 == BitVec.allOnes 64
    | _ => false) = true := by decide +kernel


end Sys2Proof.Tests
end

section
/-! SUPPORT. O9: every step of the machine keeps the memories in their canonical form. Laws/MemoriesCore.lean and its
successor say so of each shared operation; here each instruction and event that branches is taken apart along the
branches of its definition, and `exec`, the threads of the barrel core, the fetch and the agenda are put together. -/

namespace Sys2Proof.Machine

/-! What a branch hands on beside a state -/

/-- The states that a fetch hands on with an instruction or a word that gives none. -/
def Fetched.Keeps : Fetched → Prop
  | .instr _ t | .illegal _ _ t => MemoriesOk t
  | .window _ => True

theorem fetch_memories {s : State} (p : Proc) (ok : MemoriesOk s) : (s.fetch p).Keeps := by
  unfold State.fetch
  split
  · trivial
  next e0 =>
    have ok0 := fetchHalf_memories ok e0
    split
    · split
      · trivial
      next e1 =>
        have ok1 := fetchHalf_memories ok0 e1
        split
        · exact orderLoads_memories _ _ ok1
        · exact ok1
        · trivial
    · split
      · exact orderLoads_memories _ _ ok0
      · exact ok0
      · trivial

theorem fetch_instr_memories {s t : State} {p : Proc} {i : Instr} (ok : MemoriesOk s) (e : s.fetch p = .instr i t) :
    MemoriesOk t := by
  have h := fetch_memories p ok
  rwa [e] at h

theorem fetch_illegal_memories {s t : State} {p : Proc} {w : BitVec 32} {r : BitVec 12} (ok : MemoriesOk s)
    (e : s.fetch p = .illegal w r t) : MemoriesOk t := by
  have h := fetch_memories p ok
  rwa [e] at h

/-- A command whose effect cannot fail ends with it. -/
theorem ending_ok_keeps {s t : State} (h : ItemHdr) (op : Nat) (ok : MemoriesOk t) : OutOk (s.ending h op (.ok t)) :=
  .next (completeItem_memories _ _ ok)

/-! Scalar instructions (05) -/

theorem execUnallocatedEncoding_keeps {s : State} (ok : MemoriesOk s) : OutOk (execUnallocatedEncoding s) := by
  unfold execUnallocatedEncoding
  refine withProc_keeps _ (fun p => ?_) ok
  split
  · exact raised_keeps _ _ _ _ _ _ ok
  exact .next ok

theorem execFetchWindow_keeps {s : State} (ok : MemoriesOk s) : OutOk (execFetchWindow s) := by
  unfold execFetchWindow
  refine withProc_keeps _ (fun p => ?_) ok
  split
  · exact .next (raise_memories _ _ _ _ _ _ ok)
  exact .next ok

/-! Full/empty, release and reservation instructions (13) -/

theorem execStrl_keeps {s : State} (sz : Width) (b a : XIdx) (ok : MemoriesOk s) : OutOk (execStrl sz b a s) := by
  unfold execStrl
  refine withProc_keeps _ (fun p => ?_) ok
  split
  · exact stall_keeps _ ok
  exact storeInstr_keeps _ _ _ _ _ _ ok

theorem execStf_keeps {s : State} (b a : XIdx) (ok : MemoriesOk s) : OutOk (execStf b a s) := by
  unfold execStf
  refine withProc_keeps _ (fun p => ?_) ok
  dsimp only
  split
  · exact raised_keeps _ _ _ _ _ _ ok
  split
  · exact stall_keeps _ ok
  exact done_keeps _ (store_memories _ _ _ _ _ _ _ _ (MemoriesOk.up ok))

theorem execCfenceW_keeps {s : State} (a : XIdx) (ok : MemoriesOk s) : OutOk (execCfenceW a s) := by
  unfold execCfenceW
  refine withProc_keeps _ (fun p => ?_) ok
  dsimp only
  split
  · exact done_keeps _ ok
  exact done_keeps _ ok

theorem execRsv_keeps {s : State} (d a : XIdx) (ok : MemoriesOk s) : OutOk (execRsv d a s) := by
  unfold execRsv
  refine rsvInstr_keeps _ _ _ _ _ _ _ (fun p n t okt => ?_) ok
  split
  · exact .next (rsvAt_memories _ (block_memories _ _ _ okt))
  split
  · exact raised_keeps _ _ _ _ _ _ okt
  split
  · exact done_keeps _ okt
  exact done_keeps _ (MemoriesOk.up okt)

theorem execRls_keeps {s : State} (a b : XIdx) (ok : MemoriesOk s) : OutOk (execRls a b s) := by
  unfold execRls
  refine rsvInstr_keeps _ _ _ _ _ _ _ (fun p n t okt => ?_) ok
  split
  · exact done_keeps _ (dispatchPacket_memories _ _ _ _ _ _ (MemoriesOk.up okt))
  dsimp only
  split
  · exact .next (release_memories _ _ _ (MemoriesOk.up okt))
  exact .next (applyWrite_memories _ (MemoriesOk.up okt))

/-! Accesses as they take effect at their homes (13) -/

theorem execInboundRequest_keeps {s : State} (ok : MemoriesOk s) : OutOk (execInboundRequest s) := by
  unfold execInboundRequest
  refine onPacket_keeps _ _ (fun q t okt => ?_) ok
  split
  · exact engineWrite_memories _ _ _ _ _ okt
  · exact engineBytes_memories _ _ _ _ _ _ okt
  exact perform_memories _ okt

theorem execRemoteLoadReturn_keeps {s : State} (ok : MemoriesOk s) : OutOk (execRemoteLoadReturn s) := by
  unfold execRemoteLoadReturn
  refine onPacket_keeps _ _ (fun q t okt => ?_) ok
  split
  · exact takeData_memories _ _ _ okt
  · exact takeLink_memories _ _ _ _ okt
  exact okt

/-! The causal die fabric (19) -/

theorem execHearthArrival_keeps {s : State} (ok : MemoriesOk s) : OutOk (execHearthArrival s) := by
  unfold execHearthArrival
  split
  · split
    · split
      · exact .next (modPacket_memories _ _ ok)
      exact .next ok
    exact .next ok
  exact .next ok

theorem execLinkResend_keeps {s : State} (ok : MemoriesOk s) : OutOk (execLinkResend s) := by
  unfold execLinkResend
  split
  · split
    · split
      · exact .next (modPacket_memories _ _ ok)
      exact .next ok
    exact .next ok
  exact .next ok

theorem execCausalDelivery_keeps {s : State} (ok : MemoriesOk s) : OutOk (execCausalDelivery s) := by
  unfold execCausalDelivery
  split
  · split
    · split
      · exact .next (perform_memories _ (countBroken_memories _ (modDie_memories _ _ (dropPacket_memories _ ok))))
      exact .next ok
    exact .next ok
  exact .next ok

theorem execColumnFlitSend_keeps {s : State} (ok : MemoriesOk s) : OutOk (execColumnFlitSend s) := by
  unfold execColumnFlitSend
  dsimp only [State.freshId]
  split
  · exact .next (MemoriesOk.up (modDie_memories _ _ (MemoriesOk.up ok)))
  exact .next ok

theorem execColumnFlitReceive_keeps {s : State} (ok : MemoriesOk s) : OutOk (execColumnFlitReceive s) := by
  unfold execColumnFlitReceive
  split
  · exact .next ok
  dsimp only
  split
  · exact .next (modDie_memories _ _ (MemoriesOk.up ok))
  exact .next (MemoriesOk.up ok)

/-! Processes between their instructions (01) -/

theorem execFaultRecordSend_keeps {s : State} (ok : MemoriesOk s) : OutOk (execFaultRecordSend s) := by
  unfold execFaultRecordSend
  dsimp only
  split
  · split
    · exact .next (deliverRecord_memories _ _ (MemoriesOk.up ok))
    exact .next ok
  split
  · exact .next (deliverRecord_memories _ _ (modCore_memories _ _ ok))
  exact .next ok

theorem execFaultReply_keeps {s : State} (ok : MemoriesOk s) : OutOk (execFaultReply s) := by
  unfold execFaultReply
  split
  · exact .next ok
  split
  · exact .next ok
  split
  · exact .next ok
  exact .next (sendReply_memories _ _ _ _ (settle_memories _ _ (putChan_memories _ ok)))

theorem execMonitorReply_keeps {s : State} (ok : MemoriesOk s) : OutOk (execMonitorReply s) := by
  unfold execMonitorReply
  split
  · exact .next (sendReply_memories _ _ _ _ ok)
  · split
    · split
      · exact .next ok
      exact .next (endRegion_memories _ _ _ (MemoriesOk.up ok))
    exact .next ok
  exact .next ok

theorem execPreemptionHalt_keeps {s : State} (ok : MemoriesOk s) : OutOk (execPreemptionHalt s) := by
  unfold execPreemptionHalt
  dsimp only
  split
  · refine .next ?_
    split
    · exact ok
    exact stopRunning_memories _ _ ok
  exact .next ok

theorem execDispatch_keeps {s : State} (ok : MemoriesOk s) : OutOk (execDispatch s) := by
  unfold execDispatch
  dsimp only
  split
  · exact .next ok
  split
  · exact .next ok
  split
  · exact .next ok
  split
  · exact .next (finishWait_memories _ (startRunning_memories _ (dropLoads_memories _ (modCore_memories _ _ ok))))
  exact .next (startRunning_memories _ (dropLoads_memories _ (modCore_memories _ _ ok)))

theorem execQuantumExpiry_keeps {s : State} (ok : MemoriesOk s) : OutOk (execQuantumExpiry s) := by
  unfold execQuantumExpiry
  dsimp only
  split
  · exact .next ok
  split
  · exact .next ok
  split
  · exact .next (askHalt_memories _ _ ok)
  exact .next (putProc_memories _ ok)

theorem execClass0Release_keeps {s : State} (ok : MemoriesOk s) : OutOk (execClass0Release s) := by
  unfold execClass0Release
  split
  · exact .next ok
  split
  · exact .next (refreshBorrowers_memories _ (refreshEff_memories _ (putProc_memories _ ok)))
  exact .next ok

theorem execBudgetExhausted_keeps {s : State} (ok : MemoriesOk s) : OutOk (execBudgetExhausted s) := by
  unfold execBudgetExhausted
  split
  · exact .next ok
  split
  · exact .next ok
  split
  · exact .next (stopRunning_memories _ _ (reportBudget_memories _ _ ok))
  split
  · split
    · exact .next (refreshBorrowers_memories _ (putProc_memories _ (reportBudget_memories _ _ ok)))
    exact .next ok
  exact .next ok

theorem execGhostLightWindow_keeps {s : State} (ok : MemoriesOk s) : OutOk (execGhostLightWindow s) := by
  unfold execGhostLightWindow
  dsimp only
  split
  · refine .next (urge_memories _ ?_)
    split
    · split
      · exact ok
      exact modCore_memories _ _ ok
    refine endGhost_memories _ ?_
    split
    · exact ok
    exact modCore_memories _ _ ok
  exact .next ok

theorem execGhostLightAllowanceEnd_keeps {s : State} (ok : MemoriesOk s) : OutOk (execGhostLightAllowanceEnd s) := by
  unfold execGhostLightAllowanceEnd
  dsimp only
  split
  · exact .next (endGhost_memories _ ok)
  exact .next ok

theorem execSpillDone_keeps {s : State} (ok : MemoriesOk s) : OutOk (execSpillDone s) := by
  unfold execSpillDone
  dsimp only
  split
  · exact .next ok
  split
  · exact .next ok
  split
  · exact .next (spillOne_memories ok (by assumption))
  exact .next ok

theorem execFillDone_keeps {s : State} (ok : MemoriesOk s) : OutOk (execFillDone s) := by
  unfold execFillDone
  dsimp only
  split
  · exact .next ok
  split
  · exact .next (urge_memories _ (putProc_memories _ ok))
  exact .next ok

theorem execPriorityLoan_keeps {s : State} (ok : MemoriesOk s) : OutOk (execPriorityLoan s) := by
  unfold execPriorityLoan
  split
  · exact .next ok
  dsimp only
  split
  · split
    · exact .next (MemoriesOk.up ok)
    split
    · split
      · refine .next ?_
        split
        · exact sendLoan_memories _ _ _ _ _ (refreshEff_memories _ (putProc_memories _ (MemoriesOk.up ok)))
        exact refreshEff_memories _ (putProc_memories _ (MemoriesOk.up ok))
      exact .next (refreshEff_memories _ (putProc_memories _ (MemoriesOk.up ok)))
    exact .next (refreshEff_memories _ (putProc_memories _ (MemoriesOk.up ok)))
  exact .next (MemoriesOk.up ok)

/-! Placing and moving processes (01, 17) -/

theorem execMigration_keeps {s : State} (ok : MemoriesOk s) : OutOk (execMigration s) := by
  unfold execMigration
  split
  · exact .next ok
  split
  · dsimp only
    split
    · split
      · exact .next ok
      split
      · exact .next (finishMove_memories _ _ (dropPacket_memories _ ok))
      exact .next (transitEnds_memories _ _ (putProc_memories _ (dropPacket_memories _ ok)))
    split
    · split
      · exact .next (transitEnds_memories _ _ (putProc_memories _ ok))
      split
      · exact .next (transitEnds_memories _ _ (putProc_memories _ ok))
      split
      · exact .next (finishMove_memories _ _ ok)
      exact .next (sendMove_memories _ _ ok)
    exact .next ok
  split
  · dsimp only
    split
    · split
      · exact .next ok
      split
      · exact .next (finishMove_memories _ _ (dropPacket_memories _ ok))
      exact .next (MemoriesOk.up (transitEnds_memories _ _ (putProc_memories _ ok)))
    exact .next (transitEnds_memories _ _ (putProc_memories _ ok))
  exact .next ok

theorem execPlacementCompaction_keeps {s : State} (ok : MemoriesOk s) : OutOk (execPlacementCompaction s) := by
  unfold execPlacementCompaction
  split
  · split
    · exact .next ok
    split
    · exact .next ok
    exact .next (foldl_memories _ (MemoriesOk.up ok) (fun t x okt => compactOne_memories _ _ _ okt))
  exact .next ok

theorem execPlacementCommit_keeps {s : State} (ok : MemoriesOk s) : OutOk (execPlacementCommit s) := by
  unfold execPlacementCommit
  split
  · exact .next (tryPlacement_memories _ ok)
  exact .next ok

theorem execPlacementTimeout_keeps {s : State} (ok : MemoriesOk s) : OutOk (execPlacementTimeout s) := by
  unfold execPlacementTimeout
  split
  · split
    · exact .next ok
    split
    · exact .next (commitPlacement_memories _ (attempt_memories ok (by assumption)))
    · exact .next (failPlacement_memories _ _ ok)
    exact .next (failPlacement_memories _ _ ok)
  exact .next ok

/-! Vector instructions (09) -/

theorem execVredsum_keeps {s : State} (t : RedT) (m : PIdx) (d a : VIdx) (ok : MemoriesOk s) :
    OutOk (execVredsum t m d a s) := by
  unfold execVredsum
  split
  · exact vreduce_keeps _ _ _ _ _ _ _ ok
  exact vreduce_keeps _ _ _ _ _ _ _ ok

theorem execVredmax_keeps {s : State} (t : RedT) (m : PIdx) (d a : VIdx) (ok : MemoriesOk s) :
    OutOk (execVredmax t m d a s) := by
  unfold execVredmax
  split
  · exact vreduce_keeps _ _ _ _ _ _ _ ok
  · exact vreduce_keeps _ _ _ _ _ _ _ ok
  exact vreduce_keeps _ _ _ _ _ _ _ ok

theorem execVredmin_keeps {s : State} (t : RedT) (m : PIdx) (d a : VIdx) (ok : MemoriesOk s) :
    OutOk (execVredmin t m d a s) := by
  unfold execVredmin
  split
  · exact vreduce_keeps _ _ _ _ _ _ _ ok
  · exact vreduce_keeps _ _ _ _ _ _ _ ok
  exact vreduce_keeps _ _ _ _ _ _ _ ok

theorem execVldb_keeps {s : State} (w : ElW) (m : PIdx) (d : VIdx) (a : XIdx) (ok : MemoriesOk s) :
    OutOk (execVldb w m d a s) := by
  unfold execVldb
  refine vmem_keeps _ _ _ _ _ _ _ (fun p x => ?_) ok
  split
  · exact done_keeps _ ok
  exact vload_keeps _ _ _ _ ok

theorem execVectorLoadReturn_keeps {s : State} (ok : MemoriesOk s) : OutOk (execVectorLoadReturn s) := by
  unfold execVectorLoadReturn
  split
  · split
    · split
      · exact .next (vloadDone_memories _ _ _ _ ok)
      exact .next ok
    exact .next ok
  exact .next ok

theorem execVectorCommit_keeps {s : State} (ok : MemoriesOk s) : OutOk (execVectorCommit s) := by
  unfold execVectorCommit
  split
  · split
    · exact .next (putProc_memories _ ok)
    exact .next ok
  exact .next ok

theorem execScfg_keeps {s : State} (n : BitVec 3) (k : BitVec 3) (a : XIdx) (ok : MemoriesOk s) :
    OutOk (execScfg n k a s) := by
  unfold execScfg
  refine strm_keeps _ _ (fun p => ?_) ok
  dsimp only
  split
  · exact raised_keeps _ _ _ _ _ _ ok
  exact done_keeps _ ok

theorem execSbase_keeps {s : State} (n : BitVec 3) (a : XIdx) (ok : MemoriesOk s) : OutOk (execSbase n a s) := by
  unfold execSbase
  refine strm_keeps _ _ (fun p => ?_) ok
  dsimp only
  split
  · exact raised_keeps _ _ _ _ _ _ ok
  exact done_keeps _ ok

theorem execSstart_keeps {s : State} (n : BitVec 3) (ok : MemoriesOk s) : OutOk (execSstart n s) := by
  unfold execSstart
  refine strm_keeps _ _ (fun p => ?_) ok
  dsimp only
  split
  · exact raised_keeps _ _ _ _ _ _ ok
  exact done_keeps _ ok

theorem execSstop_keeps {s : State} (n : BitVec 3) (ok : MemoriesOk s) : OutOk (execSstop n s) := by
  unfold execSstop
  refine strm_keeps _ _ (fun p => ?_) ok
  dsimp only
  split
  · exact done_keeps _ ok
  split
  · exact done_keeps _ ok
  exact done_keeps _ (dropAhead_memories _ _ ok)

theorem execSstopComplete_keeps {s : State} (ok : MemoriesOk s) : OutOk (execSstopComplete s) := by
  unfold execSstopComplete
  split
  · split
    · split
      · exact .next (putProc_memories _ ok)
      exact .next ok
    exact .next ok
  exact .next ok

theorem execStreamReadAhead_keeps {s : State} (ok : MemoriesOk s) : OutOk (execStreamReadAhead s) := by
  unfold execStreamReadAhead
  split
  · split
    · exact .next ok
    dsimp only
    split
    · split
      · exact .next (putProc_memories _ ok)
      · exact .next (putProc_memories _ ok)
      · exact .next (putProc_memories _ ok)
      · exact .next (dispatchPacket_memories _ _ _ _ _ _ ok)
      exact .next ok
    exact .next ok
  exact .next ok

/-! Tile instructions (11) -/

theorem execTileGroup_keeps {s : State} (ok : MemoriesOk s) : OutOk (execTileGroup s) := by
  unfold execTileGroup
  split
  · exact .next ok
  split
  · exact .next ok
  dsimp only
  split
  · exact .next ok
  split
  case h_1 hf =>
    have okt := fetch_instr_memories (refocus_memories _ ok) hf
    exact tile_keeps _ _ _ (fun p => product_keeps _ _ _ _ _ _ _ _ okt) okt
  case h_2 hf =>
    have okt := fetch_instr_memories (refocus_memories _ ok) hf
    exact tile_keeps _ _ _ (fun p => product_keeps _ _ _ _ _ _ _ _ okt) okt
  exact .next ok

theorem execTldacc_keeps {s : State} (f : TileFmt) (d : AIdx) (a : XIdx) (ok : MemoriesOk s) :
    OutOk (execTldacc f d a s) := by
  unfold execTldacc
  refine tile_keeps _ _ _ (fun p => ?_) ok
  dsimp only
  split
  · exact tileRaise_keeps _ _ _ ok
  split
  · exact stall_keeps _ ok
  split
  · exact raised_keeps _ _ _ _ _ _ ok
  exact done_keeps _ (fixReads_memories _ _ ok)

theorem execTst_keeps {s : State} (f : TileFmt) (a : XIdx) (d : AIdx) (ok : MemoriesOk s) :
    OutOk (execTst f a d s) := by
  unfold execTst
  refine tile_keeps _ _ _ (fun p => ?_) ok
  dsimp only
  split
  · exact tileRaise_keeps _ _ _ ok
  split
  · exact stall_keeps _ ok
  split
  · exact raised_keeps _ _ _ _ _ _ ok
  split
  · exact done_keeps _ (storeTst_memories _ _ _ ok)
  exact done_keeps _ (storeTst_memories _ _ _ ok)

theorem execTadd_keeps {s : State} (f : TileFmt) (d a b : AIdx) (ok : MemoriesOk s) :
    OutOk (execTadd f d a b s) := by
  unfold execTadd
  refine tile_keeps _ _ _ (fun p => ?_) ok
  split
  · exact tileRaise_keeps _ _ _ ok
  exact cellwise_keeps _ _ _ _ ok

theorem execTscale_keeps {s : State} (f : TileFmt) (d : AIdx) (a b : VIdx) (ok : MemoriesOk s) :
    OutOk (execTscale f d a b s) := by
  unfold execTscale
  refine tile_keeps _ _ _ (fun p => ?_) ok
  split
  · exact tileRaise_keeps _ _ _ ok
  split
  · exact raised_keeps _ _ _ _ _ _ ok
  split
  · exact raised_keeps _ _ _ _ _ _ ok
  · exact .next (MemoriesOk.up (popAll_memories ok (by assumption)))
  exact cellwise_keeps _ _ _ _ ok

theorem execTwait_keeps {s : State} (ok : MemoriesOk s) : OutOk (execTwait s) := by
  unfold execTwait
  refine tile_keeps _ _ _ (fun p => ?_) ok
  split
  · exact done_keeps _ ok
  exact done_keeps _ ok

theorem execTwaitComplete_keeps {s : State} (ok : MemoriesOk s) : OutOk (execTwaitComplete s) := by
  unfold execTwaitComplete
  split
  · split
    · exact .next (putProc_memories _ ok)
    exact .next ok
  exact .next ok

theorem execTmq_keeps {s : State} (a : VIdx) (ok : MemoriesOk s) : OutOk (execTmq a s) := by
  unfold execTmq
  refine tile_keeps _ _ _ (fun p => ?_) ok
  split
  · exact tileRaise_keeps _ _ _ ok
  split
  · exact tmqPush_keeps _ _ ok
  exact done_keeps _ ok

theorem execTmqPush_keeps {s : State} (ok : MemoriesOk s) : OutOk (execTmqPush s) := by
  unfold execTmqPush
  split
  · split
    · split
      · exact tmqPush_keeps _ _ ok
      exact .next ok
    exact .next ok
  exact .next ok

/-! Channels, processes and barriers (17) -/

theorem execSend_keeps {s : State} (a b : XIdx) (n : BitVec 5) (ok : MemoriesOk s) : OutOk (execSend a b n s) := by
  unfold execSend
  refine withProc_keeps _ (fun p => ?_) ok
  dsimp only
  split
  · exact chanRaise_keeps _ _ _ _ ok
  split
  · exact raisedAt_keeps _ _ _ ok
  · exact chanRaise_keeps _ _ _ _ ok
  split
  · exact stall_keeps _ ok
  exact toAnchor_keeps _ _ _ _ ok

theorem execRecv_keeps {s : State} (d a : XIdx) (n : BitVec 5) (ok : MemoriesOk s) : OutOk (execRecv d a n s) := by
  unfold execRecv
  refine withProc_keeps _ (fun p => ?_) ok
  dsimp only
  split
  · exact chanRaise_keeps _ _ _ _ ok
  exact toAnchor_keeps _ _ _ _ (modChan_memories _ _ _ ok)

theorem execTileTransferDone_keeps {s : State} (ok : MemoriesOk s) : OutOk (execTileTransferDone s) := by
  unfold execTileTransferDone
  split
  · exact .next ok
  refine .next (landTransfer_memories _ ?_)
  split
  · exact ok
  exact readTransfer_memories _ ok

theorem execAltBar_keeps {s : State} (a b : XIdx) (i : BitVec 5) (ok : MemoriesOk s) :
    OutOk (execAltBar a b i s) := by
  unfold execAltBar
  refine withProc_keeps _ (fun p => ?_) ok
  dsimp only
  split
  · exact chanRaise_keeps _ _ _ _ ok
  exact done_keeps _ ok

theorem execAltWait_keeps {s : State} (d : XIdx) (ok : MemoriesOk s) : OutOk (execAltWait d s) := by
  unfold execAltWait
  refine withProc_keeps _ (fun p => ?_) ok
  split
  · exact done_keeps _ ok
  split
  · exact .next (altDone_memories _ _ _ ok)
  exact .next (askGuards_memories _ _ ok)

theorem execTimerGuard_keeps {s : State} (ok : MemoriesOk s) : OutOk (execTimerGuard s) := by
  unfold execTimerGuard
  split
  · split
    · exact .next (wake_memories _ _ ok)
    exact .next ok
  exact .next ok

theorem execChst_keeps {s : State} (d a b : XIdx) (ok : MemoriesOk s) : OutOk (execChst d a b s) := by
  unfold execChst
  refine withProc_keeps _ (fun p => ?_) ok
  dsimp only
  split
  · exact raisedOpen_keeps _ _ _ ok
  split
  · exact chanRaise_keeps _ _ _ _ ok
  split
  · exact chanRaise_keeps _ _ _ _ ok
  split
  · exact ask_keeps _ _ _ _ _ ok
  exact chanRaise_keeps _ _ _ _ ok

theorem execChcl_keeps {s : State} (a : XIdx) (ok : MemoriesOk s) : OutOk (execChcl a s) := by
  unfold execChcl
  refine withProc_keeps _ (fun p => ?_) ok
  dsimp only
  split
  · exact chanRaise_keeps _ _ _ _ ok
  split
  · exact closeLater_keeps _ _ (MemoriesOk.up ok)
  exact ask_keeps _ _ _ _ _ ok

theorem execChmk_keeps {s : State} (d a b : XIdx) (ok : MemoriesOk s) : OutOk (execChmk d a b s) := by
  unfold execChmk
  refine withProc_keeps _ (fun p => ?_) ok
  dsimp only
  split
  · exact raisedOpen_keeps _ _ _ ok
  split
  · exact raised_keeps _ _ _ _ _ _ (MemoriesOk.up ok)
  split
  · exact done_keeps _ ok
  exact done_keeps _ (MemoriesOk.up ok)

theorem execChbind_keeps {s : State} (d a b : XIdx) (ok : MemoriesOk s) : OutOk (execChbind d a b s) := by
  unfold execChbind
  refine withProc_keeps _ (fun p => ?_) ok
  dsimp only
  split
  · exact raisedOpen_keeps _ _ _ ok
  split
  · exact chanRaise_keeps _ _ _ _ ok
  split
  · exact chanRaise_keeps _ _ _ _ ok
  exact ask_keeps _ _ _ _ _ ok

theorem execChunb_keeps {s : State} (d a b : XIdx) (ok : MemoriesOk s) : OutOk (execChunb d a b s) := by
  unfold execChunb
  refine withProc_keeps _ (fun p => ?_) ok
  dsimp only
  split
  · exact raisedOpen_keeps _ _ _ ok
  split
  · exact raisedOpen_keeps _ _ _ ok
  split
  · exact chanRaise_keeps _ _ _ _ ok
  split
  · exact chanRaise_keeps _ _ _ _ ok
  exact ask_keeps _ _ _ _ _ ok

theorem execSpawn_keeps {s : State} (d a : XIdx) (ok : MemoriesOk s) : OutOk (execSpawn d a s) := by
  unfold execSpawn
  refine withProc_keeps _ (fun p => ?_) ok
  dsimp only
  split
  · exact raised_keeps _ _ _ _ _ _ (MemoriesOk.up ok)
  split
  · exact raisedAt_keeps _ _ _ ok
  split
  · exact stall_keeps _ ok
  split
  · exact raisedAt_keeps _ _ _ ok
  split
  · split
    · exact raisedOpen_keeps _ _ _ ok
    split
    · exact raised_keeps _ _ _ _ _ _ ok
    split
    · exact raised_keeps _ _ _ _ _ _ (MemoriesOk.up ok)
    split
    · exact raised_keeps _ _ _ _ _ _ ok
    exact .next (doSpawn_memories _ _ _ ok)
  split
  · exact raisedOpen_keeps _ _ _ ok
  split
  · exact raised_keeps _ _ _ _ _ _ ok
  split
  · exact raised_keeps _ _ _ _ _ _ (MemoriesOk.up ok)
  split
  · exact raised_keeps _ _ _ _ _ _ ok
  exact .next (doSpawn_memories _ _ _ ok)

theorem execYield_keeps {s : State} (ok : MemoriesOk s) : OutOk (execYield s) := by
  unfold execYield
  refine withProc_keeps _ (fun p => ?_) ok
  split
  · exact .next (urge_memories _ (MemoriesOk.up ok))
  exact .next (stopRunning_memories _ _ (MemoriesOk.up ok))

theorem execSleep_keeps {s : State} (a : XIdx) (ok : MemoriesOk s) : OutOk (execSleep a s) := by
  unfold execSleep
  refine withProc_keeps _ (fun p => ?_) ok
  split
  · exact done_keeps _ ok
  exact .next (block_memories _ _ _ ok)

theorem execSleepExpiry_keeps {s : State} (ok : MemoriesOk s) : OutOk (execSleepExpiry s) := by
  unfold execSleepExpiry
  split
  · split
    · split
      · exact .next (wake_memories _ _ ok)
      exact .next ok
    exact .next ok
  exact .next ok

theorem execSetcl_keeps {s : State} (d a : XIdx) (ok : MemoriesOk s) : OutOk (execSetcl d a s) := by
  unfold execSetcl
  refine withProc_keeps _ (fun p => ?_) ok
  dsimp only
  split
  · exact done_keeps _ ok
  exact reclass_keeps _ ok

theorem execDline_keeps {s : State} (d a b : XIdx) (ok : MemoriesOk s) : OutOk (execDline d a b s) := by
  unfold execDline
  refine withProc_keeps _ (fun p => ?_) ok
  dsimp only
  split
  · exact done_keeps _ ok
  split
  · exact reclass_keeps _ ok
  split
  · exact done_keeps _ ok
  exact reclass_keeps _ ok

theorem execMigr_keeps {s : State} (d a : XIdx) (ok : MemoriesOk s) : OutOk (execMigr d a s) := by
  unfold execMigr
  refine withProc_keeps _ (fun p => ?_) ok
  dsimp only
  split
  · exact done_keeps _ ok
  split
  · exact done_keeps _ ok
  split
  · exact done_keeps _ ok
  split
  · exact done_keeps _ ok
  split
  · exact done_keeps _ ok
  exact .next (transitEnds_memories _ _ (modCore_memories _ _ (leaveRunning_memories _ (dropLoads_memories _ ok))))

theorem execBarInit_keeps {s : State} (a b : XIdx) (ok : MemoriesOk s) : OutOk (execBarInit a b s) := by
  unfold execBarInit
  refine withProc_keeps _ (fun p => ?_) ok
  dsimp only
  split
  · exact chanRaise_keeps _ _ _ _ ok
  split
  · exact chanRaise_keeps _ _ _ _ ok
  split
  · exact chanRaise_keeps _ _ _ _ ok
  exact .next (wakeBarrier_memories (putBarrier_memories _ _ (MemoriesOk.up ok)))

theorem execBarArr_keeps {s : State} (d a : XIdx) (ok : MemoriesOk s) : OutOk (execBarArr d a s) := by
  unfold execBarArr
  refine withProc_keeps _ (fun p => ?_) ok
  dsimp only
  split
  · exact chanRaise_keeps _ _ _ _ ok
  · exact chanRaise_keeps _ _ _ _ ok
  split
  · exact stall_keeps _ ok
  exact .next (wakeBarrier_memories (putBarrier_memories _ _ (MemoriesOk.up ok)))

theorem execBarWait_keeps {s : State} (a b : XIdx) (ok : MemoriesOk s) : OutOk (execBarWait a b s) := by
  unfold execBarWait
  refine withProc_keeps _ (fun p => ?_) ok
  dsimp only
  split
  · exact chanRaise_keeps _ _ _ _ ok
  split
  · exact done_keeps _ (clearEarly_memories _ ok)
  exact .next (block_memories _ _ _ ok)

theorem execProbeSend_keeps {s : State} (ok : MemoriesOk s) : OutOk (execProbeSend s) := by
  unfold execProbeSend
  split
  · exact .next ok
  split
  · exact .next ok
  split
  · exact .next (putProc_memories _ ok)
  exact .next (sendProbe_memories _ _ _ _ (putProc_memories _ ok))

theorem execProbeArrival_keeps {s : State} (ok : MemoriesOk s) : OutOk (execProbeArrival s) := by
  unfold execProbeArrival
  split
  · exact .next ok
  dsimp only
  split
  · exact .next (MemoriesOk.up ok)
  split
  · split
    · exact .next (reportCycle_memories _ _ (putProc_memories _ (MemoriesOk.up ok)))
    exact .next (MemoriesOk.up ok)
  split
  · split
    · exact .next (sendProbe_memories _ _ _ _ (MemoriesOk.up ok))
    exact .next (MemoriesOk.up ok)
  exact .next (MemoriesOk.up ok)

/-! Memory servers (15) -/

theorem execMsStat_keeps {s : State} (d b : XIdx) (item : BitVec 5) (ok : MemoriesOk s) :
    OutOk (execMsStat d b item s) := by
  unfold execMsStat
  refine withProc_keeps _ (fun p => ?_) ok
  split
  · exact msRaise_keeps _ _ ok
  exact done_keeps _ ok

theorem execMsRequestAccept_keeps {s : State} (ok : MemoriesOk s) : OutOk (execMsRequestAccept s) := by
  unfold execMsRequestAccept
  split
  · exact .next ok
  split
  · split
    · exact .next ok
    split
    · exact .next (wake_memories _ _ (MemoriesOk.up ok))
    split
    · exact .next (wake_memories _ _ (msAccept_memories _ _ _ _ ok))
    exact .next ok
  exact .next ok

theorem execMsContextStart_keeps {s : State} (ok : MemoriesOk s) : OutOk (execMsContextStart s) := by
  unfold execMsContextStart
  dsimp only
  split
  · exact .next ok
  split
  · split
    · refine .next (segmentMiss_memories _ _ ?_)
      split
      · exact ok
      exact refill_memories _ _ _ _ ok
    split
    · split
      · exact .next (putRequest_memories _ ok)
      split
      · exact .next (toFront_memories _ (MemoriesOk.up ok))
      split
      · exact .next (notifyStack_memories _ (putRequest_memories _ ok))
      exact .next ok
    split
    · exact .next (putRequest_memories _ (refill_memories _ _ _ _ ok))
    split
    · exact .next (toFront_memories _ (MemoriesOk.up (refill_memories _ _ _ _ ok)))
    split
    · exact .next (notifyStack_memories _ (putRequest_memories _ (refill_memories _ _ _ _ ok)))
    exact .next (refill_memories _ _ _ _ ok)
  split
  · exact .next (putRequest_memories _ ok)
  exact .next ok

theorem execMsTranslationRefill_keeps {s : State} (ok : MemoriesOk s) : OutOk (execMsTranslationRefill s) := by
  unfold execMsTranslationRefill
  split
  · exact .next ok
  split
  · exact .next ok
  dsimp only
  split
  · exact .next (refill_memories _ _ _ _ ok)
  exact .next (segmentMiss_memories _ _ (refill_memories _ _ _ _ ok))

theorem execMsPiece_keeps {s : State} (ok : MemoriesOk s) : OutOk (execMsPiece s) := by
  unfold execMsPiece
  split
  · split
    · exact .next (servePiece_memories _ ok)
    exact .next ok
  exact .next ok

theorem execCxlMemCompletion_keeps {s : State} (ok : MemoriesOk s) : OutOk (execCxlMemCompletion s) := by
  unfold execCxlMemCompletion
  split
  · split
    · exact .next (servePiece_memories _ ok)
    exact .next ok
  exact .next ok

theorem execMsCompletion_keeps {s : State} (ok : MemoriesOk s) : OutOk (execMsCompletion s) := by
  unfold execMsCompletion
  split
  · exact .next ok
  rename_i r _
  split
  · exact .next ok
  split
  · exact .next (finishRequest_memories _ ok)
  split
  · exact .next ok
  have okt := flushCarry_memories r ok
  dsimp only
  split
  · exact .next (putRequest_memories _ okt)
  exact .next (writeCompletion_memories _ okt)

/-! Edge groups (21) -/

theorem execExternalSendRead_keeps {s : State} (ok : MemoriesOk s) : OutOk (execExternalSendRead s) := by
  unfold execExternalSendRead
  split
  · exact .next ok
  split
  · split
    · split
      · exact .next (wake_memories _ _ (sendMessage_memories _ _ _ ok))
      exact .next ok
    exact .next ok
  · exact .next (hostOut_memories _ _ _ ok)
  exact .next ok

theorem execHostQueueOutbound_keeps {s : State} (ok : MemoriesOk s) : OutOk (execHostQueueOutbound s) := by
  unfold execHostQueueOutbound
  dsimp only
  split
  · exact .next (hostOut_memories _ _ _ ok)
  exact .next ok

theorem execHostQueueInbound_keeps {s : State} (ok : MemoriesOk s) : OutOk (execHostQueueInbound s) := by
  unfold execHostQueueInbound
  dsimp only [State.freshId]
  split
  · split
    · exact .next ok
    split
    · exact .next ok
    exact .next (nextEntry_memories _ (hostWrite_memories _ _ _ (putFrame_memories _ _ _ _ _
      (engineBytes_memories _ _ _ _ _ _ (modChan_memories _ _ _ (MemoriesOk.up ok))))))
  exact .next ok

theorem execUetPacketArrival_keeps {s : State} (ok : MemoriesOk s) : OutOk (execUetPacketArrival s) := by
  unfold execUetPacketArrival
  split
  · dsimp only
    split
    · exact .next ok
    split
    · exact .next ok
    split
    · exact .next (sendAck_memories _ _ ok)
    split
    · exact .next (putGroup_memories _ ok)
    exact .next (newPacket_memories _ _ _ ok)
  exact .next ok

theorem execUetAckSend_keeps {s : State} (ok : MemoriesOk s) : OutOk (execUetAckSend s) := by
  unfold execUetAckSend
  dsimp only
  split
  · split
    · exact .next ok
    exact .next (sendAck_memories _ _ ok)
  exact .next ok

theorem execUetAckReceive_keeps {s : State} (ok : MemoriesOk s) : OutOk (execUetAckReceive s) := by
  unfold execUetAckReceive
  split
  · split
    · exact .next ok
    exact .next (pump_memories _ _ (resend_memories _ _ _ (modGroup_memories _ _ ok)))
  exact .next ok

theorem execUetRetransmitTimeout_keeps {s : State} (ok : MemoriesOk s) : OutOk (execUetRetransmitTimeout s) := by
  unfold execUetRetransmitTimeout
  split
  · exact .next (resend_memories _ _ _ ok)
  exact .next ok

theorem execUalinkInboundRequest_keeps {s : State} (ok : MemoriesOk s) : OutOk (execUalinkInboundRequest s) := by
  unfold execUalinkInboundRequest
  split
  · dsimp only
    split
    · exact .next ok
    split
    · refine .next ?_
      split
      · exact inbound_memories _ _ _ _ ok
      exact uaAnswer_memories _ _ ok
    · refine .next ?_
      split
      · exact inbound_memories _ _ _ _ ok
      exact uaAnswer_memories _ _ ok
    · split
      · split
        · split
          · exact .next (uaAnswer_memories _ _ ok)
          split
          · exact .next (uaAnswer_memories _ _ (putFrame_memories _ _ _ _ _ ok))
          exact .next ok
        exact .next (uaAnswer_memories _ _ ok)
      exact .next (uaAnswer_memories _ _ ok)
    · split
      · split
        · exact .next (tileIn_memories _ _ _ _ _ ok)
        exact .next (uaAnswer_memories _ _ ok)
      exact .next (uaAnswer_memories _ _ ok)
    split
    · split
      · exact .next (tileOut_memories _ _ _ ok)
      exact .next (uaAnswer_memories _ _ ok)
    exact .next (uaAnswer_memories _ _ ok)
  exact .next ok

theorem execApertureResponse_keeps {s : State} (ok : MemoriesOk s) : OutOk (execApertureResponse s) := by
  unfold execApertureResponse
  split
  · split
    · split
      · refine .next ?_
        rename_i id r _ _ q _ _
        cases e : s.apertureAnswer q r with
        | none => exact ok
        | some t => exact apertureAnswer_memories ok e
      exact .next ok
    exact .next ok
  · split
    · exact .next (messageTaken_memories _ ok)
    exact .next ok
  exact .next ok

theorem execSceneBlockDone_keeps {s : State} (ok : MemoriesOk s) : OutOk (execSceneBlockDone s) := by
  unfold execSceneBlockDone
  dsimp only
  split
  · exact .next ok
  exact .next (modOuter_memories _ _ (modGroup_memories _ _ ok))

theorem execSceneDrainEnd_keeps {s : State} (ok : MemoriesOk s) : OutOk (execSceneDrainEnd s) := by
  unfold execSceneDrainEnd
  dsimp only
  split
  · split
    · exact .next (modGroup_memories _ _ ok)
    exact .next ok
  exact .next ok

theorem execSceneDrainTimeout_keeps {s : State} (ok : MemoriesOk s) : OutOk (execSceneDrainTimeout s) := by
  unfold execSceneDrainTimeout
  dsimp only
  split
  · split
    · exact .next (modGroup_memories _ _ (endOpen_memories _ _ ok))
    exact .next ok
  exact .next ok

theorem execSceneUnmapDone_keeps {s : State} (ok : MemoriesOk s) : OutOk (execSceneUnmapDone s) := by
  unfold execSceneUnmapDone
  dsimp only
  split
  · exact .next ok
  split
  · exact .next ok
  split
  · exact .next (modGroup_memories _ _ (modGroup_memories _ _ (unbindServer_memories _ ok)))
  exact .next (askLock_memories _ _ (modGroup_memories _ _ (unbindServer_memories _ ok)))

theorem execEdgeLockGrant_keeps {s : State} (ok : MemoriesOk s) : OutOk (execEdgeLockGrant s) := by
  unfold execEdgeLockGrant
  dsimp only
  split
  · split
    · exact .next (modGroup_memories _ _ (modDie_memories _ _ ok))
    exact .next (modDie_memories _ _ ok)
  exact .next ok

theorem execSceneTrainDone_keeps {s : State} (ok : MemoriesOk s) : OutOk (execSceneTrainDone s) := by
  unfold execSceneTrainDone
  split
  · split
    · exact .next ok
    dsimp only
    split
    · exact .next (linkup_memories _ _ ok)
    exact .next ok
  exact .next ok

theorem execSceneTrainTimeout_keeps {s : State} (ok : MemoriesOk s) : OutOk (execSceneTrainTimeout s) := by
  unfold execSceneTrainTimeout
  split
  · split
    · exact .next ok
    dsimp only
    split
    · exact .next ok
    split
    · exact .next (groupRecord_memories _ _ _ (linkup_memories _ _ ok))
    exact .next (groupRecord_memories _ _ _ (linkup_memories _ _ ok))
  exact .next ok

theorem execSceneLinkupDone_keeps {s : State} (ok : MemoriesOk s) : OutOk (execSceneLinkupDone s) := by
  unfold execSceneLinkupDone
  dsimp only
  split
  · exact .next (putGroup_memories _ ok)
  exact .next ok

theorem execSceneReleaseDone_keeps {s : State} (ok : MemoriesOk s) : OutOk (execSceneReleaseDone s) := by
  unfold execSceneReleaseDone
  dsimp only
  split
  · exact .next (endScene_memories _ (releaseEnds_memories _ ok))
  exact .next ok

theorem execEdgeGroupRetrain_keeps {s : State} (ok : MemoriesOk s) : OutOk (execEdgeGroupRetrain s) := by
  unfold execEdgeGroupRetrain
  split
  · dsimp only
    split
    · exact .next ok
    split
    · exact .next (putGroup_memories _ ok)
    exact .next (loseGroup_memories _ ok)
  exact .next ok

theorem execDvfsStep_keeps {s : State} (ok : MemoriesOk s) : OutOk (execDvfsStep s) := by
  unfold execDvfsStep
  dsimp only
  split
  · refine .next ?_
    split
    · exact askStep_memories _ _ ok
    exact modDie_memories _ _ ok
  exact .next (askStep_memories _ _ ok)

theorem execDvfsStepEnd_keeps {s : State} (ok : MemoriesOk s) : OutOk (execDvfsStepEnd s) := by
  unfold execDvfsStepEnd
  dsimp only
  split
  · split
    · exact .next (unlock_memories _ ok)
    exact .next ok
  exact .next ok

/-! Removal of a die and reset domains (19) -/

theorem execReclockEnd_keeps {s : State} (ok : MemoriesOk s) : OutOk (execReclockEnd s) := by
  unfold execReclockEnd
  split
  · exact .next ok
  split
  · exact .next (MemoriesOk.up ok)
  exact .next (completeWhere_memories _ (foldl_memories _ (MemoriesOk.up (MemoriesOk.up (foldl_memories _ ok
    (fun t n okt => wipeStacks_memories _ okt)))) (fun t x okt => reportAffected_memories _ okt)))

theorem execCoreDomainReset_keeps {s : State} (ok : MemoriesOk s) : OutOk (execCoreDomainReset s) := by
  unfold execCoreDomainReset
  dsimp only
  split
  · exact .next ok
  refine .next (foldl_memories _ (MemoriesOk.up (settleAll_memories (foldl_memories _ ?_
    (fun t p okt => reanchor_memories _ okt)))) (fun t n okt => notifyManager_memories _ _ _ _ _ _ okt))
  refine endTransfers_memories _ (modDie_memories _ _ (MemoriesOk.up (foldl_memories _ ?_
    (fun t x okt => modChan_memories _ _ _ okt))))
  refine emptyHomes_memories _ (failHomes_memories _ _ _ _ (fun _ _ okt => okt) ?_)
  exact foldl_memories _ (MemoriesOk.up ok) (fun t p okt => exitProc_memories _ _ okt)

theorem execCoreDomainResetEnd_keeps {s : State} (ok : MemoriesOk s) : OutOk (execCoreDomainResetEnd s) := by
  unfold execCoreDomainResetEnd
  dsimp only
  split
  · exact .next (modDie_memories _ _ (resetCores_memories _ (wipeDie_memories _ (emptyHomes_memories _ ok))))
  exact .next ok

theorem execUncoreReset_keeps {s : State} (ok : MemoriesOk s) : OutOk (execUncoreReset s) := by
  unfold execUncoreReset
  dsimp only
  split
  · exact .next ok
  exact .next (MemoriesOk.up (modDie_memories _ _ ok))

/-! Completion of a LAUNCH (23) -/

theorem execLaunchComplete_keeps {s : State} (ok : MemoriesOk s) : OutOk (execLaunchComplete s) := by
  unfold execLaunchComplete
  split
  · exact .next ok
  split
  · split
    · exact .next (failCmd_memories _ _ _ ok)
    split
    · exact .next ok
    split
    · exact .next (raiseAll_memories _ _ (dropStale_memories (MemoriesOk.up ok)))
    split
    · exact .next (failCmd_memories _ _ _ ok)
    split
    · exact .next ok
    exact .next (completeItem_memories _ _ (appendItems_memories _ (dropStale_memories ok)))
  exact .next ok

/-! The stage manager's commands and events (23) -/

theorem execCmdLoad_keeps {s : State} (ok : MemoriesOk s) : OutOk (execCmdLoad s) := by
  unfold execCmdLoad
  refine withItem_keeps _ _ (fun h a0 a1 a2 => ?_) ok
  refine notResident_keeps _ _ _ ?_ ok
  split
  · exact illegal_keeps _ _ _ ok
  split
  · exact illegal_keeps _ _ _ ok
  split
  · exact illegal_keeps _ _ _ ok
  split
  · exact .next (failCmd_memories _ _ _ ok)
  dsimp only
  split
  · exact .next (failCmd_memories _ _ _ ok)
  exact endingWrites_keeps _ _ _ (fun t t' n okt e => keepBook_memories okt (by assumption)) ok

theorem execCmdLaunch_keeps {s : State} (ok : MemoriesOk s) : OutOk (execCmdLaunch s) := by
  unfold execCmdLaunch
  refine withItem_keeps _ _ (fun h a0 a1 a2 => ?_) ok
  split
  · exact illegal_keeps _ _ _ ok
  split
  · exact illegal_keeps _ _ _ ok
  split
  · exact illegal_keeps _ _ _ ok
  split
  · exact illegal_keeps _ _ _ ok
  exact .next (launch_memories _ _ _ _ ok)

theorem execCmdEnd_keeps {s : State} (ok : MemoriesOk s) : OutOk (execCmdEnd s) := by
  unfold execCmdEnd
  refine withItem_keeps _ _ (fun h a0 a1 a2 => ?_) ok
  refine notResident_keeps _ _ _ ?_ ok
  split
  · exact illegal_keeps _ _ _ ok
  split
  · exact illegal_keeps _ _ _ ok
  split
  · exact illegal_keeps _ _ _ ok
  exact ending_ok_keeps _ _ (endBook_memories _ ok)

theorem execCmdWaitge_keeps {s : State} (ok : MemoriesOk s) : OutOk (execCmdWaitge s) := by
  unfold execCmdWaitge
  refine withItem_keeps _ _ (fun h a0 a1 a2 => ?_) ok
  refine withSem_keeps _ _ _ _ ?_ ok
  split
  · exact illegal_keeps _ _ _ ok
  split
  · exact .next (completeItem_memories _ _ ok)
  exact .next (setCur_memories _ _ ok)

theorem execWaitgeSatisfied_keeps {s : State} (ok : MemoriesOk s) : OutOk (execWaitgeSatisfied s) := by
  unfold execWaitgeSatisfied
  split
  · split
    · split
      · exact .next (completeItem_memories _ _ ok)
      exact .next ok
    exact .next ok
  exact .next ok

theorem execCmdSignal_keeps {s : State} (ok : MemoriesOk s) : OutOk (execCmdSignal s) := by
  unfold execCmdSignal
  refine withItem_keeps _ _ (fun h a0 a1 a2 => ?_) ok
  refine withSem_keeps _ _ _ _ ?_ ok
  split
  · exact illegal_keeps _ _ _ ok
  refine .next (completeItem_memories _ _ ?_)
  split
  · exact semAdd_memories _ _ _ _ ok
  exact semMax_memories _ _ ok

theorem execCmdCopy_keeps {s : State} (ok : MemoriesOk s) : OutOk (execCmdCopy s) := by
  unfold execCmdCopy
  refine withItem_keeps _ _ (fun h a0 a1 a2 => ?_) ok
  split
  · exact illegal_keeps _ _ _ ok
  split
  · exact .next (failCmd_memories _ _ _ ok)
  · exact .next (failCmd_memories _ _ _ ok)
  exact .next (setCur_memories _ _ (MemoriesOk.up ok))

theorem execCopyComplete_keeps {s : State} (ok : MemoriesOk s) : OutOk (execCopyComplete s) := by
  unfold execCopyComplete
  split
  · split
    · dsimp only
      split
      · exact .next (failCmd_memories _ _ _ ok)
      · exact .next (failCmd_memories _ _ _ ok)
      split
      · split
        · exact .next (completeItem_memories _ _ (copyWords_memories _ _ _ _ _ _ ok))
        exact .next (setCur_memories _ _ (copyWords_memories _ _ _ _ _ _ ok))
      split
      · exact .next (completeItem_memories _ _ (copyWords_memories _ _ _ _ _ _ ok))
      exact .next (setCur_memories _ _ (copyWords_memories _ _ _ _ _ _ ok))
    exact .next ok
  exact .next ok

theorem execCmdUnpin_keeps {s : State} (ok : MemoriesOk s) : OutOk (execCmdUnpin s) := by
  unfold execCmdUnpin
  refine withItem_keeps _ _ (fun h a0 a1 a2 => ?_) ok
  split
  · exact illegal_keeps _ _ _ ok
  exact withRegion_keeps _ _ _ _ (fun n => endingWrites_keeps _ _ _ (fun _ _ _ okt e => unpin_memories okt e) ok) ok

theorem execCmdWindow_keeps {s : State} (ok : MemoriesOk s) : OutOk (execCmdWindow s) := by
  unfold execCmdWindow
  refine withItem_keeps _ _ (fun h a0 a1 a2 => ?_) ok
  split
  · exact illegal_keeps _ _ _ ok
  split
  · exact illegal_keeps _ _ _ ok
  refine withRegion_keeps _ _ _ _ (fun n => ?_) ok
  split
  · exact denied_keeps _ _ ok
  exact ending_keeps _ _ _ (fun t e => setWindows_memories ok (by assumption)) ok

theorem execCmdExtep_keeps {s : State} (ok : MemoriesOk s) : OutOk (execCmdExtep s) := by
  unfold execCmdExtep
  refine withItem_keeps _ _ (fun h a0 a1 a2 => ?_) ok
  dsimp only
  split
  · exact illegal_keeps _ _ _ ok
  split
  · exact denied_keeps _ _ ok
  exact withRegion_keeps _ _ _ _ (fun n => ending_keeps _ _ _ (fun t e => queueEnd_memories ok (by assumption)) ok) ok

theorem execCmdHostep_keeps {s : State} (ok : MemoriesOk s) : OutOk (execCmdHostep s) := by
  unfold execCmdHostep
  refine withItem_keeps _ _ (fun h a0 a1 a2 => ?_) ok
  dsimp only
  split
  · exact illegal_keeps _ _ _ ok
  split
  · exact denied_keeps _ _ ok
  exact withRegion_keeps _ _ _ _ (fun n => ending_keeps _ _ _ (fun t e => queueEnd_memories ok (by assumption)) ok) ok

theorem execCmdIrq_keeps {s : State} (ok : MemoriesOk s) : OutOk (execCmdIrq s) := by
  unfold execCmdIrq
  refine withItem_keeps _ _ (fun h a0 a1 a2 => ?_) ok
  split
  · exact illegal_keeps _ _ _ ok
  split
  · exact illegal_keeps _ _ _ ok
  exact ending_ok_keeps _ _ (MemoriesOk.up ok)

theorem execCmdLoop_keeps {s : State} (ok : MemoriesOk s) : OutOk (execCmdLoop s) := by
  unfold execCmdLoop
  refine withItem_keeps _ _ (fun h a0 a1 a2 => ?_) ok
  split
  · exact illegal_keeps _ _ _ ok
  split
  · exact illegal_keeps _ _ _ ok
  split
  · exact illegal_keeps _ _ _ ok
  dsimp only
  split
  · exact jumpItem_keeps _ _ _ _ (fun t okt => modThread_memories _ _ okt) ok
  exact .next (completeItem_memories _ _ (modThread_memories _ _ ok))

theorem execCmdIf_keeps {s : State} (ok : MemoriesOk s) : OutOk (execCmdIf s) := by
  unfold execCmdIf
  refine withItem_keeps _ _ (fun h a0 a1 a2 => ?_) ok
  refine withSem_keeps _ _ _ _ ?_ ok
  split
  · exact jumpItem_keeps _ _ _ _ (fun _ okt => okt) ok
  exact .next (completeItem_memories _ _ ok)

theorem execCmdTrig_keeps {s : State} (ok : MemoriesOk s) : OutOk (execCmdTrig s) := by
  unfold execCmdTrig
  refine withItem_keeps _ _ (fun h a0 a1 a2 => ?_) ok
  refine notResident_keeps _ _ _ ?_ ok
  split
  · exact illegal_keeps _ _ _ ok
  split
  · exact illegal_keeps _ _ _ ok
  split
  · exact illegal_keeps _ _ _ ok
  split
  · split
    · exact ending_ok_keeps _ _ (MemoriesOk.up ok)
    exact .next (failCmd_memories _ _ _ ok)
  split
  · exact .next (failCmd_memories _ _ _ ok)
  exact ending_ok_keeps _ _ (MemoriesOk.up ok)

theorem execTriggerWrite_keeps {s : State} (ok : MemoriesOk s) : OutOk (execTriggerWrite s) := by
  unfold execTriggerWrite
  dsimp only
  split
  · exact .next ok
  split
  · exact .next (MemoriesOk.up ok)
  split
  · exact .next (setPending_memories _ _ (MemoriesOk.up ok))
  exact .next (postFor_memories _ _ (MemoriesOk.up (MemoriesOk.up ok)))

theorem execTriggerRun_keeps {s : State} (ok : MemoriesOk s) : OutOk (execTriggerRun s) := by
  unfold execTriggerRun
  dsimp only
  split
  · exact .next ok
  split
  · exact .next ok
  split
  · split
    · exact .next (endRun_memories _ _ ok)
    exact .next ok
  split
  · exact .next (beginRun_memories _ _ ok)
  exact .next ok

theorem execCmdScene_keeps {s : State} (ok : MemoriesOk s) : OutOk (execCmdScene s) := by
  unfold execCmdScene
  refine withItem_keeps _ _ (fun h a0 a1 a2 => ?_) ok
  refine thread0_keeps _ _ _ ?_ ok
  dsimp only
  split
  · exact illegal_keeps _ _ _ ok
  split
  · exact illegal_keeps _ _ _ ok
  split
  · exact illegal_keeps _ _ _ ok
  split
  · exact .next (failCmd_memories _ _ _ (MemoriesOk.up ok))
  exact .next (setCur_memories _ _ (beginScene_memories _ _ _ _ _ ok))

theorem execCmdRemove_keeps {s : State} (ok : MemoriesOk s) : OutOk (execCmdRemove s) := by
  unfold execCmdRemove
  refine withItem_keeps _ _ (fun h a0 a1 a2 => ?_) ok
  refine thread0_keeps _ _ _ ?_ ok
  dsimp only
  split
  · exact illegal_keeps _ _ _ ok
  split
  · exact illegal_keeps _ _ _ ok
  split
  · exact .next ok
  split
  · exact .next (failCmd_memories _ _ _ ok)
  exact .next (setCur_memories _ _ (removeDie_memories _ ok))

theorem execCmdAdmit_keeps {s : State} (ok : MemoriesOk s) : OutOk (execCmdAdmit s) := by
  unfold execCmdAdmit
  refine withItem_keeps _ _ (fun h a0 a1 a2 => ?_) ok
  refine thread0_keeps _ _ _ ?_ ok
  dsimp only
  split
  · exact illegal_keeps _ _ _ ok
  split
  · exact illegal_keeps _ _ _ ok
  split
  · exact .next ok
  split
  · exact .next (failCmd_memories _ _ _ ok)
  exact .next (setCur_memories _ _ (admitDie_memories _ ok))

theorem execCmdCue_keeps {s : State} (ok : MemoriesOk s) : OutOk (execCmdCue s) := by
  unfold execCmdCue
  refine withItem_keeps _ _ (fun h a0 a1 a2 => ?_) ok
  dsimp only
  split
  · exact illegal_keeps _ _ _ ok
  split
  · exact denied_keeps _ _ ok
  split
  · exact .next (failCmd_memories _ _ _ ok)
  split
  · exact ending_ok_keeps _ _ (modGroup_memories _ _ ok)
  split
  · exact illegal_keeps _ _ _ ok
  split
  · exact .next (failCmd_memories _ _ _ ok)
  split
  · exact .next (failCmd_memories _ _ _ ok)
  exact ending_ok_keeps _ _ (modGroup_memories _ _ ok)

theorem execCmdMkey_keeps {s : State} (ok : MemoriesOk s) : OutOk (execCmdMkey s) := by
  unfold execCmdMkey
  refine withItem_keeps _ _ (fun h a0 a1 a2 => ?_) ok
  dsimp only
  split
  · exact illegal_keeps _ _ _ ok
  split
  · exact denied_keeps _ _ ok
  split
  · exact .next (failCmd_memories _ _ _ ok)
  split
  · exact .next (failCmd_memories _ _ _ ok)
  split
  · exact mkeyRegister_keeps _ _ _ _ _ ok
  split
  · exact illegal_keeps _ _ _ ok
  refine ending_ok_keeps _ _ ?_
  split
  · exact modGroup_memories _ _ ok
  exact ok

theorem execMkeyKeyholdExpiry_keeps {s : State} (ok : MemoriesOk s) : OutOk (execMkeyKeyholdExpiry s) := by
  unfold execMkeyKeyholdExpiry
  split
  · split
    · split
      · exact .next (failCmd_memories _ _ _ ok)
      split
      · exact .next (failCmd_memories _ _ _ ok)
      split
      · exact .next (completeItem_memories _ _ (register_memories _ _ _ _ _ _ ok))
      exact .next ok
    exact .next ok
  exact .next ok

theorem execQueueDoorbell_keeps {s : State} (ok : MemoriesOk s) : OutOk (execQueueDoorbell s) := by
  unfold execQueueDoorbell
  dsimp only
  split
  · split
    · exact .next ok
    exact .next (putThread_memories _ ok)
  exact .next ok

theorem execQueueRestart_keeps {s : State} (ok : MemoriesOk s) : OutOk (execQueueRestart s) := by
  unfold execQueueRestart
  split
  · split
    · exact .next (putThread_memories _ ok)
    exact .next ok
  exact .next ok

theorem execMonitorAssignment_keeps {s : State} (ok : MemoriesOk s) : OutOk (execMonitorAssignment s) := by
  unfold execMonitorAssignment
  split
  · split
    · exact .next ok
    exact .next (MemoriesOk.up ok)
  exact .next ok

theorem execControlRegisterWrite_keeps {s : State} (ok : MemoriesOk s) : OutOk (execControlRegisterWrite s) := by
  unfold execControlRegisterWrite
  split
  · exact .next (modCore_memories _ _ ok)
  · exact .next (modCore_memories _ _ ok)
  · exact .next (modGroup_memories _ _ ok)
  exact .next ok

theorem execUalinkDomainFormed_keeps {s : State} (ok : MemoriesOk s) : OutOk (execUalinkDomainFormed s) := by
  unfold execUalinkDomainFormed
  split
  · exact .next (MemoriesOk.up ok)
  exact .next ok

theorem execPackageReset_keeps {s : State} (ok : MemoriesOk s) : OutOk (execPackageReset s) := by
  unfold execPackageReset
  split
  · exact .next ⟨rfl, rfl, ok.2.2.1, ok.2.2.2⟩
  exact .next ok

theorem execLifeCycleChange_keeps {s : State} (ok : MemoriesOk s) : OutOk (execLifeCycleChange s) := by
  unfold execLifeCycleChange
  split
  · split
    · exact .next (MemoriesOk.up (wipe_memories ok))
    exact .next ok
  exact .next ok

theorem execAttestationReport_keeps {s : State} (ok : MemoriesOk s) : OutOk (execAttestationReport s) := by
  unfold execAttestationReport
  split
  · exact .next (MemoriesOk.up ok)
  exact .next ok

/-! Every instruction and every event -/

/-- Whatever an instruction or event does, it keeps the memories in their canonical form. -/
theorem exec_keeps {s : State} (i : Instr) (ok : MemoriesOk s) : OutOk (exec i s) := by
  unfold exec
  cases i with
  | add | sub | and | or | xor | andn | sll | srl | sra | ror | slt | sltu | min | max | minu | maxu | mul | mulh
    | mulhu | mulhsu | div | divu | rem | remu | clz | ctz | popc | sextB | sextH | sextW | zextW | cAdd | cSub
    | cAnd | cOr | cXor => exact aluR_keeps _ _ _ _ _ ok
  | addi | andi | ori | xori | slti | sltiu => exact aluI_keeps _ _ _ _ ok
  | slli | srli | srai | lih | addpc | csrr | cAddi | cLi | cMv | cSlli | cSrli | cfenceI => exact alu_keeps _ _ _ ok
  | ldb | ldh | ldw | ldd | ldbu | ldhu | ldwu | cLdd | cLdw => exact ldX_keeps _ _ _ _ _ _ ok
  | stb | sth | stw | std | cStd | cStw => exact stX_keeps _ _ _ _ _ ok
  | beq | bne | blt | bge | bltu | bgeu | cBeqz | cBnez | cJ => exact branch_keeps _ _ _ ok
  | jal | jalr | altClr | altTm | nop | cNop => exact withProc_keeps _ (fun p => done_keeps _ ok) ok
  | trap | brk => exact withProc_keeps _ (fun p => raised_keeps _ _ _ _ _ _ ok) ok
  | ifl => exact withProc_keeps _ (fun p => done_keeps _ (modCore_memories _ _ ok)) ok
  | csrw | csrs | csrc => exact csrWrite_keeps _ _ _ ok
  | ldaq => exact withProc_keeps _ (fun p => load_keeps _ _ _ _ _ _ _ ok) ok
  | strl => exact execStrl_keeps _ _ _ ok
  | ldf | lde | ste | waitw | waitc => exact syncInstr_keeps _ _ _ _ _ ok
  | stf => exact execStf_keeps _ _ ok
  | fefill | feclr => exact feInstr_keeps _ _ _ ok
  | stNt => exact withProc_keeps _ (fun p => storeInstr_keeps _ _ _ _ _ _ ok) ok
  | drainNt | fence => exact withProc_keeps _ (fun p => waitFor_keeps _ _ _ ok) ok
  | rsv => exact execRsv_keeps _ _ ok
  | rls => exact execRls_keeps _ _ ok
  | amoAdd | amoAnd | amoOr | amoXor | amoMin | amoMax | amoMinu | amoMaxu | amoSwap | amoCas =>
    exact amo_keeps _ _ _ _ _ ok
  | cfenceW => exact execCfenceW_keeps _ ok
  | vadd | vsub | vmul | vfma | vfms | vfnma => exact vfp_keeps _ _ _ _ _ _ _ _ _ ok
  | vmax | vmin | vabs | vneg | vmov | vshuf | vqmac => exact vlanes_keeps _ _ _ _ _ _ _ _ ok
  | vcmp | vicmp => exact vcompare_keeps _ _ _ _ _ _ _ ok
  | vsel | vextr | vins | vscan | vcomp | vexpd | pcnt | pfirst => exact vec_keeps _ _ _ ok
  | viadd | visub | vimul | vimulhI | vimulhU | vimac | vand | vor | vxor | vshl | vshr | vsar | viminI | viminU
    | vimaxI | vimaxU | viabs | vsaddI | vsaddU | vssubI | vssubU | vqmul | vqsatI16 | vqsatI32 =>
    exact vint_keeps _ _ _ _ _ _ _ _ ok
  | vcvt | vcvtSr | vpack | vunpk => exact vmove_keeps _ _ _ _ _ _ _ _ _ ok
  | vzero | vbcast | vidx | vrand | vrot | vslide => exact vgen_keeps _ _ _ _ _ _ _ ok
  | vld | vlds | vgath => exact vld_keeps _ _ _ _ _ _ ok
  | vst | vsts | vscat => exact vst_keeps _ _ _ _ _ _ ok
  | vldb => exact execVldb_keeps _ _ _ _ ok
  | vrecip | vrsqrt | vsqrt | vexp2 | vlog2 | vsin | vcos | vtanh | vsigm => exact vspecial_keeps _ _ _ _ _ _ ok
  | vredsum => exact execVredsum_keeps _ _ _ _ ok
  | vredmax => exact execVredmax_keeps _ _ _ _ ok
  | vredmin => exact execVredmin_keeps _ _ _ _ ok
  | pset | pand | por | pnot => exact pmask_keeps _ _ _ ok
  | vqrndLo | vqrndHi => exact vqrnd_keeps _ _ _ _ _ _ ok
  | scfg => exact execScfg_keeps _ _ _ ok
  | sbase => exact execSbase_keeps _ _ ok
  | sstart => exact execSstart_keeps _ ok
  | sstop => exact execSstop_keeps _ ok
  | sbr | sstat => exact strm_keeps _ _ (fun p => done_keeps _ ok) ok
  | tmma | tmmaSp => exact tile_keeps _ _ _ (fun p => product_keeps _ _ _ _ _ _ _ _ ok) ok
  | tzero | tdesc | tmqClr => exact tile_keeps _ _ _ (fun p => done_keeps _ ok) ok
  | tldacc => exact execTldacc_keeps _ _ _ ok
  | tst => exact execTst_keeps _ _ _ ok
  | tscale => exact execTscale_keeps _ _ _ _ ok
  | tadd => exact execTadd_keeps _ _ _ _ ok
  | twait => exact execTwait_keeps ok
  | tmq => exact execTmq_keeps _ ok
  | send => exact execSend_keeps _ _ _ ok
  | recv => exact execRecv_keeps _ _ _ ok
  | sendt | recvt => exact tileMove_keeps _ _ _ ok
  | altRx | altTx => exact armEnd_keeps _ _ _ ok
  | altBar => exact execAltBar_keeps _ _ _ ok
  | altWait => exact execAltWait_keeps _ ok
  | chst => exact execChst_keeps _ _ _ ok
  | chcl => exact execChcl_keeps _ ok
  | chmk => exact execChmk_keeps _ _ _ ok
  | chbind => exact execChbind_keeps _ _ _ ok
  | chunb => exact execChunb_keeps _ _ _ ok
  | spawn => exact execSpawn_keeps _ _ ok
  | exit => exact withProc_keeps _ (fun p => .next (exitProc_memories _ _ ok)) ok
  | yield => exact execYield_keeps ok
  | sleep => exact execSleep_keeps _ ok
  | setcl => exact execSetcl_keeps _ _ ok
  | dline => exact execDline_keeps _ _ _ ok
  | migr => exact execMigr_keeps _ _ ok
  | barInit => exact execBarInit_keeps _ _ ok
  | barArr => exact execBarArr_keeps _ _ ok
  | barWait => exact execBarWait_keeps _ _ ok
  | msGet | msPut | msGath | msScat | msFill | msCas => exact msInstr_keeps _ _ _ ok
  | msStat => exact execMsStat_keeps _ _ _ ok
  | faultRecordSend => exact execFaultRecordSend_keeps ok
  | faultReply => exact execFaultReply_keeps ok
  | monitorReply => exact execMonitorReply_keeps ok
  | preemptionHalt => exact execPreemptionHalt_keeps ok
  | dispatch => exact execDispatch_keeps ok
  | quantumExpiry => exact execQuantumExpiry_keeps ok
  | class0Release => exact execClass0Release_keeps ok
  | budgetExhausted => exact execBudgetExhausted_keeps ok
  | ghostLightWindow => exact execGhostLightWindow_keeps ok
  | ghostLightAllowanceEnd => exact execGhostLightAllowanceEnd_keeps ok
  | spillDone => exact execSpillDone_keeps ok
  | fillDone => exact execFillDone_keeps ok
  | placementCommit => exact execPlacementCommit_keeps ok
  | placementCompaction => exact execPlacementCompaction_keeps ok
  | placementTimeout => exact execPlacementTimeout_keeps ok
  | priorityLoan => exact execPriorityLoan_keeps ok
  | migration => exact execMigration_keeps ok
  | writeLands | streamPushLand | tstWriteLand | channelArrival =>
    exact onPacket_keeps _ _ (fun _ _ okt => perform_memories _ okt) ok
  | inboundRequest => exact execInboundRequest_keeps ok
  | amoRelease => exact .next (amoRelease_memories _ ok)
  | remoteLoadReturn => exact execRemoteLoadReturn_keeps ok
  | fenceComplete | drainNtComplete | cfenceWComplete => exact release4_keeps _ ok
  | vectorCommit => exact execVectorCommit_keeps ok
  | vectorLoadReturn => exact execVectorLoadReturn_keeps ok
  | streamReadAhead => exact execStreamReadAhead_keeps ok
  | sstopComplete => exact execSstopComplete_keeps ok
  | tileGroup => exact execTileGroup_keeps ok
  | twaitComplete => exact execTwaitComplete_keeps ok
  | tmqPush => exact execTmqPush_keeps ok
  | msRequestAccept => exact execMsRequestAccept_keeps ok
  | msContextStart => exact execMsContextStart_keeps ok
  | msTranslationRefill => exact execMsTranslationRefill_keeps ok
  | msPiece => exact execMsPiece_keeps ok
  | cxlMemCompletion => exact execCxlMemCompletion_keeps ok
  | msCompletion => exact execMsCompletion_keeps ok
  | tileTransferDone => exact execTileTransferDone_keeps ok
  | timerGuard => exact execTimerGuard_keeps ok
  | sleepExpiry => exact execSleepExpiry_keeps ok
  | externalSendRead => exact execExternalSendRead_keeps ok
  | probeSend => exact execProbeSend_keeps ok
  | probeArrival => exact execProbeArrival_keeps ok
  | hearthArrival => exact execHearthArrival_keeps ok
  | linkResend => exact execLinkResend_keeps ok
  | causalDelivery => exact execCausalDelivery_keeps ok
  | columnFlitSend => exact execColumnFlitSend_keeps ok
  | columnFlitReceive => exact execColumnFlitReceive_keeps ok
  | reclockEnd => exact execReclockEnd_keeps ok
  | coreDomainReset => exact execCoreDomainReset_keeps ok
  | coreDomainResetEnd => exact execCoreDomainResetEnd_keeps ok
  | uncoreReset => exact execUncoreReset_keeps ok
  | sceneBlockDone => exact execSceneBlockDone_keeps ok
  | sceneDrainEnd => exact execSceneDrainEnd_keeps ok
  | sceneDrainTimeout => exact execSceneDrainTimeout_keeps ok
  | sceneUnmapDone => exact execSceneUnmapDone_keeps ok
  | edgeLockGrant => exact execEdgeLockGrant_keeps ok
  | sceneTrainDone => exact execSceneTrainDone_keeps ok
  | sceneTrainTimeout => exact execSceneTrainTimeout_keeps ok
  | sceneLinkupDone => exact execSceneLinkupDone_keeps ok
  | sceneReleaseDone => exact execSceneReleaseDone_keeps ok
  | dvfsStep => exact execDvfsStep_keeps ok
  | dvfsStepEnd => exact execDvfsStepEnd_keeps ok
  | uetPacketArrival => exact execUetPacketArrival_keeps ok
  | uetAckSend => exact execUetAckSend_keeps ok
  | uetAckReceive => exact execUetAckReceive_keeps ok
  | uetRetransmitTimeout => exact execUetRetransmitTimeout_keeps ok
  | ualinkInboundRequest => exact execUalinkInboundRequest_keeps ok
  | apertureResponse => exact execApertureResponse_keeps ok
  | hostQueueInbound => exact execHostQueueInbound_keeps ok
  | hostQueueOutbound => exact execHostQueueOutbound_keeps ok
  | queueDoorbell => exact execQueueDoorbell_keeps ok
  | cmdLoad => exact execCmdLoad_keeps ok
  | cmdLaunch => exact execCmdLaunch_keeps ok
  | launchComplete => exact execLaunchComplete_keeps ok
  | cmdEnd => exact execCmdEnd_keeps ok
  | cmdWaitge => exact execCmdWaitge_keeps ok
  | waitgeSatisfied => exact execWaitgeSatisfied_keeps ok
  | cmdSignal => exact execCmdSignal_keeps ok
  | cmdCopy => exact execCmdCopy_keeps ok
  | copyComplete => exact execCopyComplete_keeps ok
  | cmdPin =>
    exact withItem_keeps _ _ (fun h a0 a1 a2 => withRegion_keeps _ _ _ _ (fun n => endingWrites_keeps _ _ _ (fun
    _ _ _ okt e => pin_memories okt e) ok) ok) ok
  | cmdUnpin => exact execCmdUnpin_keeps ok
  | cmdWindow => exact execCmdWindow_keeps ok
  | cmdExtep => exact execCmdExtep_keeps ok
  | cmdHostep => exact execCmdHostep_keeps ok
  | cmdIrq => exact execCmdIrq_keeps ok
  | cmdLoop => exact execCmdLoop_keeps ok
  | cmdIf => exact execCmdIf_keeps ok
  | cmdTrig => exact execCmdTrig_keeps ok
  | triggerWrite => exact execTriggerWrite_keeps ok
  | triggerRun => exact execTriggerRun_keeps ok
  | cmdScene => exact execCmdScene_keeps ok
  | cmdRemove => exact execCmdRemove_keeps ok
  | cmdAdmit => exact execCmdAdmit_keeps ok
  | cmdCue => exact execCmdCue_keeps ok
  | cmdMkey => exact execCmdMkey_keeps ok
  | mkeyKeyholdExpiry => exact execMkeyKeyholdExpiry_keeps ok
  | queueRestart => exact execQueueRestart_keeps ok
  | lifeCycleChange => exact execLifeCycleChange_keeps ok
  | attestationReport => exact execAttestationReport_keeps ok
  | packageReset => exact execPackageReset_keeps ok
  | thermalThrottle => exact .next (askStep_memories _ _ ok)
  | thermalTrip => exact .next (postMachine_memories _ (MemoriesOk.up (haltAll_memories ok)))
  | controlRegisterWrite => exact execControlRegisterWrite_keeps ok
  | unallocatedEncoding => exact execUnallocatedEncoding_keeps ok
  | fetchWindow => exact execFetchWindow_keeps ok
  | edgeGroupRetrain => exact execEdgeGroupRetrain_keeps ok
  | ualinkDomainFormed => exact execUalinkDomainFormed_keeps ok
  | monitorAssignment => exact execMonitorAssignment_keeps ok

/-! The step -/

theorem passing_keeps {o : Out} (units : Nat) (h : OutOk o) : OutOk (passing units o) := by
  cases o with
  | next s =>
    unfold OutOk at h
    exact .next (elapse_memories _ (sequence_memories (h s rfl)))
  | fault f => exact .fault f
  | refused r => exact .refused r

theorem settled_keeps {o : Out} (h : OutOk o) : OutOk (settled o) := by
  cases o with
  | next s =>
    unfold OutOk at h
    exact .next (MemoriesOk.up (h s rfl))
  | fault f => exact .fault f
  | refused r => exact .refused r

theorem stepProc_keeps {s : State} (p : Proc) (ok : MemoriesOk s) : OutOk (stepProc s p) := by
  unfold stepProc
  split
  · split
    case h_1 e => exact exec_keeps _ (fetch_instr_memories ok e)
    case h_2 e => exact exec_keeps _ (MemoriesOk.up (fetch_illegal_memories ok e))
    · exact exec_keeps _ (MemoriesOk.up ok)
  · exact .next ok

theorem stepCore_keeps {s : State} (c : Nat) (ok : MemoriesOk s) : OutOk (stepCore s c) := by
  have okc := refocus_memories c ok
  unfold stepCore
  dsimp only
  split
  · exact .next (elapse_memories _ okc)
  split
  · exact passing_keeps _ (stepProc_keeps _ okc)
  · exact .next (elapse_memories _ okc)

theorem stepThread_keeps {s : State} (n : Nat) (ok : MemoriesOk s) : OutOk (s.stepThread n) := by
  unfold State.stepThread
  split
  · exact .next ok
  split
  · split
    · exact .next (completeItem_memories _ _ (dropStale_memories ok))
    · exact .next ok
  split
  · split
    · exact exec_keeps _ (MemoriesOk.up ok)
    next e => exact .next (itemAction_memories ok e)
  split
  · exact exec_keeps _ (MemoriesOk.up ok)
  · exact .next ok

theorem loadAhead_memories {s : State} (c k : Nat) (ok : MemoriesOk s) : MemoriesOk (s.loadAhead c k) := by
  unfold State.loadAhead
  split
  · exact ok
  split
  · split
    · exact ok
    · exact modCore_memories _ _ ok
  · exact ok

/-- Whatever moves, the memories stay in their canonical form. -/
theorem act_keeps {s : State} (a : Agenda) (ok : MemoriesOk s) : OutOk (act a s) := by
  cases a with
  | core c => exact stepCore_keeps c ok
  | thread t => exact passing_keeps _ (stepThread_keeps t ok)
  | event i subj => exact passing_keeps _ (exec_keeps i (MemoriesOk.up ok))
  | elapse u => exact .next (elapse_memories u ok)
  | halt c => exact .next (managerHalt_memories c ok)
  | prefetch c a => exact .next (prefetch_memories c a ok)
  | part c n => exact settled_keeps (stepCore_keeps c (MemoriesOk.up ok))
  | loadAhead c k => exact .next (loadAhead_memories c k ok)
  | memError a hbm => exact .next (memError_memories a hbm ok)
  | hostWrite f a bs => exact .next (hostWrite_memories f a bs ok)
  | hostQueue f n base entries => exact .next (setHostQueue_memories f n base entries ok)
  | hostTail f n tail => exact .next (hostTail_memories f n tail ok)
  | inbound g ws => exact .next (setInbound_memories g ws ok)
  | peer t n g pkg tx => exact .next (joinPeer_memories t n g pkg tx ok)

theorem step_keeps {s : State} (ok : MemoriesOk s) : OutOk (step s) := by
  unfold step
  split
  · exact act_keeps _ (MemoriesOk.up ok)
  · exact act_keeps _ ok

/-- Settles O9: every operation that a step is made of keeps the canonical form (step_keeps). -/
theorem memoriesStayCanonical : Obligations.MemoriesStayCanonical := by
  intro s t ok e
  have h := step_keeps ok
  unfold OutOk at h
  exact h t e

end Sys2Proof.Machine
end

section
/-! SUPPORT. O7: the hard-wired registers (R17, R74). -/

namespace Sys2Proof.Machine

/-- Settles O7: x0 and p0 by definition, the other registers by what a read gives after a write. -/
theorem hardWiredRegisters : Obligations.HardWiredRegisters := by
  intro p v
  refine ⟨Proc.getX_zero p, Proc.setX_zero p v, Proc.getP_zero p, rfl, ?_, ?_, ?_, ?_⟩
  · intro r hr
    rw [Proc.getX_setX, if_neg hr, if_pos rfl]
  · intro r q hq
    rw [Proc.getX_setX, if_neg hq]
    split
    · rename_i h0
      rw [h0, Proc.getX_zero]
    · rfl
  · intro r hr
    rw [Proc.getP_setP, if_neg hr, if_pos rfl]
  · intro r q hq
    rw [Proc.getP_setP, if_neg hq]
    split
    · rename_i h0
      rw [h0, Proc.getP_zero]
    · rfl

end Sys2Proof.Machine
end

section
/-! SUPPORT. Registers of cores: what reading a core gives after one has been put back. -/

namespace Sys2Proof.Machine

theorem State.core_eq (s : State) (c : Nat) : s.core c = (s.cores.find? (·.id == c)).getD { id := c } := by
  unfold State.core
  split <;> simp [*]

/-- A core is found under its number. -/
@[simp] theorem State.core_id (s : State) (c : Nat) : (s.core c).id = c := by
  rw [State.core_eq]
  cases hk : s.cores.find? (·.id == c) with
  | none => rfl
  | some k => simpa using List.find?_some hk

theorem find?_insertCore_same (k : Core) (l : List Core) (h : ∀ j ∈ l, j.id ≠ k.id) :
    (insertCore k l).find? (·.id == k.id) = some k := by
  induction l with
  | nil => simp [insertCore]
  | cons j r ih =>
    unfold insertCore
    split
    · simp
    · simp [h j (by simp), ih fun x hx => h x (by simp [hx])]

theorem find?_insertCore_other (k : Core) (l : List Core) {c : Nat} (h : c ≠ k.id) :
    (insertCore k l).find? (·.id == c) = l.find? (·.id == c) := by
  have hk : (k.id == c) = false := by simp [Ne.symm h]
  induction l with
  | nil => simp [insertCore, hk]
  | cons j r ih =>
    unfold insertCore
    split
    · simp only [List.find?_cons, hk]
    · simp only [List.find?_cons, ih]

/-- A core reads as it has been put back. -/
theorem State.core_putCore_same (s : State) (k : Core) : (s.putCore k).core k.id = k := by
  have hrest : ∀ j ∈ s.cores.filter (·.id != k.id), j.id ≠ k.id := fun j hj => by simpa using (List.mem_filter.1 hj).2
  rw [State.core_eq, State.putCore]
  by_cases hk : k = { id := k.id }
  · have hnone : (s.cores.filter (·.id != k.id)).find? (·.id == k.id) = none :=
      List.find?_eq_none.2 fun j hj => by simpa using hrest j hj
    simp only [if_pos hk, hnone, Option.getD_none]
    exact hk.symm
  · simp only [if_neg hk, find?_insertCore_same k _ hrest, Option.getD_some]

/-- Every other core stays as it is. -/
theorem State.core_putCore_other (s : State) (k : Core) {c : Nat} (h : c ≠ k.id) : (s.putCore k).core c = s.core c := by
  have hrest : (s.cores.filter (·.id != k.id)).find? (·.id == c) = s.cores.find? (·.id == c) := by
    rw [List.find?_filter]
    congr 1
    funext j
    by_cases hj : j.id = c <;> simp [hj, h]
  rw [State.core_eq, State.core_eq, State.putCore]
  by_cases hk : k = { id := k.id }
  · simp only [if_pos hk, hrest]
  · simp only [if_neg hk, find?_insertCore_other k _ h, hrest]

/-- A change that keeps a core's number is what reading the core gives. -/
theorem State.core_modCore_same (s : State) (c : Nat) (f : Core → Core) (hf : (f (s.core c)).id = c) :
    (s.modCore c f).core c = f (s.core c) := by
  have h := s.core_putCore_same (f (s.core c))
  rwa [hf] at h

theorem State.core_modCore_other (s : State) {c d : Nat} (f : Core → Core) (hf : (f (s.core c)).id = c) (h : d ≠ c) :
    (s.modCore c f).core d = s.core d :=
  s.core_putCore_other _ (by rwa [hf])

/-- A change of a core changes the list of cores only. -/
theorem State.modCore_cores (s : State) (c : Nat) (f : Core → Core) :
    s.modCore c f = { s with cores := (s.modCore c f).cores } := rfl

end Sys2Proof.Machine
end

section
/-! SUPPORT. O6: taking a fault (R53–R57): the process that holds, the core without a requested halt, the way of the record. -/

namespace Sys2Proof.Machine

/-- The state in which a process holds its fault, before the record sets out. -/
def State.holding (s : State) (p : Proc) (r : Record) (len : Option Nat) : State :=
  { s with cpu := none, procs := s.procs ++ [p.hold r len] }.modCore p.core fun k => { k with halt := none }

/-- Taking a fault is holding it, then sending its record out. -/
theorem State.raise_eq_sendRecord {s : State} {p : Proc} (h : s.cpu = some p) (c : Cause) (len : Option Nat)
    (addr d0 d1 : Word) :
    s.raise p c len addr d0 d1 =
      (s.holding p (s.heldRecord p c addr d0 d1) len).sendRecord p.core (s.heldRecord p c addr d0 d1) := by
  have hleft := State.leaveRunning_active (q := p.hold (s.heldRecord p c addr d0 d1) len) h rfl
  simp only [State.raise, hleft, State.holding]

theorem State.core_holding_same (s : State) (p : Proc) (r : Record) (len : Option Nat) :
    (s.holding p r len).core p.core = { s.core p.core with halt := none } :=
  State.core_modCore_same _ _ _ (State.core_id s p.core)

theorem State.core_holding_other (s : State) (p : Proc) (r : Record) (len : Option Nat) {c : Nat} (h : c ≠ p.core) :
    (s.holding p r len).core c = s.core c :=
  State.core_modCore_other _ _ (State.core_id s p.core) h

/-- Without an endpoint a record is posted in the mailbox and in the error ring of its function (R55). -/
theorem State.sendRecord_posts (t : State) (core : Nat) {r : Record} (h : r.via = none) :
    t.sendRecord core r = t.postMachine r := by
  unfold State.sendRecord
  rw [h]

/-- A held record waits at its core while its endpoint has no free slot (R57). -/
theorem State.sendRecord_waits (t : State) (core : Nat) {r : Record} {v : Nat} {ch : Channel} (hv : r.via = some v)
    (hc : t.faultChan v = some ch) (hfull : t.faultSlots v ch ≤ ch.queue.length) (hheld : r.held = true) :
    t.sendRecord core r = t.modCore core fun k => { k with records := k.records ++ [r] } := by
  have hslot : t.slotFree v ch = false := by
    simp only [State.slotFree, decide_eq_false_iff_not]
    omega
  unfold State.sendRecord
  simp only [hv, hc, hslot, hheld, Bool.and_false, Bool.false_eq_true, if_false, Bool.true_or, if_true]

/-- Settles O6: the state before the record sets out is `State.holding`. -/
theorem faultTaken : Obligations.FaultTaken := by
  refine ⟨fun s p c len addr d0 d1 h => ?_, fun s p a code h => ?_⟩
  · refine ⟨s.holding p (s.heldRecord p c addr d0 d1) len, s.heldRecord p c addr d0 d1,
      State.raise_eq_sendRecord h c len addr d0 d1, rfl, rfl, ?_, ?_, ?_, ?_, ?_⟩
    · rw [State.core_holding_same]
    · rw [State.core_holding_same]
    · intro k hk
      exact State.core_holding_other _ _ _ _ hk
    · intro hvia
      exact State.sendRecord_posts _ _ hvia
    · intro v ch hv hc hfull
      rw [State.sendRecord_waits _ _ hv hc hfull rfl]
      exact ⟨rfl, by rw [State.core_modCore_same _ _ _ (State.core_id _ _)]⟩
  · constructor
    · exact State.withProc_active h _
    · exact State.withProc_active h _

end Sys2Proof.Machine
end

section
/-! SUPPORT. O16: a write that lands changes its bytes and the bit of its word (R112, R241). -/

namespace Sys2Proof.Machine

theorem mem_insertAddr {x a : Nat} {l : List Nat} : x ∈ insertAddr a l ↔ x = a ∨ x ∈ l := by
  induction l with
  | nil => simp [insertAddr]
  | cons b r ih =>
    unfold insertAddr
    split
    · simp
    · split
      next hab => simp [hab]
      · simp only [List.mem_cons, ih]
        exact or_left_comm

/-- A full/empty bit reads as it was set last. -/
theorem State.isFull_setFull (s : State) (w : Nat) (full : Bool) (g : Nat) :
    (s.setFull w full).isFull g = if g = w then full else s.isFull g := by
  by_cases hg : g = w
  · cases full <;> simp [State.isFull, State.setFull, mem_insertAddr, eraseAddr, hg]
  · cases full <;> simp [State.isFull, State.setFull, mem_insertAddr, eraseAddr, hg]

/-- Without armed triggers no write counts as one (R378). -/
theorem State.noteTrigger_unarmed {s : State} (h : s.triggers = []) (a : Nat) : s.noteTrigger a = s := by
  simp [State.noteTrigger, h]

/-- Without watches there is nothing to serve (R242). -/
theorem State.serveWatches_none {s : State} (h : s.watches = []) (home : Nat) : s.serveWatches home = s := by
  simp [State.serveWatches, h]

theorem State.noteTrigger_serveWatches_calm {t : State} (hw : t.watches = []) (ht : t.triggers = []) (n a home : Nat) :
    (if n = 0 then t else t.noteTrigger a).serveWatches home = t := by
  rw [State.noteTrigger_unarmed ht, ite_self, State.serveWatches_none hw]

/-- The full/empty bits that a write leaves: its word's takes the bit that the write carries. -/
def WriteEff.bits (w : WriteEff) (s : State) : List Nat :=
  match w.fe with
  | some b => (s.setFull (wordAt w.addr) b).empty
  | none => s.empty

/-- The marks that a write leaves where no error is latent: a write of a whole granule takes the mark away. -/
def WriteEff.marks (w : WriteEff) (s : State) : List Nat :=
  if w.mark then insertAddr (wordAt w.addr) s.marks
  else if w.n == 8 || w.whole then eraseAddr (wordAt w.addr) s.marks else s.marks

/-- A write that meets no watch, trigger or error changes its bytes, the bit of its word and marks, and nothing else. -/
theorem State.applyWrite_calm {s : State} (w : WriteEff) (hw : s.watches = []) (ht : s.triggers = []) (hl : s.latent = []) :
    s.applyWrite w = { s with mem := s.mem.write w.addr w.n w.val, marks := w.marks s, empty := w.bits s } := by
  have hmeets : s.latent.contains (wordAt w.addr) = false := by rw [hl]; rfl
  have herase (c : Bool) : (if c = true then eraseAddr (wordAt w.addr) s.latent else s.latent) = s.latent := by
    simp [hl, eraseAddr]
  unfold State.applyWrite
  simp only [hmeets, Bool.and_false, Bool.false_and, Bool.false_eq_true, if_false, Bool.or_false, herase]
  cases hfe : w.fe with
  | none =>
    simp only [WriteEff.bits, hfe]
    refine State.noteTrigger_serveWatches_calm ?_ ?_ _ _ _
    · exact hw
    · exact ht
  | some b =>
    simp only [WriteEff.bits, hfe]
    refine State.noteTrigger_serveWatches_calm ?_ ?_ _ _ _
    · exact hw
    · exact ht

/-- A bit reads after a write as its word took it from the write, and as before elsewhere. -/
theorem State.isFull_bits {s t : State} (w : WriteEff) (h : t.empty = w.bits s) (g : Nat) :
    t.isFull g = if g = wordAt w.addr then w.fe.getD (s.isFull g) else s.isFull g := by
  cases hfe : w.fe with
  | none =>
    simp only [WriteEff.bits, hfe] at h
    simp only [State.isFull, h, Option.getD_none, ite_self]
  | some b =>
    simp only [WriteEff.bits, hfe] at h
    have hg := s.isFull_setFull (wordAt w.addr) b g
    simp only [State.isFull, Option.getD_some] at hg ⊢
    rw [h, hg]

/-- A write arrives at a home that is there, on a word without requests: it takes effect (R250). -/
theorem State.perform_write {s : State} {q : Packet} {w : WriteEff} (hp : q.payload = .write w)
    (hgone : s.homeGone w.addr = false) (hq : s.queued (wordAt w.addr) = false) : s.perform q = s.applyWrite w := by
  unfold State.perform
  simp [State.requestGone, hp, State.landWrite, hgone, hq]

/-- An event on a packet that may take part performs it on the state without the packet. -/
theorem State.onPacket_performs {s : State} {q : Packet} {ok : Packet → Bool} (f : Packet → State → State)
    (hs : s.packet? (Subject.num s.subj) = some q) (hq : q.queued = false) (hok : ok q = true) :
    s.onPacket ok f = .next (f q (s.dropPacket q.id)) := by
  simp [State.onPacket, hs, hq, hok]

/-- An event that performs the write of a packet changes what the write changes, and the packet is gone. -/
theorem State.onPacket_lands {s : State} {q : Packet} {w : WriteEff} {ok : Packet → Bool} {f : Packet → State → State}
    (hs : s.packet? (Subject.num s.subj) = some q) (hq : q.queued = false) (hok : ok q = true)
    (hf : ∀ t, f q t = t.perform q) (hp : q.payload = .write w) (hgone : s.homeGone w.addr = false)
    (hfree : s.queued (wordAt w.addr) = false) (hw : s.watches = []) (ht : s.triggers = []) (hl : s.latent = []) :
    s.onPacket ok f = .next { s with packets := s.packets.filter (·.id != q.id), mem := s.mem.write w.addr w.n w.val
                                     marks := w.marks s, empty := w.bits s } := by
  rw [State.onPacket_performs f hs hq hok, hf, State.perform_write (s := s.dropPacket q.id) hp hgone hfree,
    State.applyWrite_calm (s := s.dropPacket q.id) w hw ht hl]
  rfl

/-- Settles O16: each of the four events performs the write (`State.onPacket_lands`). -/
theorem writesLand : Obligations.WritesLand := by
  intro s q w hq hp hqueued hmay hwf hgone hfree hwatches htrig hlatent lands
  have performed (i : Instr) (ok : Packet → Bool) (f : Packet → State → State)
      (hi : exec i { s with subj := .id q.id } = State.onPacket { s with subj := .id q.id } ok f) (hok : ok q = true)
      (hf : ∀ t, f q t = t.perform q) : lands i :=
    ⟨_, hi.trans (State.onPacket_lands hq hqueued hok hf hp hgone hfree hwatches htrig hlatent),
      fun k hk => Memory.get_write _ _ _ _ hk hwf, fun b hb => Memory.get_write_other hb hwf,
      State.isFull_bits w rfl, rfl, rfl, rfl, rfl⟩
  have hland : ({ s with subj := .id q.id } : State).mayLand q = true := hmay
  refine ⟨fun hpath hkind => ?_, fun hpath hkind => ?_, fun i hkind hpath => ?_, fun hkind hpath => ?_⟩
  · refine performed .writeLands _ _ (show execWriteLands _ = _ from rfl) ?_ fun _ => rfl
    rcases hkind with hk | hk | hk <;> simp [hpath, hp, hk, hland, Payload.isWrite]
  · refine performed .inboundRequest _ _ (show execInboundRequest _ = _ from rfl) ?_ ?_
    · rcases hkind with hk | hk | hk <;> simp [hpath, hp, hk, hland, Payload.toAnchor]
    · intro t
      simp only [hp]
  · refine performed .streamPushLand _ _ (show execStreamPushLand _ = _ from rfl) ?_ fun _ => rfl
    rcases hpath with h | h <;> simp [h, hkind, hland]
  · refine performed .tstWriteLand _ _ (show execTstWriteLand _ = _ from rfl) ?_ fun _ => rfl
    simp [hkind, hpath, hland]

end Sys2Proof.Machine
end

section
/-! SUPPORT. O60: a machine with one thread of the barrel core. What putting the thread back, the command in progress and the
end of its item make of it. -/

namespace Sys2Proof.Machine

theorem State.thread?_single {s : State} {t : Thread} (hs : s.threads = [t]) : s.thread? t.num = some t := by
  simp [State.thread?, hs]

theorem State.putThread_single {s : State} {t u : Thread} (hs : s.threads = [t]) (hu : t.num = u.num) :
    s.putThread u = { s with threads := [u] } := by
  simp [State.putThread, hs, hu]

theorem State.modThread_single {s : State} {t : Thread} {n : Nat} {f : Thread → Thread} (hs : s.threads = [t])
    (hn : n = t.num) (hf : t.num = (f t).num) : s.modThread n f = { s with threads := [f t] } := by
  subst hn
  simp only [State.modThread, State.thread?_single hs, State.putThread_single hs hf]

@[simp] theorem busyWith_num (t : Thread) (h : ItemHdr) (p : Pending) : (busyWith t h p).num = t.num := by
  unfold busyWith
  split <;> rfl

@[simp] theorem busyWith_region (t : Thread) (h : ItemHdr) (p : Pending) : (busyWith t h p).region = t.region := by
  unfold busyWith
  split <;> rfl

@[simp] theorem headAt_num (t : Thread) (h : ItemHdr) (n : Nat) : (headAt t h n).num = t.num := by
  unfold headAt
  split <;> rfl

theorem Thread.advance_eq_headAt (t : Thread) (h : ItemHdr) : t.advance h = headAt t h (h.pos + 1) := rfl

/-- Behind an item nothing is left of its command in progress. -/
theorem headAt_busyWith (t : Thread) (h : ItemHdr) (p : Pending) (n : Nat) :
    headAt (busyWith t h p) h n = headAt t h n := by
  unfold headAt busyWith
  split
  · simp [Option.map_map, Function.comp_def]
  · rfl

/-- The command that a thread runs is the one in progress. -/
theorem State.curOf_busyWith {s : State} {t : Thread} {h : ItemHdr} {p : Pending} (hs : s.threads = [busyWith t h p])
    (hr : t.sub.isSome = h.resident) : s.curOf t.num = some { hdr := h, pending := p } := by
  have hth : s.thread? t.num = some (busyWith t h p) := by
    have := State.thread?_single hs
    rwa [busyWith_num] at this
  rw [State.curOf, hth, Option.bind_some, busyWith]
  cases hsub : t.sub with
  | none => simp [← hr, hsub]
  | some r => simp [← hr, hsub]

/-- The item of the one thread completes without a POSTSEM: the thread goes on behind it. -/
theorem State.completeItem_single {s : State} {t : Thread} {h : ItemHdr} (op : Nat) (hs : s.threads = [t])
    (ht : h.thread = t.num) (hpost : h.postsem = 0xFFFF) :
    s.completeItem h op = { s with threads := [headAt t h (h.pos + 1)] } := by
  simp only [State.completeItem, hpost, if_true]
  exact State.modThread_single hs ht (headAt_num _ _ _).symm

/-- The same of a command in progress. -/
theorem State.completeItem_busy {s : State} {t : Thread} {h : ItemHdr} {p : Pending} (op : Nat)
    (hs : s.threads = [busyWith t h p]) (ht : h.thread = t.num) (hpost : h.postsem = 0xFFFF) :
    s.completeItem h op = { s with threads := [headAt t h (h.pos + 1)] } := by
  rw [State.completeItem_single op hs (by rw [ht, busyWith_num]) hpost, headAt_busyWith]

/-- A command in progress fails: a record, and the thread stops behind the item (R373). -/
theorem State.failCmd_busy {s : State} {t : Thread} {h : ItemHdr} {p : Pending} (op : Nat) (e : Fail)
    (hs : s.threads = [busyWith t h p]) (ht : h.thread = t.num) :
    ∃ r : Record, s.failCmd h op e =
        { s with free := s.free + 1, mailbox := s.mailbox ++ [r], errorRings := (s.failCmd h op e).errorRings
                 threads := [{ headAt t h (h.pos + 1) with stopped := h.thread != 0 }] } ∧
      r.cause = e.1 ∧ r.pc = h.pc ∧ r.region = t.region := by
  let u : State := { s with free := s.free + 1 }
  let r := u.itemRecord h e.1 (e.2.1.getD op) (e.2.2.getD (Config.detail s.free).toNat)
  have hregion : r.region = t.region := by
    have hth : u.thread? h.thread = some (busyWith t h p) := by
      have := State.thread?_single (s := u) hs
      rwa [busyWith_num, ← ht] at this
    simp only [r, State.itemRecord, State.threadRegion, hth, Option.map_some, Option.getD_some, busyWith_region]
  have hfail : s.failCmd h op e = { u.postFor (u.threadFn h.thread) r with
      threads := [{ (busyWith t h p).advance h with stopped := h.thread != 0 }] } :=
    State.modThread_single (s := u.postFor (u.threadFn h.thread) r) hs (by rw [ht, busyWith_num]) (headAt_num _ _ _).symm
  rw [Thread.advance_eq_headAt, headAt_busyWith] at hfail
  exact ⟨r, by rw [hfail]; rfl, rfl, rfl, hregion⟩

end Sys2Proof.Machine
end

section
/-! SUPPORT. O60: queues, triggers, and the commands in progress that complete or fail (R369, R372–R378, R386). -/

namespace Sys2Proof.Machine

/-! Queues (R369, R373) -/

theorem execQueueDoorbell_single {s : State} {t : Thread} {n : Nat} (hs : s.threads = [t])
    (hsubj : s.subj = .pair t.num n) (h0 : t.num ≠ 0) (hroom : t.waiting + n ≤ 2 ^ t.ringLog) :
    execQueueDoorbell s = .next { s with threads := [{ t with
      tail := t.tail + n, items := t.items ++ (List.range n).map fun i => QItem.ring (t.tail + i) }] } := by
  have hno : ¬(t.num = 0 ∨ 2 ^ t.ringLog < t.waiting + n) := by omega
  have hnum : Subject.num s.subj = t.num := by rw [hsubj]; rfl
  have hsecond : Subject.second s.subj = n := by rw [hsubj]; rfl
  simp only [execQueueDoorbell, hnum, hsecond, State.thread?_single hs, if_neg hno]
  exact congrArg _ (State.putThread_single hs (by rfl))

theorem execQueueRestart_single {s : State} {t : Thread} (hs : s.threads = [t]) (hsubj : s.subj = .id t.num)
    (hstop : t.stopped = true) : execQueueRestart s = .next { s with threads := [{ t with stopped := false }] } := by
  have hnum : Subject.num s.subj = t.num := by rw [hsubj]; rfl
  simp only [execQueueRestart, hnum, State.thread?_single hs, hstop, if_true]
  exact congrArg _ (State.putThread_single hs (by rfl))

/-! Triggers (R378) -/

theorem State.setPending_single {s : State} {g : Trigger} (n : Nat) (hg : s.triggers = [g]) :
    s.setPending g.k n = { s with triggers := [{ g with pending := n }] } := by
  simp [State.setPending, hg]

theorem execTriggerWrite_counts {s : State} {g : Trigger} (hg : s.triggers = [g]) (hw : s.trigWrites = [g.k])
    (hsubj : s.subj = .id g.k) (hp : g.pending < 255) :
    execTriggerWrite s = .next { s with trigWrites := [], triggers := [{ g with pending := g.pending + 1 }] } := by
  have hnum : Subject.num s.subj = g.k := by rw [hsubj]; rfl
  simp [execTriggerWrite, State.setPending, hnum, hw, hg, hp]

theorem execTriggerRun_begins {s : State} {t : Thread} {g : Trigger} (hs : s.threads = [t]) (hg : s.triggers = [g])
    (hsubj : s.subj = .pair t.num g.k) (hstop : t.stopped = false) (hthread : g.thread = t.num) (hsub : t.sub = none)
    (hidle : t.idle = true) (hp : g.pending ≠ 0) :
    execTriggerRun s = .next { s with threads := [{ t with sub := some {
      k := g.k, list := g.list, count := g.count, pos := 0, cur := none } }] } := by
  have hfind : s.triggers.find? (·.k == g.k) = some g := by simp [hg]
  have hbusy : s.threads.any (fun u => u.sub.any (·.k == g.k)) = false := by simp [hs, hsub]
  have hnum : Subject.num s.subj = t.num := by rw [hsubj]; rfl
  have hsecond : Subject.second s.subj = g.k := by rw [hsubj]; rfl
  simp only [execTriggerRun, hnum, hsecond, State.thread?_single hs, hstop, hsub, hfind,
    Bool.false_eq_true, if_false, State.beginRun, hthread, hidle, hbusy, hp, ne_eq, not_true_eq_false, Bool.true_eq_false,
    or_self]
  exact congrArg _ (State.putThread_single hs (by rfl))

theorem State.endRun_single {s : State} {t : Thread} {g : Trigger} {r : SubRun} (hs : s.threads = [t])
    (hg : s.triggers = [g]) (hk : r.k = g.k) (hthread : g.thread = t.num) (hcur : r.cur = none) (hpos : r.count ≤ r.pos) :
    s.endRun t r = { s with threads := [{ t with sub := none }], triggers := [{ g with pending := g.pending - 1 }] } := by
  have hput : s.putThread { t with sub := none } = { s with threads := [{ t with sub := none }] } :=
    State.putThread_single hs rfl
  have hfind : s.triggers.find? (·.k == g.k) = some g := by simp [hg]
  have hover : ¬r.pos < r.count := by omega
  simp only [State.endRun, hcur, Option.isSome_none, Bool.false_eq_true, hover, or_self, if_false, hput, hk, hfind,
    if_pos hthread]
  exact State.setPending_single (s := { s with threads := [{ t with sub := none }] }) _ hg

theorem execTriggerRun_ends {s : State} {t : Thread} {g : Trigger} {l n pos : Nat} (hs : s.threads = [t])
    (hg : s.triggers = [g]) (hsubj : s.subj = .pair t.num g.k) (hstop : t.stopped = false) (hthread : g.thread = t.num)
    (hsub : t.sub = some { k := g.k, list := l, count := n, pos := pos, cur := none }) (hpos : n ≤ pos) :
    execTriggerRun s = .next { s with threads := [{ t with sub := none }]
                                      triggers := [{ g with pending := g.pending - 1 }] } := by
  have hnum : Subject.num s.subj = t.num := by rw [hsubj]; rfl
  have hsecond : Subject.second s.subj = g.k := by rw [hsubj]; rfl
  rw [← State.endRun_single (r := { k := g.k, list := l, count := n, pos := pos, cur := none }) hs hg rfl hthread rfl hpos]
  simp only [execTriggerRun, hnum, hsecond, State.thread?_single hs, hstop, hsub, Bool.false_eq_true, if_false, if_true]

/-! Commands in progress -/

section
variable {s : State} {t : Thread} {h : ItemHdr} {p : Pending}

theorem execWaitgeSatisfied_completes {k : Nat} {v : Word} {met : Bool} (hs : s.threads = [busyWith t h (.waitge k v met)])
    (ht : h.thread = t.num) (hr : t.sub.isSome = h.resident) (hpost : h.postsem = 0xFFFF) (hsubj : s.subj = .id t.num)
    (hmet : met = true ∨ v.toNat ≤ s.sems.get k) : ItemCompletes .waitgeSatisfied s s t h := by
  show execWaitgeSatisfied s = _
  have hnum : Subject.num s.subj = t.num := by rw [hsubj]; rfl
  simp only [execWaitgeSatisfied, hnum, State.curOf_busyWith hs hr, hmet, if_true,
    State.completeItem_busy _ hs ht hpost]

theorem execMkeyKeyholdExpiry_completes {g i base len : Nat} {rw rr : Bool}
    (hs : s.threads = [busyWith t h (.mkey g i base len rw rr)]) (ht : h.thread = t.num) (hr : t.sub.isSome = h.resident)
    (hpost : h.postsem = 0xFFFF) (hsubj : s.subj = .id t.num) (hpers : (s.group g).pers = 3)
    (hvalid : ((s.group g).keyOf i).valid = false) (hover : s.holdOver (s.group g) ((s.group g).keyOf i) = true) :
    ItemCompletes .mkeyKeyholdExpiry s (s.register g i base len rw rr) t h := by
  show execMkeyKeyholdExpiry s = _
  have hreg : (s.register g i base len rw rr).threads = [busyWith t h (.mkey g i base len rw rr)] := hs
  have hnum : Subject.num s.subj = t.num := by rw [hsubj]; rfl
  simp only [execMkeyKeyholdExpiry, hnum, State.curOf_busyWith hs hr, hpers, hvalid, hover, ne_eq,
    not_true_eq_false, if_false, Bool.false_eq_true, if_true, State.completeItem_busy _ hreg ht hpost]

/-- A failed placement ends the LAUNCH with SPAWN (R50, R386). -/
theorem execLaunchComplete_fails {pids ids : List Nat} {wait : Bool} {after : List (Nat × Nat)} {m reason owner : Nat}
    {raises : List Raise} (hs : s.threads = [busyWith t h (.launch pids ids wait after (some (m, reason)) owner raises)])
    (ht : h.thread = t.num) (hr : t.sub.isSome = h.resident) (hsubj : s.subj = .id t.num) :
    ItemFails .launchComplete s t h .spawn := by
  obtain ⟨r, hfail, hcause, hpc, hregion⟩ := State.failCmd_busy 0x02 (s.launchFailure pids wait m reason) hs ht
  refine ⟨_, r, ?_, hfail, hcause, hpc, hregion⟩
  show execLaunchComplete s = _
  have hnum : Subject.num s.subj = t.num := by rw [hsubj]; rfl
  simp only [execLaunchComplete, hnum, State.curOf_busyWith hs hr]

/-- Items behind the one in progress leave it in progress. -/
theorem busyWith_items (l : List QItem) : { busyWith t h p with items := (busyWith t h p).items ++ l } =
    busyWith { t with items := t.items ++ l } h p := by
  unfold busyWith
  split <;> rfl

/-- Items appended to the queue of the one thread. -/
theorem State.appendItems_single {after : List (Nat × Nat)} (hs : s.threads = [t]) (ha : ∀ x ∈ after, x.1 = t.num) :
    s.appendItems after =
      { s with threads := [{ t with items := t.items ++ after.map fun x => QItem.book x.2 }] } := by
  induction after generalizing s t with
  | nil => simp [State.appendItems, ← hs]
  | cons x xs ih =>
    have hx : s.modThread x.1 (fun q => { q with items := q.items ++ [.book x.2] }) =
        { s with threads := [{ t with items := t.items ++ [.book x.2] }] } :=
      State.modThread_single hs (ha x (by simp)) rfl
    have hxs := ih (s := { s with threads := [{ t with items := t.items ++ [.book x.2] }] }) rfl
      fun y hy => ha y (by simp [hy])
    simp only [State.appendItems, List.foldl_cons, hx] at hxs ⊢
    rw [hxs]
    simp

/-- The instances of a LAUNCH with WAIT have exited in order, and their accesses have been performed (R374, R386). -/
def State.LaunchOver (s : State) (pids : List Nat) : Prop :=
  ∀ m ∈ pids, (∃ p, s.proc? m = some p ∧ p.st = .exited ∧ p.ending = .exited ∧ p.ran = true) ∧
    (∀ q ∈ s.packets, q.pid = m → q.kind = .reply) ∧ ∀ r ∈ s.requests, r.pid ≠ m

theorem State.firstBroken_over {pids : List Nat} (ho : s.LaunchOver pids) : s.firstBroken pids = none := by
  refine List.find?_eq_none.2 fun m hm => ?_
  obtain ⟨⟨p, hp, hst, hend, hran⟩, -⟩ := ho m hm
  simp [hp, Proc.broken, hst, hend, hran]

theorem State.allExited_over {pids : List Nat} (ho : s.LaunchOver pids) : s.allExited pids = true := by
  refine List.all_eq_true.2 fun m hm => ?_
  obtain ⟨⟨p, hp, hst, -⟩, -⟩ := ho m hm
  simp [hp, hst]

theorem State.accessesOf_over {pids : List Nat} (ho : s.LaunchOver pids) : s.accessesOf pids = false := by
  rw [State.accessesOf, Bool.or_eq_false_iff, List.any_eq_false, List.any_eq_false]
  constructor
  · intro q hq hc
    simp only [Bool.and_eq_true, List.contains_iff_mem, bne_iff_ne, ne_eq] at hc
    obtain ⟨-, hreply, -⟩ := ho q.pid hc.1
    exact hc.2 (hreply q hq rfl)
  · intro r hr hc
    obtain ⟨-, -, hreq⟩ := ho r.pid (List.contains_iff_mem.1 hc)
    exact hreq r hr rfl

theorem execLaunchComplete_completes {pids ids : List Nat} {wait : Bool} {after : List (Nat × Nat)} {owner : Nat}
    (hs : s.threads = [busyWith t h (.launch pids ids wait after none owner [])]) (ht : h.thread = t.num)
    (hr : t.sub.isSome = h.resident) (hpost : h.postsem = 0xFFFF) (hsubj : s.subj = .id t.num) (hpl : s.placements = [])
    (ha : ∀ x ∈ after, x.1 = t.num) (hbusy : s.engineBusy owner = false) (ho : wait = true → s.LaunchOver pids) :
    ItemCompletes .launchComplete s s.dropStale
      { t with items := t.items ++ after.map fun x => QItem.book x.2 } h := by
  have hbroken : (if wait = true then s.firstBroken pids else none) = none := by
    split
    next hw => exact State.firstBroken_over (ho hw)
    · rfl
  have hwaits : ¬((s.placements.any fun pl => ids.contains pl.id) = true ∨
      (wait = true ∧ (s.allExited pids = false ∨ s.accessesOf pids = true))) := by
    rintro (hany | ⟨hw, hex | hacc⟩)
    · simp [hpl] at hany
    · simp [State.allExited_over (ho hw)] at hex
    · simp [State.accessesOf_over (ho hw)] at hacc
  have hnum : Subject.num s.subj = t.num := by rw [hsubj]; rfl
  have happended : s.dropStale.appendItems after = { s.dropStale with threads := [busyWith
      { t with items := t.items ++ after.map fun x => QItem.book x.2 } h (.launch pids ids wait after none owner [])] } := by
    rw [State.appendItems_single (s := s.dropStale) hs (by simpa using ha), busyWith_items]
  show execLaunchComplete s = _
  simp only [execLaunchComplete, hnum, State.curOf_busyWith hs hr, hbusy, Bool.false_eq_true, if_false, ne_eq,
    not_true_eq_false, hbroken, hwaits, happended]
  exact congrArg _ (State.completeItem_busy (s := { s.dropStale with threads := [busyWith
    { t with items := t.items ++ after.map fun x => QItem.book x.2 } h (.launch pids ids wait after none owner [])] })
    0x02 (by rfl) ht hpost)

end

end Sys2Proof.Machine
end

section
/-! SUPPORT. O60: what the stage manager writes to calm memory near it (R335), COPY (R374), and the increase that follows the
writes of a LAUNCH (R376). -/

namespace Sys2Proof.Machine

/-! Bytes as numbers and runs -/

/-- Bytes written as the number that they make. -/
theorem Memory.write_ofBytes (m : Memory) (a : Nat) (bs : List Byte) :
    m.write a bs.length (ofBytes bs) = m.writeBytes a bs := by
  induction bs generalizing m a with
  | nil => rfl
  | cons b r ih =>
    have hbyte : BitVec.ofNat 8 (b.toNat + 256 * ofBytes r) = b := by
      apply BitVec.eq_of_toNat_eq
      have := b.isLt
      simp only [BitVec.toNat_ofNat]
      omega
    have hrest : (b.toNat + 256 * ofBytes r) / 256 = ofBytes r := by
      have := b.isLt
      omega
    simp only [List.length_cons, ofBytes, Memory.write, Memory.writeBytes, hbyte, hrest, ih]

theorem Memory.writeBytes_append (m : Memory) (a : Nat) (bs cs : List Byte) :
    m.writeBytes a (bs ++ cs) = (m.writeBytes a bs).writeBytes (a + bs.length) cs := by
  induction bs generalizing m a with
  | nil => rfl
  | cons b r ih =>
    simp only [List.cons_append, Memory.writeBytes, ih, List.length_cons]
    congr 1
    omega

theorem Memory.get_writeBytes_other {m : Memory} {a x : Nat} {bs : List Byte} (hx : x < a ∨ a + bs.length ≤ x)
    (h : m.wf = true) : (m.writeBytes a bs).get x = m.get x := by
  rw [← Memory.write_ofBytes, Memory.get_write_other hx h]

/-- The bytes of a range written to another. -/
theorem Memory.get_writeBytes_bytes {m k : Memory} {a b n j : Nat} (hj : j < n) (h : m.wf = true) :
    (m.writeBytes b (k.bytes a n)).get (b + j) = k.get (a + j) := by
  induction n generalizing m a b j with
  | zero => omega
  | succ n ih =>
    simp only [Memory.bytes, Memory.writeBytes]
    cases j with
    | zero =>
      rw [Memory.get_writeBytes_other (Or.inl (by omega)) (Memory.set_wf b _ h), Nat.add_zero, Memory.get_set_self _ _ h,
        Nat.add_zero]
    | succ j =>
      have := ih (a := a + 1) (b := b + 1) (j := j) (by omega) (Memory.set_wf b (k.get a) h)
      rwa [Nat.add_assoc, Nat.add_comm 1 j, Nat.add_assoc, Nat.add_comm 1 j] at this

@[simp] theorem Memory.bytes_length (m : Memory) (a n : Nat) : (m.bytes a n).length = n := by
  induction n generalizing a with
  | zero => rfl
  | succ n ih => simp [Memory.bytes, ih]

theorem withMarks_none (m : Memory) (a n : Nat) : withMarks m [] a n = goodBytes (m.bytes a n) := by
  refine List.ext_getElem (by simp [withMarks, goodBytes]) fun i h1 h2 => ?_
  simp [withMarks, goodBytes]

@[simp] theorem goodBytes_fst (bs : List Byte) : (goodBytes bs).map (·.1) = bs := by
  simp [goodBytes, List.map_map, Function.comp_def]

/-! Writes near the stage manager -/

/-- Nothing meets a write of the stage manager to the bytes of a range on die 0. -/
structure State.QuietAt (s : State) (a n : Nat) : Prop where
  rsvs : s.rsvs = []
  watches : s.watches = []
  triggers : s.triggers = []
  marks : s.marks = []
  latent : s.latent = []
  wf : s.mem.wf = true
  near : NearDie0 s a n

theorem State.QuietAt.of_calm {s : State} {a n : Nat} (hc : Calm s) (hn : NearDie0 s a n) : s.QuietAt a n := by
  obtain ⟨hr, hw, ht, hma, hl, -, -, hok, -⟩ := hc
  exact ⟨hr, hw, ht, hma, hl, hok, hn⟩

/-- The range stays quiet when memory changes. -/
theorem State.QuietAt.next {s : State} {a n : Nat} {m : Memory} (k : Nat) (hq : s.QuietAt a n) (hm : m.wf = true) :
    ({ s with mem := m, nextId := k } : State).QuietAt a n :=
  ⟨hq.rsvs, hq.watches, hq.triggers, hq.marks, hq.latent, hm, hq.near⟩

/-- A part of a quiet range is quiet. -/
theorem State.QuietAt.part {s : State} {a n b k : Nat} (hq : s.QuietAt a n) (hb : a ≤ b) (hk : b + k ≤ a + n) :
    s.QuietAt b k := by
  obtain ⟨hp, ha, hnear⟩ := hq.near
  exact { hq with near := ⟨hp, Nat.le_trans ha hb, fun x h1 h2 => hnear x (by omega) (by omega)⟩ }

/-- A word of the stage manager lands at once. -/
theorem State.engineWrite_quiet {s : State} {w : WriteEff} {region owner : Nat} (hq : s.QuietAt w.addr w.n) (hn : w.n ≠ 0)
    (hfe : w.fe = none) (hmark : w.mark = false) : s.engineWrite 0 w none region owner =
      { s with mem := s.mem.write w.addr w.n w.val, nextId := s.nextId + 1 } := by
  obtain ⟨-, ha, hnear⟩ := hq.near
  obtain ⟨hdie, hgone⟩ := hnear w.addr (Nat.le_refl _) (by omega)
  have hrow : ¬(0x2000000000 ≤ w.addr ∧ w.addr < 0x4000000000) := by omega
  have hgone' : ({ s with nextId := s.nextId + 1 } : State).homeGone w.addr = false := hgone
  have hqueued : ({ s with nextId := s.nextId + 1 } : State).queued (wordAt w.addr) = false := by
    simp [State.queued, hq.rsvs]
  have hmarks : w.marks { s with nextId := s.nextId + 1 } = s.marks := by
    simp [WriteEff.marks, hmark, hq.marks, eraseAddr]
  have hbits : w.bits { s with nextId := s.nextId + 1 } = s.empty := by simp [WriteEff.bits, hfe]
  have happly := State.applyWrite_calm (s := { s with nextId := s.nextId + 1 }) w hq.watches hq.triggers hq.latent
  rw [hmarks, hbits] at happly
  simp only [State.engineWrite, State.freshId, if_neg hrow, hdie, true_or, if_true, State.landEngine, hgone',
    Bool.false_eq_true, if_false, State.landWrite, hqueued, happly]

/-- The part of the bytes in the first word, and the rest. -/
theorem State.smBytes_succ {s : State} {a region owner fuel : Nat} {bs : List Byte} (hbs : bs ≠ [])
    (hq : s.QuietAt a bs.length) : s.smBytes owner region a (fuel + 1) (goodBytes bs) =
      State.smBytes { s with mem := s.mem.writeBytes a (wordPart a bs), nextId := s.nextId + 1 } owner region
        (a + (wordPart a bs).length) fuel (goodBytes (bs.drop (wordPart a bs).length)) := by
  have hlen : bs.length ≠ 0 := fun h => hbs (List.eq_nil_of_length_eq_zero h)
  have hpart : (wordPart a bs).length = min (8 - a % 8) bs.length := List.length_take
  have hwrite := State.engineWrite_quiet (s := s) (region := region) (owner := owner) (w := {
    addr := a, n := (wordPart a bs).length, val := ofBytes (wordPart a bs), fe := none, mark := false })
    (hq.part (Nat.le_refl _) (by simp only [hpart]; omega)) (by simp only [hpart]; omega) rfl rfl
  rw [Memory.write_ofBytes] at hwrite
  have htake : (goodBytes bs).take (8 - a % 8) = goodBytes (wordPart a bs) := List.map_take.symm
  have hany : (goodBytes (wordPart a bs)).any (·.2) = false := by simp [goodBytes]
  have hempty : (goodBytes bs).isEmpty = false := by simpa [goodBytes] using hbs
  have hglen : (goodBytes (wordPart a bs)).length = (wordPart a bs).length := by simp [goodBytes]
  simp only [State.smBytes, hempty, Bool.false_eq_true, if_false, htake, hglen, goodBytes_fst, hany, hwrite]
  simp only [goodBytes, List.map_drop]

/-- Bytes of the stage manager land at once. -/
theorem State.smBytes_quiet {s : State} {a region owner fuel : Nat} {bs : List Byte} (hq : s.QuietAt a bs.length)
    (hfuel : bs.length ≤ fuel) : ∃ k, s.smBytes owner region a fuel (goodBytes bs) =
      { s with mem := s.mem.writeBytes a bs, nextId := k } := by
  induction fuel generalizing s a bs with
  | zero =>
    obtain rfl : bs = [] := List.eq_nil_of_length_eq_zero (by omega)
    exact ⟨_, rfl⟩
  | succ fuel ih =>
    by_cases hbs : bs = []
    · subst hbs
      exact ⟨_, rfl⟩
    have hlen : bs.length ≠ 0 := fun h => hbs (List.eq_nil_of_length_eq_zero h)
    have hpart : (wordPart a bs).length = min (8 - a % 8) bs.length := List.length_take
    have hrest := (hq.next (s.nextId + 1) (Memory.writeBytes_wf a (wordPart a bs) hq.wf)).part
      (b := a + (wordPart a bs).length) (k := (bs.drop (wordPart a bs).length).length) (by omega)
      (by rw [List.length_drop]; omega)
    obtain ⟨k, hk⟩ := ih hrest (by rw [List.length_drop]; omega)
    have hsplit : wordPart a bs ++ bs.drop (wordPart a bs).length = bs :=
      List.prefix_iff_eq_append.1 (List.take_prefix _ _)
    refine ⟨k, ?_⟩
    rw [State.smBytes_succ hbs hq, hk, ← Memory.writeBytes_append, hsplit]

theorem State.smWrite_quiet {s : State} {a region owner : Nat} {bs : List Byte} (hq : s.QuietAt a bs.length) :
    ∃ k, s.smWrite owner region a (goodBytes bs) = { s with mem := s.mem.writeBytes a bs, nextId := k } :=
  State.smBytes_quiet hq (by simp [goodBytes])

/-! COPY (R374) -/

/-- Words copied near the stage manager, between ranges of `len` bytes that do not meet. -/
theorem State.copyWords_quiet {s : State} {a b len owner region i n : Nat} (hq : s.QuietAt b len)
    (hapart : a + len ≤ b ∨ b + len ≤ a) (hlen : i + 8 * n ≤ len) :
    ∃ m k, s.copyWords owner region (.mem a) (.mem b) i n = { s with mem := m, nextId := k } ∧
      (∀ j, i ≤ j → j < i + 8 * n → m.get (b + j) = s.mem.get (a + j)) ∧
      ∀ x, x < b + i ∨ b + i + 8 * n ≤ x → m.get x = s.mem.get x := by
  induction n generalizing s i with
  | zero => exact ⟨_, _, rfl, fun j h1 h2 => absurd h2 (by omega), fun _ _ => rfl⟩
  | succ n ih =>
    let m₁ := s.mem.writeBytes (b + i) (s.mem.bytes (a + i) 8)
    have hread : s.readPlace (.mem a) i 8 = goodBytes (s.mem.bytes (a + i) 8) := by
      simp [State.readPlace, hq.marks, hq.latent, withMarks_none]
    obtain ⟨k, hk⟩ := State.smWrite_quiet (region := region) (owner := owner) (bs := s.mem.bytes (a + i) 8)
      (hq.part (b := b + i) (k := (s.mem.bytes (a + i) 8).length) (by omega) (by simp; omega))
    have hwf : m₁.wf = true := Memory.writeBytes_wf _ _ hq.wf
    have hother (x : Nat) (hx : x < b + i ∨ b + i + 8 ≤ x) : m₁.get x = s.mem.get x :=
      Memory.get_writeBytes_other (by simpa using hx) hq.wf
    obtain ⟨m, k', heq, hin, hout⟩ := ih (i := i + 8) (hq.next k hwf) (by omega)
    refine ⟨m, k', ?_, fun j h1 h2 => ?_, fun x hx => ?_⟩
    · rw [State.copyWords, hread, State.writePlace, hk, heq]
    · by_cases hj : j < i + 8
      · have hbyte := Memory.get_writeBytes_bytes (m := s.mem) (k := s.mem) (a := a + i) (b := b + i) (j := j - i) (n := 8)
          (by omega) hq.wf
        rw [show b + i + (j - i) = b + j by omega, show a + i + (j - i) = a + j by omega] at hbyte
        rw [hout (b + j) (by omega)]
        exact hbyte
      · rw [hin j (by omega) (by omega)]
        exact hother (a + j) (by omega)
    · rw [hout x (by omega)]
      exact hother x (by omega)

/-- COPY between ranges that do not meet: its bytes are written, and the item completes. -/
theorem execCopyComplete_copies {s : State} {t : Thread} {h : ItemHdr} {src dst : Word} {len owner a b : Nat}
    (hs : s.threads = [busyWith t h (.copy src dst len 0 owner)]) (ht : h.thread = t.num)
    (hr : t.sub.isSome = h.resident) (hpost : h.postsem = 0xFFFF) (hsubj : s.subj = .id t.num) (hlen : len % 8 = 0)
    (hq : s.QuietAt b len) (hapart : a + len ≤ b ∨ b + len ≤ a) (hsrc : s.place h.thread src len false 1 = .ok (.mem a))
    (hdst : s.place h.thread dst len true 2 = .ok (.mem b)) :
    ∃ m n, exec .copyComplete s = .next { s with mem := m, nextId := n, threads := [headAt t h (h.pos + 1)] } ∧
      (∀ k, k < len → m.get (b + k) = s.mem.get (a + k)) ∧ ∀ x, x < b ∨ b + len ≤ x → m.get x = s.mem.get x := by
  obtain ⟨m, n, hcopy, hin, hout⟩ := State.copyWords_quiet (a := a) (owner := owner) (region := s.threadRegion h.thread)
    (i := 0) (n := len / 8) hq hapart (by omega)
  refine ⟨m, n, ?_, fun k hk => hin k (by omega) (by omega), fun x hx => hout x (by omega)⟩
  have hnum : Subject.num s.subj = t.num := by rw [hsubj]; rfl
  have hsecond : Subject.second s.subj = 0 := by rw [hsubj]; rfl
  have hbusy : ({ s with mem := m, nextId := n } : State).engineBusy owner = false := by
    simp [State.engineBusy, hq.near.1]
  show execCopyComplete s = _
  simp only [execCopyComplete, hnum, State.curOf_busyWith hs hr, hsrc, hdst, hsecond, Nat.sub_zero, if_true, hcopy, hbusy,
    and_self]
  exact congrArg _ (State.completeItem_busy (s := { s with mem := m, nextId := n }) 0x06 hs ht hpost)

/-! The increase that follows the writes of a LAUNCH (R376) -/

theorem Tab.get_above {m : Tab} {a : Nat} (h : ∀ c ∈ m, a < c.1) : m.get a = 0 := by
  induction m with
  | nil => rfl
  | cons c r ih =>
    have : c.1 ≠ a := Nat.ne_of_gt (h c (List.mem_cons_self ..))
    simp [Tab.get, this, ih fun d hd => h d (List.mem_cons_of_mem _ hd)]

theorem Tab.get_cons {m : Tab} {a : Nat} (v x : Nat) (h : ∀ c ∈ m, a < c.1) :
    (Tab.cons a v m).get x = if a = x then v else m.get x := by
  unfold Tab.cons
  split
  next hv =>
    split
    next hx => rw [← hx, Tab.get_above h, hv]
    · rfl
  · rfl

theorem addrsOk_tail {a : Nat} {l : List Nat} (h : addrsOk (a :: l) = true) : addrsOk l = true := by
  cases l with
  | nil => rfl
  | cons b r => simp [addrsOk] at h; exact h.2

theorem addrsOk_above {a : Nat} {l : List Nat} (h : addrsOk (a :: l) = true) : ∀ x ∈ l, a < x := by
  induction l generalizing a with
  | nil => simp
  | cons b r ih =>
    have hlt : a < b := by simp [addrsOk] at h; exact h.1
    intro x hx
    rcases List.mem_cons.1 hx with rfl | hx
    · exact hlt
    · exact Nat.lt_trans hlt (ih (addrsOk_tail h) x hx)

/-- An entry reads as what was set last. -/
theorem Tab.get_set {m : Tab} (a v x : Nat) (h : addrsOk (m.map (·.1)) = true) :
    (m.set a v).get x = if a = x then v else m.get x := by
  induction m with
  | nil => exact Tab.get_cons v x (by simp)
  | cons d r ih =>
    have hab : ∀ c ∈ r, d.1 < c.1 := fun c hc => addrsOk_above h c.1 (List.mem_map_of_mem hc)
    simp only [Tab.set]
    split
    next hlt =>
      refine Tab.get_cons v x fun c hc => ?_
      rcases List.mem_cons.1 hc with rfl | hc
      · exact hlt
      · exact Nat.lt_trans hlt (hab c hc)
    · split
      next he =>
        rw [Tab.get_cons v x (he ▸ hab)]
        simp only [Tab.get]
        by_cases hx : a = x
        · simp [hx]
        · rw [if_neg hx, if_neg hx, if_neg (by omega)]
      next hne =>
        simp only [Tab.get, ih (addrsOk_tail h)]
        by_cases hd : d.1 = x
        · rw [if_pos hd, if_neg (by omega), if_pos hd]
        · rw [if_neg hd, if_neg hd]

/-- What all commands in progress of a thread wait for, for one that has no other. -/
theorem mapPending_busyWith {t : Thread} {h : ItemHdr} {p : Pending} (f : Pending → Pending) :
    (busyWith t h p).mapPending f = busyWith (t.mapPending f) h (f p) := by
  unfold busyWith Thread.mapPending
  split
  · simp [Option.map_map, Function.comp_def, CurItem.map]
  · rfl

/-- An increase that stays below 2^64. -/
theorem State.semAdd_sums {s : State} {sem n : Nat} (h : ItemHdr) (op : Nat) (hsum : s.sems.get sem + n < 2 ^ 64) :
    s.semAdd h op sem n = s.setSem sem (s.sems.get sem + n) := by
  unfold State.semAdd
  have h0 : ¬((s.sems.get sem : Int) + (n : Int) < 0) := by omega
  have h1 : ¬((2 : Int) ^ 64 ≤ (s.sems.get sem : Int) + (n : Int)) := by omega
  have h2 : ((s.sems.get sem : Int) + (n : Int)).toNat = s.sems.get sem + n := by omega
  simp only [h0, if_false, h1, h2]

/-- A LAUNCH makes the increase that follows its writes, before it completes (R374). -/
theorem execLaunchComplete_raises {s : State} {t : Thread} {h : ItemHdr} {pids ids : List Nat} {wait : Bool}
    {after : List (Nat × Nat)} {owner : Nat} {r : Raise}
    (hs : s.threads = [busyWith t h (.launch pids ids wait after none owner [r])]) (ht : h.thread = t.num)
    (hr : t.sub.isSome = h.resident) (hsubj : s.subj = .id t.num) (hbusy : s.engineBusy owner = false)
    (hsems : addrsOk (s.sems.map (·.1)) = true) (hsum : s.sems.get r.sem + r.add < 2 ^ 64) :
    ∃ u, exec .launchComplete s = .next u ∧ u.sems.get r.sem = s.sems.get r.sem + r.add ∧
      (∀ j, j ≠ r.sem → u.sems.get j = s.sems.get j) ∧
      u.threads = [busyWith ((t.mapPending Pending.raised).mapPending (·.latch r.sem (s.sems.get r.sem + r.add))) h
        (.launch pids ids wait after none owner [])] := by
  let v : State := { s with threads := [busyWith (t.mapPending Pending.raised) h
    (.launch pids ids wait after none owner [])] }
  have hraised : (s.threads.map fun u => if u.num = h.thread then u.mapPending Pending.raised else u) = v.threads := by
    simp [hs, ht, mapPending_busyWith, v, Pending.raised]
  have hnum : Subject.num s.subj = t.num := by rw [hsubj]; rfl
  refine ⟨v.dropStale.setSem r.sem (s.sems.get r.sem + r.add), ?_, ?_, fun j hj => ?_, ?_⟩
  · show execLaunchComplete s = _
    simp only [execLaunchComplete, hnum, State.curOf_busyWith hs hr, hbusy, Bool.false_eq_true, if_false, ne_eq,
      List.cons_ne_self, not_false_eq_true, if_true, hraised]
    exact congrArg _ (State.semAdd_sums (s := v.dropStale) _ _ hsum)
  · exact (Tab.get_set _ _ _ hsems).trans (if_pos rfl)
  · exact (Tab.get_set _ _ _ hsems).trans (if_neg hj.symm)
  · simp only [State.setSem, State.dropStale, v, List.map_cons, List.map_nil, mapPending_busyWith, Pending.latch]

end Sys2Proof.Machine
end

section
/-! SUPPORT. O60: the package and the monitor: reset, life cycle, report, throttling and trip, control registers, assignments
(R16, R368, R379–R384). -/

namespace Sys2Proof.Machine

/-! Runs of bytes -/

@[simp] theorem beBytes_length (v n : Nat) : (beBytes v n).length = n := by
  induction n with
  | zero => rfl
  | succ n ih => simp [beBytes, ih]

@[simp] theorem toBytes_length (v n : Nat) : (toBytes v n).length = n := by
  induction n generalizing v with
  | zero => rfl
  | succ n ih => simp [toBytes, ih]

/-- The fields of a report (Table 23.4), whatever follows them. -/
theorem reportFields_take_drop {α : Type} {a b c d e f : List α} (rest : List α) (ha : a.length = 32) (hb : b.length = 32)
    (hc : c.length = 32) (hd : d.length = 32) (he : e.length = 8) (hf : f.length = 8) :
    let rep := a ++ b ++ c ++ d ++ e ++ f ++ rest
    rep.take 32 = a ∧ (rep.drop 0x20).take 32 = b ∧ (rep.drop 0x40).take 32 = c ∧ (rep.drop 0x60).take 32 = d ∧
      (rep.drop 0x80).take 8 = e ∧ (rep.drop 0x88).take 8 = f := by
  simp [List.drop_append, List.drop_eq_nil_of_le, ha, hb, hc, hd, he, hf]

/-! Reset and life cycle (R379–R381) -/

theorem execPackageReset_boots {s : State} {b : BootInput} (hsubj : s.subj = .boot b) :
    ∃ u, exec .packageReset s = .next u ∧ u.mem = [] ∧ u.hbm = [] ∧ u.cpu = none ∧ u.procs = [] ∧ u.regions = [] ∧
      u.channels = [] ∧ u.time = 0 ∧ u.host = s.host ∧ u.far = s.far ∧ u.farMarks = s.farMarks ∧
      u.pkg.part = s.pkg.part ∧ u.pkg.keyHash = s.pkg.keyHash ∧ u.pkg.dieMask = s.pkg.part.dies &&& b.trained ∧
      (u.pkg.running = true ↔ s.pkg.monitorOk b = true ∧ (s.pkg.part.dies &&& b.trained).getLsbD 0 = true) := by
  refine ⟨{ State.reset with
      agenda := s.agenda, subj := s.subj, pkg := s.pkg.boot b (Config.detail s.free).toNat, far := s.far,
      farMarks := s.farMarks, host := s.host, errorRings := s.errorRings, irqs := s.irqs, framesOut := s.framesOut,
      acksOut := s.acksOut, uaOut := s.uaOut, reports := s.reports, free := s.free + 1 }, ?_, rfl, rfl, rfl, rfl, rfl, rfl,
    rfl, rfl, rfl, rfl, rfl, rfl, rfl, ?_⟩
  · show execPackageReset s = _
    simp only [execPackageReset, hsubj]
  · exact Bool.and_eq_true_iff

theorem execLifeCycleChange_changes {s : State} {l : LifeCycle} {image : List Byte} {x y r sg : Nat}
    (hsubj : s.subj = .life l image x y r sg) (himage : image = lifeCommand l) (hx : x = s.pkg.ownX) (hy : y = s.pkg.ownY)
    (hsig : ecdsaOk x y r sg image = true) :
    exec .lifeCycleChange s = .next { s.wipe with pkg := { s.pkg with lifeCycle := l } } := by
  show execLifeCycleChange s = _
  simp only [execLifeCycleChange, hsubj]
  exact if_pos ⟨himage, hx, hy, hsig⟩

theorem execLifeCycleChange_refuses {s : State} {l : LifeCycle} {image : List Byte} {x y r sg : Nat}
    (hsubj : s.subj = .life l image x y r sg)
    (hbad : image ≠ lifeCommand l ∨ x ≠ s.pkg.ownX ∨ y ≠ s.pkg.ownY ∨ ecdsaOk x y r sg image = false) :
    exec .lifeCycleChange s = .next s := by
  have hno : ¬(image = lifeCommand l ∧ x = s.pkg.ownX ∧ y = s.pkg.ownY ∧ ecdsaOk x y r sg image = true) := by
    rintro ⟨himage, hx, hy, hsig⟩
    rcases hbad with h | h | h | h
    · exact h himage
    · exact h hx
    · exact h hy
    · exact absurd hsig (by simp [h])
  show execLifeCycleChange s = _
  simp only [execLifeCycleChange, hsubj]
  exact if_neg hno

/-! The attestation report (Table 23.4) -/

theorem execAttestationReport_reports {s : State} {nonce : BitVec 256} {slot : Nat} (hsubj : s.subj = .attest nonce slot) :
    let body := s.reportBody nonce slot
    exec .attestationReport s = .next { s with reports := s.reports ++ [body ++ s.signature body], free := s.free + 1 } := by
  show execAttestationReport s = _
  simp only [execAttestationReport, hsubj]

@[simp] theorem State.reportBody_length (s : State) (nonce : BitVec 256) (slot : Nat) :
    (s.reportBody nonce slot).length = 0x90 := by
  simp [State.reportBody]

theorem State.signature_eq (s : State) (body : List Byte) :
    s.signature body = beBytes (ecdsaSign s.pkg.deviceKey.toNat s.nonce body).1 32 ++
      beBytes (ecdsaSign s.pkg.deviceKey.toNat s.nonce body).2 32 := rfl

@[simp] theorem State.signature_length (s : State) (body : List Byte) : (s.signature body).length = 64 := by
  simp [State.signature]

/-- The fields of the signed part, whatever follows it. -/
theorem State.reportBody_fields (s : State) (nonce : BitVec 256) (slot : Nat) (rest : List Byte) :
    let rep := s.reportBody nonce slot ++ rest
    rep.take 32 = beBytes nonce.toNat 32 ∧ (rep.drop 0x20).take 32 = beBytes s.pkg.monMeas.toNat 32 ∧
      (rep.drop 0x40).take 32 = beBytes s.pkg.fwMeas.toNat 32 ∧
      (rep.drop 0x60).take 32 = beBytes (((s.bookHashes.find? (·.1 == slot)).map (·.2)).getD 0) 32 ∧
      (rep.drop 0x80).take 8 = toBytes (lifeCode s.pkg.lifeCycle + s.pkg.cfg * 2 ^ 16) 8 ∧
      (rep.drop 0x88).take 8 = toBytes s.pkg.secVersion 8 :=
    reportFields_take_drop rest (beBytes_length _ _) (beBytes_length _ _) (beBytes_length _ _) (beBytes_length _ _)
      (toBytes_length _ _) (toBytes_length _ _)

/-- The signature stands behind the signed part. -/
theorem State.reportBody_signature (s : State) (nonce : BitVec 256) (slot : Nat) (rest : List Byte) :
    (s.reportBody nonce slot ++ rest).take 0x90 = s.reportBody nonce slot ∧
      (s.reportBody nonce slot ++ rest).drop 0x90 = rest :=
  ⟨List.take_left' (s.reportBody_length nonce slot), List.drop_left' (s.reportBody_length nonce slot)⟩

/-! Power (R384) -/

theorem execThermalThrottle_asks {s : State} {n : Nat} (hsubj : s.subj = .id n) (hdie : s.diePresent n = true)
    (hmhz : (s.die n).mhz = 1200) (hlock : ∀ l, (s.die n).lock = some l → l.isScene = true)
    (hqueue : ∀ l ∈ (s.die n).lockQ, l.1.isScene = true) : exec .thermalThrottle s =
      .next (s.putDie { s.die n with lockQ := (s.die n).lockQ ++ [(.dvfs 1000, s.ns)] }) := by
  have hnum : Subject.num s.subj = n := by rw [hsubj]; rfl
  have hheld : (s.die n).lock.any (!·.isScene) = false := by
    cases hl : (s.die n).lock with
    | none => rfl
    | some l => simp [hlock l hl]
  have hwanted : (s.die n).lockQ.any (!·.1.isScene) = false := by
    rw [List.any_eq_false]
    exact fun l hl => by simp [hqueue l hl]
  have hclock : clocks.contains 1000 = true := by decide
  show execThermalThrottle s = _
  simp only [execThermalThrottle, hnum, hmhz, lowerClock, if_true, State.askStep, hdie, hheld, hwanted, hclock, State.askLock,
    State.modDie, Bool.not_true, Bool.or_self, Bool.false_eq_true, if_false, Nat.reduceBEq]

/-- A running process with nothing under way that is halted is READY at the head of its class (R40). -/
theorem Proc.abandon_idle {p : Proc} (hw : p.wait = .none) : p.abandon = { p with tile := none, tdone := 0 } := by
  simp [Proc.abandon, hw]

/-- The running process of the active bank, halted with nothing under way. -/
def State.haltedProc (s : State) (p : Proc) : Proc :=
  (s.dropLoads p.pid).toHead { p with tile := none, tdone := 0, lastRun := s.ns }

/-- The only running process of the package is halted (R384). -/
theorem State.haltAll_single {s : State} {p : Proc} (hcpu : s.cpu = some p) (hprocs : s.procs = []) (hst : p.st = .running)
    (hwait : p.wait = .none) : s.haltAll =
      ({ s.dropLoads p.pid with cpu := none, procs := [s.haltedProc p] } : State).modCore p.core
        fun k => { k with halt := none, ghostRun := false } := by
  have hall : s.allProcs.filter (·.st == .running) = [p] := by simp [State.allProcs, hcpu, hprocs, hst]
  have hleft := State.leaveRunning_active (s := s.dropLoads p.pid) (p := p) (q := s.haltedProc p) hcpu rfl
  have hnone : (s.dropLoads p.pid).procs = [] := hprocs
  rw [hnone, List.nil_append] at hleft
  rw [State.haltAll, hall, List.foldl_cons, List.foldl_nil, State.stopRunning, Proc.abandon_idle hwait, ← hleft]
  rfl

/-- A trip halts the running process, and posts a record (R384). -/
theorem execThermalTrip_halts {s : State} {p : Proc} {n : Nat} (hsubj : s.subj = .id n) (hcpu : s.cpu = some p)
    (hprocs : s.procs = []) (hst : p.st = .running) (hwait : p.wait = .none) :
    ∃ u q r, exec .thermalTrip s = .next u ∧ u.pkg = { s.pkg with running := false } ∧ u.cpu = none ∧ u.procs = [q] ∧
      q = { p with st := .ready, key := q.key, lastRun := s.ns, tile := none, tdone := 0 } ∧
      u.mailbox = s.mailbox ++ [r] ∧ r.cause = .memerr ∧ r.d0 = BitVec.ofNat 64 n := by
  have hhalt := State.haltAll_single hcpu hprocs hst hwait
  have hnum : Subject.num s.subj = n := by rw [hsubj]; rfl
  have hexec : exec .thermalTrip s = execThermalTrip s := rfl
  simp only [execThermalTrip, hhalt, hnum] at hexec
  exact ⟨_, s.haltedProc p, _, hexec, rfl, rfl, rfl, rfl, rfl, rfl, rfl⟩

/-! Control registers (R16, R342) -/

theorem execControlRegisterWrite_quantum {s : State} {n : Nat} {v : Word} (hsubj : s.subj = .control (.quantum n) v) :
    ∃ u, exec .controlRegisterWrite s = .next u ∧ u = { s with cores := u.cores } ∧
      (u.core n).quantum = v.setWidth 24 ∧ (u.core n).probe = (s.core n).probe ∧ ∀ c, c ≠ n → u.core c = s.core c := by
  refine ⟨s.modCore n fun k => { k with quantum := v.setWidth 24 }, ?_, State.modCore_cores _ _ _, ?_, ?_, fun c hc => ?_⟩
  · show execControlRegisterWrite s = _
    simp only [execControlRegisterWrite, hsubj]
  · rw [State.core_modCore_same _ _ _ (State.core_id _ _)]
  · rw [State.core_modCore_same _ _ _ (State.core_id _ _)]
  · exact State.core_modCore_other _ _ (State.core_id _ _) hc

theorem execControlRegisterWrite_probe {s : State} {n : Nat} {v : Word} (hsubj : s.subj = .control (.probe n) v) :
    ∃ u, exec .controlRegisterWrite s = .next u ∧ u = { s with cores := u.cores } ∧
      (u.core n).probe = v.setWidth 20 ∧ (u.core n).quantum = (s.core n).quantum ∧ ∀ c, c ≠ n → u.core c = s.core c := by
  refine ⟨s.modCore n fun k => { k with probe := v.setWidth 20 }, ?_, State.modCore_cores _ _ _, ?_, ?_, fun c hc => ?_⟩
  · show execControlRegisterWrite s = _
    simp only [execControlRegisterWrite, hsubj]
  · rw [State.core_modCore_same _ _ _ (State.core_id _ _)]
  · rw [State.core_modCore_same _ _ _ (State.core_id _ _)]
  · exact State.core_modCore_other _ _ (State.core_id _ _) hc

theorem execControlRegisterWrite_keyhold {s : State} {n : Nat} {v : Word} (hsubj : s.subj = .control (.keyhold n) v) :
    exec .controlRegisterWrite s = .next (s.putGroup { s.group n with keyhold := v.setWidth 32 }) := by
  show execControlRegisterWrite s = _
  simp only [execControlRegisterWrite, hsubj, State.modGroup]

/-! Assignments (R368) -/

theorem execMonitorAssignment_assigns {s : State} {m : Assignment} (hsubj : s.subj = .assign m) (ht1 : 1 ≤ m.thread)
    (ht2 : m.thread ≤ 31) (hl1 : 4 ≤ m.ringLog) (hl2 : m.ringLog ≤ 16) (hf : m.function ≤ 64)
    (hnext : s.nextRegion ≤ 0xFFFF) : ∃ u r t, exec .monitorAssignment s = .next u ∧
      u.nextRegion = s.nextRegion + 1 ∧ u.regions = s.regions ++ [r] ∧ r.num = s.nextRegion ∧ r.parent = r.num ∧
      r.function = m.function ∧ r.ceil = m.ceil.toNat ∧ r.chtab = m.chtab ∧ r.segtab = m.segtab ∧
      r.segs = s.tableCopy m.segtab ∧ r.wintab = m.wintab ∧
      u.threads = s.threads.filter (·.num != m.thread) ++ [t] ∧ t.num = m.thread ∧ t.region = r.num ∧
      t.function = m.function ∧ t.ring = m.ringBase ∧ t.ringLog = m.ringLog ∧ t.items = [] ∧ t.stopped = false ∧
      u.procs = s.procs ∧ u.mem = s.mem := by
  have hok : ¬(m.thread = 0 ∨ 31 < m.thread ∨ m.ringLog < 4 ∨ 16 < m.ringLog ∨ 64 < m.function ∨ 0xFFFF < s.nextRegion) := by
    omega
  have hexec : exec .monitorAssignment s = execMonitorAssignment s := rfl
  simp only [execMonitorAssignment, hsubj, if_neg hok] at hexec
  exact ⟨_, _, _, hexec, rfl, rfl, rfl, rfl, rfl, rfl, rfl, rfl, rfl, rfl, rfl, rfl, rfl, rfl, rfl, rfl, rfl, rfl, rfl, rfl⟩

end Sys2Proof.Machine
end

section
/-! SUPPORT. O60: the clauses of the events together. -/

namespace Sys2Proof.Machine

/-- Settles O60, clause by clause: the thread's queue, its commands in progress and its triggers; then the package. -/
theorem stageEvents : Obligations.StageEvents := by
  refine ⟨?_, fun s b => execPackageReset_boots, ?_, ?_, fun s n => execThermalThrottle_asks, ?_, ?_,
    fun s m => execMonitorAssignment_assigns⟩
  · intro s t h n hs ht hr hpost hsubj
    refine ⟨fun h0 hroom => ?_, execQueueRestart_single hs hsubj, ?_, ?_, ?_, ?_, ?_, ?_, fun g hg => ⟨?_, ?_, ?_⟩⟩
    · exact execQueueDoorbell_single (s := { s with subj := .pair t.num n }) hs rfl h0 hroom
    · intro k v met hmet
      exact execWaitgeSatisfied_completes rfl ht hr hpost hsubj hmet
    · intro pids ids wait after owner hpl ha hbusy hover
      exact execLaunchComplete_completes rfl ht hr hpost hsubj hpl ha hbusy hover
    · intro pids ids wait after owner r hbusy hsems hsum
      exact execLaunchComplete_raises rfl ht hr hsubj hbusy hsems hsum
    · intro pids ids wait after m reason owner raises
      exact execLaunchComplete_fails rfl ht hr hsubj
    · intro src dst len owner a b hlen hcalm hapart hnear hsrc hdst
      exact execCopyComplete_copies rfl ht hr hpost hsubj hlen (.of_calm hcalm hnear) hapart hsrc hdst
    · intro g i base len rw rr hpers hvalid hover
      exact execMkeyKeyholdExpiry_completes rfl ht hr hpost hsubj hpers hvalid hover
    · intro hw hp
      exact execTriggerWrite_counts (s := { s with subj := .id g.k }) hg hw rfl hp
    · intro hstop hthread hsub hidle hp
      exact execTriggerRun_begins (s := { s with subj := .pair t.num g.k }) hs hg rfl hstop hthread hsub hidle hp
    · intro pos l n hstop hthread hsub hpos
      exact execTriggerRun_ends (s := { s with subj := .pair t.num g.k }) hs hg rfl hstop hthread hsub hpos
  · intro s l image x y r sg hsubj
    exact ⟨fun himage hx hy hsig => ⟨_, execLifeCycleChange_changes hsubj himage hx hy hsig, rfl, rfl, rfl, rfl, rfl, rfl,
      rfl, rfl⟩, execLifeCycleChange_refuses hsubj⟩
  · intro s nonce slot hsubj
    obtain ⟨hnonce, hmon, hfw, hbook, hlife, hsec⟩ := s.reportBody_fields nonce slot (s.signature (s.reportBody nonce slot))
    obtain ⟨hbody, hsig⟩ := s.reportBody_signature nonce slot (s.signature (s.reportBody nonce slot))
    refine ⟨_, _, _, execAttestationReport_reports hsubj, ?_, hnonce, hmon, hfw, hbook, hlife, hsec, ?_,
      hsig.trans (s.signature_eq _)⟩
    · rw [List.length_append, State.reportBody_length, State.signature_length]
    · rw [hbody]
  · intro s p n hsubj hcpu hprocs hst hwait _
    exact execThermalTrip_halts hsubj hcpu hprocs hst hwait
  · intro s n v
    exact ⟨execControlRegisterWrite_quantum, execControlRegisterWrite_probe, execControlRegisterWrite_keyhold⟩

end Sys2Proof.Machine
end

section
/-! SUPPORT. One process: what finding, putting back, waking and ranking a process come to where there is no other, where
nothing is ready beside the running one, and where nothing is lent or under way. -/

namespace Sys2Proof.Machine

/-! The only process, off the active bank -/

theorem State.proc?_single {s : State} {p : Proc} (hc : s.cpu = none) (hp : s.procs = [p]) : s.proc? p.pid = some p := by
  simp [State.proc?, hc, hp]

theorem State.proc?_single_none {s : State} {p : Proc} {pid : Nat} (hc : s.cpu = none) (hp : s.procs = [p])
    (hpid : pid ≠ p.pid) : s.proc? pid = none := by
  simp [State.proc?, hc, hp, Ne.symm hpid]

theorem State.putProc_single {s : State} {p q : Proc} (hc : s.cpu = none) (hp : s.procs = [p]) (hq : q.pid = p.pid) :
    s.putProc q = { s with procs := [q] } := by
  simp [State.putProc, hc, hp, hq]

theorem State.leaveRunning_single {s : State} {p q : Proc} (hc : s.cpu = none) (hp : s.procs = [p]) (hq : q.pid = p.pid) :
    s.leaveRunning q = { s with procs := [q] } := by
  have hput : s.leaveRunning q = s.putProc q := by simp only [State.leaveRunning, hc]
  exact hput.trans (State.putProc_single hc hp hq)

theorem State.allProcs_single {s : State} {p : Proc} (hc : s.cpu = none) (hp : s.procs = [p]) : s.allProcs = [p] := by
  simp [State.allProcs, hc, hp]

theorem State.allProcs_active {s : State} {p : Proc} (hc : s.cpu = some p) : s.allProcs = p :: s.procs := by
  simp [State.allProcs, hc]

/-- Nothing runs anywhere where the only process does not. -/
theorem State.runningOn_single {s : State} {p : Proc} (hc : s.cpu = none) (hp : s.procs = [p]) (hst : p.st ≠ .running)
    (c : Nat) : s.runningOn c = none := by
  simp [State.runningOn, hc, hp, hst]

theorem State.runningOn_active {s : State} {p : Proc} {c : Nat} (hc : s.cpu = some p) (hf : s.focus = c) :
    s.runningOn c = some p := by
  simp [State.runningOn, hc, hf]

/-! Halts that nothing calls for (R47) -/

theorem State.urge_idle {s : State} {c : Nat} (h : s.runningOn c = none) : s.urge c = s := by
  simp [State.urge, h]

/-- Nothing that is not READY calls for a halt. -/
theorem State.urges_wingless {s : State} {c : Nat} (h : s.wings c = []) (r : Proc) : s.urges c r = false := by
  simp [State.urges, State.ghostDue, h]

theorem State.urge_wingless {s : State} {c : Nat} (h : s.wings c = []) : s.urge c = s := by
  unfold State.urge
  split
  · rfl
  · rw [State.urges_wingless h]
    rfl

/-- A process that runs, and no other, leaves the wings empty. -/
theorem State.wings_running {s : State} {p : Proc} (hc : s.cpu = some p) (hp : s.procs = []) (hst : p.st = .running)
    (c : Nat) : s.wings c = [] := by
  simp [State.wings, State.allProcs, hc, hp, hst]

/-- A halt request and whatever else urging does concern the registers of cores only. -/
theorem State.urge_cores (s : State) (c : Nat) : s.urge c = { s with cores := (s.urge c).cores } := by
  unfold State.urge State.askHalt
  split
  · rfl
  · split
    · split
      · rfl
      · split
        · rfl
        · exact State.modCore_cores _ _ _
    · rfl

/-! Nothing lent (R45) -/

/-- No process has borrowed, and no loan is under way. -/
def State.Unlent (s : State) : Prop := (∀ q ∈ s.allProcs, q.loans = []) ∧ s.loanMsgs = []

theorem State.withdrawLoans_unlent {s : State} (h : s.Unlent) (pid : Nat) : s.withdrawLoans pid = s := by
  obtain ⟨hl, hm⟩ := h
  have hnone : s.allProcs.any (fun p => p.loans.any (·.lender == pid)) = false :=
    List.any_eq_false.2 fun q hq => by simp [hl q hq]
  simp [State.withdrawLoans, hnone, hm]

theorem State.refreshBorrowers_unlent {s : State} (h : ∀ q ∈ s.allProcs, q.loans = []) (lender : Nat) :
    s.refreshBorrowers lender = s := by
  have hnone : s.allProcs.filter (fun p => p.loans.any (·.lender == lender)) = [] :=
    List.filter_eq_nil_iff.2 fun q hq => by simp [h q hq]
  simp [State.refreshBorrowers, hnone]

/-- A process whose EFF is its own class. -/
def Proc.classed (p : Proc) (e : Nat) : Proc := { p with eff := e, inh := false }

/-- Without loans EFF is the own class. -/
theorem State.reEff_unlent {s : State} {p : Proc} (h : p.loans = []) : s.reEff p = p.classed (s.ownCls p) := by
  simp [State.reEff, h, Proc.classed]

theorem State.Unlent.of_alone {s : State} {p : Proc} (h : Alone s p) : s.Unlent := by
  obtain ⟨hc, hp, hl, hm⟩ := h
  exact ⟨by simp [State.allProcs_single hc hp, hl], hm⟩

/-! Nothing under way, no channels -/

theorem State.dropLoads_none {s : State} {pid : Nat} (h : ∀ q ∈ s.packets, q.pid ≠ pid) : s.dropLoads pid = s := by
  have hmap : s.packets.map (fun q =>
      if q.pid = pid then { q with payload := q.payload.redirect (·.drop pid) } else q) = s.packets :=
    (List.map_congr_left fun q hq => if_neg (h q hq)).trans (List.map_id _)
  simp only [State.dropLoads, hmap]

theorem State.endsOf_none {s : State} (h : s.channels = []) (pid : Nat) : s.endsOf pid = [] := by
  simp [State.endsOf, h]

theorem State.transitEnds_none {s : State} (h : s.channels = []) (pid : Nat) (moving : Bool) :
    s.transitEnds pid moving = s := by
  simp [State.transitEnds, State.endsOf_none h]

theorem State.chan?_none {s : State} (h : s.channels = []) (table name : Nat) : s.chan? table name = none := by
  simp [State.chan?, h]

theorem State.faultChan_none {s : State} (h : s.channels = []) (region : Nat) : s.faultChan region = none := by
  simp [State.faultChan, State.chan?_none h]

/-! Waking the only process (R31) -/

/-- The only process put back, not running: nothing is there for it to halt. -/
theorem State.putProc_urge_single {s : State} {p q : Proc} (hc : s.cpu = none) (hp : s.procs = [p]) (hq : q.pid = p.pid)
    (hst : q.st ≠ .running) (c : Nat) : (s.putProc q).urge c = { s with procs := [q] } := by
  rw [State.putProc_single hc hp hq]
  exact State.urge_idle (State.runningOn_single (s := { s with procs := [q] }) hc rfl hst c)

theorem State.wake_alone {s : State} {p : Proc} {r : Reason} (h : Alone s p) (hst : p.st = .blocked r) (d : Option Done) :
    s.wake p.pid d = { s with procs := [s.toTail { p with wait := .none, done := d }] } := by
  have hlent := State.Unlent.of_alone h
  obtain ⟨hc, hp, -, -⟩ := h
  simp only [State.wake, State.proc?_single hc hp, hst, State.withdrawLoans_unlent hlent, Option.getD_some]
  refine State.putProc_urge_single hc hp ?_ ?_ _
  · rfl
  · exact nofun

end Sys2Proof.Machine
end

section
/-! SUPPORT. O21, O22: waiting instructions in the own memory whose test fails (R242, R243), and the write that serves a
watch. -/

namespace Sys2Proof.Machine

/-! O21: a failing test -/

/-- Nothing that the core or the process has under way holds a waiting instruction back at issue. -/
theorem State.overlaps_quiet {s : State} {p : Proc} (h : ∀ q ∈ s.packets, q.core ≠ p.core) (a : Word) (n : Nat) :
    s.overlaps p a n = false := by
  rw [State.overlaps, List.any_eq_false]
  intro q hq
  simp [h q hq]

theorem State.orderPending_none {s : State} {pid : Nat} (h : ∀ q ∈ s.packets, q.pid ≠ pid) : s.orderPending pid = false := by
  rw [State.orderPending, List.any_eq_false]
  intro q hq
  simp [h q hq]

/-- A sound word bears no mark and has no error. -/
theorem State.granuleBad_sound {s : State} {h : Nat} (hs : Sound s h 8) : s.granuleBad h = false := by
  have hout : h ∉ s.marks ++ s.latent := fun hm => by
    have := hs h hm
    omega
  simpa [State.granuleBad] using hout

/-- A home serves nothing while no watch is ready. -/
theorem State.serveWatch_unready {s : State} (h : ∀ w ∈ s.watches, s.watchReady w = false) (home : Nat) :
    s.serveWatch home = s := by
  have hnone : (s.registered home).filter s.watchReady = [] := by
    refine List.filter_eq_nil_iff.2 fun w hw => ?_
    simp [h w (List.mem_of_mem_filter (List.mem_of_mem_take hw))]
  simp [State.serveWatch, State.nextWatch, hnone]

theorem State.serveWatches_unready {s : State} (h : ∀ w ∈ s.watches, s.watchReady w = false) (home : Nat) :
    s.serveWatches home = s := by
  unfold State.serveWatches
  generalize List.range s.watches.length = l
  induction l with
  | nil => rfl
  | cons n l ih => rw [List.foldl_cons, State.serveWatch_unready h, ih]

/-- The first watch of a machine stays when its test fails. -/
theorem State.syncAt_watches {s : State} (w : Watch) (hw : s.watches = [])
    (hready : ({ s with watches := [w] } : State).watchReady w = false) : s.syncAt w = { s with watches := [w] } := by
  have hserve := State.serveWatches_unready (s := { s with watches := [w] })
    (fun x hx => by rw [List.mem_singleton.1 hx]; exact hready) (homeOf w.addr)
  simp only [State.syncAt, hw, List.nil_append, hready, Bool.and_false, Bool.false_eq_true, if_false, hserve]

/-- A full/empty or wait instruction of the own memory whose test fails blocks the process with a watch at the word (R243). -/
theorem State.syncInstr_blocks {s : State} {p : Proc} {d a : XIdx} {mk : Proc → SyncOp} {perm : Perm} {release : Bool}
    (hi : Issues s p) (hq : Quiet s p.core) (hw : s.watches = []) (hown : OwnAccess s p (p.getX a) 8 perm)
    (hs : Sound s (homeAt p (p.getX a)) 8) (hrel : release = true → ∀ q ∈ s.packets, q.pid ≠ p.pid)
    (htest : (mk p).test (s.word (homeAt p (p.getX a))) (s.isFull (homeAt p (p.getX a))) = false) :
    s.syncInstr d a mk perm release = .next { s with
      cpu := none, procs := s.procs ++ [blockedAs s p .sync (.sync (homeAt p (p.getX a)) (mk p) d)]
      watches := [{ addr := homeAt p (p.getX a), pid := p.pid, op := mk p, used := p.getX a }] } := by
  have htarget : s.target p.core (p.getX a).toNat = .own (homeAt p (p.getX a)) := target_own hown.2.2
  have hgood := State.granuleBad_sound hs
  have horder : (release && s.orderPending p.pid) = false := by
    cases release with
    | false => rfl
    | true => exact State.orderPending_none (hrel rfl)
  have hblock : s.block p .sync (.sync (homeAt p (p.getX a)) (mk p) d) = { s with
      cpu := none, procs := s.procs ++ [blockedAs s p .sync (.sync (homeAt p (p.getX a)) (mk p) d)] } :=
    State.leaveRunning_active hi.1 rfl
  rw [State.syncInstr, withProc_some hi.1]
  simp only [State.syncCheck, htarget, check_own _ hown, heldBack_quiet _ hq.1, State.overlaps_quiet hq.1, horder, hgood,
    htest, Bool.or_self, Bool.and_false, Bool.false_and, Bool.false_eq_true, if_false, hblock]
  refine congrArg Host.Outcome.next (State.syncAt_watches _ hw ?_)
  have hbad (t : State) (hm : t.marks = s.marks) (hl : t.latent = s.latent) : t.granuleBad (homeAt p (p.getX a)) = false := by
    rw [State.granuleBad, hm, hl]
    exact hgood
  simp only [State.watchReady, State.watchBad, hbad, Bool.and_false, Bool.false_or, Bool.not_false, Bool.true_and]
  exact htest

/-- Settles O21: each of the five instructions is `State.syncInstr` with its own test. -/
theorem fullEmptyWaits : Obligations.FullEmptyWaits := by
  intro s p d a b hi hq hw ea h v waits
  refine ⟨fun hown hs => ⟨fun hempty => ?_, fun hsame => ?_, fun hless => ?_⟩,
    fun hown hs => ⟨fun hempty => ?_, fun hfull _ hpid => ?_⟩⟩
  · exact State.syncInstr_blocks (mk := fun _ => .ldf) hi hq hw hown hs nofun hempty
  · refine State.syncInstr_blocks (mk := fun p => .waitw (p.getX b)) hi hq hw hown hs nofun ?_
    simpa [SyncOp.test] using hsame
  · refine State.syncInstr_blocks (mk := fun p => .waitc (p.getX b)) hi hq hw hown hs nofun ?_
    simpa [SyncOp.test] using hless
  · exact State.syncInstr_blocks (mk := fun _ => .lde) hi hq hw hown hs nofun hempty
  · refine State.syncInstr_blocks (mk := fun p => .ste (p.getX b)) hi hq hw hown hs (fun _ => hpid) ?_
    simpa [SyncOp.test] using hfull

end Sys2Proof.Machine
end

section
/-! SUPPORT. O22: a write serves the one watch of its word (R31, R242). -/

namespace Sys2Proof.Machine

/-- A full word written reads back. -/
theorem State.word_written {s : State} {a : Nat} (v : Word) (hwf : s.mem.wf = true) {t : State}
    (ht : t.mem = s.mem.write a 8 v.toNat) : t.word a = v := by
  have hmod : v.toNat % 256 ^ 8 = v.toNat := Nat.mod_eq_of_lt v.isLt
  rw [State.word, ht, Memory.read_write a 8 _ hwf, hmod, BitVec.ofNat_toNat, BitVec.setWidth_eq]

/-- A doubleword has been stored at an aligned address; watches are still to be tested. -/
def State.withWord (s : State) (a : Nat) (v : Word) (full : Bool) : State :=
  { s with mem := s.mem.write a 8 v.toNat, marks := eraseAddr a s.marks, latent := eraseAddr a s.latent
           empty := if full then eraseAddr a s.empty else s.empty }

theorem State.applyWrite_word {s : State} {a : Nat} (v : Word) (full : Bool) (ht : s.triggers = []) (ha : a % 8 = 0) :
    s.applyWrite { addr := a, n := 8, val := v.toNat, fe := if full then some true else none } =
      (s.withWord a v full).serveWatches (homeOf a) := by
  have hword : wordAt a = a := by
    unfold wordAt
    omega
  cases full <;>
    simp [State.applyWrite, hword, State.setFull, State.noteTrigger, ht, State.withWord]

/-- A home with one watch, which is ready and only reads, answers its process and forgets it (R242). -/
theorem State.serveWatches_one {s : State} {w : Watch} (hw : s.watches = [w]) (hready : s.watchReady w = true)
    (hobs : w.op.observes = true) (hbad : s.watchBad w = false) : s.serveWatches (homeOf w.addr) =
      ({ s with watches := [] } : State).answer (homeDie w.addr) w.pid (.wake w.pid (s.word w.addr)) := by
  have hreg : s.registered (homeOf w.addr) = [w] := by
    have hcap : watchCap (if 8192 ≤ homeOf w.addr then 0x8000000000 else 0) ≠ 0 := by
      unfold watchCap
      split <;> decide
    obtain ⟨n, hn⟩ := Nat.exists_eq_succ_of_ne_zero hcap
    simp [State.registered, hw, hn]
  have hnext : s.nextWatch (homeOf w.addr) = some w := by simp [State.nextWatch, hreg, hready, hobs]
  have hwrites : w.op.writes = false := by
    cases hop : w.op <;> simp_all [SyncOp.observes, SyncOp.writes]
  have hsync (t : State) : t.doSync w.addr w.op = t := by
    cases hop : w.op <;> simp_all [SyncOp.observes, State.doSync]
  simp [State.serveWatches, hw, State.serveWatch, hnext, hwrites, State.serve, hbad, hsync]

/-- A process that waits at a word of its own die takes the value there and is READY (R31). -/
theorem State.answer_wakes {s : State} {p : Proc} {h : Nat} {op : SyncOp} {d : XIdx} (ha : Alone s p)
    (hst : p.st = .blocked .sync) (hwait : p.wait = .sync h op d) (hdie : dieOf p.core = homeDie h) (v : Word) :
    s.answer (homeDie h) p.pid (.wake p.pid v) =
      { s with procs := [s.toTail { p with wait := .none, done := some (.regs [(d, v)]) }] } := by
  have hfind : s.proc? p.pid = some p := State.proc?_single ha.1 ha.2.1
  have hin : p.inSync = true := by simp [Proc.inSync, hwait, Proc.isBlocked, hst]
  have hreg : p.syncReg = d := by simp [Proc.syncReg, hwait]
  simp only [State.answer, hfind, hdie, if_true, State.wakeSync, hin, hreg]
  exact State.wake_alone ha hst _

/-- Settles O22: the store is made, then the home serves its one watch. -/
theorem watchServed : Obligations.WatchServed := by
  intro s p h op d v used full ha hst hwait hw hr ht hal hdie hwf hop
  have hword : (s.withWord h v full).word h = v := State.word_written v hwf rfl
  have hobs : op.observes = true := by
    obtain ⟨rfl, -⟩ | ⟨b, rfl, -⟩ := hop <;> rfl
  have hbad : (s.withWord h v full).watchBad { addr := h, pid := p.pid, op := op, used := used } = false := by
    simp [State.watchBad, State.granuleBad, State.withWord, eraseAddr]
  have htest : op.test ((s.withWord h v full).word h) ((s.withWord h v full).isFull h) = true := by
    obtain ⟨rfl, rfl⟩ | ⟨b, rfl, hne⟩ := hop
    · simp [SyncOp.test, State.withWord, State.isFull, eraseAddr]
    · simpa [SyncOp.test, hword] using Ne.symm hne
  have hready : (s.withWord h v full).watchReady { addr := h, pid := p.pid, op := op, used := used } = true := by
    rw [State.watchReady, hbad]
    exact htest
  have hserve := State.serveWatches_one (s := s.withWord h v full) hw hready hobs hbad
  rw [hword] at hserve
  have hstore := (State.applyWrite_word v full ht hal).trans (hserve.trans
    (State.answer_wakes (s := { s.withWord h v full with watches := [] }) ha hst hwait hdie.symm v))
  refine ⟨?_, ?_, (s.withWord h v full).toTail { p with wait := .none, done := some (.regs [(d, v)]) }, ?_, rfl⟩
  · rw [hstore]
  · rw [hstore]
    exact hword
  · rw [hstore]
    rfl

end Sys2Proof.Machine
end

section
/-! SUPPORT. What depends on the regions of a state only, and the end of a process that nothing involves (R32). -/

namespace Sys2Proof.Machine

/-! Fields that regions have (R34) -/

theorem State.region?_congr {s t : State} (h : t.regions = s.regions) (n : Nat) : t.region? n = s.region? n := by
  rw [State.region?, State.region?, h]

theorem State.effBound_congr {s t : State} (h : t.regions = s.regions) (bit : Nat) (f : Region → Nat)
    (pick : Nat → Nat → Nat) (fuel n : Nat) : t.effBound bit f pick fuel n = s.effBound bit f pick fuel n := by
  induction fuel generalizing n with
  | zero => rfl
  | succ fuel ih => simp only [State.effBound, State.region?_congr h, ih]

theorem State.effCeil_congr {s t : State} (h : t.regions = s.regions) (n : Nat) : t.effCeil n = s.effCeil n :=
  State.effBound_congr h _ _ _ _ _

/-- The own class of a process that differs from another in nothing that counts for it. -/
theorem State.ownCls_congr {s t : State} {p q : Proc} (h : t.regions = s.regions) (hd : q.dem = p.dem)
    (hb : q.base = p.base) (hr : q.region = p.region) : t.ownCls q = s.ownCls p := by
  rw [State.ownCls, State.ownCls, hd, hb, hr, State.effCeil_congr h]

/-- The own class of a process that is not demoted is its base. -/
theorem State.ownCls_base {s : State} {p : Proc} (h : p.dem = false) : s.ownCls p = p.base := by
  simp [State.ownCls, h]

/-! EXITED (R32) -/

/-- A process that has ended. -/
def Proc.ended (p : Proc) (how : Ending) : Proc :=
  { p with st := .exited, loc := .nowhere, wait := .none, done := none, fault := none, rsvs := [], loans := []
           ending := how, moving := none, streams := p.streams.map fun t => { t with bound := false } }

/-- Nothing is at any home, anchor or on its way. -/
structure State.Still (s : State) : Prop where
  watches : s.watches = []
  rsvs : s.rsvs = []
  packets : s.packets = []
  channels : s.channels = []

theorem Proc.farWords_idle {p : Proc} (hb : p.isBlocked = false) (hr : p.rsvs = []) : p.farWords = [] := by
  have hw : p.waitsOnWord = [] := by
    cases hwait : p.wait <;> simp [Proc.waitsOnWord, hwait, hb]
  simp [Proc.farWords, hw, hr]

theorem State.quitHomes_still {s : State} {p : Proc} (hs : s.Still) (hp : s.proc? p.pid = some p) (hr : p.rsvs = [])
    (on : Nat → Bool) : s.quitHomes p.pid on = s := by
  have hwithdraw : s.withdraw p.pid on = s := by
    simp only [State.withdraw, hs.watches, hs.rsvs, hs.packets, List.filter_nil, List.map_nil]
    rw [← hs.watches, ← hs.rsvs, ← hs.packets]
  have hhomes : s.watchHomes p.pid = [] := by simp [State.watchHomes, hs.watches]
  rw [State.quitHomes, hhomes, hwithdraw, List.foldl_nil, State.releaseAll, hp]
  simp [hr]

/-- A process that waits for nothing, has reserved and lent nothing, and holds no end, only becomes EXITED. -/
theorem State.exitProc_still {s : State} {p : Proc} (how : Ending) (hs : s.Still) (hl : s.Unlent)
    (hp : s.proc? p.pid = some p) (hb : p.isBlocked = false) (hr : p.rsvs = []) (hst : p.st ≠ .exited) :
    s.exitProc p.pid how = s.leaveRunning (p.ended how) := by
  have hhomes : s.leaveHomes p = s := by
    rw [State.leaveHomes, Proc.farWords_idle hb hr, State.quitHomes_still hs hp hr]
    rfl
  have hloads : s.dropLoads p.pid = s := State.dropLoads_none (by simp [hs.packets])
  have hpackets : { s with packets := s.packets.filter fun (q : Packet) => !(q.path == .mesh && q.payload == .move p.pid) } = s := by
    rw [hs.packets, List.filter_nil, ← hs.packets]
  have hends : s.leaveEnds p = s := by simp [State.leaveEnds, State.endsOf_none hs.channels]
  simp only [State.exitProc, hp, hst, if_false, hhomes, State.withdrawLoans_unlent hl, hloads, hpackets, hb,
    Bool.false_eq_true, hends, Option.getD_some]
  rfl

end Sys2Proof.Machine
end

section
/-! SUPPORT. O47: process instructions with no other process (R313–R318, log 28). -/

namespace Sys2Proof.Machine

/-! Changing class (R317) -/

theorem State.tailKey_active {s : State} {p : Proc} (hc : s.cpu = some p) (hp : s.procs = []) (hpl : p.placed = true) :
    s.tailKey p.core = max 1 (p.key + 1) := by
  simp [State.tailKey, State.onCore, State.allProcs_active hc, hp, hpl]

/-- A running process with its class made anew joins the tail of its class where EFF has changed. -/
def Proc.joinTail (q : Proc) (eff quantum : Nat) (key : Int) : Proc :=
  if q.eff = eff then q else { q with quantum := quantum, key := key }

/-- With no other process a change of class keeps the process running, with a fresh quantum where EFF changes (log 28). -/
theorem State.reclass_lone {s : State} {p : Proc} (hp : s.procs = []) (hst : p.st = .running) (hl : p.loans = []) :
    s.reclass p = .next { s with cpu := some ((p.classed (s.ownCls p)).joinTail p.eff (s.core p.core).quant
      (max 1 (p.key + 1))) } := by
  have hwings : ({ s with cpu := some (p.classed (s.ownCls p)) } : State).wings p.core = [] :=
    State.wings_running (s := { s with cpu := some (p.classed (s.ownCls p)) }) rfl hp hst p.core
  have htail : ({ s with cpu := some (p.classed (s.ownCls p)) } : State).tailKey p.core = max 1 (p.key + 1) :=
    State.tailKey_active (s := { s with cpu := some (p.classed (s.ownCls p)) }) (p := p.classed (s.ownCls p)) rfl hp (by simp [Proc.placed, Proc.classed, hst])
  simp only [State.reclass, State.reEff_unlent hl, Proc.joinTail, State.urge_wingless hwings, State.urges_wingless hwings,
    hwings, List.any_nil, Bool.or_self, Bool.false_eq_true, if_false, State.done, htail]
  split <;> rfl

/-- Writing a register and completing leave what counts for the class of a process as it was. -/
theorem Proc.advance_setX_cls (p : Proc) (d : XIdx) (v : Word) (n : Nat) :
    ((p.setX d v).advance n).st = p.st ∧ ((p.setX d v).advance n).loans = p.loans ∧
    ((p.setX d v).advance n).dem = p.dem ∧ ((p.setX d v).advance n).base = p.base ∧
    ((p.setX d v).advance n).region = p.region ∧ ((p.setX d v).advance n).eff = p.eff ∧
    ((p.setX d v).advance n).key = p.key ∧ ((p.setX d v).advance n).core = p.core := by
  obtain ⟨x, hx⟩ := p.setX_shape d v
  rw [hx]
  exact ⟨rfl, rfl, rfl, rfl, rfl, rfl, rfl, rfl⟩

theorem Proc.classed_advance_setX (p : Proc) (d : XIdx) (v : Word) (n e : Nat) :
    ((p.setX d v).advance n).classed e = behind ((p.classed e).setX d v) n := by
  unfold Proc.setX
  split <;> rfl

/-- The common end of `setcl` and `dline`: the process completes with its class made anew (R317). -/
theorem State.reclass_completes {s : State} {p q : Proc} {e : Nat} (d : XIdx) (v : Word) (hc : s.cpu = some p) (hp : s.procs = [])
    (hst : p.st = .running) (hl : p.loans = []) (hq : q.st = p.st ∧ q.loans = p.loans ∧ q.eff = p.eff ∧ q.key = p.key ∧
      q.core = p.core) (he : s.ownCls q = e) : s.reclass ((q.setX d v).advance 4) = .next { s with cpu := some (Proc.joinTail
        (behind ((q.classed e).setX d v) 4) p.eff (s.core p.core).quant (s.tailKey p.core)) } := by
  obtain ⟨hqst, hql, hqe, hqk, hqc⟩ := hq
  obtain ⟨h1, h2, h3, h4, h5, h6, h7, h8⟩ := q.advance_setX_cls d v 4
  have htail : s.tailKey p.core = max 1 (p.key + 1) := State.tailKey_active hc hp (by simp [Proc.placed, hst])
  rw [State.reclass_lone hp (h1.trans (hqst.trans hst)) (h2.trans (hql.trans hl)), h6, h7, h8, hqe, hqk, hqc, htail,
    State.ownCls_congr (s := s) rfl h3 h4 h5, he, Proc.classed_advance_setX]

section
variable {s : State} {p : Proc}

/-- `setcl` for a class outside 1 to 3. -/
theorem execSetcl_refuses (hc : s.cpu = some p) {d a : XIdx} (hx : (p.getX a).toNat = 0 ∨ 3 < (p.getX a).toNat) :
    Completes (.setcl d a) s (behind (p.setX d 2) 4) := by
  show execSetcl d a s = _
  rw [execSetcl, withProc_some hc, if_pos hx.symm]
  rfl

theorem Proc.leaveClass0_other (h : p.base ≠ 0) : p.leaveClass0 = p := if_neg h

theorem execSetcl_sets (hc : s.cpu = some p) (hp : s.procs = []) (hst : p.st = .running) (hl : p.loans = [])
    {d a : XIdx} (h1 : 1 ≤ (p.getX a).toNat) (h3 : (p.getX a).toNat ≤ 3) (hb : p.base ≠ 0) (hd : p.dem = false) :
    let base := max (p.getX a).toNat (s.effCeil p.region)
    Completes (.setcl d a) s (Proc.joinTail (behind ({ p with base := base, eff := base, inh := false }.setX d
      (if (p.getX a).toNat < s.effCeil p.region then 3 else 0)) 4) p.eff (s.core p.core).quant (s.tailKey p.core)) := by
  have hx : ¬(3 < (p.getX a).toNat ∨ (p.getX a).toNat = 0) := by omega
  intro base
  show execSetcl d a s = _
  rw [execSetcl, withProc_some hc]
  simp only [if_neg hx, Proc.leaveClass0_other hb]
  refine State.reclass_completes d _ hc hp hst hl ?_ ?_
  · exact ⟨rfl, rfl, rfl, rfl, rfl⟩
  · exact State.ownCls_base hd

/-- `dline` with parameters out of the range of R41. -/
theorem execDline_refuses (hc : s.cpu = some p) {d a b : XIdx} (hx : paramsOk (p.getX a).toNat (p.getX b).toNat = false) :
    Completes (.dline d a b) s (behind (p.setX d 2) 4) := by
  show execDline d a b s = _
  rw [execDline, withProc_some hc]
  simp only [hx, Bool.not_false, if_true]
  rfl

theorem execDline_capped (hc : s.cpu = some p) (hp : s.procs = []) (hst : p.st = .running) (hl : p.loans = [])
    {d a b : XIdx} (hx : paramsOk (p.getX a).toNat (p.getX b).toNat = true) (hceil : s.effCeil p.region ≠ 0)
    (hb : p.base ≠ 0) (hd : p.dem = false) :
    let base := s.effCeil p.region
    Completes (.dline d a b) s (Proc.joinTail (behind ({ p with base := base, eff := base, inh := false }.setX d 3) 4)
      p.eff (s.core p.core).quant (s.tailKey p.core)) := by
  show execDline d a b s = _
  rw [execDline, withProc_some hc]
  simp only [hx, Bool.not_true, Bool.false_eq_true, if_false, if_pos hceil, Proc.leaveClass0_other hb]
  refine State.reclass_completes d _ hc hp hst hl ?_ ?_
  · exact ⟨rfl, rfl, rfl, rfl, rfl⟩
  · exact State.ownCls_base hd

theorem execDline_unadmitted (hc : s.cpu = some p) {d a b : XIdx} (hx : paramsOk (p.getX a).toNat (p.getX b).toNat = true)
    (hceil : s.effCeil p.region = 0) (hadm : s.admits p.core p.pid (p.getX a).toNat (p.getX b).toNat = false) :
    Completes (.dline d a b) s (behind (p.setX d 1) 4) := by
  show execDline d a b s = _
  rw [execDline, withProc_some hc]
  simp only [hx, hceil, hadm, ne_eq, not_true_eq_false, Bool.not_true, Bool.not_false, Bool.false_eq_true, if_false,
    if_true]
  rfl

theorem execDline_admitted (hc : s.cpu = some p) (hp : s.procs = []) (hst : p.st = .running) (hl : p.loans = [])
    {d a b : XIdx} (hx : paramsOk (p.getX a).toNat (p.getX b).toNat = true) (hceil : s.effCeil p.region = 0)
    (hadm : s.admits p.core p.pid (p.getX a).toNat (p.getX b).toNat = true) :
    Completes (.dline d a b) s (Proc.joinTail (behind ({ p with
      base := 0, eff := 0, inh := false, dem := false, period := (p.getX a).toNat, fullBudget := (p.getX b).toNat
      budget := BitVec.ofNat 64 (p.getX b).toNat, deadline := BitVec.ofNat 64 (s.ns + (p.getX a).toNat)
      release := s.ns + (p.getX a).toNat }.setX d 0) 4) p.eff (s.core p.core).quant (s.tailKey p.core)) := by
  show execDline d a b s = _
  rw [execDline, withProc_some hc]
  simp only [hx, hceil, hadm, ne_eq, not_true_eq_false, Bool.not_true, Bool.false_eq_true, if_false, Proc.renew]
  refine State.reclass_completes d _ hc hp hst hl ?_ ?_
  · exact ⟨rfl, rfl, rfl, rfl, rfl⟩
  · exact State.ownCls_base rfl

end

end Sys2Proof.Machine
end

section
/-! SUPPORT. O47: `exit`, `yield`, `sleep`, `migr` and `spawn` with no other process, and the clauses together. -/

namespace Sys2Proof.Machine

section
variable {s : State} {p : Proc}

/-! Leaving the active bank (R32, R40, R316) -/

theorem State.Unlent.of_active (hc : s.cpu = some p) (hp : s.procs = []) (hl : p.loans = []) (hm : s.loanMsgs = []) :
    s.Unlent :=
  ⟨by simp [State.allProcs_active hc, hp, hl], hm⟩

theorem execExit_ends (hc : s.cpu = some p) (hp : s.procs = []) (hst : p.st = .running) (hr : p.rsvs = [])
    (hs : s.Still) (hl : s.Unlent) : exec .exit s = .next { s with cpu := none, procs := [p.ended .exited] } := by
  have hend := State.exitProc_still .exited hs hl (State.proc?_active hc) (by simp [Proc.isBlocked, hst]) hr (by simp [hst])
  show execExit s = _
  rw [execExit, withProc_some hc, hend, State.leaveRunning_active (q := p.ended .exited) hc rfl, hp]
  rfl

theorem execYield_class0 (hc : s.cpu = some p) (hp : s.procs = []) (hst : p.st = .running) (he : p.eff = 0) :
    Completes .yield s (behind p 4) := by
  have hwings : ({ s with cpu := some (p.advance 4) } : State).wings p.core = [] :=
    State.wings_running (s := { s with cpu := some (p.advance 4) }) rfl hp hst p.core
  show execYield s = _
  rw [execYield, withProc_some hc]
  simp only [if_pos he, State.urge_wingless hwings]
  rfl

/-- The process that stands at a boundary goes READY with what `back` makes of it (R40, R47). -/
theorem State.stopRunning_active {q : Proc} (hc : s.cpu = some q) (hp : s.procs = []) (hw : q.wait = .none)
    (hpk : ∀ k ∈ s.packets, k.pid ≠ q.pid) (back : State → Proc → Proc) (hb : ∀ t r, (back t r).pid = r.pid) :
    s.stopRunning q back =
      ({ s with cpu := none, procs := [back s { q with tile := none, tdone := 0, lastRun := s.ns }] } : State).modCore q.core
        fun k => { k with halt := none, ghostRun := false } := by
  have hleave := State.leaveRunning_active (q := back s { q with tile := none, tdone := 0, lastRun := s.ns }) hc (hb _ _)
  rw [hp, List.nil_append] at hleave
  rw [State.stopRunning, State.dropLoads_none hpk, Proc.abandon_idle hw, ← hleave]

theorem execYield_tail (hc : s.cpu = some p) (hp : s.procs = []) (hpk : s.packets = []) (he : p.eff ≠ 0) :
    ∃ t q, exec .yield s = .next t ∧ t = { s with cpu := none, procs := [q], cores := t.cores } ∧
      q = { behind p 4 with
        st := .ready, key := q.key, quantum := (s.core p.core).quant, lastRun := s.ns, tile := none } := by
  have hstop := State.stopRunning_active (s := { s with cpu := some (p.advance 4) }) rfl hp rfl
    (by simp [hpk]) State.toTail fun _ _ => rfl
  have hexec : exec .yield s = execYield s := rfl
  rw [execYield, withProc_some hc] at hexec
  simp only [if_neg he] at hexec
  exact ⟨_, _, hexec.trans (congrArg Host.Outcome.next hstop), rfl, rfl⟩

theorem execSleep_over (hc : s.cpu = some p) {a : XIdx} (hx : (p.getX a).toNat ≤ s.ns) :
    Completes (.sleep a) s (behind p 4) := by
  show execSleep a s = _
  rw [execSleep, withProc_some hc, if_pos hx]
  rfl

theorem execSleep_blocks (hc : s.cpu = some p) (hp : s.procs = []) {a : XIdx} (hx : s.ns < (p.getX a).toNat) :
    exec (.sleep a) s = .next { s with cpu := none, procs := [blockedAs s p .sleep (.sleep (p.getX a))] } := by
  have hleave := State.leaveRunning_active (q := blockedAs s p .sleep (.sleep (p.getX a))) hc rfl
  rw [hp, List.nil_append] at hleave
  show execSleep a s = _
  rw [execSleep, withProc_some hc, if_neg (Nat.not_le.2 hx)]
  exact congrArg Host.Outcome.next hleave

/-! `migr` (R318) -/

/-- `migr` where it answers with a status at once. -/
theorem execMigr_malformed (hc : s.cpu = some p) {d a : XIdx}
    (hx : 2 ^ 32 ≤ (p.getX a).toNat ∨ (p.getX a).toNat / 2 ^ 13 % 8 ≠ 0) :
    Completes (.migr d a) s (behind (p.setX d 4) 4) := by
  have hbad : (p.getX a).toNat / 2 ^ 32 ≠ 0 ∨ (p.getX a).toNat / 2 ^ 13 % 8 ≠ 0 := by omega
  show execMigr d a s = _
  rw [execMigr, withProc_some hc]
  simp only [if_pos hbad]
  rfl

section
variable {d a : XIdx} (hc : s.cpu = some p) (hx : (p.getX a).toNat < 2 ^ 32) (hz : (p.getX a).toNat / 2 ^ 13 % 8 = 0)
include hc hx hz

theorem execMigr_absent (hdie : s.diePresent ((p.getX a).toNat % 8192 / 1024) = false) :
    Completes (.migr d a) s (behind (p.setX d 3) 4) := by
  have hok : ¬((p.getX a).toNat / 2 ^ 32 ≠ 0 ∨ (p.getX a).toNat / 2 ^ 13 % 8 ≠ 0) := by omega
  show execMigr d a s = _
  rw [execMigr, withProc_some hc]
  simp only [if_neg hok, dieOf, hdie, Bool.not_false, if_true]
  rfl

theorem execMigr_own (hdie : s.diePresent ((p.getX a).toNat % 8192 / 1024) = true)
    (hcore : (p.getX a).toNat % 8192 = p.core) : Completes (.migr d a) s (behind (p.setX d 0) 4) := by
  have hok : ¬((p.getX a).toNat / 2 ^ 32 ≠ 0 ∨ (p.getX a).toNat / 2 ^ 13 % 8 ≠ 0) := by omega
  show execMigr d a s = _
  rw [execMigr, withProc_some hc]
  simp only [if_neg hok, dieOf, hdie, Bool.not_true, Bool.false_eq_true, if_false, if_pos hcore]
  rfl

theorem execMigr_leaves (hp : s.procs = []) (hpk : s.packets = []) (hch : s.channels = [])
    (hdie : s.diePresent ((p.getX a).toNat % 8192 / 1024) = true) (hcore : (p.getX a).toNat % 8192 ≠ p.core)
    (hmove : s.canMove ((p.getX a).toNat % 8192) p = true) (hadm : s.canAdmit ((p.getX a).toNat % 8192) p = true) :
    ∃ t, exec (.migr d a) s = .next t ∧ t = { s with cpu := none, cores := t.cores, procs := [{ p with
      st := .parked none, loc := .park, wait := .migrating ((p.getX a).toNat % 8192) d true, lastRun := s.ns }] } := by
  have hok : ¬((p.getX a).toNat / 2 ^ 32 ≠ 0 ∨ (p.getX a).toNat / 2 ^ 13 % 8 ≠ 0) := by omega
  have hleave := State.leaveRunning_active (q := { p with
      st := .parked none, loc := .park, wait := .migrating ((p.getX a).toNat % 8192) d true, lastRun := s.ns }) hc rfl
  rw [hp, List.nil_append] at hleave
  have hloads : s.dropLoads p.pid = s := State.dropLoads_none (by simp [hpk])
  have hexec : exec (.migr d a) s = execMigr d a s := rfl
  rw [execMigr, withProc_some hc] at hexec
  simp only [if_neg hok, dieOf, hdie, Bool.not_true, Bool.false_eq_true, if_false, if_neg hcore, hmove, hadm, hloads,
    hleave] at hexec
  exact ⟨_, hexec.trans (congrArg Host.Outcome.next (State.transitEnds_none (by exact hch) _ _)), rfl⟩

end

end

end Sys2Proof.Machine
end

section
/-! SUPPORT. O47: `spawn` with a block in order (R313, R314), and the clauses together. -/

namespace Sys2Proof.Machine

/-- The words of the spawn block at x[A], in the own memory. -/
def State.blockWord (s : State) (p : Proc) (a : XIdx) (i : Nat) : Word :=
  BitVec.ofNat 64 (s.mem.read (homeAt p (p.getX a) + 8 * i) 8)

/-- The NEW process of a spawn block. -/
def State.spawned (s : State) (w : Nat → Word) : Proc :=
  (((s.newProc s.nextPid (fieldOf (w 1) 16 16) (if (w 1).getLsbD 2 then .s else .u)
    (clsOf (fieldOf (w 1) 8 8) (fieldOf (w 1) 0 2)) (fieldOf (w 1) 8 8) (fieldOf (w 1) 3 2) (fieldOf (w 2) 0 32)
    (fieldOf (w 2) 32 32) (w 0)).setX 2 (w 4)).setX 3 (w 5)).setX 4 (w 6)

/-- The one member of a spawn's placement. -/
def State.spawnMember (s : State) (p : Proc) (w : Nat → Word) : Member :=
  { pid := s.nextPid, die := fieldOf (w 3) 0 3, clus := fieldOf (w 3) 4 2, first := fieldOf (w 3) 8 8
    last := fieldOf (w 3) 16 8, result := s.resultHome p.core (w 7).toNat, issuer := p.pid, issuerCore := p.core
    issuerPc := p.pc, issuerCoord := s.coord p.core }

/-- The placement that a spawn opens. -/
def State.spawnPlacement (s : State) (p : Proc) (w : Nat → Word) : Placement :=
  { id := s.nextId, region := fieldOf (w 1) 16 16, group := fieldOf (w 3) 24 12
    gcount := if fieldOf (w 3) 24 12 = 0 then 1 else fieldOf (w 3) 36 12, members := [s.spawnMember p w], t0 := s.ns }

/-- A spawn with no open group opens a placement and makes one attempt. -/
theorem State.doSpawn_opens {s : State} (p : Proc) (d : XIdx) (w : Nat → Word) (hp : s.procs = [])
    (hpl : s.placements = []) : s.doSpawn p d w = ({ s with
      cpu := some (behind (p.setX d (BitVec.ofNat 64 s.nextPid)) 4), nextPid := s.nextPid + 1, nextId := s.nextId + 1
      procs := [s.spawned w], placements := [s.spawnPlacement p w] } : State).tryPlacement (s.spawnPlacement p w) := by
  have hgroup : s.openGroup (fieldOf (w 1) 16 16) (fieldOf (w 3) 24 12) = none := by simp [State.openGroup, hpl]
  simp only [State.doSpawn, hgroup, hp, hpl, List.nil_append, State.freshId]
  rfl

/-- A block that passes every check of R314, in the own memory of a process with nothing under way, is spawned. -/
theorem execSpawn_accepts {s : State} {p : Proc} {d a : XIdx} (hc : s.cpu = some p) (hpk : s.packets = [])
    (hx : (p.getX a).toNat < Config.localBytes) (hal : (p.getX a).toNat % 64 = 0)
    (hwin : p.allowed s (p.getX a) 64 .rd = true) (hm : s.marks = []) (hla : s.latent = [])
    (hpriv : (s.blockWord p a 1).getLsbD 2 = true → p.priv = .s) (hreg : fieldOf (s.blockWord p a 1) 16 16 = p.region)
    (hsome : (s.region? p.region).isSome = true) (hsub : s.inSubtree p.region p.region = true)
    (hnreg : fieldOf (s.blockWord p a 1) 8 8 ≤ 32) (hok : s.blockOk p (s.blockWord p a) = true)
    (hdie : s.diePresent (fieldOf (s.blockWord p a 3) 0 3) = true) :
    exec (.spawn d a) s = .next (s.doSpawn p d (s.blockWord p a)) := by
  have hquiet : ∀ q ∈ s.packets, q.core ≠ p.core := by simp [hpk]
  have hplace : ¬(Config.localBytes ≤ (p.getX a).toNat ∨ (p.getX a).toNat % 64 ≠ 0) := by omega
  have hmark : s.seenMarked p.core p.pid (p.getX a).toNat (globalBase p.core + (p.getX a).toNat) 64 = false := by
    simp [State.seenMarked, State.marked, hm, hla]
  have hword : (fun i => BitVec.ofNat 64 (s.seen p.core p.pid ((p.getX a).toNat + 8 * i)
      (globalBase p.core + (p.getX a).toNat + 8 * i) 8)) = s.blockWord p a := by
    funext i
    rw [seen_quiet p.pid hquiet]
    rfl
  have hmine : (if p.priv = .u then p.region == p.region
      else (s.region? p.region).isSome && s.inSubtree p.region p.region) = true := by
    split
    · exact beq_self_eq_true _
    · rw [hsome, hsub]
      rfl
  have hallowed : ((s.blockWord p a 1).getLsbD 2 && p.priv == .u) = false := by
    cases hbit : (s.blockWord p a 1).getLsbD 2 with
    | false => rfl
    | true => rw [hpriv hbit]; rfl
  show execSpawn d a s = _
  rw [execSpawn, withProc_some hc]
  simp only [if_neg hplace, hwin, heldBack_quiet _ hquiet, hmark, Bool.not_true, Bool.false_eq_true, if_false]
  simp only [congrFun hword, hreg, hmine, hallowed, if_neg (Nat.not_lt.2 hnreg), hok, hdie, Bool.not_true, Bool.or_self,
    Bool.false_eq_true, if_false]

/-- What the block says of the NEW process. -/
theorem State.spawned_fields (s : State) (w : Nat → Word) : (s.spawned w).pid = s.nextPid ∧ (s.spawned w).st = .new ∧
    (s.spawned w).region = fieldOf (w 1) 16 16 ∧ (s.spawned w).pc = w 0 ∧
    (s.spawned w).cls = clsOf (fieldOf (w 1) 8 8) (fieldOf (w 1) 0 2) ∧
    (s.spawned w).base = max (fieldOf (w 1) 3 2) (s.effCeil (fieldOf (w 1) 16 16)) ∧
    (s.spawned w).getX 2 = w 4 ∧ (s.spawned w).getX 3 = w 5 ∧ (s.spawned w).getX 4 = w 6 := by
  have hx (r : XIdx) : (s.spawned w).getX r = _ := Proc.getX_setX _ _ _ r
  refine ⟨rfl, rfl, rfl, rfl, rfl, rfl, ?_, ?_, ?_⟩ <;> simp [hx, Proc.getX_setX]

theorem clsOf_eq (nreg ctx : Nat) :
    clsOf nreg ctx = if nreg = 0 then Cls.s else if ctx = 0 then .s else if ctx = 1 then .v else .t := by
  unfold clsOf
  match ctx with
  | 0 => rfl
  | 1 => rfl
  | n + 2 => simp

/-- Settles O47: one lemma for each way that an instruction ends. -/
theorem processInstructions : Obligations.ProcessInstructions := by
  intro s p a b d hc hf hst hp hch hpk hw hr hpr hl hm hh x y ceil gives joins
  have hlent := State.Unlent.of_active hc hp hl hm
  have hparams : paramsOk x y = true ↔ 10000 ≤ x ∧ x < 2 ^ 32 ∧ 1000 ≤ y ∧ y ≤ x := by simp [paramsOk, and_assoc]
  refine ⟨execExit_ends hc hp hst hpr ⟨hw, hr, hpk, hch⟩ hlent, execYield_class0 hc hp hst, execYield_tail hc hp hpk,
    execSleep_over hc, execSleep_blocks hc hp, execSetcl_refuses hc, execSetcl_sets hc hp hst hl, fun hx => ?_,
    fun h1 h2 h3 h4 => ?_, execMigr_malformed hc, fun hx hz => ⟨execMigr_absent hc hx hz, execMigr_own hc hx hz,
      execMigr_leaves hc hx hz hp hpk hch⟩, ?_⟩
  · exact execDline_refuses hc (Bool.eq_false_iff.2 fun h => hx (hparams.1 h))
  · have hok : paramsOk x y = true := hparams.2 ⟨h1, h2, h3, h4⟩
    exact ⟨execDline_capped hc hp hst hl hok, execDline_unadmitted hc hok, execDline_admitted hc hp hst hl hok⟩
  · intro w cls base hx hal hwin hmarks hlatent hpriv hreg hsome hsub hnreg hok hdie hpl
    have hspawn := execSpawn_accepts (d := d) hc hpk hx hal hwin hmarks hlatent hpriv hreg hsome hsub hnreg hok hdie
    obtain ⟨hpid, hnew, hregion, hpc, hcls, hbase, h2, h3, h4⟩ := s.spawned_fields w
    exact ⟨s.spawned w, s.spawnPlacement p w, s.spawnMember p w,
      hspawn.trans (congrArg Host.Outcome.next (State.doSpawn_opens p d w hp hpl)), hpid, hnew, hregion.trans hreg, hpc,
      hcls.trans (clsOf_eq _ _), hbase, h2, h3, h4, rfl, rfl, rfl, rfl, rfl, rfl⟩

end Sys2Proof.Machine
end

section
/-! SUPPORT. O52: FILL_DONE does not fill for a process that compaction has sent to another die (R50, R51): it stays PARKED
until MIGRATION ends its move, and the last clause of the statement does not exclude it. -/

namespace Sys2Proof.Machine

/-- No fill is pending for a process that is on its way to another core. -/
theorem State.nextFill_moving {s : State} {p : Proc} (hc : s.cpu = none) (hp : s.procs = [p]) (hb : p.bound?.isNone = false)
    (c : Nat) : s.nextFill c = none := by
  have hwants : p.wantsFill = false := by simp [Proc.wantsFill, hb]
  rw [State.nextFill, State.onCore, State.allProcs_single hc hp, List.filter_singleton]
  cases p.placed && p.core == c with
  | false => rfl
  | true => simp [hwants]

/-- FILL_DONE changes nothing then. -/
theorem execFillDone_moving {s : State} {p : Proc} (hc : s.cpu = none) (hp : s.procs = [p])
    (hb : p.bound?.isNone = false) : exec .fillDone s = .next s := by
  show execFillDone s = _
  simp only [execFillDone, State.nextFill_moving hc hp hb]

/-- A process that compaction takes from core 3 of die 0 to core 0 of die 1, as PLACEMENT_COMPACTION leaves it. -/
def compactedProc : Proc :=
  { pid := 5, region := 1, priv := .u, cls := .s, nregs := 8, st := .parked none, loc := .park, core := 3
    moving := some 1024 }

/-- The package while the packet of that move is under way; FILL_DONE concerns core 3. -/
def compactedState : State := { State.reset with procs := [compactedProc], subj := .id 3 }.sendMove compactedProc 1024

/-- Refutes O52: a process that compaction has sent to another die is PARKED with no wait and its context in the park area,
and FILL_DONE leaves it so. -/
theorem not_schedulerEvents : ¬ Obligations.SchedulerEvents := by
  rintro ⟨-, -, -, -, -, hfill⟩
  obtain ⟨q, hexec, hq⟩ := hfill compactedState compactedProc ⟨rfl, rfl, rfl, rfl⟩ rfl rfl rfl rfl
  rw [execFillDone_moving (p := compactedProc) rfl rfl rfl] at hexec
  have hprocs : [compactedProc] = [q] := congrArg State.procs (Host.Outcome.next.inj hexec)
  have hready : q.st = .ready := by rw [hq]
  rw [← List.singleton_inj.1 hprocs] at hready
  exact absurd hready nofun

end Sys2Proof.Machine
end

section
/-! SUPPORT. O54: the RESULT word of a spawn (R315), the one member of its placement placed or given up (R50). -/

namespace Sys2Proof.Machine

/-! The RESULT word (R245, R315) -/

/-- The RESULT word at an address, none for 0, has taken a value, and no other byte of memory has changed. -/
def Wrote (s t : State) (a v : Nat) : Prop :=
  (a = 0 → t.mem = s.mem ∧ t.empty = s.empty) ∧
    (a ≠ 0 → t.word a = BitVec.ofNat 64 v ∧ t.isFull a = true ∧ ∀ x, x < a ∨ a + 8 ≤ x → t.mem.get x = s.mem.get x)

/-- An address at which the stage manager can write a RESULT word at once: none, or a word of a home of die 0. -/
def State.ResultNear (s : State) (a : Nat) : Prop :=
  a = 0 ∨ 0x4000000000 ≤ a ∧ a % 8 = 0 ∧ homeDie a = 0 ∧ s.homeGone a = false

/-- A completion word that the stage manager writes to calm memory of die 0 lands at once and is full. -/
theorem State.engineWrite_word {s : State} {a : Nat} (v : Nat) (report : Option Author) (region owner : Nat) (hc : Calm s)
    (ha : 0x4000000000 ≤ a) (hal : a % 8 = 0) (hdie : homeDie a = 0) (hgone : s.homeGone a = false) :
    s.engineWrite 0 (engineWord a 8 v) report region owner =
      { s with mem := s.mem.write a 8 (v % 2 ^ (8 * 8)), empty := eraseAddr a s.empty, nextId := s.nextId + 1 } := by
  obtain ⟨hr, hw, ht, hm, hl, -, -, -⟩ := hc
  have hrow : ¬(0x2000000000 ≤ (engineWord a 8 v).addr ∧ (engineWord a 8 v).addr < 0x4000000000) := fun h => by
    have h2 : a < 0x4000000000 := h.2
    omega
  have hdie' : homeDie (engineWord a 8 v).addr = 0 := hdie
  have hgone' : ({ s with nextId := s.nextId + 1 } : State).homeGone (engineWord a 8 v).addr = false := hgone
  have hqueued (w : Nat) : ({ s with nextId := s.nextId + 1 } : State).queued w = false := by simp [State.queued, hr]
  have hword : wordAt (engineWord a 8 v).addr = a := by
    show a / 8 * 8 = a
    omega
  have hmarks : (engineWord a 8 v).marks { s with nextId := s.nextId + 1 } = s.marks := by
    simp [WriteEff.marks, engineWord, hm, eraseAddr]
  have hbits : (engineWord a 8 v).bits { s with nextId := s.nextId + 1 } = eraseAddr a s.empty := by
    rw [WriteEff.bits, hword]
    rfl
  have happly := State.applyWrite_calm (s := { s with nextId := s.nextId + 1 }) (engineWord a 8 v) hw ht hl
  rw [hmarks, hbits] at happly
  simp only [State.engineWrite, State.freshId, if_neg hrow, hdie', true_or, if_true, State.landEngine, hgone',
    Bool.false_eq_true, if_false, State.landWrite, hqueued, happly]
  rfl

theorem State.writeResult_wrote {s : State} {m : Member} (v : Nat) (hc : Calm s) (hm : s.ResultNear m.result) :
    ∃ mem empty id, s.writeResult m v = { s with mem := mem, empty := empty, nextId := id } ∧
      Wrote s { s with mem := mem, empty := empty, nextId := id } m.result v := by
  by_cases hz : m.result = 0
  · exact ⟨s.mem, s.empty, s.nextId, if_pos hz, fun _ => ⟨rfl, rfl⟩, fun h => absurd hz h⟩
  · obtain ⟨ha, hal, hdie, hgone⟩ := hm.resolve_left hz
    have hwf : s.mem.wf = true := hc.2.2.2.2.2.2.2.1
    refine ⟨s.mem.write m.result 8 (v % 2 ^ (8 * 8)), eraseAddr m.result s.empty, s.nextId + 1, ?_, fun h => absurd h hz,
      fun _ => ⟨?_, ?_, fun x hx => Memory.get_write_other hx hwf⟩⟩
    · rw [State.writeResult, if_neg hz]
      exact State.engineWrite_word v _ _ _ hc ha hal hdie hgone
    · show BitVec.ofNat 64 ((s.mem.write m.result 8 (v % 2 ^ (8 * 8))).read m.result 8) = _
      rw [Memory.read_write _ _ _ hwf]
      exact BitVec.eq_of_toNat_eq (by simp)
    · simp [State.isFull, eraseAddr]

/-! One member on a core of its own (R50, R314) -/

/-- A NEW process on the core that takes it, before it is READY there. -/
def State.taken (s : State) (c : Nat) (p : Proc) : Proc := Proc.classed { p with core := c, since := s.ns } (s.ownCls p)

theorem State.makeRoom_fits {s : State} {c units : Nat} (h : s.fits c units = true) (eff n : Nat) :
    s.makeRoom c units eff n = some s := by
  cases n <;> simp [State.makeRoom, h]

/-- The green room of a core on which no process lives takes a context of any class. -/
theorem State.fits_empty {s : State} {c : Nat} (h : s.onCore c = []) (cls : Cls) : s.fits c cls.units = true := by
  cases cls <;> simp [State.fits, State.greenUsed, h, Cls.units, Config.greenUnits]

section
variable {s : State} {p : Proc} (hc : s.cpu = none) (hp : s.procs = [p]) (hch : s.channels = [])
include hc hp

theorem State.onCore_new (hst : p.st = .new) (c : Nat) : s.onCore c = [] := by
  simp [State.onCore, State.allProcs_single hc hp, Proc.placed, hst]

theorem State.claimants_new (hst : p.st = .new) (c : Nat) : s.claimants c = [] := by
  simp [State.claimants, State.allProcs_single hc hp, Proc.claims, Proc.placed, hst]

include hch

/-- A context in the green room needs no park area. -/
theorem State.parkOk_green (hl : p.loc = .green) (c : Nat) : s.parkOk c = true := by
  have hbytes : s.parkedBytes c = 0 := by
    have hnone : (s.claimants c).filter (·.loc == .park) = [] := by
      refine List.filter_eq_nil_iff.2 fun q hq => ?_
      have hq' : q = p := by simpa [State.allProcs_single hc hp] using List.mem_of_mem_filter hq
      simp [hq', hl]
    rw [State.parkedBytes, hnone]
    rfl
  simp [State.parkOk, hbytes, State.slotsOn, hch]

/-- The core that can take the one process, a NEW one outside class 0, takes it into its green room. -/
theorem State.placeOn_takes {c : Nat} (hst : p.st = .new) (hb : p.base ≠ 0) (hl : p.loans = [])
    (htakes : s.coreTakes c = true) (hbud : s.budgetsOk c p = true) :
    ∃ q, s.placeOn c p = some { s with procs := [q] } ∧ q = { p with
      st := .ready, loc := .green, core := c, since := s.ns, eff := q.eff, inh := q.inh, key := q.key
      quantum := (s.core c).quant } := by
  have hdesc : s.descriptorsOk c = true := by simp [State.descriptorsOk, State.claimants_new hc hp hst]
  have hent : s.entriesOk c p.pid = true := by
    simp [State.entriesOk, State.entriesOn, State.claimants_new hc hp hst, State.endsOf_none hch]
  have hbase : (p.base != 0) = true := by simp [hb]
  have heff : s.reEff { p with core := c, since := s.ns } = s.taken c p := State.reEff_unlent hl
  have hput : s.putProc (s.taken c p) = { s with procs := [s.taken c p] } := State.putProc_single hc hp rfl
  have hroom (n : Nat) := State.makeRoom_fits (s := { s with procs := [s.taken c p] })
    (State.fits_empty (State.onCore_new (s := { s with procs := [s.taken c p] }) hc rfl hst c) p.cls) (s.taken c p).eff n
  have hready := State.putProc_urge_single (s := { s with procs := [s.taken c p] })
    (q := ({ s with procs := [s.taken c p] } : State).toTail { s.taken c p with loc := .green }) hc rfl rfl nofun c
  have hpark := State.parkOk_green (s := { s with procs := [({ s with procs := [s.taken c p] } : State).toTail
    { s.taken c p with loc := .green }] }) hc rfl hch rfl c
  have hunits : (s.taken c p).cls.units = p.cls.units := rfl
  refine ⟨({ s with procs := [s.taken c p] } : State).toTail { s.taken c p with loc := .green }, ?_, rfl⟩
  simp only [State.placeOn, htakes, hdesc, hbud, hent, hbase, Bool.true_or, Bool.and_self, if_true, if_neg hb, heff, hput,
    hunits, hroom, hready, hpark]

end

theorem State.placeOn_refused {s : State} {c : Nat} (p : Proc) (h : s.coreTakes c = false) : s.placeOn c p = none := by
  simp [State.placeOn, h]

/-! The placement of one member -/

section
variable {s : State} {p : Proc} {pl : Placement} {m : Member}

/-- A spawn's one member outside class 0, on a range of one core of a die that is there, is not refused: the attempt is to
place it (R390). -/
theorem State.attempt_single (hc : s.cpu = none) (hp : s.procs = [p]) (hpk : s.packets = []) (hmem : pl.members = [m])
    (hg : pl.gcount ≤ 1) (ht : pl.thread = none) (hpid : m.pid = p.pid) (hr : m.first = m.last) (hb : p.base ≠ 0)
    (hreset : (s.die m.die).coreReset = false) :
    s.attempt pl = (s.placeOn (coreOf m.die m.clus m.first) p).elim .waits .placed := by
  have hfind : s.proc? m.pid = some p := hpid ▸ State.proc?_single hc hp
  have hcomplete : pl.complete = true := by simp [Placement.complete, hmem, hg]
  have hrefuse : s.refuses m = false := by simp [State.refuses, hreset, hfind, hb]
  have hbusy : s.engineBusy pl.images = false := by simp [State.engineBusy, hpk]
  have hrange : m.range = [coreOf m.die m.clus m.first] := by simp [Member.range, ← hr]
  simp only [State.attempt, hcomplete, State.together, ht, hmem, hbusy, Option.isNone_none, if_true, List.any_cons,
    List.any_nil, hrefuse, State.placeAll, State.placeMember, hfind, hrange, List.findSome?_cons, List.findSome?_nil,
    Bool.or_self, Bool.not_true, Bool.and_false, Bool.false_eq_true, if_false]
  cases s.placeOn (coreOf m.die m.clus m.first) p <;> rfl

theorem State.placement?_single (hpl : s.placements = [pl]) : s.placement? pl.id = some pl := by
  simp [State.placement?, hpl]

theorem State.dropPlacement_single (hpl : s.placements = [pl]) : s.dropPlacement pl.id = { s with placements := [] } := by
  simp [State.dropPlacement, hpl]

/-- A placement of one member commits: it is listed no more, and the RESULT word takes the PID (R315). -/
theorem State.commitPlacement_single (hpl : s.placements = [pl]) (hmem : pl.members = [m]) :
    s.commitPlacement pl = ({ s with placements := [] } : State).writeResult m m.pid := by
  simp only [State.commitPlacement, hmem, List.foldl_cons, List.foldl_nil, State.dropPlacement_single hpl]

/-- Where no channel is, no endpoint takes a record: it goes to the mailbox and the error ring (R55). -/
theorem State.report_posts {t : State} (h : t.channels = []) (a : Author) (c : Cause) (addr d0 d1 : Word) :
    ∃ r, t.report a c addr d0 d1 = t.postMachine r := by
  simp only [State.report, State.sendRecord, State.faultChan_none h]
  split <;> exact ⟨_, rfl⟩

/-- A placement of one member that a spawn made fails: the member ends, its RESULT word says so, its issuer is told. -/
theorem State.failPlacement_member (hmem : pl.members = [m]) (ht : pl.thread = none) :
    ∃ u d0 d1, u = ((s.dropPlacement pl.id).exitProc m.pid .neverRan).writeResult m (2 ^ 63 + 2 ^ 48 + 1) ∧
      s.failPlacement pl 1 = u.report (u.memberAuthor m) .spawn 0 d0 d1 := by
  have hissuers : pl.issuers = [m] := by simp [Placement.issuers, hmem]
  refine ⟨_, BitVec.ofNat 64 1, BitVec.ofNat 64 1, rfl, ?_⟩
  simp only [State.failPlacement, OfNat.one_ne_ofNat, if_false, List.flatMap_cons, List.flatMap_nil, List.append_nil,
    List.foldl_cons, List.foldl_nil, hmem, List.map_cons, List.map_nil, ht, Option.isSome_none, Bool.false_eq_true, hissuers]
  rfl

/-- The only process, at no home and no anchor, ends where it stands. -/
theorem State.exitProc_alone (how : Ending) (ha : Alone s p) (hs : s.Still) (hb : p.isBlocked = false) (hr : p.rsvs = [])
    (hst : p.st ≠ .exited) : s.exitProc p.pid how = { s with procs := [p.ended how] } := by
  have hlent := State.Unlent.of_alone ha
  obtain ⟨hc, hp, -, -⟩ := ha
  rw [State.exitProc_still how hs hlent (State.proc?_single hc hp) hb hr hst]
  exact State.leaveRunning_single hc hp rfl

/-- A placement of one member is given up: the process has ended without having run, and the RESULT word says so (R50, R315). -/
theorem State.failPlacement_single (ha : Alone s p) (hs : s.Still) (hpl : s.placements = [pl]) (hmem : pl.members = [m])
    (ht : pl.thread = none) (hpid : m.pid = p.pid) (hst : p.st = .new) (hr : p.rsvs = []) (hcalm : Calm s)
    (hm : s.ResultNear m.result) : Wrote s (s.failPlacement pl 1) m.result (2 ^ 63 + 2 ^ 48 + 1) ∧
      (s.failPlacement pl 1).procs = [p.ended .neverRan] ∧ (s.failPlacement pl 1).placements = [] := by
  obtain ⟨u, d0, d1, hu, hfail⟩ := State.failPlacement_member (s := s) hmem ht
  have hexit := State.exitProc_alone (s := { s with placements := [] }) .neverRan ha
    ⟨hs.watches, hs.rsvs, hs.packets, hs.channels⟩ (by simp [Proc.isBlocked, hst]) hr (by simp [hst])
  rw [State.dropPlacement_single hpl, hpid, hexit] at hu
  obtain ⟨mem, empty, id, hwrite, hwrote⟩ := State.writeResult_wrote
    (s := { s with placements := [], procs := [p.ended .neverRan] }) (m := m) (2 ^ 63 + 2 ^ 48 + 1) hcalm hm
  have hu' := hu.trans hwrite
  obtain ⟨r, hpost⟩ := State.report_posts (t := u) (by rw [hu']; exact hs.channels) (u.memberAuthor m) .spawn 0 d0 d1
  rw [hfail, hpost, hu']
  exact ⟨hwrote, rfl, rfl⟩

/-- PLACEMENT_COMMIT of one member whose core can take it (R50, R315). -/
theorem execPlacementCommit_places (ha : Alone s p) (hs : s.Still) (hpl : s.placements = [pl]) (hmem : pl.members = [m])
    (hg : pl.gcount ≤ 1) (ht : pl.thread = none) (hpid : m.pid = p.pid) (hr : m.first = m.last) (hst : p.st = .new)
    (hb : p.base ≠ 0) (hcalm : Calm s) (hsubj : s.subj = .id pl.id) (hreset : (s.die m.die).coreReset = false)
    (hm : s.ResultNear m.result) (htakes : s.coreTakes (coreOf m.die m.clus m.first) = true)
    (hbud : s.budgetsOk (coreOf m.die m.clus m.first) p = true) :
    let c := coreOf m.die m.clus m.first
    ∃ t q, exec .placementCommit s = .next t ∧ Wrote s t m.result p.pid ∧
      t = { s with procs := [q], placements := [], mem := t.mem, empty := t.empty, nextId := t.nextId } ∧
      q = { p with st := .ready, loc := .green, core := c, since := s.ns, eff := q.eff, inh := q.inh, key := q.key
                   quantum := (s.core c).quant } := by
  intro c
  obtain ⟨q, hplace, hq⟩ := State.placeOn_takes ha.1 ha.2.1 hs.channels hst hb ha.2.2.1 htakes hbud
  obtain ⟨mem, empty, id, hwrite, hwrote⟩ := State.writeResult_wrote
    (s := { s with procs := [q], placements := [] }) (m := m) p.pid hcalm hm
  have hattempt := State.attempt_single ha.1 ha.2.1 hs.packets hmem hg ht hpid hr hb hreset
  rw [hplace, Option.elim_some] at hattempt
  have hcommit := State.commitPlacement_single (s := { s with procs := [q] }) hpl hmem
  rw [hpid] at hcommit
  refine ⟨{ s with procs := [q], placements := [], mem := mem, empty := empty, nextId := id }, q, ?_, hwrote, rfl, hq⟩
  have hnum : Subject.num s.subj = pl.id := by rw [hsubj]; rfl
  show execPlacementCommit s = _
  simp only [execPlacementCommit, hnum, State.placement?_single hpl, State.tryPlacement, hattempt]
  exact congrArg Host.Outcome.next (hcommit.trans hwrite)

/-- PLACEMENT_TIMEOUT of one member whose core cannot take it (R50, R315). -/
theorem execPlacementTimeout_fails (ha : Alone s p) (hs : s.Still) (hpl : s.placements = [pl]) (hmem : pl.members = [m])
    (hg : pl.gcount ≤ 1) (ht : pl.thread = none) (hpid : m.pid = p.pid) (hr : m.first = m.last) (hst : p.st = .new)
    (hb : p.base ≠ 0) (hrsvs : p.rsvs = []) (hcalm : Calm s) (hsubj : s.subj = .id pl.id)
    (hreset : (s.die m.die).coreReset = false) (hm : s.ResultNear m.result)
    (htakes : s.coreTakes (coreOf m.die m.clus m.first) = false) (hlimit : s.placeLimit pl ≤ s.ns - pl.t0) :
    ∃ t q, exec .placementTimeout s = .next t ∧ Wrote s t m.result (2 ^ 63 + 2 ^ 48 + 1) ∧ t.procs = [q] ∧
      t.placements = [] ∧ q.pid = p.pid ∧ q.st = .exited ∧ q.ending = .neverRan := by
  have hattempt := State.attempt_single ha.1 ha.2.1 hs.packets hmem hg ht hpid hr hb hreset
  rw [State.placeOn_refused p htakes, Option.elim_none] at hattempt
  obtain ⟨hwrote, hprocs, hplaces⟩ := State.failPlacement_single ha hs hpl hmem ht hpid hst hrsvs hcalm hm
  refine ⟨_, p.ended .neverRan, ?_, hwrote, hprocs, hplaces, rfl, rfl, rfl⟩
  have hnum : Subject.num s.subj = pl.id := by rw [hsubj]; rfl
  show execPlacementTimeout s = _
  simp only [execPlacementTimeout, hnum, State.placement?_single hpl, if_neg (Nat.not_lt.2 hlimit), hattempt]

end

end Sys2Proof.Machine
end

section
/-! SUPPORT. O54: moves of the one process (R50, R51, R318), a loan that reaches a READY borrower (R45), and the clauses
together. -/

namespace Sys2Proof.Machine

/-! Moving the one process where there are no channels (R51) -/

section
variable {s : State} {p : Proc}

theorem State.beginMove_alone {q : Proc} (hc : s.cpu = none) (hp : s.procs = [q]) (hq : p.pid = q.pid)
    (hch : s.channels = []) : s.beginMove p = { s with procs := [{ p with loc := .park }] } := by
  rw [State.beginMove, State.putProc_single (q := { p with loc := .park }) hc hp hq]
  exact State.transitEnds_none (by exact hch) _ _

/-- Descriptor and context stand on the new core, the class its own there. -/
theorem State.finishMove_alone {q : Proc} (hc : s.cpu = none) (hp : s.procs = [q]) (hq : p.pid = q.pid)
    (hch : s.channels = []) (hi : p.image = none) (hl : p.loans = []) (c : Nat) :
    s.finishMove p c = { s with procs := [Proc.classed { p with core := c, loc := .park } (s.ownCls p)] } := by
  have himage : s.moveImage p c = s := by simp only [State.moveImage, hi]
  have hrings : s.moveRings p c = s := by
    rw [State.moveRings, hch, List.map_nil, ← hch]
  have heff : s.reEff { p with core := c, loc := .park } = Proc.classed { p with core := c, loc := .park } (s.ownCls p) :=
    State.reEff_unlent hl
  have hput := State.putProc_single (q := Proc.classed { p with core := c, loc := .park } (s.ownCls p)) hc hp hq
  have hlent : ∀ r ∈ State.allProcs { s with procs := [Proc.classed { p with core := c, loc := .park } (s.ownCls p)] },
      r.loans = [] := by
    simp [State.allProcs, hc, Proc.classed, hl]
  rw [State.finishMove, himage, hrings, heff, hput, State.refreshBorrowers_unlent hlent]
  exact State.transitEnds_none (by exact hch) _ _

/-- A process with nothing under way can be moved (R51). -/
theorem State.settledProc_still (hpk : s.packets = []) (ht : s.transfers = []) (hr : s.requests = []) (pid : Nat) :
    s.settledProc pid = true := by
  simp only [State.settledProc, hpk, ht, hr, List.any_nil, Bool.not_false, Bool.true_and, Bool.and_self]
  split <;> rfl

/-! Compaction (R50) -/

/-- A READY process that compaction takes from its core: PARKED, with a fill pending. -/
def Proc.parkedAt (p : Proc) (ns : Nat) : Proc := { p with st := .parked none, loc := .park, since := ns }

theorem State.spill_ready (hc : s.cpu = none) (hp : s.procs = [p]) (hst : p.st = .ready) :
    s.spill p = { s with procs := [p.parkedAt s.ns] } := by
  have hput := State.putProc_single (q := p.parkedAt s.ns) hc hp rfl
  simp only [State.spill, hst, if_true]
  exact hput

/-- What compaction does with a READY process that may move to a core of its die, or of another (R51, R321). -/
theorem State.compactOne_ready {c : Nat} (hc : s.cpu = none) (hp : s.procs = [p]) (hl : p.loans = [])
    (hch : s.channels = []) (hset : s.settledProc p.pid = true) (hst : p.st = .ready) (hw : p.wait = .none)
    (hi : p.image = none) (hmv : p.moving = none) (hcore : p.core ≠ c) (hmove : s.canMove c p = true)
    (hadm : s.canAdmit c p = true) : s.compactOne p.region p.pid c =
      if dieOf c = dieOf p.core then
        { s with procs := [Proc.classed { p.parkedAt s.ns with core := c } (s.ownCls p)] }
      else State.sendMove { s with procs := [{ p.parkedAt s.ns with moving := some c }] } (p.parkedAt s.ns) c := by
  have hmovable : s.movable p.region p = true := by simp [State.movable, hset, Proc.bound?, hw, hmv, hst]
  have hask : p.asking = false := by simp [Proc.asking, hw]
  have hne : (p.core == c) = false := by simp [hcore]
  have hrun : ¬p.st = .running := by simp [hst]
  have hfind : ({ s with procs := [p.parkedAt s.ns] } : State).proc? p.pid = some (p.parkedAt s.ns) :=
    State.proc?_single (s := { s with procs := [p.parkedAt s.ns] }) (p := p.parkedAt s.ns) hc rfl
  simp only [State.compactOne, State.proc?_single hc hp, hmovable, hask, hne, hmove, hadm, Bool.not_true, Bool.or_self,
    Bool.false_eq_true, if_false, if_neg hrun, Option.getD_some, State.spill_ready hc hp hst, hfind]
  refine if_congr Iff.rfl ?_ ?_
  · have hbegin : State.beginMove { s with procs := [p.parkedAt s.ns] } (p.parkedAt s.ns) =
        { s with procs := [p.parkedAt s.ns] } := State.beginMove_alone hc rfl rfl hch
    rw [hbegin, hfind, Option.getD_some]
    exact State.finishMove_alone (s := { s with procs := [p.parkedAt s.ns] }) hc rfl rfl hch hi hl c
  · exact congrArg (State.sendMove · (p.parkedAt s.ns) c)
      (State.beginMove_alone (s := { s with procs := [p.parkedAt s.ns] }) hc rfl rfl hch)

/-- PLACEMENT_COMPACTION of one move (R50). -/
theorem execPlacementCompaction_moves {pl : Placement} {c : Nat} (hpl : s.placements = [pl]) (hcomp : pl.compacted = false)
    (hlimit : s.placeLimit pl ≤ (s.ns - pl.t0) * 2) (hsubj : s.subj = .moves pl.id [(p.pid, c)])
    (hreg : p.region = pl.region) : exec .placementCompaction s =
      .next (State.compactOne { s with placements := [{ pl with compacted := true }] } p.region p.pid c) := by
  rw [hreg]
  have hdue : ¬(pl.compacted = true ∨ (s.ns - pl.t0) * 2 < s.placeLimit pl) := by
    rw [hcomp]
    rintro (h | h)
    · exact Bool.noConfusion h
    · exact absurd h (Nat.not_lt.2 hlimit)
  have hmark : s.placements.map (fun q => if q.id = pl.id then { q with compacted := true } else q) =
      [{ pl with compacted := true }] := by simp [hpl]
  show execPlacementCompaction s = _
  unfold execPlacementCompaction
  split
  next id ms hs =>
    obtain ⟨rfl, rfl⟩ : pl.id = id ∧ [(p.pid, c)] = ms := by simpa using hsubj.symm.trans hs
    simp only [State.placement?_single hpl, if_neg hdue, hmark, List.foldl_cons, List.foldl_nil]
  next hs => exact absurd hsubj (hs _ _)

/-! MIGRATION (R51, R318) -/

/-- A process whose `migr` ends with a status. -/
def Proc.migrated (p : Proc) (d : XIdx) (ns : Nat) (k : Word) : Proc :=
  { p with wait := .none, done := some (.regs [(d, k)]), since := ns }

section
variable {c : Nat} {d : XIdx} {self : Bool} (ha : Alone s p) (hch : s.channels = []) (hw : p.wait = .migrating c d self)
  (hsubj : s.subj = .id p.pid)
include ha hch hw hsubj

theorem execMigration_packet {k : Packet} (hi : p.image = none) (hpk : s.packets = [k]) (hpay : k.payload = .move p.pid)
    (hpath : k.path = .mesh) (htakes : s.coreTakes c = true) : exec .migration s = .next { s with packets := [], procs :=
      [Proc.classed { p.migrated d s.ns 0 with core := c, loc := .park } (s.ownCls p)] } := by
  obtain ⟨hc, hp, hl, -⟩ := ha
  have hnum : Subject.num s.subj = p.pid := by rw [hsubj]; rfl
  have hmove : s.movePacket p.pid = some k := by simp [State.movePacket, hpk, hpay]
  have hdrop : s.dropPacket k.id = { s with packets := [] } := by simp [State.dropPacket, hpk]
  have hfinish : State.finishMove { s with packets := [] } (p.migrated d s.ns 0) c = { s with packets := [], procs :=
      [Proc.classed { p.migrated d s.ns 0 with core := c, loc := .park } (s.ownCls p)] } :=
    State.finishMove_alone (s := { s with packets := [] }) (p := p.migrated d s.ns 0) hc hp rfl hch hi hl c
  have htakes' : ({ s with packets := [] } : State).coreTakes c = true := htakes
  show execMigration s = _
  simp only [execMigration, hnum, State.proc?_single hc hp, hw, hmove, hpath, ne_eq, not_true_eq_false, if_false, hdrop,
    htakes', if_true]
  exact congrArg Host.Outcome.next hfinish

variable (ht : s.transfers = []) (hr : s.requests = []) (hst : p.st = .parked none) (hpk : s.packets = [])
include ht hr hst hpk

theorem execMigration_near (hi : p.image = none) (htakes : s.coreTakes c = true) (hdie : dieOf c = dieOf p.core) :
    exec .migration s = .next { s with packets := [], procs :=
      [Proc.classed { p.migrated d s.ns 0 with core := c, loc := .park } (s.ownCls p)] } := by
  obtain ⟨hc, hp, hl, -⟩ := ha
  have hnum : Subject.num s.subj = p.pid := by rw [hsubj]; rfl
  have hmove : s.movePacket p.pid = none := by simp [State.movePacket, hpk]
  have hready : p.st = .parked none ∧ s.settledProc p.pid = true := ⟨hst, State.settledProc_still hpk ht hr _⟩
  have hpresent : s.diePresent (dieOf c) = true := by
    simp only [State.coreTakes, State.corePresent, Bool.and_eq_true] at htakes
    exact htakes.1.2
  have hfinish : s.finishMove (p.migrated d s.ns 0) c = { s with procs :=
      [Proc.classed { p.migrated d s.ns 0 with core := c, loc := .park } (s.ownCls p)] } :=
    State.finishMove_alone (p := p.migrated d s.ns 0) hc hp rfl hch hi hl c
  show execMigration s = _
  simp only [execMigration, hnum, State.proc?_single hc hp, hw, hmove, if_pos hready, hpresent, htakes, if_pos hdie, Bool.not_true,
    Bool.false_eq_true, if_false]
  rw [← hpk]
  exact congrArg Host.Outcome.next hfinish

omit hch in
theorem execMigration_far (htakes : s.coreTakes c = true) (hdie : dieOf c ≠ dieOf p.core) :
    ∃ k, exec .migration s = .next { s with packets := [k], nextId := s.nextId + 1 } ∧ k.payload = .move p.pid ∧
      k.dst = dieOf c := by
  obtain ⟨hc, hp, hl, -⟩ := ha
  have hnum : Subject.num s.subj = p.pid := by rw [hsubj]; rfl
  have hmove : s.movePacket p.pid = none := by simp [State.movePacket, hpk]
  have hready : p.st = .parked none ∧ s.settledProc p.pid = true := ⟨hst, State.settledProc_still hpk ht hr _⟩
  have hpresent : s.diePresent (dieOf c) = true := by
    simp only [State.coreTakes, State.corePresent, Bool.and_eq_true] at htakes
    exact htakes.1.2
  have hexec : exec .migration s = execMigration s := rfl
  simp only [execMigration, hnum, State.proc?_single hc hp, hw, hmove, if_pos hready, hpresent, htakes, if_neg hdie,
    Bool.not_true, Bool.false_eq_true, if_false, State.sendMove, State.freshId, hpk, List.nil_append] at hexec
  exact ⟨_, hexec, rfl, rfl⟩

theorem execMigration_absent (hdie : s.diePresent (dieOf c) = false) :
    exec .migration s = .next { s with procs := [p.migrated d s.ns 3] } := by
  obtain ⟨hc, hp, hl, -⟩ := ha
  have hnum : Subject.num s.subj = p.pid := by rw [hsubj]; rfl
  have hmove : s.movePacket p.pid = none := by simp [State.movePacket, hpk]
  have hready : p.st = .parked none ∧ s.settledProc p.pid = true := ⟨hst, State.settledProc_still hpk ht hr _⟩
  have hput := State.putProc_single (q := p.migrated d s.ns 3) hc hp rfl
  have hends := State.transitEnds_none (s := s.putProc (p.migrated d s.ns 3)) (by rw [hput]; exact hch) p.pid false
  show execMigration s = _
  simp only [execMigration, hnum, State.proc?_single hc hp, hw, hmove, if_pos hready, hdie, Bool.not_false, if_true]
  exact congrArg Host.Outcome.next (hends.trans hput)

end

end

end Sys2Proof.Machine
end

section
/-! SUPPORT. O54: a loan that reaches a READY borrower (R45), and the clauses together. -/

namespace Sys2Proof.Machine

section
variable {s : State} {l p : Proc}

/-! A lender and a borrower, neither running -/

theorem State.proc?_first (hc : s.cpu = none) (hp : s.procs = [l, p]) : s.proc? l.pid = some l := by
  simp [State.proc?, hc, hp]

theorem State.proc?_second (hc : s.cpu = none) (hp : s.procs = [l, p]) (hne : l.pid ≠ p.pid) : s.proc? p.pid = some p := by
  simp [State.proc?, hc, hp, hne]

theorem State.putProc_second {q : Proc} (hc : s.cpu = none) (hp : s.procs = [l, p]) (hne : l.pid ≠ p.pid)
    (hq : q.pid = p.pid) : s.putProc q = { s with procs := [l, q] } := by
  simp [State.putProc, hc, hp, hq, hne]

theorem State.runningOn_pair (hc : s.cpu = none) (hp : s.procs = [l, p]) (hl : l.st ≠ .running) (hst : p.st ≠ .running)
    (c : Nat) : s.runningOn c = none := by
  simp [State.runningOn, hc, hp, hl, hst]

/-- EFF with one loan that is not of class 0 (R45). -/
theorem State.reEff_loan {x : Loan} (h : p.loans = [x]) (hx : x.cls ≠ 0) :
    let e := max (min (s.ownCls p) x.cls) (s.effCeil p.region)
    s.reEff p = { p with eff := if s.ownCls p ≤ e then s.ownCls p else e, inh := decide (e < s.ownCls p) } := by
  intro e
  have hcls : s.loanCls p x = x.cls := if_neg hx
  have hlt : ((if s.ownCls p ≤ e then s.ownCls p else e) < s.ownCls p) ↔ e < s.ownCls p := by
    split <;> omega
  simp only [State.reEff, h, List.foldl_cons, List.foldl_nil, hcls]
  rw [decide_eq_decide.2 hlt]

theorem State.toTail_ready (hst : p.st = .ready) :
    s.toTail p = { p with key := s.tailKey p.core, quantum := (s.core p.core).quant } := by
  rw [State.toTail, ← hst]

/-- A READY process whose EFF is made anew stays READY, at the tail of its class where EFF changes (R317). -/
theorem State.refreshEff_second (hc : s.cpu = none) (hp : s.procs = [l, p]) (hne : l.pid ≠ p.pid) (hl : l.st ≠ .running)
    (hst : p.st = .ready) : ∃ q, s.refreshEff p.pid = { s with procs := [l, q] } ∧
      q = { s.reEff p with key := q.key, quantum := q.quantum } := by
  have hput (q : Proc) (hq : q.pid = p.pid) : s.putProc q = { s with procs := [l, q] } :=
    State.putProc_second hc hp hne hq
  have hurge (q : Proc) (hq : q.st = .ready) : ({ s with procs := [l, q] } : State).urge p.core = { s with procs := [l, q] } :=
    State.urge_idle (State.runningOn_pair (s := { s with procs := [l, q] }) hc rfl hl (by simp [hq]) _)
  have hready : (s.reEff p).st = .ready := hst
  by_cases he : (s.reEff p).eff = p.eff
  · refine ⟨s.reEff p, ?_, rfl⟩
    simp only [State.refreshEff, State.proc?_second hc hp hne, hready, he, ne_eq, not_true_eq_false, and_false, false_and,
      if_false, hput (s.reEff p) rfl, reduceCtorEq, or_true, if_true]
    exact hurge _ hready
  · refine ⟨s.toTail (s.reEff p), ?_, State.toTail_ready hready⟩
    have htail : s.putProc (s.toTail (s.reEff p)) = { s with procs := [l, s.toTail (s.reEff p)] } := hput _ rfl
    simp only [State.refreshEff, State.proc?_second hc hp hne, hready, he, ne_eq, not_false_eq_true, and_self, if_true, htail]
    exact hurge _ rfl

/-- The loan that a message brings. -/
def LoanMsg.loan (m : LoanMsg) : Loan := { lender := m.lender, cls := m.cls, deadline := m.deadline, hop := m.hop }

/-- A process that holds one loan. -/
def Proc.borrowing (p : Proc) (x : Loan) : Proc := { p with loans := [x] }

/-- PRIORITY_LOAN, not of class 0, for a READY borrower from a lender that is still BLOCKED (R45). -/
theorem execPriorityLoan_lends {m : LoanMsg} (hc : s.cpu = none) (hp : s.procs = [l, p]) (hne : l.pid ≠ p.pid)
    (hpl : p.loans = []) (hm : s.loanMsgs = [m]) (hml : m.lender = l.pid) (hmt : m.tgt = p.pid)
    (hb : l.isBlocked = true) (hst : p.st = .ready) (hw : p.wait = .none) (hcls : m.cls ≠ 0) (hsubj : s.subj = .id m.id) :
    let own := s.ownCls p
    let e := max (min own m.cls) (s.effCeil p.region)
    ∃ q, exec .priorityLoan s = .next { s with procs := [l, q], loanMsgs := [] } ∧
      q = { p with loans := [{ lender := l.pid, cls := m.cls, deadline := m.deadline, hop := m.hop }]
                   eff := if own ≤ e then own else e, inh := decide (e < own), key := q.key, quantum := q.quantum } := by
  intro own e
  have hnum : Subject.num s.subj = m.id := by rw [hsubj]; rfl
  have hrun : l.st ≠ .running := by
    intro h
    simp [Proc.isBlocked, h] at hb
  have hself : ¬(p.placed = false ∨ l.pid = p.pid ∨ l.isBlocked = false) := by simp [Proc.placed, hst, hne, hb]
  have heff := State.reEff_loan (s := { s with procs := [l, p.borrowing m.loan], loanMsgs := [] }) (p := p.borrowing m.loan)
    rfl hcls
  obtain ⟨q, hrefresh, hq⟩ := State.refreshEff_second (s := { s with procs := [l, p.borrowing m.loan], loanMsgs := [] })
    (p := p.borrowing m.loan) hc rfl hne hrun hst
  have hpid : q.pid = p.pid := by rw [hq]; rfl
  have hqw : q.wait = .none := by rw [hq]; exact hw
  have hput : State.putProc { s with loanMsgs := [] } (p.borrowing m.loan) =
      { s with procs := [l, p.borrowing m.loan], loanMsgs := [] } :=
    State.putProc_second (s := { s with loanMsgs := [] }) hc hp hne rfl
  have hlender : State.proc? { s with loanMsgs := [] } l.pid = some l := State.proc?_first hc hp
  have htarget : State.proc? { s with loanMsgs := [] } p.pid = some p := State.proc?_second hc hp hne
  have hfound : State.proc? { s with procs := [l, q], loanMsgs := [] } p.pid = some q :=
    hpid ▸ State.proc?_second (s := { s with procs := [l, q], loanMsgs := [] }) hc rfl (hpid ▸ hne)
  have hlend (t : State) : t.lendTo q = none := by simp [State.lendTo, hqw]
  have hown : State.ownCls { s with procs := [l, p.borrowing m.loan], loanMsgs := [] } (p.borrowing m.loan) = own :=
    State.ownCls_congr rfl rfl rfl rfl
  have hceil : State.effCeil { s with procs := [l, p.borrowing m.loan], loanMsgs := [] } (p.borrowing m.loan).region =
      s.effCeil p.region := State.effCeil_congr rfl _
  refine ⟨q, ?_, ?_⟩
  · have hfind : s.loanMsgs.find? (·.id == m.id) = some m := by simp [hm]
    have hrest : s.loanMsgs.filter (·.id != m.id) = [] := by simp [hm]
    have hloans : { p with loans := p.loans.filter (·.lender != l.pid) ++ [({
        lender := l.pid, cls := m.cls, deadline := m.deadline, hop := m.hop } : Loan)] } = p.borrowing m.loan := by
      simp [hpl, Proc.borrowing, LoanMsg.loan, hml]
    have hkeep : (if m.cls = 0 ∧ l.core ≠ p.core then 1 else m.cls) = m.cls := if_neg fun h => hcls h.1
    show execPriorityLoan s = _
    simp only [execPriorityLoan, hnum, hfind, hrest, hml, hmt, hlender, htarget, if_neg hself, hkeep, hloans, hput]
    rw [show p.pid = (p.borrowing m.loan).pid from rfl, hrefresh]
    simp only [Proc.borrowing, hfound, hlend]
  · rw [hq, heff, hown, hceil, ← hml]
    rfl

end

/-- Settles O54: the placement of one member, compaction, a loan, and the ways of a migration. -/
theorem placementEvents : Obligations.PlacementEvents := by
  refine ⟨?_, ?_, ?_, ?_⟩
  · intro s p pl m ha hch hpl hmem hg ht hpid hr hst hb hrsvs hpk hcalm hsubj hreset hm c wrote
    have hs : s.Still := ⟨hcalm.2.1, hcalm.1, hpk, hch⟩
    exact ⟨execPlacementCommit_places ha hs hpl hmem hg ht hpid hr hst hb hcalm hsubj hreset hm,
      execPlacementTimeout_fails ha hs hpl hmem hg ht hpid hr hst hb hrsvs hcalm hsubj hreset hm⟩
  · intro s p pl c ha hch hpk ht hr hpl hcomp hlimit hsubj hst hw hreg hi hcore hmv u hmove hadm
    have hset : u.settledProc p.pid = true := State.settledProc_still hpk ht hr _
    have hexec := execPlacementCompaction_moves hpl hcomp hlimit hsubj hreg
    have hone := State.compactOne_ready (s := u) ha.1 ha.2.1 ha.2.2.1 hch hset hst hw hi hmv hcore hmove hadm
    have hown : u.ownCls p = s.ownCls p := State.ownCls_congr rfl rfl rfl rfl
    rw [hown] at hone
    refine ⟨fun hdie => ?_, fun hdie => ?_⟩
    · rw [if_pos hdie] at hone
      exact hexec.trans (congrArg Host.Outcome.next hone)
    · rw [if_neg hdie] at hone
      have hsent := hexec.trans (congrArg Host.Outcome.next hone)
      have hnone : u.packets = [] := hpk
      simp only [State.sendMove, State.freshId, hnone, List.nil_append] at hsent
      exact ⟨_, hsent, rfl, rfl⟩
  · intro s l p m hc hp hne _ hpl hm hml hmt hb hst hw hcls hsubj
    exact execPriorityLoan_lends hc hp hne hpl hm hml hmt hb hst hw hcls hsubj
  · intro s p c d self ha hch ht hr hi hst hw hsubj q there
    exact ⟨fun hpk => execMigration_near ha hch hw hsubj ht hr hst hpk hi,
      fun hpk => execMigration_far ha hw hsubj ht hr hst hpk,
      fun k hpk hpay hpath => execMigration_packet ha hch hw hsubj hi hpk hpay hpath,
      fun hpk => execMigration_absent ha hch hw hsubj ht hr hst hpk⟩

end Sys2Proof.Machine
end

section
/-! SUPPORT. O53: channels at which no process waits: what settling them and a message of the device come to (R283, R285). -/

namespace Sys2Proof.Machine

/-- No process waits for anything. -/
def State.Unwaiting (s : State) : Prop := ∀ q ∈ s.allProcs, q.wait = .none

theorem State.Unwaiting.of_none {s : State} (hc : s.cpu = none) (hp : s.procs = []) : s.Unwaiting := by
  simp [State.Unwaiting, State.allProcs, hc, hp]

theorem State.Unwaiting.of_single {s : State} {p : Proc} (hc : s.cpu = none) (hp : s.procs = [p]) (hw : p.wait = .none) :
    s.Unwaiting := by
  simp [State.Unwaiting, State.allProcs_single hc hp, hw]

theorem State.mem_of_proc? {s : State} {pid : Nat} {q : Proc} (h : s.proc? pid = some q) : q ∈ s.allProcs := by
  unfold State.proc? at h
  unfold State.allProcs
  split at h
  next p hc =>
    split at h
    · simp [hc, Option.some.inj h]
    · simp [hc, List.mem_of_find?_eq_some h]
  · exact List.mem_append_right _ (List.mem_of_find?_eq_some h)

theorem State.waiter_unwaiting {s : State} (h : s.Unwaiting) (c : Channel) (tx : Bool) : s.waiter c tx = none := by
  unfold State.waiter
  split
  · rfl
  next q hq =>
    obtain ⟨pid, -, hfind⟩ := Option.bind_eq_some_iff.1 hq
    have hwait : q.chanWait c = none := by simp [Proc.chanWait, h q (State.mem_of_proc? hfind)]
    simp [hwait]

theorem State.settleOnce_unwaiting {s : State} (h : s.Unwaiting) (c : Channel) : s.settleOnce c = s := by
  simp only [State.settleOnce, State.waiter_unwaiting h]

theorem State.wakeAlts_unwaiting {s : State} (h : s.Unwaiting) : s.wakeAlts = s := by
  have hnone : ∀ q ∈ s.procs, (q.isBlocked && q.wait == .alt) = false := fun q hq => by
    simp [h q (List.mem_append_right _ hq)]
  unfold State.wakeAlts
  refine List.foldlRecOn (motive := (· = s)) s.procs _ rfl fun t ht q hq => ?_
  rw [hnone q hq]
  exact ht

/-- At the anchor of a channel nothing can happen while no process waits; only what a CLOSED receiver leaves is discarded. -/
theorem State.settle_unwaiting {s : State} (h : s.Unwaiting) (table name : Nat) :
    s.settle table name = s.modChan table name Channel.drop := by
  have hmod : (s.modChan table name Channel.drop).Unwaiting := by
    obtain ⟨v, hv⟩ := State.modChan_shape s table name Channel.drop
    rw [hv]
    exact h
  unfold State.settle
  cases hc : (s.modChan table name Channel.drop).chan? table name with
  | none => simp only [hc, State.wakeAlts_unwaiting hmod]
  | some c => simp only [hc, State.settleOnce_unwaiting hmod, State.wakeAlts_unwaiting hmod]

/-! One channel -/

theorem State.chan?_single {s : State} {c : Channel} (h : s.channels = [c]) : s.chan? c.table c.name = some c := by
  simp [State.chan?, h]

theorem State.modChan_single {s : State} {c : Channel} {f : Channel → Channel} (h : s.channels = [c])
    (ht : (f c).table = c.table) (hn : (f c).name = c.name) : s.modChan c.table c.name f = { s with channels := [f c] } := by
  simp [State.modChan, State.chan?_single h, State.putChan, h, ht, hn]

theorem Channel.drop_open {c : Channel} (h : c.rx.down = false) : c.drop = c := by
  simp [Channel.drop, h]

/-- Settling the one channel, whose receiving end is open, changes nothing. -/
theorem State.settle_open {s : State} {c : Channel} (hw : s.Unwaiting) (h : s.channels = [c]) (hd : c.rx.down = false) :
    s.settle c.table c.name = s := by
  have hdrop := Channel.drop_open hd
  rw [State.settle_unwaiting hw, State.modChan_single h (by rw [hdrop]) (by rw [hdrop]), hdrop, ← h]

/-- A message joins the queue of the one channel. -/
theorem State.enqueue_open {s : State} {c : Channel} (hw : s.Unwaiting) (h : s.channels = [c]) (hd : c.rx.down = false)
    (msg : List Word) : s.enqueue c.table c.name msg = { s with channels := [{ c with queue := c.queue ++ [msg] }] } := by
  rw [State.enqueue, State.modChan_single h rfl rfl]
  exact State.settle_open (s := { s with channels := [{ c with queue := c.queue ++ [msg] }] })
    (c := { c with queue := c.queue ++ [msg] }) hw rfl hd

/-! Records (R55, R57) -/

/-- The endpoint of a region is open. -/
theorem State.faultChan_open {s : State} {v : Nat} {c : Channel} (h : s.faultChan v = some c) : c.rx.down = false := by
  unfold State.faultChan at h
  dsimp only at h
  split at h
  · exact absurd h nofun
  · split at h
    next d _ =>
      split at h
      · exact absurd h nofun
      next hd =>
        rw [← Option.some.inj h]
        exact Bool.eq_false_iff.2 hd
    · exact absurd h nofun

/-- Without processes the anchor of a channel is in the loft of its table's die. -/
theorem State.anchorPlace_none {s : State} (hc : s.cpu = none) (hp : s.procs = []) (c : Channel) :
    placeDie (s.anchorPlace c) = c.table / 2 ^ 32 % 8 := by
  have hproc (n : Nat) : s.proc? n = none := by simp [State.proc?, hc, hp]
  have hcore (e : End) : s.holderCore e = none := by
    have hbind : e.pid.bind s.proc? = none := by cases e.pid <;> simp [hproc]
    simp [State.holderCore, hbind]
  simp only [State.anchorPlace, State.anchor, hcore, Option.orElse_none, Option.getD_none, placeDie]
  rw [if_neg (by omega)]
  omega

/-- A message of the device whose channel is anchored on its die, with none before it on the way, is the last of the queue. -/
theorem State.putFrame_here {s : State} {die region : Nat} {c : Channel} (hw : s.Unwaiting) (h : s.channels = [c])
    (hd : c.rx.down = false) (hdie : placeDie (s.anchorPlace c) = die) (hf : s.framesTo c = 0) (msg : List Word) :
    s.putFrame die region c 0 msg = { s with channels := [{ c with queue := c.queue ++ [msg] }] } := by
  simp only [State.putFrame, hdie, hf, true_or, and_self, if_true]
  exact State.enqueue_open hw h hd msg

/-- Otherwise a packet takes it there. -/
theorem State.putFrame_away {s : State} {die region : Nat} {c : Channel}
    (h : placeDie (s.anchorPlace c) ≠ die ∨ s.framesTo c ≠ 0) (msg : List Word) :
    ∃ k, s.putFrame die region c 0 msg = { s with packets := s.packets ++ [k], nextId := s.nextId + 1 } ∧
      k.payload = .frame c.table c.name 0 msg ∧ k.dst = placeDie (s.anchorPlace c) := by
  simp only [State.putFrame, true_or, and_true, if_neg (not_and_or.2 h), State.freshId]
  exact ⟨_, rfl, rfl, rfl⟩

/-- The records of a core without one. -/
def State.unqueue (s : State) (n : Nat) (r : Record) : State :=
  s.modCore n fun k => { k with records := k.records.erase r }

theorem State.records_sent {s : State} {n : Nat} {r : Record} {rest : List Record} (hr : (s.core n).records = r :: rest) :
    ((s.unqueue n r).core n).records = rest := by
  rw [State.unqueue, State.core_modCore_same _ _ _ (State.core_id _ _), hr]
  exact List.erase_cons_head ..

section
variable {s : State} {n : Nat} {r : Record} {rest : List Record} (hn : n < 8192) (hsubj : s.subj = .id n)
  (hr : (s.core n).records = r :: rest)
include hn hsubj hr

/-- FAULT_RECORD_SEND of the first record of a core, which can be sent (R57). -/
theorem execFaultRecordSend_first (hcan : s.canSend r = true) : exec .faultRecordSend s =
    .next ((s.unqueue n r).deliverRecord (dieOf n) r) := by
  have hnum : Subject.num s.subj = n := by rw [hsubj]; rfl
  have hcore : n ≠ managerId := by
    unfold managerId
    omega
  have hnext : s.nextRecord [] (r :: rest) = some r := by simp [State.nextRecord, hcan]
  show execFaultRecordSend s = _
  simp only [execFaultRecordSend, hnum, if_neg hcore, hr, hnext, State.unqueue]

theorem execFaultRecordSend_posts (hv : r.via = none) : ∃ t, exec .faultRecordSend s = .next t ∧
    (t.core n).records = rest ∧
    t = { s with cores := t.cores, mailbox := s.mailbox ++ [r], errorRings := t.errorRings } := by
  have hexec := execFaultRecordSend_first hn hsubj hr (by simp [State.canSend, hv])
  refine ⟨_, hexec, ?_, ?_⟩
  · rw [State.deliverRecord, hv]
    exact State.records_sent hr
  · rw [State.deliverRecord, hv]
    rfl

theorem execFaultRecordSend_sends {v : Nat} {c : Channel} (hc : s.cpu = none) (hp : s.procs = []) (hv : r.via = some v)
    (hf : s.faultChan v = some c) (hch : s.channels = [c]) (hslot : s.slotFree v c = true) :
    ∃ t, exec .faultRecordSend s = .next t ∧ (t.core n).records = rest ∧
      (c.table / 2 ^ 32 % 8 = dieOf n → s.framesTo c = 0 →
        t = { s with cores := t.cores, channels := [{ c with queue := c.queue ++ [r.words] }] }) ∧
      (c.table / 2 ^ 32 % 8 ≠ dieOf n ∨ s.framesTo c ≠ 0 → t.channels = [c] ∧
        ∃ k ∈ t.packets, k.payload = .frame c.table c.name 0 r.words ∧ k.dst = c.table / 2 ^ 32 % 8) := by
  have hexec := execFaultRecordSend_first hn hsubj hr (by simp [State.canSend, hv, hf, hslot])
  have hplace : placeDie ((s.unqueue n r).anchorPlace c) = c.table / 2 ^ 32 % 8 :=
    State.anchorPlace_none (s := s.unqueue n r) hc hp c
  have hvia : r.via.bind (s.unqueue n r).faultChan = some c := by
    rw [hv]
    exact hf
  rw [State.deliverRecord, hvia] at hexec
  by_cases hnear : c.table / 2 ^ 32 % 8 = dieOf n ∧ s.framesTo c = 0
  · have hput := State.putFrame_here (s := s.unqueue n r) (region := r.region)
      (State.Unwaiting.of_none hc hp) hch (State.faultChan_open hf) (hplace.trans hnear.1) hnear.2 r.words
    refine ⟨_, hexec.trans (congrArg Host.Outcome.next hput), State.records_sent hr, fun _ _ => rfl, fun h => ?_⟩
    exact absurd hnear (not_and_or.2 h)
  · obtain ⟨k, hput, hpay, hdst⟩ := State.putFrame_away (s := s.unqueue n r)
      (die := dieOf n) (region := r.region) (c := c) (by rw [hplace]; exact not_and_or.1 hnear) r.words
    refine ⟨_, hexec.trans (congrArg Host.Outcome.next hput), State.records_sent hr, fun h1 h2 => absurd ⟨h1, h2⟩ hnear,
      fun _ => ⟨hch, k, List.mem_append_right _ (List.mem_singleton.2 rfl), hpay, hdst.trans (hplace)⟩⟩

end

end Sys2Proof.Machine
end

section
/-! SUPPORT. O53: replies to faults (R59): the return of a faulted process, and a reply on its way to it. -/

namespace Sys2Proof.Machine

/-! The return (R59) -/

/-- A faulted process as a reply leaves it, before it joins its wings. -/
def Proc.returned (p : Proc) (skip : Option Nat) (setx : Option Word) : Proc :=
  let p := match skip with
    | some len => { p with pc := p.pc + BitVec.ofNat 64 len, tprog := 0, mq := p.mq.drop p.claim, claim := 0 }
    | none => p
  match setx with
  | some v => p.setX 3 v
  | none => p

theorem State.faultReturn_eq (s : State) (p : Proc) (skip : Option Nat) (setx : Option Word) :
    s.faultReturn p skip setx = s.resumed (p.returned skip setx) := rfl

/-- What a reply leaves of the process: x3 is written when SETX, the pc moves when SKIP, and no other register changes. -/
theorem Proc.returned_fields (p : Proc) (skip : Option Nat) (setx : Option Word) :
    (p.returned skip setx).pid = p.pid ∧ (p.returned skip setx).loc = p.loc ∧
    (p.returned skip setx).pc = p.pc + BitVec.ofNat 64 (skip.getD 0) ∧
    (∀ r : XIdx, (p.returned skip setx).getX r = if r = 3 ∧ setx.isSome = true then setx.getD 0 else p.getX r) ∧
    (p.returned skip setx).v = p.v ∧ (p.returned skip setx).p = p.p ∧ (p.returned skip setx).acc = p.acc ∧
    (p.returned skip setx).fpflags = p.fpflags ∧ (p.returned skip setx).fpmode = p.fpmode := by
  have hx (q : Proc) (v : Word) (r : XIdx) : (q.setX 3 v).getX r = if r = 3 then v else q.getX r := by
    rw [Proc.getX_setX]
    by_cases h : r = 0
    · subst h
      rfl
    · rw [if_neg h]
  cases skip <;> cases setx
  case none.none => simp [Proc.returned]
  case none.some v =>
    exact ⟨rfl, rfl, by simp [Proc.returned], fun r => (hx p v r).trans (if_congr (by simp) rfl rfl), rfl, rfl, rfl, rfl, rfl⟩
  case some.none n => exact ⟨rfl, rfl, rfl, by simp [Proc.returned, Proc.getX], rfl, rfl, rfl, rfl, rfl⟩
  case some.some n v =>
    exact ⟨rfl, rfl, rfl, fun r => (hx _ v r).trans (if_congr (by simp) rfl rfl), rfl, rfl, rfl, rfl, rfl⟩

/-- The one process of the package returns from its fault: READY, and a halt that it calls for concerns cores only. -/
theorem State.resumed_single {s : State} {p q : Proc} (hc : s.cpu = none) (hp : s.procs = [p]) (hq : q.pid = p.pid) :
    s.resumed q = { s with procs := [s.toTail { q with fault := none, vprog := 0, batch := 0, since := s.ns }] } :=
  State.putProc_urge_single (q := s.toTail { q with fault := none, vprog := 0, batch := 0, since := s.ns }) hc hp hq nofun _

theorem State.faultReturn_single {s : State} {p : Proc} (skip : Option Nat) (setx : Option Word) (hc : s.cpu = none)
    (hp : s.procs = [p]) : ∃ q, s.faultReturn p skip setx = { s with procs := [q] } ∧ q.st = .ready ∧ q.loc = p.loc ∧
      q.fault = none ∧ q.pid = p.pid ∧ q.pc = p.pc + BitVec.ofNat 64 (skip.getD 0) ∧
      (∀ r : XIdx, q.getX r = if r = 3 ∧ setx.isSome = true then setx.getD 0 else p.getX r) ∧
      q.v = p.v ∧ q.p = p.p ∧ q.acc = p.acc ∧ q.fpflags = p.fpflags ∧ q.fpmode = p.fpmode := by
  obtain ⟨hpid, hloc, hpc, hx, hv, hm, hacc, hfl, hmode⟩ := p.returned_fields skip setx
  exact ⟨_, State.resumed_single hc hp hpid, rfl, hloc, rfl, hpid, hpc, hx, hv, hm, hacc, hfl, hmode⟩

/-! A reply at the die of its process (R59) -/

section
variable {s : State} {p : Proc} {w0 w1 : Word} (hc : s.cpu = none) (hp : s.procs = [p])
include hc hp

/-- What a reply in order to a faulted process does, by its action (R59). -/
theorem State.answerFault_single {scope : Proc → Bool} (hpid : w0.toNat % 2 ^ 32 = p.pid) (hst : p.st = .faulted)
    (hscope : scope p = true) (hw : w0.toNat / 2 ^ 35 = 0) :
    let setx := if w0.getLsbD 34 = true then some w1 else none
    (w0.toNat / 2 ^ 32 % 4 = 0 → s.answerFault scope w0 w1 = some (s.faultReturn p none setx)) ∧
    (w0.toNat / 2 ^ 32 % 4 = 1 → s.answerFault scope w0 w1 =
      (p.fault.bind (·.len)).map fun n => s.faultReturn p (some n) setx) ∧
    (w0.toNat / 2 ^ 32 % 4 = 2 → p.priv = .u → s.answerFault scope w0 w1 = some (s.exitProc p.pid .replyEnd)) := by
  have hfind : s.proc? (w0.toNat % 2 ^ 32) = some p := hpid ▸ State.proc?_single hc hp
  have hok : ¬(p.st ≠ .faulted ∨ scope p = false ∨ w0.toNat / 2 ^ 35 ≠ 0) := by
    rintro (h | h | h)
    exacts [h hst, Bool.noConfusion (hscope.symm.trans h), h hw]
  refine ⟨fun h => ?_, fun h => ?_, fun h hu => ?_⟩ <;> simp only [State.answerFault, hfind, if_neg hok, h]
  simp [hu]

/-- A reply to no faulted process of the scope does nothing (R59). -/
theorem State.answerFault_refused {scope : Proc → Bool} (h : p.st ≠ .faulted ∨ scope p = false) :
    s.answerFault scope w0 w1 = none := by
  by_cases hpid : w0.toNat % 2 ^ 32 = p.pid
  · have hfind : s.proc? (w0.toNat % 2 ^ 32) = some p := hpid ▸ State.proc?_single hc hp
    have hbad : p.st ≠ .faulted ∨ scope p = false ∨ w0.toNat / 2 ^ 35 ≠ 0 := h.imp_right Or.inl
    simp only [State.answerFault, hfind, if_pos hbad]
  · simp only [State.answerFault, State.proc?_single_none hc hp hpid]

/-- A reply on the die of its process is taken there at once. -/
theorem State.sendReply_here {die : Nat} (top : Option Nat) (hdie : dieOf p.core = die) (hpid : w0.toNat % 2 ^ 32 = p.pid) :
    s.sendReply die top w0 w1 = s.takeReply top w0 w1 := by
  have hfind : s.proc? (w0.toNat % 2 ^ 32) = some p := hpid ▸ State.proc?_single hc hp
  simp only [State.sendReply, hfind, hdie, true_or, if_true]

end

end Sys2Proof.Machine
end

section
/-! SUPPORT. O53: a faulted process that a reply ends (R32, R59). It waits for nothing, so whatever its end sets off at homes
and anchors leaves it alone. -/

namespace Sys2Proof.Machine

section
variable {s : State} {p : Proc} (ha : Alone s p) (hw : p.wait = .none)
include ha

/-! Homes (R242) -/

theorem alone_doSync (a : Nat) (op : SyncOp) : Alone (s.doSync a op) p := by
  cases op with
  | ste v =>
    obtain ⟨t, ht⟩ := (s.setFull a true).noteTrigger_shape a
    simp only [State.doSync, ht]
    exact ha
  | lde | ldf | waitw | waitc => exact ha

include hw

/-- An answer from a home is for a process that waits; the one process does not. -/
theorem alone_answer (die pid : Nat) (pl : Payload) : Alone (s.answer die pid pl) p := by
  unfold State.answer
  split
  · exact ha
  next q hq =>
    have hqp : q = p := by simpa [State.allProcs_single ha.1 ha.2.1] using State.mem_of_proc? hq
    have hsync : q.inSync = false := by simp [hqp, Proc.inSync, hw]
    split
    · split
      · simpa [State.wakeSync, hq, hsync] using ha
      · simpa [State.failSync, hq, hsync] using ha
      · exact ha
    · exact ha

theorem alone_serveWatch (home : Nat) : Alone (s.serveWatch home) p := by
  unfold State.serveWatch
  split
  · exact ha
  · split
    · exact ha
    next w _ _ =>
      have hgone : Alone { s with watches := s.watches.erase w } p := ha
      unfold State.serve
      dsimp only
      split
      · exact alone_answer hgone hw _ _ _
      · exact alone_answer (alone_doSync hgone _ _) hw _ _ _

theorem alone_serveWatches (home : Nat) : Alone (s.serveWatches home) p :=
  List.foldlRecOn (motive := fun t => Alone t p) _ _ ha fun _ ht _ _ => alone_serveWatch ht hw home

theorem alone_leaveHomes (hr : p.rsvs = []) : Alone (s.leaveHomes p) p := by
  have hfar : p.farWords = [] := by simp [Proc.farWords, Proc.waitsOnWord, hw, hr]
  have hquit : Alone (s.quitHomes p.pid fun d => d == dieOf p.core) p := by
    have hserved : Alone ((s.watchHomes p.pid).foldl State.serveWatches
        (s.withdraw p.pid fun d => d == dieOf p.core)) p :=
      List.foldlRecOn (motive := fun t => Alone t p) _ _ ha fun _ ht _ _ => alone_serveWatches ht hw _
    rw [State.quitHomes, State.releaseAll, State.proc?_single hserved.1 hserved.2.1]
    simpa only [hr, List.filter_nil, List.foldl_nil] using hserved
  rw [State.leaveHomes, hfar, List.filter_nil, List.foldl_nil]
  exact hquit

/-! Anchors (R283) -/

theorem alone_closeOwn (table name : Nat) (tx : Bool) : Alone (s.closeOwn table name tx) p := by
  unfold State.closeOwn
  obtain ⟨v, hv⟩ := s.modChan_shape table name fun c =>
    c.setFin tx { c.fin tx with st := .closed, mig := false, scn := false, closing := false }
  have hwait : State.Unwaiting { s with channels := v } := State.Unwaiting.of_single (p := p) ha.1 ha.2.1 hw
  obtain ⟨v', hv'⟩ := State.modChan_shape { s with channels := v } table name Channel.drop
  rw [hv, State.settle_unwaiting hwait, hv']
  exact ha

omit hw

/-! Packets to other dies (R325) -/

theorem alone_kindle (d e : Nat) : Alone (s.kindle d e) p := by
  unfold State.kindle
  refine List.foldlRecOn (motive := fun t => Alone t p) _ _ ha fun t ht _ _ => ?_
  dsimp only
  split <;> exact ht

theorem alone_putDie (k : Die) : Alone (s.putDie k) p := ha

theorem alone_modPacket (id : Nat) (f : Packet → Packet) : Alone (s.modPacket id f) p := ha

theorem alone_stampAll (d : Nat) : Alone (s.stampAll d) p := by
  unfold State.stampAll
  split
  · exact ha
  · refine List.foldlRecOn (motive := fun t : State × List Nat => Alone t.1 p) _ _ ha fun t ht q _ => ?_
    dsimp only
    split
    · exact ht
    · have hk := alone_kindle ht d q.dst
      split
      · exact alone_modPacket (alone_putDie hk _) _ _
      · exact hk

theorem alone_sendEnd (die : Nat) (pl : Payload) : Alone (s.sendEnd p die pl) p := by
  have hsent : Alone { s with
      packets := s.packets ++ [p.packet s.nextId 0 0 die .fabric .ord pl 0], nextId := s.nextId + 1 } p := ha
  exact alone_stampAll hsent _

include hw

theorem alone_leaveEnds : Alone (s.leaveEnds p) p := by
  unfold State.leaveEnds
  refine List.foldlRecOn (motive := fun t => Alone t p) _ _ ha fun t ht e _ => ?_
  dsimp only
  split
  · exact alone_closeOwn ht hw _ _ _
  · exact alone_sendEnd ht _ _

/-- The one process, faulted and without reservations, becomes EXITED, whatever its end sets off elsewhere. -/
theorem State.exitProc_faulted (how : Ending) (hr : p.rsvs = []) (hst : p.st = .faulted) :
    (s.exitProc p.pid how).procs = [p.ended how] := by
  have hhomes := alone_leaveHomes ha hw hr
  have hlent := State.withdrawLoans_unlent (State.Unlent.of_alone hhomes) p.pid
  have hb : p.isBlocked = false := by simp [Proc.isBlocked, hst]
  have hlive : ¬p.st = .exited := by simp [hst]
  have hends (l : List Packet) := alone_leaveEnds (s := { s.leaveHomes p with packets := l }) hhomes hw
  simp only [State.exitProc, State.proc?_single ha.1 ha.2.1, hlive, if_false, hlent, hb, Bool.false_eq_true,
    State.dropLoads, State.proc?_single (hends _).1 (hends _).2.1, Option.getD_some]
  exact congrArg State.procs (State.leaveRunning_single (q := p.ended how) (hends _).1 (hends _).2.1 rfl)

end

end Sys2Proof.Machine
end

section
/-! SUPPORT. O53: FAULT_REPLY of the one channel to the one process, and MONITOR_REPLY to a process (R59). -/

namespace Sys2Proof.Machine

/-! Replies that set out, are taken, and are dropped (R59) -/

section
variable {s : State} {p : Proc} {w0 w1 : Word} {die top : Nat} (hc : s.cpu = none) (hp : s.procs = [p])
include hc hp

/-- A reply to a process on another present die is a packet to that die. -/
theorem State.sendReply_away (hpid : w0.toNat % 2 ^ 32 = p.pid) (hdie : dieOf p.core ≠ die)
    (hpres : s.diePresent (dieOf p.core) = true) : s.sendReply die (some top) w0 w1 =
      { s with packets := s.packets ++ [p.notice s.nextId die (.faultReply (some top) w0 w1)], nextId := s.nextId + 1 } := by
  have hfind : s.proc? (w0.toNat % 2 ^ 32) = some p := hpid ▸ State.proc?_single hc hp
  have hfar : ¬(dieOf p.core = die ∨ s.diePresent (dieOf p.core) = false) := by simp [hdie, hpres]
  simp only [State.sendReply, hfind, if_neg hfar, State.freshId]

/-- A reply on the die of its process does what the process's answer does. -/
theorem State.sendReply_answers {t : State} (hpid : w0.toNat % 2 ^ 32 = p.pid) (hdie : dieOf p.core = die)
    (h : s.answerFault (fun q => s.inSubtree top q.region) w0 w1 = some t) : s.sendReply die (some top) w0 w1 = t := by
  rw [State.sendReply_here hc hp (some top) hdie hpid]
  simp only [State.takeReply, Option.all_some, h, Option.isNone_some, Bool.false_eq_true, if_false]

/-- A reply to no faulted process of the supervisor's subtree counts in DROPS. -/
theorem State.sendReply_drops (h : w0.toNat % 2 ^ 32 ≠ p.pid ∨
      dieOf p.core = die ∧ (p.st ≠ .faulted ∨ s.inSubtree top p.region = false)) :
    s.sendReply die (some top) w0 w1 = s.dropReply top := by
  by_cases hpid : w0.toNat % 2 ^ 32 = p.pid
  case neg =>
    have hfind := State.proc?_single_none hc hp hpid
    simp only [State.sendReply, State.takeReply, State.answerFault, hfind, Option.getD_some]
  case pos =>
    obtain ⟨hdie, hbad⟩ := h.resolve_left (not_not_intro hpid)
    have hnone := State.answerFault_refused (w0 := w0) (w1 := w1) (scope := fun q => s.inSubtree top q.region) hc hp hbad
    rw [State.sendReply_here hc hp (some top) hdie hpid]
    simp only [State.takeReply, Option.all_some, hnone, Option.getD_some]

omit hc hp in
/-- A reply that names an unprivileged process of the subtree and ends it. -/
theorem State.sendReply_ends (ha : Alone s p) (hw : p.wait = .none) (hpid : w0.toNat % 2 ^ 32 = p.pid)
    (hdie : dieOf p.core = die) (hst : p.st = .faulted) (hin : s.inSubtree top p.region = true)
    (hbits : w0.toNat / 2 ^ 35 = 0) (hact : w0.toNat / 2 ^ 32 % 4 = 2) (hu : p.priv = .u) (hr : p.rsvs = []) :
    (s.sendReply die (some top) w0 w1).procs = [p.ended .replyEnd] := by
  have hans := (State.answerFault_single (w1 := w1) (scope := fun q => s.inSubtree top q.region)
    ha.1 ha.2.1 hpid hst hin hbits).2.2
  rw [State.sendReply_answers ha.1 ha.2.1 hpid hdie (hans hact hu)]
  exact State.exitProc_faulted ha hw .replyEnd hr hst

/-- MONITOR_REPLY (R55, R59): the monitor resumes a faulted process of die 0, whose held record leaves the mailbox. -/
theorem execMonitorReply_resumes (hsubj : s.subj = .monitor (.reply w0 w1)) (hpid : w0.toNat % 2 ^ 32 = p.pid)
    (hdie : dieOf p.core = 0) (hst : p.st = .faulted) (hbits : w0.toNat / 2 ^ 35 = 0) (hact : w0.toNat / 2 ^ 32 % 4 = 0) :
    exec .monitorReply s =
      .next ((s.faultReturn p none (if w0.getLsbD 34 = true then some w1 else none)).answered p.pid) := by
  have hans := (State.answerFault_single (w1 := w1) (scope := fun _ => true) hc hp hpid hst rfl hbits).1 hact
  show execMonitorReply s = _
  simp only [execMonitorReply, hsubj, State.sendReply_here hc hp none hdie hpid, State.takeReply, Option.all_none, hans,
    Option.isNone_none, if_true, hpid]

end

section
variable {s : State} {p : Proc} {c : Channel} {w0 w1 w2 : Word} {rest : List (List Word)} (ha : Alone s p)
  (hw : p.wait = .none) (hch : s.channels = [c]) (hq : c.queue = [w0, w1, w2] :: rest) (hdev : c.rx.holder = .device)
  (hbound : c.rx.st = .bound) (hout : c.outside = .none) (hsubj : s.subj = .pair c.table c.name)
include ha hw hch hq hdev hbound hout hsubj

/-- The device takes the oldest message of the one channel, whose sender's region bounds the reply. -/
theorem execFaultReply_takes : exec .faultReply s = .next (State.sendReply { s with channels := [{ c with queue := rest }] }
    (placeDie (s.anchorPlace c)) (some (s.supervisorRegion c [w0, w1, w2])) w0 w1) := by
  have hfind : s.chan? (Subject.num s.subj) (Subject.second s.subj) = some c := by
    rw [hsubj]
    exact State.chan?_single hch
  have hput : s.putChan { c with queue := rest } = { s with channels := [{ c with queue := rest }] } := by
    simp [State.putChan, hch]
  have hdown : c.rx.down = false := by simp [End.down, hbound]
  have hsettle : ({ s with channels := [{ c with queue := rest }] } : State).settle c.table c.name =
      { s with channels := [{ c with queue := rest }] } :=
    State.settle_open (c := { c with queue := rest }) (State.Unwaiting.of_single (p := p) ha.1 ha.2.1 hw) rfl hdown
  have hok : ¬(c.rx.holder ≠ .device ∨ c.outside ≠ .none) := by simp [hdev, hout]
  show execFaultReply s = _
  simp only [execFaultReply, hfind, hq, if_neg hok, hput, hsettle]
  rfl

end

end Sys2Proof.Machine
end

section
/-! SUPPORT. O53: MONITOR_REPLY that ends a region without processes (R55, R58). -/

namespace Sys2Proof.Machine

/-! Closing channels where no process is -/

theorem State.settle_modChan_vacant {s : State} (hc : s.cpu = none) (hp : s.procs = []) (table name : Nat)
    (f : Channel → Channel) : ∃ v, (s.modChan table name f).settle table name = { s with channels := v } := by
  obtain ⟨v, hv⟩ := s.modChan_shape table name f
  obtain ⟨v', hv'⟩ := State.modChan_shape { s with channels := v } table name Channel.drop
  have hwait : State.Unwaiting { s with channels := v } := State.Unwaiting.of_none hc hp
  exact ⟨v', by rw [hv, State.settle_unwaiting hwait, hv']⟩

theorem State.closeRegion_vacant {s : State} (hc : s.cpu = none) (hp : s.procs = []) (gone : List Nat) :
    ∃ v, s.closeRegion gone = { s with channels := v } := by
  have hend (tx : Bool) (c : Channel) (t : State) (h : ∃ v, t = { s with channels := v }) :
      ∃ v, (if (c.fin tx).pid.isSome then t.closeEnd c.table c.name tx else t) = { s with channels := v } := by
    obtain ⟨v, rfl⟩ := h
    split
    · exact State.settle_modChan_vacant (s := { s with channels := v }) hc hp _ _ _
    · exact ⟨v, rfl⟩
  unfold State.closeRegion
  exact List.foldlRecOn (motive := fun t : State => ∃ v, t = { s with channels := v }) _ _ ⟨s.channels, rfl⟩
    fun t ht c _ => hend false c _ (hend true c t ht)

/-! Regions that have ended -/

/-- A region is there and has ended. -/
def State.RegionOver (s : State) (n : Nat) : Prop := ∃ u, s.region? n = some u ∧ u.ended = true

theorem State.region?_num {s : State} {n : Nat} {r : Region} (h : s.region? n = some r) : r.num = n := by
  simpa using List.find?_some h

theorem State.region?_putRegion_same {s : State} {r u : Region} (h : s.region? r.num = some u) :
    (s.putRegion r).region? r.num = some r := by
  have hsame : ((fun q : Region => q.num == r.num) ∘ fun q => if q.num == r.num then r else q) = fun q => q.num == r.num := by
    funext q
    by_cases hq : q.num = r.num <;> simp [hq]
  have hu : u.num = r.num := State.region?_num h
  rw [State.region?] at h
  simp only [State.region?, State.putRegion, List.find?_map, hsame, h, Option.map_some, hu, beq_self_eq_true, if_true]

theorem State.RegionOver.countLost {s : State} {n : Nat} (h : s.RegionOver n) : (s.countLost n).RegionOver n := by
  obtain ⟨u, hu, hend⟩ := h
  obtain rfl := State.region?_num hu
  refine ⟨{ u with lost := min (u.lost + 1) 0xFFFF }, ?_, hend⟩
  rw [State.countLost, State.modRegion, hu]
  exact State.region?_putRegion_same (r := { u with lost := min (u.lost + 1) 0xFFFF }) hu

/-- A region lies in its own subtree. -/
theorem State.inSubtree_self {s : State} {n : Nat} {r : Region} (h : s.region? n = some r) : s.inSubtree n n = true := by
  simp only [State.inSubtree, levels, State.ancestors, h]
  split <;> simp

/-! The record of a region's end (R57) -/

section
variable {s : State} {n : Nat} (hc : s.cpu = none) (hp : s.procs = []) (h : s.RegionOver n)
include hc hp h

/-- A message of the device leaves regions as they are. -/
theorem State.RegionOver.putFrame (die region : Nat) (c : Channel) (owner : Nat) (msg : List Word) :
    (s.putFrame die region c owner msg).RegionOver n := by
  unfold State.putFrame
  dsimp only
  split
  · obtain ⟨v, hv⟩ := State.settle_modChan_vacant hc hp c.table c.name fun d => { d with queue := d.queue ++ [msg] }
    rw [State.enqueue, hv]
    exact h
  · exact h

theorem State.RegionOver.sendManager {r : Record} (hr : r.region = n) : (s.sendManager r).RegionOver n := by
  unfold State.sendManager
  split
  · exact h
  · split
    · exact h
    · split
      · exact h.putFrame hc hp _ _ _ _ _
      · split
        · exact h
        · exact hr ▸ (hr.symm ▸ h).countLost

end

/-- The regions of a package after those of a subtree have ended. -/
def State.over (s : State) (gone : List Nat) : List Region :=
  s.regions.map fun q => if gone.contains q.num then { q with ended := true } else q

/-- The regions in the subtree of a region. -/
def State.subtree (s : State) (n : Nat) : List Nat := (s.regions.filter fun q => s.inSubtree n q.num).map (·.num)

theorem State.mem_subtree {s : State} {n : Nat} {r : Region} (h : s.region? n = some r) : n ∈ s.subtree n := by
  have hnum := State.region?_num h
  refine List.mem_map.2 ⟨r, List.mem_filter.2 ⟨List.mem_of_find?_eq_some h, ?_⟩, hnum⟩
  rw [hnum]
  exact State.inSubtree_self h

theorem State.over_find {s : State} {n : Nat} {r : Region} {gone : List Nat} (h : s.region? n = some r) (hn : n ∈ gone) :
    (s.over gone).find? (·.num == n) = some { r with ended := true } := by
  have hsame : ((fun q : Region => q.num == n) ∘ fun q => if gone.contains q.num then { q with ended := true } else q) =
      fun q => q.num == n := by
    funext q
    by_cases hq : q.num ∈ gone <;> simp [hq]
  have hnum : gone.contains r.num = true := by simpa [State.region?_num h] using hn
  rw [State.region?] at h
  rw [State.over, List.find?_map, hsame, h, Option.map_some, if_pos hnum]

/-- A region without processes ends, whoever is told of it. -/
theorem State.endRegion_over {s : State} {n : Nat} {r : Region} (hc : s.cpu = none) (hp : s.procs = [])
    (h : s.region? n = some r) (rec_ : Record) : (s.endRegion n none rec_).RegionOver n := by
  have hnobody : s.subtreeProcs n = [] := by simp [State.subtreeProcs, State.allProcs, hc, hp]
  obtain ⟨v, hclosed⟩ := State.closeRegion_vacant hc hp (s.subtree n)
  rw [State.subtree] at hclosed
  have hover := State.over_find h (State.mem_subtree h)
  simp only [State.endRegion, hnobody, List.foldl_nil, hclosed]
  split
  · exact ⟨_, hover, rfl⟩
  next hnone => exact absurd hnone nofun
  · refine State.RegionOver.sendManager ?_ ?_ ?_ rfl
    · exact hc
    · exact hp
    · exact ⟨_, hover, rfl⟩

end Sys2Proof.Machine
end

section
/-! O53: fault records and replies. -/

namespace Sys2Proof.Machine

/-- MONITOR_REPLY (R55): the monitor ends a region without processes. -/
theorem execMonitorReply_ends {s : State} {n : Nat} {r : Region} (hsubj : s.subj = .monitor (.endRegion n))
    (hr : s.region? n = some r) (hend : r.ended = false) (hc : s.cpu = none) (hp : s.procs = []) :
    ∃ t, exec .monitorReply s = .next t ∧ t.RegionOver n := by
  refine ⟨State.endRegion { s with free := s.free + 2 } n none
    { cause := .spawn, d0 := Config.detail s.free, d1 := Config.detail (s.free + 1) }, ?_, ?_⟩
  · show execMonitorReply s = _
    simp only [execMonitorReply, hsubj, hr, hend, Bool.false_eq_true, if_false]
  · exact State.endRegion_over (s := { s with free := s.free + 2 }) hc hp hr _

/-- What FAULT_REPLY has left of the one channel. -/
def State.took (s : State) (c : Channel) (rest : List (List Word)) : State :=
  { s with channels := [{ c with queue := rest }] }

/-- Settles O53: each clause by what the event does where one process, or none, can be concerned: the first record of a core
is sent or posted, the oldest reply is answered, carried or dropped, the monitor's reply resumes, and a region without
processes ends. -/
theorem faultMessages : Obligations.FaultMessages := by
  unfold Obligations.FaultMessages
  refine ⟨fun s n r rest hn hc hp hr hsubj => ⟨fun hv => ?_, fun v c hv hf hch hslot => ?_⟩,
    fun s p c w0 w1 w2 rest ha hw hch hq hdev hbound hout hsubj => ?_, fun s p w0 w1 ha hsubj hst hdie hpid hbits hact => ?_,
    fun s n r hsubj hr hend hc hp => ?_, fun s p skip setx hc hp hloc => ?_⟩
  · exact execFaultRecordSend_posts hn hsubj hr hv
  · exact execFaultRecordSend_sends hn hsubj hr hc hp hv hf hch hslot
  · have hexec := execFaultReply_takes ha hw hch hq hdev hbound hout hsubj
    have hat : Alone (s.took c rest) p := ha
    refine ⟨fun hpid hfar hpres => ?_, fun hpid hst hin hbits hdie => ?_, fun hbad => ?_⟩
    · have haway := State.sendReply_away (w1 := w1) (top := s.supervisorRegion c [w0, w1, w2]) (s := s.took c rest)
        hat.1 hat.2.1 hpid hfar hpres
      exact ⟨_, hexec.trans (congrArg Host.Outcome.next haway), rfl, rfl, rfl, rfl⟩
    · obtain ⟨hresume, hskip, -⟩ := State.answerFault_single (w1 := w1) (s := s.took c rest)
        (scope := fun q => (s.took c rest).inSubtree (s.supervisorRegion c [w0, w1, w2]) q.region)
        hat.1 hat.2.1 hpid hst hin hbits
      have hdoes {t : State} := State.sendReply_answers (t := t) (w1 := w1) (s := s.took c rest)
        (top := s.supervisorRegion c [w0, w1, w2]) hat.1 hat.2.1 hpid hdie
      refine ⟨fun hact => ?_, fun n hact hlen => ?_, fun hact hu hrsv => ?_⟩
      · exact hexec.trans (congrArg Host.Outcome.next (hdoes (hresume hact)))
      · exact hexec.trans (congrArg Host.Outcome.next (hdoes ((hskip hact).trans (by rw [hlen]; rfl))))
      · have hends := State.sendReply_ends (w1 := w1) hat hw hpid hdie hst hin hbits hact hu hrsv
        exact ⟨_, p.ended .replyEnd, hexec, hends, rfl, rfl, rfl⟩
    · exact hexec.trans (congrArg Host.Outcome.next
        (State.sendReply_drops (s := s.took c rest) hat.1 hat.2.1 hbad))
  · refine ⟨_, execMonitorReply_resumes ha.1 ha.2.1 hsubj hpid hdie hst hbits hact, rfl, ?_⟩
    obtain ⟨q, hq, -⟩ := State.faultReturn_single (s := s) none (if w0.getLsbD 34 = true then some w1 else none) ha.1 ha.2.1
    rw [State.answered, hq]
  · obtain ⟨t, hexec, u, hu⟩ := execMonitorReply_ends hsubj hr hend hc hp
    exact ⟨t, u, hexec, hu⟩
  · obtain ⟨q, hret, hst, hqloc, hfault, hpid, hpc, hx, hv, hm, hacc, hfl, hmode⟩ :=
      State.faultReturn_single (s := s) (p := p) skip setx hc hp
    rw [hret]
    exact ⟨q, rfl, hst, hqloc.trans hloc, hfault, hpid, hpc, hx, hv, hm, hacc, hfl, hmode, rfl⟩

end Sys2Proof.Machine
end

section
/-! SUPPORT. O1: decoding gives back what was encoded, for the codes of all instructions together (R60 to R73). -/

namespace Sys2Proof

/-- Every constructor's code decodes to it: the round trips of the single constructors, put together. -/
theorem Laws.RoundTrip.statement (i : Instr) : Laws.RoundTrip.Statement i := by
  open Laws.RoundTrip in
  cases i with
  | add d a b => exact add d a b | sub d a b => exact sub d a b | and d a b => exact and d a b | or d a b => exact or d a b
  | xor d a b => exact xor d a b | andn d a b => exact andn d a b | sll d a b => exact sll d a b
  | srl d a b => exact srl d a b | sra d a b => exact sra d a b | ror d a b => exact ror d a b
  | slt d a b => exact slt d a b | sltu d a b => exact sltu d a b | min d a b => exact min d a b
  | max d a b => exact max d a b | minu d a b => exact minu d a b | maxu d a b => exact maxu d a b
  | mul d a b => exact mul d a b | mulh d a b => exact mulh d a b | mulhu d a b => exact mulhu d a b
  | mulhsu d a b => exact mulhsu d a b | div d a b => exact div d a b | divu d a b => exact divu d a b
  | rem d a b => exact rem d a b | remu d a b => exact remu d a b | clz d a => exact clz d a | ctz d a => exact ctz d a
  | popc d a => exact popc d a | sextB d a => exact sextB d a | sextH d a => exact sextH d a | sextW d a => exact sextW d a
  | zextW d a => exact zextW d a | addi d a imm => exact addi d a imm | andi d a imm => exact andi d a imm
  | ori d a imm => exact ori d a imm | xori d a imm => exact xori d a imm | slti d a imm => exact slti d a imm
  | sltiu d a imm => exact sltiu d a imm | slli d a sh => exact slli d a sh | srli d a sh => exact srli d a sh
  | srai d a sh => exact srai d a sh | lih d imm => exact lih d imm | addpc d imm => exact addpc d imm
  | ldb d a off => exact ldb d a off | ldh d a off => exact ldh d a off | ldw d a off => exact ldw d a off
  | ldd d a off => exact ldd d a off | ldbu d a off => exact ldbu d a off | ldhu d a off => exact ldhu d a off
  | ldwu d a off => exact ldwu d a off | stb b a off => exact stb b a off | sth b a off => exact sth b a off
  | stw b a off => exact stw b a off | std b a off => exact std b a off | beq a b off => exact beq a b off
  | bne a b off => exact bne a b off | blt a b off => exact blt a b off | bge a b off => exact bge a b off
  | bltu a b off => exact bltu a b off | bgeu a b off => exact bgeu a b off | jal d off => exact jal d off
  | jalr d a imm => exact jalr d a imm | trap a code => exact trap a code | brk code => exact brk code
  | ifl a b => exact ifl a b | csrr d c => exact csrr d c | csrw c a => exact csrw c a | csrs d c a => exact csrs d c a
  | csrc d c a => exact csrc d c a | cAddi d imm => exact cAddi d imm | cLi d imm => exact cLi d imm
  | cMv d a => exact cMv d a | cAdd d a => exact cAdd d a | cSub d a => exact cSub d a | cAnd d a => exact cAnd d a
  | cOr d a => exact cOr d a | cXor d a => exact cXor d a | cSlli d sh => exact cSlli d sh | cSrli d sh => exact cSrli d sh
  | cLdd d a off => exact cLdd d a off | cStd b a off => exact cStd b a off | cLdw d a off => exact cLdw d a off
  | cStw b a off => exact cStw b a off | cBeqz a off => exact cBeqz a off | cBnez a off => exact cBnez a off
  | cJ off => exact cJ off | ldaq sz d a => exact ldaq sz d a | strl sz b a => exact strl sz b a | ldf d a => exact ldf d a
  | lde d a => exact lde d a | stf b a => exact stf b a | ste b a => exact ste b a | fefill a b => exact fefill a b
  | feclr a b => exact feclr a b | waitw d a b => exact waitw d a b | waitc d a b => exact waitc d a b
  | stNt b a => exact stNt b a | drainNt => exact drainNt | rsv d a => exact rsv d a | rls a b => exact rls a b
  | amoAdd rlx d a b => exact amoAdd rlx d a b | amoAnd rlx d a b => exact amoAnd rlx d a b
  | amoOr rlx d a b => exact amoOr rlx d a b | amoXor rlx d a b => exact amoXor rlx d a b
  | amoMin rlx d a b => exact amoMin rlx d a b | amoMax rlx d a b => exact amoMax rlx d a b
  | amoMinu rlx d a b => exact amoMinu rlx d a b | amoMaxu rlx d a b => exact amoMaxu rlx d a b
  | amoSwap rlx d a b => exact amoSwap rlx d a b | amoCas rlx d a b => exact amoCas rlx d a b | fence s => exact fence s
  | cfenceI d => exact cfenceI d | cfenceW a => exact cfenceW a | vadd t rc m d a b => exact vadd t rc m d a b
  | vsub t rc m d a b => exact vsub t rc m d a b | vmul t rc m d a b => exact vmul t rc m d a b
  | vfma t rc m d a b => exact vfma t rc m d a b | vfms t rc m d a b => exact vfms t rc m d a b
  | vfnma t rc m d a b => exact vfnma t rc m d a b | vmax t m d a b => exact vmax t m d a b
  | vmin t m d a b => exact vmin t m d a b | vabs t m d a => exact vabs t m d a | vneg t m d a => exact vneg t m d a
  | vcmp t cc m d a b => exact vcmp t cc m d a b | vsel m d a b => exact vsel m d a b
  | viadd w m d a b => exact viadd w m d a b | visub w m d a b => exact visub w m d a b
  | vimul w m d a b => exact vimul w m d a b | vimulhI w m d a b => exact vimulhI w m d a b
  | vimulhU w m d a b => exact vimulhU w m d a b | vimac w m d a b => exact vimac w m d a b
  | vand m d a b => exact vand m d a b | vor m d a b => exact vor m d a b | vxor m d a b => exact vxor m d a b
  | vshl w m d a b => exact vshl w m d a b | vshr w m d a b => exact vshr w m d a b
  | vsar w m d a b => exact vsar w m d a b | viminI w m d a b => exact viminI w m d a b
  | viminU w m d a b => exact viminU w m d a b | vimaxI w m d a b => exact vimaxI w m d a b
  | vimaxU w m d a b => exact vimaxU w m d a b | viabs w m d a => exact viabs w m d a
  | vsaddI w m d a b => exact vsaddI w m d a b | vsaddU w m d a b => exact vsaddU w m d a b
  | vssubI w m d a b => exact vssubI w m d a b | vssubU w m d a b => exact vssubU w m d a b
  | vicmp cc w m d a b => exact vicmp cc w m d a b | vcvt dst src rc part m d a => exact vcvt dst src rc part m d a
  | vmov m d a => exact vmov m d a | vzero m d => exact vzero m d | vbcast w m d a => exact vbcast w m d a
  | vextr w d a b => exact vextr w d a b | vins w d a b => exact vins w d a b | vidx w m d a => exact vidx w m d a
  | vcvtSr dst part m d a b => exact vcvtSr dst part m d a b | vpack t m d a b => exact vpack t m d a b
  | vunpk t part m d a => exact vunpk t part m d a | vld w m d a b => exact vld w m d a b
  | vst w m d a b => exact vst w m d a b | vlds w m d a b => exact vlds w m d a b | vsts w m d a b => exact vsts w m d a b
  | vgath w m d a b => exact vgath w m d a b | vscat w m d a b => exact vscat w m d a b
  | vldb w m d a => exact vldb w m d a | vrecip t m d a => exact vrecip t m d a | vrsqrt t m d a => exact vrsqrt t m d a
  | vsqrt t rc m d a => exact vsqrt t rc m d a | vexp2 t m d a => exact vexp2 t m d a
  | vlog2 t m d a => exact vlog2 t m d a | vsin t m d a => exact vsin t m d a | vcos t m d a => exact vcos t m d a
  | vtanh t m d a => exact vtanh t m d a | vsigm t m d a => exact vsigm t m d a | vrand m d a b => exact vrand m d a b
  | vredsum t m d a => exact vredsum t m d a | vredmax t m d a => exact vredmax t m d a
  | vredmin t m d a => exact vredmin t m d a | vscan t m d a => exact vscan t m d a
  | vshuf w m d a b => exact vshuf w m d a b | vrot w m d a b => exact vrot w m d a b
  | vslide w m d a b => exact vslide w m d a b | vcomp w m d a => exact vcomp w m d a
  | vexpd w m d a => exact vexpd w m d a | pset d a => exact pset d a | pand d a b => exact pand d a b
  | por d a b => exact por d a b | pnot d a => exact pnot d a | pcnt d a => exact pcnt d a | pfirst d a => exact pfirst d a
  | vqmul m d a b => exact vqmul m d a b | vqmac m d a b => exact vqmac m d a b | vqrndLo m d a n => exact vqrndLo m d a n
  | vqrndHi m d a n => exact vqrndHi m d a n | vqsatI16 m d a n => exact vqsatI16 m d a n
  | vqsatI32 m d a n => exact vqsatI32 m d a n | scfg s k a => exact scfg s k a | sbase s a => exact sbase s a
  | sstart s => exact sstart s | sstop s => exact sstop s | sbr s off => exact sbr s off | sstat d s => exact sstat d s
  | tmma f d a b => exact tmma f d a b | tmmaSp f d a b => exact tmmaSp f d a b | tzero d => exact tzero d
  | tldacc f d a => exact tldacc f d a | tst f a d => exact tst f a d | tscale f d a b => exact tscale f d a b
  | tadd f d a b => exact tadd f d a b | twait => exact twait | tdesc f d a role => exact tdesc f d a role
  | tmq a => exact tmq a | tmqClr => exact tmqClr | send a b n => exact send a b n | recv d a n => exact recv d a n
  | sendt a b => exact sendt a b | recvt a b => exact recvt a b | altClr => exact altClr | altRx a i => exact altRx a i
  | altTx a i => exact altTx a i | altTm a i => exact altTm a i | altBar a b i => exact altBar a b i
  | altWait d => exact altWait d | chst d a b => exact chst d a b | chcl a => exact chcl a | chmk d a b => exact chmk d a b
  | chbind d a b => exact chbind d a b | chunb d a b => exact chunb d a b | spawn d a => exact spawn d a
  | exit => exact exit | yield => exact yield | sleep a => exact sleep a | setcl d a => exact setcl d a
  | dline d a b => exact dline d a b | migr d a => exact migr d a | barInit a b => exact barInit a b
  | barArr d a => exact barArr d a | barWait a b => exact barWait a b | msGet a b => exact msGet a b
  | msPut a b => exact msPut a b | msGath a b => exact msGath a b | msScat a b => exact msScat a b
  | msFill a b => exact msFill a b | msCas a b => exact msCas a b | msStat d b item => exact msStat d b item
  | nop => exact nop | cNop => exact cNop
  | _ => exact of_none rfl

/-- The rows of the opcode table with bits, and no others, have a code. -/
theorem isSome_encode (i : Instr) : (encode i).isSome = i.coded := by cases i <;> rfl

theorem Code.length_bytes (c : Code) : c.bytes.length = c.len := by cases c <;> rfl

/-- What bytes decode to does not depend on the bytes behind them. -/
theorem decode_append {bs : List Byte} {i : Instr} {n : Nat} (h : decode bs = .instr i n) (cs : List Byte) :
    decode (bs ++ cs) = .instr i n := by
  match bs with
  | [] | [_] => simp [decode] at h
  | b0 :: b1 :: rest =>
    by_cases hw : (b1 ++ b0).getLsbD 0 = true
    · match rest with
      | [] | [_] => simp [decode, hw] at h
      | b2 :: b3 :: _ => exact h
    · simpa only [decode, hw, List.cons_append, Bool.false_eq_true, if_false] using h

/-- Settles O1: the rows with bits have a code, and the round trip of each constructor gives the instruction back, whatever
bytes follow. -/
theorem decodeOfEncode : Obligations.DecodeOfEncode := by
  unfold Obligations.DecodeOfEncode
  intro i hwf
  have hcode := isSome_encode i
  have hround := Laws.RoundTrip.statement i hwf
  refine ⟨fun h => Option.isSome_iff_exists.mp (hcode.trans h), fun h => Option.not_isSome_iff_eq_none.mp ?_,
    fun c hc => ⟨hround c hc, c.length_bytes⟩, fun c bs hc => decode_append (hround c hc) bs⟩
  simp [hcode, h]

end Sys2Proof
end

section
/-! SUPPORT. O2: the formats, the other way round: a code equals one that is put together if and only if each field read from
it is the field put in (Tables 3.1 and 3.6). -/

namespace Sys2Proof

/-- Two parts that lie next to each other, the upper one's place given as a number. -/
theorem extract_adjacent {n : Nat} (x : BitVec n) {s t l : Nat} (k : Nat) (h : t = s + l) :
    x.extractLsb' t k ++ x.extractLsb' s l = x.extractLsb' s (k + l) := h ▸ extract_join x s l k

/-- One bit as a part. -/
theorem ofBool_getLsbD {n : Nat} (w : BitVec n) (k : Nat) : BitVec.ofBool (w.getLsbD k) = w.extractLsb' k 1 := by
  apply BitVec.eq_of_getLsbD_eq
  intro i hi
  obtain rfl : i = 0 := by omega
  simp

theorem bit0_odd {n : Nat} {w : BitVec n} (h : w.getLsbD 0 = true) : 1#1 = w.extractLsb' 0 1 := by
  rw [← ofBool_getLsbD, h]
  rfl

theorem bit0_even {n : Nat} {w : BitVec n} (h : w.getLsbD 0 = false) : 0#1 = w.extractLsb' 0 1 := by
  rw [← ofBool_getLsbD, h]
  rfl

section
variable {w : BitVec 32} (hodd : w.getLsbD 0 = true) {maj : BitVec 6} {fn : BitVec 10} {fn7 : BitVec 7} {m : BitVec 3}
variable {i5 fn5 b a d : BitVec 5} {imm : BitVec 15} {u : BitVec 20}
include hodd

theorem mkR_eq_iff : mkR maj fn b a d = w ↔
    (fMaj w).toNat = maj.toNat ∧ (fFn w).toNat = fn.toNat ∧ fB w = b ∧ fA w = a ∧ fD w = d := by
  simp only [BitVec.toNat_inj]
  refine ⟨by rintro rfl; simp, ?_⟩
  rintro ⟨rfl, rfl, rfl, rfl, rfl⟩
  simp (disch := decide) only [mkR, fMaj, fFn, fB, fA, fD, bit0_odd hodd, extract_adjacent, extract_all]

theorem mkI_eq_iff : mkI maj imm a d = w ↔ (fMaj w).toNat = maj.toNat ∧ fImmI w = imm ∧ fA w = a ∧ fD w = d := by
  simp only [BitVec.toNat_inj]
  refine ⟨by rintro rfl; simp, ?_⟩
  rintro ⟨rfl, rfl, rfl, rfl⟩
  simp (disch := decide) only [mkI, fMaj, fImmI, fA, fD, bit0_odd hodd, extract_adjacent, extract_all]

theorem mkS_eq_iff : mkS maj imm b a = w ↔ (fMaj w).toNat = maj.toNat ∧ fImmS w = imm ∧ fB w = b ∧ fA w = a := by
  simp only [BitVec.toNat_inj]
  refine ⟨by rintro rfl; simp, ?_⟩
  rintro ⟨rfl, rfl, rfl, rfl⟩
  simp (disch := decide) only [mkS, fMaj, fImmS, fB, fA, bit0_odd hodd, extract_append_low, extract_append_high, extract_all,
    Nat.reduceSub, extract_adjacent]

theorem mkU_eq_iff : mkU maj u d = w ↔ (fMaj w).toNat = maj.toNat ∧ fImmU w = u ∧ fD w = d := by
  simp only [BitVec.toNat_inj]
  refine ⟨by rintro rfl; simp, ?_⟩
  rintro ⟨rfl, rfl, rfl⟩
  simp (disch := decide) only [mkU, fMaj, fImmU, fD, bit0_odd hodd, extract_adjacent, extract_all]

theorem mkV_eq_iff : mkV maj fn7 m b a d = w ↔
    (fMaj w).toNat = maj.toNat ∧ (fFn7 w).toNat = fn7.toNat ∧ fM w = m ∧ fB w = b ∧ fA w = a ∧ fD w = d := by
  simp only [BitVec.toNat_inj]
  refine ⟨by rintro rfl; simp, ?_⟩
  rintro ⟨rfl, rfl, rfl, rfl, rfl, rfl⟩
  simp (disch := decide) only [mkV, fMaj, fFn7, fM, fB, fA, fD, bit0_odd hodd, extract_adjacent, extract_all]

theorem mkX_eq_iff : mkX maj i5 fn5 b a d = w ↔
    (fMaj w).toNat = maj.toNat ∧ fImm5 w = i5 ∧ (fFn5 w).toNat = fn5.toNat ∧ fB w = b ∧ fA w = a ∧ fD w = d := by
  simp only [BitVec.toNat_inj]
  refine ⟨by rintro rfl; simp, ?_⟩
  rintro ⟨rfl, rfl, rfl, rfl, rfl, rfl⟩
  simp (disch := decide) only [mkX, fMaj, fImm5, fFn5, fB, fA, fD, bit0_odd hodd, extract_adjacent, extract_all]

end

section
variable {h : BitVec 16} (heven : h.getLsbD 0 = false) {op : BitVec 4} {i : BitVec 6} {f : Bool} {a d o : BitVec 5}
variable {a3 d3 : BitVec 3} {o8 : BitVec 8}
include heven

theorem mkH6_eq_iff : mkH6 op i d = h ↔ (hOp h).toNat = op.toNat ∧ hImm6 h = i ∧ hD h = d := by
  simp only [BitVec.toNat_inj]
  refine ⟨by rintro rfl; simp, ?_⟩
  rintro ⟨rfl, rfl, rfl⟩
  simp (disch := decide) only [mkH6, hOp, hImm6, hD, bit0_even heven, extract_adjacent, extract_all]

theorem mkHF_eq_iff : mkHF op f a d = h ↔ (hOp h).toNat = op.toNat ∧ hF h = f ∧ hA h = a ∧ hD h = d := by
  simp only [BitVec.toNat_inj]
  refine ⟨by rintro rfl; simp, ?_⟩
  rintro ⟨rfl, rfl, rfl, rfl⟩
  have hf : BitVec.ofBool (hF h) = h.extractLsb' 15 1 := ofBool_getLsbD h 15
  simp (disch := decide) only [mkHF, hf, hOp, hA, hD, bit0_even heven, extract_adjacent, extract_all]

theorem mkHM_eq_iff : mkHM op o a3 d3 = h ↔ (hOp h).toNat = op.toNat ∧ hOff5 h = o ∧ hMid3 h = a3 ∧ hLow3 h = d3 := by
  simp only [BitVec.toNat_inj]
  refine ⟨by rintro rfl; simp, ?_⟩
  rintro ⟨rfl, rfl, rfl, rfl⟩
  simp (disch := decide) only [mkHM, hOp, hOff5, hMid3, hLow3, bit0_even heven, extract_adjacent, extract_all]

theorem mkHB_eq_iff : mkHB op o8 a3 = h ↔ (hOp h).toNat = op.toNat ∧ hOff8 h = o8 ∧ hLow3 h = a3 := by
  simp only [BitVec.toNat_inj]
  refine ⟨by rintro rfl; simp, ?_⟩
  rintro ⟨rfl, rfl, rfl⟩
  simp (disch := decide) only [mkHB, hOp, hOff8, hLow3, bit0_even heven, extract_adjacent, extract_all]

/-- The format of `c.j` and `c.nop`: 11 bits above OP4. -/
theorem jump_eq_iff {o11 : BitVec 11} : o11 ++ op ++ 0#1 = h ↔ (hOp h).toNat = op.toNat ∧ hOff11 h = o11 := by
  simp only [BitVec.toNat_inj]
  constructor
  · rintro rfl
    simp (disch := decide) only [hOp, hOff11, extract_append_low, extract_append_high, extract_all, Nat.reduceSub, and_self]
  · rintro ⟨rfl, rfl⟩
    simp (disch := decide) only [hOp, hOff11, bit0_even heven, extract_adjacent, extract_all]

end

/-! Fields made of parts -/

theorem eq_append {n m : Nat} {x : BitVec (n + m)} {u : BitVec n} {v : BitVec m} (hu : x.extractLsb' m n = u)
    (hv : x.extractLsb' 0 m = v) : x = u ++ v := by
  subst hu hv
  rw [extract_adjacent x n (by omega), extract_all]

/-- Loads and stores: the width code above the offset (R65). -/
theorem imm_eq_append {x : BitVec 15} {k : BitVec 3} {off : BitVec 12} (hk : (x.extractLsb' 12 3).toNat = k.toNat)
    (hoff : x.extractLsb' 0 12 = off) : x = k ++ off := eq_append (BitVec.toNat_inj.mp hk) hoff

/-- Shifts: the kind, six zero bits, the amount (R65). -/
theorem imm_eq_shift {x : BitVec 15} {k : BitVec 3} {sh : BitVec 6} (hk : (x.extractLsb' 12 3).toNat = k.toNat)
    (hz : x.extractLsb' 6 6 = 0#6) (hsh : x.extractLsb' 0 6 = sh) : x = k ++ 0#6 ++ sh := by
  refine eq_append (n := 9) (m := 6) ?_ hsh
  rw [← hz, ← BitVec.toNat_inj.mp hk, extract_adjacent x 3 (by decide)]

/-! What a decoder that succeeds has found -/

/-- Whatever the decoder gives is within its limits and has the code c. -/
def Encodes (c : Code) (r : Except Reason Instr) : Prop := ∀ i, r = .ok i → i.wf = true ∧ encode i = some c

section
variable {c : Code} {k : Except Reason Instr}

@[simp] theorem encodes_error (r : Reason) : Encodes c (.error r) := fun _ h => nomatch h

@[simp] theorem encodes_ok {i : Instr} : Encodes c (.ok i) ↔ i.wf = true ∧ encode i = some c :=
  ⟨fun h => h i rfl, fun h _ hj => by cases hj; exact h⟩

theorem encode_word {i : Instr} {v w : BitVec 32} (he : encode i = some (.word v)) (h : v = w) :
    encode i = some (.word w) := h ▸ he

theorem encode_half {i : Instr} {v h : BitVec 16} (he : encode i = some (.half v)) (e : v = h) :
    encode i = some (.half h) := e ▸ he

@[simp] theorem encodes_zeros {z : Bool} : Encodes c (zeros z k) ↔ (z = true → Encodes c k) := by
  cases z <;> simp [zeros]

@[simp] theorem encodes_limit {z : Bool} : Encodes c (limit z k) ↔ (z = true → Encodes c k) := by
  cases z <;> simp [limit]

theorem encodes_if {P : Prop} [Decidable P] {j : Except Reason Instr} (hj : P → Encodes c j)
    (hk : ¬P → Encodes c k) : Encodes c (if P then j else k) := by
  split
  next h => exact hj h
  next h => exact hk h

theorem encodes_ite {P : Prop} [Decidable P] {r : Reason} :
    Encodes c (if P then k else .error r) ↔ (P → Encodes c k) := by
  split <;> simp [*]

/-- A field below 2 ^ n names the register of its low n bits. -/
theorem setWidth_setWidth_of_lt {f : BitVec 5} {n : Nat} (h : f.toNat < 2 ^ n) : (f.setWidth n).setWidth 5 = f := by
  apply BitVec.eq_of_toNat_eq
  have := f.isLt
  simp [Nat.mod_eq_of_lt h, this]

/-! A decoder that reads a register field succeeds on the fields that name one. -/

theorem encodes_vreg {f : BitVec 5} {k : VIdx → Except Reason Instr} :
    Encodes c (vreg f k) ↔ ∀ r : VIdx, f = r.setWidth 5 → Encodes c (k r) :=
  ⟨fun h r hr => by simpa [hr] using h,
    fun h => encodes_ite.mpr fun hf => h _ (setWidth_setWidth_of_lt (n := 4) hf).symm⟩

theorem encodes_preg {f : BitVec 5} {k : PIdx → Except Reason Instr} :
    Encodes c (preg f k) ↔ ∀ r : PIdx, f = r.setWidth 5 → Encodes c (k r) :=
  ⟨fun h r hr => by simpa [hr] using h,
    fun h => encodes_ite.mpr fun hf => h _ (setWidth_setWidth_of_lt (n := 3) hf).symm⟩

theorem encodes_areg {f : BitVec 5} {k : AIdx → Except Reason Instr} :
    Encodes c (areg f k) ↔ ∀ r : AIdx, f = r.setWidth 5 → Encodes c (k r) :=
  ⟨fun h r hr => by simpa [hr] using h,
    fun h => encodes_ite.mpr fun hf => h _ (setWidth_setWidth_of_lt (n := 2) hf).symm⟩

theorem sField_setWidth {f : BitVec 5} (h : 8 ≤ f.toNat ∧ f.toNat < 16) : sField (f.setWidth 3) = f := by
  apply BitVec.eq_of_toNat_eq
  simp only [sField, BitVec.toNat_append, BitVec.toNat_setWidth]
  rw [← Nat.shiftLeft_add_eq_or_of_lt (Nat.mod_lt _ (by decide)), Nat.shiftLeft_eq]
  simp only [BitVec.toNat_ofNat]
  omega

theorem encodes_sreg {f : BitVec 5} {k : BitVec 3 → Except Reason Instr} :
    Encodes c (sreg f k) ↔ ∀ s, f = sField s → Encodes c (k s) :=
  ⟨fun h r hr => by simpa [hr] using h, fun h => encodes_ite.mpr fun hf => h _ (sField_setWidth hf).symm⟩

theorem Csr.num_of_ofNum {n : Nat} {r : Csr} (h : Csr.ofNum n = some r) : r.num = n := by
  unfold Csr.ofNum at h
  split at h <;> cases h <;> rfl

theorem Csr.ofNum_num (r : Csr) : Csr.ofNum (BitVec.ofNat 10 r.num).toNat = some r := by cases r <;> rfl

theorem encodes_csrf {f : BitVec 10} {k : Csr → Except Reason Instr} :
    Encodes c (csrf f k) ↔ ∀ r : Csr, f = BitVec.ofNat 10 r.num → Encodes c (k r) := by
  constructor
  · rintro h r rfl
    simpa only [csrf, Csr.ofNum_num] using h
  · intro h
    unfold csrf
    split
    next r hr => exact h r (by rw [Csr.num_of_ofNum hr, BitVec.ofNat_toNat, BitVec.setWidth_eq])
    next => exact encodes_error _

end

end Sys2Proof
end

section
/-! SUPPORT. O2: for each major and for the compact forms, what the decoder gives is within its limits and has the word or
halfword that was decoded as its code (R60 to R73). -/

namespace Sys2Proof

/-! The codes of the suffixes -/

theorem RedT.ofCode_float {k : Nat} (h : k < 3) : RedT.ofCode k = .f (FpT.ofCode k) := if_pos h

theorem FpT.code_ofCode {k : Nat} (h : k < 3) : (FpT.ofCode k).code = k := by
  interval_cases k <;> rfl
theorem Rc.code_ofCode {k : Nat} (h : k < 5) : (Rc.ofCode k).code = k := by
  interval_cases k <;> rfl
theorem ElW.code_ofCode {k : Nat} (h : k < 3) : (ElW.ofCode k).code = k := by
  interval_cases k <;> rfl
theorem ElW.ofCode_ne_w8 {k : Nat} (h : k < 2) : ElW.ofCode k ≠ .w8 := by
  interval_cases k <;> decide
theorem CmpF.code_ofCode {k : Nat} (h : k < 6) : (CmpF.ofCode k).code = k := by
  interval_cases k <;> rfl
theorem CmpI.code_ofCode {k : Nat} (h : k < 6) : (CmpI.ofCode k).code = k := by
  interval_cases k <;> rfl
theorem TileFmt.code_ofCode {k : Nat} (h : k < 11) : (TileFmt.ofCode k).code = k := by
  interval_cases k <;> rfl
theorem CvtT.code_ofCode {k : Nat} (h : k < 9) : (CvtT.ofCode k).code = k := by
  interval_cases k <;> rfl
theorem PackT.code_ofCode {k : Nat} (h : k < 4) : (PackT.ofCode k).code = k := by
  interval_cases k <;> rfl
theorem ScanT.code_ofCode {k : Nat} (h : k < 3) : (ScanT.ofCode k).code = k := by
  interval_cases k <;> rfl

/-! Fields that a decoder reads in parts -/

section
variable {w : BitVec 32}

theorem fK_parts : (fK w).extractLsb' 5 5 = fImm5 w ∧ (fK w).extractLsb' 0 5 = fB w := by
  simp (disch := decide) only [fK, extract_append_low, extract_append_high, extract_all, Nat.reduceSub, and_self]

/-- FN of major 0x0E: five zero bits, RLX, op (R255). -/
theorem amoFn_eq {fn : BitVec 10} {op : BitVec 4} (hz : ¬(fn.extractLsb' 5 5 != 0) = true)
    (hop : (fn.extractLsb' 0 4).toNat = op.toNat) : fn = 0#5 ++ BitVec.ofBool (fn.getLsbD 4) ++ op := by
  have hz : fn.extractLsb' 5 5 = 0#5 := by simpa using hz
  refine eq_append (n := 6) (m := 4) ?_ (BitVec.toNat_inj.mp hop)
  rw [ofBool_getLsbD, ← hz, extract_adjacent fn 5 (by decide)]

/-- PART of a conversion: field B is the rounding code above the part. -/
theorem fB_eq {rc : BitVec 3} (h : (fB w).extractLsb' 2 3 = rc) : fB w = rc ++ (fB w).extractLsb' 0 2 :=
  eq_append (n := 3) (m := 2) h rfl

/-- FN of the stream instructions without parameter: all but the low three bits are zero. -/
theorem toNat_of_high_zero {fn : BitVec 10} (hz : fn.extractLsb' 3 7 = 0#7) : fn.toNat = (fn.extractLsb' 0 3).toNat := by
  conv_lhs => rw [eq_append (n := 7) (m := 3) hz rfl]
  rw [BitVec.toNat_append]
  simp

/-- FN of majors 0x28 and 0x29: two zero bits, FMT, op (R202, R203). -/
theorem fFn_tile {f op : BitVec 4} (hz : (fFn w).extractLsb' 8 2 = 0#2) (hf : fFmt w = f.toNat)
    (hop : ((fFn w).extractLsb' 0 4).toNat = op.toNat) : fFn w = 0#2 ++ f ++ op := by
  refine eq_append (n := 6) (m := 4) ?_ (BitVec.toNat_inj.mp hop)
  rw [← hz, ← BitVec.toNat_inj.mp hf, extract_adjacent (fFn w) 2 (by decide)]

theorem fFn_tileFn {op : BitVec 4} (hf : ¬11 ≤ fFmt w) (hz : (fFn w).extractLsb' 8 2 = 0#2)
    (hop : ((fFn w).extractLsb' 0 4).toNat = op.toNat) :
    (fFn w).toNat = (tileFn (TileFmt.ofCode (fFmt w)) op).toNat := by
  refine congrArg BitVec.toNat (fFn_tile hz ?_ hop)
  rw [TileFmt.code_ofCode (by omega), BitVec.toNat_ofNat]
  omega

/-- A form without format (`tzero`, `twait`, `tmq`): all of FN but op is zero. -/
theorem fFn_plain (hz : (fFn w).extractLsb' 8 2 = 0#2) (hf : fFmt w = 0) :
    (fFn w).toNat = ((fFn w).extractLsb' 0 4).toNat := by
  conv_lhs => rw [fFn_tile (f := 0) hz hf rfl, BitVec.toNat_append]
  simp

end

/-! The majors -/

section
variable {w : BitVec 32} (hodd : w.getLsbD 0 = true)
include hodd

theorem encodes_dec01 (hmaj : (fMaj w).toNat = 0x01) : Encodes (.word w) (dec01 w) := by
  unfold dec01
  split
  all_goals simp only [encodes_zeros, encodes_ok, encodes_error, beq_iff_eq]
  all_goals
    intros
    refine ⟨rfl, encode_word rfl ?_⟩
    simp [mkR_eq_iff hodd, *]

theorem encodes_dec08 (hmaj : (fMaj w).toNat = 0x08) : Encodes (.word w) (dec08 w) := by
  unfold dec08
  split
  all_goals simp only [encodes_zeros, encodes_ok, encodes_error, beq_iff_eq]
  all_goals
    intro hz
    refine ⟨rfl, encode_word rfl ((mkI_eq_iff hodd).mpr ⟨hmaj, imm_eq_shift ?_ hz rfl, rfl, rfl⟩)⟩
    assumption

theorem encodes_dec0B (hmaj : (fMaj w).toNat = 0x0B) : Encodes (.word w) (dec0B w) := by
  unfold dec0B
  split
  all_goals simp only [encodes_ok, encodes_error]
  all_goals
    refine ⟨rfl, encode_word rfl ((mkI_eq_iff hodd).mpr ⟨hmaj, imm_eq_append ?_ rfl, rfl, rfl⟩)⟩
    assumption

theorem encodes_dec0C (hmaj : (fMaj w).toNat = 0x0C) : Encodes (.word w) (dec0C w) := by
  unfold dec0C
  split
  all_goals simp only [encodes_ok, encodes_error]
  all_goals
    refine ⟨rfl, encode_word rfl ((mkS_eq_iff hodd).mpr ⟨hmaj, imm_eq_append ?_ rfl, rfl, rfl⟩)⟩
    assumption

/-- Words of major 0x19, whose operand K stands in two parts (R116). -/
theorem mkK_eq_iff {op a d : BitVec 5} {k : BitVec 10} : mkK op k a d = w ↔
    (fMaj w).toNat = 0x19 ∧ fK w = k ∧ (fFn5 w).toNat = op.toNat ∧ fA w = a ∧ fD w = d := by
  obtain ⟨hi, hlo⟩ := fK_parts (w := w)
  constructor
  · rintro rfl
    simp [mkK, fK, extract_join _ 0 5 5]
  · rintro ⟨hmaj, rfl, hop, rfl, rfl⟩
    simp [mkK, mkX_eq_iff hodd, *]

theorem encodes_dec19 (hmaj : (fMaj w).toNat = 0x19) : Encodes (.word w) (dec19 w) := by
  unfold dec19
  split
  case h_4 =>
    simp only [encodes_zeros, encodes_ok, Bool.and_eq_true, beq_iff_eq]
    rintro ⟨hd, hi⟩
    exact ⟨rfl, encode_word rfl ((mkX_eq_iff hodd).mpr ⟨hmaj, hi, by assumption, rfl, rfl, hd⟩)⟩
  all_goals simp only [encodes_zeros, encodes_csrf, encodes_ok, encodes_error, beq_iff_eq, Bool.and_eq_true]
  all_goals
    intros
    refine ⟨rfl, encode_word rfl ?_⟩
    simp [mkK_eq_iff hodd, *]

theorem encodes_dec0D (hmaj : (fMaj w).toNat = 0x0D) : Encodes (.word w) (dec0D w) := by
  unfold dec0D
  split
  all_goals simp only [encodes_zeros, encodes_ok, encodes_error, beq_iff_eq, Bool.and_eq_true]
  all_goals
    intros
    refine ⟨rfl, encode_word rfl ?_⟩
    simp [mkR_eq_iff hodd, Width.code, *]

theorem encodes_dec0E (hmaj : (fMaj w).toNat = 0x0E) : Encodes (.word w) (dec0E w) := by
  unfold dec0E
  split
  · exact encodes_error _
  next hz =>
  have hfn {op : BitVec 4} := amoFn_eq (op := op) hz
  split
  all_goals simp only [encodes_zeros, encodes_limit, encodes_ok, encodes_error, beq_iff_eq, Bool.not_eq_true']
  case h_1 hop =>
    intro hb hrlx
    exact ⟨rfl, encode_word rfl ((mkR_eq_iff hodd).mpr ⟨hmaj, by rw [hfn (op := 0) hop, hrlx]; rfl, hb, rfl, rfl⟩)⟩
  case h_2 hop =>
    intro hd hrlx
    exact ⟨rfl, encode_word rfl ((mkR_eq_iff hodd).mpr ⟨hmaj, by rw [hfn (op := 1) hop, hrlx]; rfl, rfl, rfl, hd⟩)⟩
  all_goals
    refine ⟨rfl, encode_word rfl ((mkR_eq_iff hodd).mpr ⟨hmaj, congrArg BitVec.toNat (hfn ?_), rfl, rfl, rfl⟩)⟩
    assumption

theorem encodes_dec0F (hmaj : (fMaj w).toNat = 0x0F) : Encodes (.word w) (dec0F w) := by
  unfold dec0F
  split
  all_goals simp only [encodes_zeros, encodes_ok, encodes_error, beq_iff_eq, Bool.and_eq_true]
  all_goals
    intros
    refine ⟨rfl, encode_word rfl ?_⟩
    simp [mkR_eq_iff hodd, Scope.code, *]

/-- Words of format V whose B, A and D name v registers. -/
theorem mkVvv_eq_iff {maj : BitVec 6} {n : Nat} {m : BitVec 3} {b a d : VIdx} : mkVvv maj n m b a d = w ↔
    (fMaj w).toNat = maj.toNat ∧ (fFn7 w).toNat = n % 128 ∧ fM w = m ∧ fB w = b.setWidth 5 ∧ fA w = a.setWidth 5 ∧
      fD w = d.setWidth 5 := mkV_eq_iff hodd

theorem encodes_dec20 (hmaj : (fMaj w).toNat = 0x20) : Encodes (.word w) (dec20 w) := by
  simp only [dec20]
  split
  next hn =>
    simp only [vvv, encodes_vreg, encodes_ok]
    intros
    refine ⟨rfl, encode_word rfl ?_⟩
    simp [mkVvv_eq_iff hodd, *]
  split
  · exact encodes_error _
  split
  case h_7 =>
    split
    all_goals simp only [imp_false, vvv, vv0, pvv, encodes_zeros, encodes_vreg, encodes_preg, encodes_ok,
      beq_iff_eq] at *
    all_goals
      intros
      refine ⟨rfl, encode_word rfl ?_⟩
      simp (disch := omega) [mkVvv_eq_iff hodd, FpT.code_ofCode, CmpF.code_ofCode, *]
      omega
  all_goals simp only [vvv, encodes_vreg, encodes_ok]
  all_goals
    intros
    refine ⟨rfl, encode_word rfl ?_⟩
    simp (disch := omega) [mkVvv_eq_iff hodd, FpT.code_ofCode, Rc.code_ofCode, *]
    omega

theorem encodes_dec21 (hmaj : (fMaj w).toNat = 0x21) : Encodes (.word w) (dec21 w) := by
  simp only [dec21]
  split
  case h_22 =>
    simp only [imp_false, pvv, encodes_ite, encodes_limit, encodes_vreg, encodes_preg, encodes_ok, decide_eq_true_eq] at *
    intros
    refine ⟨rfl, encode_word rfl ?_⟩
    simp (disch := omega) [mkVvv_eq_iff hodd, ElW.code_ofCode, CmpI.code_ofCode, *]
    omega
  all_goals simp only [vvv, vv0, encodes_zeros, encodes_limit, encodes_vreg, encodes_ok, beq_iff_eq, decide_eq_true_eq]
  all_goals
    intros
    refine ⟨rfl, encode_word rfl ?_⟩
    simp (disch := omega) [mkVvv_eq_iff hodd, ElW.code_ofCode, *]
    omega

theorem encodes_dec22 (hmaj : (fMaj w).toNat = 0x22) : Encodes (.word w) (dec22 w) := by
  unfold dec22
  extract_lets n m dst src rc p
  have hn : (fFn7 w).toNat = n := rfl
  have hm : fM w = m := rfl
  have hp : (fB w).extractLsb' 0 2 = p := rfl
  refine encodes_if (fun hle => ?_) fun _ => ?_
  · simp only [encodes_limit, encodes_vreg, encodes_ok, Bool.and_eq_true, decide_eq_true_eq, and_imp]
    intro hpair hrc hpart d hd a ha
    refine ⟨by simp [Instr.wf, *], encode_word rfl ((mkV_eq_iff hodd).mpr ⟨hmaj, ?_, rfl, fB_eq ?_, ha, hd⟩)⟩
    · rw [CvtT.code_ofCode (by omega), CvtT.code_ofCode (by omega), BitVec.toNat_ofNat]
      omega
    · rw [Rc.code_ofCode (by omega), BitVec.ofNat_toNat, BitVec.setWidth_eq]
  clear_value n m dst src rc p
  repeat' with_reducible refine encodes_if (fun _ => ?_) fun _ => ?_
  all_goals simp only [vvv, vv0, vxx, vx0, hp, encodes_zeros, encodes_limit, encodes_vreg, encodes_ok, encodes_error,
    Bool.and_eq_true, beq_iff_eq, decide_eq_true_eq, and_imp]
  all_goals
    intros
    refine ⟨?_, encode_word rfl ?_⟩
  all_goals
    simp (disch := omega) [Instr.wf, SrT.parts, SrT.base, mkVvv, mkV_eq_iff hodd, ElW.code_ofCode, PackT.code_ofCode,
      Nat.mod_eq_of_lt, *]
  · omega
  · omega
  · exact hp ▸ fB_eq (by assumption)

theorem encodes_dec23 (hmaj : (fMaj w).toNat = 0x23) : Encodes (.word w) (dec23 w) := by
  unfold dec23
  extract_lets n m
  have hn : (fFn7 w).toNat = n := rfl
  have hm : fM w = m := rfl
  clear_value n m
  repeat' with_reducible refine encodes_if (fun _ => ?_) fun _ => ?_
  all_goals simp only [vxx, vx0, encodes_zeros, encodes_limit, encodes_vreg, encodes_ok, encodes_error, beq_iff_eq]
  all_goals
    intros
    refine ⟨?_, encode_word rfl ?_⟩
  all_goals
    simp (disch := omega) [Instr.wf, ElW.ofCode_ne_w8, mkV_eq_iff hodd, ElW.code_ofCode, Nat.mod_eq_of_lt, *]

theorem encodes_dec24 (hmaj : (fMaj w).toNat = 0x24) : Encodes (.word w) (dec24 w) := by
  simp only [dec24]
  split
  next hn =>
    simp only [vxx, encodes_vreg, encodes_ok]
    intros
    refine ⟨rfl, encode_word rfl ?_⟩
    simp [mkV_eq_iff hodd, *]
  split
  · exact encodes_error _
  split
  case h_3 =>
    simp only [encodes_limit, encodes_vreg, encodes_ok, Bool.and_eq_true, decide_eq_true_eq]
    intros
    refine ⟨rfl, encode_word rfl ?_⟩
    simp (disch := omega) [mkV_eq_iff hodd, FpT.code_ofCode, Rc.code_ofCode, *]
    omega
  all_goals simp only [imp_false, vv0, encodes_zeros, encodes_limit, encodes_vreg, encodes_ok, beq_iff_eq,
    decide_eq_true_eq] at *
  all_goals
    intros
    refine ⟨rfl, encode_word rfl ?_⟩
    simp (disch := omega) [mkVvv_eq_iff hodd, FpT.code_ofCode, *]
    omega

theorem encodes_dec25 (hmaj : (fMaj w).toNat = 0x25) : Encodes (.word w) (dec25 w) := by
  unfold dec25
  extract_lets n m
  have hn : (fFn7 w).toNat = n := rfl
  have hm : fM w = m := rfl
  clear_value n m
  repeat' with_reducible refine encodes_if (fun _ => ?_) fun _ => ?_
  on_goal -1 => split
  all_goals simp only [vvv, vv0, vvx, encodes_zeros, encodes_vreg, encodes_preg, encodes_ok, encodes_error,
    Bool.and_eq_true, beq_iff_eq, and_imp]
  all_goals
    intros
    refine ⟨?_, encode_word rfl ?_⟩
  all_goals
    simp (disch := omega) [Instr.wf, RedT.ofCode_float, redFn, mkVvv, mkV_eq_iff hodd, FpT.code_ofCode, ElW.code_ofCode,
      ScanT.code_ofCode, Nat.mod_eq_of_lt, *]

theorem encodes_dec26 (hmaj : (fMaj w).toNat = 0x26) : Encodes (.word w) (dec26 w) := by
  simp only [dec26]
  split
  all_goals simp only [vvv, encodes_limit, encodes_vreg, encodes_ok, encodes_error, Bool.and_eq_true, and_imp]
  all_goals
    intros
    refine ⟨by simp [Instr.wf, *], encode_word rfl ?_⟩
    simp [mkVvv, mkV_eq_iff hodd, *]

theorem encodes_dec27 (hmaj : (fMaj w).toNat = 0x27) : Encodes (.word w) (dec27 w) := by
  simp only [dec27]
  split
  all_goals simp only [encodes_zeros, encodes_limit, encodes_sreg, encodes_ok, encodes_error, Bool.and_eq_true, beq_iff_eq,
    and_imp]
  case h_1 hop =>
    intro hz hb hk s hs
    refine ⟨hk, encode_word rfl ((mkR_eq_iff hodd).mpr ⟨hmaj, ?_, hb, rfl, hs⟩)⟩
    exact congrArg BitVec.toNat (eq_append (n := 7) (m := 3) (eq_append (n := 4) (m := 3) hz rfl) (BitVec.toNat_inj.mp hop))
  case h_5 hop =>
    intro s hs
    have hfn {hi : BitVec 7} (h : (fFn w).extractLsb' 3 7 = hi) : fFn w = hi ++ 4#3 :=
      eq_append (n := 7) (m := 3) h (BitVec.toNat_inj.mp hop)
    refine ⟨rfl, encode_word rfl ((mkR_eq_iff hodd).mpr ⟨hmaj, congrArg BitVec.toNat (hfn ?_), hs, ?_, ?_⟩)⟩
    all_goals simp (disch := decide) only [extract_append_low, extract_append_high, extract_all, Nat.reduceSub]
  all_goals
    intros
    refine ⟨rfl, encode_word rfl ?_⟩
    simp [mkR_eq_iff hodd, toNat_of_high_zero, *]

theorem encodes_dec28 (hmaj : (fMaj w).toNat = 0x28) : Encodes (.word w) (dec28 w) := by
  simp only [dec28]
  split
  · exact encodes_error _
  next hf =>
  split
  all_goals simp only [pairf, encodes_zeros, encodes_limit, encodes_areg, encodes_vreg, encodes_ok, encodes_error,
    Bool.and_eq_true, beq_iff_eq, and_imp]
  case h_3 hop =>
    intro hz hf ha hb d hd
    exact ⟨rfl, encode_word rfl ((mkR_eq_iff hodd).mpr ⟨hmaj, (fFn_plain hz hf).trans hop, hb, ha, hd⟩)⟩
  case h_8 hop =>
    intro hz hf hd ha hb
    exact ⟨rfl, encode_word rfl ((mkR_eq_iff hodd).mpr ⟨hmaj, (fFn_plain hz hf).trans hop, hb, ha, hd⟩)⟩
  all_goals
    intro hz
    intros
    refine ⟨by simp [Instr.wf, *], encode_word rfl ((mkR_eq_iff hodd).mpr ⟨hmaj, fFn_tileFn hf hz ?_, ?_⟩)⟩
  all_goals simp [*]

theorem encodes_dec29 (hmaj : (fMaj w).toNat = 0x29) : Encodes (.word w) (dec29 w) := by
  simp only [dec29]
  split
  · exact encodes_error _
  next hf =>
  split
  all_goals simp only [pairf, encodes_zeros, encodes_limit, encodes_vreg, encodes_ok, encodes_error, Bool.and_eq_true,
    beq_iff_eq, decide_eq_true_eq, and_imp]
  case h_1 hop =>
    intro hz hrole ha
    exact ⟨by simp [Instr.wf, *], encode_word rfl ((mkR_eq_iff hodd).mpr ⟨hmaj, fFn_tileFn hf hz hop, rfl, rfl, rfl⟩)⟩
  case h_2 hop =>
    intro hz hf hd hb a ha
    exact ⟨rfl, encode_word rfl ((mkR_eq_iff hodd).mpr ⟨hmaj, (fFn_plain hz hf).trans hop, hb, ha, hd⟩)⟩
  case h_3 hop =>
    intro hz hf hd ha hb
    exact ⟨rfl, encode_word rfl ((mkR_eq_iff hodd).mpr ⟨hmaj, (fFn_plain hz hf).trans hop, hb, ha, hd⟩)⟩

theorem encodes_dec30 (hmaj : (fMaj w).toNat = 0x30) : Encodes (.word w) (dec30 w) := by
  simp only [dec30]
  split
  all_goals simp only [pairf, encodes_zeros, encodes_limit, encodes_ok, encodes_error, Bool.and_eq_true, beq_iff_eq,
    decide_eq_true_eq, and_imp]
  all_goals
    intros
    refine ⟨by simp [Instr.wf, *], encode_word rfl ?_⟩
    simp [mkX_eq_iff hodd, *]

theorem encodes_dec31 (hmaj : (fMaj w).toNat = 0x31) : Encodes (.word w) (dec31 w) := by
  unfold dec31
  split
  all_goals simp only [encodes_zeros, encodes_limit, encodes_ok, encodes_error, beq_iff_eq, Bool.and_eq_true]
  all_goals
    intros
    refine ⟨rfl, encode_word rfl ?_⟩
    simp [mkX_eq_iff hodd, *]

theorem encodes_dec32 (hmaj : (fMaj w).toNat = 0x32) : Encodes (.word w) (dec32 w) := by
  unfold dec32
  split
  all_goals simp only [encodes_zeros, encodes_limit, encodes_ok, encodes_error, beq_iff_eq]
  all_goals
    intros
    refine ⟨rfl, encode_word rfl ?_⟩
    simp [mkX_eq_iff hodd, *]

theorem encodes_dec33 (hmaj : (fMaj w).toNat = 0x33) : Encodes (.word w) (dec33 w) := by
  unfold dec33
  split
  all_goals simp only [encodes_zeros, encodes_limit, encodes_ok, encodes_error, beq_iff_eq, decide_eq_true_eq]
  all_goals
    intros
    refine ⟨by simp [Instr.wf, *], encode_word rfl ?_⟩
    simp [mkX_eq_iff hodd, *]

/-- A word that decodes is the code of what it decodes to. -/
theorem encodes_decodeWord : Encodes (.word w) (decodeWord w) := by
  unfold decodeWord
  split
  case h_1 hmaj => exact encodes_dec01 hodd hmaj
  case h_8 hmaj => exact encodes_dec08 hodd hmaj
  case h_11 hmaj => exact encodes_dec0B hodd hmaj
  case h_12 hmaj => exact encodes_dec0C hodd hmaj
  case h_13 hmaj => exact encodes_dec0D hodd hmaj
  case h_14 hmaj => exact encodes_dec0E hodd hmaj
  case h_15 hmaj => exact encodes_dec0F hodd hmaj
  case h_24 hmaj => exact encodes_dec19 hodd hmaj
  case h_25 hmaj => exact encodes_dec20 hodd hmaj
  case h_26 hmaj => exact encodes_dec21 hodd hmaj
  case h_27 hmaj => exact encodes_dec22 hodd hmaj
  case h_28 hmaj => exact encodes_dec23 hodd hmaj
  case h_29 hmaj => exact encodes_dec24 hodd hmaj
  case h_30 hmaj => exact encodes_dec25 hodd hmaj
  case h_31 hmaj => exact encodes_dec26 hodd hmaj
  case h_32 hmaj => exact encodes_dec27 hodd hmaj
  case h_33 hmaj => exact encodes_dec28 hodd hmaj
  case h_34 hmaj => exact encodes_dec29 hodd hmaj
  case h_35 hmaj => exact encodes_dec30 hodd hmaj
  case h_36 hmaj => exact encodes_dec31 hodd hmaj
  case h_37 hmaj => exact encodes_dec32 hodd hmaj
  case h_38 hmaj => exact encodes_dec33 hodd hmaj
  all_goals simp only [encodes_ok, encodes_error]
  all_goals
    refine ⟨rfl, encode_word rfl ?_⟩
    simp [mkI_eq_iff hodd, mkU_eq_iff hodd, mkS_eq_iff hodd, *]

end

/-- A halfword that decodes is the code of what it decodes to. -/
theorem encodes_decodeHalf {h : BitVec 16} (heven : h.getLsbD 0 = false) : Encodes (.half h) (decodeHalf h) := by
  simp only [decodeHalf]
  split
  case h_14 hop => exact encodes_ok.mpr ⟨rfl, encode_half rfl ((jump_eq_iff heven).mpr ⟨hop, rfl⟩)⟩
  case h_15 hop =>
    simp only [encodes_zeros, encodes_ok, beq_iff_eq]
    intro hoff
    exact ⟨rfl, encode_half (v := 0#11 ++ 0xF#4 ++ 0#1) rfl ((jump_eq_iff heven).mpr ⟨hop, hoff⟩)⟩
  case h_3 | h_4 | h_5 =>
    simp only [encodes_limit, bne_iff_ne]
    intro hd
    split
    all_goals
      refine encodes_ok.mpr ⟨bne_iff_ne.mpr hd, encode_half rfl ?_⟩
      simp [mkHF_eq_iff heven, *]
  case h_8 | h_9 | h_10 | h_11 | h_12 | h_13 =>
    refine encodes_ok.mpr ⟨rfl, encode_half rfl ?_⟩
    simp [mkHM_eq_iff heven, mkHB_eq_iff heven, *]
  all_goals simp only [encodes_limit, encodes_ok, encodes_error, bne_iff_ne]
  all_goals
    intro hd
    refine ⟨bne_iff_ne.mpr hd, encode_half rfl ?_⟩
    simp [mkH6_eq_iff heven, *]

/-- What a first halfword, with the second where it asks for one, decodes to has these halfwords as its code. -/
theorem decodeHalves_instr {h0 h1 : BitVec 16} {i : Instr} {n : Nat} (h : decodeHalves h0 h1 = .instr i n) :
    i.wf = true ∧ ((h0.getLsbD 0 = true ∧ n = 4 ∧ encode i = some (.word (wordOf h0 h1))) ∨
      (h0.getLsbD 0 = false ∧ n = 2 ∧ encode i = some (.half h0))) := by
  unfold decodeHalves at h
  split at h
  next hb =>
    have hodd : (wordOf h0 h1).getLsbD 0 = true := by
      simpa only [wordOf, BitVec.getLsbD_append, Nat.zero_lt_succ, decide_true, if_true] using hb
    split at h
    next j hj =>
      cases h
      obtain ⟨hwf, he⟩ := encodes_decodeWord hodd i hj
      exact ⟨hwf, .inl ⟨hb, rfl, he⟩⟩
    next => cases h
  next hb =>
    have heven : h0.getLsbD 0 = false := by simpa using hb
    split at h
    next j hj =>
      cases h
      obtain ⟨hwf, he⟩ := encodes_decodeHalf heven i hj
      exact ⟨hwf, .inr ⟨heven, rfl, he⟩⟩
    next => cases h

/-! The bytes of a code that is put together from bytes -/

theorem extract_low_byte {n : Nat} (x : BitVec n) (b : Byte) : (x ++ b).extractLsb' 0 8 = b :=
  (extract_append_low x b 0 8 le_rfl).trans (extract_all b)

theorem extract_high_byte (x : Byte) {n : Nat} (y : BitVec n) : (x ++ y).extractLsb' n 8 = x := by
  rw [extract_append_high x y n 8 le_rfl, Nat.sub_self, extract_all]

theorem bytes_half (b0 b1 : Byte) : (Code.half (b1 ++ b0)).bytes = [b0, b1] :=
  congrArg₂ (fun x y => [x, y]) (extract_low_byte b1 b0) (extract_high_byte b1 b0)

theorem bytes_word (b0 b1 b2 b3 : Byte) : (Code.word (wordOf (b1 ++ b0) (b3 ++ b2))).bytes = [b0, b1, b2, b3] := by
  have hlow (s : Nat) (h : s + 8 ≤ 16) := extract_append_low (b3 ++ b2) (b1 ++ b0) s 8 h
  have hhigh (s : Nat) (h : 16 ≤ s) := extract_append_high (b3 ++ b2) (b1 ++ b0) s 8 h
  have h0 := (hlow 0 (by decide)).trans (extract_low_byte b1 b0)
  have h1 := (hlow 8 (by decide)).trans (extract_high_byte b1 b0)
  have h2 := (hhigh 16 (by decide)).trans (extract_low_byte b3 b2)
  have h3 := (hhigh 24 (by decide)).trans (extract_high_byte b3 b2)
  exact List.cons_eq_cons.mpr ⟨h0, List.cons_eq_cons.mpr ⟨h1, congrArg₂ (fun x y => [x, y]) h2 h3⟩⟩

/-- Settles O2: what decodes is within its limits, and its code is put together from the bytes read. -/
theorem encodeOfDecode : Obligations.EncodeOfDecode := by
  unfold Obligations.EncodeOfDecode
  intro bs i n h
  match bs with
  | [] | [_] => simp [decode] at h
  | b0 :: b1 :: rest =>
    simp only [decode] at h
    split at h
    next hb =>
      match rest with
      | [] | [_] => simp at h
      | b2 :: b3 :: rest =>
        obtain ⟨hwf, ⟨-, rfl, he⟩ | ⟨hb', -⟩⟩ := decodeHalves_instr h
        · exact ⟨hwf, _, he, rfl, bytes_word b0 b1 b2 b3⟩
        · exact absurd hb (by simp only [hb', Bool.false_eq_true, not_false_eq_true])
    next hb =>
      obtain ⟨hwf, ⟨hb', -⟩ | ⟨-, rfl, he⟩⟩ := decodeHalves_instr h
      · exact absurd hb' hb
      · exact ⟨hwf, _, he, rfl, bytes_half b0 b1⟩

end Sys2Proof
end

section
/-! SUPPORT. O4, O5: what a fetch leaves of the state, when it gives the instruction at the pc, and what a step of a core makes
of it (R60, R123). -/

namespace Sys2Proof.Machine

/-! What a fetch changes -/

/-- Nothing has changed but the cores' own registers and the counter of free values (log 9). -/
def State.OnlyCores (s t : State) : Prop := t = { s with cores := t.cores, free := t.free }

theorem State.OnlyCores.trans {s t u : State} (h : s.OnlyCores t) (h' : t.OnlyCores u) : s.OnlyCores u := by
  unfold State.OnlyCores at h h' ⊢
  rw [h', h]

theorem State.onlyCores_modCore (s : State) (n c : Nat) (f : Core → Core) :
    s.OnlyCores ({ s with free := n }.modCore c f) := rfl

theorem State.fetchHalf_onlyCores {s t : State} {p : Proc} {a : Word} {h : BitVec 16} (e : s.fetchHalf p a = some (h, t)) :
    s.OnlyCores t := by
  unfold State.fetchHalf at e
  split at e
  · cases e
  split at e
  · cases e
    exact s.onlyCores_modCore s.free _ _
  split at e
  · cases e
    rfl
  split at e <;> cases e
  · rfl
  · exact s.onlyCores_modCore _ _ _

theorem State.orderLoads_onlyCores (s : State) (core : Nat) (i : Instr) : s.OnlyCores (s.orderLoads core i) := by
  unfold State.orderLoads State.clearEarly
  split
  · rfl
  split
  · rfl
  · exact s.onlyCores_modCore s.free _ _

theorem State.fetch_onlyCores {s t : State} {p : Proc} {i : Instr} (e : s.fetch p = .instr i t) : s.OnlyCores t := by
  unfold State.fetch at e
  split at e
  · cases e
  next h0 u hu =>
    have hsu := State.fetchHalf_onlyCores hu
    split at e
    · split at e
      · cases e
      next h1 v hv =>
        split at e <;> cases e
        exact (hsu.trans (State.fetchHalf_onlyCores hv)).trans (v.orderLoads_onlyCores _ _)
    · split at e <;> cases e
      exact hsu.trans (u.orderLoads_onlyCores _ _)

/-! What a fetch gives -/

section
variable {s : State} {p : Proc} {a b : Word} {h : BitVec 16}

/-- The core keeps a copy of a halfword that it fetches for the first time. -/
theorem State.fetchHalf_fresh (hm : s.fetchMem p a = some h) (hc : s.copy? p.core a.toNat = none) :
    s.fetchHalf p a = some (h, s.modCore p.core fun k => k.keepCopy a.toNat h) := by
  simp only [State.fetchHalf, hm, hc]

/-- Keeping a copy moves no park area. -/
theorem State.parkStart_keepCopy (c x : Nat) (h : BitVec 16) (d : Nat) :
    (s.modCore c fun k => k.keepCopy x h).parkStart d = s.parkStart d := by
  unfold State.parkStart
  by_cases hd : d = c
  · subst hd
    rw [s.core_modCore_same d _ (s.core_id d)]
    rfl
  · rw [s.core_modCore_other _ (s.core_id c) hd]

theorem State.target_keepCopy (c x : Nat) (h : BitVec 16) (d y : Nat) :
    (s.modCore c fun k => k.keepCopy x h).target d y = s.target d y := by
  unfold State.target State.addressable
  simp only [State.parkStart_keepCopy]
  rfl

theorem State.fetchMem_keepCopy (c x : Nat) : (s.modCore c fun k => k.keepCopy x h).fetchMem p b = s.fetchMem p b := by
  unfold State.fetchMem Proc.allowed State.allows
  simp only [State.target_keepCopy]
  rfl

/-- A copy of one halfword is none of another. -/
theorem State.copy?_keepCopy_other {x y : Nat} (hxy : y ≠ x) (hc : s.copy? p.core y = none) :
    (s.modCore p.core fun k => k.keepCopy x h).copy? p.core y = none := by
  unfold State.copy? at hc ⊢
  rw [s.core_modCore_same p.core _ (s.core_id p.core)]
  simp only [Option.map_eq_none_iff, List.find?_eq_none, Core.keepCopy, List.mem_append, List.mem_filter,
    List.mem_singleton] at hc ⊢
  rintro z (⟨hz, -⟩ | rfl)
  · exact hc z hz
  · simpa using hxy.symm

end

theorem next_halfword_ne (a : Word) : (a + 2).toNat ≠ a.toNat := by bv_omega

/-- Where windows grant execute and the core has no copies, a fetch gives what the halfwords decode to. -/
theorem State.fetch_decodes {s : State} {p : Proc} {h0 h1 : BitVec 16} {i : Instr} {n : Nat}
    (hm0 : s.fetchMem p p.pc = some h0) (hc0 : s.copy? p.core p.pc.toNat = none) (hm1 : s.fetchMem p (p.pc + 2) = some h1)
    (hc1 : s.copy? p.core (p.pc + 2).toNat = none) (hd : decodeHalves h0 h1 = .instr i n) :
    ∃ t, s.fetch p = .instr i t := by
  have hf1 := State.fetchHalf_fresh (s := s.modCore p.core fun k => k.keepCopy p.pc.toNat h0)
    (State.fetchMem_keepCopy _ _ |>.trans hm1) (State.copy?_keepCopy_other (next_halfword_ne _) hc1)
  simp only [State.fetch, State.fetchHalf_fresh hm0 hc0]
  by_cases hb : h0.getLsbD 0 = true
  · simp only [hb, if_true, hf1, hd]
    exact ⟨_, rfl⟩
  · have hd0 : decodeHalves h0 0 = .instr i n := by
      rw [← hd]
      simp only [decodeHalves, hb, Bool.false_eq_true, if_false]
    simp only [hb, Bool.false_eq_true, if_false, hd0]
    exact ⟨_, rfl⟩

/-! A step of a core -/

theorem State.refocus_self (s : State) : s.refocus s.focus = s := if_pos rfl

theorem stepCore_live {s : State} {p : Proc} (hlive : s.coreLive s.focus = true) (hc : s.cpu = some p) :
    stepCore s s.focus = passing (s.ccOf s.focus) (stepProc s p) := by
  simp only [stepCore, State.refocus_self, hc, hlive, if_true]

/-- When the agenda says that the core in focus moves, its running process does. -/
theorem step_core {s : State} {p : Proc} {rest : List Agenda} (ha : s.agenda = .core s.focus :: rest)
    (hlive : s.coreLive s.focus = true) (hc : s.cpu = some p) :
    step s = passing (s.ccOf s.focus) (stepProc { s with agenda := rest } p) := by
  rw [step, ha]
  exact stepCore_live (s := { s with agenda := rest }) hlive hc

section
variable {s t : State} {p : Proc} (hw : p.wait = .none ∨ p.wait = .stall)
include hw

theorem stepProc_instr {i : Instr} (hf : s.fetch p = .instr i t) : stepProc s p = exec i t := by
  simp only [stepProc, if_pos hw, hf]

theorem stepProc_illegal {w : BitVec 32} {r : BitVec 12} (hf : s.fetch p = .illegal w r t) :
    stepProc s p = exec .unallocatedEncoding { t with subj := .encoding w r } := by
  simp only [stepProc, if_pos hw, hf]

theorem stepProc_window {a : Word} (hf : s.fetch p = .window a) :
    stepProc s p = exec .fetchWindow { s with subj := .fetch a } := by
  simp only [stepProc, if_pos hw, hf]

end

/-- Settles O4: the fetched instruction is executed in the state after its fetch, which differs in the cores' registers and
the counter of free values; halfwords without copies decode to what is fetched. -/
theorem stepRunsDecoded : Obligations.StepRunsDecoded := by
  unfold Obligations.StepRunsDecoded
  intro s p rest ha hlive ⟨hc, hw⟩
  refine ⟨fun i t hf => ⟨?_, State.fetch_onlyCores hf⟩, fun h0 h1 i n hm0 hc0 hm1 hc1 hd =>
    State.fetch_decodes (s := { s with agenda := rest }) hm0 hc0 hm1 hc1 hd⟩
  rw [step_core ha hlive hc, stepProc_instr hw hf]

/-- Settles O5: the two outcomes of a fetch that gives no instruction raise ILLEGAL and WINDOW, and a step performs them. -/
theorem fetchFaults : Obligations.FetchFaults := by
  unfold Obligations.FetchFaults
  intro s p hc
  refine ⟨fun w r => ?_, fun a => ?_, fun rest ha hlive hw => ⟨fun w r t hf => ?_, fun a hf => ?_⟩⟩
  · exact (withProc_some (s := { s with subj := .encoding w r }) hc _).trans rfl
  · exact (withProc_some (s := { s with subj := .fetch a }) hc _).trans rfl
  · rw [step_core ha hlive hc, stepProc_illegal hw hf]
  · rw [step_core ha hlive hc, stepProc_window hw hf]

end Sys2Proof.Machine
end

section
/-! SUPPORT. O13: the arithmetic of the scalar chapter on unbounded integers, and the compact forms (Table 3.6). -/

namespace Sys2Proof.Machine

/-! Words as reduced integers -/

theorem add_signExtend_eq_ofInt (x : Word) {n : Nat} (imm : BitVec n) :
    x + imm.signExtend 64 = BitVec.ofInt 64 (x.toNat + imm.toInt) := by
  rw [BitVec.ofInt_add, BitVec.ofInt_natCast, BitVec.ofNat_toNat, BitVec.setWidth_eq]
  rfl

theorem add_halves_eq_ofInt (x : Word) {n : Nat} (off : BitVec n) :
    x + halves off = BitVec.ofInt 64 (x.toNat + off.toInt * 2) := by
  rw [BitVec.ofInt_add, BitVec.ofInt_mul, BitVec.ofInt_natCast, BitVec.ofNat_toNat, BitVec.setWidth_eq]
  rfl

theorem add_eq_ofNat (x y : Word) : x + y = BitVec.ofNat 64 (x.toNat + y.toNat) := by
  apply BitVec.eq_of_toNat_eq
  simp

theorem sub_eq_ofInt (x y : Word) : x - y = BitVec.ofInt 64 ((x.toNat : Int) - y.toNat) := by
  rw [Int.sub_eq_add_neg, BitVec.ofInt_add, BitVec.ofInt_neg, BitVec.ofInt_natCast, BitVec.ofInt_natCast,
    BitVec.ofNat_toNat, BitVec.setWidth_eq, BitVec.ofNat_toNat, BitVec.setWidth_eq, BitVec.sub_eq_add_neg]

theorem shiftLeft_eq_ofNat (x : Word) (n : Nat) : x <<< n = BitVec.ofNat 64 (x.toNat * 2 ^ n) := by
  apply BitVec.eq_of_toNat_eq
  simp [Nat.shiftLeft_eq]

theorem shiftRight_eq_ofNat (x : Word) (n : Nat) : x >>> n = BitVec.ofNat 64 (x.toNat / 2 ^ n) := by
  apply BitVec.eq_of_toNat_eq
  rw [BitVec.toNat_ushiftRight, Nat.shiftRight_eq_div_pow, BitVec.toNat_ofNat,
    Nat.mod_eq_of_lt (lt_of_le_of_lt (Nat.div_le_self _ _) x.isLt)]

theorem short_eq_ofNat (c : BitVec 3) : short c = BitVec.ofNat 5 (c.toNat + 4) := by
  apply BitVec.eq_of_toNat_eq
  simp [short]

/-- A compact form without operands or result moves on. -/
theorem moves_on {i : Instr} {s : State} {p : Proc} {len : Nat} (h : s.cpu = some p)
    (he : exec i s = s.withProc fun q => s.done (q.advance len)) : Completes i s (behind p len) :=
  he.trans (withProc_some h _)

/-- Settles O13: each form is a register form, a branch or the no-operation, with its operands as reduced integers. -/
theorem compactForms : Obligations.CompactForms := by
  unfold Obligations.CompactForms
  intro s p d a imm c o8 o11 hc x y z res
  refine ⟨alu_completes hc rfl (add_signExtend_eq_ofInt x imm), alu_completes hc rfl rfl, alu_completes hc rfl rfl,
    alu_completes hc rfl (add_eq_ofNat x y), alu_completes hc rfl (sub_eq_ofInt x y), alu_completes hc rfl rfl,
    alu_completes hc rfl rfl, alu_completes hc rfl rfl, alu_completes hc rfl (shiftLeft_eq_ofNat x imm.toNat),
    alu_completes hc rfl (shiftRight_eq_ofNat x imm.toNat), ?_, ?_, ?_, moves_on hc rfl⟩
  · refine branch_completes hc rfl ?_ (add_halves_eq_ofInt p.pc o8)
    rw [short_eq_ofNat]
    rfl
  · refine branch_completes hc rfl ?_ (add_halves_eq_ofInt p.pc o8)
    rw [short_eq_ofNat]
    simp [bne, beq_eq_decide, z]
  · simpa only [if_true] using branch_completes (P := True) (c := fun _ => true) hc rfl rfl (add_halves_eq_ofInt p.pc o11)

end Sys2Proof.Machine
end

section
/-! SUPPORT. The common course of a vector instruction whose registers are no bound streams (R22, R140, R141, R156), the lanes
of a register and the bits of a mask (R152, R153, R169). -/

namespace Sys2Proof

open Machine

/-! Registers that are no streams -/

section
variable {p : Proc} {vs : List VIdx}

theorem Plain.mono {us : List VIdx} (h : Plain p vs) (hs : ∀ r ∈ us, r ∈ vs) : Plain p us := by
  obtain ⟨hcls, hv, hb⟩ := h
  exact ⟨hcls, fun hc r hr => hv hc r (hs r hr), fun r hr => hb r (hs r hr)⟩

/-- The class of the process has the registers (R22). -/
theorem classBad_plain (h : Plain p vs) : p.classBad vs false = false := by
  obtain ⟨hcls, hv, -⟩ := h
  unfold Proc.classBad
  split
  next hc => exact absurd hc hcls
  next hc =>
    simp only [Bool.false_or, List.any_eq_false, decide_eq_true_eq, not_le]
    exact hv hc
  next => rfl

/-- None of the registers is the stream i. -/
theorem any_boundAt_plain (h : Plain p vs) (i : BitVec 3) : vs.any (fun r => p.boundAt r == some i) = false := by
  obtain ⟨-, -, hb⟩ := h
  simp only [List.any_eq_false]
  intro r hr
  simp [hb r hr]

theorem misuse_plain {srcs dsts : List VIdx} (hs : Plain p srcs) (hd : Plain p dsts) (push : Bool) :
    p.misuse srcs dsts push = none := by
  simp [Proc.misuse, any_boundAt_plain hs, any_boundAt_plain hd]

theorem popAll_plain (s : State) (h : Plain p vs) : s.popAll p vs none = .go p := by
  have hpop : p.popped vs = [] := by simp [Proc.popped, any_boundAt_plain h]
  simp [State.popAll, Proc.endFault, hpop]

theorem bind_boundAt_plain {d : Option VIdx} (h : Plain p d.toList) : d.bind p.boundAt = none := by
  obtain ⟨-, -, hb⟩ := h
  cases d with
  | none => rfl
  | some r => exact hb r (by simp)

end

/-! The common course (R156) -/

/-- A vector result in its register. -/
def Machine.Proc.takeVec (p : Proc) (d : Option VIdx) (v : Option VReg) : Proc :=
  match d, v with
  | some d, some v => p.setV d v
  | _, _ => p

/-- The process with what a vector instruction computes in its flags, x and p registers. -/
def Machine.VRes.regs (r : VRes) (p : Proc) : Proc :=
  let q := { p with fpflags := p.fpflags ||| flagsOf r.lanes }
  let q := match r.x with
    | some (d, v) => q.setX d v
    | none => q
  match r.m with
  | some (d, v) => q.setP d v
  | none => q

theorem boundAt_setX (p : Proc) (d : XIdx) (v : Word) (r : VIdx) : (p.setX d v).boundAt r = p.boundAt r := by
  unfold Proc.setX
  split <;> rfl

theorem boundAt_setP (p : Proc) (d : PIdx) (v : Word) (r : VIdx) : (p.setP d v).boundAt r = p.boundAt r := by
  unfold Proc.setP
  split <;> rfl

theorem boundAt_regs (res : VRes) (p : Proc) (r : VIdx) : (res.regs p).boundAt r = p.boundAt r := by
  obtain ⟨_, x, m, _, _⟩ := res
  cases x <;> cases m <;> simp only [VRes.regs, boundAt_setP, boundAt_setX] <;> rfl

theorem putVec_plain (s : State) {p : Proc} {d : Option VIdx} (v : Option VReg) (h : ∀ r, d = some r → p.boundAt r = none) :
    s.putVec p d v = (s, p.takeVec d v) := by
  cases d with
  | none => rfl
  | some r =>
    cases v with
    | none => rfl
    | some v => simp only [State.putVec, h r rfl, Proc.takeVec]

/-- Without streams a vector instruction puts its result into its registers and gains its flags, or raises ARITH. -/
theorem vec_plain {s : State} {p : Proc} {i : Instr} {u : VUse} {k : Proc → VRes} (hc : s.cpu = some p)
    (h : Plain p (u.srcs ++ u.dst.toList)) :
    s.vec i u k = if flagsOf (k p).lanes &&& p.enables = 0 then
        s.done (behind (((k p).regs p).takeVec u.dst (k p).v) 4)
      else s.raised p .arith 4 0 ((flagsOf (k p).lanes).setWidth 64) (granules (k p).w p.enables (k p).lanes) := by
  have hsrc : Plain p u.srcs := h.mono fun _ hr => List.mem_append_left _ hr
  have hdst : Plain p u.dst.toList := h.mono fun _ hr => List.mem_append_right _ hr
  have hput := putVec_plain s (p := (k p).regs p) (d := u.dst) (k p).v fun r hr =>
    (boundAt_regs (k p) p r).trans (hdst.2.2 r (Option.mem_toList.mpr hr))
  unfold State.vec State.ofClass
  simp only [withProc_some hc, classBad_plain h, misuse_plain hsrc hdst, bind_boundAt_plain hdst, popAll_plain s hsrc,
    Option.bind_none, Option.any_none, Bool.false_eq_true, if_false, ne_eq, ite_not]
  split
  · exact congrArg (fun x : State × Proc => x.1.done (x.2.advance 4)) hput
  · rfl

/-! What an instruction without vector result does -/

section
variable {s : State} {p : Proc} {i : Instr} {k : Proc → VRes}

/-- The flags gained are none. -/
theorem fpflags_or_zero (p : Proc) : { p with fpflags := p.fpflags ||| 0 } = p := by
  simp

theorem vec_sets {u : VUse} {q : Proc} (hc : s.cpu = some p) (h : Plain p (u.srcs ++ u.dst.toList))
    (he : exec i s = s.vec i u k) (hfl : flagsOf (k p).lanes &&& p.enables = 0)
    (hq : ((k p).regs p).takeVec u.dst (k p).v = q) : Completes i s (behind q 4) := by
  rw [Completes, he, vec_plain hc h, if_pos hfl, hq]
  rfl

theorem vec_sets_mask {d : PIdx} {v : Word} (hc : s.cpu = some p) (h : Plain p []) (he : exec i s = s.vec i { srcs := [] } k)
    (hk : k p = { m := some (d, v) }) : Completes i s (behind (p.setP d v) 4) := by
  refine vec_sets (u := { srcs := [] }) hc h he ?_ ?_
  all_goals rw [hk]
  · exact BitVec.zero_and
  · exact congrArg (Proc.setP · d v) (fpflags_or_zero p)

theorem vec_sets_x {d : XIdx} {v : Word} (hc : s.cpu = some p) (h : Plain p []) (he : exec i s = s.vec i { srcs := [] } k)
    (hk : k p = { x := some (d, v) }) : Completes i s (behind (p.setX d v) 4) := by
  refine vec_sets (u := { srcs := [] }) hc h he ?_ ?_
  all_goals rw [hk]
  · exact BitVec.zero_and
  · exact congrArg (Proc.setX · d v) (fpflags_or_zero p)

end

end Sys2Proof
end

section
/-! SUPPORT. O31: lanes put together, words of bits, and the compares that write a mask (R152, R153, R169, R185). -/

namespace Sys2Proof

open Machine

/-! Lanes -/

theorem foldr_lanes_lt {w : Nat} (ls : List Nat) :
    ls.foldr (fun x acc => x % 2 ^ w + 2 ^ w * acc) 0 < 2 ^ (w * ls.length) := by
  induction ls with
  | nil => simp
  | cons x ls ih =>
    have hx : x % 2 ^ w < 2 ^ w := Nat.mod_lt _ (Nat.two_pow_pos w)
    rw [List.foldr_cons, List.length_cons, Nat.mul_succ, Nat.pow_add, Nat.mul_comm (2 ^ (w * ls.length))]
    calc _ < 2 ^ w + 2 ^ w * ls.foldr (fun x acc => x % 2 ^ w + 2 ^ w * acc) 0 := by omega
      _ = 2 ^ w * (ls.foldr (fun x acc => x % 2 ^ w + 2 ^ w * acc) 0 + 1) := by ring
      _ ≤ 2 ^ w * 2 ^ (w * ls.length) := Nat.mul_le_mul_left _ ih

theorem foldr_lanes_get {w : Nat} (ls : List Nat) (l : Nat) :
    ls.foldr (fun x acc => x % 2 ^ w + 2 ^ w * acc) 0 / 2 ^ (w * l) % 2 ^ w = ls.getD l 0 % 2 ^ w := by
  induction ls generalizing l with
  | nil => simp
  | cons x ls ih =>
    rw [List.foldr_cons]
    cases l with
    | zero => simp
    | succ l =>
      have hx : x % 2 ^ w < 2 ^ w := Nat.mod_lt _ (Nat.two_pow_pos w)
      rw [Nat.mul_succ, Nat.pow_add, Nat.mul_comm (2 ^ (w * l)), ← Nat.div_div_eq_div_mul,
        Nat.add_mul_div_left _ _ (Nat.two_pow_pos w),
        Nat.div_eq_of_lt hx, Nat.zero_add, ih]
      rfl

/-- A register put together from lanes has them. -/
theorem lane_ofLanes {w : Nat} {ls : List Nat} (h : w * ls.length ≤ 2048) (l : Nat) :
    lane (ofLanes w ls) w l = ls.getD l 0 % 2 ^ w := by
  have hlt := lt_of_lt_of_le (foldr_lanes_lt (w := w) ls) (Nat.pow_le_pow_right (by decide) h)
  rw [lane, ofLanes, BitVec.toNat_ushiftRight, BitVec.toNat_ofNat, Nat.mod_eq_of_lt hlt, Nat.shiftRight_eq_div_pow,
    foldr_lanes_get]

/-! Words of bits -/

theorem getLsbD_bit {j : Nat} (hj : j < 64) (n : Nat) : ((1 <<< j : Nat) : Word).getLsbD n = decide (j = n) := by
  rw [BitVec.natCast_eq_ofNat, BitVec.getLsbD_ofNat, Nat.one_shiftLeft, Nat.testBit_two_pow]
  grind

theorem getLsbD_foldl_bits (js : List Nat) (hjs : ∀ j ∈ js, j < 64) (a : Word) (n : Nat) :
    (js.foldl (fun (acc : Word) j => acc ||| (1 <<< j : Nat)) a).getLsbD n = (a.getLsbD n || decide (n ∈ js)) := by
  induction js generalizing a with
  | nil => simp
  | cons j js ih =>
    have hj : j < 64 := hjs j (by simp)
    rw [List.foldl_cons, ih (fun x hx => hjs x (by simp [hx])), BitVec.getLsbD_or, getLsbD_bit hj, Bool.or_assoc,
      ← Bool.decide_or]
    simp only [List.mem_cons, eq_comm (a := j)]

/-! Masks of compares (R169) -/

/-- A register has as many lanes as its 64 granules. -/
theorem lanes_granules {w : Nat} (hw : w ∣ 32) : 2048 / w = 32 / w * 64 := by
  rw [show 2048 = 32 * 64 from rfl, Nat.mul_comm, Nat.mul_div_assoc _ hw, Nat.mul_comm]

/-- The lanes of a granule are those that the granule's mask bit governs. -/
theorem gov_granule {w j k : Nat} (hw : w ∣ 32) (hk : k < 32 / w) : gov (32 / w * j + k) (2048 / w) = j := by
  rw [gov, lanes_granules hw, Nat.mul_div_mul_right _ _ (by decide), Nat.mul_add_div (by omega), Nat.div_eq_of_lt hk,
    Nat.add_zero]

theorem granule_lt_lanes {w j k : Nat} (hw : w ∣ 32) (hj : j < 64) (hk : k < 32 / w) : 32 / w * j + k < 2048 / w :=
  calc 32 / w * j + k < 32 / w * j + 32 / w := by omega
    _ = 32 / w * (j + 1) := by ring
    _ ≤ 32 / w * 64 := Nat.mul_le_mul_left _ hj
    _ = 2048 / w := (lanes_granules hw).symm

/-- The results of the lanes of a compare (R169). -/
def Machine.cmpLanes (m : Word) (w : Nat) (c : Nat → Bool × Flags) : LaneRes :=
  laneMap m w fun l => (if (c l).1 then 1 else 0, (c l).2)

/-- A mask of a compare: the granules that the mask leaves active and whose lanes all fulfil the condition (R169). -/
def Machine.cmpMask (m : Word) (w : Nat) (rs : LaneRes) : Word :=
  ((List.range 64).filter fun j =>
    m.getLsbD j && (List.range (32 / w)).all fun k => rs.any fun r => r.1 == 32 / w * j + k && r.2.1 == 1).foldl
      (fun (acc : Word) j => acc ||| (1 <<< j : Nat)) 0

/-- The results of a compare of v[A] and v[B]. -/
abbrev Machine.Proc.cmpRes (p : Proc) (w : Nat) (m : PIdx) (a b : VIdx) (cc : Nat → Nat → Bool × Flags) : LaneRes :=
  cmpLanes (p.getP m) w fun l => cc (lane (p.getV a) w l) (lane (p.getV b) w l)

theorem vcompare_eq (s : State) (i : Instr) (w : Nat) (m d : PIdx) (a b : VIdx) (cc : Nat → Nat → Bool × Flags) :
    s.vcompare i w m d a b cc = s.vec i { srcs := [a, b] } fun p =>
      { m := some (d, cmpMask (p.getP m) w (p.cmpRes w m a b cc)), w := w, lanes := p.cmpRes w m a b cc } := by
  unfold State.vcompare Proc.cmpRes cmpLanes laneMap cmpMask
  simp only [List.map_map]
  rfl

theorem flagsOf_laneMap (m : Word) (w : Nat) (f : Nat → Rounded) :
    flagsOf (laneMap m w f) = elementFlags m (2048 / w) fun l => (f l).2 := by
  rw [flagsOf, laneMap, elementFlags, List.foldl_map]

/-- An active lane is among the results when its condition holds. -/
theorem any_cmpLanes {m : Word} {w l : Nat} {c : Nat → Bool × Flags} (hl : l < 2048 / w)
    (ha : active m l (2048 / w) = true) :
    ((cmpLanes m w c).any fun r => r.1 == l && r.2.1 == 1) = (c l).1 := by
  rw [Bool.eq_iff_iff, List.any_eq_true]
  constructor
  · rintro ⟨r, hr, hx⟩
    simp only [cmpLanes, laneMap, List.mem_map] at hr
    obtain ⟨k, -, rfl⟩ := hr
    grind
  · intro h
    refine ⟨(l, 1, (c l).2), ?_, by simp⟩
    simp only [cmpLanes, laneMap, List.mem_map, List.mem_filter, List.mem_range]
    exact ⟨l, ⟨hl, ha⟩, by simp [h]⟩

theorem getLsbD_cmpMask {m : Word} {w : Nat} (hw : w ∣ 32) (c : Nat → Bool × Flags) {j : Nat} (hj : j < 64) :
    (cmpMask m w (cmpLanes m w c)).getLsbD j =
      (m.getLsbD j && (List.range (32 / w)).all fun k => (c (32 / w * j + k)).1) := by
  have hlanes (h : m.getLsbD j = true) {k : Nat} (hk : k < 32 / w) :
      ((cmpLanes m w c).any fun r => r.1 == 32 / w * j + k && r.2.1 == 1) = (c (32 / w * j + k)).1 :=
    any_cmpLanes (granule_lt_lanes hw hj hk) (by rw [active, gov_granule hw hk, h])
  have hzero : BitVec.getLsbD (0 : Word) j = false := BitVec.getLsbD_zero
  rw [cmpMask, getLsbD_foldl_bits _ (fun x hx => List.mem_range.mp (List.mem_of_mem_filter hx)), hzero, Bool.false_or,
    Bool.eq_iff_iff, decide_eq_true_eq, List.mem_filter, List.mem_range]
  cases h : m.getLsbD j with
  | false => simp
  | true =>
    simp only [hj, true_and, Bool.true_and, List.all_eq_true, List.mem_range]
    exact forall₂_congr fun k hk => by rw [hlanes h hk]

/-! What the instructions do -/

section
variable {s : State} {p : Proc} {i : Instr} {w : Nat} {m d : PIdx} {a b : VIdx} {cc : Nat → Nat → Bool × Flags}

/-- The flags of a compare. -/
abbrev Machine.Proc.cmpFlags (p : Proc) (w : Nat) (m : PIdx) (a b : VIdx) (cc : Nat → Nat → Bool × Flags) : Flags :=
  elementFlags (p.getP m) (2048 / w) fun l => (cc (lane (p.getV a) w l) (lane (p.getV b) w l)).2

theorem flagsOf_cmpRes : flagsOf (p.cmpRes w m a b cc) = p.cmpFlags w m a b cc :=
  flagsOf_laneMap ..

theorem compare_sets (hc : s.cpu = some p) (h : Plain p [a, b]) (hw : w ∣ 32) (he : exec i s = s.vcompare i w m d a b cc)
    (hfl : p.cmpFlags w m a b cc &&& p.enables = 0) :
    ∃ v, Completes i s (behind ({ p with fpflags := p.fpflags ||| p.cmpFlags w m a b cc }.setP d v) 4) ∧
      ∀ j, j < 64 → v.getLsbD j = ((p.getP m).getLsbD j && (List.range (32 / w)).all fun k =>
        (cc (lane (p.getV a) w (32 / w * j + k)) (lane (p.getV b) w (32 / w * j + k))).1) := by
  refine ⟨cmpMask (p.getP m) w (p.cmpRes w m a b cc), ?_, fun j hj => getLsbD_cmpMask hw _ hj⟩
  refine vec_sets (u := { srcs := [a, b] }) hc h (he.trans (vcompare_eq ..)) ?_ ?_
  · rwa [flagsOf_cmpRes]
  · simp only [VRes.regs, flagsOf_cmpRes]
    rfl

theorem compare_raises (hc : s.cpu = some p) (h : Plain p [a, b]) (he : exec i s = s.vcompare i w m d a b cc)
    (hfl : p.cmpFlags w m a b cc &&& p.enables ≠ 0) : RaisesArith i s p (p.cmpFlags w m a b cc) := by
  refine ⟨granules w p.enables (p.cmpRes w m a b cc), ?_⟩
  rw [he, vcompare_eq, vec_plain (u := { srcs := [a, b] }) hc h, flagsOf_cmpRes, if_neg hfl]
  rfl

end

/-- An integer compare has no flags. -/
theorem elementFlags_zero (m : Word) (n : Nat) : elementFlags m n (fun _ => 0) = 0 := by
  simp [elementFlags]

theorem width_dvd_fp (t : FpT) : (fmtOf t).bits ∣ 32 := by
  cases t <;> decide

theorem width_dvd_int (e : ElW) : bitsOf e ∣ 32 := by
  cases e <;> decide

/-- The conditions of `vicmp` as Table 9.5 gives them. -/
theorem cmpI_eq (ci : CmpI) (w x y : Nat) :
    let sg (v : Nat) : Int := if v < 2 ^ (w - 1) then v else (v : Int) - 2 ^ w
    cmpI ci w x y = match ci with
      | .eq => x == y
      | .ne => x != y
      | .lt => decide (sg x < sg y)
      | .le => decide (sg x ≤ sg y)
      | .ltu => decide (x < y)
      | .leu => decide (x ≤ y) := by
  intro sg
  have hsg (v : Nat) : toS w v = sg v := by
    grind [toS]
  cases ci <;> simp only [cmpI, hsg]

theorem countP_ones (v : Word) : ones v = (List.range 64).countP fun j => v.getLsbD j :=
  List.countP_eq_length_filter.symm

theorem lowBit_spec (v : Word) :
    lowBit v ≤ 64 ∧ (lowBit v < 64 → v.getLsbD (lowBit v) = true) ∧ ∀ j, j < lowBit v → v.getLsbD j = false := by
  unfold lowBit
  cases h : (List.range 64).find? fun i => v.getLsbD i with
  | none => simpa using h
  | some n =>
    obtain ⟨hn, hlt, hlow⟩ := List.find?_range_eq_some.mp h
    rw [List.mem_range] at hlt
    exact ⟨hlt.le, fun _ => hn, fun j hj => by simpa using hlow j hj⟩

theorem vsel_writes {s : State} {p : Proc} {m : PIdx} {r a b : VIdx} (hc : s.cpu = some p) (h : Plain p [r, a, b]) :
    WritesVec (.vsel m r a b) s p r 32
      (fun l => lane (p.getV (if (p.getP m).getLsbD l = true then a else b)) 32 l) 0 := by
  have hu : Plain p ([a, b] ++ (some r).toList) := h.mono (by simp)
  refine ⟨_, vec_sets (u := { srcs := [a, b], dst := some r, push := m == 0 }) hc hu rfl BitVec.zero_and rfl, fun l hl => ?_⟩
  rw [lane_ofLanes (by simp)]
  simp [show l < 64 from hl]

theorem exec_vcmp (t : FpT) (cf : CmpF) (m d : PIdx) (a b : VIdx) (s : State) :
    exec (.vcmp t cf m d a b) s = s.vcompare (.vcmp t cf m d a b) (fmtOf t).bits m d a b fun x y =>
      cmpF cf ((fmtOf t).decode x) ((fmtOf t).decode y) := rfl

theorem exec_vicmp (ci : CmpI) (e : ElW) (m d : PIdx) (a b : VIdx) (s : State) :
    exec (.vicmp ci e m d a b) s = s.vcompare (.vicmp ci e m d a b) (bitsOf e) m d a b fun x y =>
      (cmpI ci (bitsOf e) x y, 0) := rfl

/-- Settles O31: the lanes that a mask bit governs are those of its granule of 32 bits, so the bits of a compare are those
of the granules whose lanes all fulfil the condition; a register put together from lanes has them. -/
theorem comparesAndMasks : Obligations.ComparesAndMasks := by
  unfold Obligations.ComparesAndMasks
  intro s p t cf ci e m d g h x r a b hc hp
  have hab : Plain p [a, b] := hp.mono (by simp)
  have h0 : Plain p [] := hp.mono (by simp)
  refine ⟨?_, ?_, vsel_writes hc hp, vec_sets_mask hc h0 rfl rfl, vec_sets_mask hc h0 rfl rfl,
    vec_sets_mask hc h0 rfl rfl, vec_sets_mask hc h0 rfl rfl, vec_sets_x hc h0 rfl ?_,
    lowBit (p.getP g), vec_sets_x hc h0 rfl rfl, lowBit_spec _⟩
  · have hset := compare_sets hc hab (width_dvd_fp t) (exec_vcmp t cf m d a b s)
    have hraise := compare_raises hc hab (exec_vcmp t cf m d a b s)
    dsimp only [Proc.cmpFlags] at hset hraise ⊢
    split
    next hfl => exact hset hfl
    next hfl => exact hraise hfl
  · intro w u sg
    have hset := compare_sets hc hab (width_dvd_int e) (exec_vicmp ci e m d a b s) (by
      rw [Proc.cmpFlags, elementFlags_zero]
      exact BitVec.zero_and)
    simp only [Proc.cmpFlags, elementFlags_zero, cmpI_eq] at hset
    exact hset
  · rw [countP_ones]

end Sys2Proof
end

section
/-! SUPPORT. O59: an item that its thread begins (R371, R373, R374), and the commands that change registers and tables alone:
WINDOW, EXTEP, HOSTEP, CUE and MKEY (R230, R291, R320, R363, R364), END (R58) and LAUNCH as a whole (R372, R375). -/

namespace Sys2Proof.Machine

/-! Items that begin -/

section
variable {s : State} {t : Thread} {h : ItemHdr} {a0 a1 a2 : Word}

theorem thread?_begins (hb : Begins s t h) : s.thread? h.thread = some t := by
  obtain ⟨hs, ht, -, -⟩ := hb
  rw [ht]
  exact State.thread?_single hs

theorem withItem_begins (hb : Begins s t h) (hsubj : s.subj = .item h a0 a1 a2) (op : Nat)
    (k : ItemHdr → Word → Word → Word → Out) : s.withItem op k = k h a0 a1 a2 := by
  have hth := thread?_begins hb
  obtain ⟨-, -, hcan, hpost⟩ := hb
  simp [State.withItem, hsubj, hth, hcan, State.postsemOk, hpost]

theorem completeItem_begins (hb : Begins s t h) {u : State} (op : Nat) (hu : u.threads = s.threads) :
    u.completeItem h op = { u with threads := [headAt t h (h.pos + 1)] } := by
  obtain ⟨hs, ht, -, hpost⟩ := hb
  exact State.completeItem_single op (hu.trans hs) ht hpost

theorem ending_begins (hb : Begins s t h) {u : State} (op : Nat) (hu : u.threads = s.threads) :
    s.ending h op (.ok u) = .next { u with threads := [headAt t h (h.pos + 1)] } :=
  congrArg Host.Outcome.next (completeItem_begins hb op hu)

theorem setCur_begins (hb : Begins s t h) (p : Pending) : s.setCur h p = { s with threads := [busyWith t h p] } := by
  obtain ⟨hs, ht, -, -⟩ := hb
  exact State.modThread_single hs ht (busyWith_num t h p).symm

/-- A command whose writes have all landed completes (R374). -/
theorem endingWrites_begins (hb : Begins s t h) {u : State} {op : Nat} {f : State → Nat → Except Fail State}
    (hf : f { s with nextId := s.nextId + 1 } s.nextId = .ok u) (hu : u.threads = s.threads) (hp : u.packets = []) :
    s.endingWrites h op f = .next { u with threads := [headAt t h (h.pos + 1)] } := by
  have hbusy : u.engineBusy s.nextId = false := by simp [State.engineBusy, hp]
  simp only [State.endingWrites, State.freshId, hf, hbusy, Bool.false_eq_true, if_false, completeItem_begins hb op hu]

theorem withRegion_granted {op a : Nat} {k : Nat → Out} (hr : (s.region? (s.regionOperand h.pc a)).isSome = true)
    (hmay : s.mayName h.thread (s.regionOperand h.pc a) = true) :
    s.withRegion h op a k = k (s.regionOperand h.pc a) := by
  simp [State.withRegion, hmay, Option.isSome_iff_ne_none.mp hr]

end

/-! Fields of operands -/

theorem fieldOf_low (w : Word) (n : Nat) : fieldOf w 0 n = w.toNat % 2 ^ n := by
  simp [fieldOf]

theorem fieldOf_top {w : Word} {lo n : Nat} (h : lo + n = 64) : fieldOf w lo n = w.toNat / 2 ^ lo := by
  have hw : w.toNat < 2 ^ lo * 2 ^ n := by
    rw [← Nat.pow_add, h]
    exact w.isLt
  exact Nat.mod_eq_of_lt (Nat.div_lt_of_lt_mul hw)

/-! MKEY (R364) -/

section
variable {s : State} {t : Thread} {h : ItemHdr} {a0 a1 a2 : Word} {g i : Nat}

/-- An MKEY that its group and index let through does what its operation says. -/
theorem execCmdMkey_admitted (hb : Begins s t h) (hsubj : s.subj = .item h a0 a1 a2) (hg : fieldOf a0 0 4 = g)
    (hi : fieldOf a0 16 24 = i) (hz : fieldOf a0 4 12 = 0) (hz' : fieldOf a0 40 22 = 0) (hop : fieldOf a0 62 2 ≤ 1)
    (hmay : s.mayEdge h.thread g = true) (hpers : (s.group g).pers = 3) (hlt : i < 65536) :
    exec .cmdMkey s = if fieldOf a0 62 2 = 0 then s.mkeyRegister h g i a1 a2
      else if a1 ≠ 0 ∨ a2 ≠ 0 then s.illegal h 0x13 4
      else s.ending h 0x13 (.ok (if ((s.group g).keyOf i).valid then s.modGroup g fun x =>
        x.putKey { (s.group g).keyOf i with valid := false, freedAt := some s.ns } else s)) := by
  show execCmdMkey s = _
  have hpers' : ¬(s.group g).pers ≠ persUet := by simp [hpers, persUet]
  have hkeys : ¬keyEntries ≤ i := by
    unfold keyEntries
    omega
  unfold execCmdMkey
  rw [withItem_begins hb hsubj]
  simp only [hg, hi, hz, hz', hmay, ne_eq, not_true_eq_false, false_or, if_neg (Nat.not_lt.mpr hop), Bool.not_true,
    Bool.false_eq_true, if_false, if_neg hpers', if_neg hkeys]

theorem mkeyRegister_free {l : Nat} (hbase : a1.toNat < 2 ^ 40)
    (hrow : rowOf a1.toNat = 3 ∨ rowOf a1.toNat = 4) (hz : zeroBut a2 0x3FFFFFFFF = true)
    (hlen : lengthOk (BitVec.ofNat 64 (fieldOf a2 0 32)) = true)
    (hmem : s.memPlace h.thread a1.toNat (fieldOf a2 0 32) (a2.getLsbD 32) 2 = .ok l)
    (hv : ((s.group g).keyOf i).valid = false) :
    s.mkeyRegister h g i a1 a2 = if s.holdOver (s.group g) ((s.group g).keyOf i) then
        s.ending h 0x13 (.ok (s.register g i a1.toNat (fieldOf a2 0 32) (a2.getLsbD 32) (a2.getLsbD 33)))
      else .next (s.setCur h (.mkey g i a1.toNat (fieldOf a2 0 32) (a2.getLsbD 32) (a2.getLsbD 33))) := by
  have hrow' : ¬(rowOf a1.toNat ≠ 3 ∧ rowOf a1.toNat ≠ 4) := by tauto
  simp only [State.mkeyRegister, if_neg (Nat.not_le.mpr hbase), hz, hlen, Bool.true_eq_false, or_self, if_false,
    if_neg hrow', hmem, hv, Bool.false_eq_true]

/-- An index that is free is registered once KEYHOLD is over; until then the item waits. -/
theorem execCmdMkey_registers {l : Nat} (hb : Begins s t h) (hsubj : s.subj = .item h a0 a1 a2) (hg : fieldOf a0 0 4 = g)
    (hi : fieldOf a0 16 24 = i) (hz : fieldOf a0 4 12 = 0) (hz' : fieldOf a0 40 22 = 0) (hop : fieldOf a0 62 2 = 0)
    (hmay : s.mayEdge h.thread g = true) (hpers : (s.group g).pers = 3) (hlt : i < 65536) (hbase : a1.toNat < 2 ^ 40)
    (hrow : rowOf a1.toNat = 3 ∨ rowOf a1.toNat = 4) (hz2 : zeroBut a2 0x3FFFFFFFF = true)
    (hlen : lengthOk (BitVec.ofNat 64 (fieldOf a2 0 32)) = true)
    (hmem : s.memPlace h.thread a1.toNat (fieldOf a2 0 32) (a2.getLsbD 32) 2 = .ok l)
    (hv : ((s.group g).keyOf i).valid = false) :
    (s.holdOver (s.group g) ((s.group g).keyOf i) = true → ItemCompletes .cmdMkey s
      (s.register g i a1.toNat (fieldOf a2 0 32) (a2.getLsbD 32) (a2.getLsbD 33)) t h) ∧
    (s.holdOver (s.group g) ((s.group g).keyOf i) = false → ItemWaits .cmdMkey s s t h
      (.mkey g i a1.toNat (fieldOf a2 0 32) (a2.getLsbD 32) (a2.getLsbD 33))) := by
  have hexec := execCmdMkey_admitted hb hsubj hg hi hz hz' (by omega) hmay hpers hlt
  rw [if_pos hop, mkeyRegister_free hbase hrow hz2 hlen hmem hv] at hexec
  refine ⟨fun hold => ?_, fun hold => ?_⟩
  · rw [ItemCompletes, hexec, if_pos hold, ending_begins hb _ (by rfl)]
  · rw [ItemWaits, hexec, hold, if_neg Bool.false_ne_true, setCur_begins hb]

theorem execCmdMkey_invalidates (hb : Begins s t h) (hsubj : s.subj = .item h a0 a1 a2) (hg : fieldOf a0 0 4 = g)
    (hi : fieldOf a0 16 24 = i) (hz : fieldOf a0 4 12 = 0) (hz' : fieldOf a0 40 22 = 0) (hop : fieldOf a0 62 2 = 1)
    (hmay : s.mayEdge h.thread g = true) (hpers : (s.group g).pers = 3) (hlt : i < 65536) (h1 : a1 = 0) (h2 : a2 = 0)
    (hv : ((s.group g).keyOf i).valid = true) : ItemCompletes .cmdMkey s
      (s.putGroup ((s.group g).putKey { (s.group g).keyOf i with valid := false, freedAt := some s.ns })) t h := by
  have hexec := execCmdMkey_admitted hb hsubj hg hi hz hz' (by omega) hmay hpers hlt
  rw [if_neg (by omega), if_neg (by simp [h1, h2]), if_pos hv] at hexec
  rw [ItemCompletes, hexec, ending_begins hb _ (by rfl)]
  rfl

end

/-! CUE (R363) -/

section
variable {s : State} {t : Thread} {h : ItemHdr} {a0 a1 a2 : Word} {g : Nat} {f : Flow}

/-- A flow's cue sheet. -/
def State.putCues (s : State) (g : Nat) (f : Flow) (l : List Cue) : State :=
  s.putGroup ((s.group g).putFlow { f with cues := l })

/-- The entry of a cue sheet that a CUE gives (Table 23.2). -/
def State.cueOf (s : State) (h : ItemHdr) (a0 a1 a2 : Word) (compl : Nat) : Cue :=
  { tag := a0.extractLsb' 32 16, mask := a0.extractLsb' 48 16, key := a1.extractLsb' 0 32, off := fieldOf a1 32 32
    compl := compl, persist := a2.getLsbD 62, region := s.threadRegion h.thread }

/-- A CUE that its group and flow let through clears the sheet or adds an entry. -/
theorem execCmdCue_admitted (hb : Begins s t h) (hsubj : s.subj = .item h a0 a1 a2) (hg : fieldOf a0 0 4 = g)
    (hz : fieldOf a0 4 12 = 0) (hmay : s.mayEdge h.thread g = true) (hpers : (s.group g).pers = 3)
    (hf : (s.group g).flow? (fieldOf a0 16 16) = some f) :
    (a2.getLsbD 63 = true → ItemCompletes .cmdCue s (s.putCues g f []) t h) ∧
    ∀ compl, a2.getLsbD 63 = false → zeroBut a2 0x400000FFFFFFFFFF = true → fieldOf a2 0 40 % 8 = 0 →
      f.cues.length < 256 → s.memPlace h.thread (fieldOf a2 0 40) 8 true 3 = .ok compl →
      ItemCompletes .cmdCue s (s.putCues g f (f.cues ++ [s.cueOf h a0 a1 a2 compl])) t h := by
  have hpers' : (s.group g).pers = persUet := hpers
  have hends (l : List Cue) := ending_begins (u := s.putCues g f l) hb 0x12 (by rfl)
  refine ⟨fun hclear => ?_, fun compl hadd hz2 hal hlen hmem => ?_⟩
  all_goals
    show execCmdCue s = _
    unfold execCmdCue
    rw [withItem_begins hb hsubj]
    simp only [hg, hz, hmay, if_pos hpers', hf, ne_eq, not_true_eq_false, if_false, Bool.not_true, Bool.false_eq_true]
  · rw [if_pos hclear]
    exact hends _
  · have hroom : ¬cueEntries ≤ f.cues.length := by
      unfold cueEntries
      omega
    simp only [hadd, hz2, hal, hmem, Bool.false_eq_true, Bool.true_eq_false, not_true_eq_false, or_self, if_false,
      if_neg hroom]
    exact hends _

end

end Sys2Proof.Machine
end

section
/-! SUPPORT. O59: WINDOW, EXTEP and HOSTEP (R228, R230, R291, R320), END (R58), LAUNCH as a whole (R372, R375) and what a new
process finds in its registers (R98). -/

namespace Sys2Proof.Machine

/-! WINDOW (R228, R230) -/

section
variable {s : State} {t : Thread} {h : ItemHdr} {a0 a1 a2 : Word} {a n : Nat}

theorem isLoft_of_row (h : rowOf a = 4) : isLoft a = true := by
  simp only [isLoft, decide_eq_true_eq]
  grind [rowOf]

/-- A table whose entries R228 lets through is read. -/
theorem readWindows_table (hrow : rowOf a = 4) (ha : s.addressable a = true) (hn : s.winCount a = some n)
    (hok : ∀ i, i < n → s.winOk (s.winWords a i).1 (s.winWords a i).2.1 (s.winWords a i).2.2.1 (s.winWords a i).2.2.2 = true) :
    s.readWindows a = .ok (windowsOf ((List.range n).map (s.winWords a))) := by
  have hl := isLoft_of_row hrow
  have ha0 : a ≠ 0 := by
    rintro rfl
    exact absurd hl (by decide)
  have hwords : s.tableWords a = .ok ((List.range n).map (s.winWords a)) := by
    simp [State.tableWords, ha0, hl, ha, hn]
  have hfind : ((List.range n).map (s.winWords a)).findIdx? (fun w => !s.winOk w.1 w.2.1 w.2.2.1 w.2.2.2) = none := by
    simpa [List.findIdx?_eq_none_iff] using hok
  simp only [State.readWindows, hwords, hfind]

theorem execCmdWindow_installs (hb : Begins s t h) (hsubj : s.subj = .item h a0 a1 a2)
    (hr : (s.region? (s.regionOperand h.pc a0.toNat)).isSome = true)
    (hmay : s.mayName h.thread (s.regionOperand h.pc a0.toNat) = true) (hrow : rowOf a1.toNat = 4) (h2 : a2 = 0)
    (hcount : s.mayReach h.thread a1.toNat 8 false = true)
    (hread : s.mayReach h.thread a1.toNat (8 + 32 * n) false = true) (ha : s.addressable a1.toNat = true)
    (hn : s.winCount a1.toNat = some n)
    (hok : ∀ i, i < n → s.winOk (s.winWords a1.toNat i).1 (s.winWords a1.toNat i).2.1 (s.winWords a1.toNat i).2.2.1
      (s.winWords a1.toNat i).2.2.2 = true) :
    ItemCompletes .cmdWindow s (s.modRegion (s.regionOperand h.pc a0.toNat) fun q => { q with
      wintab := a1.toNat, ovr := q.ovr ||| 0x40, wins := windowsOf ((List.range n).map (s.winWords a1.toNat)) }) t h := by
  show execCmdWindow s = _
  have htable : s.mayTable h.thread a1.toNat = true := by simp [State.mayTable, hcount, hread, ha, hn]
  unfold execCmdWindow
  rw [withItem_begins hb hsubj]
  simp only [hrow, h2, ne_eq, not_true_eq_false, if_false, withRegion_granted hr hmay, htable, Bool.not_true,
    Bool.false_eq_true, State.setWindows, readWindows_table hrow ha hn hok]
  refine ending_begins hb _ ?_
  unfold State.modRegion State.putRegion
  split <;> rfl

end

/-! EXTEP and HOSTEP (R291, R320) -/

section
variable {s : State} {t : Thread} {h : ItemHdr} {a0 a1 a2 : Word} {e : EndSpec} {b : Book} {i rg : Nat} {q : Proc} {im : Image}
  {r : BookRole}

/-- The ring of an end is in order: none for one that transmits, else one in the data block. -/
def EndSpec.ringOk (e : EndSpec) (r : BookRole) : Prop :=
  if e.tx then e.ring = 0 ∧ e.size = 0 ∧ e.slots = 0
  else e.ring % 64 = 0 ∧ e.size % 64 = 0 ∧ e.size ≠ 0 ∧ e.size ≤ 16384 ∧ e.slots ≠ 0 ∧ e.ring + e.size * e.slots ≤ r.dataLen

/-- The device's side of an end is there: a host queue, or a flow of a group in UET. -/
def State.otherSide (s : State) (e : EndSpec) : Prop :=
  if e.host then e.first ≤ 64 ∧ (s.hostQueue? e.first e.second).isSome = true
  else (s.group e.first).pers = 3 ∧ ((s.group e.first).flow? e.second).isSome = true

theorem endFault_none {bs : List Byte} (htop : topName bs i < e.name)
    (hfree : ∀ x ∈ s.channels, x.table = s.effChtab rg → x.name ≠ e.name) (htab : s.effChtab rg ≠ 0)
    (hrole : (rolesOf bs)[e.role]? = some r) (hone : (instsOf bs e.role).length = 1) (hring : e.ringOk r)
    (hother : s.otherSide e) : s.endFault bs e (some i) rg (some (q, im)) = none := by
  have hname : e.name ≠ 0 := by omega
  have htop' : ¬e.name ≤ topName bs i := by omega
  have hany : s.channels.any (fun c => c.table == s.effChtab rg && c.name == e.name) = false := by
    simpa using hfree
  unfold EndSpec.ringOk at hring
  unfold State.otherSide at hother
  have hring' : (if e.tx then e.ring != 0 else e.ring % 64 != 0 || decide (r.dataLen < e.ring)) = false := by
    grind
  have hsize : (if e.tx then e.size != 0 else e.size == 0 || e.size % 64 != 0 || decide (16384 < e.size)) = false := by
    grind
  have hslots : (if e.tx then e.slots != 0 else e.slots == 0 || decide (r.dataLen < e.ring + e.size * e.slots)) = false := by
    grind
  have hfirst : (if e.host then decide (64 < e.first) else (s.group e.first).pers != persUet) = false := by
    unfold persUet
    grind
  have hsecond : (if e.host then (s.hostQueue? e.first e.second).isNone
      else ((s.group e.first).flow? e.second).isNone) = false := by
    grind
  simp only [State.endFault, hname, Option.any_some, htop', decide_false, hany, Bool.false_eq_true, or_self, if_false,
    Option.isNone_some, htab, hone, ne_eq, not_true_eq_false, hrole, Option.map_some, Option.getD_some, hring', hsize,
    hslots, hfirst, hsecond]

/-- The state with the channel of an end. -/
def State.withEnd (s : State) (e : EndSpec) (rg : Nat) (q : Proc) (im : Image) : State :=
  { s with channels := s.channels ++ [endChannel e (s.effChtab rg) rg q im] }

theorem eraseDups_of_nodup {α : Type} [BEq α] [LawfulBEq α] {l : List α} (h : l.Nodup) : l.eraseDups = l := by
  induction l with
  | nil => rfl
  | cons a l ih =>
    obtain ⟨ha, hl⟩ := List.nodup_cons.mp h
    have hfilter : l.filter (fun b => !b == a) = l := by
      rw [List.filter_eq_self]
      intro b hb
      simpa using fun hba : b = a => ha (hba ▸ hb)
    rw [List.eraseDups_cons, hfilter, ih hl]

theorem clashes_of_nodup {u : State} {pid : Nat} (h : ((u.endsOf pid).map fun x => x.1.handle x.2).Nodup) :
    u.clashes pid = false := by
  simp only [State.clashes, eraseDups_of_nodup h, bne_self_eq_false]

theorem entriesFault_none {u : State} {need : Nat → Nat} {cores : List Nat}
    (h : ∀ c ∈ cores, need c ≤ Config.bindingEntries) : u.entriesFault need cores = none := by
  have hfind : cores.find? (fun c => decide (Config.bindingEntries < need c)) = none := by
    simpa using h
  rw [State.entriesFault, hfind, Option.map_none]

theorem queueEnd_makes (hbook : s.books.find? (·.regions.any (·.2 == rg)) = some b)
    (hreg : b.regions.find? (·.2 == rg) = some (i, rg)) (hinst : s.instanceOf b.slot e.role = some (q, im))
    (hfault : s.endFault (s.bookBytes b) e (some i) rg (some (q, im)) = none)
    (hnodup : (((s.withEnd e rg q im).endsOf q.pid).map fun x => x.1.handle x.2).Nodup)
    (hentries : ∀ x ∈ s.allProcs, x.placed = true → (s.withEnd e rg q im).entriesOn x.core ≤ Config.bindingEntries) :
    s.queueEnd e rg = .ok (s.withEnd e rg q im) := by
  have hmake : s.makeEnd (s.bookBytes b) e (some i) rg (some (q, im)) = .ok (s.withEnd e rg q im) := by
    simp only [State.makeEnd, hfault]
    exact if_neg fun hclash => Bool.false_ne_true ((clashes_of_nodup hnodup).symm.trans hclash)
  have hcores : (s.withEnd e rg q im).entriesFault (s.withEnd e rg q im).entriesOn
      ((((s.withEnd e rg q im).allProcs.filter (·.placed)).map (·.core)).eraseDups) = none := by
    refine entriesFault_none fun c hc => ?_
    obtain ⟨x, hx, rfl⟩ := List.mem_map.mp (List.mem_eraseDups.mp hc)
    obtain ⟨hmem, hplaced⟩ := List.mem_filter.mp hx
    exact hentries x hmem hplaced
  simp only [State.queueEnd, hbook, hreg, Option.map_some, hinst, hmake, hcores]

/-- What the operands of EXTEP and HOSTEP give (Table 23.2) is an end that the queue may name. -/
def State.endGranted (s : State) (t : Thread) (h : ItemHdr) (e : EndSpec) : Prop :=
  if e.host then h.thread = 0 ∨ e.first = t.function ∧ s.mayEdge h.thread (16 + e.second) = true
  else s.mayEdge h.thread e.first = true

theorem execCmdEnds_makes {host : Bool} {u : State} (hb : Begins s t h) (hsubj : s.subj = .item h a0 a1 a2)
    (he : endSpecOf host a0 a1 a2 = e) (hz : endSpecFault host a0 a2 = none) (hgrant : s.endGranted t h e)
    (hrg : s.regionOperand h.pc e.region = rg) (hr : (s.region? rg).isSome = true) (hmay : s.mayName h.thread rg = true)
    (hmake : s.queueEnd e rg = .ok u) (hu : u.threads = s.threads) :
    ItemCompletes (if host then .cmdHostep else .cmdExtep) s u t h := by
  have hhost : e.host = host := by rw [← he]; rfl
  have hregion (op : Nat) (k : Nat → Out) : s.withRegion h op e.region k = k rg := by
    rw [withRegion_granted (by rwa [hrg]) (by rwa [hrg]), hrg]
  rw [State.endGranted, hhost] at hgrant
  cases host with
  | true =>
    show execCmdHostep s = _
    have hfn : s.threadFn h.thread = t.function := by rw [State.threadFn, thread?_begins hb]; rfl
    have hnot : ¬(h.thread ≠ 0 ∧ (e.first ≠ t.function ∨ s.mayEdge h.thread (16 + e.second) = false)) := by
      grind
    unfold execCmdHostep
    rw [withItem_begins hb hsubj]
    simp only [he, hz, hfn, if_neg hnot, hregion, hmake]
    exact ending_begins hb _ hu
  | false =>
    show execCmdExtep s = _
    have hedge : s.mayEdge h.thread e.first = true := hgrant
    unfold execCmdExtep
    rw [withItem_begins hb hsubj]
    simp only [he, hz, hedge, Bool.not_true, Bool.false_eq_true, if_false, hregion, hmake]
    exact ending_begins hb _ hu

end

/-! END (R58) -/

section
variable {s : State} {t : Thread} {h : ItemHdr} {a0 a1 a2 : Word} {b : Book}

theorem execCmdEnd_ends (hb : Begins s t h) (hsubj : s.subj = .item h a0 a1 a2) (hres : h.resident = false)
    (h0 : a0.toNat < 64) (h1 : a1 = 0) (h2 : a2 = 0) (hbook : s.book? a0.toNat = some b) :
    exec .cmdEnd s = .next ((s.endBook b).completeItem h 0x03) := by
  show execCmdEnd s = _
  have hslot : ¬(bookSlots ≤ a0.toNat ∧ a0.toNat ≠ 0xFF) := by
    unfold bookSlots
    omega
  unfold execCmdEnd
  rw [withItem_begins hb hsubj]
  simp only [State.notResident, hres, Bool.false_eq_true, if_false, if_neg hslot, h1, h2, ne_eq, not_true_eq_false, or_self,
    hbook, State.ending]

/-- The slot of a book that has ended is free. -/
theorem endBook_frees (hbook : s.book? a0.toNat = some b) :
    (s.endBook b).book? a0.toNat = none ∧ ∀ x ∈ (s.endBook b).loftUsed, x.1 ≠ a0.toNat := by
  have hslot : b.slot = a0.toNat := by simpa using List.find?_some hbook
  refine ⟨?_, fun x hx => ?_⟩
  · simp only [State.endBook, State.freeSlot, State.book?, hslot, List.find?_eq_none]
    intro x hx
    simpa using (List.mem_filter.mp hx).2
  · simp only [State.endBook, State.freeSlot, hslot] at hx
    simpa using (List.mem_filter.mp hx).2

/-- A book without regions leaves nothing but its slot. -/
theorem endBook_regionless (hr : b.regions = []) : s.endBook b = s.freeSlot b := by
  simp [State.endBook, State.topRegions, hr]

/-- The completion of an item without POSTSEM leaves the books. -/
theorem completeItem_books {u : State} (op : Nat) (hpost : h.postsem = 0xFFFF) :
    (u.completeItem h op).books = u.books ∧ (u.completeItem h op).loftUsed = u.loftUsed := by
  simp only [State.completeItem, hpost, if_true]
  unfold State.modThread
  split <;> exact ⟨rfl, rfl⟩

end

/-! LAUNCH as a whole (R372, R375) -/

section
variable {s : State} {t : Thread} {h : ItemHdr} {a0 a1 a2 : Word} {b : Book}

theorem execCmdLaunch_launches (hb : Begins s t h) (hsubj : s.subj = .item h a0 a1 a2)
    (h0 : a0.toNat < 64 ∨ a0.toNat = 0xFF) (h2 : a2.toNat ≤ 1) (hbook : s.launchBook h a0.toNat = some b)
    (hrole : a1.toNat = 0xFFFF ∨ a1.toNat < (rolesOf (s.bookBytes b)).length) :
    exec .cmdLaunch s = .next (s.launch h b a1.toNat (a2 == 1)) := by
  show execCmdLaunch s = _
  have hslot : ¬(bookSlots ≤ a0.toNat ∧ a0.toNat ≠ 0xFF) := by
    unfold bookSlots
    omega
  have hrole' : ¬(a1.toNat ≠ 0xFFFF ∧ (rolesOf (s.bookBytes b)).length ≤ a1.toNat) := by omega
  unfold execCmdLaunch
  rw [withItem_begins hb hsubj]
  simp only [if_neg hslot, if_neg (Nat.not_lt.mpr h2), hbook, if_neg hrole']

/-- A preparation that fails fails the item. -/
theorem launch_fails {role : Nat} {wait : Bool} {e : Fail} (he : s.prepare h b (s.bookBytes b) role = .error e) :
    s.launch h b role wait = s.failCmd h 2 e := by
  simp only [State.launch, he]

/-- What a preparation makes is placed. -/
theorem launch_places {role : Nat} {wait : Bool} {u : State} {ns : List NewInst} {owner : Nat} {raises : List Raise}
    (he : s.prepare h b (s.bookBytes b) role = .ok (u, ns, owner, raises)) :
    s.launch h b role wait =
      (((u.addPlacements owner h.thread (placeGroups ns) []).1.setCur h (.launch (ns.map (·.pid))
        (u.addPlacements owner h.thread (placeGroups ns) []).2 wait
        (if role = 0xFFFF ∧ b.launched = false then laterItems (s.bookBytes b) b.addr h.thread else []) none owner
        raises)).tryAll (u.addPlacements owner h.thread (placeGroups ns) []).2) := by
  simp only [State.launch, he]

end

/-! Registers of a launched process (R98) -/

theorem imaged_registers (p : Proc) (im : Image) (r : BookRole) (num count : Nat) :
    (p.imaged im r num count).pc = BitVec.ofNat 64 (im.text + r.entry) ∧
    (p.imaged im r num count).getX 2 = BitVec.ofNat 64 (im.data + im.dataLen) ∧
    (p.imaged im r num count).getX 3 = BitVec.ofNat 64 num ∧ (p.imaged im r num count).getX 4 = BitVec.ofNat 64 count ∧
    (p.imaged im r num count).getX 5 = BitVec.ofNat 64 im.data := by
  refine ⟨rfl, ?_, ?_, ?_, ?_⟩ <;> simp [Proc.imaged, Proc.getX, Proc.setX]

end Sys2Proof.Machine
end

section
/-! SUPPORT. O59: what the stage manager writes for a command: page tables (PIN and UNPIN, R262, R263) and books (LOAD, R97). -/

namespace Sys2Proof.Machine

/-! Bytes in memory -/

theorem Memory.writeBytes_toBytes (m : Memory) (a v n : Nat) : m.writeBytes a (toBytes v n) = m.write a n v := by
  induction n generalizing m a v with
  | zero => rfl
  | succ n ih => exact ih _ _ _

/-- A byte of a run that has been written. -/
theorem Memory.get_writeBytes {m : Memory} {a i : Nat} {bs : List Byte} {v : Byte} (hv : bs[i]? = some v) (h : m.wf = true) :
    (m.writeBytes a bs).get (a + i) = v := by
  induction bs generalizing m a i with
  | nil => simp at hv
  | cons b bs ih =>
    cases i with
    | zero =>
      obtain rfl : b = v := by simpa using hv
      exact (Memory.get_writeBytes_other (Or.inl (Nat.lt_succ_self a)) (Memory.set_wf a b h)).trans (Memory.get_set_self a b h)
    | succ i =>
      have hi := ih (m := m.set a b) (a := a + 1) (i := i) (by simpa using hv) (Memory.set_wf a b h)
      rwa [Nat.add_right_comm, Nat.add_assoc] at hi

/-! Page tables (R262) -/

section
variable {s : State} {g : Segment} {owner region : Nat}

/-- Page-table entries near the stage manager are written at once: those of the list, each page once, and no other byte. -/
theorem putPages_quiet {ps : List (Nat × Nat)} {n : Nat} (hq : s.QuietAt g.xlat (8 * n)) (hps : ∀ x ∈ ps, x.1 < n)
    (hne : ps.Pairwise fun x y => x.1 ≠ y.1) : ∃ m k, s.putPages owner region g ps = { s with mem := m, nextId := k } ∧
      (∀ x ∈ ps, m.read (g.xlat + 8 * x.1) 8 = x.2 % 256 ^ 8) ∧
      ∀ y, (∀ x ∈ ps, y < g.xlat + 8 * x.1 ∨ g.xlat + 8 * x.1 + 8 ≤ y) → m.get y = s.mem.get y := by
  induction ps generalizing s with
  | nil => exact ⟨_, _, rfl, by simp, fun _ _ => rfl⟩
  | cons p ps ih =>
    obtain ⟨page, v⟩ := p
    obtain ⟨hhead, htail⟩ := List.pairwise_cons.mp hne
    have hpage : page < n := hps _ List.mem_cons_self
    obtain ⟨k, hk⟩ := State.smWrite_quiet (owner := owner) (region := region) (bs := toBytes v 8)
      (hq.part (b := g.xlat + 8 * page) (k := (toBytes v 8).length) (by omega) (by simp; omega))
    rw [Memory.writeBytes_toBytes] at hk
    have hwf : (s.mem.write (g.xlat + 8 * page) 8 v).wf = true := Memory.write_wf _ _ _ hq.wf
    obtain ⟨m, k', heq, hin, hout⟩ := ih (hq.next k hwf) (fun x hx => hps x (List.mem_cons_of_mem _ hx)) htail
    refine ⟨m, k', by rw [State.putPages, hk, heq], fun x hx => ?_, fun y hy => ?_⟩
    · rcases List.mem_cons.mp hx with rfl | hx
      · have hkept : m.read (g.xlat + 8 * page) 8 = (s.mem.write (g.xlat + 8 * page) 8 v).read (g.xlat + 8 * page) 8 :=
          Memory.read_congr fun i hi => hout _ fun z hz => by
            have := hhead z hz
            omega
        rw [hkept, Memory.read_write _ _ _ hq.wf]
      · exact hin x hx
    · rw [hout y fun x hx => hy x (List.mem_cons_of_mem _ hx)]
      exact Memory.get_write_other (hy _ List.mem_cons_self) hq.wf

/-- The first n pages of a table have the entries wanted, and no other byte has changed. -/
def State.TableWritten (s u : State) (g : Segment) (n : Nat) (want : Nat → Nat) : Prop :=
  (∀ k, k < n → u.pageEntry g k = BitVec.ofNat 64 (want k)) ∧
    ∀ x, x < g.xlat ∨ g.xlat + 8 * n ≤ x → u.mem.get x = s.mem.get x

theorem putPages_table {n : Nat} (want : Nat → Nat) (hq : s.QuietAt g.xlat (8 * n)) :
    ∃ m k, s.putPages owner region g ((List.range n).map fun k => (k, want k)) = { s with mem := m, nextId := k } ∧
      s.TableWritten { s with mem := m, nextId := k } g n want := by
  obtain ⟨m, k, heq, hin, hout⟩ := putPages_quiet (owner := owner) (region := region)
    (ps := (List.range n).map fun k => (k, want k)) hq (by simp)
    (by
      rw [List.pairwise_map]
      exact List.nodup_range)
  refine ⟨m, k, heq, fun j hj => ?_, fun x hx => hout x fun y hy => ?_⟩
  · have hread := hin (j, want j) (List.mem_map.mpr ⟨j, List.mem_range.mpr hj, rfl⟩)
    rw [State.pageEntry, hread]
    apply BitVec.eq_of_toNat_eq
    simp
  · obtain ⟨j, hj, rfl⟩ := List.mem_map.mp hy
    have := List.mem_range.mp hj
    omega

/-! PIN and UNPIN -/

/-- With no write of a command under way a page-table entry stays as it is. -/
theorem soonEntry_quiet (hp : s.packets = []) (g : Segment) (k : Nat) : s.soonEntry g k = s.pageEntry g k := by
  simp [State.soonEntry, hp]

/-- The lowest free page. -/
theorem freePages_lowest {used : List Nat} {k fuel n : Nat} (hk : k ≤ n) (hn : n < k + fuel) (hfree : n ∉ used)
    (hlow : ∀ m, k ≤ m → m < n → m ∈ used) : freePages used k fuel 1 = some [n] := by
  induction fuel generalizing k with
  | zero => omega
  | succ fuel ih =>
    rcases Nat.eq_or_lt_of_le hk with rfl | hlt
    · have hnot : used.contains k = false := by simpa using hfree
      simp only [freePages, hnot, Bool.false_eq_true, if_false]
      cases fuel <;> rfl
    · have hin : used.contains k = true := by simpa using hlow k (Nat.le_refl _) hlt
      simp only [freePages, hin, if_true]
      exact ih hlt (by omega) fun m hm => hlow m (by omega)

variable {seg base e : Nat}

theorem pin_far (he : s.namedSegment region seg = .ok e) (hfar : (s.segment e).isFar = true)
    (hpers : (s.group (s.segment e).group).pers = 1) : s.pin owner region seg base =
      if base + (s.segment e).pages ≤ min (Config.farUnits (s.segment e).group) (2 ^ 23) then
        .ok ((s.putPages owner region (s.segment e)
          ((List.range (s.segment e).pages).map fun k => (k, 2 ^ 63 + base + k))).dropCache e)
      else .error (.spawn, none, some 8) := by
  have hpers' : ¬(s.group (s.segment e).group).pers ≠ persCxl := by simp [hpers, persCxl]
  simp only [State.pin, he, hfar, if_true, if_neg hpers']
  split
  next hlt => rw [if_neg (by omega)]
  next hlt => rw [if_pos (by omega)]

theorem pin_page {n : Nat} (hp : s.packets = []) (he : s.namedSegment region seg = .ok e)
    (hfar : (s.segment e).isFar = false) (hpages : (s.segment e).pages = 1)
    (hfree : pinned (s.pageEntry (s.segment e) 0) = false) (hn : n < s.pkg.hbmPages) (hnot : n ∉ s.usedPages)
    (hlow : ∀ m, m < n → m ∈ s.usedPages) : s.pin owner region seg 0 =
      .ok ((s.putPages owner region (s.segment e)
        ((List.range (s.segment e).pages).map fun k => (k, 2 ^ 63 + n))).dropCache e) := by
  have hpage := freePages_lowest (used := s.usedPages) (fuel := s.pkg.hbmPages) (Nat.zero_le n) (by omega) hnot
    fun m _ hm => hlow m hm
  simp [State.pin, he, hfar, hpages, soonEntry_quiet hp, hfree, hpage]

theorem unpin_named (hp : s.packets = []) (he : s.namedSegment region seg = .ok e) : s.unpin owner region seg =
    .ok ((s.putPages owner region (s.segment e) ((List.range (s.segment e).pages).map fun k =>
      (k, (s.pageEntry (s.segment e) k).toNat % 2 ^ 63))).dropCache e) := by
  simp only [State.unpin, he, soonEntry_quiet hp]

end

/-! The commands -/

section
variable {s : State} {t : Thread} {h : ItemHdr} {a0 a1 a2 : Word} {e rg : Nat}

/-- The item completes: the page table of the segment at an entry has what is wanted, no server keeps a translation of the
segment, and nothing else has changed. -/
def State.WritesTable (s : State) (t : Thread) (h : ItemHdr) (e : Nat) (i : Instr) (want : Nat → Nat) : Prop :=
  ∃ u : State, ItemCompletes i s u t h ∧
    u = { s with mem := u.mem, nextId := u.nextId
                 servers := s.servers.map fun v => { v with cache := v.cache.filter (·.1 != e) } } ∧
    s.TableWritten u (s.segment e) (s.segment e).pages want

theorem endingWrites_table {i : Instr} {op region : Nat} {f : State → Nat → Except Fail State} {want : Nat → Nat}
    (hb : Begins s t h) (hq : s.QuietAt (s.segment e).xlat (8 * (s.segment e).pages))
    (hexec : exec i s = s.endingWrites h op f)
    (hf : f { s with nextId := s.nextId + 1 } s.nextId =
      .ok ((State.putPages { s with nextId := s.nextId + 1 } s.nextId region (s.segment e)
        ((List.range (s.segment e).pages).map fun k => (k, want k))).dropCache e)) : s.WritesTable t h e i want := by
  obtain ⟨m, k, heq, hwritten⟩ := putPages_table (owner := s.nextId) (region := region) want (hq.next (s.nextId + 1) hq.wf)
  obtain ⟨hpackets, -, -⟩ := hq.near
  refine ⟨State.dropCache { s with mem := m, nextId := k } e, ?_, rfl, hwritten⟩
  rw [ItemCompletes, hexec]
  exact endingWrites_begins hb (hf.trans (congrArg (fun u : State => Except.ok (u.dropCache e)) heq)) rfl hpackets

/-- The region that an operand names is there, and the thread may name it. -/
def State.Grants (s : State) (h : ItemHdr) (a : Nat) : Prop :=
  (s.region? (s.regionOperand h.pc a)).isSome = true ∧ s.mayName h.thread (s.regionOperand h.pc a) = true

theorem exec_cmdPin (hb : Begins s t h) (hsubj : s.subj = .item h a0 a1 a2) (hr : s.Grants h a0.toNat) :
    exec .cmdPin s = s.endingWrites h 0x07 fun u owner =>
      u.pin owner (s.regionOperand h.pc a0.toNat) a1.toNat a2.toNat := by
  obtain ⟨hreg, hmay⟩ := hr
  show execCmdPin s = _
  rw [execCmdPin, withItem_begins hb hsubj, withRegion_granted hreg hmay]

theorem exec_cmdUnpin (hb : Begins s t h) (hsubj : s.subj = .item h a0 a1 a2) (hr : s.Grants h a0.toNat) (h2 : a2 = 0) :
    exec .cmdUnpin s = s.endingWrites h 0x08 fun u owner => u.unpin owner (s.regionOperand h.pc a0.toNat) a1.toNat := by
  obtain ⟨hreg, hmay⟩ := hr
  show execCmdUnpin s = _
  rw [execCmdUnpin, withItem_begins hb hsubj, withRegion_granted hreg hmay, if_neg (not_not_intro h2)]

variable (hb : Begins s t h) (hsubj : s.subj = .item h a0 a1 a2) (hr : s.Grants h a0.toNat)
  (he : s.namedSegment (s.regionOperand h.pc a0.toNat) a1.toNat = .ok e)
  (hq : s.QuietAt (s.segment e).xlat (8 * (s.segment e).pages))
include hb hsubj hr he hq

theorem execCmdPin_far (hfar : (s.segment e).isFar = true) (hpers : (s.group (s.segment e).group).pers = 1) :
    if a2.toNat + (s.segment e).pages ≤ min (Config.farUnits (s.segment e).group) (2 ^ 23) then
      s.WritesTable t h e .cmdPin fun n => 2 ^ 63 + a2.toNat + n
    else exec .cmdPin s = .next (s.failCmd h 7 (.spawn, none, some 8)) := by
  have hexec := exec_cmdPin hb hsubj hr
  have hpin := pin_far (s := { s with nextId := s.nextId + 1 }) (owner := s.nextId) (base := a2.toNat) he hfar hpers
  split
  next hfit => exact endingWrites_table hb hq hexec (hpin.trans (if_pos hfit))
  next hfit =>
    rw [hexec, State.endingWrites]
    simp only [State.freshId, hpin.trans (if_neg hfit)]

theorem execCmdPin_page {n : Nat} (hfar : (s.segment e).isFar = false) (h2 : a2 = 0) (hpages : (s.segment e).pages = 1)
    (hfree : pinned (s.pageEntry (s.segment e) 0) = false) (hn : n < s.pkg.hbmPages) (hnot : n ∉ s.usedPages)
    (hlow : ∀ m, m < n → m ∈ s.usedPages) : s.WritesTable t h e .cmdPin fun _ => 2 ^ 63 + n := by
  subst h2
  obtain ⟨hpackets, -, -⟩ := hq.near
  exact endingWrites_table hb hq (exec_cmdPin hb hsubj hr)
    (pin_page (s := { s with nextId := s.nextId + 1 }) hpackets he hfar hpages hfree hn hnot hlow)

theorem execCmdUnpin_clears (h2 : a2 = 0) :
    s.WritesTable t h e .cmdUnpin fun n => (s.pageEntry (s.segment e) n).toNat % 2 ^ 63 := by
  obtain ⟨hpackets, -, -⟩ := hq.near
  exact endingWrites_table hb hq (exec_cmdUnpin hb hsubj hr h2)
    (unpin_named (s := { s with nextId := s.nextId + 1 }) hpackets he)

end

/-! LOAD (R97) -/

section
variable {s : State} {t : Thread} {h : ItemHdr} {a0 a1 a2 : Word} {pl : Place} {a slot : Nat} {b : List Byte}

/-- The state with a book in its slot, at an address of the loft. -/
def State.withBook (s : State) (slot a : Nat) (b : List Byte) (m : Memory) (k : Nat) : State :=
  { s with mem := m, nextId := k
           books := s.books ++ [{ slot := slot, addr := a, len := b.length }]
           loftUsed := s.loftUsed ++ [(slot, a, max b.length 1)]
           bookHashes := (s.bookHashes.filter (·.1 != slot)) ++ [(slot, beNat ((b.drop 0x20).take 32))] }

theorem keepBook_quiet {owner region : Nat}
    (ha : firstFit (s.loftUsed.map (·.2)) loaderBase loaderEnd (max b.length 1) = some a) (hq : s.QuietAt a b.length) :
    ∃ k, s.keepBook owner region slot b = .ok (s.withBook slot a b (s.mem.writeBytes a b) k) := by
  let u : State := { s with loftUsed := s.loftUsed ++ [(slot, a, max b.length 1)] }
  obtain ⟨k, hk⟩ := State.smWrite_quiet (s := u) (owner := owner) (region := region) (bs := b) { hq with near := hq.near }
  refine ⟨k, ?_⟩
  have htake : s.takeLoft slot b.length = some (a, u) := by rw [State.takeLoft, ha]; rfl
  simp only [State.keepBook, htake, hk]
  rfl

theorem execCmdLoad_keeps_book (hb : Begins s t h) (hsubj : s.subj = .item h a0 a1 a2) (hres : h.resident = false)
    (hlen : lengthOk a1 = true) (h2 : a2.toNat < 64) (hslot : s.book? a2.toNat = none)
    (hpl : s.place h.thread a0 a1.toNat false 1 = .ok pl)
    (hbk : bookIn ((s.readPlace pl 0 a1.toNat).map (·.1)) = b)
    (hok : bookFault ((s.readPlace pl 0 a1.toNat).map (·.1)) = none)
    (ha : firstFit (s.loftUsed.map (·.2)) loaderBase loaderEnd (max b.length 1) = some a) (hq : s.QuietAt a b.length) :
    ∃ k, ItemCompletes .cmdLoad s (s.withBook a2.toNat a b (s.mem.writeBytes a b) k) t h := by
  obtain ⟨hpackets, -, -⟩ := hq.near
  obtain ⟨k, hk⟩ := keepBook_quiet (owner := s.nextId) (region := s.threadRegion h.thread) (slot := a2.toNat)
    (s := { s with nextId := s.nextId + 1 }) ha (hq.next (s.nextId + 1) hq.wf)
  refine ⟨k, ?_⟩
  show execCmdLoad s = _
  have hslots : ¬bookSlots ≤ a2.toNat := by
    unfold bookSlots
    omega
  unfold execCmdLoad
  rw [withItem_begins hb hsubj]
  simp only [State.notResident, hres, hlen, Bool.not_true, Bool.false_eq_true, if_false, if_neg hslots, hslot,
    Option.isSome_none, hpl, hok, hbk]
  exact endingWrites_begins hb hk rfl hpackets

/-- The hash of the book in a slot (R89). -/
theorem withBook_hash (m : Memory) (k : Nat) : (s.withBook slot a b m k).bookHashes.find? (·.1 == slot) =
    some (slot, beNat ((b.drop 0x20).take 32)) := by
  have hnone : (s.bookHashes.filter (·.1 != slot)).find? (·.1 == slot) = none := by
    simp [List.find?_eq_none]
  simp [State.withBook, List.find?_append, hnone]

end

end Sys2Proof.Machine
end

section
/-! SUPPORT. O59: the images of one process on a core that is empty (R95, R98): the text at its start, the data block on the next
64 B boundary. -/

namespace Sys2Proof.Machine

/-! Room for blocks (R98) -/

theorem le_roundUp {m : Nat} (hm : 0 < m) (n : Nat) : n ≤ roundUp m n := by
  have h := Nat.div_add_mod (n + m - 1) m
  have hlt := Nat.mod_lt (n + m - 1) hm
  rw [Nat.mul_comm] at h
  unfold roundUp
  omega

theorem firstFit_empty {start end_ n : Nat} (h : start + n ≤ end_) : firstFit [] start end_ n = some start := by
  simp [firstFit, h]

/-- Behind a block at the start there is room from the next 64 B boundary on. -/
theorem firstFit_behind {len end_ n : Nat} (hlen : len ≠ 0) (h : roundUp 64 len + max n 1 ≤ end_) :
    firstFit [(0, len)] 0 end_ (max n 1) = some (roundUp 64 len) := by
  have hle := le_roundUp (m := 64) (by decide) len
  have hstart : overlaps 0 len 0 (max (max n 1) 1) = true := by
    simp only [overlaps, Bool.and_eq_true, decide_eq_true_eq, bne_iff_ne]
    omega
  have hnext : overlaps 0 len (roundUp 64 len) (max (max n 1) 1) = false := by
    simp only [overlaps, Bool.and_eq_false_iff, decide_eq_false_iff_not]
    omega
  have hend : decide (roundUp 64 len + max n 1 ≤ end_) = true := by simpa using h
  simp only [firstFit, List.map_cons, List.map_nil, List.filter_cons, List.filter_nil, List.any_cons, List.any_nil,
    Nat.zero_add, hstart, hnext, hend, Bool.or_false, Bool.not_true, Bool.and_false, Bool.false_eq_true, if_false,
    Bool.not_false, Bool.and_true, Nat.zero_le, decide_true, if_true, List.foldl_cons, List.foldl_nil]

section
variable {s : State} {q : Proc} {c : Nat}

theorem images_single (hc : s.cpu = none) (hp : s.procs = [q]) (hq : q.core = c) :
    s.images c = s.placed.filter (·.core == c) := by
  simp [State.images, State.allProcs_single hc hp, hq]

end

/-! What a LAUNCH writes for a process -/

/-- The text of a role in a book. -/
def BookRole.textBytes (r : BookRole) (b : List Byte) : List Byte := (b.drop ((sectOf b 2).off + r.textOff)).take r.textLen

/-- The data of a role in a book. -/
def BookRole.dataBytes (r : BookRole) (b : List Byte) : List Byte := (b.drop ((sectOf b 3).off + r.dataOff)).take r.dataLen

/-- The data block of a process: its data, and zeros behind them. -/
def BookRole.blockBytes (r : BookRole) (b : List Byte) : List Byte :=
  r.dataBytes b ++ List.replicate (r.block - (r.dataBytes b).length) 0

/-- Where the data block of the only process on a core lies. -/
def BookRole.dataStart (r : BookRole) : Nat := roundUp 64 r.textLen

theorem BookRole.textBytes_length_le (r : BookRole) (b : List Byte) : (r.textBytes b).length ≤ r.textLen :=
  List.length_take_le ..

theorem BookRole.dataBytes_length_le (r : BookRole) (b : List Byte) : (r.dataBytes b).length ≤ r.block :=
  calc (r.dataBytes b).length ≤ r.dataLen := List.length_take_le ..
    _ ≤ roundUp 16 r.dataLen := le_roundUp (by decide) _
    _ ≤ r.block := Nat.le_add_right _ _

theorem BookRole.blockBytes_length (r : BookRole) (b : List Byte) : (r.blockBytes b).length = r.block := by
  have := r.dataBytes_length_le b
  simp only [BookRole.blockBytes, List.length_append, List.length_replicate]
  omega

/-- Where the text of the only process on a core stands. -/
def NewInst.textPlaced (n : NewInst) (slot : Nat) (r : BookRole) : Placed :=
  { core := n.inst.core, slot := slot, region := n.region, role := n.inst.role, isText := true, off := 0, len := r.textLen,
    pid := 0 }

/-- Where its data block stands. -/
def NewInst.dataPlaced (n : NewInst) (slot : Nat) (r : BookRole) : Placed :=
  { core := n.inst.core, slot := slot, region := n.region, role := n.inst.role, isText := false, off := r.dataStart,
    len := r.block, pid := n.pid }

/-- The image of the only process on a core. -/
def NewInst.image (n : NewInst) (slot : Nat) (r : BookRole) : Image :=
  { slot := slot, role := n.inst.role, inst := n.inst.num, text := 0, textLen := r.textLen, data := r.dataStart,
    dataLen := r.block }

/-- Memory with text and data block of the only process on a core. -/
def NewInst.imageMem (n : NewInst) (r : BookRole) (b : List Byte) (m : Memory) : Memory :=
  (m.writeBytes (globalBase n.inst.core) (r.textBytes b)).writeBytes (globalBase n.inst.core + r.dataStart) (r.blockBytes b)

section
variable {n : NewInst} {r : BookRole} {b : List Byte} {m : Memory}

theorem imageMem_text {i : Nat} {x : Byte} (hm : m.wf = true) (hx : (r.textBytes b)[i]? = some x) :
    (n.imageMem r b m).get (globalBase n.inst.core + i) = x := by
  have hi : i < (r.textBytes b).length := (List.getElem?_eq_some_iff.mp hx).1
  have hlen := r.textBytes_length_le b
  have hdata : r.textLen ≤ r.dataStart := le_roundUp (by decide) _
  rw [NewInst.imageMem, Memory.get_writeBytes_other (Or.inl (by omega)) (Memory.writeBytes_wf _ _ hm),
    Memory.get_writeBytes hx hm]

theorem imageMem_data {i : Nat} {x : Byte} (hm : m.wf = true) (hx : (r.dataBytes b)[i]? = some x) :
    (n.imageMem r b m).get (globalBase n.inst.core + r.dataStart + i) = x := by
  have hi : i < (r.dataBytes b).length := (List.getElem?_eq_some_iff.mp hx).1
  refine Memory.get_writeBytes ?_ (Memory.writeBytes_wf _ _ hm)
  rwa [BookRole.blockBytes, List.getElem?_append_left hi]

end

/-! Text and data block placed -/

section
variable {s : State} {q : Proc} {n : NewInst} {r : BookRole} {b : List Byte} {slot owner : Nat}

theorem imaged_pid (p : Proc) (im : Image) (r : BookRole) (num count : Nat) : (p.imaged im r num count).pid = p.pid := by
  simp [Proc.imaged, Proc.setX]

/-- A text that does not stand on the core is written at an offset with room for it. -/
theorem placeText_new (via : Option Nat) {off : Nat} (htext : s.textOn n.inst.core slot n.inst.role = none)
    (hroom : s.imageRoom n.inst.core r.textLen = off) :
    s.placeText owner via b slot n r =
      let u := s.imageWrite owner n.region via (globalBase n.inst.core + off) (r.textBytes b)
      { u with placed := u.placed ++ [{ n.textPlaced slot r with off := off }] } := by
  subst hroom
  rw [State.placeText, htext]
  rfl

theorem imageWrite_quiet {region a : Nat} {bs : List Byte} (hq : s.QuietAt a bs.length) :
    ∃ k, s.imageWrite owner region none a bs = { s with mem := s.mem.writeBytes a bs, nextId := k } :=
  State.smWrite_quiet hq

theorem placeText_first (hc : s.cpu = none) (hp : s.procs = [q]) (hcore : q.core = n.inst.core) (hpl : s.placed = [])
    (hfit : r.textLen < 2 ^ 40) (hq : s.QuietAt (globalBase n.inst.core) (r.textBytes b).length) :
    ∃ k, s.placeText owner none b slot n r = { s with
      mem := s.mem.writeBytes (globalBase n.inst.core) (r.textBytes b), nextId := k, placed := [n.textPlaced slot r] } := by
  obtain ⟨k, hk⟩ := imageWrite_quiet (owner := owner) (region := n.region) hq
  have htext : s.textOn n.inst.core slot n.inst.role = none := by simp [State.textOn, hpl]
  have hroom : s.imageRoom n.inst.core r.textLen = 0 := by
    rw [State.imageRoom, images_single hc hp hcore, hpl, List.filter_nil, List.filter_nil, List.map_nil,
      firstFit_empty (by omega), Option.getD_some]
  refine ⟨k, ?_⟩
  rw [placeText_new none htext hroom, Nat.add_zero, hk]
  simp only [hpl, List.nil_append]
  rfl

/-- A data block is written at an offset with room for it, and the process takes its image. -/
theorem placeData_new (via : Option Nat) {off : Nat} (hroom : s.imageRoom n.inst.core r.block = off) :
    s.placeData owner via b slot n r =
      let u := s.imageWrite owner n.region via (globalBase n.inst.core + off) (r.blockBytes b)
      let v : State := { u with placed := u.placed ++ [{ n.dataPlaced slot r with off := off }] }
      v.modProc n.pid fun p => p.imaged { n.image slot r with
        text := ((v.textOn n.inst.core slot n.inst.role).map (·.off)).getD 0, data := off } r n.inst.num
        (instsOf b n.inst.role).length := by
  subst hroom
  rfl

theorem placeData_second (hc : s.cpu = none) (hp : s.procs = [q]) (hcore : q.core = n.inst.core) (hpid : q.pid = n.pid)
    (hpl : s.placed = [n.textPlaced slot r]) (hfit : r.dataStart + r.block < 2 ^ 40)
    (hq : s.QuietAt (globalBase n.inst.core + r.dataStart) r.block) :
    ∃ k, s.placeData owner none b slot n r = { s with
      mem := s.mem.writeBytes (globalBase n.inst.core + r.dataStart) (r.blockBytes b), nextId := k
      placed := [n.textPlaced slot r, n.dataPlaced slot r]
      procs := [q.imaged (n.image slot r) r n.inst.num (instsOf b n.inst.role).length] } := by
  have hlen := r.blockBytes_length b
  obtain ⟨k, hk⟩ := imageWrite_quiet (owner := owner) (region := n.region) (bs := r.blockBytes b) (by rwa [hlen])
  have himages : s.images n.inst.core = [n.textPlaced slot r] := by
    simp [images_single hc hp hcore, hpl, NewInst.textPlaced]
  have hroom : s.imageRoom n.inst.core r.block = r.dataStart := by
    rw [State.imageRoom, himages]
    by_cases hlen : r.textLen = 0
    · have hnone : [n.textPlaced slot r].filter (·.len != 0) = [] := by simp [NewInst.textPlaced, hlen]
      rw [hnone, List.map_nil, firstFit_empty (by omega), Option.getD_some, BookRole.dataStart, hlen]
      rfl
    · have hsome : [n.textPlaced slot r].filter (·.len != 0) = [n.textPlaced slot r] := by simp [NewInst.textPlaced, hlen]
      rw [hsome, List.map_cons, List.map_nil]
      exact congrArg (Option.getD · 0) (firstFit_behind hlen (by
        show r.dataStart + max r.block 1 ≤ _
        omega))
  let v : State := { s with
    mem := s.mem.writeBytes (globalBase n.inst.core + r.dataStart) (r.blockBytes b), nextId := k
    placed := [n.textPlaced slot r, n.dataPlaced slot r] }
  have htext : v.textOn n.inst.core slot n.inst.role = some (n.textPlaced slot r) := by
    simp [v, State.textOn, NewInst.textPlaced]
  have hproc : v.proc? n.pid = some q := hpid ▸ State.proc?_single (s := v) hc hp
  refine ⟨k, ?_⟩
  rw [placeData_new none hroom, hk]
  show State.modProc { s with mem := _, nextId := _, placed := s.placed ++ _ } _ _ = _
  rw [hpl]
  show v.modProc n.pid (fun p => p.imaged { n.image slot r with
    text := ((v.textOn n.inst.core slot n.inst.role).map (·.off)).getD 0, data := r.dataStart } r n.inst.num
    (instsOf b n.inst.role).length) = _
  rw [htext, State.modProc, hproc]
  exact State.putProc_single (s := v) hc hp (imaged_pid ..)

end

end Sys2Proof.Machine
end

section
/-! SUPPORT. O59: the images of the one process of a LAUNCH, by way of its core, cluster and boot tree (R95, R98, R388). -/

namespace Sys2Proof.Machine

theorem foldl_max_le {α : Type} {f : α → Nat} {l : List α} {k m : Nat} (hk : k ≤ m) (hl : ∀ x ∈ l, f x ≤ m) :
    l.foldl (fun n x => max n (f x)) k ≤ m := by
  induction l generalizing k with
  | nil => exact hk
  | cons x l ih =>
    exact ih (Nat.max_le.mpr ⟨hk, hl x List.mem_cons_self⟩) fun y hy => hl y (List.mem_cons_of_mem _ hy)

/-! One core -/

/-- The state with the images of a process, and the process with its image. -/
def State.withImage (s : State) (b : List Byte) (slot : Nat) (n : NewInst) (r : BookRole) (q : Proc) (k : Nat) : State :=
  { s with mem := n.imageMem r b s.mem, nextId := k, placed := [n.textPlaced slot r, n.dataPlaced slot r]
           procs := [q.imaged (n.image slot r) r n.inst.num (instsOf b n.inst.role).length] }

section
variable {s : State} {q : Proc} {n : NewInst} {r : BookRole} {roles : List BookRole} {b : List Byte} {slot owner : Nat}
  (hc : s.cpu = none) (hp : s.procs = [q]) (hcore : q.core = n.inst.core) (hpid : q.pid = n.pid) (hpl : s.placed = [])
  (hrole : roles[n.inst.role]? = some r) (hfit : r.block + r.dataStart ≤ 0x50000)
  (hq : s.QuietAt (globalBase n.inst.core) 0x60000)
include hc hp hcore hpid hpl hrole hfit hq

theorem placeRegion_one : ∃ k, s.placeRegion owner none b slot roles [n] = s.withImage b slot n r q k := by
  have htext := r.textBytes_length_le b
  have hdata : r.textLen ≤ r.dataStart := le_roundUp (by decide) _
  obtain ⟨k, hk⟩ := placeText_first (owner := owner) (b := b) (slot := slot) (r := r) hc hp hcore hpl (by omega)
    (hq.part (Nat.le_refl _) (by omega))
  obtain ⟨k', hk'⟩ := placeData_second (owner := owner) (b := b) (slot := slot) (r := r) (s := { s with
    mem := s.mem.writeBytes (globalBase n.inst.core) (r.textBytes b), nextId := k, placed := [n.textPlaced slot r] })
    hc hp hcore hpid rfl (by omega)
    (State.QuietAt.part { hq with wf := Memory.writeBytes_wf _ _ hq.wf, near := hq.near } (by omega) (by omega))
  refine ⟨k', ?_⟩
  simp only [State.placeRegion, List.foldl_cons, List.foldl_nil, hrole, hk, hk']
  rfl

theorem placeCore_one (hpark : s.parkStart n.inst.core = 0x50000) : ∃ k,
    s.placeCore owner b slot roles [n] none n.inst.core =
      .ok ((s.withImage b slot n r q k).reloadWins n.region n.inst.core) := by
  obtain ⟨k, hk⟩ := placeRegion_one (owner := owner) (b := b) (slot := slot) hc hp hcore hpid hpl hrole hfit hq
  let v := (s.withImage b slot n r q k).reloadWins n.region n.inst.core
  have hmine : [n].filter (·.inst.core == n.inst.core) = [n] := by simp
  have hregion : [n].filter (·.region == n.region) = [n] := by simp
  have hregions : ([n].map (·.region)).eraseDups = [n.region] := rfl
  have hdata : r.textLen ≤ r.dataStart := le_roundUp (by decide) _
  have himages : v.images n.inst.core = [n.textPlaced slot r, n.dataPlaced slot r] := by
    rw [images_single (s := v) (q := q.imaged (n.image slot r) r n.inst.num (instsOf b n.inst.role).length) hc rfl (by
      simpa [Proc.imaged, Proc.setX] using hcore)]
    simp [v, State.reloadWins, State.withImage, NewInst.textPlaced, NewInst.dataPlaced]
  have hend : ((v.images n.inst.core).filter (·.len != 0)).foldl (fun m (x : Placed) => max m (x.off + x.len)) 0 ≤
      0x50000 := by
    refine foldl_max_le (Nat.zero_le _) fun x hx => ?_
    rw [himages] at hx
    have hx' := List.mem_of_mem_filter hx
    simp only [List.mem_cons, List.not_mem_nil, or_false] at hx'
    rcases hx' with rfl | rfl
    · simp only [NewInst.textPlaced]
      omega
    · simp only [NewInst.dataPlaced]
      omega
  have hpark' : v.parkStart n.inst.core = 0x50000 := hpark
  refine ⟨k, ?_⟩
  simp only [State.placeCore, hmine, hregions, List.foldl_cons, List.foldl_nil, hregion, hk]
  exact if_neg (by rw [hpark']; exact Nat.not_lt.mpr hend)

end

/-! One cluster (R95) -/

section
variable {s t : State} {place : State → Option Nat → Nat → Except Fail State} {c fan : Nat}

/-- Positions behind the end of the list get nothing. -/
theorem loadTree_past {l : List Nat} (fuel : Nat) {ks : List Nat} (h : ∀ k ∈ ks, l.length ≤ k) :
    s.loadTree place l fan fuel ks = .ok s := by
  induction fuel generalizing ks with
  | zero => simp [State.loadTree]
  | succ fuel ih =>
    cases ks with
    | nil => simp [State.loadTree]
    | cons k ks =>
      have hk : l[k]? = none := List.getElem?_eq_none (h k List.mem_cons_self)
      simp only [State.loadTree, hk]
      exact ih fun x hx => h x (List.mem_cons_of_mem _ hx)

theorem loadTree_one (fuel : Nat) (hplace : place s none c = .ok t) :
    s.loadTree place [c] fan (fuel + 1) [0] = .ok t := by
  have hfirst : forwarder [c] fan 0 = none := rfl
  simp only [State.loadTree, List.getElem?_cons_zero, hfirst, hplace, List.nil_append]
  refine loadTree_past fuel fun k hk => ?_
  obtain ⟨j, -, rfl⟩ := List.mem_map.mp hk
  simp

/-- Only one core of the cluster receives images. -/
theorem bootList_one (b : List Byte) (c : Nat) : bootList b [c] (dieOf c) (clusOf c) = [c] := by
  have hsort : ([c].filter fun x => dieOf x == dieOf c && clusOf x == clusOf c).mergeSort = [c] := by simp
  simp only [bootList, hsort]
  split
  next => rfl
  next tree _ =>
    simp only [List.dropWhile, List.takeWhile]
    cases c != coreOf (dieOf c) (clusOf c) tree.root <;> rfl

theorem loadCluster_one (b : List Byte) (hplace : place s none c = .ok t) :
    s.loadCluster b place [c] (dieOf c) (clusOf c) = .ok t := by
  simp only [State.loadCluster, bootList_one]
  exact loadTree_one _ hplace

end

end Sys2Proof.Machine
end

section
/-! SUPPORT. O59: a LAUNCH of the one process of a role on a core that is empty: its process, park area and images, and the checks
on the state that it makes (R98, R227, R280, R281, R388). -/

namespace Sys2Proof.Machine

/-! Windows (R227) -/

section
variable {s : State} {g c d : Nat}

/-- A region gets at most one window over its texts on a core, and one over its data blocks. -/
theorem reloadWins_covers (s : State) (g c : Nat) : ∃ x y, (s.reloadWins g c).loaderWins =
    (s.loaderWins.filter fun l => !(l.region == g && l.core == c)) ++ x ++ y ∧ x.length ≤ 1 ∧ y.length ≤ 1 := by
  refine ⟨_, _, rfl, ?_, ?_⟩
  all_goals
    dsimp only
    split <;> simp

theorem State.owner_congr {t : State} (h : t.regions = s.regions) (bit fuel n : Nat) :
    t.owner bit fuel n = s.owner bit fuel n := by
  induction fuel generalizing n with
  | zero => rfl
  | succ fuel ih => simp only [State.owner, State.region?_congr h, ih]

theorem State.effWins_congr {t : State} (h : t.regions = s.regions) (n : Nat) : t.effWins n = s.effWins n := by
  simp only [State.effWins, State.owner_congr h]

theorem winNumber_reloadWins (hno : ∀ x ∈ s.loaderWins, x.region ≠ g) (hw : (s.effWins g).length ≤ 14) :
    (s.reloadWins g c).winNumber g d ≤ 16 := by
  obtain ⟨x, y, heq, hx, hy⟩ := reloadWins_covers s g c
  have hold : (s.loaderWins.filter fun l => !(l.region == g && l.core == c)).filter
      (fun l => l.region == g && l.core == d) = [] := by
    rw [List.filter_eq_nil_iff]
    intro l hl
    simp [hno l (List.mem_of_mem_filter hl)]
  have heff : (s.reloadWins g c).effWins g = s.effWins g := State.effWins_congr rfl g
  have hwins := List.length_filter_le (fun w : WinEntry => w.applies d) (s.effWins g)
  have hxl := List.length_filter_le (fun l : LoaderWin => l.region == g && l.core == d) x
  have hyl := List.length_filter_le (fun l : LoaderWin => l.region == g && l.core == d) y
  rw [State.winNumber, heff, heq, List.filter_append, List.filter_append, hold, List.nil_append, List.length_append]
  omega

end

/-! The checks of a LAUNCH -/

section
variable {s : State} {q : Proc} {n : NewInst} {regions : List (Nat × Nat)} {cores : List Nat}

/-- A region below the root that has tables of its own, or inherits them from such a region, needs none of a root's. -/
theorem rootTables_below {g : Nat} (hroot : ∀ m ∈ [4, 6], ∀ x, s.owner m levels g = some x → x.isRoot = false) :
    s.rootTables [g] = .ok s := by
  have hseg : s.rootSegments g = s := by
    unfold State.rootSegments
    split
    next => rfl
    next x hx => rw [hroot 4 (by simp) x hx, if_neg Bool.false_ne_true]
  have hwin : s.rootWindows g = .ok s := by
    unfold State.rootWindows
    split
    next => rfl
    next x hx => rw [hroot 6 (by simp) x hx, Bool.not_false, if_pos rfl]
  simp only [State.rootTables, hseg, hwin]

theorem windowsFault_none {g : Nat} {places : List (Nat × Nat)} (hplaces : ∀ x ∈ places, x.1 = g)
    (hwin : ∀ d, s.winNumber g d ≤ 16) : s.windowsFault places = none := by
  have hfind : (places ++ ((places.map (·.1)).eraseDups.flatMap s.tablePlaces)).find?
      (fun x => decide (16 < s.winNumber x.1 x.2)) = none := by
    rw [List.find?_eq_none]
    intro x hx
    have hg : x.1 = g := by
      rcases List.mem_append.mp hx with hx | hx
      · exact hplaces x hx
      · obtain ⟨k, hk, hxk⟩ := List.mem_flatMap.mp hx
        obtain ⟨y, hy, rfl⟩ := List.mem_map.mp (List.mem_eraseDups.mp hk)
        obtain ⟨w, -, hw⟩ := List.mem_filterMap.mp (List.mem_eraseDups.mp hxk)
        simp only [Option.ite_none_right_eq_some, Option.some.injEq] at hw
        obtain ⟨-, rfl⟩ := hw
        exact hplaces y hy
    rw [hg]
    simpa using hwin x.2
  rw [State.windowsFault, hfind, Option.map_none]

theorem launchPlaces_one (hc : s.cpu = none) (hp : s.procs = [q]) (hq : q.placed = false) :
    s.launchPlaces regions [n] = [(n.region, n.inst.core)] := by
  rw [State.launchPlaces, State.allProcs_single hc hp]
  simp [hq]
  rfl

theorem launchChecks_one (hc : s.cpu = none) (hp : s.procs = [q]) (hq : q.placed = false) (hch : s.channels = [])
    (hroot : ∀ m ∈ [4, 6], ∀ x, s.owner m levels n.region = some x → x.isRoot = false)
    (hwin : ∀ d, s.winNumber n.region d ≤ 16) : s.launchChecks regions [n] cores = .ok s := by
  have htables : s.rootTables (([n].map (·.region)).eraseDups) = .ok s := rootTables_below hroot
  have hwindows : s.windowsFault (s.launchPlaces regions [n]) = none := by
    rw [launchPlaces_one hc hp hq]
    exact windowsFault_none (g := n.region) (by simp) hwin
  have hneed (d : Nat) : s.entriesNeeded [n] d = 0 := by
    simp [State.entriesNeeded, State.entriesOn, State.endsOf_none hch]
  have hentries : s.entriesFault (s.entriesNeeded [n]) cores = none :=
    entriesFault_none fun d _ => by rw [hneed d]; exact Nat.zero_le _
  have hclash : s.clashFault [n] = none := by
    simp [State.clashFault, State.clashes, State.endsOf_none hch]
  simp only [State.launchChecks, htables, hwindows, hentries, hclash]
  rfl

end

/-! The new process and its park area (R388) -/

section
variable {s before : State} {h : ItemHdr} {bk : Book} {b : List Byte} {regions : List (Nat × Nat)} {n : NewInst} {r : BookRole}
  {i : Inst} {g c owner role : Nat}

theorem numberInsts_one (pid : Nat) (hrole : (rolesOf b)[i.role]? = some r) :
    numberInsts b [(r.region, g)] pid [i] = [{ inst := i, pid := pid, region := g }] := by
  simp [numberInsts, hrole]

theorem coreEmpty_none (hc : s.cpu = none) (hp : s.procs = []) (hch : s.channels = []) (c : Nat) : s.coreEmpty c = true := by
  simp [State.coreEmpty, State.claimants, State.allProcs, State.slotsOn, hc, hp, hch]

/-- An empty core without slots gets a park area of 64 KiB. -/
theorem setParks_one (hch : s.channels = []) (hbefore : before.coreEmpty c = true) :
    s.setParks before [c] = .ok (s.modCore c fun k => { k with psize := 4 }) := by
  have hslots : s.slotsOn c = 0 := by simp [State.slotsOn, hch]
  simp [State.setParks, hbefore, hslots, roundUp]

/-- The state with the new process, on a core whose park area is set. -/
def State.withInst (s : State) (h : ItemHdr) (n : NewInst) (r : BookRole) : State :=
  State.modCore { s with nextPid := s.nextPid + 1, procs := [s.instProc n r h.thread] } n.inst.core
    fun k => { k with psize := 4 }

theorem withInst_psize : ((s.withInst h n r).core n.inst.core).psize = 4 := by
  rw [State.withInst, State.core_modCore_same]
  simp

theorem makeInsts_one (hc : s.cpu = none) (hp : s.procs = []) (hch : s.channels = []) (hpl : s.placed = [])
    (hbefore : before.coreEmpty n.inst.core = true) (hwires : wiresOf b = [])
    (hrole : (rolesOf b)[n.inst.role]? = some r) (hfit : r.block + r.dataStart ≤ 0x50000)
    (hq : s.QuietAt (globalBase n.inst.core) 0x60000) :
    ∃ k, s.makeInsts before owner h bk b regions [n] [n.inst.core] = .ok (((s.withInst h n r).withImage b bk.slot n r
      (s.instProc n r h.thread) k).reloadWins n.region n.inst.core) := by
  have hpark : (s.withInst h n r).parkStart n.inst.core = 0x50000 := by
    rw [State.parkStart, Core.park, withInst_psize]
    rfl
  obtain ⟨k, hk⟩ := placeCore_one (s := s.withInst h n r) (q := s.instProc n r h.thread) (n := n) (r := r)
    (roles := rolesOf b) (b := b) (slot := bk.slot) (owner := owner) hc rfl rfl rfl hpl hrole hfit
    { hq with near := hq.near } hpark
  have hadd : s.addInsts (rolesOf b) h.thread [n] =
      { s with nextPid := s.nextPid + 1, procs := [s.instProc n r h.thread] } := by
    simp [State.addInsts, hp, hrole]
  have hbind (u : State) : u.bindInst b regions n = u := by simp [State.bindInst, hwires]
  have hclusters : (([n.inst.core].map fun c => (dieOf c, clusOf c)).eraseDups) =
      [(dieOf n.inst.core, clusOf n.inst.core)] := rfl
  have hsets : State.setParks { s with nextPid := s.nextPid + 1, procs := [s.instProc n r h.thread] } before
      [n.inst.core] = .ok (s.withInst h n r) := setParks_one hch hbefore
  refine ⟨k, ?_⟩
  simp only [State.makeInsts, hadd, List.foldl_cons, List.foldl_nil, hbind, hsets, hclusters, State.placeCores,
    loadCluster_one (place := fun t via c => t.placeCore owner b bk.slot (rolesOf b) [n] via c) b hk]

/-- The state that a LAUNCH of one process has prepared. -/
def State.launched (s : State) (h : ItemHdr) (bk : Book) (b : List Byte) (n : NewInst) (r : BookRole) (k : Nat) : State :=
  ((((s.withInst h n r).withImage b bk.slot n r (s.instProc n r h.thread) k).reloadWins n.region n.inst.core).putBook bk)

/-- What a LAUNCH of one process leaves and makes. -/
theorem launched_fields (s : State) (h : ItemHdr) (bk : Book) (b : List Byte) (n : NewInst) (r : BookRole) (k : Nat) :
    (s.launched h bk b n r k).cpu = s.cpu ∧ (s.launched h bk b n r k).regions = s.regions ∧
    (s.launched h bk b n r k).channels = s.channels ∧ (s.launched h bk b n r k).threads = s.threads ∧
    (s.launched h bk b n r k).placements = s.placements ∧ (s.launched h bk b n r k).time = s.time ∧
    (s.launched h bk b n r k).mem = n.imageMem r b s.mem ∧ (s.launched h bk b n r k).cores = (s.withInst h n r).cores ∧
    (s.launched h bk b n r k).procs =
      [(s.instProc n r h.thread).imaged (n.image bk.slot r) r n.inst.num (instsOf b n.inst.role).length] := by
  simp only [State.launched, State.putBook, State.reloadWins, State.withImage, State.withInst, State.modCore,
    State.putCore, and_self]

theorem launched_winNumber {k d : Nat} (hw : (s.effWins n.region).length ≤ 14)
    (hno : ∀ x ∈ s.loaderWins, x.region ≠ n.region) : (s.launched h bk b n r k).winNumber n.region d ≤ 16 := by
  refine winNumber_reloadWins (s := (s.withInst h n r).withImage b bk.slot n r (s.instProc n r h.thread) k) ?_ ?_
  · simpa only [State.withImage, State.withInst, State.modCore, State.putCore] using hno
  · rw [State.effWins_congr (s := s) (by
      simp only [State.withImage, State.withInst, State.modCore, State.putCore])]
    exact hw

theorem launchFault_none (hcasts : ∀ x ∈ castsOf b, x.role = role → s.diePresent x.die = true)
    (hrole : (rolesOf b)[role]? = some r) (hregs : r.nreg ≤ 32) : s.launchFault b [role] = none := by
  have hdies : (castsOf b).find? (fun c => [role].contains c.role && !s.diePresent c.die) = none := by
    rw [List.find?_eq_none]
    intro x hx
    by_cases hxr : x.role = role
    · simp [hcasts x hx hxr]
    · simp [hxr]
  simp only [State.launchFault, hdies, List.filterMap_cons, hrole, List.filterMap_nil]
  simp [hregs]

/-- What a LAUNCH of one role of a book with regions prepares: its instances, and the checks on them. -/
theorem prepare_role {v w : State} {ns : List NewInst} (hne : role ≠ 0xFFFF) (hregions : bk.regions ≠ [])
    (hfault : s.launchFault b [role] = none) (hns : numberInsts b bk.regions s.nextPid (instsOf b role) = ns)
    (hmake : State.makeInsts { s with nextId := s.nextId + 1 } s s.nextId h bk b bk.regions ns
      ((ns.map (·.inst.core)).eraseDups) = .ok v)
    (hcheck : (v.putBook { bk with launched := bk.launched || role == 0xFFFF }).launchChecks bk.regions ns
      ((ns.map (·.inst.core)).eraseDups) = .ok w) : s.prepare h bk b role = .ok (w, ns, s.nextId, []) := by
  have hroles : launchRoles b role = [role] := if_neg hne
  have hwhole : (role == 0xFFFF) = false := by simpa using hne
  have hempty : bk.regions.isEmpty = false := by simpa using hregions
  have hflat : [role].flatMap (instsOf b) = instsOf b role := List.flatMap_singleton ..
  simp only [State.prepare, hroles, hwhole, Bool.false_and, Bool.false_eq_true, if_false, hfault, State.freshId,
    State.bookRegions, hempty, hflat, hns, hmake, State.bookCommands] at hcheck ⊢
  rw [hcheck]

theorem prepare_one (hne : role ≠ 0xFFFF) (hrole : (rolesOf b)[role]? = some r) (hregs : r.nreg ≤ 32)
    (hregions : bk.regions = [(r.region, g)]) (hinsts : instsOf b role = [i])
    (hcasts : ∀ x ∈ castsOf b, x.role = role → s.diePresent x.die = true) (hi : i.role = role) (hwires : wiresOf b = [])
    (hfit : r.block + r.dataStart ≤ 0x50000) (hc : s.cpu = none) (hp : s.procs = []) (hch : s.channels = [])
    (hpl : s.placed = []) (hroot : ∀ m ∈ [4, 6], ∀ x, s.owner m levels g = some x → x.isRoot = false)
    (hw : (s.effWins g).length ≤ 14) (hno : ∀ x ∈ s.loaderWins, x.region ≠ g)
    (hq : s.QuietAt (globalBase i.core) 0x60000) :
    ∃ (k : Nat) (bk' : Book), s.prepare h bk b role =
      .ok (State.launched { s with nextId := s.nextId + 1 } h bk' b { inst := i, pid := s.nextPid, region := g } r k,
        [{ inst := i, pid := s.nextPid, region := g }], s.nextId, []) := by
  let u : State := { s with nextId := s.nextId + 1 }
  let n : NewInst := { inst := i, pid := s.nextPid, region := g }
  let bk' : Book := { bk with launched := bk.launched || role == 0xFFFF }
  have hns : numberInsts b bk.regions s.nextPid (instsOf b role) = [n] := by
    rw [hinsts, hregions]
    exact numberInsts_one s.nextPid (hi ▸ hrole)
  obtain ⟨k, hk⟩ := makeInsts_one (s := u) (before := s) (h := h) (bk := bk) (b := b) (regions := bk.regions) (n := n)
    (r := r) (owner := s.nextId) hc hp hch hpl (coreEmpty_none hc hp hch i.core) hwires (hi ▸ hrole) hfit
    { hq with near := hq.near }
  have hchecks : (u.launched h bk' b n r k).launchChecks bk.regions [n] [i.core] = .ok (u.launched h bk' b n r k) := by
    obtain ⟨hcpu, hregs', hchans, -, -, -, -, -, hprocs⟩ := launched_fields u h bk' b n r k
    refine launchChecks_one (hcpu.trans hc) hprocs ?_ (hchans.trans hch) (fun m hm x hx => ?_)
      fun d => launched_winNumber ?_ hno
    · simp [Proc.imaged, Proc.setX, Proc.placed, State.instProc, State.newProc]
    · rw [State.owner_congr (s := s) (t := u.launched h bk' b n r k) hregs'] at hx
      exact hroot m hm x hx
    · rw [State.effWins_congr (s := s) (t := u) rfl]
      exact hw
  exact ⟨k, bk', prepare_role hne (by simp [hregions]) (launchFault_none hcasts hrole hregs) hns hk hchecks⟩

end

end Sys2Proof.Machine
end

section
/-! SUPPORT. O59: the placement of the one process of a LAUNCH (R50, R88), and the statement clause by clause. -/

namespace Sys2Proof.Machine

section
variable {s : State} {t : Thread} {h : ItemHdr} {a0 a1 a2 : Word} {bk : Book} {b : List Byte} {r : BookRole} {i : Inst}
  {g : Nat}

theorem placeGroups_one (n : NewInst) : placeGroups [n] = [[n]] := by
  simp [placeGroups]

/-- The placement of one process. -/
def NewInst.placement (n : NewInst) (s : State) (owner thread : Nat) : Placement :=
  { id := s.nextId, region := n.region, group := 0, gcount := 1, members := [n.member], t0 := s.ns, thread := some thread
    images := owner }

/-- The state with that placement. -/
def State.withPlacement (s : State) (n : NewInst) (owner thread : Nat) : State :=
  { s with nextId := s.nextId + 1, placements := s.placements ++ [n.placement s owner thread] }

theorem addPlacements_one (s : State) (n : NewInst) (owner thread : Nat) :
    s.addPlacements owner thread (placeGroups [n]) [] = (s.withPlacement n owner thread, [s.nextId]) := by
  rw [placeGroups_one]
  rfl

theorem imaged_kept (p : Proc) (im : Image) (r : BookRole) (num count : Nat) :
    (p.imaged im r num count).st = p.st ∧ (p.imaged im r num count).region = p.region ∧
    (p.imaged im r num count).core = p.core ∧ (p.imaged im r num count).nregs = p.nregs := by
  simp [Proc.imaged, Proc.setX]

/-- What a LAUNCH of the one process of a role on an empty core makes before its placement is attempted. -/
structure State.Prepared (s v : State) (t : Thread) (r : BookRole) (i : Inst) (g : Nat) (b : List Byte) (id : Nat) (p : Proc) :
    Prop where
  cpu : v.cpu = none
  procs : v.procs = [p]
  channels : v.channels = []
  threads : v.threads = [t]
  psize : (v.core i.core).psize = 4
  placement : ∃ x, v.placements = [x] ∧ x.id = id ∧ x.region = g ∧ x.members.map (·.pid) = [s.nextPid] ∧ x.t0 = s.ns
  pid : p.pid = s.nextPid
  st : p.st = .new
  region : p.region = g
  core : p.core = i.core
  nregs : p.nregs = r.nreg
  pc : p.pc = BitVec.ofNat 64 r.entry
  x2 : p.getX 2 = BitVec.ofNat 64 (r.dataStart + r.block)
  x3 : p.getX 3 = BitVec.ofNat 64 i.num
  x4 : p.getX 4 = 1
  x5 : p.getX 5 = BitVec.ofNat 64 r.dataStart
  text : ∀ (n : Nat) (x : Byte), (r.textBytes b)[n]? = some x → v.mem.get (globalBase i.core + n) = x
  data : ∀ (n : Nat) (x : Byte), (r.dataBytes b)[n]? = some x → v.mem.get (globalBase i.core + r.dataStart + n) = x

theorem prepared_launched {k owner thread : Nat} {n : NewInst} (hs : s.threads = [t]) (hc : s.cpu = none)
    (hch : s.channels = []) (hpl : s.placements = []) (hwf : s.mem.wf = true) (hpid : n.pid = s.nextPid)
    (hinst : instsOf b n.inst.role = [n.inst]) :
    ∃ p, s.Prepared ((s.launched h bk b n r k).withPlacement n owner thread) t r n.inst n.region b
      (s.launched h bk b n r k).nextId p := by
  obtain ⟨hcpu, -, hchans, hthreads, hplaces, htime, hmem, hcores, hprocs⟩ := launched_fields s h bk b n r k
  obtain ⟨hst, hregion, hcore, hnregs⟩ := imaged_kept (s.instProc n r h.thread) (n.image bk.slot r) r n.inst.num
    (instsOf b n.inst.role).length
  obtain ⟨hpc, hx2, hx3, hx4, hx5⟩ := imaged_registers (s.instProc n r h.thread) (n.image bk.slot r) r n.inst.num
    (instsOf b n.inst.role).length
  have hns : (s.launched h bk b n r k).ns = s.ns := congrArg (· / Config.unitsPerNs) htime
  exact ⟨_, {
    cpu := hcpu.trans hc
    procs := hprocs
    channels := hchans.trans hch
    threads := hthreads.trans hs
    psize := by
      rw [State.core_eq]
      show ((s.launched h bk b n r k).cores.find? _ |>.getD _).psize = 4
      rw [hcores, ← State.core_eq, withInst_psize]
    placement := ⟨_, by rw [State.withPlacement, hplaces, hpl]; rfl, rfl, rfl,
      by simp [NewInst.placement, NewInst.member, hpid], hns⟩
    pid := (imaged_pid ..).trans hpid
    st := hst
    region := hregion
    core := hcore
    nregs := hnregs
    pc := by simpa [NewInst.image] using hpc
    x2 := hx2
    x3 := hx3
    x4 := by simpa [hinst] using hx4
    x5 := hx5
    text := fun j x hx => by
      show (s.launched h bk b n r k).mem.get _ = x
      rw [hmem, imageMem_text hwf hx]
    data := fun j x hx => by
      show (s.launched h bk b n r k).mem.get _ = x
      rw [hmem, imageMem_data hwf hx] }⟩

/-- A LAUNCH of the one process of a role on a core that is empty prepares it and attempts its placement. -/
theorem execCmdLaunch_one (hb : Begins s t h) (hsubj : s.subj = .item h a0 a1 a2) (h0 : a0.toNat < 64 ∨ a0.toNat = 0xFF)
    (h2 : a2.toNat ≤ 1) (hbook : s.launchBook h a0.toNat = some bk) (hne : a1.toNat ≠ 0xFFFF)
    (hrole : (rolesOf (s.bookBytes bk))[a1.toNat]? = some r) (hregs : r.nreg ≤ 32) (hregions : bk.regions = [(r.region, g)])
    (hinsts : instsOf (s.bookBytes bk) a1.toNat = [i])
    (hcasts : ∀ x ∈ castsOf (s.bookBytes bk), x.role = a1.toNat → s.diePresent x.die = true) (hi : i.role = a1.toNat)
    (hwires : wiresOf (s.bookBytes bk) = []) (hfit : r.block + r.dataStart ≤ 0x50000) (hc : s.cpu = none)
    (hp : s.procs = []) (hch : s.channels = []) (hpl : s.placed = []) (hplace : s.placements = [])
    (hroot : ∀ m ∈ [4, 6], ∀ x, s.owner m levels g = some x → x.isRoot = false) (hw : (s.effWins g).length ≤ 14)
    (hno : ∀ x ∈ s.loaderWins, x.region ≠ g) (hq : s.QuietAt (globalBase i.core) 0x60000) :
    ∃ (v : State) (id o : Nat) (after : List (Nat × Nat)) (p : Proc), exec .cmdLaunch s =
        .next ((v.setCur h (.launch [s.nextPid] [id] (a2 == 1) after none o [])).tryAll [id]) ∧
      s.Prepared v t r i g (s.bookBytes bk) id p := by
  obtain ⟨hs, -, -, -⟩ := id hb
  obtain ⟨k, bk', hprep⟩ := prepare_one (h := h) hne hrole hregs hregions hinsts hcasts hi hwires hfit hc hp hch hpl hroot hw
    hno hq
  obtain ⟨p, hprepared⟩ := prepared_launched (s := { s with nextId := s.nextId + 1 }) (h := h) (bk := bk') (k := k) (r := r)
    (owner := s.nextId) (thread := h.thread) (b := s.bookBytes bk) (n := { inst := i, pid := s.nextPid, region := g })
    hs hc hch hplace hq.wf rfl (hi ▸ hinsts)
  have hrole' : a1.toNat < (rolesOf (s.bookBytes bk)).length := (List.getElem?_eq_some_iff.mp hrole).1
  have hexec := execCmdLaunch_launches hb hsubj h0 h2 hbook (Or.inr hrole')
  rw [launch_places hprep, addPlacements_one] at hexec
  exact ⟨_, _, _, _, p, hexec, { hprepared with }⟩

end

/-! The statement's clauses -/

/-- The fields of the operands of EXTEP and HOSTEP (Table 23.2). -/
theorem endSpecOf_eq (host : Bool) (a0 a1 a2 : Word) : endSpecOf host a0 a1 a2 =
    { host := host, name := a0.toNat % 2 ^ 24, region := a0.toNat / 2 ^ 32 % 2 ^ 16, role := a0.toNat / 2 ^ 48
      ring := a1.toNat % 2 ^ 32, size := a1.toNat / 2 ^ 32 % 2 ^ 16, slots := a1.toNat / 2 ^ 48
      first := if host then a2.toNat % 256 else a2.toNat % 16
      second := if host then a2.toNat / 2 ^ 16 % 256 else a2.toNat / 2 ^ 16 % 2 ^ 16, tx := a2.getLsbD 63 } := by
  have hrole : fieldOf a0 48 16 = a0.toNat / 2 ^ 48 := fieldOf_top rfl
  have hslots : fieldOf a1 48 16 = a1.toNat / 2 ^ 48 := fieldOf_top rfl
  simp only [endSpecOf, fieldOf_low, hrole, hslots]
  cases host <;> rfl

theorem endSpecFault_none {host : Bool} {a0 a2 : Word} (h0 : a0.toNat / 2 ^ 24 % 256 = 0)
    (h2 : zeroBut a2 (if host then 0x8000000000FF00FF else 0x80000000FFFF000F) = true) :
    endSpecFault host a0 a2 = none := by
  have h0' : fieldOf a0 24 8 = 0 := h0
  simp [endSpecFault, h0', h2]

theorem cueOf_eq (s : State) (h : ItemHdr) (a0 a1 a2 : Word) (compl : Nat) : s.cueOf h a0 a1 a2 compl =
    { tag := BitVec.ofNat 16 (a0.toNat / 2 ^ 32), mask := BitVec.ofNat 16 (a0.toNat / 2 ^ 48)
      key := BitVec.ofNat 32 a1.toNat, off := a1.toNat / 2 ^ 32, compl := compl, persist := a2.getLsbD 62
      region := s.threadRegion h.thread } := by
  have hoff : fieldOf a1 32 32 = a1.toNat / 2 ^ 32 := fieldOf_top rfl
  simp only [State.cueOf, hoff, BitVec.extractLsb', Nat.shiftRight_eq_div_pow, Nat.pow_zero, Nat.div_one]

theorem lengthOk_ofNat {n : Nat} (h8 : n % 8 = 0) (hmin : 8 ≤ n) (hmax : n ≤ 0xFFFFFFF8) :
    lengthOk (BitVec.ofNat 64 n) = true := by
  have hn : (BitVec.ofNat 64 n).toNat = n := by
    rw [BitVec.toNat_ofNat]
    omega
  simp [lengthOk, hn, h8, hmin, hmax]

/-- Settles O59: an item that begins runs as its operands say; what the stage manager writes near it lands at once, so that page
tables, books and images stand in memory when the command goes on; each command's own checks let it through. -/
theorem loaderCommands : Obligations.LoaderCommands := by
  unfold Obligations.LoaderCommands
  intro s t h a0 a1 a2 hsubj hb hcalm k reg region
  refine ⟨?load, ?launch, ?launchOne, fun p im r num count => imaged_registers p im r num count, ?endBook, ?pin, ?window, ?ends,
    ?cue, ?mkey⟩
  case load =>
    intro pl a hres hlen h2 hslot hpl bs b hok ha hnear
    have hq := State.QuietAt.of_calm hcalm hnear
    obtain ⟨n, hexec⟩ := execCmdLoad_keeps_book hb hsubj hres hlen h2 hslot hpl rfl hok ha hq
    exact ⟨_, hexec, rfl, withBook_hash _ _, fun i v hv => Memory.get_writeBytes hv hq.wf,
      fun x hx => Memory.get_writeBytes_other hx hq.wf⟩
  case launch =>
    intro b h0 h2 hbook hrole
    have hexec := execCmdLaunch_launches hb hsubj h0 h2 hbook hrole
    exact ⟨fun e he => hexec.trans (congrArg _ (launch_fails he)),
      fun u ns owner raises he => ⟨_, hexec.trans (congrArg _ (launch_places he))⟩⟩
  case launchOne =>
    intro b r i g h0 h2 hbook bs c base data hne hrole hregs hregions hinsts hcasts hi hcore hwires hfit hc hp hch hpl hplace
      hroot hw hno hnear
    obtain ⟨v, id, o, after, p, hexec, hv⟩ := execCmdLaunch_one hb hsubj h0 h2 hbook hne hrole hregs hregions hinsts hcasts hi
      hwires hfit hc hp hch hpl hplace hroot hw hno (State.QuietAt.of_calm hcalm hnear)
    exact ⟨v, id, o, after, p, hexec, hv.cpu, hv.procs, hv.channels, hv.threads, hv.psize, hv.placement, hv.pid, hv.st,
      hv.region, hv.core, hv.nregs, hv.pc, hv.x2, hv.x3, hv.x4, hv.x5, hv.text, fun n x _ hx => hv.data n x hx⟩
  case endBook =>
    intro b hres h0 h1 h2 hbook
    have hexec := execCmdEnd_ends hb hsubj hres h0 h1 h2 hbook
    obtain ⟨-, -, -, hpost⟩ := id hb
    obtain ⟨hbooks, hloft⟩ := completeItem_books (h := h) (u := s.endBook b) 0x03 hpost
    obtain ⟨hnone, hfree⟩ := endBook_frees hbook
    refine ⟨⟨_, hexec, ?_, ?_⟩, fun hr => ?_⟩
    · rwa [State.book?, hbooks]
    · rwa [hloft]
    · rw [ItemCompletes, hexec, endBook_regionless hr, completeItem_begins hb _ (by rfl)]
  case pin =>
    intro e hr he g writes hal hnear
    have hq := State.QuietAt.of_calm hcalm hnear
    exact ⟨fun hfar hpers => execCmdPin_far hb hsubj hr he hq hfar hpers,
      fun n hfar h2 hpages hfree hn hnot hlow => execCmdPin_page hb hsubj hr he hq hfar h2 hpages hfree hn hnot hlow,
      fun h2 => execCmdUnpin_clears hb hsubj hr he hq h2⟩
  case window =>
    intro n hr hrow h2 hcount hread ha hn hok
    obtain ⟨hreg, hmay⟩ := hr
    have hexec := execCmdWindow_installs hb hsubj hreg hmay hrow h2 hcount hread ha hn hok
    simp only [windowsOf, List.map_map] at hexec
    exact hexec
  case ends =>
    intro host tx b i q im r bs rg role ring size slots n table mine dev c u hr htx hz hgrant hbook hreg htop hfree htab hrole
      hone hinst hring hnodup hentries
    subst htx
    let e := endSpecOf host a0 a1 a2
    have he : e = _ := endSpecOf_eq host a0 a1 a2
    have hu : s.withEnd e rg q im = u := by
      rw [he]
      cases host <;> rfl
    have hfault : s.endFault (s.bookBytes b) e (some i) rg (some (q, im)) = none := by
      refine endFault_none (r := r) ?_ ?_ htab ?_ ?_ ?_ ?_
      all_goals rw [he]
      · exact htop
      · exact hfree
      · exact hrole
      · exact hone
      · exact hring
      · cases host
        · exact hgrant.2.2
        · exact ⟨hgrant.2.1, hgrant.2.2.2⟩
    have hmake : s.queueEnd e rg = .ok u := by
      rw [← hu] at hnodup hentries ⊢
      exact queueEnd_makes hbook hreg (by rw [he]; exact hinst) hfault hnodup hentries
    refine execCmdEnds_makes hb hsubj rfl (endSpecFault_none hz ?_) ?_ rfl hr.1 hr.2 hmake rfl
    · cases host <;> exact hgrant.1
    · rw [← show e = endSpecOf host a0 a1 a2 from rfl, he]
      cases host
      · exact hgrant.2.1
      · exact hgrant.2.2.1
  case cue =>
    intro f compl g cues hz hmay hpers hf
    have hg : fieldOf a0 0 4 = g := fieldOf_low a0 4
    obtain ⟨hclear, hadd⟩ := execCmdCue_admitted hb hsubj hg hz hmay hpers hf
    refine ⟨hclear, fun h63 hz2 hal hlen hmem => ?_⟩
    have hal' : fieldOf a2 0 40 % 8 = 0 := by
      rw [fieldOf_low]
      omega
    have hcues := hadd compl h63 hz2 hal' hlen (by rwa [fieldOf_low])
    rw [cueOf_eq] at hcues
    exact hcues
  case mkey =>
    intro g i x key len hz hz' hmay hpers hi
    have hg : fieldOf a0 0 4 = g := fieldOf_low a0 4
    have hlen : fieldOf a2 0 32 = len := fieldOf_low a2 32
    have hop : fieldOf a0 62 2 = k / 2 ^ 62 := fieldOf_top rfl
    refine ⟨fun l h0 hbase hrow hz2 hal hmin hmax hmem hv => ?_, fun h1 ha1 ha2 hv => ?_⟩
    · rw [← hlen] at hal hmin hmax hmem
      have hreg := execCmdMkey_registers hb hsubj hg rfl hz hz' (hop.trans h0) hmay hpers hi hbase hrow hz2
        (lengthOk_ofNat hal hmin hmax) hmem hv
      rw [hlen] at hreg
      exact hreg
    · exact execCmdMkey_invalidates hb hsubj hg rfl hz hz' (hop.trans h1) hmay hpers hi ha1 ha2 hv

end Sys2Proof.Machine
end

section
/-! SUPPORT. O10: register arithmetic on unbounded integers (R104, R105, Table 5.2). -/

namespace Sys2Proof.Machine

/-! Shifts and compares -/

theorem sshiftRight_eq_ofInt (x : Word) (n : Nat) : x.sshiftRight n = BitVec.ofInt 64 (x.toInt / 2 ^ n) := by
  rw [BitVec.sshiftRight, Int.shiftRight_eq_div_pow]
  norm_cast

theorem rotateRight_eq_ofNat (x : Word) (n : Nat) :
    rotateRight x n = BitVec.ofNat 64 (x.toNat / 2 ^ n) ||| BitVec.ofNat 64 (x.toNat * 2 ^ (64 - n)) := by
  rw [rotateRight, shiftRight_eq_ofNat, shiftLeft_eq_ofNat]

theorem flag_decide (P : Prop) [Decidable P] : flag (decide P) = if P then 1 else 0 := by
  simp [flag]

/-! The lesser and the greater -/

section
variable {α : Type} [LinearOrder α] {num : Word → α} {word : α → Word}

theorem lesser_eq_min (hnum : ∀ x, word (num x) = x) (x y : Word) :
    (if decide (num x < num y) then x else y) = word (min (num x) (num y)) := by
  by_cases h : num x < num y
  · simp [h, min_eq_left_of_lt, hnum]
  · simp [h, min_eq_right (not_lt.1 h), hnum]

theorem greater_eq_max (hnum : ∀ x, word (num x) = x) (x y : Word) :
    (if decide (num x < num y) then y else x) = word (max (num x) (num y)) := by
  by_cases h : num x < num y
  · simp [h, max_eq_right_of_lt, hnum]
  · simp [h, max_eq_left (not_lt.1 h), hnum]

end

/-! Products -/

theorem mul_eq_ofInt (x y : Word) : x * y = BitVec.ofInt 64 (x.toInt * y.toInt) := by
  rw [BitVec.ofInt_mul, BitVec.ofInt_toInt, BitVec.ofInt_toInt]

/-! Quotients and remainders (R105) -/

/-- TDiv: the quotient of two integers, truncated toward zero. -/
def truncDiv (n e : Int) : Int := if (n < 0) = (e < 0) then n.natAbs / e.natAbs else -(n.natAbs / e.natAbs)

theorem tdiv_eq_truncDiv : ∀ n e : Int, n.tdiv e = truncDiv n e
  | .ofNat m, .ofNat k => by simp [truncDiv, (Int.natCast_nonneg _).not_gt]
  | .ofNat m, .negSucc k => by simp [truncDiv, Int.tdiv, Int.negSucc_lt_zero]
  | .negSucc m, .ofNat k => by simp [truncDiv, Int.tdiv, Int.negSucc_lt_zero]
  | .negSucc m, .negSucc k => by simp [truncDiv, Int.tdiv, Int.negSucc_lt_zero]

theorem toInt_eq_zero_iff (x : Word) : x.toInt = 0 ↔ x = 0 := by
  rw [← BitVec.toInt_inj]; simp

/-- A quotient other than that of the least number and −1 is within the range of signed words. -/
theorem tdiv_bounds {n d : Word} (h : ¬ (n = BitVec.intMin 64 ∧ d = BitVec.allOnes 64)) :
    -(2 ^ 63) ≤ n.toInt.tdiv d.toInt ∧ n.toInt.tdiv d.toInt ≤ 2 ^ 63 - 1 := by
  rw [← BitVec.toInt_sdiv_of_ne_or_ne n d (by rwa [BitVec.neg_one_eq_allOnes, ← not_and_or])]
  exact ⟨BitVec.le_toInt _, BitVec.toInt_le⟩

theorem divS_eq_ofInt (n d : Word) :
    divS n d = BitVec.ofInt 64
      (if d.toInt = 0 then (if 0 < n.toInt then 2 ^ 63 - 1 else if n.toInt < 0 then -(2 ^ 63) else 0)
       else max (-(2 ^ 63)) (min (truncDiv n.toInt d.toInt) (2 ^ 63 - 1))) := by
  unfold divS
  simp only [toInt_eq_zero_iff]
  split
  · by_cases hn : n = 0
    · subst hn; rfl
    · have hne := mt (toInt_eq_zero_iff n).1 hn
      rw [if_neg hn, BitVec.msb_eq_toInt]
      by_cases hneg : n.toInt < 0
      · rw [if_pos (decide_eq_true hneg), if_neg (not_lt_of_gt hneg), if_pos hneg]
        rfl
      · rw [if_neg (by simpa using hneg), if_pos (by omega)]
        rfl
  · split
    next hmin =>
      obtain ⟨rfl, rfl⟩ := hmin
      decide
    next hmin =>
      obtain ⟨hlow, hhigh⟩ := tdiv_bounds hmin
      rw [← tdiv_eq_truncDiv, min_eq_left hhigh, max_eq_right hlow]

theorem remS_eq_ofInt (n d : Word) :
    remS n d = BitVec.ofInt 64 (if d.toInt = 0 then 0 else n.toInt - d.toInt * truncDiv n.toInt d.toInt) := by
  simp only [remS, toInt_eq_zero_iff, tdiv_eq_truncDiv]
  split <;> rfl

theorem toNat_eq_zero_iff (x : Word) : x.toNat = 0 ↔ x = 0 := (BitVec.toNat_eq (x := x) (y := 0)).symm

theorem divU_eq_ofNat (n d : Word) :
    divU n d = BitVec.ofNat 64
      (if d.toNat = 0 then (if n.toNat = 0 then 0 else 2 ^ 64 - 1) else n.toNat / d.toNat) := by
  simp only [divU, toNat_eq_zero_iff]
  split
  · split <;> rfl
  · rfl

theorem remU_eq_ofNat (n d : Word) :
    remU n d = BitVec.ofNat 64 (if d.toNat = 0 then 0 else n.toNat % d.toNat) := by
  simp only [remU, toNat_eq_zero_iff]
  split <;> rfl

/-! Counts of bits -/

theorem leadingZeros_spec (x : Word) :
    if x = 0 then leadingZeros x = 64
    else leadingZeros x < 64 ∧ x.getLsbD (63 - leadingZeros x) = true ∧
      ∀ j, 63 - leadingZeros x < j → x.getLsbD j = false := by
  split
  next h => exact if_pos h
  next h =>
    have hne : x.toNat ≠ 0 := mt (toNat_eq_zero_iff x).1 h
    have hlog : x.toNat.log2 < 64 := (Nat.log2_lt hne).2 x.isLt
    rw [leadingZeros, if_neg h, show 63 - (63 - x.toNat.log2) = x.toNat.log2 by omega]
    refine ⟨by omega, Nat.testBit_log2 hne, fun j hj => ?_⟩
    exact Nat.testBit_lt_two_pow ((Nat.log2_lt hne).1 hj)

theorem lowBit_spec (x : Word) :
    if x = 0 then lowBit x = 64
    else lowBit x < 64 ∧ x.getLsbD (lowBit x) = true ∧ ∀ j, j < lowBit x → x.getLsbD j = false := by
  unfold lowBit
  cases hf : (List.range 64).find? fun i => x.getLsbD i with
  | none =>
    have hzero : x = 0 := BitVec.eq_of_getLsbD_eq fun i hi => by
      simpa using List.find?_eq_none.1 hf i (List.mem_range.2 hi)
    rw [if_pos hzero]
    rfl
  | some n =>
    rw [List.range_eq_range', List.find?_range'_eq_some] at hf
    obtain ⟨hbit, hmem, hbelow⟩ := hf
    have hne : x ≠ 0 := by
      rintro rfl
      simp at hbit
    rw [if_neg hne]
    refine ⟨?_, hbit, fun j hj => ?_⟩
    · simpa using hmem
    · simpa using hbelow j (Nat.zero_le j) hj

theorem ones_eq_countP (x : Word) : ones x = (List.range 64).countP fun i => x.getLsbD i :=
  List.countP_eq_length_filter.symm

/-! Extensions -/

theorem signExtend_low (x : Word) (n : Nat) :
    (x.extractLsb' 0 n).signExtend 64 = BitVec.ofInt 64 (BitVec.ofNat n x.toNat).toInt := by
  simp [BitVec.extractLsb', BitVec.signExtend]

theorem zeroExtend_low (x : Word) : (x.extractLsb' 0 32).setWidth 64 = BitVec.ofNat 64 (x.toNat % 2 ^ 32) := by
  apply BitVec.eq_of_toNat_eq
  simp

/-- Settles O10: each instruction is a register form, whose result is the reduced integer of Table 5.2. -/
theorem registerArithmetic : Obligations.RegisterArithmetic := by
  unfold Obligations.RegisterArithmetic
  intro s p d a b hc x y sh n e q res
  have hsigned (v : Word) : BitVec.ofInt 64 v.toInt = v := BitVec.ofInt_toInt
  have hunsigned (v : Word) : BitVec.ofNat 64 v.toNat = v := by simp
  refine ⟨alu_completes hc rfl (add_eq_ofNat x y), alu_completes hc rfl (sub_eq_ofInt x y), alu_completes hc rfl rfl,
    alu_completes hc rfl rfl, alu_completes hc rfl rfl, alu_completes hc rfl rfl,
    alu_completes hc rfl (shiftLeft_eq_ofNat x sh), alu_completes hc rfl (shiftRight_eq_ofNat x sh),
    alu_completes hc rfl (sshiftRight_eq_ofInt x sh), alu_completes hc rfl (rotateRight_eq_ofNat x sh),
    alu_completes hc rfl (flag_decide (n < e)), alu_completes hc rfl (flag_decide (x.toNat < y.toNat)),
    alu_completes hc rfl (lesser_eq_min hsigned x y), alu_completes hc rfl (greater_eq_max hsigned x y),
    alu_completes hc rfl (lesser_eq_min hunsigned x y), alu_completes hc rfl (greater_eq_max hunsigned x y),
    alu_completes hc rfl (mul_eq_ofInt x y), alu_completes hc rfl rfl, alu_completes hc rfl rfl,
    alu_completes hc rfl rfl,
    alu_completes hc rfl (divS_eq_ofInt x y), alu_completes hc rfl (divU_eq_ofNat x y),
    alu_completes hc rfl (remS_eq_ofInt x y), alu_completes hc rfl (remU_eq_ofNat x y),
    ⟨leadingZeros x, alu_completes hc rfl rfl, leadingZeros_spec x⟩,
    ⟨lowBit x, alu_completes hc rfl rfl, lowBit_spec x⟩,
    alu_completes hc rfl (congrArg (BitVec.ofNat 64) (ones_eq_countP x)), alu_completes hc rfl (signExtend_low x 8),
    alu_completes hc rfl (signExtend_low x 16), alu_completes hc rfl (signExtend_low x 32),
    alu_completes hc rfl (zeroExtend_low x)⟩

end Sys2Proof.Machine
end

section
/-! SUPPORT. O11, O12: immediate forms (R106–R108), branches and jumps (R113, R114, R117). -/

namespace Sys2Proof.Machine

/-! Immediates -/

theorem flag_slt_signExtend (x : Word) {n : Nat} (h : n ≤ 64) (imm : BitVec n) :
    flag (x.slt (imm.signExtend 64)) = if x.toInt < imm.toInt then 1 else 0 := by
  rw [BitVec.slt, BitVec.toInt_signExtend_of_le h, flag_decide]

theorem signExtend_page_eq_ofInt (imm : BitVec 20) :
    (imm.signExtend 64 * 4096 : Word) = BitVec.ofInt 64 (imm.toInt * 4096) := by
  rw [BitVec.ofInt_mul]
  rfl

theorem add_page_eq_ofInt (pc : Word) (imm : BitVec 20) :
    pc + imm.signExtend 64 * 4096 = BitVec.ofInt 64 (pc.toNat + imm.toInt * 4096) := by
  rw [signExtend_page_eq_ofInt, BitVec.ofInt_add, BitVec.ofInt_natCast, BitVec.ofNat_toNat, BitVec.setWidth_eq]

/-- Settles O11: each form is a register form with the extended immediate as its second operand. -/
theorem immediateForms : Obligations.ImmediateForms := by
  unfold Obligations.ImmediateForms
  intro s p d a imm sh u hc x i res
  exact ⟨alu_completes hc rfl (add_signExtend_eq_ofInt x imm), alu_completes hc rfl rfl, alu_completes hc rfl rfl,
    alu_completes hc rfl rfl, alu_completes hc rfl (flag_slt_signExtend x (by decide) imm),
    alu_completes hc rfl (flag_decide (x.toNat < i.toNat)), alu_completes hc rfl (shiftLeft_eq_ofNat x sh.toNat),
    alu_completes hc rfl (shiftRight_eq_ofNat x sh.toNat), alu_completes hc rfl (sshiftRight_eq_ofInt x sh.toNat),
    alu_completes hc rfl (signExtend_page_eq_ofInt u), alu_completes hc rfl (add_page_eq_ofInt p.pc u)⟩

/-! Branches and jumps -/

/-- A jump that writes a link (R114). -/
theorem link_completes {i : Instr} {s : State} {p : Proc} {d : XIdx} {target : Proc → Word} {t : Word}
    (h : s.cpu = some p) (he : exec i s = s.withProc fun q => s.done ((q.setX d (q.pc + 4)).jump (target q)))
    (ht : target p = t) : Completes i s (atTarget (p.setX d (p.pc + 4)) t) := by
  subst ht
  exact he.trans (withProc_some h _)

/-- Settles O12: the conditions of Table 5.5 as orders of integers, and the jumps by what they write. -/
theorem branchesAndJumps : Obligations.BranchesAndJumps := by
  unfold Obligations.BranchesAndJumps
  intro s p d a b off imm u o11 hc x y branch
  have branches {i : Instr} {c : Proc → Bool} {P : Prop} [Decidable P] (he : exec i s = s.branch 4 (halves off) c)
      (hcond : c p = decide P) : Completes i s (branch P) :=
    branch_completes hc he hcond (add_halves_eq_ofInt p.pc off)
  refine ⟨branches rfl ?_, branches rfl ?_, branches rfl rfl, branches rfl ?_, branches rfl rfl, branches rfl ?_,
    link_completes hc rfl (add_halves_eq_ofInt p.pc u), link_completes hc rfl ?_, ?_, moves_on hc rfl, ?_, ?_⟩
  · exact Bool.beq_eq_decide_eq x y
  · exact (congrArg not (Bool.beq_eq_decide_eq x y)).trans decide_not.symm
  · exact BitVec.sle_eq_not_slt.symm
  · exact (BitVec.ule_eq_not_ult y x).symm
  · rw [add_signExtend_eq_ofInt]
  · simpa only [if_true] using
      branch_completes (P := True) (c := fun _ => true) hc rfl rfl (add_halves_eq_ofInt p.pc o11)
  · decide
  · decide

end Sys2Proof.Machine
end

section
/-! SUPPORT. O18, O19: copies given up (R124), control registers (R120, R121). -/

namespace Sys2Proof.Machine

/-- Settles O18: the copies of the core are filtered, and nothing else of it changes. -/
theorem iflDropsCopies : Obligations.IflDropsCopies := by
  intro s p a b hc
  have hid : ((s.core p.core).dropCopies (p.getX a).toNat (p.getX b).toNat).id = p.core := State.core_id s p.core
  have hsame := State.core_modCore_same s p.core (fun k => k.dropCopies (p.getX a).toNat (p.getX b).toNat) hid
  refine ⟨{ s.modCore p.core fun k => k.dropCopies (p.getX a).toNat (p.getX b).toNat with cpu := some (behind p 4) },
    withProc_some hc _, rfl, fun c hne => ?_, fun x => ?_, ?_, ?_⟩
  · exact State.core_modCore_other s (fun k => k.dropCopies (p.getX a).toNat (p.getX b).toNat) hid hne
  · refine (congrArg (x ∈ ·.copies) hsame).to_iff.trans ?_
    simp only [Core.dropCopies, List.mem_filter, Bool.not_eq_true', Bool.and_eq_false_iff, decide_eq_false_iff_not]
    tauto
  · exact (congrArg Core.early hsame :)
  · exact (congrArg Core.records hsame :)

/-! Control registers -/

theorem exec_csrw (c : Csr) (a : XIdx) (s : State) : exec (.csrw c a) s = s.csrWrite 0 c fun p _ => p.getX a := rfl

theorem exec_csrs (d : XIdx) (c : Csr) (a : XIdx) (s : State) :
    exec (.csrs d c a) s = s.csrWrite d c fun p old => old ||| p.getX a := rfl

theorem exec_csrc (d : XIdx) (c : Csr) (a : XIdx) (s : State) :
    exec (.csrc d c a) s = s.csrWrite d c fun p old => old &&& ~~~p.getX a := rfl

/-- A write form of a register that a process may write (R120). -/
theorem csrWrite_completes {i : Instr} {s : State} {p q : Proc} {d : XIdx} {c : Csr} {f : Proc → Word → Word}
    (h : s.cpu = some p) (he : exec i s = s.csrWrite d c f) (hw : csrWritable c = true)
    (hq : p.writeCsr c (f p (s.readCsr p c)) = q) : Completes i s (behind (q.setX d (s.readCsr q c)) 4) := by
  subst hq
  unfold Completes
  rw [he, State.csrWrite, withProc_some h, if_pos hw]
  rfl

/-- A write form of any other register raises PRIVILEGE (R121). -/
theorem csrWrite_raises {i : Instr} {s : State} {p : Proc} {d : XIdx} {c : Csr} {f : Proc → Word → Word}
    (h : s.cpu = some p) (he : exec i s = s.csrWrite d c f) (hw : csrWritable c = false) :
    ∃ d0 d1, exec i s = .next ({ s with free := s.free + 2 }.raise p .privilege (some 4) 0 d0 d1) := by
  refine ⟨Config.detail s.free, Config.detail (s.free + 1), ?_⟩
  rw [he, State.csrWrite, withProc_some h, hw]
  rfl

theorem csrWritable_eq_false {c : Csr} (hmode : c ≠ .fpmode) (hflags : c ≠ .fpflags) : csrWritable c = false := by
  unfold csrWritable
  split
  · contradiction
  · contradiction
  · rfl

theorem field_priv (r : Priv) : field 19 r.num = if r = .s then 2 ^ 19 else 0 := by
  cases r <;> rfl

/-- Settles O19: each register's value field by field, then the write forms by whether the register may be written. -/
theorem csrEffects : Obligations.CsrEffects := by
  unfold Obligations.CsrEffects
  intro s p d a hc x k here mode flags bits value
  have hvalue (c : Csr) : s.readCsr p c = value c := by
    cases c with
    | region => exact congrArg (fun n => BitVec.ofNat 64 (n + _ + p.region)) (field_priv p.priv)
    | memst =>
      simp only [value, List.countP_eq_length_filter]
      rfl
    | msreq =>
      simp only [value, List.countP_eq_length_filter]
      rfl
    | _ => rfl
  refine ⟨fun c => alu_completes hc rfl (hvalue c),
    csrWrite_completes (q := mode x) hc (exec_csrw _ a s) rfl rfl,
    csrWrite_completes (q := flags x) hc (exec_csrw _ a s) rfl rfl,
    csrWrite_completes (q := mode (p.fpmode.setWidth 64 ||| x)) hc (exec_csrs d _ a s) rfl rfl,
    csrWrite_completes (q := flags (p.fpflags.setWidth 64 ||| x)) hc (exec_csrs d _ a s) rfl rfl,
    csrWrite_completes (q := mode (p.fpmode.setWidth 64 &&& ~~~x)) hc (exec_csrc d _ a s) rfl rfl,
    csrWrite_completes (q := flags (p.fpflags.setWidth 64 &&& ~~~x)) hc (exec_csrc d _ a s) rfl rfl,
    fun c hmode hflags i hi => ?_⟩
  · have hw := csrWritable_eq_false hmode hflags
    rcases hi with rfl | rfl | rfl
    · exact csrWrite_raises hc (exec_csrw c a s) hw
    · exact csrWrite_raises hc (exec_csrs d c a s) hw
    · exact csrWrite_raises hc (exec_csrc d c a s) hw

end Sys2Proof.Machine
end

section
/-! SUPPORT. Loaded values as integers (R109), and O14: loads of the own memory. -/

namespace Sys2Proof.Machine

/-! Loaded values -/

theorem ofInt_sub_wordBase (a : Int) : BitVec.ofInt 64 (a - 2 ^ 64) = BitVec.ofInt 64 a := by
  rw [Int.sub_eq_add_neg, BitVec.ofInt_add]
  exact BitVec.add_zero _

/-- Sign extension takes the weight of the next bit away where the highest bit is 1. -/
theorem extend_eq_ofInt (signed : Bool) {n v : Nat} (hn : n ≤ 8) :
    extend signed n v = if signed = true ∧ 2 ^ (8 * n - 1) ≤ v then BitVec.ofInt 64 (v - (2 : Int) ^ (8 * n))
      else BitVec.ofNat 64 v := by
  unfold extend
  by_cases hneg : signed = true ∧ 2 ^ (8 * n - 1) ≤ v
  · rw [if_pos hneg]
    rcases hn.lt_or_eq with hlt | rfl
    · have hle : 2 ^ (8 * n) ≤ 2 ^ 64 := Nat.pow_le_pow_right (by decide) (by omega)
      have hval : ((v + 2 ^ 64 - 2 ^ (8 * n) : Nat) : Int) - 2 ^ 64 = v - (2 : Int) ^ (8 * n) := by
        rw [Nat.cast_sub (hle.trans (Nat.le_add_left _ _))]
        push_cast
        ring
      rw [if_pos ⟨hneg.1, hlt, hneg.2⟩, ← hval, ofInt_sub_wordBase, BitVec.ofInt_natCast]
    · rw [if_neg (by omega), ofInt_sub_wordBase, BitVec.ofInt_natCast]
  · rw [if_neg hneg, if_neg fun h => hneg ⟨h.1, h.2.2⟩]

/-- A value of n bytes, sign-extended, is the signed number of its bits. -/
theorem extend_signed {n v : Nat} (hpos : 0 < n) (hn : n ≤ 8) (hv : v < 2 ^ (8 * n)) :
    extend true n v = BitVec.ofInt 64 (BitVec.ofNat (8 * n) v).toInt := by
  have hdouble : 2 ^ (8 * n) = 2 * 2 ^ (8 * n - 1) := by
    rw [← Nat.pow_succ', show (8 * n - 1).succ = 8 * n by omega]
  rw [extend_eq_ofInt true hn, BitVec.toInt_eq_toNat_cond, BitVec.toNat_ofNat, Nat.mod_eq_of_lt hv]
  by_cases hneg : 2 ^ (8 * n - 1) ≤ v
  · rw [if_pos ⟨rfl, hneg⟩, if_neg (by omega)]
    push_cast
    rfl
  · rw [if_neg (by tauto), if_pos (by omega), BitVec.ofInt_natCast]

theorem extend_unsigned (n v : Nat) : extend false n v = BitVec.ofNat 64 v := if_neg (by simp)

theorem extend_word (signed : Bool) (v : Nat) : extend signed 8 v = BitVec.ofNat 64 v := if_neg (by omega)

theorem Memory.read_lt_two_pow (m : Memory) (a n : Nat) : m.read a n < 2 ^ (8 * n) := by
  rw [Nat.pow_mul]
  exact m.read_lt a n

theorem extend_read {n : Nat} (hpos : 0 < n) (hn : n ≤ 8) (m : Memory) (a : Nat) :
    extend true n (m.read a n) = BitVec.ofInt 64 (BitVec.ofNat (8 * n) (m.read a n)).toInt :=
  extend_signed hpos hn (m.read_lt_two_pow a n)

/-! Displacements of the compact forms -/

theorem setWidth_mul_eq_ofNat (k : Nat) (off : BitVec 5) :
    (off.setWidth 64 * BitVec.ofNat 64 k : Word) = BitVec.ofNat 64 (k * off.toNat) := by
  apply BitVec.eq_of_toNat_eq
  simp [Nat.mul_comm]

/-! Loads of the own memory -/

/-- A load of the own memory that nothing holds back ends with what it sees there. -/
theorem load_sees {s : State} {p : Proc} {ea : Word} {n : Nat} (d : XIdx) (signed : Bool) (len : Nat) (kind : AKind)
    (hi : Issues s p) (hheld : ∀ t, s.heldBack p.core t = false) (hearly : (s.core p.core).early = [])
    (h : OwnAccess s p ea n .rd) : s.load p d ea n signed len kind =
      .next (s.loadDone p d n signed ea.toNat len (kind == .acq) (s.seen p.core p.pid ea.toNat (homeAt p ea) n)
        (s.seenMarked p.core p.pid ea.toNat (homeAt p ea) n)) := by
  have hnone : s.early? p.core p.pc ea.toNat n = none := by simp [State.early?, hearly]
  unfold State.load
  rcases hi.2 with hw | hw <;>
    simp only [hw, check_own 0 h, target_own h.2.2, hheld, hnone, ite_self, Bool.false_eq_true, if_false,
      dropEarly_quiet hearly, homeAt]

/-- A load whose granules are sound writes its register and moves on. -/
theorem State.loadDone_good {s : State} {p : Proc} (h : s.cpu = some p) (hearly : (s.core p.core).early = []) (d : XIdx)
    (n : Nat) (signed : Bool) (addr len : Nat) (acq : Bool) (val : Nat) :
    s.loadDone p d n signed addr len acq val false =
      { s with cpu := some (behind (p.setX d (extend signed n val)) len) } := by
  have hput := putProc_cpu (q := (p.setX d (extend signed n val)).advance len) h
    (show (p.setX d (extend signed n val)).pid = p.pid from (Proc.setX_frame _ _ _).1)
  simp only [State.loadDone, Bool.false_eq_true, if_false, clearEarly_quiet hearly, ite_self, hput]
  rfl

theorem State.ldX_eq_load {s : State} {p : Proc} (h : s.cpu = some p) (d a : XIdx) (off : BitVec 12) (n : Nat)
    (signed : Bool) (len : Nat) : s.ldX d a (off.signExtend 64) n signed len =
      s.load p d (p.getX a + off.signExtend 64) n signed len .ord := withProc_some h _

theorem State.ldX_short_eq_load {s : State} {p : Proc} (h : s.cpu = some p) (c e : BitVec 3) (k : Nat) (off : BitVec 5)
    (n : Nat) (signed : Bool) (len : Nat) :
    s.ldX (short c) (short e) (off.setWidth 64 * BitVec.ofNat 64 k) n signed len =
      s.load p (BitVec.ofNat 5 (c.toNat + 4)) (p.getX (BitVec.ofNat 5 (e.toNat + 4)) + BitVec.ofNat 64 (k * off.toNat)) n
        signed len .ord := by
  rw [← short_eq_ofNat, ← short_eq_ofNat, ← setWidth_mul_eq_ofNat]
  exact withProc_some h _

section
variable {s : State} {p : Proc} {i : Instr} {d : XIdx} {ea : Word} {n len : Nat} {signed : Bool} {v : Word}

/-- A load of the own memory on a quiet core completes with the value of its bytes. -/
theorem ownLoad_completes (kind : AKind) (hi : Issues s p) (hq : Quiet s p.core)
    (he : exec i s = s.load p d ea n signed len kind)
    (hok : OwnAccess s p ea n .rd ∧ Sound s (homeAt p ea) n) (hv : extend signed n (s.mem.read (homeAt p ea) n) = v) :
    Completes i s (behind (p.setX d v) len) := by
  subst hv
  exact he.trans (load_own d signed len kind hi hq hok.1 hok.2)

end

/-- Settles O14: every form is a load of its width, and the bytes read are extended as the form says. -/
theorem ownLoadsComplete : Obligations.OwnLoadsComplete := by
  unfold Obligations.OwnLoadsComplete
  intro s p d a off sz c e o5 hi hq ea mem ok res
  have hea : p.getX a + off.signExtend 64 = ea := add_signExtend_eq_ofInt (p.getX a) off
  have loads {i : Instr} {n : Nat} {signed : Bool} {v : Word} (he : exec i s = s.ldX d a (off.signExtend 64) n signed 4)
      (hv : extend signed n (mem ea n) = v) (hok : ok ea n) : Completes i s (res v) := by
    refine ownLoad_completes .ord hi hq (he.trans ?_) hok hv
    rw [State.ldX_eq_load hi.1, hea]
  refine ⟨loads rfl (extend_read (by decide) (by decide) _ _), loads rfl (extend_read (by decide) (by decide) _ _),
    loads rfl (extend_read (by decide) (by decide) _ _), loads rfl (extend_word _ _), loads rfl (extend_unsigned _ _),
    loads rfl (extend_unsigned _ _), loads rfl (extend_unsigned _ _), fun hok => ?_, fun hok => ?_, fun hok => ?_⟩
  · exact ownLoad_completes .acq hi hq (withProc_some hi.1 _) hok (extend_unsigned _ _)
  · exact ownLoad_completes .ord hi hq (State.ldX_short_eq_load hi.1 c e 8 o5 8 true 2) hok (extend_word _ _)
  · exact ownLoad_completes .ord hi hq (State.ldX_short_eq_load hi.1 c e 4 o5 4 true 2) hok
      (extend_read (by decide) (by decide) _ _)

end Sys2Proof.Machine
end

section
/-! SUPPORT. O15: stores of the own memory on their way (R100, R109), and the load that sees one (R111). -/

namespace Sys2Proof.Machine

/-! Stores that the path accepts -/

/-- The one write with which a store to the own memory sets out. -/
def State.ownWrite (s : State) (p : Proc) (ea : Word) (n : Nat) (kind : AKind) (v : Nat) (fe : Option Bool) : Packet :=
  p.packet s.nextId ea n (dieOf p.core) .own kind
    (.write { addr := homeAt p ea, n := n, val := v % 2 ^ (8 * n), fe := fe, author := some (s.author p ea) })
    ((s.core p.core).remote - 1)

/-- The state in which a store of the own memory has been accepted. -/
def State.accepting (s : State) (p : Proc) (q : Packet) (len : Nat) : State :=
  { s with cpu := some (behind p len), nextId := s.nextId + 1, packets := s.packets ++ [q] }

theorem State.storeInstr_accepts {s : State} {p : Proc} {ea : Word} {n : Nat} (hq : Quiet s p.core)
    (h : OwnAccess s p ea n .wr) (v : Word) (len : Nat) (kind : AKind) :
    s.storeInstr p ea n v len kind = .next (s.accepting p (s.ownWrite p ea n kind v.toNat none) len) :=
  storeInstr_own v len kind hq h

theorem State.store_own {s : State} {p : Proc} (hc : s.cpu = some p) (hearly : (s.core p.core).early = []) (ea : Word)
    (n : Nat) (kind : AKind) (v : Nat) (fe : Option Bool) (len : Nat) :
    ({ s with cpu := some p }.store p ea n (.own (homeAt p ea)) kind v fe false).done (p.advance len) =
      .next (s.accepting p (s.ownWrite p ea n kind v fe) len) := by
  have hself : ({ s with cpu := some p } : State) = s := by rw [← hc]
  simp only [hself, State.store, dropEarly_quiet hearly, Target.remote, State.dispatchPacket, State.freshId, State.done]
  rfl

theorem State.releaseStalls_none {s : State} {p : Proc} (h : ∀ q ∈ s.packets, q.pid ≠ p.pid) :
    s.releaseStalls p = false := by
  rw [State.releaseStalls, List.any_eq_false]
  intro q hq
  simp [h q hq]

theorem State.stX_eq_storeInstr {s : State} {p : Proc} (h : s.cpu = some p) (b a : XIdx) (off : BitVec 12) (n len : Nat) :
    s.stX b a (off.signExtend 64) n len = s.storeInstr p (p.getX a + off.signExtend 64) n (p.getX b) len .ord :=
  withProc_some h _

theorem State.stX_short_eq_storeInstr {s : State} {p : Proc} (h : s.cpu = some p) (c e : BitVec 3) (k : Nat)
    (off : BitVec 5) (n len : Nat) :
    s.stX (short c) (short e) (off.setWidth 64 * BitVec.ofNat 64 k) n len =
      s.storeInstr p (p.getX (BitVec.ofNat 5 (e.toNat + 4)) + BitVec.ofNat 64 (k * off.toNat)) n
        (p.getX (BitVec.ofNat 5 (c.toNat + 4))) len .ord := by
  rw [← short_eq_ofNat, ← short_eq_ofNat, ← setWidth_mul_eq_ofNat]
  exact withProc_some h _

/-- A release of the own memory that nothing holds back is a store (R246). -/
theorem execStrl_eq_storeInstr {s : State} {p : Proc} (h : s.cpu = some p) (hpid : ∀ q ∈ s.packets, q.pid ≠ p.pid)
    (sz : Width) (b a : XIdx) : exec (.strl sz b a) s = s.storeInstr p (p.getX a) (bytesOf sz) (p.getX b) 4 .rel := by
  refine (withProc_some h _).trans ?_
  simp only [State.releaseStalls_none hpid, Bool.and_false, Bool.false_eq_true, if_false]

/-- `stf` to the own memory sets out as a write that fills its word (R243). -/
theorem execStf_accepts {s : State} {p : Proc} {b a : XIdx} (hc : s.cpu = some p) (hq : Quiet s p.core)
    (hpid : ∀ q ∈ s.packets, q.pid ≠ p.pid) (h : OwnAccess s p (p.getX a) 8 .wr) : exec (.stf b a) s =
      .next (s.accepting p (s.ownWrite p (p.getX a) 8 .rel (p.getX b).toNat (some true)) 4) := by
  refine (withProc_some hc _).trans ?_
  simp only [State.syncCheck, target_own h.2.2, check_own 1 h, heldBack_quiet _ hq.1, State.releaseStalls_none hpid,
    Bool.or_self, Bool.false_eq_true, if_false]
  exact State.store_own hc hq.2 _ _ _ _ _ _

/-! A load behind a store (R111) -/

theorem State.seen_eq_mod {s : State} {core pid n used home v : Nat}
    (h : ∀ i, i < n → s.seenByte core pid (used + i) (home + i) = BitVec.ofNat 8 (v / 256 ^ i)) :
    s.seen core pid used home n = v % 256 ^ n := by
  induction n generalizing used home v with
  | zero => simp [State.seen, Nat.mod_one]
  | succ n ih =>
    have hfirst : s.seenByte core pid used home = BitVec.ofNat 8 v := by simpa using h 0 (Nat.succ_pos n)
    have hrest : s.seen core pid (used + 1) (home + 1) n = v / 256 % 256 ^ n := ih fun i hi => by
      rw [Nat.add_assoc, Nat.add_assoc, Nat.add_comm 1 i, h (i + 1) (Nat.succ_lt_succ hi), Nat.div_div_eq_div_mul,
        ← Nat.pow_succ']
    rw [State.seen, hfirst, hrest, BitVec.toNat_ofNat, show 2 ^ 8 = 256 from rfl, Nat.pow_succ', Nat.mod_mul]

/-- The latest write of the core gives its bytes to the accesses of the core. -/
theorem State.seenByte_last {s t : State} {q : Packet} {core pid used home : Nat} {b : Byte}
    (ht : t.packets = s.packets ++ [q]) (hf : q.forwards core pid = true) (hb : q.byteFor used = some b) :
    t.seenByte core pid used home = b := by
  simp [State.seenByte, ht, hf, hb]

theorem State.byteFor_ownWrite (s : State) (p : Proc) {ea : Word} {n : Nat} (kind : AKind) (v : Nat) (fe : Option Bool)
    {i : Nat} (hi : i < n) : (s.ownWrite p ea n kind v fe).byteFor (ea.toNat + i) =
      some (BitVec.ofNat 8 (v % 2 ^ (8 * n) / 256 ^ i)) := by
  have hin : ea.toNat ≤ ea.toNat + i ∧ ea.toNat + i < ea.toNat + n := by omega
  have hpos : n ≠ 0 := by omega
  simp only [Packet.byteFor, State.ownWrite, Proc.packet, hin, and_self, if_true, hpos, if_false, Nat.add_sub_cancel_left,
    Nat.pow_mul]

/-- A load by the core of a whole doubleword that it has stored just before gives what was stored. -/
theorem State.seen_accepting (s : State) (p : Proc) (ea : Word) (v : Word) (len home : Nat) :
    (s.accepting p (s.ownWrite p ea 8 .ord v.toNat none) len).seen p.core p.pid ea.toNat home 8 = v.toNat := by
  have hsmall : v.toNat % 2 ^ (8 * 8) = v.toNat := Nat.mod_eq_of_lt v.isLt
  rw [State.seen_eq_mod (v := v.toNat), show 256 ^ 8 = 2 ^ (8 * 8) from rfl, hsmall]
  intro i hi
  refine State.seenByte_last rfl ?_ ?_
  · simp [Packet.forwards, State.ownWrite, Proc.packet]
  · rw [State.byteFor_ownWrite s p .ord v.toNat none hi, hsmall]

theorem State.heldBack_accepting {s : State} {p : Proc} (hq : Quiet s p.core) (ea : Word) (n : Nat) (kind : AKind) (v : Nat)
    (fe : Option Bool) (len : Nat) (t : Target) :
    (s.accepting p (s.ownWrite p ea n kind v fe) len).heldBack p.core t = false := by
  have hunstamped : (s.accepting p (s.ownWrite p ea n kind v fe) len).coreUnstamped p.core = false := by
    rw [State.coreUnstamped, State.accepting, List.any_append, Bool.or_eq_false_iff]
    have hown : (s.ownWrite p ea n kind v fe).unstamped = false := rfl
    exact ⟨coreUnstamped_quiet hq.1, by simp [hown]⟩
  cases t with
  | own a => exact hunstamped
  | mesh a => exact hunstamped
  | fabric d a => rfl
  | aperture g a => rfl
  | none => rfl

theorem execLdd_eq_load {s : State} {p : Proc} (h : s.cpu = some p) (d a : XIdx) (off : BitVec 12) :
    exec (.ldd d a off) s = s.load p d (p.getX a + off.signExtend 64) 8 true 4 .ord := State.ldX_eq_load h d a off 8 true 4

/-- A load at the address of a doubleword stored just before gives what was stored (R111). -/
theorem load_behind_store {s : State} {p : Proc} {ea : Word} (d : XIdx) (v : Word) (hq : Quiet s p.core)
    (hlatent : s.latent = []) (hmarks : s.marks = []) (h : OwnAccess s p ea 8 .rd) :
    (s.accepting p (s.ownWrite p ea 8 .ord v.toNat none) 4).load (behind p 4) d ea 8 true 4 .ord =
      .next { s.accepting p (s.ownWrite p ea 8 .ord v.toNat none) 4 with
        cpu := some (behind ((behind p 4).setX d v) 4) } := by
  have hgood : (s.accepting p (s.ownWrite p ea 8 .ord v.toNat none) 4).seenMarked p.core p.pid ea.toNat (homeAt p ea) 8 =
      false := by
    simp [State.seenMarked, State.marked, State.accepting, hlatent, hmarks]
  have hload := load_sees (s := s.accepting p (s.ownWrite p ea 8 .ord v.toNat none) 4) (p := behind p 4) d true 4 .ord
    ⟨rfl, .inl rfl⟩ (fun t => State.heldBack_accepting hq ea 8 .ord v.toNat none 4 t) hq.2 h
  refine hload.trans (congrArg Host.Outcome.next ?_)
  have hseen := s.seen_accepting p ea v 4 (homeAt p ea)
  rw [show (behind p 4).core = p.core from rfl, show (behind p 4).pid = p.pid from rfl,
    show homeAt (behind p 4) ea = homeAt p ea from rfl, hseen, hgood]
  refine (State.loadDone_good (s := s.accepting p (s.ownWrite p ea 8 .ord v.toNat none) 4) rfl hq.2 d 8 true _ 4 _ _).trans ?_
  rw [extend_word, BitVec.ofNat_toNat, BitVec.setWidth_eq]

/-- Settles O15: each form is a store that the path accepts; the load behind it sees the packet. -/
theorem ownStoresAccepted : Obligations.OwnStoresAccepted := by
  unfold Obligations.OwnStoresAccepted
  constructor
  · intro s p b a off sz c e o5 hi hq hpid ea v accepted
    have hea : p.getX a + off.signExtend 64 = ea := add_signExtend_eq_ofInt (p.getX a) off
    have stores {i : Instr} {ea : Word} {n : Nat} {x : Word} {kind : AKind} {len : Nat}
        (he : exec i s = s.storeInstr p ea n x len kind) : accepted i ea n x.toNat kind none len := fun h =>
      ⟨_, he.trans (State.storeInstr_accepts hq h x len kind), rfl, rfl, rfl, rfl, rfl, rfl, rfl⟩
    have displaced {i : Instr} {n : Nat} (he : exec i s = s.stX b a (off.signExtend 64) n 4) :
        accepted i ea n v .ord none 4 := stores (he.trans (hea ▸ State.stX_eq_storeInstr hi.1 b a off n 4))
    exact ⟨displaced rfl, displaced rfl, displaced rfl, displaced rfl, stores (execStrl_eq_storeInstr hi.1 hpid sz b a),
      stores (withProc_some hi.1 _),
      fun h => ⟨_, execStf_accepts hi.1 hq hpid h, rfl, rfl, rfl, rfl, rfl, rfl, rfl⟩,
      stores (State.stX_short_eq_storeInstr hi.1 c e 8 o5 8 2), stores (State.stX_short_eq_storeInstr hi.1 c e 4 o5 4 2)⟩
  · intro s p b a d e off off' hi hq hlatent hmarks ea hwr hrd hsame
    refine ⟨_, (State.stX_eq_storeInstr hi.1 b a off 8 4).trans (State.storeInstr_accepts hq hwr (p.getX b) 4 .ord), ?_⟩
    have hcpu : (s.accepting p (s.ownWrite p ea 8 .ord (p.getX b).toNat none) 4).cpu = some (behind p 4) := rfl
    refine (execLdd_eq_load hcpu d e off').trans ?_
    rw [show (behind p 4).getX e + off'.signExtend 64 = ea from hsame]
    exact load_behind_store d (p.getX b) hq hlatent hmarks ⟨hwr.1, hrd, hwr.2.2⟩

end Sys2Proof.Machine
end

section
/-! SUPPORT. O27: the release of a queued atomic (R252), and the data of a remote load (R234). -/

namespace Sys2Proof.Machine

/-! Writes of a whole doubleword -/

/-- A write of eight bytes where nothing is watched or armed meets no error: it takes the mark and the latent error away. -/
theorem State.applyWrite_unwatched {s : State} (a v : Nat) (hw : s.watches = []) (ht : s.triggers = []) :
    s.applyWrite { addr := a, n := 8, val := v, fe := none } =
      { s with mem := s.mem.write a 8 v, marks := eraseAddr (wordAt a) s.marks, latent := eraseAddr (wordAt a) s.latent } := by
  unfold State.applyWrite
  simp only [beq_self_eq_true, Bool.true_or, Bool.not_true, Bool.false_and, Bool.false_eq_true, if_false, if_true]
  exact State.noteTrigger_serveWatches_calm (by exact hw) (by exact ht) 8 a _

/-! The release of an atomic -/

theorem State.grantHome_idle {s : State} (hr : s.rsvs = []) (hw : s.watches = []) (home : Nat) : s.grantHome home = s := by
  simp [State.grantHome, hr, State.serveWatches_none hw]

/-- The process whose atomic is done takes the old word and is READY (R31). -/
theorem State.answer_wakes_amo {s : State} {p : Proc} {h : Nat} {d : XIdx} (ha : Alone s p) (hst : p.st = .blocked .sync)
    (hwait : p.wait = .amo h d) (hdie : homeDie h = dieOf p.core) (v : Word) :
    s.answer (homeDie h) p.pid (.wake p.pid v) =
      { s with procs := [s.toTail { p with wait := .none, done := some (.regs [(d, v)]) }] } := by
  have hfind : s.proc? p.pid = some p := State.proc?_single ha.1 ha.2.1
  have hin : p.inSync = true := by simp [Proc.inSync, hwait, Proc.isBlocked, hst]
  have hreg : p.syncReg = d := by simp [Proc.syncReg, hwait]
  simp only [State.answer, hfind, hdie, if_true, State.wakeSync, hin, hreg]
  exact State.wake_alone ha hst _

/-- The state in which a doubleword has been written and no request is queued. -/
def State.released (s : State) (h : Nat) (v : Word) : State :=
  { s with rsvs := [], mem := s.mem.write h 8 v.toNat, marks := eraseAddr (wordAt h) s.marks
           latent := eraseAddr (wordAt h) s.latent }

/-- The one granted atomic writes its result to a sound word, and its process is answered (R252). -/
theorem State.amoRelease_one {s : State} {h pid : Nat} {op : AmoOp} {b c : Word} (hs : Sound s h 8)
    (hr : s.rsvs = [{ addr := h, pid := pid, k := .amo op b c, granted := true }]) (hw : s.watches = [])
    (ht : s.triggers = []) :
    s.amoRelease pid = (s.released h (op.apply (s.word h) b c)).answer (homeDie h) pid (.wake pid (s.word h)) := by
  have hwrite := State.applyWrite_unwatched (s := { s with rsvs := [] }) h (op.apply (s.word h) b c).toNat hw ht
  have hidle := State.grantHome_idle (s := s.released h (op.apply (s.word h) b c)) rfl hw (homeOf h)
  have hfind : s.rsvs.find? (fun r => r.pid == pid && r.granted && r.k != RsvKind.rsv) =
      some { addr := h, pid := pid, k := .amo op b c, granted := true } := by
    simp [hr]
  have hout : s.rsvs.erase { addr := h, pid := pid, k := .amo op b c, granted := true } = [] := by
    rw [hr, List.erase_cons_head]
  simp only [State.amoRelease, hfind, hout, State.granuleBad_sound hs, Bool.false_eq_true, if_false, hwrite]
  exact congrArg (State.answer · (homeDie h) pid (.wake pid (s.word h))) hidle

/-! Data of a remote load -/

/-- The data of a load reach the process that waits for them in the active bank. -/
theorem State.takeData_running {s : State} {p : Proc} {d : XIdx} {n a len : Nat} {sg acq : Bool} (hc : s.cpu = some p)
    (hst : p.st = .running) (hwait : p.wait = .load d n sg a len acq) (hearly : (s.core p.core).early = []) (v k : Nat) :
    s.takeData v false (.slot p.pid k) = { s with cpu := some (behind (p.setX d (extend sg n v)) len) } := by
  simp only [State.takeData, State.proc?_active hc, hwait, hst, if_true, State.loadDone_good hc hearly]

/-- Settles O27: the release writes and answers; the data of a load complete it. -/
theorem releases : Obligations.Releases := by
  constructor
  · intro s p h op b c d ha hst hwait hs hr hw ht hdie hwf hsubj
    have hrelease := (State.amoRelease_one hs hr hw ht).trans
      (State.answer_wakes_amo (s := s.released h (op.apply (s.word h) b c)) ha hst hwait hdie (s.word h))
    have hexec : exec .amoRelease s = .next (s.amoRelease p.pid) :=
      congrArg (fun u => Host.Outcome.next (s.amoRelease (Subject.num u))) hsubj
    refine ⟨_, _, hexec.trans (congrArg Host.Outcome.next hrelease), rfl, rfl, rfl, ?_, fun x hx => ?_⟩
    · exact State.word_written _ hwf rfl
    · exact Memory.get_write_other hx hwf
  · intro s p k d n a len v sg acq hc hst hwait hearly hk hqueued hpath hkind hload hv hn hpos
    have hperform := State.onPacket_performs (s := { s with subj := .id k.id }) (q := k)
      (ok := fun q => q.path == .mesh && q.kind == .reply && !q.payload.parks) (fun q s =>
        match q.payload with
        | .loadRet v bad ret => s.takeData v bad ret
        | .linkRet d0 d1 ret => s.takeLink (BitVec.ofNat 64 q.used) d0 d1 ret
        | _ => s) hk hqueued (by simp [hpath, hkind, hload, Payload.parks])
    refine Eq.trans hperform ?_
    simp only [hload]
    rw [State.takeData_running (s := ({ s with subj := .id k.id } : State).dropPacket k.id) hc hst hwait hearly,
      extend_eq_ofInt sg hn]
    rfl

end Sys2Proof.Machine
end

section
/-! SUPPORT. O17: the checks of scalar accesses in their order (R109, R246, R253), and reads that meet an error (R112). -/

namespace Sys2Proof.Machine

/-! The checks -/

/-- An address of an edge group's aperture (Table 13.1). -/
def InAperture (w : Word) : Prop := 0x2000000000 ≤ w.toNat ∧ w.toNat < 0x4000000000

theorem State.target_inAperture (s : State) (core : Nat) {w : Word} (h : InAperture w) :
    s.target core w.toNat = .aperture (w.toNat / 2 ^ 33 % 16) (w.toNat % 2 ^ 33) := by
  have hlocal : ¬ w.toNat < Config.localBytes := by
    have := h.1
    simp only [Config.localBytes]
    omega
  unfold InAperture at h
  rw [State.target, if_neg hlocal, if_pos h]

/-- Elsewhere an address leads to a home or nowhere. -/
theorem State.target_outsideAperture (s : State) (core : Nat) {w : Word} (h : ¬ InAperture w) (g off : Nat) :
    s.target core w.toNat ≠ .aperture g off := by
  unfold InAperture at h
  unfold State.target
  split
  · split <;> exact nofun
  · split
    · split <;> exact nofun
    · exact nofun

section
variable {s : State} {p : Proc} {ea : Word} {n : Nat} {perm : Perm} {k : Word}

theorem State.check_misaligned (h : ea.toNat % n ≠ 0) : s.check p ea n perm k = some (.misalign, BitVec.ofNat 64 n, k) :=
  if_pos h

theorem State.check_refused (hal : ea.toNat % n = 0) (h : p.allowed s ea n perm = false) :
    s.check p ea n perm k = some (.window, BitVec.ofNat 64 n, k) := by
  rw [State.check, if_neg (not_not.2 hal), h]
  rfl

/-- Outside the aperture an access that is aligned and allowed passes every check. -/
theorem State.check_passes (hal : ea.toNat % n = 0) (h : p.allowed s ea n perm = true) (hout : ¬ InAperture ea) :
    s.check p ea n perm k = none := by
  rw [State.check, if_neg (not_not.2 hal), h]
  split
  · contradiction
  · split
    next g off htarget => exact absurd htarget (s.target_outsideAperture p.core hout g off)
    next => rfl

theorem State.syncCheck_misaligned (h : ea.toNat % 8 ≠ 0) : s.syncCheck p ea perm k = some (.misalign, 8, k) := by
  unfold State.syncCheck
  split
  · exact if_pos h
  · exact State.check_misaligned h

theorem State.syncCheck_inAperture (hal : ea.toNat % 8 = 0) (h : InAperture ea) :
    s.syncCheck p ea perm k = some (.window, 8, 5) := by
  rw [State.syncCheck, s.target_inAperture p.core h]
  exact if_neg (not_not.2 hal)

/-- Outside the aperture the checks of a full/empty, wait or reservation instruction are those of a doubleword (R253). -/
theorem State.syncCheck_outsideAperture (h : ¬ InAperture ea) : s.syncCheck p ea perm k = s.check p ea 8 perm k := by
  unfold State.syncCheck
  split
  next g off htarget => exact absurd htarget (s.target_outsideAperture p.core h g off)
  next => rfl

theorem syncCheck_own (k : Word) (h : OwnAccess s p ea 8 perm) : s.syncCheck p ea perm k = none := by
  simp only [State.syncCheck, target_own h.2.2, check_own k h]

end

/-! Instructions that a check ends -/

/-- The instruction raises a holding cause for the process. -/
def Faults (i : Instr) (s : State) (p : Proc) (c : Cause) (len : Nat) (ea d0 d1 : Word) : Prop :=
  exec i s = .next (s.raise p c (some len) ea d0 d1)

/-- What the first failing check names is what the instruction raises. -/
def RaisesChecked (i : Instr) (s : State) (p : Proc) (len : Nat) (ea : Word) (chk : Option (Cause × Word × Word)) : Prop :=
  ∀ c d0 d1, chk = some (c, d0, d1) → Faults i s p c len ea d0 d1

section
variable {i : Instr} {s : State} {p : Proc} {len : Nat} {ea : Word} {n : Nat} {perm : Perm} {k : Word}

/-- MISALIGN before WINDOW (R109). -/
theorem RaisesChecked.misalign_window (h : RaisesChecked i s p len ea (s.check p ea n perm k)) :
    (ea.toNat % n ≠ 0 → Faults i s p .misalign len ea (BitVec.ofNat 64 n) k) ∧
    (ea.toNat % n = 0 → p.allowed s ea n perm = false → Faults i s p .window len ea (BitVec.ofNat 64 n) k) :=
  ⟨fun hal => h _ _ _ (State.check_misaligned hal), fun hal hno => h _ _ _ (State.check_refused hal hno)⟩

/-- MISALIGN, then the aperture, then WINDOW (R253). -/
theorem RaisesChecked.misalign_aperture_window (h : RaisesChecked i s p 4 ea (s.syncCheck p ea perm k)) :
    (ea.toNat % 8 ≠ 0 → Faults i s p .misalign 4 ea 8 k) ∧
    (ea.toNat % 8 = 0 → InAperture ea → Faults i s p .window 4 ea 8 5) ∧
    (ea.toNat % 8 = 0 → ¬ InAperture ea → p.allowed s ea 8 perm = false → Faults i s p .window 4 ea 8 k) :=
  ⟨fun hal => h _ _ _ (State.syncCheck_misaligned hal), fun hal hin => h _ _ _ (State.syncCheck_inAperture hal hin),
    fun hal hout hno => h _ _ _ ((State.syncCheck_outsideAperture hout).trans (State.check_refused hal hno))⟩

theorem load_raisesChecked {d : XIdx} {signed : Bool} {kind : AKind} (hi : Issues s p)
    (he : exec i s = s.load p d ea n signed len kind) : RaisesChecked i s p len ea (s.check p ea n .rd 0) := by
  intro c d0 d1 hc
  refine he.trans ?_
  unfold State.load
  rcases hi.2 with hw | hw <;> simp only [hw, hc, State.raised]

theorem storeInstr_raisesChecked {v : Word} {kind : AKind} (he : exec i s = s.storeInstr p ea n v len kind) :
    RaisesChecked i s p len ea (s.check p ea n .wr 1) := by
  intro c d0 d1 hc
  refine he.trans ?_
  simp only [State.storeInstr, hc, State.raised]

theorem execStrl_raisesChecked (h : s.cpu = some p) (sz : Width) (b a : XIdx) :
    RaisesChecked (.strl sz b a) s p 4 (p.getX a) (s.check p (p.getX a) (bytesOf sz) .wr 1) := by
  intro c d0 d1 hc
  refine (withProc_some h _).trans ?_
  simp only [hc, Option.isNone_some, Bool.false_and, Bool.false_eq_true, if_false, State.storeInstr, State.raised]

theorem execStf_raisesChecked (h : s.cpu = some p) (b a : XIdx) :
    RaisesChecked (.stf b a) s p 4 (p.getX a) (s.syncCheck p (p.getX a) .wr 1) := by
  intro c d0 d1 hc
  refine (withProc_some h _).trans ?_
  simp only [hc, State.raised]

theorem syncInstr_raisesChecked {d a : XIdx} {mk : Proc → SyncOp} {release : Bool} (h : s.cpu = some p)
    (he : exec i s = s.syncInstr d a mk perm release) :
    RaisesChecked i s p 4 (p.getX a) (s.syncCheck p (p.getX a) perm (mk p).kind) := by
  intro c d0 d1 hc
  refine he.trans ((withProc_some h _).trans ?_)
  simp only [hc, State.raised]

theorem rsvInstr_raisesChecked {a : XIdx} {stalls : State → Proc → Bool} {kind : AKind} {writes : Bool}
    {own : Proc → Nat → State → Out} {far : Proc → Nat → Payload} {blocks : Nat → Option Wait} (h : s.cpu = some p)
    (he : exec i s = s.rsvInstr a stalls kind writes own far blocks) :
    RaisesChecked i s p 4 (p.getX a) (s.syncCheck p (p.getX a) .rw 2) := by
  intro c d0 d1 hc
  refine he.trans ((withProc_some h _).trans ?_)
  simp only [hc, State.raised]

theorem execRsv_raisesChecked (h : s.cpu = some p) (d a : XIdx) :
    RaisesChecked (.rsv d a) s p 4 (p.getX a) (s.syncCheck p (p.getX a) .rw 2) := by
  have he : exec (.rsv d a) s = execRsv d a s := rfl
  rw [execRsv] at he
  exact rsvInstr_raisesChecked h he

theorem execRls_raisesChecked (h : s.cpu = some p) (a b : XIdx) :
    RaisesChecked (.rls a b) s p 4 (p.getX a) (s.syncCheck p (p.getX a) .rw 2) := by
  have he : exec (.rls a b) s = execRls a b s := rfl
  rw [execRls] at he
  exact rsvInstr_raisesChecked h he

end

/-! Reads that meet an error (R112) -/

theorem State.marked_of_mem {s : State} {a n g : Nat} (hg : g ∈ s.marks ++ s.latent) (hlow : g < a + n) (hhigh : a < g + 8) :
    s.marked a n = true :=
  List.any_eq_true.2 ⟨g, hg, by simp [hlow, hhigh]⟩

theorem State.granuleBad_of_mem {s : State} {g : Nat} (hg : g ∈ s.marks ++ s.latent) : s.granuleBad g = true := by
  simpa [State.granuleBad] using hg

/-- Without writes of the core on their way no mark is hidden. -/
theorem State.seenMarked_quiet {s : State} {core : Nat} (h : ∀ q ∈ s.packets, q.core ≠ core) (pid used home n : Nat) :
    s.seenMarked core pid used home n = s.marked home n := by
  have hnone : ∀ q ∈ s.packets, q.forwards core pid = false := fun q hq => by simp [Packet.forwards, h q hq]
  rw [State.seenMarked, List.any_eq_false.2 fun q hq => by simp [hnone q hq], Bool.not_false, Bool.and_true]

/-- A load of the own memory in whose granules an error lies raises MEMERR. -/
theorem load_memerr {i : Instr} {s : State} {p : Proc} {ea : Word} {d : XIdx} {n len : Nat} {signed : Bool} {kind : AKind}
    (hi : Issues s p) (hq : Quiet s p.core) (h : OwnAccess s p ea n .rd)
    (hbad : ∃ g ∈ s.marks ++ s.latent, g < homeAt p ea + n ∧ homeAt p ea < g + 8)
    (he : exec i s = s.load p d ea n signed len kind) : Faults i s p .memerr len ea (BitVec.ofNat 64 n) 0 := by
  obtain ⟨g, hg, hlow, hhigh⟩ := hbad
  refine he.trans ((load_sees d signed len kind hi (fun t => heldBack_quiet t hq.1) hq.2 h).trans ?_)
  rw [State.seenMarked_quiet hq.1, State.marked_of_mem hg hlow hhigh, State.loadDone, if_pos rfl, BitVec.ofNat_toNat,
    BitVec.setWidth_eq]

section
variable {i : Instr} {s : State} {p : Proc} {a : XIdx}

/-- A full/empty or wait instruction that only reads raises MEMERR where an error lies in its word (R253). -/
theorem syncInstr_memerr {d : XIdx} {mk : Proc → SyncOp} {perm : Perm} (hi : Issues s p) (hq : Quiet s p.core)
    (h : OwnAccess s p (p.getX a) 8 perm) (hbad : homeAt p (p.getX a) ∈ s.marks ++ s.latent)
    (hreads : (mk p).writes = false) (he : exec i s = s.syncInstr d a mk perm false) :
    Faults i s p .memerr 4 (p.getX a) 8 (mk p).kind := by
  have htarget : s.target p.core (p.getX a).toNat = .own (homeAt p (p.getX a)) := target_own h.2.2
  refine he.trans ((withProc_some hi.1 _).trans ?_)
  simp only [syncCheck_own _ h, htarget, heldBack_quiet _ hq.1, State.overlaps_quiet hq.1, hreads,
    State.granuleBad_of_mem hbad, Bool.false_and, Bool.or_self, Bool.not_false, Bool.and_self, Bool.false_eq_true, if_false,
    if_true, State.raised]

/-- A reservation instruction that nothing holds back does at the own memory what it does there. -/
theorem rsvInstr_own {stalls : State → Proc → Bool} {kind : AKind} {writes : Bool} {own : Proc → Nat → State → Out}
    {far : Proc → Nat → Payload} {blocks : Nat → Option Wait} (hc : s.cpu = some p) (hq : Quiet s p.core)
    (h : OwnAccess s p (p.getX a) 8 .rw) (hstalls : stalls s p = false) :
    s.rsvInstr a stalls kind writes own far blocks = own p (homeAt p (p.getX a)) s := by
  have htarget : s.target p.core (p.getX a).toNat = .own (homeAt p (p.getX a)) := target_own h.2.2
  refine (withProc_some hc _).trans ?_
  simp only [syncCheck_own _ h, htarget, heldBack_quiet _ hq.1, State.overlaps_quiet hq.1, hstalls, Bool.or_self,
    Bool.false_eq_true, if_false]

theorem State.mustQueue_free {h : Nat} (hfree : s.queued h = false) (hentry : s.entryFree h = true) :
    s.mustQueue h = false := by
  rw [State.mustQueue, hfree, hentry]
  rfl

theorem execRsv_memerr (d : XIdx) (hc : s.cpu = some p) (hq : Quiet s p.core) (h : OwnAccess s p (p.getX a) 8 .rw)
    (hbad : homeAt p (p.getX a) ∈ s.marks ++ s.latent) (hfree : s.queued (homeAt p (p.getX a)) = false)
    (hentry : s.entryFree (homeAt p (p.getX a)) = true) : Faults (.rsv d a) s p .memerr 4 (p.getX a) 8 2 := by
  refine Eq.trans (show exec (.rsv d a) s = execRsv d a s from rfl) ?_
  rw [execRsv, rsvInstr_own hc hq h rfl]
  simp only [State.mustQueue_free hfree hentry, Bool.and_false, Bool.false_eq_true, if_false,
    State.granuleBad_of_mem hbad, if_true, State.raised]

theorem amo_memerr {op : AmoOp} {rlx : Bool} {d b : XIdx} (hc : s.cpu = some p) (hq : Quiet s p.core)
    (hpid : ∀ q ∈ s.packets, q.pid ≠ p.pid) (h : OwnAccess s p (p.getX a) 8 .rw)
    (hbad : homeAt p (p.getX a) ∈ s.marks ++ s.latent) (hfree : s.queued (homeAt p (p.getX a)) = false)
    (hentry : s.entryFree (homeAt p (p.getX a)) = true) (he : exec i s = s.amo op rlx d a b) :
    Faults i s p .memerr 4 (p.getX a) 8 2 := by
  refine he.trans ((rsvInstr_own hc hq h ?_).trans ?_)
  · rw [State.orderPending_none hpid, Bool.and_false]
  · simp only [State.mustQueue_free hfree hentry, Bool.false_eq_true, if_false, State.granuleBad_of_mem hbad, if_true,
      State.raised]

end

/-! Ranges of words (R244) -/

theorem findSome?_range_first {α : Type} {f : Nat → Option α} {m k : Nat} {r : α} (hk : k < m) (hf : f k = some r)
    (hbefore : ∀ j, j < k → f j = none) : (List.range m).findSome? f = some r := by
  induction m with
  | zero => omega
  | succ m ih =>
    rw [List.range_succ, List.findSome?_append]
    rcases Nat.lt_succ_iff_lt_or_eq.1 hk with hlt | rfl
    · rw [ih hlt, Option.some_or]
    · rw [List.findSome?_eq_none_iff.2 fun j hj => hbefore j (List.mem_range.1 hj)]
      simp [hf]

theorem word_aligned {x : Word} (h : x.toNat % 8 = 0) (k : Nat) : (x + BitVec.ofNat 64 (8 * k)).toNat % 8 = 0 := by
  rw [BitVec.toNat_add, BitVec.toNat_ofNat]
  omega

section
variable {i : Instr} {s : State} {p : Proc} {a b : XIdx} {full : Bool} {n : Nat}

/-- The first word that fails its check decides. -/
theorem State.firstBadWord_eq {x : Word} {k : Nat} {c : Cause} {d0 d1 : Word} (hal : x.toNat % 8 = 0) (hk : k < n / 8)
    (hbad : s.syncCheck p (x + BitVec.ofNat 64 (8 * k)) .wr 1 = some (c, d0, d1))
    (hgood : ∀ j, j < k → ¬ (InAperture (x + BitVec.ofNat 64 (8 * j)) ∨
      p.allowed s (x + BitVec.ofNat 64 (8 * j)) 8 .wr = false)) :
    s.firstBadWord p x n = some (x + BitVec.ofNat 64 (8 * k), d1) := by
  rw [State.firstBadWord, List.findSome?_map]
  refine findSome?_range_first hk ?_ fun j hj => ?_
  · simp only [Function.comp_apply, hbad]
  · obtain ⟨hout, hallowed⟩ := not_or.1 (hgood j hj)
    simp only [Function.comp_apply, State.syncCheck_outsideAperture hout,
      State.check_passes (word_aligned hal j) (Bool.eq_true_of_not_eq_false hallowed) hout]

theorem feInstr_misaligned (hc : s.cpu = some p) (he : exec i s = s.feInstr a b full)
    (h : (p.getX a).toNat % 8 ≠ 0 ∨ (p.getX b).toNat % 8 ≠ 0) : Faults i s p .misalign 4 (p.getX a) 8 1 :=
  he.trans ((withProc_some hc _).trans (if_pos h))

theorem feInstr_tooLong (hc : s.cpu = some p) (he : exec i s = s.feInstr a b full) (hal : (p.getX a).toNat % 8 = 0)
    (hlen : (p.getX b).toNat % 8 = 0) (h : 65536 < (p.getX b).toNat) :
    Faults i s p .window 4 (p.getX a) (p.getX b) 1 :=
  he.trans ((withProc_some hc _).trans ((if_neg (by omega)).trans (if_pos h)))

theorem feInstr_badWord (hc : s.cpu = some p) (he : exec i s = s.feInstr a b full) (hal : (p.getX a).toNat % 8 = 0)
    (hlen : (p.getX b).toNat % 8 = 0) (h : (p.getX b).toNat ≤ 65536) {w d1 : Word} (hpos : 0 < (p.getX b).toNat / 8)
    (hbad : s.firstBadWord p (p.getX a) (p.getX b).toNat = some (w, d1)) : Faults i s p .window 4 w 8 d1 := by
  refine he.trans ((withProc_some hc _).trans ((if_neg (by omega)).trans ((if_neg (by omega)).trans
    ((if_neg (by omega)).trans ?_))))
  rw [hbad]
  rfl

/-- Base and length, then the limit of the length, then each word in order (R244, R253). -/
theorem feInstr_checks (hc : s.cpu = some p) (he : exec i s = s.feInstr a b full) :
    let x := p.getX a
    let n := (p.getX b).toNat
    let word (k : Nat) : Word := x + BitVec.ofNat 64 (8 * k)
    let bad (w : Word) : Prop := InAperture w ∨ p.allowed s w 8 .wr = false
    (x.toNat % 8 ≠ 0 ∨ n % 8 ≠ 0 → Faults i s p .misalign 4 x 8 1) ∧
    (x.toNat % 8 = 0 → n % 8 = 0 → 65536 < n → Faults i s p .window 4 x (p.getX b) 1) ∧
    (∀ k, x.toNat % 8 = 0 → n % 8 = 0 → n ≤ 65536 → k < n / 8 → (∀ j, j < k → ¬ bad (word j)) →
      (InAperture (word k) → Faults i s p .window 4 (word k) 8 5) ∧
      (¬ InAperture (word k) → p.allowed s (word k) 8 .wr = false → Faults i s p .window 4 (word k) 8 1)) := by
  intro x n word bad
  refine ⟨feInstr_misaligned hc he, feInstr_tooLong hc he, fun k hal hlen hmax hk hgood => ⟨fun hin => ?_, fun hout hno => ?_⟩⟩
  · exact feInstr_badWord hc he hal hlen hmax (by omega)
      (State.firstBadWord_eq hal hk (State.syncCheck_inAperture (word_aligned hal k) hin) hgood)
  · exact feInstr_badWord hc he hal hlen hmax (by omega) (State.firstBadWord_eq hal hk
      ((State.syncCheck_outsideAperture hout).trans (State.check_refused (word_aligned hal k) hno)) hgood)

end

/-- Settles O17: what the first failing check names is raised (`RaisesChecked`), and then an error where memory is read. -/
theorem accessChecks : Obligations.AccessChecks := by
  unfold Obligations.AccessChecks
  intro s p d a b off sz c e o5 rlx hi ea x base faults checks inAperture atHome range meets meetsWord loads amos
  have hc := hi.1
  have hload {i : Instr} {len n : Nat} {ea : Word} {d : XIdx} {signed : Bool} {kind : AKind}
      (he : exec i s = s.load p d ea n signed len kind) : loads i len ea n :=
    ⟨(load_raisesChecked hi he).misalign_window, fun ⟨hq, _, hown, hbad⟩ => load_memerr hi hq hown hbad he⟩
  have hstore {i : Instr} {len n : Nat} {ea v : Word} {kind : AKind} (he : exec i s = s.storeInstr p ea n v len kind) :
      checks i len ea n .wr 1 := (storeInstr_raisesChecked he).misalign_window
  have hsync {i : Instr} {d : XIdx} {mk : Proc → SyncOp} {perm : Perm} {release : Bool}
      (he : exec i s = s.syncInstr d a mk perm release) : atHome i perm (mk p).kind :=
    (syncInstr_raisesChecked hc he).misalign_aperture_window
  have hread {i : Instr} {d : XIdx} {mk : Proc → SyncOp} {perm : Perm} (hreads : (mk p).writes = false)
      (he : exec i s = s.syncInstr d a mk perm false) :
      atHome i perm (mk p).kind ∧ (meetsWord perm → faults i .memerr 4 x 8 (mk p).kind) :=
    ⟨hsync he, fun ⟨hq, _, hown, hbad⟩ => syncInstr_memerr hi hq hown hbad hreads he⟩
  have hamo {i : Instr} {op : AmoOp} (he : exec i s = s.amo op rlx d a b) : amos i :=
    ⟨(rsvInstr_raisesChecked hc he).misalign_aperture_window, fun ⟨hq, hpid, hown, hbad⟩ hfree hentry =>
      amo_memerr hc hq hpid hown hbad hfree hentry he⟩
  refine ⟨⟨hload (State.ldX_eq_load hc d a off 1 true 4), hload (State.ldX_eq_load hc d a off 1 false 4),
      hload (State.ldX_eq_load hc d a off 2 true 4), hload (State.ldX_eq_load hc d a off 2 false 4),
      hload (State.ldX_eq_load hc d a off 4 true 4), hload (State.ldX_eq_load hc d a off 4 false 4),
      hload (State.ldX_eq_load hc d a off 8 true 4), hload (withProc_some hc _),
      hload (State.ldX_short_eq_load hc c e 8 o5 8 true 2), hload (State.ldX_short_eq_load hc c e 4 o5 4 true 2)⟩,
    ⟨hstore (State.stX_eq_storeInstr hc b a off 1 4), hstore (State.stX_eq_storeInstr hc b a off 2 4),
      hstore (State.stX_eq_storeInstr hc b a off 4 4), hstore (State.stX_eq_storeInstr hc b a off 8 4),
      (execStrl_raisesChecked hc sz b a).misalign_window, hstore (withProc_some hc _),
      hstore (State.stX_short_eq_storeInstr hc c e 8 o5 8 2), hstore (State.stX_short_eq_storeInstr hc c e 4 o5 4 2)⟩,
    ⟨(execStf_raisesChecked hc b a).misalign_aperture_window, hsync (mk := fun p => .ste (p.getX b)) rfl,
      (execRls_raisesChecked hc a b).misalign_aperture_window, ?_,
      ⟨(execRsv_raisesChecked hc d a).misalign_aperture_window, fun ⟨hq, _, hown, hbad⟩ => execRsv_memerr d hc hq hown hbad⟩,
      hamo rfl, hamo rfl, hamo rfl, hamo rfl, hamo rfl, hamo rfl, hamo rfl, hamo rfl, hamo rfl, hamo rfl⟩,
    feInstr_checks hc rfl, feInstr_checks hc rfl⟩
  intro i k perm hmem
  simp only [List.mem_cons, Prod.mk.injEq, List.not_mem_nil, or_false] at hmem
  rcases hmem with ⟨rfl, rfl, rfl⟩ | ⟨rfl, rfl, rfl⟩ | ⟨rfl, rfl, rfl⟩ | ⟨rfl, rfl, rfl⟩
  · exact hread (mk := fun _ => .ldf) rfl rfl
  · exact hread (mk := fun _ => .lde) rfl rfl
  · exact hread (mk := fun p => .waitw (p.getX b)) rfl rfl
  · exact hread (mk := fun p => .waitc (p.getX b)) rfl rfl

end Sys2Proof.Machine
end

section
/-! SUPPORT. What a vector instruction with a vector result does where its registers are no bound streams: results of elements in
their lanes, the flags they add, and the lane-by-lane instructions (R140, R141, R153, R168, R176). -/

namespace Sys2Proof

open Machine

/-! Results in their lanes (R153) -/

theorem lane_lt (v : VReg) (w l : Nat) : lane v w l < 2 ^ w :=
  Nat.mod_lt _ (Nat.two_pow_pos w)

/-- A lane takes its result, if there is one. -/
theorem lane_putLanes (v : VReg) {w l : Nat} (rs : LaneRes) (hl : l < 2048 / w) :
    lane (putLanes v w rs) w l = (rs.find? (·.1 == l)).elim (lane v w l) (·.2.1) % 2 ^ w := by
  have hlen : w * (List.range (2048 / w)).length ≤ 2048 := by
    rw [List.length_range]
    exact Nat.mul_div_le 2048 w
  rw [putLanes, lane_ofLanes (by rwa [List.length_map])]
  simp only [List.getD_eq_getElem?_getD, List.getElem?_map, List.getElem?_range hl, Option.map_some, Option.getD_some]
  cases rs.find? (·.1 == l) <;> rfl

/-- The results of the active ones of n elements, in the lanes from `off` on (R176–R178). -/
def elements (mask : Word) (n off : Nat) (g : Nat → Rounded) : LaneRes :=
  ((List.range n).filter fun k => active mask k n).map fun k => (off + k, g k)

theorem laneMap_eq_elements (mask : Word) (w : Nat) (g : Nat → Rounded) :
    laneMap mask w g = elements mask (2048 / w) 0 g := by
  simp [laneMap, elements]

theorem flagsOf_elements (mask : Word) (n off : Nat) (g : Nat → Rounded) :
    flagsOf (elements mask n off g) = elementFlags mask n fun k => (g k).2 := by
  rw [flagsOf, elements, elementFlags, List.foldl_map]

/-- The lane of an active element holds its result; no other lane holds one. -/
theorem find?_elements (mask : Word) (n off : Nat) (g : Nat → Rounded) (l : Nat) :
    (elements mask n off g).find? (·.1 == l) =
      if off ≤ l ∧ l < off + n ∧ active mask (l - off) n = true then some (l, g (l - off)) else none := by
  split
  next h =>
    obtain ⟨hlo, hhi, ha⟩ := h
    have hmem : (l, g (l - off)) ∈ elements mask n off g := by
      simp only [elements, List.mem_map, List.mem_filter, List.mem_range]
      exact ⟨l - off, ⟨by omega, ha⟩, by rw [Nat.add_sub_cancel' hlo]⟩
    cases hf : (elements mask n off g).find? (·.1 == l) with
    | none => simpa using List.find?_eq_none.mp hf _ hmem
    | some r =>
      have hr := List.mem_of_find?_eq_some hf
      simp only [elements, List.mem_map] at hr
      obtain ⟨k, -, rfl⟩ := hr
      obtain rfl : off + k = l := by simpa using List.find?_some hf
      rw [Nat.add_sub_cancel_left]
  next h =>
    rw [List.find?_eq_none]
    simp only [elements, List.mem_map, List.mem_filter, List.mem_range]
    rintro _ ⟨k, ⟨hk, ha⟩, rfl⟩ hkl
    obtain rfl : off + k = l := by simpa using hkl
    exact h ⟨by omega, by omega, by rwa [Nat.add_sub_cancel_left]⟩

theorem lane_putLanes_elements (v : VReg) {w l : Nat} (mask : Word) (n off : Nat) (g : Nat → Rounded) (hl : l < 2048 / w) :
    lane (putLanes v w (elements mask n off g)) w l =
      (if off ≤ l ∧ l < off + n ∧ active mask (l - off) n = true then (g (l - off)).1 else lane v w l) % 2 ^ w := by
  rw [lane_putLanes _ _ hl, find?_elements]
  split <;> rfl

/-! The common course -/

/-- The instruction gives the active ones of n elements their results, in the lanes of v[D] from `off` on, and gains their flags,
or raises ARITH where one of them is enabled. -/
def ElementOp (i : Instr) (s : State) (p : Proc) (m : PIdx) (d : VIdx) (w n off : Nat) (g : Nat → Rounded) : Prop :=
  let fl := elementFlags (p.getP m) n fun k => (g k).2
  if fl &&& p.enables = 0 then
    WritesVec i s p d w (fun l =>
      if off ≤ l ∧ l < off + n ∧ active (p.getP m) (l - off) n = true then (g (l - off)).1 else lane (p.getV d) w l) fl
  else RaisesArith i s p fl

section
variable {s : State} {p : Proc} {i : Instr} {u : VUse} {k : Proc → VRes} {d : VIdx} {m : PIdx}

theorem no_flags_enabled (en : Flags) : (0 : Flags) &&& en = 0 :=
  BitVec.zero_and

theorem WritesVec.congr {w : Nat} {g g' : Nat → Nat} {fl : Flags} (h : WritesVec i s p d w g fl)
    (hg : ∀ l, l < 2048 / w → g l % 2 ^ w = g' l % 2 ^ w) : WritesVec i s p d w g' fl := by
  obtain ⟨v, hv, hl⟩ := h
  exact ⟨v, hv, fun l hlt => (hl l hlt).trans (hg l hlt)⟩

/-- An instruction whose result is a vector writes it with its flags, or raises ARITH. -/
theorem vec_result {v : VReg} {w' : Nat} {ls : LaneRes} (hc : s.cpu = some p) (h : Plain p (u.srcs ++ u.dst.toList))
    (he : exec i s = s.vec i u k) (hd : u.dst = some d) (hk : k p = { v := some v, w := w', lanes := ls }) (w : Nat) :
    if flagsOf ls &&& p.enables = 0 then WritesVec i s p d w (lane v w) (flagsOf ls) else RaisesArith i s p (flagsOf ls) := by
  split
  next hfl =>
    refine ⟨v, vec_sets hc h he (by rwa [hk]) ?_, fun l _ => (Nat.mod_eq_of_lt (lane_lt v w l)).symm⟩
    rw [hk, hd]
    rfl
  next hfl =>
    refine ⟨granules w' p.enables ls, ?_⟩
    rw [he, vec_plain hc h, hk, if_neg hfl]
    rfl

/-- A vector without flags is written. -/
theorem vec_writes {v : VReg} {w' : Nat} (hc : s.cpu = some p) (h : Plain p (u.srcs ++ u.dst.toList))
    (he : exec i s = s.vec i u k) (hd : u.dst = some d) (hk : k p = { v := some v, w := w' }) {w : Nat} {g : Nat → Nat}
    (hg : ∀ l, l < 2048 / w → lane v w l = g l % 2 ^ w) : WritesVec i s p d w g 0 := by
  have hres := vec_result hc h he hd hk w
  rw [show flagsOf [] = 0 from rfl, if_pos (no_flags_enabled _)] at hres
  exact hres.congr fun l hl => by rw [Nat.mod_eq_of_lt (lane_lt v w l), hg l hl]

/-- The results of elements, put into their lanes. -/
theorem vec_elements {w n off : Nat} {g : Nat → Rounded} (hc : s.cpu = some p) (h : Plain p (u.srcs ++ u.dst.toList))
    (he : exec i s = s.vec i u k) (hd : u.dst = some d)
    (hk : k p = { v := some (putLanes (p.getV d) w (elements (p.getP m) n off g)), w := w,
                  lanes := elements (p.getP m) n off g }) :
    ElementOp i s p m d w n off g := by
  have hres := vec_result hc h he hd hk w
  rw [flagsOf_elements] at hres
  dsimp only [ElementOp]
  split
  next hfl =>
    rw [if_pos hfl] at hres
    refine hres.congr fun l hl => ?_
    rw [lane_putLanes_elements _ _ _ _ _ hl, Nat.mod_mod]
  next hfl => rwa [if_neg hfl] at hres

/-- A lane operation is one whose elements are the lanes. -/
theorem ElementOp.laneOp {w : Nat} {g : Nat → Rounded} (h : ElementOp i s p m d w (2048 / w) 0 g) :
    LaneOp i s p m d w g := by
  dsimp only [ElementOp] at h
  dsimp only [LaneOp]
  split
  next hfl =>
    rw [if_pos hfl] at h
    refine h.congr fun l hl => ?_
    simp [merged, hl]
  next hfl => rwa [if_neg hfl] at h

/-- Elements without flags are written. -/
theorem ElementOp.writes {w n off : Nat} {g : Nat → Nat} (h : ElementOp i s p m d w n off fun k => plain (g k)) :
    WritesVec i s p d w (fun l =>
      if off ≤ l ∧ l < off + n ∧ active (p.getP m) (l - off) n = true then g (l - off) else lane (p.getV d) w l) 0 := by
  have hfl : (elementFlags (p.getP m) n fun k => (plain (g k)).2) = 0 := elementFlags_zero _ _
  dsimp only [ElementOp] at h
  rwa [hfl, if_pos (no_flags_enabled _)] at h

/-- Lanes without flags are written. -/
theorem LaneOp.writes {w : Nat} {g : Nat → Nat} (h : LaneOp i s p m d w fun l => plain (g l)) :
    WritesVec i s p d w (merged p m d w g) 0 := by
  have hfl : (elementFlags (p.getP m) (2048 / w) fun l => (plain (g l)).2) = 0 := elementFlags_zero _ _
  dsimp only [LaneOp] at h
  rwa [hfl, if_pos (no_flags_enabled _)] at h

/-! The shapes of lane-by-lane instructions -/

theorem vlanes_laneOp {w : Nat} {a b : VIdx} {reads : Bool} {f : Proc → Nat → Nat → Nat → Nat → Rounded}
    (hc : s.cpu = some p) (h : Plain p [d, a, b]) (he : exec i s = s.vlanes i w m d a b reads f) :
    LaneOp i s p m d w fun l => f p l (lane (p.getV a) w l) (lane (p.getV b) w l) (lane (p.getV d) w l) := by
  refine (vec_elements hc ?_ he rfl ?_).laneOp
  · exact h.mono (by simp)
  · simp only [laneMap_eq_elements]

theorem vgen_laneOp {w : Nat} {srcs : List VIdx} {push : Bool} {f : Proc → Nat → Rounded}
    (hc : s.cpu = some p) (h : Plain p (d :: srcs)) (he : exec i s = s.vgen i w m d srcs push f) :
    LaneOp i s p m d w (f p) := by
  refine (vec_elements hc ?_ he rfl ?_).laneOp
  · exact h.mono (by simp [or_comm])
  · simp only [laneMap_eq_elements]

theorem vmove_elements {w n off : Nat} {srcs : List VIdx} {reads : Bool} {lanes : Nat → Nat} {f : Proc → Nat → Rounded}
    (hc : s.cpu = some p) (h : Plain p (d :: srcs)) (he : exec i s = s.vmove i m d srcs reads n w lanes f)
    (hlanes : ∀ k, lanes k = off + k) : ElementOp i s p m d w n off (f p) := by
  refine vec_elements hc ?_ he rfl ?_
  · exact h.mono (by simp [or_comm])
  · simp only [hlanes]
    rfl

end

end Sys2Proof
end

section
/-! SUPPORT. O28: floating-point lane instructions (R142, R167, R168). -/

namespace Sys2Proof

open Machine

theorem signBit_fmtOf (t : FpT) : (fmtOf t).bits - 1 = (fmtOf t).ew + (fmtOf t).mw := by
  cases t <;> rfl

/-- What is not a NaN has the sign of its code (R127). -/
theorem sign_decode {f : Fmt} {c : Nat} (h : (f.decode c).isNan = false) :
    (f.decode c).sign = (c / 2 ^ (f.ew + f.mw) % 2 == 1) := by
  revert h
  unfold Fmt.decode
  grind [Fp.sign, Fp.isNan]

/-- The absolute value of a code (R168). -/
theorem resign_clear (f : Fmt) (c : Nat) :
    f.resign (fun _ => false) c = match f.decode c with
      | .nan q => (f.nan, if q then 0 else 1)
      | _ => (c % 2 ^ (f.ew + f.mw), 0) := by
  unfold Fmt.resign
  cases f.decode c with
  | nan q => cases q <;> rfl
  | inf _ => rfl
  | fin _ _ _ => rfl

/-- A sign bit inverted is one added, modulo the width of the code. -/
theorem signed_not {n c : Nat} (hc : c < 2 ^ (n + 1)) :
    (if !(c / 2 ^ n % 2 == 1) then 2 ^ n + c % 2 ^ n else c % 2 ^ n) = (c + 2 ^ n) % 2 ^ (n + 1) := by
  have hpow : 2 ^ (n + 1) = 2 ^ n + 2 ^ n := by ring
  by_cases h : c < 2 ^ n
  · rw [Nat.div_eq_of_lt h, Nat.mod_eq_of_lt h, Nat.mod_eq_of_lt (a := c + 2 ^ n) (by omega), Nat.add_comm]
    rfl
  · obtain ⟨r, rfl⟩ := Nat.exists_eq_add_of_le (not_lt.mp h)
    have hr : r < 2 ^ n := by omega
    have hdiv : (2 ^ n + r) / 2 ^ n = 1 := by
      rw [Nat.add_div_left _ (Nat.two_pow_pos n), Nat.div_eq_of_lt hr]
    rw [hdiv, Nat.add_mod_left, Nat.mod_eq_of_lt hr, Nat.add_right_comm, ← hpow, Nat.add_mod_left,
      Nat.mod_eq_of_lt (a := r) (b := 2 ^ (n + 1)) (by omega)]
    rfl

/-- The negative of a code (R168). -/
theorem resign_not {f : Fmt} {c : Nat} (hc : c < 2 ^ (f.ew + f.mw + 1)) :
    f.resign not c = match f.decode c with
      | .nan q => (f.nan, if q then 0 else 1)
      | _ => ((c + 2 ^ (f.ew + f.mw)) % 2 ^ (f.ew + f.mw + 1), 0) := by
  have hsign := sign_decode (f := f) (c := c)
  unfold Fmt.resign Fmt.signed
  cases h : f.decode c with
  | nan q => cases q <;> rfl
  | inf _ | fin _ _ _ =>
    rw [h] at hsign
    simp only [hsign rfl, signed_not hc]

section
variable {s : State} {p : Proc} {i : Instr} {t : FpT} {rc : Rc} {m : PIdx} {d a b : VIdx}

theorem vfp_laneOp {reads : Bool} (g : Fmt → Rm → Fp → Fp → Fp → Rounded) (hc : s.cpu = some p) (h : Plain p [d, a, b])
    (he : exec i s = s.vfp i t rc m d a b reads g) :
    LaneOp i s p m d (fmtOf t).bits fun l => g (fmtOf t) (p.mode rc) ((fmtOf t).decode (lane (p.getV a) (fmtOf t).bits l))
      ((fmtOf t).decode (lane (p.getV b) (fmtOf t).bits l)) ((fmtOf t).decode (lane (p.getV d) (fmtOf t).bits l)) :=
  vlanes_laneOp (f := fun p _ x y z =>
    g (fmtOf t) (p.mode rc) ((fmtOf t).decode x) ((fmtOf t).decode y) ((fmtOf t).decode z)) hc h he

theorem vabs_laneOp (hc : s.cpu = some p) (h : Plain p [d, a]) :
    LaneOp (.vabs t m d a) s p m d (fmtOf t).bits fun l =>
      match (fmtOf t).decode (lane (p.getV a) (fmtOf t).bits l) with
      | .nan q => ((fmtOf t).nan, if q then 0 else 1)
      | _ => (lane (p.getV a) (fmtOf t).bits l % 2 ^ ((fmtOf t).bits - 1), 0) := by
  simp only [signBit_fmtOf, ← resign_clear]
  exact vlanes_laneOp (f := fun _ _ x _ _ => (fmtOf t).resign (fun _ => false) x) hc (h.mono (by simp)) rfl

theorem vneg_laneOp (hc : s.cpu = some p) (h : Plain p [d, a]) :
    LaneOp (.vneg t m d a) s p m d (fmtOf t).bits fun l =>
      match (fmtOf t).decode (lane (p.getV a) (fmtOf t).bits l) with
      | .nan q => ((fmtOf t).nan, if q then 0 else 1)
      | _ => ((lane (p.getV a) (fmtOf t).bits l + 2 ^ ((fmtOf t).bits - 1)) % 2 ^ (fmtOf t).bits, 0) := by
  have hbits : (fmtOf t).bits = (fmtOf t).ew + (fmtOf t).mw + 1 := by
    rw [Fmt.bits]
    omega
  have hneg (l : Nat) := resign_not (f := fmtOf t) (hbits ▸ lane_lt (p.getV a) (fmtOf t).bits l)
  rw [← hbits, ← signBit_fmtOf] at hneg
  simp only [← hneg]
  exact vlanes_laneOp (f := fun _ _ x _ _ => (fmtOf t).resign not x) hc (h.mono (by simp)) rfl

end

/-- Settles O28: each instruction is a lane operation whose function of the lanes is that of Table 9.4. -/
theorem vectorFloat : Obligations.VectorFloat := by
  unfold Obligations.VectorFloat
  intro s p t rc m d a b hc hp f w r x y z op
  have ha : Plain p [d, a] := hp.mono (by simp)
  exact ⟨vfp_laneOp (fun f r x y _ => f.add r x y) hc hp rfl, vfp_laneOp (fun f r x y _ => f.add r x y.neg) hc hp rfl,
    vfp_laneOp (fun f r x y _ => f.mul r x y) hc hp rfl, vfp_laneOp (fun f r x y z => f.fma r x y z) hc hp rfl,
    vfp_laneOp (fun f r x y z => f.fma r x y z.neg) hc hp rfl, vfp_laneOp (fun f r x y z => f.fma r x.neg y z) hc hp rfl,
    vlanes_laneOp (f := fun _ _ x y _ => (fmtOf t).pick true x y) hc hp rfl,
    vlanes_laneOp (f := fun _ _ x y _ => (fmtOf t).pick false x y) hc hp rfl, vabs_laneOp hc ha, vneg_laneOp hc ha⟩

end Sys2Proof
end

section
/-! SUPPORT. O30: integer and Q15 lane instructions (R133, R172–R174). -/

namespace Sys2Proof

open Machine

/-! Patterns of w bits and their values (R133, Table 7.4) -/

theorem toS_eq_ite (w v : Nat) : toS w v = if v < 2 ^ (w - 1) then (v : Int) else (v : Int) - 2 ^ w := by
  grind [toS]

theorem toS_modEq (w v : Nat) : toS w v ≡ v [ZMOD 2 ^ w] := by
  unfold toS
  split
  · exact Int.sub_modulus_modEq_iff.mpr rfl
  · rfl

theorem wrap_modEq (w : Nat) (v : Int) : (wrap w v : Int) ≡ v [ZMOD 2 ^ w] := by
  rw [wrap, Int.toNat_of_nonneg (Int.emod_nonneg v (by positivity))]
  exact Int.mod_modEq v _

theorem natCast_mod_modEq (w v : Nat) : ((v % 2 ^ w : Nat) : Int) ≡ v [ZMOD 2 ^ w] := by
  push_cast
  exact Int.mod_modEq _ _

/-- A pattern that is congruent to an integer is its pattern. -/
theorem mod_eq_of_modEq {w c : Nat} {v : Int} (h : (c : Int) ≡ v [ZMOD 2 ^ w]) :
    c % 2 ^ w = (v % 2 ^ w).toNat % 2 ^ w := by
  rw [← h, ← Nat.mod_mod]
  norm_cast

theorem toS_natAbs_modEq {w x : Nat} (hx : x < 2 ^ w) :
    (((toS w x).natAbs % 2 ^ w : Nat) : Int) ≡ if x < 2 ^ (w - 1) then (x : Int) else 2 ^ w - x [ZMOD 2 ^ w] := by
  refine (natCast_mod_modEq w _).trans ?_
  rw [Int.natCast_natAbs, toS_eq_ite]
  split
  · rw [Int.abs_natCast]
  · have hneg : (x : Int) - 2 ^ w < 0 := by
      zify at hx
      omega
    rw [abs_of_neg hneg, neg_sub]

theorem min_toS_modEq (w x y : Nat) :
    ((if toS w x ≤ toS w y then x else y : Nat) : Int) ≡ min (toS w x) (toS w y) [ZMOD 2 ^ w] := by
  rw [min_def]
  split
  · exact (toS_modEq w x).symm
  · exact (toS_modEq w y).symm

theorem max_toS_modEq (w x y : Nat) :
    ((if toS w y ≤ toS w x then x else y : Nat) : Int) ≡ max (toS w x) (toS w y) [ZMOD 2 ^ w] := by
  rw [max_comm, max_def]
  split
  · exact (toS_modEq w x).symm
  · exact (toS_modEq w y).symm

theorem shl_modEq (w x y : Nat) :
    ((if y < w then x * 2 ^ y % 2 ^ w else 0 : Nat) : Int) ≡ if y < w then x * 2 ^ y else 0 [ZMOD 2 ^ w] := by
  split
  · exact_mod_cast natCast_mod_modEq w (x * 2 ^ y)
  · rfl

theorem satU_of_nonneg {v : Int} (h : 0 ≤ v) (w : Nat) : satU v w = min v (2 ^ w - 1) := by
  have : (1 : Int) ≤ 2 ^ w := one_le_pow₀ (by decide)
  rw [satU]
  omega

theorem shiftRound_of_ne_zero {n : Nat} (h : n ≠ 0) (v : Int) : shiftRound v n = (v + 2 ^ (n - 1)) / 2 ^ n :=
  if_neg h

theorem satU_of_lt {v : Int} {w : Nat} (h : v < 2 ^ w) : satU v w = max 0 v := by
  rw [satU]
  omega

/-! Lanes of integers -/

section
variable {s : State} {p : Proc} {i : Instr} {w : Nat} {m : PIdx} {d a b : VIdx} (hc : s.cpu = some p)
include hc

/-- An integer instruction whose results are congruent to integers computed from the lanes writes those. -/
theorem vint_writes {e : ElW} {reads : Bool} {f : Nat → Nat → Nat → Nat → Nat} (h : Plain p [d, a, b])
    (g : Nat → Nat → Nat → Int) (he : exec i s = s.vint i e m d a b reads f)
    (hfg : ∀ x y z, x < 2 ^ bitsOf e → y < 2 ^ bitsOf e → (f (bitsOf e) x y z : Int) ≡ g x y z [ZMOD 2 ^ bitsOf e]) :
    WritesVec i s p d (bitsOf e) (merged p m d (bitsOf e) fun l =>
      (g (lane (p.getV a) (bitsOf e) l) (lane (p.getV b) (bitsOf e) l) (lane (p.getV d) (bitsOf e) l) %
        2 ^ bitsOf e).toNat) 0 := by
  refine (vlanes_laneOp (f := fun _ _ x y z => plain (f (bitsOf e) x y z)) hc h he).writes.congr fun l _ => ?_
  unfold merged
  split
  · exact mod_eq_of_modEq (hfg _ _ _ (lane_lt ..) (lane_lt ..))
  · rfl

/-- `vqmac`: the two products of a 32-bit lane (Table 9.6). -/
theorem vqmac_writes (h : Plain p [d, a, b]) :
    WritesVec (.vqmac m d a b) s p d 32 (merged p m d 32 fun l =>
      wrap 32 (satS (toS 32 (lane (p.getV d) 32 l) +
        toS 16 (lane (p.getV a) 16 (2 * l)) * toS 16 (lane (p.getV b) 16 (2 * l)) +
        toS 16 (lane (p.getV a) 16 (2 * l + 1)) * toS 16 (lane (p.getV b) 16 (2 * l + 1))) 32)) 0 :=
  have hop : LaneOp (.vqmac m d a b) s p m d 32 _ := vlanes_laneOp hc h (rfl : _ = execVqmac m d a b s)
  hop.writes

/-- `vqrnd`: 32-bit lanes to a half of the 16-bit ones (Table 9.6). -/
theorem vqrnd_writes {n : BitVec 5} {base : Nat} (h : Plain p [d, a]) (he : exec i s = s.vqrnd i m d a n base) :
    WritesVec i s p d 16 (fun l =>
      if base ≤ l ∧ l < base + 64 ∧ active (p.getP m) (l - base) 64 = true then
        wrap 16 (satS (shiftRound (toS 32 (lane (p.getV a) 32 (l - base))) n.toNat) 16)
      else lane (p.getV d) 16 l) 0 := by
  refine ElementOp.writes (g := fun l => wrap 16 (satS (shiftRound (toS 32 (lane (p.getV a) 32 l)) n.toNat) 16))
    (vec_elements hc ?_ he rfl ?_)
  · exact h.mono (by simp [or_comm])
  · simp [laneMap, elements, Function.comp_def, Nat.add_comm base]

end

/-- Settles O30: the result of each instruction is congruent, modulo 2 to the lane width, to that of the tables. -/
theorem vectorInteger : Obligations.VectorInteger := by
  unfold Obligations.VectorInteger
  intro s p e m d a b n hc hp hn
  simp only [← toS_eq_ite, ← shiftRound_of_ne_zero hn]
  have ha : Plain p [d, a, a] := hp.mono (by simp)
  have hda : Plain p [d, a] := hp.mono (by simp)
  exact ⟨vint_writes hc hp (fun x y _ => x + y) (rfl : _ = execViadd e m d a b s) fun x y _ _ _ =>
      natCast_mod_modEq _ (x + y),
    vint_writes hc hp (fun x y _ => (x : Int) - y) (rfl : _ = execVisub e m d a b s) fun _ _ _ _ _ => wrap_modEq _ _,
    vint_writes hc hp (fun x y _ => x * y) (rfl : _ = execVimul e m d a b s) fun x y _ _ _ =>
      (wrap_modEq _ _).trans ((toS_modEq _ x).mul (toS_modEq _ y)),
    vint_writes hc hp (fun x y _ => toS _ x * toS _ y / 2 ^ _) (rfl : _ = execVimulhI e m d a b s) fun _ _ _ _ _ =>
      wrap_modEq _ _,
    vint_writes hc hp (fun x y _ => x * y / 2 ^ _) (rfl : _ = execVimulhU e m d a b s) fun _ _ _ _ _ => by
      push_cast
      rfl,
    vint_writes hc hp (fun x y z => z + x * y) (rfl : _ = execVimac e m d a b s) fun x y z _ _ =>
      (wrap_modEq _ _).trans ((toS_modEq _ z).add ((toS_modEq _ x).mul (toS_modEq _ y))),
    vint_writes (e := .w32) hc hp (fun x y _ => (x &&& y : Nat)) (rfl : _ = execVand m d a b s) fun _ _ _ _ _ => rfl,
    vint_writes (e := .w32) hc hp (fun x y _ => (x ||| y : Nat)) (rfl : _ = execVor m d a b s) fun _ _ _ _ _ => rfl,
    vint_writes (e := .w32) hc hp (fun x y _ => (x ^^^ y : Nat)) (rfl : _ = execVxor m d a b s) fun _ _ _ _ _ => rfl,
    vint_writes hc hp (fun x y _ => if y < bitsOf e then x * 2 ^ y else 0) (rfl : _ = execVshl e m d a b s)
      fun x y _ _ _ => shl_modEq _ x y,
    vint_writes hc hp (fun x y _ => if y < bitsOf e then x / 2 ^ y else 0) (rfl : _ = execVshr e m d a b s)
      fun _ _ _ _ _ => by
        push_cast
        rfl,
    vint_writes hc hp (fun x y _ => toS _ x / 2 ^ min y (_ - 1)) (rfl : _ = execVsar e m d a b s) fun _ _ _ _ _ =>
      wrap_modEq _ _,
    vint_writes hc hp (fun x y _ => min (toS _ x) (toS _ y)) (rfl : _ = execViminI e m d a b s) fun x y _ _ _ =>
      min_toS_modEq _ x y,
    vint_writes hc hp (fun x y _ => min x y) (rfl : _ = execViminU e m d a b s) fun x y _ _ _ => by
      rw [Nat.cast_min],
    vint_writes hc hp (fun x y _ => max (toS _ x) (toS _ y)) (rfl : _ = execVimaxI e m d a b s) fun x y _ _ _ =>
      max_toS_modEq _ x y,
    vint_writes hc hp (fun x y _ => max x y) (rfl : _ = execVimaxU e m d a b s) fun x y _ _ _ => by
      rw [Nat.cast_max],
    vint_writes hc ha (fun x _ _ => if x < 2 ^ (bitsOf e - 1) then x else 2 ^ bitsOf e - x)
      (rfl : _ = execViabs e m d a s) fun _ _ _ hx _ => toS_natAbs_modEq hx,
    vint_writes hc hp (fun x y _ => satS (toS _ x + toS _ y) _) (rfl : _ = execVsaddI e m d a b s) fun _ _ _ _ _ =>
      wrap_modEq _ _,
    vint_writes hc hp (fun x y _ => min (x + y) (2 ^ bitsOf e - 1)) (rfl : _ = execVsaddU e m d a b s)
      fun x y _ _ _ => satU_of_nonneg (v := x + y) (by positivity) (bitsOf e) ▸ wrap_modEq _ _,
    vint_writes hc hp (fun x y _ => satS (toS _ x - toS _ y) _) (rfl : _ = execVssubI e m d a b s) fun _ _ _ _ _ =>
      wrap_modEq _ _,
    vint_writes hc hp (fun x y _ => max 0 ((x : Int) - y)) (rfl : _ = execVssubU e m d a b s)
      fun x y _ hx _ => satU_of_lt (v := x - y) (w := bitsOf e) (by zify at hx; omega) ▸ wrap_modEq _ _,
    vint_writes (e := .w16) hc hp (fun x y _ => satS (shiftRound (toS 16 x * toS 16 y) 15) 16)
      (rfl : _ = execVqmul m d a b s) fun _ _ _ _ _ => wrap_modEq _ _,
    vint_writes (e := .w16) hc ha (fun x _ _ => satS (toS 16 x) n.toNat) (rfl : _ = execVqsatI16 m d a n s)
      fun _ _ _ _ _ => wrap_modEq _ _,
    vint_writes (e := .w32) hc ha (fun x _ _ => satS (toS 32 x) n.toNat) (rfl : _ = execVqsatI32 m d a n s)
      fun _ _ _ _ _ => wrap_modEq _ _,
    vqmac_writes hc hp, vqrnd_writes hc hda rfl, vqrnd_writes hc hda rfl⟩

end Sys2Proof
end

section
/-! SUPPORT. O32, O33: moves, broadcasts, single lanes, random numbers, and conversions (R150, R176–R178, R180). -/

namespace Sys2Proof

open Machine

section
variable {s : State} {p : Proc} {i : Instr} {w : Nat} {m : PIdx} {d : VIdx} (hc : s.cpu = some p)
include hc

/-- The results of lanes, up to what is congruent modulo 2^w. -/
theorem vgen_writes {srcs : List VIdx} {push : Bool} {f : Proc → Nat → Nat} (h : Plain p (d :: srcs))
    (g : Nat → Nat) (he : exec i s = s.vgen i w m d srcs push fun p l => plain (f p l))
    (hg : ∀ l, f p l % 2 ^ w = g l % 2 ^ w) : WritesVec i s p d w (merged p m d w g) 0 := by
  refine (vgen_laneOp hc h he).writes.congr fun l _ => ?_
  unfold merged
  split
  · exact hg l
  · rfl

/-- `vins` writes one lane (R178). -/
theorem vins_writes {e : ElW} {x y : XIdx} (h : Plain p [d]) :
    WritesVec (.vins e d x y) s p d (bitsOf e) (fun l =>
      if l = (p.getX y).toNat % (2048 / bitsOf e) then (p.getX x).toNat else lane (p.getV d) (bitsOf e) l) 0 := by
  refine vec_writes (u := { srcs := [], dst := some d, reads := true }) hc h rfl rfl rfl fun l hl => ?_
  rw [lane_putLanes _ _ hl]
  by_cases hxy : (p.getX y).toNat % (2048 / bitsOf e) = l
  · simp [hxy, plain]
  · simp [hxy, Ne.symm hxy]

/-- `vextr` reads one lane (R178). -/
theorem vextr_sets {e : ElW} {a : VIdx} {x y : XIdx} (h : Plain p [a]) :
    Completes (.vextr e x a y) s
      (behind (p.setX x (BitVec.ofNat 64 (lane (p.getV a) (bitsOf e) ((p.getX y).toNat % (2048 / bitsOf e))))) 4) := by
  refine vec_sets (u := { srcs := [a] }) hc h rfl (no_flags_enabled _) ?_
  exact congrArg (Proc.setX · x _) (fpflags_or_zero p)

end

/-- Settles O33: moves and broadcasts are lane operations without flags; `vins` puts one result into its lane. -/
theorem vectorMoves : Obligations.VectorMoves := by
  unfold Obligations.VectorMoves
  intro s p e m d a x y hc hp
  have ha : Plain p [a] := hp.mono (by simp)
  have hd : Plain p [d] := hp.mono (by simp)
  have haa : Plain p [d, a, a] := hp.mono (by simp)
  have hmov : LaneOp (.vmov m d a) s p m d 32 _ := vlanes_laneOp hc haa (rfl : _ = execVmov m d a s)
  exact ⟨hmov.writes, vgen_writes hc hd (fun _ => 0) (rfl : _ = execVzero m d s) fun _ => rfl,
    vgen_writes hc hd (fun _ => (p.getX x).toNat) (rfl : _ = execVbcast e m d x s) fun _ => Nat.mod_mod ..,
    vgen_writes hc hd (fun l => (p.getX x).toNat + l) (rfl : _ = execVidx e m d x s) fun _ => Nat.mod_mod ..,
    vgen_writes hc hd _ (rfl : _ = execVrand m d x y s) fun _ => rfl,
    vins_writes hc hd, vextr_sets hc ha⟩

end Sys2Proof
end

section
/-! SUPPORT. O32: conversions (R176, R177), packing and unpacking (R178). -/

namespace Sys2Proof

open Machine

/-- Where the part of the narrower register that a conversion writes begins (Table 9.8). -/
abbrev cvtOff (wd ws : Nat) (part : BitVec 2) : Nat := if wd < ws then part.toNat * (2048 / max wd ws) else 0

/-- The lane of the source that an element of a conversion is read from (Table 9.8). -/
abbrev cvtLane (wd ws : Nat) (part : BitVec 2) (k : Nat) : Nat :=
  if ws < wd then part.toNat * (2048 / max wd ws) + k else k

theorem cvtOff_add (wd ws : Nat) (part : BitVec 2) (k : Nat) :
    (if wd < ws then part.toNat * (2048 / max wd ws) + k else k) = cvtOff wd ws part + k := by
  unfold cvtOff
  split <;> omega

/-- The wide lane that an element of a packing is read from (R178). -/
abbrev Machine.Proc.packLane (p : Proc) (w : Nat) (a b : VIdx) (k : Nat) : Nat :=
  lane (p.getV (if k < 2048 / w / 2 then a else b)) (2 * w) (k % (2048 / w / 2))

theorem packLane_eq (p : Proc) (a b : VIdx) {t : PackT} {k : Nat} (hk : k < 2048 / (packOf t).1) :
    (if k < 2048 / (packOf t).1 / 2 then lane (p.getV a) (2 * (packOf t).1) k
      else lane (p.getV b) (2 * (packOf t).1) (k - 2048 / (packOf t).1 / 2)) = p.packLane (packOf t).1 a b k := by
  have heven : 2 ∣ 2048 / (packOf t).1 := by cases t <;> decide
  unfold Proc.packLane
  split
  next h => rw [Nat.mod_eq_of_lt h]
  next h => rw [Nat.mod_eq_sub_mod (not_lt.mp h), Nat.mod_eq_of_lt (by omega)]

theorem exec_vcvt (dst src : CvtT) (rc : Rc) (part : BitVec 2) (m : PIdx) (d a : VIdx) (s : State) :
    exec (.vcvt dst src rc part m d a) s = s.vmove (.vcvt dst src rc part m d a) m d [a]
      (decide (cvtWidth dst < cvtWidth src)) (2048 / max (cvtWidth dst) (cvtWidth src)) (cvtWidth dst)
      (fun k => if cvtWidth dst < cvtWidth src then part.toNat * (2048 / max (cvtWidth dst) (cvtWidth src)) + k else k)
      fun p k => convertLane dst src (p.mode rc)
        (lane (p.getV a) (cvtWidth src) (cvtLane (cvtWidth dst) (cvtWidth src) part k)) := rfl

theorem exec_vcvtSr (sr : SrT) (part : BitVec 2) (m : PIdx) (d a b : VIdx) (s : State) :
    exec (.vcvtSr sr part m d a b) s = s.vmove (.vcvtSr sr part m d a b) m d [a, b] true 64 (srFmt sr).bits
      (fun k => part.toNat * 64 + k)
      fun p k => (srFmt sr).convertSr (lane (p.getV b) 32 k) (fp32.decode (lane (p.getV a) 32 k)) := rfl

theorem exec_vpack (t : PackT) (m : PIdx) (d a b : VIdx) (s : State) :
    exec (.vpack t m d a b) s = s.vmove (.vpack t m d a b) m d [a, b] false (2048 / (packOf t).1) (packOf t).1 (fun k => k)
      fun p k =>
        let w := (packOf t).1
        let v := toS (2 * w)
          (if k < 2048 / w / 2 then lane (p.getV a) (2 * w) k else lane (p.getV b) (2 * w) (k - 2048 / w / 2))
        plain (wrap w (if (packOf t).2 then satS v w else satU v w)) := rfl

theorem exec_vunpk (t : PackT) (part : BitVec 2) (m : PIdx) (d a : VIdx) (s : State) :
    exec (.vunpk t part m d a) s = s.vmove (.vunpk t part m d a) m d [a] false (2048 / (packOf t).1 / 2) (2 * (packOf t).1)
      (fun k => k)
      fun p k =>
        let v := lane (p.getV a) (packOf t).1 (part.toNat * (2048 / (packOf t).1 / 2) + k)
        plain (if (packOf t).2 then wrap (2 * (packOf t).1) (toS (packOf t).1 v) else v) := rfl

section
variable {s : State} {p : Proc} {m : PIdx} {d a b : VIdx} (hc : s.cpu = some p)
include hc

/-- The lanes of two registers packed (R178). -/
theorem vpack_writes {t : PackT} (h : Plain p [d, a, b]) :
    WritesVec (.vpack t m d a b) s p d (packOf t).1 (merged p m d (packOf t).1 fun k =>
      let v := toS (2 * (packOf t).1) (p.packLane (packOf t).1 a b k)
      wrap (packOf t).1 (if (packOf t).2 then satS v (packOf t).1 else satU v (packOf t).1)) 0 := by
  refine (vmove_elements (off := 0) hc h (exec_vpack ..) fun k => (Nat.zero_add k).symm).laneOp.writes.congr fun l hl => ?_
  simp only [merged, packLane_eq p a b hl]

theorem vunpk_writes {t : PackT} {part : BitVec 2} (h : Plain p [d, a]) :
    WritesVec (.vunpk t part m d a) s p d (2 * (packOf t).1) (merged p m d (2 * (packOf t).1) fun k =>
      let v := lane (p.getV a) (packOf t).1 (part.toNat * (2048 / (packOf t).1 / 2) + k)
      if (packOf t).2 then wrap (2 * (packOf t).1) (toS (packOf t).1 v) else v) 0 := by
  have hn : 2048 / (packOf t).1 / 2 = 2048 / (2 * (packOf t).1) := by
    rw [Nat.div_div_eq_div_mul, Nat.mul_comm]
  have hop := vmove_elements (off := 0) hc h (exec_vunpk t part m d a s) fun k => (Nat.zero_add k).symm
  rw [hn] at hop
  rw [hn]
  exact hop.laneOp.writes

end

/-- Settles O32: each conversion gives elements their results in the lanes from the start of their part on. -/
theorem vectorConversions : Obligations.VectorConversions := by
  unfold Obligations.VectorConversions
  intro s p dst src rc sr pk part m d a b hc hp
  have ha : Plain p [d, a] := hp.mono (by simp)
  simp only [← toS_eq_ite]
  refine ⟨?_, ?_, vpack_writes hc hp, fun _ => vunpk_writes hc ha⟩
  · rintro _ rfl -
    have hop := vmove_elements hc ha (exec_vcvt dst src rc part m d a s) fun k => cvtOff_add ..
    exact hop
  · rintro _ rfl -
    have hop := vmove_elements hc hp (exec_vcvtSr sr part m d a b s) fun _ => rfl
    exact hop

end Sys2Proof
end

section
/-! SUPPORT. O34: special functions (R148, R149, R179, Table 7.7). -/

namespace Sys2Proof

open Machine

/-! Special arguments -/

section
variable {c : Nat} (step : BitVec 4)

theorem specialFn_nan (g : SpFn) {q : Bool} (h : fp32.decode c = .nan q) :
    g.apply step c = (fp32.nan, if q then 0 else fNV) := by
  cases g <;> simp only [SpFn.apply, h] <;> cases q <;> rfl

theorem recip_zero {sg : Bool} {e : Int} (h : fp32.decode c = .fin sg 0 e) :
    SpFn.recip.apply step c = (fp32.inf sg, fDZ) := by
  simp only [SpFn.apply, h, if_true]

theorem rsqrt_zero {sg : Bool} {e : Int} (h : fp32.decode c = .fin sg 0 e) :
    SpFn.rsqrt.apply step c = (fp32.inf sg, fDZ) := by
  simp only [SpFn.apply, h, if_true]

theorem log2_zero {sg : Bool} {e : Int} (h : fp32.decode c = .fin sg 0 e) :
    SpFn.log2.apply step c = (fp32.inf true, fDZ) := by
  simp only [SpFn.apply, h, if_true]

theorem rsqrt_negative {k : Nat} {e : Int} (h : fp32.decode c = .fin true (k + 1) e) :
    SpFn.rsqrt.apply step c = (fp32.nan, fNV) := by
  simp only [SpFn.apply, h, Nat.succ_ne_zero, if_false, if_true]
  rfl

theorem log2_negative {k : Nat} {e : Int} (h : fp32.decode c = .fin true (k + 1) e) :
    SpFn.log2.apply step c = (fp32.nan, fNV) := by
  simp only [SpFn.apply, h, Nat.succ_ne_zero, if_false, if_true]
  rfl

theorem sqrt_negative (m : Rm) {k : Nat} {e : Int} (h : fp32.decode c = .fin true (k + 1) e) :
    fp32.sqrt m c = (fp32.nan, fNV) := by
  simp only [Fmt.sqrt, h, Nat.succ_ne_zero, if_false, if_true]
  rfl

end

/-! Lanes (R179) -/

/-- A function of FP32 codes on a lane: one of 16 bits is widened and rounded back. -/
def widened (t : FpT) (g : Nat → Rounded) (x : Nat) : Rounded :=
  if t = .f32 then g x
  else
    let wide := fp32.convert .rne ((fmtOf t).decode x)
    let y := g wide.1
    let z := (fmtOf t).convert .rne (fp32.decode y.1)
    (z.1, wide.2 ||| y.2 ||| z.2)

theorem vspecial_eq (s : State) (i : Instr) (t : FpT) (m : PIdx) (d a : VIdx) (g : Nat → Rounded) :
    s.vspecial i t m d a g = s.vlanes i (fmtOf t).bits m d a a false fun _ _ x _ _ => widened t g x := by
  cases t <;> rfl

theorem vspecial_laneOp {s : State} {p : Proc} {i : Instr} {t : FpT} {m : PIdx} {d a : VIdx} {g : Nat → Rounded}
    (hc : s.cpu = some p) (h : Plain p [d, a]) (he : exec i s = s.vspecial i t m d a g) :
    LaneOp i s p m d (fmtOf t).bits fun l => widened t g (lane (p.getV a) (fmtOf t).bits l) :=
  vlanes_laneOp (f := fun _ _ x _ _ => widened t g x) hc (h.mono (by simp)) (he.trans (vspecial_eq ..))

theorem exec_vsqrt {s : State} {p : Proc} (hc : s.cpu = some p) (t : FpT) (rc : Rc) (m : PIdx) (d a : VIdx) :
    exec (.vsqrt t rc m d a) s = s.vspecial (.vsqrt t rc m d a) t m d a (fp32.sqrt (p.mode rc)) := by
  show execVsqrt t rc m d a s = _
  simp only [execVsqrt, hc]

/-- Settles O34: each instruction gives its lanes the value of its function, widened and rounded back; the special arguments
are cases of the functions. -/
theorem specialFunctions : Obligations.SpecialFunctions := by
  unfold Obligations.SpecialFunctions
  refine ⟨fun s p t rc m d a hc hp => ?_, fun g step c q h => specialFn_nan step g h, fun step sg e c k => ⟨fun h =>
    ⟨recip_zero step h, rsqrt_zero step h, log2_zero step h⟩, fun h =>
    ⟨rsqrt_negative step h, log2_negative step h, fun rm => sqrt_negative rm h⟩⟩⟩
  exact ⟨vspecial_laneOp hc hp (rfl : _ = execVrecip t m d a s), vspecial_laneOp hc hp (rfl : _ = execVrsqrt t m d a s),
    vspecial_laneOp hc hp (rfl : _ = execVexp2 t m d a s), vspecial_laneOp hc hp (rfl : _ = execVlog2 t m d a s),
    vspecial_laneOp hc hp (rfl : _ = execVsin t m d a s), vspecial_laneOp hc hp (rfl : _ = execVcos t m d a s),
    vspecial_laneOp hc hp (rfl : _ = execVtanh t m d a s), vspecial_laneOp hc hp (rfl : _ = execVsigm t m d a s),
    vspecial_laneOp hc hp (exec_vsqrt hc t rc m d a)⟩

end Sys2Proof
end

section
/-! SUPPORT. The tree and the scan of R147 and R183 on lists: sums modulo 2^w, and the greatest in an order. -/

namespace Sys2Proof

open Machine

/-! The tree of R147 -/

/-- What every step of the tree keeps of its list holds of the result alone. -/
theorem tree_keeps {op : Nat → Nat → Rounded} {Q : List Nat → Prop}
    (hstep : ∀ ts h, ts.length = 2 * h → Q ts → Q ((List.zipWith op (ts.take h) (ts.drop h)).map (·.1))) {n k : Nat}
    {ts : List Nat} {fl : Flags} (hk : k ≤ n) (hts : ts.length = 2 ^ k) (hq : Q ts) : Q [(tree op n ts fl).1] := by
  induction n generalizing k ts fl with
  | zero =>
    obtain rfl : k = 0 := by omega
    obtain ⟨x, rfl⟩ := List.length_eq_one_iff.mp hts
    exact hq
  | succ n ih =>
    cases k with
    | zero =>
      obtain ⟨x, rfl⟩ := List.length_eq_one_iff.mp hts
      rwa [tree, if_pos (by simp)]
    | succ k =>
      have hlen : ts.length = 2 * 2 ^ k := by rw [hts]; ring
      have hhalf : ts.length / 2 = 2 ^ k := by omega
      rw [tree, hhalf, if_neg (Nat.two_pow_pos k).ne']
      refine ih (k := k) (by omega) ?_ (hstep ts _ hlen hq)
      rw [List.length_map, List.length_zipWith, List.length_take, List.length_drop]
      omega

/-- Operations without flags leave the tree without flags. -/
theorem tree_flags {h : Nat → Nat → Nat} (n : Nat) (ts : List Nat) (fl : Flags) :
    (tree (fun x y => plain (h x y)) n ts fl).2 = fl := by
  induction n generalizing ts fl with
  | zero => rfl
  | succ n ih =>
    rw [tree]
    split
    · rfl
    · rw [ih, ← List.map_uncurry_zip_eq_zipWith, List.foldl_map]
      exact List.foldl_fixed' (fun _ => BitVec.or_zero) _

/-- The tree of sums modulo 2^w. -/
theorem tree_sum {w n k : Nat} {ts : List Nat} {fl : Flags} (hk : k ≤ n) (hts : ts.length = 2 ^ k) :
    (tree (fun x y => plain ((x + y) % 2 ^ w)) n ts fl).1 ≡ ts.sum [MOD 2 ^ w] := by
  have hzip : ∀ xs ys : List Nat, xs.length = ys.length →
      ((List.zipWith (fun x y => plain ((x + y) % 2 ^ w)) xs ys).map (·.1)).sum ≡ xs.sum + ys.sum [MOD 2 ^ w] := by
    intro xs
    induction xs with
    | nil => simp +contextual [eq_comm, Nat.ModEq]
    | cons x xs ih =>
      rintro (_ | ⟨y, ys⟩) hlen
      · simp at hlen
      · simp only [List.zipWith_cons_cons, List.map_cons, List.sum_cons]
        calc _ ≡ (x + y) + (xs.sum + ys.sum) [MOD 2 ^ w] := (Nat.mod_modEq _ _).add (ih ys (by simpa using hlen))
          _ = _ := by ring
  have h := tree_keeps (op := fun x y => plain ((x + y) % 2 ^ w)) (Q := fun us => us.sum ≡ ts.sum [MOD 2 ^ w]) (fl := fl)
    (fun us h hlen hq => (hzip _ _ (by simp; omega)).trans (by rwa [List.sum_take_add_sum_drop])) hk hts rfl
  simpa using h

/-- `sel` chooses the later of two numbers in an order. -/
structure Chooses (le : Nat → Nat → Prop) (sel : Nat → Nat → Nat) : Prop where
  trans : ∀ {x y z}, le x y → le y z → le x z
  choice : ∀ x y, sel x y = x ∨ sel x y = y
  left : ∀ x y, le x (sel x y)
  right : ∀ x y, le y (sel x y)

theorem Chooses.refl {le : Nat → Nat → Prop} {sel : Nat → Nat → Nat} (h : Chooses le sel) (x : Nat) : le x x := by
  have hle := h.left x x
  rcases h.choice x x with hx | hx <;> rwa [hx] at hle

/-- A tree of choices gives a greatest member. -/
theorem tree_greatest {le : Nat → Nat → Prop} {sel : Nat → Nat → Nat} (hsel : Chooses le sel) {n k : Nat} {ts : List Nat}
    {fl : Flags} (hk : k ≤ n) (hts : ts.length = 2 ^ k) :
    (tree (fun x y => plain (sel x y)) n ts fl).1 ∈ ts ∧
      ∀ v ∈ ts, le v (tree (fun x y => plain (sel x y)) n ts fl).1 := by
  have h := tree_keeps (op := fun x y => plain (sel x y))
    (Q := fun us => (∀ u ∈ us, u ∈ ts) ∧ ∀ v ∈ ts, ∃ u ∈ us, le v u) (fl := fl) (fun us h hlen hq => ?_) hk hts
    ⟨fun _ hu => hu, fun v hv => ⟨v, hv, hsel.refl v⟩⟩
  · simpa using h
  · obtain ⟨hmem, hle⟩ := hq
    constructor
    · rw [← List.map_uncurry_zip_eq_zipWith, List.map_map]
      intro u hu
      obtain ⟨⟨x, y⟩, hxy, rfl⟩ := List.mem_map.mp hu
      obtain ⟨hx, hy⟩ := List.of_mem_zip hxy
      rcases hsel.choice x y with he | he
      · exact hmem _ (List.mem_of_mem_take (he ▸ hx))
      · exact hmem _ (List.mem_of_mem_drop (he ▸ hy))
    · intro v hv
      obtain ⟨u, hu, hvu⟩ := hle v hv
      obtain ⟨j, hj, rfl⟩ := List.mem_iff_getElem.mp hu
      have hmax {i : Nat} (hi : i < h) : sel us[i] us[h + i] ∈
          (List.zipWith (fun x y => plain (sel x y)) (us.take h) (us.drop h)).map (·.1) := by
        refine List.mem_iff_getElem.mpr ⟨i, by simp; omega, ?_⟩
        simp [plain]
      by_cases hjh : j < h
      · exact ⟨_, hmax hjh, hsel.trans hvu (hsel.left _ _)⟩
      · obtain ⟨i, rfl⟩ := Nat.exists_eq_add_of_le (not_lt.mp hjh)
        exact ⟨_, hmax (i := i) (by omega), hsel.trans hvu (hsel.right _ _)⟩

/-! The scan of sums (R183) -/

/-- The sum of the first n numbers of a sequence. -/
def sumBelow (f : Nat → Nat) (n : Nat) : Nat := ((List.range n).map f).sum

theorem sumBelow_zero (f : Nat → Nat) : sumBelow f 0 = 0 := rfl

theorem sumBelow_succ (f : Nat → Nat) (n : Nat) : sumBelow f (n + 1) = sumBelow f n + f n := by
  simp [sumBelow, List.range_succ]

/-- Every lane holds the sum, modulo 2^w, of the `st` numbers up to it. -/
def SumsOf (f : Nat → Nat) (w st : Nat) (ts : List Nat) : Prop :=
  ∀ l, (h : l < ts.length) → ts[l] + sumBelow f (l + 1 - st) ≡ sumBelow f (l + 1) [MOD 2 ^ w]

theorem sumsOf_one (f : Nat → Nat) (w n : Nat) : SumsOf f w 1 ((List.range n).map f) := by
  intro l hl
  rw [Nat.add_sub_cancel, sumBelow_succ, List.getElem_map, List.getElem_range, Nat.add_comm]

/-- As many numbers as there are lanes are all numbers. -/
theorem SumsOf.all {f : Nat → Nat} {w st : Nat} {ts : List Nat} (h : SumsOf f w st ts) (hst : ts.length ≤ st) {l : Nat}
    (hl : l < ts.length) : ts.getD l 0 ≡ sumBelow f (l + 1) [MOD 2 ^ w] := by
  have hsum := h l hl
  rwa [Nat.sub_eq_zero_of_le (by omega), sumBelow_zero, Nat.add_zero, ← List.getD_eq_getElem ts 0 hl] at hsum

/-- A step of the scan of sums (R183). -/
theorem SumsOf.step {f : Nat → Nat} {w st : Nat} {ts : List Nat} (h : SumsOf f w st ts) (hst : st < ts.length) :
    SumsOf f w (2 * st) (ts.take st ++
      (List.zipWith (fun x y => plain ((x + y) % 2 ^ w)) ts (ts.drop st)).map (·.1)) := by
  intro l hl
  have hlt : l < ts.length := by
    simp at hl
    omega
  by_cases hlow : l < st
  · have hsum := h l hlt
    rw [Nat.sub_eq_zero_of_le (by omega)] at hsum ⊢
    simpa [List.getElem_append, hlow, hst.le] using hsum
  · obtain ⟨j, rfl⟩ := Nat.exists_eq_add_of_le (not_lt.mp hlow)
    have hj := h j (by omega)
    have hl := h (st + j) hlt
    rw [show st + j + 1 - st = j + 1 by omega] at hl
    rw [show st + j + 1 - 2 * st = j + 1 - st by omega]
    simp only [List.getElem_append, List.length_take, hst.le, inf_of_le_left, hlow, dite_false, List.getElem_map,
      List.getElem_zipWith, List.getElem_drop, plain, Nat.add_sub_cancel_left]
    calc (ts[j] + ts[st + j]) % 2 ^ w + sumBelow f (j + 1 - st)
        ≡ ts[j] + ts[st + j] + sumBelow f (j + 1 - st) [MOD 2 ^ w] := (Nat.mod_modEq _ _).add_right _
      _ = ts[j] + sumBelow f (j + 1 - st) + ts[st + j] := by ring
      _ ≡ sumBelow f (j + 1) + ts[st + j] [MOD 2 ^ w] := hj.add_right _
      _ = ts[st + j] + sumBelow f (j + 1) := by ring
      _ ≡ sumBelow f (st + j + 1) [MOD 2 ^ w] := hl

/-- The scan of sums gives each lane the sum of all numbers up to it. -/
theorem scanSteps_sum {w : Nat} {f : Nat → Nat} {n st : Nat} {ts : List Nat} {fl : LaneRes}
    (hlen : ts.length ≤ st * 2 ^ n) (hts : SumsOf f w st ts) {l : Nat} (hl : l < ts.length) :
    (scanSteps (fun x y => plain ((x + y) % 2 ^ w)) n st ts fl).1.getD l 0 ≡ sumBelow f (l + 1) [MOD 2 ^ w] := by
  induction n generalizing st ts fl with
  | zero => exact hts.all (by simpa using hlen) hl
  | succ n ih =>
    rw [scanSteps]
    split
    next hle => exact hts.all hle hl
    next hlt =>
      have hst := not_le.mp hlt
      refine ih ?_ (hts.step hst) ?_
      all_goals simp only [List.length_append, List.length_take, List.length_map, List.length_zipWith, List.length_drop]
      · rw [Nat.pow_succ] at hlen
        have : 2 * st * 2 ^ n = st * (2 ^ n * 2) := by ring
        omega
      · omega

/-- Operations without flags leave a scan without flags. -/
theorem scanSteps_flags {h : Nat → Nat → Nat} (n st : Nat) (ts : List Nat) (fl : LaneRes) :
    flagsOf (scanSteps (fun x y => plain (h x y)) n st ts fl).2 = flagsOf fl := by
  induction n generalizing st ts fl with
  | zero => rfl
  | succ n ih =>
    rw [scanSteps]
    split
    · rfl
    · rw [ih, flagsOf, List.foldl_append, List.foldl_map, ← List.map_uncurry_zip_eq_zipWith, List.zipIdx_map,
        List.foldl_map]
      exact List.foldl_fixed' (fun _ => BitVec.or_zero) _

end Sys2Proof
end

section
/-! SUPPORT. O35: reductions and scans (R147, R182, R183). -/

namespace Sys2Proof

open Machine

/-! The lanes that a reduction combines (R182) -/

/-- The lanes of v[A] that enter a reduction, the inactive ones as the identity. -/
abbrev Machine.Proc.redLanes (p : Proc) (w : Nat) (m : PIdx) (a : VIdx) (ident : Nat) : List Nat :=
  (List.range (2048 / w)).map fun l => if active (p.getP m) l (2048 / w) = true then lane (p.getV a) w l else ident

/-- The active lanes of v[A]. -/
abbrev Machine.Proc.activeLanes (p : Proc) (w : Nat) (m : PIdx) (a : VIdx) : List Nat :=
  ((List.range (2048 / w)).filter fun l => active (p.getP m) l (2048 / w)).map fun l => lane (p.getV a) w l

theorem sum_map_ite (c : Nat → Bool) (f : Nat → Nat) (ls : List Nat) :
    (ls.map fun l => if c l = true then f l else 0).sum = ((ls.filter c).map f).sum := by
  induction ls with
  | nil => rfl
  | cons l ls ih => cases h : c l <;> simp [h, ih]

theorem lanes_int_eq_pow (e : ElW) : ∃ k ≤ 9, 2048 / bitsOf e = 2 ^ k := by
  cases e
  · exact ⟨6, by decide⟩
  · exact ⟨7, by decide⟩
  · exact ⟨8, by decide⟩

/-- Lane 0 of v[D] takes the last in an order, of the active lanes of v[A] and itself (R182). -/
def WritesGreatest (i : Instr) (s : State) (p : Proc) (w : Nat) (m : PIdx) (d a : VIdx) (le : Nat → Nat → Prop) : Prop :=
  ∃ r, WritesVec i s p d w (fun l => if l = 0 then r else lane (p.getV d) w l) 0 ∧
    r ∈ lane (p.getV d) w 0 :: p.activeLanes w m a ∧ ∀ v ∈ lane (p.getV d) w 0 :: p.activeLanes w m a, le v r

theorem chooses_later (key : Nat → Int) :
    Chooses (fun x y => key x ≤ key y) fun x y => if key y ≤ key x then x else y where
  trans := le_trans
  choice := by grind
  left := by grind
  right := by grind

theorem chooses_earlier (key : Nat → Int) :
    Chooses (fun x y => key y ≤ key x) fun x y => if key x ≤ key y then x else y where
  trans := ge_trans
  choice := by grind
  left := by grind
  right := by grind

/-- The lowest signed number is the only one not above itself. -/
theorem eq_lowest_of_toS_le {e : ElW} {x : Nat} (hx : x < 2 ^ bitsOf e)
    (hle : toS (bitsOf e) x ≤ toS (bitsOf e) (2 ^ (bitsOf e - 1))) : x = 2 ^ (bitsOf e - 1) := by
  cases e <;> simp only [bitsOf, toS] at hx hle ⊢ <;> omega

/-- The highest signed number is the only one not below itself. -/
theorem eq_highest_of_le_toS {e : ElW} {x : Nat} (hx : x < 2 ^ bitsOf e)
    (hle : toS (bitsOf e) (2 ^ (bitsOf e - 1) - 1) ≤ toS (bitsOf e) x) : x = 2 ^ (bitsOf e - 1) - 1 := by
  cases e <;> simp only [bitsOf, toS] at hx hle ⊢ <;> omega

theorem exec_vredsum_f (t : FpT) (m : PIdx) (d a : VIdx) (s : State) :
    exec (.vredsum (.f t) m d a) s = s.vreduce (.vredsum (.f t) m d a) (.f t) m d a
      (fun p x y => (fmtOf t).add p.rm ((fmtOf t).decode x) ((fmtOf t).decode y)) (2 ^ ((fmtOf t).bits - 1)) := by
  rw [signBit_fmtOf]
  rfl

theorem exec_vredmax_f (t : FpT) (m : PIdx) (d a : VIdx) (s : State) :
    exec (.vredmax (.f t) m d a) s = s.vreduce (.vredmax (.f t) m d a) (.f t) m d a
      (fun _ x y => (fmtOf t).pick true x y) ((fmtOf t).inf true) := rfl

theorem exec_vredmin_f (t : FpT) (m : PIdx) (d a : VIdx) (s : State) :
    exec (.vredmin (.f t) m d a) s = s.vreduce (.vredmin (.f t) m d a) (.f t) m d a
      (fun _ x y => (fmtOf t).pick false x y) ((fmtOf t).inf false) := rfl

section
variable {s : State} {p : Proc} {i : Instr} {m : PIdx} {d a : VIdx} (hc : s.cpu = some p) (h : Plain p [d, a])
include hc h

/-- A reduction writes lane 0 of v[D], or raises ARITH. -/
theorem vreduce_result {t : RedT} {w : Nat} (hw : redBits t = w) {op : Proc → Nat → Nat → Rounded} {ident : Nat}
    (he : exec i s = s.vreduce i t m d a op ident) :
    let r := tree (op p) 9 (p.redLanes w m a ident) 0
    let v := op p r.1 (lane (p.getV d) w 0)
    if (r.2 ||| v.2) &&& p.enables = 0 then
      WritesVec i s p d w (fun l => if l = 0 then v.1 else lane (p.getV d) w l) (r.2 ||| v.2)
    else RaisesArith i s p (r.2 ||| v.2) := by
  subst hw
  intro r v
  have hres := vec_result (u := { srcs := [a], dst := some d, reads := true }) (ls := [(0, (v.1, r.2 ||| v.2))])
    (v := putLanes (p.getV d) (redBits t) [(0, (v.1, r.2 ||| v.2))]) hc (h.mono (by simp [or_comm])) he rfl rfl (redBits t)
  rw [show flagsOf [(0, (v.1, r.2 ||| v.2))] = r.2 ||| v.2 from BitVec.zero_or] at hres
  split
  next hfl =>
    rw [if_pos hfl] at hres
    refine hres.congr fun l hl => ?_
    rw [lane_putLanes _ _ hl]
    cases l <;> simp
  next hfl => rwa [if_neg hfl] at hres

/-- A reduction without flags writes lane 0 of v[D]. -/
theorem vreduce_writes {t : RedT} {f : Nat → Nat → Nat} {ident : Nat}
    (he : exec i s = s.vreduce i t m d a (fun _ x y => plain (f x y)) ident) :
    WritesVec i s p d (redBits t) (fun l =>
      if l = 0 then
        f (tree (fun x y => plain (f x y)) 9 (p.redLanes (redBits t) m a ident) 0).1 (lane (p.getV d) (redBits t) 0)
      else lane (p.getV d) (redBits t) l) 0 := by
  have hres := vreduce_result hc h rfl he
  have hfl : (tree (fun x y => plain (f x y)) 9 (p.redLanes (redBits t) m a ident) 0).2 ||| (0 : Flags) = 0 := by
    rw [tree_flags]
    rfl
  dsimp only [plain] at hres hfl
  rwa [hfl, if_pos (no_flags_enabled _)] at hres

/-- The sum modulo 2^w (R182). -/
theorem vredsum_writes (e : ElW) :
    WritesVec (.vredsum (.i e) m d a) s p d (bitsOf e) (fun l =>
      if l = 0 then (lane (p.getV d) (bitsOf e) 0 :: p.activeLanes (bitsOf e) m a).sum % 2 ^ bitsOf e
      else lane (p.getV d) (bitsOf e) l) 0 := by
  have he : exec (.vredsum (.i e) m d a) s = s.vreduce (.vredsum (.i e) m d a) (.i e) m d a
      (fun _ x y => plain ((x + y) % 2 ^ bitsOf e)) 0 := rfl
  refine (vreduce_writes hc h he).congr fun l _ => ?_
  obtain ⟨k, hk, hlanes⟩ := lanes_int_eq_pow e
  split
  · have htree := tree_sum (w := bitsOf e) (fl := 0) (ts := p.redLanes (bitsOf e) m a 0) hk (by simpa using hlanes)
    rw [Proc.redLanes, sum_map_ite] at htree
    rw [List.sum_cons, Nat.add_comm (lane (p.getV d) (bitsOf e) 0)]
    exact congrArg (· % 2 ^ bitsOf e) (htree.add_right _)
  · rfl

/-- The greatest lane in an order that has the identity as its least number of w bits (R182). -/
theorem vreduce_greatest {t : RedT} {le : Nat → Nat → Prop} {sel : Nat → Nat → Nat} {ident k : Nat}
    (he : exec i s = s.vreduce i t m d a (fun _ x y => plain (sel x y)) ident) (hsel : Chooses le sel)
    (hleast : ∀ x < 2 ^ redBits t, le x ident → x = ident) (hk : k ≤ 9) (hlanes : 2048 / redBits t = 2 ^ k) :
    WritesGreatest i s p (redBits t) m d a le := by
  refine ⟨_, vreduce_writes hc h he, ?_⟩
  obtain ⟨hmem, hle⟩ := tree_greatest (fl := 0) (ts := p.redLanes (redBits t) m a ident) hsel hk (by simpa using hlanes)
  set r := (tree (fun x y => plain (sel x y)) 9 (p.redLanes (redBits t) m a ident) 0).1
  set z := lane (p.getV d) (redBits t) 0
  constructor
  · rcases hsel.choice r z with hrz | hrz
    · have hz := hsel.right r z
      rw [hrz] at hz ⊢
      obtain ⟨l, hl, hlr⟩ := List.mem_map.mp hmem
      split at hlr
      next hact => exact List.mem_cons_of_mem _ (List.mem_map.mpr ⟨l, List.mem_filter.mpr ⟨hl, hact⟩, hlr⟩)
      next => exact List.mem_cons.mpr (.inl (hlr.symm.trans (hleast z (lane_lt ..) (hlr ▸ hz)).symm))
    · exact List.mem_cons.mpr (.inl hrz)
  · intro v hv
    rcases List.mem_cons.mp hv with rfl | hv
    · exact hsel.right r _
    · refine hsel.trans (hle v ?_) (hsel.left r z)
      simp only [Proc.activeLanes, List.mem_map, List.mem_filter] at hv ⊢
      obtain ⟨l, ⟨hl, hact⟩, rfl⟩ := hv
      exact ⟨l, hl, if_pos hact⟩

theorem vredmax_signed (e : ElW) :
    WritesGreatest (.vredmax (.i e) m d a) s p (bitsOf e) m d a fun x y => toS (bitsOf e) x ≤ toS (bitsOf e) y := by
  have he : exec (.vredmax (.i e) m d a) s = s.vreduce (.vredmax (.i e) m d a) (.i e) m d a
      (fun _ x y => plain (if toS (bitsOf e) y ≤ toS (bitsOf e) x then x else y)) (2 ^ (bitsOf e - 1)) := rfl
  obtain ⟨k, hk, hlanes⟩ := lanes_int_eq_pow e
  exact vreduce_greatest hc h he (chooses_later (toS (bitsOf e))) (fun _ => eq_lowest_of_toS_le) hk hlanes

theorem vredmin_signed (e : ElW) :
    WritesGreatest (.vredmin (.i e) m d a) s p (bitsOf e) m d a fun x y => toS (bitsOf e) y ≤ toS (bitsOf e) x := by
  have he : exec (.vredmin (.i e) m d a) s = s.vreduce (.vredmin (.i e) m d a) (.i e) m d a
      (fun _ x y => plain (if toS (bitsOf e) x ≤ toS (bitsOf e) y then x else y)) (2 ^ (bitsOf e - 1) - 1) := rfl
  obtain ⟨k, hk, hlanes⟩ := lanes_int_eq_pow e
  exact vreduce_greatest hc h he (chooses_earlier (toS (bitsOf e))) (fun _ => eq_highest_of_le_toS) hk hlanes

theorem vredmax_unsigned (e : ElW) : WritesGreatest (.vredmax (.u e) m d a) s p (bitsOf e) m d a (· ≤ ·) := by
  have he : exec (.vredmax (.u e) m d a) s = s.vreduce (.vredmax (.u e) m d a) (.u e) m d a
      (fun _ x y => plain (max x y)) 0 := rfl
  obtain ⟨k, hk, hlanes⟩ := lanes_int_eq_pow e
  exact vreduce_greatest hc h he ⟨le_trans, max_choice, le_max_left, le_max_right⟩ (fun _ _ hle => Nat.le_zero.mp hle) hk
    hlanes

theorem vredmin_unsigned (e : ElW) : WritesGreatest (.vredmin (.u e) m d a) s p (bitsOf e) m d a (· ≥ ·) := by
  have he : exec (.vredmin (.u e) m d a) s = s.vreduce (.vredmin (.u e) m d a) (.u e) m d a
      (fun _ x y => plain (min x y)) (2 ^ bitsOf e - 1) := rfl
  obtain ⟨k, hk, hlanes⟩ := lanes_int_eq_pow e
  exact vreduce_greatest hc h he ⟨ge_trans, min_choice, min_le_left, min_le_right⟩
    (fun _ hx hle => le_antisymm (Nat.le_sub_one_of_lt hx) hle) hk hlanes

end

/-! The scan of integers (R183) -/

/-- What `vscan` computes (R183). -/
def Machine.Proc.scanRes (p : Proc) (w : Nat) (m : PIdx) (d a : VIdx) (op : Nat → Nat → Rounded) (ident : Nat) : VRes :=
  let r := scanSteps op 8 1 (p.redLanes w m a ident) []
  { v := some (putLanes (p.getV d) w (laneMap (p.getP m) w fun l => plain (r.1.getD l 0))), w := w, lanes := r.2 }

theorem exec_vscan_i32 (m : PIdx) (d a : VIdx) (s : State) :
    exec (.vscan .i32 m d a) s = s.vec (.vscan .i32 m d a) { srcs := [a], dst := some d, push := m == 0 } fun p =>
      p.scanRes 32 m d a (fun x y => plain ((x + y) % 2 ^ 32)) 0 := by
  show execVscan .i32 m d a s = _
  unfold execVscan Proc.scanRes Proc.redLanes
  dsimp only

theorem exec_vscan_i16 (m : PIdx) (d a : VIdx) (s : State) :
    exec (.vscan .i16 m d a) s = s.vec (.vscan .i16 m d a) { srcs := [a], dst := some d, push := m == 0 } fun p =>
      p.scanRes 16 m d a (fun x y => plain ((x + y) % 2 ^ 16)) 0 := by
  show execVscan .i16 m d a s = _
  unfold execVscan Proc.scanRes Proc.redLanes
  dsimp only

theorem exec_vscan_f32 (m : PIdx) (d a : VIdx) (s : State) :
    exec (.vscan .f32 m d a) s = s.vec (.vscan .f32 m d a) { srcs := [a], dst := some d, push := m == 0 } fun p =>
      p.scanRes 32 m d a (fun x y => fp32.add p.rm (fp32.decode x) (fp32.decode y)) (fp32.signed true 0) := by
  show execVscan .f32 m d a s = _
  unfold execVscan Proc.scanRes Proc.redLanes
  dsimp only

section
variable {s : State} {p : Proc} {i : Instr} {m : PIdx} {d a : VIdx} (hc : s.cpu = some p) (h : Plain p [d, a])
include hc h

/-- A scan writes the lanes that its steps come to, or raises ARITH. -/
theorem vscan_result {w : Nat} {op : Proc → Nat → Nat → Rounded} {ident : Nat}
    (he : exec i s = s.vec i { srcs := [a], dst := some d, push := m == 0 } fun p => p.scanRes w m d a (op p) ident) :
    let r := scanSteps (op p) 8 1 (p.redLanes w m a ident) []
    if flagsOf r.2 &&& p.enables = 0 then WritesVec i s p d w (merged p m d w fun l => r.1.getD l 0) (flagsOf r.2)
    else RaisesArith i s p (flagsOf r.2) := by
  intro r
  have hres := vec_result (v := putLanes (p.getV d) w (laneMap (p.getP m) w fun l => plain (r.1.getD l 0))) (ls := r.2) hc
    (h.mono (by simp [or_comm])) he rfl rfl w
  split
  next hfl =>
    rw [if_pos hfl] at hres
    refine hres.congr fun l hl => ?_
    rw [laneMap_eq_elements, lane_putLanes_elements _ _ _ _ _ hl, Nat.mod_mod]
    simp [merged, hl, plain]
  next hfl => rwa [if_neg hfl] at hres

/-- The scan of integers: the sums of the active lanes up to each (R183). -/
theorem vscan_writes_sums {w : Nat} (hw : 2048 / w ≤ 2 ^ 8)
    (he : exec i s = s.vec i { srcs := [a], dst := some d, push := m == 0 } fun p =>
      p.scanRes w m d a (fun x y => plain ((x + y) % 2 ^ w)) 0) :
    WritesVec i s p d w (merged p m d w fun l =>
      (((List.range (l + 1)).filter fun j => active (p.getP m) j (2048 / w)).map fun j => lane (p.getV a) w j).sum) 0 := by
  have hres := vscan_result (op := fun _ x y => plain ((x + y) % 2 ^ w)) hc h he
  dsimp only at hres
  rw [scanSteps_flags, show flagsOf [] = 0 from rfl, if_pos (no_flags_enabled _)] at hres
  refine hres.congr fun l hl => ?_
  have hsum := scanSteps_sum (fl := []) (n := 8) (ts := p.redLanes w m a 0) (by simpa using hw) (sumsOf_one _ w _)
    (l := l) (by simpa using hl)
  rw [sumBelow, sum_map_ite] at hsum
  unfold merged
  split
  · exact hsum
  · rfl

end

/-- Settles O35: each level of the tree keeps the sum of its list modulo 2^w, or its greatest member; each step of the scan of
integers doubles the number of lanes that a lane has summed up. -/
theorem reductions : Obligations.Reductions := by
  unfold Obligations.Reductions
  intro s p t e m d a hc hp
  simp only [← toS_eq_ite]
  have hsum := vreduce_result (w := (fmtOf t).bits) hc hp rfl (exec_vredsum_f t m d a s)
  have hmax := vreduce_result (w := (fmtOf t).bits) hc hp rfl (exec_vredmax_f t m d a s)
  have hmin := vreduce_result (w := (fmtOf t).bits) hc hp rfl (exec_vredmin_f t m d a s)
  exact ⟨vredsum_writes hc hp e, vredmax_signed hc hp e, vredmin_signed hc hp e, vredmax_unsigned hc hp e,
    vredmin_unsigned hc hp e, ⟨hsum, hmax, hmin⟩, vscan_writes_sums hc hp (by decide) (exec_vscan_i32 m d a s),
    vscan_writes_sums hc hp (by decide) (exec_vscan_i16 m d a s)⟩

end Sys2Proof
end

section
/-! SUPPORT. O36: permutes, and the floating-point scan (R183, R184). -/

namespace Sys2Proof

open Machine

/-- A lane of `vexpd`: as many source lanes have been taken as lanes below it are selected (R184). -/
theorem expand_getD (bs : List Bool) (vs : List Nat) (l : Nat) :
    (expand bs vs).getD l 0 = if bs.getD l false = true then vs.getD ((bs.take l).countP (· = true)) 0 else 0 := by
  fun_induction expand bs vs generalizing l with
  | case1 vs => simp
  | case2 _ _ _ ih | case3 _ ih | case4 _ _ ih =>
    cases l with
    | zero => rfl
    | succ l => simpa using ih l

theorem length_expand (bs : List Bool) (vs : List Nat) : (expand bs vs).length = bs.length := by
  fun_induction expand bs vs <;> simp_all

section
variable {s : State} {p : Proc} {i : Instr} {m : PIdx} {d a b : VIdx} {e : ElW} (hc : s.cpu = some p)
include hc

theorem vshuf_writes (h : Plain p [d, a, b]) :
    WritesVec (.vshuf e m d a b) s p d (bitsOf e) (merged p m d (bitsOf e) fun l =>
      lane (p.getV a) (bitsOf e) (lane (p.getV b) (bitsOf e) l % (2048 / bitsOf e))) 0 :=
  (vlanes_laneOp (f := fun p _ _ y _ => plain (lane (p.getV a) (bitsOf e) (y % (2048 / bitsOf e)))) hc h rfl).writes

theorem vrot_writes (x : XIdx) (h : Plain p [d, a]) :
    WritesVec (.vrot e m d a x) s p d (bitsOf e) (merged p m d (bitsOf e) fun l =>
      lane (p.getV a) (bitsOf e) ((l + (p.getX x).toNat) % (2048 / bitsOf e))) 0 :=
  vgen_writes hc h _ (rfl : _ = execVrot e m d a x s) fun _ => rfl

theorem vslide_writes (x : XIdx) (h : Plain p [d, a]) :
    WritesVec (.vslide e m d a x) s p d (bitsOf e) (merged p m d (bitsOf e) fun l =>
      let j : Int := l + (p.getX x).toInt
      if 0 ≤ j ∧ j < (2048 / bitsOf e : Nat) then lane (p.getV a) (bitsOf e) j.toNat else 0) 0 :=
  vgen_writes hc h _ (rfl : _ = execVslide e m d a x s) fun _ => rfl

/-- The active lanes at the low end (R184). -/
theorem vcomp_writes (h : Plain p [d, a]) :
    WritesVec (.vcomp e m d a) s p d (bitsOf e) (fun l => (p.activeLanes (bitsOf e) m a).getD l 0) 0 := by
  refine vec_writes (u := { srcs := [a], dst := some d, push := m == 0 }) hc (h.mono (by simp [or_comm])) rfl rfl rfl
    fun l _ => ?_
  refine lane_ofLanes (le_trans (Nat.mul_le_mul_left _ ?_) (Nat.mul_div_le 2048 (bitsOf e))) l
  rw [List.length_map]
  simpa using List.length_filter_le (fun l => active (p.getP m) l (2048 / bitsOf e)) (List.range (2048 / bitsOf e))

/-- The low lanes spread over the active ones (R184). -/
theorem vexpd_writes (h : Plain p [d, a]) :
    WritesVec (.vexpd e m d a) s p d (bitsOf e) (fun l =>
      if active (p.getP m) l (2048 / bitsOf e) = true then
        lane (p.getV a) (bitsOf e) ((List.range l).countP fun j => active (p.getP m) j (2048 / bitsOf e))
      else 0) 0 := by
  refine vec_writes (u := { srcs := [a], dst := some d, push := m == 0 }) hc (h.mono (by simp [or_comm])) rfl rfl rfl
    fun l hl => ?_
  have hcount : (List.range l).countP (fun j => active (p.getP m) j (2048 / bitsOf e)) < 2048 / bitsOf e :=
    lt_of_le_of_lt List.countP_le_length (by rwa [List.length_range])
  rw [lane_ofLanes (by simpa [length_expand] using Nat.mul_div_le 2048 (bitsOf e)) l, expand_getD]
  simp [lanesOf, List.getD_eq_getElem?_getD, hl, hcount, ← List.map_take, List.take_range, hl.le, List.countP_map,
    Function.comp_def]

end

/-- Settles O36: shuffles, rotations and slides are lane operations, `vcomp` and `vexpd` registers put together from lists of
lanes, and the scan of FP32 is that of R183 with the identity in inactive lanes. -/
theorem permutes : Obligations.Permutes := by
  unfold Obligations.Permutes
  intro s p e m d a b x hc hp
  have ha : Plain p [d, a] := hp.mono (by simp)
  have hscan := vscan_result (op := fun p x y => fp32.add p.rm (fp32.decode x) (fp32.decode y)) hc ha
    (exec_vscan_f32 m d a s)
  exact ⟨vshuf_writes hc hp, vrot_writes hc x ha, vslide_writes hc x ha, vcomp_writes hc ha, vexpd_writes hc ha, hscan⟩

end Sys2Proof
end

section
/-! SUPPORT. O29: the codes of a format in order: their mantissas and exponents, and the numbers that they stand for (R127, R128,
Tables 7.1, 7.2). -/

namespace Sys2Proof

open Machine

/-! Magnitudes -/

/-- The exponent of the last bit of a subnormal. -/
abbrev Machine.Fmt.least (f : Fmt) : Int := 1 - f.bias - f.mw

/-- The mantissa of a finite code without its sign (R127). -/
def Machine.Fmt.mant (f : Fmt) (c : Nat) : Nat := if c / 2 ^ f.mw = 0 then c % 2 ^ f.mw else 2 ^ f.mw + c % 2 ^ f.mw

/-- The exponent of the last bit of a finite code without its sign (R127). -/
def Machine.Fmt.expo (f : Fmt) (c : Nat) : Int := f.least + (c / 2 ^ f.mw - 1 : Nat)

/-- The number that a finite code without its sign stands for. -/
def Machine.Fmt.mag (f : Fmt) (c : Nat) : ℚ := f.mant c * 2 ^ f.expo c

/-- j steps above the least exponent, mantissa k: k may also be the first of the next exponent. -/
structure Machine.Fmt.Units (f : Fmt) (j k : Nat) : Prop where
  normal : j = 0 ∨ 2 ^ f.mw ≤ k
  fits : k ≤ 2 ^ (f.mw + 1)

variable {f : Fmt}

theorem mant_subnormal {k : Nat} (h : k < 2 ^ f.mw) : f.mant k = k := by
  rw [Fmt.mant, Nat.div_eq_of_lt h, if_pos rfl, Nat.mod_eq_of_lt h]

theorem expo_subnormal {k : Nat} (h : k < 2 ^ f.mw) : f.expo k = f.least := by
  simp [Fmt.expo, Nat.div_eq_of_lt h]

/-- The mantissa of a code in the exponent j steps above the least one. -/
theorem mant_normal (j : Nat) {m : Nat} (h : m < 2 ^ f.mw) : f.mant ((j + 1) * 2 ^ f.mw + m) = 2 ^ f.mw + m := by
  rw [Fmt.mant, Nat.mul_add_mod_of_lt h, Nat.mul_comm, Nat.mul_add_div (Nat.two_pow_pos _), Nat.div_eq_of_lt h,
    if_neg (by omega)]

theorem expo_normal (j : Nat) {m : Nat} (h : m < 2 ^ f.mw) : f.expo ((j + 1) * 2 ^ f.mw + m) = f.least + j := by
  rw [Fmt.expo, Nat.mul_comm, Nat.mul_add_div (Nat.two_pow_pos _), Nat.div_eq_of_lt h]
  simp

theorem mag_units {j k : Nat} (h : f.Units j k) : f.mag (j * 2 ^ f.mw + k) = k * 2 ^ (f.least + j) := by
  obtain ⟨hnorm, hfits⟩ := h
  by_cases hsub : k < 2 ^ f.mw
  · obtain rfl : j = 0 := hnorm.resolve_right (not_le.mpr hsub)
    simp [Fmt.mag, mant_subnormal hsub, expo_subnormal hsub]
  · obtain ⟨m, rfl⟩ := Nat.exists_eq_add_of_le (not_lt.mp hsub)
    have hsum : j * 2 ^ f.mw + (2 ^ f.mw + m) = (j + 1) * 2 ^ f.mw + m := by ring
    rw [hsum]
    rcases Nat.lt_or_ge m (2 ^ f.mw) with hm | hm
    · rw [Fmt.mag, mant_normal j hm, expo_normal j hm]
    · obtain rfl : m = 2 ^ f.mw := by
        rw [Nat.pow_succ] at hfits
        omega
      have hnext : (j + 1) * 2 ^ f.mw + 2 ^ f.mw = (j + 1 + 1) * 2 ^ f.mw + 0 := by ring
      rw [hnext, Fmt.mag, mant_normal _ (Nat.two_pow_pos _), expo_normal _ (Nat.two_pow_pos _), Nat.cast_succ,
        ← add_assoc, zpow_add_one₀ (by decide)]
      push_cast
      ring

/-- Every code has its mantissa and exponent as units. -/
theorem exists_units (f : Fmt) (c : Nat) :
    ∃ j, c = j * 2 ^ f.mw + f.mant c ∧ f.expo c = f.least + j ∧ (j = 0 ∨ 2 ^ f.mw ≤ f.mant c) ∧
      f.mant c < 2 ^ (f.mw + 1) := by
  have hm : c % 2 ^ f.mw < 2 ^ f.mw := Nat.mod_lt _ (Nat.two_pow_pos _)
  have hc : c / 2 ^ f.mw * 2 ^ f.mw + c % 2 ^ f.mw = c := Nat.div_add_mod' c _
  rw [Nat.pow_succ]
  cases he : c / 2 ^ f.mw with
  | zero =>
    have hsub : c < 2 ^ f.mw := by
      rw [he] at hc
      omega
    refine ⟨0, ?_⟩
    rw [mant_subnormal hsub, expo_subnormal hsub]
    simp
    omega
  | succ j =>
    rw [he] at hc
    refine ⟨j, ?_⟩
    rw [← hc, mant_normal j hm, expo_normal j hm]
    refine ⟨by ring, rfl, .inr (Nat.le_add_right _ _), by omega⟩

theorem mag_strictMono (f : Fmt) : StrictMono f.mag := by
  refine strictMono_nat_of_lt_succ fun c => ?_
  obtain ⟨j, hc, he, hnorm, hlt⟩ := exists_units f c
  have hsucc : f.mag (c + 1) = ((f.mant c + 1 : Nat) : ℚ) * 2 ^ (f.least + j) := by
    rw [← mag_units (k := f.mant c + 1) ⟨hnorm.imp_right fun h => h.trans (Nat.le_add_right _ 1), hlt⟩,
      ← Nat.add_assoc, ← hc]
  rw [hsucc, Fmt.mag, he]
  gcongr
  omega

theorem mag_zero (f : Fmt) : f.mag 0 = 0 := by
  simp [Fmt.mag, Fmt.mant]

/-- The least normal number. -/
theorem mag_minNormal (f : Fmt) : f.mag (2 ^ f.mw) = 2 ^ (1 - (f.bias : Int)) := by
  have h := mag_units (f := f) (j := 0) (k := 2 ^ f.mw) ⟨.inl rfl, Nat.pow_le_pow_right (by decide) (Nat.le_succ _)⟩
  rw [Nat.zero_mul, Nat.zero_add] at h
  rw [h, Nat.cast_pow, Nat.cast_ofNat, ← zpow_natCast, ← zpow_add₀ (by decide)]
  congr 1
  simp

end Sys2Proof
end

section
/-! SUPPORT. O29: codes and what they decode to (R127, R128). -/

namespace Sys2Proof

open Machine

variable {f : Fmt} {sg : Bool} {c : Nat}

/-! The fields of a code with its sign -/

theorem signed_eq (f : Fmt) (sg : Bool) (c : Nat) : f.signed sg c = sg.toNat * 2 ^ (f.ew + f.mw) + c := by
  cases sg <;> simp [Fmt.signed]

theorem signed_sign (hc : c < 2 ^ (f.ew + f.mw)) : (f.signed sg c / 2 ^ (f.ew + f.mw) % 2 == 1) = sg := by
  rw [signed_eq, Nat.mul_comm, Nat.mul_add_div (Nat.two_pow_pos _), Nat.div_eq_of_lt hc]
  cases sg <;> rfl

theorem signed_exponent (hc : c < 2 ^ (f.ew + f.mw)) : f.signed sg c / 2 ^ f.mw % 2 ^ f.ew = c / 2 ^ f.mw := by
  have hdiv : c / 2 ^ f.mw < 2 ^ f.ew := Nat.div_lt_of_lt_mul (by rwa [Nat.mul_comm, ← Nat.pow_add])
  rw [signed_eq, Nat.pow_add, ← Nat.mul_assoc, Nat.mul_comm _ (2 ^ f.mw), Nat.mul_add_div (Nat.two_pow_pos _),
    Nat.mul_add_mod_of_lt hdiv]

theorem signed_fraction (f : Fmt) (sg : Bool) (c : Nat) : f.signed sg c % 2 ^ f.mw = c % 2 ^ f.mw := by
  rw [signed_eq, Nat.pow_add, ← Nat.mul_assoc, Nat.mul_add_mod']

/-- Every code is a magnitude with a sign. -/
theorem exists_signed {x : Nat} (hx : x < 2 ^ f.bits) : ∃ sg c, x = f.signed sg c ∧ c < 2 ^ (f.ew + f.mw) := by
  have hbits : 2 ^ f.bits = 2 ^ (f.ew + f.mw) + 2 ^ (f.ew + f.mw) := by
    rw [Fmt.bits]
    ring
  by_cases h : x < 2 ^ (f.ew + f.mw)
  · exact ⟨false, x, rfl, h⟩
  · obtain ⟨c, rfl⟩ := Nat.exists_eq_add_of_le (not_lt.mp h)
    exact ⟨true, c, rfl, by omega⟩

/-! Decoding by magnitude -/

/-- What a code decodes to where its exponent is not special (R127). -/
theorem finite_eq (f : Fmt) (sg : Bool) (c : Nat) :
    (if c / 2 ^ f.mw = 0 then Fp.fin sg (c % 2 ^ f.mw) (1 - f.bias - f.mw)
      else .fin sg (2 ^ f.mw + c % 2 ^ f.mw) ((c / 2 ^ f.mw : Nat) - f.bias - f.mw)) = .fin sg (f.mant c) (f.expo c) := by
  unfold Fmt.mant Fmt.expo Fmt.least
  split
  next h => simp [h]
  next h =>
    have hpos : 1 ≤ c / 2 ^ f.mw := Nat.one_le_iff_ne_zero.mpr h
    rw [Nat.cast_sub hpos]
    congr 1
    push_cast
    ring

/-- The codes without sign that have the highest exponent are those from its start on. -/
theorem exponent_eq_highest (hc : c < 2 ^ (f.ew + f.mw)) :
    c / 2 ^ f.mw = 2 ^ f.ew - 1 ↔ (2 ^ f.ew - 1) * 2 ^ f.mw ≤ c := by
  have hdiv : c / 2 ^ f.mw < 2 ^ f.ew := Nat.div_lt_of_lt_mul (by rwa [Nat.mul_comm, ← Nat.pow_add])
  rw [← Nat.le_div_iff_mul_le (Nat.two_pow_pos _)]
  omega

/-- The highest code without sign has the highest exponent and fraction, and no other. -/
theorem fields_eq_highest (hc : c < 2 ^ (f.ew + f.mw)) :
    (c / 2 ^ f.mw = 2 ^ f.ew - 1 ∧ c % 2 ^ f.mw = 2 ^ f.mw - 1) ↔ c = 2 ^ (f.ew + f.mw) - 1 := by
  have hfrac : c % 2 ^ f.mw < 2 ^ f.mw := Nat.mod_lt _ (Nat.two_pow_pos _)
  have hsplit := Nat.div_add_mod' c (2 ^ f.mw)
  have hpow : 2 ^ (f.ew + f.mw) = (2 ^ f.ew - 1) * 2 ^ f.mw + 2 ^ f.mw := by
    rw [← Nat.succ_mul, Nat.succ_eq_add_one, Nat.sub_add_cancel (Nat.two_pow_pos _), Nat.pow_add]
  rw [exponent_eq_highest hc, hpow]
  constructor
  · rintro ⟨hle, hm⟩
    rw [(exponent_eq_highest hc).mpr hle] at hsplit
    omega
  · intro h
    have hle : (2 ^ f.ew - 1) * 2 ^ f.mw ≤ c := by omega
    rw [(exponent_eq_highest hc).mpr hle] at hsplit
    omega

theorem maxCode_lt (f : Fmt) : f.maxCode < 2 ^ (f.ew + f.mw) := by
  have hpos := Nat.two_pow_pos (f.ew + f.mw)
  have hle : (2 ^ f.ew - 1) * 2 ^ f.mw ≤ 2 ^ (f.ew + f.mw) := by
    rw [Nat.pow_add]
    exact Nat.mul_le_mul_right _ (Nat.sub_le _ _)
  unfold Fmt.maxCode
  split <;> omega

/-- The codes up to that of MAXF are numbers. -/
theorem decode_signed (hew : 0 < f.ew) (hc : c ≤ f.maxCode) :
    f.decode (f.signed sg c) = .fin sg (f.mant c) (f.expo c) := by
  have hlt := lt_of_le_of_lt hc (maxCode_lt f)
  have htwo : 2 ≤ 2 ^ f.ew := Nat.le_self_pow hew.ne' 2
  simp only [Fmt.decode, signed_sign hlt, signed_exponent hlt, signed_fraction, finite_eq]
  unfold Fmt.maxCode at hc
  split
  next h =>
    have hpos : 0 < (2 ^ f.ew - 1) * 2 ^ f.mw := Nat.mul_pos (by omega) (Nat.two_pow_pos _)
    simp only [h] at hc
    exact if_neg (mt (exponent_eq_highest hlt).mp (by omega))
  next h =>
    have hpos : 2 ≤ 2 ^ (f.ew + f.mw) := htwo.trans (Nat.pow_le_pow_right (by decide) (Nat.le_add_right _ _))
    simp only [h] at hc
    exact if_neg (mt (fields_eq_highest hlt).mp (by omega))
  next => rfl

/-- The codes above that of MAXF are infinities and NaNs. -/
theorem decode_above (hc : c < 2 ^ (f.ew + f.mw)) (hgt : f.maxCode < c) :
    (∃ q, f.decode (f.signed sg c) = .nan q) ∨ f.decode (f.signed sg c) = .inf sg ∧ f.signed sg c = f.inf sg := by
  simp only [Fmt.decode, signed_sign hc, signed_exponent hc, signed_fraction]
  unfold Fmt.maxCode at hgt
  split
  next h =>
    simp only [h] at hgt
    have he : c / 2 ^ f.mw = 2 ^ f.ew - 1 := (exponent_eq_highest hc).mpr (by omega)
    rw [if_pos he]
    split
    next hm =>
      have hsplit := Nat.div_add_mod' c (2 ^ f.mw)
      rw [he, hm, Nat.add_zero] at hsplit
      exact .inr ⟨rfl, by rw [Fmt.inf, hsplit]⟩
    next => exact .inl ⟨_, rfl⟩
  next h =>
    simp only [h] at hgt
    rw [if_pos ((fields_eq_highest hc).mpr (by omega))]
    exact .inl ⟨_, rfl⟩
  next h =>
    simp only [h] at hgt
    omega

/-- A code that decodes to a number is one up to that of MAXF, with its sign. -/
theorem of_decode_fin {x k : Nat} {e : Int} (hew : 0 < f.ew) (hx : x < 2 ^ f.bits) (h : f.decode x = .fin sg k e) :
    ∃ c ≤ f.maxCode, x = f.signed sg c ∧ k = f.mant c ∧ e = f.expo c := by
  obtain ⟨sg', c, rfl, hc⟩ := exists_signed hx
  rcases Nat.lt_or_ge f.maxCode c with hgt | hle
  · rcases decode_above (sg := sg') hc hgt with ⟨q, hq⟩ | ⟨hinf, -⟩
    · cases hq.symm.trans h
    · cases hinf.symm.trans h
  · cases (decode_signed hew hle).symm.trans h
    exact ⟨c, hle, rfl, rfl, rfl⟩

/-- A code that decodes to an infinity is that of the infinity. -/
theorem of_decode_inf {x : Nat} (hew : 0 < f.ew) (hx : x < 2 ^ f.bits) (h : f.decode x = .inf sg) : x = f.inf sg := by
  obtain ⟨sg', c, rfl, hc⟩ := exists_signed hx
  rcases Nat.lt_or_ge f.maxCode c with hgt | hle
  · rcases decode_above (sg := sg') hc hgt with ⟨q, hq⟩ | ⟨hinf, hcode⟩
    · cases hq.symm.trans h
    · cases hinf.symm.trans h
      exact hcode
  · cases (decode_signed hew hle).symm.trans h

/-- Only the formats of IEEE 754 have infinities (Table 7.1). -/
theorem ieee_of_decode_inf {x : Nat} (h : f.decode x = .inf sg) : f.sp = .ieee := by
  unfold Fmt.decode at h
  grind

end Sys2Proof
end

section
/-! SUPPORT. O29: rounding to a multiple of the weight of the last kept bit (R134). -/

namespace Sys2Proof

open Machine

/-! Fractions and powers of two -/

theorem two_zpow_eq_div (z : Int) : (2 : ℚ) ^ z = 2 ^ z.toNat / 2 ^ (-z).toNat := by
  rcases le_total 0 z with h | h
  · obtain ⟨n, rfl⟩ := Int.eq_ofNat_of_zero_le h
    simp
  · obtain ⟨n, hn⟩ := Int.eq_ofNat_of_zero_le (Int.neg_nonneg.mpr h)
    obtain rfl : z = -n := by omega
    simp

/-- `ratLog2` is the floor of the logarithm. -/
theorem ratLog2_spec {num den : Nat} (hn : 0 < num) (hd : 0 < den) :
    (2 : ℚ) ^ ratLog2 num den ≤ num / den ∧ (num : ℚ) / den < 2 ^ (ratLog2 num den + 1) := by
  have hd' : (0 : ℚ) < den := by exact_mod_cast hd
  have hnlo : (2 : ℚ) ^ (num.log2 : Int) ≤ num := by exact_mod_cast Nat.log2_self_le hn.ne'
  have hnhi : (num : ℚ) < 2 ^ (num.log2 + 1 : Int) := by exact_mod_cast Nat.lt_log2_self
  have hdlo : (2 : ℚ) ^ (den.log2 : Int) ≤ den := by exact_mod_cast Nat.log2_self_le hd.ne'
  have hdhi : (den : ℚ) < 2 ^ (den.log2 + 1 : Int) := by exact_mod_cast Nat.lt_log2_self
  have hcmp (l : Int) : num * 2 ^ (-l).toNat < den * 2 ^ l.toNat ↔ (num : ℚ) / den < 2 ^ l := by
    rw [two_zpow_eq_div, div_lt_div_iff₀ hd' (by positivity), mul_comm (2 ^ l.toNat : ℚ)]
    exact_mod_cast Iff.rfl
  unfold ratLog2
  dsimp only
  split
  next h =>
    rw [Int.sub_add_cancel]
    refine ⟨?_, (hcmp _).mp h⟩
    rw [le_div_iff₀ hd']
    calc (2 : ℚ) ^ ((num.log2 : Int) - den.log2 - 1) * den
        ≤ 2 ^ ((num.log2 : Int) - den.log2 - 1) * 2 ^ (den.log2 + 1 : Int) := by gcongr
      _ = 2 ^ (num.log2 : Int) := by rw [← zpow_add₀ (by decide)]; congr 1; ring
      _ ≤ num := hnlo
  next h =>
    refine ⟨not_lt.mp (mt (hcmp _).mpr h), ?_⟩
    rw [div_lt_iff₀ hd']
    calc (num : ℚ) < 2 ^ (num.log2 + 1 : Int) := hnhi
      _ = 2 ^ ((num.log2 : Int) - den.log2 + 1) * 2 ^ (den.log2 : Int) := by rw [← zpow_add₀ (by decide)]; congr 1; ring
      _ ≤ 2 ^ ((num.log2 : Int) - den.log2 + 1) * den := by gcongr

/-- The weight of the last kept bit is the one whose units number less than 2^(mw + 1), and at least 2^mw unless it is the
least (R134). -/
theorem weight_eq {f : Fmt} {num den : Nat} {ex q : Int} (hn : 0 < num) (hd : 0 < den)
    (hlt : (num : ℚ) / den * 2 ^ ex < 2 ^ (q + f.mw + 1))
    (hle : q = f.least ∨ f.least < q ∧ (2 : ℚ) ^ (q + f.mw) ≤ num / den * 2 ^ ex) : f.weight num den ex = q := by
  obtain ⟨hlo, hhi⟩ := ratLog2_spec hn hd
  have hlog : ratLog2 num den + ex < q + f.mw + 1 := by
    refine (zpow_lt_zpow_iff_right₀ (a := (2 : ℚ)) (by decide)).mp (lt_of_le_of_lt ?_ hlt)
    rw [zpow_add₀ (by decide)]
    gcongr
  unfold Fmt.least at hle
  unfold Fmt.weight
  rcases hle with rfl | ⟨hq, hle⟩
  · omega
  · have hlog' : q + f.mw < ratLog2 num den + 1 + ex := by
      refine (zpow_lt_zpow_iff_right₀ (a := (2 : ℚ)) (by decide)).mp (lt_of_le_of_lt hle ?_)
      rw [zpow_add₀ (by decide) (ratLog2 num den + 1)]
      gcongr
    omega

/-- The fraction in units of 2^q. -/
theorem inUnits_div (num den : Nat) (ex q : Int) :
    ((num * 2 ^ (ex - q).toNat : Nat) : ℚ) / (den * 2 ^ (q - ex).toNat : Nat) = num / den * 2 ^ ex / 2 ^ q := by
  rw [mul_div_assoc, ← zpow_sub₀ (by decide), two_zpow_eq_div, neg_sub]
  push_cast
  exact mul_div_mul_comm ..

/-! The nearest, the lower and the upper unit -/

/-- Whether a mode rounds n / d away from zero to an integer (R134). -/
def Machine.Rm.goesUp (m : Rm) (sg : Bool) (n d : Nat) : Bool :=
  match m with
  | .rne => decide (d < 2 * (n % d)) || (decide (2 * (n % d) = d) && n / d % 2 == 1)
  | .rtz => false
  | .rup => !sg && n % d != 0
  | .rdn => sg && n % d != 0

/-- The integer that a mode rounds n / d to. -/
def Machine.Rm.toUnit (m : Rm) (sg : Bool) (n d : Nat) : Nat := if m.goesUp sg n d = true then n / d + 1 else n / d

/-- A mode rounds away from zero. -/
def Machine.Rm.away (m : Rm) (sg : Bool) : Bool := (m == .rup && !sg) || (m == .rdn && sg)

/-- What R134 asks of the integer k that u is rounded to. -/
def Machine.Rm.Rounds (m : Rm) (sg : Bool) (u : ℚ) (k : Nat) : Prop :=
  if m = .rne then |u - k| ≤ 1 / 2 ∧ (|u - k| = 1 / 2 → k % 2 = 0)
  else if m.away sg = true then u ≤ k ∧ (k : ℚ) < u + 1 else (k : ℚ) ≤ u ∧ u < k + 1

/-- The part of n / d beyond its floor. -/
theorem floor_add_part (n : Nat) {d : Nat} (hd : 0 < d) :
    (n : ℚ) / d = (n / d : Nat) + ((n % d : Nat) : ℚ) / d := by
  have hd' : (d : ℚ) ≠ 0 := by exact_mod_cast hd.ne'
  rw [div_eq_iff hd', add_mul, div_mul_cancel₀ _ hd']
  exact_mod_cast (Nat.div_add_mod' n d).symm

theorem part_lt_one (n : Nat) {d : Nat} (hd : 0 < d) : ((n % d : Nat) : ℚ) / d < 1 := by
  rw [div_lt_one (by exact_mod_cast hd)]
  exact_mod_cast Nat.mod_lt n hd

/-- Rounding to nearest goes up above one half, and at one half from an odd number. -/
theorem goesUp_rne {sg : Bool} {n d : Nat} (hd : 0 < d) :
    Rm.goesUp .rne sg n d = true ↔
      1 / 2 < ((n % d : Nat) : ℚ) / d ∨ ((n % d : Nat) : ℚ) / d = 1 / 2 ∧ n / d % 2 = 1 := by
  have hd' : (0 : ℚ) < d := by exact_mod_cast hd
  rw [div_lt_div_iff₀ (by decide) hd', div_eq_div_iff hd'.ne' (by decide)]
  simp only [Rm.goesUp, Bool.or_eq_true, Bool.and_eq_true, decide_eq_true_eq, beq_iff_eq]
  norm_cast
  rw [Nat.one_mul, Nat.mul_comm 2]

/-- A directed rounding goes up from what is no integer where it is away from zero. -/
theorem goesUp_directed {m : Rm} {sg : Bool} {n d : Nat} (hm : m ≠ .rne) (hd : 0 < d) :
    m.goesUp sg n d = true ↔ m.away sg = true ∧ 0 < ((n % d : Nat) : ℚ) / d := by
  have hd' : (0 : ℚ) < d := by exact_mod_cast hd
  rw [div_pos_iff_of_pos_right hd', Nat.cast_pos, Nat.pos_iff_ne_zero]
  cases m <;> simp [Rm.goesUp, Rm.away] at hm ⊢

/-- The integer that R134 asks for is the one that the mode rounds to. -/
theorem eq_toUnit {m : Rm} {sg : Bool} {n d k : Nat} (hd : 0 < d) (h : m.Rounds sg (n / d) k) : k = m.toUnit sg n d := by
  have hlo : (0 : ℚ) ≤ ((n % d : Nat) : ℚ) / d := by positivity
  have hhi := part_lt_one n hd
  unfold Rm.Rounds at h
  unfold Rm.toUnit
  rw [floor_add_part n hd] at h
  set K := n / d
  set r := ((n % d : Nat) : ℚ) / d
  have hnear (hlow : (K : ℚ) - 1 < k) (hhigh : (k : ℚ) < K + 2) : k = K ∨ k = K + 1 := by
    have h1 : K < k + 1 := by
      have : (K : ℚ) < k + 1 := by linarith
      exact_mod_cast this
    have h2 : k < K + 2 := by exact_mod_cast hhigh
    omega
  by_cases hm : m = .rne
  · subst hm
    rw [if_pos rfl] at h
    obtain ⟨hle, htie⟩ := h
    have habs := abs_le.mp hle
    have hup := goesUp_rne (sg := sg) (n := n) hd
    rcases hnear (by linarith) (by linarith) with rfl | rfl
    · refine (if_neg fun hgo => ?_).symm
      rcases hup.mp hgo with hr | ⟨hr, hodd⟩
      · linarith
      · have heven := htie (by rw [add_sub_cancel_left, show r = 1 / 2 from hr]; norm_num)
        omega
    · refine (if_pos (hup.mpr ?_)).symm
      rw [Nat.cast_succ, add_sub_add_left_eq_sub] at habs htie
      rcases lt_or_eq_of_le (show 1 / 2 ≤ r by linarith) with hr | hr
      · exact .inl hr
      · have heven := htie (by rw [← hr]; norm_num)
        exact .inr ⟨hr.symm, by omega⟩
  · rw [if_neg hm] at h
    have hup := goesUp_directed (sg := sg) (n := n) hm hd
    split at h
    next haway =>
      rcases hnear (by linarith) (by linarith) with rfl | rfl
      · exact (if_neg fun hgo => by linarith [(hup.mp hgo).2]).symm
      · refine (if_pos (hup.mpr ⟨haway, ?_⟩)).symm
        push_cast at h
        linarith
    next haway =>
      rw [if_neg (fun hgo => haway (hup.mp hgo).1)]
      rcases hnear (by linarith) (by linarith) with rfl | rfl
      · rfl
      · push_cast at h
        linarith

theorem le_toUnit (m : Rm) (sg : Bool) (n d : Nat) : n / d ≤ m.toUnit sg n d := by
  unfold Rm.toUnit
  split <;> omega

theorem toUnit_le (m : Rm) (sg : Bool) (n d : Nat) : m.toUnit sg n d ≤ n / d + 1 := by
  unfold Rm.toUnit
  split <;> omega

theorem toUnit_of_dvd {m : Rm} {sg : Bool} {n d : Nat} (hd : 0 < d) (h : n % d = 0) : m.toUnit sg n d = n / d := by
  refine if_neg ?_
  cases m <;> simp [Rm.goesUp, h, hd.ne]

/-- The rounding is exact where nothing is left of the division. -/
theorem toUnit_exact {m : Rm} {sg : Bool} {n d : Nat} (hd : 0 < d) : (m.toUnit sg n d : ℚ) = n / d ↔ n % d = 0 := by
  constructor
  · intro h
    have hlo : n / d * d ≤ n := Nat.div_mul_le_self n d
    have hmul : m.toUnit sg n d * d = n := by
      rw [eq_div_iff (by exact_mod_cast hd.ne')] at h
      exact_mod_cast h
    rw [← hmul, Nat.mul_mod_left]
  · intro h
    rw [toUnit_of_dvd hd h, floor_add_part n hd, h]
    simp

end Sys2Proof
end

section
/-! SUPPORT. O29: the result of rounding and its flags (R134), NaNs and infinities in the arithmetic (R142). -/

namespace Sys2Proof

open Machine

variable {f : Fmt} {m : Rm} {sg : Bool}

/-! Rounding in terms of units -/

/-- What R134 asks, in units. -/
theorem rounds_of_scaled {v unit : ℚ} {k : Nat} (hu : 0 < unit)
    (h : if m = .rne then |v - k * unit| ≤ unit / 2 ∧ (|v - k * unit| = unit / 2 → k % 2 = 0)
      else if m.away sg = true then v ≤ k * unit ∧ k * unit < v + unit else k * unit ≤ v ∧ v < k * unit + unit) :
    m.Rounds sg (v / unit) k := by
  have habs : |v / unit - k| = |v - k * unit| / unit := by
    rw [← abs_of_pos hu, ← abs_div, abs_of_pos hu, sub_div, mul_div_cancel_right₀ _ hu.ne']
  have hadd (x y : ℚ) : x / unit < y + 1 ↔ x < y * unit + unit := by
    rw [div_lt_iff₀ hu, add_mul, one_mul]
  have hdiv (x : ℚ) : x < v / unit + 1 ↔ x * unit < v + unit := by
    rw [← sub_lt_iff_lt_add, lt_div_iff₀ hu, sub_mul, one_mul, sub_lt_iff_lt_add]
  rw [Rm.Rounds, habs, div_le_div_iff₀ hu (by decide), div_eq_div_iff hu.ne' (by decide)]
  rw [le_div_iff₀ (by decide), eq_div_iff (by decide)] at h
  simpa only [div_le_iff₀ hu, le_div_iff₀ hu, hadd, hdiv, one_mul] using h

theorem round_eq_place {num : Nat} (hn : num ≠ 0) (den : Nat) (ex : Int) :
    f.round m sg num den ex =
      let q := f.weight num den ex
      let n := num * 2 ^ (ex - q).toNat
      let d := den * 2 ^ (q - ex).toNat
      f.place sg (m.toUnit sg n d) q (n % d != 0) (f.overflow sg m) := by
  rw [Fmt.round, if_neg hn]
  cases m <;> rfl

theorem place_eq (j k : Nat) (inexact : Bool) (beyond : Nat) :
    f.place sg k (f.least + j) inexact beyond =
      if f.maxCode < j * 2 ^ f.mw + k then (beyond, fOF ||| fNX)
      else (f.signed sg (j * 2 ^ f.mw + k), fIf inexact fNX |||
        fIf (inexact && decide (j * 2 ^ f.mw + k ≠ 0) && decide (j * 2 ^ f.mw + k < 2 ^ f.mw)) fUF) := by
  rw [Fmt.place, add_sub_cancel_left]
  rfl

/-- What a result above MAXF becomes (R134). -/
theorem overflow_eq (f : Fmt) (sg : Bool) (m : Rm) :
    f.overflow sg m =
      if f.sp = .ieee ∧ (m = .rne ∨ m.away sg = true) then f.inf sg else f.signed sg f.maxCode := by
  unfold Fmt.overflow
  cases f.sp <;> cases m <;> cases sg <;> simp [Rm.away]

/-- The flags of a result that is not above MAXF (R134). -/
theorem placed_flags (f : Fmt) (inexact : Bool) (c : Nat) :
    fIf inexact fNX ||| fIf (inexact && decide (c ≠ 0) && decide (c < 2 ^ f.mw)) fUF =
      if inexact = false then 0
      else if (0 : ℚ) < f.mag c ∧ f.mag c < 2 ^ (1 - (f.bias : Int)) then fNX ||| fUF else fNX := by
  have hpos : (0 : ℚ) < f.mag c ↔ c ≠ 0 := by
    rw [← mag_zero f, (mag_strictMono f).lt_iff_lt, Nat.pos_iff_ne_zero]
  have hsub : f.mag c < 2 ^ (1 - (f.bias : Int)) ↔ c < 2 ^ f.mw := by
    rw [← mag_minNormal, (mag_strictMono f).lt_iff_lt]
  simp only [hpos, hsub, Bool.and_assoc, ← Bool.decide_and]
  cases inexact <;> by_cases h : c ≠ 0 ∧ c < 2 ^ f.mw <;> simp [h, fIf]

/-- A fraction between powers of two is rounded to units of its exponent. -/
theorem units_toUnit {j n d : Nat} (hd : 0 < d) (hlt : (n : ℚ) / d < 2 ^ (f.mw + 1))
    (hle : j = 0 ∨ (2 : ℚ) ^ f.mw ≤ n / d) : f.Units j (m.toUnit sg n d) where
  normal := by
    refine hle.imp_right fun h => le_trans ?_ (le_toUnit m sg n d)
    rw [le_div_iff₀ (by exact_mod_cast hd)] at h
    exact (Nat.le_div_iff_mul_le hd).mpr (by exact_mod_cast h)
  fits := by
    refine (toUnit_le m sg n d).trans ?_
    rw [div_lt_iff₀ (by exact_mod_cast hd)] at hlt
    exact Nat.div_lt_of_lt_mul (by rw [Nat.mul_comm]; exact_mod_cast hlt)

/-- A positive number rounded to k units of 2^q: beyond MAXF it overflows, else the result stands for k units, and the flags tell
whether it is inexact, and subnormal then (R134). -/
theorem round_spec {num den k : Nat} {ex q : Int} (hn : 0 < num) (hd : 0 < den)
    (hlt : (num : ℚ) / den * 2 ^ ex < 2 ^ (q + f.mw + 1))
    (hle : q = f.least ∨ f.least < q ∧ (2 : ℚ) ^ (q + f.mw) ≤ num / den * 2 ^ ex)
    (hk : m.Rounds sg (num / den * 2 ^ ex / 2 ^ q) k) :
    if f.mag f.maxCode < k * 2 ^ q then
      f.round m sg num den ex =
        (if f.sp = .ieee ∧ (m = .rne ∨ m.away sg = true) then f.inf sg else f.signed sg f.maxCode, fOF ||| fNX)
    else
      ∃ c ≤ f.maxCode, f.mag c = k * 2 ^ q ∧ f.round m sg num den ex = (f.signed sg c,
        if (k : ℚ) * 2 ^ q = num / den * 2 ^ ex then 0
        else if (0 : ℚ) < k * 2 ^ q ∧ (k : ℚ) * 2 ^ q < 2 ^ (1 - (f.bias : Int)) then fNX ||| fUF else fNX) := by
  obtain ⟨j, rfl⟩ : ∃ j : Nat, q = f.least + j := ⟨(q - f.least).toNat, by omega⟩
  set n := num * 2 ^ (ex - (f.least + j)).toNat
  set d := den * 2 ^ ((f.least + j) - ex).toNat
  have hd0 : 0 < d := Nat.mul_pos hd (Nat.two_pow_pos _)
  have hunits : (n : ℚ) / d = num / den * 2 ^ ex / 2 ^ (f.least + j) := inUnits_div ..
  have hround : f.round m sg num den ex = f.place sg (m.toUnit sg n d) (f.least + j) (n % d != 0) (f.overflow sg m) := by
    rw [round_eq_place hn.ne', weight_eq hn hd hlt hle]
  rw [← hunits] at hk
  obtain rfl := eq_toUnit hd0 hk
  have hunit : (0 : ℚ) < 2 ^ (f.least + j) := by positivity
  have hfits : (n : ℚ) / d < 2 ^ (f.mw + 1) := by
    rw [hunits, div_lt_iff₀ hunit, ← zpow_natCast, ← zpow_add₀ (by decide)]
    push_cast
    rwa [add_comm, ← add_assoc]
  have hnorm : j = 0 ∨ (2 : ℚ) ^ f.mw ≤ n / d := by
    refine hle.imp (fun h => by omega) fun ⟨_, h⟩ => ?_
    rwa [hunits, le_div_iff₀ hunit, ← zpow_natCast, ← zpow_add₀ (by decide), add_comm]
  have hmag := mag_units (units_toUnit (m := m) (sg := sg) hd0 hfits hnorm)
  have hexact : (m.toUnit sg n d : ℚ) * 2 ^ (f.least + j) = num / den * 2 ^ ex ↔ (n % d != 0) = false := by
    rw [← eq_div_iff hunit.ne', ← hunits, toUnit_exact hd0, bne_eq_false_iff_eq]
  rw [hround, place_eq, overflow_eq, placed_flags]
  simp only [← hexact, ← hmag, (mag_strictMono f).lt_iff_lt]
  split
  · rfl
  next h => exact ⟨_, not_lt.mp h, rfl, rfl⟩

/-- The last kept bit of a number of the format is that of its code. -/
theorem weight_code {c : Nat} (hc : f.mant c ≠ 0) : f.weight (f.mant c) 1 (f.expo c) = f.expo c := by
  obtain ⟨j, -, hexp, hnorm, hlt⟩ := exists_units f c
  have hunit : (0 : ℚ) < 2 ^ f.expo c := by positivity
  refine weight_eq (Nat.pos_of_ne_zero hc) Nat.one_pos ?_ ?_
  all_goals rw [Nat.cast_one, div_one]
  · rw [add_assoc, zpow_add₀ (by decide), mul_comm]
    gcongr
    exact_mod_cast hlt
  · rw [zpow_add₀ (by decide), mul_comm, mul_le_mul_iff_of_pos_right hunit, hexp]
    rcases Nat.eq_zero_or_pos j with rfl | hj
    · exact .inl (by simp)
    · exact .inr ⟨by omega, by exact_mod_cast hnorm.resolve_left hj.ne'⟩

/-- A number of the format rounds to its own code (R134). -/
theorem round_code {c : Nat} (hc : c ≤ f.maxCode) : f.round m sg (f.mant c) 1 (f.expo c) = (f.signed sg c, 0) := by
  obtain ⟨j, hcode, hexp, hnorm, -⟩ := exists_units f c
  by_cases hzero : f.mant c = 0
  · have hj : j = 0 := hnorm.resolve_right (by rw [hzero]; exact not_le.mpr (Nat.two_pow_pos _))
    rw [hzero, hj, Nat.zero_mul] at hcode
    rw [Fmt.round, if_pos hzero, hcode]
  · rw [round_eq_place hzero, weight_code hzero, hexp]
    simp only [sub_self, Int.toNat_zero, pow_zero, Nat.mul_one, Nat.mod_one, place_eq, bne_self_eq_false,
      toUnit_of_dvd Nat.one_pos (Nat.mod_one _), Nat.div_one, ← hcode, if_neg (not_lt.mpr hc), placed_flags, if_true]

/-! NaNs and infinities (R142) -/

theorem add_nan (f : Fmt) (m : Rm) (q : Bool) (x : Fp) : f.add m (.nan q) x = (f.nan, fIf (!q || x.isSig) fNV) := by
  cases x <;> rfl

theorem mul_nan (f : Fmt) (m : Rm) (q : Bool) (x : Fp) : f.mul m (.nan q) x = (f.nan, fIf (!q || x.isSig) fNV) := by
  cases x <;> rfl

theorem add_inf_neg (f : Fmt) (m : Rm) (sg : Bool) : f.add m (.inf sg) (.inf (!sg)) = (f.nan, fNV) := by
  cases sg <;> rfl

/-- An infinity times a zero is invalid, whatever is added (log 41). -/
theorem fma_inf_zero (f : Fmt) (m : Rm) (sg q : Bool) (e : Int) (x : Fp) :
    f.fma m (.inf sg) (.fin q 0 e) x = (f.nan, fNV) := rfl

theorem fma_nan (f : Fmt) (m : Rm) (q q' : Bool) (x : Fp) :
    f.fma m (.nan q) (.nan q') x = (f.nan, fIf (!q || !q' || x.isSig) fNV) := rfl

/-- Maximum and minimum prefer the number to the NaN. -/
theorem pick_nan (f : Fmt) (up : Bool) {q : Bool} {a b : Nat} (ha : f.decode a = .nan q)
    (hb : (f.decode b).isNan = false) :
    f.pick up a b = (b, if q then 0 else fNV) ∧ f.pick up b a = (b, if q then 0 else fNV) := by
  have hsig : (f.decode b).isSig = false := by
    cases h : f.decode b <;> simp_all [Fp.isNan, Fp.isSig]
  have hnv : fIf (!q) fNV = if q then 0 else fNV := by cases q <;> rfl
  have hisNan : (Fp.nan q).isNan = true := rfl
  have hisSig : (Fp.nan q).isSig = !q := rfl
  simp [Fmt.pick, ha, hb, hsig, hisNan, hisSig, hnv]

/-! The formats -/

theorem exponent_width_pos : ∀ f ∈ [fp32, fp16, bf16, e5m2, e4m3, e2m1, e3m2], 0 < f.ew := by
  decide

/-- A code that a format represents rounds and converts to itself. -/
theorem code_exact {c : Nat} (hew : 0 < f.ew) (hc : c < 2 ^ f.bits) (m : Rm) :
    match f.decode c with
    | .fin sg k e => f.round m sg k 1 e = (c, 0) ∧ f.convert m (.fin sg k e) = (c, 0)
    | .inf _ => f.convert m (f.decode c) = (c, 0)
    | .nan q => f.convert m (f.decode c) = (f.nan, if q then 0 else fNV) := by
  cases h : f.decode c with
  | fin sg k e =>
    obtain ⟨c, hle, rfl, rfl, rfl⟩ := of_decode_fin hew hc h
    exact ⟨round_code hle, round_code hle⟩
  | inf sg =>
    show (if f.sp = .ieee then (f.inf sg, 0) else f.nanOf true) = (c, 0)
    rw [if_pos (ieee_of_decode_inf h), of_decode_inf hew hc h]
  | nan q => cases q <;> rfl

/-- Settles O29: the codes of a format stand for its numbers in their order, so that the units of the last kept bit that
R134 rounds to are those of the code that the model puts together. -/
theorem floatRules : Obligations.FloatRules := by
  unfold Obligations.FloatRules
  refine ⟨fun f m c hf hc => code_exact (exponent_width_pos f hf) hc m, ?_, fun f m q q' sg e x =>
    ⟨add_nan f m q x, add_inf_neg f m sg, mul_nan f m q x, rfl, fma_inf_zero f m sg q e x, fma_nan f m q q' x⟩,
    fun f up q a b ha hb => pick_nan f up ha hb⟩
  intro f m sg num den k km ex q em hf hn hd v unit y least away hlt hle hk hmax
  have hew := exponent_width_pos f hf
  obtain ⟨rfl, rfl⟩ : km = f.mant f.maxCode ∧ em = f.expo f.maxCode := by
    have h := (decode_signed (sg := false) hew le_rfl).symm.trans hmax
    cases h
    exact ⟨rfl, rfl⟩
  have hspec := round_spec hn hd hlt hle (rounds_of_scaled (by positivity) hk)
  dsimp only [v, unit, y, least, away]
  split
  next h =>
    rw [if_pos (show f.mag f.maxCode < k * 2 ^ q from h)] at hspec
    exact hspec
  next h =>
    rw [if_neg (show ¬f.mag f.maxCode < k * 2 ^ q from h)] at hspec
    obtain ⟨c, hc, hmag, hround⟩ := hspec
    rw [hround]
    exact ⟨_, _, decode_signed hew hc, hmag, rfl⟩

end Sys2Proof
end

section
/-! SUPPORT. Elements of vector memory instructions and streams in the own memory of a quiet core: what a read sees, the checks
of all elements together, and the writes in which a list of elements sets out (R100, R109, R188). -/

namespace Sys2Proof

open Machine

/-! The active process -/

theorem proc?_subject {s : State} {p : Proc} (hc : s.cpu = some p) (hsubj : s.subj = .id p.pid) :
    s.proc? (Subject.num s.subj) = some p := by
  rw [hsubj]
  exact State.proc?_active hc

/-- An event that puts the active process back completes. -/
theorem putProc_completes {s : State} {p q : Proc} {i : Instr} (hc : s.cpu = some p) (hq : q.pid = p.pid)
    (he : exec i s = .next (s.putProc q)) : Completes i s q :=
  he.trans (congrArg Host.Outcome.next (putProc_cpu hc hq))

/-- A T-class process has every vector register and accumulator (R22). -/
theorem classBad_t {p : Proc} (h : p.cls = .t) (vs : List VIdx) (tileClass : Bool) : p.classBad vs tileClass = false := by
  simp [Proc.classBad, h]

/-! Reading -/

theorem seenMarked_sound {s : State} {home n : Nat} (h : Sound s home n) (core pid used : Nat) :
    s.seenMarked core pid used home n = false := by
  rw [State.seenMarked, marked_sound h, Bool.false_and]

/-- A read of the own memory on a quiet core gives its bytes at once. -/
theorem readAt_own {s : State} {p : Proc} {a : Word} {n : Nat} (k : Word) (hq : ∀ q ∈ s.packets, q.core ≠ p.core)
    (h : OwnAccess s p a n .rd) (hs : Sound s (homeAt p a) n) :
    s.readAt p a n k = .val (s.mem.read (homeAt p a) n) false := by
  have hmark := seenMarked_sound hs p.core p.pid a.toNat
  simp only [homeAt] at hmark
  simp only [State.readAt, check_own k h, target_own h.2.2, heldBack_quiet _ hq, Bool.false_eq_true, if_false, hmark,
    seen_quiet _ hq, homeAt]

/-! Checks -/

theorem firstFault_none {rs : List (Option (Cause × Word × Word × Word))} (h : ∀ r ∈ rs, r = none) :
    firstFault rs = none := by
  have hnone (f : Option (Cause × Word × Word × Word) → Option (Cause × Word × Word × Word)) (hf : f none = none) :
      rs.findSome? f = none := List.findSome?_eq_none_iff.mpr fun r hr => by rw [h r hr, hf]
  rw [firstFault, hnone _ rfl, hnone _ rfl]
  rfl

theorem anyHeld_quiet {s : State} {p : Proc} (h : ∀ q ∈ s.packets, q.core ≠ p.core) (addrs : List Word) :
    s.anyHeld p addrs = false := by
  simp [State.anyHeld, heldBack_quiet _ h]

/-! Writes on their way -/

/-- What a packet carries, its number and the times at which it was sent aside. -/
abbrev Machine.Packet.sent (q : Packet) : Nat × Nat × Path × AKind × Nat × Nat × Payload :=
  (q.core, q.pid, q.path, q.kind, q.used, q.n, q.payload)

/-- What the packet of one element of z bytes carries to the own memory. -/
abbrev Machine.State.sentElem (s : State) (p : Proc) (kind : AKind) (z : Nat) (whole : Bool) (ea : Word) (val : Nat) :
    Nat × Nat × Path × AKind × Nat × Nat × Payload :=
  (p.core, p.pid, .own, kind, ea.toNat, z,
    .write { addr := homeAt p ea, n := z, val := val, fe := none, whole := whole, author := some (s.author p ea) })

/-- A store to the own memory of a quiet core adds one packet. -/
theorem store_own {s : State} {p : Proc} {ea : Word} (hearly : (s.core p.core).early = [])
    (h : ea.toNat < s.parkStart p.core) (n : Nat) (kind : AKind) (val : Nat) (whole : Bool) :
    ∃ q : Packet, s.store p ea n (s.target p.core ea.toNat) kind val none whole =
        { s with nextId := s.nextId + 1, packets := s.packets ++ [q] } ∧
      q.sent = s.sentElem p kind n whole ea (val % 2 ^ (8 * n)) := by
  rw [target_own h]
  simp only [State.store, dropEarly_quiet hearly, Target.remote, Bool.false_eq_true, if_false, State.dispatchPacket,
    State.freshId]
  exact ⟨_, rfl, rfl⟩

/-- Elements stored to the own memory of a quiet core set out in their order, one packet each. -/
theorem storeElems_own {p : Proc} (kind : AKind) (z : Nat) (all : List Nat) (els : List (Word × Nat)) {s : State}
    (hearly : (s.core p.core).early = []) (h : ∀ e ∈ els, e.1.toNat < s.parkStart p.core) :
    ∃ ps : List Packet, s.storeElems p kind z all els =
        { s with nextId := s.nextId + els.length, packets := s.packets ++ ps } ∧
      ps.map Packet.sent =
        els.map fun e => s.sentElem p kind z (covered all z e.1.toNat) e.1 (e.2 % 2 ^ (8 * z)) := by
  induction els generalizing s with
  | nil => exact ⟨[], by simp [State.storeElems], rfl⟩
  | cons e els ih =>
    obtain ⟨q, hq, hsent⟩ := store_own hearly (h e (by simp)) z kind e.2 (covered all z e.1.toNat)
    obtain ⟨ps, hps, hmap⟩ := ih (s := { s with nextId := s.nextId + 1, packets := s.packets ++ [q] }) hearly
      fun e' he' => h e' (by simp [he'])
    refine ⟨q :: ps, ?_, ?_⟩
    · rw [State.storeElems, List.foldl_cons, hq]
      refine hps.trans ?_
      simp only [List.length_cons, List.append_assoc, List.singleton_append, Nat.add_assoc, Nat.add_comm 1]
    · rw [List.map_cons, List.map_cons, hmap, hsent]
      rfl

end Sys2Proof
end

section
/-! SUPPORT. O37: vector loads and stores of the own memory (R153, R186–R189, Table 9.11). -/

namespace Sys2Proof

open Machine

/-! The course up to the accesses -/

section
variable {s : State} {p : Proc} {m : PIdx} {d : VIdx}

/-- With every element's address in order, a vector memory instruction goes on to its accesses. -/
theorem vmem_goes {i : Instr} {vs : List VIdx} {w : ElW} {els : Proc → List (Nat × Word)} {perm : Perm} {k : Nat}
    {go : Proc → List (Nat × Word) → Out} (hi : Issues s p) (hq : Quiet s p.core) (h : Plain p vs)
    (hown : ∀ e ∈ els p, OwnAccess s p e.2 (bitsOf w / 8) perm) : s.vmem i vs w els perm k go = go p (els p) := by
  have hfault : s.elemFault p (els p) (bitsOf w / 8) perm k = none := by
    refine firstFault_none fun r hr => ?_
    obtain ⟨e, he, rfl⟩ := List.mem_map.mp hr
    rw [check_own 0 (hown e he)]
    rfl
  have hfree : ((List.range 8).map (BitVec.ofNat 3)).find? (fun t => vs.any fun r => p.boundAt r == some t) = none := by
    simp [any_boundAt_plain h]
  unfold State.vmem State.ofClass
  rcases hi.2 with hw | hw <;>
    simp only [withProc_some hi.1, classBad_plain h, hw, hfree, hfault, anyHeld_quiet hq.1, Bool.false_eq_true, if_false]

/-- The lanes that a mask leaves active (R153). -/
abbrev Machine.Proc.laneNos (p : Proc) (e : ElW) (m : PIdx) : List Nat :=
  (List.range (2048 / bitsOf e)).filter fun l => active (p.getP m) l (2048 / bitsOf e)

/-- From the first lane on, the elements are those of the active lanes. -/
theorem elems_of_vprog_zero (hvp : p.vprog = 0) (e : ElW) (m : PIdx) (at_ : Proc → Nat → Word) :
    p.elems e m at_ = (p.laneNos e m).map fun l => (l, at_ p l) := by
  simp [Proc.elems, hvp]

theorem eight_mul_bytes (e : ElW) : 8 * (bitsOf e / 8) = bitsOf e := by
  cases e <;> rfl

/-! Loads -/

/-- A vector load whose elements have returned without error completes. -/
theorem vloadDone_good {els : List VElem} (hc : s.cpu = some p) (z : Nat) (h : ∀ c ∈ els, ∃ v, c.val = some (v, false)) :
    s.vloadDone p d z els = { s with cpu := some (behind (p.setV d (putElems (p.getV d) (8 * z) els)) 4) } := by
  unfold State.vloadDone
  split
  next c hfind =>
    obtain ⟨v, hv⟩ := h c (List.mem_of_find?_eq_some hfind)
    simpa [hv] using List.find?_some hfind
  next => exact putProc_cpu hc rfl

/-- What the elements of a load put into their lanes. -/
def elemResults (els : List VElem) : LaneRes :=
  els.flatMap fun c => c.lanes.map fun l => (l, plain (c.val.getD (0, false)).1)

theorem putElems_good {els : List VElem} (h : ∀ c ∈ els, ∃ v, c.val = some (v, false)) (v : VReg) (w : Nat) :
    putElems v w els = putLanes v w (elemResults els) := by
  refine congrArg (putLanes v w ·.flatten) (List.map_congr_left fun c hc => ?_)
  obtain ⟨x, hx⟩ := h c hc
  simp [hx, plain]

/-- An element with the bytes that it reads. -/
def Machine.State.readElem (s : State) (p : Proc) (z : Nat) (e : List Nat × Nat × Word) : VElem :=
  { lanes := e.1, lane := e.2.1, addr := e.2.2.toNat, val := some (s.mem.read (homeAt p e.2.2) z, false) }

/-- A load of elements of the own memory completes with what they read. -/
theorem vload_own {z : Nat} {els : List (List Nat × Nat × Word)} (hc : s.cpu = some p)
    (hq : Quiet s p.core) (hown : ∀ e ∈ els, OwnAccess s p e.2.2 z .rd ∧ Sound s (homeAt p e.2.2) z) :
    s.vload p d z els = .next { s with cpu := some (behind (p.setV d (putLanes (p.getV d) (8 * z)
      (els.flatMap fun e => e.1.map fun l => (l, plain (s.mem.read (homeAt p e.2.2) z))))) 4) } := by
  have hall : ((els.map (s.readElem p z)).all fun c => c.val.isSome) = true := by simp [State.readElem]
  have hgood : ∀ c ∈ els.map (s.readElem p z), ∃ v, c.val = some (v, false) :=
    List.forall_mem_map.mpr fun e _ => ⟨_, rfl⟩
  unfold State.vload
  rw [List.map_congr_left (g := s.readElem p z) fun e he => ?_]
  · refine (if_pos hall).trans ?_
    rw [vloadDone_good hc z hgood, putElems_good hgood, elemResults, List.flatMap_map]
    rfl
  · obtain ⟨ha, hs⟩ := hown e he
    have hmark := seenMarked_sound hs p.core p.pid e.2.2.toNat
    simp only [homeAt] at hmark
    simp only [target_own ha.2.2, seen_quiet _ hq.1, hmark, State.readElem, homeAt]

/-- Each active lane takes the bytes at its address, another keeps its value. -/
def TakesActive (i : Instr) (s : State) (p : Proc) (e : ElW) (m : PIdx) (d : VIdx) (f : Nat → Nat) : Prop :=
  ∃ v, Completes i s (behind (p.setV d v) 4) ∧ ∀ l, l < 2048 / bitsOf e →
    lane v (bitsOf e) l = if active (p.getP m) l (2048 / bitsOf e) = true then f l else lane (p.getV d) (bitsOf e) l

/-- The elements of the active lanes in their lanes, when none is wider than a lane. -/
theorem takesActive_of_elements {i : Instr} {e : ElW} {f : Nat → Nat} (hf : ∀ l, f l < 2 ^ bitsOf e)
    (he : Completes i s (behind (p.setV d (putLanes (p.getV d) (bitsOf e)
      (elements (p.getP m) (2048 / bitsOf e) 0 fun l => plain (f l)))) 4)) : TakesActive i s p e m d f := by
  refine ⟨_, he, fun l hl => ?_⟩
  rw [lane_putLanes_elements _ _ _ _ _ hl]
  simp only [Nat.zero_le, Nat.zero_add, hl, true_and, Nat.sub_zero, plain]
  split
  · exact Nat.mod_eq_of_lt (hf l)
  · exact Nat.mod_eq_of_lt (lane_lt _ _ _)

theorem read_lt_lane (s : State) (e : ElW) (a : Nat) : s.mem.read a (bitsOf e / 8) < 2 ^ bitsOf e := by
  have h := s.mem.read_lt_two_pow a (bitsOf e / 8)
  rwa [eight_mul_bytes] at h

/-- A load with an address for each lane. -/
theorem vld_takesActive {i : Instr} {e : ElW} {vs : List VIdx} {at_ : Proc → Nat → Word} (hi : Issues s p)
    (hq : Quiet s p.core) (h : Plain p (d :: vs)) (hvp : p.vprog = 0) (hexec : exec i s = s.vld i e m d vs at_)
    (hown : ∀ l ∈ p.laneNos e m,
      OwnAccess s p (at_ p l) (bitsOf e / 8) .rd ∧ Sound s (homeAt p (at_ p l)) (bitsOf e / 8)) :
    TakesActive i s p e m d fun l => s.mem.read (homeAt p (at_ p l)) (bitsOf e / 8) := by
  have hels := elems_of_vprog_zero hvp e m at_
  refine takesActive_of_elements (fun l => read_lt_lane s e _) (hexec.trans ?_)
  rw [State.vld, vmem_goes hi hq h, hels, vload_own hi.1 hq]
  · simp [List.flatMap_map, eight_mul_bytes, elements, ← List.map_eq_flatMap]
  · simp only [List.mem_map]
    rintro _ ⟨_, ⟨l, hl, rfl⟩, rfl⟩
    exact hown l hl
  · simp only [hels, List.mem_map]
    rintro _ ⟨l, hl, rfl⟩
    exact (hown l hl).1

theorem setV_getV (p : Proc) (d : VIdx) : p.setV d (p.getV d) = p := by
  simp [Proc.setV, Proc.getV]

/-- The broadcast load reads once for every active lane. -/
theorem vldb_takesActive {e : ElW} {x : XIdx} (hi : Issues s p) (hq : Quiet s p.core) (h : Plain p [d])
    (hown : ∀ l ∈ p.laneNos e m,
      OwnAccess s p (p.getX x) (bitsOf e / 8) .rd ∧ Sound s (homeAt p (p.getX x)) (bitsOf e / 8)) :
    TakesActive (.vldb e m d x) s p e m d fun _ => s.mem.read (homeAt p (p.getX x)) (bitsOf e / 8) := by
  have hown' : ∀ a ∈ (if (p.laneNos e m).isEmpty then [] else [(0, p.getX x)]),
      OwnAccess s p a.2 (bitsOf e / 8) .rd := by
    cases hls : p.laneNos e m with
    | nil => simp
    | cons l ls => simpa using (hown l (by simp [hls])).1
  have hexec : exec (.vldb e m d x) s = execVldb e m d x s := rfl
  rw [execVldb, vmem_goes hi hq h hown'] at hexec
  cases hls : p.laneNos e m with
  | nil =>
    simp only [hls] at hexec
    refine ⟨p.getV d, ?_, fun l hl => ?_⟩
    · rw [setV_getV]
      exact hexec
    · have hl' : l ∉ p.laneNos e m := by simp [hls]
      rw [if_neg fun ha => hl' (by simpa [hl] using ha)]
  | cons l ls =>
    simp only [hls] at hexec
    refine takesActive_of_elements (fun _ => read_lt_lane s e _) (hexec.trans ?_)
    refine (vload_own (els := [(l :: ls, 0, p.getX x)]) hi.1 hq
      (List.forall_mem_singleton.mpr (hown l (by simp [hls])))).trans ?_
    simp [eight_mul_bytes, elements, ← hls]

theorem find?_map_pair {α : Type} (ls : List Nat) (x : α) (l : Nat) :
    (ls.map fun k => (k, x)).find? (·.1 == l) = if ls.contains l then some (l, x) else none := by
  induction ls with
  | nil => rfl
  | cons k ls ih =>
    by_cases hk : k = l
    · simp [hk]
    · simp [hk, Ne.symm hk, ih]

/-- A lane takes the value of the first element that it belongs to. -/
theorem find?_elemResults (els : List VElem) (l : Nat) : (elemResults els).find? (·.1 == l) =
    (els.find? fun c => c.lanes.contains l).map fun c => (l, plain (c.val.getD (0, false)).1) := by
  induction els with
  | nil => rfl
  | cons c els ih =>
    have hcons : elemResults (c :: els) =
      (c.lanes.map fun k => (k, plain (c.val.getD (0, false)).1)) ++ elemResults els := List.flatMap_cons ..
    rw [hcons, List.find?_append, ih, find?_map_pair, List.find?_cons]
    cases c.lanes.contains l <;> rfl

theorem lane_putElems {els : List VElem} {w l : Nat} (h : ∀ c ∈ els, ∃ v, c.val = some (v, false)) (v : VReg)
    (hl : l < 2048 / w) : lane (putElems v w els) w l = (els.find? fun c => c.lanes.contains l).elim (lane v w l)
      fun c => (c.val.getD (0, false)).1 % 2 ^ w := by
  rw [putElems_good h, lane_putLanes _ _ hl, find?_elemResults]
  cases els.find? fun c => c.lanes.contains l with
  | none => exact Nat.mod_eq_of_lt (lane_lt v w l)
  | some c => rfl

theorem vectorLoadReturn_completes {z : Nat} {els : List VElem} (hc : s.cpu = some p) (hw : p.wait = .vload d z els)
    (hst : p.st = .running) (hsubj : s.subj = .id p.pid) (h : ∀ c ∈ els, ∃ v, c.val = some (v, false)) :
    Completes .vectorLoadReturn s (behind (p.setV d (putElems (p.getV d) (8 * z) els)) 4) := by
  have hall : (els.all fun c => c.val.isSome) = true := List.all_eq_true.mpr fun c hcm => by
    obtain ⟨v, hv⟩ := h c hcm
    rw [hv]
    rfl
  refine Eq.trans (show _ = execVectorLoadReturn s from rfl) ?_
  simp only [execVectorLoadReturn, proc?_subject hc hsubj, hw, hst, hall, and_self, if_true, vloadDone_good hc z h]

/-! Stores -/

/-- What the memory path accepts and what it leaves are the elements. -/
theorem accepted_append {α : Type} (s : State) (els : List α) : (s.accepted els).1 ++ (s.accepted els).2 = els := by
  unfold State.accepted
  cases s.part with
  | none => exact List.append_nil els
  | some n => simp

theorem accepted_map {α β : Type} (s : State) (f : α → β) (els : List α) :
    s.accepted (els.map f) = ((s.accepted els).1.map f, (s.accepted els).2.map f) := by
  unfold State.accepted
  cases s.part with
  | none => rfl
  | some n => simp [List.map_take, List.map_drop]

/-- The process with the number that its store's elements keep (R157). -/
def Machine.Proc.numbered (p : Proc) (id : Nat) : Proc := { p with batch := if p.batch = 0 then id else p.batch }

theorem numbered_eq (p : Proc) (id : Nat) : (if p.batch = 0 then { p with batch := id } else p) = p.numbered id := by
  unfold Proc.numbered
  split <;> rfl

/-- The process behind a store of which the path has taken `now`, of the lanes `ls` (R157, R189). -/
def Machine.Proc.afterStore (p : Proc) (id : Nat) (now ls : List Nat) : Proc :=
  if now.length = ls.length then behind p 4
  else { p with vprog := ls.getD now.length 0, wait := .stall, batch := if p.batch = 0 then id else p.batch }

theorem afterStore_whole (p : Proc) (id : Nat) (ls : List Nat) : p.afterStore id ls ls = behind p 4 :=
  if_pos rfl

theorem afterStore_part (p : Proc) (id : Nat) (now : List Nat) (l : Nat) (rest : List Nat) :
    p.afterStore id now (now ++ l :: rest) = { p.numbered id with vprog := l, wait := .stall } := by
  have hlen : now.length ≠ (now ++ l :: rest).length := by simp
  have hget : (now ++ l :: rest).getD now.length 0 = l := by simp
  rw [Proc.afterStore, if_neg hlen, hget]
  rfl

/-- A store whose addresses are in order hands the elements of the accepted lanes to the memory path. -/
theorem vst_stores {i : Instr} {e : ElW} {vs : List VIdx} {at_ : Proc → Nat → Word} (hi : Issues s p)
    (hq : Quiet s p.core) (h : Plain p (d :: vs)) (hvp : p.vprog = 0) (hexec : exec i s = s.vst i e m d vs at_)
    (hown : ∀ l ∈ p.laneNos e m, OwnAccess s p (at_ p l) (bitsOf e / 8) .wr) :
    ∃ all, exec i s = (s.storeElems (p.numbered s.nextId) .ord (bitsOf e / 8) all
        ((s.accepted (p.laneNos e m)).1.map fun l => (at_ p l, lane (p.getV d) (bitsOf e) l))).done
      (p.afterStore s.nextId (s.accepted (p.laneNos e m)).1 (p.laneNos e m)) := by
  have hels := elems_of_vprog_zero hvp e m at_
  have happ := accepted_append s (p.laneNos e m)
  have hstarts : ∀ a ∈ p.elems e m at_, OwnAccess s p a.2 (bitsOf e / 8) .wr := by
    rw [hels]
    exact List.forall_mem_map.mpr hown
  rw [State.vst, vmem_goes hi hq h hstarts, hels, accepted_map] at hexec
  simp only [numbered_eq, List.map_map] at hexec
  generalize s.accepted (p.laneNos e m) = acc at hexec happ ⊢
  obtain ⟨now, rest⟩ := acc
  rw [← happ]
  cases rest with
  | nil =>
    rw [List.append_nil, afterStore_whole]
    exact ⟨_, hexec⟩
  | cons l rest =>
    rw [afterStore_part]
    exact ⟨_, hexec⟩

/-- A store with an address for each lane sets out with the elements that the path takes. -/
theorem vst_accepts {i : Instr} {e : ElW} {vs : List VIdx} {at_ : Proc → Nat → Word} (hi : Issues s p)
    (hq : Quiet s p.core) (h : Plain p (d :: vs)) (hvp : p.vprog = 0) (hexec : exec i s = s.vst i e m d vs at_)
    (hown : ∀ l ∈ p.laneNos e m, OwnAccess s p (at_ p l) (bitsOf e / 8) .wr) :
    ∃ (ps : List Packet) (whole : Nat → Bool),
      exec i s = .next { s with nextId := s.nextId + (s.accepted (p.laneNos e m)).1.length, packets := s.packets ++ ps
                                cpu := some (p.afterStore s.nextId (s.accepted (p.laneNos e m)).1 (p.laneNos e m)) } ∧
      ps.map Packet.sent = (s.accepted (p.laneNos e m)).1.map fun l =>
        s.sentElem p .ord (bitsOf e / 8) (whole l) (at_ p l) (lane (p.getV d) (bitsOf e) l) := by
  obtain ⟨all, hstores⟩ := vst_stores hi hq h hvp hexec hown
  have hmem : ∀ l ∈ (s.accepted (p.laneNos e m)).1, l ∈ p.laneNos e m := fun l hl => by
    rw [← accepted_append s (p.laneNos e m)]
    exact List.mem_append_left _ hl
  obtain ⟨ps, hps, hsent⟩ := storeElems_own (p := p.numbered s.nextId) .ord (bitsOf e / 8) all
    ((s.accepted (p.laneNos e m)).1.map fun l => (at_ p l, lane (p.getV d) (bitsOf e) l)) hq.2
    (List.forall_mem_map.mpr fun l hl => (hown l (hmem l hl)).2.2)
  refine ⟨ps, fun l => covered all (bitsOf e / 8) (at_ p l).toNat, ?_, ?_⟩
  · rw [hstores, hps, List.length_map]
    rfl
  · rw [hsent, List.map_map]
    refine List.map_congr_left fun l _ => ?_
    simp only [Function.comp_apply, eight_mul_bytes, Nat.mod_eq_of_lt (lane_lt _ _ _)]
    rfl

end

/-- The address of a lane of a strided access, its stride as a number. -/
theorem atStride_eq (x y : XIdx) (p : Proc) (l : Nat) :
    atStride x y p l = p.getX x + BitVec.ofNat 64 (l * (p.getX y).toNat) := by
  rw [atStride, BitVec.ofNat_mul, BitVec.ofNat_toNat, BitVec.setWidth_eq]

/-- Settles O37: every load but the broadcast has an address for each lane, and every store hands its elements to the path. -/
theorem vectorMemory : Obligations.VectorMemory := by
  unfold Obligations.VectorMemory
  intro s p e m d b x y hc hvp hp w z n ls unit stride index load now store
  have hd : Plain p [d] := hp.mono (by simp)
  have hstride : stride = atStride x y p := funext fun l => (atStride_eq x y p l).symm
  have hnow : (s.accepted ls).1 = now := by
    dsimp only [now, State.accepted]
    cases s.part with
    | none => rfl
    | some k => simp
  refine ⟨fun hi hq => ?_, fun els hw hst hsubj hgood => ?_⟩
  · have loads {i : Instr} {vs : List VIdx} (at_ : Proc → Nat → Word) (h : Plain p (d :: vs))
        (he : exec i s = s.vld i e m d vs at_) : load i (at_ p) := vld_takesActive hi hq h hvp he
    have stores {i : Instr} {vs : List VIdx} (at_ : Proc → Nat → Word) (h : Plain p (d :: vs))
        (he : exec i s = s.vst i e m d vs at_) : store i (at_ p) := fun hown => by
      have hacc := vst_accepts hi hq h hvp he hown
      rwa [hnow] at hacc
    exact ⟨loads (atUnit e x y) hd rfl, hstride ▸ loads (atStride x y) hd rfl, loads (atIndex e x b) hp rfl,
      vldb_takesActive hi hq hd, stores (atUnit e x y) hd rfl, hstride ▸ stores (atStride x y) hd rfl,
      stores (atIndex e x b) hp rfl⟩
  · have hdone := vectorLoadReturn_completes hc hw hst hsubj hgood
    rw [eight_mul_bytes] at hdone
    refine ⟨_, hdone, fun l hl => ?_⟩
    rw [lane_putElems hgood _ hl]
    cases els.find? fun c => c.lanes.contains l <;> rfl

end Sys2Proof
end

section
/-! SUPPORT. O38: configuration, start, stop, status and branch of streams, and their events (R190–R194). -/

namespace Sys2Proof

open Machine

section
variable {s : State} {p : Proc} {n : BitVec 3}

theorem strm_goes (hc : s.cpu = some p) (ht : p.cls = .t) (i : Instr) (k : Proc → Out) : s.strm i k = k p := by
  simp only [State.strm, State.ofClass, withProc_some hc, classBad_t ht, Bool.false_eq_true, if_false]

/-- The vector register that is stream n. -/
abbrev streamReg (n : BitVec 3) : VIdx := BitVec.ofNat 4 (8 + n.toNat)

theorem or_eq_streamReg : ∀ n : BitVec 3, 8#4 ||| n.setWidth 4 = streamReg n := by
  decide

/-! Configuration (R191) -/

/-- The stream with a configuration register or MODE written (R191). -/
def Machine.Stream.configured (t : Stream) (k : BitVec 3) (x : Word) : Stream :=
  if k = 0 then { t with cfg0 := x } else if k = 1 then { t with cfg1 := x } else if k = 2 then { t with cfg2 := x }
  else if k = 3 then { t with cfg3 := x } else { t with mode := x }

theorem scfg_sets {k : BitVec 3} {a : XIdx} (hc : s.cpu = some p) (ht : p.cls = .t) (hb : (p.stream n).bound = false)
    (hk : k.toNat < 5) :
    Completes (.scfg n k a) s (behind (p.setStream n ((p.stream n).configured k (p.getX a))) 4) := by
  have hcases : k = 0 ∨ k = 1 ∨ k = 2 ∨ k = 3 ∨ k = 4 := by
    revert k
    decide
  refine (strm_goes hc ht _ _).trans ((if_neg (Bool.eq_false_iff.mp hb)).trans ?_)
  rcases hcases with rfl | rfl | rfl | rfl | rfl <;> rfl

theorem sbase_sets {a : XIdx} (hc : s.cpu = some p) (ht : p.cls = .t) (hb : (p.stream n).bound = false) :
    Completes (.sbase n a) s (behind (p.setStream n { p.stream n with base := p.getX a }) 4) :=
  (strm_goes hc ht _ _).trans (if_neg (Bool.eq_false_iff.mp hb))

theorem config_raises_bound {k : BitVec 3} {a : XIdx} (hc : s.cpu = some p) (ht : p.cls = .t)
    (hb : (p.stream n).bound = true) :
    exec (.scfg n k a) s = s.raised p .stream 4 0 5 (streamNo n) ∧
      exec (.sbase n a) s = s.raised p .stream 4 0 5 (streamNo n) :=
  ⟨(strm_goes hc ht _ _).trans (if_pos hb), (strm_goes hc ht _ _).trans (if_pos hb)⟩

/-! Start and stop (R192, R193) -/

theorem sstart_raises {c : Word} (hc : s.cpu = some p) (ht : p.cls = .t) (hf : (p.stream n).startFault = some c) :
    exec (.sstart n) s = s.raised p .stream 4 0 c (streamNo n) := by
  refine (strm_goes hc ht _ _).trans ?_
  simp only [hf]

/-- The stream at position 0, bound (R192). -/
def Machine.Stream.started (t : Stream) : Stream :=
  { t with pos := 0, ended := decide (t.total = 0), bound := true, ahead := [] }

theorem sstart_binds (hc : s.cpu = some p) (ht : p.cls = .t) (hf : (p.stream n).startFault = none) :
    Completes (.sstart n) s
      (behind ((p.setStream n (p.stream n).started).setV (streamReg n) 0) 4) := by
  rw [← or_eq_streamReg]
  refine (strm_goes hc ht _ _).trans ?_
  simp only [hf]
  rfl

theorem sstop_unbound (hc : s.cpu = some p) (ht : p.cls = .t) (hb : (p.stream n).bound = false) :
    Completes (.sstop n) s (behind p 4) := by
  refine (strm_goes hc ht _ _).trans ?_
  simp only [hb]
  rfl

theorem pushPending_eq_false {pid : Nat} :
    s.pushPending pid n = false ↔ ∀ q ∈ s.packets, q.pid = pid → q.kind ≠ .push n := by
  simp [State.pushPending]

theorem sstop_unbinds (hc : s.cpu = some p) (ht : p.cls = .t) (hb : (p.stream n).bound = true)
    (hpush : ∀ q ∈ s.packets, q.pid = p.pid → q.kind ≠ .push n) :
    exec (.sstop n) s = .next { s.dropAhead p.pid n with cpu := some (behind (p.unbind n) 4) } := by
  refine (strm_goes hc ht _ _).trans ?_
  simp only [hb, pushPending_eq_false.mpr hpush, Bool.and_false]
  rfl

theorem sstop_waits (hc : s.cpu = some p) (ht : p.cls = .t) (hb : (p.stream n).bound = true)
    (hw : (p.stream n).isWrite = true) (hpush : ∃ q ∈ s.packets, q.pid = p.pid ∧ q.kind = .push n) :
    Completes (.sstop n) s { p with wait := .sstop n } := by
  have hpending : s.pushPending p.pid n = true := by simpa [State.pushPending] using hpush
  refine (strm_goes hc ht _ _).trans ?_
  simp only [hb, hw, hpending]
  rfl

theorem dropAhead_other {pid : Nat} (h : ∀ q ∈ s.packets, q.pid ≠ pid) : s.dropAhead pid n = s := by
  have hmap : (s.packets.map fun q =>
      if q.pid = pid then { q with payload := q.payload.redirect (·.dropStream pid n) } else q) = s.packets :=
    (List.map_congr_left fun q hq => if_neg (h q hq)).trans (List.map_id _)
  rw [State.dropAhead, hmap]

/-- No load is redirected to the stream that it is taken from. -/
theorem dropStream_ne_ahead (r : ReplyTo) (pid k : Nat) : r.dropStream pid n ≠ .ahead pid n k := by
  cases r with
  | slot => exact nofun
  | ahead q i e =>
    by_cases h : q = pid ∧ i = n
    · simp [ReplyTo.dropStream, h]
    · rintro he
      simp only [ReplyTo.dropStream, if_neg h] at he
      cases he
      exact h ⟨rfl, rfl⟩

theorem redirect_no_ahead (pl : Payload) (pid : Nat) :
    (∀ a l k, pl.redirect (·.dropStream pid n) ≠ .load a l (.ahead pid n k)) ∧
      ∀ k v b, pl.redirect (·.dropStream pid n) ≠ .loadRet v b (.ahead pid n k) := by
  cases pl with
  | load a m r => exact ⟨fun _ _ k h => dropStream_ne_ahead r pid k (Payload.load.inj h).2.2, fun _ _ _ => nofun⟩
  | loadRet v b r => exact ⟨fun _ _ _ => nofun, fun k _ _ h => dropStream_ne_ahead r pid k (Payload.loadRet.inj h).2.2⟩
  | _ => exact ⟨fun _ _ _ => nofun, fun _ _ _ => nofun⟩

theorem dropAhead_leaves_none {pid : Nat} {q : Packet} (hq : q ∈ (s.dropAhead pid n).packets) (hpid : q.pid = pid) :
    (∀ a l k, q.payload ≠ .load a l (.ahead pid n k)) ∧ ∀ k v b, q.payload ≠ .loadRet v b (.ahead pid n k) := by
  obtain ⟨q', -, rfl⟩ := List.mem_map.mp hq
  by_cases hq' : q'.pid = pid
  · rw [if_pos hq']
    exact redirect_no_ahead _ _
  · rw [if_neg hq'] at hpid
    contradiction

theorem sstopComplete_unbinds (hc : s.cpu = some p) (hw : p.wait = .sstop n) (hst : p.st = .running)
    (hsubj : s.subj = .id p.pid) (hpush : ∀ q ∈ s.packets, q.kind ≠ .push n) :
    Completes .sstopComplete s (behind (p.unbind n) 4) := by
  have hpending : s.pushPending p.pid n = false := pushPending_eq_false.mpr fun q hq _ => hpush q hq
  refine putProc_completes hc rfl (show execSstopComplete s = _ from ?_)
  simp only [execSstopComplete, proc?_subject hc hsubj, hw]
  exact if_pos ⟨hst, hpending⟩

/-! Branch and status (R194) -/

theorem sbr_branches {off : BitVec 17} (hc : s.cpu = some p) (ht : p.cls = .t) :
    Completes (.sbr n off) s (if (p.stream n).bound = true ∧ (p.stream n).ended = false then
      atTarget p (BitVec.ofInt 64 (p.pc.toNat + off.toInt * 2)) else behind p 4) := by
  refine (strm_goes hc ht _ _).trans ?_
  simp only [add_halves_eq_ofInt, Bool.and_eq_true, Bool.not_eq_true']
  rfl

theorem status_of_small {t : Stream} (h : t.pos < 2 ^ 48) : t.status = BitVec.ofNat 64 (t.pos * 65536 +
    (if t.zend = true then 128 else 0) + (t.ndim - 1) * 32 + t.width * 8 + (if t.isWrite = true then 4 else 0) +
    (if t.ended = true then 2 else 0) + (if t.bound = true then 1 else 0)) := by
  simp only [Stream.status, if_neg (not_le.mpr h), bit, field]
  rfl

theorem sstat_gives {d : XIdx} (hc : s.cpu = some p) (ht : p.cls = .t) :
    Completes (.sstat d n) s (behind (p.setX d (p.stream n).status) 4) :=
  strm_goes hc ht _ _

/-! VECTOR_COMMIT and STREAM_READ_AHEAD (R156, R165) -/

theorem vectorCommit_goes (hc : s.cpu = some p) (hw : p.wait = .pop) (hst : p.st = .running)
    (hsubj : s.subj = .id p.pid) (hnone : s.packets = []) :
    Completes .vectorCommit s { p with wait := .stall } := by
  refine putProc_completes hc rfl (show execVectorCommit s = _ from ?_)
  simp only [execVectorCommit, proc?_subject hc hsubj]
  exact if_pos ⟨hst, hw, by rw [hnone]; rfl⟩

/-- With nothing on its way, the element at POS is fetched from the own memory (log 69). -/
theorem streamReadAhead_fetches (hc : s.cpu = some p) (hst : p.st = .running) (hb : (p.stream n).bound = true)
    (hread : (p.stream n).isWrite = false) (hpos : (p.stream n).pos < (p.stream n).total) (hahead : (p.stream n).ahead = [])
    (hnone : s.packets = []) (hsubj : s.subj = .stream p.pid n)
    (hown : OwnAccess s p ((p.stream n).elemAddr (p.stream n).pos) (p.stream n).size .rd)
    (hsound : Sound s (homeAt p ((p.stream n).elemAddr (p.stream n).pos)) (p.stream n).size) :
    Completes .streamReadAhead s (p.setStream n { p.stream n with ahead :=
      [{ idx := (p.stream n).pos, val := s.mem.read (homeAt p ((p.stream n).elemAddr (p.stream n).pos)) (p.stream n).size,
         window := false, marked := false }] }) := by
  have hval := readAt_own 2 (by simp [hnone]) hown hsound
  have hfetched (a : Ahead) : p.fetched n a = p.setStream n { p.stream n with ahead := [a] } := by
    refine (if_pos hb).trans ?_
    rw [show p.streams[n.toNat].ahead = [] from hahead]
    rfl
  refine putProc_completes hc rfl (show execStreamReadAhead s = _ from ?_)
  simp only [execStreamReadAhead, hsubj, State.proc?_active hc, hahead, hnone, List.map_nil, List.filterMap_nil,
    List.append_nil, List.foldl_nil, hval, hfetched]
  exact if_pos ⟨hst, hb, hread, hpos⟩

end

/-- Settles O38: each clause is the lemma of its instruction or event; elements are read ahead in their order (log 69). -/
theorem streams : Obligations.Streams := by
  unfold Obligations.Streams
  intro s p n k a d off hc ht t put x no
  exact ⟨scfg_sets hc ht, sbase_sets hc ht, config_raises_bound hc ht, fun _ => sstart_raises hc ht, sstart_binds hc ht,
    sstop_unbound hc ht, sstop_unbinds hc ht, dropAhead_other,
    fun q hq a l k hpid => ⟨(dropAhead_leaves_none hq hpid).1 a l k, (dropAhead_leaves_none hq hpid).2 k⟩,
    sstop_waits hc ht, sstopComplete_unbinds hc, sbr_branches hc ht,
    fun hpos => status_of_small hpos ▸ sstat_gives hc ht, vectorCommit_goes hc,
    fun hst hb hw hpos hahead hnone hown hsound =>
      streamReadAhead_fetches (s := { s with subj := .stream p.pid n }) hc hst hb hw hpos hahead hnone rfl hown hsound⟩

end Sys2Proof
end

section
/-! SUPPORT. O39: `vmov` from and to bound streams: pops, pushes, and the end of a stream (R160–R164). -/

namespace Sys2Proof

open Machine

/-! Registers that are streams (R160) -/

section
variable {p : Proc} {n : BitVec 3} {r v : VIdx}

theorem boundAt_streamReg (hb : (p.stream n).bound = true) : p.boundAt (streamReg n) = some n := by
  have hreg : ∀ n : BitVec 3, 8 ≤ (streamReg n).toNat ∧ (streamReg n).setWidth 3 = n := by decide
  obtain ⟨hle, hn⟩ := hreg n
  rw [Proc.boundAt, hn, if_pos ⟨hle, hb⟩]

theorem stream_setStream (p : Proc) (n : BitVec 3) (t : Stream) (i : BitVec 3) :
    (p.setStream n t).stream i = if i = n then t else p.stream i := by
  unfold Proc.stream Proc.setStream
  by_cases he : i = n
  · subst he
    simp
  · have hne : n.toNat ≠ i.toNat := fun e => he (BitVec.eq_of_toNat_eq e.symm)
    simp [he, hne]

/-- A register is a stream as before when the stream replaced stays bound. -/
theorem boundAt_setStream {t : Stream} (ht : t.bound = (p.stream n).bound) (r : VIdx) :
    (p.setStream n t).boundAt r = p.boundAt r := by
  unfold Proc.boundAt
  rw [stream_setStream]
  split
  next h => rw [ht, h]
  next h => rfl

theorem popped_none (hr : p.boundAt r = none) : p.popped [r, r] = [] := by
  simp [Proc.popped, hr]

theorem popped_one (hv : p.boundAt v = some n) : p.popped [v, v] = [n] := by
  have hall : ∀ n : BitVec 3, ((List.range 8).map (BitVec.ofNat 3)).filter (fun i => some n == some i) = [n] := by decide
  simpa only [Proc.popped, List.any_cons, List.any_nil, hv, Bool.or_false, Bool.or_self] using hall n

/-- A move from a read stream misuses none (R163). -/
theorem misuse_source (hv : p.boundAt v = some n) (hr : p.boundAt r = none) (hread : (p.stream n).isWrite = false) :
    p.misuse [v, v] [r] true = none := by
  refine List.find?_eq_none.mpr fun i _ => ?_
  by_cases hi : n = i
  · subst hi
    simp [hr, hread]
  · simp [hv, hr, hi]

/-- A move to a write stream misuses none (R163). -/
theorem misuse_destination (hv : p.boundAt v = some n) (hr : p.boundAt r = none) (hwrite : (p.stream n).isWrite = true) :
    p.misuse [r, r] [v] true = none := by
  refine List.find?_eq_none.mpr fun i _ => ?_
  by_cases hi : n = i
  · subst hi
    simp [hr, hwrite]
  · simp [hv, hr, hi]

end

/-! A whole register moved -/

theorem testBit_lane (v : VReg) (w l j : Nat) : (lane v w l).testBit j = (decide (j < w) && v.getLsbD (w * l + j)) := by
  rw [lane, Nat.testBit_mod_two_pow, BitVec.testBit_toNat, BitVec.getLsbD_ushiftRight]

/-- A register is its 32-bit lanes. -/
theorem eq_of_lanes {u v : VReg} (h : ∀ l, l < 64 → lane u 32 l = lane v 32 l) : u = v := by
  refine BitVec.eq_of_getLsbD_eq fun i hi => ?_
  have hbit := congrArg (·.testBit (i % 32)) (h (i / 32) (by omega))
  simpa only [testBit_lane, Nat.mod_lt _ (show 32 > 0 by decide), decide_true, Bool.true_and, Nat.div_add_mod] using hbit

theorem putLanes_all_lanes (u v : VReg) :
    putLanes v 32 (laneMap (BitVec.allOnes 64) 32 fun l => plain (lane u 32 l)) = u := by
  refine eq_of_lanes fun l hl => ?_
  have hactive : active (BitVec.allOnes 64) l 64 = true := by
    rw [active, BitVec.getLsbD_allOnes, gov, decide_eq_true_eq]
    omega
  rw [laneMap_eq_elements, lane_putLanes_elements _ _ _ _ _ hl, if_pos ⟨l.zero_le, by omega, hactive⟩]
  exact Nat.mod_eq_of_lt (lane_lt u 32 l)

/-- What an unmasked `vmov` computes. -/
def moveRes (a : VIdx) (q : Proc) : VRes :=
  { v := some (q.getV a), w := 32, lanes := laneMap (BitVec.allOnes 64) 32 fun l => plain (lane (q.getV a) 32 l) }

theorem vmov_eq_vec (d a : VIdx) (s : State) :
    exec (.vmov 0 d a) s = s.vec (.vmov 0 d a) { srcs := [a, a], dst := some d, push := true } (moveRes a) := by
  refine congrArg (s.vec (.vmov 0 d a) { srcs := [a, a], dst := some d, push := true }) (funext fun q => ?_)
  simp only [Proc.getP_zero, putLanes_all_lanes, moveRes]

theorem flagsOf_moveRes (a : VIdx) (q : Proc) : flagsOf (moveRes a q).lanes = 0 :=
  (flagsOf_laneMap _ _ _).trans (elementFlags_zero _ _)

/-! The course of an unmasked `vmov` (R156) -/

section
variable {s : State} {p : Proc} {d a : VIdx}

/-- Once its source is popped and its push checked, `vmov` stores the register and moves on. -/
theorem vmov_goes {q : Proc} (hc : s.cpu = some p) (ht : p.cls = .t) (hnone : s.packets = [])
    (hmisuse : p.misuse [a, a] [d] true = none) (hpop : s.popAll p [a, a] (p.boundAt d) = .go q)
    (hcheck : ∀ t, q.boundAt d = some t → s.pushCheck q t = none) :
    exec (.vmov 0 d a) s = (s.putVec q (some d) (some (q.getV a))).1.done
      ((s.putVec q (some d) (some (q.getV a))).2.advance 4) := by
  have hpush : (q.boundAt d).bind (s.pushCheck q) = none := Option.bind_eq_none_iff.mpr fun t => hcheck t
  have hheld : ((q.boundAt d).any fun t => s.anyHeld q (q.pushAddrs t)) = false := by
    cases q.boundAt d <;> simp [anyHeld_quiet, hnone]
  rw [vmov_eq_vec]
  unfold State.vec State.ofClass
  simp only [withProc_some hc, classBad_t ht, Option.toList_some, hmisuse, Option.bind_some, hpop, hpush, hheld,
    flagsOf_moveRes, no_flags_enabled, fpflags_or_zero, Bool.not_false, Bool.and_true, Bool.false_eq_true, if_false, ne_eq,
    not_true_eq_false]
  rfl

/-- A pop or push that raises a cause ends `vmov`. -/
theorem vmov_raises {c : Cause} {addr d0 d1 : Word} (hc : s.cpu = some p) (ht : p.cls = .t)
    (hmisuse : p.misuse [a, a] [d] true = none) (hpop : s.popAll p [a, a] (p.boundAt d) = .stop c addr d0 d1) :
    exec (.vmov 0 d a) s = s.raised p c 4 addr d0 d1 := by
  rw [vmov_eq_vec]
  unfold State.vec State.ofClass
  simp only [withProc_some hc, classBad_t ht, Option.toList_some, hmisuse, Option.bind_some, hpop, Bool.not_false,
    Bool.and_true, Bool.false_eq_true, if_false]

end

/-! The next vector of a stream (R161, R162) -/

theorem filter_add_lt_range (a b n : Nat) :
    (List.range n).filter (fun j => decide (a + j < b)) = List.range (min n (b - a)) := by
  induction n with
  | zero => rfl
  | succ n ih =>
    rw [List.range_succ, List.filter_append, ih]
    by_cases h : a + n < b
    · rw [show min (n + 1) (b - a) = min n (b - a) + 1 by omega, List.range_succ, show min n (b - a) = n by omega]
      simp [h]
    · rw [show min (n + 1) (b - a) = min n (b - a) by omega]
      simp [h]

namespace Machine.Stream

/-- The elements of the next vector. -/
abbrev left (t : Stream) : Nat := min t.lanes (t.total - t.pos)

/-- The stream behind its next vector. -/
def moved (t : Stream) : Stream := { t with pos := t.pos + t.left, ended := decide (t.pos + t.left = t.total) }

theorem nextElems_eq (t : Stream) : t.nextElems = (List.range t.left).map fun j => (j, t.pos + j) := by
  rw [nextElems, List.filter_map, ← filter_add_lt_range]
  rfl

theorem pos_behind {t : Stream} (h : t.pos < t.total) : min (t.pos + t.lanes) t.total = t.pos + t.left := by
  unfold left
  omega

/-- The lanes of a vector fill the register. -/
theorem lanes_fill {t : Stream} (h : t.width < 3) : 8 * t.size * t.lanes = 2048 := by
  unfold size lanes
  generalize t.width = w at h
  interval_cases w <;> rfl

end Machine.Stream

/-! Pops (R162) -/

section
variable {s : State} {p : Proc} {n : BitVec 3} {r : VIdx}

/-- The vector that the next pop delivers from memory. -/
def Machine.State.nextVector (s : State) (p : Proc) (n : BitVec 3) : VReg :=
  let t := p.stream n
  ofLanes (8 * t.size) ((List.range t.left).map fun k => s.mem.read (homeAt p (t.elemAddr (t.pos + k))) t.size)

theorem lane_nextVector (hw : (p.stream n).width < 3) (k : Nat) :
    lane (s.nextVector p n) (8 * (p.stream n).size) k =
      if k < (p.stream n).left then
        s.mem.read (homeAt p ((p.stream n).elemAddr ((p.stream n).pos + k))) (p.stream n).size
      else 0 := by
  have hlen : 8 * (p.stream n).size * (p.stream n).left ≤ 2048 :=
    (Nat.mul_le_mul_left _ (min_le_left _ _)).trans_eq (Stream.lanes_fill hw)
  rw [State.nextVector, lane_ofLanes (by simpa using hlen)]
  split
  next h => simp [List.getD, h, Nat.mod_eq_of_lt (s.mem.read_lt_two_pow _ _)]
  next h => simp [List.getD, h]

theorem popAll_source (hv : p.boundAt (streamReg n) = some n) (hend : (p.stream n).atEnd = false) :
    s.popAll p [streamReg n, streamReg n] none = s.popOne p n := by
  simp [State.popAll, Proc.endFault, popped_one hv, hend]

theorem popAll_destination (hr : p.boundAt r = none) (hend : (p.stream n).atEnd = false) :
    s.popAll p [r, r] (some n) = .go p := by
  simp [State.popAll, Proc.endFault, popped_none hr, Option.filter, hend]

theorem popAll_source_atEnd (hv : p.boundAt (streamReg n) = some n) (hend : (p.stream n).atEnd = true) :
    s.popAll p [streamReg n, streamReg n] none = .stop .stream 0 6 (streamNo n) := by
  simp [State.popAll, Proc.endFault, popped_one hv, hend]

theorem popAll_destination_atEnd (hr : p.boundAt r = none) (hend : (p.stream n).atEnd = true) :
    s.popAll p [r, r] (some n) = .stop .stream 0 8 (streamNo n) := by
  simp [State.popAll, Proc.endFault, popped_none hr, Option.filter, hend]

theorem popFault_sound (size : Nat) {rs : List (Nat × Word × Read)} (h : ∀ x ∈ rs, ∃ v, x.2.2 = .val v false) :
    popFault size rs = none := by
  have hnone {α : Type} (f : Nat × Word × Read → Option α) (hf : ∀ k a v, f (k, a, .val v false) = none) :
      rs.findSome? f = none := by
    refine List.findSome?_eq_none_iff.mpr fun x hx => ?_
    obtain ⟨k, a, rd⟩ := x
    obtain ⟨v, rfl⟩ := h _ hx
    exact hf k a v
  rw [popFault, hnone _ fun _ _ _ => rfl, hnone _ fun _ _ _ => rfl]
  rfl

/-- At END a pop that STREAM does not stop gives zero. -/
theorem popOne_ended (hend : (p.stream n).ended = true) : s.popOne p n = .go (p.setV (streamReg n) 0) := by
  rw [← or_eq_streamReg]
  exact if_pos hend

section
variable (hnone : s.packets = []) (hahead : (p.stream n).ahead = [])
  (hown : ∀ k, k < (p.stream n).left →
    OwnAccess s p ((p.stream n).elemAddr ((p.stream n).pos + k)) (p.stream n).size .rd ∧
      Sound s (homeAt p ((p.stream n).elemAddr ((p.stream n).pos + k))) (p.stream n).size)
include hnone hahead hown

/-- The elements of a pop that finds nothing read ahead are read from the own memory. -/
theorem popReads_own :
    s.popReads p n = (List.range (p.stream n).left).map fun k =>
      (k, (p.stream n).elemAddr ((p.stream n).pos + k),
        .val (s.mem.read (homeAt p ((p.stream n).elemAddr ((p.stream n).pos + k))) (p.stream n).size) false) := by
  rw [State.popReads, Stream.nextElems_eq, List.map_map]
  refine List.map_congr_left fun k hk => ?_
  obtain ⟨ha, hs⟩ := hown k (List.mem_range.mp hk)
  simp only [Function.comp_apply, State.popElem, hahead, hnone, List.find?_nil, List.any_nil, Bool.false_eq_true, if_false,
    readAt_own 2 (by simp [hnone]) ha hs]

/-- A pop from the own memory takes the next vector and moves the stream on. -/
theorem popOne_own (hend : (p.stream n).ended = false) (hpos : (p.stream n).pos < (p.stream n).total) :
    s.popOne p n = .go ((p.setStream n (p.stream n).moved).setV (streamReg n) (s.nextVector p n)) := by
  have hreads := popReads_own hnone hahead hown
  have hsettled : (s.popReads p n).all (fun x => x.2.2.settled) = true := by simp [hreads, Read.settled]
  have hfault : popFault (p.stream n).size (s.popReads p n) = none :=
    popFault_sound _ (hreads ▸ List.forall_mem_map.mpr fun k _ => ⟨_, rfl⟩)
  have hfilter : (p.stream n).ahead.filter (fun a => decide ((p.stream n).pos + (p.stream n).left ≤ a.idx)) =
      (p.stream n).ahead := by
    rw [hahead]
    rfl
  unfold State.popOne
  simp only [hend, hsettled, hfault, Bool.false_eq_true, if_false, if_true, or_eq_streamReg, Stream.pos_behind hpos]
  rw [hreads, List.map_map, hfilter]
  rfl

end

end

/-! Pushes (R162) -/

/-- The elements that a push writes, with their addresses. -/
def Machine.Stream.pushed (t : Stream) (x : VReg) : List (Word × Nat) :=
  (List.range t.left).map fun k => (t.elemAddr (t.pos + k), lane x (8 * t.size) k)

theorem Machine.Stream.map_nextElems (t : Stream) (x : VReg) :
    t.nextElems.map (fun e => (t.elemAddr e.2, lane x (8 * t.size) e.1)) = t.pushed x := by
  rw [nextElems_eq, List.map_map]
  rfl

section
variable {s : State} {p : Proc} {n : BitVec 3}
  (hown : ∀ k, k < (p.stream n).left →
    OwnAccess s p ((p.stream n).elemAddr ((p.stream n).pos + k)) (p.stream n).size .wr)
include hown

theorem pushCheck_own : s.pushCheck p n = none := by
  by_cases hend : (p.stream n).ended = true
  · exact if_pos hend
  · refine (if_neg hend).trans (firstFault_none fun r hr => ?_)
    rw [Stream.nextElems_eq, List.map_map] at hr
    obtain ⟨k, hk, rfl⟩ := List.mem_map.mp hr
    simp only [Function.comp_apply, check_own 0 (hown k (List.mem_range.mp hk)), Option.map_none]

/-- A push to the own memory sends one write for each element of the next vector and moves the stream on. -/
theorem push_own (hearly : (s.core p.core).early = []) (hend : (p.stream n).ended = false)
    (hpos : (p.stream n).pos < (p.stream n).total) (x : VReg) :
    ∃ (ps : List Packet) (whole : Nat → Bool),
      s.push p n x = ({ s with nextId := s.nextId + (p.stream n).left, packets := s.packets ++ ps },
        (p.setStream n (p.stream n).moved).setV (streamReg n) x) ∧
      ps.map Packet.sent = (List.range (p.stream n).left).map fun k =>
        s.sentElem p (.push n) (p.stream n).size (whole k) ((p.stream n).elemAddr ((p.stream n).pos + k))
          (lane x (8 * (p.stream n).size) k) := by
  obtain ⟨ps, hps, hsent⟩ := storeElems_own (.push n) (p.stream n).size
    (((p.stream n).pushed x).map fun e => e.1.toNat) ((p.stream n).pushed x) hearly
    (List.forall_mem_map.mpr fun k hk => (hown k (List.mem_range.mp hk)).2.2)
  refine ⟨ps, fun k => covered (((p.stream n).pushed x).map fun e => e.1.toNat) (p.stream n).size
    ((p.stream n).elemAddr ((p.stream n).pos + k)).toNat, ?_, ?_⟩
  · have hlen : ((p.stream n).pushed x).length = (p.stream n).left := by simp [Stream.pushed]
    rw [hlen] at hps
    unfold State.push
    simp only [hend, Bool.false_eq_true, if_false, or_eq_streamReg, Stream.pos_behind hpos, Stream.map_nextElems, hps]
    rfl
  · rw [hsent, Stream.pushed, List.map_map]
    refine List.map_congr_left fun k _ => ?_
    simp only [Function.comp_apply, Nat.mod_eq_of_lt (lane_lt _ _ _)]

end

/-! `vmov` from and to a stream -/

section
variable {s : State} {p q : Proc} {n : BitVec 3} {r : VIdx} (hc : s.cpu = some p) (ht : p.cls = .t) (hnone : s.packets = [])
  (hb : (p.stream n).bound = true) (hr : p.boundAt r = none)
include hc ht hnone hb hr

/-- What is popped is moved. -/
theorem vmov_pops {u : VReg} (hread : (p.stream n).isWrite = false) (hend : (p.stream n).atEnd = false)
    (hpop : s.popOne p n = .go (q.setV (streamReg n) u)) (hq : q.boundAt r = none) :
    Completes (.vmov 0 r (streamReg n)) s (behind ((q.setV (streamReg n) u).setV r u) 4) := by
  have hv := boundAt_streamReg hb
  have hq' : (q.setV (streamReg n) u).boundAt r = none := hq
  have hgo := vmov_goes hc ht hnone (misuse_source hv hr hread) (by rw [hr, popAll_source hv hend, hpop]) fun t => by
    rw [hq']
    exact nofun
  rw [putVec_plain s _ (fun _ hd => Option.some.inj hd ▸ hq'), Proc.getV_setV, if_pos rfl] at hgo
  exact hgo

/-- What is moved is pushed. -/
theorem vmov_pushes {t : State} (hwrite : (p.stream n).isWrite = true) (hend : (p.stream n).atEnd = false)
    (hcheck : s.pushCheck p n = none) (hpush : s.push p n (p.getV r) = (t, q)) :
    exec (.vmov 0 (streamReg n) r) s = .next { t with cpu := some (behind q 4) } := by
  have hv := boundAt_streamReg hb
  have hgo := vmov_goes hc ht hnone (misuse_destination hv hr hwrite) (by rw [hv, popAll_destination hr hend]) fun t ht => by
    rw [hv] at ht
    rwa [← Option.some.inj ht]
  have hput : s.putVec p (some (streamReg n)) (some (p.getV r)) = (t, q) := by
    simp only [State.putVec, hv, hpush]
  rw [hput] at hgo
  exact hgo

omit hnone in
/-- At END a pop that gives no zeros and a push that is not discarded raise STREAM (R162). -/
theorem vmov_raises_atEnd (hend : (p.stream n).atEnd = true) :
    ((p.stream n).isWrite = false →
      exec (.vmov 0 r (streamReg n)) s = s.raised p .stream 4 0 6 (streamNo n)) ∧
    ((p.stream n).isWrite = true →
      exec (.vmov 0 (streamReg n) r) s = s.raised p .stream 4 0 8 (streamNo n)) := by
  have hv := boundAt_streamReg hb
  exact ⟨fun hread => vmov_raises hc ht (misuse_source hv hr hread) (by rw [hr, popAll_source_atEnd hv hend]),
    fun hwrite => vmov_raises hc ht (misuse_destination hv hr hwrite) (by rw [hv, popAll_destination_atEnd hr hend])⟩

end

/-- Settles O39: a `vmov` is its pop or its push; at END `ZEND` decides between the vector of zeros or the push discarded
(log 53), and STREAM. -/
theorem streamOperands : Obligations.StreamOperands := by
  unfold Obligations.StreamOperands
  intro s p n r hc ht hq hnone t v count next no hb hw hr
  have hmoved : (p.setStream n (p.stream n).moved).boundAt r = none :=
    (boundAt_setStream (t := (p.stream n).moved) rfl r).trans hr
  refine ⟨fun hend hpos hahead => ?_, fun hend => ?_⟩
  · have hat : (p.stream n).atEnd = false := by
      rw [Stream.atEnd, show (p.stream n).ended = false from hend, Bool.false_and]
    refine ⟨fun hread hown => ?_, fun hwrite hown => ?_⟩
    · exact ⟨_, _, vmov_pops hc ht hnone hb hr hread hat (popOne_own hnone hahead hown hend hpos) hmoved, rfl,
        fun k _ => lane_nextVector hw k⟩
    · obtain ⟨ps, whole, hpush, hsent⟩ := push_own hown hq.2 hend hpos (p.getV r)
      have hexec := vmov_pushes hc ht hnone hb hr hwrite hat (pushCheck_own hown) hpush
      rw [hnone, List.nil_append] at hexec
      exact ⟨ps, whole, hexec, hsent⟩
  · have hat : (p.stream n).atEnd = !(p.stream n).zend := by
      rw [Stream.atEnd, show (p.stream n).ended = true from hend, Bool.true_and]
    refine ⟨fun hread hz => ?_, fun hwrite hz => ?_, fun hread hz => ?_, fun hwrite hz => ?_⟩
    all_goals rw [show (p.stream n).zend = _ from hz] at hat
    · exact vmov_pops hc ht hnone hb hr hread hat (popOne_ended hend) hr
    · exact vmov_pushes hc ht hnone hb hr hwrite hat (if_pos hend) (if_pos hend)
    · exact (vmov_raises_atEnd hc ht hb hr hat).1 hread
    · exact (vmov_raises_atEnd hc ht hb hr hat).2 hwrite

end Sys2Proof
end

section
/-! SUPPORT. O40, O41: accumulators put together from cells, two's complement cells that saturate, and the common course of tile
instructions that write one (R195, R204, R211). -/

namespace Sys2Proof

open Machine

/-! Cells (R195) -/

/-- Cells in a list are put together as the lanes of a register are. -/
theorem foldr_cells {α : Type} (f : α → Nat) (ls : List α) :
    ls.foldr (fun k acc => f k % 2 ^ 32 + 2 ^ 32 * acc) 0 =
      (ls.map f).foldr (fun x acc => x % 2 ^ 32 + 2 ^ 32 * acc) 0 := by
  rw [List.foldr_map]

/-- An accumulator put together from cells has them. -/
theorem cell_accOf (f : Nat → Nat → Nat) {i j : Nat} (hi : i < 16) (hj : j < 32) : cell (accOf f) i j = f i j % 2 ^ 32 := by
  have hlen : 32 * ((List.range 512).map fun k => f (k / 32) (k % 32)).length ≤ 16384 := by simp
  have hlt := (foldr_lanes_lt (w := 32) _).trans_le (Nat.pow_le_pow_right (by decide) hlen)
  have hk : 32 * i + j < 512 := by omega
  have hrow : (32 * i + j) / 32 = i := by omega
  have hcol : (32 * i + j) % 32 = j := by omega
  rw [cell, accOf, foldr_cells, BitVec.toNat_ushiftRight, BitVec.toNat_ofNat, Nat.mod_eq_of_lt hlt,
    Nat.shiftRight_eq_div_pow, foldr_lanes_get, List.getD_eq_getElem?_getD, List.getElem?_map, List.getElem?_range hk,
    Option.map_some, Option.getD_some, hrow, hcol]

theorem cellsOf_fst (f : Nat → Nat → Rounded) : (cellsOf f).1 = accOf fun i j => (f i j).1 := by
  simp only [cellsOf, accOf, List.foldr_map]

theorem cell_cellsOf (f : Nat → Nat → Rounded) {i j : Nat} (hi : i < 16) (hj : j < 32) :
    cell (cellsOf f).1 i j = (f i j).1 % 2 ^ 32 := by
  rw [cellsOf_fst, cell_accOf _ hi hj]

/-- Cells without flags have none together. -/
theorem cellsOf_plain (f : Nat → Nat → Nat) : (cellsOf fun i j => (f i j, 0)).2 = 0 := by
  have hzero (ls : List Nat) : ls.foldl (fun (fl : Flags) _ => fl ||| 0) 0 = 0 := by
    induction ls with
    | nil => rfl
    | cons _ ls ih => exact ih
  simp only [cellsOf, List.foldl_map, hzero]

theorem cell_lt (a : Acc) (i j : Nat) : cell a i j < 2 ^ 32 :=
  Nat.mod_lt _ (by decide)

/-! Two's complement (R133, Table 7.4) -/

theorem toS_eq_toInt {w x : Nat} (hw : 0 < w) (hx : x < 2 ^ w) : toS w x = (BitVec.ofNat w x).toInt := by
  obtain ⟨n, rfl⟩ := Nat.exists_eq_succ_of_ne_zero hw.ne'
  rw [toS_eq_ite, BitVec.toInt_eq_toNat_cond, BitVec.toNat_ofNat, Nat.mod_eq_of_lt hx]
  have hlt : x < 2 ^ n ↔ 2 * x < 2 ^ (n + 1) := by
    rw [Nat.pow_succ]
    omega
  simp [hlt]

/-- The range of 32-bit numbers. -/
def Fits32 (v : Int) : Prop := -2 ^ 31 ≤ v ∧ v < 2 ^ 31

theorem toS_fits32 {x : Nat} (hx : x < 2 ^ 32) : Fits32 (toS 32 x) := by
  rw [toS_eq_ite, Fits32]
  split <;> omega

theorem satS_fits32 (v : Int) : Fits32 (satS v 32) := by
  rw [satS, Fits32]
  omega

theorem satS_of_fits32 {v : Int} (h : Fits32 v) : satS v 32 = v := by
  obtain ⟨hlo, hhi⟩ := h
  rw [satS]
  omega

theorem wrap_toS {x : Nat} (hx : x < 2 ^ 32) : wrap 32 (toS 32 x) = x := by
  rw [toS_eq_ite, wrap]
  split <;> omega

theorem toS_wrap {v : Int} (h : Fits32 v) : toS 32 (wrap 32 v) = v := by
  obtain ⟨hlo, hhi⟩ := h
  rw [toS_eq_ite, wrap]
  split <;> omega

theorem wrap_mod (v : Int) : wrap 32 v % 2 ^ 32 = wrap 32 v := by
  rw [wrap]
  omega

/-! The course of a tile instruction -/

section
variable {s : State} {p : Proc} {i : Instr} {d : AIdx}

/-- A T-class process performs a tile instruction (R22). -/
theorem tile_active (hc : s.cpu = some p) (ht : p.cls = .t) (vs : List VIdx) (k : Proc → Out) : s.tile i vs k = k p := by
  simp only [State.tile, State.ofClass, withProc_some hc, classBad_t ht, Bool.false_eq_true, if_false]

/-- The instruction completes: a[D] takes the cells g, `%fpflags` the flags, the pc moves on, nothing else changes. -/
def WritesAcc (i : Instr) (s : State) (p : Proc) (d : AIdx) (g : Nat → Nat → Nat) (fl : Flags) : Prop :=
  ∃ acc, Completes i s (behind ({ p with fpflags := p.fpflags ||| fl }.setA d acc) 4) ∧
    ∀ i j, i < 16 → j < 32 → cell acc i j = g i j % 2 ^ 32

/-- With no flag enabled, an instruction that computes every cell writes them with their flags (R211). -/
theorem cellwise_writes {F : Nat → Nat → Rounded} (hen : p.enables = 0) (he : exec i s = s.cellwise p p d (cellsOf F)) :
    WritesAcc i s p d (fun i j => (F i j).1) (cellsOf F).2 := by
  refine ⟨(cellsOf F).1, he.trans ?_, fun i j hi hj => cell_cellsOf F hi hj⟩
  have hnone : (cellsOf F).2 &&& p.enables = 0 := by
    rw [hen]
    exact BitVec.and_zero
  exact if_neg (not_not.mpr hnone)

/-- Cells that set no flags. -/
theorem cellwise_writes_plain {g : Nat → Nat → Nat} (hen : p.enables = 0)
    (he : exec i s = s.cellwise p p d (cellsOf fun i j => (g i j, 0))) : WritesAcc i s p d g 0 :=
  cellsOf_plain g ▸ cellwise_writes hen he

end

end Sys2Proof
end

section
/-! SUPPORT. O40, O41: what a tile instruction reads of the own memory of a quiet core, and what its checks ensure (R200, R204,
R215). -/

namespace Sys2Proof

open Machine

/-! Bytes of rows (R200) -/

namespace Machine.State

/-- A byte at the head of the bytes that follow. -/
theorem rowBytes_succ (s : State) (core : Nat) (d : Desc) (i b n : Nat) :
    s.rowBytes core d i b (n + 1) = (s.tileByte core (d.rowByte i b)).toNat + 256 * s.rowBytes core d i (b + 1) n :=
  rfl

theorem rowBytes_drop (s : State) (core : Nat) (d : Desc) (i b n m : Nat) :
    s.rowBytes core d i b (n + m) / 256 ^ n = s.rowBytes core d i (b + n) m := by
  induction n generalizing b with
  | zero => simp
  | succ n ih =>
    have hbyte := (s.tileByte core (d.rowByte i b)).isLt
    rw [Nat.succ_add, rowBytes_succ, Nat.pow_succ', ← Nat.div_div_eq_div_mul, Nat.add_mul_div_left _ _ (by decide),
      Nat.div_eq_of_lt hbyte, Nat.zero_add, ih, Nat.add_right_comm, Nat.add_assoc]

theorem rowBytes_take (s : State) (core : Nat) (d : Desc) (i b n m : Nat) :
    s.rowBytes core d i b (n + m) % 256 ^ n = s.rowBytes core d i b n := by
  induction n generalizing b with
  | zero => simp [rowBytes, Nat.mod_one]
  | succ n ih =>
    have hbyte := (s.tileByte core (d.rowByte i b)).isLt
    rw [Nat.succ_add, rowBytes_succ, rowBytes_succ, Nat.pow_succ', Nat.mod_mul, Nat.add_mul_mod_self_left,
      Nat.mod_eq_of_lt hbyte, Nat.add_mul_div_left _ _ (by decide), Nat.div_eq_of_lt hbyte, Nat.zero_add, ih]

/-- Elements of m whole bytes each are the bytes at their places. -/
theorem rowElems_of_bytes (s : State) (core : Nat) {d : Desc} {m : Nat} (hz : tileBits d.fmt = 8 * m) (i k n : Nat) :
    s.rowElems core d i k n = (List.range n).map fun t => s.rowBytes core d i (m * (k + t)) m := by
  have hlo : k * (8 * m) / 8 = m * k := by
    rw [show k * (8 * m) = 8 * (m * k) by ring, Nat.mul_div_cancel_left _ (by decide)]
  have hhi : ((k + n) * (8 * m) + 7) / 8 = m * k + m * n := by
    rw [show (k + n) * (8 * m) = 8 * (m * k + m * n) by ring]
    omega
  unfold rowElems
  simp only [hz, hlo, hhi, Nat.add_sub_cancel_left]
  refine List.map_congr_left fun t ht => ?_
  obtain ⟨r, rfl⟩ := Nat.exists_eq_add_of_lt (List.mem_range.mp ht)
  have hbit : (k + t) * (8 * m) - 8 * (m * k) = 8 * (m * t) := by
    rw [show (k + t) * (8 * m) = 8 * (m * k) + 8 * (m * t) by ring, Nat.add_sub_cancel_left]
  rw [hbit, Nat.pow_mul 2 8, Nat.pow_mul 2 8, show m * (t + r + 1) = m * t + (m + m * r) by ring, show 2 ^ 8 = 256 from rfl,
    rowBytes_drop, rowBytes_take, Nat.mul_add]

end Machine.State

/-! The own memory of a quiet core -/

theorem mem_packets_of_landingOrder {s : State} {q : Packet} (h : q ∈ s.landingOrder) : q ∈ s.packets := by
  rw [State.landingOrder, List.mem_append, List.mem_filterMap, List.mem_filter] at h
  rcases h with ⟨r, -, hr⟩ | ⟨hp, -⟩
  · split at hr
    · exact List.mem_of_find?_eq_some hr
    · cases hr
  · exact hp

section
variable {s : State} {core : Nat} (hq : ∀ q ∈ s.packets, q.core ≠ core)
include hq

/-- No access that is under way gives the tile unit a byte (R215). -/
theorem tileByte_quiet (a : Nat) : s.tileByte core a = s.mem.get (globalBase core + a) :=
  seenByte_quiet (s := { s with packets := s.landingOrder }) 0 a (globalBase core + a) fun q hl =>
    hq q (mem_packets_of_landingOrder hl)

/-- No store of the core is under way whose place among the writes a read could settle (R239). -/
theorem fixReads_quiet {p : Proc} (hp : p.core = core) (ds : List Desc) : s.fixReads p ds = s := by
  subst hp
  unfold State.fixReads
  split
  · have hid : ∀ q ∈ s.packets, ∀ c : Bool, (if q.pid == p.pid && q.path == .own && q.forwards p.core 0 && c then
        { q with fixed := true } else q) = q := fun q hmem c => by simp [Packet.forwards, hq q hmem]
    simp only [Bool.and_assoc] at hid ⊢
    rw [List.map_congr_left fun q hmem => hid q hmem _, List.map_id']
  · rfl

end

/-- Memory without errors has no marked granules. -/
theorem tileMarks_sound {s : State} (hm : s.marks = []) (hl : s.latent = []) (core a n : Nat) : s.tileMarks core a n = [] := by
  simp [State.tileMarks, State.seenMarked, State.marked, hm, hl]

theorem rowMarks_sound {s : State} (hm : s.marks = []) (hl : s.latent = []) (core : Nat) (d : Desc) (i k n : Nat) :
    s.rowMarks core d i k n = [] := by
  simp [State.rowMarks, tileMarks_sound hm hl]

/-! The checks of descriptors (R204) -/

theorem firstCombo_none {ops : List (Desc × Role)} {fmt : Nat} {spans : Nat → Bool} (h : firstCombo ops fmt spans = none)
    {c : Nat} (hc : c < 13) : (∀ o ∈ ops, o.1.fails o.2 fmt c = false) ∧ spans c = false := by
  have hnone := List.findSome?_eq_none_iff.mp h c (List.mem_range.mpr hc)
  split at hnone
  · cases hnone
  next hfind =>
    refine ⟨fun o ho => ?_, by simpa using hnone⟩
    obtain ⟨k, hk⟩ := List.mem_iff_getElem?.mp ho
    simpa using List.find?_eq_none.mp hfind (o, k) (List.mk_mem_zipIdx_iff_getElem?.mpr hk)

section
variable {s : State} {p : Proc} {ops : List (Desc × Role × Perm)} {fmt : Nat} {spans : Nat → Bool}

theorem tileChecks_congr {spans' : Nat → Bool} (h : ∀ c, spans c = spans' c) :
    s.tileChecks p ops fmt spans = s.tileChecks p ops fmt spans' := by
  rw [funext h]

variable (h : s.tileChecks p ops fmt spans = none)
include h

theorem tileChecks_combo : firstCombo (ops.map fun o => (o.1, o.2.1)) fmt spans = none := by
  unfold State.tileChecks at h
  split at h
  · cases h
  · assumption

theorem tileChecks_operand {o : Desc × Role × Perm} (ho : o ∈ ops) {c : Nat} (hc : c < 13) :
    o.1.fails o.2.1 fmt c = false :=
  (firstCombo_none (tileChecks_combo h) hc).1 _ (List.mem_map_of_mem ho)

/-- The operands have the format of the instruction. -/
theorem tileChecks_format {o : Desc × Role × Perm} (ho : o ∈ ops) : o.1.fmt = fmt := by
  simpa [Desc.fails] using tileChecks_operand h ho (c := 3) (by decide)

end

end Sys2Proof
end

section
/-! SUPPORT. O40: K-groups of I8 products in the own memory of a quiet core (R144, R206, R207). -/

namespace Sys2Proof

open Machine

/-! Integers as elements (R206) -/

/-- The value of an integer element. -/
def intFp (v : Int) : Fp := .fin (decide (v < 0)) v.natAbs 0

theorem tileVal_i8 (scale code : Nat) : tileVal .i8 scale code = intFp (toS 8 code) := rfl

theorem signedMant_natAbs (v : Int) : signedMant (decide (v < 0)) v.natAbs = v := by
  by_cases h : v < 0 <;> simp only [signedMant, h, decide_true, decide_false, Bool.false_eq_true, if_true, if_false] <;> omega

theorem foldl_eq_add_sum {α β : Type} {f : Int → β → Int} {g : α → β} {v : α → Int} (h : ∀ n t, f n (g t) = n + v t)
    (ls : List α) (n : Int) : (ls.map g).foldl f n = n + (ls.map v).sum := by
  induction ls generalizing n with
  | nil => simp
  | cons t ls ih => rw [List.map_cons, List.foldl_cons, h, ih, List.map_cons, List.sum_cons, Int.add_assoc]

theorem getD_map_range {α : Type} {n i : Nat} (f : Nat → α) (z : α) (h : i < n) : ((List.range n).map f).getD i z = f i := by
  simp [List.getD, h]

/-- Element k of row i of a descriptor of bytes. -/
def Machine.State.tileInt (s : State) (core : Nat) (d : Desc) (i k : Nat) : Int :=
  (s.mem.get (globalBase core + d.rowByte i k)).toInt

/-! One group -/

/-- The cell of a group of an I8 product: the sum of its products is added and the result saturated (R206). -/
def i8Cell (old : Nat) (sum : Int) : Nat := wrap 32 (satS (toS 32 old + sum) 32)

/-- A group of an I8 product: the cells of the rows of both operands take their sums, without flags. -/
def i8Group (rows cols : Nat) (sum : Nat → Nat → Int) (acc : Acc) : Acc × Flags :=
  cellsOf fun i j => (i8Cell (cell acc i j) (if i < rows ∧ j < cols then sum i j else 0), 0)

theorem i8Group_snd (rows cols : Nat) (sum : Nat → Nat → Int) (acc : Acc) : (i8Group rows cols sum acc).2 = 0 :=
  cellsOf_plain _

theorem i8Cell_zero {x : Nat} (hx : x < 2 ^ 32) : i8Cell x 0 = x := by
  rw [i8Cell, Int.add_zero, satS_of_fits32 (toS_fits32 hx), wrap_toS hx]

theorem cell_i8Group (rows cols : Nat) (sum : Nat → Nat → Int) (acc : Acc) {i j : Nat} (hi : i < 16) (hj : j < 32) :
    cell (i8Group rows cols sum acc).1 i j =
      if i < rows ∧ j < cols then i8Cell (cell acc i j) (sum i j) else cell acc i j := by
  rw [i8Group, cell_cellsOf _ hi hj]
  split
  · exact wrap_mod _
  · rw [i8Cell_zero (cell_lt acc i j), Nat.mod_eq_of_lt (cell_lt acc i j)]

section
variable {s : State} {p : Proc} {da db : Desc} (hq : ∀ q ∈ s.packets, q.core ≠ p.core)
  (ha : da.fmt = tileCode .i8) (hb : db.fmt = tileCode .i8)

include hq in
theorem rowVals_i8 {d : Desc} (hd : d.fmt = tileCode .i8) (i k n : Nat) :
    s.rowVals p.core .i8 d i k n = (List.range n).map fun t => intFp (s.tileInt p.core d i (k + t)) := by
  have hbits : tileBits d.fmt = 8 * 1 := by
    rw [hd]
    rfl
  rw [State.rowVals, s.rowElems_of_bytes p.core hbits, List.map_map]
  refine List.map_congr_left fun t _ => ?_
  have hbyte := (s.mem.get (globalBase p.core + d.rowByte i (k + t))).isLt
  rw [Function.comp_apply, tileVal_i8, Nat.one_mul, State.rowBytes_succ, State.rowBytes, tileByte_quiet hq,
    Nat.mul_zero, Nat.add_zero, toS_eq_toInt (by decide) hbyte, BitVec.ofNat_toNat, BitVec.setWidth_eq, State.tileInt]

/-- The sum of the products of a group of `tmma.i8` for the cell (i, j). -/
def Machine.State.denseSum (s : State) (core : Nat) (da db : Desc) (g i j : Nat) : Int :=
  ((List.range (min 16 (db.cols - 16 * g))).map fun k =>
    s.tileInt core da i (16 * g + k) * s.tileInt core db j (16 * g + k)).sum

/-- The element of B, of the four in its quarter, that the metadata m of a row pair with the t-th one of A (R207). -/
def selected (m t : Nat) : Nat := m / 2 ^ (4 * (t / 2) + 2 * (t % 2)) % 4

theorem selected_lt (m t : Nat) : selected m t < 4 :=
  Nat.mod_lt _ (by decide)

/-- The fields of the metadata of a row are its low 16 bits. -/
theorem selected_mod (m : Nat) {t : Nat} (ht : t < 8) : selected (m % 2 ^ 16) t = selected m t := by
  have hfield (n : Nat) (hn : n + 2 ≤ 16) : m % 2 ^ 16 / 2 ^ n % 4 = m / 2 ^ n % 4 := by
    obtain ⟨k, hk⟩ := Nat.exists_eq_add_of_le hn
    rw [hk, Nat.add_assoc, Nat.pow_add, Nat.mod_mul_right_div_self, Nat.pow_add, show 2 ^ 2 = 4 from rfl,
      Nat.mod_mul_right_mod]
  rw [selected, selected, hfield _ (by omega)]

/-- The metadata of row i in the words of group g (R207). -/
theorem metaOf_drop (ws : List Word) (i g : Nat) :
    metaOf (ws.drop (4 * g)) i = (ws.getD (4 * g + i / 4) 0).toNat / 2 ^ (16 * (i % 4)) % 2 ^ 16 := by
  rw [metaOf, BitVec.extractLsb'_toNat, Nat.shiftRight_eq_div_pow]
  simp [List.getD]

/-- The sum of the products of a group of `tmma.sp` with I8 operands for the cell (i, j), where m gives the metadata of a
row. -/
def Machine.State.sparseSum (s : State) (core : Nat) (da db : Desc) (m : Nat → Nat) (g i j : Nat) : Int :=
  ((List.range 8).map fun t =>
    s.tileInt core da i (8 * g + t) * s.tileInt core db j (16 * g + 4 * (t / 2) + selected (m i) t)).sum

include hq ha hb

theorem group1_dense_i8 (acc : Acc) (g : Nat) :
    s.group1 p .i8 false da db acc g = i8Group da.rows db.rows (s.denseSum p.core da db g) acc := by
  unfold State.group1
  refine congrArg cellsOf (funext fun i => funext fun j => ?_)
  simp only [rowVals_i8 hq ha, rowVals_i8 hq hb, Bool.false_eq_true, if_false, if_true, i8Cell]
  by_cases h : i < da.rows ∧ j < db.rows
  · have hin : ¬(da.rows ≤ i ∨ db.rows ≤ j) := by omega
    rw [if_pos h, if_neg hin, getD_map_range _ _ h.1, getD_map_range _ _ h.2, List.zip_map', foldl_eq_add_sum, Int.zero_add]
    · rfl
    · intro n t
      simp only [intFp, signedMant_natAbs]
  · have hout : da.rows ≤ i ∨ db.rows ≤ j := by omega
    rw [if_neg h, if_pos hout]
    rfl

theorem group1_sparse_i8 (acc : Acc) {g : Nat} (hg : 16 * g + 16 ≤ db.cols) :
    s.group1 p .i8 true da db acc g = i8Group da.rows db.rows (s.sparseSum p.core da db (metaOf p.mq) g) acc := by
  have hwhole : min 16 (db.cols - 16 * g) = 16 := by omega
  unfold State.group1
  refine congrArg cellsOf (funext fun i => funext fun j => ?_)
  simp only [rowVals_i8 hq ha, rowVals_i8 hq hb, hwhole, if_true, i8Cell]
  by_cases h : i < da.rows ∧ j < db.rows
  · have hin : ¬(da.rows ≤ i ∨ db.rows ≤ j) := by omega
    have hpair : ∀ t ∈ List.range 8,
        (((List.range 8).map fun t => intFp (s.tileInt p.core da i (8 * g + t))).getD t (.fin false 0 0),
          ((List.range 16).map fun t => intFp (s.tileInt p.core db j (16 * g + t))).getD
            (4 * (t / 2) + metaOf p.mq i / 2 ^ (4 * (t / 2) + 2 * (t % 2)) % 4) (.fin false 0 0)) =
        (intFp (s.tileInt p.core da i (8 * g + t)),
          intFp (s.tileInt p.core db j (16 * g + 4 * (t / 2) + selected (metaOf p.mq i) t))) := fun t ht => by
      have ht' := List.mem_range.mp ht
      have hpos : 4 * (t / 2) + selected (metaOf p.mq i) t < 16 := by
        have := selected_lt (metaOf p.mq i) t
        omega
      rw [getD_map_range _ _ ht', Nat.add_assoc]
      exact congrArg _ (getD_map_range _ _ hpos)
    rw [if_pos h, if_neg hin, getD_map_range _ _ h.1, getD_map_range _ _ h.2, List.map_congr_left hpair, foldl_eq_add_sum,
      Int.zero_add]
    · rfl
    · intro n t
      simp only [intFp, signedMant_natAbs]
  · have hout : da.rows ≤ i ∨ db.rows ≤ j := by omega
    rw [if_neg h, if_pos hout]
    rfl

end

/-! The groups in turn -/

/-- The K-groups up to n in order, with the flags of all (R206). -/
def groupsInTurn (group : Acc → Nat → Acc × Flags) (acc : Acc) (n : Nat) : Acc × Flags :=
  (List.range n).foldl (fun c g => ((group c.1 g).1, c.2 ||| (group c.1 g).2)) (acc, 0)

theorem groupsInTurn_succ (group : Acc → Nat → Acc × Flags) (acc : Acc) (n : Nat) :
    groupsInTurn group acc (n + 1) = ((group (groupsInTurn group acc n).1 n).1,
      (groupsInTurn group acc n).2 ||| (group (groupsInTurn group acc n).1 n).2) := by
  simp [groupsInTurn, List.range_succ]

/-- A cell after n groups: each adds its sum, saturated (R206). -/
def saturating (start : Int) (sum : Nat → Int) (n : Nat) : Int :=
  (List.range n).foldl (fun c g => max (-(2 ^ 31)) (min (c + sum g) (2 ^ 31 - 1))) start

theorem saturating_succ (start : Int) (sum : Nat → Int) (n : Nat) :
    saturating start sum (n + 1) = satS (saturating start sum n + sum n) 32 := by
  simp [saturating, satS, List.range_succ]

theorem saturating_fits32 {start : Int} (h : Fits32 start) (sum : Nat → Int) (n : Nat) : Fits32 (saturating start sum n) := by
  cases n with
  | zero => exact h
  | succ n =>
    rw [saturating_succ]
    exact satS_fits32 _

/-- The cell takes the sum of a group. -/
theorem i8Cell_wrap {v : Int} (h : Fits32 v) (sum : Int) : i8Cell (wrap 32 v) sum = wrap 32 (satS (v + sum) 32) := by
  rw [i8Cell, toS_wrap h]

/-- Groups of an I8 product set no flags; the cells of the rows of both operands add up with saturation, others stay. -/
theorem groupsInTurn_i8 {group : Acc → Nat → Acc × Flags} {sum : Nat → Nat → Nat → Int} {rows cols n : Nat} (acc : Acc)
    (h : ∀ g, g < n → ∀ a, group a g = i8Group rows cols (sum g) a) :
    (groupsInTurn group acc n).2 = 0 ∧ ∀ i j, i < 16 → j < 32 → cell (groupsInTurn group acc n).1 i j =
      if i < rows ∧ j < cols then wrap 32 (saturating (toS 32 (cell acc i j)) (sum · i j) n) else cell acc i j := by
  induction n with
  | zero =>
    refine ⟨rfl, fun i j _ _ => ?_⟩
    split
    · exact (wrap_toS (cell_lt acc i j)).symm
    · rfl
  | succ n ih =>
    obtain ⟨hflags, hcells⟩ := ih fun g hg => h g (by omega)
    rw [groupsInTurn_succ, h n n.lt_succ_self]
    refine ⟨?_, fun i j hi hj => ?_⟩
    · rw [i8Group_snd, hflags]
      rfl
    · have hfits := saturating_fits32 (toS_fits32 (cell_lt acc i j)) (sum · i j) n
      rw [cell_i8Group _ _ _ _ hi hj, hcells i j hi hj]
      split
      · rw [i8Cell_wrap hfits, saturating_succ]
      · rfl

end Sys2Proof
end

section
/-! SUPPORT. O40: products performed group by group where no flag is enabled and no byte is in error, and the statement (R206,
R207, R208, R217, R218). -/

namespace Sys2Proof

open Machine

/-! The groups of an instruction -/

/-- The process behind the next K-group of a product. -/
def Machine.State.performed (s : State) (f : TileFmt) (sp : Bool) (d : AIdx) (da db : Desc) (p : Proc) : Proc :=
  let r := s.group1 p f sp da db (p.getA d) p.tprog
  { p.setA d r.1 with
    fpflags := p.fpflags ||| r.2
    tprog := p.tprog + 1
    mq := if sp then p.mq.drop 4 else p.mq
    claim := if sp then p.claim - 4 else p.claim }

/-- Group g of a product that has begun with the metadata words of `p`. -/
def Machine.State.groupAt (s : State) (p : Proc) (f : TileFmt) (sp : Bool) (da db : Desc) (acc : Acc) (g : Nat) :
    Acc × Flags :=
  s.group1 { p with mq := if sp then p.mq.drop (4 * g) else p.mq } f sp da db acc g

/-- The process behind the first n groups, whose cells and flags are `r`. -/
def Machine.Proc.afterGroups (p : Proc) (sp : Bool) (d : AIdx) (r : Acc × Flags) (n : Nat) : Proc :=
  { p.setA d r.1 with
    fpflags := p.fpflags ||| r.2
    tprog := n
    mq := if sp then p.mq.drop (4 * n) else p.mq
    claim := if sp then p.claim - 4 * n else p.claim }

/-- Every product ends within the groups that an instruction may perform. -/
theorem groups_le (p : Proc) (r : XIdx) : (p.desc r).groups ≤ allGroups := by
  have hcols : (p.desc r).cols ≤ 2 ^ 14 := ((p.getX (r + 1)).extractLsb' 24 14).isLt
  rw [Desc.groups, allGroups]
  omega

section
variable {s : State} (f : TileFmt) (sp : Bool) (d : AIdx) (da db : Desc)

theorem iterate_performed {p : Proc} (h0 : p.tprog = 0) (n : Nat) :
    (s.performed f sp d da db)^[n] p =
      p.afterGroups sp d (groupsInTurn (s.groupAt p f sp da db) (p.getA d) n) n := by
  induction n with
  | zero =>
    have hp : { p with tprog := 0 } = p := by rw [← h0]
    cases sp <;> simpa [Proc.afterGroups, groupsInTurn, Proc.setA, Proc.getA] using hp.symm
  | succ n ih =>
    rw [Function.iterate_succ_apply', ih, groupsInTurn_succ]
    generalize groupsInTurn (s.groupAt p f sp da db) (p.getA d) n = r
    have hacc : (p.afterGroups sp d r n).getA d = r.1 := by
      simp [Proc.afterGroups, Proc.setA, Proc.getA]
    have hgroup : s.group1 (p.afterGroups sp d r n) f sp da db r.1 n = s.groupAt p f sp da db r.1 n := rfl
    rw [State.performed, hacc, show (p.afterGroups sp d r n).tprog = n from rfl, hgroup]
    cases sp <;> simp [Proc.afterGroups, Proc.setA, BitVec.or_assoc, Nat.mul_add, Nat.sub_sub]

variable (hm : s.marks = []) (hl : s.latent = [])
include hm hl

theorem groupMarks_sound (p : Proc) (g : Nat) : s.groupMarks p sp da db g = [] := by
  simp [State.groupMarks, rowMarks_sound hm hl, tileMarks_sound hm hl]

/-- The next group is performed, and then the others. -/
theorem runGroups_succ {p : Proc} (hen : p.enables = 0) (hg : p.tprog < db.groups) (n : Nat) (fl : Flags) :
    s.runGroups f sp d da db (n + 1) fl p =
      s.runGroups f sp d da db n (fl ||| (s.group1 p f sp da db (p.getA d) p.tprog).2) (s.performed f sp d da db p) := by
  have hleft : ¬db.groups ≤ p.tprog := by omega
  have hnone : (s.group1 p f sp da db (p.getA d) p.tprog).2 &&& p.enables = 0 := by
    rw [hen]
    exact BitVec.and_zero
  rw [State.runGroups]
  simp only [hleft, if_false, groupMarks_sound sp da db hm hl, List.min?_nil, hnone, ne_eq, not_true_eq_false]
  cases sp <;> rfl

/-- Where every group that is left may be performed, each is. -/
theorem runGroups_all {m n : Nat} {p : Proc} (fl : Flags) (hen : p.enables = 0) (hg : p.tprog + m = db.groups)
    (hn : m ≤ n) :
    ∃ t, s.runGroups f sp d da db n fl p = ({ (s.performed f sp d da db)^[m] p with tile := t }, none) := by
  induction m generalizing n p fl with
  | zero =>
    cases n with
    | zero => exact ⟨_, rfl⟩
    | succ n => exact ⟨p.tile, if_pos hg.ge⟩
  | succ m ih =>
    obtain ⟨n, rfl⟩ := Nat.exists_eq_add_of_lt hn
    rw [runGroups_succ f sp d da db hm hl hen (by omega), Function.iterate_succ_apply]
    have hg' : p.tprog + 1 + m = db.groups := by omega
    exact ih _ (p := s.performed f sp d da db p) hen hg' (by omega)

/-- A product that begins performs all its groups. -/
theorem runGroups_fresh {p : Proc} (hen : p.enables = 0) (h0 : p.tprog = 0) {n : Nat} (hn : db.groups ≤ n) (fl : Flags) :
    ∃ t, s.runGroups f sp d da db n fl p = ({ p.afterGroups sp d
      (groupsInTurn (s.groupAt p f sp da db) (p.getA d) db.groups) db.groups with tile := t }, none) := by
  rw [← iterate_performed f sp d da db h0]
  exact runGroups_all f sp d da db hm hl fl hen (by rw [h0, Nat.zero_add]) hn

/-- One group is performed when more are left: the flags of the groups so far are kept (R217). -/
theorem runGroups_one {p : Proc} (hen : p.enables = 0) (hg : p.tprog < db.groups) (fl : Flags) :
    s.runGroups f sp d da db 1 fl p = ({ s.performed f sp d da db p with
      tile := some (fl ||| (s.group1 p f sp da db (p.getA d) p.tprog).2) }, none) :=
  runGroups_succ f sp d da db hm hl hen hg 0 fl

end

/-! The course of a product -/

/-- Checks 0x01 and 0x05 of `tmma` (Table 11.6). -/
def denseSpans (f : TileFmt) (da db : Desc) (c : Nat) : Bool :=
  (c == 1 && decide (7 < tileCode f)) || (c == 5 && da.cols != db.cols)

/-- Checks 0x01, 0x05, 0x0A and 0x0B of `tmma.sp` (Table 11.6). -/
def sparseSpans (f : TileFmt) (uncl : Nat) (da db : Desc) (c : Nat) : Bool :=
  (c == 1 && decide (4 < tileCode f)) || (c == 5 && 2 * da.cols != db.cols) ||
    (c == 10 && decide (16 < db.cols / 16)) || (c == 11 && decide (uncl < db.cols / 4))

/-- The descriptors of a `tmma` pass its checks (R204, R205). -/
abbrev Machine.State.TmmaPasses (s : State) (p : Proc) (f : TileFmt) (a b : XIdx) : Prop :=
  s.tileChecks p [(p.desc a, .a, .rd), (p.desc b, .b, .rd)] (tileCode f) (denseSpans f (p.desc a) (p.desc b)) = none

/-- The descriptors of a `tmma.sp` pass its checks (R204, R205, R208). -/
abbrev Machine.State.TmmaSpPasses (s : State) (p : Proc) (f : TileFmt) (a b : XIdx) : Prop :=
  s.tileChecks p [(p.desc a, .aSp, .rd), (p.desc b, .bSp, .rd)] (tileCode f)
    (sparseSpans f p.uncl (p.desc a) (p.desc b)) = none

/-- The process with the metadata words of its `tmma.sp` claimed (R208). -/
def Machine.Proc.claiming (p : Proc) (db : Desc) : Proc := { p with uncl := p.uncl - db.cols / 4, claim := db.cols / 4 }

/-- What follows the groups that an issue of a product performs: the next instruction, or a wait for the rest. -/
def Machine.State.afterRun (s : State) (db : Desc) (q : Proc) : Out :=
  if db.groups ≤ q.tprog then s.done q.productDone else s.done { q with wait := .stall }

section
variable {s : State} {p q : Proc} {i : Instr} {f : TileFmt} {d : AIdx} {a b : XIdx} {n : Nat}

/-- A product whose groups have begun goes on with them. -/
theorem product_resumes {sp : Bool} {fl : Flags} (htile : p.tile = some fl)
    (hrun : s.runGroups f sp d (p.desc a) (p.desc b) n fl p = (q, none)) :
    s.product i f sp d a b n p = s.afterRun (p.desc b) q := by
  simp only [State.product, htile, hrun]
  rfl

variable (hq : ∀ q ∈ s.packets, q.core ≠ p.core) (htile : p.tile = none)
include hq htile

/-- A `tmma` that passes its checks performs its groups. -/
theorem product_dense_issues (hcheck : s.TmmaPasses p f a b)
    (hrun : s.runGroups f false d (p.desc a) (p.desc b) n 0 p = (q, none)) :
    s.product i f false d a b n p = s.afterRun (p.desc b) q := by
  simp only [State.product, htile, Bool.false_eq_true, if_false, Bool.false_and]
  rw [tileChecks_congr (spans' := denseSpans f (p.desc a) (p.desc b)), hcheck]
  · simp only [coreUnstamped_quiet hq, fixReads_quiet hq rfl, Bool.false_eq_true, if_false, hrun]
    rfl
  · intro c
    split <;> simp_all [denseSpans]

/-- A `tmma.sp` that passes its checks claims its metadata words and performs its groups. -/
theorem product_sparse_issues (hprog : p.tprog = 0) (hclaim : p.claim = 0) (hcheck : s.TmmaSpPasses p f a b)
    (hrun : s.runGroups f true d (p.desc a) (p.desc b) n 0 (p.claiming (p.desc b)) = (q, none)) :
    s.product i f true d a b n p = s.afterRun (p.desc b) q := by
  simp only [State.product, htile, hprog, hclaim, if_true, Bool.true_and, Nat.lt_irrefl, decide_false, Bool.or_self,
    Bool.not_false]
  rw [tileChecks_congr (spans' := sparseSpans f p.uncl (p.desc a) (p.desc b)), hcheck]
  · simp only [Proc.claiming, htile, hprog] at hrun
    simp only [coreUnstamped_quiet hq, fixReads_quiet hq rfl, Bool.false_eq_true, if_false, hrun]
    rfl
  · intro c
    split <;> simp_all [sparseSpans]

end

/-! Whole products -/

section
variable {p : Proc} (htile : p.tile = none) (hprog : p.tprog = 0) (hclaim : p.claim = 0) (d : AIdx) (r : Acc × Flags)
  (t : Option Flags) (db : Desc)
include htile hprog hclaim

/-- A `tmma` that has performed its groups is behind its instruction. -/
theorem productDone_dense (n : Nat) : ({ p.afterGroups false d r n with tile := t }).productDone =
    behind { p.setA d r.1 with fpflags := p.fpflags ||| r.2 } 4 := by
  simp [Proc.productDone, Proc.afterGroups, Proc.advance, behind, Proc.setA, htile, hprog, hclaim]

/-- A `tmma.sp` that has performed its groups has used all words that it claimed. -/
theorem productDone_sparse (hcols : db.cols = 16 * db.groups) :
    ({ (p.claiming db).afterGroups true d r db.groups with tile := t }).productDone =
      behind { p.setA d r.1 with fpflags := p.fpflags ||| r.2, mq := p.mq.drop (4 * db.groups)
                                 uncl := p.uncl - db.cols / 4 } 4 := by
  have hused : db.cols / 4 - 4 * db.groups = 0 := by omega
  simp [Proc.productDone, Proc.afterGroups, Proc.advance, behind, Proc.setA, Proc.claiming, htile, hprog, hclaim, hused]

end

section
variable {s : State} {p : Proc} {f : TileFmt} {d : AIdx} {a b : XIdx}

/-- The B of `tmma.sp` has whole groups (check 0x06 of Table 11.6). -/
theorem cols_of_sparse (hcheck : s.TmmaSpPasses p f a b) : (p.desc b).cols = 16 * (p.desc b).groups := by
  have hfail : (p.desc b).fails .bSp (tileCode f) 6 = false :=
    tileChecks_operand hcheck (o := (p.desc b, .bSp, .rd)) (by simp) (by decide)
  have hmod : (p.desc b).cols % 16 = 0 := by simpa using (Bool.or_eq_false_iff.mp hfail).2
  rw [Desc.groups]
  omega

variable (hc : s.cpu = some p) (ht : p.cls = .t)
  (hq : ∀ q ∈ s.packets, q.core ≠ p.core) (hm : s.marks = []) (hl : s.latent = []) (hen : p.enables = 0)
  (htile : p.tile = none) (hprog : p.tprog = 0) (hclaim : p.claim = 0)
include hc ht hq hm hl hen htile hprog hclaim

/-- `tmma` performs all its groups (R206). -/
theorem tmma_completes (hcheck : s.TmmaPasses p f a b) :
    let r := groupsInTurn (s.groupAt p f false (p.desc a) (p.desc b)) (p.getA d) (p.desc b).groups
    Completes (.tmma f d a b) s (behind { p.setA d r.1 with fpflags := p.fpflags ||| r.2 } 4) := by
  intro r
  obtain ⟨t, hrun⟩ := runGroups_fresh f false d (p.desc a) (p.desc b) hm hl hen hprog (groups_le p b) 0
  refine (tile_active hc ht _ _).trans ((product_dense_issues hq htile hcheck hrun).trans ((if_pos le_rfl).trans ?_))
  exact congrArg s.done (productDone_dense htile hprog hclaim d r t _)

/-- `tmma.sp` performs all its groups with the metadata words that it claims (R207, R208). -/
theorem tmmaSp_completes (hcheck : s.TmmaSpPasses p f a b) :
    let r := groupsInTurn (s.groupAt p f true (p.desc a) (p.desc b)) (p.getA d) (p.desc b).groups
    Completes (.tmmaSp f d a b) s (behind { p.setA d r.1 with
      fpflags := p.fpflags ||| r.2, mq := p.mq.drop (4 * (p.desc b).groups), uncl := p.uncl - (p.desc b).cols / 4 } 4) := by
  intro r
  obtain ⟨t, hrun⟩ := runGroups_fresh f true d (p.desc a) (p.desc b) hm hl (p := p.claiming (p.desc b)) hen hprog
    (groups_le p b) 0
  refine (tile_active hc ht _ _).trans
    ((product_sparse_issues hq htile hprog hclaim hcheck hrun).trans ((if_pos le_rfl).trans ?_))
  exact congrArg s.done (productDone_sparse htile hprog hclaim d r t _ (cols_of_sparse hcheck))

end

/-! TILE_GROUP (R206, R217) -/

section
variable {s : State} {p : Proc} {f : TileFmt} {d : AIdx} {a b : XIdx} (hc : s.cpu = some p)
  (hfocus : s.focus = p.core) (hw : p.wait = .none ∨ p.wait = .stall) (hsubj : s.subj = .id p.core)
include hc hfocus hw hsubj

/-- TILE_GROUP goes on with the product at the pc of the process of the core in focus. -/
theorem tileGroup_product {sp : Bool} (hfetch : s.fetch p = .instr (if sp then .tmmaSp f d a b else .tmma f d a b) s) :
    exec .tileGroup s = s.tile (if sp then .tmmaSp f d a b else .tmma f d a b) []
      (s.product (if sp then .tmmaSp f d a b else .tmma f d a b) f sp d a b 1) := by
  have hrun : s.runningOn (Subject.num s.subj) = some p := by
    rw [hsubj, State.runningOn]
    exact (if_pos hfocus).trans hc
  have hself : s.refocus p.core = s := if_pos hfocus
  have hissue : ¬(p.wait ≠ .none ∧ p.wait ≠ .stall) := by tauto
  refine (show _ = execTileGroup s from rfl).trans ?_
  unfold execTileGroup
  simp only [hrun, if_neg hissue, hself, hc, hfetch]
  cases sp <;> rfl

variable (ht : p.cls = .t) (hq : ∀ q ∈ s.packets, q.core ≠ p.core) (hm : s.marks = []) (hl : s.latent = [])
  (hen : p.enables = 0) (hg : p.tprog + 1 < (p.desc b).groups)
include ht hq hm hl hen hg

/-- A group of a `tmma`, first or later. -/
theorem tmma_group (hcheck : p.tile = none → s.TmmaPasses p f a b)
    (hfetch : s.fetch p = .instr (.tmma f d a b) s) :
    let r := s.group1 p f false (p.desc a) (p.desc b) (p.getA d) p.tprog
    Completes .tileGroup s { p.setA d r.1 with
      fpflags := p.fpflags ||| r.2, tprog := p.tprog + 1, wait := .stall, tile := some (p.tile.getD 0 ||| r.2) } := by
  intro r
  have hrun := runGroups_one f false d (p.desc a) (p.desc b) hm hl hen (Nat.lt_of_succ_lt hg)
  have hproduct : s.product (.tmma f d a b) f false d a b 1 p = s.afterRun (p.desc b)
      { s.performed f false d (p.desc a) (p.desc b) p with tile := some (p.tile.getD 0 ||| r.2) } := by
    cases htile : p.tile with
    | none => exact product_dense_issues hq htile (hcheck htile) (hrun 0)
    | some fl => exact product_resumes htile (hrun fl)
  exact (tileGroup_product hc hfocus hw hsubj (sp := false) hfetch).trans
    ((tile_active hc ht _ _).trans (hproduct.trans (if_neg (Nat.not_le.mpr hg))))

/-- A group of a `tmma.sp`, whose words are claimed when the first one is performed. -/
theorem tmmaSp_group (hcheck : p.tile = none → p.tprog = 0 ∧ p.claim = 0 ∧ s.TmmaSpPasses p f a b)
    (hfetch : s.fetch p = .instr (.tmmaSp f d a b) s) :
    let r := s.group1 p f true (p.desc a) (p.desc b) (p.getA d) p.tprog
    Completes .tileGroup s { p.setA d r.1 with
      fpflags := p.fpflags ||| r.2, tprog := p.tprog + 1, wait := .stall, tile := some (p.tile.getD 0 ||| r.2)
      mq := p.mq.drop 4
      uncl := if p.tile = none then p.uncl - (p.desc b).cols / 4 else p.uncl
      claim := (if p.tile = none then (p.desc b).cols / 4 else p.claim) - 4 } := by
  intro r
  refine (tileGroup_product hc hfocus hw hsubj (sp := true) hfetch).trans ((tile_active hc ht _ _).trans ?_)
  have hmore : ¬(p.desc b).groups ≤ p.tprog + 1 := Nat.not_le.mpr hg
  cases htile : p.tile with
  | none =>
    obtain ⟨hprog, hclaim, hpass⟩ := hcheck htile
    have hrun := runGroups_one f true d (p.desc a) (p.desc b) hm hl (p := p.claiming (p.desc b)) hen (Nat.lt_of_succ_lt hg) 0
    exact (product_sparse_issues hq htile hprog hclaim hpass hrun).trans (if_neg hmore)
  | some fl =>
    have hrun := runGroups_one f true d (p.desc a) (p.desc b) hm hl hen (Nat.lt_of_succ_lt hg) fl
    exact (product_resumes htile hrun).trans (if_neg hmore)

end

/-! I8 products -/

section
variable {s : State} {p : Proc} {a b : XIdx} (hq : ∀ q ∈ s.packets, q.core ≠ p.core)
include hq

theorem groupAt_dense_i8 (hcheck : s.TmmaPasses p .i8 a b) (g : Nat) (_ : g < (p.desc b).groups) (acc : Acc) :
    s.groupAt p .i8 false (p.desc a) (p.desc b) acc g =
      i8Group (p.desc a).rows (p.desc b).rows (s.denseSum p.core (p.desc a) (p.desc b) g) acc :=
  group1_dense_i8 hq (tileChecks_format hcheck (o := (p.desc a, .a, .rd)) (by simp))
    (tileChecks_format hcheck (o := (p.desc b, .b, .rd)) (by simp)) acc g

/-- The metadata that group g of a product finds for row i (R207). -/
abbrev Machine.Proc.metaAt (p : Proc) (g i : Nat) : Nat := (p.mq.getD (4 * g + i / 4) 0).toNat / 2 ^ (16 * (i % 4))

theorem groupAt_sparse_i8 (hcheck : s.TmmaSpPasses p .i8 a b) (g : Nat) (hg : g < (p.desc b).groups) (acc : Acc) :
    s.groupAt p .i8 true (p.desc a) (p.desc b) acc g =
      i8Group (p.desc a).rows (p.desc b).rows (s.sparseSum p.core (p.desc a) (p.desc b) (p.metaAt g) g) acc := by
  have hcols := cols_of_sparse hcheck
  have hwhole : 16 * g + 16 ≤ (p.desc b).cols := by omega
  have hmeta : s.sparseSum p.core (p.desc a) (p.desc b) (metaOf (p.mq.drop (4 * g))) g =
      s.sparseSum p.core (p.desc a) (p.desc b) (p.metaAt g) g := by
    funext i j
    refine congrArg List.sum (List.map_congr_left fun t ht => ?_)
    rw [metaOf_drop, selected_mod _ (List.mem_range.mp ht)]
  rw [← hmeta]
  exact group1_sparse_i8 (p := { p with mq := p.mq.drop (4 * g) }) hq
    (tileChecks_format hcheck (o := (p.desc a, .aSp, .rd)) (by simp))
    (tileChecks_format hcheck (o := (p.desc b, .bSp, .rd)) (by simp)) acc hwhole

end

/-- The cells of an I8 product after n groups, as numbers of two's complement. -/
theorem groupsInTurn_i8_toInt {group : Acc → Nat → Acc × Flags} {sum : Nat → Nat → Nat → Int} {rows cols n : Nat} (acc : Acc)
    (h : ∀ g, g < n → ∀ a, group a g = i8Group rows cols (sum g) a) :
    (groupsInTurn group acc n).2 = 0 ∧ ∀ i j, i < 16 → j < 32 → cell (groupsInTurn group acc n).1 i j =
      if i < rows ∧ j < cols then
        (saturating (BitVec.ofNat 32 (cell acc i j)).toInt (sum · i j) n % 2 ^ 32).toNat
      else cell acc i j := by
  obtain ⟨hflags, hcells⟩ := groupsInTurn_i8 acc h
  refine ⟨hflags, fun i j hi hj => ?_⟩
  rw [hcells i j hi hj, toS_eq_toInt (by decide) (cell_lt acc i j)]
  rfl

/-- Settles O40: a product is its groups in turn (`runGroups_fresh`), an I8 group adds to each cell its sum of products
(`group1_dense_i8`, `group1_sparse_i8`), and TILE_GROUP performs the next one. -/
theorem tileProducts : Obligations.TileProducts := by
  unfold Obligations.TileProducts
  intro s p f d a b hc ht hm hl hen
  refine ⟨?_, ?_, ?_, ?_, ?_⟩
  · rintro ⟨⟨hq, -⟩, htile, hprog, hclaim⟩ hcheck
    exact tmma_completes hc ht hq hm hl hen htile hprog hclaim hcheck
  · rintro ⟨⟨hq, -⟩, -⟩ hcheck rfl
    obtain ⟨hflags, hcells⟩ := groupsInTurn_i8_toInt (p.getA d) (groupAt_dense_i8 hq hcheck)
    exact ⟨hflags, fun i j hi hj => hcells i j hi hj⟩
  · rintro ⟨⟨hq, -⟩, htile, hprog, hclaim⟩ hcheck
    exact tmmaSp_completes hc ht hq hm hl hen htile hprog hclaim hcheck
  · rintro ⟨⟨hq, -⟩, -⟩ hcheck rfl
    obtain ⟨hflags, hcells⟩ := groupsInTurn_i8_toInt (p.getA d) (groupAt_sparse_i8 hq hcheck)
    exact ⟨hflags, fun i j hi hj => hcells i j hi hj⟩
  · rintro ⟨hq, -⟩ hfocus hw hsubj hg
    refine ⟨fun hcheck hfetch => ?_, fun hcheck hfetch => ?_⟩
    · have hgone := tmma_group hc hfocus hw hsubj ht hq hm hl hen hg hcheck hfetch
      exact hgone
    · have hgone := tmmaSp_group hc hfocus hw hsubj ht hq hm hl hen hg hcheck hfetch
      exact hgone

end Sys2Proof
end

section
/-! SUPPORT. O41: accumulators cleared, loaded, added and scaled (R209, R211). -/

namespace Sys2Proof

open Machine

section
variable {s : State} {p : Proc} {i : Instr} {d : AIdx}

theorem WritesAcc.congr {g g' : Nat → Nat → Nat} {fl : Flags} (h : WritesAcc i s p d g fl)
    (hg : ∀ i j, g i j = g' i j) : WritesAcc i s p d g' fl :=
  (funext fun i => funext fun j => hg i j : g = g') ▸ h

/-- Cells put together without flags. -/
theorem writesAcc_accOf {g : Nat → Nat → Nat} (h : Completes i s (behind (p.setA d (accOf g)) 4)) :
    WritesAcc i s p d g 0 := by
  refine ⟨accOf g, ?_, fun i j hi hj => cell_accOf g hi hj⟩
  rwa [fpflags_or_zero]

end

/-! Adding and scaling (R211) -/

/-- A cell as a signed number. -/
abbrev signedCell (c : Nat) : Int := (BitVec.ofNat 32 c).toInt

/-- A saturated cell (Table 7.4). -/
abbrev clampCell (v : Int) : Nat := (max (-(2 ^ 31)) (min v (2 ^ 31 - 1)) % 2 ^ 32).toNat

theorem wrap_satS (v : Int) : wrap 32 (satS v 32) = clampCell v := rfl

theorem toS_cell (a : Acc) (i j : Nat) : toS 32 (cell a i j) = signedCell (cell a i j) :=
  toS_eq_toInt (by decide) (cell_lt a i j)

theorem toS_lane (v : VReg) (l : Nat) : toS 32 (lane v 32 l) = signedCell (lane v 32 l) :=
  toS_eq_toInt (by decide) (lane_lt v 32 l)

section
variable {s : State} {p : Proc} {f : TileFmt} {d a b : AIdx} {u v : VIdx} (hc : s.cpu = some p)
  (ht : p.cls = .t)
include hc ht

theorem tzero_completes : Completes (.tzero d) s (behind (p.setA d 0) 4) :=
  tile_active hc ht _ _

theorem tadd_goes (hf : comboFmt f = none) : exec (.tadd f d a b) s = s.cellwise p p d (cellsOf fun i j =>
    if f = .f32 then flushOut (fp32.add .rne (readF32 (cell (p.getA a) i j)) (readF32 (cell (p.getA b) i j)))
    else (wrap 32 (satS (toS 32 (cell (p.getA a) i j) + toS 32 (cell (p.getA b) i j)) 32), 0)) := by
  refine (tile_active hc ht _ _).trans ?_
  simp only [hf]

theorem tscale_goes (h : Plain p [u, v]) (hf : comboFmt f = none) :
    exec (.tscale f d u v) s = s.cellwise p p d (cellsOf fun i j =>
      if f = .f32 then
        scale3 (readF32 (cell (p.getA d) i j)) (readF32 (lane (p.getV u) 32 i)) (readF32 (lane (p.getV v) 32 j))
      else (wrap 32 (satS
        (toS 32 (cell (p.getA d) i j) * toS 32 (lane (p.getV u) 32 i) * toS 32 (lane (p.getV v) 32 j)) 32), 0)) := by
  refine (tile_active hc ht _ _).trans ?_
  simp only [hf, misuse_plain h (h.mono (us := []) (by simp)), popAll_plain s h]

/-- Formats of two bytes or less are none of `tadd` and `tscale`. -/
theorem combo_raises (hi : f ≠ .i32) (hf : f ≠ .f32) {i : Instr} (h : i = .tadd f d a b ∨ i = .tscale f d u v) :
    exec i s = .next (s.raise p .tileCombo (some 4) 0 0x201 (instrDetail i)) := by
  have hcombo : comboFmt f = some (.tileCombo, 0, 0x201, none) := by
    cases f
    case f32 => exact absurd rfl hf
    case i32 => exact absurd rfl hi
    all_goals rfl
  rcases h with rfl | rfl
  all_goals
    refine (tile_active hc ht _ _).trans ?_
    simp only [hcombo]
    rfl

variable (hen : p.enables = 0)
include hen

theorem tadd_i32_writes : WritesAcc (.tadd .i32 d a b) s p d
    (fun i j => clampCell (signedCell (cell (p.getA a) i j) + signedCell (cell (p.getA b) i j))) 0 := by
  refine (cellwise_writes_plain (g := fun i j =>
    wrap 32 (satS (toS 32 (cell (p.getA a) i j) + toS 32 (cell (p.getA b) i j)) 32)) hen ?_).congr fun i j => ?_
  · exact tadd_goes hc ht rfl
  · rw [toS_cell, toS_cell, wrap_satS]

theorem tscale_i32_writes (h : Plain p [u, v]) : WritesAcc (.tscale .i32 d u v) s p d (fun i j => clampCell
    (signedCell (cell (p.getA d) i j) * signedCell (lane (p.getV u) 32 i) * signedCell (lane (p.getV v) 32 j))) 0 := by
  refine (cellwise_writes_plain (g := fun i j => wrap 32 (satS
    (toS 32 (cell (p.getA d) i j) * toS 32 (lane (p.getV u) 32 i) * toS 32 (lane (p.getV v) 32 j)) 32)) hen ?_).congr
      fun i j => ?_
  · exact tscale_goes hc ht h rfl
  · rw [toS_cell, toS_lane, toS_lane, wrap_satS]

end

/-! Loading (R209) -/

/-- A subnormal pattern as a zero of its sign (R143). -/
theorem flushIn_fp32 {c : Nat} (hc : c < 2 ^ 32) :
    fp32.flushIn c = if c % 2 ^ 31 < 2 ^ 23 then c / 2 ^ 31 * 2 ^ 31 else c := by
  have hexp : c / 2 ^ 23 % 2 ^ 8 = 0 ↔ c % 2 ^ 31 < 2 ^ 23 := by omega
  have hsign : c / 2 ^ 31 = 0 ∨ c / 2 ^ 31 = 1 := by omega
  change (if c / 2 ^ 23 % 2 ^ 8 = 0 then (if decide (c / 2 ^ 31 % 2 = 1) = true then 2 ^ 31 else 0) else c) = _
  simp only [hexp]
  rcases hsign with h | h
  all_goals
    rw [h]
    rfl

/-- The little-endian 32-bit element at byte b of row i. -/
def Machine.State.tileWord (s : State) (core : Nat) (d : Desc) (i b : Nat) : Nat :=
  let byte (k : Nat) : Nat := (s.mem.get (globalBase core + d.rowByte i (b + k))).toNat
  byte 0 + 256 * byte 1 + 65536 * byte 2 + 16777216 * byte 3

theorem rowBytes_four {s : State} {core : Nat} (hq : ∀ q ∈ s.packets, q.core ≠ core) (d : Desc) (i b : Nat) :
    s.rowBytes core d i b 4 = s.tileWord core d i b := by
  have hend : s.rowBytes core d i (b + 1 + 1 + 1 + 1) 0 = 0 := rfl
  simp only [State.rowBytes_succ, hend, tileByte_quiet hq, State.tileWord, Nat.add_zero, Nat.add_assoc b, Nat.reduceAdd]
  omega

theorem tileWord_lt (s : State) (core : Nat) (d : Desc) (i b : Nat) : s.tileWord core d i b < 2 ^ 32 := by
  have h (k : Nat) := (s.mem.get (globalBase core + d.rowByte i (b + k))).isLt
  have h0 := h 0
  have h1 := h 1
  have h2 := h 2
  have h3 := h 3
  dsimp only [State.tileWord]
  omega

/-- An entry of a table of rows, 0 beyond it. -/
theorem getD_getD_map_range (rows cols : Nat) (g : Nat → Nat → Nat) (i j : Nat) :
    (((List.range rows).map fun i => (List.range cols).map (g i)).getD i []).getD j 0 =
      if rows ≤ i ∨ cols ≤ j then 0 else g i j := by
  by_cases hi : i < rows
  · by_cases hj : j < cols
    · have hin : ¬(rows ≤ i ∨ cols ≤ j) := by omega
      rw [if_neg hin, getD_map_range _ _ hi, getD_map_range _ _ hj]
    · have hout : rows ≤ i ∨ cols ≤ j := by omega
      rw [if_pos hout, getD_map_range _ _ hi]
      simp [List.getD, hj]
  · have hout : rows ≤ i ∨ cols ≤ j := by omega
    rw [if_pos hout]
    simp [List.getD, hi]

/-- `tldacc` takes formats of four bytes (Table 11.4). -/
theorem tileBits_ld {f : TileFmt} (h : Role.ld.takes (tileCode f) = true) : tileBits (tileCode f) = 8 * 4 := by
  cases f
  case f32 | i32 => rfl
  all_goals cases h

theorem tldacc_writes {s : State} {p : Proc} {f : TileFmt} {d : AIdx} {y : XIdx} (hc : s.cpu = some p) (ht : p.cls = .t)
    (hq : ∀ q ∈ s.packets, q.core ≠ p.core) (hm : s.marks = []) (hl : s.latent = [])
    (hcheck : s.tileChecks p [(p.desc y, .ld, .rd)] (tileCode f) (fun c => c == 1 && !Role.ld.takes (tileCode f)) = none) :
    WritesAcc (.tldacc f d y) s p d (fun i j =>
      if (p.desc y).rows ≤ i ∨ (p.desc y).cols ≤ j then 0
      else if f = .f32 ∧ s.tileWord p.core (p.desc y) i (4 * j) % 2 ^ 31 < 2 ^ 23 then
        s.tileWord p.core (p.desc y) i (4 * j) / 2 ^ 31 * 2 ^ 31
      else s.tileWord p.core (p.desc y) i (4 * j)) 0 := by
  have htakes : Role.ld.takes (tileCode f) = true := by
    simpa using (firstCombo_none (tileChecks_combo hcheck) (c := 1) (by decide)).2
  have hbits : tileBits (p.desc y).fmt = 8 * 4 := by
    rw [tileChecks_format hcheck (o := (p.desc y, .ld, .rd)) (by simp), tileBits_ld htakes]
  have hmarks : (List.range (p.desc y).rows).flatMap (fun i => s.rowMarks p.core (p.desc y) i 0 (p.desc y).cols) = [] := by
    simp [rowMarks_sound hm hl]
  refine (writesAcc_accOf (g := fun i j => if f = .f32 then
      fp32.flushIn (if (p.desc y).rows ≤ i ∨ (p.desc y).cols ≤ j then 0 else s.tileWord p.core (p.desc y) i (4 * j))
    else if (p.desc y).rows ≤ i ∨ (p.desc y).cols ≤ j then 0 else s.tileWord p.core (p.desc y) i (4 * j)) ?_).congr
      fun i j => ?_
  · refine (tile_active hc ht _ _).trans ?_
    simp only [hcheck, coreUnstamped_quiet hq, fixReads_quiet hq rfl, hmarks, List.min?_nil, Bool.false_eq_true, if_false,
      s.rowElems_of_bytes p.core hbits, rowBytes_four hq, getD_getD_map_range, Nat.zero_add]
    rfl
  · by_cases hout : (p.desc y).rows ≤ i ∨ (p.desc y).cols ≤ j
    · have hzero : fp32.flushIn 0 = 0 := rfl
      simp only [if_pos hout, hzero, ite_self]
    · rw [flushIn_fp32 (by rw [if_neg hout]; exact tileWord_lt ..)]
      by_cases hf : f = .f32 <;> simp [hf, hout]

end Sys2Proof
end

section
/-! SUPPORT. O41: `tst` and the wait for its writes, descriptors tested, metadata, and the statement (R208, R210, R212, R213,
R216). -/

namespace Sys2Proof

open Machine

/-! Storing (R210, R216) -/

/-- What the packet of one write of a `tst` carries. -/
abbrev Machine.State.sentTst (s : State) (p : Proc) (whole : Bool) (w : TstWrite) :
    Nat × Nat × Path × AKind × Nat × Nat × Payload :=
  s.sentElem p .tst w.2.1 whole w.1 (w.2.2 % 2 ^ (8 * w.2.1))

/-- Whether the writes made of a `tst` cover the granule of an address (R112). -/
def coveredBy (all : List TstWrite) (a : Nat) : Bool :=
  covered (all.flatMap fun w => (List.range w.2.1).map fun k => w.1.toNat + k) 1 a

/-- The writes of a `tst` to the own memory of a quiet core set out in their order, one packet each. -/
theorem storeTst_own {p : Proc} (all ws : List TstWrite) {s : State} (hearly : (s.core p.core).early = [])
    (h : ∀ e ∈ ws, e.1.toNat < s.parkStart p.core) :
    ∃ ps : List Packet, s.storeTst p all ws =
        { s with nextId := s.nextId + ws.length, packets := s.packets ++ ps } ∧
      ps.map Packet.sent = ws.map fun e => s.sentTst p (coveredBy all e.1.toNat) e := by
  induction ws generalizing s with
  | nil => exact ⟨[], by simp [State.storeTst], rfl⟩
  | cons e ws ih =>
    obtain ⟨q, hq, hsent⟩ := store_own hearly (h e (by simp)) e.2.1 .tst e.2.2 (coveredBy all e.1.toNat)
    obtain ⟨ps, hps, hmap⟩ := ih (s := { s with nextId := s.nextId + 1, packets := s.packets ++ [q] }) hearly
      fun e' he' => h e' (by simp [he'])
    refine ⟨q :: ps, ?_, ?_⟩
    · rw [coveredBy] at hq
      rw [State.storeTst, List.foldl_cons, hq]
      refine hps.trans ?_
      simp only [List.length_cons, List.append_assoc, List.singleton_append, Nat.add_assoc, Nat.add_comm 1]
    · rw [List.map_cons, List.map_cons, hmap, hsent]
      rfl

/-- What depends on an entry depends on its place. -/
theorem map_eq_map_zipIdx {α β γ : Type} (f : β → α → γ) (h : α → β) (z : β) (ls : List α) :
    ls.map (fun x => f (h x) x) = ls.zipIdx.map fun e => f ((ls.map h).getD e.2 z) e.1 := by
  refine List.ext_getElem (by simp) fun k h₁ h₂ => ?_
  have hk : k < ls.length := by simpa using h₁
  simp [List.getD, hk]

section
variable {s : State} {p : Proc} {f : TileFmt} {d : AIdx} {x y : XIdx} {u : VIdx} {role : BitVec 5} (hc : s.cpu = some p)
  (ht : p.cls = .t)

/-- The process behind a `tst` of which the path has taken n of the writes that were left. -/
def Machine.Proc.afterTst (p : Proc) (fl : Flags) (n left : Nat) : Proc :=
  if n = left then behind { p with fpflags := p.fpflags ||| fl } 4 else { p with wait := .stall, tdone := p.tdone + n }

include hc ht in
theorem tst_stores (hen : p.enables = 0) (hq : ∀ q ∈ s.packets, q.core ≠ p.core)
    (hcheck : s.tileChecks p [(p.desc y, .st, .wr)] (tileCode f) (fun c => c == 1 && !Role.st.takes (tileCode f)) = none) :
    let w := tstWrites f (p.desc y) (p.getA d)
    let now := (s.accepted (w.1.drop p.tdone)).1
    exec (.tst f y d) s = (s.storeTst p (w.1.take (p.tdone + now.length)) now).done
      (p.afterTst w.2 now.length (w.1.drop p.tdone).length) := by
  intro w now
  have hnone : w.2 &&& p.enables = 0 := by
    rw [hen]
    exact BitVec.and_zero
  have hlen : (w.1.drop p.tdone).length = now.length + (s.accepted (w.1.drop p.tdone)).2.length := by
    rw [← List.length_append, accepted_append]
  refine (tile_active hc ht _ _).trans ?_
  simp only [hcheck, coreUnstamped_quiet hq, Bool.false_eq_true, if_false, ne_eq]
  refine (if_neg (not_not.mpr hnone)).trans ?_
  rw [hlen, Proc.afterTst]
  cases (s.accepted (w.1.drop p.tdone)).2 with
  | nil => exact congrArg (State.done _) (if_pos rfl).symm
  | cons e rest => exact congrArg (State.done _) (if_neg (by simp)).symm

include hc ht in
/-- A `tst` whose checks pass sends out its writes that the path takes, from the first that it has not taken before. -/
theorem tst_sends (hen : p.enables = 0) (hq : Quiet s p.core)
    (hcheck : s.tileChecks p [(p.desc y, .st, .wr)] (tileCode f) (fun c => c == 1 && !Role.st.takes (tileCode f)) = none)
    (hpark : ∀ e ∈ (tstWrites f (p.desc y) (p.getA d)).1, e.1.toNat < s.parkStart p.core) :
    let w := tstWrites f (p.desc y) (p.getA d)
    let now := (s.accepted (w.1.drop p.tdone)).1
    ∃ (ps : List Packet) (whole : Nat → Bool), exec (.tst f y d) s = .next { s with
        cpu := some (p.afterTst w.2 now.length (w.1.drop p.tdone).length)
        nextId := s.nextId + now.length, packets := s.packets ++ ps } ∧
      ps.map Packet.sent = now.zipIdx.map fun e => s.sentTst p (whole e.2) e.1 := by
  intro w now
  have hmem : ∀ e ∈ now, e ∈ w.1 := fun e he => List.mem_of_mem_drop
    (accepted_append s (w.1.drop p.tdone) ▸ List.mem_append_left _ he)
  obtain ⟨ps, hps, hsent⟩ := storeTst_own (w.1.take (p.tdone + now.length)) now hq.2 fun e he => hpark e (hmem e he)
  refine ⟨ps, fun k => (now.map fun e => coveredBy (w.1.take (p.tdone + now.length)) e.1.toNat).getD k false, ?_, ?_⟩
  · refine (tst_stores hc ht hen hq.1 hcheck).trans ?_
    rw [hps]
    rfl
  · rw [hsent]
    exact map_eq_map_zipIdx (s.sentTst p) _ false now

/-! Waiting (R213) -/

theorem tstPending_false (h : ∀ q ∈ s.packets, q.pid ≠ p.pid) : s.tstPending p.pid = false := by
  simp only [State.tstPending, List.any_eq_false]
  intro q hq
  simp [h q hq]

theorem tstPending_true (h : ∃ q ∈ s.packets, q.pid = p.pid ∧ q.kind = .tst) : s.tstPending p.pid = true := by
  obtain ⟨q, hq, hpid, hkind⟩ := h
  exact List.any_eq_true.mpr ⟨q, hq, by simp [hpid, hkind]⟩

include hc ht in
theorem twait_completes (h : ∀ q ∈ s.packets, q.pid ≠ p.pid) : Completes .twait s (behind p 4) := by
  refine (tile_active hc ht _ _).trans ?_
  simp only [tstPending_false h, Bool.false_eq_true, if_false]
  rfl

include hc ht in
theorem twait_waits (h : ∃ q ∈ s.packets, q.pid = p.pid ∧ q.kind = .tst) : Completes .twait s { p with wait := .twait } := by
  refine (tile_active hc ht _ _).trans ?_
  simp only [tstPending_true h, if_true]
  rfl

include hc in
theorem twaitComplete_completes (hw : p.wait = .twait) (hst : p.st = .running) (hsubj : s.subj = .id p.pid)
    (h : ∀ q ∈ s.packets, q.pid ≠ p.pid) : Completes .twaitComplete s (behind p 4) := by
  refine putProc_completes hc rfl ?_
  refine (show _ = execTwaitComplete s from rfl).trans ?_
  simp only [execTwaitComplete, proc?_subject hc hsubj, hw, hst, tstPending_false h, and_self, if_true]
  rfl

/-! Descriptors (R212) -/

include hc ht in
theorem tdesc_passes (h : firstCombo [(p.desc y, Role.ofNum role.toNat)] (tileCode f)
      (fun c => c == 1 && !(Role.ofNum role.toNat).takes (tileCode f)) = none) :
    Completes (.tdesc f x y role) s (behind (p.setX x (
      if s.footprintFault p (p.desc y) (if Role.ofNum role.toNat = .st then .wr else .rd) = none then 0 else 0x400)) 4) := by
  refine (tile_active hc ht _ _).trans ?_
  simp only [h]
  cases s.footprintFault p (p.desc y) (if Role.ofNum role.toNat = .st then .wr else .rd) <;> rfl

include hc ht in
theorem tdesc_fails {c o : Nat} (h : firstCombo [(p.desc y, Role.ofNum role.toNat)] (tileCode f)
      (fun c => c == 1 && !(Role.ofNum role.toNat).takes (tileCode f)) = some (c, o)) :
    Completes (.tdesc f x y role) s (behind (p.setX x (BitVec.ofNat 64 (0x800 + c))) 4) := by
  refine (tile_active hc ht _ _).trans ?_
  simp only [h]
  rfl

/-! Metadata (R208) -/

/-- The process behind the push of the words of v[A]. -/
def Machine.Proc.pushedMeta (p : Proc) (u : VIdx) : Proc :=
  behind { p with
    mq := p.mq ++ (List.range 32).map fun k => BitVec.ofNat 64 (lane (p.getV u) 64 k), uncl := p.uncl + 32 } 4

include hc in
theorem tmqPush_plain (h : Plain p [u]) : s.tmqPush p u = .next { s with cpu := some (p.pushedMeta u) } := by
  simp only [State.tmqPush, misuse_plain h (h.mono (us := []) (by simp)), popAll_plain s h]
  exact congrArg Host.Outcome.next (putProc_cpu hc rfl)

include hc ht in
theorem tmq_pushes (h : Plain p [u]) (huncl : p.uncl ≤ 32) (hmq : p.mq.length ≤ 32) :
    Completes (.tmq u) s (p.pushedMeta u) := by
  refine (tile_active hc ht _ _).trans ?_
  simp only [Nat.not_lt.mpr huncl, hmq, if_false, if_true]
  exact tmqPush_plain hc h

include hc ht in
theorem tmq_waits (huncl : p.uncl ≤ 32) (hmq : 32 < p.mq.length) : Completes (.tmq u) s { p with wait := .tmq u } := by
  refine (tile_active hc ht _ _).trans ?_
  simp only [Nat.not_lt.mpr huncl, Nat.not_le.mpr hmq, if_false]
  rfl

include hc ht in
theorem tmq_raises (huncl : 32 < p.uncl) :
    exec (.tmq u) s = .next (s.raise p .tileCombo (some 4) 0 0x20C (instrDetail (.tmq u))) := by
  refine (tile_active hc ht _ _).trans ?_
  simp only [huncl, if_true]
  rfl

include hc in
theorem tmqPush_completes (h : Plain p [u]) (hw : p.wait = .tmq u) (hst : p.st = .running) (hsubj : s.subj = .id p.pid)
    (hmq : p.mq.length ≤ 32) : Completes .tmqPush s (p.pushedMeta u) := by
  refine (show _ = execTmqPush s from rfl).trans ?_
  simp only [execTmqPush, proc?_subject hc hsubj, hw, hst, hmq, and_self, if_true]
  exact tmqPush_plain hc h

end

/-- Settles O41: each instruction's own lemma; a write of `tst` that covers a whole granule is known by its place among the
writes (`map_eq_map_zipIdx`). -/
theorem tileAccumulators : Obligations.TileAccumulators := by
  unfold Obligations.TileAccumulators
  intro s p f d a b x y u v role hc ht hen
  refine ⟨tzero_completes hc ht, tadd_i32_writes hc ht hen, ⟨_, cellwise_writes hen (tadd_goes hc ht rfl)⟩,
    fun h => ⟨tscale_i32_writes hc ht hen h, _, cellwise_writes hen (tscale_goes hc ht h rfl)⟩,
    fun hi hf i h => combo_raises hc ht hi hf h, fun hq hm hl hcheck => tldacc_writes hc ht hq.1 hm hl hcheck,
    ?_, twait_completes hc ht, twait_waits hc ht, twaitComplete_completes hc, ?_, ?_, tile_active hc ht _ _⟩
  · intro w left els hq hcheck hpark
    have hels : (s.accepted left).1 = els := by
      cases hpart : s.part <;> simp [State.accepted, els, hpart]
    obtain ⟨ps, whole, hexec, hsent⟩ := tst_sends hc ht hen hq hcheck hpark
    refine ⟨ps, whole, ?_, ?_⟩
    · rw [← hels]
      exact hexec
    · rw [← hels]
      exact hsent
  · intro r
    split
    next c h => exact tdesc_fails hc ht h
    next h => exact tdesc_passes hc ht h
  · intro pushed h
    exact ⟨tmq_pushes hc ht h, tmq_waits hc ht, tmq_raises hc ht, tmqPush_completes hc h⟩

end Sys2Proof
end

section
/-! SUPPORT. O20, O23: full/empty and wait instructions of the own memory whose test succeeds (R243), and the bits of a range of
words (R244). -/

namespace Sys2Proof.Machine

/-! Lists of addresses -/

theorem mem_eraseAddr {x a : Nat} {l : List Nat} : x ∈ eraseAddr a l ↔ x ≠ a ∧ x ∈ l := by
  simp [eraseAddr, and_comm]

theorem eraseAddr_absent {a : Nat} {l : List Nat} (h : a ∉ l) : eraseAddr a l = l :=
  List.filter_eq_self.2 fun x hx => by
    have hne : x ≠ a := fun e => h (e ▸ hx)
    simp [hne]

/-- A sound word is in neither list of errors. -/
theorem eraseAddr_sound {s : State} {h : Nat} (hs : Sound s h 8) :
    eraseAddr h s.marks = s.marks ∧ eraseAddr h s.latent = s.latent := by
  have hout (hm : h ∈ s.marks ++ s.latent) : False := by
    have := hs h hm
    omega
  exact ⟨eraseAddr_absent fun hm => hout (List.mem_append_left _ hm),
    eraseAddr_absent fun hl => hout (List.mem_append_right _ hl)⟩

/-! O20: a test that succeeds -/

theorem State.doSync_watches (s : State) (h : Nat) (op : SyncOp) : (s.doSync h op).watches = s.watches := by
  cases op with
  | ste v => simp [State.doSync]
  | lde => simp [State.doSync]
  | ldf => rfl
  | waitw b => rfl
  | waitc b => rfl

/-- A `ste` that is served writes a sound word and sets it full. -/
theorem State.doSync_ste {s : State} {h : Nat} (v : Word) (hs : Sound s h 8) (ht : s.triggers = []) :
    s.doSync h (.ste v) = { s with mem := s.mem.write h 8 v.toNat, empty := eraseAddr h s.empty } := by
  obtain ⟨hm, hl⟩ := eraseAddr_sound hs
  have hnote := State.noteTrigger_unarmed (s := s.setFull h true) ht h
  simp only [State.doSync, hnote, hm, hl]
  rfl

/-- A full/empty or wait instruction of the own memory whose test succeeds does what it does to its word, and x[D] takes what
the word held (R243). -/
theorem State.syncInstr_serves {s : State} {p : Proc} {d a : XIdx} {mk : Proc → SyncOp} {perm : Perm} {release : Bool}
    (hi : Issues s p) (hq : Quiet s p.core) (hw : s.watches = []) (hown : OwnAccess s p (p.getX a) 8 perm)
    (hs : Sound s (homeAt p (p.getX a)) 8) (hrel : release = true → ∀ q ∈ s.packets, q.pid ≠ p.pid)
    (hfree : (mk p).writes = true → s.queued (homeAt p (p.getX a)) = false)
    (htest : (mk p).test (s.word (homeAt p (p.getX a))) (s.isFull (homeAt p (p.getX a))) = true) :
    s.syncInstr d a mk perm release = .next { s.doSync (homeAt p (p.getX a)) (mk p) with
      cpu := some (behind (p.setX d (s.word (homeAt p (p.getX a)))) 4) } := by
  have htarget : s.target p.core (p.getX a).toNat = .own (homeAt p (p.getX a)) := target_own hown.2.2
  have horder : (release && s.orderPending p.pid) = false := by
    cases release with
    | false => rfl
    | true => exact State.orderPending_none (hrel rfl)
  have hgo : ((mk p).writes && s.queued (homeAt p (p.getX a))) = false := by
    cases hwr : (mk p).writes with
    | false => rfl
    | true => exact hfree hwr
  have hserve (q : Proc) := State.serveWatches_none
    (s := { s.doSync (homeAt p (p.getX a)) (mk p) with cpu := some q }) ((State.doSync_watches _ _ _).trans hw)
    (homeOf (homeAt p (p.getX a)))
  rw [State.syncInstr, withProc_some hi.1]
  simp only [syncCheck_own _ hown, htarget, heldBack_quiet _ hq.1, State.overlaps_quiet hq.1, horder,
    State.granuleBad_sound hs, htest, hgo, hserve, Bool.or_self, Bool.and_false, Bool.not_false, Bool.and_true,
    Bool.false_eq_true, if_false, if_true]
  rfl

/-- Settles O20: each of the five instructions is `State.syncInstr` with its own test and what it does to the word. -/
theorem fullEmptyComplete : Obligations.FullEmptyComplete := by
  intro s p d a b hi hq hw ea h v
  refine ⟨fun hown hs => ⟨fun hfull => ?_, fun hdiff => ?_, fun hleast => ?_⟩, fun hown hs hfull => ?_,
    fun hown hs hempty hfree ht hpid hwf => ?_⟩
  · exact State.syncInstr_serves (mk := fun _ => .ldf) hi hq hw hown hs nofun nofun hfull
  · refine State.syncInstr_serves (mk := fun p => .waitw (p.getX b)) hi hq hw hown hs nofun nofun ?_
    simpa [SyncOp.test] using hdiff
  · refine State.syncInstr_serves (mk := fun p => .waitc (p.getX b)) hi hq hw hown hs nofun nofun ?_
    simpa [SyncOp.test] using hleast
  · exact ⟨insertAddr h s.empty, State.syncInstr_serves (mk := fun _ => .lde) hi hq hw hown hs nofun nofun hfull,
      fun _ => mem_insertAddr⟩
  · have hexec := State.syncInstr_serves (d := 0) (mk := fun p => .ste (p.getX b)) (release := true) hi hq hw hown hs
      (fun _ => hpid) (fun _ => hfree) (by simpa [SyncOp.test] using hempty)
    rw [State.doSync_ste _ hs ht] at hexec
    refine ⟨_, _, hexec, ?_, fun x hx => Memory.get_write_other hx hwf, fun _ => mem_eraseAddr⟩
    rw [Memory.read_write _ _ _ hwf]
    exact Nat.mod_eq_of_lt (p.getX b).isLt

/-! O23: the bits of a range on their way (R244) -/

/-- Every word of a range is in the own memory, inside a window that grants write: no word fails its checks. -/
theorem State.firstBadWord_none {s : State} {p : Proc} {x : Word} {n : Nat}
    (h : ∀ k, k < n / 8 → OwnAccess s p (x + BitVec.ofNat 64 (8 * k)) 8 .wr) : s.firstBadWord p x n = none := by
  rw [State.firstBadWord, List.findSome?_map, List.findSome?_eq_none_iff]
  intro k hk
  simp only [Function.comp_apply, syncCheck_own 1 (h k (List.mem_range.1 hk))]

/-- The change of the bits of a range of the own memory that sets out. -/
def State.bitRange (s : State) (p : Proc) (ea : Word) (n : Nat) (full : Bool) : Packet :=
  p.packet s.nextId ea n (dieOf p.core) .own .ord (.feRange (homeAt p ea) n full) ((s.core p.core).remote - 1)

section
variable {i : Instr} {s : State} {p : Proc} {a b : XIdx} {full : Bool}

theorem feInstr_empty (hc : s.cpu = some p) (he : exec i s = s.feInstr a b full) (hal : (p.getX a).toNat % 8 = 0)
    (hn : (p.getX b).toNat = 0) : Completes i s (behind p 4) :=
  he.trans ((withProc_some hc _).trans ((if_neg (by omega)).trans ((if_neg (by omega)).trans (if_pos hn))))

/-- `fefill` and `feclr` of words of the own memory send out the change of their bits (R244). -/
theorem feInstr_sends (hc : s.cpu = some p) (hq : Quiet s p.core) (he : exec i s = s.feInstr a b full)
    (hal : (p.getX a).toNat % 8 = 0) (hlen : (p.getX b).toNat % 8 = 0) (hpos : 0 < (p.getX b).toNat)
    (hmax : (p.getX b).toNat ≤ 65536)
    (hown : ∀ k, k < (p.getX b).toNat / 8 → OwnAccess s p (p.getX a + BitVec.ofNat 64 (8 * k)) 8 .wr) :
    exec i s = .next (s.accepting p (s.bitRange p (p.getX a) (p.getX b).toNat full) 4) := by
  have hfirst : OwnAccess s p (p.getX a) 8 .wr := by simpa using hown 0 (by omega)
  have htarget : s.target p.core (p.getX a).toNat = .own (homeAt p (p.getX a)) := target_own hfirst.2.2
  refine he.trans ((withProc_some hc _).trans ((if_neg (by omega)).trans ((if_neg (by omega)).trans
    ((if_neg (by omega)).trans ?_))))
  simp only [State.firstBadWord_none hown, htarget, heldBack_quiet _ hq.1, Bool.false_eq_true, if_false, State.countRemote,
    Target.remote, State.dispatchPacket, State.freshId, State.done]
  rfl

end

/-! O23: the bits of a range as they land (R248) -/

/-- A change of one word's bit, where nothing is queued or watched (R243). -/
theorem State.landWrite_bit {s : State} (q : Packet) {w : Nat} (full : Bool) (hgone : s.homeGone w = false)
    (hr : s.rsvs = []) (hw : s.watches = []) (hal : w % 8 = 0) :
    s.landWrite q { addr := w, n := 0, val := 0, fe := some full } = s.setFull w full := by
  have hword : wordAt w = w := by
    unfold wordAt
    omega
  have hfree : s.queued w = false := by simp [State.queued, hr]
  have hserve := State.serveWatches_none (s := s.setFull w full) hw (homeOf w)
  simp only [State.landWrite, hgone, hword, hfree, Bool.false_eq_true, if_false, State.applyWrite]
  simpa [Memory.write] using hserve

/-- The state with the bits of so many words from an address on set or cleared. -/
def State.withBits (s : State) (a k : Nat) (full : Bool) : State :=
  (List.range k).foldl (fun t i => t.setFull (a + 8 * i) full) s

theorem State.withBits_succ (s : State) (a k : Nat) (full : Bool) :
    s.withBits a (k + 1) full = (s.withBits a k full).setFull (a + 8 * k) full := by
  simp [State.withBits, List.range_succ]

/-- Nothing but the bits changes. -/
theorem State.withBits_empty (s : State) (a k : Nat) (full : Bool) :
    s.withBits a k full = { s with empty := (s.withBits a k full).empty } := by
  induction k with
  | zero => rfl
  | succ k ih =>
    rw [State.withBits_succ, ih]
    rfl

/-- The words of the range have the bit, the others keep theirs. -/
theorem State.isFull_withBits (s : State) (a k : Nat) (full : Bool) {w : Nat} (ha : a % 8 = 0) (hw : w % 8 = 0) :
    (s.withBits a k full).isFull w = if a ≤ w ∧ w < a + 8 * k then full else s.isFull w := by
  induction k with
  | zero =>
    rw [if_neg (by omega)]
    rfl
  | succ k ih =>
    rw [State.withBits_succ, State.isFull_setFull, ih]
    by_cases hlast : w = a + 8 * k
    · rw [if_pos hlast, if_pos (by omega)]
    · rw [if_neg hlast]
      exact if_congr (by omega) rfl rfl

/-- A range of words takes its bits where nothing is queued or watched. -/
theorem State.fillBits_calm {s : State} (q : Packet) {a n : Nat} (full : Bool) (hgone : ∀ x, s.homeGone x = false)
    (hr : s.rsvs = []) (hw : s.watches = []) (ha : a % 8 = 0) : s.fillBits q a n full = s.withBits a (n / 8) full := by
  unfold State.fillBits
  generalize n / 8 = k
  induction k with
  | zero => rfl
  | succ k ih =>
    rw [List.range_succ, List.foldl_append, ih, State.withBits_succ]
    generalize hu : s.withBits a k full = u
    rw [State.withBits_empty] at hu
    subst hu
    exact State.landWrite_bit (s := { s with empty := (s.withBits a k full).empty }) _ full (hgone _) hr hw (by omega)

/-- Settles O23: the range sets out as one change of bits (`feInstr_sends`), which lands word by word (`State.fillBits_calm`). -/
theorem fillAndClear : Obligations.FillAndClear := by
  constructor
  · intro s p a b full hi hq i ea n
    have hc := hi.1
    have he : exec i s = s.feInstr a b full := by
      cases full <;> rfl
    exact ⟨feInstr_misaligned hc he, feInstr_tooLong hc he, feInstr_empty hc he, fun hal hlen hpos hmax hown =>
      ⟨_, feInstr_sends hc hq he hal hlen hpos hmax hown, rfl, rfl, rfl, rfl, rfl, rfl, rfl⟩⟩
  · intro s q a n full hfind hpay hqueued hpath hkind hmay ha hn hgone hr hw
    have hland : ({ s with subj := .id q.id } : State).mayLand q = true := hmay
    have hexec := State.onPacket_performs (s := { s with subj := .id q.id }) (q := q)
      (ok := fun q => q.path == .own && q.payload.isWrite && q.kind != .tst &&
        (match q.kind with | .push _ => false | _ => true) && ({ s with subj := .id q.id } : State).mayLand q)
      (fun q s => s.perform q) hfind hqueued (by simp [hpath, hpay, hkind, hland, Payload.isWrite])
    have hfill := State.fillBits_calm (s := ({ s with subj := .id q.id } : State).dropPacket q.id) q (n := n) full hgone hr hw ha
    have hperform : (({ s with subj := .id q.id } : State).dropPacket q.id).perform q =
        (({ s with subj := .id q.id } : State).dropPacket q.id).withBits a (n / 8) full := by
      have hthere : (({ s with subj := .id q.id } : State).dropPacket q.id).homeGone a = false := hgone a
      rw [State.perform]
      simp only [State.requestGone, hpay, hthere, Bool.false_eq_true, if_false, hfill]
    rw [hperform, State.withBits_empty] at hexec
    refine ⟨_, hexec, rfl, rfl, rfl, rfl, fun w hal => ?_⟩
    have hbit := State.isFull_withBits (({ s with subj := .id q.id } : State).dropPacket q.id) a (n / 8) full ha hal
    rw [show a + 8 * (n / 8) = a + n by omega] at hbit
    exact hbit

end Sys2Proof.Machine
end

section
/-! SUPPORT. O24: fences, drains and cumulative fences (R247–R249). -/

namespace Sys2Proof.Machine

/-! What is waited for -/

theorem State.fenced_none {s : State} {pid : Nat} (h : ∀ q ∈ s.packets, q.pid ≠ pid) (sc : Scope) :
    s.fenced pid sc = true := by
  simp only [State.fenced, Bool.not_eq_true', List.any_eq_false]
  intro q hq
  simp [h q hq]

/-- An ordinary access of the own memory lies in every scope. -/
theorem State.fenced_pending {s : State} {pid : Nat} {q : Packet} (sc : Scope) (hq : q ∈ s.packets) (hpid : q.pid = pid)
    (hkind : q.kind = .ord) (hpath : q.path = .own) : s.fenced pid sc = false := by
  simp only [State.fenced, Bool.not_eq_false', List.any_eq_true]
  exact ⟨q, hq, by simp [hpid, Packet.counted, hkind, inScope, hpath]⟩

theorem State.ntPending_none {s : State} {pid : Nat} (h : ∀ q ∈ s.packets, q.pid ≠ pid) : s.ntPending pid = false := by
  rw [State.ntPending, List.any_eq_false]
  intro q hq
  simp [h q hq]

theorem State.ntPending_nt {s : State} {pid : Nat} {q : Packet} (hq : q ∈ s.packets) (hpid : q.pid = pid)
    (hkind : q.kind = .nt) : s.ntPending pid = true :=
  List.any_eq_true.2 ⟨q, hq, by simp [hpid, hkind]⟩

/-- A number of a remote write that has not been delivered is that of a packet, of a watch or of a request (R249). -/
theorem State.undelivered_cases {s : State} {core k : Nat} (h : k ∈ s.undelivered core) :
    (∃ q ∈ s.packets, q.core = core ∧ q.path ≠ .own ∧ q.seq = k) ∨ (∃ x ∈ s.watches, x.rem = some (core, k)) ∨
      ∃ x ∈ s.rsvs, x.rem = some (core, k) := by
  rw [State.undelivered, List.mem_eraseDups, List.mem_append] at h
  rcases h with h | h
  · obtain ⟨q, hq, hk⟩ := List.mem_map.1 h
    obtain ⟨hmem, hcond⟩ := List.mem_filter.1 hq
    simp only [Bool.and_eq_true, beq_iff_eq, bne_iff_ne] at hcond
    exact .inl ⟨q, hmem, hcond.1.1, hcond.1.2, hk⟩
  · obtain ⟨⟨c, n⟩, hx, hk⟩ := List.mem_map.1 h
    obtain ⟨hmem, hcore⟩ := List.mem_filter.1 hx
    obtain rfl : c = core := by simpa using hcore
    obtain rfl : n = k := hk
    simpa only [List.mem_append, List.mem_filterMap] using Or.inr hmem

/-- Every remote write of the core below a count has been delivered where all that is under way or waits has a higher number. -/
theorem State.delivered_of_later {s : State} {core n : Nat}
    (hp : ∀ q ∈ s.packets, q.core = core → q.path ≠ .own → n ≤ q.seq)
    (hw : ∀ x ∈ s.watches, ∀ k, x.rem = some (core, k) → n ≤ k)
    (hr : ∀ x ∈ s.rsvs, ∀ k, x.rem = some (core, k) → n ≤ k) : s.delivered core n = true := by
  rw [State.delivered, List.all_eq_true]
  intro k hk
  rw [decide_eq_true_eq]
  rcases State.undelivered_cases hk with ⟨q, hq, hcore, hpath, rfl⟩ | ⟨x, hx, hrem⟩ | ⟨x, hx, hrem⟩
  · exact hp q hq hcore hpath
  · exact hw x hx k hrem
  · exact hr x hx k hrem

/-- A write of the core on its way through the mesh has not been delivered. -/
theorem State.delivered_pending {s : State} {core n : Nat} {q : Packet} {w : WriteEff} (hq : q ∈ s.packets)
    (hcore : q.core = core) (hpath : q.path = .mesh) (hpay : q.payload = .write w) (hseq : q.seq < n) :
    s.delivered core n = false := by
  rw [State.delivered, List.all_eq_false]
  refine ⟨q.seq, ?_, by simp [hseq]⟩
  rw [State.undelivered, List.mem_eraseDups]
  exact List.mem_append_left _ (List.mem_map.2 ⟨q, List.mem_filter.2 ⟨hq, by simp [hcore, hpath, hpay]⟩, rfl⟩)

/-! Instructions -/

/-- An instruction whose condition holds goes on at once. -/
theorem State.waitFor_done {s : State} {p : Proc} (hearly : (s.core p.core).early = []) (w : Wait) :
    s.waitFor p true w = s.done (behind p 4) := by
  rw [State.waitFor, if_pos rfl, clearEarly_quiet hearly]
  rfl

/-- The waiting process goes on behind its instruction once its condition holds. -/
theorem State.release4_completes {s : State} {p : Proc} {w : Wait} {ok : Proc → Bool}
    (hc : s.cpu = some { p with wait := w }) (hst : p.st = .running) (hsubj : s.subj = .id p.pid)
    (hearly : (s.core p.core).early = []) (hok : ok { p with wait := w } = true) :
    s.release4 ok = .next { s with cpu := some (behind p 4) } := by
  have hfind : s.proc? (Subject.num s.subj) = some { p with wait := w } := by
    rw [hsubj]
    exact State.proc?_active hc
  have hclear : s.clearEarly ({ p with wait := w } : Proc).core = s := clearEarly_quiet hearly
  simp only [State.release4, hfind]
  refine (if_pos ⟨hst, hok⟩).trans (congrArg Host.Outcome.next ?_)
  rw [hclear]
  exact putProc_cpu hc rfl

/-- Settles O24: the instructions wait while something is pending, undelivered or in scope, and the events end the wait. -/
theorem fencesComplete : Obligations.FencesComplete := by
  constructor
  · intro s p sc d a hc tok upTo
    have hcfence : exec (.cfenceW a) s =
        if tok / 2 ^ 51 ≠ p.core ∨ s.delivered p.core upTo = true then s.done (behind p 4)
        else s.done { p with wait := .cfence upTo } := withProc_some hc _
    have hfence : exec (.fence sc) s = s.waitFor p (s.fenced p.pid sc) (.fence sc) := withProc_some hc _
    have hdrain : exec .drainNt s = s.waitFor p (!s.ntPending p.pid) .drain := withProc_some hc _
    refine ⟨fun hpid hearly => ⟨?_, ?_⟩, alu_completes hc rfl rfl, fun hother => ?_, fun hp hw hr => ?_,
      fun q hq hpid hkind hpath => ?_, fun q hq hpid hkind => ?_, fun q hq w hcore hpath hpay hseq htok => ?_⟩
    · exact hfence.trans (by rw [State.fenced_none hpid, State.waitFor_done hearly]; rfl)
    · exact hdrain.trans (by rw [State.ntPending_none hpid, Bool.not_false, State.waitFor_done hearly]; rfl)
    · exact hcfence.trans (if_pos (.inl hother))
    · exact hcfence.trans (if_pos (.inr (State.delivered_of_later hp hw hr)))
    · exact hfence.trans (by rw [State.fenced_pending sc hq hpid hkind hpath]; rfl)
    · exact hdrain.trans (by rw [State.ntPending_nt hq hpid hkind]; rfl)
    · have hwaits := State.delivered_pending hq hcore hpath hpay hseq
      exact hcfence.trans (if_neg (not_or.2 ⟨not_not_intro htok, by rw [hwaits]; exact nofun⟩))
  · intro s p w hc hst hsubj hquiet hpid
    refine ⟨fun sc hw => ?_, fun hw => ?_, fun n hw hwatch hrsv => ?_⟩
    · subst hw
      exact State.release4_completes hc hst hsubj hquiet.2 (State.fenced_none hpid sc)
    · subst hw
      exact State.release4_completes hc hst hsubj hquiet.2 (by simp [State.ntPending_none hpid])
    · subst hw
      refine State.release4_completes hc hst hsubj hquiet.2 (State.delivered_of_later (fun q hq hcore => ?_)
        (fun x hx k hk => ?_) fun x hx k hk => ?_)
      · exact absurd hcore (hquiet.1 q hq)
      · rw [hwatch x hx] at hk
        exact absurd hk nofun
      · rw [hrsv x hx] at hk
        exact absurd hk nofun

end Sys2Proof.Machine
end

section
/-! SUPPORT. O25, O26: reservations and atomics of words of the own memory for which nothing is queued (R250–R252). -/

namespace Sys2Proof.Machine

/-! A home without requests (R250) -/

section
variable {s : State} {h : Nat} (hr : ∀ q ∈ s.rsvs, homeOf q.addr ≠ homeOf h)
include hr

theorem State.queued_elsewhere : s.queued h = false :=
  List.any_eq_false.2 fun q hq => by
    have hne : q.addr ≠ h := fun e => hr q hq (congrArg homeOf e)
    simp [hne]

theorem State.holds_elsewhere (pid : Nat) : s.holds pid h = false :=
  List.any_eq_false.2 fun q hq => by
    have hne : q.addr ≠ h := fun e => hr q hq (congrArg homeOf e)
    simp [hne]

theorem State.mustQueue_elsewhere : s.mustQueue h = false := by
  refine State.mustQueue_free (State.queued_elsewhere hr) ?_
  have hnone : s.rsvs.filter (fun r => homeOf r.addr == homeOf h && r.entry) = [] :=
    List.filter_eq_nil_iff.2 fun q hq => by simp [hr q hq]
  have hcap : 0 < rsvCap h := by
    unfold rsvCap
    split <;> decide
  simpa [State.entryFree, State.entryWords, hnone] using hcap

end

/-! O25: `rsv` and `rls` (R251) -/

section
variable {s : State} {p : Proc} {a b : XIdx} (hc : s.cpu = some p) (hq : Quiet s p.core)
  (h : OwnAccess s p (p.getX a) 8 .rw)
include hc hq h

/-- `rsv` of a word of a home without requests is granted at once. -/
theorem execRsv_granted (d : XIdx) (hs : Sound s (homeAt p (p.getX a)) 8)
    (hr : ∀ q ∈ s.rsvs, homeOf q.addr ≠ homeOf (homeAt p (p.getX a))) : exec (.rsv d a) s = .next { s with
      cpu := some (behind ({ p with rsvs := p.rsvs ++ [homeAt p (p.getX a)] }.setX d (s.word (homeAt p (p.getX a)))) 4)
      rsvs := s.rsvs ++ [{ addr := homeAt p (p.getX a), pid := p.pid, k := .rsv, granted := true, entry := true }] } := by
  refine Eq.trans (show exec (.rsv d a) s = execRsv d a s from rfl) ?_
  rw [execRsv, rsvInstr_own hc hq h rfl]
  simp only [State.mustQueue_elsewhere hr, State.holds_elsewhere hr, State.granuleBad_sound hs, Bool.and_false,
    Bool.false_eq_true, if_false]
  rfl

/-- What a `rls` does that nothing of the process precedes and that finds no request of another. -/
theorem execRls_own (hpid : ∀ q ∈ s.packets, q.pid ≠ p.pid)
    (hfree : (s.queued (homeAt p (p.getX a)) && !s.holds p.pid (homeAt p (p.getX a))) = false) : exec (.rls a b) s =
      if s.holds p.pid (homeAt p (p.getX a)) = true then
        .next (State.release { s with cpu := some (behind p 4) } p.pid (homeAt p (p.getX a)) (some (p.getX b)))
      else .next (State.applyWrite { s with cpu := some (behind p 4) }
        { addr := homeAt p (p.getX a), n := 8, val := (p.getX b).toNat, fe := none }) := by
  refine Eq.trans (show exec (.rls a b) s = execRls a b s from rfl) ?_
  rw [execRls, rsvInstr_own hc hq h (State.releaseStalls_none hpid)]
  simp only [State.orderPending_none hpid, hfree, Bool.or_self, Bool.false_eq_true, if_false]
  rfl

end

/-- A process without one of its reservations. -/
def Proc.unreserved (p : Proc) (h : Nat) : Proc := { p with rsvs := p.rsvs.filter (· != h) }

/-- The only request is the reservation of the active process, which it releases with a new value. -/
theorem State.release_held {s : State} {p : Proc} {h : Nat} (v : Word) (hc : s.cpu = some p)
    (hr : s.rsvs = [{ addr := h, pid := p.pid, k := .rsv, granted := true, entry := true }]) (hw : s.watches = [])
    (ht : s.triggers = []) :
    s.release p.pid h (some v) = State.released { s with cpu := some (p.unreserved h) } h v := by
  have hmod : State.modProc { s with rsvs := [] } p.pid (fun q => { q with rsvs := q.rsvs.filter (· != h) }) =
      { s with rsvs := [], cpu := some (p.unreserved h) } := by
    rw [State.modProc, State.proc?_active (s := { s with rsvs := [] }) hc]
    exact State.putProc_active (s := { s with rsvs := [] }) hc rfl
  have hwrite := State.applyWrite_unwatched (s := { s with rsvs := [], cpu := some (p.unreserved h) }) h v.toNat hw ht
  have hidle := State.grantHome_idle (s := State.released { s with cpu := some (p.unreserved h) } h v) rfl hw (homeOf h)
  simp only [State.release, hr, List.filter_cons, List.filter_nil, beq_self_eq_true, Bool.and_self, Bool.not_true,
    Bool.false_eq_true, if_false, hmod, hwrite]
  exact hidle

/-- Settles O25: a free word is reserved at once; a release, and a `rls` of a word not reserved, write it at once. -/
theorem reservations : Obligations.Reservations := by
  intro s p d a b hi hq hpid hw ht hwf ea h r hown hs _
  refine ⟨execRsv_granted hi.1 hq hown d hs, fun hrsv => ?_⟩
  rcases hrsv with hr | hr
  · have hholds : s.holds p.pid h = true := by simp [State.holds, hr, r]
    have hexec := execRls_own (b := b) hi.1 hq hown hpid (by rw [hholds, Bool.not_true, Bool.and_false])
    rw [if_pos hholds] at hexec
    have hrelease := State.release_held (s := { s with cpu := some (behind p 4) }) (p := behind p 4) (p.getX b) rfl hr hw ht
    refine ⟨_, hexec.trans (congrArg Host.Outcome.next hrelease), rfl, State.word_written _ hwf rfl,
      fun x hx => Memory.get_write_other hx hwf, rfl, _, rfl, rfl, fun _ => ?_⟩
    simp [Proc.unreserved]
  · have hholds : s.holds p.pid h = false := by simp [State.holds, hr]
    have hfree : s.queued h = false := by simp [State.queued, hr]
    have hexec := execRls_own (b := b) hi.1 hq hown hpid (by rw [hfree, Bool.false_and])
    rw [if_neg (by rw [hholds]; exact nofun),
      State.applyWrite_unwatched (s := { s with cpu := some (behind p 4) }) _ _ hw ht] at hexec
    refine ⟨_, hexec, hr, State.word_written _ hwf rfl, fun x hx => Memory.get_write_other hx hwf, rfl, _, rfl, rfl,
      fun h1 => ?_⟩
    rw [hr] at h1
    exact absurd h1 nofun

/-! O26: atomics (R252) -/

theorem globalBase_mod_eight (core : Nat) : globalBase core % 8 = 0 := by
  unfold globalBase
  omega

/-- An aligned address of the own memory is aligned in the package map. -/
theorem wordAt_homeAt (p : Proc) {ea : Word} (h : ea.toNat % 8 = 0) : wordAt (homeAt p ea) = homeAt p ea := by
  have hbase := globalBase_mod_eight p.core
  unfold wordAt homeAt
  omega

/-- An atomic of a word of a home without requests grants, computes and releases in one step (log 25). -/
theorem amo_completes {i : Instr} {s : State} {p : Proc} {op : AmoOp} {rlx : Bool} {d a b : XIdx} (hc : s.cpu = some p)
    (hq : Quiet s p.core) (hpid : ∀ q ∈ s.packets, q.pid ≠ p.pid) (hw : s.watches = []) (ht : s.triggers = [])
    (h : OwnAccess s p (p.getX a) 8 .rw) (hs : Sound s (homeAt p (p.getX a)) 8)
    (hr : ∀ q ∈ s.rsvs, homeOf q.addr ≠ homeOf (homeAt p (p.getX a))) (he : exec i s = s.amo op rlx d a b) :
    exec i s = .next { s with
      cpu := some (behind (p.setX d (s.word (homeAt p (p.getX a)))) 4)
      mem := s.mem.write (homeAt p (p.getX a)) 8 (op.apply (s.word (homeAt p (p.getX a))) (p.getX b) (p.getX d)).toNat } := by
  have hwrite (q : Proc) (v : Nat) := State.applyWrite_unwatched (s := { s with cpu := some q }) (homeAt p (p.getX a)) v hw ht
  obtain ⟨hmarks, hlatent⟩ := eraseAddr_sound hs
  refine he.trans ((rsvInstr_own hc hq h ?_).trans ?_)
  · rw [State.orderPending_none hpid, Bool.and_false]
  · simp only [State.mustQueue_elsewhere hr, State.granuleBad_sound hs, Bool.false_eq_true, if_false, hwrite,
      wordAt_homeAt p h.1, hmarks, hlatent]
    rfl

/-- Settles O26: each atomic is `State.amo` with its own operation, whose result is that of Table 13.10. -/
theorem atomics : Obligations.Atomics := by
  intro s p rlx d a b hi hq hpid hw ht hwf ea h old x hown hs hr amo
  have hamo {i : Instr} {op : AmoOp} {new : Word} (he : exec i s = s.amo op rlx d a b)
      (hnew : op.apply old x (p.getX d) = new) : amo i new := by
    subst hnew
    refine ⟨_, amo_completes hi.1 hq hpid hw ht hown hs hr he, ?_, fun k hk => Memory.get_write_other hk hwf⟩
    rw [Memory.read_write _ _ _ hwf]
    exact Nat.mod_eq_of_lt (BitVec.isLt _)
  have hadd : old + x = BitVec.ofNat 64 (old.toNat + x.toNat) := BitVec.eq_of_toNat_eq (by simp)
  refine ⟨hamo rfl hadd, hamo rfl rfl, hamo rfl rfl, hamo rfl rfl, hamo rfl ?_, hamo rfl ?_, hamo rfl ?_, hamo rfl ?_,
    hamo rfl rfl, hamo rfl rfl⟩
  · simp only [AmoOp.apply, BitVec.slt, decide_eq_true_eq]
  · simp only [AmoOp.apply, BitVec.slt, decide_eq_true_eq]
  · simp only [AmoOp.apply, BitVec.ult, decide_eq_true_eq]
  · simp only [AmoOp.apply, BitVec.ult, decide_eq_true_eq]

end Sys2Proof.Machine
end

section
/-! SUPPORT. O51: requests that take a context or go on to another server (R259), refills of a translation cache (R263), and
engine writes on their own die (R245, R387). -/

namespace Sys2Proof.Machine

/-! Engine writes -/

/-- An engine write to a home of its die, which is there and has no request queued, takes effect at once. -/
theorem State.engineWrite_lands {s : State} {die : Nat} {w : WriteEff} (report : Option Author) (region owner : Nat)
    (ha : 0x4000000000 ≤ w.addr) (hdie : homeDie w.addr = die) (hgone : s.homeGone w.addr = false) (hr : s.rsvs = []) :
    s.engineWrite die w report region owner = State.applyWrite { s with nextId := s.nextId + 1 } w := by
  have hrow : ¬(0x2000000000 ≤ w.addr ∧ w.addr < 0x4000000000) := by omega
  have hgone' : ({ s with nextId := s.nextId + 1 } : State).homeGone w.addr = false := hgone
  have hqueued : ({ s with nextId := s.nextId + 1 } : State).queued (wordAt w.addr) = false := by
    simp [State.queued, hr]
  simp only [State.engineWrite, State.freshId, if_neg hrow, hdie, true_or, if_true, State.landEngine, hgone',
    Bool.false_eq_true, if_false, State.landWrite, hqueued]

/-- An engine write of a whole word to calm memory of its die writes the word and sets it full. -/
theorem State.engineWrite_fills {s : State} {die a : Nat} (v : Nat) (report : Option Author) (region owner : Nat)
    (hc : Calm s) (ha : 0x4000000000 ≤ a) (hal : a % 8 = 0) (hdie : homeDie a = die) (hgone : s.homeGone a = false) :
    s.engineWrite die (engineWord a 8 v) report region owner =
      { s with mem := s.mem.write a 8 (v % 2 ^ (8 * 8)), empty := eraseAddr a s.empty, nextId := s.nextId + 1 } := by
  obtain ⟨hr, hw, ht, hm, hl, -, -, -⟩ := hc
  have hword : wordAt (engineWord a 8 v).addr = a := by
    show a / 8 * 8 = a
    omega
  have hmarks : (engineWord a 8 v).marks { s with nextId := s.nextId + 1 } = s.marks := by
    simp [WriteEff.marks, engineWord, hm, eraseAddr]
  have hbits : (engineWord a 8 v).bits { s with nextId := s.nextId + 1 } = eraseAddr a s.empty := by
    rw [WriteEff.bits, hword]
    rfl
  rw [State.engineWrite_lands (w := engineWord a 8 v) report region owner ha hdie hgone hr,
    State.applyWrite_calm (s := { s with nextId := s.nextId + 1 }) (engineWord a 8 v) hw ht hl, hmarks, hbits]
  rfl

/-! Requests of a server (R259) -/

theorem State.modPacket_requests (s : State) (id : Nat) (f : Packet → Packet) : (s.modPacket id f).requests = s.requests :=
  rfl

/-- The sequencers change no request. -/
theorem State.stampAll_requests (s : State) (d : Nat) : (s.stampAll d).requests = s.requests := by
  have hkindle (t : State) (e : Nat) : (t.kindle d e).requests = t.requests := by
    unfold State.kindle
    refine List.foldlRecOn (motive := fun u : State => u.requests = t.requests) _ _ rfl fun u hu _ _ => ?_
    dsimp only
    split <;> exact hu
  unfold State.stampAll
  split
  · rfl
  · refine List.foldlRecOn (motive := fun t : State × List Nat => t.1.requests = s.requests) _ _ rfl fun t ht q _ => ?_
    dsimp only
    split
    · exact ht
    · split
      · simp only [State.modPacket_requests, State.putDie_frame, hkindle, ht]
      · simp only [hkindle, ht]

/-- A request that sets out for another die is marked so. -/
theorem State.sendRequest_requests (s : State) (r : MsReq) (die : Nat) :
    (s.sendRequest r die).requests = s.requests.map fun q => if q.id == r.id then { r with travel := true } else q := by
  simp only [State.sendRequest, State.stampAll_requests]
  rfl

section
variable {s : State} {r : MsReq} {n : Nat} (hsubj : s.subj = .id n)
  (hfind : (s.requests.find? fun q => q.front == n && q.phase == .queued && !q.stopped && !q.travel) = some r)
include hsubj hfind

/-- The oldest queued request takes a free context. -/
theorem execMsContextStart_active (hany : r.any = false) (hroom : s.contextsUsed n < contexts n) :
    exec .msContextStart s = .next (s.putRequest { r with phase := .active }) := by
  have hnum : Subject.num s.subj = n := by rw [hsubj]; rfl
  show execMsContextStart s = _
  simp only [execMsContextStart, hnum, hfind, hany, Bool.false_eq_true, if_false, if_pos hroom]

variable {e : Word} (hany : r.any = true) (hcached : s.cached n r.blk.entry (r.blk.offset / 2 ^ 21) = some e)
  (hpin : pinned e = true)
include hany hcached hpin

/-- An `any` request whose first byte the server owns stays there. -/
theorem execMsContextStart_stays (hown : s.pkg.stackOf (pageAddr (s.reqSegment r) e (r.blk.offset % 2 ^ 21)) = n) :
    exec .msContextStart s = .next (s.putRequest { r with any := false }) := by
  have hnum : Subject.num s.subj = n := by rw [hsubj]; rfl
  have hhit : s.cached n r.blk.entry (r.blk.offset / pageBytes) = some e := hcached
  have hhere : s.pkg.stackOf (pageAddr (s.reqSegment r) e (r.blk.offset % pageBytes)) = n := hown
  show execMsContextStart s = _
  simp only [execMsContextStart, hnum, hfind, hany, hhit, hhere, hpin, Option.isSome_some, Option.getD_some, if_true,
    Bool.not_true, Bool.false_eq_true, if_false, beq_self_eq_true]

/-- Otherwise it joins the queue of the server that owns its first byte (log 73), and sets out for it. -/
theorem execMsContextStart_moves {own : Nat}
    (hown : s.pkg.stackOf (pageAddr (s.reqSegment r) e (r.blk.offset % 2 ^ 21)) = own) (hne : own ≠ n)
    (hroom : s.queueRoom own = true) (hpres : s.stackPresent own = true) : exec .msContextStart s =
      .next (State.toFront { s with requests := s.requests.filter (·.id != r.id) ++ [{ r with any := false, front := own }] }
        { r with any := false, front := own }) := by
  have hnum : Subject.num s.subj = n := by rw [hsubj]; rfl
  have hhit : s.cached n r.blk.entry (r.blk.offset / pageBytes) = some e := hcached
  have hthere : s.pkg.stackOf (pageAddr (s.reqSegment r) e (r.blk.offset % pageBytes)) = own := hown
  have hfar : (own == n) = false := beq_eq_false_iff_ne.2 hne
  show execMsContextStart s = _
  simp only [execMsContextStart, hnum, hfind, hany, hhit, hthere, hpin, hfar, hroom, hpres, Option.isSome_some,
    Option.getD_some, if_true, Bool.not_true, Bool.false_eq_true, if_false, Bool.and_self]

end

/-- A request that goes on to the queue of a server travels when the server is on another die. -/
theorem State.toFront_joins {s : State} {r : MsReq} (l : List MsReq) (htravel : r.travel = false) :
    ∃ q, q ∈ (State.toFront { s with requests := l ++ [r] } r).requests ∧
      q = { r with travel := decide (r.die ≠ serverDie r.front) } ∧
      (q.travel = false → State.toFront { s with requests := l ++ [r] } r = { s with requests := l ++ [q] }) := by
  by_cases hdie : r.die = serverDie r.front
  · have hstay : State.toFront { s with requests := l ++ [r] } r = { s with requests := l ++ [r] } := if_pos hdie
    have hself : { r with travel := decide (r.die ≠ serverDie r.front) } = r := by
      rw [decide_eq_false (not_not_intro hdie), ← htravel]
    refine ⟨_, ?_, rfl, fun _ => ?_⟩
    · rw [hstay, hself]
      exact List.mem_append_right _ (List.mem_singleton.2 rfl)
    · rw [hstay, hself]
  · have hgo : State.toFront { s with requests := l ++ [r] } r =
        State.sendRequest { s with requests := l ++ [r] } r (serverDie r.front) := if_neg hdie
    refine ⟨{ r with travel := decide (r.die ≠ serverDie r.front) }, ?_, rfl, fun h => ?_⟩
    · rw [hgo, State.sendRequest_requests, decide_eq_true hdie, List.map_append]
      exact List.mem_append_right _ (by simp)
    · exact absurd hdie (of_decide_eq_false h)

/-! Servers (R263, R274) -/

theorem State.server_name (s : State) (n : Nat) : (s.server n).name = n := by
  unfold State.server
  split
  next v h => exact by simpa using List.find?_some h
  · rfl

/-- A server's record reads as it was put back last. -/
theorem State.server_modServer (s : State) {n : Nat} {f : Server → Server} (hf : (f (s.server n)).name = n) :
    (s.modServer n f).server n = f (s.server n) := by
  have hfind : (s.modServer n f).servers.find? (·.name == n) = some (f (s.server n)) := by
    have hnone : ((s.servers.filter (·.name != n)).find? (·.name == n)) = none :=
      List.find?_eq_none.2 fun v hv => by simpa using (List.mem_filter.1 hv).2
    simp [State.modServer, State.putServer, hf, List.find?_append, hnone]
  rw [State.server, hfind]

/-- A refill counts the miss and caches the pinned page (R263). -/
theorem State.refill_caches {s : State} {n entry page : Nat} {e : Word} (hpin : pinned e = true)
    (hmiss : s.cached n entry page = none) : (s.refill n entry page e).cached n entry page = some e ∧
      ((s.refill n entry page e).server n).misses = (s.server n).misses + 1 := by
  have hserver := State.server_modServer s (n := n) (f := fun v =>
    { v with misses := v.misses + 1
             cache := if pinned e then (v.cache ++ [(entry, page, e)]).drop (v.cache.length + 1 - cacheSize) else v.cache })
    (State.server_name s n)
  rw [if_pos hpin] at hserver
  refine ⟨?_, (congrArg Server.misses hserver).trans rfl⟩
  have hnone : (s.server n).cache.find? (fun x => x.1 == entry && x.2.1 == page) = none := by
    simpa [State.cached] using hmiss
  have hrest : ((s.server n).cache.drop ((s.server n).cache.length + 1 - cacheSize)).find?
      (fun x => x.1 == entry && x.2.1 == page) = none :=
    List.find?_eq_none.2 fun x hx => List.find?_eq_none.1 hnone x (List.mem_of_mem_drop hx)
  have hshort : (s.server n).cache.length + 1 - cacheSize ≤ (s.server n).cache.length := by
    simp only [cacheSize]
    omega
  rw [State.cached, show (s.refill n entry page e).server n = _ from hserver]
  simp only [List.drop_append_of_le_length hshort, List.find?_append, hrest, Option.none_or]
  simp

/-- MS_TRANSLATION_REFILL of a pinned page. -/
theorem execMsTranslationRefill_pinned {s : State} {r : MsReq} {pg : Nat} (hreq : s.request? r.id = some r)
    (hmiss : s.missing r = some pg) (hsubj : s.subj = .id r.id)
    (hpin : pinned (s.pageEntry (s.reqSegment r) pg) = true) :
    exec .msTranslationRefill s = .next (s.refill r.front r.blk.entry pg (s.pageEntry (s.reqSegment r) pg)) := by
  have hnum : Subject.num s.subj = r.id := by rw [hsubj]; rfl
  show execMsTranslationRefill s = _
  simp only [execMsTranslationRefill, hnum, hreq, hmiss, hpin, if_true]

/-- A page that a request misses is not in the cache of its front server. -/
theorem State.cached_of_missing {s : State} {r : MsReq} {pg : Nat} (h : s.missing r = some pg) :
    s.cached r.front r.blk.entry pg = none := by
  unfold State.missing at h
  dsimp only at h
  split at h
  next hcond =>
    obtain rfl := Option.some.inj h
    simp only [Bool.and_eq_true, Option.isNone_iff_eq_none] at hcond
    exact hcond.2
  · exact absurd h nofun

end Sys2Proof.Machine
end

section
/-! SUPPORT. O51: bytes of a segment and of the local side without errors (R245, R259, R272). -/

namespace Sys2Proof.Machine

/-! Bytes without errors -/

@[simp] theorem clean_fst (bs : List Byte) : (clean bs).map (·.1) = bs := goodBytes_fst bs

@[simp] theorem clean_length (bs : List Byte) : (clean bs).length = bs.length := List.length_map _

theorem clean_unmarked {bs : List Byte} {b : MByte} (h : b ∈ clean bs) : b.2 = false := by
  obtain ⟨x, -, rfl⟩ := List.mem_map.1 h
  rfl

theorem any_clean (bs : List Byte) : (clean bs).any (·.2) = false :=
  List.any_eq_false.2 fun b hb => by rw [clean_unmarked hb]; decide

/-- No error is seen in bytes without any. -/
theorem State.sawError_clean (s : State) (r : MsReq) (o : Nat) (bs : List Byte) : s.sawError r o (clean bs) = (s, r) := by
  have hnone : (clean bs).findIdx? (·.2) = none := by
    rw [List.findIdx?_eq_none_iff]
    exact fun b hb => clean_unmarked hb
  simp only [State.sawError, hnone]

/-- The words of a run hold bytes of the run. -/
theorem mem_wordRuns {α : Type} {f a : Nat} {bs : List α} {w : Nat × List α} {b : α} (hw : w ∈ wordRuns f a bs)
    (hb : b ∈ w.2) : b ∈ bs := by
  induction f generalizing a bs with
  | zero => simp [wordRuns] at hw
  | succ f ih =>
    unfold wordRuns at hw
    split at hw
    · simp at hw
    · rcases List.mem_cons.1 hw with rfl | hw
      · exact List.mem_of_mem_take hb
      · exact List.mem_of_mem_drop (ih hw)

/-- Bytes without errors leave memory without marks. -/
theorem markRun_clean (a : Nat) (bs : List Byte) : markRun [] a (clean bs) = [] := by
  refine List.foldlRecOn (motive := fun l : List Nat => l = []) _ _ rfl fun l hl w hw => ?_
  have hgood : w.2.any (·.2) = false :=
    List.any_eq_false.2 fun b hb => by rw [clean_unmarked (mem_wordRuns hw hb)]; decide
  subst hl
  simp [hgood, eraseAddr]

/-- The number that bytes make fits in them. -/
theorem ofBytes_lt (bs : List Byte) : ofBytes bs < 2 ^ (8 * bs.length) := by
  induction bs with
  | nil => exact Nat.one_pos
  | cons b bs ih =>
    have hb := b.isLt
    rw [List.length_cons, Nat.mul_succ, Nat.pow_add, ofBytes]
    omega

/-! The memory of a segment (R262, R276) -/

/-- The memory of a segment: the HBM, or the far memories. -/
def State.segMem (s : State) (seg : Segment) : Memory := if seg.isFar = true then s.far else s.hbm

/-- Where it keeps the bytes from a physical address on. -/
def State.segKey (s : State) (seg : Segment) (pa : Nat) : Nat :=
  if seg.isFar = true then farKey seg.group pa else s.pkg.hbmKey pa

/-- The state with another memory of a segment. -/
def State.withSegMem (s : State) (seg : Segment) (m : Memory) : State :=
  { s with hbm := if seg.isFar = true then s.hbm else m, far := if seg.isFar = true then m else s.far }

theorem State.segMem_get (s : State) (seg : Segment) (a : Nat) :
    (s.segMem seg).get a = if seg.isFar = true then s.far.get a else s.hbm.get a := by
  unfold State.segMem
  split <;> rfl

@[simp] theorem State.segMem_withSegMem (s : State) (seg : Segment) (m : Memory) : (s.withSegMem seg m).segMem seg = m := by
  unfold State.segMem State.withSegMem
  split <;> rfl

/-- A range within a granule is one run. -/
theorem granuleRuns_single {pa n : Nat} (f : Nat) (hpos : 0 < n) (hn : n ≤ 4096 - pa % 4096) :
    granuleRuns pa (f + 2) n = [(pa, n)] := by
  have hmin : min n (granuleBytes - pa % granuleBytes) = n := Nat.min_eq_left hn
  simp only [granuleRuns, hmin, Nat.sub_self, if_true, if_neg (Nat.ne_of_gt hpos)]

section
variable {s : State} {seg : Segment} {pa : Nat} (hc : Calm s)
include hc

theorem State.segMem_wf : (s.segMem seg).wf = true := by
  obtain ⟨-, -, -, -, -, -, -, -, hhbm, hfar, -⟩ := hc
  unfold State.segMem
  split
  · exact hfar
  · exact hhbm

/-- Bytes of a granule of a segment read without errors. -/
theorem State.segRead_calm {n : Nat} (hpos : 0 < n) (hn : n ≤ 4096 - pa % 4096) :
    s.segRead seg pa n = clean ((s.segMem seg).bytes (s.segKey seg pa) n) := by
  obtain ⟨-, -, -, -, -, hhbm, hfar, -⟩ := hc
  unfold State.segRead State.segMem State.segKey
  split
  · rw [hfar, withMarks_none]
    rfl
  · rw [granuleRuns_single _ hpos hn, List.flatMap_cons, List.flatMap_nil, List.append_nil, hhbm, withMarks_none]
    rfl

/-- A write without errors to a granule of a segment. -/
theorem State.segWrite_calm {bs : List Byte} (hpos : 0 < bs.length) (hn : bs.length ≤ 4096 - pa % 4096) :
    s.segWrite seg pa (clean bs) = s.withSegMem seg ((s.segMem seg).writeBytes (s.segKey seg pa) bs) := by
  obtain ⟨-, -, -, -, -, hhbm, hfar, -⟩ := hc
  unfold State.segWrite State.withSegMem State.segMem State.segKey
  split
  · simp only [hfar, markRun_clean, clean_fst]
  · have htake : (clean bs).take bs.length = clean bs := List.take_of_length_le (by simp)
    rw [clean_length, granuleRuns_single _ hpos hn, List.foldl_cons, List.foldl_nil]
    simp only [htake, State.hbmWrite]
    rw [hhbm, markRun_clean, clean_fst]

end

/-! The local side (R245) -/

/-- The first word of a run of whole words. -/
theorem wordRuns_whole {α : Type} {a m : Nat} {bs : List α} (f : Nat) (ha : a % 8 = 0) (hlen : bs.length = 8 * (m + 1)) :
    wordRuns (f + 1) a bs = (a, bs.take 8) :: wordRuns f (a + 8) (bs.drop 8) := by
  have hne : bs.isEmpty = false := by
    rw [List.isEmpty_eq_false_iff]
    exact List.ne_nil_of_length_pos (by omega)
  rw [wordRuns, hne, ha, show a / 8 * 8 = a by omega]
  rfl

/-- Every word of a run of whole words is whole, and they hold its bytes. -/
theorem wordRuns_all {α : Type} {f a m : Nat} {bs : List α} (ha : a % 8 = 0) (hlen : bs.length = 8 * m) (hf : m ≤ f) :
    (∀ w ∈ wordRuns f a bs, (w.1 + w.2.length) % 8 = 0) ∧ ((wordRuns f a bs).map (·.2.length)).sum = bs.length := by
  induction m generalizing f a bs with
  | zero =>
    obtain rfl : bs = [] := List.eq_nil_of_length_eq_zero (by omega)
    cases f <;> simp [wordRuns]
  | succ m ih =>
    obtain ⟨f, rfl⟩ : ∃ g, f = g + 1 := ⟨f - 1, by omega⟩
    obtain ⟨hall, hsum⟩ := ih (f := f) (a := a + 8) (bs := bs.drop 8) (by omega) (by simp; omega) (by omega)
    have htake : (bs.take 8).length = 8 := by simp; omega
    rw [wordRuns_whole f ha hlen]
    refine ⟨fun w hw => ?_, ?_⟩
    · rcases List.mem_cons.1 hw with rfl | hw
      · simp only [htake]
        omega
      · exact hall w hw
    · rw [List.map_cons, List.sum_cons, hsum, htake, List.length_drop]
      omega

/-- The state after a word of the local side has been written. -/
def State.withLocalWord (s : State) (a : Nat) (bs : List Byte) : State :=
  { s with mem := s.mem.writeBytes a bs, empty := eraseAddr a s.empty, nextId := s.nextId + 1 }

theorem State.isFull_withLocalWord (s : State) (a : Nat) (bs : List Byte) (w : Nat) :
    (s.withLocalWord a bs).isFull w = if w = a then true else s.isFull w := by
  by_cases hwa : w = a <;> simp [State.withLocalWord, State.isFull, mem_eraseAddr, hwa]

theorem State.calm_withLocalWord {s : State} (hc : Calm s) (a : Nat) (bs : List Byte) : Calm (s.withLocalWord a bs) := by
  obtain ⟨hr, hw, ht, hm, hl, hhm, hfm, hok, hrest⟩ := hc
  exact ⟨hr, hw, ht, hm, hl, hhm, hfm, Memory.writeBytes_wf _ _ hok, hrest⟩

theorem State.engineWord_calm {s : State} {die a : Nat} {bs : List Byte} (region owner : Nat) (hc : Calm s)
    (hlen : bs.length = 8) (hlow : 0x4000000000 ≤ a) (ha : a % 8 = 0) (hdie : homeDie a = die)
    (hgone : s.homeGone a = false) :
    s.engineWrite die (engineWord a 8 (ofBytes bs)) none region owner = s.withLocalWord a bs := by
  have hlt := ofBytes_lt bs
  have hbytes := Memory.write_ofBytes s.mem a bs
  rw [hlen] at hlt hbytes
  rw [State.engineWrite_fills _ none region owner hc hlow ha hdie hgone, Nat.mod_eq_of_lt hlt, hbytes]
  rfl

/-- Whole words written to homes of their die that are there: the bytes are written and the words are full. -/
theorem State.engineWords_calm {s : State} {die a m f : Nat} {bs : List Byte} (region owner : Nat) (hc : Calm s)
    (ha : a % 8 = 0) (hlen : bs.length = 8 * m) (hf : m ≤ f)
    (hhome : ∀ k, k < 8 * m → 0x4000000000 ≤ a + k ∧ s.homeGone (a + k) = false ∧ homeDie (a + k) = die) :
    ∃ l, (wordRuns f a (clean bs)).foldl (fun t w =>
        t.engineWrite die (engineWord w.1 w.2.length (ofBytes (w.2.map (·.1))) (w.2.any (·.2))) none region owner) s =
      { s with mem := s.mem.writeBytes a bs, empty := l, nextId := s.nextId + m } ∧
      ∀ w, w % 8 = 0 → (!l.contains w) = if a ≤ w ∧ w < a + 8 * m then true else s.isFull w := by
  induction m generalizing s a bs f with
  | zero =>
    obtain rfl : bs = [] := List.eq_nil_of_length_eq_zero (by omega)
    refine ⟨s.empty, ?_, fun w _ => ?_⟩
    · cases f <;> rfl
    · rw [if_neg (by omega)]
      rfl
  | succ m ih =>
    obtain ⟨f, rfl⟩ : ∃ g, f = g + 1 := ⟨f - 1, by omega⟩
    have htake : (bs.take 8).length = 8 := by simp; omega
    obtain ⟨hlow, hthere, hdie⟩ := hhome 0 (by omega)
    have hfirst := State.engineWord_calm (a := a) region owner hc htake hlow ha hdie hthere
    obtain ⟨l, hfold, hbits⟩ := ih (s := s.withLocalWord a (bs.take 8)) (f := f) (a := a + 8) (bs := bs.drop 8)
      (State.calm_withLocalWord hc _ _) (by omega) (by simp; omega) (by omega)
      fun k hk => Nat.add_assoc a 8 k ▸ hhome (8 + k) (by omega)
    have hclean : (clean bs).take 8 = clean (bs.take 8) := List.map_take.symm
    have hdrop : (clean bs).drop 8 = clean (bs.drop 8) := List.map_drop.symm
    refine ⟨l, ?_, fun w hw => ?_⟩
    · rw [wordRuns_whole f ha (by simpa using hlen), hclean, hdrop, List.foldl_cons]
      simp only [clean_fst, clean_length, any_clean, htake, hfirst]
      rw [hfold]
      have hbytes : (s.mem.writeBytes a (bs.take 8)).writeBytes (a + 8) (bs.drop 8) = s.mem.writeBytes a bs := by
        have := Memory.writeBytes_append s.mem a (bs.take 8) (bs.drop 8)
        rwa [List.take_append_drop, htake, eq_comm] at this
      simp only [State.withLocalWord, hbytes, Nat.add_assoc, Nat.add_comm 1 m]
    · rw [hbits w hw, State.isFull_withLocalWord]
      by_cases hwa : w = a
      · rw [if_pos hwa, if_pos (show a ≤ w ∧ w < a + 8 * (m + 1) by omega), ite_self]
      · rw [if_neg hwa]
        exact if_congr (by omega) rfl rfl

end Sys2Proof.Machine
end

section
/-! SUPPORT. O51: the way of a piece (R271, R276) and the completion word (R272). -/

namespace Sys2Proof.Machine

/-! Pieces (R271) -/

/-- The next piece of a request: its offset, its physical address and its length. -/
def State.nextPart (s : State) (r : MsReq) : Nat × Nat × Nat :=
  (r.blk.offset + r.next, s.physical r (r.blk.offset + r.next),
    min (r.blk.len - r.next) (4096 - (r.blk.offset + r.next) % 4096))

/-- The request at a stage of its next piece. -/
def State.atPart (s : State) (r : MsReq) (st : MsStage) (data : List MByte) : MsReq :=
  { r with part := s.nextPart r, stage := st, data := data }

/-- The request behind its next piece, whose bytes are written. -/
def State.pastPart (s : State) (r : MsReq) : MsReq :=
  { r with next := r.next + (s.nextPart r).2.2, written := r.written + (s.nextPart r).2.2, part := s.nextPart r, data := [] }

theorem State.physical_mod (s : State) (r : MsReq) (o : Nat) : s.physical r o % 4096 = o % 4096 := by
  simp only [State.physical, pageAddr, pageBytes]
  split <;> omega

/-- A stage at the die of its request leads to the next. -/
theorem State.pieceRun_next {s t : State} {r q : MsReq} (f : Nat) (hdie : s.stageDie r = r.die)
    (hstage : s.pieceStage r = (t, q)) (hq : q.stage ≠ .route) : s.pieceRun r (f + 1) = t.pieceRun q f := by
  simp only [State.pieceRun, hdie, ne_eq, not_true_eq_false, if_false, hstage, hq, false_and]

/-- The last stage of a part ends it. -/
theorem State.pieceRun_ends {s t : State} {r q : MsReq} (f : Nat) (hdie : s.stageDie r = r.die)
    (hstage : s.pieceStage r = (t, q)) (hq : q.stage = .route) (hr : r.stage ≠ .index) :
    s.pieceRun r (f + 1) = t.putRequest q := by
  simp only [State.pieceRun, hdie, ne_eq, not_true_eq_false, if_false, hstage, hq, hr, not_false_eq_true, true_or, and_true,
    if_true]

theorem State.pieceReady_routes {s : State} {r : MsReq} (hready : s.pieceReady r = true) (hstage : r.stage = .route) :
    r.stopped = false ∧ r.allDone = false := by
  simp only [State.pieceReady, hstage, Bool.and_eq_true, Bool.or_eq_true, bne_self_eq_false, Bool.false_eq_true, false_or,
    Bool.not_eq_true'] at hready
  exact hready.2.1

/-- MS_PIECE and CXL_MEM_COMPLETION serve a piece of a request of their segments. -/
theorem exec_piece {s : State} {r : MsReq} (hreq : s.request? r.id = some r) (hready : s.pieceReady r = true)
    (hsubj : s.subj = .id r.id) :
    exec (if (s.reqSegment r).isFar = true then .cxlMemCompletion else .msPiece) s = .next (s.servePiece r) := by
  have hnum : Subject.num s.subj = r.id := by rw [hsubj]; rfl
  have hseg : (s.reqSegment r).isFar = r.blk.far.isSome := rfl
  split
  next hfar =>
    show execCxlMemCompletion s = _
    simp only [execCxlMemCompletion, hnum, hreq, hready, ← hseg, hfar, Bool.and_self, if_true]
  next hnear =>
    have hnone : r.blk.far.isNone = true := by
      rw [hseg] at hnear
      simpa using hnear
    show execMsPiece s = _
    simp only [execMsPiece, hnum, hreq, hready, hnone, Bool.and_self, if_true]

section
variable {s : State} {r : MsReq} (hready : s.pieceReady r = true) (hstage : r.stage = .route)
  (hfront : r.die = serverDie r.front) (hcount : r.op.usesCount = false)
include hready hstage hcount

/-- The next piece has bytes, and lies in one granule. -/
theorem State.nextPart_granule :
    0 < (s.nextPart r).2.2 ∧ (s.nextPart r).2.2 ≤ 4096 - (s.nextPart r).2.1 % 4096 := by
  obtain ⟨-, hdone⟩ := State.pieceReady_routes hready hstage
  rw [MsReq.allDone, hcount] at hdone
  have hleft : ¬r.blk.len ≤ r.next := of_decide_eq_false hdone
  simp only [State.nextPart, State.physical_mod]
  omega

include hfront

/-- The piece is made out at the front server, without an index. -/
theorem State.servePiece_routes : s.servePiece r =
    s.pieceRun (s.atPart r (if r.op = .put ∨ r.op = .scat then .read else .serve) r.data) 5 := by
  obtain ⟨hrun, -⟩ := State.pieceReady_routes hready hstage
  have hbeyond : s.beyond r = false := by simp only [State.beyond, hcount, Bool.false_and]
  have hroute : s.pieceStage r = (s, s.atPart r (if r.op = .put ∨ r.op = .scat then .read else .serve) r.data) := by
    simp only [State.pieceStage, hstage, State.routePart, MsReq.pieceRange, MsReq.rest, hcount, hbeyond, Bool.false_and,
      Bool.false_eq_true, if_false]
    rfl
  have hdie : s.stageDie r = r.die := by simp only [State.stageDie, hstage, MsReq.frontDie, hfront]
  simp only [State.servePiece, hrun, Bool.false_eq_true, if_false]
  refine State.pieceRun_next 5 hdie hroute ?_
  simp only [State.atPart]
  split <;> nofun

end

section
variable {s t : State} {r q : MsReq} (hfront : r.die = serverDie r.front)
  (hstack : r.blk.far.isSome = true ∨ s.stackPresent (s.pkg.stackOf r.part.2.1) = true ∧
    s.pkg.stackOf r.part.2.1 / 2 = r.die)
  (hlocal : r.op = .fill ∨ s.homeGone r.blk.loc = false)
include hfront hstack hlocal

/-- A part whose stack is of the request's die is served there, and the request moves behind it. -/
theorem State.pieceRun_serves (f : Nat) (hstage : r.stage = .serve) (hserve : s.servePart r = (t, q))
    (hdie : q.die = q.frontDie) (hrun : q.stopped = false) (hcount : q.op.usesCount = false) :
    s.pieceRun r (f + 2) = t.putRequest { q with next := q.next + q.part.2.2, stage := .route, data := [] } := by
  have hhere : s.stageDie r = r.die := by
    rw [State.stageDie, hstage]
    rcases hstack with hfar | ⟨-, hnear⟩
    · exact (if_pos hfar).trans hfront.symm
    · show (if r.blk.far.isSome = true then r.frontDie else s.pkg.stackOf r.part.2.1 / 2) = r.die
      split
      · exact hfront.symm
      · exact hnear
  have hthere : (!r.blk.far.isSome && !s.stackPresent (s.pkg.stackOf r.part.2.1)) = false := by
    rcases hstack with hfar | ⟨hpres, -⟩
    · rw [hfar]; rfl
    · rw [hpres, Bool.not_true, Bool.and_false]
  have hside : (r.op.usesLocal && s.homeGone r.blk.loc) = false := by
    rcases hlocal with hfill | hhome
    · rw [hfill]; rfl
    · rw [hhome, Bool.and_false]
  have hserved : s.pieceStage r = (t, { q with stage := .back }) := by
    simp only [State.pieceStage, hstage, hthere, hside, Bool.false_eq_true, if_false, hserve]
  have hback : t.pieceStage { q with stage := .back } =
      (t, { q with next := q.next + q.part.2.2, stage := .route, data := [] }) := by
    simp only [State.pieceStage, hrun, Bool.false_eq_true, if_false, MsReq.behind, hcount]
  rw [State.pieceRun_next (f + 1) hhere hserved nofun]
  exact State.pieceRun_ends f hdie.symm hback rfl nofun

end

end Sys2Proof.Machine
end

section
/-! SUPPORT. O51: what `ms.fill`, `ms.put` and `ms.get` do with a piece (R271). -/

namespace Sys2Proof.Machine

/-! Bytes of a pattern -/

theorem toBytes_getElem? (v : Nat) {n i : Nat} (hi : i < n) : (toBytes v n)[i]? = some (BitVec.ofNat 8 (v / 256 ^ i)) := by
  induction n generalizing v i with
  | zero => omega
  | succ n ih =>
    cases i with
    | zero => simp [toBytes]
    | succ i => rw [toBytes, List.getElem?_cons_succ, ih _ (by omega), Nat.div_div_eq_div_mul, Nat.pow_succ']

/-- The bytes of a pattern of so many words. -/
theorem pattern_getElem? (v m : Nat) : ((List.range m).flatMap fun _ => toBytes v 8).length = 8 * m ∧
    ∀ k, k < 8 * m → ((List.range m).flatMap fun _ => toBytes v 8)[k]? = some (BitVec.ofNat 8 (v / 256 ^ (k % 8))) := by
  induction m with
  | zero => exact ⟨rfl, fun k hk => absurd hk (by omega)⟩
  | succ m ih =>
    obtain ⟨hlen, hbyte⟩ := ih
    rw [List.range_succ, List.flatMap_append, List.flatMap_singleton]
    refine ⟨by rw [List.length_append, hlen, toBytes_length, Nat.mul_succ], fun k hk => ?_⟩
    by_cases hlt : k < 8 * m
    · rw [List.getElem?_append_left (by omega), hbyte k hlt]
    · rw [List.getElem?_append_right (by omega), hlen, toBytes_getElem? v (by omega), show k - 8 * m = k % 8 by omega]

theorem Memory.bytes_getElem? (m : Memory) (a : Nat) {n k : Nat} (hk : k < n) : (m.bytes a n)[k]? = some (m.get (a + k)) := by
  induction n generalizing a k with
  | zero => omega
  | succ n ih =>
    cases k with
    | zero => rfl
    | succ k => rw [Memory.bytes, List.getElem?_cons_succ, ih _ (by omega), Nat.add_assoc, Nat.add_comm 1 k]

/-! Pieces to a segment -/

/-- The bytes of a piece that are written to its segment count as written. -/
theorem State.toSegment_calm {s : State} {r : MsReq} {seg : Segment} {bs : List Byte} (hc : Calm s) (hpos : 0 < bs.length)
    (hn : bs.length ≤ 4096 - r.part.2.1 % 4096) : s.toSegment r seg (clean bs) =
      (s.withSegMem seg ((s.segMem seg).writeBytes (s.segKey seg r.part.2.1) bs),
        { r with written := r.written + bs.length }) := by
  rw [State.toSegment, State.segWrite_calm hc hpos hn, clean_length]

theorem State.servePart_fill {s : State} {r : MsReq} (hop : r.op = .fill) : s.servePart r =
    s.toSegment r (s.reqSegment r) (clean ((List.range (r.part.2.2 / 8)).flatMap fun _ => toBytes r.blk.val0.toNat 8)) := by
  simp only [State.servePart, hop]
  rfl

theorem State.servePart_put {s : State} {r : MsReq} {bs : List Byte} (hop : r.op = .put) (hconv : r.blk.conv = 0)
    (hdata : r.data = clean bs) : s.servePart r = s.toSegment r (s.reqSegment r) (clean bs) := by
  have hsame : convBytes r.blk.conv r.data = clean bs := by rw [hconv, hdata]; rfl
  simp only [State.servePart, hop, hsame, State.sawError_clean]

/-- Local-side address of a piece without conversion. -/
theorem MsReq.localAt_plain {r : MsReq} (hop : r.op = .get ∨ r.op = .put) (hconv : r.blk.conv = 0) :
    r.localAt = r.blk.loc + r.next := by
  have hwidths : convWidths r.blk.conv = (1, 1) := by rw [hconv]; rfl
  rcases hop with hop | hop <;> simp [MsReq.localAt, hwidths, hop]

/-- The local bytes of a piece of `ms.put` are read before it is served. -/
theorem State.pieceStage_read {s : State} {r : MsReq} (hm : s.marks = []) (hl : s.latent = []) (hop : r.op = .put)
    (hstage : r.stage = .read) (hconv : r.blk.conv = 0) (hgone : s.homeGone r.blk.loc = false) : s.pieceStage r =
      (s, { r with data := clean (s.mem.bytes (r.blk.loc + r.next) r.part.2.2), stage := .serve }) := by
  have hsource : r.sourceBytes r.part.2.2 = r.part.2.2 := by
    have hwidths : convWidths r.blk.conv = (1, 1) := by rw [hconv]; rfl
    simp [MsReq.sourceBytes, hwidths, hop]
  simp only [State.pieceStage, hstage, hgone, Bool.false_eq_true, if_false, MsReq.localAt_plain (.inr hop) hconv, hsource, hm,
    hl, List.append_nil, withMarks_none]
  rfl

/-! Pieces to the local side -/

theorem State.writeDie_present {s : State} {a die : Nat} (hgone : s.homeGone a = false) (hdie : homeDie a = die) :
    s.writeDie die = die := by
  rw [State.homeGone, Bool.or_eq_false_iff, hdie, Bool.not_eq_false'] at hgone
  exact if_pos hgone.1

/-- Whole words for the local side, with none begun before, are written, and the words are full. -/
theorem State.toLocal_calm {s : State} {r : MsReq} {a m : Nat} {bs : List Byte} (hc : Calm s) (hcarry : r.carry = none)
    (ha : a % 8 = 0) (hlen : bs.length = 8 * m) (hdie : s.writeDie r.die = r.die)
    (hhome : ∀ k, k < 8 * m → 0x4000000000 ≤ a + k ∧ s.homeGone (a + k) = false ∧ homeDie (a + k) = r.die) :
    ∃ l, s.toLocal r a (clean bs) = ({ s with mem := s.mem.writeBytes a bs, empty := l, nextId := s.nextId + m },
        { r with carry := none, written := r.written + bs.length }) ∧
      ∀ w, w % 8 = 0 → (!l.contains w) = if a ≤ w ∧ w < a + 8 * m then true else s.isFull w := by
  obtain ⟨hall, hsum⟩ := wordRuns_all (f := bs.length + 1) (a := a) (bs := clean bs) ha (by simpa using hlen)
    (by omega)
  obtain ⟨l, hfold, hbits⟩ := State.engineWords_calm (f := bs.length + 1) r.region r.id hc ha hlen (by omega) hhome
  have hfilter : (wordRuns (bs.length + 1) a (clean bs)).filter (fun w => (w.1 + w.2.length) % 8 == 0) =
      wordRuns (bs.length + 1) a (clean bs) :=
    List.filter_eq_self.2 fun w hw => by simp [hall w hw]
  have hfind : (wordRuns (bs.length + 1) a (clean bs)).find? (fun w => !((w.1 + w.2.length) % 8 == 0)) = none :=
    List.find?_eq_none.2 fun w hw => by simp [hall w hw]
  refine ⟨l, ?_, hbits⟩
  simp only [State.toLocal, hcarry, Bool.false_eq_true, if_false, State.flushCarry, State.engineRun, hfilter, hfind, hdie,
    hfold, hsum, clean_length]

theorem State.servePart_get {s t : State} {r q : MsReq} {bs : List Byte} (hop : r.op = .get) (hconv : r.blk.conv = 0)
    (hread : s.segRead (s.reqSegment r) r.part.2.1 r.part.2.2 = clean bs)
    (hlocal : s.toLocal r (r.blk.loc + r.next) (clean bs) = (t, q)) : s.servePart r = (t, q) := by
  have hsame : convBytes r.blk.conv (clean bs) = clean bs := by rw [hconv]; rfl
  simp only [State.servePart, hop, hread, hsame, MsReq.localAt_plain (.inl hop) hconv, hlocal, State.sawError_clean]

end Sys2Proof.Machine
end

section
/-! SUPPORT. O51: a whole piece of `ms.fill`, `ms.put` and `ms.get` (R271), the completion word (R272), and the statement. -/

namespace Sys2Proof.Machine

theorem State.putRequest_eq (s : State) (q : MsReq) :
    s.putRequest q = { s with requests := s.requests.map fun x => if x.id = q.id then q else x } := by
  simp only [State.putRequest, beq_iff_eq]

/-! Pieces (R271) -/

theorem State.pastPart_eq (s : State) {r : MsReq} (hstage : r.stage = .route) : s.pastPart { r with stage := .route } =
    s.pastPart r := by
  rw [← hstage]

theorem State.pastPart_carry (s : State) {r : MsReq} (hstage : r.stage = .route) (hcarry : r.carry = none) :
    s.pastPart { r with stage := .route, carry := none } = s.pastPart r := by
  rw [← hstage, ← hcarry]

/-- A write to a granule of a segment changes its bytes there alone. -/
theorem State.withSegMem_written {i : Instr} {s : State} {seg : Segment} {key n : Nat} {bs : List Byte} {q : MsReq}
    {f : Nat → Byte} (hc : Calm s)
    (hexec : exec i s = .next ((s.withSegMem seg ((s.segMem seg).writeBytes key bs)).putRequest q))
    (hlen : bs.length = n) (hf : ∀ k, k < n → bs[k]? = some (f k)) : ∃ t, exec i s = .next t ∧
      t = { s with hbm := t.hbm, far := t.far, requests := s.requests.map fun x => if x.id = q.id then q else x } ∧
      (if seg.isFar = true then t.hbm = s.hbm else t.far = s.far) ∧
      (∀ k, k < n → (t.segMem seg).get (key + k) = f k) ∧
      ∀ x, x < key ∨ key + n ≤ x → (t.segMem seg).get x = (s.segMem seg).get x := by
  have hmem : ((s.withSegMem seg ((s.segMem seg).writeBytes key bs)).putRequest q).segMem seg =
      (s.segMem seg).writeBytes key bs := State.segMem_withSegMem s seg _
  refine ⟨_, hexec, ?_, ?_, fun k hk => ?_, fun x hx => ?_⟩
  · rw [State.putRequest_eq]
    rfl
  · split
    next hfar => exact if_pos hfar
    next hnear => exact if_neg hnear
  · rw [hmem]
    exact Memory.get_writeBytes (hf k hk) (State.segMem_wf hc)
  · rw [hmem]
    exact Memory.get_writeBytes_other (by rwa [hlen]) (State.segMem_wf hc)

section
variable {s : State} {r : MsReq} (hc : Calm s) (hready : s.pieceReady r = true) (hstage : r.stage = .route)
  (hfront : r.die = serverDie r.front)
  (hstack : r.blk.far.isSome = true ∨
    s.stackPresent (s.pkg.stackOf (s.nextPart r).2.1) = true ∧
      s.pkg.stackOf (s.nextPart r).2.1 / 2 = r.die)
include hc hready hstage hfront hstack

/-- A part that writes so many bytes to the segment is the whole piece. -/
theorem State.pieceRun_toSegment {data : List MByte} {bs : List Byte} (f : Nat) (hcount : r.op.usesCount = false)
    (hlocal : r.op = .fill ∨ s.homeGone r.blk.loc = false) (hlen : bs.length = (s.nextPart r).2.2)
    (hserve : s.servePart (s.atPart r .serve data) = s.toSegment (s.atPart r .serve data) (s.reqSegment r) (clean bs)) :
    s.pieceRun (s.atPart r .serve data) (f + 2) = (s.withSegMem (s.reqSegment r) ((s.segMem (s.reqSegment r)).writeBytes
      (s.segKey (s.reqSegment r) (s.nextPart r).2.1) bs)).putRequest
        (s.pastPart r) := by
  obtain ⟨hrun, -⟩ := State.pieceReady_routes hready hstage
  obtain ⟨hpos, hgran⟩ := State.nextPart_granule hready hstage hcount
  rw [State.toSegment_calm hc (by rwa [hlen]) (by rwa [hlen])] at hserve
  rw [State.pieceRun_serves (r := s.atPart r .serve data) hfront hstack hlocal f rfl hserve hfront hrun hcount, hlen]
  exact congrArg _ (State.pastPart_eq s hstage)

/-- A piece of `ms.fill`. -/
theorem State.servePiece_fill (hop : r.op = .fill)
    (hn : (s.nextPart r).2.2 % 8 = 0) :
    s.servePiece r = (s.withSegMem (s.reqSegment r) ((s.segMem (s.reqSegment r)).writeBytes
      (s.segKey (s.reqSegment r) (s.nextPart r).2.1)
        ((List.range ((s.nextPart r).2.2 / 8)).flatMap fun _ => toBytes r.blk.val0.toNat 8))).putRequest
          (s.pastPart r) := by
  have hcount : r.op.usesCount = false := by rw [hop]; rfl
  have hnext : (if r.op = .put ∨ r.op = .scat then MsStage.read else .serve) = .serve := by simp [hop]
  rw [State.servePiece_routes hready hstage hfront hcount, hnext]
  refine State.pieceRun_toSegment hc hready hstage hfront hstack (data := r.data) 3 hcount (.inl hop) ?_
    (State.servePart_fill hop)
  rw [(pattern_getElem? _ _).1]
  exact Nat.mul_div_cancel' (Nat.dvd_of_mod_eq_zero hn)

/-- A piece of `ms.put`. -/
theorem State.servePiece_put (hop : r.op = .put) (hconv : r.blk.conv = 0) (hgone : s.homeGone r.blk.loc = false)
    (hdie : homeDie r.blk.loc = r.die) :
    s.servePiece r = (s.withSegMem (s.reqSegment r) ((s.segMem (s.reqSegment r)).writeBytes
      (s.segKey (s.reqSegment r) (s.nextPart r).2.1)
        (s.mem.bytes (r.blk.loc + r.next) (s.nextPart r).2.2))).putRequest
          (s.pastPart r) := by
  have hcount : r.op.usesCount = false := by rw [hop]; rfl
  have hnext : (if r.op = .put ∨ r.op = .scat then MsStage.read else .serve) = .read := if_pos (.inl hop)
  obtain ⟨-, -, -, hm, hl, -⟩ := id hc
  have hread : s.pieceStage (s.atPart r .read r.data) = (s, s.atPart r .serve
      (clean (s.mem.bytes (r.blk.loc + r.next) (s.nextPart r).2.2))) :=
    State.pieceStage_read (r := s.atPart r .read r.data) hm hl hop rfl hconv hgone
  rw [State.servePiece_routes hready hstage hfront hcount, hnext,
    State.pieceRun_next (r := s.atPart r .read r.data) 4 hdie hread nofun]
  exact State.pieceRun_toSegment hc hready hstage hfront hstack 2 hcount (.inr hgone) (Memory.bytes_length _ _ _)
    (State.servePart_put hop hconv rfl)

/-- A piece of `ms.get`: whole words of the local side. -/
theorem State.servePiece_get {m : Nat} (hop : r.op = .get) (hconv : r.blk.conv = 0) (hcarry : r.carry = none)
    (hgone : s.homeGone r.blk.loc = false) (hal : (r.blk.loc + r.next) % 8 = 0)
    (hn : (s.nextPart r).2.2 = 8 * m)
    (hhome : ∀ k, k < 8 * m → 0x4000000000 ≤ r.blk.loc + r.next + k ∧ s.homeGone (r.blk.loc + r.next + k) = false ∧
      homeDie (r.blk.loc + r.next + k) = r.die) :
    ∃ l, s.servePiece r = State.putRequest { s with
        mem := s.mem.writeBytes (r.blk.loc + r.next) ((s.segMem (s.reqSegment r)).bytes
          (s.segKey (s.reqSegment r) (s.nextPart r).2.1) (8 * m))
        empty := l, nextId := s.nextId + m } (s.pastPart r) ∧
      ∀ w, w % 8 = 0 → (!l.contains w) =
        if r.blk.loc + r.next ≤ w ∧ w < r.blk.loc + r.next + 8 * m then true else s.isFull w := by
  have hcount : r.op.usesCount = false := by rw [hop]; rfl
  have hnext : (if r.op = .put ∨ r.op = .scat then MsStage.read else .serve) = .serve := by simp [hop]
  obtain ⟨hrun, -⟩ := State.pieceReady_routes hready hstage
  obtain ⟨hpos, hgran⟩ := State.nextPart_granule hready hstage hcount
  have hread := State.segRead_calm (seg := s.reqSegment r) hc hpos hgran
  rw [hn] at hpos hread
  obtain ⟨-, hthere, hdie⟩ := hhome 0 (by omega)
  obtain ⟨l, hlocal, hbits⟩ := State.toLocal_calm (r := s.atPart r .serve r.data) (bs := (s.segMem (s.reqSegment r)).bytes
    (s.segKey (s.reqSegment r) (s.nextPart r).2.1) (8 * m)) hc hcarry hal (Memory.bytes_length _ _ _)
    (State.writeDie_present hthere hdie) hhome
  refine ⟨l, ?_, hbits⟩
  have hserve := State.servePart_get (r := s.atPart r .serve r.data) hop hconv
    (show s.segRead (s.reqSegment r) (s.nextPart r).2.1 (s.nextPart r).2.2 = _ from hn ▸ hread) hlocal
  rw [State.servePiece_routes hready hstage hfront hcount, hnext, State.pieceRun_serves
    (r := s.atPart r .serve r.data) hfront hstack (.inr hgone) 3 rfl hserve hfront hrun hcount, Memory.bytes_length]
  rw [← hn]
  exact congrArg _ (State.pastPart_carry s hstage hcarry)

end

/-! Completion (R272) -/

/-- A request whose pieces are over, with no word of the local side begun, writes its completion word. -/
theorem execMsCompletion_writes {s : State} {r : MsReq} (hreq : s.request? r.id = some r) (hover : r.over = true)
    (hphase : r.phase ≠ .completing) (hcarry : r.carry = none) (hidle : s.engineBusy r.id = false)
    (hsubj : s.subj = .id r.id) : exec .msCompletion s = .next (s.writeCompletion r) := by
  have hnum : Subject.num s.subj = r.id := by rw [hsubj]; rfl
  show execMsCompletion s = _
  simp only [execMsCompletion, hnum, hreq, hidle, hphase, hover, State.flushCarry, hcarry, Bool.not_true, Bool.false_eq_true,
    if_false]

theorem State.putRequest_filter (s : State) (q : MsReq) :
    (s.putRequest q).requests.filter (·.id != q.id) = s.requests.filter (·.id != q.id) := by
  rw [State.putRequest_eq]
  show (s.requests.map _).filter _ = _
  induction s.requests with
  | nil => rfl
  | cons x l ih => by_cases hx : x.id = q.id <;> simp_all

/-- A completion word in calm memory of the die of its server is written at once, and the request is over. -/
theorem State.writeCompletion_calm {s : State} {r : MsReq} (hc : Calm s) (hne : r.blk.compl ≠ 0)
    (hlow : 0x4000000000 ≤ r.blk.compl) (hal : r.blk.compl % 8 = 0) (hdie : homeDie r.blk.compl = serverDie r.front)
    (hgone : s.homeGone r.blk.compl = false) (hidle : s.engineBusy r.id = false) : s.writeCompletion r =
      State.finishRequest { s with mem := s.mem.write r.blk.compl 8 (r.word % 2 ^ 64)
                                   empty := eraseAddr r.blk.compl s.empty, nextId := s.nextId + 1 } r := by
  have hwrite := State.engineWrite_fills (s := s.putRequest { r with phase := .completing }) r.word (some (s.requestAuthor r))
    r.region r.id hc hlow hal hdie hgone
  rw [State.writeCompletion, if_neg hne, show s.writeDie r.frontDie = serverDie r.front from State.writeDie_present hgone hdie]
  rw [hwrite]
  refine (if_neg (ne_true_of_eq_false hidle)).trans ?_
  have hfilter := State.putRequest_filter s { r with phase := .completing }
  simp only [State.finishRequest, hfilter]
  rfl

end Sys2Proof.Machine
end

section
/-! SUPPORT. O51: the statement. -/

namespace Sys2Proof.Machine

/-- A request that is over leaves, and its server counts it (R259, R274). -/
theorem State.finishRequest_counts (s : State) (r : MsReq) :
    s.finishRequest r = { s with requests := s.requests.filter (·.id != r.id), servers := (s.finishRequest r).servers } ∧
      ((s.finishRequest r).server r.front).completed = (s.server r.front).completed + 1 ∧
      ((s.finishRequest r).server r.front).failed = (s.server r.front).failed + (if r.status = 0 then 0 else 1) := by
  have hserver := State.server_modServer { s with requests := s.requests.filter (·.id != r.id) } (n := r.front)
    (f := fun v => { v with completed := v.completed + 1, failed := if r.status = 0 then v.failed else v.failed + 1 })
    (State.server_name s _)
  refine ⟨rfl, congrArg Server.completed hserver, (congrArg Server.failed hserver).trans ?_⟩
  show (if r.status = 0 then _ else _) = _
  split
  · exact (BitVec.add_zero _).symm
  · rfl

/-- Settles O51: a request takes its context or moves to another queue, misses a page, makes a piece, and is completed. -/
theorem serverWork : Obligations.ServerWork := by
  intro s r hreq put seg
  have hput (q : MsReq) (hid : q.id = r.id) : (s.requests.map fun x => if x.id = q.id then q else x) = put q := by
    rw [hid]
  refine ⟨fun n hfind => ⟨fun hany hroom => ?_, fun e hany hcached hpin => ?_⟩, fun pg hmiss hsubj => ?_, ?_, ?_⟩
  · rw [execMsContextStart_active (s := { s with subj := .id n }) rfl hfind hany hroom, State.putRequest_eq]
  · intro own
    refine ⟨fun hown => ?_, fun hown hroom hpres htr => ?_⟩
    · rw [execMsContextStart_stays (s := { s with subj := .id n }) rfl hfind hany hcached hpin hown, State.putRequest_eq]
    · obtain ⟨q, hmem, hq, hstay⟩ := State.toFront_joins (s := { s with subj := .id n })
        (r := { r with any := false, front := own }) (s.requests.filter (·.id != r.id)) htr
      exact ⟨_, q, execMsContextStart_moves (s := { s with subj := .id n }) rfl hfind hany hcached hpin rfl hown
        (decide_eq_true hroom) hpres, hmem, hq, hstay⟩
  · intro e hpin
    obtain ⟨hhit, hcount⟩ := State.refill_caches hpin (State.cached_of_missing hmiss)
    exact ⟨_, execMsTranslationRefill_pinned hreq hmiss hsubj hpin, rfl, hhit, hcount⟩
  · intro hc hready hstage hfront hsubj hconv hlen hoff hnext hloc i o n pa loc key get after toSegment hstack
    have hexec := exec_piece hreq hready hsubj
    have hn : n % 8 = 0 := by omega
    have hput := hput (s.pastPart r) rfl
    have hsegment {bs : List Byte} {f : Nat → Byte}
        (hserve : s.servePiece r = (s.withSegMem seg ((s.segMem seg).writeBytes key bs)).putRequest (s.pastPart r))
        (hbs : bs.length = n) (hf : ∀ k, k < n → bs[k]? = some (f k)) : toSegment f := by
      have hwritten := State.withSegMem_written hc (hserve ▸ hexec) hbs hf
      simp only [State.segMem_get, hput] at hwritten
      exact hwritten
    refine ⟨fun hop => ?_, fun hop hgone hdie => ?_, fun hop hcarry hgone hhome => ?_⟩
    · obtain ⟨hsize, hbyte⟩ := pattern_getElem? r.blk.val0.toNat (n / 8)
      have hwords : 8 * (n / 8) = n := by omega
      rw [hwords] at hsize hbyte
      exact hsegment (State.servePiece_fill hc hready hstage hfront hstack hop hn) hsize hbyte
    · exact hsegment (State.servePiece_put hc hready hstage hfront hstack hop hconv hgone hdie) (Memory.bytes_length _ _ _)
        fun k hk => Memory.bytes_getElem? s.mem loc hk
    · have hwords : n = 8 * (n / 8) := by omega
      obtain ⟨l, hserve, hbits⟩ := State.servePiece_get hc hready hstage hfront hstack (m := n / 8) hop hconv hcarry hgone
        (by omega) hwords (fun k hk => hhome k (by omega))
      rw [← hwords] at hserve hbits
      rw [hserve, State.putRequest_eq, hput] at hexec
      obtain ⟨-, -, -, -, -, -, -, hok, -⟩ := hc
      refine ⟨_, hexec, rfl, fun k hk => ?_, fun x hx => ?_, hbits⟩
      · exact (Memory.get_writeBytes_bytes hk hok).trans (State.segMem_get s seg _)
      · exact Memory.get_writeBytes_other (by rwa [Memory.bytes_length]) hok
  · intro hc hover hphase hcarry hidle hpres hsubj c value hcompl
    have hexec := execMsCompletion_writes hreq hover hphase hcarry hidle hsubj
    by_cases hzero : c = 0
    · have hdone : s.writeCompletion r = s.finishRequest r := if_pos hzero
      obtain ⟨hframe, hcompleted, hfailed⟩ := State.finishRequest_counts s r
      exact ⟨_, hdone ▸ hexec, hframe, hcompleted, hfailed, fun _ => ⟨rfl, rfl⟩, fun h => absurd hzero h⟩
    · obtain ⟨hlow, hal, hdie, hgone⟩ := hcompl.resolve_left hzero
      have hdone := State.writeCompletion_calm hc hzero hlow hal hdie hgone hidle
      obtain ⟨hframe, hcompleted, hfailed⟩ := State.finishRequest_counts { s with
        mem := s.mem.write r.blk.compl 8 (r.word % 2 ^ 64), empty := eraseAddr r.blk.compl s.empty, nextId := s.nextId + 1 } r
      obtain ⟨-, -, -, -, -, -, -, hok, -⟩ := hc
      refine ⟨_, hdone ▸ hexec, hframe, hcompleted, hfailed, fun h => absurd h hzero,
        fun _ => ⟨?_, ?_, fun x hx => ?_⟩⟩
      · exact State.word_written (s := s) (a := c) (BitVec.ofNat 64 value) hok
          (by rw [BitVec.toNat_ofNat]; rfl)
      · show (!(eraseAddr c s.empty).contains c) = true
        simp [mem_eraseAddr]
      · exact Memory.get_write_other hx hok

end Sys2Proof.Machine
end

section
/-! SUPPORT. O44: the bytes of a tile transfer as engine writes (R245, R287). -/

namespace Sys2Proof.Machine

/-! Cells: addresses with the byte for each -/

/-- Memory with the bytes of cells at a base. -/
def Memory.setCells (base : Nat) (m : Memory) (cells : List (Nat × Nat)) : Memory :=
  cells.foldl (fun m c => m.set (base + c.1) (BitVec.ofNat 8 c.2)) m

/-- The cells of bytes that lie next to each other. -/
def cellsFrom (a : Nat) : List Nat → List (Nat × Nat)
  | [] => []
  | v :: vs => (a, v) :: cellsFrom (a + 1) vs

theorem cellsFrom_mem {a v : Nat} {vs : List Nat} (hv : v ∈ vs) : ∃ c ∈ cellsFrom a vs, c.2 = v := by
  induction vs generalizing a with
  | nil => simp at hv
  | cons w vs ih =>
    rcases List.mem_cons.1 hv with rfl | hv
    · exact ⟨(a, v), List.mem_cons_self, rfl⟩
    · obtain ⟨c, hc, he⟩ := ih (a := a + 1) hv
      exact ⟨c, List.mem_cons_of_mem _ hc, he⟩

/-- What is gathered are the cells themselves, in their order. -/
theorem gather_cells (cells : List (Nat × Nat)) : ((gather cells).flatMap fun x => cellsFrom x.1 x.2) = cells := by
  induction cells with
  | nil => rfl
  | cons c r ih =>
    unfold gather
    split
    next b vs t hg =>
      rw [hg] at ih
      split
      next hnext =>
        obtain ⟨rfl, -⟩ := hnext
        exact congrArg (c :: ·) ih
      · exact congrArg (c :: ·) ih
    next hg =>
      rw [hg] at ih
      exact congrArg (c :: ·) ih

/-- A gathered write begins at a cell. -/
theorem gather_starts {cells : List (Nat × Nat)} {x : Nat × List Nat} (hx : x ∈ gather cells) :
    ∃ c ∈ cells, c.1 = x.1 := by
  induction cells with
  | nil => simp [gather] at hx
  | cons c r ih =>
    have hrest (h : x ∈ gather r) : ∃ d ∈ c :: r, d.1 = x.1 := by
      obtain ⟨d, hd, he⟩ := ih h
      exact ⟨d, List.mem_cons_of_mem _ hd, he⟩
    unfold gather at hx
    split at hx
    next b vs t hg =>
      split at hx
      · rcases List.mem_cons.1 hx with rfl | hx
        · exact ⟨c, List.mem_cons_self, rfl⟩
        · exact hrest (hg ▸ List.mem_cons_of_mem _ hx)
      · rcases List.mem_cons.1 hx with rfl | hx
        · exact ⟨c, List.mem_cons_self, rfl⟩
        · exact hrest (hg ▸ hx)
    next hg =>
      obtain rfl := List.mem_singleton.1 hx
      exact ⟨c, List.mem_cons_self, rfl⟩

/-- Bytes next to each other are written as the number that they make. -/
theorem Memory.write_cells (m : Memory) (base a : Nat) {vs : List Nat} (hv : ∀ v ∈ vs, v < 256) :
    m.write (base + a) vs.length (vs.foldr (fun b n => b + 256 * n) 0 % 2 ^ (8 * vs.length)) =
      m.setCells base (cellsFrom a vs) := by
  induction vs generalizing m a with
  | nil => rfl
  | cons v vs ih =>
    have hlt : v < 256 := hv v List.mem_cons_self
    rw [List.length_cons, Memory.write, List.foldr_cons, Nat.mul_succ, Nat.pow_add, Nat.mul_comm (2 ^ _) (2 ^ 8)]
    generalize vs.foldr (fun b n => b + 256 * n) 0 = n at ih ⊢
    have hbyte : BitVec.ofNat 8 ((v + 256 * n) % (2 ^ 8 * 2 ^ (8 * vs.length))) = BitVec.ofNat 8 v := by
      apply BitVec.eq_of_toNat_eq
      rw [BitVec.toNat_ofNat, BitVec.toNat_ofNat, Nat.mod_mul_right_mod]
      omega
    have hrest : (v + 256 * n) % (2 ^ 8 * 2 ^ (8 * vs.length)) / 256 = n % 2 ^ (8 * vs.length) := by
      rw [show (256 : Nat) = 2 ^ 8 from rfl, Nat.mod_mul_right_div_self]
      congr 1
      omega
    rw [hbyte, hrest, Nat.add_assoc, ih _ _ fun w hw => hv w (List.mem_cons_of_mem _ hw)]
    rfl

theorem Memory.setCells_wf {m : Memory} (base : Nat) (cells : List (Nat × Nat)) (h : m.wf = true) :
    (m.setCells base cells).wf = true := by
  induction cells generalizing m with
  | nil => exact h
  | cons c r ih => exact ih (Memory.set_wf _ _ h)

theorem Memory.get_setCells_other {m : Memory} {base x : Nat} {cells : List (Nat × Nat)} (h : m.wf = true)
    (hx : ∀ c ∈ cells, x ≠ base + c.1) : (m.setCells base cells).get x = m.get x := by
  induction cells generalizing m with
  | nil => rfl
  | cons c r ih =>
    refine (ih (Memory.set_wf _ _ h) fun d hd => hx d (List.mem_cons_of_mem _ hd)).trans ?_
    exact Memory.get_set_other _ (hx c List.mem_cons_self).symm h

theorem Memory.get_setCells {m : Memory} {base : Nat} {cells : List (Nat × Nat)} (h : m.wf = true)
    (hnodup : (cells.map (·.1)).Nodup) {c : Nat × Nat} (hc : c ∈ cells) :
    (m.setCells base cells).get (base + c.1) = BitVec.ofNat 8 c.2 := by
  induction cells generalizing m with
  | nil => simp at hc
  | cons d r ih =>
    obtain ⟨hout, hrest⟩ := List.nodup_cons.1 hnodup
    rcases List.mem_cons.1 hc with rfl | hc
    · refine (Memory.get_setCells_other (Memory.set_wf _ _ h) fun e he hsame => hout ?_).trans (Memory.get_set_self _ _ h)
      exact List.mem_map.2 ⟨e, he, (Nat.add_left_cancel hsame).symm⟩
    · exact ih (Memory.set_wf _ _ h) hrest hc

/-! Engine writes of a transfer -/

/-- The number that a write leaves behind, and what it can do to marks, errors and bits, where nothing is watched or armed. -/
theorem State.applyWrite_writes {s : State} {w : WriteEff} (hw : s.watches = []) (ht : s.triggers = [])
    (hauthor : w.author = none) : ∃ m l e, s.applyWrite w =
      { s with mem := s.mem.write w.addr w.n w.val, marks := m, latent := l, empty := e } := by
  have hreport (t : State) : t.reportMet w.author = t := by rw [hauthor]; rfl
  unfold State.applyWrite
  simp only [hreport, ite_self]
  cases w.fe with
  | none =>
    refine ⟨_, _, _, State.noteTrigger_serveWatches_calm ?_ ?_ _ _ _⟩
    · exact hw
    · exact ht
  | some b =>
    refine ⟨_, _, _, State.noteTrigger_serveWatches_calm ?_ ?_ _ _ _⟩
    · exact hw
    · exact ht

/-- Engine writes of cells to homes of their die that are there: the bytes are written. -/
theorem State.engineCells_land {s : State} {die base : Nat} {l : List (Nat × List Nat)} (region owner : Nat)
    (hr : s.rsvs = []) (hw : s.watches = []) (ht : s.triggers = []) (hbase : 0x4000000000 ≤ base)
    (hhome : ∀ x ∈ l, homeDie (base + x.1) = die ∧ s.homeGone (base + x.1) = false)
    (hbytes : ∀ c ∈ l.flatMap (fun x => cellsFrom x.1 x.2), c.2 < 256) :
    ∃ m e g n, l.foldl (fun u x => u.engineWrite die
        (engineWord (base + x.1) x.2.length (x.2.foldr (fun b n => b + 256 * n) 0)) none region owner) s =
      { s with mem := s.mem.setCells base (l.flatMap fun x => cellsFrom x.1 x.2)
               marks := m, latent := e, empty := g, nextId := n } := by
  induction l generalizing s with
  | nil => exact ⟨_, _, _, _, rfl⟩
  | cons x l ih =>
    obtain ⟨hdie, hgone⟩ := hhome x List.mem_cons_self
    have hvalues : ∀ v ∈ x.2, v < 256 := fun v hv => by
      obtain ⟨c, hc, rfl⟩ := cellsFrom_mem (a := x.1) hv
      exact hbytes c (List.mem_append_left _ hc)
    have hland := State.engineWrite_lands (w := engineWord (base + x.1) x.2.length (x.2.foldr (fun b n => b + 256 * n) 0)) none
      region owner (show 0x4000000000 ≤ base + x.1 by omega) hdie hgone hr
    obtain ⟨m, e, g, hwrite⟩ := State.applyWrite_writes (s := { s with nextId := s.nextId + 1 })
      (w := engineWord (base + x.1) x.2.length (x.2.foldr (fun b n => b + 256 * n) 0)) hw ht rfl
    have hcells : s.mem.write (base + x.1) x.2.length (x.2.foldr (fun b n => b + 256 * n) 0 % 2 ^ (8 * x.2.length)) =
        s.mem.setCells base (cellsFrom x.1 x.2) := Memory.write_cells s.mem base x.1 hvalues
    obtain ⟨m', e', g', n', hfold⟩ := ih (s := { s with
        mem := s.mem.setCells base (cellsFrom x.1 x.2), marks := m, latent := e, empty := g, nextId := s.nextId + 1 }) hr hw ht
      (fun y hy => hhome y (List.mem_cons_of_mem _ hy)) fun c hc => hbytes c (List.mem_append_right _ hc)
    refine ⟨m', e', g', n', ?_⟩
    rw [List.foldl_cons, hland, hwrite]
    refine (congrArg (List.foldl _ · l) ?_).trans (hfold.trans ?_)
    · rw [← hcells]
      rfl
    · simp only [Memory.setCells, List.flatMap_cons, List.foldl_append]

end Sys2Proof.Machine
end

section
/-! SUPPORT. O44: processes put back and waked among any others (R31, R45). -/

namespace Sys2Proof.Machine

/-! Processes put back -/

/-- The process in place of the one of its PID. -/
def Proc.inPlace (q k : Proc) : Proc := if k.pid = q.pid then q else k

@[simp] theorem Proc.inPlace_pid (q k : Proc) : (q.inPlace k).pid = k.pid := by
  unfold Proc.inPlace
  split
  next h => exact h.symm
  · rfl

theorem find?_inPlace (l : List Proc) (q : Proc) (n : Nat) :
    (l.map q.inPlace).find? (·.pid == n) = (l.find? (·.pid == n)).map q.inPlace := by
  have hsame : (fun k : Proc => k.pid == n) ∘ q.inPlace = fun k => k.pid == n := by
    funext k
    simp
  rw [List.find?_map, hsame]

/-- The process with a PID, off the active bank. -/
theorem State.proc?_inactive {s : State} {n : Nat} (hc : ∀ k, s.cpu = some k → k.pid ≠ n) :
    s.proc? n = s.procs.find? (·.pid == n) := by
  unfold State.proc?
  split
  next k hk => exact if_neg (hc k hk)
  · rfl

theorem State.proc?_pid {s : State} {n : Nat} {p : Proc} (h : s.proc? n = some p) : p.pid = n := by
  unfold State.proc? at h
  split at h
  · split at h
    next hn => exact Option.some.inj h ▸ hn
    · simpa using List.find?_some h
  · simpa using List.find?_some h

/-- A process off the active bank that is there is put back in its place. -/
theorem State.putProc_inactive {s : State} {p q : Proc} (hc : ∀ k, s.cpu = some k → k.pid ≠ q.pid)
    (hp : s.proc? q.pid = some p) : s.putProc q = { s with procs := s.procs.map q.inPlace } := by
  rw [State.proc?_inactive hc] at hp
  have hany : s.procs.any (·.pid == q.pid) = true :=
    List.any_eq_true.2 ⟨p, List.mem_of_find?_eq_some hp, by simpa using List.find?_some hp⟩
  have hmap : (s.procs.map fun k => if k.pid == q.pid then q else k) = s.procs.map q.inPlace :=
    List.map_congr_left fun k _ => by simp [Proc.inPlace]
  simp only [State.putProc, hany, if_true, hmap]
  split
  next k hk => exact if_neg (hc k hk)
  · rfl

/-- Putting a process back that is there changes the process of its PID alone. -/
theorem State.proc?_putProc {s : State} {p q : Proc} (hp : s.proc? q.pid = some p) (n : Nat) :
    (s.putProc q).proc? n = if n = q.pid then some q else s.proc? n := by
  by_cases hc : ∃ k, s.cpu = some k ∧ k.pid = q.pid
  · obtain ⟨k, hk, hpid⟩ := hc
    rw [State.putProc_active hk hpid.symm]
    simp only [State.proc?, hk, hpid, eq_comm (a := q.pid)]
    split <;> rfl
  · have hout : ∀ k, s.cpu = some k → k.pid ≠ q.pid := fun k hk hpid => hc ⟨k, hk, hpid⟩
    rw [State.putProc_inactive hout hp]
    by_cases hn : n = q.pid
    · subst hn
      rw [if_pos rfl, State.proc?_inactive (s := { s with procs := s.procs.map q.inPlace }) hout, find?_inPlace,
        ← State.proc?_inactive hout, hp, Option.map_some, Proc.inPlace, if_pos (State.proc?_pid hp)]
    · rw [if_neg hn]
      unfold State.proc?
      have hfind : (s.procs.map q.inPlace).find? (·.pid == n) = s.procs.find? (·.pid == n) := by
        rw [find?_inPlace]
        cases hfound : s.procs.find? (·.pid == n) with
        | none => rfl
        | some k =>
          have hk : k.pid = n := by simpa using List.find?_some hfound
          rw [Option.map_some, Proc.inPlace, if_neg (by rwa [hk])]
      simp only [hfind]

theorem State.mem_allProcs_putProc {s : State} {p q x : Proc} (hp : s.proc? q.pid = some p)
    (hx : x ∈ (s.putProc q).allProcs) : x = q ∨ x ∈ s.allProcs := by
  by_cases hc : ∃ k, s.cpu = some k ∧ k.pid = q.pid
  · obtain ⟨k, hk, hpid⟩ := hc
    rw [State.putProc_active hk hpid.symm] at hx
    rcases List.mem_cons.1 hx with rfl | hx
    · exact .inl rfl
    · exact .inr (List.mem_append_right _ hx)
  · rw [State.putProc_inactive (fun k hk hpid => hc ⟨k, hk, hpid⟩) hp] at hx
    rcases List.mem_append.1 hx with hx | hx
    · exact .inr (List.mem_append_left _ hx)
    · obtain ⟨k, hk, rfl⟩ := List.mem_map.1 hx
      unfold Proc.inPlace
      split
      · exact .inl rfl
      · exact .inr (List.mem_append_right _ hk)

/-! Waking (R31, R45) -/

/-- Nothing that a process has not lent is withdrawn. -/
theorem State.withdrawLoans_lendsNone {s : State} {pid : Nat} (h : LendsNone s pid) : s.withdrawLoans pid = s := by
  obtain ⟨hloans, hmsgs⟩ := h
  have hnone : s.allProcs.any (fun p => p.loans.any (·.lender == pid)) = false :=
    List.any_eq_false.2 fun q hq => by simpa using hloans q hq
  have hway : s.loanMsgs.any (·.lender == pid) = false := by simpa using hmsgs
  simp [State.withdrawLoans, hnone, hway]

/-- Putting a process back with its loans lends nothing. -/
theorem State.lendsNone_putProc {s : State} {p q : Proc} {n : Nat} (h : LendsNone s n) (hp : s.proc? q.pid = some p)
    (hloans : q.loans = p.loans) : LendsNone (s.putProc q) n := by
  obtain ⟨hall, hmsgs⟩ := h
  refine ⟨fun x hx => ?_, fun m hm => hmsgs m (by simpa using hm)⟩
  rcases State.mem_allProcs_putProc hp hx with rfl | hx
  · rw [hloans]
    exact hall p (State.mem_of_proc? hp)
  · exact hall x hx

/-- A waiting process that lends nothing is put back with its wait over; a halt may be asked for on its core. -/
theorem State.wake_resumes {s : State} {p : Proc} (hp : s.proc? p.pid = some p) (hb : p.isBlocked = true)
    (hl : LendsNone s p.pid) (d : Option Done) : ∃ q k, s.wake p.pid d = { s.putProc q with cores := k } ∧
      Resumes s p d q ∧ q.pid = p.pid ∧ q.core = p.core ∧ q.loans = p.loans ∧ q.wait = .none := by
  have hw := State.withdrawLoans_lendsNone hl
  unfold Proc.isBlocked at hb
  split at hb
  next r hst =>
    have hwake : s.wake p.pid d = (s.putProc (s.toTail { p with wait := .none, done := d })).urge p.core := by
      simp only [State.wake, hp, hst, hw, Option.getD_some]
    refine ⟨s.toTail { p with wait := .none, done := d }, _, hwake.trans (State.urge_cores _ _), ?_, rfl, rfl, rfl, rfl⟩
    simp only [Resumes, hst]
    rfl
  next r hst =>
    have hwake : s.wake p.pid d = s.putProc { p with st := .parked none, wait := .none, done := d, since := s.ns } := by
      simp only [State.wake, hp, hst, hw, State.modProc]
    refine ⟨{ p with st := .parked none, wait := .none, done := d, since := s.ns }, s.cores, hwake.trans ?_, ?_, rfl, rfl,
      rfl, rfl⟩
    · obtain ⟨c, l, hput⟩ := State.putProc_shape s { p with st := .parked none, wait := .none, done := d, since := s.ns }
      rw [hput]
    · simp only [Resumes, hst]
  · cases hb

end Sys2Proof.Machine
end

section
/-! SUPPORT. O44: TILE_TRANSFER_DONE (R287). -/

namespace Sys2Proof.Machine

/-! The cells of a transfer -/

/-- The bytes that a tile transfer writes, with their addresses at the receiver. -/
def State.transferCells (s : State) (u : Transfer) : List (Nat × Nat) :=
  (tilePairs (descOf u.s0 u.s1) (descOf u.r0 u.r1)).map fun x => (x.2, s.tileRead u.src x.1 1)

/-- A byte at the sender. -/
theorem State.tileRead_quiet {s : State} (hp : s.packets = []) (core a : Nat) :
    s.tileRead core a 1 = (s.mem.get (globalBase core + a)).toNat := by
  simp only [State.tileRead, Nat.mul_zero, Nat.add_zero]
  rw [tileByte_quiet (by simp [hp])]

theorem State.transferCells_lt {s : State} (hp : s.packets = []) (u : Transfer) : ∀ c ∈ s.transferCells u, c.2 < 256 := by
  intro c hc
  obtain ⟨x, -, rfl⟩ := List.mem_map.1 hc
  rw [State.tileRead_quiet hp]
  exact (s.mem.get _).isLt

/-- The die of an address in the local memory of a core. -/
theorem homeDie_local {core a : Nat} (hcore : core < 8192) (ha : a < 2 ^ 20) : homeDie (globalBase core + a) = dieOf core := by
  simp only [homeDie, globalBase, dieOf, clusOf, idxOf]
  omega

/-- The cells written: every byte of the receiver takes the sender's, the others are as they were. -/
theorem State.transferCells_copied {s : State} {u : Transfer} (hp : s.packets = []) (hwf : s.mem.wf = true)
    (hnodup : ((tilePairs (descOf u.s0 u.s1) (descOf u.r0 u.r1)).map (·.2)).Nodup) :
    (∀ x ∈ tilePairs (descOf u.s0 u.s1) (descOf u.r0 u.r1),
      (s.mem.setCells (globalBase u.dst) (s.transferCells u)).get (globalBase u.dst + x.2) =
        s.mem.get (globalBase u.src + x.1)) ∧
      ∀ a, (∀ x ∈ tilePairs (descOf u.s0 u.s1) (descOf u.r0 u.r1), a ≠ globalBase u.dst + x.2) →
        (s.mem.setCells (globalBase u.dst) (s.transferCells u)).get a = s.mem.get a := by
  have haddr : (s.transferCells u).map (·.1) = (tilePairs (descOf u.s0 u.s1) (descOf u.r0 u.r1)).map (·.2) := by
    rw [State.transferCells, List.map_map]
    rfl
  refine ⟨fun x hx => ?_, fun a ha => Memory.get_setCells_other hwf fun c hc => ?_⟩
  · have hcell : (x.2, s.tileRead u.src x.1 1) ∈ s.transferCells u := List.mem_map.2 ⟨x, hx, rfl⟩
    refine (Memory.get_setCells hwf (haddr ▸ hnodup) hcell).trans ?_
    rw [State.tileRead_quiet hp, BitVec.ofNat_toNat, BitVec.setWidth_eq]
  · obtain ⟨x, hx, rfl⟩ := List.mem_map.1 hc
    exact ha x hx

/-! The two parties -/

theorem resumes_time {s t : State} (h : t.time = s.time) (p : Proc) (d : Option Done) (q : Proc) :
    Resumes t p d q ↔ Resumes s p d q := by
  unfold Resumes
  split
  · rw [State.ns, State.ns, h]
  · exact Iff.rfl

/-- The process waits in a transfer, and lends nothing. -/
def State.Moves (s : State) (p : Proc) (id : Nat) : Prop :=
  s.proc? p.pid = some p ∧ p.isBlocked = true ∧ LendsNone s p.pid ∧ ∃ w, p.wait = .chan w ∧ w.moving = some id

/-- A party that waits in the transfer resumes, and nothing else changes but what cores are asked to do. -/
theorem State.endMove_resumes {s : State} {p : Proc} {id : Nat} (h : s.Moves p id) :
    ∃ q c l k, s.endMove p.pid id = { s with cpu := c, procs := l, cores := k } ∧ Resumes s p (some (.regs [])) q ∧
      (∀ n, (s.endMove p.pid id).proc? n = if n = p.pid then some q else s.proc? n) ∧
      ∀ n, LendsNone s n → LendsNone (s.endMove p.pid id) n := by
  obtain ⟨hp, hb, hl, w, hw, hm⟩ := h
  obtain ⟨q, k, hwake, hres, hpid, -, hloans, -⟩ := State.wake_resumes hp hb hl (some (.regs []))
  have hend : s.endMove p.pid id = { s.putProc q with cores := k } := by
    simp only [State.endMove, hp, hw, hm, if_true, hwake]
  rw [hend]
  rw [← hpid] at hp ⊢
  obtain ⟨c, l, hput⟩ := State.putProc_shape s q
  exact ⟨q, c, l, k, by rw [hput], hres, State.proc?_putProc hp, fun n hn => State.lendsNone_putProc hn hp hloans⟩

/-- The sender's bytes are engine writes that land at once. -/
theorem State.readTransfer_lands {s : State} {u : Transfer} (hdst : u.dst < 8192) (hdie : dieOf u.src = dieOf u.dst)
    (hpackets : s.packets = []) (hr : s.rsvs = []) (hw : s.watches = []) (ht : s.triggers = [])
    (hlow : ∀ x ∈ tilePairs (descOf u.s0 u.s1) (descOf u.r0 u.r1), x.2 < 2 ^ 20) (hgone : ∀ a, s.homeGone a = false) :
    ∃ m e g k, s.readTransfer u = State.endMove { s with
      mem := s.mem.setCells (globalBase u.dst) (s.transferCells u), marks := m, latent := e, empty := g, nextId := k
      transfers := s.transfers.map fun x => if x.id = u.id then { x with read := true } else x } u.tx u.id := by
  have hbase : 0x4000000000 ≤ globalBase u.dst := by
    simp only [globalBase]
    omega
  have hcells := gather_cells (s.transferCells u)
  obtain ⟨m, e, g, k, hland⟩ := State.engineCells_land (s := s) (l := gather (s.transferCells u)) (die := dieOf u.src)
    (((s.proc? u.rx).map (·.region)).getD 0) u.id hr hw ht hbase
    (fun x hx => by
      obtain ⟨c, hc, he⟩ := gather_starts hx
      obtain ⟨y, hy, rfl⟩ := List.mem_map.1 hc
      exact ⟨by rw [← he, homeDie_local hdst (hlow y hy), hdie], hgone _⟩)
    (by rw [hcells]; exact State.transferCells_lt hpackets u)
  rw [hcells] at hland
  exact ⟨m, e, g, k, congrArg (fun t : State => State.endMove { t with
    transfers := t.transfers.map fun x => if x.id = u.id then { x with read := true } else x } u.tx u.id) hland⟩

/-- A transfer that has been read leaves with the others as they were. -/
theorem filter_read (l : List Transfer) (id : Nat) :
    (l.map fun x => if x.id = id then { x with read := true } else x).filter (·.id != id) = l.filter (·.id != id) := by
  induction l with
  | nil => rfl
  | cons x l ih =>
    by_cases hx : x.id = id
    · rw [List.map_cons, if_pos hx, List.filter_cons_of_neg (by simpa using hx), List.filter_cons_of_neg (by simpa using hx),
        ih]
    · rw [List.map_cons, if_neg hx, List.filter_cons_of_pos (by simpa using hx), List.filter_cons_of_pos (by simpa using hx),
        ih]

/-- With nothing under way, every byte of a transfer has landed. -/
theorem State.landTransfer_over {t : State} (h : t.packets = []) (u : Transfer) :
    t.landTransfer u = State.endMove { t with transfers := t.transfers.filter (·.id != u.id) } u.rx u.id := by
  have hidle : t.engineBusy u.id = false := by simp [State.engineBusy, h]
  simp only [State.landTransfer, hidle, Bool.false_eq_true, if_false]

/-- TILE_TRANSFER_DONE: both parties resume, the others are as they were, and memory takes what the transfer writes. -/
theorem execTileTransferDone_ends {s : State} {p r : Proc} {u : Transfer} {b : Memory} {m e g : List Nat} {k : Nat}
    (hp : s.Moves p u.id) (hr : s.Moves r u.id) (hne : p.pid ≠ r.pid) (htx : u.tx = p.pid) (hrx : u.rx = r.pid)
    (hfind : s.transfers.find? (fun x => x.id == u.id) = some u) (hread : u.read = false) (hpackets : s.packets = [])
    (hsubj : s.subj = .id u.id) (hlands : s.readTransfer u = State.endMove { s with
      mem := b, marks := m, latent := e, empty := g, nextId := k
      transfers := s.transfers.map fun x => if x.id = u.id then { x with read := true } else x } u.tx u.id) :
    ∃ t p' r', exec .tileTransferDone s = .next t ∧ t.transfers = s.transfers.filter (·.id != u.id) ∧
      t.proc? p.pid = some p' ∧ t.proc? r.pid = some r' ∧
      (∀ n, n ≠ p.pid → n ≠ r.pid → t.proc? n = s.proc? n) ∧ Resumes s p (some (.regs [])) p' ∧
      Resumes s r (some (.regs [])) r' ∧ t.mem = b := by
  obtain ⟨p', c, l, j, hsent, hpres, hproc, hlend⟩ := State.endMove_resumes (s := { s with
    mem := b, marks := m, latent := e, empty := g, nextId := k
    transfers := s.transfers.map fun x => if x.id = u.id then { x with read := true } else x }) hp
  have hnum : Subject.num s.subj = u.id := by rw [hsubj]; rfl
  have hexec : exec .tileTransferDone s = .next ((s.readTransfer u).landTransfer u) := by
    show execTileTransferDone s = _
    simp only [execTileTransferDone, hnum, hfind, hread, Bool.false_eq_true, if_false]
  rw [htx] at hlands
  rw [← hlands] at hsent hproc hlend
  generalize s.readTransfer u = v at hsent hproc hlend hexec
  have hidle : v.packets = [] := (congrArg State.packets hsent).trans hpackets
  have hmarked : v.transfers = s.transfers.map fun x => if x.id = u.id then { x with read := true } else x :=
    congrArg State.transfers hsent
  have hmem : v.mem = b := congrArg State.mem hsent
  have htime : v.time = s.time := (congrArg State.time hsent).trans rfl
  rw [State.landTransfer_over hidle, hmarked, filter_read, hrx] at hexec
  obtain ⟨hfound, hb, hl, hw⟩ := hr
  obtain ⟨r', c', l', j', hgot, hrres, hproc', -⟩ := State.endMove_resumes
    (s := { v with transfers := s.transfers.filter (·.id != u.id) }) (p := r) (id := u.id)
    ⟨(hproc r.pid).trans ((if_neg hne.symm).trans hfound), hb, hlend _ hl, hw⟩
  refine ⟨_, p', r', hexec, congrArg State.transfers hgot, ?_, ?_, fun n hnp hnr => ?_, hpres, ?_,
    (congrArg State.mem hgot).trans hmem⟩
  · rw [hproc', if_neg hne]
    exact (hproc p.pid).trans (if_pos rfl)
  · rw [hproc', if_pos rfl]
  · rw [hproc', if_neg hnr]
    exact (hproc n).trans (if_neg hnp)
  · exact (resumes_time (t := { v with transfers := s.transfers.filter (·.id != u.id) }) htime r _ r').1 hrres

end Sys2Proof.Machine
end

section
/-! SUPPORT. O44: a channel whose parties are the last process of the list and at most one before it (R283, R287). -/

namespace Sys2Proof.Machine

/-! Processes of which the last has just blocked -/

/-- The state with nothing in the active bank and a process behind the others. -/
def State.withLast (s : State) (l : List Proc) (q : Proc) : State := { s with cpu := none, procs := l ++ [q] }

theorem State.withLast_idle (s : State) (l : List Proc) (b : Proc) (n : Nat) (k : Proc)
    (h : (s.withLast l b).cpu = some k) : k.pid ≠ n := by
  cases h

theorem map_inPlace_absent {l : List Proc} {q : Proc} (h : ∀ k ∈ l, k.pid ≠ q.pid) : l.map q.inPlace = l :=
  (List.map_congr_left fun k hk => if_neg (h k hk)).trans (List.map_id l)

section
variable {s : State} {l : List Proc} {b : Proc} (hl : ∀ k ∈ l, k.pid ≠ b.pid)

theorem State.proc?_withLast_init {n : Nat} (hn : n ≠ b.pid) : (s.withLast l b).proc? n = l.find? (·.pid == n) := by
  have hlast : (b.pid == n) = false := by simpa using hn.symm
  simp [State.proc?, State.withLast, List.find?_append, hlast]

include hl

theorem State.proc?_withLast_last : (s.withLast l b).proc? b.pid = some b := by
  have hnone : l.find? (·.pid == b.pid) = none := List.find?_eq_none.2 fun k hk => by simpa using hl k hk
  simp [State.proc?, State.withLast, List.find?_append, hnone]

theorem State.putProc_withLast_last {q : Proc} (hq : q.pid = b.pid) : (s.withLast l b).putProc q = s.withLast l q := by
  have hthere : (s.withLast l b).proc? q.pid = some b := by rw [hq, State.proc?_withLast_last hl]
  rw [State.putProc_inactive (State.withLast_idle s l b q.pid) hthere]
  have hsame : l.map q.inPlace = l := map_inPlace_absent fun k hk => hq ▸ hl k hk
  have hlast : q.inPlace b = q := if_pos hq.symm
  simp [State.withLast, hsame, hlast]

omit hl in
theorem State.putProc_withLast_init {r q : Proc} (hr : l.find? (·.pid == q.pid) = some r) (hne : q.pid ≠ b.pid) :
    (s.withLast l b).putProc q = s.withLast (l.map q.inPlace) b := by
  have hthere : (s.withLast l b).proc? q.pid = some r := (State.proc?_withLast_init hne).trans hr
  rw [State.putProc_inactive (State.withLast_idle s l b q.pid) hthere]
  have hlast : q.inPlace b = b := if_neg hne.symm
  simp [State.withLast, hlast]

end

/-! The channel put back -/

/-- A channel put back is found under its name. -/
theorem State.chan?_putChan {s : State} {c : Channel} (h : s.chan? c.table c.name = some c) :
    (s.putChan c).chan? c.table c.name = some c := by
  have hsame : (fun d : Channel => d.table == c.table && d.name == c.name) ∘
      (fun d => if d.table == c.table && d.name == c.name then c else d) =
        fun d => d.table == c.table && d.name == c.name := by
    funext d
    simp only [Function.comp_apply]
    split
    next hd => simpa using hd.symm
    · rfl
  have hfind : s.channels.find? (fun d => d.table == c.table && d.name == c.name) = some c := h
  show (s.channels.map _).find? _ = _
  rw [List.find?_map, hsame, hfind, Option.map_some]
  simp

/-! Who waits at the anchor (R283) -/

/-- The holder of an end that waits in no instruction on the channel, or in one on its other end. -/
theorem State.waiter_none {t : State} {c : Channel} {tx : Bool}
    (h : ∀ q, (c.fin tx).pid.bind t.proc? = some q → ∀ w, q.chanWait c = some w →
      tx ≠ (w.op == .send || w.op == .sendt)) : t.waiter c tx = none := by
  unfold State.waiter
  split
  · rfl
  next q hq =>
    split
    · rfl
    next w hw => exact if_neg (by simpa using h q hq w hw)

theorem State.waiter_some {t : State} {c : Channel} {tx : Bool} {q : Proc} {w : ChanWait} (hend : c.fin tx = boundTo q.pid)
    (hq : t.proc? q.pid = some q) (hw : q.chanWait c = some w) (hop : w.op = if tx then .sendt else .recvt) :
    t.waiter c tx = some (q, w) := by
  have hpid : (c.fin tx).pid = some q.pid := by rw [hend]; rfl
  have htx : (tx == (w.op == .send || w.op == .sendt)) = true := by
    rw [hop]
    cases tx <;> rfl
  simp only [State.waiter, hpid, Option.bind_some, hq, hw, htx, if_true]

theorem Proc.chanWait_some {q : Proc} {c : Channel} {w : ChanWait} (hb : q.isBlocked = true) (hw : q.wait = .chan w)
    (harr : w.arrived = true) (hm : w.moving = none) (ht : w.table = c.table) (hn : w.name = c.name) :
    q.chanWait c = some w := by
  simp [Proc.chanWait, hw, hb, harr, hm, ht, hn]

theorem Proc.chanWait_moving {q : Proc} {w : ChanWait} {id : Nat} (c : Channel) (hw : q.wait = .chan w)
    (hm : w.moving = some id) : q.chanWait c = none := by
  simp [Proc.chanWait, hw, hm]

theorem Proc.chanWait_elsewhere {q : Proc} {c : Channel} (h : waitsThere c q = false) : q.chanWait c = none := by
  unfold waitsThere at h
  unfold Proc.chanWait
  split
  next w hw =>
    rw [hw] at h
    exact if_neg (by simp_all)
  · rfl

/-! Settling -/

/-- No process waits in an alternation: none is waked. -/
theorem State.wakeAlts_none {t : State} (h : ∀ q ∈ t.procs, q.wait ≠ .alt) : t.wakeAlts = t := by
  unfold State.wakeAlts
  refine List.foldlRecOn (motive := (· = t)) t.procs _ rfl fun u hu q hq => ?_
  have hno : (q.wait == .alt) = false := by simpa using h q hq
  rw [hno, Bool.and_false]
  exact hu

/-- One event at the anchor of an open channel, after which nothing more happens there. -/
theorem State.settle_once {s t : State} {c : Channel} (hc : s.chan? c.table c.name = some c) (hdown : c.rx.down = false)
    (hone : (s.putChan c).settleOnce c = t) (ht : t.chan? c.table c.name = some c) (hfix : t.settleOnce c = t)
    (halt : ∀ q ∈ t.procs, q.wait ≠ .alt) : s.settle c.table c.name = t := by
  have hmod : s.modChan c.table c.name Channel.drop = s.putChan c := by
    simp only [State.modChan, hc, Channel.drop_open hdown]
  simp only [State.settle, hmod, State.chan?_putChan hc, hone, ht, hfix, State.wakeAlts_none halt]

/-- Nothing happens at the anchor where no party waits. -/
theorem State.settleOnce_none {t : State} {c : Channel} (htx : t.waiter c true = none) (hrx : t.waiter c false = none) :
    t.settleOnce c = t := by
  simp only [State.settleOnce, htx, hrx]

section
variable {t : State} {c : Channel} (htx : c.tx.st = .bound) (hrx : c.rx.st = .bound) (hqueue : c.queue = [])
include htx hrx hqueue

/-- One party alone waits on an open channel without buffer. -/
theorem State.settleOnce_alone (hbuf : c.buf = false) (h : t.waiter c true = none ∨ t.waiter c false = none) :
    t.settleOnce c = t := by
  rcases hs : t.waiter c true with _ | ⟨p, w⟩ <;> rcases hr : t.waiter c false with _ | ⟨q, v⟩
  · exact State.settleOnce_none hs hr
  · simp [State.settleOnce, hs, hr, htx, hrx, hqueue]
  · simp [State.settleOnce, hs, hr, htx, hrx, hbuf]
  · simp [hs, hr] at h

variable {p r : Proc} {w v : ChanWait} (hkind : c.kind = .tile) (hs : t.waiter c true = some (p, w))
  (hr : t.waiter c false = some (r, v))
include hkind hs hr

/-- Both parties wait with one shape: a transfer begins (R287). -/
theorem State.settleOnce_begins (hshape : tileShape w.dw1 = tileShape v.dw1) : t.settleOnce c =
    { (({ t with nextId := t.nextId + 1 } : State).startMove p w t.nextId).startMove r v t.nextId with
      transfers := t.transfers ++ [{ id := t.nextId, tx := p.pid, rx := r.pid, src := p.core, dst := r.core, s0 := w.dw0
                                     s1 := w.dw1, r0 := v.dw0, r1 := v.dw1 }] } := by
  simp [State.settleOnce, hs, hr, htx, hrx, hqueue, hkind, hshape, Channel.outer, End.up, State.freshId,
    State.startMove]

/-- Where the shapes differ both instructions end (R287). -/
theorem State.settleOnce_differs (hshape : tileShape w.dw1 ≠ tileShape v.dw1) :
    t.settleOnce c = (t.failWait c p w .chType 4).failWait c r v .chType 4 := by
  simp [State.settleOnce, hs, hr, htx, hrx, hqueue, hkind, hshape, Channel.outer, End.up]

end

end Sys2Proof.Machine
end

section
/-! SUPPORT. O44: the anchor of a channel and what it tells a process of its die (R283), and `sendt` and `recvt` up to their
anchor (R305, R307). -/

namespace Sys2Proof.Machine

/-! The anchor (R283) -/

theorem State.holderCore_eq (s : State) (e : End) : s.holderCore e =
    (e.pid.bind fun n => (s.proc? n).map (·.core)).bind fun c =>
      if s.diePresent (dieOf c) && !(s.die (dieOf c)).coreReset then some c else none := by
  unfold State.holderCore
  cases hpid : e.pid with
  | none => rfl
  | some n => cases hproc : s.proc? n <;> simp [hproc]

/-- The anchor depends on the cores of the processes, and on what dies there are. -/
theorem State.anchorPlace_congr {s t : State} (hcores : ∀ n, (t.proc? n).map (·.core) = (s.proc? n).map (·.core))
    (hpkg : t.pkg = s.pkg) (hdies : t.dies = s.dies) (hreclock : t.reclock = s.reclock) (c : Channel) :
    t.anchorPlace c = s.anchorPlace c := by
  have hholder (e : End) : t.holderCore e = s.holderCore e := by
    have hproc : (fun n => (t.proc? n).map (·.core)) = fun n => (s.proc? n).map (·.core) := funext hcores
    have hpresent (n : Nat) : t.diePresent n = s.diePresent n := by simp only [State.diePresent, hpkg, hreclock]
    have hdie (n : Nat) : t.die n = s.die n := by simp only [State.die, hdies]
    simp only [State.holderCore_eq, hproc, hpresent, hdie]
  simp only [State.anchorPlace, State.anchor, hholder]

/-- A process of the anchor's die learns at once that its wait is over. -/
theorem State.failWait_near {t : State} {c : Channel} {p : Proc} (w : ChanWait) (e : Cause) (d1 : Word)
    (h : placeDie (t.anchorPlace c) = dieOf p.core) :
    t.failWait c p w e d1 = t.wake p.pid (some (.cause e 0 w.handle d1)) := by
  simp only [State.failWait, State.tell, h, if_true]

/-! A process that never left RUNNING (R29) -/

/-- A fault does not depend on what the active bank holds of the process. -/
theorem State.raise_active {t : State} {q r : Proc} (hr : t.cpu = some r) (hpid : r.pid = q.pid) (c : Cause)
    (len : Option Nat) (a d0 d1 : Word) : t.raise q c len a d0 d1 = State.raise { t with cpu := some q } q c len a d0 d1 := by
  simp only [State.raise]
  rw [State.leaveRunning_active (q := q.hold _ len) hr hpid.symm,
    State.leaveRunning_active (s := { t with cpu := some q }) (q := q.hold _ len) rfl rfl]
  rfl

/-- What lending changes. -/
theorem State.lend_shape (s : State) (pid : Nat) : ∃ l n, s.lend pid = { s with loanMsgs := l, nextId := n } := by
  unfold State.lend
  split
  · exact ⟨_, _, rfl⟩
  · split
    · exact ⟨_, _, rfl⟩
    · refine List.foldlRecOn (motive := fun t : State => ∃ l n, t = { s with loanMsgs := l, nextId := n }) _ _ ?_ ?_
      · split <;> exact ⟨_, _, rfl⟩
      · rintro t ⟨l, n, rfl⟩ a -
        split <;> exact ⟨_, _, rfl⟩

/-! `sendt` and `recvt` up to the anchor (R305, R307) -/

/-- The instruction of a party of a tile channel. -/
def tileOp (tx : Bool) : ChanOp := if tx then .sendt else .recvt

/-- The handle of an end of a tile channel names it. -/
theorem parseHandle_tile {c : Channel} (hkind : c.kind = .tile) (hname : c.name < 2 ^ 24) (tx : Bool) :
    parseHandle (c.handle tx) = some ⟨c.name, tx, 1⟩ ∧ c.handle tx < 2 ^ 32 := by
  have hcode : c.kind.code = 1 := by rw [hkind]; rfl
  cases tx with
  | true =>
    have hh : c.handle true = c.name + 2 ^ 25 := by simp [Channel.handle, hcode]
    have h1 : (c.name + 2 ^ 25) / 2 ^ 25 % 8 = 1 := by omega
    have h2 : (c.name + 2 ^ 25) % 2 ^ 24 = c.name := by omega
    have h3 : (c.name + 2 ^ 25) / 2 ^ 24 % 2 = 0 := by omega
    have h4 : c.name + 2 ^ 25 < 2 ^ 28 := by omega
    rw [hh]
    simp only [parseHandle, h1, h2, h3, h4]
    exact ⟨rfl, by omega⟩
  | false =>
    have hh : c.handle false = c.name + 2 ^ 24 + 2 ^ 25 := by simp [Channel.handle, hcode]
    have h1 : (c.name + 2 ^ 24 + 2 ^ 25) / 2 ^ 25 % 8 = 1 := by omega
    have h2 : (c.name + 2 ^ 24 + 2 ^ 25) % 2 ^ 24 = c.name := by omega
    have h3 : (c.name + 2 ^ 24 + 2 ^ 25) / 2 ^ 24 % 2 = 1 := by omega
    have h4 : c.name + 2 ^ 24 + 2 ^ 25 < 2 ^ 28 := by omega
    rw [hh]
    simp only [parseHandle, h1, h2, h3, h4]
    exact ⟨rfl, by omega⟩

/-- The end that a process holds under a handle that names it. -/
theorem State.heldCheck_held {s : State} {p : Proc} {c : Channel} {h : Nat} {r : HandleRef} (hparse : parseHandle h = some r)
    (hheld : s.heldEnd p.pid r = some c) : s.heldCheck p h (some r.tx) = .ok (c, r.tx) := by
  have hwant : ¬((some r.tx).isSome = true ∧ some r.tx ≠ some r.tx) := fun h => h.2 rfl
  simp only [State.heldCheck, hparse, hheld, if_neg hwant]

theorem State.moveCheck_held {s : State} {p : Proc} {c : Channel} {h : Nat} {tx : Bool} (hkind : c.kind = .tile)
    (hown : ownEnd (c.fin tx) = none) (hcheck : s.heldCheck p h (some tx) = .ok (c, tx)) :
    s.moveCheck p h tx true 0 = .ok c := by
  have htile : ((ChKind.tile == ChKind.tile) != true) = false := rfl
  simp only [State.moveCheck, hcheck, hkind, htile, hown, Bool.not_true, Bool.false_and, Bool.false_eq_true, if_false]

section
variable {s : State} {p : Proc} {c : Channel} {a : XIdx} {tx : Bool} (hkind : c.kind = .tile) (hname : c.name < 2 ^ 24)
  (hhold : Holding s p c tx a)
include hkind hname hhold

theorem Proc.handle_tile : p.handle a = c.handle tx := by
  obtain ⟨-, hlt⟩ := parseHandle_tile hkind hname tx
  rw [Proc.handle, hhold.1, BitVec.toNat_ofNat]
  omega

/-- The checks of R305 of the holder of a bound end. -/
theorem State.moveCheck_tile : s.moveCheck p (c.handle tx) tx true 0 = .ok c := by
  obtain ⟨-, hend, hheld⟩ := hhold
  have hcode : c.kind.code = 1 := by rw [hkind]; rfl
  exact State.moveCheck_held hkind (by rw [hend]; rfl)
    (State.heldCheck_held (parseHandle_tile hkind hname tx).1 (hcode ▸ hheld))

/-- The wait of `sendt` and `recvt` with their descriptor pair. -/
def tileWait (tx : Bool) (c : Channel) (dw0 dw1 : Word) : ChanWait :=
  { chanWait (tileOp tx) c (c.handle tx) with dw0 := dw0, dw1 := dw1 }

/-- A `sendt` or `recvt` that passes its checks, with nothing of the process under way, sets out for the anchor. -/
theorem exec_tileMove (b : XIdx) (hcpu : s.cpu = some p) (hidle : ∀ q ∈ s.packets, q.pid ≠ p.pid)
    (hdesc : s.tileChanFault p b (if tx then .rd else .wr) = none) :
    exec (if tx then .sendt a b else .recvt a b) s =
      s.toAnchor p c (tileWait tx c (p.getX b) (p.getX (b + 1))) (!tx) := by
  have hmove := State.moveCheck_tile hkind hname hhold
  have hhandle := Proc.handle_tile hkind hname hhold
  have hpending : s.pending p.pid = false := List.any_eq_false.2 fun q hq => by simp [hidle q hq]
  cases tx with
  | true =>
    refine (withProc_some hcpu _).trans ?_
    have htx : (ChanOp.sendt == ChanOp.sendt) = true := rfl
    have hd : s.tileChanFault p b .rd = none := hdesc
    simp only [hhandle, htx, hmove, if_true, hd, hpending, Bool.and_false, Bool.false_eq_true, if_false]
    rfl
  | false =>
    refine (withProc_some hcpu _).trans ?_
    have htx : (ChanOp.recvt == ChanOp.sendt) = false := rfl
    have hd : s.tileChanFault p b .wr = none := hdesc
    simp only [hhandle, htx, hmove, hd, Bool.false_and, Bool.false_eq_true, if_false]
    rfl

end

end Sys2Proof.Machine
end

section
/-! SUPPORT. O44: the parties at the anchor of a tile channel (R283, R287), and the statement. -/

namespace Sys2Proof.Machine

/-! Two parties put back -/

theorem find?_inPlace_other {l : List Proc} {q r : Proc} {n : Nat} (h : l.find? (·.pid == n) = some r) (hq : q.pid = n) :
    (l.map q.inPlace).find? (·.pid == n) = some q := by
  have hr : r.pid = n := by simpa using List.find?_some h
  rw [find?_inPlace, h, Option.map_some, Proc.inPlace, if_pos (hr.trans hq.symm)]

theorem mem_map_inPlace {l : List Proc} {q x : Proc} (hx : x ∈ l.map q.inPlace) : x = q ∨ x ∈ l := by
  obtain ⟨k, hk, rfl⟩ := List.mem_map.1 hx
  unfold Proc.inPlace
  split
  · exact .inl rfl
  · exact .inr hk

theorem inPlace_absent {l : List Proc} {q : Proc} {n : Nat} (hl : ∀ k ∈ l, k.pid ≠ n) :
    ∀ k ∈ l.map q.inPlace, k.pid ≠ n := by
  intro k hk
  obtain ⟨x, hx, rfl⟩ := List.mem_map.1 hk
  rw [Proc.inPlace_pid]
  exact hl x hx

/-- The last process and one before it are put back, in either order. -/
theorem State.putProc_both {s : State} {l : List Proc} {b q r x : Proc} (hl : ∀ k ∈ l, k.pid ≠ b.pid)
    (hq : q.pid = b.pid) (hr : l.find? (·.pid == x.pid) = some r) (hne : x.pid ≠ b.pid) :
    ((s.withLast l b).putProc q).putProc x = s.withLast (l.map x.inPlace) q ∧
      ((s.withLast l b).putProc x).putProc q = s.withLast (l.map x.inPlace) q := by
  constructor
  · rw [State.putProc_withLast_last hl hq, State.putProc_withLast_init hr (hq ▸ hne)]
  · rw [State.putProc_withLast_init hr hne, State.putProc_withLast_last (inPlace_absent hl) hq]

theorem State.putProc_cores (s : State) (k : List Core) (q : Proc) :
    State.putProc { s with cores := k } q = { s.putProc q with cores := k } := by
  simp only [State.putProc]
  split
  · split
    · rfl
    · split <;> rfl
  · split <;> rfl

theorem State.startMove_eq {t : State} {q : Proc} (h : t.proc? q.pid = some q) (w : ChanWait) (id : Nat) :
    t.startMove q w id = t.putProc { q with wait := .chan { w with moving := some id } } := by
  simp only [State.startMove, State.modProc, h]

/-! Instructions that end with a cause at an anchor of their die -/

theorem State.anchorPlace_putProc {t : State} {p q : Proc} (hp : t.proc? q.pid = some p) (hcore : q.core = p.core)
    (c : Channel) : (t.putProc q).anchorPlace c = t.anchorPlace c := by
  obtain ⟨v, l, hput⟩ := State.putProc_shape t q
  refine State.anchorPlace_congr (fun n => ?_) (by rw [hput]) (by rw [hput]) (by rw [hput]) c
  rw [State.proc?_putProc hp]
  split
  next hn => rw [hn, hp, Option.map_some, Option.map_some, hcore]
  · rfl

/-- Two parties on the anchor's die end with a cause, in turn. -/
theorem State.failWait_both {t : State} {c : Channel} {p r : Proc} (w v : ChanWait) (e : Cause) (d1 : Word)
    (hp : t.proc? p.pid = some p) (hr : t.proc? r.pid = some r) (hne : r.pid ≠ p.pid) (hpb : p.isBlocked = true)
    (hrb : r.isBlocked = true) (hpl : LendsNone t p.pid) (hrl : LendsNone t r.pid)
    (hpd : placeDie (t.anchorPlace c) = dieOf p.core) (hrd : placeDie (t.anchorPlace c) = dieOf r.core) :
    ∃ q x k, (t.failWait c p w e d1).failWait c r v e d1 = { (t.putProc q).putProc x with cores := k } ∧
      Resumes t p (some (.cause e 0 w.handle d1)) q ∧ Resumes t r (some (.cause e 0 v.handle d1)) x ∧
      q.pid = p.pid ∧ x.pid = r.pid ∧ q.wait = .none ∧ x.wait = .none := by
  obtain ⟨q, k, hwake, hres, hpid, hcore, hloans, hwait⟩ := State.wake_resumes hp hpb hpl (some (.cause e 0 w.handle d1))
  have hq : t.proc? q.pid = some p := hpid ▸ hp
  have hr' : State.proc? { t.putProc q with cores := k } r.pid = some r :=
    (State.proc?_putProc hq r.pid).trans ((if_neg (hpid ▸ hne)).trans hr)
  have hrl' : LendsNone { t.putProc q with cores := k } r.pid := State.lendsNone_putProc hrl hq hloans
  have hrd' : placeDie (State.anchorPlace { t.putProc q with cores := k } c) = dieOf r.core := by
    rw [← hrd, ← State.anchorPlace_putProc hq hcore c]
    rfl
  obtain ⟨x, j, hwake', hres', hpid', -, -, hwait'⟩ := State.wake_resumes hr' hrb hrl' (some (.cause e 0 v.handle d1))
  refine ⟨q, x, j, ?_, hres, (resumes_time ?_ r _ x).1 hres', hpid, hpid', hwait, hwait'⟩
  · rw [State.failWait_near w e d1 hpd, hwake, State.failWait_near v e d1 hrd', hwake', State.putProc_cores]
  · obtain ⟨v0, l, hput⟩ := State.putProc_shape t q
    rw [hput]

/-- The process RUNNING again, as it was before it blocked, with what its wait left. -/
def Proc.backFrom (p q : Proc) : Proc :=
  { q with st := .running, key := p.key, quantum := p.quantum, blockNo := p.blockNo, lastRun := p.lastRun, wait := .none }

/-- The process whose instruction ended at once with a cause is RUNNING again, and raises it (R29, R31). -/
theorem State.keepRunning_fails {s : State} {l : List Proc} {p q : Proc} {e : Cause} {a d0 d1 : Word} (acq : Bool)
    (hl : ∀ k ∈ l, k.pid ≠ p.pid) (hq : q.pid = p.pid) (hdone : q.done = some (.cause e a d0 d1)) :
    ∃ k, (s.withLast l q).keepRunning p q acq =
      (State.raise { s with cpu := some { p.backFrom q with done := none }, procs := l, cores := k }
        { p.backFrom q with done := none } e (some 4) a d0 d1).urge p.core := by
  have hfilter : (l ++ [q]).filter (·.pid != p.pid) = l := by
    have hall : l.filter (·.pid != p.pid) = l := List.filter_eq_self.2 fun k hk => by simpa using hl k hk
    rw [List.filter_append, hall, List.filter_cons_of_neg (by simpa using hq), List.filter_nil, List.append_nil]
  have hcores (t : State) : ∃ k, (if acq then t.clearEarly p.core else t) = { t with cores := k } := by
    cases acq with
    | true => exact State.clearEarly_shape t p.core
    | false => exact ⟨t.cores, rfl⟩
  obtain ⟨k, hk⟩ := hcores { s with cpu := some (p.backFrom q), procs := l }
  have hback : (p.backFrom q).done = some (.cause e a d0 d1) := hdone
  have hfinish (t : State) : t.finishWait (p.backFrom q) = t.raise { p.backFrom q with done := none } e (some 4) a d0 d1 := by
    simp only [State.finishWait, hback]
  refine ⟨k, ?_⟩
  show State.urge (State.finishWait (if acq then State.clearEarly { s with
    cpu := some (p.backFrom q), procs := (l ++ [q]).filter (·.pid != p.pid) } p.core else { s with
    cpu := some (p.backFrom q), procs := (l ++ [q]).filter (·.pid != p.pid) }) (p.backFrom q)) p.core = _
  rw [hfilter, hk, hfinish]
  exact congrArg (State.urge · p.core)
    (State.raise_active (r := p.backFrom q) (q := { p.backFrom q with done := none }) rfl rfl e (some 4) a d0 d1)

end Sys2Proof.Machine
end

section
/-! SUPPORT. O44: `sendt` and `recvt` at the anchor of the own core (R287, R307), and the statement. -/

namespace Sys2Proof.Machine

/-! At the anchor of the own core (R283) -/

section
variable {s t : State} {p q : Proc} {c : Channel} {w : ChanWait} (acq : Bool) (hcpu : s.cpu = some p)
  (hanchor : s.anchorPlace c = p.core)
  (hset : (s.withLast s.procs (blockedAs s p .channel (.chan { w with arrived := true }))).settle c.table c.name = t)
  (hq : t.proc? p.pid = some q)
include hcpu hanchor hset hq

theorem State.toAnchor_waits (hst : q.st ≠ .ready) : s.toAnchor p c w acq = .next (t.lend p.pid) := by
  have hblock : s.block p .channel (.chan { w with arrived := true }) =
      s.withLast s.procs (blockedAs s p .channel (.chan { w with arrived := true })) := State.leaveRunning_active hcpu rfl
  simp only [State.toAnchor, hanchor, if_true, hblock, hset, hq, hst, false_and, if_false]

theorem State.toAnchor_ends (hst : q.st = .ready) (hdone : q.done.isSome = true) :
    s.toAnchor p c w acq = .next (t.keepRunning p q acq) := by
  have hblock : s.block p .channel (.chan { w with arrived := true }) =
      s.withLast s.procs (blockedAs s p .channel (.chan { w with arrived := true })) := State.leaveRunning_active hcpu rfl
  simp only [State.toAnchor, hanchor, if_true, hblock, hset, hq, hst, hdone, and_self]

end

/-- The process blocked at the anchor in `sendt` or `recvt`. -/
def tileParty (s : State) (p : Proc) (tx : Bool) (c : Channel) (dw0 dw1 : Word) : Proc :=
  blockedAs s p .channel (.chan { tileWait tx c dw0 dw1 with arrived := true })

/-- The holder of an end that waits in no instruction at the anchor. -/
theorem State.waiter_idle {t : State} {c : Channel} {tx : Bool} {q : Proc} (hend : c.fin tx = boundTo q.pid)
    (hq : t.proc? q.pid = some q) (hidle : q.chanWait c = none) : t.waiter c tx = none := by
  refine State.waiter_none fun x hx w hw => ?_
  have hpid : (c.fin tx).pid = some q.pid := by rw [hend]; rfl
  rw [hpid, Option.bind_some, hq] at hx
  obtain rfl := Option.some.inj hx
  rw [hidle] at hw
  cases hw

/-- Both ends are idle: nothing happens at the anchor. -/
theorem State.settleOnce_idle {t : State} {c : Channel} {tx : Bool} {q x : Proc} (hend : c.fin tx = boundTo q.pid)
    (hother : c.fin (!tx) = boundTo x.pid) (hq : t.proc? q.pid = some q) (hx : t.proc? x.pid = some x)
    (hqidle : q.chanWait c = none) (hxidle : x.chanWait c = none) : t.settleOnce c = t := by
  have h1 := State.waiter_idle hend hq hqidle
  have h2 := State.waiter_idle hother hx hxidle
  cases tx with
  | true => exact State.settleOnce_none h1 h2
  | false => exact State.settleOnce_none h2 h1

theorem tileOp_sends (tx : Bool) : (tileOp tx == .send || tileOp tx == .sendt) = tx := by
  cases tx <;> rfl

section
variable {s : State} {p : Proc} {c : Channel} {a : XIdx} {tx : Bool} (hon : OnChannel s p c) (hhold : Holding s p c tx a)
  (dw0 dw1 : Word)
include hon hhold

/-- The process waits at its end of the channel. -/
theorem State.waiter_tileParty :
    ((s.putChan c).withLast s.procs (tileParty s p tx c dw0 dw1)).waiter c tx =
      some (tileParty s p tx c dw0 dw1, { tileWait tx c dw0 dw1 with arrived := true }) := by
  obtain ⟨-, -, -, -, -, habs, -⟩ := hon
  exact State.waiter_some hhold.2.1 (State.proc?_withLast_last habs) (Proc.chanWait_some rfl rfl rfl rfl rfl rfl) rfl

omit hon hhold in
/-- Without a partner nobody waits at the other end. -/
theorem State.waiter_alone (hun : Uninvolved s c []) :
    ((s.putChan c).withLast s.procs (tileParty s p tx c dw0 dw1)).waiter c (!tx) = none := by
  refine State.waiter_none fun q hq w hw => ?_
  obtain ⟨n, -, hfind⟩ := Option.bind_eq_some_iff.1 hq
  rcases List.mem_append.1 (State.mem_of_proc? hfind) with hmem | hmem
  · cases hmem
  rcases List.mem_append.1 hmem with hmem | hmem
  · obtain ⟨-, hmem' | haway⟩ := hun q hmem
    · cases hmem'
    · rw [Proc.chanWait_elsewhere haway] at hw
      cases hw
  · obtain rfl := List.mem_singleton.1 hmem
    have hsame : ({ tileWait tx c dw0 dw1 with arrived := true } : ChanWait) = w :=
      Option.some.inj ((Proc.chanWait_some rfl rfl rfl rfl rfl rfl).symm.trans hw)
    subst hsame
    show (!tx) ≠ (tileOp tx == .send || tileOp tx == .sendt)
    rw [tileOp_sends]
    exact Bool.not_ne_self tx

omit hon in
/-- Both ends are bound. -/
theorem Channel.bound_of_holding (hother : (c.fin (!tx)).st = .bound) : c.tx.st = .bound ∧ c.rx.st = .bound := by
  have hown : (c.fin tx).st = .bound := by rw [hhold.2.1]; rfl
  cases tx with
  | true => exact ⟨hown, hother⟩
  | false => exact ⟨hother, hown⟩

/-- Without a partner nothing more happens at the anchor. -/
theorem State.settle_alone (hqueue : c.queue = []) (hbuf : c.buf = false) (hother : (c.fin (!tx)).st = .bound)
    (hun : Uninvolved s c []) : (s.withLast s.procs (tileParty s p tx c dw0 dw1)).settle c.table c.name =
      (s.putChan c).withLast s.procs (tileParty s p tx c dw0 dw1) := by
  obtain ⟨htx, hrx⟩ := Channel.bound_of_holding hhold hother
  have hnone := State.waiter_alone (p := p) (tx := tx) dw0 dw1 hun
  obtain ⟨-, -, -, -, -, habs, hchan, -⟩ := hon
  have hfix : ((s.putChan c).withLast s.procs (tileParty s p tx c dw0 dw1)).settleOnce c =
      (s.putChan c).withLast s.procs (tileParty s p tx c dw0 dw1) := by
    cases tx with
    | true => exact State.settleOnce_alone htx hrx hqueue hbuf (.inr hnone)
    | false => exact State.settleOnce_alone htx hrx hqueue hbuf (.inl hnone)
  refine State.settle_once hchan (by simp [End.down, hrx]) hfix (State.chan?_putChan hchan) hfix fun q hq => ?_
  rcases List.mem_append.1 hq with hq | hq
  · exact (hun q hq).1
  · obtain rfl := List.mem_singleton.1 hq
    exact nofun

variable {r : Proc} {w : ChanWait} (hother : c.fin (!tx) = boundTo r.pid)
  (hwaits : WaitsAt s r c w (if tx then .recvt else .sendt)) (hne : r.pid ≠ p.pid)
include hother hwaits hne

omit hhold hother in
/-- The partner stands before the process that has blocked. -/
theorem State.partner_found : s.procs.find? (·.pid == r.pid) = some r := by
  obtain ⟨hcpu, -⟩ := hon
  obtain ⟨hr, -⟩ := hwaits
  rwa [State.proc?_inactive (fun k hk => by rw [hcpu] at hk; exact Option.some.inj hk ▸ hne.symm)] at hr

/-- The partner waits at the other end. -/
theorem State.waiter_partner :
    ((s.putChan c).withLast s.procs (tileParty s p tx c dw0 dw1)).waiter c (!tx) = some (r, w) := by
  have hfound := State.partner_found hon hwaits hne
  obtain ⟨-, hb, hw, hop, harr, hm, ht, hn, -⟩ := hwaits
  refine State.waiter_some hother
    ((State.proc?_withLast_init (b := tileParty s p tx c dw0 dw1) hne).trans hfound)
    (Proc.chanWait_some hb hw harr hm ht hn) ?_
  rw [hop]
  cases tx <;> rfl

/-- Both parties put back, each waiting in nothing at the anchor: it is settled. -/
theorem State.settle_parties (hun : Uninvolved s c [r.pid]) {u : State} {q x : Proc}
    (hone : ((s.putChan c).withLast s.procs (tileParty s p tx c dw0 dw1)).settleOnce c = u.withLast (s.procs.map x.inPlace) q)
    (hchan : u.chan? c.table c.name = some c)
    (hq : q.pid = p.pid) (hx : x.pid = r.pid) (hqidle : q.chanWait c = none) (hxidle : x.chanWait c = none)
    (hqalt : q.wait ≠ .alt) (hxalt : x.wait ≠ .alt) :
    (s.withLast s.procs (tileParty s p tx c dw0 dw1)).settle c.table c.name = u.withLast (s.procs.map x.inPlace) q := by
  have hbound : (c.fin (!tx)).st = .bound := by rw [hother]; rfl
  obtain ⟨-, hrx⟩ := Channel.bound_of_holding hhold hbound
  have hfound := State.partner_found hon hwaits hne
  obtain ⟨-, -, -, -, -, habs, hthere, -⟩ := hon
  have habsent : ∀ k ∈ s.procs.map x.inPlace, k.pid ≠ q.pid := inPlace_absent (hq ▸ habs)
  have hxfound : (u.withLast (s.procs.map x.inPlace) q).proc? x.pid = some x :=
    (State.proc?_withLast_init (by rw [hx, hq]; exact hne)).trans (find?_inPlace_other (hx ▸ hfound) rfl)
  refine State.settle_once hthere (by simp [End.down, hrx]) hone hchan ?_ fun k hk => ?_
  · exact State.settleOnce_idle (hq ▸ hhold.2.1) (hx ▸ hother) (State.proc?_withLast_last habsent) hxfound hqidle hxidle
  · rcases List.mem_append.1 hk with hk | hk
    · rcases mem_map_inPlace hk with rfl | hk
      · exact hxalt
      · exact (hun k hk).1
    · obtain rfl := List.mem_singleton.1 hk
      exact hqalt

end

end Sys2Proof.Machine
end

section
/-! SUPPORT. O44: what the two parties of a tile channel do at its anchor (R287), and the statement. -/

namespace Sys2Proof.Machine

/-! The process that has just blocked -/

/-- What a process has lent is what it lent before it blocked. -/
theorem State.lendsNone_blocked {s u : State} {p b : Proc} {n : Nat} (hcpu : s.cpu = some p) (hb : b.loans = p.loans)
    (hmsgs : u.loanMsgs = s.loanMsgs) (h : LendsNone s n) : LendsNone (u.withLast s.procs b) n := by
  obtain ⟨hall, hway⟩ := h
  rw [State.allProcs_active hcpu] at hall
  refine ⟨fun x hx => ?_, fun m hm => hway m (hmsgs ▸ hm)⟩
  rcases List.mem_append.1 hx with hx | hx
  · cases hx
  rcases List.mem_append.1 hx with hx | hx
  · exact hall x (List.mem_cons_of_mem _ hx)
  · obtain rfl := List.mem_singleton.1 hx
    rw [hb]
    exact hall p List.mem_cons_self

/-- A process that has blocked moves no anchor. -/
theorem State.anchorPlace_blocked {s u : State} {p b : Proc} (hcpu : s.cpu = some p)
    (habs : ∀ k ∈ s.procs, k.pid ≠ p.pid) (hpid : b.pid = p.pid) (hcore : b.core = p.core) (hpkg : u.pkg = s.pkg)
    (hdies : u.dies = s.dies) (hreclock : u.reclock = s.reclock) (c : Channel) :
    (u.withLast s.procs b).anchorPlace c = s.anchorPlace c := by
  refine State.anchorPlace_congr (t := u.withLast s.procs b) (fun n => ?_) hpkg hdies hreclock c
  by_cases hn : n = p.pid
  · have hlast := State.proc?_withLast_last (s := u) (b := b) (hpid ▸ habs)
    rw [hpid, ← hn] at hlast
    rw [hlast, hn, State.proc?_active hcpu, Option.map_some, Option.map_some, hcore]
  · rw [State.proc?_withLast_init (hpid ▸ hn),
      State.proc?_inactive fun k hk => by rw [hcpu] at hk; exact Option.some.inj hk ▸ Ne.symm hn]

theorem placeDie_core {s : State} {n : Nat} (h : s.coreTakes n = true) : placeDie n = dieOf n := by
  simp only [State.coreTakes, State.corePresent, Bool.and_eq_true, decide_eq_true_eq] at h
  exact if_pos h.1.1

/-- Two parties that begin a transfer are put back in turn. -/
theorem State.startMove_both {t : State} {q x : Proc} (hq : t.proc? q.pid = some q) (hx : t.proc? x.pid = some x)
    (hne : x.pid ≠ q.pid) (w v : ChanWait) (id : Nat) : (t.startMove q w id).startMove x v id =
      (t.putProc { q with wait := .chan { w with moving := some id } }).putProc
        { x with wait := .chan { v with moving := some id } } := by
  have hput : (t.putProc { q with wait := .chan { w with moving := some id } }).proc? x.pid = some x :=
    (State.proc?_putProc (q := { q with wait := .chan { w with moving := some id } }) hq _).trans ((if_neg hne).trans hx)
  rw [State.startMove_eq hq, State.startMove_eq hput]

section
variable {s : State} {p r : Proc} {c : Channel} {w : ChanWait} {a : XIdx} {tx : Bool} (hon : OnChannel s p c)
  (hkind : c.kind = .tile) (hhold : Holding s p c tx a) (hqueue : c.queue = []) (dw0 dw1 : Word)
  (hother : c.fin (!tx) = boundTo r.pid) (hwaits : WaitsAt s r c w (if tx then .recvt else .sendt)) (hne : r.pid ≠ p.pid)
include hon hkind hhold hqueue hother hwaits hne

/-- The transfer of the two parties. -/
def transferOf (id : Nat) (p r : Proc) (tx : Bool) (dw0 dw1 : Word) (w : ChanWait) : Transfer :=
  if tx then
    { id := id, tx := p.pid, rx := r.pid, src := p.core, dst := r.core, s0 := dw0, s1 := dw1, r0 := w.dw0, r1 := w.dw1 }
  else
    { id := id, tx := r.pid, rx := p.pid, src := r.core, dst := p.core, s0 := w.dw0, s1 := w.dw1, r0 := dw0, r1 := dw1 }

/-- With one shape both parties begin the transfer. -/
theorem State.settleOnce_transfers (hshape : tileShape dw1 = tileShape w.dw1) :
    ((s.putChan c).withLast s.procs (tileParty s p tx c dw0 dw1)).settleOnce c =
      ({ s.putChan c with nextId := s.nextId + 1
                          transfers := s.transfers ++ [transferOf s.nextId p r tx dw0 dw1 w] } : State).withLast
        (s.procs.map ({ r with wait := .chan { w with moving := some s.nextId } } : Proc).inPlace)
        (blockedAs s p .channel (.chan { tileWait tx c dw0 dw1 with arrived := true, moving := some s.nextId })) := by
  have hbound : (c.fin (!tx)).st = .bound := by rw [hother]; rfl
  obtain ⟨htx, hrx⟩ := Channel.bound_of_holding hhold hbound
  have hfound := State.partner_found hon hwaits hne
  have hown := State.waiter_tileParty hon hhold dw0 dw1
  have hthere := State.waiter_partner hon hhold dw0 dw1 hother hwaits hne
  obtain ⟨-, -, -, -, -, habs, -⟩ := hon
  obtain ⟨hfirst, hsecond⟩ := State.putProc_both (s := { s.putChan c with nextId := s.nextId + 1 }) (l := s.procs)
    (b := tileParty s p tx c dw0 dw1) (x := { r with wait := .chan { w with moving := some s.nextId } })
    (q := blockedAs s p .channel (.chan { tileWait tx c dw0 dw1 with arrived := true, moving := some s.nextId }))
    habs rfl hfound hne
  have hlast : (({ s.putChan c with nextId := s.nextId + 1 } : State).withLast s.procs (tileParty s p tx c dw0 dw1)).proc?
      p.pid = some (tileParty s p tx c dw0 dw1) := State.proc?_withLast_last habs
  have hinit : (({ s.putChan c with nextId := s.nextId + 1 } : State).withLast s.procs (tileParty s p tx c dw0 dw1)).proc?
      r.pid = some r := (State.proc?_withLast_init (b := tileParty s p tx c dw0 dw1) hne).trans hfound
  cases tx with
  | true =>
    rw [State.settleOnce_begins htx hrx hqueue hkind hown hthere hshape]
    exact congrArg (fun t : State => { t with transfers := s.transfers ++ [transferOf s.nextId p r true dw0 dw1 w] })
      ((State.startMove_both (q := tileParty s p true c dw0 dw1) hlast hinit hne
        { tileWait true c dw0 dw1 with arrived := true } w s.nextId).trans hfirst)
  | false =>
    rw [State.settleOnce_begins htx hrx hqueue hkind hthere hown hshape.symm]
    exact congrArg (fun t : State => { t with transfers := s.transfers ++ [transferOf s.nextId p r false dw0 dw1 w] })
      ((State.startMove_both (x := tileParty s p false c dw0 dw1) hinit hlast hne.symm w
        { tileWait false c dw0 dw1 with arrived := true } s.nextId).trans hsecond)

/-- With different shapes both instructions end with CH_TYPE 4. -/
theorem State.settleOnce_mismatch (hrd : dieOf r.core = dieOf p.core) (hshape : tileShape dw1 ≠ tileShape w.dw1) :
    ∃ q x k, ((s.putChan c).withLast s.procs (tileParty s p tx c dw0 dw1)).settleOnce c =
      ({ s.putChan c with cores := k } : State).withLast (s.procs.map x.inPlace) q ∧
      Resumes s (tileParty s p tx c dw0 dw1) (some (.cause .chType 0 (BitVec.ofNat 64 (c.handle tx)) 4)) q ∧
      Resumes s r (some (.cause .chType 0 w.handle 4)) x ∧ q.pid = p.pid ∧ x.pid = r.pid ∧
      q.wait = .none ∧ x.wait = .none := by
  have hbound : (c.fin (!tx)).st = .bound := by rw [hother]; rfl
  obtain ⟨htx, hrx⟩ := Channel.bound_of_holding hhold hbound
  have hfound := State.partner_found hon hwaits hne
  have hown := State.waiter_tileParty hon hhold dw0 dw1
  have hthere := State.waiter_partner hon hhold dw0 dw1 hother hwaits hne
  obtain ⟨hcpu, -, -, hpl, -, habs, -, hanchor, htakes, -⟩ := hon
  obtain ⟨-, hrb, -, -, -, -, -, -, hrl⟩ := hwaits
  have hlast : ((s.putChan c).withLast s.procs (tileParty s p tx c dw0 dw1)).proc? p.pid =
      some (tileParty s p tx c dw0 dw1) := State.proc?_withLast_last habs
  have hinit : ((s.putChan c).withLast s.procs (tileParty s p tx c dw0 dw1)).proc? r.pid = some r :=
    (State.proc?_withLast_init (b := tileParty s p tx c dw0 dw1) hne).trans hfound
  have hdie : placeDie (((s.putChan c).withLast s.procs (tileParty s p tx c dw0 dw1)).anchorPlace c) = dieOf p.core := by
    rw [State.anchorPlace_blocked (u := s.putChan c) (b := tileParty s p tx c dw0 dw1) hcpu habs rfl rfl rfl rfl rfl, hanchor,
      placeDie_core htakes]
  have hpl' : LendsNone ((s.putChan c).withLast s.procs (tileParty s p tx c dw0 dw1)) p.pid :=
    State.lendsNone_blocked hcpu rfl rfl hpl
  have hrl' : LendsNone ((s.putChan c).withLast s.procs (tileParty s p tx c dw0 dw1)) r.pid :=
    State.lendsNone_blocked hcpu rfl rfl hrl
  cases tx with
  | true =>
    obtain ⟨q, x, k, heq, hq, hx, hqpid, hxpid, hqwait, hxwait⟩ := State.failWait_both (p := tileParty s p true c dw0 dw1)
      { tileWait true c dw0 dw1 with arrived := true } w .chType 4 hlast hinit hne rfl hrb hpl' hrl' hdie (hdie.trans hrd.symm)
    rw [State.settleOnce_differs htx hrx hqueue hkind hown hthere hshape]
    refine ⟨q, x, k, heq.trans ?_, hq, hx, hqpid, hxpid, hqwait, hxwait⟩
    rw [(State.putProc_both (b := tileParty s p true c dw0 dw1) habs hqpid (hxpid ▸ hfound) (hxpid ▸ hne)).1]
    rfl
  | false =>
    obtain ⟨x, q, k, heq, hx, hq, hxpid, hqpid, hxwait, hqwait⟩ := State.failWait_both (r := tileParty s p false c dw0 dw1)
      w { tileWait false c dw0 dw1 with arrived := true } .chType 4 hinit hlast hne.symm hrb rfl hrl' hpl'
      (hdie.trans hrd.symm) hdie
    rw [State.settleOnce_differs htx hrx hqueue hkind hthere hown hshape.symm]
    refine ⟨q, x, k, heq.trans ?_, hq, hx, hqpid, hxpid, hqwait, hxwait⟩
    rw [(State.putProc_both (b := tileParty s p false c dw0 dw1) habs hqpid (hxpid ▸ hfound) (hxpid ▸ hne)).2]
    rfl

end

end Sys2Proof.Machine
end

section
/-! SUPPORT. O44: the outcomes of `sendt` and `recvt`, and the statement. -/

namespace Sys2Proof.Machine

/-- A process that blocked and was waked at once is as it was, but for the record of its waiting. -/
theorem backFrom_woken {s : State} {p q : Proc} {r : Reason} {w : Wait} {d : Option Done} (h : Woken (blockedAs s p r w) d q)
    (hst : p.st = .running) (hdone : p.done = none) : ({ p.backFrom q with done := none } : Proc) =
      { p with wait := .none, since := s.ns, probes := 0, reported := false } := by
  obtain ⟨k, n, rfl⟩ : ∃ k n, q = { blockedAs s p r w with
    st := .ready, wait := .none, done := d, key := k, quantum := n } := ⟨_, _, h⟩
  show ({ p with st := .running, wait := .none, done := none, since := s.ns, probes := 0, reported := false } : Proc) = _
  rw [← hst, ← hdone]

/-- The channel is there. -/
theorem State.chan?_onChannel {s : State} {p : Proc} {c : Channel} (h : OnChannel s p c) :
    s.chan? c.table c.name = some c := by
  obtain ⟨-, -, -, -, -, -, hchan, -⟩ := h
  exact hchan

section
variable {s : State} {p r : Proc} {c : Channel} {w : ChanWait} {a b : XIdx} {tx : Bool} (hon : OnChannel s p c)
  (hkind : c.kind = .tile) (hhold : Holding s p c tx a) (hqueue : c.queue = [])
  (hdesc : s.tileChanFault p b (if tx then .rd else .wr) = none)
include hon hkind hhold hqueue hdesc

/-- Without a partner the process blocks. -/
theorem exec_tileMove_blocks (hbuf : c.buf = false) (hother : (c.fin (!tx)).st = .bound) (hun : Uninvolved s c []) :
    exec (if tx then .sendt a b else .recvt a b) s =
      .next (((s.putChan c).withLast s.procs (tileParty s p tx c (p.getX b) (p.getX (b + 1)))).lend p.pid) := by
  have hsettle := State.settle_alone hon hhold (p.getX b) (p.getX (b + 1)) hqueue hbuf hother hun
  obtain ⟨hcpu, -, -, -, -, habs, -, hanchor, -, -, hidle, hname, -⟩ := hon
  rw [exec_tileMove hkind hname hhold b hcpu hidle hdesc]
  exact State.toAnchor_waits _ hcpu hanchor hsettle
    (State.proc?_withLast_last (b := tileParty s p tx c (p.getX b) (p.getX (b + 1))) habs) nofun

variable (hother : c.fin (!tx) = boundTo r.pid) (hwaits : WaitsAt s r c w (if tx then .recvt else .sendt))
  (hne : r.pid ≠ p.pid) (hun : Uninvolved s c [r.pid])
include hother hwaits hne hun

/-- With a partner of one shape the transfer begins, and both wait for its end. -/
theorem exec_tileMove_begins (hshape : tileShape (p.getX (b + 1)) = tileShape w.dw1) :
    exec (if tx then .sendt a b else .recvt a b) s = .next ((({ s.putChan c with
      nextId := s.nextId + 1
      transfers := s.transfers ++ [transferOf s.nextId p r tx (p.getX b) (p.getX (b + 1)) w] } : State).withLast
        (s.procs.map ({ r with wait := .chan { w with moving := some s.nextId } } : Proc).inPlace)
        (blockedAs s p .channel (.chan { tileWait tx c (p.getX b) (p.getX (b + 1)) with
          arrived := true, moving := some s.nextId }))).lend p.pid) := by
  have hone := State.settleOnce_transfers hon hkind hhold hqueue (p.getX b) (p.getX (b + 1)) hother hwaits hne hshape
  have hchan' := State.chan?_putChan (State.chan?_onChannel hon)
  have hsettle := State.settle_parties hon hhold (p.getX b) (p.getX (b + 1)) hother hwaits hne hun hone hchan' rfl rfl
    (Proc.chanWait_moving c rfl rfl) (Proc.chanWait_moving c rfl rfl) nofun nofun
  obtain ⟨hcpu, -, -, -, -, habs, -, hanchor, -, -, hidle, hname, -⟩ := hon
  rw [exec_tileMove hkind hname hhold b hcpu hidle hdesc]
  exact State.toAnchor_waits _ hcpu hanchor hsettle
    (State.proc?_withLast_last (b := blockedAs s p .channel _) (inPlace_absent habs)) nofun

/-- With a partner of another shape both instructions end with CH_TYPE 4, here at once. -/
theorem exec_tileMove_differs (hrd : dieOf r.core = dieOf p.core) (hshape : tileShape (p.getX (b + 1)) ≠ tileShape w.dw1) :
    ∃ x k, exec (if tx then .sendt a b else .recvt a b) s =
      .next ((State.raise { s.putChan c with
          cpu := some { p with wait := .none, since := s.ns, probes := 0, reported := false }
          procs := s.procs.map x.inPlace, cores := k }
        { p with wait := .none, since := s.ns, probes := 0, reported := false } .chType (some 4) 0
          (BitVec.ofNat 64 (c.handle tx)) 4).urge p.core) ∧
      Resumes s r (some (.cause .chType 0 w.handle 4)) x ∧ x.pid = r.pid := by
  obtain ⟨q, x, k, hone, hq, hx, hqpid, hxpid, hqwait, hxwait⟩ :=
    State.settleOnce_mismatch hon hkind hhold hqueue (p.getX b) (p.getX (b + 1)) hother hwaits hne hrd hshape
  have hchan' := State.chan?_putChan (State.chan?_onChannel hon)
  have hsettle := State.settle_parties hon hhold (p.getX b) (p.getX (b + 1)) hother hwaits hne hun hone hchan' hqpid hxpid
    (by simp [Proc.chanWait, hqwait]) (by simp [Proc.chanWait, hxwait]) (by simp [hqwait]) (by simp [hxwait])
  have hwoken : Woken (tileParty s p tx c (p.getX b) (p.getX (b + 1)))
      (some (.cause .chType 0 (BitVec.ofNat 64 (c.handle tx)) 4)) q := hq
  have hst : q.st = .ready := by rw [show q = _ from hwoken]
  have hdone : q.done = some (.cause .chType 0 (BitVec.ofNat 64 (c.handle tx)) 4) := by rw [show q = _ from hwoken]
  obtain ⟨hcpu, hrun, hnone, -, -, habs, -, hanchor, -, -, hidle, hname, -⟩ := hon
  have hfound := State.proc?_withLast_last (s := { s.putChan c with cores := k }) (b := q)
    (inPlace_absent (q := x) (hqpid ▸ habs))
  rw [hqpid] at hfound
  obtain ⟨j, hkeep⟩ := State.keepRunning_fails (s := { s.putChan c with cores := k }) (!tx) (inPlace_absent (q := x) habs)
    hqpid hdone
  rw [backFrom_woken hwoken hrun hnone] at hkeep
  refine ⟨x, j, ?_, hx, hxpid⟩
  rw [exec_tileMove hkind hname hhold b hcpu hidle hdesc]
  exact (State.toAnchor_ends (!tx) hcpu hanchor hsettle hfound hst (by rw [hdone]; rfl)).trans (congrArg _ hkeep)

end

/-- Settles O44: `sendt` and `recvt` find their partner or wait for it, and a transfer that is done has copied its bytes. -/
theorem tileChannels : Obligations.TileChannels := by
  constructor
  · intro s p r c w a b tx hon hkind hhold hqueue hbuf hdesc dw0 dw1 i
    refine ⟨fun hother hun => ?_, fun hother hwaits hne hrd hun => ⟨fun hshape => ?_, fun hshape => ?_⟩⟩
    · obtain ⟨l, n, hlend⟩ := State.lend_shape
        ((s.putChan c).withLast s.procs (tileParty s p tx c (p.getX b) (p.getX (b + 1)))) p.pid
      have hexec := exec_tileMove_blocks hon hkind hhold hqueue hdesc hbuf hother hun
      rw [hlend] at hexec
      exact ⟨_, _, hexec, rfl, rfl, rfl, rfl, rfl, rfl, rfl, rfl⟩
    · have hexec := exec_tileMove_begins hon hkind hhold hqueue hdesc hother hwaits hne hun hshape
      obtain ⟨l, n, hlend⟩ := State.lend_shape (({ s.putChan c with
        nextId := s.nextId + 1
        transfers := s.transfers ++ [transferOf s.nextId p r tx (p.getX b) (p.getX (b + 1)) w] } : State).withLast
          (s.procs.map ({ r with wait := .chan { w with moving := some s.nextId } } : Proc).inPlace)
          (blockedAs s p .channel (.chan { tileWait tx c (p.getX b) (p.getX (b + 1)) with
            arrived := true, moving := some s.nextId }))) p.pid
      rw [hlend] at hexec
      exact ⟨_, _, hexec, rfl, rfl, rfl, rfl, rfl, rfl⟩
    · obtain ⟨x, k, hexec, hx, hxpid⟩ := exec_tileMove_differs hon hkind hhold hqueue hdesc hother hwaits hne hun hrd
        hshape
      refine ⟨_, _, x, hexec, rfl, hx, ?_⟩
      rw [← hxpid]
      rfl
  · intro s p r u w v hp hr hpwait hpmove hrwait hrmove hne hpl hrl hpb hrb htx hrx hfind hread hdst hdie hpackets hrsvs
      hwatches htriggers hwf hsubj pairs hnodup hlow hgone
    obtain ⟨m, e, g, k, hlands⟩ := State.readTransfer_lands hdst hdie hpackets hrsvs hwatches htriggers hlow hgone
    obtain ⟨t, p', r', hexec, htransfers, hp', hr', hothers, hpres, hrres, hmem⟩ := execTileTransferDone_ends
      (p := p) (r := r) ⟨hp, hpb, hpl, w, hpwait, hpmove⟩ ⟨hr, hrb, hrl, v, hrwait, hrmove⟩ hne htx hrx hfind hread
      hpackets hsubj hlands
    obtain ⟨hin, hout⟩ := State.transferCells_copied hpackets hwf hnodup
    rw [← hmem] at hin hout
    exact ⟨t, p', r', hexec, htransfers, hp', hr', hothers, hpres, hrres, hin, hout⟩

end Sys2Proof.Machine
end
